-- ==== Sys2Proof/Word.lean ====
section
/-! DEFINITION. The word types of the device (R2): bytes, 32-bit words, 64-bit values. -/

namespace Sys2Proof

/-- One byte of memory. -/
abbrev Byte := BitVec 8

/-- A 32-bit register, lane or memory word. -/
abbrev Word := BitVec 32

/-- A 64-bit value: a register pair, an address, a counter. -/
abbrev DWord := BitVec 64

end Sys2Proof
end

