-- ==== Sys2Proof/Config.lean ====
section
/-! DEFINITION. The free values of the model: constants without a body, about which nothing can be proved.
Each is applied to a counter of State, so every use is a fresh value. -/

namespace Sys2Proof.Config

/-- Which of the values it may see an early reader sees (R92). Free. -/
opaque earlyPick : Nat → Nat

/-- A key drawn from the internal random source (R40, R41, R45, R49). Free. -/
opaque randomKey : Nat → BitVec 256

/-- What a byte of the save area holds once the device has written a unit there: the layout is the device's own (R55). Free. -/
opaque saveByte : Nat → Byte

/-- How many asynchronous steps the device takes in one clock (latencies are left open). Free. -/
opaque asyncCount : Nat → Nat

/-- Which of the enabled asynchronous steps comes next (the order between agents is left open). Free. -/
opaque pick : Nat → Nat

end Sys2Proof.Config
end

