-- ==== Sys2Proof/Syntax.lean ====
section
/-! DEFINITION. The instructions of the Clagor instruction set (R190 to R204) and the other steps of the SLX-9400's
table of operations and events, as syntax: one constructor of `Instr` for each row. -/

namespace Sys2Proof

/-- The hint and guard fields that every instruction word carries (R192, R193). -/
structure Hints where
  wait   : BitVec 12
  stall  : BitVec 4
  signal : BitVec 4
  gneg   : Bool
  guard  : BitVec 3
  deriving DecidableEq, Repr

/-- The operand classes of R194. -/
inductive Cls where
  | v | s | p | f | k | a | t | q | x | none
  deriving DecidableEq, Repr

/-- An operand: a class and an index (R194). Class none holds any index. -/
inductive Opd where
  | v (i : BitVec 8) | s (i : BitVec 8) | p (i : BitVec 8) | f (i : BitVec 8) | k (i : BitVec 8) | a (i : BitVec 8)
  | t (i : BitVec 8) | q (i : BitVec 8) | x (i : BitVec 8) | none (i : BitVec 8)
  deriving DecidableEq, Repr

/-- Operand B, or the literal that takes its place (R198). -/
inductive SrcB where
  | reg (o : Opd)
  | lit (w : Word)
  deriving DecidableEq, Repr

/-- ORDER of a memory operand (R202). -/
inductive Order where
  | plain | acq | rel | ar
  deriving DecidableEq, Repr

/-- SCOPE of a release or an acquire (R202, R263). -/
inductive Scope where
  | wave | team | clu | dev | sys
  deriving DecidableEq, Repr

/-- Field B of a memory operand: the index form and the offset form of R201. `nr` is bit 24. -/
inductive Mem where
  | index (scale : BitVec 2) (order : Order) (scope : Scope) (nr : Bool) (idx : Opd) (off : BitVec 12)
  | offset (lit : Word)
  deriving DecidableEq, Repr

/-- SAT of the integer adds (R226). -/
inductive Sat where
  | wrap | sat | usat
  deriving DecidableEq, Repr

/-- The rounding modes of R25. -/
inductive Rnd where
  | rn | rz | rd | ru
  deriving DecidableEq, Repr

/-- COND of a comparison (R200). -/
inductive Cond where
  | eq | ne | lt | le | gt | ge | num | nan
  deriving DecidableEq, Repr

/-- The access widths of R201. -/
inductive Width where
  | w32 | u8 | s8 | u16 | s16 | w64 | w128
  deriving DecidableEq, Repr

/-- The operand formats of the matrix engine (R203). -/
inductive Fmt where
  | e2m1 | e4m3 | e5m2 | int8 | fp16 | bf16
  deriving DecidableEq, Repr

/-- The formats of CVT (R247). -/
inductive CvtFmt where
  | f32 | f16 | bf16 | e5m2 | e4m3 | s8
  deriving DecidableEq, Repr

/-- KIND of VOTE (R224). -/
inductive VoteKind where
  | any | all | uni | ballot
  deriving DecidableEq, Repr

/-- OP of an atomic (R273). -/
inductive AtomOp where
  | add | min | max | umin | umax | and | or | xor | exch | cas | fadd | fmin | fmax | inc
  deriving DecidableEq, Repr

/-- OP of MROWRED (R300). -/
inductive RowRed where
  | sum | max | maxabs | sumsq
  deriving DecidableEq, Repr

/-- OP of RELABEL (R302). -/
inductive Relab where
  | sum | min | max | count
  deriving DecidableEq, Repr

/-- The address spaces of COPY (R280). -/
inductive Space where
  | global | core | cluster | die
  deriving DecidableEq, Repr

/-- KIND of HINT (R308). -/
inductive HintKind where
  | hot | cold
  deriving DecidableEq, Repr

/-- What one step of the matrix engine performs of a command (R297): the rows and columns whose turn it is, and the order
of the steps it applies. -/
structure MxSel where
  cells : List Nat
  steps : List Nat
  deriving DecidableEq, Repr

/-- The access whose sector failed its tag check (R47): a reading request, a copy, a home's message, an atomic, a buffered store, a fetch,
a forest instruction, the image read of a GLOAD, the patch read of a launch, any other access. -/
inductive IntegTarget where
  | load (wid req sector : Nat)
  | copy (team cmd sector : Nat)
  | post (item : Nat)
  | atomic (wid req sector : Nat)
  | store (wid entry : Nat)
  | fetch (wid split : Nat)
  | forest (op sector : Nat)
  | graph (ctx : Nat)
  | patch (launch : Nat)
  | other (addr : Nat)
  deriving DecidableEq, Repr

/-- What failed: a sector's tag, a node of the counter tree, or an expander that returned poison (R47, R182). -/
inductive IntegCheck where
  | tag | node | expander
  deriving DecidableEq, Repr

/-- The storage macro that a self-test examines (R322, R323). -/
inductive TestSite where
  | core (c row : Nat) | cluster (k row : Nat) | die (d row : Nat) | bank (c b : Nat) | home (h row : Nat)
  | dram (addr : Nat)
  deriving DecidableEq, Repr

/-- The error after which a macro is tested: a corrected storage error, uncorrectable state of a wave, uncorrectable data that a request
or matrix command of a wave reads, an uncorrectable slot of a home, an integrity failure of a tag or of a node, the failure of a
home (R322). -/
inductive TestError where
  | corrected | wave (wid : Nat) | data (wid id : Nat) | slot (idx : Nat) | integrity (node : Bool) | home
  deriving DecidableEq, Repr

/-- What a request of the host or of a peer asks for (R180, R184). -/
inductive MemReq where
  | read (len : Nat)
  | write (bytes : List Byte)
  | atomic (op : AtomOp) (w64 : Bool) (d c n : DWord)
  deriving DecidableEq, Repr

/-- Where a register write goes: the PCIe function whose BAR0 it uses (0 the physical one) and the offset there (R180). -/
structure BarOffset where
  fn  : Nat
  off : Nat
  deriving DecidableEq, Repr

/-- A request that arrives at a Pralink port (R184). -/
structure InReq where
  src   : BitVec 22
  entry : Nat
  off   : Nat
  req   : MemReq
  deriving DecidableEq, Repr

/-- A reply from a peer (R185). -/
inductive Reply where
  | data (bytes : List Byte)
  | ack
  | fault
  deriving DecidableEq, Repr

/-- One constructor for each row of the opcode table: the 142 instructions of R204, each with its hints,
modifiers and operands, and the 101 other steps of the device and its host, each with what the step chooses. -/
inductive Instr where
  /-- NOP (R210) Issues with no effect beyond its stall distance and wait mask. -/
  | nop (h : Hints)
  /-- BRA (R211) Branches the split by a per-lane predicate, or uniformly by an s register with .u, and may divide the wave. -/
  | bra (h : Hints) (not : Bool) (u : Bool) (a : Opd) (n : Word)
  /-- BRX (R212) Sends each lane to a 64-bit register base plus its offset, dividing the wave by target groups. -/
  | brx (h : Hints) (a : Opd) (b : SrcB)
  /-- CALL (R213) Writes the return address to an s pair and sends every active lane to the target. -/
  | call (h : Hints) (d : Opd) (b : SrcB)
  /-- RET (R213) Sends every active lane to the address held in an s pair. -/
  | ret (h : Hints) (a : Opd)
  /-- JOIN (R88) Reconverges the split with a stack entry or a held split, or holds it at the JOIN. -/
  | join (h : Hints)
  /-- EXIT (R215) Ends the guarded lanes, acts on the reconvergence stack, and exits the wave with a system-scope release when no lane remains. -/
  | exit (h : Hints)
  /-- TRAP (R216) Enters the trap handler with cause 0x7F and a 32-bit argument. -/
  | trap (h : Hints) (b : SrcB)
  /-- RETT (R315) Ends the trap handler and resumes the trapping split at the trap program counter. -/
  | rett (h : Hints)
  /-- REGION (R218) Opens an idempotent region, recording its entry state and live-in registers. -/
  | region (h : Hints) (n : Word)
  /-- REGEND (R220) Closes the region, turning its tagged stores and slots into ordinary ones. -/
  | regend (h : Hints)
  /-- YIELD (R222) Makes the split ineligible for n clk and places it last in the tenant's split order. -/
  | yield (h : Hints) (n : Word)
  /-- ELECT (R223) Chooses the lowest participating lane and marks it in a predicate or writes its number to an s register. -/
  | elect (h : Hints) (d : Opd)
  /-- VOTE (R224) Computes any, all, uniform or ballot of a predicate over the participants. -/
  | vote (h : Hints) (kind : VoteKind) (d : Opd) (a : Opd)
  /-- WAIT (R225) Issues only when a named completion counter is at or below a threshold. -/
  | wait (h : Hints) (a : Opd) (n : Word)
  /-- WAITC (R225) Issues only when k8 to k11 are each at or below their thresholds. -/
  | waitc (h : Hints) (n : Word)
  /-- IADD (R228) Adds two 32-bit integers per lane, wrapping or saturating; posted for proxy lanes. -/
  | iadd (h : Hints) (ovf : Sat) (d : Opd) (a : Opd) (b : SrcB)
  /-- ISUB (R228) Subtracts two 32-bit integers per lane, wrapping or saturating; posted for proxy lanes. -/
  | isub (h : Hints) (ovf : Sat) (d : Opd) (a : Opd) (b : SrcB)
  /-- IMUL (R228) Writes the low 32 bits of the product per lane; posted for proxy lanes. -/
  | imul (h : Hints) (d : Opd) (a : Opd) (b : SrcB)
  /-- IMULH (R228) Writes the high 32 bits of the signed or unsigned product per lane. -/
  | imulh (h : Hints) (u : Bool) (d : Opd) (a : Opd) (b : SrcB)
  /-- IMAD (R228) Writes the low 32 bits of a times b plus c per lane; posted for proxy lanes. -/
  | imad (h : Hints) (d : Opd) (a : Opd) (b : SrcB) (c : Opd)
  /-- IDIV (R229) Divides per lane with the quotient rounded toward zero and defined borderline cases. -/
  | idiv (h : Hints) (u : Bool) (d : Opd) (a : Opd) (b : SrcB)
  /-- IREM (R229) Writes the remainder per lane, with the sign of a and defined borderline cases. -/
  | irem (h : Hints) (u : Bool) (d : Opd) (a : Opd) (b : SrcB)
  /-- IMIN (R228) Writes the signed or unsigned lesser value per lane; posted for proxy lanes. -/
  | imin (h : Hints) (u : Bool) (d : Opd) (a : Opd) (b : SrcB)
  /-- IMAX (R228) Writes the signed or unsigned greater value per lane; posted for proxy lanes. -/
  | imax (h : Hints) (u : Bool) (d : Opd) (a : Opd) (b : SrcB)
  /-- IABS (R230) Writes the absolute value per lane, optionally saturating. -/
  | iabs (h : Hints) (sat : Bool) (d : Opd) (a : Opd)
  /-- AND (R228) Bitwise AND per lane; posted for proxy lanes. -/
  | and (h : Hints) (d : Opd) (a : Opd) (b : SrcB)
  /-- OR (R228) Bitwise OR per lane; posted for proxy lanes. -/
  | or (h : Hints) (d : Opd) (a : Opd) (b : SrcB)
  /-- XOR (R228) Bitwise XOR per lane; posted for proxy lanes. -/
  | xor (h : Hints) (d : Opd) (a : Opd) (b : SrcB)
  /-- SHL (R228) Shifts left per lane by the whole 32-bit count; posted for proxy lanes. -/
  | shl (h : Hints) (d : Opd) (a : Opd) (b : SrcB)
  /-- SHR (R228) Shifts right logically per lane by the whole 32-bit count; posted for proxy lanes. -/
  | shr (h : Hints) (d : Opd) (a : Opd) (b : SrcB)
  /-- SAR (R228) Shifts right arithmetically per lane by the whole 32-bit count; posted for proxy lanes. -/
  | sar (h : Hints) (d : Opd) (a : Opd) (b : SrcB)
  /-- ROTL (R228) Rotates each lane left by b[4:0]. -/
  | rotl (h : Hints) (d : Opd) (a : Opd) (b : SrcB)
  /-- BFE (R231) Extracts a bit field per lane, zero- or sign-extended. -/
  | bfe (h : Hints) (sx : Bool) (d : Opd) (a : Opd) (b : SrcB)
  /-- BFI (R231) Inserts the low bits of A into C at a given position per lane. -/
  | bfi (h : Hints) (d : Opd) (a : Opd) (b : SrcB) (c : Opd)
  /-- POPC (R230) Counts the set bits of each lane. -/
  | popc (h : Hints) (d : Opd) (a : Opd)
  /-- CLZ (R230) Counts the leading zeros of each lane. -/
  | clz (h : Hints) (d : Opd) (a : Opd)
  /-- BREV (R230) Reverses the bits of each lane. -/
  | brev (h : Hints) (d : Opd) (a : Opd)
  /-- ISETP (R232) Sets a predicate per lane from an integer comparison; a crossing when a lane is posted. -/
  | isetp (h : Hints) (cond : Cond) (uns : Bool) (d : Opd) (a : Opd) (b : SrcB)
  /-- SEL (R233) Selects A or B per lane by a predicate; posted for proxy lanes. -/
  | sel (h : Hints) (not : Bool) (pred : BitVec 3) (d : Opd) (a : Opd) (b : SrcB)
  /-- MOV (R234) Copies B into D, copying proxy words with their tag and raising the slot count. -/
  | mov (h : Hints) (d : Opd) (b : SrcB)
  /-- IADD2 (R235) Adds packed 16-bit elements independently, wrapping or saturating. -/
  | iadd2 (h : Hints) (ovf : Sat) (d : Opd) (a : Opd) (b : SrcB)
  /-- ISUB2 (R235) Subtracts packed 16-bit elements independently, wrapping or saturating. -/
  | isub2 (h : Hints) (ovf : Sat) (d : Opd) (a : Opd) (b : SrcB)
  /-- IMIN2 (R235) Takes the lesser of each packed 16-bit element pair. -/
  | imin2 (h : Hints) (u : Bool) (d : Opd) (a : Opd) (b : SrcB)
  /-- IMAX2 (R235) Takes the greater of each packed 16-bit element pair. -/
  | imax2 (h : Hints) (u : Bool) (d : Opd) (a : Opd) (b : SrcB)
  /-- ISETP2 (R235) Compares packed 16-bit elements and writes two predicates pD and pD+1. -/
  | isetp2 (h : Hints) (cond : Cond) (uns : Bool) (d : Opd) (a : Opd) (b : SrcB)
  /-- PLOP (R236) Computes a predicate per lane from three predicates through an 8-bit lookup table. -/
  | plop (h : Hints) (lut : BitVec 8) (d : Opd) (a : Opd) (c : Opd) (b : Opd)
  /-- LEA (R237) Forms a 64-bit address per lane from a base pair plus a scaled offset. -/
  | lea (h : Hints) (u : Bool) (scale : BitVec 2) (d : Opd) (a : Opd) (b : SrcB)
  /-- FADD (R241) Adds FP32 values per lane, rounding once by RND; posted for proxy lanes. -/
  | fadd (h : Hints) (rnd : Rnd) (d : Opd) (a : Opd) (b : SrcB)
  /-- FSUB (R241) Subtracts FP32 values per lane, rounding once by RND; posted for proxy lanes. -/
  | fsub (h : Hints) (rnd : Rnd) (d : Opd) (a : Opd) (b : SrcB)
  /-- FMUL (R241) Multiplies FP32 values per lane, rounding once by RND; posted for proxy lanes. -/
  | fmul (h : Hints) (rnd : Rnd) (d : Opd) (a : Opd) (b : SrcB)
  /-- FFMA (R241) Computes a fused a times b plus c per lane with one rounding; posted for proxy lanes. -/
  | ffma (h : Hints) (rnd : Rnd) (d : Opd) (a : Opd) (b : SrcB) (c : Opd)
  /-- FMIN (R242) Writes the lesser FP32 value per lane with defined NaN and signed-zero handling. -/
  | fmin (h : Hints) (d : Opd) (a : Opd) (b : SrcB)
  /-- FMAX (R242) Writes the greater FP32 value per lane with defined NaN and signed-zero handling. -/
  | fmax (h : Hints) (d : Opd) (a : Opd) (b : SrcB)
  /-- FSETP (R243) Sets a predicate per lane from a floating-point comparison; a crossing when a lane is posted. -/
  | fsetp (h : Hints) (cond : Cond) (d : Opd) (a : Opd) (b : SrcB)
  /-- FRCP (R244) Writes the correctly rounded reciprocal per lane. -/
  | frcp (h : Hints) (rnd : Rnd) (d : Opd) (a : Opd)
  /-- FRSQ (R244) Writes the correctly rounded reciprocal square root per lane. -/
  | frsq (h : Hints) (d : Opd) (a : Opd)
  /-- FSQRT (R244) Writes the correctly rounded square root per lane. -/
  | fsqrt (h : Hints) (rnd : Rnd) (d : Opd) (a : Opd)
  /-- FEXP2 (R244) Writes the correctly rounded 2 to the power x per lane. -/
  | fexp2 (h : Hints) (d : Opd) (a : Opd)
  /-- FLOG2 (R244) Writes the correctly rounded base-2 logarithm per lane. -/
  | flog2 (h : Hints) (d : Opd) (a : Opd)
  /-- FSIN (R244) Writes the correctly rounded sine of pi times x per lane. -/
  | fsin (h : Hints) (d : Opd) (a : Opd)
  /-- FCOS (R244) Writes the correctly rounded cosine of pi times x per lane. -/
  | fcos (h : Hints) (d : Opd) (a : Opd)
  /-- HADD2 (R245) Adds packed FP16 or BF16 elements independently. -/
  | hadd2 (h : Hints) (bf : Bool) (rnd : Rnd) (d : Opd) (a : Opd) (b : SrcB)
  /-- HMUL2 (R245) Multiplies packed FP16 or BF16 elements independently. -/
  | hmul2 (h : Hints) (bf : Bool) (rnd : Rnd) (d : Opd) (a : Opd) (b : SrcB)
  /-- HFMA2 (R245) Computes fused multiply-add on packed FP16 or BF16 elements. -/
  | hfma2 (h : Hints) (bf : Bool) (rnd : Rnd) (d : Opd) (a : Opd) (b : SrcB) (c : Opd)
  /-- F2I (R246) Converts FP32 to a signed or unsigned 32-bit integer per lane. -/
  | f2i (h : Hints) (u : Bool) (rnd : Rnd) (d : Opd) (a : Opd)
  /-- I2F (R246) Converts a signed or unsigned 32-bit integer to FP32 per lane. -/
  | i2f (h : Hints) (u : Bool) (rnd : Rnd) (d : Opd) (a : Opd)
  /-- CVT (R247) Converts one element between two formats, keeping the destination's other elements. -/
  | cvt (h : Hints) (elem : BitVec 2) (sat : Bool) (rnd : Rnd) (dst : CvtFmt) (src : CvtFmt) (d : Opd) (a : Opd)
  /-- QUANT (R248) Quantises 32 lanes of FP32 into one E2M1 block written to five s registers. -/
  | quant (h : Hints) (rnd : BitVec 2) (d : Opd) (a : Opd)
  /-- FCLASS (R249) Writes a one-hot mask of the FP32 class of each lane. -/
  | fclass (h : Hints) (d : Opd) (a : Opd)
  /-- SADD (R253) Adds two uniform scalars. -/
  | sadd (h : Hints) (d : Opd) (a : Opd) (b : SrcB)
  /-- SSUB (R253) Subtracts two uniform scalars. -/
  | ssub (h : Hints) (d : Opd) (a : Opd) (b : SrcB)
  /-- SMUL (R253) Multiplies two uniform scalars, keeping the low 32 bits. -/
  | smul (h : Hints) (d : Opd) (a : Opd) (b : SrcB)
  /-- SAND (R253) Bitwise AND of uniform scalars. -/
  | sand (h : Hints) (d : Opd) (a : Opd) (b : SrcB)
  /-- SOR (R253) Bitwise OR of uniform scalars. -/
  | sor (h : Hints) (d : Opd) (a : Opd) (b : SrcB)
  /-- SXOR (R253) Bitwise XOR of uniform scalars. -/
  | sxor (h : Hints) (d : Opd) (a : Opd) (b : SrcB)
  /-- SSHL (R253) Shifts a uniform scalar left. -/
  | sshl (h : Hints) (d : Opd) (a : Opd) (b : SrcB)
  /-- SSHR (R253) Shifts a uniform scalar right, logically or arithmetically with .s. -/
  | sshr (h : Hints) (sx : Bool) (d : Opd) (a : Opd) (b : SrcB)
  /-- SMOV (R253) Moves a uniform scalar or pair, or a literal, into an s register. -/
  | smov (h : Hints) (w64 : Bool) (d : Opd) (b : SrcB)
  /-- SCMP (R254) Writes 1 or 0 to an s register from a comparison. -/
  | scmp (h : Hints) (cond : Cond) (uns : Bool) (d : Opd) (a : Opd) (b : SrcB)
  /-- SMIN (R253) Writes the lesser of two uniform scalars. -/
  | smin (h : Hints) (u : Bool) (d : Opd) (a : Opd) (b : SrcB)
  /-- SMAX (R253) Writes the greater of two uniform scalars. -/
  | smax (h : Hints) (u : Bool) (d : Opd) (a : Opd) (b : SrcB)
  /-- SLD (R255) Loads s registers from memory or a tile in one access, counting on k8. -/
  | sld (h : Hints) (width : Width) (d : Opd) (a : Opd) (m : Mem)
  /-- SST (R255) Stores s registers to memory or a tile in one access, counting on k9. -/
  | sst (h : Hints) (width : Width) (d : Opd) (a : Opd) (m : Mem)
  /-- VREAD (R256) Copies one lane of a v register into an s register. -/
  | vread (h : Hints) (d : Opd) (a : Opd) (b : SrcB)
  /-- VWRITE (R256) Writes an s register into one lane, or every participant lane with .all, of a v register. -/
  | vwrite (h : Hints) (all : Bool) (d : Opd) (a : Opd) (b : SrcB)
  /-- PSET (R259) Fills a q register with a Benes setting from a permutation vector or raw bits. -/
  | pset (h : Hints) (raw : Bool) (d : Opd) (a : Opd)
  /-- PERM (R260) Routes all 32 lanes through the permutation held in a q register. -/
  | perm (h : Hints) (d : Opd) (a : Opd) (b : Opd)
  /-- BCAST (R261) Copies one lane of a register to every participant lane. -/
  | bcast (h : Hints) (d : Opd) (a : Opd) (b : SrcB)
  /-- LD (R270) Issues a per-lane global load through a frame, an s pair or base none, counting on k8. -/
  | ld (h : Hints) (width : Width) (d : Opd) (a : Opd) (m : Mem)
  /-- ST (R270) Buffers a per-lane global store, or posts it for proxy lanes, counting on k9. -/
  | st (h : Hints) (width : Width) (d : Opd) (a : Opd) (m : Mem)
  /-- LDS (R270) Issues a per-lane scratchpad load at a port or sector bank, counting on k8. -/
  | lds (h : Hints) (width : Width) (d : Opd) (a : Opd) (m : Mem)
  /-- STS (R270) Issues an unbuffered per-lane scratchpad store, counting on k9. -/
  | sts (h : Hints) (width : Width) (d : Opd) (a : Opd) (m : Mem)
  /-- ATOM (R273) Issues a per-lane global atomic read-modify-write, returning the old value unless .nr. -/
  | atom (h : Hints) (op : AtomOp) (w64 : Bool) (d : Opd) (a : Opd) (m : Mem)
  /-- ATOMS (R273) Issues a per-lane scratchpad atomic performed at the port. -/
  | atoms (h : Hints) (op : AtomOp) (w64 : Bool) (d : Opd) (a : Opd) (m : Mem)
  /-- FRAME (R275) Translates a uniform base and writes a frame register with base, limit, tier and key. -/
  | frame (h : Hints) (d : Opd) (a : Opd)
  /-- PUB (R276) Performs a release at the named scope without holding the split. -/
  | pub (h : Hints) (scope : Scope)
  /-- ACQ (R276) Performs an acquire at the named scope covering every earlier read of the wave. -/
  | acq (h : Hints) (scope : Scope)
  /-- FENCE (R276) Performs a release then an acquire, ordering earlier stores before later loads. -/
  | fence (h : Hints) (scope : Scope)
  /-- LDX (R277) Loads one word per lane as a proxy, taking slots and writing proxy words at issue. -/
  | ldx (h : Hints) (d : Opd) (a : Opd) (m : Mem)
  /-- MAT (R278) Crosses proxy values into the core as plain values, holding the split until all return. -/
  | mat (h : Hints) (d : Opd) (a : Opd)
  /-- PXREL (R279) Releases each tagged lane's slot reference and sets the lane to untagged 0. -/
  | pxrel (h : Hints) (d : Opd)
  /-- ISPX (R279) Writes each lane's proxy tag into a predicate. -/
  | ispx (h : Hints) (d : Opd) (a : Opd)
  /-- COPY (R280) Checks, releases at device scope and appends a copy command to the team's copy ring. -/
  | copy (h : Hints) (dsp : Space) (ssp : Space) (d : Opd) (a : Opd) (b : Opd) (c : Opd)
  /-- TDEF (R284) Writes a tile geometry from four s registers into an EMPTY or READY tile. -/
  | tdef (h : Hints) (d : Opd) (a : Opd)
  /-- TMOV (R283) Queues a tile-to-tile move in the team's tile-move queue. -/
  | tmov (h : Hints) (d : Opd) (a : Opd) (c : Opd)
  /-- TSTAT (R284) Returns a tile table entry in four s registers. -/
  | tstat (h : Hints) (d : Opd) (a : Opd)
  /-- TFREE (R284) Clears a tile's DEFINED bit, leaving it EMPTY. -/
  | tfree (h : Hints) (d : Opd)
  /-- TXINIT (R286) Initialises a txbar to phase 0 with n expected arrivals. -/
  | txinit (h : Hints) (a : Opd) (b : SrcB)
  /-- TXEXPECT (R286) Adds expected sectors to a txbar's pending count. -/
  | txexpect (h : Hints) (a : Opd) (b : SrcB)
  /-- TXARRIVE (R286) Releases and then arrives at a txbar with count c, possibly flipping its phase. -/
  | txarrive (h : Hints) (a : Opd) (b : SrcB)
  /-- TXWAIT (R287) Holds the split until the txbar's phase differs from p, then acquires. -/
  | txwait (h : Hints) (a : Opd) (b : SrcB)
  /-- TXTEST (R287) Reads a txbar's word once into four s registers, acquiring if its phase differs from p. -/
  | txtest (h : Hints) (d : Opd) (a : Opd) (b : SrcB)
  /-- CBAR (R288) Links a core txbar as a leaf to a cluster txbar root. -/
  | cbar (h : Hints) (a : Opd) (b : Opd)
  /-- MLOADB (R294) Loads weights from a tile into the named banks' weight slots and latches their format. -/
  | mloadb (h : Hints) (fmt : Fmt) (slot : Bool) (d : Opd) (b : SrcB)
  /-- MMA (R295) Streams A rows through the named banks and accumulates group steps into accumulator tiles. -/
  | mma (h : Hints) (fmt : Fmt) (slot : Bool) (sc : Bool) (d : Opd) (a : Opd) (b : SrcB)
  /-- MCHAIN (R296) Opens a matrix chain in the wave. -/
  | mchain (h : Hints)
  /-- MEND (R296) Closes the wave's open matrix chain. -/
  | mend (h : Hints)
  /-- OPRDY (R298) Orders later matrix reads of a tile after the wave's earlier writes and acquired writes. -/
  | oprdy (h : Hints) (a : Opd)
  /-- MZERO (R299) Writes +0 to the participant rows of an accumulator tile. -/
  | mzero (h : Hints) (d : Opd)
  /-- MREAD (R299) Reads an accumulator column into a v register or a converted image into a tile. -/
  | mread (h : Hints) (fmt : Fmt) (f32 : Bool) (d : Opd) (a : Opd) (b : SrcB)
  /-- MWRITE (R299) Writes an accumulator column from a v register or a whole image from a tile. -/
  | mwrite (h : Hints) (fmt : Fmt) (f32 : Bool) (d : Opd) (a : Opd) (b : SrcB)
  /-- MSCALE (R294) Loads block scales into weight slots, or into the partition's A-scale buffer with .a. -/
  | mscale (h : Hints) (slot : Bool) (side : Bool) (d : Opd) (b : SrcB)
  /-- MROWRED (R300) Reduces each participant row of an accumulator tile into a v register lane. -/
  | mrowred (h : Hints) (op : RowRed) (d : Opd) (a : Opd)
  /-- FINIT (R166) Initialises an equivalence forest from its descriptor at its home. -/
  | finit (h : Hints) (a : Opd)
  /-- UNITE (R170) Unites a batch of element pairs in a forest as one indivisible operation. -/
  | unite (h : Hints) (a : Opd) (b : Opd) (c : Opd)
  /-- FIND (R171) Returns each lane's root or canonical label, compressing paths. -/
  | find (h : Hints) (label : Bool) (d : Opd) (a : Opd) (b : Opd)
  /-- RELABEL (R173) Reduces an input array over each class and writes results by root or compacted. -/
  | relabel (h : Hints) (compact : Bool) (s32 : Bool) (op : Relab) (a : Opd) (b : Opd) (c : Opd)
  /-- FSNAP (R172) Opens a forest snapshot with an empty undo log. -/
  | fsnap (h : Hints) (a : Opd)
  /-- FUNDO (R172) Undoes every union since the snapshot from the undo log. -/
  | fundo (h : Hints) (a : Opd)
  /-- FCOMMIT (R172) Commits the snapshot, clearing young bits and returning the forest to LIVE. -/
  | fcommit (h : Hints) (a : Opd)
  /-- FSTAT (R173) Writes a forest's CLASSES and LARGEST to an s pair. -/
  | fstat (h : Hints) (d : Opd) (a : Opd)
  /-- GETS (R305) Copies a special register into an s register. -/
  | gets (h : Hints) (d : Opd) (a : Opd)
  /-- SETS (R305) Writes a writable special register, clearing FPSTAT flags by 1 bits. -/
  | sets (h : Hints) (d : Opd) (b : SrcB)
  /-- TIME (R306) Writes the nanoseconds since cold reset to an s pair. -/
  | time (h : Hints) (d : Opd)
  /-- CLOCK (R306) Writes the current core's clock count to an s pair. -/
  | clock (h : Hints) (d : Opd)
  /-- QPUT (R307) Releases, reads a launch packet and appends it to a device queue. -/
  | qput (h : Hints) (queue : BitVec 3) (a : Opd)
  /-- HINT (R308) Raises or clears the hotness counter of a translated page. -/
  | hint (h : Hints) (kind : HintKind) (a : Opd)
  /-- WOPEN (R309) Opens a window over a page range for an importer context and returns its id. -/
  | wopen (h : Hints) (d : Opd) (a : Opd) (b : SrcB)
  /-- WCLOSE (R309) Closes a window that the issuing context owns. -/
  | wclose (h : Hints) (b : SrcB)
  /-- TLBINV (R310) Releases at system scope and invalidates a page range of the context. -/
  | tlbinv (h : Hints) (a : Opd) (b : SrcB)
  /-- BKPT (R311) Traps with cause 0x0A and an argument, resuming after the BKPT. -/
  | bkpt (h : Hints) (b : SrcB)
  /-- PARTITION_ISSUE_CLOCK (R94) Each clock the partition fuses splits and chooses tenants and splits for its two issue slots. -/
  | partitionIssueClock (core part : Nat)
  /-- RECONVERGENCE_FILL (R90) A needed stack entry is read back from the spill area, checked, and the split resumes. -/
  | reconvergenceFill (wid split : Nat)
  /-- RESULT_WRITEBACK (R92) A fixed-latency instruction's results are written, flags ORed and its signal counter falls. -/
  | resultWriteback (wid wb : Nat)
  /-- MEMORY_SECTOR_RETURN (R270) Returning sectors of a load write their lanes and the counter falls when all lanes are written. -/
  | memorySectorReturn (wid req sector : Nat)
  /-- TLB_MISS_SERVED (R153) A translation miss is served by the cluster TLB or a walk, filling TLBs or parking the wave on fault. -/
  | tlbMissServed (wid req page evictCore evictCluster : Nat)
  /-- STORE_ACCEPTED (R264) A memory controller accepts a buffered store, freeing its store-buffer entry. -/
  | storeAccepted (wid entry : Nat)
  /-- RELEASE_COMPLETE (R265) A release completes once its covered accesses and earlier releases have completed. -/
  | releaseComplete (wid rel : Nat)
  /-- ATOMIC_PERFORM (R273) An atomic is performed at its sector's owner or port and acknowledged. -/
  | atomicPerform (wid req sector : Nat)
  /-- PORT_ACCESS (R125) A scratchpad port or sector bank performs one access in arrival order. -/
  | portAccess (op : Nat)
  /-- SLOT_GRANT (R101) A home grants FREE slots to a core's pool, or marks the pool dry. -/
  | slotGrant (core home : Nat) (slots : List Nat)
  /-- POSTED_OPERATION_EXECUTE (R104) A home executes a posted operation in the wave's issue order and writes its destination slot. -/
  | postedOperationExecute (item : Nat)
  /-- PROXY_FORWARD (R104) A source home reads a slot and forwards it to the executing home. -/
  | proxyForward (item : Nat)
  /-- LDX_FILL (R277) A home copies the loaded word into the LDX's destination slot and sets its count. -/
  | ldxFill (item : Nat)
  /-- REFERENCE_COUNT_CHANGE (R108) A home applies a slot count change, freeing the slot at zero or dropping a stale change. -/
  | referenceCountChange (item : Nat)
  /-- CROSSING_RESULT (R107) A crossing's per-lane result returns to the core; the split resumes when all have returned. -/
  | crossingResult (item : Nat)
  /-- POSTED_TIMEOUT (R113) A posted operation or forward finds no answer within the remote timeout and poisons its destination. -/
  | postedTimeout (item : Nat)
  /-- HOME_STORE_PERFORM (R106) A home performs a queued posted store at memory for a release. -/
  | homeStorePerform (home store : Nat)
  /-- MATRIX_COMMAND_EXECUTE (R297) The matrix engine performs a received command in engine order and its counter falls. -/
  | matrixCommandExecute (cmd : Nat) (sel : MxSel)
  /-- FOREST_ACCEPT (R167) HOME accepts or refuses a posted forest instruction and performs it indivisibly. -/
  | forestAccept (op : Nat) (order : List Nat)
  /-- COPY_TAKE (R129) The copy engine takes a queued command in ring order and makes it ACTIVE. -/
  | copyTake (team cmd : Nat)
  /-- COPY_SECTOR_LAND (R129) A copy sector lands, lowers the txbar's SECTORS and completes the command at its last sector. -/
  | copySectorLand (team cmd sector : Nat)
  /-- COPY_FAULT (R131) A copy faults, setting STATUS FAULT and the txbar's flag and logging a report. -/
  | copyFault (team cmd cause addr : Nat)
  /-- LEAF_ARRIVAL_DELIVERY (R137) A leaf's completed phase delivers one arrival with its FAULT to the root. -/
  | leafArrivalDelivery (cluster leaf : Nat)
  /-- ROOT_BROADCAST (R137) A root's new phase and FAULT reach a linked leaf, which reloads and wakes its waiters. -/
  | rootBroadcast (cluster leaf : Nat)
  /-- TEAM_PLACEMENT (R79) Waiting teams are placed on cores when a grid is admitted or resources free, starting their waves. -/
  | teamPlacement 
  /-- LAZY_SAVE_COMPLETE (R57) A SAVING unit's write completes; it is zeroed and handed to the claimant. -/
  | lazySaveComplete (block : Nat)
  /-- SAVE_AREA_RETRY (R56) A failed save-area write is retried once, and a second failure loses the unit with cause 0x43. -/
  | saveAreaRetry (block : Nat) (ok : Bool)
  /-- WAVE_SLOT_RELEASE (R83) An exited wave's slot is freed once all its requests have completed or been dropped. -/
  | waveSlotRelease (wid : Nat)
  /-- TEAM_MIGRATION (R98) The cluster scheduler moves a team to another core of the cluster. -/
  | teamMigration (team core : Nat)
  /-- GRID_COMPLETE (R78) A DRAINING grid whose copies and children have completed becomes COMPLETE, emits its record and readies dependent nodes. -/
  | gridComplete (grid : Nat)
  /-- TRIG_WRITE (R61) A 64-bit trigger write is checked and, if accepted, starts one graph launch. -/
  | trigWrite (ctx width : Nat) (value : BitVec 64)
  /-- PATCH_APPLY (R64) The TGE reads, checks and applies the launch's patch list, then forms launch packets. -/
  | patchApply (launch : Nat)
  /-- ADMISSION (R76) Admission control tests a launch's budgets and floor charge and admits or refuses it. -/
  | admission 
  /-- GLOAD_ADDRESS_WRITE (R63) A GLOAD address write arms a load or unload command. -/
  | gloadAddressWrite (ctx width : Nat) (value : BitVec 64)
  /-- GLOAD_LOAD (R63) An id write starts the armed load of a graph image onto an id. -/
  | gloadLoad (ctx width : Nat) (value : BitVec 64)
  /-- GLOAD_UNLOAD (R63) An id write starts the armed unload of a graph id. -/
  | gloadUnload (ctx width : Nat) (value : BitVec 64)
  /-- GLOAD_SEQUENCE_ERROR (R63) An id write with nothing armed, or any GLOAD write with a reserved bit, disarms and sets GSTAT 7. -/
  | gloadSequenceError (ctx width : Nat) (value : BitVec 64)
  /-- GLOAD_LOAD_COMPLETE (R63) A graph load finishes reading, checking and copying its image and sets GSTAT. -/
  | gloadLoadComplete (ctx : Nat) (copyFails : Bool)
  /-- CREATE (R40) VDCTL command moving a FREE context to CREATED. -/
  | create (ctx : Nat)
  /-- KEYGEN (R40) VDCTL command drawing a fresh key into the context's slot. -/
  | keygen (ctx : Nat)
  /-- GRANT (R40) VDCTL command granting and instantly clearing a range of physical pages. -/
  | grant (ctx : Nat)
  /-- ADMIT (R40) VDCTL command making the context RESIDENT and replaying its interrupt log. -/
  | admitCtx (ctx : Nat)
  /-- SUSPEND (R40) VDCTL command pre-empting every wave of a RESIDENT context. -/
  | suspend (ctx : Nat)
  /-- SUSPEND_COMPLETE (R40) The last wave's state is saved and the context becomes SUSPENDED. -/
  | suspendComplete (ctx : Nat)
  /-- RESET (R40) VDCTL command discarding the context's work and moving it to RESETTING. -/
  | reset (ctx : Nat)
  /-- RESET_DRAIN_COMPLETE (R40) The last outstanding request drains; the context is re-keyed, cleared and returns to KEYED. -/
  | resetDrainComplete (ctx : Nat)
  /-- RELEASE (R40) VDCTL command zeroising the key and ungranting every page of a KEYED context. -/
  | release (ctx : Nat)
  /-- VDCTL_UNDEFINED_COMMAND (R39) A VDCTL command code 8-15 sets ERR to 3 and does nothing else. -/
  | vdctlUndefinedCommand (ctx : Nat) (code : BitVec 4)
  /-- BACKGROUND_SCRUB (R46) The scrub overwrites old ciphertext of cleared sectors with zeros. -/
  | backgroundScrub (sector : Nat)
  /-- INTEGRITY_REREAD (R47) A sector failing its tag check is read again, and a second failure yields the access's outcome. -/
  | integrityReread (target : IntegTarget) (check : IntegCheck) (again : Bool)
  /-- SELF_TEST_COMPLETE (R323) A macro's self-test ends, classifying the error transient or lasting and remapping or retiring. -/
  | selfTestComplete (site : TestSite) (err : TestError) (fails : Bool)
  /-- WINDOW_OPENED (R49) A window's last page is re-keyed; it becomes OPEN and takes any held close. -/
  | windowOpened (window : Nat)
  /-- WINDOW_CLOSED (R49) A CLOSING window's accesses complete and pages are re-keyed back; its slot is zeroised. -/
  | windowClosed (window : Nat)
  /-- REPLAY_WAVE (R319) REPLAY action 0 reissues a parked wave's instruction for its unfinished lanes. -/
  | replayWave (ctx : Nat) (value : BitVec 64)
  /-- REPLAY_DELIVER_TRAP (R319) REPLAY action 1 delivers a parked fault as a precise trap. -/
  | replayDeliverTrap (ctx : Nat) (value : BitVec 64)
  /-- REPLAY_UNRECOVERED (R319) REPLAY action 2 treats the parked wave as unrecovered and drains its grid. -/
  | replayUnrecovered (ctx : Nat) (value : BitVec 64)
  /-- REPLAY_INVALID_ACTION (R319) REPLAY action 3 sets REPLAYSTAT to 2. -/
  | replayInvalidAction (ctx : Nat) (value : BitVec 64)
  /-- HELD_FAULT_RECORD_WRITE (R318) A parked-fault record held by a full queue is written once a record slot frees. -/
  | heldFaultRecordWrite (ctx : Nat)
  /-- INVCNT_WRITE (R149) A write to INVCNT starts an invalidation of a page range. -/
  | invcntWrite (ctx : Nat) (value : BitVec 32)
  /-- INVALIDATION_COMPLETE (R154) An invalidation completes after every access translated with the old entry is accepted. -/
  | invalidationComplete (inv : Nat)
  /-- MOVEREQ (R158) A MOVEREQ write is judged and, if accepted, starts a page move. -/
  | movereq (value : BitVec 64)
  /-- HOTSEL (R156) A HOTSEL write selects the frame whose hotness counter HOTVAL returns. -/
  | hotsel (value : BitVec 64)
  /-- POLICY_INTERVAL (R158) At each policy interval the engine selects candidates, starts moves and halves counters. -/
  | policyInterval 
  /-- MOVE_CUT_COMPLETE (R160) A move's invalidation completes and copying begins at sector 0. -/
  | moveCutComplete (move : Nat)
  /-- MOVE_SECTOR_COPY (R160) A sector is re-encrypted and written at D, its moved bit set, committing after the last. -/
  | moveSectorCopy (move : Nat) (sourceFails : Bool)
  /-- MOVE_SOURCE_RELEASE (R160) Once no core holds work carrying S, S is cleared and appended to its pool. -/
  | moveSourceRelease (move : Nat)
  /-- MOVE_COPY_TIMEOUT (R160) A sector copy exceeding 2,000 ns, or D failing, aborts the move. -/
  | moveCopyTimeout (move : Nat) (destFailed : Bool)
  /-- MOVE_COPY_BACK (R160) An aborting move copies a moved sector back, ending IDLE with 0x50 after the last. -/
  | moveCopyBack (move : Nat) (reachable : Bool)
  /-- PORT_ENABLE (R179) Writing ENABLE 1 starts a DOWN port's link training. -/
  | portEnable (port : Nat)
  /-- PORT_DISABLE (R179) Writing ENABLE 0 takes a port DOWN, ending its requests in flight. -/
  | portDisable (port : Nat)
  /-- PORT_TRAINING_COMPLETE (R179) Training completes at full width and rate and the port goes UP. -/
  | portTrainingComplete (port capacity : Nat)
  /-- PORT_TRAINING_FAIL (R179) A sixteenth consecutive training failure makes the port FAILED. -/
  | portTrainingFail (port : Nat)
  /-- PORT_LINK_LOST (R179) Eight consecutive flit check failures or partner loss retrain an UP port. -/
  | portLinkLost (port : Nat)
  /-- FLIT_RECEIVE (R183) A Pralink flit arrives and is checked, or resent from the replay buffer on failure. -/
  | flitReceive (port : Nat) (good : Bool)
  /-- INBOUND_REQUEST (R184) A target checks a remote request against its inbound entry and performs or faults it. -/
  | inboundRequest (port : Nat) (rq : InReq)
  /-- HOST_MEM_ACCESS (R180) A host CXL.mem access is served through an inbound entry or fails with 0x73. -/
  | hostMemAccess (addr : Nat) (rq : MemReq)
  /-- REMOTE_REPLY (R185) A remote reply or fault reply arrives at the initiator. -/
  | remoteReply (req : Nat) (rp : Reply)
  /-- REMOTE_TIMEOUT (R185) RTIMEOUT lapses on a remote request, which is ended as a timeout. -/
  | remoteTimeout (req : Nat)
  /-- PART_WRITE (R187) A PART write updates a hard partition or is refused, shrinking clusters or ports as it does. -/
  | partWrite (part : Nat) (value : BitVec 128)
  /-- COMMAND_SLOT (R328) In each command slot a channel group chooses and serves a request by floors and tokens. -/
  | commandSlot (group : Nat)
  /-- TOKEN_BUCKET_FILL (R328) Each context's bucket fills at its effective BTOKEN rate up to 4,096 tokens. -/
  | tokenBucketFill (ctx group span : Nat)
  /-- ROW_IDLE_CLOSE (R330) A bank idle for 100 ns closes its open row. -/
  | rowIdleClose (channel bank : Nat)
  /-- REFRESH_DUE (R331) A per-bank refresh falls due and is issued, postponed, or forces an all-bank refresh. -/
  | refreshDue (channel : Nat)
  /-- ALL_BANK_REFRESH_END (R331) A forced all-bank refresh ends after tRFCab and waiting requests proceed. -/
  | allBankRefreshEnd (channel : Nat)
  /-- THERMAL_THRESHOLD_CROSSING (R332) A stack's hottest layer crosses a temperature threshold, changing refresh, slots or shutting down. -/
  | thermalThresholdCrossing (stack temp : Nat)
  /-- POWER_WINDOW_END (R335) At each 4,096-clk window end islands evaluate near-threshold mode and the cluster adjusts cadence. -/
  | powerWindowEnd (cluster watts : Nat)
  /-- ISLAND_VOLTAGE_STABLE (R335) A RISING island's voltage is stable after 1,400 clk and full rate is restored. -/
  | islandVoltageStable (cluster island : Nat)
  /-- ISLCTL_WRITE (R335) An ISLCTL write updates thresholds, and NTEN written 0 raises a NEAR island. -/
  | islctlWrite (cluster island : Nat) (value : BitVec 32)
  /-- DROOP_DETECT (R337) A supply droop increments DROOPCNT and starts a 6-clk stretch. -/
  | droopDetect (cluster : Nat)
  /-- DROOP_STRETCH_END (R337) The 6 stretched clocks end and 64 halving clocks begin. -/
  | droopStretchEnd (cluster : Nat)
  /-- DROOP_HALVING_END (R337) The 64 halving clocks end and dual issue returns. -/
  | droopHalvingEnd (cluster : Nat)
  /-- CLUSTER_GATE_REQUEST (R132) A GATE write requests gating, refused unless every core is idle. -/
  | clusterGateRequest (cluster : Nat)
  /-- CLUSTER_AUTO_GATE (R339) With AUTO set, a cluster idle for 1,000,000 ns requests its own gating. -/
  | clusterAutoGate (cluster : Nat)
  /-- CLUSTER_GATED (R132) A CLOSING cluster's transactions are performed; slots are returned and power removed. -/
  | clusterGated (cluster : Nat)
  /-- CLUSTER_WAKE_REQUEST (R132) A WAKE write or a placement restores power to a GATED cluster. -/
  | clusterWakeRequest (cluster : Nat)
  /-- CLUSTER_WAKE_COMPLETE (R339) After 14,000 clk power is stable; scratchpads are zeroed and held placement proceeds. -/
  | clusterWakeComplete (cluster : Nat)
  /-- COLD_RESET (R5) Cold reset sets every register field to its reset value and clears the Amber black box. -/
  | coldReset 
  /-- WARM_RESET (R321) Warm reset resets the device while the Amber black box survives. -/
  | warmReset 
  /-- REGISTER_WRITE (R4) A write to a register without a row of its own stores the value by its field map. -/
  | registerWrite (offset : BarOffset) (width : Nat) (value : BitVec 128)
  /-- HOME_UNIT_FAILURE (R322) A home unit fails; later posted operations to it poison with 0x28 and a self-test of its storage follows. -/
  | homeUnitFailure (home : Nat)
  /-- PER_BANK_REFRESH_COMPLETE (R331) A per-bank refresh ends tRFCpb after it began, freeing the bank and letting an owing bank repay its next refresh. -/
  | perBankRefreshComplete (channel bank : Nat)
  deriving DecidableEq, Repr

end Sys2Proof
end

