-- ==== Sys2Proof/WellFormed.lean ====
section
/-! DEFINITION. Well-formed instructions: the terms of `Instr` that an instruction word can hold (R194 to R203). -/

namespace Sys2Proof

/-- SIGNAL 0xC to 0xE name no counter (R192). -/
def Hints.wf (h : Hints) : Bool := h.signal.toNat < 12 || h.signal == 15

/-- The class of an operand. -/
def Opd.cls : Opd → Cls
  | .v _ => .v | .s _ => .s | .p _ => .p | .f _ => .f | .k _ => .k | .a _ => .a | .t _ => .t | .q _ => .q | .x _ => .x
  | .none _ => .none

/-- The index of an operand. -/
def Opd.idx : Opd → BitVec 8
  | .v i => i | .s i => i | .p i => i | .f i => i | .k i => i | .a i => i | .t i => i | .q i => i | .x i => i | .none i => i

/-- The indices of each class (R194, R197). -/
def Opd.inRange : Opd → Bool
  | .v _ => true
  | .s i => i.toNat < 192
  | .p i => i.toNat < 8
  | .f i => i.toNat < 8
  | .k i => i.toNat < 12
  | .a i => i.toNat < 64
  | .t _ => true
  | .q i => i.toNat < 8
  | .x i => i.toNat ≤ 11 || i == 16 || (32 ≤ i.toNat && i.toNat ≤ 47)
  | .none _ => true

/-- An operand of one of the accepted classes, with an index of its class (R194, R195). -/
def Opd.isIn (o : Opd) (cs : List Cls) : Bool := cs.contains o.cls && o.inRange

/-- A register pair starts at an even register (R195). -/
def Opd.even : Opd → Bool
  | .v i | .s i | .p i => i.toNat % 2 == 0
  | _ => true

/-- A group of four registers starts at a multiple of 4 (R195). -/
def Opd.quad : Opd → Bool
  | .v i | .s i => i.toNat % 4 == 0
  | _ => true

/-- The registers of an access of a width (R201). -/
def Opd.group (o : Opd) : Width → Bool
  | .w64 => o.even
  | .w128 => o.quad
  | _ => true

/-- The registers of an atomic (R273). -/
def Opd.atomGroup (o : Opd) (op : AtomOp) (w64 : Bool) : Bool :=
  if w64 then (if op == .cas then o.quad else o.even) else (if op == .cas then o.even else true)

/-- QUANT writes five s registers from a multiple of 4 (R248). -/
def Opd.quantDest : Opd → Bool
  | .s i => i.toNat % 4 == 0 && i.toNat ≤ 184
  | _ => true

/-- The level that a base of class none selects (R272). -/
def Opd.level : Opd → Bool
  | .none i => i.toNat ≤ 2
  | _ => true

/-- Whether B is the literal. -/
def SrcB.isLit : SrcB → Bool
  | .lit _ => true
  | .reg _ => false

/-- A register B of an accepted class; the literal is a form of its own (R198). -/
def SrcB.isIn : SrcB → List Cls → Bool
  | .lit _, _ => true
  | .reg o, cs => o.isIn cs

/-- B must be none, not even a literal. -/
def SrcB.isNone : SrcB → Bool
  | .reg o => o.isIn [.none]
  | .lit _ => false

/-- A register pair at B. -/
def SrcB.even : SrcB → Bool
  | .lit _ => true
  | .reg o => o.even

/-- The index operand of a memory operand (R201). -/
def Mem.indexIn : Mem → List Cls → Bool
  | .index _ _ _ _ i _, cs => i.isIn cs
  | .offset _, _ => true

/-- The orders an instruction accepts, SCOPE 0 without an order, and bit 24 only where it is assigned (R202, R271). -/
def Mem.form : Mem → List Order → Bool → Bool
  | .index _ o sc nr _ _, os, nrOk => os.contains o && (o != .plain || sc == .wave) && (!nr || nrOk)
  | .offset _, _, _ => true

/-- An integer comparison has no `.num` and no `.nan` (R200). -/
def Cond.forInteger (c : Cond) : Bool := c != .num && c != .nan

/-- The pairs of formats that CVT accepts (R247). -/
def cvtPair (sat : Bool) (dst src : CvtFmt) : Bool :=
  dst != src && !(sat && (dst == .f32 || dst == .e4m3 || dst == .s8))

/-- The operations of 64 bits (R273). -/
def AtomOp.has64 : AtomOp → Bool
  | .fadd | .fmin | .fmax | .inc => false
  | _ => true

/-- The live-in ranges of REGION end inside their files (R218). -/
def regionLit (n : Word) : Bool :=
  (n.extractLsb' 24 8).toNat + (n.extractLsb' 16 8).toNat ≤ 256
    && (n.extractLsb' 8 8).toNat + (n.extractLsb' 0 8).toNat ≤ 192

/-- What the encoding can say of each instruction (R194 to R203 and its own chapter). A step that is no instruction
has no encoding and nothing to violate. -/
def Instr.wf : Instr → Bool
  | .nop h => h.wf
  | .bra h _ u a _ => h.wf && a.isIn (if u then [.s, .none] else [.p, .none])
  | .brx h a b => h.wf && a.isIn [.s, .none] && b.isIn [.v, .s, .none] && (a.even)
  | .call h d b => h.wf && d.isIn [.s, .none] && b.isIn [.s, .none] && (d.even && (b.isLit || b.even))
  | .ret h a => h.wf && a.isIn [.s, .none] && (a.even)
  | .join h => h.wf
  | .exit h => h.wf
  | .trap h b => h.wf && b.isIn [.s, .none]
  | .rett h => h.wf
  | .region h n => h.wf && (regionLit n)
  | .regend h => h.wf
  | .yield h _ => h.wf
  | .elect h d => h.wf && d.isIn [.p, .s, .none]
  | .vote h kind d a => h.wf && d.isIn (if kind == .ballot then [.v, .s, .none] else [.p, .none]) && a.isIn [.p, .none]
  | .wait h a _ => h.wf && a.isIn [.k]
  | .waitc h _ => h.wf
  | .iadd h _ d a b => h.wf && d.isIn [.v, .none] && a.isIn [.v, .s, .none] && b.isIn [.v, .s, .none]
  | .isub h _ d a b => h.wf && d.isIn [.v, .none] && a.isIn [.v, .s, .none] && b.isIn [.v, .s, .none]
  | .imul h d a b => h.wf && d.isIn [.v, .none] && a.isIn [.v, .s, .none] && b.isIn [.v, .s, .none]
  | .imulh h _ d a b => h.wf && d.isIn [.v, .none] && a.isIn [.v, .s, .none] && b.isIn [.v, .s, .none]
  | .imad h d a b c => h.wf && d.isIn [.v, .none] && a.isIn [.v, .s, .none] && b.isIn [.v, .s, .none] && c.isIn [.v, .s, .none] && (!b.isLit || c == d)
  | .idiv h _ d a b => h.wf && d.isIn [.v, .none] && a.isIn [.v, .s, .none] && b.isIn [.v, .s, .none]
  | .irem h _ d a b => h.wf && d.isIn [.v, .none] && a.isIn [.v, .s, .none] && b.isIn [.v, .s, .none]
  | .imin h _ d a b => h.wf && d.isIn [.v, .none] && a.isIn [.v, .s, .none] && b.isIn [.v, .s, .none]
  | .imax h _ d a b => h.wf && d.isIn [.v, .none] && a.isIn [.v, .s, .none] && b.isIn [.v, .s, .none]
  | .iabs h _ d a => h.wf && d.isIn [.v, .none] && a.isIn [.v, .s, .none]
  | .and h d a b => h.wf && d.isIn [.v, .none] && a.isIn [.v, .s, .none] && b.isIn [.v, .s, .none]
  | .or h d a b => h.wf && d.isIn [.v, .none] && a.isIn [.v, .s, .none] && b.isIn [.v, .s, .none]
  | .xor h d a b => h.wf && d.isIn [.v, .none] && a.isIn [.v, .s, .none] && b.isIn [.v, .s, .none]
  | .shl h d a b => h.wf && d.isIn [.v, .none] && a.isIn [.v, .s, .none] && b.isIn [.v, .s, .none]
  | .shr h d a b => h.wf && d.isIn [.v, .none] && a.isIn [.v, .s, .none] && b.isIn [.v, .s, .none]
  | .sar h d a b => h.wf && d.isIn [.v, .none] && a.isIn [.v, .s, .none] && b.isIn [.v, .s, .none]
  | .rotl h d a b => h.wf && d.isIn [.v, .none] && a.isIn [.v, .s, .none] && b.isIn [.v, .s, .none]
  | .bfe h _ d a b => h.wf && d.isIn [.v, .none] && a.isIn [.v, .s, .none] && b.isIn [.v, .s, .none]
  | .bfi h d a b c => h.wf && d.isIn [.v, .none] && a.isIn [.v, .s, .none] && b.isIn [.v, .s, .none] && c.isIn [.v, .s, .none] && (!b.isLit || c == d)
  | .popc h d a => h.wf && d.isIn [.v, .none] && a.isIn [.v, .s, .none]
  | .clz h d a => h.wf && d.isIn [.v, .none] && a.isIn [.v, .s, .none]
  | .brev h d a => h.wf && d.isIn [.v, .none] && a.isIn [.v, .s, .none]
  | .isetp h cond _ d a b => h.wf && d.isIn [.p, .none] && a.isIn [.v, .s, .none] && b.isIn [.v, .s, .none] && (cond.forInteger)
  | .sel h _ _ d a b => h.wf && d.isIn [.v, .none] && a.isIn [.v, .s, .none] && b.isIn [.v, .s, .none]
  | .mov h d b => h.wf && d.isIn [.v, .none] && b.isIn [.v, .s, .none]
  | .iadd2 h _ d a b => h.wf && d.isIn [.v, .none] && a.isIn [.v, .s, .none] && b.isIn [.v, .s, .none]
  | .isub2 h _ d a b => h.wf && d.isIn [.v, .none] && a.isIn [.v, .s, .none] && b.isIn [.v, .s, .none]
  | .imin2 h _ d a b => h.wf && d.isIn [.v, .none] && a.isIn [.v, .s, .none] && b.isIn [.v, .s, .none]
  | .imax2 h _ d a b => h.wf && d.isIn [.v, .none] && a.isIn [.v, .s, .none] && b.isIn [.v, .s, .none]
  | .isetp2 h cond _ d a b => h.wf && d.isIn [.p, .none] && a.isIn [.v, .s, .none] && b.isIn [.v, .s, .none] && (d.even) && (cond.forInteger)
  | .plop h _ d a c b => h.wf && d.isIn [.p, .none] && a.isIn [.p, .none] && c.isIn [.p, .none] && b.isIn [.p, .none]
  | .lea h _ _ d a b => h.wf && d.isIn [.v, .none] && a.isIn [.v, .s, .none] && b.isIn [.v, .s, .none] && (d.even && a.even)
  | .fadd h _ d a b => h.wf && d.isIn [.v, .none] && a.isIn [.v, .s, .none] && b.isIn [.v, .s, .none]
  | .fsub h _ d a b => h.wf && d.isIn [.v, .none] && a.isIn [.v, .s, .none] && b.isIn [.v, .s, .none]
  | .fmul h _ d a b => h.wf && d.isIn [.v, .none] && a.isIn [.v, .s, .none] && b.isIn [.v, .s, .none]
  | .ffma h _ d a b c => h.wf && d.isIn [.v, .none] && a.isIn [.v, .s, .none] && b.isIn [.v, .s, .none] && c.isIn [.v, .s, .none] && (!b.isLit || c == d)
  | .fmin h d a b => h.wf && d.isIn [.v, .none] && a.isIn [.v, .s, .none] && b.isIn [.v, .s, .none]
  | .fmax h d a b => h.wf && d.isIn [.v, .none] && a.isIn [.v, .s, .none] && b.isIn [.v, .s, .none]
  | .fsetp h _ d a b => h.wf && d.isIn [.p, .none] && a.isIn [.v, .s, .none] && b.isIn [.v, .s, .none]
  | .frcp h _ d a => h.wf && d.isIn [.v, .none] && a.isIn [.v, .s, .none]
  | .frsq h d a => h.wf && d.isIn [.v, .none] && a.isIn [.v, .s, .none]
  | .fsqrt h _ d a => h.wf && d.isIn [.v, .none] && a.isIn [.v, .s, .none]
  | .fexp2 h d a => h.wf && d.isIn [.v, .none] && a.isIn [.v, .s, .none]
  | .flog2 h d a => h.wf && d.isIn [.v, .none] && a.isIn [.v, .s, .none]
  | .fsin h d a => h.wf && d.isIn [.v, .none] && a.isIn [.v, .s, .none]
  | .fcos h d a => h.wf && d.isIn [.v, .none] && a.isIn [.v, .s, .none]
  | .hadd2 h _ _ d a b => h.wf && d.isIn [.v, .none] && a.isIn [.v, .s, .none] && b.isIn [.v, .s, .none]
  | .hmul2 h _ _ d a b => h.wf && d.isIn [.v, .none] && a.isIn [.v, .s, .none] && b.isIn [.v, .s, .none]
  | .hfma2 h _ _ d a b c => h.wf && d.isIn [.v, .none] && a.isIn [.v, .s, .none] && b.isIn [.v, .s, .none] && c.isIn [.v, .s, .none] && (!b.isLit || c == d)
  | .f2i h _ _ d a => h.wf && d.isIn [.v, .none] && a.isIn [.v, .s, .none]
  | .i2f h _ _ d a => h.wf && d.isIn [.v, .none] && a.isIn [.v, .s, .none]
  | .cvt h _ sat _ dst src d a => h.wf && d.isIn [.v, .none] && a.isIn [.v, .s, .none] && (cvtPair sat dst src)
  | .quant h _ d a => h.wf && d.isIn [.s, .none] && a.isIn [.v, .none] && (d.quantDest)
  | .fclass h d a => h.wf && d.isIn [.v, .none] && a.isIn [.v, .s, .none]
  | .sadd h d a b => h.wf && d.isIn [.s, .none] && a.isIn [.s, .none] && b.isIn [.s, .none]
  | .ssub h d a b => h.wf && d.isIn [.s, .none] && a.isIn [.s, .none] && b.isIn [.s, .none]
  | .smul h d a b => h.wf && d.isIn [.s, .none] && a.isIn [.s, .none] && b.isIn [.s, .none]
  | .sand h d a b => h.wf && d.isIn [.s, .none] && a.isIn [.s, .none] && b.isIn [.s, .none]
  | .sor h d a b => h.wf && d.isIn [.s, .none] && a.isIn [.s, .none] && b.isIn [.s, .none]
  | .sxor h d a b => h.wf && d.isIn [.s, .none] && a.isIn [.s, .none] && b.isIn [.s, .none]
  | .sshl h d a b => h.wf && d.isIn [.s, .none] && a.isIn [.s, .none] && b.isIn [.s, .none]
  | .sshr h _ d a b => h.wf && d.isIn [.s, .none] && a.isIn [.s, .none] && b.isIn [.s, .none]
  | .smov h w64 d b => h.wf && d.isIn [.s, .none] && b.isIn [.s, .none] && (!w64 || (d.even && (b.isLit || b.even)))
  | .scmp h cond _ d a b => h.wf && d.isIn [.s, .none] && a.isIn [.s, .none] && b.isIn [.s, .none] && (cond.forInteger)
  | .smin h _ d a b => h.wf && d.isIn [.s, .none] && a.isIn [.s, .none] && b.isIn [.s, .none]
  | .smax h _ d a b => h.wf && d.isIn [.s, .none] && a.isIn [.s, .none] && b.isIn [.s, .none]
  | .sld h width d a m => h.wf && d.isIn [.s, .none] && a.isIn [.f, .s, .t] && m.indexIn [.s, .none] && (d.group width && a.even) && (m.form [.plain, .acq] false)
  | .sst h width d a m => h.wf && d.isIn [.s, .none] && a.isIn [.f, .s, .t] && m.indexIn [.s, .none] && (d.group width && a.even) && (m.form [.plain, .rel] false)
  | .vread h d a b => h.wf && d.isIn [.s, .none] && a.isIn [.v, .none] && b.isIn [.s, .none]
  | .vwrite h all d a b => h.wf && d.isIn [.v, .none] && a.isIn [.s, .none] && (if all then b.isNone else b.isIn [.s, .none])
  | .pset h _ d a => h.wf && d.isIn [.q] && a.isIn [.v, .none]
  | .perm h d a b => h.wf && d.isIn [.v, .none] && a.isIn [.v, .none] && b.isIn [.q]
  | .bcast h d a b => h.wf && d.isIn [.v, .none] && a.isIn [.v, .none] && b.isIn [.s, .none]
  | .ld h width d a m => h.wf && d.isIn [.v, .none] && a.isIn [.f, .s, .none] && m.indexIn [.v, .s, .none] && (d.group width && a.even) && (m.form [.plain, .acq] false)
  | .st h width d a m => h.wf && d.isIn [.v, .none] && a.isIn [.f, .s, .none] && m.indexIn [.v, .s, .none] && (d.group width && a.even) && (m.form [.plain, .rel] false)
  | .lds h width d a m => h.wf && d.isIn [.v, .none] && a.isIn [.t, .none] && m.indexIn [.v, .s, .none] && (d.group width) && (m.form [.plain, .acq] false && a.level)
  | .sts h width d a m => h.wf && d.isIn [.v, .none] && a.isIn [.t, .none] && m.indexIn [.v, .s, .none] && (d.group width) && (m.form [.plain, .rel] false && a.level)
  | .atom h op w64 d a m => h.wf && d.isIn [.v, .none] && a.isIn [.f, .s, .none] && m.indexIn [.v, .s, .none] && (d.atomGroup op w64 && a.even) && (m.form [.plain, .acq, .rel, .ar] true && (!w64 || op.has64))
  | .atoms h op w64 d a m => h.wf && d.isIn [.v, .none] && a.isIn [.t, .none] && m.indexIn [.v, .s, .none] && (d.atomGroup op w64) && (m.form [.plain, .acq, .rel, .ar] true && (!w64 || op.has64) && a.level)
  | .frame h d a => h.wf && d.isIn [.f] && a.isIn [.s, .none] && (a.even)
  | .pub h _ => h.wf
  | .acq h _ => h.wf
  | .fence h _ => h.wf
  | .ldx h d a m => h.wf && d.isIn [.v, .none] && a.isIn [.f, .s, .none] && m.indexIn [.v, .s, .none] && (a.even) && (m.form [.plain] false)
  | .mat h d a => h.wf && d.isIn [.v, .none] && a.isIn [.v, .none]
  | .pxrel h d => h.wf && d.isIn [.v, .none]
  | .ispx h d a => h.wf && d.isIn [.p, .none] && a.isIn [.v, .none]
  | .copy h _ _ d a b c => h.wf && d.isIn [.t, .s, .none] && a.isIn [.t, .s, .none] && b.isIn [.s, .none] && c.isIn [.s, .none] && (d.even && a.even)
  | .tdef h d a => h.wf && d.isIn [.t] && a.isIn [.s, .none] && (a.quad)
  | .tmov h d a c => h.wf && d.isIn [.t] && a.isIn [.t] && c.isIn [.s, .none]
  | .tstat h d a => h.wf && d.isIn [.s, .none] && a.isIn [.t] && (d.quad)
  | .tfree h d => h.wf && d.isIn [.t]
  | .txinit h a b => h.wf && a.isIn [.s, .none] && b.isIn [.s, .none]
  | .txexpect h a b => h.wf && a.isIn [.s, .none] && b.isIn [.s, .none]
  | .txarrive h a b => h.wf && a.isIn [.s, .none] && b.isIn [.s, .none]
  | .txwait h a b => h.wf && a.isIn [.s, .none] && b.isIn [.s, .none]
  | .txtest h d a b => h.wf && d.isIn [.s, .none] && a.isIn [.s, .none] && b.isIn [.s, .none] && (d.quad)
  | .cbar h a b => h.wf && a.isIn [.s, .none] && b.isIn [.s, .none]
  | .mloadb h _ _ d b => h.wf && d.isIn [.t] && b.isIn [.s, .none]
  | .mma h _ _ _ d a b => h.wf && d.isIn [.a] && a.isIn [.t] && b.isIn [.s, .none]
  | .mchain h => h.wf
  | .mend h => h.wf
  | .oprdy h a => h.wf && a.isIn [.t, .none]
  | .mzero h d => h.wf && d.isIn [.a]
  | .mread h _ _ d a b => h.wf && d.isIn [.v, .t, .none] && a.isIn [.a] && (if d.isIn [.t] then b.isNone else b.isIn [.s, .none])
  | .mwrite h _ _ d a b => h.wf && d.isIn [.a] && a.isIn [.v, .t, .none] && (if a.isIn [.t] then b.isNone else b.isIn [.s, .none])
  | .mscale h _ side d b => h.wf && d.isIn [.t] && (if side then b.isNone else b.isIn [.s, .none])
  | .mrowred h _ d a => h.wf && d.isIn [.v, .none] && a.isIn [.a]
  | .finit h a => h.wf && a.isIn [.s, .none] && (a.even)
  | .unite h a b c => h.wf && a.isIn [.s, .none] && b.isIn [.v, .none] && c.isIn [.v, .none] && (a.even)
  | .find h _ d a b => h.wf && d.isIn [.v, .none] && a.isIn [.s, .none] && b.isIn [.v, .none] && (a.even)
  | .relabel h _ s32 op a b c => h.wf && a.isIn [.s, .none] && b.isIn [.s, .none] && c.isIn [.s, .none] && (a.even && b.even && c.even) && (!(op == .count && s32))
  | .fsnap h a => h.wf && a.isIn [.s, .none] && (a.even)
  | .fundo h a => h.wf && a.isIn [.s, .none] && (a.even)
  | .fcommit h a => h.wf && a.isIn [.s, .none] && (a.even)
  | .fstat h d a => h.wf && d.isIn [.s, .none] && a.isIn [.s, .none] && (d.even && a.even)
  | .gets h d a => h.wf && d.isIn [.s, .none] && a.isIn [.x]
  | .sets h d b => h.wf && d.isIn [.x] && b.isIn [.s, .none]
  | .time h d => h.wf && d.isIn [.s, .none] && (d.even)
  | .clock h d => h.wf && d.isIn [.s, .none] && (d.even)
  | .qput h _ a => h.wf && a.isIn [.s, .t, .none] && (a.even)
  | .hint h _ a => h.wf && a.isIn [.s, .none] && (a.even)
  | .wopen h d a b => h.wf && d.isIn [.s, .none] && a.isIn [.s, .none] && b.isIn [.s, .none] && (a.even)
  | .wclose h b => h.wf && b.isIn [.s, .none]
  | .tlbinv h a b => h.wf && a.isIn [.s, .none] && b.isIn [.s, .none] && (a.even)
  | .bkpt h b => h.wf && b.isIn [.s, .none]
  | .partitionIssueClock _ _ => true
  | .reconvergenceFill _ _ => true
  | .resultWriteback _ _ => true
  | .memorySectorReturn _ _ _ => true
  | .tlbMissServed _ _ _ _ _ => true
  | .storeAccepted _ _ => true
  | .releaseComplete _ _ => true
  | .atomicPerform _ _ _ => true
  | .portAccess _ => true
  | .slotGrant _ _ _ => true
  | .postedOperationExecute _ => true
  | .proxyForward _ => true
  | .ldxFill _ => true
  | .referenceCountChange _ => true
  | .crossingResult _ => true
  | .postedTimeout _ => true
  | .homeStorePerform _ _ => true
  | .matrixCommandExecute _ _ => true
  | .forestAccept _ _ => true
  | .copyTake _ _ => true
  | .copySectorLand _ _ _ => true
  | .copyFault _ _ _ _ => true
  | .leafArrivalDelivery _ _ => true
  | .rootBroadcast _ _ => true
  | .teamPlacement => true
  | .lazySaveComplete _ => true
  | .saveAreaRetry _ _ => true
  | .waveSlotRelease _ => true
  | .teamMigration _ _ => true
  | .gridComplete _ => true
  | .trigWrite _ _ _ => true
  | .patchApply _ => true
  | .admission => true
  | .gloadAddressWrite _ _ _ => true
  | .gloadLoad _ _ _ => true
  | .gloadUnload _ _ _ => true
  | .gloadSequenceError _ _ _ => true
  | .gloadLoadComplete _ _ => true
  | .create _ => true
  | .keygen _ => true
  | .grant _ => true
  | .admitCtx _ => true
  | .suspend _ => true
  | .suspendComplete _ => true
  | .reset _ => true
  | .resetDrainComplete _ => true
  | .release _ => true
  | .vdctlUndefinedCommand _ _ => true
  | .backgroundScrub _ => true
  | .integrityReread _ _ _ => true
  | .selfTestComplete _ _ _ => true
  | .windowOpened _ => true
  | .windowClosed _ => true
  | .replayWave _ _ => true
  | .replayDeliverTrap _ _ => true
  | .replayUnrecovered _ _ => true
  | .replayInvalidAction _ _ => true
  | .heldFaultRecordWrite _ => true
  | .invcntWrite _ _ => true
  | .invalidationComplete _ => true
  | .movereq _ => true
  | .hotsel _ => true
  | .policyInterval => true
  | .moveCutComplete _ => true
  | .moveSectorCopy _ _ => true
  | .moveSourceRelease _ => true
  | .moveCopyTimeout _ _ => true
  | .moveCopyBack _ _ => true
  | .portEnable _ => true
  | .portDisable _ => true
  | .portTrainingComplete _ _ => true
  | .portTrainingFail _ => true
  | .portLinkLost _ => true
  | .flitReceive _ _ => true
  | .inboundRequest _ _ => true
  | .hostMemAccess _ _ => true
  | .remoteReply _ _ => true
  | .remoteTimeout _ => true
  | .partWrite _ _ => true
  | .commandSlot _ => true
  | .tokenBucketFill _ _ _ => true
  | .rowIdleClose _ _ => true
  | .refreshDue _ => true
  | .allBankRefreshEnd _ => true
  | .thermalThresholdCrossing _ _ => true
  | .powerWindowEnd _ _ => true
  | .islandVoltageStable _ _ => true
  | .islctlWrite _ _ _ => true
  | .droopDetect _ => true
  | .droopStretchEnd _ => true
  | .droopHalvingEnd _ => true
  | .clusterGateRequest _ => true
  | .clusterAutoGate _ => true
  | .clusterGated _ => true
  | .clusterWakeRequest _ => true
  | .clusterWakeComplete _ => true
  | .coldReset => true
  | .warmReset => true
  | .registerWrite _ _ _ => true
  | .homeUnitFailure _ => true
  | .perBankRefreshComplete _ _ => true

end Sys2Proof
end

