-- ==== Sys2Proof/Decode.lean ====
section
/-! DEFINITION. Decoding an instruction word (R190 to R206, checks 3 to 9) and encoding one. -/

namespace Sys2Proof

/-- Why a word names no instruction: the checks 3 to 9 of R206, and a text that ends inside a word. -/
inductive Reject where
  | illegalOpcode | operandClass | operandIndex | illegalModifier | reservedSignal | pairOrGroup | literalForm | tooShort
  deriving DecidableEq, Repr

/-- The trap cause of a rejected word (R209). -/
def Reject.cause : Reject → BitVec 7
  | .illegalOpcode => 0x00
  | .operandClass => 0x01
  | .operandIndex => 0x02
  | .illegalModifier => 0x03
  | .reservedSignal => 0x04
  | .pairOrGroup => 0x06
  | .literalForm => 0x07
  | .tooShort => 0x00

/-- The fields of a word (R191). `fb` is field B. -/
structure Fields where
  h   : Hints
  op  : BitVec 10
  l   : Bool
  mod : BitVec 5
  d   : BitVec 12
  a   : BitVec 12
  fb  : Word
  deriving DecidableEq, Repr

/-- The fields of a 96-bit word, bit for bit (R191). -/
def fieldsOf (w : BitVec 96) : Fields :=
  ⟨⟨w.extractLsb' 84 12, w.extractLsb' 80 4, w.extractLsb' 76 4, w.getLsbD 75, w.extractLsb' 72 3⟩,
    w.extractLsb' 62 10, w.getLsbD 61, w.extractLsb' 56 5, w.extractLsb' 44 12, w.extractLsb' 32 12,
    w.extractLsb' 0 32⟩

/-- A Boolean as one bit. -/
def bit (b : Bool) : BitVec 1 := if b then 1 else 0

/-- The word of its fields (R191). -/
def Fields.word (f : Fields) : BitVec 96 :=
  f.h.wait ++ f.h.stall ++ f.h.signal ++ bit f.h.gneg ++ f.h.guard ++ f.op ++ bit f.l ++ f.mod ++ f.d ++ f.a ++ f.fb

/-- EXT, which reads as 0 in the literal form (R198). -/
def Fields.ext (f : Fields) : BitVec 8 := if f.l then 0 else f.fb.extractLsb' 24 8

/-- Operand B in register form (R191). -/
def Fields.b (f : Fields) : BitVec 12 := f.fb.extractLsb' 0 12

/-- Operand C, which the literal form reads from the bits of D (R198). -/
def Fields.c (f : Fields) : BitVec 12 := if f.l then f.d else f.fb.extractLsb' 12 12

/-- The class bits of an operand (R194). -/
def cls (o : BitVec 12) : Nat := (o.extractLsb' 8 4).toNat

/-- The index bits of an operand (R194). -/
def idx (o : BitVec 12) : BitVec 8 := o.extractLsb' 0 8

/-- The operand of 12 bits; the classes 0x9 to 0xE never pass check 6. -/
def opd (o : BitVec 12) : Opd :=
  match cls o with
  | 0 => .v (idx o) | 1 => .s (idx o) | 2 => .p (idx o) | 3 => .f (idx o) | 4 => .k (idx o) | 5 => .a (idx o)
  | 6 => .t (idx o) | 7 => .q (idx o) | 8 => .x (idx o) | _ => .none (idx o)

/-- The 12 bits of an operand (R194). -/
def Opd.code : Opd → BitVec 12
  | .v i => 0#4 ++ i | .s i => 1#4 ++ i | .p i => 2#4 ++ i | .f i => 3#4 ++ i | .k i => 4#4 ++ i | .a i => 5#4 ++ i
  | .t i => 6#4 ++ i | .q i => 7#4 ++ i | .x i => 8#4 ++ i | .none i => 15#4 ++ i

/-- Class none with index 0, in an unused position. -/
def noneCode : BitVec 12 := 0xF00

/-- The literal, or operand B (R198). -/
def Fields.srcB (f : Fields) : SrcB := if f.l then .lit f.fb else .reg (opd f.b)

/-- Field B in register form. -/
def regB (ext : BitVec 8) (c b : BitVec 12) : Word := ext ++ c ++ b

/-- Field B of a literal or a register B. -/
def SrcB.bits (ext : BitVec 8) (c : BitVec 12) : SrcB → Word
  | .lit w => w
  | .reg o => regB ext c o.code

/-- The index lies in its class's range (R194, R197). -/
def idxOk (o : BitVec 12) : Bool :=
  let i := (idx o).toNat
  match cls o with
  | 0 => true | 1 => i < 192 | 2 => i < 8 | 3 => i < 8 | 4 => i < 12 | 5 => i < 64 | 6 => true | 7 => i < 8
  | 8 => i < 12 || i == 16 || (32 ≤ i && i < 48) | _ => true

/-- An even register at a position that names a pair (R195). -/
def ev (o : BitVec 12) : Bool := cls o > 2 || !o.getLsbD 0

/-- A multiple of 4 at a position that names four registers (R195). -/
def m4 (o : BitVec 12) : Bool := cls o > 1 || o.extractLsb' 0 2 == 0

/-- The five registers of QUANT (R248). -/
def quantD (o : BitVec 12) : Bool := cls o != 1 || (o.extractLsb' 0 2 == 0 && (idx o).toNat ≤ 184)

/-- The register group of the access width in MOD [58:56] (R201). -/
def grp (f : Fields) : Bool :=
  match (f.mod.extractLsb' 0 3).toNat with
  | 5 => ev f.d
  | 6 => m4 f.d
  | _ => true

/-- The register group of an atomic: OP in MOD [60:57], W in MOD [56] (R273). -/
def atomGrp (f : Fields) : Bool :=
  if f.mod.extractLsb' 1 4 == 9 then (if f.mod.getLsbD 0 then m4 f.d else ev f.d)
  else (if f.mod.getLsbD 0 then ev f.d else true)

/-- The live-in ranges of REGION (R218). -/
def regionOk (n : Word) : Bool :=
  (n.extractLsb' 24 8).toNat + (n.extractLsb' 16 8).toNat ≤ 256
    && (n.extractLsb' 8 8).toNat + (n.extractLsb' 0 8).toNat ≤ 192

/-- COND of an integer comparison is below 6 (R200). -/
def icond (f : Fields) : Bool := (f.mod.extractLsb' 2 3).toNat < 6

/-- CVT refuses equal formats and SAT into FP32, E4M3 or INT8 (R247). -/
def cvtOk (f : Fields) : Bool :=
  let dst := f.ext.extractLsb' 4 4
  dst != f.ext.extractLsb' 0 4 && !(f.mod.getLsbD 2 && (dst == 0 || dst == 4 || dst == 5))

/-- `.count` has no TY (R302). -/
def relabelOk (f : Fields) : Bool := !(f.mod.extractLsb' 0 2 == 3 && f.mod.getLsbD 2)

/-- OP below 14, and below 10 with W = 1 (R273). -/
def atomOk (f : Fields) : Bool := (f.mod.extractLsb' 1 4).toNat < (if f.mod.getLsbD 0 then 10 else 14)

/-- A base of class none selects level 0, 1 or 2 (R272). -/
def lvlOk (a : BitVec 12) : Bool := cls a != 15 || (idx a).toNat < 3

/-- ORDER, SCOPE and bit 24 of the index form (R201, R202, R271). -/
def memOk (f : Fields) (orders : List Nat) (nr : Bool) : Bool :=
  f.l || (let o := (f.fb.extractLsb' 28 2).toNat
          let sc := (f.fb.extractLsb' 25 3).toNat
          orders.contains o && sc < 5 && (o != 0 || sc == 0) && (nr || !f.fb.getLsbD 24))

/-- The codes of SAT. -/
def Sat.ofBits (b : BitVec 2) : Option Sat :=
  match b.toNat with | 0 => some .wrap | 1 => some .sat | 2 => some .usat | _ => none
/-- The code of a SAT. -/
def Sat.bits : Sat → BitVec 2 | .wrap => 0 | .sat => 1 | .usat => 2
/-- The codes of RND. -/
def Rnd.ofBits (b : BitVec 2) : Option Rnd :=
  match b.toNat with | 0 => some .rn | 1 => some .rz | 2 => some .rd | _ => some .ru
/-- The code of a rounding mode. -/
def Rnd.bits : Rnd → BitVec 2 | .rn => 0 | .rz => 1 | .rd => 2 | .ru => 3
/-- The codes of COND. -/
def Cond.ofBits (b : BitVec 3) : Option Cond :=
  match b.toNat with
  | 0 => some .eq | 1 => some .ne | 2 => some .lt | 3 => some .le | 4 => some .gt | 5 => some .ge | 6 => some .num
  | _ => some .nan
/-- The code of a comparison. -/
def Cond.bits : Cond → BitVec 3
  | .eq => 0 | .ne => 1 | .lt => 2 | .le => 3 | .gt => 4 | .ge => 5 | .num => 6 | .nan => 7
/-- The codes of WIDTH. -/
def Width.ofBits (b : BitVec 3) : Option Width :=
  match b.toNat with
  | 0 => some .w32 | 1 => some .u8 | 2 => some .s8 | 3 => some .u16 | 4 => some .s16 | 5 => some .w64 | 6 => some .w128
  | _ => none
/-- The code of a width. -/
def Width.bits : Width → BitVec 3
  | .w32 => 0 | .u8 => 1 | .s8 => 2 | .u16 => 3 | .s16 => 4 | .w64 => 5 | .w128 => 6
/-- The codes of SCOPE. -/
def Scope.ofBits (b : BitVec 3) : Option Scope :=
  match b.toNat with
  | 0 => some .wave | 1 => some .team | 2 => some .clu | 3 => some .dev | 4 => some .sys | _ => none
/-- The code of a scope. -/
def Scope.bits : Scope → BitVec 3 | .wave => 0 | .team => 1 | .clu => 2 | .dev => 3 | .sys => 4
/-- The codes of ORDER. -/
def Order.ofBits (b : BitVec 2) : Option Order :=
  match b.toNat with | 0 => some .plain | 1 => some .acq | 2 => some .rel | _ => some .ar
/-- The code of an order. -/
def Order.bits : Order → BitVec 2 | .plain => 0 | .acq => 1 | .rel => 2 | .ar => 3
/-- The codes of FMT (R203). -/
def Fmt.ofBits (b : BitVec 3) : Option Fmt :=
  match b.toNat with
  | 0 => some .e2m1 | 1 => some .e4m3 | 2 => some .e5m2 | 3 => some .int8 | 4 => some .fp16 | 5 => some .bf16 | _ => none
/-- The code of a matrix format. -/
def Fmt.bits : Fmt → BitVec 3 | .e2m1 => 0 | .e4m3 => 1 | .e5m2 => 2 | .int8 => 3 | .fp16 => 4 | .bf16 => 5
/-- The codes of DST and SRC of CVT (R247). -/
def CvtFmt.ofBits (b : BitVec 4) : Option CvtFmt :=
  match b.toNat with
  | 0 => some .f32 | 1 => some .f16 | 2 => some .bf16 | 3 => some .e5m2 | 4 => some .e4m3 | 5 => some .s8 | _ => none
/-- The code of a CVT format. -/
def CvtFmt.bits : CvtFmt → BitVec 4 | .f32 => 0 | .f16 => 1 | .bf16 => 2 | .e5m2 => 3 | .e4m3 => 4 | .s8 => 5
/-- The codes of KIND of VOTE. -/
def VoteKind.ofBits (b : BitVec 2) : Option VoteKind :=
  match b.toNat with | 0 => some .any | 1 => some .all | 2 => some .uni | _ => some .ballot
/-- The code of a vote. -/
def VoteKind.bits : VoteKind → BitVec 2 | .any => 0 | .all => 1 | .uni => 2 | .ballot => 3
/-- The codes of OP of an atomic. -/
def AtomOp.ofBits (b : BitVec 4) : Option AtomOp :=
  match b.toNat with
  | 0 => some .add | 1 => some .min | 2 => some .max | 3 => some .umin | 4 => some .umax | 5 => some .and | 6 => some .or
  | 7 => some .xor | 8 => some .exch | 9 => some .cas | 10 => some .fadd | 11 => some .fmin | 12 => some .fmax
  | 13 => some .inc | _ => none
/-- The code of an atomic. -/
def AtomOp.bits : AtomOp → BitVec 4
  | .add => 0 | .min => 1 | .max => 2 | .umin => 3 | .umax => 4 | .and => 5 | .or => 6 | .xor => 7 | .exch => 8 | .cas => 9
  | .fadd => 10 | .fmin => 11 | .fmax => 12 | .inc => 13
/-- The codes of OP of MROWRED. -/
def RowRed.ofBits (b : BitVec 2) : Option RowRed :=
  match b.toNat with | 0 => some .sum | 1 => some .max | 2 => some .maxabs | _ => some .sumsq
/-- The code of a row reduction. -/
def RowRed.bits : RowRed → BitVec 2 | .sum => 0 | .max => 1 | .maxabs => 2 | .sumsq => 3
/-- The codes of OP of RELABEL. -/
def Relab.ofBits (b : BitVec 2) : Option Relab :=
  match b.toNat with | 0 => some .sum | 1 => some .min | 2 => some .max | _ => some .count
/-- The code of a relabel. -/
def Relab.bits : Relab → BitVec 2 | .sum => 0 | .min => 1 | .max => 2 | .count => 3
/-- The space codes of COPY. -/
def Space.ofBits (b : BitVec 2) : Option Space :=
  match b.toNat with | 0 => some .global | 1 => some .core | 2 => some .cluster | _ => some .die
/-- The code of a space. -/
def Space.bits : Space → BitVec 2 | .global => 0 | .core => 1 | .cluster => 2 | .die => 3
/-- The codes of KIND of HINT. -/
def HintKind.ofBits (b : BitVec 2) : Option HintKind :=
  match b.toNat with | 0 => some .hot | 1 => some .cold | _ => none
/-- The code of a hint. -/
def HintKind.bits : HintKind → BitVec 2 | .hot => 0 | .cold => 1

/-- The memory operand of field B (R201). -/
def Fields.memory (f : Fields) : Option Mem :=
  if f.l then some (.offset f.fb)
  else (Order.ofBits (f.fb.extractLsb' 28 2)).bind fun o => (Scope.ofBits (f.fb.extractLsb' 25 3)).bind fun sc =>
    some (.index (f.fb.extractLsb' 30 2) o sc (f.fb.getLsbD 24) (opd (f.fb.extractLsb' 12 12)) (f.fb.extractLsb' 0 12))

/-- Whether a memory operand is in offset form. -/
def Mem.isOffset : Mem → Bool
  | .offset _ => true
  | .index .. => false

/-- Field B of a memory operand (R201). -/
def Mem.bits : Mem → Word
  | .offset w => w
  | .index sc o s nr i off => sc ++ o.bits ++ s.bits ++ bit nr ++ i.code ++ off

/-- Where operand C stands: an operand, the index of a memory operand, or unused. -/
inductive CForm where
  | operand | index | unused
  deriving DecidableEq, Repr

/-- One row of an encoding table, read for given fields. -/
structure Row where
  lOk   : Bool
  dCls  : List Nat
  aCls  : List Nat
  cCls  : List Nat
  bCls  : List Nat
  cForm : CForm
  modM  : BitVec 5
  extM  : BitVec 8
  align : Bool
  modOk : Bool
  build : Option Instr

/-- The encoding row of each opcode (R204, R210, R226, R239, R251, R257, R268, R269, R291, R302, R304): the forms, the
classes of D, A, C and B, the assigned bits of MOD and EXT, the register groups and the reading of the fields. `none` for
an opcode that R204 does not assign. -/
def rowOf (f : Fields) : Option Row :=
  match f.op.toNat with
  | 0 => some ⟨!f.l, [15], [15], [15], [15], .unused, 0, 0, true, true, some (.nop f.h)⟩ -- NOP
  | 1 => some ⟨f.l, [15], if f.mod.getLsbD 0 then [1, 15] else [2, 15], [15], [15], .unused, 3, 0, true, true, some (.bra f.h (f.mod.getLsbD 1) (f.mod.getLsbD 0) (opd f.a) f.fb)⟩ -- BRA
  | 2 => some ⟨true, [15], [1, 15], [15], [0, 1, 15], .unused, 0, 0, ev f.a, true, some (.brx f.h (opd f.a) f.srcB)⟩ -- BRX
  | 3 => some ⟨true, [1, 15], [15], [15], [1, 15], .unused, 0, 0, ev f.d && (f.l || ev f.b), true, some (.call f.h (opd f.d) f.srcB)⟩ -- CALL
  | 4 => some ⟨!f.l, [15], [1, 15], [15], [15], .unused, 0, 0, ev f.a, true, some (.ret f.h (opd f.a))⟩ -- RET
  | 5 => some ⟨!f.l, [15], [15], [15], [15], .unused, 0, 0, true, true, some (.join f.h)⟩ -- JOIN
  | 6 => some ⟨!f.l, [15], [15], [15], [15], .unused, 0, 0, true, true, some (.exit f.h)⟩ -- EXIT
  | 7 => some ⟨true, [15], [15], [15], [1, 15], .unused, 0, 0, true, true, some (.trap f.h f.srcB)⟩ -- TRAP
  | 8 => some ⟨!f.l, [15], [15], [15], [15], .unused, 0, 0, true, true, some (.rett f.h)⟩ -- RETT
  | 9 => some ⟨f.l, [15], [15], [15], [15], .unused, 0, 0, regionOk f.fb, true, some (.region f.h f.fb)⟩ -- REGION
  | 10 => some ⟨!f.l, [15], [15], [15], [15], .unused, 0, 0, true, true, some (.regend f.h)⟩ -- REGEND
  | 11 => some ⟨f.l, [15], [15], [15], [15], .unused, 0, 0, true, true, some (.yield f.h f.fb)⟩ -- YIELD
  | 12 => some ⟨!f.l, [2, 1, 15], [15], [15], [15], .unused, 0, 0, true, true, some (.elect f.h (opd f.d))⟩ -- ELECT
  | 13 => some ⟨!f.l, if f.mod.extractLsb' 0 2 == 3 then [0, 1, 15] else [2, 15], [2, 15], [15], [15], .unused, 3, 0, true, true, (VoteKind.ofBits (f.mod.extractLsb' 0 2)).bind fun x1 => some (.vote f.h x1 (opd f.d) (opd f.a))⟩ -- VOTE
  | 14 => some ⟨f.l, [15], [4], [15], [15], .unused, 0, 0, true, true, some (.wait f.h (opd f.a) f.fb)⟩ -- WAIT
  | 15 => some ⟨f.l, [15], [15], [15], [15], .unused, 0, 0, true, true, some (.waitc f.h f.fb)⟩ -- WAITC
  | 64 => some ⟨true, [0, 15], [0, 1, 15], [15], [0, 1, 15], .unused, 3, 0, true, true, (Sat.ofBits (f.mod.extractLsb' 0 2)).bind fun x1 => some (.iadd f.h x1 (opd f.d) (opd f.a) f.srcB)⟩ -- IADD
  | 65 => some ⟨true, [0, 15], [0, 1, 15], [15], [0, 1, 15], .unused, 3, 0, true, true, (Sat.ofBits (f.mod.extractLsb' 0 2)).bind fun x1 => some (.isub f.h x1 (opd f.d) (opd f.a) f.srcB)⟩ -- ISUB
  | 66 => some ⟨true, [0, 15], [0, 1, 15], [15], [0, 1, 15], .unused, 0, 0, true, true, some (.imul f.h (opd f.d) (opd f.a) f.srcB)⟩ -- IMUL
  | 67 => some ⟨true, [0, 15], [0, 1, 15], [15], [0, 1, 15], .unused, 1, 0, true, true, some (.imulh f.h (f.mod.getLsbD 0) (opd f.d) (opd f.a) f.srcB)⟩ -- IMULH
  | 68 => some ⟨true, [0, 15], [0, 1, 15], [0, 1, 15], [0, 1, 15], .operand, 0, 0, true, true, some (.imad f.h (opd f.d) (opd f.a) f.srcB (opd f.c))⟩ -- IMAD
  | 69 => some ⟨true, [0, 15], [0, 1, 15], [15], [0, 1, 15], .unused, 1, 0, true, true, some (.idiv f.h (f.mod.getLsbD 0) (opd f.d) (opd f.a) f.srcB)⟩ -- IDIV
  | 70 => some ⟨true, [0, 15], [0, 1, 15], [15], [0, 1, 15], .unused, 1, 0, true, true, some (.irem f.h (f.mod.getLsbD 0) (opd f.d) (opd f.a) f.srcB)⟩ -- IREM
  | 71 => some ⟨true, [0, 15], [0, 1, 15], [15], [0, 1, 15], .unused, 1, 0, true, true, some (.imin f.h (f.mod.getLsbD 0) (opd f.d) (opd f.a) f.srcB)⟩ -- IMIN
  | 72 => some ⟨true, [0, 15], [0, 1, 15], [15], [0, 1, 15], .unused, 1, 0, true, true, some (.imax f.h (f.mod.getLsbD 0) (opd f.d) (opd f.a) f.srcB)⟩ -- IMAX
  | 73 => some ⟨!f.l, [0, 15], [0, 1, 15], [15], [15], .unused, 1, 0, true, true, some (.iabs f.h (f.mod.getLsbD 0) (opd f.d) (opd f.a))⟩ -- IABS
  | 74 => some ⟨true, [0, 15], [0, 1, 15], [15], [0, 1, 15], .unused, 0, 0, true, true, some (.and f.h (opd f.d) (opd f.a) f.srcB)⟩ -- AND
  | 75 => some ⟨true, [0, 15], [0, 1, 15], [15], [0, 1, 15], .unused, 0, 0, true, true, some (.or f.h (opd f.d) (opd f.a) f.srcB)⟩ -- OR
  | 76 => some ⟨true, [0, 15], [0, 1, 15], [15], [0, 1, 15], .unused, 0, 0, true, true, some (.xor f.h (opd f.d) (opd f.a) f.srcB)⟩ -- XOR
  | 77 => some ⟨true, [0, 15], [0, 1, 15], [15], [0, 1, 15], .unused, 0, 0, true, true, some (.shl f.h (opd f.d) (opd f.a) f.srcB)⟩ -- SHL
  | 78 => some ⟨true, [0, 15], [0, 1, 15], [15], [0, 1, 15], .unused, 0, 0, true, true, some (.shr f.h (opd f.d) (opd f.a) f.srcB)⟩ -- SHR
  | 79 => some ⟨true, [0, 15], [0, 1, 15], [15], [0, 1, 15], .unused, 0, 0, true, true, some (.sar f.h (opd f.d) (opd f.a) f.srcB)⟩ -- SAR
  | 80 => some ⟨true, [0, 15], [0, 1, 15], [15], [0, 1, 15], .unused, 0, 0, true, true, some (.rotl f.h (opd f.d) (opd f.a) f.srcB)⟩ -- ROTL
  | 81 => some ⟨true, [0, 15], [0, 1, 15], [15], [0, 1, 15], .unused, 1, 0, true, true, some (.bfe f.h (f.mod.getLsbD 0) (opd f.d) (opd f.a) f.srcB)⟩ -- BFE
  | 82 => some ⟨true, [0, 15], [0, 1, 15], [0, 1, 15], [0, 1, 15], .operand, 0, 0, true, true, some (.bfi f.h (opd f.d) (opd f.a) f.srcB (opd f.c))⟩ -- BFI
  | 83 => some ⟨!f.l, [0, 15], [0, 1, 15], [15], [15], .unused, 0, 0, true, true, some (.popc f.h (opd f.d) (opd f.a))⟩ -- POPC
  | 84 => some ⟨!f.l, [0, 15], [0, 1, 15], [15], [15], .unused, 0, 0, true, true, some (.clz f.h (opd f.d) (opd f.a))⟩ -- CLZ
  | 85 => some ⟨!f.l, [0, 15], [0, 1, 15], [15], [15], .unused, 0, 0, true, true, some (.brev f.h (opd f.d) (opd f.a))⟩ -- BREV
  | 86 => some ⟨true, [2, 15], [0, 1, 15], [15], [0, 1, 15], .unused, 30, 0, true, icond f, (Cond.ofBits (f.mod.extractLsb' 2 3)).bind fun x1 => some (.isetp f.h x1 (f.mod.getLsbD 1) (opd f.d) (opd f.a) f.srcB)⟩ -- ISETP
  | 87 => some ⟨true, [0, 15], [0, 1, 15], [15], [0, 1, 15], .unused, 15, 0, true, true, some (.sel f.h (f.mod.getLsbD 3) (f.mod.extractLsb' 0 3) (opd f.d) (opd f.a) f.srcB)⟩ -- SEL
  | 88 => some ⟨true, [0, 15], [15], [15], [0, 1, 15], .unused, 0, 0, true, true, some (.mov f.h (opd f.d) f.srcB)⟩ -- MOV
  | 89 => some ⟨true, [0, 15], [0, 1, 15], [15], [0, 1, 15], .unused, 3, 0, true, true, (Sat.ofBits (f.mod.extractLsb' 0 2)).bind fun x1 => some (.iadd2 f.h x1 (opd f.d) (opd f.a) f.srcB)⟩ -- IADD2
  | 90 => some ⟨true, [0, 15], [0, 1, 15], [15], [0, 1, 15], .unused, 3, 0, true, true, (Sat.ofBits (f.mod.extractLsb' 0 2)).bind fun x1 => some (.isub2 f.h x1 (opd f.d) (opd f.a) f.srcB)⟩ -- ISUB2
  | 91 => some ⟨true, [0, 15], [0, 1, 15], [15], [0, 1, 15], .unused, 1, 0, true, true, some (.imin2 f.h (f.mod.getLsbD 0) (opd f.d) (opd f.a) f.srcB)⟩ -- IMIN2
  | 92 => some ⟨true, [0, 15], [0, 1, 15], [15], [0, 1, 15], .unused, 1, 0, true, true, some (.imax2 f.h (f.mod.getLsbD 0) (opd f.d) (opd f.a) f.srcB)⟩ -- IMAX2
  | 93 => some ⟨true, [2, 15], [0, 1, 15], [15], [0, 1, 15], .unused, 30, 0, ev f.d, icond f, (Cond.ofBits (f.mod.extractLsb' 2 3)).bind fun x1 => some (.isetp2 f.h x1 (f.mod.getLsbD 1) (opd f.d) (opd f.a) f.srcB)⟩ -- ISETP2
  | 94 => some ⟨!f.l, [2, 15], [2, 15], [2, 15], [2, 15], .operand, 0, 255, true, true, some (.plop f.h (f.ext.extractLsb' 0 8) (opd f.d) (opd f.a) (opd f.c) (opd f.b))⟩ -- PLOP
  | 95 => some ⟨true, [0, 15], [0, 1, 15], [15], [0, 1, 15], .unused, 7, 0, ev f.d && ev f.a, true, some (.lea f.h (f.mod.getLsbD 2) (f.mod.extractLsb' 0 2) (opd f.d) (opd f.a) f.srcB)⟩ -- LEA
  | 128 => some ⟨true, [0, 15], [0, 1, 15], [15], [0, 1, 15], .unused, 3, 0, true, true, (Rnd.ofBits (f.mod.extractLsb' 0 2)).bind fun x1 => some (.fadd f.h x1 (opd f.d) (opd f.a) f.srcB)⟩ -- FADD
  | 129 => some ⟨true, [0, 15], [0, 1, 15], [15], [0, 1, 15], .unused, 3, 0, true, true, (Rnd.ofBits (f.mod.extractLsb' 0 2)).bind fun x1 => some (.fsub f.h x1 (opd f.d) (opd f.a) f.srcB)⟩ -- FSUB
  | 130 => some ⟨true, [0, 15], [0, 1, 15], [15], [0, 1, 15], .unused, 3, 0, true, true, (Rnd.ofBits (f.mod.extractLsb' 0 2)).bind fun x1 => some (.fmul f.h x1 (opd f.d) (opd f.a) f.srcB)⟩ -- FMUL
  | 131 => some ⟨true, [0, 15], [0, 1, 15], [0, 1, 15], [0, 1, 15], .operand, 3, 0, true, true, (Rnd.ofBits (f.mod.extractLsb' 0 2)).bind fun x1 => some (.ffma f.h x1 (opd f.d) (opd f.a) f.srcB (opd f.c))⟩ -- FFMA
  | 132 => some ⟨true, [0, 15], [0, 1, 15], [15], [0, 1, 15], .unused, 0, 0, true, true, some (.fmin f.h (opd f.d) (opd f.a) f.srcB)⟩ -- FMIN
  | 133 => some ⟨true, [0, 15], [0, 1, 15], [15], [0, 1, 15], .unused, 0, 0, true, true, some (.fmax f.h (opd f.d) (opd f.a) f.srcB)⟩ -- FMAX
  | 134 => some ⟨true, [2, 15], [0, 1, 15], [15], [0, 1, 15], .unused, 28, 0, true, true, (Cond.ofBits (f.mod.extractLsb' 2 3)).bind fun x1 => some (.fsetp f.h x1 (opd f.d) (opd f.a) f.srcB)⟩ -- FSETP
  | 135 => some ⟨!f.l, [0, 15], [0, 1, 15], [15], [15], .unused, 3, 0, true, true, (Rnd.ofBits (f.mod.extractLsb' 0 2)).bind fun x1 => some (.frcp f.h x1 (opd f.d) (opd f.a))⟩ -- FRCP
  | 136 => some ⟨!f.l, [0, 15], [0, 1, 15], [15], [15], .unused, 0, 0, true, true, some (.frsq f.h (opd f.d) (opd f.a))⟩ -- FRSQ
  | 137 => some ⟨!f.l, [0, 15], [0, 1, 15], [15], [15], .unused, 3, 0, true, true, (Rnd.ofBits (f.mod.extractLsb' 0 2)).bind fun x1 => some (.fsqrt f.h x1 (opd f.d) (opd f.a))⟩ -- FSQRT
  | 138 => some ⟨!f.l, [0, 15], [0, 1, 15], [15], [15], .unused, 0, 0, true, true, some (.fexp2 f.h (opd f.d) (opd f.a))⟩ -- FEXP2
  | 139 => some ⟨!f.l, [0, 15], [0, 1, 15], [15], [15], .unused, 0, 0, true, true, some (.flog2 f.h (opd f.d) (opd f.a))⟩ -- FLOG2
  | 140 => some ⟨!f.l, [0, 15], [0, 1, 15], [15], [15], .unused, 0, 0, true, true, some (.fsin f.h (opd f.d) (opd f.a))⟩ -- FSIN
  | 141 => some ⟨!f.l, [0, 15], [0, 1, 15], [15], [15], .unused, 0, 0, true, true, some (.fcos f.h (opd f.d) (opd f.a))⟩ -- FCOS
  | 142 => some ⟨true, [0, 15], [0, 1, 15], [15], [0, 1, 15], .unused, 7, 0, true, true, (Rnd.ofBits (f.mod.extractLsb' 0 2)).bind fun x1 => some (.hadd2 f.h (f.mod.getLsbD 2) x1 (opd f.d) (opd f.a) f.srcB)⟩ -- HADD2
  | 143 => some ⟨true, [0, 15], [0, 1, 15], [15], [0, 1, 15], .unused, 7, 0, true, true, (Rnd.ofBits (f.mod.extractLsb' 0 2)).bind fun x1 => some (.hmul2 f.h (f.mod.getLsbD 2) x1 (opd f.d) (opd f.a) f.srcB)⟩ -- HMUL2
  | 144 => some ⟨true, [0, 15], [0, 1, 15], [0, 1, 15], [0, 1, 15], .operand, 7, 0, true, true, (Rnd.ofBits (f.mod.extractLsb' 0 2)).bind fun x1 => some (.hfma2 f.h (f.mod.getLsbD 2) x1 (opd f.d) (opd f.a) f.srcB (opd f.c))⟩ -- HFMA2
  | 145 => some ⟨!f.l, [0, 15], [0, 1, 15], [15], [15], .unused, 7, 0, true, true, (Rnd.ofBits (f.mod.extractLsb' 0 2)).bind fun x1 => some (.f2i f.h (f.mod.getLsbD 2) x1 (opd f.d) (opd f.a))⟩ -- F2I
  | 146 => some ⟨!f.l, [0, 15], [0, 1, 15], [15], [15], .unused, 7, 0, true, true, (Rnd.ofBits (f.mod.extractLsb' 0 2)).bind fun x1 => some (.i2f f.h (f.mod.getLsbD 2) x1 (opd f.d) (opd f.a))⟩ -- I2F
  | 147 => some ⟨!f.l, [0, 15], [0, 1, 15], [15], [15], .unused, 31, 255, true, cvtOk f, (Rnd.ofBits (f.mod.extractLsb' 0 2)).bind fun x1 => (CvtFmt.ofBits (f.ext.extractLsb' 4 4)).bind fun x2 => (CvtFmt.ofBits (f.ext.extractLsb' 0 4)).bind fun x3 => some (.cvt f.h (f.mod.extractLsb' 3 2) (f.mod.getLsbD 2) x1 x2 x3 (opd f.d) (opd f.a))⟩ -- CVT
  | 148 => some ⟨!f.l, [1, 15], [0, 15], [15], [15], .unused, 3, 0, quantD f.d, true, some (.quant f.h (f.mod.extractLsb' 0 2) (opd f.d) (opd f.a))⟩ -- QUANT
  | 149 => some ⟨!f.l, [0, 15], [0, 1, 15], [15], [15], .unused, 0, 0, true, true, some (.fclass f.h (opd f.d) (opd f.a))⟩ -- FCLASS
  | 192 => some ⟨true, [1, 15], [1, 15], [15], [1, 15], .unused, 0, 0, true, true, some (.sadd f.h (opd f.d) (opd f.a) f.srcB)⟩ -- SADD
  | 193 => some ⟨true, [1, 15], [1, 15], [15], [1, 15], .unused, 0, 0, true, true, some (.ssub f.h (opd f.d) (opd f.a) f.srcB)⟩ -- SSUB
  | 194 => some ⟨true, [1, 15], [1, 15], [15], [1, 15], .unused, 0, 0, true, true, some (.smul f.h (opd f.d) (opd f.a) f.srcB)⟩ -- SMUL
  | 195 => some ⟨true, [1, 15], [1, 15], [15], [1, 15], .unused, 0, 0, true, true, some (.sand f.h (opd f.d) (opd f.a) f.srcB)⟩ -- SAND
  | 196 => some ⟨true, [1, 15], [1, 15], [15], [1, 15], .unused, 0, 0, true, true, some (.sor f.h (opd f.d) (opd f.a) f.srcB)⟩ -- SOR
  | 197 => some ⟨true, [1, 15], [1, 15], [15], [1, 15], .unused, 0, 0, true, true, some (.sxor f.h (opd f.d) (opd f.a) f.srcB)⟩ -- SXOR
  | 198 => some ⟨true, [1, 15], [1, 15], [15], [1, 15], .unused, 0, 0, true, true, some (.sshl f.h (opd f.d) (opd f.a) f.srcB)⟩ -- SSHL
  | 199 => some ⟨true, [1, 15], [1, 15], [15], [1, 15], .unused, 1, 0, true, true, some (.sshr f.h (f.mod.getLsbD 0) (opd f.d) (opd f.a) f.srcB)⟩ -- SSHR
  | 200 => some ⟨true, [1, 15], [15], [15], [1, 15], .unused, 1, 0, (!f.mod.getLsbD 0) || (ev f.d && (f.l || ev f.b)), true, some (.smov f.h (f.mod.getLsbD 0) (opd f.d) f.srcB)⟩ -- SMOV
  | 201 => some ⟨true, [1, 15], [1, 15], [15], [1, 15], .unused, 30, 0, true, icond f, (Cond.ofBits (f.mod.extractLsb' 2 3)).bind fun x1 => some (.scmp f.h x1 (f.mod.getLsbD 1) (opd f.d) (opd f.a) f.srcB)⟩ -- SCMP
  | 202 => some ⟨true, [1, 15], [1, 15], [15], [1, 15], .unused, 1, 0, true, true, some (.smin f.h (f.mod.getLsbD 0) (opd f.d) (opd f.a) f.srcB)⟩ -- SMIN
  | 203 => some ⟨true, [1, 15], [1, 15], [15], [1, 15], .unused, 1, 0, true, true, some (.smax f.h (f.mod.getLsbD 0) (opd f.d) (opd f.a) f.srcB)⟩ -- SMAX
  | 204 => some ⟨true, [1, 15], [3, 1, 6], [1, 15], [15], .index, 7, 0, grp f && ev f.a, memOk f [0, 1] false, (Width.ofBits (f.mod.extractLsb' 0 3)).bind fun x1 => (f.memory).bind fun x2 => some (.sld f.h x1 (opd f.d) (opd f.a) x2)⟩ -- SLD
  | 205 => some ⟨true, [1, 15], [3, 1, 6], [1, 15], [15], .index, 7, 0, grp f && ev f.a, memOk f [0, 2] false, (Width.ofBits (f.mod.extractLsb' 0 3)).bind fun x1 => (f.memory).bind fun x2 => some (.sst f.h x1 (opd f.d) (opd f.a) x2)⟩ -- SST
  | 206 => some ⟨true, [1, 15], [0, 15], [15], [1, 15], .unused, 0, 0, true, true, some (.vread f.h (opd f.d) (opd f.a) f.srcB)⟩ -- VREAD
  | 207 => some ⟨(!f.l || !f.mod.getLsbD 0), [0, 15], [1, 15], [15], if f.mod.getLsbD 0 then [15] else [1, 15], .unused, 1, 0, true, true, some (.vwrite f.h (f.mod.getLsbD 0) (opd f.d) (opd f.a) f.srcB)⟩ -- VWRITE
  | 256 => some ⟨!f.l, [7], [0, 15], [15], [15], .unused, 1, 0, true, true, some (.pset f.h (f.mod.getLsbD 0) (opd f.d) (opd f.a))⟩ -- PSET
  | 257 => some ⟨!f.l, [0, 15], [0, 15], [15], [7], .unused, 0, 0, true, true, some (.perm f.h (opd f.d) (opd f.a) (opd f.b))⟩ -- PERM
  | 258 => some ⟨true, [0, 15], [0, 15], [15], [1, 15], .unused, 0, 0, true, true, some (.bcast f.h (opd f.d) (opd f.a) f.srcB)⟩ -- BCAST
  | 320 => some ⟨true, [0, 15], [3, 1, 15], [0, 1, 15], [15], .index, 7, 0, grp f && ev f.a, memOk f [0, 1] false, (Width.ofBits (f.mod.extractLsb' 0 3)).bind fun x1 => (f.memory).bind fun x2 => some (.ld f.h x1 (opd f.d) (opd f.a) x2)⟩ -- LD
  | 321 => some ⟨true, [0, 15], [3, 1, 15], [0, 1, 15], [15], .index, 7, 0, grp f && ev f.a, memOk f [0, 2] false, (Width.ofBits (f.mod.extractLsb' 0 3)).bind fun x1 => (f.memory).bind fun x2 => some (.st f.h x1 (opd f.d) (opd f.a) x2)⟩ -- ST
  | 322 => some ⟨true, [0, 15], [6, 15], [0, 1, 15], [15], .index, 7, 0, grp f, memOk f [0, 1] false && lvlOk f.a, (Width.ofBits (f.mod.extractLsb' 0 3)).bind fun x1 => (f.memory).bind fun x2 => some (.lds f.h x1 (opd f.d) (opd f.a) x2)⟩ -- LDS
  | 323 => some ⟨true, [0, 15], [6, 15], [0, 1, 15], [15], .index, 7, 0, grp f, memOk f [0, 2] false && lvlOk f.a, (Width.ofBits (f.mod.extractLsb' 0 3)).bind fun x1 => (f.memory).bind fun x2 => some (.sts f.h x1 (opd f.d) (opd f.a) x2)⟩ -- STS
  | 324 => some ⟨true, [0, 15], [3, 1, 15], [0, 1, 15], [15], .index, 31, 0, atomGrp f && ev f.a, memOk f [0, 1, 2, 3] true && atomOk f, (AtomOp.ofBits (f.mod.extractLsb' 1 4)).bind fun x1 => (f.memory).bind fun x2 => some (.atom f.h x1 (f.mod.getLsbD 0) (opd f.d) (opd f.a) x2)⟩ -- ATOM
  | 325 => some ⟨true, [0, 15], [6, 15], [0, 1, 15], [15], .index, 31, 0, atomGrp f, memOk f [0, 1, 2, 3] true && atomOk f && lvlOk f.a, (AtomOp.ofBits (f.mod.extractLsb' 1 4)).bind fun x1 => (f.memory).bind fun x2 => some (.atoms f.h x1 (f.mod.getLsbD 0) (opd f.d) (opd f.a) x2)⟩ -- ATOMS
  | 326 => some ⟨!f.l, [3], [1, 15], [15], [15], .unused, 0, 0, ev f.a, true, some (.frame f.h (opd f.d) (opd f.a))⟩ -- FRAME
  | 327 => some ⟨!f.l, [15], [15], [15], [15], .unused, 7, 0, true, true, (Scope.ofBits (f.mod.extractLsb' 0 3)).bind fun x1 => some (.pub f.h x1)⟩ -- PUB
  | 328 => some ⟨!f.l, [15], [15], [15], [15], .unused, 7, 0, true, true, (Scope.ofBits (f.mod.extractLsb' 0 3)).bind fun x1 => some (.acq f.h x1)⟩ -- ACQ
  | 329 => some ⟨!f.l, [15], [15], [15], [15], .unused, 7, 0, true, true, (Scope.ofBits (f.mod.extractLsb' 0 3)).bind fun x1 => some (.fence f.h x1)⟩ -- FENCE
  | 330 => some ⟨true, [0, 15], [3, 1, 15], [0, 1, 15], [15], .index, 0, 0, ev f.a, memOk f [0] false, (f.memory).bind fun x1 => some (.ldx f.h (opd f.d) (opd f.a) x1)⟩ -- LDX
  | 331 => some ⟨!f.l, [0, 15], [0, 15], [15], [15], .unused, 0, 0, true, true, some (.mat f.h (opd f.d) (opd f.a))⟩ -- MAT
  | 332 => some ⟨!f.l, [0, 15], [15], [15], [15], .unused, 0, 0, true, true, some (.pxrel f.h (opd f.d))⟩ -- PXREL
  | 333 => some ⟨!f.l, [2, 15], [0, 15], [15], [15], .unused, 0, 0, true, true, some (.ispx f.h (opd f.d) (opd f.a))⟩ -- ISPX
  | 384 => some ⟨!f.l, [6, 1, 15], [6, 1, 15], [1, 15], [1, 15], .operand, 15, 0, ev f.d && ev f.a, true, (Space.ofBits (f.mod.extractLsb' 2 2)).bind fun x1 => (Space.ofBits (f.mod.extractLsb' 0 2)).bind fun x2 => some (.copy f.h x1 x2 (opd f.d) (opd f.a) (opd f.b) (opd f.c))⟩ -- COPY
  | 385 => some ⟨!f.l, [6], [1, 15], [15], [15], .unused, 0, 0, m4 f.a, true, some (.tdef f.h (opd f.d) (opd f.a))⟩ -- TDEF
  | 386 => some ⟨!f.l, [6], [6], [1, 15], [15], .operand, 0, 0, true, true, some (.tmov f.h (opd f.d) (opd f.a) (opd f.c))⟩ -- TMOV
  | 387 => some ⟨!f.l, [1, 15], [6], [15], [15], .unused, 0, 0, m4 f.d, true, some (.tstat f.h (opd f.d) (opd f.a))⟩ -- TSTAT
  | 388 => some ⟨!f.l, [6], [15], [15], [15], .unused, 0, 0, true, true, some (.tfree f.h (opd f.d))⟩ -- TFREE
  | 389 => some ⟨true, [15], [1, 15], [15], [1, 15], .unused, 0, 0, true, true, some (.txinit f.h (opd f.a) f.srcB)⟩ -- TXINIT
  | 390 => some ⟨true, [15], [1, 15], [15], [1, 15], .unused, 0, 0, true, true, some (.txexpect f.h (opd f.a) f.srcB)⟩ -- TXEXPECT
  | 391 => some ⟨true, [15], [1, 15], [15], [1, 15], .unused, 0, 0, true, true, some (.txarrive f.h (opd f.a) f.srcB)⟩ -- TXARRIVE
  | 392 => some ⟨true, [15], [1, 15], [15], [1, 15], .unused, 0, 0, true, true, some (.txwait f.h (opd f.a) f.srcB)⟩ -- TXWAIT
  | 393 => some ⟨true, [1, 15], [1, 15], [15], [1, 15], .unused, 0, 0, m4 f.d, true, some (.txtest f.h (opd f.d) (opd f.a) f.srcB)⟩ -- TXTEST
  | 394 => some ⟨!f.l, [15], [1, 15], [15], [1, 15], .unused, 0, 0, true, true, some (.cbar f.h (opd f.a) (opd f.b))⟩ -- CBAR
  | 448 => some ⟨true, [6], [15], [15], [1, 15], .unused, 30, 0, true, true, (Fmt.ofBits (f.mod.extractLsb' 2 3)).bind fun x1 => some (.mloadb f.h x1 (f.mod.getLsbD 1) (opd f.d) f.srcB)⟩ -- MLOADB
  | 449 => some ⟨true, [5], [6], [15], [1, 15], .unused, 31, 0, true, true, (Fmt.ofBits (f.mod.extractLsb' 2 3)).bind fun x1 => some (.mma f.h x1 (f.mod.getLsbD 1) (f.mod.getLsbD 0) (opd f.d) (opd f.a) f.srcB)⟩ -- MMA
  | 450 => some ⟨!f.l, [15], [15], [15], [15], .unused, 0, 0, true, true, some (.mchain f.h)⟩ -- MCHAIN
  | 451 => some ⟨!f.l, [15], [15], [15], [15], .unused, 0, 0, true, true, some (.mend f.h)⟩ -- MEND
  | 452 => some ⟨!f.l, [15], [6, 15], [15], [15], .unused, 0, 0, true, true, some (.oprdy f.h (opd f.a))⟩ -- OPRDY
  | 453 => some ⟨!f.l, [5], [15], [15], [15], .unused, 0, 0, true, true, some (.mzero f.h (opd f.d))⟩ -- MZERO
  | 454 => some ⟨(!f.l || cls f.d != 6), [0, 6, 15], [5], [15], if cls f.d == 6 then [15] else [1, 15], .unused, 29, 0, true, true, (Fmt.ofBits (f.mod.extractLsb' 2 3)).bind fun x1 => some (.mread f.h x1 (f.mod.getLsbD 0) (opd f.d) (opd f.a) f.srcB)⟩ -- MREAD
  | 455 => some ⟨(!f.l || cls f.a != 6), [5], [0, 6, 15], [15], if cls f.a == 6 then [15] else [1, 15], .unused, 29, 0, true, true, (Fmt.ofBits (f.mod.extractLsb' 2 3)).bind fun x1 => some (.mwrite f.h x1 (f.mod.getLsbD 0) (opd f.d) (opd f.a) f.srcB)⟩ -- MWRITE
  | 456 => some ⟨(!f.l || !f.mod.getLsbD 0), [6], [15], [15], if f.mod.getLsbD 0 then [15] else [1, 15], .unused, 3, 0, true, true, some (.mscale f.h (f.mod.getLsbD 1) (f.mod.getLsbD 0) (opd f.d) f.srcB)⟩ -- MSCALE
  | 457 => some ⟨!f.l, [0, 15], [5], [15], [15], .unused, 3, 0, true, true, (RowRed.ofBits (f.mod.extractLsb' 0 2)).bind fun x1 => some (.mrowred f.h x1 (opd f.d) (opd f.a))⟩ -- MROWRED
  | 512 => some ⟨!f.l, [15], [1, 15], [15], [15], .unused, 0, 0, ev f.a, true, some (.finit f.h (opd f.a))⟩ -- FINIT
  | 513 => some ⟨!f.l, [15], [1, 15], [0, 15], [0, 15], .operand, 0, 0, ev f.a, true, some (.unite f.h (opd f.a) (opd f.b) (opd f.c))⟩ -- UNITE
  | 514 => some ⟨!f.l, [0, 15], [1, 15], [15], [0, 15], .unused, 1, 0, ev f.a, true, some (.find f.h (f.mod.getLsbD 0) (opd f.d) (opd f.a) (opd f.b))⟩ -- FIND
  | 515 => some ⟨!f.l, [15], [1, 15], [1, 15], [1, 15], .operand, 15, 0, ev f.a && ev f.b && ev f.c, relabelOk f, (Relab.ofBits (f.mod.extractLsb' 0 2)).bind fun x1 => some (.relabel f.h (f.mod.getLsbD 3) (f.mod.getLsbD 2) x1 (opd f.a) (opd f.b) (opd f.c))⟩ -- RELABEL
  | 516 => some ⟨!f.l, [15], [1, 15], [15], [15], .unused, 0, 0, ev f.a, true, some (.fsnap f.h (opd f.a))⟩ -- FSNAP
  | 517 => some ⟨!f.l, [15], [1, 15], [15], [15], .unused, 0, 0, ev f.a, true, some (.fundo f.h (opd f.a))⟩ -- FUNDO
  | 518 => some ⟨!f.l, [15], [1, 15], [15], [15], .unused, 0, 0, ev f.a, true, some (.fcommit f.h (opd f.a))⟩ -- FCOMMIT
  | 519 => some ⟨!f.l, [1, 15], [1, 15], [15], [15], .unused, 0, 0, ev f.d && ev f.a, true, some (.fstat f.h (opd f.d) (opd f.a))⟩ -- FSTAT
  | 576 => some ⟨!f.l, [1, 15], [8], [15], [15], .unused, 0, 0, true, true, some (.gets f.h (opd f.d) (opd f.a))⟩ -- GETS
  | 577 => some ⟨true, [8], [15], [15], [1, 15], .unused, 0, 0, true, true, some (.sets f.h (opd f.d) f.srcB)⟩ -- SETS
  | 578 => some ⟨!f.l, [1, 15], [15], [15], [15], .unused, 0, 0, ev f.d, true, some (.time f.h (opd f.d))⟩ -- TIME
  | 579 => some ⟨!f.l, [1, 15], [15], [15], [15], .unused, 0, 0, ev f.d, true, some (.clock f.h (opd f.d))⟩ -- CLOCK
  | 580 => some ⟨!f.l, [15], [1, 6, 15], [15], [15], .unused, 7, 0, ev f.a, true, some (.qput f.h (f.mod.extractLsb' 0 3) (opd f.a))⟩ -- QPUT
  | 581 => some ⟨!f.l, [15], [1, 15], [15], [15], .unused, 3, 0, ev f.a, true, (HintKind.ofBits (f.mod.extractLsb' 0 2)).bind fun x1 => some (.hint f.h x1 (opd f.a))⟩ -- HINT
  | 582 => some ⟨true, [1, 15], [1, 15], [15], [1, 15], .unused, 0, 0, ev f.a, true, some (.wopen f.h (opd f.d) (opd f.a) f.srcB)⟩ -- WOPEN
  | 583 => some ⟨true, [15], [15], [15], [1, 15], .unused, 0, 0, true, true, some (.wclose f.h f.srcB)⟩ -- WCLOSE
  | 584 => some ⟨true, [15], [1, 15], [15], [1, 15], .unused, 0, 0, ev f.a, true, some (.tlbinv f.h (opd f.a) f.srcB)⟩ -- TLBINV
  | 585 => some ⟨true, [15], [15], [15], [1, 15], .unused, 0, 0, true, true, some (.bkpt f.h f.srcB)⟩ -- BKPT
  | _ => none

/-- The operand positions that checks 6 and 7 look at, with the classes each accepts, in the order D, A, C, B (R206). -/
def Row.positions (r : Row) (f : Fields) : List (BitVec 12 × List Nat) :=
  [(f.d, r.dCls), (f.a, r.aCls)] ++
  (match r.cForm with
   | .operand => [(f.c, r.cCls)]
   | .index => if f.l then [] else [(f.fb.extractLsb' 12 12, r.cCls)]
   | .unused => if f.l then [] else [(f.fb.extractLsb' 12 12, r.cCls)]) ++
  (match r.cForm with
   | .index => []
   | _ => if f.l then [] else [(f.b, r.bCls)])

/-- The unused bits of MOD and EXT are 0 (R199); field B of a memory operand has no EXT. -/
def Row.unusedClear (r : Row) (f : Fields) : Bool :=
  (f.mod &&& ~~~r.modM) == 0 && (r.cForm == .index || (f.ext &&& ~~~r.extM) == 0)

/-- Checks 3 to 9 of R206 in their order; the first that fails gives the cause. -/
def decodeFields (f : Fields) : Except Reject Instr :=
  match rowOf f with
  | none => .error .illegalOpcode
  | some r =>
    if f.h.signal.toNat ≥ 12 && f.h.signal != 15 then .error .reservedSignal
    else if !r.lOk then .error .literalForm
    else if !(r.positions f).all (fun p => p.2.contains (cls p.1)) then .error .operandClass
    else if !(r.positions f).all (fun p => idxOk p.1) then .error .operandIndex
    else if !r.align then .error .pairOrGroup
    else if !(r.unusedClear f && r.modOk) then .error .illegalModifier
    else match r.build with
      | some i => .ok i
      | none => .error .illegalModifier

/-- The instruction of a 96-bit word. -/
def decodeWord (w : BitVec 96) : Except Reject Instr := decodeFields (fieldsOf w)

/-- A little-endian number of bytes (R2). -/
def leNat : List Byte → Nat
  | [] => 0
  | b :: bs => b.toNat + 256 * leNat bs

/-- The low n bytes of a number, little-endian (R2). -/
def leBytes : Nat → Nat → List Byte
  | 0, _ => []
  | n + 1, x => BitVec.ofNat 8 x :: leBytes n (x / 256)

/-- Decode the instruction at the head of a text of bytes: the instruction and the rest, or why there is none. -/
def decode (bs : List Byte) : Except Reject (Instr × List Byte) :=
  if bs.length < 12 then .error .tooShort
  else match decodeWord (BitVec.ofNat 96 (leNat (bs.take 12))) with
    | .ok i => .ok (i, bs.drop 12)
    | .error e => .error e

/-- The fields that encode an instruction, unused operand positions holding class 0xF with index 0; `none` for a step
that is no instruction (R191, R195, R198). -/
def Instr.fields : Instr → Option Fields
  | .nop h => some ⟨h, 0, false, 0, noneCode, noneCode, (regB 0 noneCode noneCode)⟩
  | .bra h not u a n => some ⟨h, 1, true, (((((bit not)).setWidth 5) <<< 1) ||| (((bit u)).setWidth 5)), noneCode, a.code, n⟩
  | .brx h a b => some ⟨h, 2, b.isLit, 0, noneCode, a.code, (b.bits 0 noneCode)⟩
  | .call h d b => some ⟨h, 3, b.isLit, 0, d.code, noneCode, (b.bits 0 noneCode)⟩
  | .ret h a => some ⟨h, 4, false, 0, noneCode, a.code, (regB 0 noneCode noneCode)⟩
  | .join h => some ⟨h, 5, false, 0, noneCode, noneCode, (regB 0 noneCode noneCode)⟩
  | .exit h => some ⟨h, 6, false, 0, noneCode, noneCode, (regB 0 noneCode noneCode)⟩
  | .trap h b => some ⟨h, 7, b.isLit, 0, noneCode, noneCode, (b.bits 0 noneCode)⟩
  | .rett h => some ⟨h, 8, false, 0, noneCode, noneCode, (regB 0 noneCode noneCode)⟩
  | .region h n => some ⟨h, 9, true, 0, noneCode, noneCode, n⟩
  | .regend h => some ⟨h, 10, false, 0, noneCode, noneCode, (regB 0 noneCode noneCode)⟩
  | .yield h n => some ⟨h, 11, true, 0, noneCode, noneCode, n⟩
  | .elect h d => some ⟨h, 12, false, 0, d.code, noneCode, (regB 0 noneCode noneCode)⟩
  | .vote h kind d a => some ⟨h, 13, false, (((kind.bits).setWidth 5)), d.code, a.code, (regB 0 noneCode noneCode)⟩
  | .wait h a n => some ⟨h, 14, true, 0, noneCode, a.code, n⟩
  | .waitc h n => some ⟨h, 15, true, 0, noneCode, noneCode, n⟩
  | .iadd h ovf d a b => some ⟨h, 64, b.isLit, (((ovf.bits).setWidth 5)), d.code, a.code, (b.bits 0 noneCode)⟩
  | .isub h ovf d a b => some ⟨h, 65, b.isLit, (((ovf.bits).setWidth 5)), d.code, a.code, (b.bits 0 noneCode)⟩
  | .imul h d a b => some ⟨h, 66, b.isLit, 0, d.code, a.code, (b.bits 0 noneCode)⟩
  | .imulh h u d a b => some ⟨h, 67, b.isLit, ((((bit u)).setWidth 5)), d.code, a.code, (b.bits 0 noneCode)⟩
  | .imad h d a b c => some ⟨h, 68, b.isLit, 0, d.code, a.code, (b.bits 0 c.code)⟩
  | .idiv h u d a b => some ⟨h, 69, b.isLit, ((((bit u)).setWidth 5)), d.code, a.code, (b.bits 0 noneCode)⟩
  | .irem h u d a b => some ⟨h, 70, b.isLit, ((((bit u)).setWidth 5)), d.code, a.code, (b.bits 0 noneCode)⟩
  | .imin h u d a b => some ⟨h, 71, b.isLit, ((((bit u)).setWidth 5)), d.code, a.code, (b.bits 0 noneCode)⟩
  | .imax h u d a b => some ⟨h, 72, b.isLit, ((((bit u)).setWidth 5)), d.code, a.code, (b.bits 0 noneCode)⟩
  | .iabs h sat d a => some ⟨h, 73, false, ((((bit sat)).setWidth 5)), d.code, a.code, (regB 0 noneCode noneCode)⟩
  | .and h d a b => some ⟨h, 74, b.isLit, 0, d.code, a.code, (b.bits 0 noneCode)⟩
  | .or h d a b => some ⟨h, 75, b.isLit, 0, d.code, a.code, (b.bits 0 noneCode)⟩
  | .xor h d a b => some ⟨h, 76, b.isLit, 0, d.code, a.code, (b.bits 0 noneCode)⟩
  | .shl h d a b => some ⟨h, 77, b.isLit, 0, d.code, a.code, (b.bits 0 noneCode)⟩
  | .shr h d a b => some ⟨h, 78, b.isLit, 0, d.code, a.code, (b.bits 0 noneCode)⟩
  | .sar h d a b => some ⟨h, 79, b.isLit, 0, d.code, a.code, (b.bits 0 noneCode)⟩
  | .rotl h d a b => some ⟨h, 80, b.isLit, 0, d.code, a.code, (b.bits 0 noneCode)⟩
  | .bfe h sx d a b => some ⟨h, 81, b.isLit, ((((bit sx)).setWidth 5)), d.code, a.code, (b.bits 0 noneCode)⟩
  | .bfi h d a b c => some ⟨h, 82, b.isLit, 0, d.code, a.code, (b.bits 0 c.code)⟩
  | .popc h d a => some ⟨h, 83, false, 0, d.code, a.code, (regB 0 noneCode noneCode)⟩
  | .clz h d a => some ⟨h, 84, false, 0, d.code, a.code, (regB 0 noneCode noneCode)⟩
  | .brev h d a => some ⟨h, 85, false, 0, d.code, a.code, (regB 0 noneCode noneCode)⟩
  | .isetp h cond uns d a b => some ⟨h, 86, b.isLit, ((((cond.bits).setWidth 5) <<< 2) ||| ((((bit uns)).setWidth 5) <<< 1)), d.code, a.code, (b.bits 0 noneCode)⟩
  | .sel h not pred d a b => some ⟨h, 87, b.isLit, (((((bit not)).setWidth 5) <<< 3) ||| ((pred).setWidth 5)), d.code, a.code, (b.bits 0 noneCode)⟩
  | .mov h d b => some ⟨h, 88, b.isLit, 0, d.code, noneCode, (b.bits 0 noneCode)⟩
  | .iadd2 h ovf d a b => some ⟨h, 89, b.isLit, (((ovf.bits).setWidth 5)), d.code, a.code, (b.bits 0 noneCode)⟩
  | .isub2 h ovf d a b => some ⟨h, 90, b.isLit, (((ovf.bits).setWidth 5)), d.code, a.code, (b.bits 0 noneCode)⟩
  | .imin2 h u d a b => some ⟨h, 91, b.isLit, ((((bit u)).setWidth 5)), d.code, a.code, (b.bits 0 noneCode)⟩
  | .imax2 h u d a b => some ⟨h, 92, b.isLit, ((((bit u)).setWidth 5)), d.code, a.code, (b.bits 0 noneCode)⟩
  | .isetp2 h cond uns d a b => some ⟨h, 93, b.isLit, ((((cond.bits).setWidth 5) <<< 2) ||| ((((bit uns)).setWidth 5) <<< 1)), d.code, a.code, (b.bits 0 noneCode)⟩
  | .plop h lut d a c b => some ⟨h, 94, false, 0, d.code, a.code, (regB (((lut).setWidth 8)) c.code b.code)⟩
  | .lea h u scale d a b => some ⟨h, 95, b.isLit, (((((bit u)).setWidth 5) <<< 2) ||| ((scale).setWidth 5)), d.code, a.code, (b.bits 0 noneCode)⟩
  | .fadd h rnd d a b => some ⟨h, 128, b.isLit, (((rnd.bits).setWidth 5)), d.code, a.code, (b.bits 0 noneCode)⟩
  | .fsub h rnd d a b => some ⟨h, 129, b.isLit, (((rnd.bits).setWidth 5)), d.code, a.code, (b.bits 0 noneCode)⟩
  | .fmul h rnd d a b => some ⟨h, 130, b.isLit, (((rnd.bits).setWidth 5)), d.code, a.code, (b.bits 0 noneCode)⟩
  | .ffma h rnd d a b c => some ⟨h, 131, b.isLit, (((rnd.bits).setWidth 5)), d.code, a.code, (b.bits 0 c.code)⟩
  | .fmin h d a b => some ⟨h, 132, b.isLit, 0, d.code, a.code, (b.bits 0 noneCode)⟩
  | .fmax h d a b => some ⟨h, 133, b.isLit, 0, d.code, a.code, (b.bits 0 noneCode)⟩
  | .fsetp h cond d a b => some ⟨h, 134, b.isLit, ((((cond.bits).setWidth 5) <<< 2)), d.code, a.code, (b.bits 0 noneCode)⟩
  | .frcp h rnd d a => some ⟨h, 135, false, (((rnd.bits).setWidth 5)), d.code, a.code, (regB 0 noneCode noneCode)⟩
  | .frsq h d a => some ⟨h, 136, false, 0, d.code, a.code, (regB 0 noneCode noneCode)⟩
  | .fsqrt h rnd d a => some ⟨h, 137, false, (((rnd.bits).setWidth 5)), d.code, a.code, (regB 0 noneCode noneCode)⟩
  | .fexp2 h d a => some ⟨h, 138, false, 0, d.code, a.code, (regB 0 noneCode noneCode)⟩
  | .flog2 h d a => some ⟨h, 139, false, 0, d.code, a.code, (regB 0 noneCode noneCode)⟩
  | .fsin h d a => some ⟨h, 140, false, 0, d.code, a.code, (regB 0 noneCode noneCode)⟩
  | .fcos h d a => some ⟨h, 141, false, 0, d.code, a.code, (regB 0 noneCode noneCode)⟩
  | .hadd2 h bf rnd d a b => some ⟨h, 142, b.isLit, (((((bit bf)).setWidth 5) <<< 2) ||| ((rnd.bits).setWidth 5)), d.code, a.code, (b.bits 0 noneCode)⟩
  | .hmul2 h bf rnd d a b => some ⟨h, 143, b.isLit, (((((bit bf)).setWidth 5) <<< 2) ||| ((rnd.bits).setWidth 5)), d.code, a.code, (b.bits 0 noneCode)⟩
  | .hfma2 h bf rnd d a b c => some ⟨h, 144, b.isLit, (((((bit bf)).setWidth 5) <<< 2) ||| ((rnd.bits).setWidth 5)), d.code, a.code, (b.bits 0 c.code)⟩
  | .f2i h u rnd d a => some ⟨h, 145, false, (((((bit u)).setWidth 5) <<< 2) ||| ((rnd.bits).setWidth 5)), d.code, a.code, (regB 0 noneCode noneCode)⟩
  | .i2f h u rnd d a => some ⟨h, 146, false, (((((bit u)).setWidth 5) <<< 2) ||| ((rnd.bits).setWidth 5)), d.code, a.code, (regB 0 noneCode noneCode)⟩
  | .cvt h elem sat rnd dst src d a => some ⟨h, 147, false, ((((elem).setWidth 5) <<< 3) ||| ((((bit sat)).setWidth 5) <<< 2) ||| ((rnd.bits).setWidth 5)), d.code, a.code, (regB ((((dst.bits).setWidth 8) <<< 4) ||| ((src.bits).setWidth 8)) noneCode noneCode)⟩
  | .quant h rnd d a => some ⟨h, 148, false, (((rnd).setWidth 5)), d.code, a.code, (regB 0 noneCode noneCode)⟩
  | .fclass h d a => some ⟨h, 149, false, 0, d.code, a.code, (regB 0 noneCode noneCode)⟩
  | .sadd h d a b => some ⟨h, 192, b.isLit, 0, d.code, a.code, (b.bits 0 noneCode)⟩
  | .ssub h d a b => some ⟨h, 193, b.isLit, 0, d.code, a.code, (b.bits 0 noneCode)⟩
  | .smul h d a b => some ⟨h, 194, b.isLit, 0, d.code, a.code, (b.bits 0 noneCode)⟩
  | .sand h d a b => some ⟨h, 195, b.isLit, 0, d.code, a.code, (b.bits 0 noneCode)⟩
  | .sor h d a b => some ⟨h, 196, b.isLit, 0, d.code, a.code, (b.bits 0 noneCode)⟩
  | .sxor h d a b => some ⟨h, 197, b.isLit, 0, d.code, a.code, (b.bits 0 noneCode)⟩
  | .sshl h d a b => some ⟨h, 198, b.isLit, 0, d.code, a.code, (b.bits 0 noneCode)⟩
  | .sshr h sx d a b => some ⟨h, 199, b.isLit, ((((bit sx)).setWidth 5)), d.code, a.code, (b.bits 0 noneCode)⟩
  | .smov h w64 d b => some ⟨h, 200, b.isLit, ((((bit w64)).setWidth 5)), d.code, noneCode, (b.bits 0 noneCode)⟩
  | .scmp h cond uns d a b => some ⟨h, 201, b.isLit, ((((cond.bits).setWidth 5) <<< 2) ||| ((((bit uns)).setWidth 5) <<< 1)), d.code, a.code, (b.bits 0 noneCode)⟩
  | .smin h u d a b => some ⟨h, 202, b.isLit, ((((bit u)).setWidth 5)), d.code, a.code, (b.bits 0 noneCode)⟩
  | .smax h u d a b => some ⟨h, 203, b.isLit, ((((bit u)).setWidth 5)), d.code, a.code, (b.bits 0 noneCode)⟩
  | .sld h width d a m => some ⟨h, 204, m.isOffset, (((width.bits).setWidth 5)), d.code, a.code, m.bits⟩
  | .sst h width d a m => some ⟨h, 205, m.isOffset, (((width.bits).setWidth 5)), d.code, a.code, m.bits⟩
  | .vread h d a b => some ⟨h, 206, b.isLit, 0, d.code, a.code, (b.bits 0 noneCode)⟩
  | .vwrite h all d a b => some ⟨h, 207, b.isLit, ((((bit all)).setWidth 5)), d.code, a.code, (b.bits 0 noneCode)⟩
  | .pset h raw d a => some ⟨h, 256, false, ((((bit raw)).setWidth 5)), d.code, a.code, (regB 0 noneCode noneCode)⟩
  | .perm h d a b => some ⟨h, 257, false, 0, d.code, a.code, (regB 0 noneCode b.code)⟩
  | .bcast h d a b => some ⟨h, 258, b.isLit, 0, d.code, a.code, (b.bits 0 noneCode)⟩
  | .ld h width d a m => some ⟨h, 320, m.isOffset, (((width.bits).setWidth 5)), d.code, a.code, m.bits⟩
  | .st h width d a m => some ⟨h, 321, m.isOffset, (((width.bits).setWidth 5)), d.code, a.code, m.bits⟩
  | .lds h width d a m => some ⟨h, 322, m.isOffset, (((width.bits).setWidth 5)), d.code, a.code, m.bits⟩
  | .sts h width d a m => some ⟨h, 323, m.isOffset, (((width.bits).setWidth 5)), d.code, a.code, m.bits⟩
  | .atom h op w64 d a m => some ⟨h, 324, m.isOffset, ((((op.bits).setWidth 5) <<< 1) ||| (((bit w64)).setWidth 5)), d.code, a.code, m.bits⟩
  | .atoms h op w64 d a m => some ⟨h, 325, m.isOffset, ((((op.bits).setWidth 5) <<< 1) ||| (((bit w64)).setWidth 5)), d.code, a.code, m.bits⟩
  | .frame h d a => some ⟨h, 326, false, 0, d.code, a.code, (regB 0 noneCode noneCode)⟩
  | .pub h scope => some ⟨h, 327, false, (((scope.bits).setWidth 5)), noneCode, noneCode, (regB 0 noneCode noneCode)⟩
  | .acq h scope => some ⟨h, 328, false, (((scope.bits).setWidth 5)), noneCode, noneCode, (regB 0 noneCode noneCode)⟩
  | .fence h scope => some ⟨h, 329, false, (((scope.bits).setWidth 5)), noneCode, noneCode, (regB 0 noneCode noneCode)⟩
  | .ldx h d a m => some ⟨h, 330, m.isOffset, 0, d.code, a.code, m.bits⟩
  | .mat h d a => some ⟨h, 331, false, 0, d.code, a.code, (regB 0 noneCode noneCode)⟩
  | .pxrel h d => some ⟨h, 332, false, 0, d.code, noneCode, (regB 0 noneCode noneCode)⟩
  | .ispx h d a => some ⟨h, 333, false, 0, d.code, a.code, (regB 0 noneCode noneCode)⟩
  | .copy h dsp ssp d a b c => some ⟨h, 384, false, ((((dsp.bits).setWidth 5) <<< 2) ||| ((ssp.bits).setWidth 5)), d.code, a.code, (regB 0 c.code b.code)⟩
  | .tdef h d a => some ⟨h, 385, false, 0, d.code, a.code, (regB 0 noneCode noneCode)⟩
  | .tmov h d a c => some ⟨h, 386, false, 0, d.code, a.code, (regB 0 c.code noneCode)⟩
  | .tstat h d a => some ⟨h, 387, false, 0, d.code, a.code, (regB 0 noneCode noneCode)⟩
  | .tfree h d => some ⟨h, 388, false, 0, d.code, noneCode, (regB 0 noneCode noneCode)⟩
  | .txinit h a b => some ⟨h, 389, b.isLit, 0, noneCode, a.code, (b.bits 0 noneCode)⟩
  | .txexpect h a b => some ⟨h, 390, b.isLit, 0, noneCode, a.code, (b.bits 0 noneCode)⟩
  | .txarrive h a b => some ⟨h, 391, b.isLit, 0, noneCode, a.code, (b.bits 0 noneCode)⟩
  | .txwait h a b => some ⟨h, 392, b.isLit, 0, noneCode, a.code, (b.bits 0 noneCode)⟩
  | .txtest h d a b => some ⟨h, 393, b.isLit, 0, d.code, a.code, (b.bits 0 noneCode)⟩
  | .cbar h a b => some ⟨h, 394, false, 0, noneCode, a.code, (regB 0 noneCode b.code)⟩
  | .mloadb h fmt slot d b => some ⟨h, 448, b.isLit, ((((fmt.bits).setWidth 5) <<< 2) ||| ((((bit slot)).setWidth 5) <<< 1)), d.code, noneCode, (b.bits 0 noneCode)⟩
  | .mma h fmt slot sc d a b => some ⟨h, 449, b.isLit, ((((fmt.bits).setWidth 5) <<< 2) ||| ((((bit slot)).setWidth 5) <<< 1) ||| (((bit sc)).setWidth 5)), d.code, a.code, (b.bits 0 noneCode)⟩
  | .mchain h => some ⟨h, 450, false, 0, noneCode, noneCode, (regB 0 noneCode noneCode)⟩
  | .mend h => some ⟨h, 451, false, 0, noneCode, noneCode, (regB 0 noneCode noneCode)⟩
  | .oprdy h a => some ⟨h, 452, false, 0, noneCode, a.code, (regB 0 noneCode noneCode)⟩
  | .mzero h d => some ⟨h, 453, false, 0, d.code, noneCode, (regB 0 noneCode noneCode)⟩
  | .mread h fmt f32 d a b => some ⟨h, 454, b.isLit, ((((fmt.bits).setWidth 5) <<< 2) ||| (((bit f32)).setWidth 5)), d.code, a.code, (b.bits 0 noneCode)⟩
  | .mwrite h fmt f32 d a b => some ⟨h, 455, b.isLit, ((((fmt.bits).setWidth 5) <<< 2) ||| (((bit f32)).setWidth 5)), d.code, a.code, (b.bits 0 noneCode)⟩
  | .mscale h slot side d b => some ⟨h, 456, b.isLit, (((((bit slot)).setWidth 5) <<< 1) ||| (((bit side)).setWidth 5)), d.code, noneCode, (b.bits 0 noneCode)⟩
  | .mrowred h op d a => some ⟨h, 457, false, (((op.bits).setWidth 5)), d.code, a.code, (regB 0 noneCode noneCode)⟩
  | .finit h a => some ⟨h, 512, false, 0, noneCode, a.code, (regB 0 noneCode noneCode)⟩
  | .unite h a b c => some ⟨h, 513, false, 0, noneCode, a.code, (regB 0 c.code b.code)⟩
  | .find h label d a b => some ⟨h, 514, false, ((((bit label)).setWidth 5)), d.code, a.code, (regB 0 noneCode b.code)⟩
  | .relabel h compact s32 op a b c => some ⟨h, 515, false, (((((bit compact)).setWidth 5) <<< 3) ||| ((((bit s32)).setWidth 5) <<< 2) ||| ((op.bits).setWidth 5)), noneCode, a.code, (regB 0 c.code b.code)⟩
  | .fsnap h a => some ⟨h, 516, false, 0, noneCode, a.code, (regB 0 noneCode noneCode)⟩
  | .fundo h a => some ⟨h, 517, false, 0, noneCode, a.code, (regB 0 noneCode noneCode)⟩
  | .fcommit h a => some ⟨h, 518, false, 0, noneCode, a.code, (regB 0 noneCode noneCode)⟩
  | .fstat h d a => some ⟨h, 519, false, 0, d.code, a.code, (regB 0 noneCode noneCode)⟩
  | .gets h d a => some ⟨h, 576, false, 0, d.code, a.code, (regB 0 noneCode noneCode)⟩
  | .sets h d b => some ⟨h, 577, b.isLit, 0, d.code, noneCode, (b.bits 0 noneCode)⟩
  | .time h d => some ⟨h, 578, false, 0, d.code, noneCode, (regB 0 noneCode noneCode)⟩
  | .clock h d => some ⟨h, 579, false, 0, d.code, noneCode, (regB 0 noneCode noneCode)⟩
  | .qput h queue a => some ⟨h, 580, false, (((queue).setWidth 5)), noneCode, a.code, (regB 0 noneCode noneCode)⟩
  | .hint h kind a => some ⟨h, 581, false, (((kind.bits).setWidth 5)), noneCode, a.code, (regB 0 noneCode noneCode)⟩
  | .wopen h d a b => some ⟨h, 582, b.isLit, 0, d.code, a.code, (b.bits 0 noneCode)⟩
  | .wclose h b => some ⟨h, 583, b.isLit, 0, noneCode, noneCode, (b.bits 0 noneCode)⟩
  | .tlbinv h a b => some ⟨h, 584, b.isLit, 0, noneCode, a.code, (b.bits 0 noneCode)⟩
  | .bkpt h b => some ⟨h, 585, b.isLit, 0, noneCode, noneCode, (b.bits 0 noneCode)⟩
  | .partitionIssueClock _ _ => none
  | .reconvergenceFill _ _ => none
  | .resultWriteback _ _ => none
  | .memorySectorReturn _ _ _ => none
  | .tlbMissServed _ _ _ _ _ => none
  | .storeAccepted _ _ => none
  | .releaseComplete _ _ => none
  | .atomicPerform _ _ _ => none
  | .portAccess _ => none
  | .slotGrant _ _ _ => none
  | .postedOperationExecute _ => none
  | .proxyForward _ => none
  | .ldxFill _ => none
  | .referenceCountChange _ => none
  | .crossingResult _ => none
  | .postedTimeout _ => none
  | .homeStorePerform _ _ => none
  | .matrixCommandExecute _ _ => none
  | .forestAccept _ _ => none
  | .copyTake _ _ => none
  | .copySectorLand _ _ _ => none
  | .copyFault _ _ _ _ => none
  | .leafArrivalDelivery _ _ => none
  | .rootBroadcast _ _ => none
  | .teamPlacement => none
  | .lazySaveComplete _ => none
  | .saveAreaRetry _ _ => none
  | .waveSlotRelease _ => none
  | .teamMigration _ _ => none
  | .gridComplete _ => none
  | .trigWrite _ _ _ => none
  | .patchApply _ => none
  | .admission => none
  | .gloadAddressWrite _ _ _ => none
  | .gloadLoad _ _ _ => none
  | .gloadUnload _ _ _ => none
  | .gloadSequenceError _ _ _ => none
  | .gloadLoadComplete _ _ => none
  | .create _ => none
  | .keygen _ => none
  | .grant _ => none
  | .admitCtx _ => none
  | .suspend _ => none
  | .suspendComplete _ => none
  | .reset _ => none
  | .resetDrainComplete _ => none
  | .release _ => none
  | .vdctlUndefinedCommand _ _ => none
  | .backgroundScrub _ => none
  | .integrityReread _ _ _ => none
  | .selfTestComplete _ _ _ => none
  | .windowOpened _ => none
  | .windowClosed _ => none
  | .replayWave _ _ => none
  | .replayDeliverTrap _ _ => none
  | .replayUnrecovered _ _ => none
  | .replayInvalidAction _ _ => none
  | .heldFaultRecordWrite _ => none
  | .invcntWrite _ _ => none
  | .invalidationComplete _ => none
  | .movereq _ => none
  | .hotsel _ => none
  | .policyInterval => none
  | .moveCutComplete _ => none
  | .moveSectorCopy _ _ => none
  | .moveSourceRelease _ => none
  | .moveCopyTimeout _ _ => none
  | .moveCopyBack _ _ => none
  | .portEnable _ => none
  | .portDisable _ => none
  | .portTrainingComplete _ _ => none
  | .portTrainingFail _ => none
  | .portLinkLost _ => none
  | .flitReceive _ _ => none
  | .inboundRequest _ _ => none
  | .hostMemAccess _ _ => none
  | .remoteReply _ _ => none
  | .remoteTimeout _ => none
  | .partWrite _ _ => none
  | .commandSlot _ => none
  | .tokenBucketFill _ _ _ => none
  | .rowIdleClose _ _ => none
  | .refreshDue _ => none
  | .allBankRefreshEnd _ => none
  | .thermalThresholdCrossing _ _ => none
  | .powerWindowEnd _ _ => none
  | .islandVoltageStable _ _ => none
  | .islctlWrite _ _ _ => none
  | .droopDetect _ => none
  | .droopStretchEnd _ => none
  | .droopHalvingEnd _ => none
  | .clusterGateRequest _ => none
  | .clusterAutoGate _ => none
  | .clusterGated _ => none
  | .clusterWakeRequest _ => none
  | .clusterWakeComplete _ => none
  | .coldReset => none
  | .warmReset => none
  | .registerWrite _ _ _ => none
  | .homeUnitFailure _ => none
  | .perBankRefreshComplete _ _ => none

/-- The word of an instruction, `none` for a step that is no instruction. -/
def encodeWord (i : Instr) : Option (BitVec 96) := i.fields.map Fields.word

/-- The bytes of an instruction in memory, lowest address first (R190). -/
def encode (i : Instr) : Option (List Byte) := (encodeWord i).map fun w => leBytes 12 w.toNat

/-- The instruction that the decoder reads from `nbits` bits `w` laid out as the device stores them, the bits above them 0. -/
def decodeTableWord (nbits w : Nat) : Option Instr :=
  match decode (leBytes 12 (w % 2 ^ nbits)) with
  | .ok (i, _) => some i
  | .error _ => none

end Sys2Proof
end

