-- ==== Sys2Proof/Machine/Tab.lean ====
section
/-! DEFINITION. Sparse tables: sorted lists of keys and values that list no key at its default value. Memory, register
files and every numbered array of the state are tables. -/

namespace Sys2Proof.Machine

/-- A sparse table. -/
abbrev Tab (α : Type) := List (Nat × α)

/-- The entry of a key, if it is listed. -/
def tfind {α : Type} : Tab α → Nat → Option α
  | [], _ => none
  | (k, v) :: m, a => if k = a then some v else tfind m a

/-- The value of a key, `d` where it is not listed. -/
def tget {α : Type} (d : α) : Tab α → Nat → α
  | [], _ => d
  | (k, v) :: m, a => if k = a then v else tget d m a

/-- List a key with a value, in its place of the rising order. -/
def tput {α : Type} : Tab α → Nat → α → Tab α
  | [], k, v => [(k, v)]
  | (k', v') :: m, k, v =>
    if k < k' then (k, v) :: (k', v') :: m else if k = k' then (k, v) :: m else (k', v') :: tput m k v

/-- Remove a key. -/
def terase {α : Type} (m : Tab α) (k : Nat) : Tab α := m.filter fun e => e.1 != k

/-- Set a key; the default value is not listed. -/
def tset {α : Type} [DecidableEq α] (d : α) (m : Tab α) (k : Nat) (v : α) : Tab α :=
  if v = d then terase m k else tput m k v

/-- Keys strictly rising. -/
def tsorted {α : Type} : Tab α → Bool
  | [] => true
  | [_] => true
  | a :: b :: m => decide (a.1 < b.1) && tsorted (b :: m)

/-- The canonical form: keys strictly rising, no entry at the default value. -/
def twf {α : Type} [DecidableEq α] (d : α) (m : Tab α) : Bool := tsorted m && m.all fun e => decide (e.2 ≠ d)

end Sys2Proof.Machine
end

