-- ==== Sys2Proof/Machine/State.lean ====
section
/-! DEFINITION. The state of the SLX-9400: plain data, everything the manual gives the machine, the requests in flight and
the agenda of moves that stand next. -/

namespace Sys2Proof.Machine

/-- Why the machine stops with a fault. -/
inductive Fault where
  /-- Raised by no step: every outcome the manual gives is a state (log 16). Safe: the model never stops here. -/
  | none
  deriving DecidableEq, Repr

/-- Why the machine has no meaning for a step. -/
inductive Refusal where
  /-- Raised by `exec` for an instruction whose meaning is not written yet. Safe: the model stops. -/
  | notModelled (mnemonic : String)
  deriving DecidableEq, Repr

/-- An operation of one lane in the integer or floating-point datapath, in a core or at a home (R103, R228, R241). -/
inductive AluOp where
  | iadd (o : Sat) | isub (o : Sat) | imul | imulh (u : Bool) | imad | idiv (u : Bool) | irem (u : Bool)
  | imin (u : Bool) | imax (u : Bool) | iabs (sat : Bool) | and | or | xor | shl | shr | sar | rotl
  | bfe (sx : Bool) | bfi | popc | clz | brev | sel (q : Bool) | mov
  | icmp (c : Cond) (u : Bool) | fcmp (c : Cond)
  | iadd2 (o : Sat) | isub2 (o : Sat) | imin2 (u : Bool) | imax2 (u : Bool)
  | fadd (r : Rnd) | fsub (r : Rnd) | fmul (r : Rnd) | ffma (r : Rnd) | fmin | fmax
  | frcp (r : Rnd) | frsq | fsqrt (r : Rnd) | fexp2 | flog2 | fsin | fcos
  | hadd2 (bf : Bool) (r : Rnd) | hmul2 (bf : Bool) (r : Rnd) | hfma2 (bf : Bool) (r : Rnd)
  | f2i (u : Bool) (r : Rnd) | i2f (u : Bool) (r : Rnd) | fclass
  | cvt (elem : BitVec 2) (sat : Bool) (r : Rnd) (dst src : CvtFmt)
  deriving DecidableEq, Repr

/-- A lane of a vector register: its 32 bits and its proxy tag (R99). -/
structure Lane where
  tag : Bool
  w   : Word
  deriving DecidableEq, Repr

/-- Where a fixed-latency result goes. -/
inductive Target where
  | v (reg lane : Nat) | p (pred lane : Nat) | s (reg : Nat) | q (reg : Nat)
  deriving DecidableEq, Repr

/-- A fixed-latency result of one instruction, not written yet (R92). -/
structure Writeback where
  id     : Nat
  due    : Nat
  writes : List (Target × Nat)
  flags  : BitVec 5
  cnt    : List Nat
  deriving DecidableEq, Repr

/-- An entry of the reconvergence stack (R90). -/
structure REntry where
  mask    : Word
  held    : Word
  resume  : DWord
  join    : DWord
  split   : Nat
  started : Bool
  deriving DecidableEq, Repr

/-- One split of a wave (R85). -/
structure Split where
  live     : Bool
  pc       : DWord
  mask     : Word
  /-- the clock at which its previous instruction issued (R91) -/
  prev     : Option Nat
  /-- the first clock at which it may issue after a spill, a fill or a YIELD (R90, R222) -/
  notBefore : Nat
  /-- held at a JOIN (R88) -/
  joinHeld : Bool
  /-- held by the trap of another split (R313) -/
  trapHeld : Bool
  /-- the operation it waits for (R107, R134, R167) -/
  waitOn   : Option Nat
  /-- the entries still to be read back, and the JOIN or EXIT that needs them (R90) -/
  filling  : Bool
  deriving DecidableEq, Repr

/-- The life of a wave (R83). -/
inductive WStat where
  | ready | parked | halted | discarded | exited
  deriving DecidableEq, Repr

/-- A trap that waits for its wave (R316), or that is being taken. -/
structure TrapInfo where
  cause  : BitVec 7
  origin : BitVec 7
  split  : Nat
  pc     : DWord
  addr   : DWord
  arg    : Word
  lanes  : Word
  word   : BitVec 96
  /-- the trap program counter is the address after the instruction (R314) -/
  after  : Bool
  deriving DecidableEq, Repr

/-- What trap entry records (R313). -/
structure HandlerRec where
  split : Nat
  mask  : Word
  depth : Nat
  deriving DecidableEq, Repr

/-- What REGION records (R97, R218). -/
structure RegionRec where
  entry  : DWord
  mask   : Word
  p      : Tab Word
  f      : Tab (BitVec 192)
  q      : Tab (BitVec 144)
  fpstat : Word
  chain  : Option Nat
  lives  : Word
  deriving DecidableEq, Repr

/-- A parked fault (R83, R318): `gen` is the tag that its record carries, `told` says that the record is written. -/
structure Park where
  cause  : BitVec 7
  origin : BitVec 7
  split  : Nat
  pc     : DWord
  lanes  : Word
  addr   : DWord
  req    : Option Nat
  word   : BitVec 96
  gen    : BitVec 8
  told   : Bool
  deriving DecidableEq, Repr

/-- Where a piece of an access stands: a virtual address, a physical address with its key slot, or a scratchpad byte of a
level (0 core, 1 cluster, 2 die), a unit of it and an offset. -/
inductive Loc where
  | va (a : DWord)
  | mem (pa key : Nat)
  | sp (lvl unit off : Nat)
  deriving DecidableEq, Repr

/-- How far a piece of an access has come. -/
inductive PieceSt where
  | untranslated | ready | served | remote | done
  /-- its page or sector has failed; the wave parks for it, or is parked for another (R83, R148) -/
  | failed (cause : BitVec 7)
  deriving DecidableEq, Repr

/-- Bytes of one lane access that are performed together (R267). `t` is when its translation was accepted, `due` when its data leave the
controller (R330, R333). -/
structure Piece where
  lane : Nat
  off  : Nat
  len  : Nat
  va   : DWord
  loc  : Loc
  st   : PieceSt
  data : List Byte
  t    : Nat
  due  : Nat
  deriving DecidableEq, Repr

/-- A memory operation of a wave that is not complete. -/
structure Req where
  id     : Nat
  seq    : Nat
  instr  : Instr
  split  : Nat
  pc     : DWord
  word   : BitVec 96
  mask   : Word
  pieces : List Piece
  cnt    : List Nat
  rtag   : Option Nat
  /-- slots and values fixed at issue: for each lane the data words -/
  aux    : List (Nat × Nat)
  deriving DecidableEq, Repr

/-- One byte that a wave has stored into an entry of the store buffer, with its place in the wave's issue order (R264). -/
structure SByte where
  off  : Nat
  val  : Byte
  seq  : Nat
  lane : Nat
  rtag : Option Nat
  deriving DecidableEq, Repr

/-- An entry of the store buffer: one 32-byte sector of one wave (R264). -/
structure SEntry where
  id     : Nat
  sector : Nat
  key    : Nat
  va     : DWord
  pc     : DWord
  bytes  : List SByte
  deriving DecidableEq, Repr

/-- What a completed release sets going (R265). -/
inductive Cont where
  | nothing
  | copy (cmd : Nat)
  | req (id : Nat)
  | wopen (w : Nat)
  | wclose (w : Nat)
  | forest (op : Nat)
  | tlbinv (vpn count : Nat) (cnt : List Nat)
  deriving DecidableEq, Repr

/-- A release of a wave (R265). `seq` is its place in issue order; `lanes` are its issuing lanes; `drop` is the cause of a covered store
that was dropped; `t` is when it began, from which the stores that it sends out wait at their controllers. -/
structure Rel where
  id    : Nat
  seq   : Nat
  scope : Scope
  cnt   : List Nat
  cont  : Cont
  split : Nat
  pc    : DWord
  word  : BitVec 96
  lanes : Word
  drop  : Option (BitVec 7)
  t     : Nat
  deriving DecidableEq, Repr

/-- An acquire of a wave: `loads` names the acquiring request, `none` covers every earlier read (R266). -/
structure Acq where
  id    : Nat
  seq   : Nat
  loads : Option Nat
  cnt   : List Nat
  deriving DecidableEq, Repr

/-- A wave in its slot (R72, R83, R194). -/
structure Wave where
  team    : Nat
  ctx     : Nat
  stat    : WStat
  v       : Tab Lane
  s       : Tab Word
  p       : Tab Word
  f       : Tab (BitVec 192)
  k       : Tab (BitVec 6)
  q       : Tab (BitVec 144)
  /-- x0 to x8, x10, x11, x16 and x32 to x47 (R197) -/
  x       : Tab Word
  splits  : Tab Split
  /-- the newest entries, newest first (R90) -/
  stack   : List REntry
  /-- how many older entries are spilled -/
  spilled : Nat
  handler : Option HandlerRec
  /-- traps that wait, each with the clock at which it was raised (R316) -/
  heldTraps : List (Nat × TrapInfo)
  /-- pre-empted, and its generation tag has not advanced yet (R96, R97) -/
  halting : Bool
  region  : Option RegionRec
  /-- the open chain, by the number of its MCHAIN (R296) -/
  chain   : Option Nat
  park    : Option Park
  seq     : Nat
  pend    : List Writeback
  reqs    : List Req
  sb      : List SEntry
  rels    : List Rel
  acqs    : List Acq
  exiting : Bool
  /-- the cause of a remote atomic that was dropped with no release under way (R185) -/
  lost    : Option (BitVec 7)
  /-- sectors of code that have come from a peer for an instruction not issued yet, under 4 × sector + split (R184) -/
  code    : List (Nat × List Byte)
  /-- flags that results raised, and the clock of the last (R250) -/
  raised  : BitVec 5
  raisedAt : Nat
  deriving DecidableEq, Repr

/-- A transaction barrier operation at a port (R137, R286 to R288). -/
inductive TxKind where
  | init (n : Nat) | expect (n : Nat) | arrive (n : Nat) | wait (p : Nat) | test (p : Nat) (d : Opd)
  | cbar (rootOff : Nat)
  deriving DecidableEq, Repr

/-- What an operation at a port does. -/
inductive PortWhat where
  | piece (req idx : Nat)
  | tx (k : TxKind)
  deriving DecidableEq, Repr

/-- An operation that waits at a scratchpad port or bank (R125, R126). -/
structure PortOp where
  id     : Nat
  wid    : Nat
  seq    : Nat
  lane   : Nat
  lvl    : Nat
  unit   : Nat
  off    : Nat
  write  : Bool
  what   : PortWhat
  split  : Nat
  pc     : DWord
  word   : BitVec 96
  cnt    : List Nat
  /-- a TXWAIT that has read an unchanged phase and waits for the next flip -/
  asleep : Bool
  deriving DecidableEq, Repr

/-- An operand of a posted operation at its home (R103, R104). -/
inductive HSrc where
  | val (w : Word)
  | slot (idx gen : Nat)
  | fwd (item : Nat)
  | bad (stale : Bool) (prec : Option Nat) (cause : BitVec 7)
  deriving DecidableEq, Repr

/-- The memory address that a home forms (R105). -/
structure HAddr where
  off   : HSrc
  scale : Nat
  add   : DWord
  frame : Option (BitVec 192)
  base  : DWord
  deriving DecidableEq, Repr

/-- What a message to a home does (R103 to R108). -/
inductive HKind where
  | alu (op : AluOp) (a b c : HSrc) (dst : Option (Nat × Nat))
  | load (a : HAddr) (dst : Option (Nat × Nat))
  /-- the parts of the word, in order: length, address, key slot -/
  | fill (parts : List (Nat × Nat × Nat)) (va : DWord) (dst : Option (Nat × Nat))
  | forward (idx gen : Nat) (dst : Nat)
  | count (idx gen : Nat) (delta : Int)
  | read (idx gen : Nat)
  | store (a : HAddr) (width : Width) (data : HSrc) (raw : List Byte) (queued : Bool) (pa key : Nat)
  | atom (a : HAddr) (op : AtomOp) (d c n : HSrc) (dst : Option (Nat × Nat)) (nr : Bool)
  deriving DecidableEq, Repr

/-- A message of a wave to a home, in issue order within its home (R104). -/
structure HomeItem where
  id    : Nat
  home  : Nat
  wid   : Nat
  ctx   : Nat
  seq   : Nat
  lane  : Nat
  pc    : DWord
  kind  : HKind
  /-- the operation of the core that waits for the answer -/
  op    : Option Nat
  grid  : Nat
  rtag  : Option Nat
  t     : Nat
  /-- parts of a word that have come from peers (R184) -/
  got   : Tab (List Byte)
  deriving DecidableEq, Repr

/-- A crossing, an LDX, a PXREL or a posted ATOM or ST that waits for its lanes (R107, R277, R279). -/
structure HomeOp where
  id     : Nat
  wid    : Nat
  seq    : Nat
  instr  : Instr
  split  : Nat
  pc     : DWord
  word   : BitVec 96
  /-- lanes not answered yet -/
  left   : Word
  /-- lanes whose slot was poisoned or stale: cause, origin cause, origin address -/
  bad    : List (Nat × BitVec 7 × BitVec 7 × DWord)
  /-- answered lanes -/
  got    : List (Nat × Nat)
  cnt    : List Nat
  holds  : Bool
  isRead : Bool
  deriving DecidableEq, Repr

/-- The states of a temporary slot (R115). -/
inductive SlotSt where
  | free | granted | live | poisoned
  deriving DecidableEq, Repr

/-- A temporary slot of a home (R100, R101, R114). -/
structure Slot where
  st     : SlotSt
  val    : Word
  gen    : BitVec 5
  count  : Nat
  prec   : Nat
  ctx    : Nat
  core   : Nat
  /-- wave and region sequence number that tag it -/
  rtag   : Option (Nat × Nat)
  grid   : Nat
  deriving DecidableEq, Repr

/-- A poison record (R112). -/
structure PRec where
  pc    : DWord
  cause : BitVec 7
  ctx   : Nat
  deriving DecidableEq, Repr

/-- A home unit (R11, R113). -/
structure Home where
  slots  : Tab Slot
  ptab   : Tab PRec
  failed : Bool
  deriving DecidableEq, Repr

/-- An entry of a TLB: an aligned 1 MiB with the pages it maps (R152). -/
structure TlbEntry where
  ctx    : Nat
  mib    : Nat
  pages  : BitVec 16
  low    : Nat
  frame  : Nat
  tier   : Nat
  key    : Nat
  write  : Bool
  exec   : Bool
  moving : Bool
  rekey  : Bool
  deriving DecidableEq, Repr

/-- The state of a weight slot (R290). -/
structure WSlot where
  fmt    : Fmt
  scaled : Bool
  deriving DecidableEq, Repr

/-- The matrix engine of a core (R289). -/
structure Mx where
  owner : Option Nat
  acc   : Tab Word
  wst   : Tab WSlot
  w     : Tab Byte
  wsc   : Tab Byte
  asv   : Tab Bool
  asc   : Tab Byte
  deriving DecidableEq, Repr

/-- A command that a matrix engine has received (R297). -/
structure MCmd where
  id    : Nat
  core  : Nat
  part  : Nat
  wid   : Nat
  team  : Nat
  seq   : Nat
  instr : Instr
  split : Nat
  pc    : DWord
  word  : BitVec 96
  mask  : Word
  /-- chain number; commands of one chain share it -/
  chain : Nat
  /-- the bank mask read at issue, or the column -/
  arg   : Nat
  /-- format and scaling of the weight slots, latched at issue -/
  slots : List (Nat × WSlot)
  /-- the tile's geometry, as its table entry stood at issue -/
  tile  : Option (BitVec 128)
  cnt   : List Nat
  /-- for each cell, the groups already applied; for a transfer, the sectors already moved -/
  prog  : Tab Nat
  /-- operand sectors read so far; the lanes of a v operand, read at issue -/
  got   : Tab (List Byte)
  /-- the number of the MEND that closed its chain, while the command stands (R296, R297) -/
  fin   : Option Nat
  /-- A rows that have entered, and the clock of the last (R295, R336) -/
  rowsIn : Nat
  rowAt  : Nat
  deriving DecidableEq, Repr

/-- A core (R11). -/
structure Core where
  /-- contexts at the tenant positions 0 to 3 (R82) -/
  tenants : Tab Nat
  /-- deficit counters, partition × 4 + position (R94) -/
  deficit : Tab Nat
  /-- position last chosen by each partition -/
  lastTenant : Tab Nat
  /-- slot × 4 + split last issued, partition × 4 + position (R95) -/
  lastSplit : Tab Nat
  /-- splits that YIELD places last, with their partition × 4 + position (R222) -/
  yielded : List (Nat × Nat)
  /-- positions of the last 256 issued slots of each partition, newest first (R340) -/
  hist    : Tab (List Nat)
  /-- clocks at which each slice last accepted a vector instruction, partition × 8 + slice (R335) -/
  slices  : Tab Nat
  /-- generation tags of the wave slots (R96) -/
  gens    : Tab (BitVec 8)
  pools   : Tab (List Nat)
  dry     : Tab Bool
  tlb     : List TlbEntry
  mx      : Mx
  /-- teams whose bytes the port forwards, with the old base (R98) -/
  fwd     : List (Nat × Nat)
  retired : Bool
  deriving DecidableEq, Repr

/-- The gating states of a cluster (R132). -/
inductive PwrSt where
  | on | closing | gated | waking
  deriving DecidableEq, Repr

/-- A voltage island (R334, R335). -/
structure Island where
  ntlo  : BitVec 8
  nthi  : BitVec 8
  nten  : Bool
  /-- 0 FULL, 1 NEAR, 2 RISING -/
  mode  : BitVec 2
  rose  : Nat
  /-- vector instructions issued in the window -/
  count : Nat
  deriving DecidableEq, Repr

/-- A leaf record of a cluster barrier unit (R138). -/
structure LeafRec where
  id   : Nat
  team : Nat
  core : Nat
  off  : Nat
  root : Nat
  sent : Bool
  /-- the broadcast it has not received: phase and fault -/
  news : Option (BitVec 4 × Bool)
  /-- its arrivals not delivered to the root, oldest first: the leaf's fault at each -/
  mail : List Bool
  /-- the record is removed, but its arrival is still to be delivered: the grid whose root it names -/
  gone : Option Nat
  deriving DecidableEq, Repr

/-- A placement that waits for its cluster to be ON: a team of a grid, saved or (none) new, and its core (R132). -/
structure Held where
  grid : Nat
  team : Option Nat
  core : Nat
  deriving DecidableEq, Repr

/-- A cluster (R11, R334). -/
structure Cluster where
  pwr      : PwrSt
  auto     : Bool
  lim      : BitVec 12
  pwrW     : BitVec 12
  droopth  : BitVec 8
  droopcnt : Word
  mxcad    : Tab (BitVec 5)
  islands  : Tab Island
  tlb      : List TlbEntry
  leaves   : List LeafRec
  clk      : Nat
  /-- half of a stretched clock has passed (R337) -/
  half     : Bool
  stretch  : Nat
  halving  : Nat
  /-- cores whose engine ran an MMA in the window (R336) -/
  ran      : List Nat
  idleFrom : Nat
  wakeAt   : Nat
  /-- the placements that wait for the cluster, in order (R132) -/
  wanted   : List Held
  deriving DecidableEq, Repr

/-- A command that the copy engine has taken, or a tile move that it runs (R129, R283). -/
structure Active where
  id     : Nat
  /-- sequence number in the ring; none for a tile move -/
  ring   : Option Nat
  order  : Nat
  cmd    : BitVec 256
  /-- source tile and destination tile of a move -/
  move   : Option (Nat × Nat)
  /-- sectors of the current chunk not landed -/
  left   : List Nat
  chunk  : Nat
  /-- stop at the end of the chunk (R130) -/
  stop   : Bool
  seq    : Nat
  wid    : Nat
  counters : List Nat
  /-- source sectors of the current chunk read before this copy wrote over them, or read at a peer (R280) -/
  pre    : Tab (List Byte)
  deriving DecidableEq, Repr

/-- A COPY that has issued, with its sequence number once it is appended (R280), or a TMOV in the tile-move queue (R283).
`ready` says that the release of a COPY has completed. -/
structure Pending where
  id    : Nat
  ring  : Option Nat
  ready : Bool
  order : Nat
  cmd   : BitVec 256
  move  : Option (Nat × Nat)
  wid   : Nat
  seq   : Nat
  cnt   : List Nat
  deriving DecidableEq, Repr

/-- A record of a fault queue or of a team's fault log, with the txbar it names (R318, R320). -/
structure FRec where
  cause  : BitVec 7
  origin : BitVec 7
  kind   : Nat
  fdom   : Word
  gridid : Word
  core   : Nat
  slot   : Nat
  gen    : BitVec 8
  lanes  : Word
  pc     : DWord
  addr   : DWord
  detail : DWord
  time   : DWord
  bar    : Option Nat
  deriving DecidableEq, Repr

/-- A forest instruction that a home judges or performs (R167). -/
structure FOp where
  id    : Nat
  wid   : Nat
  seq   : Nat
  instr : Instr
  split : Nat
  pc    : DWord
  word  : BitVec 96
  mask  : Word
  desc  : DWord
  pa    : Nat
  key   : Nat
  /-- operands read at issue: for each lane the two elements; IN and OUT of RELABEL -/
  args  : List (Nat × Nat × Nat)
  cnt   : List Nat
  /-- the release it performs first is complete -/
  ready : Bool
  /-- sectors that failed their check or could not be fetched, with the cause (R47, R167, R174, R185) -/
  bad   : List (Nat × BitVec 7)
  /-- sectors of peer slots as the operation sees them, and what it writes to them (R181, R184) -/
  got   : Tab (List Byte)
  puts  : Tab (List (Nat × Byte))
  /-- 0 to be judged; 1 performed, with writes to peers under way; 2 the same, and failed (R174) -/
  phase : Nat
  deriving DecidableEq, Repr

/-- An operation at a port of a wave that is saved, by wave index; its offset is relative to the team's own allocation where it
lies there (R96, R98). -/
structure SavedOp where
  idx : Nat
  own : Bool
  op  : PortOp
  deriving DecidableEq, Repr

/-- What a team that is not resident still has under way, each with its wave index: barrier operations; queued home stores and the
messages of LDX and of crossings to be replayed; forest and matrix commands; leaf records (R55, R96). -/
structure Kept where
  ports  : List SavedOp
  homes  : List (Nat × HomeItem)
  ops    : List (Nat × HomeOp)
  forest : List (Nat × FOp)
  mx     : List (Nat × MCmd)
  leaves : List LeafRec
  deriving DecidableEq, Repr

/-- A team (R82 to R84). -/
structure Team where
  grid   : Nat
  idx    : Nat
  core   : Nat
  base   : Nat
  slots  : List Nat
  /-- declared ids with their table entries (R120, R121) -/
  tiles  : Tab (BitVec 128)
  tail    : Nat
  taken   : Nat
  retired : Nat
  /-- COPYs issued and not ended, with their issuers -/
  issued  : List Pending
  active  : List Active
  /-- the tile-move queue (R283) -/
  tmq     : List Pending
  order   : Nat
  log     : List FRec
  /-- false while it is saved (R55) -/
  resident : Bool
  /-- copies are stopped (R130) -/
  stopped : Bool
  /-- scratchpad bytes of a team that is not resident -/
  image   : Tab Byte
  /-- engine state of a team that is not resident -/
  mximage : Option Mx
  /-- waves of a team that is not resident, by wave index -/
  saved   : Tab Wave
  kept    : Kept
  /-- the images of its cluster's and its die's scratchpad that it returns to; 0 for none -/
  imgs    : Nat × Nat
  /-- the runs of the save area that hold its units: offset, bytes (R55) -/
  area    : List (Nat × Nat)
  /-- the core that a migration moves it to (R98) -/
  goal    : Option Nat
  deriving DecidableEq, Repr

/-- The effective values of one block of a region chain (R73, R74). -/
structure Eff where
  addr    : DWord
  prio    : Nat
  weight  : Nat
  fdom    : Word
  traph   : DWord
  bclu    : Nat
  bwave   : Nat
  bscore  : Nat
  bsclu   : Nat
  bsdie   : Nat
  bproxy  : Nat
  btoken  : Nat
  undolim : Nat
  demote  : Bool
  lazySave : Bool
  fcores  : Nat
  fslot   : Nat
  fmem    : Nat
  /-- the block whose own contract it is under -/
  floorOf : Option DWord
  deriving DecidableEq, Repr

/-- The kernel header (R70). -/
structure KHead where
  code    : DWord
  entry   : DWord
  score   : Nat
  sclu    : Nat
  sdie    : Nat
  tiles   : List (BitVec 128)
  deriving DecidableEq, Repr

/-- The states of a grid (R78). -/
inductive GStat where
  | queued | admitted | running | held | draining | complete
  deriving DecidableEq, Repr

/-- Where a grid comes from. -/
inductive Origin where
  | node (launch idx : Nat)
  | qput (parent queue : Nat)
  deriving DecidableEq, Repr

/-- The cluster or die scratchpad of a grid that pre-emption saves: its level, the unit that holds it now and its place there, as an
allocation or as LAZY blocks; the bytes that are saved, and their runs of the save area (R55, R57). -/
structure SpImage where
  lvl   : Nat
  now   : Option Nat
  base  : Nat
  bytes : Tab Byte
  area  : List (Nat × Nat)
  deriving DecidableEq, Repr

/-- A grid (R70 to R78). -/
structure Grid where
  ctx    : Nat
  x5     : Word
  packet : List Byte
  origin : Origin
  stat   : GStat
  fault  : Bool
  khead  : Option KHead
  /-- the block of the grid and its ancestors, effective values fixed at launch -/
  chain  : List Eff
  order  : Nat
  next   : Nat
  teams  : Nat
  /-- cluster-scratchpad and die-scratchpad bases -/
  clu    : Tab Nat
  die    : Tab Nat
  /-- a saved unit of it was lost (R56) -/
  lost   : Bool
  images : Tab SpImage
  deriving DecidableEq, Repr

/-- A node of a graph launch. -/
inductive NodeSt where
  | waiting | launched (grid : Nat) | done | faulted | skipped
  deriving DecidableEq, Repr

/-- A graph launch in flight (R61, R65). -/
structure Launch where
  ctx    : Nat
  graph  : Nat
  seq    : Nat
  patch  : Nat
  packets : List (List Byte)
  nodes  : List NodeSt
  formed : Bool
  bad    : Bool
  deriving DecidableEq, Repr

/-- A graph in the store (R62). -/
structure Graph where
  ctx     : Nat
  packets : List (List Byte)
  deriving DecidableEq, Repr

/-- The states of a context (R39). -/
inductive CtxSt where
  | free | created | keyed | resident | suspended | resetting
  deriving DecidableEq, Repr

/-- A GLOAD command in progress (R63). -/
structure GCmd where
  load : Bool
  addr : DWord
  id   : Nat
  deriving DecidableEq, Repr

/-- An invalidation in progress (R154): its range, the accesses translated before it, and what waits for it. -/
structure Inval where
  id    : Nat
  ctx   : Nat
  vpn   : Nat
  count : Nat
  reg   : Bool
  wid   : Option Nat
  cnt   : List Nat
  /-- requests, buffered stores and messages translated before it started -/
  waits : List Nat
  deriving DecidableEq, Repr

/-- A context (R38, R39, R60, R68, R149, R317). -/
structure Ctx where
  st       : CtxSt
  keyvalid : Bool
  err      : BitVec 4
  vdarg    : DWord
  vdsave   : DWord
  vdsavesz : DWord
  pmcsel   : Tab Word
  pmc      : Tab DWord
  seqacc   : BitVec 28
  seqemit  : Word
  gstat    : Word
  patchbase : DWord
  cplbase  : DWord
  cplsize  : BitVec 5
  armed    : Option (Bool × DWord)
  gcmd     : Option GCmd
  ilbase   : DWord
  ilsize   : Word
  ilcount  : Word
  ptroot   : DWord
  invaddr  : DWord
  fqbase   : DWord
  fqsize   : BitVec 5
  fqtail   : Word
  fqhead   : Word
  fqdrop   : Word
  replaystat : Word
  /-- parked-fault records that wait for room (R318), with their waves -/
  held     : List (FRec × Nat)
  /-- device queues: packets with the grid that queued them (R66) -/
  queues   : Tab (List (List Byte × Nat))
  lastGrid : Word
  /-- a SUSPEND that is not complete -/
  draining : Bool
  deriving DecidableEq, Repr

/-- The states of a window (R48). -/
inductive WinSt where
  | closed | opening | opened | closing
  deriving DecidableEq, Repr

/-- An access through a window that reached its controller before the close point (R54), named as in `Started`; of a buffered store, the
bytes before the place `cap` in issue order. -/
structure Early where
  kind : Nat
  a    : Nat
  b    : Nat
  cap  : Nat
  deriving DecidableEq, Repr

/-- A window (R48). -/
structure Window where
  st       : WinSt
  owner    : Nat
  importer : Nat
  write    : Bool
  pages    : Nat
  basevpn  : Nat
  /-- pages re-keyed so far in this pass -/
  done     : Nat
  /-- a close held until OPEN: of a WCLOSE, or of a reset of a context -/
  held     : Option (Option Nat)
  /-- the waves and counters of the WCLOSEs that wait for CLOSED -/
  closers  : List (Nat × List Nat)
  /-- WOPEN's wave and counters -/
  opener   : Option (Nat × List Nat)
  /-- the frames whose entries WOPEN has marked and that are not re-keyed yet (R49) -/
  marked   : List Nat
  /-- the importer's accesses that are on the near side of the close point and not complete (R54) -/
  early    : List Early
  deriving DecidableEq, Repr

/-- The states of a move (R160). -/
inductive MoveSt where
  | cutting | copying | committing | aborting | releasing
  deriving DecidableEq, Repr

/-- A page in motion or being re-keyed (R159, R160, R163). `moved` has bit j set for a moved sector. -/
structure Move where
  ctx    : Nat
  vpn    : Nat
  src    : Nat
  dst    : Nat
  tier   : Nat
  /-- the window of a re-key, and whether it opens -/
  rekey  : Option (Nat × Bool)
  keyS   : Nat
  keyD   : Nat
  st     : MoveSt
  pos    : Nat
  moved  : Nat
  poisoned : List Nat
  /-- the page-table entry as CUTTING left it -/
  pte    : DWord
  dstBad : Bool
  t      : Nat
  inv    : Nat
  deriving DecidableEq, Repr

/-- The page migration engine (R156, R157). -/
structure Pme where
  policy   : DWord
  ctxen    : DWord
  fpbase   : Tab DWord
  fpsize   : Tab Word
  fphead   : Tab Word
  fptail   : Tab Word
  movestat : Word
  hotsel   : BitVec 36
  moves    : Tab Move
  deriving DecidableEq, Repr

/-- A port (R178). -/
structure Port where
  enable   : Bool
  retrains : BitVec 8
  /-- 0 DOWN, 1 TRAINING, 2 UP, 3 FAILED -/
  st       : BitVec 2
  fails    : Nat
  badFlits : Nat
  wasFailed : Bool
  /-- expander capacity in units of 256 GiB, learnt at training (R181) -/
  capacity : Nat
  deriving DecidableEq, Repr

/-- What a remote request carries (R184). -/
inductive RemoteWhat where
  | piece (wid req idx : Nat)
  | store (wid : Nat) (entry : SEntry) (rel : Rel)
  /-- a sector of a copy; the bytes it writes, none while it reads -/
  | copy (team cmd sector : Nat) (data : List Byte)
  /-- a part of a message of a home -/
  | home (item part : Nat)
  /-- a sector of code for a split -/
  | fetch (wid split : Nat)
  /-- a sector of a forest instruction; the bytes it writes, none while it reads -/
  | forest (op sector : Nat) (data : List (Nat × Byte))
  /-- its context has been reset: its reply is dropped -/
  | dropped
  deriving DecidableEq, Repr

/-- A remote request without its reply. -/
structure Remote where
  id   : Nat
  wid  : Nat
  /-- the generation tag of its wave slot (R96) -/
  gen  : BitVec 8
  ctx  : Nat
  port : Nat
  sector : Nat
  t    : Nat
  what : RemoteWhat
  deriving DecidableEq, Repr

/-- The link block (R177). -/
structure Link where
  devid    : BitVec 22
  rtimeout : Word
  ports    : Tab Port
  cxlmap   : Tab DWord
  inmap    : Tab (BitVec 128)
  part     : Tab (BitVec 128)
  partstat : Word
  remotes  : List Remote
  deriving DecidableEq, Repr

/-- A DRAM bank (R329 to R331). Times are in sevenths of a nanosecond. -/
structure Bank where
  row    : Option Nat
  /-- when the row was or will be activated -/
  lastAct : Nat
  /-- when the last access of the row ends -/
  lastUse : Nat
  owes   : Nat
  refreshing : Option Nat
  acts   : Tab Nat
  hot    : List Nat
  hotAct : Tab Nat
  /-- when the last precharge for idleness began -/
  pre    : Nat
  /-- the activation of the open row was held back (R329) -/
  waited : Bool
  deriving DecidableEq, Repr

/-- A sector access whose commands a controller has chosen (R327, R330). `kind` says whose it is: 0 a reading request, 1 an atomic or a
store with a release, 2 a buffered store, 3 the messages of an instruction to homes; `a` and `b` name it; its data move at `done`. Kind 4
is no access: the request of wave slot `a` and place `b` in issue order has started. -/
structure Started where
  kind   : Nat
  a      : Nat
  b      : Nat
  sector : Nat
  /-- its sectors spend tokens (R328) -/
  spend  : Bool
  done   : Nat
  deriving DecidableEq, Repr

/-- A channel group (R325, R333). -/
structure Group where
  latcnt   : DWord
  latsum   : DWord
  latmax   : Word
  refpost  : Word
  refforce : Word
  rhthrot  : Word
  /-- contexts of the last 1,024 sectors served, newest first (R328) -/
  served   : List Nat
  /-- accesses that have started (R327, R328) -/
  started  : List Started
  deriving DecidableEq, Repr

/-- The memory controllers (R325 to R333). -/
structure Mc where
  groups  : Tab Group
  /-- tokens missing from a full bucket, context × 72 + group (R328) -/
  spent   : Tab Int
  banks   : Tab Bank
  /-- per channel: the bank whose refresh is due next, and an all-bank refresh (R331) -/
  nextRef : Tab Nat
  allRef  : Tab Nat
  hammer  : BitVec 16
  therm   : Tab (BitVec 8 × BitVec 2)
  slot    : Tab Nat
  /-- accesses seen by the hotness sampling of each controller (R157) -/
  sample  : Tab Nat
  deriving DecidableEq, Repr

/-- Physical memory behind the controllers (R12, R42 to R46). -/
structure Phys where
  /-- plaintext bytes -/
  bytes  : Tab Byte
  /-- minor counter of a sector -/
  minor  : Tab (BitVec 7)
  /-- MAJOR of an aligned 2 KiB -/
  major  : Tab (BitVec 56)
  /-- interior and root counters: level × 2^50 + index -/
  nodes  : Tab (BitVec 56)
  poison : List Nat
  /-- context of each granted run of frames: first frame, count, context -/
  grants : List (Nat × Nat × Nat)
  keys   : Tab (BitVec 256)
  hot    : Tab (BitVec 8)
  /-- sectors whose old ciphertext the background scrub has overwritten -/
  scrubbed : List Nat
  /-- key slot of a sector under which its tag was formed, with the CXL slot that it was reached through; none listed for the slot of
  the frame's own context (R42) -/
  sealed : Tab Nat
  /-- runs of sectors that hold saved units in the device's own layout: first sector, count, stamp of their free bytes (R55) -/
  saved  : List (Nat × Nat × Nat)
  /-- reports that renewals owe: context, frame, the positions that they could not read (R45, R163) -/
  owed   : List (Nat × Nat × List Nat)
  deriving DecidableEq, Repr

/-- The kinds of unit that stay where they are under lazy save: a 64 KiB block at an offset of its unit of a level, a wave slot, the
engine's state, the team record with its tile-table entries (R55, R57). -/
inductive LazyKind where
  | block (lvl unit off : Nat) | slot (core k : Nat) | engine (core : Nat) | record (core entries : Nat)
  deriving DecidableEq, Repr

/-- Where a unit stands under lazy save (R57): LAZY with its owner, SAVING for its claimant, or OWNED by the claimant, which has not placed
a team on it yet. -/
inductive LazySt where
  | lazy | saving | owned
  deriving DecidableEq, Repr

/-- A unit that a pre-empted region with lazy save holds, or that has been handed over (R57): of a team, or of its grid's shared
scratchpad. -/
structure LazyUnit where
  id     : Nat
  /-- its team; none for a block of the grid's cluster or die scratchpad -/
  team   : Option Nat
  grid   : Nat
  ctx    : Nat
  kind   : LazyKind
  st     : LazySt
  /-- the context that has claimed it -/
  claim  : Option Nat
  deriving DecidableEq, Repr

/-- The Amber black box (R321). -/
structure Amber where
  seq    : Word
  count  : Word
  events : Tab (BitVec 256)
  deriving DecidableEq, Repr

/-- A self-test in progress or the history of a macro (R323). -/
structure Tests where
  spares  : Tab Nat
  times   : Tab (List Nat)
  /-- frames that never return to a pool -/
  retired : List Nat
  /-- macros under test, with the error that started each test (R322) -/
  running : List (TestSite × TestError)
  deriving DecidableEq, Repr

/-- What the device hands to the host or the fabric: interrupts, data of reads, replies. -/
inductive Out where
  | msix (fn vec : Nat)
  | hostData (bytes : List Byte)
  | hostPoison
  | hostDone
  | reply (port src : Nat) (bytes : List Byte)
  | replyFault (port src : Nat)
  | shutdown
  deriving DecidableEq, Repr

/-- A move that stands next: a step of the device or its host, or the issue of a split's instruction. -/
inductive Task where
  | ev (i : Instr)
  | issue (wid split : Nat)
  deriving DecidableEq, Repr

/-- The machine. -/
structure State where
  agenda   : List Task
  cur      : Nat × Nat
  iw       : BitVec 96
  /-- sevenths of a nanosecond since cold reset -/
  t7       : Nat
  fresh    : Nat
  nextId   : Nat
  shutdown : Bool
  outbox   : List Out
  phys     : Phys
  /-- core, cluster and die scratchpads: unit × size + offset (R15) -/
  spCore   : Tab Byte
  spClu    : Tab Byte
  spDie    : Tab Byte
  ctxs     : Tab Ctx
  windows  : Tab Window
  graphs   : Tab Graph
  launches : Tab Launch
  grids    : Tab Grid
  /-- charge held by each floor contract, context × 2^56 + block, in 1/256 W (R77) -/
  floors   : Tab Nat
  teams    : Tab Team
  waves    : Tab Wave
  cores    : Tab Core
  homes    : Tab Home
  clusters : Tab Cluster
  portq    : List PortOp
  homeq    : List HomeItem
  homeops  : List HomeOp
  mxq      : List MCmd
  forestq  : List FOp
  invals   : List Inval
  lazies   : List LazyUnit
  pme      : Pme
  link     : Link
  mc       : Mc
  amber    : Amber
  tests    : Tests
  deriving DecidableEq, Repr

/-- A split that is not live. -/
def Split.off : Split := ⟨false, 0, 0, none, 0, false, false, none, false⟩

/-- An untagged zero lane. -/
def Lane.zero : Lane := ⟨false, 0⟩

/-- A free slot with generation 0 (log 11). -/
def Slot.init : Slot := ⟨.free, 0, 0, 0, 0, 0, 0, none, 0⟩

/-- A home after reset: every slot FREE (R115). -/
def Home.init : Home := ⟨[], [], false⟩

/-- A matrix engine that a team has just become the owner of, or that has none (R289). -/
def Mx.init : Mx := ⟨none, [], [], [], [], [], []⟩

/-- Nothing kept. -/
def Kept.init : Kept := ⟨[], [], [], [], [], []⟩

/-- A core after reset. -/
def Core.init : Core := ⟨[], [], [], [], [], [], [], [], [], [], [], Mx.init, [], false⟩

/-- An island after reset (R334). -/
def Island.init : Island := ⟨16, 64, true, 0, 0, 0⟩

/-- A cluster after reset (R334). -/
def Cluster.init : Cluster := ⟨.on, true, 75, 0, 40, 0, [], [], [], [], 0, false, 0, 0, [], 0, 0, []⟩

/-- A context after reset (R39, R60, R68, R149, R317). -/
def Ctx.init : Ctx :=
  ⟨.free, false, 0, 0, 0, 0, [], [], 0, 0, 0, 0, 0, 6, none, none, 0, 0, 0, 0, 0, 0, 6, 0, 0, 0, 0, [], [], 0, false⟩

/-- A window after reset (R48). -/
def Window.init : Window := ⟨.closed, 0, 0, false, 0, 0, 0, none, [], none, [], []⟩

/-- A port after reset (R178). -/
def Port.init : Port := ⟨false, 0, 0, 0, 0, false, 0⟩

/-- The host port after reset: ENABLE 1 (R178). -/
def Port.host : Port := ⟨true, 0, 0, 0, 0, false, 0⟩

/-- A bank after reset (log 14). -/
def Bank.init : Bank := ⟨none, 0, 0, 0, none, [], [], [], 0, false⟩

/-- A channel group after reset (R333). -/
def Group.init : Group := ⟨0, 0, 0, 0, 0, 0, [], []⟩

/-- The page migration engine after reset (R156). -/
def Pme.init : Pme := ⟨0, 0, [], [], [], [], 0, 0, []⟩

/-- The link block after reset (R177). -/
def Link.init : Link := ⟨0, 2000, [(36, Port.host)], [], [], [], 0, []⟩

/-- The memory controllers after reset (R333). -/
def Mc.init : Mc := ⟨[], [], [], [], [], 4096, [], [], []⟩

/-- Physical memory after reset: nothing listed, nothing granted. -/
def Phys.init : Phys := ⟨[], [], [], [], [], [], [], [], [], [], [], []⟩

/-- The machine right after cold reset: every register at the reset value of its table, no context, no work, memory with
nothing listed; every field without a stated value at the value its log entry names (logs 1 to 15). -/
def State.reset : State :=
  { agenda := [], cur := (0, 0), iw := 0, t7 := 0, fresh := 0, nextId := 1, shutdown := false, outbox := [],
    phys := Phys.init, spCore := [], spClu := [], spDie := [], ctxs := [], windows := [], graphs := [], launches := [],
    grids := [], floors := [], teams := [], waves := [], cores := [], homes := [], clusters := [], portq := [],
    homeq := [], homeops := [], mxq := [], forestq := [], invals := [], lazies := [], pme := Pme.init, link := Link.init,
    mc := Mc.init, amber := ⟨0, 0, []⟩, tests := ⟨[], [], [], []⟩ }

end Sys2Proof.Machine
end

