-- ==== Sys2Proof/Machine/Int.lean ====
section
/-! DEFINITION. The integer datapath: what each integer operation computes in one lane (R228 to R237). -/

namespace Sys2Proof.Machine

/-- An exact result brought into `n` bits: wrapped, or clamped to the signed or the unsigned range (R228, R235). -/
def narrow (n : Nat) (o : Sat) (x : Int) : BitVec n :=
  match o with
  | .wrap => BitVec.ofInt n x
  | .sat => BitVec.ofInt n (max (-(2 ^ (n - 1) : Int)) (min x (2 ^ (n - 1) - 1)))
  | .usat => BitVec.ofInt n (max 0 (min x (2 ^ n - 1)))

/-- An operand read as SAT reads it: unsigned for `.usat`, signed otherwise; wrapping does not tell them apart (R228). -/
def readAs {n : Nat} (o : Sat) (a : BitVec n) : Int := if o = .usat then (a.toNat : Int) else a.toInt

/-- IADD and its packed form (R228, R235). -/
def addSat {n : Nat} (o : Sat) (a b : BitVec n) : BitVec n := narrow n o (readAs o a + readAs o b)

/-- ISUB and its packed form (R228, R235). -/
def subSat {n : Nat} (o : Sat) (a b : BitVec n) : BitVec n := narrow n o (readAs o a - readAs o b)

/-- The order of two patterns, unsigned or signed (R200). -/
def ltBy {n : Nat} (u : Bool) (a b : BitVec n) : Bool := if u then decide (a.toNat < b.toNat) else decide (a.toInt < b.toInt)

/-- The lesser of two patterns (R228). -/
def minBy {n : Nat} (u : Bool) (a b : BitVec n) : BitVec n := if ltBy u b a then b else a

/-- The greater of two patterns (R228). -/
def maxBy {n : Nat} (u : Bool) (a b : BitVec n) : BitVec n := if ltBy u a b then b else a

/-- An integer comparison; `.num` and `.nan` are no integer comparisons and never hold (R200). -/
def cmpInt {n : Nat} (c : Cond) (u : Bool) (a b : BitVec n) : Bool :=
  match c with
  | .eq => a == b
  | .ne => a != b
  | .lt => ltBy u a b
  | .le => !ltBy u b a
  | .gt => ltBy u b a
  | .ge => !ltBy u a b
  | .num | .nan => false

/-- Bits [63:32] of the product (R228). -/
def mulHigh (u : Bool) (a b : Word) : Word :=
  if u then BitVec.ofNat 32 (a.toNat * b.toNat / 2 ^ 32) else BitVec.ofInt 32 ((a.toInt * b.toInt) / (2 ^ 32 : Int))

/-- Shift left by the whole count (R228). -/
def shl (a b : Word) : Word := if b.toNat < 32 then a <<< b.toNat else 0

/-- Shift right with zeros by the whole count (R228). -/
def shr (a b : Word) : Word := if b.toNat < 32 then a >>> b.toNat else 0

/-- Shift right with the sign by the whole count (R228). -/
def sar (a b : Word) : Word := a.sshiftRight (min b.toNat 31)

/-- Rotate left by b[4:0] (R228). -/
def rotl (a b : Word) : Word := a.rotateLeft (b.toNat % 32)

/-- IDIV with its borderline cases (R229). -/
def idiv (u : Bool) (a b : Word) : Word :=
  if b = 0 then 0xFFFFFFFF
  else if u then BitVec.ofNat 32 (a.toNat / b.toNat)
  else BitVec.ofInt 32 (Int.tdiv a.toInt b.toInt)

/-- IREM with its borderline cases (R229). -/
def irem (u : Bool) (a b : Word) : Word :=
  if b = 0 then a
  else if u then BitVec.ofNat 32 (a.toNat % b.toNat)
  else BitVec.ofInt 32 (Int.tmod a.toInt b.toInt)

/-- IABS (R230). -/
def iabs (s : Bool) (a : Word) : Word :=
  if s then narrow 32 .sat (if a.toInt < 0 then -a.toInt else a.toInt) else (if a.toInt < 0 then -a else a)

/-- The indices below n at which a predicate holds. -/
def countBits (a : Word) : Nat := ((List.range 32).filter fun i => a.getLsbD i).length

/-- POPC (R230). -/
def popc (a : Word) : Word := BitVec.ofNat 32 (countBits a)

/-- CLZ (R230). -/
def clz (a : Word) : Word := BitVec.ofNat 32 (if a = 0 then 32 else 31 - Nat.log2 a.toNat)

/-- A word from its bits. -/
def ofBits (f : Nat → Bool) : Word := BitVec.ofNat 32 ((List.range 32).foldl (fun n i => if f i then n + 2 ^ i else n) 0)

/-- BREV (R230). -/
def brev (a : Word) : Word := ofBits fun j => a.getLsbD (31 - j)

/-- The length of a bit field, at most 32 (R231). -/
def fieldLen (b : Word) : Nat := min (b.toNat / 256 % 256) 32

/-- The position of a bit field (R231). -/
def fieldPos (b : Word) : Nat := b.toNat % 256

/-- BFE (R231). -/
def bfe (sx : Bool) (a b : Word) : Word :=
  let pos := fieldPos b
  let len := fieldLen b
  let bitAt := fun j => if pos + j < 32 then a.getLsbD (pos + j) else sx && a.getLsbD 31
  if len = 0 then 0 else ofBits fun j => if j < len then bitAt j else sx && bitAt (len - 1)

/-- BFI (R231). -/
def bfi (a b c : Word) : Word :=
  let pos := fieldPos b
  let len := fieldLen b
  ofBits fun j => if pos ≤ j ∧ j < pos + len then a.getLsbD (j - pos) else c.getLsbD j

/-- Element 0 or 1 of a packed word (R27). -/
def elem16 (a : Word) (j : Nat) : BitVec 16 := a.extractLsb' (16 * j) 16

/-- An operation on each of the two elements (R235). -/
def packed (f : BitVec 16 → BitVec 16 → BitVec 16) (a b : Word) : Word := f (elem16 a 1) (elem16 b 1) ++ f (elem16 a 0) (elem16 b 0)

/-- A Boolean as a word. -/
def boolW (b : Bool) : Word := if b then 1 else 0

/-- PLOP's table lookup (R236). -/
def plopBit (lut : BitVec 8) (a b c : Bool) : Bool :=
  lut.getLsbD ((if a then 4 else 0) + (if b then 2 else 0) + (if c then 1 else 0))

/-- LEA's address (R237). -/
def leaAddr (u : Bool) (scale : BitVec 2) (base : DWord) (off : Word) : DWord :=
  base + ((if u then off.setWidth 64 else off.signExtend 64) <<< scale.toNat)

end Sys2Proof.Machine
end

