-- ==== Sys2Proof/Machine/Float.lean ====
section
/-! DEFINITION. Number formats and floating-point arithmetic (R22 to R35, R241 to R249): every operand is an exact value,
every result is computed exactly and rounded once. -/

namespace Sys2Proof.Machine

/-- An exact value: NaN, a signed infinity, or plus or minus m × 2^e, where m = 0 is a signed zero. -/
inductive FV where
  | nan
  | inf (neg : Bool)
  | fin (neg : Bool) (m : Nat) (e : Int)
  deriving DecidableEq, Repr

/-- A binary format (R22). `inf` says whether the top exponent holds infinity and NaN; without it only the all-ones code is
NaN, as in E4M3. -/
structure FFmt where
  ebits : Nat
  mbits : Nat
  bias  : Nat
  inf   : Bool
  deriving DecidableEq, Repr

/-- The formats of R22. -/
def fp32 : FFmt := ⟨8, 23, 127, true⟩
/-- FP16 (R22). -/
def fp16 : FFmt := ⟨5, 10, 15, true⟩
/-- BF16 (R22). -/
def bf16 : FFmt := ⟨8, 7, 127, true⟩
/-- E5M2 (R22). -/
def e5m2 : FFmt := ⟨5, 2, 15, true⟩
/-- E4M3 (R22, R28). -/
def e4m3 : FFmt := ⟨4, 3, 7, false⟩

/-- The sign bit of a format, as a number. -/
def FFmt.signBit (f : FFmt) : Nat := 2 ^ (f.ebits + f.mbits)

/-- The code of +infinity, or of NaN where the format has no infinity. -/
def FFmt.topCode (f : FFmt) : Nat := if f.inf then (2 ^ f.ebits - 1) * 2 ^ f.mbits else 2 ^ (f.ebits + f.mbits) - 1

/-- The code of the largest finite value. -/
def FFmt.maxCode (f : FFmt) : Nat := f.topCode - 1

/-- The canonical NaN (R22, R24). -/
def FFmt.nanCode (f : FFmt) : Nat := if f.inf then f.topCode + 2 ^ (f.mbits - 1) else f.topCode

/-- The exponent of the smallest normal value. -/
def FFmt.emin (f : FFmt) : Int := 1 - (f.bias : Int)

/-- The value of a code (R22, R28). -/
def FFmt.decode (f : FFmt) (n : Nat) : FV :=
  let neg := decide (n / f.signBit % 2 = 1)
  let c := n % f.signBit
  let e := c / 2 ^ f.mbits
  let m := c % 2 ^ f.mbits
  if f.inf && e == 2 ^ f.ebits - 1 then (if m = 0 then .inf neg else .nan)
  else if !f.inf && c == f.topCode then .nan
  else if e = 0 then .fin neg m (f.emin - f.mbits)
  else .fin neg (2 ^ f.mbits + m) ((e : Int) - f.bias - f.mbits)

/-- The flags of FPSTAT (R32). -/
def flInvalid : BitVec 5 := 1
/-- DIVZERO. -/
def flDivZero : BitVec 5 := 2
/-- OVERFLOW. -/
def flOverflow : BitVec 5 := 4
/-- UNDERFLOW. -/
def flUnderflow : BitVec 5 := 8
/-- INEXACT. -/
def flInexact : BitVec 5 := 16

/-- A flag raised or not. -/
def fl (b : Bool) (f : BitVec 5) : BitVec 5 := if b then f else 0

/-- Round m × 2^e at the place 2^lsb: the integer, and whether it is inexact (R25). -/
def roundAt (r : Rnd) (neg : Bool) (m : Nat) (e lsb : Int) : Nat × Bool :=
  if lsb ≤ e then (m * 2 ^ (e - lsb).toNat, false)
  else
    let d := 2 ^ (lsb - e).toNat
    let q := m / d
    let x := m % d
    let up := match r with
      | .rn => decide (2 * x > d) || (decide (2 * x = d) && q % 2 == 1)
      | .rz => false
      | .rd => neg && x != 0
      | .ru => !neg && x != 0
    (if up then q + 1 else q, x != 0)

/-- Whether a result that is too large becomes infinity in this mode (R25). -/
def toInf (r : Rnd) (neg : Bool) : Bool :=
  match r with
  | .rn => true
  | .rz => false
  | .rd => neg
  | .ru => !neg

/-- Round a non-zero finite value once to a format, with its flags; tininess is judged after rounding (R25, R32). `sat`
saturates an overflow. -/
def FFmt.roundFin (f : FFmt) (r : Rnd) (sat neg : Bool) (m : Nat) (e : Int) : Nat × BitVec 5 :=
  let sg := if neg then f.signBit else 0
  let top : Int := (Nat.log2 m : Int) + e
  let ex := max top f.emin
  let (q, ix) := roundAt r neg m e (ex - f.mbits)
  let code := (ex - f.emin).toNat * 2 ^ f.mbits + q
  if code > f.maxCode then
    (sg + (if f.inf && !sat && toInf r neg then f.topCode else f.maxCode), flOverflow ||| flInexact)
  else
    let full := (roundAt r neg m e (top - f.mbits)).1
    let tiny := decide (top < f.emin) && !(decide (top = f.emin - 1) && full == 2 ^ (f.mbits + 1))
    (sg + code, fl ix flInexact ||| fl (ix && tiny) flUnderflow)

/-- The code of an exact value in a format (R24 to R26): a signed zero keeps its sign, an infinity becomes the largest value
where the format has none. -/
def FFmt.encode (f : FFmt) (r : Rnd) (sat : Bool) : FV → Nat × BitVec 5
  | .nan => (f.nanCode, 0)
  | .inf neg => ((if neg then f.signBit else 0) + (if f.inf then f.topCode else f.maxCode), fl (!f.inf) flInexact)
  | .fin neg m e => if m = 0 then (if neg then f.signBit else 0, 0) else f.roundFin r sat neg m e

/-- The sum of two exact values, and whether it is an invalid operation (R25, R241). -/
def FV.add (r : Rnd) : FV → FV → FV × Bool
  | .nan, _ => (.nan, false)
  | _, .nan => (.nan, false)
  | .inf a, .inf b => if a = b then (.inf a, false) else (.nan, true)
  | .inf a, .fin .. => (.inf a, false)
  | .fin .., .inf b => (.inf b, false)
  | .fin n1 m1 e1, .fin n2 m2 e2 =>
    let e := min e1 e2
    let a : Int := (m1 * 2 ^ (e1 - e).toNat : Nat)
    let b : Int := (m2 * 2 ^ (e2 - e).toNat : Nat)
    let x := (if n1 then -a else a) + (if n2 then -b else b)
    if x = 0 then (.fin (if n1 = n2 then n1 else r == .rd) 0 0, false) else (.fin (decide (x < 0)) x.natAbs e, false)

/-- The opposite value. -/
def FV.neg : FV → FV
  | .nan => .nan
  | .inf s => .inf (!s)
  | .fin s m e => .fin (!s) m e

/-- The product of two exact values, and whether it is an invalid operation (R241). -/
def FV.mul : FV → FV → FV × Bool
  | .nan, _ => (.nan, false)
  | _, .nan => (.nan, false)
  | .inf a, .inf b => (.inf (a != b), false)
  | .inf a, .fin n m _ => if m = 0 then (.nan, true) else (.inf (a != n), false)
  | .fin n m _, .inf b => if m = 0 then (.nan, true) else (.inf (n != b), false)
  | .fin n1 m1 e1, .fin n2 m2 e2 => (.fin (n1 != n2) (m1 * m2) (e1 + e2), false)

/-- A value times 2^k. -/
def FV.scale (k : Int) : FV → FV
  | .fin n m e => .fin n m (e + k)
  | x => x

/-- Whether a value is NaN. -/
def FV.isNan : FV → Bool
  | .nan => true
  | _ => false

/-- A rounded result with an invalid operation's flag. -/
def FFmt.finish (f : FFmt) (r : Rnd) (x : FV × Bool) : Nat × BitVec 5 :=
  if x.2 then (f.nanCode, flInvalid) else f.encode r false x.1

/-- FADD, HADD2's element (R241, R245). -/
def FFmt.addOp (f : FFmt) (r : Rnd) (a b : Nat) : Nat × BitVec 5 := f.finish r (FV.add r (f.decode a) (f.decode b))

/-- FSUB (R241): a NaN operand stays NaN. -/
def FFmt.subOp (f : FFmt) (r : Rnd) (a b : Nat) : Nat × BitVec 5 := f.finish r (FV.add r (f.decode a) (f.decode b).neg)

/-- FMUL (R241). -/
def FFmt.mulOp (f : FFmt) (r : Rnd) (a b : Nat) : Nat × BitVec 5 := f.finish r (FV.mul (f.decode a) (f.decode b))

/-- FFMA, the product never rounded; zero times infinity is invalid whatever c is (R241). -/
def FFmt.fmaOp (f : FFmt) (r : Rnd) (a b c : Nat) : Nat × BitVec 5 :=
  let p := FV.mul (f.decode a) (f.decode b)
  if p.2 then (f.nanCode, flInvalid) else f.finish r (FV.add r p.1 (f.decode c))

/-- A value as an integer of a common order, for comparison of codes: negative codes below, −0 just below +0 (R242). -/
def FFmt.rank (f : FFmt) (n : Nat) : Int :=
  let c := n % f.signBit
  if n / f.signBit % 2 = 1 then -(c : Int) - 1 else c

/-- FMIN and FMAX on codes (R242). -/
def FFmt.minOp (f : FFmt) (greater : Bool) (a b : Nat) : Nat :=
  if (f.decode a).isNan then (if (f.decode b).isNan then f.nanCode else b)
  else if (f.decode b).isNan then a
  else if greater then (if f.rank a < f.rank b then b else a)
  else (if f.rank b < f.rank a then b else a)

/-- The comparison of two exact finite or infinite values: less, equal. -/
def FV.ltEq : FV → FV → Bool × Bool
  | .nan, _ => (false, false)
  | _, .nan => (false, false)
  | .inf a, .inf b => (a && !b, a == b)
  | .inf a, .fin .. => (a, false)
  | .fin .., .inf b => (!b, false)
  | .fin n1 m1 e1, .fin n2 m2 e2 =>
    let e := min e1 e2
    let a : Int := (m1 * 2 ^ (e1 - e).toNat : Nat)
    let b : Int := (m2 * 2 ^ (e2 - e).toNat : Nat)
    let x := if n1 then -a else a
    let y := if n2 then -b else b
    (decide (x < y), decide (x = y))

/-- A floating-point comparison (R200). -/
def cmpFv (c : Cond) (x y : FV) : Bool :=
  let nn := x.isNan || y.isNan
  let (lt, eq) := FV.ltEq x y
  match c with
  | .eq => !nn && eq
  | .ne => nn || !eq
  | .lt => !nn && lt
  | .le => !nn && (lt || eq)
  | .gt => !nn && !(lt || eq)
  | .ge => !nn && !lt
  | .num => !nn
  | .nan => nn

/-- The integer square root, digit by digit: the greatest r + d below 2^n with square at most x. -/
def isqrtFrom (x : Nat) : Nat → Nat → Nat
  | 0, r => r
  | n + 1, r => if (r + 2 ^ n) * (r + 2 ^ n) ≤ x then isqrtFrom x n (r + 2 ^ n) else isqrtFrom x n r

/-- The integer square root. -/
def isqrt (x : Nat) : Nat := isqrtFrom x (Nat.log2 x / 2 + 1) 0

/-- A quotient below 2^k ulp with a sticky bit: twice the floor, plus 1 when it is not exact. -/
def sticky (q : Nat) (exact : Bool) : Nat := if exact then 2 * q else 2 * q + 1

/-- FRCP (R244). -/
def frcp (r : Rnd) (a : Nat) : Nat × BitVec 5 :=
  match fp32.decode a with
  | .nan => (fp32.nanCode, 0)
  | .inf n => (if n then fp32.signBit else 0, 0)
  | .fin n m e =>
    if m = 0 then ((if n then fp32.signBit else 0) + fp32.topCode, flDivZero)
    else fp32.roundFin r false n (sticky (2 ^ 80 / m) (2 ^ 80 % m == 0)) (-80 - e - 1)

/-- A value with an even exponent. -/
def evenExp (m : Nat) (e : Int) : Nat × Int := if e % 2 = 0 then (m, e) else (2 * m, e - 1)

/-- FSQRT (R244). -/
def fsqrt (r : Rnd) (a : Nat) : Nat × BitVec 5 :=
  match fp32.decode a with
  | .nan => (fp32.nanCode, 0)
  | .inf n => if n then (fp32.nanCode, flInvalid) else (fp32.topCode, 0)
  | .fin n m e =>
    if m = 0 then (if n then fp32.signBit else 0, 0)
    else if n then (fp32.nanCode, flInvalid)
    else
      let (m, e) := evenExp m e
      let x := m * 2 ^ 80
      let s := isqrt x
      fp32.roundFin r false false (sticky s (s * s == x)) (e / 2 - 40 - 1)

/-- FRSQ (R244). -/
def frsq (a : Nat) : Nat × BitVec 5 :=
  match fp32.decode a with
  | .nan => (fp32.nanCode, 0)
  | .inf n => if n then (fp32.nanCode, flInvalid) else (0, 0)
  | .fin n m e =>
    if m = 0 then ((if n then fp32.signBit else 0) + fp32.topCode, flDivZero)
    else if n then (fp32.nanCode, flInvalid)
    else
      let (m, e) := evenExp m e
      let s := isqrt (2 ^ 120 / m)
      fp32.roundFin .rn false false (sticky s (s * s * m == 2 ^ 120)) (-60 - e / 2 - 1)

/-- The sum of an alternating or plain odd series Σ ± 1/((2k+1) x^(2k+1)) in units of 2^-p, n terms. -/
def atanSeries (alt : Bool) (x p : Nat) : Nat → Nat → Int → Int
  | 0, _, acc => acc
  | n + 1, k, acc =>
    let t : Int := (2 ^ p / ((2 * k + 1) * x ^ (2 * k + 1)) : Nat)
    atanSeries alt x p n (k + 1) (if alt && k % 2 == 1 then acc - t else acc + t)

/-- The bits after the point of the elementary functions' working precision. -/
def prec : Nat := 512

/-- ln 2 in units of 2^-512: 2 artanh (1/3). -/
def ln2 : Int := 2 * atanSeries false 3 prec 170 0 0

/-- π in units of 2^-512: 16 arctan (1/5) − 4 arctan (1/239). -/
def piFix : Int := 16 * atanSeries true 5 prec 120 0 0 - 4 * atanSeries true 239 prec 40 0 0

/-- Σ y^k/k! from the term t = y^k/k!, in units of 2^-512. -/
def expSeries (y : Int) : Nat → Nat → Int → Int → Int
  | 0, _, _, acc => acc
  | n + 1, k, t, acc => let t' := t * y / ((2 : Int) ^ prec * (k + 1)); expSeries y n (k + 1) t' (acc + t')

/-- Σ over odd powers of the sine, from the term t = ± y^k/k!. -/
def sinSeries (y : Int) : Nat → Nat → Int → Int → Int
  | 0, _, _, acc => acc
  | n + 1, k, t, acc =>
    let t' := -(t * y / (2 : Int) ^ prec) * y / ((2 : Int) ^ prec * ((k + 1) * (k + 2)))
    sinSeries y n (k + 2) t' (acc + t')

/-- Σ z^(2k+1)/(2k+1) from the power w = z^(2k+1). -/
def artanhSeries (z2 : Int) : Nat → Nat → Int → Int → Int
  | 0, _, _, acc => acc
  | n + 1, k, w, acc => artanhSeries z2 n (k + 1) (w * z2 / (2 : Int) ^ prec) (acc + w / (2 * k + 1))

/-- FEXP2 (R244). -/
def fexp2 (a : Nat) : Nat × BitVec 5 :=
  match fp32.decode a with
  | .nan => (fp32.nanCode, 0)
  | .inf n => (if n then 0 else fp32.topCode, 0)
  | .fin n m e =>
    let big := decide ((Nat.log2 m : Int) + e ≥ 8) && m != 0
    if big then (if n then fp32.roundFin .rn false false 1 (-1000) else fp32.roundFin .rn false false 1 1000)
    else
      -- x = i + f with f in units of 2^-149
      let x : Int := (if n then -1 else 1) * (m * 2 ^ (e + 149).toNat : Nat)
      let i := x / (2 : Int) ^ 149
      let f := x % (2 : Int) ^ 149
      if f = 0 then fp32.roundFin .rn false false 1 i
      else
        let y := f * ln2 / (2 : Int) ^ 149
        let v := expSeries y 110 0 ((2 : Int) ^ prec) ((2 : Int) ^ prec)
        fp32.roundFin .rn false false (sticky v.toNat false) (i - prec - 1)

/-- FLOG2 (R244). -/
def flog2 (a : Nat) : Nat × BitVec 5 :=
  match fp32.decode a with
  | .nan => (fp32.nanCode, 0)
  | .inf n => if n then (fp32.nanCode, flInvalid) else (fp32.topCode, 0)
  | .fin n m e =>
    if m = 0 then (fp32.signBit + fp32.topCode, flDivZero)
    else if n then (fp32.nanCode, flInvalid)
    else
      let l := Nat.log2 m
      let k : Int := l + e
      if m = 2 ^ l then fp32.encode .rn false (.fin (decide (k < 0)) k.natAbs 0)
      else
        let z : Int := ((m - 2 ^ l) * 2 ^ prec / (m + 2 ^ l) : Nat)
        let ln := 2 * artanhSeries (z * z / (2 : Int) ^ prec) 170 0 z 0
        let v := k * (2 : Int) ^ prec + ln * (2 : Int) ^ prec / ln2
        fp32.roundFin .rn false (decide (v < 0)) (sticky v.natAbs false) (-(prec : Int) - 1)

/-- sin(π × x) for x ≥ 0 in units of 2^-150: the exact value where it is 0 or ±1, else an irrational one with a sticky bit.
The result: negative, magnitude, exponent, and whether it is exact. -/
def sinPi (x : Nat) : Bool × Nat × Int :=
  let one := 2 ^ 150
  let y := x % (2 * one)
  let neg := decide (y ≥ one)
  let y := y % one
  let y := if 2 * y > one then one - y else y
  if y = 0 then (neg, 0, 0)
  else if 2 * y = one then (neg, 1, 0)
  else
    let th := (y : Int) * piFix / (one : Int)
    let v := sinSeries th 70 1 th th
    (neg, sticky v.toNat false, -(prec : Int) - 1)

/-- FSIN: the argument is in half-turns (R244). -/
def fsin (a : Nat) : Nat × BitVec 5 :=
  match fp32.decode a with
  | .nan => (fp32.nanCode, 0)
  | .inf _ => (fp32.nanCode, flInvalid)
  | .fin n m e =>
    let (s, v, k) := sinPi (m * 2 ^ (e + 150).toNat)
    if v = 0 then (if n then fp32.signBit else 0, 0) else fp32.roundFin .rn false (s != n) v k

/-- FCOS (R244). -/
def fcos (a : Nat) : Nat × BitVec 5 :=
  match fp32.decode a with
  | .nan => (fp32.nanCode, 0)
  | .inf _ => (fp32.nanCode, flInvalid)
  | .fin _ m e =>
    let (s, v, k) := sinPi (m * 2 ^ (e + 150).toNat + 2 ^ 149)
    if v = 0 then (0, 0) else fp32.roundFin .rn false s v k

/-- A value rounded to an integer, and whether a fraction was dropped. -/
def roundInt (r : Rnd) (neg : Bool) (m : Nat) (e : Int) : Int × Bool :=
  let (q, ix) := roundAt r neg m e 0
  (if neg then -(q : Int) else q, ix)

/-- A value converted to an integer between two bounds: out of range and infinity clamp, NaN gives 0 (R26). -/
def toIntIn (r : Rnd) (lo hi : Int) : FV → Int × BitVec 5
  | .nan => (0, flInvalid)
  | .inf n => (if n then lo else hi, flInvalid)
  | .fin n m e =>
    let (v, ix) := roundInt r n m e
    if v < lo then (lo, flInvalid) else if hi < v then (hi, flInvalid) else (v, fl ix flInexact)

/-- F2I (R246). -/
def f2i (u : Bool) (r : Rnd) (a : Word) : Word × BitVec 5 :=
  let (v, g) := if u then toIntIn r 0 (2 ^ 32 - 1) (fp32.decode a.toNat)
    else toIntIn r (-(2 ^ 31)) (2 ^ 31 - 1) (fp32.decode a.toNat)
  (BitVec.ofInt 32 v, g)

/-- An integer as an exact value. -/
def ofIntFv (x : Int) : FV := .fin (decide (x < 0)) x.natAbs 0

/-- I2F (R246). -/
def i2f (u : Bool) (r : Rnd) (a : Word) : Word × BitVec 5 :=
  let (n, g) := fp32.encode r false (ofIntFv (if u then (a.toNat : Int) else a.toInt))
  (BitVec.ofNat 32 n, g)

/-- FCLASS (R249). -/
def fclass (a : Word) : Word :=
  let bitNo := match fp32.decode a.toNat with
    | .nan => 8
    | .inf n => if n then 0 else 7
    | .fin n m _ =>
      if m = 0 then (if n then 3 else 4)
      else if m < 2 ^ 23 then (if n then 2 else 5)
      else (if n then 1 else 6)
  BitVec.ofNat 32 (2 ^ bitNo)

/-- Two packed elements computed each for itself (R245). -/
def packedF (f : Nat → Nat → Nat → Nat × BitVec 5) (a b c : Word) : Word × BitVec 5 :=
  let e0 := f (elem16 a 0).toNat (elem16 b 0).toNat (elem16 c 0).toNat
  let e1 := f (elem16 a 1).toNat (elem16 b 1).toNat (elem16 c 1).toNat
  (BitVec.ofNat 16 e1.1 ++ BitVec.ofNat 16 e0.1, e0.2 ||| e1.2)

/-- The format of a packed instruction (R245). -/
def half (bf : Bool) : FFmt := if bf then bf16 else fp16

/-- The binary format of a CVT code; INT8 has none. -/
def cvtFfmt : CvtFmt → Option FFmt
  | .f32 => some fp32 | .f16 => some fp16 | .bf16 => some bf16 | .e5m2 => some e5m2 | .e4m3 => some e4m3 | .s8 => none

/-- The width of an element of a CVT format (R247). -/
def cvtWidth : CvtFmt → Nat
  | .f32 => 32 | .f16 => 16 | .bf16 => 16 | .e5m2 => 8 | .e4m3 => 8 | .s8 => 8

/-- The elements of a lane (R247). -/
def cvtElems (f : CvtFmt) : Nat := 32 / cvtWidth f

/-- The value of an element (R247). -/
def cvtValue (f : CvtFmt) (n : Nat) : FV :=
  match cvtFfmt f with
  | some g => g.decode n
  | none => ofIntFv (BitVec.ofNat 8 n).toInt

/-- An element of an exact value (R26, R247). -/
def cvtCode (f : CvtFmt) (r : Rnd) (sat : Bool) (x : FV) : Nat × BitVec 5 :=
  match cvtFfmt f with
  | some g => g.encode r sat x
  | none => let (v, k) := toIntIn r (-128) 127 x; ((BitVec.ofInt 8 v).toNat, k)

/-- CVT of one lane (R247): `d` is the old destination. -/
def cvt (elem : BitVec 2) (sat : Bool) (r : Rnd) (dst src : CvtFmt) (a d : Word) : Word × BitVec 5 :=
  let js := elem.toNat % cvtElems src
  let jd := elem.toNat % cvtElems dst
  let (n, g) := cvtCode dst r sat (cvtValue src (a.toNat / 2 ^ (cvtWidth src * js) % 2 ^ cvtWidth src))
  let lo := cvtWidth dst * jd
  (BitVec.ofNat 32 (d.toNat % 2 ^ lo + n * 2 ^ lo + d.toNat / 2 ^ (lo + cvtWidth dst) * 2 ^ (lo + cvtWidth dst)), g)

/-- The magnitude of an E2M1 code in halves (R29). -/
def e2m1Half : Nat → Nat
  | 0 => 0 | 1 => 1 | 2 => 2 | 3 => 3 | 4 => 4 | 5 => 6 | 6 => 8 | _ => 12

/-- The E2M1 code nearest to a magnitude m × 2^e, ties to the code with bit 0 clear, above 6 giving 6 (R31); and whether
it is exact. -/
def e2m1Nearest (m : Nat) (e : Int) : Nat × Bool :=
  -- compare in quarters: 4 × value against the midpoints of neighbours, each in quarters
  let num := m * 2 ^ (e + 400).toNat * 4
  let unit := 2 ^ 400
  let ge := fun q : Nat => decide (num ≥ q * unit)
  let gt := fun q : Nat => decide (num > q * unit)
  let c := if !gt 1 then 0 else if !ge 3 then 1 else if !gt 5 then 2 else if !ge 7 then 3 else if !gt 10 then 4
    else if !ge 14 then 5 else if !gt 20 then 6 else 7
  (c, num == 2 * e2m1Half c * unit)

/-- One E2M1 block: 32 codes, scale, spare and flags (R31). -/
structure Block where
  codes : List Nat
  scale : Nat
  spare : Nat
  flags : BitVec 5
  deriving DecidableEq, Repr

/-- The magnitude of a finite FP32 code as a comparable number (its code without the sign). -/
def absCode (x : Word) : Nat := x.toNat % 2 ^ 31

/-- The first place of a value in a list. -/
def firstIdx {α : Type} [DecidableEq α] (x : α) : List α → Nat
  | [] => 0
  | y :: ys => if y = x then 0 else firstIdx x ys + 1

/-- QUANT's block of 32 values (R31). -/
def quantBlock (xs : List Word) : Block :=
  if xs.any (fun x => absCode x ≥ fp32.topCode) then ⟨xs.map fun _ => 0, 0xFF, 0x7F, flInvalid⟩
  else
    let amax := (xs.map absCode).foldl max 0
    if amax = 0 then ⟨xs.map fun _ => 0, 127, 0, 0⟩
    else
      let lg := match fp32.decode amax with
        | .fin _ m e => (Nat.log2 m : Int) + e
        | _ => 0
      let e := max (lg - 2) (-127)
      let j := firstIdx amax (xs.map absCode)
      let one := fun (p : Word × Nat) =>
        match fp32.decode p.1.toNat with
        | .fin n m k =>
          if p.2 = j then (8, true)
          else let (c, ex) := e2m1Nearest m (k - e); (if c = 0 then 0 else (if n then 8 + c else c), ex)
        | _ => (0, true)
      let rs := (xs.zip (List.range xs.length)).map one
      let sp := match fp32.decode (xs.getD j 0).toNat with
        | .fin n m k => e4m3.encode .rn false (.fin n m (k - e))
        | _ => (0, 0)
      ⟨rs.map (·.1), (e + 127).toNat, sp.1, fl (rs.any (fun r => !r.2) || sp.2.getLsbD 4) flInexact⟩

/-- The value of an element of a matrix operand (R22, R29, R30, R33): its code, the block's scale code where it has one, and
the spare byte. -/
def mxElem (f : Fmt) (code : Nat) (scale : Option Nat) (spare : Nat) : FV :=
  let v : FV := match f with
    | .e2m1 =>
      if code = 8 then e4m3.decode spare else .fin (decide (code ≥ 8)) (e2m1Half (code % 8)) (-1)
    | .e4m3 => e4m3.decode code
    | .e5m2 => e5m2.decode code
    | .int8 => ofIntFv (BitVec.ofNat 8 code).toInt
    | .fp16 => fp16.decode code
    | .bf16 => bf16.decode code
  match scale with
  | none => v
  | some c => if c = 255 then .nan else v.scale ((c : Int) - 127)

/-- A product of the engine: INT8 has no negative zero (R33, R34). -/
def mxProd (int8 : Bool) (a b : FV) : FV :=
  match (FV.mul a b).1 with
  | .fin n m e => .fin (n && !(int8 && m == 0)) m e
  | x => x

/-- The exact sum of finite values in units of 2^e. -/
def exactSum (e : Int) : List FV → Int
  | [] => 0
  | .fin n m k :: xs => (if n then -((m * 2 ^ (k - e).toNat : Nat) : Int) else (m * 2 ^ (k - e).toNat : Nat)) + exactSum e xs
  | _ :: xs => exactSum e xs

/-- The least exponent of a list of values. -/
def leastExp : List FV → Int → Int
  | [], e => e
  | .fin _ _ k :: xs, e => leastExp xs (min k e)
  | _ :: xs, e => leastExp xs e

/-- Whether a value is an infinity of a sign. -/
def FV.isInf (neg : Bool) : FV → Bool
  | .inf n => n == neg
  | _ => false

/-- Whether a value is −0. -/
def FV.isNegZero : FV → Bool
  | .fin n m _ => n && m == 0
  | _ => false

/-- The sum of exact values with the rules of NaN, infinities and zero of R34, R35 and R300. -/
def sumFv (xs : List FV) : FV :=
  let pos := xs.any (FV.isInf false)
  let neg := xs.any (FV.isInf true)
  if xs.any FV.isNan || (pos && neg) then .nan
  else if pos then .inf false
  else if neg then .inf true
  else
    let e := leastExp xs 0
    let x := exactSum e xs
    if x = 0 then .fin (xs.all FV.isNegZero) 0 0 else .fin (decide (x < 0)) x.natAbs e

/-- One step of the matrix engine on one accumulator element (R33 to R35). -/
def mxStep (acc : Word) (prods : List FV) : Word :=
  BitVec.ofNat 32 (fp32.encode .rn false (sumFv (fp32.decode acc.toNat :: prods))).1

end Sys2Proof.Machine
end

