-- ==== Sys2Proof/Machine/Alu.lean ====
section
/-! DEFINITION. One operation of the datapath on its operands, in a core or at a home (R103): the 32-bit result and the flags
it raises. -/

namespace Sys2Proof.Machine

/-- A 32-bit result of a function on codes. -/
def wordOf (x : Nat × BitVec 5) : Word × BitVec 5 := (BitVec.ofNat 32 x.1, x.2)

/-- What an operation computes from its operands in the order A, B, C; a comparison gives 1 or 0 (R228 to R249). For CVT, C
is the old destination. -/
def alu (op : AluOp) (a b c : Word) : Word × BitVec 5 :=
  match op with
  | .iadd o => (addSat o a b, 0)
  | .isub o => (subSat o a b, 0)
  | .imul => (a * b, 0)
  | .imulh u => (mulHigh u a b, 0)
  | .imad => (a * b + c, 0)
  | .idiv u => (idiv u a b, 0)
  | .irem u => (irem u a b, 0)
  | .imin u => (minBy u a b, 0)
  | .imax u => (maxBy u a b, 0)
  | .iabs s => (iabs s a, 0)
  | .and => (a &&& b, 0)
  | .or => (a ||| b, 0)
  | .xor => (a ^^^ b, 0)
  | .shl => (shl a b, 0)
  | .shr => (shr a b, 0)
  | .sar => (sar a b, 0)
  | .rotl => (rotl a b, 0)
  | .bfe sx => (bfe sx a b, 0)
  | .bfi => (bfi a b c, 0)
  | .popc => (popc a, 0)
  | .clz => (clz a, 0)
  | .brev => (brev a, 0)
  | .sel q => (if q then a else b, 0)
  | .mov => (b, 0)
  | .icmp k u => (boolW (cmpInt k u a b), 0)
  | .fcmp k => (boolW (cmpFv k (fp32.decode a.toNat) (fp32.decode b.toNat)), 0)
  | .iadd2 o => (packed (addSat o) a b, 0)
  | .isub2 o => (packed (subSat o) a b, 0)
  | .imin2 u => (packed (minBy u) a b, 0)
  | .imax2 u => (packed (maxBy u) a b, 0)
  | .fadd r => wordOf (fp32.addOp r a.toNat b.toNat)
  | .fsub r => wordOf (fp32.subOp r a.toNat b.toNat)
  | .fmul r => wordOf (fp32.mulOp r a.toNat b.toNat)
  | .ffma r => wordOf (fp32.fmaOp r a.toNat b.toNat c.toNat)
  | .fmin => (BitVec.ofNat 32 (fp32.minOp false a.toNat b.toNat), 0)
  | .fmax => (BitVec.ofNat 32 (fp32.minOp true a.toNat b.toNat), 0)
  | .frcp r => wordOf (frcp r a.toNat)
  | .frsq => wordOf (frsq a.toNat)
  | .fsqrt r => wordOf (fsqrt r a.toNat)
  | .fexp2 => wordOf (fexp2 a.toNat)
  | .flog2 => wordOf (flog2 a.toNat)
  | .fsin => wordOf (fsin a.toNat)
  | .fcos => wordOf (fcos a.toNat)
  | .hadd2 bf r => packedF (fun x y _ => (half bf).addOp r x y) a b c
  | .hmul2 bf r => packedF (fun x y _ => (half bf).mulOp r x y) a b c
  | .hfma2 bf r => packedF (fun x y z => (half bf).fmaOp r x y z) a b c
  | .f2i u r => f2i u r a
  | .i2f u r => i2f u r a
  | .fclass => (fclass a, 0)
  | .cvt e s r d f => cvt e s r d f a c

/-- The new value of an atomic and of RELABEL's reductions at a width of n bits (R273). -/
def atomInt {n : Nat} (op : AtomOp) (old d c x : BitVec n) : BitVec n :=
  match op with
  | .add => old + d
  | .min => minBy false old d
  | .max => maxBy false old d
  | .umin => minBy true old d
  | .umax => maxBy true old d
  | .and => old &&& d
  | .or => old ||| d
  | .xor => old ^^^ d
  | .exch => d
  | .cas => if old = c then x else old
  | .inc => if old.toNat ≥ d.toNat then 0 else old + 1
  | .fadd => BitVec.ofNat n (fp32.addOp .rn old.toNat d.toNat).1
  | .fmin => BitVec.ofNat n (fp32.minOp false old.toNat d.toNat)
  | .fmax => BitVec.ofNat n (fp32.minOp true old.toNat d.toNat)

/-- The new value at a location of 4 or 8 bytes (R273). -/
def atomNew (op : AtomOp) (w64 : Bool) (old d c n : Nat) : Nat :=
  if w64 then (atomInt op (BitVec.ofNat 64 old) (BitVec.ofNat 64 d) (BitVec.ofNat 64 c) (BitVec.ofNat 64 n)).toNat
  else (atomInt op (BitVec.ofNat 32 old) (BitVec.ofNat 32 d) (BitVec.ofNat 32 c) (BitVec.ofNat 32 n)).toNat

end Sys2Proof.Machine
end

