-- ==== Sys2Proof/Machine/Access.lean ====
section
/-! DEFINITION. Numbering of the parts (R11, R15) and the accessors of every table of the state. -/

namespace Sys2Proof.Machine

/-- The result of a step. -/
abbrev Result := Host.Outcome State Fault Refusal

/-- Bytes of a core scratchpad, 768 KiB (R15). -/
def coreBytes : Nat := 786432
/-- Bytes of a cluster scratchpad, 8 MiB (R15). -/
def cluBytes : Nat := 8388608
/-- Bytes of a die scratchpad, 128 MiB (R15). -/
def dieBytes : Nat := 134217728

/-- A wave's number from its core and slot. -/
def widOf (core slot : Nat) : Nat := core * 96 + slot
/-- The core of a wave. -/
def wCore (wid : Nat) : Nat := wid / 96
/-- The slot of a wave (R11). -/
def wSlot (wid : Nat) : Nat := wid % 96
/-- The partition of a wave (R11). -/
def wPart (wid : Nat) : Nat := wid % 96 / 16
/-- The cluster of a core (R11). -/
def cluOf (core : Nat) : Nat := core / 8
/-- The die of a core (R11). -/
def dieOf (core : Nat) : Nat := core / 96

/-- The number of slots of a home (R13). -/
def homeSlots (h : Nat) : Nat := if h < 8 then 6291456 else 2097152

/-- A core of the state. -/
def State.core (s : State) (c : Nat) : Core := tget Core.init s.cores c
/-- Replace a core. -/
def State.setCore (s : State) (c : Nat) (x : Core) : State := { s with cores := tset Core.init s.cores c x }
/-- A cluster of the state. -/
def State.cluster (s : State) (k : Nat) : Cluster := tget Cluster.init s.clusters k
/-- Replace a cluster. -/
def State.setCluster (s : State) (k : Nat) (x : Cluster) : State := { s with clusters := tset Cluster.init s.clusters k x }
/-- A home of the state. -/
def State.home (s : State) (h : Nat) : Home := tget Home.init s.homes h
/-- Replace a home. -/
def State.setHome (s : State) (h : Nat) (x : Home) : State := { s with homes := tset Home.init s.homes h x }
/-- A context of the state. -/
def State.ctx (s : State) (n : Nat) : Ctx := tget Ctx.init s.ctxs n
/-- Replace a context. -/
def State.setCtx (s : State) (n : Nat) (x : Ctx) : State := { s with ctxs := tset Ctx.init s.ctxs n x }
/-- A window of the state. -/
def State.window (s : State) (w : Nat) : Window := tget Window.init s.windows w
/-- Replace a window. -/
def State.setWindow (s : State) (w : Nat) (x : Window) : State := { s with windows := tset Window.init s.windows w x }
/-- Replace or place a wave. -/
def State.setWave (s : State) (wid : Nat) (w : Wave) : State := { s with waves := tput s.waves wid w }
/-- Replace or add a team. -/
def State.setTeam (s : State) (t : Nat) (x : Team) : State := { s with teams := tput s.teams t x }
/-- Replace or add a grid. -/
def State.setGrid (s : State) (g : Nat) (x : Grid) : State := { s with grids := tput s.grids g x }

/-- Change a wave that is in its slot. -/
def State.modWave (s : State) (wid : Nat) (f : Wave → Wave) : State :=
  match tfind s.waves wid with
  | some w => s.setWave wid (f w)
  | none => s

/-- Change a team that exists. -/
def State.modTeam (s : State) (t : Nat) (f : Team → Team) : State :=
  match tfind s.teams t with
  | some x => s.setTeam t (f x)
  | none => s

/-- Change a grid that exists. -/
def State.modGrid (s : State) (g : Nat) (f : Grid → Grid) : State :=
  match tfind s.grids g with
  | some x => s.setGrid g (f x)
  | none => s

/-- Change a core. -/
def State.modCore (s : State) (c : Nat) (f : Core → Core) : State := s.setCore c (f (s.core c))
/-- Change a cluster. -/
def State.modCluster (s : State) (k : Nat) (f : Cluster → Cluster) : State := s.setCluster k (f (s.cluster k))
/-- Change a home. -/
def State.modHome (s : State) (h : Nat) (f : Home → Home) : State := s.setHome h (f (s.home h))
/-- Change a context. -/
def State.modCtx (s : State) (n : Nat) (f : Ctx → Ctx) : State := s.setCtx n (f (s.ctx n))
/-- Change a window. -/
def State.modWindow (s : State) (w : Nat) (f : Window → Window) : State := s.setWindow w (f (s.window w))

/-- Take a name for a request. -/
def State.newId (s : State) : Nat × State := (s.nextId, { s with nextId := s.nextId + 1 })

/-- Nanoseconds since cold reset (R306, R338). -/
def State.ns (s : State) : Nat := s.t7 / 7

/-- The clock of a core (R306). -/
def State.clk (s : State) (core : Nat) : Nat := (s.cluster (cluOf core)).clk

/-- The grid of a team. -/
def State.gridOf (s : State) (team : Nat) : Option Grid := (tfind s.teams team).bind fun t => tfind s.grids t.grid

/-- The effective values of a grid's own region (R74, R75); the defaults of a root when it has none. -/
def Grid.eff (g : Grid) : Eff :=
  g.chain.headD ⟨0, 0, 1, 0, 0, 24, 18432, 150994944, 201326592, 268435456, 54525952, 10000, 0, false, false, 0, 0, 0, none⟩

/-- Core-scratchpad bytes of a team of the grid (R70). -/
def Grid.score (g : Grid) : Nat := match g.khead with | some k => k.score | none => 0
/-- Cluster-scratchpad bytes of the grid (R70). -/
def Grid.sclu (g : Grid) : Nat := match g.khead with | some k => k.sclu | none => 0
/-- Die-scratchpad bytes of the grid (R70). -/
def Grid.sdie (g : Grid) : Nat := match g.khead with | some k => k.sdie | none => 0

/-- Bytes i to i + n − 1 of a packet, little-endian. -/
def field (bs : List Byte) (i n : Nat) : Nat := leNat ((bs.drop i).take n)

/-- GRIDX, GRIDY and GRIDZ of a packet (R65). -/
def pkGrid (p : List Byte) : Nat × Nat × Nat := (field p 16 2, field p 18 2, field p 20 2)
/-- WAVES of a packet. -/
def pkWaves (p : List Byte) : Nat := field p 22 1
/-- Whether a packet launches a cooperative grid. -/
def pkCoop (p : List Byte) : Bool := field p 23 1 % 2 == 1
/-- REC of a packet. -/
def pkRec (p : List Byte) : Bool := field p 23 1 / 2 % 2 == 1
/-- NPARAM of a packet. -/
def pkNparam (p : List Byte) : Nat := field p 24 2
/-- TAG of a packet. -/
def pkTag (p : List Byte) : Nat := field p 36 4

/-- Waves of each team of a grid. -/
def Grid.waves (g : Grid) : Nat := pkWaves g.packet

/-- A scratchpad byte of a level (0 core, 1 cluster, 2 die) and unit. -/
def State.spByte (s : State) (lvl unit off : Nat) : Byte :=
  match lvl with
  | 0 => tget 0 s.spCore (unit * coreBytes + off)
  | 1 => tget 0 s.spClu (unit * cluBytes + off)
  | _ => tget 0 s.spDie (unit * dieBytes + off)

/-- Write a scratchpad byte. -/
def State.setSpByte (s : State) (lvl unit off : Nat) (b : Byte) : State :=
  match lvl with
  | 0 => { s with spCore := tset 0 s.spCore (unit * coreBytes + off) b }
  | 1 => { s with spClu := tset 0 s.spClu (unit * cluBytes + off) b }
  | _ => { s with spDie := tset 0 s.spDie (unit * dieBytes + off) b }

/-- Read n scratchpad bytes upward. -/
def State.spRead (s : State) (lvl unit off n : Nat) : List Byte := (List.range n).map fun i => s.spByte lvl unit (off + i)

/-- Write scratchpad bytes upward. -/
def State.spWrite (s : State) (lvl unit off : Nat) : List Byte → State
  | [] => s
  | b :: bs => (s.setSpByte lvl unit off b).spWrite lvl unit (off + 1) bs

/-- A little-endian scratchpad number. -/
def State.spNat (s : State) (lvl unit off n : Nat) : Nat := leNat (s.spRead lvl unit off n)

/-- Lanes 0 to 31. -/
def lanes : List Nat := List.range 32

/-- The lanes of a mask, ascending. -/
def lanesOf (m : Word) : List Nat := lanes.filter fun i => m.getLsbD i

/-- The mask of the lanes at which a predicate holds. -/
def maskOf (f : Nat → Bool) : Word := ofBits f

/-- A lane's bit. -/
def laneBit (i : Nat) : Word := BitVec.ofNat 32 (2 ^ i)

/-- A split of a wave. -/
def Wave.split (w : Wave) (i : Nat) : Split := tget Split.off w.splits i
/-- Replace a split. -/
def Wave.setSplit (w : Wave) (i : Nat) (x : Split) : Wave := { w with splits := tset Split.off w.splits i x }
/-- Change a split. -/
def Wave.modSplit (w : Wave) (i : Nat) (f : Split → Split) : Wave := w.setSplit i (f (w.split i))
/-- The numbers of the live splits. -/
def Wave.liveSplits (w : Wave) : List Nat := (List.range 4).filter fun i => (w.split i).live
/-- Entries of the reconvergence stack, spilled ones included. -/
def Wave.depth (w : Wave) : Nat := w.stack.length + w.spilled

/-- Key of a vector register lane. -/
def vKey (reg lane : Nat) : Nat := reg * 32 + lane

/-- A vector register lane as it stands. -/
def Wave.lane (w : Wave) (reg lane : Nat) : Lane := tget Lane.zero w.v (vKey reg lane)
/-- Write a vector register lane with its tag. -/
def Wave.setLane (w : Wave) (reg lane : Nat) (x : Lane) : Wave := { w with v := tset Lane.zero w.v (vKey reg lane) x }
/-- A special register as it stands (R197). -/
def Wave.xreg (w : Wave) (i : Nat) : Word := tget 0 w.x i
/-- Write a special register. -/
def Wave.setX (w : Wave) (i : Nat) (v : Word) : Wave := { w with x := tset 0 w.x i v }
/-- A completion counter (R142). -/
def Wave.kreg (w : Wave) (i : Nat) : Nat := (tget (0 : BitVec 6) w.k i).toNat

/-- Raise counters by 1 (R142). -/
def Wave.raise (w : Wave) : List Nat → Wave
  | [] => w
  | i :: is => { w with k := tset 0 w.k i (BitVec.ofNat 6 (w.kreg i + 1)) }.raise is

/-- Lower counters by 1, never below 0 (R142). -/
def Wave.fall (w : Wave) : List Nat → Wave
  | [] => w
  | i :: is => { w with k := tset 0 w.k i (BitVec.ofNat 6 (w.kreg i - 1)) }.fall is

/-- A lane as a number: its word, and 2^32 more when it is tagged. -/
def laneNat (x : Lane) : Nat := x.w.toNat + if x.tag then 2 ^ 32 else 0

/-- A lane from its number. -/
def natLane (n : Nat) : Lane := ⟨n / 2 ^ 32 % 2 == 1, BitVec.ofNat 32 n⟩

/-- The value stored at a target, as a number. A write to p7 is discarded, so p7 is no target (R194). -/
def Wave.stored (w : Wave) : Target → Nat
  | .v r l => laneNat (w.lane r l)
  | .p i l => if (tget (0 : Word) w.p i).getLsbD l then 1 else 0
  | .s i => (tget (0 : Word) w.s i).toNat
  | .q i => (tget (0 : BitVec 144) w.q i).toNat

/-- Write a target; a vector lane takes the tag that its number carries (R99). -/
def Wave.store (w : Wave) (t : Target) (x : Nat) : Wave :=
  match t with
  | .v r l => w.setLane r l (natLane x)
  | .p i l =>
    let m := tget (0 : Word) w.p i
    { w with p := tset 0 w.p i (if x % 2 = 1 then m ||| laneBit l else m &&& ~~~(laneBit l)) }
  | .s i => { w with s := tset 0 w.s i (BitVec.ofNat 32 x) }
  | .q i => { w with q := tset 0 w.q i (BitVec.ofNat 144 x) }

/-- Forget what earlier instructions were still to write to these targets: a later value remains (R92). -/
def dropTargets (ts : List Target) (pend : List Writeback) : List Writeback :=
  pend.map fun p => { p with writes := p.writes.filter fun e => !ts.contains e.1 }

/-- Write targets in the issue clock, over any result still to be written. -/
def Wave.storeNow (w : Wave) (ws : List (Target × Nat)) : Wave :=
  ws.foldl (fun w e => w.store e.1 e.2) { w with pend := dropTargets (ws.map (·.1)) w.pend }

/-- The values that results in flight are still to write to a target, in issue order. -/
def Wave.pending (w : Wave) (t : Target) : List Nat := w.pend.flatMap fun p => (p.writes.filter fun e => e.1 = t).map (·.2)

/-- What a vector register lane holds once every result in flight is written. -/
def Wave.latest (w : Wave) (reg l : Nat) : Lane :=
  match (w.pending (.v reg l)).getLast? with
  | some x => natLane x
  | none => w.lane reg l

/-- OR flags into FPSTAT (R32). -/
def Wave.orFlags (w : Wave) (f : BitVec 5) : Wave := w.setX 16 (w.xreg 16 ||| f.setWidth 32)

/-- Every result in flight, written (R96). Counters fall with them. -/
def Wave.flush (w : Wave) : Wave :=
  let v := w.pend.foldl (fun w p => ((p.writes.foldl (fun w e => w.store e.1 e.2) w).orFlags p.flags).fall p.cnt) w
  { v with pend := [] }

/-- Report an interrupt or data to the outside. -/
def State.emit (s : State) (o : Out) : State := { s with outbox := s.outbox ++ [o] }

/-- Count n events for a context (R58, R59). -/
def State.pmc (s : State) (ctx event n : Nat) : State :=
  s.modCtx ctx fun c => { c with pmc := (List.range 8).foldl (fun p i =>
    if (tget (0 : Word) c.pmcsel i).toNat % 256 = event then tset 0 p i (tget 0 p i + BitVec.ofNat 64 n) else p) c.pmc }

end Sys2Proof.Machine
end

