-- ==== Sys2Proof/Machine/Mem.lean ====
section
/-! DEFINITION. Physical memory behind the memory controllers: tiers and homes (R12, R13), grants and counters (R39 to R46),
poison (R161), pages in motion (R159), and the accounting of every sector access (R158, R325 to R333). Memory holds
plaintext: no party reads ciphertext (R42). -/

namespace Sys2Proof.Machine

/-- The tier of a physical address: 0 HBM4E, 1 LPDDR, 2 CXL (R12). -/
def tierOf (pa : Nat) : Option Nat :=
  if pa < 0x8000000000 then some 0
  else if 0x10000000000 ≤ pa ∧ pa < 0x20000000000 then some 1
  else if 0x100000000000 ≤ pa ∧ pa < 0x200000000000 then some 2
  else none

/-- The home of a physical address (R12, R13). -/
def homeOf (pa : Nat) : Nat :=
  match tierOf pa with
  | some 0 => pa / 0x1000000000
  | some 1 => 8
  | _ => 9

/-- The slot of the CXL window that holds an address (R181). -/
def cxlSlot (pa : Nat) : Nat := (pa - 0x100000000000) / 0x4000000000

/-- CXLMAP of a slot. -/
def State.cxlmap (s : State) (i : Nat) : DWord := tget 0 s.link.cxlmap i

/-- A port. -/
def State.port (s : State) (p : Nat) : Port := tget Port.init s.link.ports p

/-- Replace a port. -/
def State.setPort (s : State) (p : Nat) (x : Port) : State :=
  { s with link := { s.link with ports := tset Port.init s.link.ports p x } }

/-- Whether an address lies in a peer slot (R181). -/
def State.isPeer (s : State) (pa : Nat) : Bool :=
  tierOf pa == some 2 && ((s.cxlmap (cxlSlot pa)).extractLsb' 62 2).toNat == 2

/-- The CXL port of an expander slot, 0 to 3 (R181). -/
def State.cxlPort (s : State) (pa : Nat) : Nat := ((s.cxlmap (cxlSlot pa)).extractLsb' 54 2).toNat

/-- Whether a frame lies in memory of its range: a CXL slot must hold an expander unit that exists, or a peer (R12, R181). -/
def State.frameThere (s : State) (frame : Nat) : Option Nat :=
  match tierOf (frame * 65536) with
  | some 2 =>
    let m := s.cxlmap (cxlSlot (frame * 65536))
    let kind := (m.extractLsb' 62 2).toNat
    if kind = 2 then some 2
    else if kind = 1 ∧ (m.extractLsb' 0 4).toNat < (s.port (32 + (m.extractLsb' 54 2).toNat)).capacity then some 2
    else none
  | t => t

/-- Where the memory behind an address is: an address of an expander slot selects a unit of an expander, which no other slot of the same
unit changes; every other address is its own place (R181). -/
def State.cell (s : State) (pa : Nat) : Nat :=
  let m := s.cxlmap (cxlSlot pa)
  if tierOf pa = some 2 ∧ (m.extractLsb' 62 2).toNat = 1 then
    2 ^ 53 + ((m.extractLsb' 54 2).toNat * 16 + (m.extractLsb' 0 4).toNat) * 2 ^ 38 + pa % 2 ^ 38
  else pa

/-- The context to which a frame is granted (R39). -/
def State.grantOf (s : State) (frame : Nat) : Option Nat :=
  (s.phys.grants.find? fun g => g.1 ≤ frame && frame < g.1 + g.2.1).map (·.2.2)

/-- Whether a sector still reads as zeros: both counters 0 (R46). -/
def Phys.zero (p : Phys) (sector : Nat) : Bool := tget 0 p.minor sector == 0 && tget 0 p.major (sector / 64) == 0

/-- Whether a sector lies in a run of saved units. -/
def inRun (sector : Nat) (r : Nat × Nat × Nat) : Bool := decide (r.1 ≤ sector) && decide (sector < r.1 + r.2.1)

/-- A free byte of the save area, if an address lies in a run of saved units (R55). -/
def runByte (runs : List (Nat × Nat × Nat)) (pa : Nat) : Option Byte :=
  (runs.find? (inRun (pa / 32))).map fun r => Config.saveByte (r.2.2 + (pa - 32 * r.1))

/-- A run without a sector: what lies before it and what lies behind. -/
def cutRun (sector : Nat) (r : Nat × Nat × Nat) : List (Nat × Nat × Nat) :=
  if inRun sector r then [(r.1, sector - r.1, r.2.2), (sector + 1, r.1 + r.2.1 - (sector + 1), r.2.2 + 32 * (sector + 1 - r.1))]
  else [r]

/-- A byte of physical memory at its owner (R46). -/
def Phys.byte (p : Phys) (pa : Nat) : Byte :=
  if p.zero (pa / 32) then 0 else (runByte p.saved pa).getD (tget 0 p.bytes pa)

/-- No run of saved units holds a sector any longer; empty runs go. -/
def Phys.cut (p : Phys) (sector : Nat) : Phys :=
  if p.saved.any (inRun sector) then { p with saved := (p.saved.flatMap (cutRun sector)).filter fun r => r.2.1 != 0 } else p

/-- A sector of a run of saved units stands by itself: its bytes are listed as they read. -/
def Phys.thaw (p : Phys) (sector : Nat) : Phys :=
  if p.saved.any (inRun sector) then
    { p.cut sector with bytes := (List.range 32).foldl (fun t i => tset 0 t (sector * 32 + i) (p.byte (sector * 32 + i))) p.bytes }
  else p

/-- The bytes of a sector become what the counters say it reads as. -/
def Phys.settle (p : Phys) (sector : Nat) : Phys :=
  if p.zero sector then { p.cut sector with bytes := p.bytes.filter fun e => e.1 / 32 != sector } else p

/-- Levels of the counter tree below a root of eight counters (log 4). -/
def treeLevels : Nat := 14

/-- The counters above a leaf: of each level the one that the leaf's path takes; the last level is the context's root (R43). -/
def nodeKeys (ctx leaf : Nat) : List Nat :=
  (List.range treeLevels).map fun l =>
    if l + 1 = treeLevels then l * 2 ^ 50 + ctx * 8 + leaf / 8 ^ l % 8 else l * 2 ^ 50 + leaf / 8 ^ l

/-- Raise the counters above a leaf for `n` writes (R44). -/
def Phys.bumpNodesBy (p : Phys) (ctx leaf n : Nat) : Phys :=
  { p with nodes := (nodeKeys ctx leaf).foldl (fun t k => tset 0 t k (tget 0 t k + BitVec.ofNat 56 n)) p.nodes }

/-- Raise the counters above a leaf by 1 (R44). -/
def Phys.bumpNodes (p : Phys) (ctx leaf : Nat) : Phys := p.bumpNodesBy ctx leaf 1

/-- Whether a counter above a leaf is about to wrap (R45). -/
def Phys.mustRenew (p : Phys) (ctx leaf : Nat) : Bool :=
  (nodeKeys ctx leaf).any fun k => tget (0 : BitVec 56) p.nodes k == BitVec.allOnes 56

/-- Count a write of a sector: the minor counter rises, or MAJOR rises, all 64 minor counters become 1 and the 2 KiB is
re-encrypted (R44). -/
def Phys.countWrite (p : Phys) (ctx sector : Nat) : Phys :=
  let leaf := sector / 64
  let p := p.settle sector
  let m := tget (0 : BitVec 7) p.minor sector
  let p := if m = 127 then
      let secs := (List.range 64).map fun j => leaf * 64 + j
      let p := secs.foldl Phys.settle p
      { p with major := tset 0 p.major leaf (tget 0 p.major leaf + 1),
               minor := secs.foldl (fun t k => tset 0 t k 1) p.minor }
    else { p with minor := tset 0 p.minor sector (m + 1) }
  p.bumpNodes ctx leaf

/-- Count one write of each of `n` sectors from the highest down (R44). -/
def Phys.countRun (p : Phys) (ctx sector n : Nat) : Phys :=
  let secs := (List.range n).reverse.map fun i => sector + i
  if secs.any fun k => tget (0 : BitVec 7) p.minor k == 127 then secs.foldl (fun p k => p.countWrite ctx k) p
  else
    let p : Phys := { p with minor := secs.foldl (fun t k => tset 0 t k (tget 0 t k + 1)) p.minor }
    ((secs.map (· / 64)).eraseDups).foldl (fun (p : Phys) l => p.bumpNodesBy ctx l (secs.filter fun k => k / 64 == l).length) p

/-- Write a unit of the save area over whole sectors of one page: they hold free bytes from then on (R55). -/
def Phys.saveRun (p : Phys) (ctx sector n stamp : Nat) : Phys :=
  let p := ((List.range n).map fun i => sector + i).foldl Phys.cut p
  let here := fun k : Nat => decide (sector ≤ k ∧ k < sector + n)
  let p : Phys := { p with bytes := p.bytes.filter fun e => !here (e.1 / 32) }
  { p.countRun ctx sector n with saved := p.saved ++ [(sector, n, stamp)], poison := p.poison.filter fun k => !here k,
                                 sealed := p.sealed.filter fun e => !here e.1 }

/-- Write bytes of one sector at its owner. -/
def Phys.writeBytes (p : Phys) (ctx sector : Nat) (bs : List (Nat × Byte)) : Phys :=
  let p := (p.thaw sector).countWrite ctx sector
  { p with bytes := bs.foldl (fun b e => tset 0 b (sector * 32 + e.1) e.2) p.bytes }

/-- Zero the counters of a frame's leaves, so that it reads as zeros (R46). -/
def Phys.wipe (p : Phys) (frame : Nat) : Phys :=
  let inFr := fun (sh : Nat) (k : Nat) => k / sh == frame
  { p with bytes := p.bytes.filter fun e => !inFr 65536 e.1, minor := p.minor.filter fun e => !inFr 2048 e.1,
           major := p.major.filter fun e => !inFr 32 e.1, poison := p.poison.filter fun k => !inFr 2048 k,
           scrubbed := p.scrubbed.filter fun k => !inFr 2048 k, sealed := p.sealed.filter fun e => !inFr 2048 e.1,
           saved := p.saved.filter fun r => !inFr 2048 r.1 }

/-- The move that concerns a frame as its source (R159). -/
def State.moveOf (s : State) (frame : Nat) : Option (Nat × Move) :=
  s.pme.moves.find? fun e => e.2.src == frame && e.2.st != .cutting

/-- Bit j of a moved map. -/
def bitAt (m j : Nat) : Bool := m / 2 ^ j % 2 == 1

/-- Where an access to an address is performed: at D when its sector has moved (R159). -/
def State.place (s : State) (pa : Nat) : Nat :=
  match s.moveOf (pa / 65536) with
  | some (_, m) =>
    if m.rekey.isNone && bitAt m.moved (pa / 32 % 2048) then m.dst * 65536 + pa % 65536 else pa
  | none => pa

/-- The cell at which an access to an address is performed (R159, R181). -/
def State.spot (s : State) (pa : Nat) : Nat := s.cell (s.place pa)

/-- Whether an access reaches an expander whose port is not UP (R182). -/
def State.portDown (s : State) (pa : Nat) : Bool :=
  tierOf (s.place pa) == some 2 && !s.isPeer (s.place pa) && (s.port (32 + s.cxlPort (s.place pa))).st != 2

/-- A byte of memory as any access sees it. -/
def State.physByte (s : State) (pa : Nat) : Byte := s.phys.byte (s.spot pa)

/-- n bytes upward. -/
def State.physRead (s : State) (pa n : Nat) : List Byte := (List.range n).map fun i => s.physByte (pa + i)

/-- A little-endian number of n bytes. -/
def State.physNat (s : State) (pa n : Nat) : Nat := leNat (s.physRead pa n)

/-- Whether the sector of an address is marked poisoned (R161). -/
def State.isPoison (s : State) (pa : Nat) : Bool := s.phys.poison.contains (s.spot pa / 32)

/-- The context that holds an address: that of the frame's grant, or of the page that moves into it. -/
def State.holderOf (s : State) (pa : Nat) : Option Nat :=
  match s.pme.moves.find? fun e => e.2.dst == pa / 65536 && e.2.rekey.isNone with
  | some e => some ((s.grantOf e.2.src).getD e.2.ctx)
  | none => s.grantOf (pa / 65536)

/-- The context whose counters a sector's write advances; 0 where no context holds it. -/
def State.ownerCtx (s : State) (pa : Nat) : Nat := (s.holderOf pa).getD 0

/-- The frames that a context holds: the grants, and the destinations of its moves, as first frame and count (R39, R160). -/
def State.heldFrames (s : State) (n : Nat) : List (Nat × Nat) :=
  ((s.phys.grants.filter fun g => g.2.2 == n).map fun g => (g.1, g.2.1))
    ++ (s.pme.moves.filter fun e => e.2.rekey.isNone && (s.grantOf e.2.src).getD e.2.ctx == n).map fun e => (e.2.dst, 1)

/-- The frames that a context holds, as runs of cells (R181). -/
def State.heldRuns (s : State) (n : Nat) : List (Nat × Nat) := (s.heldFrames n).map fun g => (s.cell (g.1 * 65536) / 65536, g.2)

/-- Whether a counter of the tree stands above a frame of a context, or in its root (R43). -/
def nodeOver (n : Nat) (runs : List (Nat × Nat)) (key : Nat) : Bool :=
  let l := key / 2 ^ 50
  let i := key % 2 ^ 50
  if l + 1 = treeLevels then i / 8 == n
  else runs.any fun r => decide (i * 8 ^ l < (r.1 + r.2) * 32 ∧ r.1 * 32 < (i + 1) * 8 ^ l)

/-- What a tag is bound to besides its key slot: the CXL slot through which a placed address was formed (R42, R181). -/
def sealPlace (pa : Nat) : Nat := if tierOf pa = some 2 then 256 * (cxlSlot pa + 1) else 0

/-- The seal of a sector at a placed address: the key slot under which its tag was formed, and its place (R42). -/
def State.sealAt (s : State) (pa : Nat) : Nat :=
  match tfind s.phys.sealed (s.cell pa / 32) with
  | some k => k
  | none => s.ownerCtx pa + sealPlace pa

/-- The seal of a sector where an access is performed. -/
def State.sealOf (s : State) (pa : Nat) : Nat := s.sealAt (s.place pa)

/-- The seal of a key slot at an address. -/
def State.sealWith (s : State) (pa key : Nat) : Nat := key + sealPlace (s.place pa)

/-- Whether the page of an address is being re-keyed between two key slots: its sectors then stand under either, and the moved map decides
which serves each (R49, R51, R163). A page that WOPEN has marked carries the window's id before its own re-key begins. -/
def State.rekeying (s : State) (pa x y : Nat) : Bool :=
  (s.pme.moves.any fun e => e.2.rekey.isSome && e.2.src == pa / 65536
      && ((e.2.keyS == x && e.2.keyD == y) || (e.2.keyS == y && e.2.keyD == x)))
    || s.windows.any fun w => w.2.st == .opening && w.2.owner == x && 63 + w.1 == y && w.2.marked.contains (pa / 65536)

/-- Whether two seals of a sector agree: they are the same, or its page is being re-keyed from one to the other (R163). -/
def State.sameSeal (s : State) (pa a b : Nat) : Bool := a == b || (a / 256 == b / 256 && s.rekeying pa (a % 256) (b % 256))

/-- Whether an access under a key slot fails the tag check of its sector: the sector does not read as zeros, and it was sealed under another
slot or at another address (R42, R46, R163). -/
def State.tagBad (s : State) (pa key : Nat) : Bool :=
  !s.phys.zero (s.spot pa / 32) && !s.sameSeal pa (s.sealOf pa) (s.sealWith pa key)

/-- Seal a sector at a placed address. -/
def State.setSeal (s : State) (pa mark : Nat) : State :=
  let k := s.cell pa / 32
  let p : Phys := { s.phys with sealed := terase s.phys.sealed k }
  if s.ownerCtx pa + sealPlace pa = mark then { s with phys := p } else { s with phys := { p with sealed := tput p.sealed k mark } }

/-- Seal a sector under the key slot of an access; a seal that agrees stays. -/
def State.seal (s : State) (pa key : Nat) : State :=
  if s.sameSeal pa (s.sealOf pa) (s.sealWith pa key) then s else s.setSeal (s.place pa) (s.sealWith pa key)

/-- The windows of a context that are not CLOSED. -/
def State.ownWindows (s : State) (n : Nat) : List Nat :=
  (List.range 193).filter fun w => w ≥ 1 && (s.window w).st != .closed && (s.window w).owner == n

/-- The sectors of a context's frames that a renewal cannot read or check: their expander is not UP, or their seal is under no key slot
of the context (R42, R45, R163, R182). Each is a placed address. -/
def State.renewFails (s : State) (n : Nat) (live : List Nat) : List Nat :=
  let slots := n :: (s.ownWindows n).map (63 + ·)
  let pas := live.flatMap fun k => (s.heldFrames n).filterMap fun g =>
    let c := s.cell (g.1 * 65536)
    if decide (c ≤ k * 32) && decide (k * 32 < c + g.2 * 65536) && !s.phys.zero k then some (g.1 * 65536 + (k * 32 - c)) else none
  pas.filter fun pa => (tierOf pa == some 2 && !s.isPeer pa && (s.port (32 + s.cxlPort pa)).st != 2)
    || !(slots.any fun k => s.sealAt pa == k + sealPlace pa)

/-- Renew a context's keys in place (R45): fresh keys for the context and the windows it owns, every sector of the pages it holds at
MAJOR 0 and minor 1 unless it reads as zeros, every counter above them 1. A sector that cannot be read is marked poisoned, and the report
of its page is owed (R163, log 151). -/
def State.renewKeys (s : State) (n : Nat) : State :=
  let slots := n :: (s.ownWindows n).map (63 + ·)
  let runs := s.heldRuns n
  let mine := fun sector : Nat => runs.any fun r => decide (r.1 ≤ sector / 2048 ∧ sector / 2048 < r.1 + r.2)
  let p := s.phys
  let keys := (List.range slots.length).foldl
    (fun t i => tset 0 t (slots.getD i 0) (Config.randomKey (s.fresh + i))) p.keys
  let listed : List Nat := p.minor.map (·.1)
  let under : List Nat := p.major.flatMap fun (e : Nat × BitVec 56) => (List.range 64).map fun j => e.1 * 64 + j
  let live := (listed ++ under).filter mine
  let minor := live.foldl (fun t k => if p.zero k then t else tset 0 t k 1) p.minor
  let major := p.major.filter fun (e : Nat × BitVec 56) => !mine (e.1 * 64)
  let nodes := p.nodes.map fun (e : Nat × BitVec 56) => (e.1, if nodeOver n runs e.1 then 1 else e.2)
  let bad := s.renewFails n live
  let owed := ((bad.map (· / 65536)).eraseDups).map fun f => (n, f, (bad.filter fun pa => pa / 65536 == f).map fun pa => pa / 32 % 2048)
  { s with phys := { p with keys := keys, minor := minor, major := major, nodes := nodes, owed := p.owed ++ owed,
                            poison := ((bad.map fun pa => s.cell pa / 32).filter fun k => !p.poison.contains k) ++ p.poison },
           fresh := s.fresh + slots.length }

/-- Write an event into the Amber black box (R321). -/
def State.amberEvent (s : State) (cause unitClass unit : Nat) (detail : Nat) : State :=
  let n := s.amber.seq + 1
  let ev : Nat := n.toNat + cause % 256 * 2 ^ 32 + unitClass % 256 * 2 ^ 40 + unit % 65536 * 2 ^ 48
    + s.ns % 2 ^ 64 * 2 ^ 64 + detail % 2 ^ 128 * 2 ^ 128
  { s with amber := ⟨n, if s.amber.count.toNat < 4096 then s.amber.count + 1 else s.amber.count,
                     tset 0 s.amber.events (n.toNat % 4096) (BitVec.ofNat 256 ev)⟩ }

/-- Before a write under a leaf: a counter about to wrap first renews the context's keys, with an Amber event (R45). -/
def State.renewed (s : State) (n leaf : Nat) : State :=
  if s.phys.mustRenew n leaf then
    let t := s.renewKeys n
    let p : Phys := { t.phys with nodes := (nodeKeys n leaf).foldl (fun m k => tset 0 m k 1) t.phys.nodes }
    (({ t with phys := p } : State)).amberEvent 0x86 3 (homeOf (leaf * 2048)) 0
  else s

/-- Clear a frame: its leaves are zero, and their parents advance (R46). -/
def State.clearFrame (s : State) (n frame : Nat) : State :=
  let c := s.cell (frame * 65536) / 65536
  (List.range 32).foldl (fun (s : State) j =>
    let s := s.renewed n (c * 32 + j)
    { s with phys := s.phys.bumpNodes n (c * 32 + j) }) { s with phys := s.phys.wipe c }

/-- Write bytes of one sector where it is served, under a key slot (R42, R44, R45). A write of the whole sector clears a poison mark and
seals the sector afresh; a write of a part keeps its seal (R47, R161). -/
def State.sectorWrite (s : State) (sector key : Nat) (bs : List (Nat × Byte)) : State :=
  let pa := sector * 32
  let sec := s.spot pa / 32
  let n := s.ownerCtx (s.place pa)
  let s := s.renewed n (sec / 64)
  let fresh_ := bs.length = 32 || s.phys.zero sec
  let s := if fresh_ then s.seal pa key else s
  let p := s.phys.writeBytes n sec bs
  { s with phys := if bs.length = 32 then { p with poison := p.poison.filter (· != sec) } else p }

/-- Write n bytes upward, sector by sector, under a key slot. -/
def State.physWrite (s : State) (pa key : Nat) (bs : List Byte) : State :=
  let cells := (List.range bs.length).map fun i => (pa + i, bs.getD i 0)
  let secs := (cells.map fun c => c.1 / 32).eraseDups
  secs.foldl (fun s sec =>
    s.sectorWrite sec key ((cells.filter fun c => c.1 / 32 == sec).map fun c => (c.1 % 32, c.2))) s

/-- The channel group of an address (R325, R326, R181). -/
def State.groupOf (s : State) (pa : Nat) : Nat :=
  match tierOf pa with
  | some 0 =>
    let j := pa / 32 % 2048
    let pc := (j % 64) ^^^ (pa / 65536 % 64)
    pa / 0x1000000000 * 8 + pc / 8
  | some 1 =>
    let ch := (pa / 32 % 16) ^^^ (pa / 65536 % 16)
    64 + ch / 4
  | _ => 68 + s.cxlPort pa

/-- The channel of an address: a pseudo-channel of a stack, or an LPDDR channel after the 512 of the stacks. -/
def chanOf (pa : Nat) : Option Nat :=
  match tierOf pa with
  | some 0 => some (pa / 0x1000000000 * 64 + ((pa / 32 % 64) ^^^ (pa / 65536 % 64)))
  | some 1 => some (512 + ((pa / 32 % 16) ^^^ (pa / 65536 % 16)))
  | _ => none

/-- Bank and row of an HBM4E address (R326); an LPDDR address takes its bank and row in the same way (log 14). -/
def bankRow (pa : Nat) : Nat × Nat :=
  let f := pa / 65536 % 2 ^ 20
  (f / 64 % 16, f / 1024 * 64 + f % 64)

/-- A channel group. -/
def State.group (s : State) (g : Nat) : Group := tget Group.init s.mc.groups g

/-- Change a channel group. -/
def State.modGroup (s : State) (g : Nat) (f : Group → Group) : State :=
  { s with mc := { s.mc with groups := tset Group.init s.mc.groups g (f (s.group g)) } }

/-- The number of a bank. -/
def bankKey (chan bank : Nat) : Nat := chan * 16 + bank

/-- A bank. -/
def State.bank (s : State) (k : Nat) : Bank := tget Bank.init s.mc.banks k

/-- Replace a bank. -/
def State.setBank (s : State) (k : Nat) (b : Bank) : State :=
  { s with mc := { s.mc with banks := tset Bank.init s.mc.banks k b } }

/-- Refresh a row: its activations since the last refresh are 0 and it is no longer hot (R329). -/
def Bank.refreshRow (b : Bank) (r : Nat) : Bank := { b with acts := terase b.acts r, hot := b.hot.filter (· != r) }

/-- Open a row at a time. A row that reaches the hammer threshold refreshes its two neighbours and becomes hot (R329, R330). -/
def Bank.activate (b : Bank) (thr at_ r : Nat) : Bank :=
  let n := tget 0 b.acts r + 1
  let b := { b with row := some r, lastAct := at_, acts := tset 0 b.acts r n, hotAct := tset 0 b.hotAct r at_ }
  if n ≥ thr ∧ !b.hot.contains r then
    let b := (b.refreshRow (r + 1))
    let b := if r = 0 then b else b.refreshRow (r - 1)
    { b with hot := r :: b.hot }
  else b

/-- tRCD, tCL, tRP, tRAS and tRC of HBM4E; LPDDR's own timings are not given, and stand at 0 (R330, log 118). -/
structure Timing where
  rcd : Nat
  cl  : Nat
  rp  : Nat
  ras : Nat
  rc  : Nat
  deriving DecidableEq, Repr

/-- The timings of a channel. -/
def timingOf (chan : Nat) : Timing := if chan < 512 then ⟨98, 98, 98, 231, 315⟩ else ⟨0, 0, 0, 0, 0⟩

/-- When the row of a new access can be activated: after the precharge of an open row, or the one that closed it for idleness, and a full
row cycle (R330). -/
def Bank.actAt (b : Bank) (t : Timing) (now : Nat) : Nat :=
  if b.lastUse = 0 then now
  else if b.row.isSome then max (max now (b.lastAct + t.ras) + t.rp) (b.lastAct + t.rc)
  else max now (max (b.pre + t.rp) (b.lastAct + t.rc))

/-- Whether a sector's row may be opened now: a hot row is activated at most once in 2 µs (R329). -/
def State.rowHeld (s : State) (pa : Nat) : Bool :=
  match chanOf pa with
  | none => false
  | some ch =>
    let (b, r) := bankRow pa
    let k := s.bank (bankKey ch b)
    k.hot.contains r && k.row != some r && decide (s.t7 < tget 0 k.hotAct r + 14000)

/-- Whether a channel can serve a sector now: no refresh of its bank or of every bank runs, its row may be open and is not under test
(R322, R329, R331). -/
def State.canServe (s : State) (pa : Nat) : Bool :=
  match chanOf pa with
  | none => true
  | some ch => (s.bank (bankKey ch (bankRow pa).1)).refreshing.isNone && tget 0 s.mc.allRef ch == 0 && !s.rowHeld pa
      && s.tests.running.all fun e => match e.1 with
        | .dram a => chanOf a != some ch || bankRow a != bankRow pa
        | _ => true

/-- What a bank makes of an access: the bank after it, when its data move, whether its activation was held back, and whether the access
waited for an activation that was (R329). -/
structure Served where
  bank   : Bank
  done   : Nat
  throt  : Bool
  waited : Bool

/-- A sector access that was accepted at `since` and whose commands begin at `now` (R329, R330). -/
def Bank.access (b : Bank) (t : Timing) (thr now since r : Nat) : Served :=
  if b.row = some r then
    let done := max now (b.lastAct + t.rcd) + t.cl
    ⟨{ b with lastUse := max done b.lastUse }, done, false, b.waited && decide (since < b.lastAct)⟩
  else
    let a := b.actAt t now
    let done := a + t.rcd + t.cl
    let held := b.hot.contains r && decide (since < tget 0 b.hotAct r + 14000)
    ⟨{ b.activate thr a r with lastUse := done, waited := held }, done, held, held⟩

/-- A saturating count of 64 bits. -/
def satAdd64 (x : DWord) (n : Nat) : DWord := BitVec.ofNat 64 (min (x.toNat + n) (2 ^ 64 - 1))

/-- A bucket loses tokens: it holds no less than −63 (R328). -/
def State.spendTokens (s : State) (ctx g n : Nat) : State :=
  let k := ctx * 72 + g
  { s with mc := { s.mc with spent := tset 0 s.mc.spent k (min (tget 0 s.mc.spent k + n) 4159) } }

/-- One access of the hotness sampling: one in 2^SAMPLE of a controller's sector accesses counts (R157, R158). -/
def State.sampleHot (s : State) (pa : Nat) : State :=
  let h := homeOf pa
  let n := tget 0 s.mc.sample h + 1
  let every := 2 ^ ((s.pme.policy.extractLsb' 32 4).toNat)
  let fr := pa / 65536
  let s : State := { s with mc := { s.mc with sample := tset 0 s.mc.sample h (n % every) } }
  if n % every = 0 then
    let c := tget (0 : BitVec 8) s.phys.hot fr
    { s with phys := { s.phys with hot := tset 0 s.phys.hot fr (if c = 255 then c else c + 1) } }
  else s

/-- The tokens missing from a context's bucket; a context that holds no grid keeps its buckets full (R328). -/
def State.bucketSpent (s : State) (ctx g : Nat) : Int :=
  if s.grids.any fun x => x.2.ctx == ctx && x.2.stat != .complete then tget 0 s.mc.spent (ctx * 72 + g) else 0

/-- The context number of an access that the device makes on no context's behalf. -/
def noCtx : Nat := 64

/-- One sector access of a controller that was accepted at `since` and whose commands begin now: when its data move, and the state after
it: its row, its latency, the hotness counter, the token it spends and the served share of its context (R157, R158, R328 to R330,
R333). The token of an access that waited for an activation held back, and one for each neighbour refreshed, are charged to the context
that holds the row's frame (R329, log 119). A sector that spends no token counts event 0x08. -/
def State.access (s : State) (ctx pa since : Nat) (isWrite spend : Bool) : Nat × State :=
  let g := s.groupOf pa
  let owner := s.ownerCtx pa
  let (s, x, fresh_) : State × Served × Bool := match chanOf pa with
    | none => (s, ⟨Bank.init, s.t7, false, false⟩, false)
    | some ch =>
      let (b, r) := bankRow pa
      let k := bankKey ch b
      let x := (s.bank k).access (timingOf ch) s.mc.hammer.toNat s.t7 since r
      (s.setBank k x.bank, x, x.bank.hot.contains r && !(s.bank k).hot.contains r)
  let lat := (x.done - since) / 7
  let s := s.modGroup g fun q =>
    { q with latcnt := satAdd64 q.latcnt 1, latsum := satAdd64 q.latsum lat,
             latmax := if lat > q.latmax.toNat then BitVec.ofNat 32 (min lat (2 ^ 32 - 1)) else q.latmax,
             rhthrot := if x.throt ∧ q.rhthrot != BitVec.allOnes 32 then q.rhthrot + 1 else q.rhthrot,
             served := (ctx :: q.served).take 1024 }
  let s := if spend && decide (ctx ≠ noCtx) then s.spendTokens (if x.waited then owner else ctx) g 1 else s
  let s := if fresh_ then s.spendTokens owner g 2 else s
  let s := s.sampleHot pa
  let s := if spend then s else s.pmc ctx 8 1
  (x.done, if ctx = noCtx then s else s.pmc ctx (if isWrite then 3 else 2) 1)

/-- The account of a sector access that an engine of the device makes at once: with an empty bucket it is of the third class of R328. -/
def State.account (s : State) (ctx pa since : Nat) (isWrite : Bool) : State :=
  (s.access ctx pa since isWrite (decide (s.bucketSpent ctx (s.groupOf pa) < 4096))).2

/-- The number of a macro: its class, unit and place in the unit; a DRAM row stands in its bank. -/
def macroKey : TestSite → Nat
  | .core c row => c * 2 ^ 16 + row % 2 ^ 16
  | .cluster k row => 2 ^ 40 + k * 2 ^ 16 + row % 2 ^ 16
  | .die d row => 2 * 2 ^ 40 + d * 2 ^ 16 + row % 2 ^ 16
  | .bank c b => 3 * 2 ^ 40 + c * 2 ^ 16 + b % 2 ^ 16
  | .home h row => 4 * 2 ^ 40 + h * 2 ^ 16 + row % 2 ^ 16
  | .dram addr => 5 * 2 ^ 40 + addr / 65536 * 2 ^ 16 + (chanOf addr).getD 0

/-- The test that runs on a macro, with the error that started it. -/
def State.testOf (s : State) (site : TestSite) : Option (TestSite × TestError) := s.tests.running.find? fun e => macroKey e.1 == macroKey site

/-- Whether the device tests a macro itself: expanders do it by their own means (R323). -/
def ownSite (site : TestSite) : Bool := match site with | .dram addr => (chanOf addr).isSome | _ => true

/-- An error of a macro starts its test; one found while it is under test counts towards that test (R322). -/
def State.startTest (s : State) (site : TestSite) (err : TestError) : State :=
  if !ownSite site || (s.testOf site).isSome then s
  else { s with tests := { s.tests with running := s.tests.running ++ [(site, err)] } }

/-- A sector has failed its check for a context, in the read and in the second read: the second read is counted, and a test of its row
follows (R47, R58, R322). -/
def State.checkFailed (s : State) (ctx pa : Nat) : State := (s.pmc ctx 7 1).startTest (.dram (s.place pa)) (.integrity false)

/-- What a cause that stops an access at its sector leaves with the device: a failed tag, or an expander that does not answer, is an
integrity failure (R47, R182). -/
def State.noteStop (s : State) (ctx pa : Nat) (c : BitVec 7) : State := if c = 0x40 ∨ c = 0x41 ∨ c = 0x76 then s.checkFailed ctx pa else s

end Sys2Proof.Machine
end

