-- ==== Sys2Proof/Machine/Mmu.lean ====
section
/-! DEFINITION. Translation: page tables, walks, window judgement, TLBs and frame registers (R146 to R155, R50). -/

namespace Sys2Proof.Machine

/-- What an access is, for the checks of R148. `store` is a store of a wave: a closing window drops it at its release (R54). -/
inductive Acc where
  | read | write | store | fetch
  deriving DecidableEq, Repr

/-- Whether an access writes. -/
def Acc.writes : Acc → Bool
  | .write | .store => true
  | _ => false

/-- A translated page: its frame and the fields of its entry that an access needs. -/
structure Tr where
  frame  : Nat
  tier   : Nat
  key    : Nat
  write  : Bool
  exec   : Bool
  moving : Bool
  rekey  : Bool
  deriving DecidableEq, Repr

/-- The key slot of a page-table entry's window id (R41). -/
def keySlot (ctx win : Nat) : Nat := if win = 0 then ctx else 63 + win

/-- The window of a key slot; 0 for a context's own key. -/
def winOfKey (key : Nat) : Nat := if key < 64 then 0 else key - 63

/-- How an access through a window id is judged (R50). -/
def State.judgeWindow (s : State) (ctx win : Nat) (isWrite : Bool) : Option (BitVec 7) :=
  if win = 0 then none
  else if win > 192 then some 0x36
  else
    let w := s.window win
    match w.st with
    | .closed => some 0x36
    | .opening => if w.owner = ctx then none else if w.importer = ctx then some 0x44 else some 0x36
    | .opened =>
      if w.owner = ctx then none
      else if w.importer = ctx then (if isWrite && !w.write then some 0x36 else none) else some 0x36
    | .closing => if w.owner = ctx then none else if w.importer = ctx then some 0x45 else some 0x36

/-- The judgement of a window for an access: a store that comes after the close point is not stopped here, but dropped at its release
(R50, R54). -/
def State.judgeAcc (s : State) (ctx win : Nat) (acc : Acc) : Option (BitVec 7) :=
  match s.judgeWindow ctx win acc.writes with
  | some 0x45 => if acc == .store then none else some 0x45
  | c => c

/-- Whether the table at a physical address may be read, or the cause (R148): an entry of a granted table that cannot be read or
checked is cause 0x42, whatever kept it from being read (R47). -/
def State.judgeTable (s : State) (ctx pa : Nat) (idx : Nat) : Option (BitVec 7) :=
  if (s.frameThere (pa / 65536)).isNone then some 0x35
  else if s.grantOf (pa / 65536) != some ctx then some 0x39
  else if s.portDown (pa + 8 * idx) || s.isPoison (pa + 8 * idx) || s.tagBad (pa + 8 * idx) ctx then some 0x42
  else none

/-- Index of a level, 1 to 4 (R146). -/
def vaIndex (va : DWord) (level : Nat) : Nat := va.toNat / 2 ^ (16 + 10 * (4 - level)) % 1024

/-- Reserved bits of an interior entry (R146). -/
def interiorBad (e : DWord) : Bool := e.extractLsb' 52 11 != 0 || e.extractLsb' 0 13 != 0

/-- Reserved bits of a page-table entry (R147). -/
def pteBad (e : DWord) : Bool := e.getLsbD 60 || e.extractLsb' 52 4 != 0 || e.extractLsb' 0 8 != 0

/-- The judgement of a page-table entry by the rows of R148, from reserved bits on. -/
def State.judgePte (s : State) (ctx : Nat) (e : DWord) (acc : Acc) : Except (BitVec 7) Tr :=
  let tier := (e.extractLsb' 58 2).toNat
  let frame := (e.extractLsb' 16 36).toNat
  let win := (e.extractLsb' 8 8).toNat
  let tr : Tr := ⟨frame, tier, keySlot ctx win, e.getLsbD 62, e.getLsbD 61, e.getLsbD 57, e.getLsbD 56⟩
  if !e.getLsbD 63 then .error 0x30
  else if pteBad e then .error 0x37
  else if tier = 3 then .error 0x34
  else if s.frameThere frame != some tier then .error 0x35
  else match s.judgeAcc ctx win acc with
    | some c => .error c
    | none =>
      let holder := if win = 0 then ctx else (s.window win).owner
      if s.grantOf frame != some holder then .error 0x39
      else if acc.writes && !tr.write then .error 0x31
      else if acc == .fetch && !tr.exec then .error 0x32
      else .ok tr

/-- A walk from a table: `levels` counts the interior levels still above the page-table entries. The answer names the
address of the entry (R146, R148). -/
def State.walkFrom (s : State) (ctx : Nat) (va : DWord) (acc : Acc) : Nat → Nat → Except (BitVec 7) (Nat × Tr)
  | 0, table =>
    let i := vaIndex va 4
    match s.judgeTable ctx table i with
    | some c => .error c
    | none =>
      match s.judgePte ctx (BitVec.ofNat 64 (s.physNat (table + 8 * i) 8)) acc with
      | .ok t => .ok (table + 8 * i, t)
      | .error c => .error c
  | n + 1, table =>
    let i := vaIndex va (3 - n)
    match s.judgeTable ctx table i with
    | some c => .error c
    | none =>
      let e : DWord := BitVec.ofNat 64 (s.physNat (table + 8 * i) 8)
      if !e.getLsbD 63 then .error 0x30
      else if interiorBad e then .error 0x37
      else s.walkFrom ctx va acc n (e.toNat % 2 ^ 52 / 2 ^ 13 * 2 ^ 13)

/-- A translation by a walk (R148). -/
def State.walk (s : State) (ctx : Nat) (va : DWord) (acc : Acc) : Except (BitVec 7) (Nat × Tr) :=
  if va.extractLsb' 56 8 != 0 then .error 0x33
  else s.walkFrom ctx va acc 3 (s.ctx ctx).ptroot.toNat

/-- A physical address of a translated page. -/
def Tr.pa (t : Tr) (va : DWord) : Nat := t.frame * 65536 + va.toNat % 65536

/-- The page that a TLB entry gives for an address, if it maps it (R152). -/
def TlbEntry.find (e : TlbEntry) (ctx : Nat) (va : DWord) : Option Tr :=
  let i := va.toNat / 65536 % 16
  if e.ctx = ctx ∧ e.mib = va.toNat / 2 ^ 20 ∧ e.pages.getLsbD i then
    some ⟨e.frame + (i - e.low), e.tier, e.key, e.write, e.exec, e.moving, e.rekey⟩
  else none

/-- The page that a TLB gives. -/
def tlbFind (tlb : List TlbEntry) (ctx : Nat) (va : DWord) : Option Tr := tlb.findSome? fun e => e.find ctx va

/-- A page found in a TLB is judged by the rows that depend on the access and on its window (R50, R148). -/
def State.judgeTr (s : State) (ctx : Nat) (t : Tr) (acc : Acc) : Except (BitVec 7) Tr :=
  match s.judgeAcc ctx (winOfKey t.key) acc with
  | some c => .error c
  | none =>
    if acc.writes && !t.write then .error 0x31
    else if acc == .fetch && !t.exec then .error 0x32
    else .ok t

/-- A page through the core TLB, the cluster TLB, or by a walk (R148, R152, R153). -/
def State.xlate (s : State) (ctx core : Nat) (va : DWord) (acc : Acc) : Except (BitVec 7) Tr :=
  if va.extractLsb' 56 8 != 0 then .error 0x33
  else match tlbFind (s.core core).tlb ctx va with
    | some t => s.judgeTr ctx t acc
    | none => match tlbFind (s.cluster (cluOf core)).tlb ctx va with
      | some t => s.judgeTr ctx t acc
      | none =>
        match s.walk ctx va acc with
        | .ok (_, t) => .ok t
        | .error c => .error c

/-- Whether the core TLB or the cluster TLB holds the page of an address. -/
def State.tlbHit (s : State) (ctx core : Nat) (va : DWord) : Bool :=
  (tlbFind (s.core core).tlb ctx va).isSome || (tlbFind (s.cluster (cluOf core)).tlb ctx va).isSome

/-- Add a page to a TLB of a capacity: in an entry with which it is contiguous, or in one of its own, in place of the entry
`evict` when the TLB is full (R152). -/
def tlbAdd (cap evict ctx : Nat) (va : DWord) (t : Tr) (tlb : List TlbEntry) : List TlbEntry :=
  let i := va.toNat / 65536 % 16
  let mib := va.toNat / 2 ^ 20
  let fits := fun e : TlbEntry => e.ctx == ctx && e.mib == mib && e.tier == t.tier && e.key == t.key
    && e.write == t.write && e.exec == t.exec && !e.moving && !e.rekey && !t.moving && !t.rekey
    && e.low ≤ i && e.frame + (i - e.low) == t.frame
  if (tlbFind tlb ctx va).isSome then tlb
  else if tlb.any fits then
    tlb.map fun e => if fits e then { e with pages := e.pages ||| BitVec.ofNat 16 (2 ^ i) } else e
  else
    let e : TlbEntry := ⟨ctx, mib, BitVec.ofNat 16 (2 ^ i), i, t.frame, t.tier, t.key, t.write, t.exec, t.moving, t.rekey⟩
    (if tlb.length < cap then tlb else tlb.eraseIdx (evict % cap)) ++ [e]

/-- The table entries that a walk from a table reads, the one that it cannot read or check among them: `levels` counts the interior levels
still above the page-table entries (R146). -/
def State.walkReads (s : State) (ctx : Nat) (va : DWord) : Nat → Nat → List Nat
  | 0, table => match s.judgeTable ctx table (vaIndex va 4) with
    | none | some 0x42 => [table + 8 * vaIndex va 4]
    | some _ => []
  | n + 1, table =>
    let i := vaIndex va (3 - n)
    match s.judgeTable ctx table i with
    | some c => if c = 0x42 then [table + 8 * i] else []
    | none =>
      let e : DWord := BitVec.ofNat 64 (s.physNat (table + 8 * i) 8)
      (table + 8 * i) :: (if !e.getLsbD 63 || interiorBad e then [] else s.walkReads ctx va n (e.toNat % 2 ^ 52 / 2 ^ 13 * 2 ^ 13))

/-- The table entries that the walk of a virtual address reads. -/
def State.walkOf (s : State) (ctx : Nat) (va : DWord) : List Nat :=
  if va.extractLsb' 56 8 != 0 then [] else s.walkReads ctx va 3 (s.ctx ctx).ptroot.toNat

/-- The sector accesses of a walk, counted by their controllers; an entry that fails its check leaves an integrity failure behind (R47, R158,
R333). -/
def State.walked (s : State) (ctx : Nat) (va : DWord) : State :=
  let es := s.walkOf ctx va
  let t := (es.filter fun pa => !s.portDown pa).foldl (fun (t : State) pa => t.account ctx (t.place pa) t.t7 false) s
  match es.getLast? with
  | some pa => if s.judgeTable ctx pa 0 = some 0x42 ∧ !s.isPoison pa then t.checkFailed ctx pa else t
  | none => t

/-- Whether the controllers can serve every sector that a walk reads: none waits for a refresh, a hot row or a test (R322, R329, R331). -/
def State.walkServable (s : State) (ctx : Nat) (va : DWord) : Bool := (s.walkOf ctx va).all fun pa => s.canServe (s.place pa)

/-- Serve a miss of the core TLB: from the cluster TLB, or by a walk that fills both TLBs. A miss of the cluster TLB counts event 0x06, also
when its walk fails (R58, R153). -/
def State.serveMiss (s : State) (ctx core : Nat) (va : DWord) (acc : Acc) (evictCore evictCluster : Nat) : Except (BitVec 7) Tr × State :=
  let k := cluOf core
  let fillCore := fun (s : State) (t : Tr) => s.modCore core fun c => { c with tlb := tlbAdd 64 evictCore ctx va t c.tlb }
  match tlbFind (s.cluster k).tlb ctx va with
  | some t =>
    match s.judgeTr ctx t acc with
    | .ok t => (.ok t, fillCore s t)
    | .error c => (.error c, s)
  | none =>
    let s := (s.pmc ctx 6 1).walked ctx va
    match s.walk ctx va acc with
    | .error c => (.error c, s)
    | .ok (_, t) => (.ok t, fillCore (s.modCluster k fun c => { c with tlb := tlbAdd 4096 evictCluster ctx va t c.tlb }) t)

/-- What a translation through the TLBs of a core leaves behind: a miss is served (R153). Which entries it replaces is not architectural. -/
def State.missed (s : State) (ctx core : Nat) (va : DWord) (acc : Acc) : State :=
  if va.extractLsb' 56 8 != 0 || (tlbFind (s.core core).tlb ctx va).isSome then s
  else
    let t := (s.serveMiss ctx core va acc (Config.pick s.fresh) (Config.pick (s.fresh + 1))).2
    { t with fresh := t.fresh + 2 }

/-- Remove the pages of a range from a TLB (R154). -/
def tlbCut (ctx vpn count : Nat) (tlb : List TlbEntry) : List TlbEntry :=
  (tlb.map fun e => if e.ctx = ctx then
      { e with pages := BitVec.ofNat 16 ((List.range 16).foldl (fun m i =>
          if e.pages.getLsbD i && !(vpn ≤ e.mib * 16 + i && e.mib * 16 + i < vpn + count) then m + 2 ^ i else m) 0) }
    else e).filter fun e => e.pages != 0

/-- The fields of a frame register (R150). -/
def fVbase (f : BitVec 192) : Nat := (f.extractLsb' 136 56).toNat
/-- PBASE. -/
def fPbase (f : BitVec 192) : Nat := (f.extractLsb' 84 52).toNat
/-- LIMIT. -/
def fLimit (f : BitVec 192) : Nat := (f.extractLsb' 63 21).toNat
/-- KEY. -/
def fKey (f : BitVec 192) : Nat := (f.extractLsb' 53 8).toNat
/-- WRITE. -/
def fWrite (f : BitVec 192) : Bool := f.getLsbD 52
/-- VALID. -/
def fValid (f : BitVec 192) : Bool := f.getLsbD 51

/-- A frame register from its fields (R150). -/
def mkFrame (vbase pbase limit tier key : Nat) (write : Bool) : BitVec 192 :=
  BitVec.ofNat 192 (vbase % 2 ^ 56 * 2 ^ 136 + pbase % 2 ^ 52 * 2 ^ 84 + limit % 2 ^ 21 * 2 ^ 63 + tier % 4 * 2 ^ 61
    + key % 256 * 2 ^ 53 + (if write then 2 ^ 52 else 0) + 2 ^ 51)

/-- The same register with another LIMIT. -/
def setLimit (f : BitVec 192) (limit : Nat) : BitVec 192 :=
  mkFrame (fVbase f) (fPbase f) limit (f.extractLsb' 61 2).toNat (fKey f) (fWrite f)

/-- The pages after the base's that continue its run inside the aligned 1 MiB (R150). -/
def State.runPages (s : State) (ctx : Nat) (t : Tr) (va : DWord) : Nat → Nat → Nat
  | 0, k => k
  | n + 1, k =>
    if (va.toNat / 65536 + k) % 16 = 0 then k
    else match s.walk ctx (BitVec.ofNat 64 ((va.toNat / 65536 + k) * 65536)) .read with
      | .ok (_, u) =>
        if u.frame = t.frame + k ∧ u.tier = t.tier ∧ u.key = t.key ∧ u.write = t.write ∧ !u.moving ∧ !u.rekey
        then s.runPages ctx t va n (k + 1) else k
      | .error _ => k

/-- LIMIT of a base in a translated page: the distance to the end of its run, 0 while the page moves (R150). -/
def State.runLimit (s : State) (ctx : Nat) (t : Tr) (va : DWord) : Nat :=
  if t.moving || t.rekey then 0 else s.runPages ctx t va 15 1 * 65536 - va.toNat % 65536

/-- The pages, counted from the base's, whose walks find the end of a run (R150). -/
def State.runSeen (s : State) (ctx : Nat) (t : Tr) (va : DWord) : List Nat :=
  (List.range (s.runPages ctx t va 15 1 + 1)).filter fun k => decide (1 ≤ k ∧ va.toNat / 65536 % 16 + k < 16)

/-- The walks by which the device finds the end of a run (R150, R158). -/
def State.runWalked (s : State) (ctx : Nat) (t : Tr) (va : DWord) : State :=
  if t.moving || t.rekey then s
  else (s.runSeen ctx t va).foldl (fun (s : State) k => s.walked ctx (BitVec.ofNat 64 ((va.toNat / 65536 + k) * 65536))) s

/-- Whether the tables of those walks can be read now. -/
def State.runServable (s : State) (ctx : Nat) (t : Tr) (va : DWord) : Bool :=
  t.moving || t.rekey || (s.runSeen ctx t va).all fun k => s.walkServable ctx (BitVec.ofNat 64 ((va.toNat / 65536 + k) * 65536))

/-- The register that FRAME writes (R275). -/
def State.frameOf (s : State) (ctx : Nat) (t : Tr) (va : DWord) : BitVec 192 :=
  mkFrame va.toNat (t.pa va) (s.runLimit ctx t va) t.tier t.key t.write

/-- LIMIT cut at the first page of a range that the run includes (R154). -/
def cutFrame (vpn count : Nat) (f : BitVec 192) : BitVec 192 :=
  if !fValid f then f
  else
    let vb := fVbase f
    let first := max vpn (vb / 65536)
    if first < vpn + count ∧ first * 65536 < vb + fLimit f then setLimit f (first * 65536 - vb) else f

/-- LIMIT computed afresh when a wave's state is restored (R155). -/
def State.refreshFrame (s : State) (ctx : Nat) (f : BitVec 192) : BitVec 192 :=
  if !fValid f then f
  else match s.walk ctx (BitVec.ofNat 64 (fVbase f)) .read with
    | .ok (_, t) => s.frameOf ctx t (BitVec.ofNat 64 (fVbase f))
    | .error _ => setLimit f 0

/-- The walks that computing a frame's LIMIT afresh takes are accesses as any other (R155, R158). -/
def State.refreshWalked (s : State) (ctx : Nat) (f : BitVec 192) : State :=
  let va : DWord := BitVec.ofNat 64 (fVbase f)
  if !fValid f then s
  else match s.walk ctx va .read with
    | .ok (_, t) => (s.walked ctx va).runWalked ctx t va
    | .error _ => s.walked ctx va

/-- What keeps a device engine from reading a sector of a translated page: a peer slot, to which only a wave's access is given a way (R184,
log 152), an expander that is not UP, poison, a failed tag check (R42, R161, R182). -/
def State.engineStop (s : State) (pa key : Nat) : Option (BitVec 7) :=
  if s.isPeer pa then some 0x74
  else if s.portDown pa then some 0x76
  else if s.isPoison pa then some 0x51
  else if s.tagBad pa key then some 0x40 else none

/-- The sectors of n bytes of virtual memory, by the address of their first byte. -/
def vaSectors (va : DWord) (n : Nat) : List DWord :=
  (List.range ((va.toNat % 32 + n + 31) / 32)).map fun k => BitVec.ofNat 64 ((va.toNat / 32 + k) * 32)

/-- The account of a device engine's access to n bytes of virtual memory: every sector counts, with the walk of every page, up to the one
that stops it (R47, R158, R333, log 69). -/
def State.virtAccount (s : State) (ctx : Nat) (va : DWord) (n : Nat) (isWrite : Bool) : State :=
  let next := fun (acc : State × Option Nat) (a : DWord) =>
    match acc.2 with
    | none => acc
    | some page =>
      let s := if page = a.toNat / 65536 then acc.1 else acc.1.walked ctx a
      match s.walk ctx a (if isWrite then .write else .read) with
      | .error _ => (s, none)
      | .ok (_, t) =>
        let whole := isWrite && decide (va.toNat ≤ a.toNat ∧ a.toNat + 32 ≤ va.toNat + n)
        match (s.engineStop (t.pa a) t.key).filter fun c => !(whole && (c == 0x51 || c == 0x40)) with
        | some c => (s.noteStop ctx (t.pa a) c, none)
        | none => (s.account ctx (s.place (t.pa a)) s.t7 isWrite, some (a.toNat / 65536))
  ((vaSectors va n).foldl next (s, some (2 ^ 64))).1

/-- The accounts of several accesses of an engine. -/
def State.readsAccount (s : State) (ctx : Nat) (rs : List (DWord × Nat)) : State := rs.foldl (fun (s : State) r => s.virtAccount ctx r.1 r.2 false) s

/-- Whether the controllers can serve every sector that such an access touches (R322, R329, R331). -/
def State.virtServable (s : State) (ctx : Nat) (va : DWord) (n : Nat) : Bool :=
  (vaSectors va n).all fun a => s.walkServable ctx a && match s.walk ctx a .read with
    | .ok (_, t) => s.canServe (s.place (t.pa a))
    | .error _ => true

/-- Whether they can serve several. -/
def State.readsServable (s : State) (ctx : Nat) (rs : List (DWord × Nat)) : Bool := rs.all fun r => s.virtServable ctx r.1 r.2

/-- Read n bytes of a context's virtual memory as a device engine does, every page translated as the read comes to it (R148). -/
def State.virtRead (s : State) (ctx : Nat) (va : DWord) (n : Nat) : Except (BitVec 7) (List Byte) :=
  let next := fun (acc : List Byte × Option (Nat × Tr)) (i : Nat) =>
    let a := va + BitVec.ofNat 64 i
    let tr : Except (BitVec 7) Tr :=
      match acc.2.filter fun e => e.1 == a.toNat / 65536 with
      | some e => .ok e.2
      | none => (s.walk ctx a .read).map (·.2)
    match tr with
    | .ok t => match (if i = 0 ∨ a.toNat % 32 = 0 then s.engineStop (t.pa a) t.key else none) with
      | some c => Except.error c
      | none => .ok (acc.1 ++ [s.physByte (t.pa a)], some (a.toNat / 65536, t))
    | .error c => .error c
  ((List.range n).foldlM next ([], none)).map (·.1)

/-- Write bytes of a context's virtual memory as a device engine does; nothing is written when a page fails, or when a sector cannot be
reached or a part of it cannot be merged (R47, R182). -/
def State.virtWrite (s : State) (ctx : Nat) (va : DWord) (bs : List Byte) : Except (BitVec 7) State :=
  let pages := ((List.range bs.length).map fun i => (va + BitVec.ofNat 64 i)).map fun a => (a, s.walk ctx a .write)
  match pages.findSome? fun p => match p.2 with | .error c => some c | .ok _ => none with
  | some c => .error c
  | none =>
    let cells := (pages.zip bs).filterMap fun p => match p.1.2 with | .ok (_, t) => some (t.pa p.1.1, t.key, p.2) | .error _ => none
    let secs := (cells.map fun c => (c.1 / 32, c.2.1)).eraseDups
    let stop := fun (e : Nat × Nat) => match s.engineStop (e.1 * 32) e.2 with
      | some 0x74 => some (0x74 : BitVec 7)
      | some 0x76 => some 0x76
      | some _ => if (cells.filter fun c => c.1 / 32 == e.1).length = 32 then none else some 0x41
      | none => none
    match secs.findSome? stop with
    | some c => .error c
    | none =>
      .ok (secs.foldl (fun s e =>
        s.sectorWrite e.1 e.2 ((cells.filter fun c => c.1 / 32 == e.1).map fun c => (c.1 % 32, c.2.2))) s)

end Sys2Proof.Machine
end

