-- ==== Sys2Proof/Machine/Report.lean ====
section
/-! DEFINITION. Reports: fault-queue records (R318), the team fault log (R320), and the messages that waves post to homes
for reference counts (R104, R108). -/

namespace Sys2Proof.Machine

/-- The 64 bytes of a record with its sequence number (R318). -/
def FRec.bytes (r : FRec) (seq : Nat) : List Byte :=
  leBytes 4 seq ++ leBytes 1 r.cause.toNat ++ leBytes 1 r.origin.toNat ++ leBytes 1 r.kind ++ leBytes 1 0
    ++ leBytes 4 r.fdom.toNat ++ leBytes 4 r.gridid.toNat ++ leBytes 2 r.core ++ leBytes 1 r.slot ++ leBytes 1 r.gen.toNat
    ++ leBytes 4 r.lanes.toNat ++ leBytes 8 r.pc.toNat ++ leBytes 8 r.addr.toNat ++ leBytes 8 r.detail.toNat
    ++ leBytes 8 r.time.toNat ++ leBytes 8 0

/-- A record that concerns no wave. -/
def State.plainRec (s : State) (cause : BitVec 7) (addr detail : DWord) : FRec :=
  ⟨cause, 0, 1, 0, 0, 0, 0, 0, 0, 0, addr, detail, BitVec.ofNat 64 s.ns, none⟩

/-- A record that concerns a wave (R318). -/
def State.waveRec (s : State) (wid : Nat) (cause origin : BitVec 7) (kind : Nat) (lanes : Word) (pc addr detail : DWord) : FRec :=
  let w := tfind s.waves wid
  let g := w.bind fun w => s.gridOf w.team
  ⟨cause, origin, kind, (match g with | some g => g.eff.fdom | none => 0), (match g with | some g => g.x5 | none => 0),
    wCore wid, wSlot wid, tget 0 (s.core (wCore wid)).gens (wSlot wid), lanes, pc, addr, detail, BitVec.ofNat 64 s.ns, none⟩

/-- Whether a context's fault queue is full (R318). -/
def Ctx.fqFull (c : Ctx) : Bool := (c.fqtail - c.fqhead).toNat == 2 ^ c.fqsize.toNat

/-- A saturating 32-bit count. -/
def satInc (x : Word) : Word := if x = BitVec.allOnes 32 then x else x + 1

/-- Write a record at its place in the queue, or in the Amber black box when it cannot be written (R318). -/
def State.writeRec (s : State) (n : Nat) (r : FRec) : State :=
  let c := s.ctx n
  let e := c.fqtail
  let at_ := c.fqbase + BitVec.ofNat 64 (64 * (e.toNat % 2 ^ c.fqsize.toNat))
  let s := s.virtAccount n at_ 64 true
  match s.virtWrite n at_ (r.bytes e.toNat) with
  | .ok s => (s.modCtx n fun c => { c with fqtail := e + 1 }).emit (.msix (n + 1) 1)
  | .error _ =>
    let b := r.bytes e.toNat
    (s.modCtx n fun c => { c with fqdrop := satInc c.fqdrop }).amberEvent r.cause.toNat 7 n
      (field b 4 8 + field b 24 8 * 2 ^ 64)

/-- Write a record; the wave of a parked fault learns whether it stands in the queue (R318, R319). -/
def State.writeTold (s : State) (n : Nat) (r : FRec) (wid : Nat) : State :=
  let t := s.writeRec n r
  if r.kind = 0 ∧ (t.ctx n).fqtail ≠ (s.ctx n).fqtail then
    t.modWave wid fun w => { w with park := w.park.map fun k => if k.gen = r.gen then { k with told := true } else k }
  else t

/-- Report to a context's fault queue. A parked-fault record that meets a full queue is held with its wave; any other is
dropped and counted (R318). -/
def State.report (s : State) (n : Nat) (r : FRec) (wid : Nat) : State :=
  let c := s.ctx n
  if c.fqFull || (r.kind == 0 && !c.held.isEmpty) then
    if r.kind = 0 then s.modCtx n fun c => { c with held := c.held ++ [(r, wid)] }
    else s.modCtx n fun c => { c with fqdrop := satInc c.fqdrop }
  else s.writeTold n r wid

/-- The context of a team. -/
def State.teamCtx (s : State) (t : Nat) : Nat := match s.gridOf t with | some g => g.ctx | none => 0

/-- A record delivered to the fault domain of a grid (R320). -/
def State.toDomain (s : State) (ctx : Nat) (r : FRec) : State := s.report ctx { r with kind := 3 } 0

/-- The coordinates of a team in its grid (R72). -/
def Grid.coords (g : Grid) (idx : Nat) : Nat × Nat × Nat :=
  let (gx, gy, _) := pkGrid g.packet
  (idx % gx, idx / gx % gy, idx / gx / gy)

/-- DETAIL of a record of KIND 3: the team's coordinates (R320). -/
def State.coordDetail (s : State) (t : Nat) : DWord :=
  match tfind s.teams t, s.gridOf t with
  | some x, some g => let (a, b, c) := g.coords x.idx; BitVec.ofNat 64 (a + b * 2 ^ 16 + c * 2 ^ 32)
  | _, _ => 0

/-- Report a fault of an asynchronous operation: into the team's log; a ninth record sends the oldest to the fault domain
(R131, R320). -/
def State.logFault (s : State) (t : Nat) (cause : BitVec 7) (addr : DWord) (bar : Option Nat) : State :=
  match tfind s.teams t, s.gridOf t with
  | some x, some g =>
    let r : FRec := ⟨cause, 0, 3, g.eff.fdom, g.x5, x.core, 0, 0, 0, 0, addr, s.coordDetail t, BitVec.ofNat 64 s.ns, bar⟩
    let log := x.log ++ [r]
    if log.length > 8 then
      (s.setTeam t { x with log := log.drop 1 }).toDomain g.ctx (log.headD r)
    else s.setTeam t { x with log := log }
  | _, _ => s

/-- The fields of a proxy word (R100). -/
def pxHome (w : Word) : Nat := (w.extractLsb' 28 4).toNat
/-- SLOT. -/
def pxSlot (w : Word) : Nat := (w.extractLsb' 5 23).toNat
/-- GEN. -/
def pxGen (w : Word) : Nat := (w.extractLsb' 0 5).toNat
/-- A proxy word. -/
def pxWord (h slot gen : Nat) : Word := BitVec.ofNat 32 (h * 2 ^ 28 + slot % 2 ^ 23 * 32 + gen % 32)
/-- A word that no instruction can form (R100). -/
def pxMalformed (w : Word) : Bool := pxHome w > 9 || pxSlot w ≥ homeSlots (pxHome w)

/-- Send a message to a home (R104). -/
def State.post (s : State) (wid home seq lane : Nat) (pc : DWord) (kind : HKind) (op : Option Nat) (rtag : Option Nat) : State :=
  let w := tfind s.waves wid
  let ctx := match w with | some w => w.ctx | none => 0
  let grid := match w.bind fun w => tfind s.teams w.team with | some t => t.grid | none => 0
  { s with homeq := s.homeq ++ [⟨s.nextId, home, wid, ctx, seq, lane, pc, kind, op, grid, rtag, s.t7, []⟩], nextId := s.nextId + 1 }

/-- Post the release of the reference that a lane holds (R108). -/
def State.dropRef (s : State) (wid seq lane : Nat) (pc : DWord) (op : Option Nat) (l : Lane) : State :=
  if l.tag && !pxMalformed l.w then s.post wid (pxHome l.w) seq lane pc (.count (pxSlot l.w) (pxGen l.w) (-1)) op none else s

/-- Post the release of every reference that the registers of a wave hold that stands in no slot (R108, R114). -/
def State.dropSaved (s : State) (ctx grid : Nat) (w : Wave) : State :=
  w.flush.v.foldl (fun (s : State) e =>
    if e.2.tag && !pxMalformed e.2.w then
      { s with homeq := s.homeq ++ [⟨s.nextId, pxHome e.2.w, 192 * 96, ctx, w.seq, e.1 % 32, 0, .count (pxSlot e.2.w) (pxGen e.2.w) (-1), none, grid,
                                     none, s.t7, []⟩], nextId := s.nextId + 1 }
    else s) s

/-- Post the release of every reference that a wave's registers hold (R108). -/
def State.dropAllRefs (s : State) (wid : Nat) : State :=
  match tfind s.waves wid with
  | some w => w.flush.v.foldl (fun s e => s.dropRef wid w.seq (e.1 % 32) 0 none e.2) s
  | none => s

end Sys2Proof.Machine
end

