-- ==== Sys2Proof/Machine/Ops.lean ====
section
/-! DEFINITION. The operations that instructions and events share: acquires and releases in waiting, taking a trap and
returning from one (R313 to R316), parking (R83), stopping a grid's waves (R78, R80). -/

namespace Sys2Proof.Machine

/-- Whether a request reads memory for an acquire to wait on (R266). -/
def isReadInstr : Instr → Bool
  | .ld .. | .lds .. | .sld .. | .ldx .. => true
  | .atom _ _ _ _ _ (.index _ _ _ nr _ _) | .atoms _ _ _ _ _ (.index _ _ _ nr _ _) => !nr
  | .atom .. | .atoms .. => true
  | _ => false

/-- Whether a request is an access that a release covers (R265). -/
def isCovered : Instr → Bool
  | .st .. | .sst .. | .atom .. | .atoms .. | .lds .. | .sts .. => true
  | .sld _ _ _ (.t _) _ => true
  | _ => false

/-- Whether a port operation is a TXWAIT or a TXTEST. -/
def PortOp.observes (p : PortOp) : Bool :=
  match p.what with
  | .tx (.wait _) | .tx (.test ..) => true
  | _ => false

/-- Whether a message to a home is a store or an atomic (R265). -/
def HomeItem.stores (h : HomeItem) : Bool :=
  match h.kind with
  | .store .. | .atom .. => true
  | _ => false

/-- Whether an acquire, or a TXWAIT or TXTEST that has not read its barrier, holds back an access of place `seq` (R266). -/
def State.acqBlocked (s : State) (wid seq : Nat) : Bool :=
  (match tfind s.waves wid with | some w => w.acqs.any fun a => a.seq < seq | none => false)
    || s.portq.any fun p => p.wid == wid && p.seq < seq && p.observes

/-- Whether a release of the wave holds back a write or atomic of place `seq` (R265). -/
def State.relBlocked (s : State) (wid seq : Nat) : Bool :=
  match tfind s.waves wid with | some w => w.rels.any fun r => r.seq ≤ seq | none => false

/-- Whether a covered access of the wave before place `seq` is not performed yet (R265). At system scope every store that a peer has not
acknowledged counts, whichever wave sent it: the wave may have read it through a synchronisation (R186, R354, log 163). -/
def State.uncovered (s : State) (wid seq : Nat) (scope : Scope) : Bool :=
  (match tfind s.waves wid with
    | some w => w.sb.any (fun e => e.bytes.any fun b => b.seq < seq) || w.reqs.any (fun r => r.seq < seq && isCovered r.instr)
        || w.rels.any fun r => r.seq < seq
    | none => false)
  || s.portq.any (fun p => p.wid == wid && p.seq < seq && !p.observes)
  || s.homeq.any (fun h => h.wid == wid && h.seq < seq && h.stores)
  || s.mxq.any (fun m => m.wid == wid && m.seq < seq && match m.instr with | .mread _ _ _ (.t _) _ _ => true | _ => false)
  || s.link.remotes.any (fun r => match r.what with
      | .store _ _ _ => scope == .sys
      | .piece _ _ _ => false
      | _ => false)

/-- Whether an acquire of the wave has completed (R266). -/
def State.acqDone (s : State) (wid : Nat) (w : Wave) (a : Acq) : Bool :=
  match a.loads with
  | some r => w.reqs.all fun q => q.id != r
  | none =>
    w.reqs.all (fun q => !(q.seq < a.seq && isReadInstr q.instr)) && w.rels.all (fun r => r.seq != a.seq)
      && s.homeops.all (fun o => !(o.wid == wid && o.seq < a.seq && o.isRead))
      && s.portq.all (fun p => !(p.wid == wid && p.seq < a.seq && match p.what with | .tx (.test ..) => true | _ => false))

/-- Complete the acquires whose reads have completed; their named counters fall (R276). -/
def State.settle (s : State) (wid : Nat) : State :=
  match tfind s.waves wid with
  | none => s
  | some w =>
    let done := w.acqs.filter (s.acqDone wid w)
    if done.isEmpty then s
    else s.setWave wid ((({ w with acqs := w.acqs.filter fun a => !s.acqDone wid w a } : Wave)).fall (done.flatMap (·.cnt)))

/-- Add a release at the place `seq` of a wave's issue order, issued by `lanes`. A release at wave scope completes when it issues
(R265). -/
def State.addRel (s : State) (wid : Nat) (scope : Scope) (seq : Nat) (cnt : List Nat) (cont : Cont) (split : Nat) (pc : DWord)
    (word : BitVec 96) (lanes : Word) : State :=
  if scope = .wave then s.modWave wid fun w => w.fall cnt
  else
    let r : Rel := ⟨s.nextId, seq, scope, cnt, cont, split, pc, word, lanes, none, s.t7⟩
    let s : State := { s with nextId := s.nextId + 1 }
    s.modWave wid fun w => { w with rels := w.rels ++ [r] }

/-- Stores and slots of an open region become ordinary ones (R220). -/
def State.closeRegion (s : State) (wid : Nat) : State :=
  let s := s.modWave wid fun w =>
    { w with region := none, reqs := w.reqs.map fun r => { r with rtag := none },
             sb := w.sb.map fun e => { e with bytes := e.bytes.map fun b => { b with rtag := none } } }
  { s with homes := s.homes.map (fun h => (h.1, { h.2 with slots := h.2.slots.map fun e =>
             (e.1, match e.2.rtag with | some (x, _) => if x = wid then { e.2 with rtag := none } else e.2 | none => e.2) })),
           homeq := s.homeq.map fun i => if i.wid = wid then { i with rtag := none } else i }

/-- A chain closes: the commands of it that still stand learn the number at which it closed (R296, R297). -/
def State.closeChain (s : State) (chain : Nat) : State :=
  { s with nextId := s.nextId + 1, mxq := s.mxq.map fun m => if m.chain = chain then { m with fin := some s.nextId } else m }

/-- Whether a pre-empted wave's work is recorded: what it has outstanding waits as replay packets (R96). -/
def Wave.frozen (w : Wave) : Bool := (w.stat == .halted || w.stat == .discarded) && !w.halting

/-- Advance the generation tag of a wave's slot, past every tag that a request under way bears (R96). -/
def State.nextGen (s : State) (wid : Nat) : State :=
  let busy := fun (g : BitVec 8) => s.link.remotes.any fun r => r.wid == wid && r.gen == g
  s.modCore (wCore wid) fun k =>
    let now := tget 0 k.gens (wSlot wid)
    let next := ((List.range 255).map fun n => now + 1 + BitVec.ofNat 8 n).find? fun g => !busy g
    { k with gens := tset 0 k.gens (wSlot wid) (next.getD (now + 1)) }

/-- Remote requests whose reply is no longer wanted: it is dropped when it comes (R96). -/
def State.dropReads (s : State) (which : Remote → Bool) : State :=
  { s with link := { s.link with remotes := s.link.remotes.map fun r => if which r then { r with what := .dropped } else r } }

/-- What a wave of a draining grid leaves of a request that it has issued: an atomic, but for the lanes that wait for a replay, and a store that
a release covers (R78, R96). -/
def Wave.leftOf (w : Wave) (r : Req) : Option Req :=
  let atomic := match r.instr with | .atom .. | .atoms .. => true | _ => false
  let parked := w.park.any fun k => k.req == some r.id
  if !atomic && !(isCovered r.instr && w.rels.any fun x => decide (r.seq < x.seq)) then none
  else
    let gone := fun (p : Piece) => match p.st with
      | .remote | .failed _ => true
      | .untranslated => parked
      | _ => false
    let x : Req := { r with cnt := [], pieces := r.pieces.map fun p => if gone p then { p with st := .done } else p }
    if x.pieces.all fun p => p.st == .done then none else some x

/-- Stop a wave of a grid that drains: nothing of it issues again, the stores that no release covers are dropped, its slots are released as at
exit. Atomics and posted operations that it has issued are performed, an accepted forest operation ends, and stores that a release
covers become visible; everything else that it has under way is dropped (R78, R96, R114, log 159). -/
def State.stopWave (s : State) (wid : Nat) : State :=
  match tfind s.waves wid with
  | none => s
  | some w =>
    if w.stat = .exited then s
    else
      let covered := fun (seq : Nat) => w.rels.any fun r => decide (seq < r.seq)
      let s := (s.dropAllRefs wid).dropReads fun r => r.wid == wid && match r.what with | .piece .. | .store .. | .fetch .. => true | _ => false
      let s := s.nextGen wid
      let left := w.reqs.filterMap w.leftOf
      let sb := (w.sb.map fun e => { e with bytes := e.bytes.filter fun b => covered b.seq }).filter fun e => !e.bytes.isEmpty
      let s := s.setWave wid { w with stat := .exited, v := [], splits := [], stack := [], spilled := 0, handler := none, heldTraps := [],
                                      halting := false, region := none, chain := none, park := none, pend := [], reqs := left, sb := sb,
                                      rels := w.rels.map fun r => { r with cnt := [], cont := .nothing }, acqs := [], exiting := false }
      let goes := fun (p : PortOp) => match p.what with | .piece req _ => left.any fun r => r.id == req | .tx _ => false
      { s with portq := s.portq.filter (fun p => p.wid != wid || goes p), mxq := s.mxq.filter (fun m => m.wid != wid),
               forestq := s.forestq.filter (fun f => f.wid != wid || f.phase != 0), homeops := s.homeops.filter (fun o => o.wid != wid),
               homeq := s.homeq.filter fun h => h.wid != wid || !h.stores || covered h.seq || match h.kind with | .atom .. => true | _ => false }

/-- The waves of a team in their slots. -/
def State.teamWaves (s : State) (t : Nat) : List Nat := (s.waves.filter fun e => e.2.team == t).map (·.1)

/-- The teams of a grid. -/
def State.gridTeams (s : State) (g : Nat) : List Nat := (s.teams.filter fun e => e.2.grid == g).map (·.1)

/-- The waves of a team that stands nowhere give up their slots: messages of theirs that still stand execute at their homes, then the
references of their registers are released (R96, R114). -/
def State.freeSaved (s : State) (ctx tid : Nat) : State :=
  match tfind s.teams tid with
  | none => s
  | some t =>
    let s1 : State := { s with homeq := s.homeq ++ (t.kept.homes.filter fun h => !h.2.stores).map fun h => { h.2 with wid := 192 * 96, op := none } }
    t.saved.foldl (fun (s : State) e => s.dropSaved ctx t.grid e.2) s1

/-- A grid goes to DRAINING (R78): its waves stop, its copies stop at chunk boundaries, the children still queued are
discarded. -/
def State.drainGrid (s : State) (g : Nat) : State :=
  match tfind s.grids g with
  | none => s
  | some x =>
    if x.stat = .admitted ∨ x.stat = .running ∨ x.stat = .held then
      let s := s.setGrid g { x with stat := .draining, fault := true }
      let ts := s.gridTeams g
      let s := ts.foldl (fun s t => (s.teamWaves t).foldl State.stopWave s) s
      let s := ts.foldl (fun s t => s.freeSaved x.ctx t) s
      let s := ts.foldl (fun s t => s.modTeam t fun y =>
        { y with stopped := true, issued := [], tmq := [], saved := [], kept := { y.kept with ports := [], homes := [], ops := [], forest := [], mx := [] },
                 tail := y.taken,
                 active := y.active.map fun a => { a with stop := true } }) s
      s.modCtx x.ctx fun c => { c with queues := c.queues.map fun q => (q.1, q.2.filter fun p => p.2 != g) }
    else s

/-- A trap that finds no handler (R80, R313): a record of kind 2, and the grid goes to DRAINING. -/
def State.unrecovered (s : State) (wid : Nat) (t : TrapInfo) (detail : DWord) : State :=
  match tfind s.waves wid with
  | none => s
  | some w =>
    let g := match tfind s.teams w.team with | some x => x.grid | none => 0
    (s.report w.ctx (s.waveRec wid t.cause t.origin 2 t.lanes t.pc t.addr detail) wid).drainGrid g

/-- Whether a non-zero TRAPH is no handler address (R313). -/
def badTraph (a : DWord) : Bool := a.extractLsb' 0 2 != 0 || a.extractLsb' 56 8 != 0

/-- Enter the handler (R313, R314): the region closes first (R221), every other split is held, the trap registers are
written, the trapping split goes to TRAPH with its whole mask. -/
def State.enterHandler (s : State) (wid : Nat) (t : TrapInfo) (traph : DWord) : State :=
  let inRegion := match tfind s.waves wid with | some w => w.region.isSome | none => false
  let s := if inRegion then s.closeRegion wid else s
  s.modWave wid fun w =>
    let sp := w.split t.split
    let w := { w with splits := w.splits.map fun (e : Nat × Split) => (e.1, { e.2 with trapHeld := true }),
                      handler := some ⟨t.split, sp.mask, w.depth⟩ }
    let tpc := if t.after then t.pc + 12 else t.pc
    let xs : List (Nat × Word) :=
      [(32, t.cause.setWidth 32 ||| (t.origin.setWidth 32 <<< 8) ||| (if inRegion then 0x10000 else 0)),
       (33, tpc.extractLsb' 0 32), (34, (tpc.extractLsb' 32 24).setWidth 32), (35, t.addr.extractLsb' 0 32),
       (36, t.addr.extractLsb' 32 32), (37, t.arg), (38, t.lanes), (39, sp.mask), (40, t.word.extractLsb' 0 32),
       (41, t.word.extractLsb' 32 32), (42, t.word.extractLsb' 64 32), (43, BitVec.ofNat 32 t.split)]
    let w := xs.foldl (fun w e => w.setX e.1 e.2) w
    w.setSplit t.split { sp with pc := traph, joinHeld := false, trapHeld := false, waitOn := none, filling := false }

/-- The record that a TXWAIT's trap names: the oldest of the team's log with the txbar that `arg` holds until entry. Entry removes it, and
takes its cause and address (R139, R320). -/
def State.takeRecord (s : State) (wid : Nat) (t : TrapInfo) : State × TrapInfo :=
  if t.cause ≠ 0x6F then (s, t)
  else match (tfind s.waves wid).bind fun w => (tfind s.teams w.team).map fun x => (w.team, x) with
    | none => (s, { t with arg := 0 })
    | some (tid, x) =>
      match x.log.find? fun r => r.bar == some t.arg.toNat with
      | some r => (s.setTeam tid { x with log := x.log.erase r }, { t with arg := r.cause.setWidth 32, addr := r.addr })
      | none => (s, { t with arg := 0 })

/-- The report to the fault domain of a trap whose split has ended (R85, R185, log 120). -/
def State.lostTrap (s : State) (wid : Nat) (w : Wave) (t : TrapInfo) : State :=
  s.toDomain w.ctx (s.waveRec wid t.cause t.origin 3 t.lanes t.pc t.addr (s.coordDetail w.team))

/-- Whether a split still waits at the instruction that raised a trap, nothing of which has taken effect. -/
def Wave.standsAt (w : Wave) (t : TrapInfo) : Bool :=
  let p := w.split t.split
  !t.after && p.live && p.waitOn.isSome && p.pc == t.pc + 12

/-- A split's instruction counts as not issued: the split stands at it again (R316). -/
def Wave.reissue (w : Wave) (t : TrapInfo) : Wave := w.modSplit t.split fun p => { p with pc := t.pc, waitOn := none }

/-- Hold a trap: behind those raised in earlier clocks, and in one clock by the number of its split. Where the wave could take it, the
instructions of the higher splits that trap in the same clock count as not issued (R316, log 149). -/
def Wave.hold (w : Wave) (clk : Nat) (t : TrapInfo) : Wave :=
  let free := w.stat == .ready && w.handler.isNone
  let after := fun (e : Nat × TrapInfo) => e.1 == clk && decide (t.split < e.2.split)
  if free && w.heldTraps.any (fun e => e.1 == clk && decide (e.2.split < t.split)) && w.standsAt t then w.reissue t
  else
    let lost := fun (e : Nat × TrapInfo) => free && after e && w.standsAt e.2
    let x := (w.heldTraps.filter lost).foldl (fun (w : Wave) e => w.reissue e.2) w
    let rest := w.heldTraps.filter fun e => !lost e
    { x with heldTraps := rest.filter (fun e => !after e) ++ (clk, t) :: rest.filter after }

/-- Take a trap: the one operation of every trap of the device (R313, R316). A trap of a wave that is not READY, or of a split
that a handler holds, is held; a trap of a handler split, or with no valid handler, is unrecovered; one of a split that has ended is
reported to the fault domain. -/
def State.takeTrap (s : State) (wid : Nat) (t : TrapInfo) : State :=
  match tfind s.waves wid with
  | none => s
  | some w =>
    if w.stat = .exited then s
    else if w.stat ≠ .ready ∨ (w.split t.split).trapHeld then s.setWave wid (w.hold (s.clk (wCore wid)) t)
    else if !(w.split t.split).live then s.lostTrap wid w t
    else
      let traph := match s.gridOf w.team with | some g => g.eff.traph | none => 0
      if w.handler.isSome ∨ traph = 0 then s.unrecovered wid t 0
      else if badTraph traph then s.unrecovered wid t 5
      else (s.takeRecord wid t).1.enterHandler wid (s.takeRecord wid t).2 traph

/-- Raise a trap of an operation that has issued: it is taken before the wave issues again, so that the lowest split of those that trap in
one clock is the one whose trap is taken (R316). A trap of a handler split is unrecovered at once. -/
def State.raiseTrap (s : State) (wid : Nat) (t : TrapInfo) : State :=
  match tfind s.waves wid with
  | none => s
  | some w =>
    if w.stat = .exited then s
    else if w.stat = .ready ∧ w.handler.isSome ∧ !(w.split t.split).trapHeld then s.takeTrap wid t
    else s.setWave wid (w.hold (s.clk (wCore wid)) t)

/-- Whether a held trap is due: the wave is READY, out of its handler (R316). -/
def Wave.trapDue (w : Wave) : Option TrapInfo :=
  if w.stat = .ready ∧ w.handler.isNone then w.heldTraps.head?.map (·.2) else none

/-- Take the oldest held trap of a wave that is READY and out of its handler (R316). -/
def State.takeHeld (s : State) (wid : Nat) : State :=
  match tfind s.waves wid with
  | none => s
  | some w =>
    match w.trapDue with
    | some t => (s.setWave wid { w with heldTraps := w.heldTraps.drop 1 }).takeTrap wid t
    | none => s

/-- Splits of a wave change their number in everything that waits on their behalf: 4 stands for a split that has ended (R87, R313). -/
def State.renumber (s : State) (wid old new : Nat) : State :=
  let f := fun k : Nat => if k = old then new else k
  let s := s.modWave wid fun w =>
    { w with reqs := w.reqs.map (fun r => { r with split := f r.split }), rels := w.rels.map (fun r => { r with split := f r.split }),
             park := w.park.map (fun k => { k with split := f k.split }),
             heldTraps := w.heldTraps.map fun e => (e.1, { e.2 with split := f e.2.split }) }
  { s with portq := s.portq.map (fun p => if p.wid = wid then { p with split := f p.split } else p),
           homeops := s.homeops.map (fun o => if o.wid = wid then { o with split := f o.split } else o),
           mxq := s.mxq.map (fun m => if m.wid = wid then { m with split := f m.split } else m),
           forestq := s.forestq.map fun o => if o.wid = wid then { o with split := f o.split } else o }

/-- Return from the handler (R315): the handler's splits end, entries pushed since entry are discarded, the trapping split
resumes with TMASK at the trap program counter, the held splits issue again. -/
def Wave.leaveHandler (w : Wave) (h : HandlerRec) : Wave :=
  let pc : DWord := (w.xreg 34).setWidth 64 <<< 32 ||| (w.xreg 33).setWidth 64
  let ours := w.split h.split
  let rest := (w.splits.filter fun e => e.2.trapHeld && e.1 != h.split).map fun e => (e.1, { e.2 with trapHeld := false })
  let extra := w.depth - h.depth
  let w := { w with splits := rest, handler := none, stack := w.stack.drop extra,
                    spilled := w.spilled - (extra - min extra w.stack.length) }
  w.setSplit h.split ⟨true, pc, w.xreg 39, ours.prev, 0, false, false, none, false⟩

/-- Whether an instruction makes one access for all its lanes: FRAME, and a forest instruction of its descriptor. -/
def isUniform : Instr → Bool
  | .frame .. | .finit .. | .unite .. | .find .. | .relabel .. | .fsnap .. | .fundo .. | .fcommit .. | .fstat .. => true
  | _ => false

/-- The lanes of a request that are not finished. -/
def Req.unfinished (r : Req) : Word := if isUniform r.instr then r.mask else maskOf fun i => r.pieces.any fun p => p.lane == i && p.st != .done

/-- A request whose wave parks or halts: every unfinished lane is translated again from its virtual address (R148). The pieces of a QPUT
are all read again (R307). -/
def Req.parked (r : Req) : Req :=
  let whole := match r.instr with | .qput .. => true | _ => false
  { r with pieces := r.pieces.map fun p =>
      match p.st, p.loc with
      | .ready, .mem _ _ | .failed _, _ => { p with st := .untranslated, loc := .va p.va }
      | .served, .mem _ _ | .done, .mem _ _ | .remote, .mem _ _ => if whole then { p with st := .untranslated, loc := .va p.va, data := [] } else p
      | _, _ => p }

/-- Whether a lane of a request is one that its wave is parked for. -/
def Wave.parkedLane (w : Wave) (req lane : Nat) : Bool := w.park.any fun k => k.req == some req && k.lanes.getLsbD lane

/-- The cause of a piece that has failed. -/
def Piece.failure (p : Piece) : Option (BitVec 7) := match p.st with | .failed c => some c | _ => none

/-- Whether a cause is one that the device itself delivers as a trap (R185, R319). -/
def selfDelivered (c : BitVec 7) : Bool := c == 0x70 || c == 0x71

/-- A request of a wave that is parked no longer: what has failed meanwhile is translated again, but for a remote access that has ended
in a fault (R148, R185). -/
def Req.retry (r : Req) : Req :=
  { r with pieces := r.pieces.map fun p => if p.failure.any fun c => !selfDelivered c then { p with st := .untranslated, loc := .va p.va } else p }

/-- A wave is parked no longer (R83, R319). -/
def Wave.unpark (w : Wave) : Wave := { w with stat := .ready, park := none, reqs := w.reqs.map Req.retry }

/-- The replies to the sectors of a QPUT that is to be read again are dropped when they come (R307). -/
def State.dropWhole (s : State) (wid : Nat) (req : Option Nat) : State :=
  let gone : Remote → Bool := fun x => match x.what with
    | .piece w id _ => w == wid && some id == req && (tfind s.waves wid).any fun w => w.reqs.any fun r => r.id == id && (match r.instr with | .qput .. => true | _ => false)
    | _ => false
  { s with link := { s.link with remotes := s.link.remotes.map fun x => if gone x then { x with what := RemoteWhat.dropped } else x } }

/-- Park a wave at an instruction with its unfinished lanes and report it (R83, R148, R318). A HALTED wave stays HALTED, and is parked once
it is resumed (R83). -/
def State.parkAt (s : State) (wid : Nat) (cause : BitVec 7) (split : Nat) (pc : DWord) (lanes : Word) (addr : DWord)
    (req : Option Nat) (word : BitVec 96) : State :=
  match tfind s.waves wid with
  | none => s
  | some w =>
    let s := s.takeHeld wid
    if (tfind s.waves wid).any fun x => x.stat == .exited then s
    else
    let gen := tget 0 (s.core (wCore wid)).gens (wSlot wid)
    let k : Park := ⟨cause, 0, split, pc, lanes, addr, req, word, gen, false⟩
    let s := (s.dropWhole wid req).modWave wid fun w =>
      { w with stat := if w.stat = .halted then .halted else .parked, park := some k, reqs := w.reqs.map fun r => if some r.id = req then r.parked else r }
    s.report w.ctx (s.waveRec wid cause 0 0 lanes pc addr 0) wid

/-- Remove a request. -/
def Wave.dropReq (w : Wave) (id : Nat) : Wave := { w with reqs := w.reqs.filter fun r => r.id != id }

/-- Replace a request. -/
def Wave.setReq (w : Wave) (r : Req) : Wave := { w with reqs := w.reqs.map fun q => if q.id = r.id then r else q }

/-- A request of a wave. -/
def Wave.req (w : Wave) (id : Nat) : Option Req := w.reqs.find? fun r => r.id == id

/-- Free the splits that wait for an operation. -/
def Wave.wake (w : Wave) (id : Nat) : Wave :=
  { w with splits := w.splits.map fun e => (e.1, if e.2.waitOn = some id then { e.2 with waitOn := none } else e.2) }

end Sys2Proof.Machine
end

