-- ==== Sys2Proof/Machine/Operands.lean ====
section
/-! DEFINITION. Every operand form: what an instruction reads of its wave at issue, early reads included (R92, R193, R194),
the lanes that participate, memory operands (R201), and the registers that an instruction writes (R219). -/

namespace Sys2Proof.Machine

/-- What an instruction sees when it issues: its wave, its team and grid, its address and word, the active mask of its split,
its participants and its place in the wave's issue order. `cnt` are the counters that it raises. -/
structure Iss where
  wid   : Nat
  split : Nat
  w     : Wave
  team  : Team
  grid  : Grid
  clk   : Nat
  fresh : Nat
  pc    : DWord
  word  : BitVec 96
  mask  : Word
  part  : Word
  seq   : Nat
  cnt   : List Nat
  rtag  : Option Nat
  deriving DecidableEq, Repr

/-- A number for each target, under which an early read of it chooses. -/
def Target.key : Target → Nat
  | .v r l => r * 32 + l
  | .p i l => 8192 + i * 32 + l
  | .s i => 8448 + i
  | .q i => 8704 + i

/-- What a reader at issue sees of a target: the stored value, or one that is still to be written (R92). -/
def Wave.seen (w : Wave) (fresh : Nat) (t : Target) : Nat :=
  match w.pending t with
  | [] => w.stored t
  | p :: ps => (p :: ps).getD (Config.earlyPick (fresh + t.key) % (ps.length + 2)) (w.stored t)

/-- A vector register lane as a reader sees it, with the tag that goes with it (R92, R99). -/
def Wave.seenLane (w : Wave) (fresh reg l : Nat) : Lane := natLane (w.seen fresh (.v reg l))

/-- A predicate's bit of a lane; p7 reads true (R194). -/
def Wave.seenPred (w : Wave) (fresh i l : Nat) : Bool := i == 7 || w.seen fresh (.p i l) % 2 == 1

/-- The lanes of a mask in which the guard holds (R193). -/
def Wave.guardMask (w : Wave) (fresh : Nat) (h : Hints) (mask : Word) : Word :=
  maskOf fun l => mask.getLsbD l && (w.seenPred fresh h.guard.toNat l != h.gneg)

/-- An s register. -/
def Iss.sreg (q : Iss) (i : Nat) : Word := BitVec.ofNat 32 (q.w.seen q.fresh (.s i))

/-- An s pair, low word in the even register (R19). -/
def Iss.sreg64 (q : Iss) (i : Nat) : DWord := (q.sreg (i + 1)).setWidth 64 <<< 32 ||| (q.sreg i).setWidth 64

/-- A vector register lane. -/
def Iss.vlane (q : Iss) (reg l : Nat) : Lane := q.w.seenLane q.fresh reg l

/-- `src(X, i)` of a source operand (R194, R195). -/
def Iss.src (q : Iss) (o : Opd) (l : Nat) : Lane :=
  match o with
  | .v i => q.vlane i.toNat l
  | .s i => ⟨false, q.sreg i.toNat⟩
  | _ => Lane.zero

/-- `src(B, i)`, or the literal (R198). -/
def Iss.srcB (q : Iss) (b : SrcB) (l : Nat) : Lane :=
  match b with
  | .reg o => q.src o l
  | .lit w => ⟨false, w⟩

/-- A uniform source: an s register, or 0 for class none. -/
def Iss.uni (q : Iss) (o : Opd) : Word := match o with | .s i => q.sreg i.toNat | _ => 0

/-- A uniform source B, or the literal. -/
def Iss.uniB (q : Iss) (b : SrcB) : Word := match b with | .reg o => q.uni o | .lit w => w

/-- A uniform 64-bit source: an s pair, or 0. -/
def Iss.uni64 (q : Iss) (o : Opd) : DWord := match o with | .s i => q.sreg64 i.toNat | _ => 0

/-- A 64-bit source of a lane: a v pair or an s pair (R237). -/
def Iss.src64 (q : Iss) (o : Opd) (l : Nat) : DWord :=
  match o with
  | .v i => ((q.vlane (i.toNat + 1) l).w.setWidth 64 <<< 32) ||| (q.vlane i.toNat l).w.setWidth 64
  | o => q.uni64 o

/-- A predicate source; class none reads false (R194). -/
def Iss.pred (q : Iss) (o : Opd) (l : Nat) : Bool := match o with | .p i => q.w.seenPred q.fresh i.toNat l | _ => false

/-- The register that a tagged lane can stand in: the lanes of a v operand. -/
def Iss.taggedAt (q : Iss) (o : Opd) (l : Nat) : Bool := (q.src o l).tag

/-- The participants, ascending. -/
def Iss.lanes (q : Iss) : List Nat := lanesOf q.part

/-- The offset form and the index form of a memory operand: the lane's index word and what is added to it (R201). -/
def Iss.index (q : Iss) (m : Mem) (l : Nat) : Lane :=
  match m with
  | .index _ _ _ _ i _ => q.src i l
  | .offset _ => Lane.zero

/-- log2 of the factor of the index. -/
def memScale : Mem → Nat
  | .index sc _ _ _ _ _ => sc.toNat
  | .offset _ => 0

/-- The constant part of an offset. -/
def memAdd : Mem → DWord
  | .index _ _ _ _ _ off => off.signExtend 64
  | .offset w => w.signExtend 64

/-- The order of a memory operand (R202). -/
def memOrder : Mem → Order
  | .index _ o _ _ _ _ => o
  | .offset _ => .plain

/-- The scope of a memory operand (R202). -/
def memScope : Mem → Scope
  | .index _ _ sc _ _ _ => sc
  | .offset _ => .wave

/-- NR of a memory operand (R273). -/
def memNr : Mem → Bool
  | .index _ _ _ nr _ _ => nr
  | .offset _ => false

/-- Whether an order acquires. -/
def orderAcq : Order → Bool
  | .acq | .ar => true
  | _ => false

/-- Whether an order releases. -/
def orderRel : Order → Bool
  | .rel | .ar => true
  | _ => false

/-- `offset(i)` from the index word (R201), as a 64-bit two's-complement value. -/
def memOffset (m : Mem) (idx : Word) : DWord := (idx.signExtend 64 <<< memScale m) + memAdd m

/-- Bytes of an access (R201). -/
def widthBytes : Width → Nat
  | .w32 => 4
  | .u8 | .s8 => 1
  | .u16 | .s16 => 2
  | .w64 => 8
  | .w128 => 16

/-- Registers of an access. -/
def widthRegs (w : Width) : Nat := (widthBytes w + 3) / 4

/-- The words that a load writes from its bytes (R201). -/
def loadWords (w : Width) (bs : List Byte) : List Word :=
  match w with
  | .w32 | .w64 | .w128 => (List.range (widthRegs w)).map fun k => BitVec.ofNat 32 (field bs (4 * k) 4)
  | .u8 => [BitVec.ofNat 32 (field bs 0 1)]
  | .s8 => [(BitVec.ofNat 8 (field bs 0 1)).signExtend 32]
  | .u16 => [BitVec.ofNat 32 (field bs 0 2)]
  | .s16 => [(BitVec.ofNat 16 (field bs 0 2)).signExtend 32]

/-- The bytes that a store takes from its data words (R270). -/
def storeBytes (w : Width) (ds : List Word) : List Byte := (ds.flatMap fun d => leBytes 4 d.toNat).take (widthBytes w)

/-- The index of an operand as a number. -/
def opdIdx (o : Opd) : Nat := o.idx.toNat

/-- Whether an operand is a vector register. -/
def isVOpd : Opd → Bool
  | .v _ => true
  | _ => false

/-- Whether an operand is a tile. -/
def isTOpd : Opd → Bool
  | .t _ => true
  | _ => false

/-- The destination registers of an instruction among v and s: its operand and how many registers it writes (R219). -/
def destOf : Instr → Option (Opd × Nat)
  | .call _ d _ => some (d, 2)
  | .elect _ d | .vote _ _ d _ => some (d, 1)
  | .iadd _ _ d _ _ | .isub _ _ d _ _ | .imul _ d _ _ | .imulh _ _ d _ _ | .imad _ d _ _ _ | .idiv _ _ d _ _
  | .irem _ _ d _ _ | .imin _ _ d _ _ | .imax _ _ d _ _ | .iabs _ _ d _ | .and _ d _ _ | .or _ d _ _ | .xor _ d _ _
  | .shl _ d _ _ | .shr _ d _ _ | .sar _ d _ _ | .rotl _ d _ _ | .bfe _ _ d _ _ | .bfi _ d _ _ _ | .popc _ d _ | .clz _ d _
  | .brev _ d _ | .sel _ _ _ d _ _ | .mov _ d _ | .iadd2 _ _ d _ _ | .isub2 _ _ d _ _ | .imin2 _ _ d _ _
  | .imax2 _ _ d _ _ => some (d, 1)
  | .lea _ _ _ d _ _ => some (d, 2)
  | .fadd _ _ d _ _ | .fsub _ _ d _ _ | .fmul _ _ d _ _ | .ffma _ _ d _ _ _ | .fmin _ d _ _ | .fmax _ d _ _ | .frcp _ _ d _
  | .frsq _ d _ | .fsqrt _ _ d _ | .fexp2 _ d _ | .flog2 _ d _ | .fsin _ d _ | .fcos _ d _ | .hadd2 _ _ _ d _ _
  | .hmul2 _ _ _ d _ _ | .hfma2 _ _ _ d _ _ _ | .f2i _ _ _ d _ | .i2f _ _ _ d _ | .cvt _ _ _ _ _ _ d _
  | .fclass _ d _ => some (d, 1)
  | .quant _ _ d _ => some (d, 5)
  | .sadd _ d _ _ | .ssub _ d _ _ | .smul _ d _ _ | .sand _ d _ _ | .sor _ d _ _ | .sxor _ d _ _ | .sshl _ d _ _
  | .sshr _ _ d _ _ | .scmp _ _ _ d _ _ | .smin _ _ d _ _ | .smax _ _ d _ _ | .vread _ d _ _ | .vwrite _ _ d _ _
  | .perm _ d _ _ | .bcast _ d _ _ => some (d, 1)
  | .smov _ w64 d _ => some (d, if w64 then 2 else 1)
  | .sld _ w d _ _ | .ld _ w d _ _ | .lds _ w d _ _ => some (d, widthRegs w)
  | .atom _ _ w64 d _ m | .atoms _ _ w64 d _ m => if memNr m then none else some (d, if w64 then 2 else 1)
  | .ldx _ d _ _ | .mat _ d _ | .pxrel _ d => some (d, 1)
  | .tstat _ d _ | .txtest _ d _ _ => some (d, 4)
  | .mread _ _ _ d _ _ | .mrowred _ _ d _ => some (d, 1)
  | .find _ _ d _ _ => some (d, 1)
  | .fstat _ d _ | .time _ d | .clock _ d => some (d, 2)
  | .gets _ d _ | .wopen _ d _ _ => some (d, 1)
  | _ => none

/-- Whether a range of registers meets the live-ins of a region (R218, R219): VFIRST, VCOUNT, SFIRST, SCOUNT. -/
def meetsLive (lives : Word) (o : Opd) (n : Nat) : Bool :=
  let within := fun (i first count : Nat) => decide (i < first + count ∧ first < i + n)
  match o with
  | .v i => within i.toNat (lives.extractLsb' 24 8).toNat (lives.extractLsb' 16 8).toNat
  | .s i => within i.toNat (lives.extractLsb' 8 8).toNat (lives.extractLsb' 0 8).toNat
  | _ => false

/-- Whether an instruction would write a live-in register (R219). -/
def writesLive (lives : Word) (i : Instr) : Bool :=
  match destOf i with
  | some (o, n) => meetsLive lives o n
  | none => false

/-- The order of an instruction's memory operand. -/
def instrOrder : Instr → Order
  | .ld _ _ _ _ m | .st _ _ _ _ m | .lds _ _ _ _ m | .sts _ _ _ _ m | .atom _ _ _ _ _ m | .atoms _ _ _ _ _ m
  | .sld _ _ _ _ m | .sst _ _ _ _ m | .ldx _ _ _ m => memOrder m
  | _ => .plain

/-- The instructions that a region does not permit (R219). -/
def regionForbids (i : Instr) : Bool :=
  match i with
  | .pub .. | .fence .. | .atom .. | .atoms .. | .copy .. | .tmov .. | .txarrive .. | .cbar .. | .finit .. | .unite ..
  | .find .. | .relabel .. | .fsnap .. | .fundo .. | .fcommit .. | .fstat .. | .qput .. | .wopen .. | .wclose .. | .tlbinv ..
  | .mloadb .. | .mma .. | .mzero .. | .mwrite .. | .mscale .. | .mrowred .. | .exit .. | .region .. => true
  | i => orderRel (instrOrder i)

/-- The trap-handler check (R208): RETT, and SETS to a trap register. -/
def needsHandler : Instr → Bool
  | .rett _ => true
  | .sets _ (.x i) _ => 32 ≤ i.toNat && i.toNat ≤ 47
  | _ => false

/-- The tiles that an instruction names (R91 item 4, R124). -/
def tilesOf (i : Instr) : List Opd :=
  (match i with
  | .sld _ _ _ a _ | .sst _ _ _ a _ | .lds _ _ _ a _ | .sts _ _ _ a _ | .atoms _ _ _ _ a _ => [a]
  | .copy _ _ _ d a _ _ | .tmov _ d a _ => [d, a]
  | .tdef _ d _ | .tfree _ d => [d]
  | .oprdy _ a | .qput _ _ a => [a]
  | .mloadb _ _ _ d _ | .mscale _ _ _ d _ => [d]
  | .mma _ _ _ _ _ a _ => [a]
  | .mread _ _ _ d _ _ => [d]
  | .mwrite _ _ _ _ a _ => [a]
  | _ => []).filter isTOpd

/-- Whether an instruction waits for the matrix engine (R289). -/
def isMatrix : Instr → Bool
  | .mloadb .. | .mma .. | .mchain _ | .mend _ | .oprdy .. | .mzero .. | .mread .. | .mwrite .. | .mscale .. | .mrowred .. => true
  | _ => false

/-- The class counter that an instruction always counts on (R143). Crossings, demoted instructions and posted lanes decide at
issue. -/
def classOf : Instr → List Nat
  | .ld .. | .lds .. | .sld .. | .ldx .. | .mat .. | .find .. | .relabel .. | .fstat .. => [8]
  | .atom _ _ _ _ _ m | .atoms _ _ _ _ _ m => if memNr m then [9] else [8]
  | .st .. | .sts .. | .sst .. => [9]
  | .copy .. | .tmov .. => [10]
  | .mloadb .. | .mma .. | .mzero .. | .mread .. | .mwrite .. | .mscale .. | .mrowred .. => [11]
  | _ => []

/-- The counters of an instruction: its class counter and its signal counter, each once (R143, R144). -/
def countersOf (cls : List Nat) (h : Hints) : List Nat :=
  if h.signal.toNat < 12 ∧ !cls.contains h.signal.toNat then cls ++ [h.signal.toNat] else cls

/-- Whether an instruction of the integer, floating-point or lane-network group acts on its split's slice set (R93, R204). -/
def isVector (i : Instr) : Bool :=
  match i.fields with
  | some f => (0x040 ≤ f.op.toNat && f.op.toNat < 0x0C0) || (0x100 ≤ f.op.toNat && f.op.toNat < 0x140)
  | none => false

/-- The slices in which any lane of a mask lies. -/
def slicesOf (m : Word) : List Nat := (List.range 8).filter fun j => m.extractLsb' (4 * j) 4 != 0

/-- The slice set on which an instruction issues (R93, R251); empty when it uses none. -/
def Iss.slices (q : Iss) (i : Instr) : List Nat :=
  match i with
  | .vread _ _ _ b => [(q.uniB b).toNat % 32 / 4]
  | .vwrite _ all _ _ b => if all then slicesOf q.part else slicesOf (q.part &&& laneBit ((q.uniB b).toNat % 32))
  | i => if isVector i then slicesOf q.mask else []

end Sys2Proof.Machine
end

