-- ==== Sys2Proof/Machine/Issue.lean ====
section
/-! DEFINITION. Issue: the conditions that hold an instruction back (R91, R124, R225, R289), check 10 of R206, and the one
frame in which every instruction's meaning runs. -/

namespace Sys2Proof.Machine

/-- Bytes that one core's matrix engine adds to a save (R56). -/
def mxSaveBytes : Nat := 789504

/-- Save-area bytes of a unit (R55). -/
def LazyUnit.bytes (u : LazyUnit) : Nat :=
  match u.kind with
  | .block .. => 65536
  | .slot .. => 36864
  | .engine _ => mxSaveBytes
  | .record .. => 8192

/-- Whether a unit is a block of scratchpad. -/
def LazyUnit.isBlock (u : LazyUnit) : Bool :=
  match u.kind with
  | .block .. => true
  | _ => false

/-- Whether a unit is a wave slot. -/
def LazyUnit.isSlot (u : LazyUnit) : Bool :=
  match u.kind with
  | .slot .. => true
  | _ => false

/-- Whether a unit is a team record. -/
def LazyUnit.isRecord (u : LazyUnit) : Bool :=
  match u.kind with
  | .record .. => true
  | _ => false

/-- The scratchpad bytes that a context holds, LAZY units not yet claimed included (R56). -/
def State.spHeld (s : State) (n : Nat) : Nat :=
  let ts := (s.teams.filter fun t => t.2.resident && s.teamCtx t.1 == n).map fun t =>
    match s.gridOf t.1 with | some g => g.score | none => 0
  let gs := (s.grids.filter fun g => g.2.ctx == n).map fun g => g.2.sclu * g.2.clu.length + g.2.sdie * g.2.die.length
  let ls := (s.lazies.filter fun u => u.ctx == n && u.st == .lazy && u.isBlock).map (·.bytes)
  ts.sum + gs.sum + ls.sum

/-- Whether a LAZY wave slot holds a wave: that of an exited one has nothing to save. -/
def State.slotLives (s : State) (u : LazyUnit) : Bool :=
  match u.kind, u.team.bind fun t => tfind s.teams t with
  | .slot _ k, some t => (tfind t.saved (t.slots.idxOf k)).isSome
  | _, _ => false

/-- VDSAVEMAX of a context (R56): resident waves, scratchpad, resident teams, engines; LAZY units not yet claimed count as what they are. -/
def State.saveMax (s : State) (n : Nat) : Nat :=
  let lazy_ := fun (is : LazyUnit → Bool) => (s.lazies.filter fun u => u.ctx == n && u.st == .lazy && is u).length
  let w := (s.waves.filter fun e => e.2.ctx == n).length + lazy_ s.slotLives
  let ts := s.teams.filter fun t => t.2.resident && s.teamCtx t.1 == n
  let m := (s.cores.filter fun c => match c.2.mx.owner with | some t => s.teamCtx t == n | none => false).length
  36864 * w + s.spHeld n + 8192 * (ts.length + lazy_ LazyUnit.isRecord) + mxSaveBytes * m

/-- Whether a save of the context with more bytes still fits (R56). -/
def State.saveFits (s : State) (n extra : Nat) : Bool := decide (s.saveMax n + extra ≤ (s.ctx n).vdsavesz.toNat)

/-- Whether nothing holds a core's engine that has no owner: no unit of it is being saved, or has been handed to another context (R57). -/
def State.engineOpen (s : State) (ctx core : Nat) : Bool :=
  s.lazies.all fun u => u.kind != .engine core || (u.st == .owned && u.ctx == ctx)

/-- Whether a team may issue a matrix instruction now: it is the owner, or may become it (R56, R57, R289). -/
def State.mxReady (s : State) (team core : Nat) : Bool :=
  match (s.core core).mx.owner with
  | some t => t == team
  | none => s.engineOpen (s.teamCtx team) core && s.saveFits (s.teamCtx team) mxSaveBytes

/-- The fields of a tile-table entry (R121). -/
def tileState (e : BitVec 128) : Nat := (e.extractLsb' 126 2).toNat
/-- LEVEL. -/
def tileLevel (e : BitVec 128) : Nat := (e.extractLsb' 124 2).toNat
/-- DEFINED. -/
def tileDefined (e : BitVec 128) : Bool := e.getLsbD 123
/-- FAULT. -/
def tileFault (e : BitVec 128) : Bool := e.getLsbD 122
/-- ROWS. -/
def tileRows (e : BitVec 128) : Nat := (e.extractLsb' 96 16).toNat
/-- ROWBYTES. -/
def tileRowBytes (e : BitVec 128) : Nat := (e.extractLsb' 80 16).toNat
/-- PITCH; 0 means ROWBYTES (R120). -/
def tilePitch (e : BitVec 128) : Nat :=
  let p := (e.extractLsb' 64 16).toNat
  if p = 0 then tileRowBytes e else p
/-- BASE. -/
def tileBase (e : BitVec 128) : Nat := (e.extractLsb' 32 32).toNat
/-- Bytes of a tile. -/
def tileBytes (e : BitVec 128) : Nat := tileRows e * tileRowBytes e
/-- The allocation offset of tile byte o (R122). -/
def tileOff (e : BitVec 128) (o : Nat) : Nat := tileBase e + o / tileRowBytes e * tilePitch e + o % tileRowBytes e
/-- The entry in another state. -/
def setTileState (e : BitVec 128) (st : Nat) : BitVec 128 :=
  (e.extractLsb' 0 126).setWidth 128 ||| (BitVec.ofNat 128 st <<< 126)
/-- The entry with another FAULT bit. -/
def setTileFault (e : BitVec 128) (f : Bool) : BitVec 128 :=
  (e &&& ~~~((1 : BitVec 128) <<< 122)) ||| (if f then (1 : BitVec 128) <<< 122 else 0)

/-- How a tile stands for an instruction (R124): it may issue, it is held back, or it traps. -/
inductive TileVerdict where
  | ok | hold | bad (cause : BitVec 7)
  deriving DecidableEq, Repr

/-- The verdict on one tile of an instruction (R124). `fresh` instructions issue on an EMPTY tile too; TDEF and TFREE also on
one without a geometry. -/
def tileVerdict (t : Team) (id : Nat) (onEmpty onUndefined : Bool) : TileVerdict :=
  match tfind t.tiles id with
  | none => .bad 0x6B
  | some e =>
    if !tileDefined e then (if onUndefined then .ok else .bad 0x6B)
    else
      let st := tileState e
      if st = 1 ∨ st = 3 then .hold
      else if st = 0 ∧ !onEmpty then .bad (if tileFault e then 0x6C else 0x6A)
      else .ok

/-- The checks of COPY that come before its tiles: two tile ends, a space field of a tile end, no core scratchpad (R280). -/
def copyEarly (dsp ssp : Space) (d a : Opd) (score : Nat) : Option (BitVec 7) :=
  if isTOpd d && isTOpd a then some 0x01
  else if (isTOpd d && dsp != .global) || (isTOpd a && ssp != .global) then some 0x03
  else if score = 0 then some 0x68
  else none

/-- The verdict on every tile that an instruction names, in the order D, A. -/
def tilesVerdict (t : Team) (i : Instr) : TileVerdict :=
  let one := fun (o : Opd) (onEmpty onUndef : Bool) => tileVerdict t o.idx.toNat onEmpty onUndef
  match i with
  | .tdef _ d _ => one d true true
  | .tfree _ d => one d true true
  | .copy _ _ _ d a _ _ =>
    if isTOpd d then one d true false else if isTOpd a then one a false false else .ok
  | .tstat .. => .ok
  | .tmov _ d a _ =>
    match one d true false with
    | .ok => one a false false
    | v => v
  | i => match tilesOf i with
    | o :: _ => one o false false
    | [] => .ok

/-- Whether WAIT, WAITC and REGION stand at their thresholds (R97, R225). -/
def thresholdsMet (w : Wave) (i : Instr) : Bool :=
  match i with
  | .wait _ a n => decide (w.kreg a.idx.toNat ≤ n.toNat % 64)
  | .waitc _ n => (List.range 4).all fun j => decide (w.kreg (8 + j) ≤ n.toNat / 256 ^ j % 64)
  | .region .. => (List.range 12).all fun j => w.kreg j == 0
  | _ => true

/-- The checks that come before a tile's: those of COPY, the bank masks and the tile range of R294 and R295, and the formats of
R299. -/
def earlyBad (q : Iss) (i : Instr) : Option (BitVec 7) :=
  let noMask := fun (b : SrcB) => (q.uniB b).toNat % 65536 == 0
  let form := fun (fmt : Fmt) (f32 : Bool) (o : Opd) =>
    if (if isTOpd o then f32 == (fmt == .e2m1) else fmt == .e2m1 && !f32) then none else some (0x11 : BitVec 7)
  match i with
  | .copy _ dsp ssp d a _ _ => copyEarly dsp ssp d a q.grid.score
  | .mloadb _ _ _ _ b => if noMask b then some 0x15 else none
  | .mscale _ _ side _ b => if !side && noMask b then some 0x15 else none
  | .mma _ _ _ _ d _ b =>
    if noMask b then some 0x15
    else if d.idx.toNat + ((q.uniB b).extractLsb' 0 16).cpop.toNat > 64 then some 0x06 else none
  | .mread _ fmt f32 d _ _ => form fmt f32 d
  | .mwrite _ fmt f32 _ a _ => form fmt f32 a
  | _ => none

/-- The verdict on the tiles of an instruction that passes the checks before them. -/
def Iss.verdict (q : Iss) (i : Instr) : TileVerdict :=
  match earlyBad q i with
  | some c => .bad c
  | none => tilesVerdict q.team i

/-- Whether an instruction is held back by items 2 to 5 of R91, by a tile, a threshold or the matrix engine. -/
def heldBack (s : State) (q : Iss) (i : Instr) (h : Hints) : Bool :=
  (match (q.w.split q.split).prev with | some p => decide (q.clk < p + h.stall.toNat) | none => false)
  || (List.range 12).any (fun j => h.wait.getLsbD j && q.w.kreg j != 0)
  || q.verdict i == .hold
  || (q.part != 0 && q.cnt.any fun k => decide (q.w.kreg k ≥ 63))
  || !thresholdsMet q.w i
  || (isMatrix i && !s.mxReady q.w.team (wCore q.wid))

/-- Check 10 of R206: the cause, if the wave's state does not permit the instruction (R208, R218, R219). -/
def notPermitted (w : Wave) (i : Instr) : Option (BitVec 7) :=
  if needsHandler i && w.handler.isNone then some 0x09
  else match w.region with
    | none => none
    | some r => if writesLive r.lives i then some 0x0E else if regionForbids i then some 0x0F else none

/-- What comes of an instruction at issue: it does not issue, it traps with nothing done, it has issued, it has issued and
traps with the trap program counter at the next address, or it does not issue and changes something else. -/
inductive Res where
  | stay
  | trap (cause : BitVec 7) (addr : DWord) (arg : Word)
  | done (s : State)
  | trapAfter (s : State) (cause : BitVec 7) (arg : Word)
  | instead (f : State → State)

/-- A trap by an instruction's own check. -/
abbrev Res.bad (cause : BitVec 7) : Res := .trap cause 0 0

/-- The state in which an instruction has issued: its split's clock, its address, its place in issue order, the scheduler's
records (R91, R95, R335, R340). -/
def State.issued (s : State) (i : Instr) (q : Iss) : State :=
  let c := wCore q.wid
  let part := wPart q.wid
  let pos := (q.w.xreg 11).toNat % 4
  let js := q.slices i
  let w := q.w.modSplit q.split fun p => { p with prev := some q.clk, pc := q.pc + 12 }
  let s := s.setWave q.wid { w with seq := q.w.seq + 1, code := w.code.filter fun e => e.1 % 4 != q.split }
  let s := s.modCore c fun k =>
    { k with lastSplit := tset 0 k.lastSplit (part * 4 + pos) (wSlot q.wid * 4 + q.split),
             hist := tset [] k.hist part ((pos :: tget [] k.hist part).take 256),
             slices := js.foldl (fun t j => tset 0 t (part * 8 + j) q.clk) k.slices }
  let s := if !js.isEmpty then s.modCluster (cluOf c) fun k =>
      let l := tget Island.init k.islands (c % 8 / 2)
      { k with islands := tset Island.init k.islands (c % 8 / 2) { l with count := l.count + 1 } }
    else s
  let s : State := { s with fresh := s.fresh + 16384 }
  s.pmc q.w.ctx 1 1

/-- What an instruction sees at issue; none when its split cannot issue at all (R83, R91 item 1). -/
def State.sight (s : State) (i : Instr) (h : Hints) : Option Iss :=
  let (wid, split) := s.cur
  match tfind s.waves wid with
  | none => none
  | some w =>
    match tfind s.teams w.team, s.gridOf w.team with
    | some team, some grid =>
      let sp := w.split split
      let clk := s.clk (wCore wid)
      if w.stat = .ready ∧ sp.live ∧ !sp.joinHeld ∧ !sp.trapHeld ∧ sp.waitOn = none ∧ !sp.filling ∧ sp.notBefore ≤ clk then
        some { wid := wid, split := split, w := w, team := team, grid := grid, clk := clk, fresh := s.fresh, pc := sp.pc,
               word := s.iw, mask := sp.mask, part := w.guardMask s.fresh h sp.mask, seq := w.seq,
               cnt := countersOf (classOf i) h, rtag := if w.region.isSome then some (w.xreg 10).toNat else none }
      else none
    | _, _ => none

/-- A split that traps while a lower-numbered split of its wave is still to issue in this clock lets that one go first, so that
the trap of the lower number is the one taken (R316). -/
def State.deferTrap (s : State) (wid split : Nat) : Option State :=
  match (List.range split).find? fun k => s.agenda.contains (.issue wid k) with
  | some k => some { s with agenda := .issue wid k :: .issue wid split :: s.agenda.filter fun t => t != .issue wid k }
  | none => none

/-- The trap of an instruction, with its address, word and lanes (R207, R314). -/
def Iss.trapInfo (q : Iss) (after : Bool) (cause : BitVec 7) (addr : DWord) (arg : Word) : TrapInfo :=
  ⟨cause, 0, q.split, q.pc, addr, arg, q.part, q.word, after⟩

/-- A trap that is precise at issue: nothing of the instruction has taken effect (R206, R313). -/
def State.trapAt (s : State) (q : Iss) (cause : BitVec 7) (addr : DWord) (arg : Word) : State :=
  match s.deferTrap q.wid q.split with
  | some t => t
  | none => s.takeTrap q.wid (q.trapInfo false cause addr arg)

/-- Run an instruction's meaning: nothing when its split cannot issue or something holds it back; a trap by check 10; no
effect beyond its issue when no lane of it participates (R193); else its own effect. -/
def runInstr (i : Instr) (h : Hints) (body : Iss → State → Res) (s : State) : Result :=
  .next (match s.sight i h with
  | none => s
  | some q =>
    match notPermitted q.w i with
    | some c => s.trapAt q c 0 0
    | none =>
      if heldBack s q i h then s
      else if q.part = 0 then s.issued i q
      else match q.verdict i with
        | .bad c => s.trapAt q c 0 0
        | _ =>
          match body q (s.issued i q) with
          | .stay => s
          | .trap c a x => s.trapAt q c a x
          | .done t => t
          | .trapAfter t c x =>
            match s.deferTrap q.wid q.split with
            | some u => u
            | none => t.takeTrap q.wid (q.trapInfo true c 0 x)
          | .instead f => f s)

/-- Raise an instruction's counters. -/
def State.raiseCnt (s : State) (q : Iss) (cnt : List Nat) : State := s.modWave q.wid fun w => w.raise cnt

/-- Write fixed-latency results: they stand in flight for `lat` clocks, and the named counters fall when they are written
(R92, R192). Writes of earlier instructions that would come later are dropped, so that the later-issued value remains, also
where two splits write one s register (log 141). -/
def State.writeLater (s : State) (q : Iss) (lat : Nat) (writes : List (Target × Nat)) (flags : BitVec 5) (cnt : List Nat) : State :=
  let due := q.clk + lat
  let ts := writes.map (·.1)
  let s := s.modWave q.wid fun w =>
    let pend := w.pend.map fun p => if p.due ≥ due then { p with writes := p.writes.filter fun e => !ts.contains e.1 } else p
    let w : Wave := { w with pend := pend ++ [(⟨s.nextId, due, writes, flags, cnt⟩ : Writeback)] }
    w.raise cnt
  { s with nextId := s.nextId + 1 }

/-- An instruction that has done its work: a counter that it names falls in the clock after issue (R192). -/
def State.quick (s : State) (q : Iss) : State := if q.cnt.isEmpty then s else s.writeLater q 1 [] 0 q.cnt

/-- Post the release of the references that the lanes of a register hold in a wave as it stood before it was overwritten, after
the overwriting instruction's own operation (R108, R109). -/
def State.dropOld (s : State) (q : Iss) (regs : List Nat) (ls : List Nat) : State :=
  regs.foldl (fun s r => ls.foldl (fun s l =>
    s.dropRef q.wid q.seq l q.pc none (q.w.latest r l)) s) s

/-- Write lanes of a register in the issue clock, with their tags (R92, R99). -/
def State.writeLanes (s : State) (q : Iss) (reg : Nat) (xs : List (Nat × Lane)) : State :=
  s.modWave q.wid fun w =>
    let w := { w with pend := dropTargets (xs.map fun x => .v reg x.1) w.pend }
    xs.foldl (fun w x => w.setLane reg x.1 x.2) w

/-- The targets of an s register, or none for a discarded write. -/
def sTargets (o : Opd) (ws : List Word) : List (Target × Nat) :=
  match o with
  | .s i => (List.range ws.length).map fun k => (.s (i.toNat + k), (ws.getD k 0).toNat)
  | _ => []

/-- The targets of a predicate in the given lanes; p7 is not written (R194). -/
def pTargets (i : Nat) (xs : List (Nat × Bool)) : List (Target × Nat) :=
  if i ≥ 7 then [] else xs.map fun x => (.p i x.1, if x.2 then 1 else 0)

/-- Write s registers in the issue clock. -/
def State.writeS (s : State) (q : Iss) (o : Opd) (ws : List Word) : State :=
  s.modWave q.wid fun w => w.storeNow (sTargets o ws)

/-- Set the split's program counter. -/
def State.jump (s : State) (q : Iss) (pc : DWord) : State :=
  s.modWave q.wid fun w => w.modSplit q.split fun p => { p with pc := pc }

/-- Hold the split until an operation is done. -/
def State.holdSplit (s : State) (q : Iss) (op : Nat) : State :=
  s.modWave q.wid fun w => w.modSplit q.split fun p => { p with waitOn := some op }

end Sys2Proof.Machine
end

