-- ==== Sys2Proof/Machine/Proxy.lean ====
section
/-! DEFINITION. What a core does with proxies: which lanes are posted (R103), slots taken from the grant pools (R102), quotas
(R110, R111), and operations posted to homes (R104). -/

namespace Sys2Proof.Machine

/-- A slot of a home. -/
def Home.slot (h : Home) (i : Nat) : Slot := tget Slot.init h.slots i
/-- Replace a slot. -/
def Home.setSlot (h : Home) (i : Nat) (x : Slot) : Home := { h with slots := tset Slot.init h.slots i x }
/-- A slot of the state. -/
def State.slot (s : State) (h i : Nat) : Slot := (s.home h).slot i
/-- Change a slot. -/
def State.modSlot (s : State) (h i : Nat) (f : Slot → Slot) : State := s.modHome h fun x => x.setSlot i (f (x.slot i))

/-- Whether a slot is held by a proxy: LIVE or POISONED (R115). -/
def Slot.held (x : Slot) : Bool := x.st == .live || x.st == .poisoned

/-- The blocks that a grid's slots are charged to: its own region's and every ancestor's (R110). -/
def Grid.blocks (g : Grid) : List DWord := g.chain.map (·.addr)

/-- Slots charged to a block of a context (R110). -/
def State.proxyCharge (s : State) (ctx : Nat) (blk : DWord) : Nat :=
  (s.homes.map fun h => (h.2.slots.filter fun e =>
    e.2.held && e.2.ctx == ctx && match tfind s.grids e.2.grid with | some g => g.blocks.contains blk | none => false).length).sum

/-- Whether n more slots stay within BPROXY of every block of the issuing grid's chain (R110). -/
def State.quotaOk (s : State) (ctx : Nat) (g : Grid) (n : Nat) : Bool :=
  g.chain.all fun e => decide (s.proxyCharge ctx e.addr + n ≤ e.bproxy)

/-- Whether the destination of an instruction under way still holds a proxy in one of its lanes, which its result will release (R108). -/
def Wave.owesRelease (w : Wave) (i : Instr) (mask : Word) : Bool :=
  match destOf i with
  | some (.v d, n) => (List.range n).any fun k => (lanesOf mask).any fun l => (w.lane (d.toNat + k) l).tag
  | _ => false

/-- Whether charges of the wave are still to be returned by instructions before a place in issue order: messages of them to homes are on their
way, or a load, a matrix read or a FIND is still to overwrite tagged lanes (R110). -/
def State.chargesInFlight (s : State) (wid seq : Nat) : Bool :=
  (s.homeq.any fun h => h.wid == wid && decide (h.seq < seq) && match h.kind with | .store _ _ _ _ queued _ _ => !queued | _ => true)
    || (tfind s.waves wid).any fun w =>
      (w.reqs.any fun r => decide (r.seq < seq) && isReadInstr r.instr && w.owesRelease r.instr r.mask)
        || (s.mxq.any fun c => c.wid == wid && decide (c.seq < seq) && w.owesRelease c.instr c.mask)
        || s.forestq.any fun x => x.wid == wid && decide (x.seq < seq) && w.owesRelease x.instr x.mask

/-- The pool of a core for a home. -/
def Core.pool (c : Core) (h : Nat) : List Nat := tget [] c.pools h

/-- What taking slots comes to (R102, R111). -/
inductive Take where
  /-- the split does not issue: a grant or a returned charge is on its way -/
  | wait
  /-- exhausted, with its cause -/
  | out (cause : BitVec 7)
  /-- for each lane its slot -/
  | got (slots : List (Nat × Nat))
  deriving DecidableEq, Repr

/-- Assign slots of the pools to lanes in ascending lane order (R102). -/
def pickSlots (c : Core) (want : List (Nat × Nat)) : List (Nat × Nat) :=
  (want.foldl (fun (acc : List (Nat × Nat) × Tab Nat) e =>
    let k := tget 0 acc.2 e.2
    (acc.1 ++ [(e.1, (c.pool e.2).getD k 0)], tset 0 acc.2 e.2 (k + 1))) ([], [])).1

/-- Judge the slots that an instruction needs, each a lane and a home: quotas first, then pools (R102, R110, R111). A
held LDX is judged as of its place in issue order (R277, log 162). -/
def State.judgeSlots (s : State) (q : Iss) (want : List (Nat × Nat)) : Take :=
  let core := s.core (wCore q.wid)
  let need := fun h => (want.filter fun e => e.2 == h).length
  if want.isEmpty then .got []
  else if !s.quotaOk q.w.ctx q.grid want.length then (if s.chargesInFlight q.wid q.seq then .wait else .out 0x23)
  else
    let short := (List.range 10).filter fun h => decide ((core.pool h).length < need h)
    if short.any fun h => tget false core.dry h then .out 0x24
    else if !short.isEmpty then .wait
    else .got (pickSlots core want)

/-- Take slots: they leave their pools and become LIVE with count 1 (R108, R115). -/
def State.takeSlots (s : State) (q : Iss) (want : List (Nat × Nat)) (slots : List (Nat × Nat)) : State :=
  let pairs := want.zip slots
  let s := s.modCore (wCore q.wid) fun c =>
    { c with pools := (List.range 10).foldl (fun p h =>
        let mine := (pairs.filter fun e => e.1.2 == h).map (·.2.2)
        tset [] p h ((tget [] p h).filter fun i => !mine.contains i)) c.pools }
  pairs.foldl (fun s e => s.modSlot e.1.2 e.2.2 fun x =>
    { x with st := .live, val := 0, count := 1, ctx := q.w.ctx, core := wCore q.wid, grid := q.team.grid, prec := 0,
             rtag := q.rtag.map fun r => (q.wid, r) }) s

/-- How a source operand of a posted lane travels (R103): a value, a slot of the executing home, or a forward from another
home, which is posted first. The answer names the new operand. -/
def State.postSrc (s : State) (q : Iss) (lane home : Nat) (x : Lane) : HSrc × State :=
  if !x.tag then (.val x.w, s)
  else if pxHome x.w = home then (.slot (pxSlot x.w) (pxGen x.w), s)
  else
    let id := s.nextId
    (.fwd id, s.post q.wid (pxHome x.w) q.seq lane q.pc (.forward (pxSlot x.w) (pxGen x.w) id) none q.rtag)

/-- The executing home of a lane: that of its first tagged operand (R103). -/
def homeOfLane (xs : List Lane) : Nat := match xs.find? (·.tag) with | some x => pxHome x.w | none => 0

/-- Post one lane's datapath operation. -/
def State.postAlu (s : State) (q : Iss) (lane : Nat) (op : AluOp) (a b c : Lane) (dst : Option (Nat × Nat)) (wait : Option Nat) :
    State :=
  let home := homeOfLane [a, b, c]
  let (ha, s) := s.postSrc q lane home a
  let (hb, s) := s.postSrc q lane home b
  let (hc, s) := s.postSrc q lane home c
  s.post q.wid home q.seq lane q.pc (.alu op ha hb hc dst) wait q.rtag

/-- The generation of a slot. -/
def State.slotGen (s : State) (h i : Nat) : Nat := (s.slot h i).gen.toNat

/-- What stands in a register after a lane's slot is taken. -/
def State.pxLane (s : State) (h i : Nat) : Lane := ⟨true, pxWord h i (s.slotGen h i)⟩

/-- A crossing or another operation that waits for answers of homes (R107). Its split is held when `holds`. -/
def State.openHomeOp (s : State) (q : Iss) (i : Instr) (left : Word) (got : List (Nat × Nat)) (cnt : List Nat) (holds isRead : Bool) :
    State :=
  let op : HomeOp := ⟨s.nextId, q.wid, q.seq, i, q.split, q.pc, q.word, left, [], got, cnt, holds, isRead⟩
  let s1 : State := { s with nextId := s.nextId + 1, homeops := s.homeops ++ [op] }
  let s2 := s1.raiseCnt q cnt
  if holds then s2.holdSplit q s.nextId else s2

/-- Whether counters that are decided at issue have room (R91 item 5). -/
def Iss.room (q : Iss) (cnt : List Nat) : Bool := cnt.all fun k => decide (q.w.kreg k < 63)

/-- The vector register of a destination; none when its write is discarded (R194). -/
def vDest (d : Opd) : Option Nat := match d with | .v i => some i.toNat | _ => none

/-- Whether a lane's operands hold a word that no instruction can form (R100). -/
def anyMalformed (xs : List Lane) : Bool := xs.any fun x => x.tag && pxMalformed x.w

end Sys2Proof.Machine
end

