-- ==== Sys2Proof/Machine/Access2.lean ====
section
/-! DEFINITION. What memory instructions share at issue: addresses of lanes (R151, R201, R270), scratchpad addresses and their
checks (R117, R119, R122, R272), the store buffer (R264), requests and port operations. -/

namespace Sys2Proof.Machine

/-- PART of a hard partition (R187). -/
def State.part (s : State) (q : Nat) : BitVec 128 := tget 0 s.link.part q
/-- CONTEXTS, CLUSTERS, PORTS and CEILING of a partition. -/
def partCtxs (p : BitVec 128) : BitVec 64 := p.extractLsb' 64 64
/-- CLUSTERS. -/
def partClus (p : BitVec 128) : BitVec 24 := p.extractLsb' 40 24
/-- PORTS. -/
def partPorts (p : BitVec 128) : BitVec 32 := p.extractLsb' 8 32
/-- CEILING. -/
def partCeil (p : BitVec 128) : Nat := (p.extractLsb' 3 5).toNat

/-- The partition that holds a context (R187). -/
def State.partOf (s : State) (ctx : Nat) : Option Nat := (List.range 24).find? fun q => (partCtxs (s.part q)).getLsbD ctx

/-- The planes of a context: the UP Pralink ports of its partition, ascending (R184). -/
def State.planes (s : State) (ctx : Nat) : List Nat :=
  match s.partOf ctx with
  | some q => (List.range 32).filter fun p => (partPorts (s.part q)).getLsbD p && (s.port p).st == 2
  | none => []

/-- Whether an access to an address has no plane to its peer (R184). -/
def State.noPlane (s : State) (ctx pa : Nat) : Bool := s.isPeer pa && (s.planes ctx).isEmpty

/-- An access through the TLBs: translated by the core TLB, left for a miss, or faulty (R148, R151). -/
def State.locateVa (s : State) (ctx core : Nat) (va : DWord) (acc : Acc) : Except (BitVec 7) Loc :=
  if va.extractLsb' 56 8 != 0 then .error 0x33
  else match tlbFind (s.core core).tlb ctx va with
    | some t =>
      match s.judgeTr ctx t acc with
      | .ok t => .ok (.mem (t.pa va) t.key)
      | .error c => .error c
    | none => .ok (.va va)

/-- The virtual address of an offset from a base (R151, R270). -/
def Iss.vaOf (q : Iss) (a : Opd) (off : DWord) : DWord :=
  match a with
  | .f i => BitVec.ofNat 64 (fVbase (tget 0 q.w.f i.toNat)) + off
  | .s _ => q.uni64 a + off
  | _ => off

/-- Where the byte at an offset from a base lies (R151, R270). -/
def State.locate (s : State) (q : Iss) (a : Opd) (off : DWord) (acc : Acc) : Except (BitVec 7) Loc :=
  match a with
  | .f i =>
    let f := tget 0 q.w.f i.toNat
    if off.toNat < fLimit f then
      if acc.writes && !fWrite f then .error 0x31 else .ok (.mem (fPbase f + off.toNat) (fKey f))
    else s.locateVa q.w.ctx (wCore q.wid) (q.vaOf a off) acc
  | _ => s.locateVa q.w.ctx (wCore q.wid) (q.vaOf a off) acc

/-- Whether a base is a frame register that FRAME has not written (R151). -/
def Iss.badFrame (q : Iss) (a : Opd) : Bool :=
  match a with
  | .f i => !fValid (tget 0 q.w.f i.toNat)
  | _ => false

/-- The pieces of a lane access of n bytes at an address: the whole access when the address is a multiple of n, otherwise its
bytes (R267). -/
def cutAccess (va n : Nat) : List (Nat × Nat) := if va % n = 0 then [(0, n)] else (List.range n).map fun k => (k, 1)

/-- A piece of a global access with its fault, if it has one. -/
def State.globalPiece (s : State) (q : Iss) (lane : Nat) (a : Opd) (off : DWord) (acc : Acc) (data : List Byte) (cut : Nat × Nat) :
    Piece × Option (BitVec 7) :=
  let o := off + BitVec.ofNat 64 cut.1
  let va := q.vaOf a o
  let d := (data.drop cut.1).take cut.2
  match s.locate q a o acc with
  | .ok (.va x) => (⟨lane, cut.1, cut.2, va, .va x, .untranslated, d, s.t7, 0⟩, none)
  | .ok loc => (⟨lane, cut.1, cut.2, va, loc, .ready, d, s.t7, 0⟩, none)
  | .error c => (⟨lane, cut.1, cut.2, va, .va va, .failed c, d, s.t7, 0⟩, some c)

/-- Whether pieces have a peer-slot place without a plane (R184). -/
def State.piecesNoPlane (s : State) (ctx : Nat) (ps : List Piece) : Bool :=
  ps.any fun p => match p.loc with | .mem pa _ => s.noPlane ctx pa | _ => false

/-- A request of an instruction. -/
def Iss.mkReq (q : Iss) (id : Nat) (i : Instr) (mask : Word) (pieces : List Piece) (cnt : List Nat) : Req :=
  ⟨id, q.seq, i, q.split, q.pc, q.word, mask, pieces, cnt, q.rtag, []⟩

/-- Add a request to its wave, with its counters raised. -/
def State.addReq (s : State) (q : Iss) (r : Req) : State :=
  let s1 := s.modWave q.wid fun w => { w with reqs := w.reqs ++ [r] }.raise r.cnt
  { s1 with nextId := s.nextId + 1 }

/-- Whether a cause is that of a failed check or of an expander (R47, R182). -/
def isIntegrity (c : BitVec 7) : Bool := c == 0x40 || c == 0x42 || c == 0x76 || c == 0x77

/-- Park a wave at a request some of whose lanes have met a fault (R83, R148); a failed check parks it with every unfinished lane (R47). The
request's other lanes go on. While the wave is parked already, the lanes wait: they are translated afresh after its replay. A wave that has exited drops them (R83). -/
def State.parkReq (s : State) (wid : Nat) (r : Req) (cause : BitVec 7) (addr : DWord) (lanes : Word) : State :=
  match tfind s.waves wid with
  | some w =>
    let all := if isIntegrity cause then r.unfinished else lanes
    if w.stat = .exited then
      let gone := fun (x : Req) => { x with pieces := x.pieces.map fun p => if all.getLsbD p.lane then { p with st := .done } else p }
      s.setWave wid { w with reqs := (w.reqs.map fun x => if x.id = r.id then gone x else x).filter fun x => x.pieces.any fun p => p.st != .done }
    else if (w.stat = .ready ∨ w.stat = .halted) ∧ w.park.isNone then s.parkAt wid cause r.split r.pc all addr (some r.id) r.word
    else
      let held := fun (p : Piece) => if all.getLsbD p.lane && (p.st == .ready || p.st == .untranslated) then { p with st := .failed cause, loc := .va p.va } else p
      s.setWave wid { w with reqs := w.reqs.map fun x => if x.id = r.id then { x with pieces := x.pieces.map held } else x }
  | none => s

/-- Lanes of pieces. -/
def lanesIn (ps : List Piece) : Word := maskOf fun i => ps.any fun p => p.lane == i

/-- What an access is, for the checks of R148. -/
def accOf : Instr → Acc
  | .st .. | .sst .. => .store
  | .atom .. => .write
  | _ => .read

/-- Whether pieces of a request are still to be translated, but for the lanes for which its wave is parked. -/
def Wave.missing (w : Wave) (r : Req) : Bool := r.pieces.any fun p => p.st == .untranslated && !w.parkedLane r.id p.lane

/-- Park at a request once every lane of it has met its page, when a piece has met a translation fault. The report names every lane that
does not translate, with the address and the cause of the lowest (R148). -/
def State.parkFaults (s : State) (wid : Nat) (r : Req) : State :=
  let bad := r.pieces.filterMap fun p => p.failure.map fun c => (p, c)
  if (tfind s.waves wid).any fun w => w.missing r then s
  else match bad.mergeSort fun a b => decide (a.1.lane * 32 + a.1.off ≤ b.1.lane * 32 + b.1.off) with
    | [] => s
    | (p, c) :: rest => s.parkReq wid r c p.va (if isUniform r.instr then r.mask else lanesIn (p :: rest.map (·.1)))

/-- Whether an access of a context may still meet a page for which it has no plane (R184). -/
def State.planesShut (s : State) (ctx : Nat) : Bool :=
  (s.planes ctx).isEmpty && s.link.cxlmap.any fun e => (e.2.extractLsb' 62 2).toNat == 2

/-- Whether a request holds its effects back: a lane whose page is still to come might have no plane, and the trap of that is precise (R184,
R189, R314). -/
def State.holdsBack (s : State) (w : Wave) (r : Req) : Bool := s.planesShut w.ctx && w.missing r

/-- Whether no lane of a request has taken effect. -/
def Req.untouched (r : Req) : Bool :=
  (match r.instr with | .ldx .. => true | _ => false) || r.pieces.all fun p => match p.st with | .untranslated | .ready | .failed _ => true | _ => false

/-- A forest instruction whose descriptor is translated: it performs a release at device scope, then stands before its home (R167). -/
def State.postForest (s : State) (op : FOp) : State :=
  ({ s with forestq := s.forestq ++ [op] } : State).addRel op.wid .dev op.seq [] (.forest op.id) op.split op.pc op.word op.mask

/-- The operands of a forest instruction as its request keeps them: for each lane two elements or addresses. -/
def forestAux (args : List (Nat × Nat × Nat)) : List (Nat × Nat) := args.map fun e => (e.1, e.2.1 + e.2.2 * 2 ^ 64)

/-- The forest instruction of a request whose descriptor lies at an address under a key slot. -/
def Req.forestOp (r : Req) (wid pa key : Nat) (va : DWord) : FOp :=
  ⟨r.id, wid, r.seq, r.instr, r.split, r.pc, r.word, r.mask, va, pa, key, r.aux.map fun e => (e.1, e.2 % 2 ^ 64, e.2 / 2 ^ 64), r.cnt, false, [], [], [], 0⟩

/-- Add an acquire of a wave (R266). -/
def State.addAcq (s : State) (wid seq : Nat) (loads : Option Nat) (cnt : List Nat) : State :=
  let a : Acq := ⟨s.nextId, seq, loads, cnt⟩
  let s1 := s.modWave wid fun w => { w with acqs := w.acqs ++ [a] }
  { s1 with nextId := s.nextId + 1 }

/-- Entries of the shared part of a core's store buffer in use (R264). -/
def State.sharedUsed (s : State) (core : Nat) : Nat :=
  ((s.waves.filter fun e => wCore e.1 == core).map fun e => e.2.sb.length - 16).sum

/-- Whether a wave's store to a sector finds an entry, or room for one (R264). -/
def State.sbRoom (s : State) (wid sector : Nat) : Bool :=
  match tfind s.waves wid with
  | none => false
  | some w => w.sb.any (fun e => e.sector == sector) || w.sb.length < 16 || s.sharedUsed (wCore wid) < 512

/-- The place of a lane's access in its wave's issue order: by instruction, then by lane (R267, R270, R273). -/
def laneSeq (seq lane : Nat) : Nat := seq * 32 + lane

/-- The place of a stored byte. -/
def SByte.place (b : SByte) : Nat := laneSeq b.seq b.lane

/-- The bytes of a lane's store, with their place in issue order. -/
def storeCells (pa : Nat) (data : List Byte) (seq lane : Nat) (rtag : Option Nat) : List SByte :=
  (List.range data.length).map fun k => ⟨pa % 32 + k, data.getD k 0, seq, lane, rtag⟩

/-- Enter a byte behind those that stand before it in issue order. -/
def enterByte (b : SByte) : List SByte → List SByte
  | [] => [b]
  | x :: xs => if b.place < x.place then b :: x :: xs else x :: enterByte b xs

/-- Enter a piece into the store buffer: it merges into its wave's entry for the sector, at its place in issue order, or takes a new
one (R264, R270). -/
def State.bufferStore (s : State) (wid seq lane : Nat) (pc : DWord) (rtag : Option Nat) (pa key : Nat) (va : DWord) (data : List Byte) :
    State :=
  let bs := storeCells pa data seq lane rtag
  let sector := pa / 32
  match tfind s.waves wid with
  | none => s
  | some w =>
    if w.sb.any fun e => e.sector == sector then
      s.setWave wid { w with sb := w.sb.map fun e => if e.sector = sector then { e with bytes := bs.foldl (fun l b => enterByte b l) e.bytes } else e }
    else
      let e : SEntry := ⟨s.nextId, sector, key, va, pc, bs⟩
      let s1 := s.setWave wid { w with sb := w.sb ++ [e] }
      { s1 with nextId := s.nextId + 1 }

/-- The bytes that a posted ST holds at its home, as bytes of the store buffer: their placed addresses and values (R106). -/
def State.queuedBytes (s : State) (h : HomeItem) : List (Nat × Byte) :=
  match h.kind with
  | .store _ _ _ raw true pa _ => (List.range raw.length).map fun k => (s.place (pa + k), raw.getD k 0)
  | _ => []

/-- The bytes that a wave's own stores of earlier instructions give a range: those in its store buffer, and those that homes hold; a page
that has moved keeps them (R160, R264, R267). -/
def State.overlay (s : State) (wid : Nat) (w : Wave) (seq pa : Nat) (bs : List Byte) : List Byte :=
  (List.range bs.length).map fun k =>
    let a := s.place (pa + k)
    let own : List (Nat × Byte) := (w.sb.filter fun e => s.place (e.sector * 32) / 32 == a / 32).flatMap fun e =>
      (e.bytes.filter fun b => b.off == a % 32 && b.seq < seq).map fun b => (b.place, b.val)
    let held : List (Nat × Byte) := (s.homeq.filter fun h => h.wid == wid && h.seq < seq).flatMap fun h =>
      ((s.queuedBytes h).filter fun b => b.1 == a).map fun b => (laneSeq h.seq h.lane, b.2)
    match (own ++ held).foldl (fun (m : Option (Nat × Byte)) b => match m with
        | none => some b
        | some x => if x.1 ≤ b.1 then some b else some x) none with
    | some b => b.2
    | none => bs.getD k 0

/-- Enter the ready pieces of a store request into the buffer, in order, as far as there is room (R264, R270). -/
def State.enterStores (s : State) (wid : Nat) (r : Req) : State × Req :=
  r.pieces.foldl (fun (acc : State × Req) p =>
    match p.st, p.loc with
    | .ready, .mem pa key =>
      if acc.1.sbRoom wid (pa / 32) then
        (acc.1.bufferStore wid r.seq p.lane r.pc r.rtag pa key p.va p.data,
          { acc.2 with pieces := acc.2.pieces.map fun x => if x.lane = p.lane ∧ x.off = p.off then { x with st := .done } else x })
      else acc
    | _, _ => acc) (s, r)

/-- Whether every piece of a request is done. -/
def Req.complete (r : Req) : Bool := r.pieces.all fun p => p.st == .done

/-- Finish a request: it leaves its wave, its counters fall, its split goes on, acquires settle (R143, R266). -/
def State.finishReq (s : State) (wid : Nat) (r : Req) : State :=
  (s.modWave wid fun w => ((w.dropReq r.id).fall r.cnt).wake r.id).settle wid

/-- Put a request back, finished or not. -/
def State.putReq (s : State) (wid : Nat) (r : Req) : State :=
  if r.complete then s.finishReq wid r else s.modWave wid fun w => w.setReq r

/-- Whether a store request holds ready pieces that found no room. -/
def Req.stuck (r : Req) : Bool := r.pieces.any fun p => p.st == .ready

/-- The release that a store which finds no entry performs: behind every store that the buffer holds, and behind the lanes of its own that
have entered; those that wait come after it (R264, log 122). -/
def State.storeShort (s : State) (wid : Nat) (w : Wave) (r : Req) : State :=
  let held := (w.sb.flatMap fun e => e.bytes.map (·.seq)).foldl max r.seq
  let late : Req := { r with seq := held + 1 }
  (s.addRel wid .sys late.seq [] .nothing r.split r.pc r.word r.mask).modWave wid fun w =>
    { (w.setReq late).modSplit r.split fun p => { p with waitOn := some r.id } with seq := max w.seq (late.seq + 1) }

/-- The unit of a scratchpad level that a wave uses (R116). -/
def spUnit (lvl core : Nat) : Nat := if lvl = 0 then core else if lvl = 1 then cluOf core else dieOf core

/-- Bytes that a grid holds at a level (R116). -/
def Grid.spSize (g : Grid) (lvl : Nat) : Nat := if lvl = 0 then g.score else if lvl = 1 then g.sclu else g.sdie

/-- The first physical byte of a team's allocation at a level. -/
def allocBase (g : Grid) (team : Team) (lvl : Nat) : Nat :=
  if lvl = 0 then team.base else if lvl = 1 then tget 0 g.clu (cluOf team.core) else tget 0 g.die (dieOf team.core)

/-- The allocations of teams of a grid in a core's scratchpad: those that stand there, and those whose accesses the port forwards
(R98, R119). -/
def State.allocsOn (s : State) (grid core : Nat) : List (Nat × Nat) :=
  let here := s.teams.filterMap fun (e : Nat × Team) =>
    if e.2.resident && e.2.grid == grid && e.2.core == core then (s.gridOf e.1).map fun g => (e.2.base, g.score) else none
  let gone := (s.core core).fwd.filterMap fun (f : Nat × Nat) =>
    match tfind s.teams f.1, s.gridOf f.1 with
    | some t, some g => if t.grid = grid then some (f.2, g.score) else none
    | _, _ => none
  here ++ gone

/-- Whether bytes of a core's scratchpad lie in an allocation of a team of a grid (R119). -/
def State.inAlloc (s : State) (grid core off n : Nat) : Bool :=
  let rs := s.allocsOn grid core
  (List.range n).all fun k => rs.any fun r => decide (r.1 ≤ off + k ∧ off + k < r.1 + r.2)

/-- A scratchpad address of a level that a team names, with the core that a remote core-scratchpad address reaches: its unit and
physical offset, or the cause (R117, R119). -/
def State.spLocate (s : State) (gid : Nat) (g : Grid) (team : Team) (lvl : Nat) (addr : Word) (n : Nat) : Except (BitVec 7) (Nat × Nat) :=
  let core := team.core
  if lvl = 0 then
    let off := (addr.extractLsb' 0 20).toNat
    if addr.extractLsb' 20 4 != 0 || addr.extractLsb' 27 4 != 0 then .error 0x68
    else if !addr.getLsbD 31 then (if off + n ≤ g.score then .ok (core, team.base + off) else .error 0x68)
    else
      let c := core / 8 * 8 + (addr.extractLsb' 24 3).toNat
      if (s.cluster (cluOf c)).pwr != .on then .error 0x69
      else if s.inAlloc gid c off n then .ok (c, off) else .error 0x69
  else if addr.toNat + n ≤ g.spSize lvl then .ok (spUnit lvl core, allocBase g team lvl + addr.toNat)
  else .error 0x68

/-- Where byte o of a tile lies: level, unit and physical offset (R122). -/
def tileLoc (g : Grid) (team : Team) (e : BitVec 128) (o : Nat) : Nat × Nat × Nat :=
  let lvl := tileLevel e
  (lvl, spUnit lvl team.core, allocBase g team lvl + tileOff e o)

/-- The scratchpad level that a base of class none names (R272). -/
def levelOf (a : Opd) : Nat := match a with | .none i => i.toNat | _ => 0

/-- The places of the bytes of a lane's scratchpad access (R122, R272): level, unit and offset of each piece, or the cause. -/
def State.spPieces (s : State) (q : Iss) (a : Opd) (off : DWord) (n : Nat) : Except (BitVec 7) (List (Nat × Nat × Loc)) :=
  match a with
  | .t i =>
    let e := tget 0 q.team.tiles i.toNat
    let o := off.toNat
    if o + n > tileBytes e then .error 0x68
    else .ok ((cutAccess o n).map fun c => let (l, u, x) := tileLoc q.grid q.team e (o + c.1); (c.1, c.2, .sp l u x))
  | a =>
    let lvl := levelOf a
    let ad : Word := off.setWidth 32
    match if lvl ≠ 0 ∧ off.toNat ≥ 2 ^ 32 then .error 0x68 else s.spLocate q.team.grid q.grid q.team lvl ad n with
      | .error c => .error c
      | .ok (u, x) => .ok ((cutAccess ad.toNat n).map fun c => (c.1, c.2, .sp lvl u (x + c.1)))

/-- The port operation of a piece of a request. -/
def Iss.portOp (q : Iss) (id req idx : Nat) (p : Piece) (write : Bool) : Option PortOp :=
  match p.loc with
  | .sp l u x => some ⟨id, q.wid, q.seq, p.lane, l, u, x, write, .piece req idx, q.split, q.pc, q.word, [], false⟩
  | _ => none

/-- Send a request's pieces to their ports, in lane order (R125, R126). -/
def State.sendPort (s : State) (q : Iss) (r : Req) (write : Bool) : State :=
  let ops := (List.range r.pieces.length).filterMap fun k =>
    match r.pieces[k]? with | some p => q.portOp (s.nextId + k) r.id k p write | none => none
  { s with portq := s.portq ++ ops, nextId := s.nextId + r.pieces.length }

/-- The data words of a lane from a v register group. -/
def Iss.dataWords (q : Iss) (d : Opd) (n l : Nat) : List Lane :=
  match d with
  | .v i => (List.range n).map fun k => q.vlane (i.toNat + k) l
  | .s i => (List.range n).map fun k => ⟨false, q.sreg (i.toNat + k)⟩
  | _ => List.replicate n Lane.zero

end Sys2Proof.Machine
end

