-- ==== Sys2Proof/Machine/Async.lean ====
section
/-! DEFINITION. Copies, tiles and barrier instructions at issue (R280 to R288), and the geometry of tiles (R120). -/

namespace Sys2Proof.Machine

/-- A geometry that R120 accepts: ROWS, ROWBYTES, PITCH, LEVEL and BASE in their ranges. -/
def geomOk (rows rowBytes pitch level base : Nat) : Bool :=
  if rows = 0 then rowBytes == 0 && pitch == 0 && level == 0 && base == 0
  else decide (level < 3 ∧ rows < 65536 ∧ rowBytes % 32 = 0 ∧ 32 ≤ rowBytes ∧ rowBytes ≤ 32768 ∧ pitch % 32 = 0
    ∧ (pitch = 0 ∨ rowBytes ≤ pitch) ∧ base % 32 = 0)

/-- The first allocation offset beyond a tile (R120). -/
def geomEnd (rows rowBytes pitch base : Nat) : Nat :=
  base + (rows - 1) * (if pitch = 0 then rowBytes else pitch) + rowBytes

/-- A table entry from a geometry; ROWS 0 clears the geometry and DEFINED (R121, R123). -/
def mkEntry (rows rowBytes pitch level base : Nat) (fault : Bool) : BitVec 128 :=
  setTileFault (if rows = 0 then 0 else BitVec.ofNat 128
    (level * 2 ^ 124 + 2 ^ 123 + rows % 65536 * 2 ^ 96 + rowBytes % 65536 * 2 ^ 80 + pitch % 65536 * 2 ^ 64 + base % 2 ^ 32 * 2 ^ 32)) fault

/-- A tile's table entry; all zero for an id that is not declared. -/
def Team.tile (t : Team) (id : Nat) : BitVec 128 := tget 0 t.tiles id

/-- Change a declared tile's table entry. -/
def Team.modTile (t : Team) (id : Nat) (f : BitVec 128 → BitVec 128) : Team :=
  match tfind t.tiles id with
  | some e => { t with tiles := tput t.tiles id (f e) }
  | none => t

/-- A tile becomes the destination of a copy or move (R123). -/
def startFill (e : BitVec 128) : BitVec 128 := setTileState (if tileState e = 0 then setTileFault e false else e) 1

/-- A tile becomes the source of a copy or move (R123). -/
def startDrain (e : BitVec 128) : BitVec 128 := setTileState e 3

/-- A barrier's level, unit and physical offset from the value that names it, or the cause (R134, R285). -/
def txName (g : Grid) (team : Team) (v : Word) : Except (BitVec 7) (Nat × Nat × Nat) :=
  let lvl := if v.getLsbD 31 then 1 else 0
  let off := (v.extractLsb' 0 31).toNat
  if off % 16 ≠ 0 then .error 0x6E
  else if off + 16 ≤ g.spSize lvl then .ok (lvl, spUnit lvl team.core, allocBase g team lvl + off)
  else .error 0x68

/-- TXBAR of a command (R128, R285). -/
def txField (v : Word) : Nat := (if v.getLsbD 31 then 2 ^ 19 else 0) + (v.extractLsb' 0 31).toNat / 16 % 2 ^ 19

/-- An end of a COPY (R280). -/
def spaceCode : Space → Nat
  | .global => 0
  | .core => 1
  | .cluster => 2
  | .die => 3

/-- The address of a COPY's end with bits [4:0] cleared; 0 for a tile, whose address field the engine ignores (R128, R280). -/
def Iss.copyAddr (q : Iss) (o : Opd) : Nat := if isTOpd o then 0 else (q.uni64 o).toNat / 32 * 32

/-- Check 6 of COPY on an end in a space (R119, R280). -/
def State.copyEnd (s : State) (gid : Nat) (g : Grid) (team : Team) (space addr len : Nat) : Option (BitVec 7) :=
  if space = 0 then none
  else if addr ≥ 2 ^ 32 then some 0x68
  else match s.spLocate gid g team (space - 1) (BitVec.ofNat 32 addr) (max len 1) with
    | .error c => some c
    | .ok _ => none

/-- The command that a COPY forms (R128, R280). -/
def copyCmd (dsp ssp : Nat) (tile : Option (Nat × Bool)) (bar : Option Nat) (len dst src : Nat) : BitVec 256 :=
  BitVec.ofNat 256 ((match tile with | some (id, isSrc) => 2 ^ 227 + (if isSrc then 2 ^ 226 else 0) + id * 2 ^ 212 | none => 0)
    + (match bar with | some b => 2 ^ 225 + b * 2 ^ 192 | none => 0) + dsp * 2 ^ 222 + ssp * 2 ^ 220 + len % 2 ^ 40 * 2 ^ 128
    + dst % 2 ^ 64 * 2 ^ 64 + src % 2 ^ 64)

/-- The number of commands a ring holds, with the entries that COPYs have reserved (R127). -/
def Team.ringHeld (t : Team) : Nat := t.tail - t.retired + (t.issued.filter fun p => p.ring.isNone).length

/-- COPY's effect: checks 5 to 8, then the command (R280). -/
def copyBody (dsp ssp : Space) (d a b c : Opd) (q : Iss) (s : State) : Res :=
  let team := q.team
  let len := (q.uni b).toNat / 32 * 32
  let tile := if isTOpd d then some (opdIdx d, false) else if isTOpd a then some (opdIdx a, true) else none
  if (match tile with | some (id, _) => tileBytes (team.tile id) != len | none => false) then .bad 0x6B
  else
    let endOf := fun (o : Opd) (sp : Space) =>
      if isTOpd o then none else s.copyEnd team.grid q.grid team (spaceCode sp) (q.copyAddr o) len
    match endOf d dsp, endOf a ssp with
    | some c, _ => .bad c
    | none, some c => .bad c
    | none, none =>
      let bar : Except (BitVec 7) (Option Nat) := match c with
        | .s _ => match txName q.grid team (q.uni c) with
          | .ok _ => .ok (some (txField (q.uni c)))
          | .error e => .error e
        | _ => .ok none
      match bar with
      | .error e => .bad e
      | .ok bar =>
        if team.ringHeld ≥ 63 then .bad 0x6D
        else
          let cmd := copyCmd (spaceCode dsp) (spaceCode ssp) tile bar len (q.copyAddr d) (q.copyAddr a)
          let id := s.nextId
          let p : Pending := ⟨id, none, false, team.order, cmd, none, q.wid, q.seq, q.cnt⟩
          let s : State := { s with nextId := id + 1 }
          let s := s.modTeam q.w.team fun t =>
            let t := match tile with
              | some (i, true) => t.modTile i startDrain
              | some (i, false) => t.modTile i Sys2Proof.Machine.startFill
              | none => t
            { t with order := t.order + 1, issued := t.issued ++ [p] }
          .done ((s.raiseCnt q q.cnt).addRel q.wid .dev q.seq [] (.copy id) q.split q.pc q.word q.part)

/-- COPY (R280). -/
def execCopy (h : Hints) (dsp ssp : Space) (d a b c : Opd) (s : State) : Result :=
  runInstr (.copy h dsp ssp d a b c) h (copyBody dsp ssp d a b c) s

/-- TDEF's effect (R123, R284). With A none its three words read 0 (R194). -/
def tdefBody (d a : Opd) (q : Iss) (s : State) : Res :=
  let r := fun k => match a with | .s i => (q.sreg (i.toNat + k)).toNat | _ => 0
  let rows := r 0 % 65536
  let rowBytes := r 0 / 65536
  let pitch := r 1 % 65536
  let level := r 1 / 65536 % 4
  let base := r 2
  if r 1 / 2 ^ 18 ≠ 0 ∨ !geomOk rows rowBytes pitch level base then .bad 0x6B
  else if rows ≠ 0 ∧ geomEnd rows rowBytes pitch base > q.grid.spSize level then .bad 0x68
  else .done ((s.modTeam q.w.team fun t => t.modTile (opdIdx d) fun e => mkEntry rows rowBytes pitch level base (tileFault e)).quick q)

/-- TDEF (R284). -/
def execTdef (h : Hints) (d a : Opd) (s : State) : Result := runInstr (.tdef h d a) h (tdefBody d a) s

/-- TMOV's effect (R283). -/
def tmovBody (d a c : Opd) (q : Iss) (s : State) : Res :=
  let team := q.team
  let i := opdIdx d
  let j := opdIdx a
  if tileBytes (team.tile i) ≠ tileBytes (team.tile j) then .bad 0x6B
  else
    let bar : Except (BitVec 7) (Option Nat) := match c with
      | .s _ => match txName q.grid team (q.uni c) with
        | .ok _ => .ok (some (txField (q.uni c)))
        | .error e => .error e
      | _ => .ok none
    match bar with
    | .error e => .bad e
    | .ok bar =>
      if team.tmq.length ≥ 8 then .bad 0x6D
      else
        let cmd := copyCmd 0 0 none bar (tileBytes (team.tile j)) 0 0
        let p : Pending := ⟨s.nextId, none, true, team.order, cmd, some (j, i), q.wid, q.seq, q.cnt⟩
        let s : State := { s with nextId := s.nextId + 1 }
        let s := s.modTeam q.w.team fun t =>
          let t := (t.modTile i Sys2Proof.Machine.startFill).modTile j startDrain
          { t with order := t.order + 1, tmq := t.tmq ++ [p] }
        .done (s.raiseCnt q q.cnt)

/-- TMOV (R283). -/
def execTmov (h : Hints) (d a c : Opd) (s : State) : Result := runInstr (.tmov h d a c) h (tmovBody d a c) s

/-- Four words of 128 bits, low word first (R284, R287). -/
def quadWords (x : BitVec 128) : List Word := (List.range 4).map fun k => x.extractLsb' (32 * k) 32

/-- TSTAT: a write in the issue clock (R92, R284). -/
def execTstat (h : Hints) (d a : Opd) (s : State) : Result :=
  runInstr (.tstat h d a) h (fun q s => .done ((s.writeS q d (quadWords (q.team.tile (opdIdx a)))).quick q)) s

/-- TFREE's effect (R123, R284). -/
def tfreeBody (d : Opd) (q : Iss) (s : State) : Res :=
  .done ((s.modTeam q.w.team fun t => t.modTile (opdIdx d) fun e =>
    if tileDefined e then setTileState (e &&& ~~~((1 : BitVec 128) <<< 123)) 0 else e).quick q)

/-- TFREE (R284). -/
def execTfree (h : Hints) (d : Opd) (s : State) : Result := runInstr (.tfree h d) h (tfreeBody d) s

/-- Send a barrier operation to its port or bank, holding the split where its rule says so (R134). -/
def State.sendTx (s : State) (q : Iss) (where_ : Nat × Nat × Nat) (k : TxKind) (holds : Bool) : State :=
  let op : PortOp := ⟨s.nextId, q.wid, q.seq, 0, where_.1, where_.2.1, where_.2.2, true, .tx k, q.split, q.pc, q.word, q.cnt, false⟩
  let s1 : State := { s with nextId := s.nextId + 1, portq := s.portq ++ [op] }
  let s2 := s1.raiseCnt q q.cnt
  if holds then s2.holdSplit q op.id else s2

/-- A barrier instruction: its operand checks, then its operation at the port. -/
def txBody (a : Opd) (bad : Bool) (k : TxKind) (holds : Bool) (q : Iss) (s : State) : Res :=
  match txName q.grid q.team (q.uni a) with
  | .error c => .bad c
  | .ok w => if bad then .bad 0x6E else .done (s.sendTx q w k holds)

/-- TXINIT's effect (R137, R286). -/
def txinitBody (a : Opd) (b : SrcB) (q : Iss) (s : State) : Res :=
  let n := (q.uniB b).toNat
  txBody a (decide (n = 0 ∨ n > 16777215)) (.init n) false q s

/-- TXINIT (R286). -/
def execTxinit (h : Hints) (a : Opd) (b : SrcB) (s : State) : Result := runInstr (.txinit h a b) h (txinitBody a b) s

/-- TXEXPECT (R286). -/
def execTxexpect (h : Hints) (a : Opd) (b : SrcB) (s : State) : Result :=
  runInstr (.txexpect h a b) h (fun q s => txBody a false (.expect (q.uniB b).toNat) true q s) s

/-- TXARRIVE's effect: its release comes first (R140, R286). -/
def txarriveBody (a : Opd) (b : SrcB) (q : Iss) (s : State) : Res :=
  match txName q.grid q.team (q.uni a) with
  | .error c => .bad c
  | .ok w =>
    let c := (q.uniB b).toNat
    if c = 0 then .bad 0x6E
    else
      let linked := s.spNat w.1 w.2.1 w.2.2 16 / 2 ^ 122 % 2 = 1
      let scope := if w.1 = 1 ∨ linked then Scope.clu else Scope.team
      .done ((s.sendTx q w (.arrive c) true).addRel q.wid scope q.seq [] .nothing q.split q.pc q.word q.part)

/-- TXARRIVE (R286). -/
def execTxarrive (h : Hints) (a : Opd) (b : SrcB) (s : State) : Result := runInstr (.txarrive h a b) h (txarriveBody a b) s

/-- TXWAIT (R287). -/
def execTxwait (h : Hints) (a : Opd) (b : SrcB) (s : State) : Result :=
  runInstr (.txwait h a b) h (fun q s => txBody a false (.wait ((q.uniB b).toNat % 16)) true q s) s

/-- TXTEST (R287). -/
def execTxtest (h : Hints) (d a : Opd) (b : SrcB) (s : State) : Result :=
  runInstr (.txtest h d a b) h (fun q s => txBody a false (.test ((q.uniB b).toNat % 16) d) true q s) s

/-- CBAR's effect: the levels and offsets are judged at issue, the rest at the port (R134, R138, R288). LINK holds the root's
offset in the grid's cluster allocation. -/
def cbarBody (a b : Opd) (q : Iss) (s : State) : Res :=
  let leaf := q.uni a
  let root := q.uni b
  let off := (root.extractLsb' 0 31).toNat
  if leaf.getLsbD 31 ∨ !root.getLsbD 31 then .bad 0x6E
  else match txName q.grid q.team leaf with
    | .error c => .bad c
    | .ok w =>
      if off % 16 ≠ 0 ∨ off + 16 > q.grid.sclu then .bad 0x6E
      else .done (s.sendTx q w (.cbar off) true)

/-- CBAR (R288). -/
def execCbar (h : Hints) (a b : Opd) (s : State) : Result := runInstr (.cbar h a b) h (cbarBody a b) s

end Sys2Proof.Machine
end

