-- ==== Sys2Proof/Machine/Serve.lean ====
section
/-! DEFINITION. What the controllers and ports share when they serve the requests of waves: which accesses must wait for which
(R265, R266, R327), what stops an access at its sector (R47, R54, R161, R182), and how its results reach the wave. -/

namespace Sys2Proof.Machine

/-- Whether a request reads sectors from the channel groups. -/
def isSectorLoad : Instr → Bool
  | .ld .. | .sld .. | .qput .. => true
  | _ => false

/-- Whether a request is an ATOM, or a release store, which is performed at its sector's owner without the store buffer. -/
def performsAtOwner : Instr → Bool
  | .atom .. => true
  | .st _ _ _ _ m | .sst _ _ _ _ m => orderRel (memOrder m)
  | _ => false

/-- Whether a piece may touch a placed sector: one not translated yet is told by its place in the page. -/
def State.touches (s : State) (p : Piece) (sec : Nat) : Bool :=
  match p.st, p.loc with
  | .untranslated, _ | .failed _, _ => p.va.toNat / 32 % 2048 == sec % 2048
  | .ready, .mem pa _ => s.place pa / 32 == sec
  | _, _ => false

/-- Whether an access of the wave before a place in issue order is still to be performed at a placed sector (R267, R273, R327). -/
def State.earlier (s : State) (w : Wave) (at_ sec : Nat) : Bool :=
  w.reqs.any fun r => r.pieces.any fun p => decide (laneSeq r.seq p.lane < at_) && s.touches p sec

/-- The place of a message to a home in its wave's issue order (R104). -/
def HomeItem.place (h : HomeItem) : Nat := laneSeq h.seq h.lane

/-- Take bytes out of an entry: those that stay are left, an empty entry goes. -/
def Wave.keepBytes (w : Wave) (entry : Nat) (stay : List SByte) : Wave :=
  { w with sb := (w.sb.map fun x => if x.id = entry then { x with bytes := stay } else x).filter fun x => !x.bytes.isEmpty }

/-- A store that is performed at memory past the store buffer takes the place of the wave's own earlier bytes that stand in the
buffer for the same places: in the order of those bytes they come just before it (R267, R271). -/
def State.overwrite (s : State) (wid at_ pa n : Nat) : State :=
  let under := fun (e : SEntry) (b : SByte) =>
    let x := s.place (e.sector * 32) + b.off
    decide (b.place < at_) && decide (s.place pa ≤ x ∧ x < s.place pa + n)
  let left := fun (w : Wave) => (w.sb.map fun e => { e with bytes := e.bytes.filter fun b => !under e b }).filter fun e => !e.bytes.isEmpty
  s.modWave wid fun w => { w with sb := left w }

/-- An access that stands before a controller, named for the close point of a window: its kind, wave slot or message, and request or
entry; none for one that is performed as it reaches its controller (R54). -/
abbrev Who := Option (Nat × Nat × Nat)

/-- Whether an access from before a close point is not complete: its request has a piece under that key, its entry a byte from before then,
its message is still there (R54). -/
def State.earlyStands (s : State) (key : Nat) (e : Early) : Bool :=
  let under := fun (p : Piece) => (p.st == .ready || p.st == .served) && match p.loc with | .mem _ k => k == key | _ => false
  match e.kind with
  | 0 => ((tfind s.waves e.a).bind fun w => w.req e.b).any fun r => r.pieces.any under
  | 2 => (tfind s.waves e.a).any fun w => w.sb.any fun x => x.id == e.b && x.bytes.any fun b => decide (b.place < e.cap)
  | _ => s.homeq.any fun h => h.id == e.a

/-- Whether an access reached its controller before the close point of a window that is CLOSING (R54, log 129). -/
def State.isEarly (s : State) (w : Nat) (who : Who) : Bool :=
  match who with
  | none => false
  | some (k, a, b) => (s.window w).st == .closing
      && (s.window w).early.any fun e => e.kind == k && e.a == a && e.b == b && s.earlyStands (63 + w) e

/-- Whether an access translated through a window has come after its close point: the owner's own accesses never do (R50,
R54). -/
def State.pastClose (s : State) (who : Who) (ctx pa key : Nat) (isWrite : Bool) : Bool :=
  let w := winOfKey key
  let owner := s.ownerCtx (s.place pa)
  w != 0 && owner != ctx && !s.isEarly w who && ((s.judgeWindow ctx w isWrite).isSome || owner != (s.window w).owner)

/-- What stops an access of a context at its sector: the window's close point, an expander that is not UP, poison, a failed tag check
(R42, R47, R54, R161, R182). -/
def State.stopAt (s : State) (who : Who) (ctx pa key : Nat) (isWrite : Bool) : Option (BitVec 7) :=
  if s.pastClose who ctx pa key isWrite then some 0x45
  else if s.portDown pa then some 0x76
  else if s.isPoison pa then some 0x51
  else if s.tagBad pa key then some 0x40 else none

/-- The width of a load. -/
def loadWidth : Instr → Width
  | .ld _ w _ _ _ | .lds _ w _ _ _ | .sld _ w _ _ _ => w
  | _ => .w32

/-- Write a lane's words to the destination registers of a request: plain values; a tagged lane that they overwrite gives up
its reference (R108, R270). -/
def State.writeDest (s : State) (wid : Nat) (r : Req) (lane : Nat) (ws : List Word) : State :=
  match destOf r.instr with
  | some (.v d, _) =>
    (List.range ws.length).foldl (fun s k =>
      match tfind s.waves wid with
      | some w =>
        (s.setWave wid (w.setLane (d.toNat + k) lane ⟨false, ws.getD k 0⟩)).dropRef wid r.seq lane r.pc none (w.lane (d.toNat + k) lane)
      | none => s) s
  | some (.s d, _) => s.modWave wid fun w => (List.range ws.length).foldl (fun w k => w.store (.s (d.toNat + k)) (ws.getD k 0).toNat) w
  | _ => s

/-- The bytes that the pieces of a lane have brought, in order. -/
def Req.laneBytes (r : Req) (lane : Nat) : List Byte := (r.pieces.filter fun p => p.lane == lane).flatMap (·.data)

/-- Change the pieces of a request that a test picks. -/
def Req.mapPieces (r : Req) (which : Piece → Bool) (f : Piece → Piece) : Req :=
  { r with pieces := r.pieces.map fun p => if which p then f p else p }

/-- Whether every piece of a lane is done. -/
def Req.laneDone (r : Req) (lane : Nat) : Bool := r.pieces.all fun p => p.lane != lane || p.st == .done

/-- A trap that is precise at an instruction that has issued: its counters fall, its request is gone (R134, R142). -/
def State.lateTrap (s : State) (wid : Nat) (r : Req) (cause : BitVec 7) : State :=
  ((s.modWave wid fun w => (w.dropReq r.id).fall r.cnt).settle wid).raiseTrap wid ⟨cause, 0, r.split, r.pc, 0, 0, r.mask, r.word, false⟩

/-- Append a packet to a device queue; a full queue traps (R66, R307). -/
def State.finishQput (s : State) (wid : Nat) (r : Req) (queue : Nat) : State :=
  match tfind s.waves wid with
  | none => s
  | some w =>
    let q := tget [] (s.ctx w.ctx).queues queue
    if q.length ≥ 256 then s.lateTrap wid r 0x7A
    else
      let g := match tfind s.teams w.team with | some t => t.grid | none => 0
      (s.modCtx w.ctx fun c => { c with queues := tset [] c.queues queue (q ++ [(r.laneBytes 0, g)]) }).finishReq wid r

/-- A store request as if it had not stored: its bytes leave the buffer, its posted lanes their homes (R219). -/
def State.unstore (s : State) (wid : Nat) (r : Req) : State :=
  let s := s.modWave wid fun w => { w with sb := (w.sb.map fun e => { e with bytes := e.bytes.filter fun b => b.seq != r.seq }).filter
                                                  fun e => !e.bytes.isEmpty }
  { s with homeq := s.homeq.filter fun h => !(h.wid == wid && h.seq == r.seq && h.stores) }

/-- A store goes on: its lanes enter the buffer as far as there is room. One that finds no entry acts as a release and holds its split, and
acts so again when that release has left it without one; inside its region it traps (R219, R264). -/
def State.goStore (s : State) (wid : Nat) (r : Req) : State :=
  match tfind s.waves wid with
  | none => s
  | some w =>
    if s.holdsBack w r then s.putReq wid r
    else
      let (t, x) := s.enterStores wid r
      if !x.stuck then t.putReq wid x
      else if w.region.isSome && r.rtag.isSome then (s.unstore wid r).lateTrap wid r 0x0F
      else
        let t := t.putReq wid x
        match tfind t.waves wid with
        | none => t
        | some v => if v.rels.any fun y => y.scope == .sys && y.seq == x.seq && v.sb.any fun e => e.bytes.any fun b => decide (b.seq < y.seq) then t
          else t.storeShort wid v x

/-- Put a request back after some of its pieces are done. -/
def State.advance (s : State) (wid : Nat) (r : Req) : State :=
  match r.instr with
  | .qput _ queue _ =>
    if r.complete then s.finishQput wid r queue.toNat else s.putReq wid r
  | _ => s.putReq wid r

/-- Deliver what pieces have read: they are done, and a lane whose pieces are all done is written (R270). -/
def State.deliver (s : State) (wid : Nat) (r : Req) (which : Piece → Bool) : State :=
  let done := r.mapPieces which fun p => { p with st := .done }
  let ls := ((r.pieces.filter which).map (·.lane)).eraseDups.filter done.laneDone
  let s := match r.instr with
    | .qput .. => s
    | i => ls.foldl (fun s l => s.writeDest wid r l (loadWords (loadWidth i) (done.laneBytes l))) s
  s.advance wid done

/-- The operation of an atomic instruction. -/
def atomOf : Instr → Option (AtomOp × Bool × Bool)
  | .atom _ op w64 _ _ m | .atoms _ op w64 _ _ m => some (op, w64, memNr m)
  | _ => none

/-- The new value of an atomic from its operand bytes (R273). -/
def atomApply (op : AtomOp) (w64 : Bool) (old : Nat) (data : List Byte) : Nat :=
  atomNew op w64 old (field data 0 8) (field data 8 8) (field data 16 8)

/-- The words of an old value. -/
def oldWords (w64 : Bool) (old : Nat) : List Word :=
  if w64 then [BitVec.ofNat 32 old, BitVec.ofNat 32 (old / 2 ^ 32)] else [BitVec.ofNat 32 old]

/-- A store that is dropped and reported (R47, R54, R161). A covered store's cause for a partial sector is 0x41 where the
sector fails its check. -/
def State.dropStore (s : State) (wid : Nat) (cause : BitVec 7) (lanes : Word) (pc va : DWord) : State :=
  match tfind s.waves wid with
  | some w => s.report w.ctx (s.waveRec wid cause 0 1 lanes pc va 0) wid
  | none => s

/-- The bytes of a sector after writes in order: for each place the last one. -/
def lastBytes (bs : List (Nat × Byte)) : List (Nat × Byte) :=
  (List.range 32).filterMap fun o => ((bs.filter fun b => b.1 == o).getLast?).map fun b => (o, b.2)

/-- What keeps a write of some bytes of a sector from being performed, if anything does: a write of the whole sector meets no check of
the old one (R47, R54, R161, R182). A part of a sector that fails its check gives 0x41. -/
def State.storeStop (s : State) (who : Who) (ctx sector key n : Nat) : Option (BitVec 7) :=
  match s.stopAt who ctx (sector * 32) key true with
  | some 0x51 => if n = 32 then none else some 0x51
  | some 0x40 => if n = 32 then none else some 0x41
  | c => c

/-- Perform a write of some bytes of a sector for a context, or drop and report it. -/
def State.storeSector (s : State) (who : Who) (wid ctx sector key : Nat) (lanes : Word) (pc va : DWord) (bs : List (Nat × Byte)) : State :=
  let all := lastBytes bs
  match s.storeStop who ctx sector key all.length with
  | some c => (s.noteStop ctx (sector * 32) c).dropStore wid c lanes pc va
  | none => s.sectorWrite sector key all

end Sys2Proof.Machine
end

