-- ==== Sys2Proof/Machine/Barrier.lean ====
section
/-! DEFINITION. Transaction barriers: the barrier word (R135), its events (R136, R137), the cluster tree (R138), faults at a
barrier (R139), and accesses at scratchpad ports and banks (R125, R126). -/

namespace Sys2Proof.Machine

/-- PHASE of a barrier word (R135). -/
def txPhase (x : BitVec 128) : BitVec 4 := x.extractLsb' 124 4
/-- FAULT. -/
def txFault (x : BitVec 128) : Bool := x.getLsbD 123
/-- LINKED. -/
def txLinked (x : BitVec 128) : Bool := x.getLsbD 122
/-- ARRIVALS. -/
def txArr (x : BitVec 128) : Nat := (x.extractLsb' 96 24).toNat
/-- EXPECTED. -/
def txExp (x : BitVec 128) : Nat := (x.extractLsb' 72 24).toNat
/-- SECTORS, a signed value. -/
def txSec (x : BitVec 128) : Int := (x.extractLsb' 36 36).toInt
/-- LINK. -/
def txLink (x : BitVec 128) : BitVec 32 := x.extractLsb' 0 32

/-- A barrier word from its fields (R135). -/
def txWord (phase : BitVec 4) (fault linked : Bool) (arr exp : Nat) (sec : Int) (link : BitVec 32) : BitVec 128 :=
  BitVec.ofNat 128 (phase.toNat * 2 ^ 124 + (if fault then 2 ^ 123 else 0) + (if linked then 2 ^ 122 else 0)
    + arr % 2 ^ 24 * 2 ^ 96 + exp % 2 ^ 24 * 2 ^ 72 + (BitVec.ofInt 36 sec).toNat * 2 ^ 36 + link.toNat)

/-- The barrier word at a place. -/
def State.txAt (s : State) (lvl unit off : Nat) : BitVec 128 := BitVec.ofNat 128 (s.spNat lvl unit off 16)

/-- The bits of a core-scratchpad byte that software cannot write: the header of a team's copy ring, and STATUS and PROGRESS of its
entries (R4, R127, R128). -/
def State.hwBits (s : State) (core off : Nat) : Byte :=
  let ring := fun (e : Nat × Team) => e.2.resident && e.2.core == core && decide (e.2.base ≤ off ∧ off < e.2.base + 2048) &&
    match s.gridOf e.1 with | some g => g.score != 0 | none => false
  match s.teams.find? ring with
  | some e =>
    let o := off - e.2.base
    if o < 32 ∨ (21 ≤ o % 32 ∧ o % 32 ≤ 23) then 0xFF else if o % 32 = 28 then 0xC0 else 0
  | none => 0

/-- Write scratchpad bytes upward as software does: the device's own fields of a copy ring stay as they are. -/
def State.spStore (s : State) (lvl unit off : Nat) (bs : List Byte) : State :=
  if lvl ≠ 0 then s.spWrite lvl unit off bs
  else s.spWrite lvl unit off ((List.range bs.length).map fun i =>
    let hw := s.hwBits unit (off + i)
    (s.spByte lvl unit (off + i) &&& hw) ||| (bs.getD i 0 &&& ~~~hw))

/-- Write a barrier word. -/
def State.setTx (s : State) (lvl unit off : Nat) (x : BitVec 128) : State := s.spStore lvl unit off (leBytes 16 x.toNat)

/-- Let the waiters of barriers that bytes lie in look again (R134). -/
def State.wakeTx (s : State) (lvl unit off n : Nat) : State :=
  { s with portq := s.portq.map fun p =>
      if p.asleep ∧ p.lvl = lvl ∧ p.unit = unit ∧ p.off < off + n ∧ off < p.off + 16 then { p with asleep := false } else p }

/-- The leaf records of a cluster. -/
def State.leaves (s : State) (k : Nat) : List LeafRec := (s.cluster k).leaves

/-- Replace the leaf records of a cluster. -/
def State.setLeaves (s : State) (k : Nat) (ls : List LeafRec) : State := s.modCluster k fun c => { c with leaves := ls }

/-- Where a leaf's txbar stands in its core's scratchpad. -/
def State.leafOff (s : State) (l : LeafRec) : Nat := (match tfind s.teams l.team with | some t => t.base | none => 0) + l.off

/-- The leaf record of a core txbar. -/
def State.leafAt (s : State) (core off : Nat) : Option LeafRec :=
  (s.leaves (cluOf core)).find? fun l => l.gone.isNone && l.core == core && s.leafOff l == off

/-- The grid of a leaf: that of its team, or the one that a removed leaf has left behind. -/
def State.leafGrid (s : State) (l : LeafRec) : Option Grid := match l.gone with | some g => tfind s.grids g | none => s.gridOf l.team

/-- The cluster-scratchpad offset of a leaf's root: its offset in the grid's allocation, and where that stands. -/
def State.rootAt (s : State) (k : Nat) (l : LeafRec) : Nat :=
  (match s.leafGrid l with | some g => tget 0 g.clu k | none => 0) + l.root

/-- The leaves of a root. -/
def State.leavesOf (s : State) (k off : Nat) : List LeafRec := (s.leaves k).filter fun l => l.gone.isNone && s.rootAt k l == off

/-- Change the leaf record of a core txbar. -/
def State.modLeaf (s : State) (core off : Nat) (f : LeafRec → LeafRec) : State :=
  s.setLeaves (cluOf core) ((s.leaves (cluOf core)).map fun l => if l.gone.isNone ∧ l.core = core ∧ s.leafOff l = off then f l else l)

/-- Whether a root's broadcast has not reached every leaf: it must not flip again before (R138). -/
def State.rootBusy (s : State) (lvl unit off : Nat) : Bool := lvl == 1 && (s.leavesOf unit off).any fun l => l.news.isSome

/-- A leaf is between its arrival at the root and the broadcast: LEAF-SENT (R137). -/
def State.leafSent (s : State) (lvl unit off : Nat) : Bool :=
  lvl == 0 && match s.leafAt unit off with | some l => l.sent | none => false

/-- Whether both counts of a word are zero. -/
def txZero (x : BitVec 128) : Bool := txArr x == 0 && txSec x == 0

/-- Store a barrier's word after an event, with what follows when both counts are zero: an unlinked barrier flips, wakes its
waiters and, as a root, broadcasts; a leaf sends its arrival (R136, R137). -/
def State.settleTx (s : State) (lvl unit off : Nat) (x : BitVec 128) : State :=
  if !txZero x || s.leafSent lvl unit off then s.setTx lvl unit off x
  else if txLinked x then
    (s.setTx lvl unit off x).modLeaf unit off fun l => { l with sent := true, mail := l.mail ++ [txFault x] }
  else
    let y := txWord (txPhase x + 1) (txFault x) false (txExp x) (txExp x) 0 (txLink x)
    let s := (s.setTx lvl unit off y).wakeTx lvl unit off 16
    if lvl = 1 then
      s.setLeaves unit ((s.leaves unit).map fun l => if l.gone.isNone ∧ s.rootAt unit l = off then { l with news := some (txPhase y, txFault y) } else l)
    else s

/-- An arrival, when ARRIVALS admits it (R137). -/
def txArrive (x : BitVec 128) (c : Nat) (fault : Bool) : Option (BitVec 128) :=
  if c > txArr x then none
  else some (txWord (txPhase x) (txFault x || fault) (txLinked x) (txArr x - c) (txExp x) (txSec x) (txLink x))

/-- A change of SECTORS, when its range admits it (R137). -/
def txAdd (x : BitVec 128) (d : Int) (fault : Bool) : Option (BitVec 128) :=
  let n := txSec x + d
  if n < -(2 ^ 35 : Int) ∨ n ≥ (2 ^ 35 : Int) then none
  else some (txWord (txPhase x) (txFault x || fault) (txLinked x) (txArr x) (txExp x) n (txLink x))

/-- The level, unit and offset of a txbar from a command's field, for a team (R128, R285). -/
def txPlace (g : Grid) (team : Team) (bar : Nat) : Nat × Nat × Nat :=
  let lvl := bar / 2 ^ 19 % 2
  (lvl, spUnit lvl team.core, allocBase g team lvl + bar % 2 ^ 19 * 16)

/-- The field that names a txbar at a place, for a team. -/
def txBarOf (g : Grid) (team : Team) (lvl off : Nat) : Nat := lvl * 2 ^ 19 + (off - allocBase g team lvl) / 16

/-- Lower a barrier by landed sectors, with a fault where a copy failed (R129, R137, R139). A count that leaves its 36 bits wraps
(log 123). -/
def State.lowerTx (s : State) (lvl unit off n : Nat) (fault : Bool) : State :=
  let x := s.txAt lvl unit off
  s.settleTx lvl unit off (txWord (txPhase x) (txFault x || fault) (txLinked x) (txArr x) (txExp x) (txSec x - n) (txLink x))

/-- Remove leaf records. A leaf that has sent is forgotten only once its arrival has been delivered (R137). -/
def State.removeLeaves (s : State) (k : Nat) (which : LeafRec → Bool) : State :=
  let keep := fun (l : LeafRec) =>
    if !which l || l.gone.isSome then some l
    else if l.mail.isEmpty then none else (tfind s.teams l.team).map fun t => { l with gone := some t.grid }
  s.setLeaves k ((s.leaves k).filterMap keep)

/-- LEAF_ARRIVAL_DELIVERY (R137): a leaf's completed phase arrives once at its root, with the leaf's FAULT. -/
def execLeafArrivalDelivery (cluster leaf : Nat) (s : State) : Result :=
  .next (match (s.leaves cluster).find? fun l => l.id == leaf with
  | none => s
  | some l =>
    match l.mail with
    | [] => s
    | f :: rest =>
      let off := s.rootAt cluster l
      let sent := ((s.leaves cluster).map fun k => if k.id = leaf then { k with mail := rest } else k).filter fun k => k.id != leaf || k.gone.isNone || !rest.isEmpty
      if l.gone.isSome && !((s.leafGrid l).any fun g => (tfind g.clu cluster).isSome) then s.setLeaves cluster sent
      else if s.rootBusy 1 cluster off then s
      else match txArrive (s.txAt 1 cluster off) 1 f with
        | none => s
        | some x => (s.setLeaves cluster sent).settleTx 1 cluster off x)

/-- ROOT_BROADCAST (R137): a root's new phase and FAULT reach a leaf that has sent, which reloads ARRIVALS and wakes its waiters; one that
has not sent is not changed. The leaf of a team that is saved waits for it. -/
def execRootBroadcast (cluster leaf : Nat) (s : State) : Result :=
  .next (match (s.leaves cluster).find? fun l => l.id == leaf with
  | none => s
  | some l =>
    match l.news with
    | none => s
    | some (ph, f) =>
      let heard := (s.leaves cluster).map fun k => if k.id = leaf then { k with news := none, sent := false } else k
      if l.core ≥ 192 then s
      else if !l.sent then s.setLeaves cluster heard
      else
      let off := s.leafOff l
      let x := s.txAt 0 l.core off
      let y := txWord ph (txFault x || f) (txLinked x) (txExp x) (txExp x) (txSec x) (txLink x)
      let s := s.setLeaves cluster heard
      (s.setTx 0 l.core off y).wakeTx 0 l.core off 16)

/-- Remove a port operation. -/
def State.dropPort (s : State) (id : Nat) : State := { s with portq := s.portq.filter fun p => p.id != id }

/-- A barrier operation is done: its counters fall and its split goes on (R134, R286). -/
def State.endTx (s : State) (p : PortOp) : State :=
  ((s.dropPort p.id).modWave p.wid fun w => (w.fall p.cnt).wake p.id).settle p.wid

/-- A barrier operation that fails: a trap at its own address, its counters fallen (R134). -/
def State.failTx (s : State) (p : PortOp) : State :=
  let lanes := match tfind s.waves p.wid with | some w => w.guardMask s.fresh (fieldsOf p.word).h (w.split p.split).mask | none => 0
  (((s.dropPort p.id).modWave p.wid fun w => w.fall p.cnt).settle p.wid).raiseTrap p.wid ⟨0x6E, 0, p.split, p.pc, 0, 0, lanes, p.word, false⟩

/-- A TXWAIT that finds another phase completes; a faulted barrier then traps, and the trap names the barrier until it is entered (R139,
R287, R320). -/
def State.endWait (s : State) (p : PortOp) (x : BitVec 128) : State :=
  let s := s.endTx p
  if !txFault x then s
  else match tfind s.waves p.wid with
    | none => s
    | some w =>
      let lanes := w.guardMask s.fresh (fieldsOf p.word).h (w.split p.split).mask
      match tfind s.teams w.team, s.gridOf w.team with
      | some t, some g =>
        s.raiseTrap p.wid ⟨0x6F, 0, p.split, p.pc, 0, BitVec.ofNat 32 (txBarOf g t p.lvl p.off), lanes, p.word, true⟩
      | _, _ => s

/-- Link a leaf to a root at the cluster barrier unit (R137, R138, R288). -/
def State.linkTx (s : State) (p : PortOp) (root : Nat) (x : BitVec 128) : State :=
  match tfind s.waves p.wid with
  | none => s.dropPort p.id
  | some w =>
    match tfind s.teams w.team with
    | none => s.dropPort p.id
    | some t =>
      let k := cluOf p.unit
      let ls := s.leaves k
      let l : LeafRec := ⟨s.nextId, w.team, p.unit, p.off - t.base, root, false, none, [], none⟩
      let at_ := s.rootAt k l
      let here := ls.filter fun l => l.gone.isNone
      let roots := (here.map (s.rootAt k)).eraseDups
      if txLinked x || txArr x != txExp x || txSec x != 0 || here.length ≥ 512 || (!roots.contains at_ && roots.length ≥ 64) then s.failTx p
      else
        let y := txWord (txPhase x) (txFault x) true (txArr x) (txExp x) 0 (BitVec.ofNat 32 (root / 16))
        let s1 : State := { s with nextId := s.nextId + 1 }
        ((s1.setLeaves k (ls ++ [l])).setTx p.lvl p.unit p.off y).endTx p

/-- A barrier operation at its port or bank, as one read-modify-write (R134, R137). -/
def State.performTx (s : State) (p : PortOp) (k : TxKind) : State :=
  let x := s.txAt p.lvl p.unit p.off
  match k with
  | .init n =>
    let s := if p.lvl = 0 then s.removeLeaves (cluOf p.unit) fun l => l.core == p.unit && s.leafOff l == p.off else s
    (((s.setTx p.lvl p.unit p.off (txWord 0 false false n n 0 0)).wakeTx p.lvl p.unit p.off 16).endTx p)
  | .expect n =>
    match txAdd x n false with
    | none => s.failTx p
    | some y => (s.settleTx p.lvl p.unit p.off y).endTx p
  | .arrive c =>
    match txArrive x c false with
    | none => s.failTx p
    | some y => (s.settleTx p.lvl p.unit p.off y).endTx p
  | .wait ph =>
    if (txPhase x).toNat = ph then
      { s with portq := s.portq.map fun o => if o.id = p.id then { o with asleep := true } else o }
    else s.endWait p x
  | .test _ d =>
    (s.modWave p.wid fun w => w.storeNow (sTargets d (quadWords x))).endTx p
  | .cbar root => s.linkTx p root x

/-- The core and offset that an access to a core's scratchpad reaches: the port of a team's former core forwards its bytes to
where the team stands (R98). -/
def State.forwarded (s : State) (lvl unit off : Nat) : Nat × Nat :=
  if lvl ≠ 0 then (unit, off)
  else match (s.core unit).fwd.find? fun f => match s.gridOf f.1 with
      | some g => f.2 ≤ off && off < f.2 + g.score
      | none => false with
    | some (t, old) => match tfind s.teams t with
      | some x => (x.core, x.base + (off - old))
      | none => (unit, off)
    | none => (unit, off)

/-- Perform a piece of a wave's scratchpad request (R125, R126). -/
def State.performPort (s : State) (p : PortOp) (req idx : Nat) : State :=
  let s := s.dropPort p.id
  match (tfind s.waves p.wid).bind fun w => w.req req with
  | none => s
  | some r =>
    match r.pieces[idx]? with
    | none => s
    | some x =>
      let here := fun y : Piece => y.lane == x.lane && y.off == x.off
      let (unit, off) := s.forwarded p.lvl p.unit p.off
      match r.instr with
      | .sts .. | .sst .. =>
        ((s.spStore p.lvl unit off x.data).wakeTx p.lvl unit off x.len).advance p.wid (r.mapPieces here fun y => { y with st := .done })
      | .atoms _ op w64 _ _ m =>
        let old := s.spNat p.lvl unit off x.len
        let s := (s.spStore p.lvl unit off (leBytes x.len (atomApply op w64 old x.data))).wakeTx p.lvl unit off x.len
        let s := if memNr m then s else s.writeDest p.wid r x.lane (oldWords w64 old)
        s.advance p.wid (r.mapPieces here fun y => { y with st := .done })
      | _ => s.deliver p.wid (r.mapPieces here fun y => { y with data := s.spRead p.lvl unit off y.len }) here

/-- Whether two operations of a wave are performed in issue order: at one port, or at one sector of a bank (R125, R126). -/
def sameBank (a b : PortOp) : Bool := a.lvl == b.lvl && a.unit == b.unit && (a.lvl == 0 || a.off / 32 == b.off / 32)

/-- Whether a port operation can be performed now. -/
def State.portReady (s : State) (p : PortOp) : Bool :=
  !p.asleep
  && !(s.portq.any fun o => o.wid == p.wid && o.id != p.id && sameBank o p && (o.seq < p.seq || (o.seq == p.seq && o.id < p.id)))
  && !s.acqBlocked p.wid p.seq
  && match p.what with
    | .piece _ _ => !(p.write && s.relBlocked p.wid p.seq) && (p.write || !(tfind s.waves p.wid).any Wave.frozen)
    | .tx (.arrive _) => !s.relBlocked p.wid p.seq && !s.rootBusy p.lvl p.unit p.off && !s.leafSent p.lvl p.unit p.off
    | .tx (.expect _) => !s.rootBusy p.lvl p.unit p.off
    | .tx _ => true

/-- PORT_ACCESS (R125): a port or sector bank performs one access. -/
def execPortAccess (op : Nat) (s : State) : Result :=
  .next (match s.portq.find? fun p => p.id == op with
  | none => s
  | some p =>
    if !s.portReady p then s
    else match p.what with
      | .piece req idx => s.performPort p req idx
      | .tx k => s.performTx p k)

end Sys2Proof.Machine
end

