-- ==== Sys2Proof/Machine/Memory.lean ====
section
/-! DEFINITION. The memory instructions at issue (R263 to R279), and SLD and SST (R255). -/

namespace Sys2Proof.Machine

/-- Whether a lane's index word is tagged. -/
def Iss.idxTagged (q : Iss) (m : Mem) (l : Nat) : Bool := (q.index m l).tag

/-- `offset(i)` of a lane. -/
def Iss.offset (q : Iss) (m : Mem) (l : Nat) : DWord := memOffset m (q.index m l).w

/-- Issue a global load or other read request: its pieces with their faults. A lane without a plane traps (R184). -/
def openRequest (i : Instr) (acq : Bool) (ps : List (Piece × Option (BitVec 7))) (mask : Word) (q : Iss) (s : State) : Res :=
  if s.piecesNoPlane q.w.ctx (ps.map (·.1)) then .bad 0x74
  else
    let r := q.mkReq s.nextId i mask (ps.map (·.1)) q.cnt
    let s := s.addReq q r
    let s := if acq then s.addAcq q.wid q.seq (some r.id) [] else s
    .done (s.parkFaults q.wid r)

/-- The pieces of every lane of a global access. -/
def Iss.globalPieces (q : Iss) (s : State) (a : Opd) (m : Mem) (n : Nat) (acc : Acc) (ls : List Nat) (data : Nat → List Byte) :
    List (Piece × Option (BitVec 7)) :=
  ls.flatMap fun l =>
    let off := q.offset m l
    (cutAccess (q.vaOf a off).toNat n).map fun c => s.globalPiece q l a off acc (data l) c

/-- LD's effect (R270). -/
def ldBody (i : Instr) (width : Width) (a : Opd) (m : Mem) (q : Iss) (s : State) : Res :=
  if q.badFrame a then .bad 0x38
  else if q.lanes.any fun l => q.idxTagged m l then .bad 0x20
  else openRequest i (orderAcq (memOrder m)) (q.globalPieces s a m (widthBytes width) .read q.lanes fun _ => []) q.part q s

/-- LD (R270). -/
def execLd (h : Hints) (width : Width) (d a : Opd) (m : Mem) (s : State) : Result :=
  runInstr (.ld h width d a m) h (ldBody (.ld h width d a m) width a m) s

/-- The address that a home forms for a posted lane (R105). -/
def Iss.homeAddr (q : Iss) (a : Opd) (m : Mem) (off : HSrc) : HAddr :=
  match a with
  | .f i => ⟨off, memScale m, memAdd m, some (tget 0 q.w.f i.toNat), 0⟩
  | _ => ⟨off, memScale m, memAdd m, none, q.vaOf a 0⟩

/-- A piece that stands for a posted lane of a request: its home answers for it. -/
def postedPiece (s : State) (lane : Nat) : Piece := ⟨lane, 0, 0, 0, .va 0, .remote, [], s.t7, 0⟩

/-- Store a request's pieces: into the buffer, or, for a release store, after its release (R264, R270, R271). `posted` are the
lanes that homes answer for. A store that finds no entry releases the stores before it and holds its split (R264): the lanes that
have entered come before the release, those that wait come after it. In a region a store whose pages are still to be translated holds
its split, so that an overflow traps at it (R219). -/
def storeRequest (i : Instr) (m : Mem) (ps : List (Piece × Option (BitVec 7))) (posted : List Nat) (q : Iss) (s : State)
    (postAll : State → Nat → State) : Res :=
  let r := q.mkReq s.nextId i q.part (ps.map (·.1) ++ posted.map (postedPiece s)) q.cnt
  let shut := s.holdsBack q.w r
  if s.piecesNoPlane q.w.ctx (ps.map (·.1)) then .bad 0x74
  else if orderRel (memOrder m) then
    let s := s.addReq q r
    let s := postAll s r.id
    let s := s.addRel q.wid (memScope m) q.seq [] .nothing q.split q.pc q.word q.part
    .done (s.parkFaults q.wid r)
  else
    let s1 : State := { s with nextId := s.nextId + 1 }
    let (s2, r) := if shut then (s1, r) else s1.enterStores q.wid r
    let short := !shut && r.stuck
    if short && q.w.region.isSome then .bad 0x0F
    else if r.complete then .done (s2.quick q)
    else
      let s := postAll (s2.addReq q r) r.id
      let s := if short then (match tfind s.waves q.wid with | some w => s.storeShort q.wid w r | none => s)
        else if q.w.region.isSome && r.pieces.any fun p => p.st == .untranslated then s.holdSplit q r.id else s
      .done (s.parkFaults q.wid r)

/-- The lanes of a posted instruction that are posted: a tagged index or tagged data (R103). -/
def Iss.postedLanes (q : Iss) (d : Opd) (n : Nat) (m : Mem) : List Nat :=
  q.lanes.filter fun l => q.idxTagged m l || (q.dataWords d n l).any (·.tag)

/-- Post a lane's ST to the home of its first tagged operand: its index, then its data (R103, R105, R106). -/
def State.postStore (s : State) (q : Iss) (width : Width) (d a : Opd) (m : Mem) (req l : Nat) : State :=
  let ix := q.index m l
  let ds := q.dataWords d (widthRegs width) l
  let d0 := ds.headD Lane.zero
  let home := homeOfLane [ix, d0]
  let (ho, s) := s.postSrc q l home ix
  let (hd, s) := s.postSrc q l home d0
  s.post q.wid home q.seq l q.pc
    (.store (q.homeAddr a m ho) width hd (storeBytes width (ds.map (·.w))) false 0 0) (some req) q.rtag

/-- ST's effect (R270). -/
def stBody (i : Instr) (width : Width) (d a : Opd) (m : Mem) (q : Iss) (s : State) : Res :=
  let n := widthRegs width
  if q.badFrame a then .bad 0x38
  else if n > 1 ∧ q.lanes.any fun l => (q.dataWords d n l).any (·.tag) then .bad 0x20
  else
    let posted := q.postedLanes d n m
    if posted.any fun l => anyMalformed (q.index m l :: q.dataWords d n l) then .bad 0x22
    else
      let inCore := q.lanes.filter fun l => !posted.contains l
      let data := fun l => storeBytes width ((q.dataWords d n l).map (·.w))
      let ps := q.globalPieces s a m (widthBytes width) .write inCore data
      storeRequest i m ps posted q s fun s id => posted.foldl (fun s l => s.postStore q width d a m id l) s

/-- ST (R270). -/
def execSt (h : Hints) (width : Width) (d a : Opd) (m : Mem) (s : State) : Result :=
  runInstr (.st h width d a m) h (stBody (.st h width d a m) width d a m) s

/-- The scratchpad pieces of every lane, or the cause of the lowest lane that fails (R119, R272, log 166). -/
def Iss.spAll (q : Iss) (s : State) (a : Opd) (m : Mem) (n : Nat) (ls : List Nat) (data : Nat → List Byte) :
    Except (BitVec 7) (List Piece) :=
  ls.foldlM (fun (acc : List Piece) l =>
    match s.spPieces q a (q.offset m l) n with
    | .ok cs => .ok (acc ++ cs.map fun c => ⟨l, c.1, c.2.1, 0, c.2.2, .ready, ((data l).drop c.1).take c.2.1, s.t7, 0⟩)
    | .error c => .error c) []

/-- Issue a scratchpad request (R125, R126). -/
def portRequest (i : Instr) (m : Mem) (ps : Except (BitVec 7) (List Piece)) (write : Bool) (q : Iss) (s : State) : Res :=
  match ps with
  | .error c => .bad c
  | .ok ps =>
    let r := q.mkReq s.nextId i q.part ps q.cnt
    let s := (s.addReq q r).sendPort q r write
    let s := if orderRel (memOrder m) then s.addRel q.wid (memScope m) q.seq [] .nothing q.split q.pc q.word q.part else s
    .done (if orderAcq (memOrder m) then s.addAcq q.wid q.seq (some r.id) [] else s)

/-- LDS's effect (R270, R272). -/
def ldsBody (i : Instr) (width : Width) (a : Opd) (m : Mem) (q : Iss) (s : State) : Res :=
  if q.lanes.any fun l => q.idxTagged m l then .bad 0x20
  else portRequest i m (q.spAll s a m (widthBytes width) q.lanes fun _ => []) false q s

/-- LDS (R270). -/
def execLds (h : Hints) (width : Width) (d a : Opd) (m : Mem) (s : State) : Result :=
  runInstr (.lds h width d a m) h (ldsBody (.lds h width d a m) width a m) s

/-- STS's effect (R270, R272). -/
def stsBody (i : Instr) (width : Width) (d a : Opd) (m : Mem) (q : Iss) (s : State) : Res :=
  let n := widthRegs width
  if q.lanes.any fun l => q.idxTagged m l || (q.dataWords d n l).any (·.tag) then .bad 0x20
  else portRequest i m
    (q.spAll s a m (widthBytes width) q.lanes fun l => storeBytes width ((q.dataWords d n l).map (·.w))) true q s

/-- STS (R270). -/
def execSts (h : Hints) (width : Width) (d a : Opd) (m : Mem) (s : State) : Result :=
  runInstr (.sts h width d a m) h (stsBody (.sts h width d a m) width d a m) s

/-- An instruction seen as one that acts in lane 0 alone (R255). -/
def Iss.lane0 (q : Iss) : Iss := { q with part := 1 }

/-- SLD's effect (R255). -/
def sldBody (i : Instr) (width : Width) (a : Opd) (m : Mem) (q : Iss) (s : State) : Res :=
  match a with
  | .t _ => portRequest i m (q.spAll s a m (widthBytes width) [0] fun _ => []) false q.lane0 s
  | a =>
    if q.badFrame a then .bad 0x38
    else openRequest i (orderAcq (memOrder m)) (q.globalPieces s a m (widthBytes width) .read [0] fun _ => []) 1 q s

/-- SLD (R255). -/
def execSld (h : Hints) (width : Width) (d a : Opd) (m : Mem) (s : State) : Result :=
  runInstr (.sld h width d a m) h (sldBody (.sld h width d a m) width a m) s

/-- SST's effect (R255). -/
def sstBody (i : Instr) (width : Width) (d a : Opd) (m : Mem) (q : Iss) (s : State) : Res :=
  let data := fun (_ : Nat) => storeBytes width ((q.dataWords d (widthRegs width) 0).map (·.w))
  match a with
  | .t _ => portRequest i m (q.spAll s a m (widthBytes width) [0] data) true q.lane0 s
  | a =>
    if q.badFrame a then .bad 0x38
    else storeRequest i m (q.globalPieces s a m (widthBytes width) .write [0] data) [] q.lane0 s fun s _ => s

/-- SST (R255). -/
def execSst (h : Hints) (width : Width) (d a : Opd) (m : Mem) (s : State) : Result :=
  runInstr (.sst h width d a m) h (sstBody (.sst h width d a m) width d a m) s

/-- The registers that an atomic reads from its D group (R273). -/
def atomRegs (op : AtomOp) (w64 : Bool) : Nat := (if op = .cas then 2 else 1) * (if w64 then 2 else 1)

/-- A 64-bit or 32-bit operand from the words of a group. -/
def groupNat (ws : List Word) (k : Nat) (w64 : Bool) : Nat :=
  if w64 then (ws.getD (2 * k) 0).toNat + (ws.getD (2 * k + 1) 0).toNat * 2 ^ 32 else (ws.getD k 0).toNat

/-- The operands d, c and n of an atomic as 24 bytes (R273). -/
def atomData (op : AtomOp) (w64 : Bool) (ws : List Word) : List Byte :=
  if op = .cas then leBytes 8 0 ++ leBytes 8 (groupNat ws 0 w64) ++ leBytes 8 (groupNat ws 1 w64)
  else leBytes 8 (groupNat ws 0 w64) ++ leBytes 16 0

/-- A location with the low bits of its address cleared (R273). -/
def alignLoc (n : Nat) : Loc → Loc
  | .va a => .va (a - BitVec.ofNat 64 (a.toNat % n))
  | .mem pa k => .mem (pa - pa % n) k
  | .sp l u o => .sp l u (o - o % n)

/-- The piece of an atomic. -/
def atomPiece (n : Nat) (data : List Byte) (p : Piece) : Piece :=
  { p with loc := alignLoc n p.loc, va := p.va - BitVec.ofNat 64 (p.va.toNat % n), len := n, data := data }

/-- Whether a wave holds a buffered store to the sector of a piece (R274). -/
def Wave.buffered (w : Wave) (p : Piece) : Bool :=
  match p.loc with
  | .mem pa _ => w.sb.any fun e => e.sector == pa / 32
  | _ => false

/-- Post a lane's ATOM (R103, R105, R106). -/
def State.postAtom (s : State) (q : Iss) (op : AtomOp) (d a : Opd) (m : Mem) (wait : Option Nat) (l : Nat) (slot : Option Nat) :
    State :=
  let ix := q.index m l
  let ds := q.dataWords d (atomRegs op false) l
  let x := ds.headD Lane.zero
  let y := ds.getD 1 Lane.zero
  let home := homeOfLane (ix :: ds)
  let (ho, s) := s.postSrc q l home ix
  let (hx, s) := s.postSrc q l home x
  let (hy, s) := s.postSrc q l home y
  let dst := slot.map fun i => (i, s.slotGen home i)
  let (hd, hc, hn) := if op = .cas then (HSrc.val 0, hx, hy) else (hx, HSrc.val 0, HSrc.val 0)
  s.post q.wid home q.seq l q.pc (.atom (q.homeAddr a m ho) op hd hc hn dst (memNr m)) wait q.rtag

/-- The core lanes of an ATOM as pieces with their faults. -/
def Iss.atomPieces (q : Iss) (s : State) (op : AtomOp) (w64 : Bool) (d a : Opd) (m : Mem) (ls : List Nat) :
    List (Piece × Option (BitVec 7)) :=
  let n := if w64 then 8 else 4
  ls.map fun l =>
    let p := s.globalPiece q l a (q.offset m l) .write [] (0, n)
    (atomPiece n (atomData op w64 ((q.dataWords d (atomRegs op w64) l).map (·.w))) p.1, p.2)

/-- ATOM's effect (R273, R274). -/
def atomBody (i : Instr) (h : Hints) (op : AtomOp) (w64 : Bool) (d a : Opd) (m : Mem) (q : Iss) (s : State) : Res :=
  let n := atomRegs op w64
  let posted := q.postedLanes d n m
  if q.badFrame a then .bad 0x38
  else if w64 && !posted.isEmpty then .bad 0x20
  else if posted.any fun l => anyMalformed (q.index m l :: q.dataWords d n l) then .bad 0x22
  else
    let inCore := q.lanes.filter fun l => !posted.contains l
    let ps := q.atomPieces s op w64 d a m inCore
    if s.piecesNoPlane q.w.ctx (ps.map (·.1)) then .bad 0x74
    else
      let homeOf := fun l => homeOfLane (q.index m l :: q.dataWords d n l)
      let reg := vDest d
      let want := if memNr m || reg.isNone then [] else posted.map fun l => (l, homeOf l)
      let mk := fun (s : State) (slots : List (Nat × Nat)) (hold : Bool) =>
        let r := q.mkReq s.nextId i q.part (ps.map (·.1) ++ posted.map (postedPiece s)) q.cnt
        let s := s.addReq q r
        let s := posted.foldl (fun s l => s.postAtom q op d a m (some r.id) l (tfind slots l)) s
        let s := if orderRel (memOrder m) then s.addRel q.wid (memScope m) q.seq [] .nothing q.split q.pc q.word q.part else s
        let s := if ps.any fun p => q.w.buffered p.1 then s.addRel q.wid .sys q.seq [] .nothing q.split q.pc q.word q.part else s
        let s := if orderAcq (memOrder m) then s.addAcq q.wid q.seq (some r.id) [] else s
        let s := if hold then s.holdSplit q r.id else s
        let s : State := (match reg with
          | some rg => (s.writeLanes q rg ((want.zip slots).map fun e => (e.1.1, s.pxLane e.1.2 e.2.2))).dropOld q
              (if slots.isEmpty then [] else [rg]) posted
          | none => s)
        s.parkFaults q.wid r
      match s.judgeSlots q want with
      | .wait => .stay
      | .got slots => .done (mk (s.takeSlots q want slots) slots false)
      | .out cause => if q.grid.eff.demote then (if q.room (countersOf [8] h) then .done (mk s [] true) else .stay) else .bad cause

/-- ATOM (R273). -/
def execAtom (h : Hints) (op : AtomOp) (w64 : Bool) (d a : Opd) (m : Mem) (s : State) : Result :=
  runInstr (.atom h op w64 d a m) h (atomBody (.atom h op w64 d a m) h op w64 d a m) s

/-- ATOMS's effect (R272, R273). -/
def atomsBody (i : Instr) (op : AtomOp) (w64 : Bool) (d a : Opd) (m : Mem) (q : Iss) (s : State) : Res :=
  let n := if w64 then 8 else 4
  let regs := atomRegs op w64
  if q.lanes.any fun l => q.idxTagged m l || (q.dataWords d regs l).any (·.tag) then .bad 0x20
  else
    let ps := q.lanes.foldlM (fun (acc : List Piece) l =>
      let off := q.offset m l
      match s.spPieces q a (off - BitVec.ofNat 64 (off.toNat % n)) n with
      | .ok ((_, _, loc) :: _) =>
        .ok (acc ++ [⟨l, 0, n, 0, loc, .ready, atomData op w64 ((q.dataWords d regs l).map (·.w)), s.t7, 0⟩])
      | .ok [] => .ok acc
      | .error c => .error c) []
    portRequest i m ps true q s

/-- ATOMS (R273). -/
def execAtoms (h : Hints) (op : AtomOp) (w64 : Bool) (d a : Opd) (m : Mem) (s : State) : Result :=
  runInstr (.atoms h op w64 d a m) h (atomsBody (.atoms h op w64 d a m) op w64 d a m) s

/-- FRAME's effect (R275): a page that the core TLB holds gives the register at once, where the tables of its run can be read now; a miss
leaves a request. -/
def frameBody (i : Instr) (d a : Opd) (q : Iss) (s : State) : Res :=
  let va := q.uni64 a
  let idx := d.idx.toNat
  let r := fun (s : State) => q.mkReq s.nextId i q.part [⟨q.lanes.headD 0, 0, 1, va, .va va, .untranslated, [], s.t7, 0⟩] q.cnt
  if va.extractLsb' 56 8 != 0 then .done ((s.addReq q (r s)).parkReq q.wid (r s) 0x33 va q.part)
  else match tlbFind (s.core (wCore q.wid)).tlb q.w.ctx va with
    | none => .done (s.addReq q (r s))
    | some t =>
      match s.judgeTr q.w.ctx t .read with
      | .error c => .done ((s.addReq q (r s)).parkReq q.wid (r s) c va q.part)
      | .ok t =>
        if !s.runServable q.w.ctx t va then .done (s.addReq q (r s))
        else .done (((s.runWalked q.w.ctx t va).modWave q.wid fun w => { w with f := tset 0 w.f idx (s.frameOf q.w.ctx t va) }).quick q)

/-- FRAME (R275). -/
def execFrame (h : Hints) (d a : Opd) (s : State) : Result := runInstr (.frame h d a) h (frameBody (.frame h d a) d a) s

/-- PUB (R276). -/
def execPub (h : Hints) (scope : Scope) (s : State) : Result :=
  runInstr (.pub h scope) h (fun q s =>
    .done ((s.raiseCnt q q.cnt).addRel q.wid scope q.seq q.cnt .nothing q.split q.pc q.word q.part)) s

/-- ACQ (R276). -/
def execAcq (h : Hints) (scope : Scope) (s : State) : Result :=
  runInstr (.acq h scope) h (fun q s => .done (((s.raiseCnt q q.cnt).addAcq q.wid q.seq none q.cnt).settle q.wid)) s

/-- FENCE: a release, then an acquire that also waits for it (R276). -/
def execFence (h : Hints) (scope : Scope) (s : State) : Result :=
  runInstr (.fence h scope) h (fun q s =>
    let s := (s.raiseCnt q q.cnt).addRel q.wid scope q.seq [] .nothing q.split q.pc q.word q.part
    .done ((s.addAcq q.wid q.seq none q.cnt).settle q.wid)) s

/-- A lane of an LDX whose slot can be taken: the home that serves its sector now, the parts of its word and its address (R13, R105,
R159, R267, R277). -/
def State.ldxItem (s : State) (req : Req) (lane : Nat) : Option (Nat × List (Nat × Nat × Nat) × DWord) :=
  let parts := (req.pieces.filter fun p => p.lane == lane).filterMap fun (p : Piece) =>
    match p.loc with
    | .mem pa key => some ((p.len, pa, key), p.va)
    | _ => none
  match parts with
  | (x, va) :: _ => some (homeOf (s.place x.2.1), parts.map (·.1), va)
  | [] => none

/-- Take an LDX's slots, write its proxy words and post its fills, all together (R102, R277). `tagged` gives the index words of
the lanes with a tagged offset; the request keeps one piece a lane until its slot is filled. With no slots, under demote
mode, the words return as values (R111). -/
def State.fillLdx (s : State) (q : Iss) (r : Req) (d a : Opd) (m : Mem) (tagged : List (Nat × Lane)) (want slots : List (Nat × Nat)) :
    State :=
  let s := s.takeSlots q want slots
  let s := want.foldl (fun (s : State) e =>
    let dst := (tfind slots e.1).map fun i => (i, s.slotGen e.2 i)
    match tfind tagged e.1 with
    | some x => s.post q.wid e.2 q.seq e.1 q.pc (.load (q.homeAddr a m (.slot (pxSlot x.w) (pxGen x.w))) dst) (some r.id) q.rtag
    | none =>
      match s.ldxItem r e.1 with
      | some (_, parts, va) => s.post q.wid e.2 q.seq e.1 q.pc (.fill parts va dst) (some r.id) q.rtag
      | none => s) s
  match vDest d with
  | some rg =>
    if slots.isEmpty then s
    else
      let old := match tfind s.waves q.wid with | some w => w | none => q.w
      let s := s.writeLanes q rg ((want.zip slots).map fun e => (e.1.1, s.pxLane e.1.2 e.2.2))
      want.foldl (fun s e => s.dropRef q.wid q.seq e.1 q.pc none (old.latest rg e.1)) s
  | none => s

/-- LDX's effect (R277). -/
def ldxBody (i : Instr) (d a : Opd) (m : Mem) (q : Iss) (s : State) : Res :=
  if q.badFrame a then .bad 0x38
  else if q.lanes.any fun l => anyMalformed [q.index m l] then .bad 0x22
  else
    let tagged := (q.lanes.filter fun l => q.idxTagged m l).map fun l => (l, q.index m l)
    let plain := q.lanes.filter fun l => !q.idxTagged m l
    let ps := q.globalPieces s a m 4 .read plain fun _ => []
    let r0 := q.mkReq s.nextId i q.part (ps.map (·.1) ++ tagged.map fun e => postedPiece s e.1) q.cnt
    let r : Req := { r0 with aux := tagged.map fun e => (e.1, laneNat e.2) }
    if s.piecesNoPlane q.w.ctx (ps.map (·.1)) then .bad 0x74
    else if ps.any fun p => p.1.st == .untranslated || p.2.isSome then
      let s := (s.addReq q r).holdSplit q r.id
      .done (s.parkFaults q.wid r)
    else
      let want := q.lanes.map fun l => match tfind tagged l with
        | some x => (l, pxHome x.w)
        | none => (l, match s.ldxItem r l with | some e => e.1 | none => 0)
      let sent : Req := { r with pieces := r.pieces.map fun p => { p with st := .remote }, aux := [] }
      if (vDest d).isNone then .done ((s.addReq q sent).fillLdx q sent d a m tagged want [])
      else match s.judgeSlots q want with
        | .wait => .stay
        | .got slots => .done ((s.addReq q sent).fillLdx q sent d a m tagged want slots)
        | .out cause =>
          if q.grid.eff.demote then .done (((s.addReq q sent).holdSplit q sent.id).fillLdx q sent d a m tagged want []) else .bad cause

/-- LDX (R277). -/
def execLdx (h : Hints) (d a : Opd) (m : Mem) (s : State) : Result :=
  runInstr (.ldx h d a m) h (ldxBody (.ldx h d a m) d a m) s

/-- MAT's effect (R278). -/
def matBody (i : Instr) (d a : Opd) (q : Iss) (s : State) : Res :=
  let xs := q.lanes.map fun l => (l, q.src a l)
  let tagged := xs.filter fun x => x.2.tag
  if tagged.any fun x => pxMalformed x.2.w then .bad 0x22
  else
    let plain := (xs.filter fun x => !x.2.tag).map fun x => (x.1, x.2.w.toNat)
    if tagged.isEmpty then
      match vDest d with
      | some r => .done (((s.writeLanes q r (xs.map fun x => (x.1, ⟨false, x.2.w⟩))).dropOld q [r] q.lanes).quick q)
      | none => .done (s.quick q)
    else
      let op := s.nextId
      let s := s.openHomeOp q i (maskOf fun l => tagged.any fun x => x.1 == l) plain q.cnt true true
      .done (tagged.foldl (fun s x =>
        s.post q.wid (pxHome x.2.w) q.seq x.1 q.pc (.read (pxSlot x.2.w) (pxGen x.2.w)) (some op) q.rtag) s)

/-- MAT (R278). -/
def execMat (h : Hints) (d a : Opd) (s : State) : Result := runInstr (.mat h d a) h (matBody (.mat h d a) d a) s

/-- PXREL's effect (R279). -/
def pxrelBody (i : Instr) (d : Opd) (q : Iss) (s : State) : Res :=
  match d with
  | .v r =>
    let xs := (q.lanes.map fun l => (l, q.vlane r.toNat l)).filter fun x => x.2.tag
    if xs.any fun x => pxMalformed x.2.w then .bad 0x22
    else
      let s1 := s.writeLanes q r.toNat (xs.map fun x => (x.1, Lane.zero))
      if xs.isEmpty then .done (s1.quick q)
      else
        let op := s1.nextId
        let s := s1.openHomeOp q i (maskOf fun l => xs.any fun x => x.1 == l) [] q.cnt false false
        .done (xs.foldl (fun s x => s.dropRef q.wid q.seq x.1 q.pc (some op) x.2) s)
  | _ => .done (s.quick q)

/-- PXREL (R279). -/
def execPxrel (h : Hints) (d : Opd) (s : State) : Result := runInstr (.pxrel h d) h (pxrelBody (.pxrel h d) d) s

/-- ISPX's effect: a write in the issue clock; a write to p7 is discarded (R92, R279). -/
def ispxBody (d a : Opd) (q : Iss) (s : State) : Res :=
  let xs := q.lanes.map fun l => (l, (q.src a l).tag)
  .done ((s.modWave q.wid fun w => w.storeNow (match d with | .p p => pTargets p.toNat xs | _ => [])).quick q)

/-- ISPX (R279). -/
def execIspx (h : Hints) (d a : Opd) (s : State) : Result := runInstr (.ispx h d a) h (ispxBody d a) s

end Sys2Proof.Machine
end

