-- ==== Sys2Proof/Machine/HomeOps.lean ====
section
/-! DEFINITION. What a home sees of its messages: operands and slots (R104, R112), the addresses that it forms (R105), and what holds
an access of a home back behind its wave's own (R106, R264 to R267, R274). -/

namespace Sys2Proof.Machine

/-- An operand that is no value. -/
def HSrc.isBad : HSrc → Bool
  | .bad .. => true
  | _ => false

/-- An operand that waits for a forward. -/
def HSrc.waits : HSrc → Bool
  | .fwd _ => true
  | _ => false

/-- The operands of a message, in the order in which the first poisoned one counts (R112). -/
def HKind.srcs : HKind → List HSrc
  | .alu _ a b c _ => [a, b, c]
  | .load a _ => [a.off]
  | .store a _ d _ _ _ _ => [a.off, d]
  | .atom a _ d c n _ _ => [a.off, d, c, n]
  | _ => []

/-- Change the operands of a message. -/
def HKind.mapSrc (f : HSrc → HSrc) : HKind → HKind
  | .alu op a b c d => .alu op (f a) (f b) (f c) d
  | .load a d => .load { a with off := f a.off } d
  | .store a w d raw q pa k => .store { a with off := f a.off } w (f d) raw q pa k
  | .atom a op d c n dst nr => .atom { a with off := f a.off } op (f d) (f c) (f n) dst nr
  | k => k

/-- Whether a message is a posted ST that its home holds in the wave's store queue (R106). -/
def HomeItem.queued (h : HomeItem) : Bool :=
  match h.kind with
  | .store _ _ _ _ q _ _ => q
  | _ => false

/-- The slot that a message's result goes to. -/
def HKind.dst : HKind → Option (Nat × Nat)
  | .alu _ _ _ _ d | .load _ d | .fill _ _ d | .atom _ _ _ _ _ d _ => d
  | _ => none

/-- Whether a message is the first of its wave at its home: a home performs them in issue order (R104). -/
def State.firstOf (s : State) (h : HomeItem) : Bool :=
  match s.homeq.find? fun x => x.wid == h.wid && x.home == h.home && !x.queued with
  | some x => x.id == h.id
  | none => false

/-- Whether a word names the slot's present life: it is held and its generation agrees (R100, R108). -/
def Slot.current (x : Slot) (gen : Nat) : Bool := x.held && x.gen.toNat == gen

/-- What an operand reads at its home: a value, the record of a poisoned slot, or staleness (R104, R112). -/
def Home.read (h : Home) : HSrc → HSrc
  | .slot i g =>
    let x := h.slot i
    if !x.current g then .bad true none 0x21
    else if x.st == .poisoned then .bad false (some x.prec) (tget (⟨0, 0x26, 0⟩ : PRec) h.ptab x.prec).cause
    else .val x.val
  | x => x

/-- The value of an operand. -/
def HSrc.word : HSrc → Word
  | .val w => w
  | _ => 0

/-- The virtual address of a byte that a home addresses, with its offset from the base (R105). -/
def HAddr.at (a : HAddr) (off : Word) (k : Nat) : DWord × DWord :=
  let o := (off.signExtend 64 <<< a.scale) + a.add + BitVec.ofNat 64 k
  match a.frame with
  | some f => (o, BitVec.ofNat 64 (fVbase f) + o)
  | none => (o, a.base + o)

/-- A translation through a cluster TLB on a home's behalf, or by a walk (R105, R152). -/
def State.homeXlate (s : State) (ctx cluster : Nat) (va : DWord) (acc : Acc) : Except (BitVec 7) Tr :=
  if va.extractLsb' 56 8 != 0 then .error 0x33
  else match tlbFind (s.cluster cluster).tlb ctx va with
    | some t => s.judgeTr ctx t acc
    | none => match s.walk ctx va acc with | .ok (_, t) => .ok t | .error c => .error c

/-- Whether a byte at an offset lies in the frame that a home was given (R105). -/
def HAddr.inFrame (a : HAddr) (o : DWord) : Bool := match a.frame with | some f => decide (o.toNat < fLimit f) | none => false

/-- Where a byte that a home addresses lies: address and key slot, or the fault (R105, R151). -/
def State.homeByte (s : State) (it : HomeItem) (a : HAddr) (off : Word) (k : Nat) (acc : Acc) : Except (BitVec 7) (Nat × Nat) :=
  let (o, va) := a.at off k
  let viaTlb : Except (BitVec 7) (Nat × Nat) := match s.homeXlate it.ctx (cluOf (wCore it.wid)) va acc with
    | .ok t => .ok (t.pa va, t.key)
    | .error c => .error c
  let where_ : Except (BitVec 7) (Nat × Nat) := match a.frame with
    | some f =>
      if o.toNat < fLimit f then (if acc.writes && !fWrite f then .error 0x31 else .ok (fPbase f + o.toNat, fKey f)) else viaTlb
    | none => viaTlb
  match where_ with
  | .ok x => if s.noPlane it.ctx x.1 then .error 0x74 else .ok x
  | .error c => .error c

/-- The parts of an access of n bytes that a home makes: its place in the access, its length, address and key slot (R105,
R267). -/
def State.homeParts (s : State) (it : HomeItem) (a : HAddr) (off : Word) (n : Nat) (acc : Acc) :
    Except (BitVec 7) (List (Nat × Nat × Nat × Nat)) :=
  (cutAccess (a.at off 0).2.toNat n).foldlM (fun (out : List (Nat × Nat × Nat × Nat)) c =>
    match s.homeByte it a off c.1 acc with
    | .ok (pa, key) => .ok (out ++ [(c.1, c.2, pa, key)])
    | .error c => .error c) []

/-- A home's access of n bytes through the issuing core's cluster TLB: a miss counts event 0x06, and a walk fills the TLB (R58, R105, R153).
Which entry it replaces is not architectural. -/
def State.homeMissed (s : State) (it : HomeItem) (a : HAddr) (off : Word) (n : Nat) (acc : Acc) : State :=
  let k := cluOf (wCore it.wid)
  (cutAccess (a.at off 0).2.toNat n).foldl (fun (s : State) c =>
    let (o, va) := a.at off c.1
    if decide (k ≥ 24) || a.inFrame o || va.extractLsb' 56 8 != 0 || (tlbFind (s.cluster k).tlb it.ctx va).isSome then s
    else
      let s1 := (s.pmc it.ctx 6 1).walked it.ctx va
      match s1.walk it.ctx va acc with
      | .error _ => s1
      | .ok (_, t) =>
        let s2 := s1.modCluster k fun c => { c with tlb := tlbAdd 4096 (Config.pick s1.fresh) it.ctx va t c.tlb }
        { s2 with fresh := s2.fresh + 1 }) s

/-- Whether the controllers can serve the walks of such an access now (R322, R329, R331). -/
def State.homeServable (s : State) (it : HomeItem) (a : HAddr) (off : Word) (n : Nat) : Bool :=
  let k := cluOf (wCore it.wid)
  (cutAccess (a.at off 0).2.toNat n).all fun c =>
    let (o, va) := a.at off c.1
    a.inFrame o || (tlbFind (s.cluster k).tlb it.ctx va).isSome || s.walkServable it.ctx va

/-- Whether a remote request of a message is under way (R184). -/
def State.homeSent (s : State) (id : Nat) : Bool := s.link.remotes.any fun r => match r.what with | .home i _ => i == id | _ => false

/-- The plane of a remote request: sector bits [17:5] modulo the number of planes (R184). -/
def State.planeFor (s : State) (ctx pa : Nat) : Option Nat :=
  let ps := s.planes ctx
  ps[pa / 32 % 8192 % ps.length]?

/-- Whether a wave has a remote request to a sector under way; one whose reply will be dropped holds nothing back (R96, R184). -/
def State.peerHeld (s : State) (wid sector : Nat) : Bool :=
  s.link.remotes.any fun r => r.wid == wid && r.sector == sector && r.what != .dropped

/-- Send a remote request, unless an earlier one of the wave to the same sector is outstanding (R184). -/
def State.sendRemote (s : State) (wid ctx pa : Nat) (what : RemoteWhat) : State :=
  if s.peerHeld wid (pa / 32) then s
  else match s.planeFor ctx pa with
    | none => s
    | some p =>
      let r : Remote := ⟨s.nextId, wid, tget 0 (s.core (wCore wid)).gens (wSlot wid), ctx, p, pa / 32, s.t7, what⟩
      { s with nextId := s.nextId + 1, link := { s.link with remotes := s.link.remotes ++ [r] } }

/-- The data bytes of a posted ST: the bytes that travel with it, or the low bytes of its slot's value (R103). -/
def storeData (width : Width) (d : HSrc) (raw : List Byte) : List Byte :=
  match width with
  | .w64 | .w128 => raw
  | _ => (leBytes 4 d.word.toNat).take (widthBytes width)

/-- A message as its home reads it: its slots are read, its forwards have come. -/
def State.readyKind (s : State) (it : HomeItem) : Option HKind :=
  let k := it.kind.mapSrc (s.home it.home).read
  if k.srcs.any HSrc.waits then none else some k

/-- Whether a part of an access that a home makes lies in a placed sector. -/
def State.partsTouch (s : State) (it : HomeItem) (a : HAddr) (n : Nat) (acc : Acc) (sec : Nat) : Bool :=
  match s.homeParts it a a.off.word n acc with
  | .ok ps => ps.any fun p => s.place p.2.2.1 / 32 == sec
  | .error _ => false

/-- Whether a memory access of a home may touch a placed sector: one whose address is still to be computed may touch any (R105). -/
def State.itemTouches (s : State) (it : HomeItem) (sec : Nat) : Bool :=
  match it.kind with
  | .fill parts _ _ => parts.any fun p => s.place p.2.1 / 32 == sec
  | .store _ _ _ _ true pa _ => s.place pa / 32 == sec
  | .load .. | .store .. | .atom .. =>
    if !s.firstOf it then true
    else match s.readyKind it with
      | none => true
      | some k => !(k.srcs.any HSrc.isBad) && match k with
        | .load a _ => s.partsTouch it a 4 .read sec
        | .store a w d raw _ _ _ => s.partsTouch it a (storeData w d raw).length .store sec
        | .atom a _ _ _ _ _ _ => s.partsTouch it a 1 .write sec
        | _ => false
  | _ => false

/-- Whether a home access of the wave before a place in issue order, and not in a store queue, is still to be performed at a placed sector
(R106, R267, R274). -/
def State.postedBefore (s : State) (wid at_ sec : Nat) : Bool :=
  decide (wid < 192 * 96) && s.homeq.any fun h => h.wid == wid && decide (h.place < at_) && !h.queued && s.itemTouches h sec

/-- Whether an LDX or a posted ATOM of the wave before a place in issue order is still to be performed at a placed sector (R267). -/
def State.readBefore (s : State) (wid at_ sec : Nat) : Bool :=
  decide (wid < 192 * 96) && s.homeq.any fun h => h.wid == wid && decide (h.place < at_) && s.itemTouches h sec && match h.kind with
    | .store .. => false
    | _ => true

/-- The bytes of its sector that an access of `n` bytes at an address takes. -/
def bytesAt (pa n : Nat) : BitVec 32 := BitVec.ofNat 32 ((2 ^ n - 1) * 2 ^ (pa % 32))

/-- The bytes of a placed sector that a store takes which a home holds in its queue. -/
def State.queuedAt (s : State) (h : HomeItem) (sec : Nat) : BitVec 32 :=
  match h.kind with
  | .store _ _ _ raw true pa _ => if s.place pa / 32 = sec then bytesAt pa raw.length else 0
  | _ => 0

/-- Whether a home still holds a store of the wave to some bytes of a placed sector from before a place in issue order (R106, R267). -/
def State.queuedBefore (s : State) (wid at_ sec : Nat) (bytes : BitVec 32) : Bool :=
  s.homeq.any fun h => h.wid == wid && decide (h.place < at_) && s.queuedAt h sec &&& bytes != 0

/-- Whether an access of the wave to some bytes of a placed sector, made past the store buffer, stands behind nothing of its wave: earlier
requests to the sector, accesses of homes there, and stores that homes hold to its bytes (R267, R274). -/
def State.nextThere (s : State) (wid : Nat) (w : Wave) (at_ sec : Nat) (bytes : BitVec 32) : Bool :=
  !s.earlier w at_ sec && !s.postedBefore wid at_ sec && !s.queuedBefore wid at_ sec bytes

/-- Whether an access of a home may go to a sector: no acquire of the wave holds it, and no earlier request of the core to the sector is
still to be performed (R266, R267). -/
def State.homeClear (s : State) (it : HomeItem) (pa : Nat) : Bool :=
  !s.acqBlocked it.wid it.seq && match tfind s.waves it.wid with
    | some w => !s.earlier w it.place (s.place pa / 32)
    | none => true

/-- Whether a store of the wave to a placed sector that a release before the LDX covers is still to be performed: an LDX with a tagged
offset sees it (R105). -/
def State.coveredStore (s : State) (it : HomeItem) (sec : Nat) : Bool :=
  match tfind s.waves it.wid with
  | none => false
  | some w => w.rels.any fun r => decide (r.seq < it.seq) &&
      (w.sb.any (fun e => s.place (e.sector * 32) / 32 == sec && e.bytes.any fun b => decide (b.seq < r.seq))
        || s.queuedBefore it.wid (laneSeq r.seq 0) sec (BitVec.allOnes 32) || s.homeq.any fun h => h.wid == it.wid && decide (h.seq < r.seq) && h.stores && !h.queued)

/-- Whether a home can take a message now: it works, and the message is the next of its wave (R104, R113). -/
def State.itemReady (s : State) (it : HomeItem) : Bool := !(s.home it.home).failed && s.firstOf it && !s.homeSent it.id

/-- Whether the answer of a message crosses to its core: a comparison, or a demoted result (R107). -/
def HomeItem.crosses (h : HomeItem) : Bool :=
  match h.kind with
  | .alu _ _ _ _ none => h.op.isSome
  | .read _ _ => true
  | _ => false

/-- Whether a message is a posted lane of a release store that stands in its home's queue: it keeps the operation that waits for it (R271). -/
def HomeItem.relStore (h : HomeItem) : Bool := h.queued && h.op.isSome

/-- Where a load of a home reads: its parts, each with its length, address and key slot; or its fault (R105, R277). -/
def State.loadParts (s : State) (it : HomeItem) : Option (Except (BitVec 7) (List (Nat × Nat × Nat))) :=
  match it.kind with
  | .fill parts _ _ => some (.ok parts)
  | .load .. => match s.readyKind it with
    | some (.load a _) => if a.off.isBad then none else some ((s.homeParts it a a.off.word 4 .read).map fun l => l.map fun p => (p.2.1, p.2.2.1, p.2.2.2))
    | _ => none
  | _ => none

/-- Whether a load of a home may read a part now, behind what its wave has issued before it: an LDX with an untagged offset is a load of
the wave; one with a tagged offset waits for the stores that a release covers (R105, R264, R267). -/
def State.loadClear (s : State) (it : HomeItem) (pa : Nat) : Bool :=
  s.homeClear it pa && match it.kind with
    | .fill .. => !s.postedBefore it.wid it.place (s.place pa / 32)
    | _ => !s.coveredStore it (s.place pa / 32) && !s.readBefore it.wid it.place (s.place pa / 32)

/-- Where a posted ATOM is performed: its address, aligned, with its key slot; or its fault (R105, R273). -/
def State.atomAt (s : State) (it : HomeItem) : Option (Except (BitVec 7) (Nat × Nat)) :=
  match it.kind with
  | .atom .. => match s.readyKind it with
    | some (.atom a _ d c n _ _) =>
      if [a.off, d, c, n].any HSrc.isBad then none else some ((s.homeByte it a a.off.word 0 .write).map fun x => (x.1 - x.1 % 4, x.2))
    | _ => none
  | _ => none

/-- Whether a posted ATOM stands before memory, with nothing of its wave in its way but stores that homes hold (R265, R267, R274). -/
def State.atomClear (s : State) (it : HomeItem) (pa : Nat) : Bool :=
  s.itemReady it && !s.relBlocked it.wid it.seq && s.homeClear it pa && !s.postedBefore it.wid it.place (s.place pa / 32)

/-- Whether a posted ATOM is next at its sector (R267, R274). -/
def State.atomNext (s : State) (it : HomeItem) (pa : Nat) : Bool :=
  s.atomClear it pa && match tfind s.waves it.wid with
    | some w => s.nextThere it.wid w it.place (s.place pa / 32) (bytesAt pa 4)
    | none => true

/-- What asks for the stores of its wave that homes hold to be performed at bytes of a placed sector, each with its place in issue order: an
atomic or a release store, of the core or posted, with nothing else in its way (R267, R274). -/
def State.asks (s : State) (wid : Nat) (w : Wave) (sec : Nat) : List (Nat × BitVec 32) :=
  (w.reqs.flatMap fun (r : Req) => if !performsAtOwner r.instr || s.acqBlocked wid r.seq || s.relBlocked wid r.seq then []
    else r.pieces.filterMap fun (p : Piece) => match p.st, p.loc with
      | .ready, .mem pa _ =>
        let at_ := laneSeq r.seq p.lane
        if s.place pa / 32 = sec ∧ !s.earlier w at_ sec ∧ !s.postedBefore wid at_ sec then some (at_, bytesAt pa p.len) else none
      | _, _ => none)
    ++ (s.homeq.filter fun h => h.wid == wid).filterMap fun (h : HomeItem) =>
      if h.relStore && !s.relBlocked h.wid h.seq then some (h.place, s.queuedAt h sec)
      else match s.atomAt h with
        | some (.ok (pa, _)) => if s.place pa / 32 = sec ∧ s.atomClear h pa then some (h.place, bytesAt pa 4) else none
        | _ => none

/-- Whether a store that a home holds is asked for: by a later access of its wave to its bytes, or by a later store to its bytes that is
asked for itself. An atomic or a release store follows every store of its wave to its bytes (R106, R267, log 58). -/
def State.demanded (s : State) (it : HomeItem) (w : Wave) (sec : Nat) : Bool :=
  let held := (s.homeq.filter fun h => h.wid == it.wid && s.queuedAt h sec != 0).mergeSort fun a b => decide (b.place ≤ a.place)
  let asked := fun (l : List (Nat × BitVec 32)) (h : HomeItem) => l.any fun x => decide (h.place < x.1) && s.queuedAt h sec &&& x.2 != 0
  let all := held.foldl (fun l h => if asked l h then (h.place, s.queuedAt h sec) :: l else l) (s.asks it.wid w sec)
  asked all it

/-- Whether a home may perform a queued store at memory: a release covers it, or it is a release store whose release has completed, or an
access of its wave waits for it; nothing before it is in its way (R106, R265, R267, R271). -/
def State.queuedClear (s : State) (it : HomeItem) : Bool :=
  match it.kind, tfind s.waves it.wid with
  | .store _ _ _ raw true pa _, some w =>
    let sec := s.place pa / 32
    !s.relBlocked it.wid it.seq && !(s.home it.home).failed && !s.homeSent it.id && !s.acqBlocked it.wid it.seq
      && s.nextThere it.wid w it.place sec (bytesAt pa raw.length)
      && (w.rels.any (fun r => decide (it.seq < r.seq)) || it.relStore || s.demanded it w sec)
  | _, _ => false

end Sys2Proof.Machine
end

