-- ==== Sys2Proof/Machine/Waiting.lean ====
section
/-! DEFINITION. What waits at the channel groups of the memory controllers, and which access a command slot chooses (R327, R328). -/

namespace Sys2Proof.Machine

/-- A sector at which an access waits: where it is placed, when the controller accepted it (log 121), and whether the access is stopped
there before it is served. -/
structure Due where
  sector  : Nat
  since   : Nat
  stopped : Bool
  deriving DecidableEq, Repr

/-- An access at the memory controllers, named as in `Started`: a request that reads (kind 0), an atomic or release store (1), a buffered
store (2), a message to a home (3); with its sectors in one channel group. `wid` and `seq` name the instruction, whose sectors there form
one request (R327); that of a buffered store is the last that wrote to the sector (log 121). -/
structure Waiting where
  kind    : Nat
  a       : Nat
  b       : Nat
  wid     : Nat
  seq     : Nat
  ctx     : Nat
  age     : Nat
  fmem    : Nat
  write   : Bool
  sectors : List Due
  deriving DecidableEq, Repr

/-- FMEM of the grid of a team (R73). -/
def State.fmemOf (s : State) (team : Nat) : Nat := match s.gridOf team with | some g => g.eff.fmem | none => 0

/-- One entry for each sector, the first. -/
def distinctDues (ds : List Due) : List Due := ds.foldl (fun out d => if out.any fun x => x.sector == d.sector then out else out ++ [d]) []

/-- The sector requests of a core: for each request that reads, the sectors that have no data yet or are still to reach their lanes,
oldest request first (R270). -/
def State.coreSectors (s : State) (core : Nat) : List (Nat × Nat) :=
  let rs := (s.waves.filter fun e => wCore e.1 == core).flatMap fun (e : Nat × Wave) => e.2.reqs.filter fun r => isSectorLoad r.instr
  (rs.mergeSort fun a b => decide (a.id ≤ b.id)).flatMap fun r =>
    ((r.pieces.filterMap fun (p : Piece) => match p.loc with
      | .mem pa _ => if p.st == .ready || p.st == .served then some (r.id, s.place pa / 32) else none
      | _ => none)).eraseDups

/-- Whether a sector of a request is one of the 4,096 that its core has outstanding: the others are sent as requests free (R270). -/
def State.mayAsk (s : State) (core req sec : Nat) : Bool :=
  let all := s.coreSectors core
  decide (all.length ≤ 4096) || (all.take 4096).contains (req, sec)

/-- The sectors that a core holds back are not at their controllers yet: their time there starts when they are sent (R270, R333). -/
def State.stampUnsent (s : State) (core : Nat) : State :=
  if (s.coreSectors core).length ≤ 4096 then s
  else
    let stamp := fun (r : Req) (p : Piece) => match p.loc with
      | .mem pa _ => if p.st == .ready && !s.mayAsk core r.id (s.place pa / 32) then { p with t := s.t7 } else p
      | _ => p
    { s with waves := s.waves.map fun (e : Nat × Wave) =>
        (e.1, if wCore e.1 = core then { e.2 with reqs := e.2.reqs.map fun r => if isSectorLoad r.instr then { r with pieces := r.pieces.map (stamp r) } else r }
              else e.2) }

/-- The sectors that a request which reads may read now: no acquire of its wave holds it, and nothing of its wave before it is still to
be performed there (R266, R267, R327). -/
def State.loadDues (s : State) (wid : Nat) (w : Wave) (r : Req) : List Due :=
  if !isSectorLoad r.instr || s.acqBlocked wid r.seq || s.holdsBack w r then []
  else
    let at_ := laneSeq r.seq 0
    distinctDues (r.pieces.filterMap fun (p : Piece) => match p.st, p.loc with
      | .ready, .mem pa key =>
        let sec := s.place pa / 32
        if s.isPeer (s.place pa) || s.earlier w at_ sec || s.postedBefore wid at_ sec || !s.mayAsk (wCore wid) r.id sec then none
        else some ⟨sec, p.t, (s.stopAt (some (0, wid, r.id)) w.ctx pa key false).isSome⟩
      | _, _ => none)

/-- Whether a wave's store buffer holds a byte of a placed sector from before a place in issue order (R264, R274). -/
def State.bufferedBefore (s : State) (w : Wave) (at_ sec : Nat) : Bool :=
  w.sb.any fun e => s.place (e.sector * 32) / 32 == sec && e.bytes.any fun b => decide (b.place < at_)

/-- What keeps an atomic or a release store from being performed at a sector, if anything does. -/
def State.ownerStop (s : State) (wid ctx : Nat) (r : Req) (p : Piece) : Option (BitVec 7) :=
  match p.loc with
  | .mem pa key =>
    if (atomOf r.instr).isSome then s.stopAt (some (0, wid, r.id)) ctx pa key true else s.storeStop (some (0, wid, r.id)) ctx (pa / 32) key p.len
  | _ => none

/-- The sectors at which an atomic or a release store may be performed now: its release is complete, and nothing of its wave before it is
still to be performed there; a buffered store of the wave there is released before an atomic (R265 to R267, R271, R274). -/
def State.ownerDues (s : State) (wid : Nat) (w : Wave) (r : Req) : List Due :=
  if !performsAtOwner r.instr || s.acqBlocked wid r.seq || s.relBlocked wid r.seq || s.holdsBack w r then []
  else distinctDues (r.pieces.filterMap fun (p : Piece) => match p.st, p.loc with
    | .ready, .mem pa _ =>
      let sec := s.place pa / 32
      let at_ := laneSeq r.seq p.lane
      if s.isPeer (s.place pa) || !s.nextThere wid w at_ sec (bytesAt pa p.len) || ((atomOf r.instr).isSome && s.bufferedBefore w at_ sec) then none
      else some ⟨sec, p.t, (s.ownerStop wid w.ctx r p).isSome⟩
    | _, _ => none)

/-- The place of the latest release of a wave, of team scope or wider, that covers buffered stores (R264). -/
def Wave.coverSeq (w : Wave) : Nat := laneSeq ((w.rels.map (·.seq)).foldl max 0) 0

/-- The stores of an entry before a place in issue order, with those that stay. -/
def SEntry.cut (e : SEntry) (cover : Nat) : List SByte × List SByte :=
  (e.bytes.filter fun b => decide (b.place < cover), e.bytes.filter fun b => !decide (b.place < cover))

/-- The places of the wave's accesses that a store to a placed sector must not overtake: its requests there, its accesses at homes
there, and its acquires that are not complete (R106, R266, R267). -/
def State.barSeqs (s : State) (wid : Nat) (w : Wave) (sec : Nat) : List Nat :=
  (w.reqs.flatMap fun r => (r.pieces.filter fun p => s.touches p sec).map fun p => laneSeq r.seq p.lane)
    ++ w.acqs.map (fun a => laneSeq (a.seq + 1) 0) ++ ((s.portq.filter fun p => p.wid == wid && p.observes).map fun p => laneSeq (p.seq + 1) 0)
    ++ (s.homeq.filter fun h => h.wid == wid && s.itemTouches h sec).map HomeItem.place

/-- The place before which the bytes of an entry reached their controller before the close point of a window, while some of them stand
(R54). -/
def State.earlyCap (s : State) (wid : Nat) (e : SEntry) : Option Nat :=
  let w := s.window (winOfKey e.key)
  if w.st = .closing then (w.early.find? fun x => x.kind == 2 && x.a == wid && x.b == e.id && s.earlyStands e.key x).map (·.cap) else none

/-- The stored bytes of an entry that a controller may accept now, and those that stay: those from before a close point go first. -/
def State.coveredBytes (s : State) (wid : Nat) (w : Wave) (e : SEntry) : List SByte × List SByte :=
  let cover := (s.barSeqs wid w (s.place (e.sector * 32) / 32)).foldl min w.coverSeq
  e.cut (match s.earlyCap wid e with | some c => min cover c | none => cover)

/-- The release that sends stored bytes out: the earliest that covers them all. -/
def Wave.relFor (w : Wave) (go : List SByte) : Option Rel :=
  let last := (go.map (·.seq)).foldl max 0
  (w.rels.filter fun r => decide (last < r.seq)).foldl (fun (m : Option Rel) r => match m with
    | some x => if r.seq < x.seq then some r else some x
    | none => some r) none

/-- The lanes whose stores some bytes are. -/
def byteLanes (bs : List SByte) : Word := maskOf fun l => bs.any fun b => b.lane == l

/-- The write that stored bytes make: for each place the last one. -/
def SEntry.cells (go : List SByte) : List (Nat × Byte) := lastBytes (go.map fun b => (b.off, b.val))

/-- The sector to which a buffered store goes out now, while a release covers it. -/
def State.bufferDues (s : State) (wid : Nat) (w : Wave) (e : SEntry) : List Due :=
  let go := (s.coveredBytes wid w e).1
  if go.isEmpty || s.isPeer (s.place (e.sector * 32)) then []
  else
    let t := match w.relFor go with | some r => r.t | none => s.t7
    [⟨s.place (e.sector * 32) / 32, t, (s.storeStop (some (2, wid, e.id)) w.ctx e.sector e.key (SEntry.cells go).length).isSome⟩]

/-- The sectors that a message makes its home access now (R104 to R106). -/
def State.homeDues (s : State) (it : HomeItem) : List Due :=
  let due := fun (pa : Nat) (stop : Option (BitVec 7)) => (⟨s.place pa / 32, it.t, stop.isSome⟩ : Due)
  match it.kind with
  | .store _ _ _ raw true pa key =>
    if s.isPeer (s.place pa) || !s.queuedClear it then [] else [due pa (s.storeStop (some (3, it.id, 0)) it.ctx (pa / 32) key raw.length)]
  | .atom .. => match s.atomAt it with
    | some (.ok (pa, key)) => if s.isPeer (s.place pa) || !s.atomNext it pa then [] else [due pa (s.stopAt (some (3, it.id, 0)) it.ctx pa key true)]
    | _ => []
  | .fill .. | .load .. =>
    if !s.itemReady it then []
    else match s.loadParts it with
      | some (.ok ps) =>
        if ps.all fun p => s.loadClear it p.2.1 then
          distinctDues ((ps.filter fun p => !s.isPeer (s.place p.2.1)).map fun p => due p.2.1 (s.stopAt (some (3, it.id, 0)) it.ctx p.2.1 p.2.2 false))
        else []
      | _ => []
  | _ => []

/-- The last instruction that wrote some stored bytes, by its place in issue order. -/
def lastSeq (bs : List SByte) : Nat := (bs.map (·.seq)).foldl max 0

/-- Every access that stands before memory, with all its sectors. -/
def State.standing (s : State) : List Waiting :=
  (s.waves.flatMap fun (e : Nat × Wave) =>
      let fm := s.fmemOf e.2.team
      (e.2.reqs.flatMap fun r => [(⟨0, e.1, r.id, e.1, r.seq, e.2.ctx, r.id, fm, false, s.loadDues e.1 e.2 r⟩ : Waiting),
        ⟨1, e.1, r.id, e.1, r.seq, e.2.ctx, r.id, fm, true, s.ownerDues e.1 e.2 r⟩])
      ++ e.2.sb.map fun x => ⟨2, e.1, x.id, e.1, lastSeq (s.coveredBytes e.1 e.2 x).1, e.2.ctx, x.id, fm, true, s.bufferDues e.1 e.2 x⟩)
    ++ s.homeq.map fun h => ⟨3, h.wid, h.seq, h.wid, h.seq, h.ctx, h.id,
      match tfind s.grids h.grid with | some g => g.eff.fmem | none => 0, h.stores, s.homeDues h⟩

/-- The accesses of a window's importer that have reached their controllers: they stand there, or have been read and are to return (R54,
log 129). -/
def State.reached (s : State) (w : Nat) : List Early :=
  let key := 63 + w
  let mine := s.waves.filter fun e => e.2.ctx == (s.window w).importer
  let item := fun (it : HomeItem) => match it.kind with
    | .store _ _ _ _ true _ k => k == key
    | .atom .. => match s.atomAt it with | some (.ok (_, k)) => k == key | _ => false
    | _ => match s.loadParts it with | some (.ok ps) => ps.any fun p => p.2.2 == key | _ => false
  (mine.flatMap fun (e : Nat × Wave) =>
      (e.2.reqs.filterMap fun r =>
        let due := (s.loadDues e.1 e.2 r ++ s.ownerDues e.1 e.2 r).map (·.sector)
        let here := fun (p : Piece) => match p.st, p.loc with
          | .served, .mem _ k => k == key
          | .ready, .mem pa k => k == key && due.contains (s.place pa / 32)
          | _, _ => false
        if r.pieces.any here then some (⟨0, e.1, r.id, 0⟩ : Early) else none)
      ++ e.2.sb.filterMap fun x => if x.key == key && !(s.bufferDues e.1 e.2 x).isEmpty then some ⟨2, e.1, x.id, e.2.coverSeq⟩ else none)
    ++ (s.homeq.filter fun h => h.ctx == (s.window w).importer && item h && !(s.homeDues h).isEmpty).map fun h => ⟨3, h.id, 0, 0⟩

/-- The accesses that stand before a channel group, each with its sectors there. -/
def State.accesses (s : State) (g : Nat) : List Waiting :=
  (s.standing.map fun x => { x with sectors := x.sectors.filter fun d => s.groupOf (d.sector * 32) == g }).filter fun x => !x.sectors.isEmpty

/-- The entry of an access that a command slot has chosen, at a sector. -/
def Group.entry (q : Group) (kind a b sec : Nat) : Option Started :=
  q.started.find? fun e => e.kind == kind && e.a == a && e.b == b && e.sector == sec

/-- The accesses that wait at a channel group, oldest first: a sector whose commands are chosen already waits no longer (R327). -/
def State.waiting (s : State) (g : Nat) : List Waiting :=
  let q := s.group g
  let left := (s.accesses g).map fun x => { x with sectors := x.sectors.filter fun d => x.kind == 0 || (q.entry x.kind x.a x.b d.sector).isNone }
  (left.filter fun x => !x.sectors.isEmpty).mergeSort fun x y => decide (x.age ≤ y.age)

/-- The accesses of a channel group that a command slot may choose: those with a sector that its channel can serve (R329, R331). -/
def State.servable (s : State) (g : Nat) : List Waiting :=
  let can := (s.waiting g).map fun x => { x with sectors := x.sectors.filter fun d => d.stopped || s.canServe (d.sector * 32) }
  can.filter fun x => !x.sectors.isEmpty

/-- How far a context's served share lies below its floor, times 256 (R328). -/
def State.belowFloor (s : State) (g : Nat) (x : Waiting) : Nat :=
  let served := (s.group g).served
  x.fmem * max served.length 1 - (served.filter (· == x.ctx)).length * 256

/-- Whether an engine's own access to a channel group is not behind another: with an empty bucket it waits while any request of a context
that holds a token can be served there (R328). -/
def State.engineTurn (s : State) (ctx g : Nat) : Bool :=
  decide (s.bucketSpent ctx g < 4096) || !(s.servable g).any fun x => decide (s.bucketSpent x.ctx g < 4096)

/-- The access that a command slot chooses, and whether its sectors spend tokens: a request that has started goes on; then the context
lowest below its floor; then the oldest of those with a token; then the oldest (R327, R328). -/
def State.slotPick (s : State) (g : Nat) : Option (Waiting × Bool) :=
  let ws := s.servable g
  match ((s.group g).started.filter fun e => e.kind == 4).findSome? fun e => (ws.find? fun x => x.wid == e.a && x.seq == e.b).map fun x => (x, e.spend) with
  | some x => some x
  | none =>
    match ws.foldl (fun (m : Option Waiting) x =>
        if s.belowFloor g x = 0 then m else match m with
          | none => some x
          | some y => if s.belowFloor g x > s.belowFloor g y then some x else some y) none with
    | some x => some (x, true)
    | none =>
      match ws.find? fun x => decide (s.bucketSpent x.ctx g < 4096) with
      | some x => some (x, true)
      | none => ws.head?.map fun x => (x, false)

/-- Whether the data of an access have moved at a placed sector: it may be performed there (R330). -/
def State.accessDone (s : State) (kind a b sec : Nat) : Bool :=
  match (s.group (s.groupOf (sec * 32))).entry kind a b sec with
  | some e => decide (e.done ≤ s.t7)
  | none => false

/-- An access is performed at a placed sector, and gives up its place. -/
def State.endAccess (s : State) (kind a b sec : Nat) : State :=
  s.modGroup (s.groupOf (sec * 32)) fun q => { q with started := q.started.filter fun e => !(e.kind == kind && e.a == a && e.b == b && e.sector == sec) }

/-- Whether an accepted access stands in a bank, waiting or unfinished (R330). -/
def State.accepted (s : State) (g chan bank : Nat) : Bool :=
  (s.waiting g).any fun x => x.sectors.any fun d => chanOf (d.sector * 32) == some chan && (bankRow (d.sector * 32)).1 == bank

end Sys2Proof.Machine
end

