-- ==== Sys2Proof/Machine/MemEvents.lean ====
section
/-! DEFINITION. The steps that serve memory requests: command slots (R327, R328), returning sectors (R270), accepted stores
(R264), atomics and release stores (R271, R273), translation misses (R153). -/

namespace Sys2Proof.Machine

/-- Serve one sector of a load: its pieces take their bytes, the wave's own buffered stores included, and leave the controller once the
column has been read (R264, R270, R330). -/
def State.serveSector (s : State) (wid req : Nat) (d : Due) (spend : Bool) : State :=
  match (tfind s.waves wid).bind fun w => (w.req req).map fun r => (w, r) with
  | none => s
  | some (w, r) =>
    let mine := fun p : Piece => p.st == .ready && s.touches p d.sector
    let stops := (r.pieces.filter mine).filterMap fun p => match p.loc with
      | .mem pa key => (s.stopAt (some (0, wid, req)) w.ctx pa key false).map fun c => (c, pa, p.va)
      | _ => none
    match stops with
    | (c, pa, va) :: _ => (s.noteStop w.ctx pa c).parkReq wid r c va (lanesIn (r.pieces.filter mine))
    | [] =>
      let (done, s) := s.access w.ctx (d.sector * 32) d.since false spend
      let r := r.mapPieces mine fun p =>
        match p.loc with
        | .mem pa _ => { p with st := .served, data := s.overlay wid w r.seq pa (s.physRead pa p.len), due := done }
        | _ => p
      s.modWave wid fun w => w.setReq r

/-- Whether a group's command slot is left idle: one in every four at 95 °C or above (R332). -/
def State.idleSlot (s : State) (g : Nat) : Bool :=
  decide (g < 64) && decide ((tget ((0, 0) : BitVec 8 × BitVec 2) s.mc.therm (g / 8)).2.toNat ≥ 2) && tget 0 s.mc.slot g % 4 == 3

/-- The commands of an access at one of its sectors: a load reads; of any other access the time at which it can be performed is known from
now on (R327, R330). -/
def State.serveAccess (s : State) (g : Nat) (x : Waiting) (d : Due) (spend : Bool) : State :=
  let mark := if (s.group g).started.any fun e => e.kind == 4 && e.a == x.wid && e.b == x.seq then [] else [(⟨4, x.wid, x.seq, 0, spend, 0⟩ : Started)]
  if x.kind = 0 then (s.modGroup g fun q => { q with started := q.started ++ mark }).serveSector x.a x.b d spend
  else
    let (done, s) := if d.stopped then (s.t7, s) else s.access x.ctx (d.sector * 32) d.since x.write spend
    s.modGroup g fun q => { q with started := q.started ++ mark ++ [⟨x.kind, x.a, x.b, d.sector, spend, done⟩] }

/-- Forget the entries of a channel group whose access no longer stands there. -/
def State.pruneStarted (s : State) (g : Nat) : State :=
  if (s.group g).started.isEmpty then s
  else
    let xs := s.accesses g
    let stands := fun (e : Started) => xs.any fun x =>
      if e.kind = 4 then x.wid == e.a && x.seq == e.b else x.kind == e.kind && x.a == e.a && x.b == e.b && x.sectors.any fun d => d.sector == e.sector
    s.modGroup g fun q => { q with started := q.started.filter stands }

/-- COMMAND_SLOT (R328): a channel group chooses an access and serves one of its sectors. -/
def execCommandSlot (group : Nat) (s : State) : Result :=
  let idle := s.idleSlot group
  let s : State := { s with mc := { s.mc with slot := tset 0 s.mc.slot group ((tget 0 s.mc.slot group + 1) % 4) } }
  let s := s.pruneStarted group
  .next (if idle then s
  else match s.slotPick group with
  | none => s
  | some (x, spend) =>
    match (x.sectors.mergeSort fun a b => decide (a.sector ≤ b.sector)).head? with
    | some d => (s.serveAccess group x d spend).pruneStarted group
    | none => s)

/-- MEMORY_SECTOR_RETURN (R270): the bytes of a sector that have left the controller reach their lanes. -/
def execMemorySectorReturn (wid req sector : Nat) (s : State) : Result :=
  .next (match tfind s.waves wid with
  | none => s
  | some w =>
    match w.req req with
    | none => s
    | some r =>
      s.deliver wid r fun p => p.st == .served && decide (p.due ≤ s.t7) && match p.loc with | .mem pa _ => pa / 32 == sector | _ => false)

/-- Let the stores that wait for an entry of a core's store buffer take one, wave by wave (R264). -/
def State.retryStores (s : State) (core : Nat) : State :=
  ((s.waves.filter fun e => wCore e.1 == core).map (·.1)).foldl (fun (s : State) wid =>
    match tfind s.waves wid with
    | none => s
    | some w =>
      (w.reqs.filter fun r => r.stuck && match r.instr with | .st _ _ _ _ m | .sst _ _ _ _ m => !orderRel (memOrder m) | _ => false).foldl
        (fun s r => s.goStore wid r) s) s

/-- STORE_ACCEPTED (R264): a controller accepts the covered bytes of a buffered store while a release completes; a store to a
peer slot goes out as a remote request (R184). -/
def execStoreAccepted (wid entry : Nat) (s : State) : Result :=
  .next (match tfind s.waves wid with
  | none => s
  | some w =>
    match w.sb.find? fun e => e.id == entry with
    | none => s
    | some e =>
      let sec := s.place (e.sector * 32) / 32
      let (go, stay) := s.coveredBytes wid w e
      let keep := fun (w : Wave) => w.keepBytes entry stay
      if go.isEmpty then s
      else if s.isPeer (e.sector * 32) then
        match w.relFor go with
        | some rel =>
          if s.peerHeld wid e.sector || (s.planeFor w.ctx (e.sector * 32)).isNone then s
          else ((s.sendRemote wid w.ctx (e.sector * 32) (.store wid { e with bytes := go } rel)).modWave wid keep).retryStores (wCore wid)
        | none => s
      else if !s.accessDone 2 wid entry sec then s
      else
        let s := (s.storeSector (some (2, wid, entry)) wid w.ctx e.sector e.key (byteLanes go) e.pc e.va (SEntry.cells go)).endAccess 2 wid entry sec
        (s.modWave wid keep).retryStores (wCore wid))

/-- Perform one lane of an atomic at its sector's owner (R273). -/
def State.performAtom (s : State) (wid : Nat) (r : Req) (p : Piece) : State :=
  match p.loc, atomOf r.instr with
  | .mem pa key, some (op, w64, nr) =>
    let old := s.physNat pa p.len
    let s := s.physWrite pa key (leBytes p.len (atomApply op w64 old p.data))
    if nr then s else s.writeDest wid r p.lane (oldWords w64 old)
  | _, _ => s

/-- Perform lanes of a release store at their sector's owner (R271). -/
def State.performRel (s : State) (wid ctx : Nat) (r : Req) (sector key : Nat) (va : DWord) (ps : List Piece) : State :=
  let bs := ps.flatMap fun p => match p.loc with
    | .mem pa _ => (List.range p.data.length).map fun k => (pa % 32 + k, p.data.getD k 0)
    | _ => []
  let past := fun (s : State) => ps.foldl (fun (s : State) p => match p.loc with
    | .mem pa _ => s.overwrite wid (laneSeq r.seq p.lane) pa p.len
    | _ => s) s
  let t := s.storeSector (some (0, wid, r.id)) wid ctx sector key (lanesIn ps) r.pc va bs
  if (s.storeStop (some (0, wid, r.id)) ctx sector key (lastBytes bs).length).isNone then (past t).retryStores (wCore wid) else t

/-- The lanes of a request that are performed next at a sector: those behind which nothing of the wave is still to be performed there but
lower lanes of the same request, which are performed first (R267, R273). -/
def State.nextLanes (s : State) (wid : Nat) (w : Wave) (r : Req) (sec : Nat) (mine : Piece → Bool) : List Piece :=
  let w2 := w.setReq (r.mapPieces mine fun p => { p with st := .done })
  let bytes := fun p : Piece => match p.loc with | .mem pa _ => bytesAt pa p.len | _ => 0
  (r.pieces.filter mine).filter fun p => s.nextThere wid w2 (laneSeq r.seq p.lane) sec (bytes p)

/-- ATOMIC_PERFORM (R273): the lanes of an atomic, or of a release store, whose location lies in a sector are performed there,
in ascending lane order. An atomic that meets a buffered store of its wave first acts as a PUB.sys (R274). -/
def execAtomicPerform (wid req sector : Nat) (s : State) : Result :=
  .next (match tfind s.waves wid with
  | none => s
  | some w =>
    match w.req req with
    | none => s
    | some r =>
      let here := fun p : Piece => p.st == .ready && match p.loc with | .mem pa _ => pa / 32 == sector | _ => false
      let keyOf := fun p : Piece => match p.loc with | .mem _ k => k | _ => 0
      match (r.pieces.filter here).head? with
      | none => s
      | some p0 =>
        let mine := fun p : Piece => here p && keyOf p == keyOf p0
        let sec := s.place (sector * 32) / 32
        let go := s.nextLanes wid w r sec mine
        let went := fun p : Piece => go.any fun x => x.lane == p.lane && x.off == p.off
        let atom := (atomOf r.instr).isSome
        if !performsAtOwner r.instr || s.isPeer (sector * 32) || s.acqBlocked wid r.seq || s.relBlocked wid r.seq || go.isEmpty then s
        else if atom && go.any fun p => s.bufferedBefore w (laneSeq r.seq p.lane) sec then
          s.addRel wid .sys r.seq [] .nothing r.split r.pc r.word r.mask
        else if !s.accessDone 1 wid req sec then s
        else
          let s := s.endAccess 1 wid req sec
          match if atom then s.stopAt (some (0, wid, req)) w.ctx (sector * 32) (keyOf p0) true else none with
          | some c => (s.noteStop w.ctx (sector * 32) c).parkReq wid r c p0.va (lanesIn go)
          | none =>
            let s := if atom then go.foldl (fun s p => s.performAtom wid r p) s else s.performRel wid w.ctx r sector (keyOf p0) p0.va go
            s.advance wid (r.mapPieces (fun p => mine p && went p) fun p => { p with st := .done }))

/-- Take an LDX's slots once all its lanes are translated, and write its words together (R277). Exhaustion traps, or under
demote mode brings the words as values (R111). -/
def State.retryLdx (s : State) (wid : Nat) (r : Req) : State :=
  match r.instr, tfind s.waves wid with
  | .ldx _ d a m, some w =>
    match tfind s.teams w.team, s.gridOf w.team with
    | some team, some grid =>
      if r.pieces.any fun p => p.st == .untranslated && !w.parkedLane r.id p.lane then s
      else
        let q : Iss := { wid := wid, split := r.split, w := w, team := team, grid := grid, clk := s.clk (wCore wid), fresh := s.fresh,
                         pc := r.pc, word := r.word, mask := r.mask, part := r.mask, seq := r.seq, cnt := r.cnt, rtag := r.rtag }
        let open_ := (((r.pieces.filter fun p => p.st == .ready).map (·.lane)) ++ (r.aux.filter fun e => decide (e.1 < 32)).map (·.1)).eraseDups.mergeSort fun a b => decide (a ≤ b)
        let tagged : List (Nat × Lane) := (r.aux.filter fun e => open_.contains e.1).map fun e => (e.1, natLane e.2)
        let want := open_.map fun l => match tfind tagged l with
          | some x => (l, pxHome x.w)
          | none => (l, match s.ldxItem r l with | some e => e.1 | none => 0)
        let sent : Req := { r.mapPieces (fun p => p.st == .ready) fun p => { p with st := .remote } with aux := r.aux.filter fun e => decide (e.1 ≥ 32) }
        let whole := !(r.pieces.any fun p => p.st == .untranslated || p.failure.isSome)
        let go := fun (s : State) (slots : List (Nat × Nat)) (wake : Bool) =>
          (s.modWave wid fun w => let w := w.setReq sent; if wake && whole then w.wake r.id else w).fillLdx q sent d a m tagged want slots
        if open_.isEmpty then s
        else if (vDest d).isNone then go s [] true
        else match s.judgeSlots q want with
          | .wait => s
          | .got slots => go s slots true
          | .out cause => if grid.eff.demote then go s [] false else s.lateTrap wid r cause
    | _, _ => s
  | _, _ => s

/-- What follows when pieces of a request have been translated: stores enter the buffer, a frame register is written, an LDX
takes its slots, a forest instruction is posted (R167, R264, R275, R277). -/
def State.translated (s : State) (wid : Nat) (r : Req) (va : DWord) (t : Tr) : State :=
  match tfind s.waves wid with
  | none => s
  | some w =>
    match r.instr with
    | .frame _ d _ =>
      ((s.runWalked w.ctx t va).modWave wid fun w => { w with f := tset 0 w.f d.idx.toNat (s.frameOf w.ctx t va) }).finishReq wid r
    | .st _ _ _ _ m | .sst _ _ _ _ m =>
      if orderRel (memOrder m) then s.putReq wid r else s.goStore wid r
    | .ldx .. => (s.modWave wid fun w => w.setReq r).retryLdx wid r
    | .finit .. | .unite .. | .find .. | .relabel .. | .fsnap .. | .fundo .. | .fcommit .. | .fstat .. =>
      (s.modWave wid fun w => w.dropReq r.id).postForest (r.forestOp wid (t.pa va) t.key va)
    | _ => s.putReq wid r

/-- Whether a piece of a request waits for the translation of its page: a lane for which its wave is parked does not. -/
def Wave.awaitsPage (w : Wave) (req page : Nat) (p : Piece) : Bool :=
  p.st == .untranslated && p.va.toNat / 65536 == page && !w.parkedLane req p.lane && !w.frozen

/-- The misses of a core, each a context and a page, oldest request first; those to one page are one (R153). -/
def State.missesOf (s : State) (core : Nat) : List (Nat × Nat) :=
  let rs := (s.waves.filter fun e => wCore e.1 == core).flatMap fun (e : Nat × Wave) => e.2.reqs.map fun r => (e.2, r)
  ((rs.mergeSort fun a b => decide (a.2.id ≤ b.2.id)).flatMap fun e =>
    (e.2.pieces.filter fun p => p.st == .untranslated && !e.1.parkedLane e.2.id p.lane && !e.1.frozen).map fun p => (e.1.ctx, p.va.toNat / 65536)).eraseDups

/-- Whether a miss is one of the 2,048 that its core keeps outstanding: a lane of any other waits until one is served (R153). -/
def State.registered (s : State) (core ctx page : Nat) : Bool :=
  let all := s.missesOf core
  decide (all.length ≤ 2048) || (all.take 2048).contains (ctx, page)

/-- The requests of a core that wait for a page of a context, oldest first: their misses are one (R153). -/
def State.waiters (s : State) (core ctx page : Nat) : List (Nat × Req) :=
  let rs := (s.waves.filter fun e => wCore e.1 == core && e.2.ctx == ctx).flatMap fun (e : Nat × Wave) =>
    (e.2.reqs.filter fun r => r.pieces.any (e.2.awaitsPage r.id page)).map fun r => (e.1, r)
  rs.mergeSort fun a b => decide (a.2.id ≤ b.2.id)

/-- Park at a request with failed lanes whose last page has come. -/
def State.parkLeft (s : State) (wid req : Nat) : State :=
  match (tfind s.waves wid).bind fun w => w.req req with
  | some r => s.parkFaults wid r
  | none => s

/-- A request meets the page for which lanes of it have waited, or its fault (R148). A page in a peer slot without a plane traps while nothing
of the instruction has taken effect; after that its lanes wait for a plane (R184, R314, log 153). -/
def State.pageServed (s : State) (wid req page : Nat) (x : Except (BitVec 7) Tr) : State :=
  match (tfind s.waves wid).bind fun w => (w.req req).map fun r => (w, r) with
  | none => s
  | some (w, r) =>
    let mine := w.awaitsPage req page
    let isFrame := match r.instr with | .frame .. => true | _ => false
    match (r.pieces.filter mine).head?, x with
    | none, _ => s
    | some _, .error c =>
      let r := r.mapPieces mine fun p => { p with st := .failed c }
      (s.modWave wid fun w => w.setReq r).parkFaults wid r
    | some p0, .ok t =>
      if !isFrame && s.noPlane w.ctx (t.pa p0.va) && r.untouched then s.lateTrap wid r 0x74
      else
        let r := r.mapPieces mine fun p => { p with loc := .mem (t.pa p.va) t.key, st := .ready, t := s.t7 }
        (s.translated wid r p0.va t).parkLeft wid req

/-- Whether a walk's reads are not behind requests of contexts that hold tokens (R328). -/
def State.walkTurn (s : State) (ctx : Nat) (va : DWord) : Bool := (s.walkOf ctx va).all fun pa => s.engineTurn ctx (s.groupOf (s.place pa))

/-- TLB_MISS_SERVED (R153): a miss of a core is served, once the controllers can serve its walk, for every request that waits for its page;
each is judged by its own access, and a fault parks its wave. -/
def execTlbMissServed (wid req page evictCore evictCluster : Nat) (s : State) : Result :=
  .next (match (tfind s.waves wid).bind fun w => (w.req req).map fun r => (w, r) with
  | none => s
  | some (w, r) =>
    let core := wCore wid
    let va : DWord := BitVec.ofNat 64 (page * 65536)
    let rs := s.waiters core w.ctx page
    let found := rs.map fun x => (x.1, x.2, s.xlate w.ctx core va (accOf x.2.instr))
    let runs := found.all fun x => match x.2.1.instr, x.2.2 with
      | .frame .., .ok t => s.runServable w.ctx t ((x.2.1.pieces.head?).elim va (·.va))
      | _, _ => true
    if !r.pieces.any (w.awaitsPage req page) || !s.registered core w.ctx page || !runs || !(s.tlbHit w.ctx core va || (s.walkServable w.ctx va && s.walkTurn w.ctx va)) then s
    else
      let acc := accOf ((found.find? fun x => x.2.2.toOption.isSome).elim r (·.2.1)).instr
      let t := if va.extractLsb' 56 8 != 0 || (tlbFind (s.core core).tlb w.ctx va).isSome then s else (s.serveMiss w.ctx core va acc evictCore evictCluster).2
      found.foldl (fun (s : State) x => s.pageServed x.1 x.2.1.id page x.2.2) t)

/-- TOKEN_BUCKET_FILL (R328): a context's bucket gains the tokens that the last `span` sevenths of a nanosecond have brought at the largest
BTOKEN of its grids; a context with no grid has full buckets. -/
def execTokenBucketFill (ctx group span : Nat) (s : State) : Result :=
  let gs := s.grids.filter fun g => g.2.ctx == ctx && g.2.stat != .complete
  let rate := (gs.map fun g => g.2.eff.btoken).foldl max 0
  let k := ctx * 72 + group
  let gain : Nat := rate * s.t7 / 7000 - rate * (s.t7 - span) / 7000
  let left := if gs.isEmpty then 0 else max 0 (tget 0 s.mc.spent k - (gain : Int))
  .next { s with mc := { s.mc with spent := tset 0 s.mc.spent k left } }

end Sys2Proof.Machine
end

