-- ==== Sys2Proof/Machine/HomeEvents.lean ====
section
/-! DEFINITION. The homes: posted operations, forwards, fills, count changes and crossings (R103 to R109), poison (R112, R113),
the home store queues (R106), and grants of slots (R101). -/

namespace Sys2Proof.Machine

/-- Remove a message. -/
def State.dropItem (s : State) (id : Nat) : State := { s with homeq := s.homeq.filter fun h => h.id != id }

/-- Whether a poison record of a home is referred to: by a slot, or by an operand on its way. -/
def State.recUsed (s : State) (home k : Nat) : Bool :=
  ((s.home home).slots.any fun e => e.2.st == .poisoned && e.2.prec == k)
    || s.homeq.any fun i => i.home == home && i.kind.srcs.any fun x => match x with | .bad _ (some r) _ => r == k | _ => false

/-- Take a poison record: the lowest of the records 1 to 4,095 that nothing refers to, or record 0, "origin lost" (R112). -/
def State.newRec (s : State) (home : Nat) (r : PRec) : Nat × State :=
  let live := (s.home home).ptab.filter fun e => s.recUsed home e.1
  match (List.range (live.length + 1)).find? fun k => (tfind live (k + 1)).isNone with
  | some k =>
    if k + 1 < 4096 then (k + 1, s.modHome home fun h => { h with ptab := tput live (k + 1) r })
    else (0, s.modHome home fun h => { h with ptab := live })
  | none => (0, s)

/-- The record that a bad operand gives a destination of its home: its own, or a new one of the message's address and the cause
(R104, R112, R113). -/
def State.recFor (s : State) (it : HomeItem) : HSrc → Nat × State
  | .bad _ (some k) _ => (k, s)
  | .bad _ none c => s.newRec it.home ⟨it.pc, c, it.ctx⟩
  | _ => (0, s)

/-- A slot becomes FREE: its generation advances, its charge and poison go (R115). -/
def Slot.freed (x : Slot) : Slot := { Slot.init with gen := x.gen + 1 }

/-- Write a message's result into its destination slot, or poison it (R103, R112). A slot that a discard or reset has freed in
the meantime keeps its state. -/
def State.writeSlot (s : State) (it : HomeItem) (d : Nat × Nat) (r : HSrc) : State :=
  if !(s.slot it.home d.1).current d.2 then s
  else match r with
    | .val w => s.modSlot it.home d.1 fun x => { x with val := w }
    | r =>
      let (k, s) := s.recFor it r
      s.modSlot it.home d.1 fun x => { x with st := .poisoned, prec := k, val := BitVec.ofNat 32 k }

/-- How a crossing traps on a bad operand: its cause, the original cause and the original address (R112). -/
def Home.crossTrap (h : Home) : HSrc → BitVec 7 × BitVec 7 × DWord
  | .bad true _ _ => (0x21, 0, 0)
  | .bad false (some k) _ =>
    match tfind h.ptab k with
    | some r => (0x25, r.cause, r.pc)
    | none => (0x26, 0, 0)
  | .bad false none c => (c, 0, 0)
  | _ => (0, 0, 0)

/-- Write lanes that a crossing brings back: values, or the bits of a comparison (R107, R112). -/
def State.writeCrossing (s : State) (o : HomeOp) : State :=
  match o.instr with
  | .isetp _ _ _ (.p p) _ _ | .fsetp _ _ (.p p) _ _ =>
    s.modWave o.wid fun w => w.storeNow (pTargets p.toNat (o.got.map fun e => (e.1, e.2 % 2 == 1)))
  | i =>
    match destOf i with
    | some (.v d, _) =>
      o.got.foldl (fun (s : State) e =>
        match tfind s.waves o.wid with
        | some w =>
          (s.setWave o.wid (w.storeNow [(.v d.toNat e.1, e.2 % 2 ^ 32)])).dropRef o.wid o.seq e.1 o.pc none (w.latest d.toNat e.1)
        | none => s) s
    | _ => s

/-- Every lane of a crossing has returned: it traps precisely on a poisoned or stale lane, with nothing written; else it writes
its lanes and its split goes on (R107, R112). -/
def State.endHomeOp (s : State) (o : HomeOp) : State :=
  let s1 : State := { s with homeops := s.homeops.filter fun x => x.id != o.id }
  let s2 := s1.modWave o.wid fun w => w.fall o.cnt
  match (o.bad.mergeSort fun a b => decide (a.1 ≤ b.1)).head? with
  | some (_, c, oc, pc) =>
    (s2.settle o.wid).raiseTrap o.wid ⟨c, oc, o.split, o.pc, pc, 0, maskOf fun l => o.bad.any fun e => e.1 == l, o.word, false⟩
  | none => ((s2.writeCrossing o).modWave o.wid fun w => w.wake o.id).settle o.wid

/-- A lane of a crossing or a PXREL is answered. -/
def State.answerOp (s : State) (it : HomeItem) (o : HomeOp) (r : HSrc) : State :=
  let left := o.left &&& ~~~(laneBit it.lane)
  let isPx := match o.instr with | .pxrel .. => true | _ => false
  let o : HomeOp :=
    if isPx then { o with left := left }
    else match r with
      | .val w => { o with left := left, got := o.got ++ [(it.lane, w.toNat)] }
      | r => { o with left := left, bad := o.bad ++ [(it.lane, (s.home it.home).crossTrap r)] }
  if o.left = 0 then s.endHomeOp o else { s with homeops := s.homeops.map fun x => if x.id = o.id then o else x }

/-- Whether a posted lane of a request returns its result as a value: it took no slot under demote mode (R111). -/
def demoted (i : Instr) (dst : Option (Nat × Nat)) : Bool :=
  match i with
  | .ldx _ d _ _ => dst.isNone && (vDest d).isSome
  | .atom _ _ _ d _ m => dst.isNone && (vDest d).isSome && !memNr m
  | _ => false

/-- How a demoted instruction traps when its result is bad: a fault of its own counts as poison that it made itself (R111,
R112). -/
def State.demoteTrap (s : State) (it : HomeItem) (r : HSrc) : BitVec 7 × BitVec 7 × DWord :=
  match r with
  | .bad false none c => (0x25, c, it.pc)
  | r => (s.home it.home).crossTrap r

/-- What a demoted request keeps of a lane until every posted lane has returned: under 64 + lane its value, under 32 + lane how
it traps. -/
def Req.keep (q : Req) (it : HomeItem) (trap : BitVec 7 × BitVec 7 × DWord) (r : HSrc) : Req :=
  match r with
  | .val w => { q with aux := q.aux ++ [(64 + it.lane, w.toNat)] }
  | _ => { q with aux := q.aux ++ [(32 + it.lane, trap.1.toNat + trap.2.1.toNat * 2 ^ 8 + trap.2.2.toNat * 2 ^ 16)] }

/-- Every posted lane of a demoted request has returned: the values are written, or the instruction traps (R111, R112). -/
def State.endDemoted (s : State) (wid : Nat) (q : Req) : State :=
  let bad := q.aux.filter fun e => decide (32 ≤ e.1 ∧ e.1 < 64)
  match (bad.mergeSort fun a b => decide (a.1 ≤ b.1)).head? with
  | some (_, n) =>
    ((s.modWave wid fun w => (w.dropReq q.id).fall q.cnt).settle wid).raiseTrap wid
      ⟨BitVec.ofNat 7 n, BitVec.ofNat 7 (n / 2 ^ 8), q.split, q.pc, BitVec.ofNat 64 (n / 2 ^ 16), 0,
        maskOf fun l => bad.any fun e => e.1 == 32 + l, q.word, false⟩
  | none =>
    ((q.aux.filter fun e => decide (64 ≤ e.1)).foldl (fun (s : State) e =>
      s.writeDest wid q (e.1 - 64) [BitVec.ofNat 32 e.2]) s).advance wid q

/-- A posted lane of a request is answered: the lane is finished (R142, R277); a demoted one brings its value back (R111). -/
def State.answerReq (s : State) (it : HomeItem) (id : Nat) (r : HSrc) : State :=
  match (tfind s.waves it.wid).bind fun w => w.req id with
  | none => s
  | some q =>
    let done := q.mapPieces (fun p => p.lane == it.lane && p.st == .remote) fun p => { p with st := .done }
    if !demoted q.instr it.kind.dst then s.advance it.wid done
    else
      let k := done.keep it (s.demoteTrap it r) r
      if k.pieces.any fun p => p.st == .remote then s.modWave it.wid fun w => w.setReq k else s.endDemoted it.wid k

/-- The answer to whatever waits for a message. -/
def State.answer (s : State) (it : HomeItem) (r : HSrc) : State :=
  match it.op with
  | none => s.settle it.wid
  | some id =>
    match s.homeops.find? fun o => o.id == id with
    | some o => s.answerOp it o r
    | none => s.answerReq it id r

/-- A message is done: its result goes to its slot, and to the operation that waits for it (R103, R107). -/
def State.finishItem (s : State) (it : HomeItem) (r : HSrc) : State :=
  let s := s.dropItem it.id
  let s := match it.kind.dst with | some d => s.writeSlot it d r | none => s
  s.answer it r

/-- The underlying cause of a posted store or atomic that is dropped (R112). -/
def HSrc.origin : HSrc → BitVec 7
  | .bad false (some 0) _ => 0x26
  | .bad _ _ c => c
  | _ => 0

/-- A store leaves its home's queue. A lane of a release store is done once all its parts have left (R271). -/
def State.endStore (s : State) (it : HomeItem) : State :=
  if it.relStore && s.homeq.any fun h => h.relStore && h.id != it.id && h.wid == it.wid && h.op == it.op && h.lane == it.lane then s.dropItem it.id
  else s.finishItem it (.val 0)

/-- A posted store or atomic that is not performed: a report of cause 0x27 with its underlying cause (R112). -/
def State.dropPosted (s : State) (it : HomeItem) (va : DWord) (r : HSrc) : State :=
  let rep := s.waveRec it.wid 0x27 r.origin 1 (laneBit it.lane) it.pc va 0
  let s := s.report it.ctx rep it.wid
  if it.queued then s.endStore it else s.finishItem it r

/-- A part of a home's load: its length, address and key slot. -/
abbrev Part := Nat × Nat × Nat

/-- The bytes that a home reads: parts that peers have sent, the others from memory; an LDX with an untagged offset sees the wave's own
stores over them (R105, R264). -/
def State.homeRead (s : State) (it : HomeItem) (parts : List Part) (own : Bool) : List Byte :=
  (List.range parts.length).flatMap fun k =>
    let p : Part := parts.getD k (0, 0, 0)
    let bs := (tfind it.got k).getD (s.physRead p.2.1 p.1)
    match own, tfind s.waves it.wid with
    | true, some w => s.overlay it.wid w it.seq p.2.1 bs
    | _, _ => bs

/-- A message of a home has used its sector's access: the access ends with the last message of its instruction there (R327). -/
def State.endHome (s : State) (it : HomeItem) (sec : Nat) : State :=
  if s.homeq.any fun h => h.id != it.id && h.wid == it.wid && h.seq == it.seq && s.itemTouches h sec then s
  else s.endAccess 3 it.wid it.seq sec

/-- Load a word at a home: each part that lies in a peer slot is fetched by a remote request, then its parts are read together; a sector
that cannot be read poisons the destination (R47, R105, R161, R182, R184). -/
def State.homeLoad (s : State) (it : HomeItem) (parts : List Part) (own : Bool) : State :=
  if parts.any fun p => !s.loadClear it p.2.1 then s
  else match (List.range parts.length).find? fun k => s.isPeer (parts.getD k (0, 0, 0)).2.1 && (tfind it.got k).isNone with
    | some k => s.sendRemote it.wid it.ctx (parts.getD k (0, 0, 0)).2.1 (.home it.id k)
    | none =>
      let near := parts.filter fun p => !s.isPeer p.2.1
      let secs := (near.map fun p => s.place p.2.1 / 32).eraseDups
      if secs.any fun sec => !s.accessDone 3 it.wid it.seq sec then s
      else
        let s := secs.foldl (fun (s : State) sec => s.endHome it sec) s
        match near.findSome? fun p => (s.stopAt (some (3, it.id, 0)) it.ctx p.2.1 p.2.2 false).map fun c => (c, p.2.1) with
        | some (c, pa) => (s.noteStop it.ctx pa c).finishItem it (.bad false none c)
        | none => (s.pmc it.ctx 4 1).finishItem it (.val (BitVec.ofNat 32 (leNat (s.homeRead it parts own))))

/-- Whether a message is a lane of a release store (R271). -/
def State.ofRelStore (s : State) (it : HomeItem) : Bool :=
  match it.op.bind fun id => (tfind s.waves it.wid).bind fun w => w.req id with
  | some r => match r.instr with | .st _ _ _ _ m => orderRel (memOrder m) | _ => false
  | none => false

/-- A posted ST enters the wave's store queue at its home, each part with its address (R105, R106). A lane of a release store keeps the
request that waits until it has been performed (R271). -/
def State.homeQueue (s : State) (it : HomeItem) (a : HAddr) (off d : HSrc) (width : Width) (raw : List Byte) : State :=
  let data := storeData width d raw
  let va := (a.at off.word 0).2
  let t := s.homeMissed it a off.word data.length .store
  match s.homeParts it a off.word data.length .store with
  | .error c => t.dropPosted it va (.bad false none c)
  | .ok parts =>
    let t := t.pmc it.ctx 4 1
    let stays := s.ofRelStore it
    let items : List HomeItem := (List.range parts.length).map fun k =>
      let p := parts.getD k (0, 0, 0, 0)
      let at_ : HAddr := { a with off := .val 0, base := va + BitVec.ofNat 64 p.1, frame := none }
      { it with id := t.nextId + k, op := if stays then it.op else none, t := t.t7, kind := .store at_ width (.val 0) ((data.drop p.1).take p.2.1) true p.2.2.1 p.2.2.2 }
    let t1 : State := { t with nextId := t.nextId + parts.length, homeq := t.homeq ++ items }
    if stays then t1.dropItem it.id else t1.finishItem it (.val 0)

/-- A posted ATOM at memory, or on its way to a peer (R105, R273). -/
def State.homeAtom (s : State) (it : HomeItem) (a : HAddr) (off d c n : HSrc) (op : AtomOp) : State :=
  let va := (a.at off.word 0).2
  let t := s.homeMissed it a off.word 1 .write
  if s.relBlocked it.wid it.seq then s
  else match s.homeByte it a off.word 0 .write with
    | .error e => t.dropPosted it va (.bad false none e)
    | .ok (pa0, key) =>
      let pa := pa0 - pa0 % 4
      let sec := s.place pa / 32
      if !s.atomNext it pa then s
      else if s.isPeer pa then t.sendRemote it.wid it.ctx pa (.home it.id 0)
      else if !s.accessDone 3 it.wid it.seq sec then t
      else
        let t := t.endHome it sec
        match s.stopAt (some (3, it.id, 0)) it.ctx pa key true with
        | some e => (t.noteStop it.ctx pa e).dropPosted it va (.bad false none e)
        | none =>
          let old := s.physNat pa 4
          let new := atomNew op false old d.word.toNat c.word.toNat n.word.toNat
          ((t.physWrite pa key (leBytes 4 new)).pmc it.ctx 4 1).finishItem it (.val (BitVec.ofNat 32 old))

/-- Whether the walks that an operation of a home needs can be served now. -/
def State.kindServable (s : State) (it : HomeItem) (k : HKind) : Bool :=
  match k with
  | .load a _ => s.homeServable it a a.off.word 4
  | .store a w d raw _ _ _ => s.homeServable it a a.off.word (storeData w d raw).length
  | .atom a _ _ _ _ _ _ => s.homeServable it a a.off.word 1
  | _ => true

/-- Execute a posted operation with its operands read, once the walks that it needs can be served (R103 to R106, R331). -/
def State.homeExecute (s : State) (it : HomeItem) (k : HKind) : State :=
  match k.srcs.find? HSrc.isBad with
  | some r => if it.stores then s.dropPosted it 0 r else (s.pmc it.ctx 4 1).finishItem it r
  | none =>
    if !s.kindServable it k then s
    else match k with
    | .alu op a b c _ => (s.pmc it.ctx 4 1).finishItem it (.val (alu op a.word b.word c.word).1)
    | .load a _ =>
      match s.homeParts it a a.off.word 4 .read with
      | .error c => (s.homeMissed it a a.off.word 4 .read).finishItem it (.bad false none c)
      | .ok parts => (s.homeMissed it a a.off.word 4 .read).homeLoad it (parts.map fun p => (p.2.1, p.2.2.1, p.2.2.2)) false
    | .store a w d raw _ _ _ => s.homeQueue it a a.off d w raw
    | .atom a op d c n _ _ => s.homeAtom it a a.off d c n op
    | _ => s

/-- POSTED_OPERATION_EXECUTE (R104): a home executes a posted operation, load, store or atomic in its wave's issue order. -/
def execPostedOperationExecute (item : Nat) (s : State) : Result :=
  .next (match s.homeq.find? fun h => h.id == item with
  | none => s
  | some it =>
    if !s.itemReady it || it.queued || it.crosses then s
    else match s.readyKind it with
      | none => s
      | some k => s.homeExecute it k)

/-- CROSSING_RESULT (R107): the home reads or compares, and the lane's result returns to the core. -/
def execCrossingResult (item : Nat) (s : State) : Result :=
  .next (match s.homeq.find? fun h => h.id == item with
  | none => s
  | some it =>
    if !s.itemReady it || !it.crosses then s
    else match it.kind, s.readyKind it with
      | .read i g, _ => s.finishItem it ((s.home it.home).read (.slot i g))
      | _, some k => s.homeExecute it k
      | _, none => s)

/-- A forwarded operand as the executing home receives it: a poisoned one brings its record with it (R112). -/
def State.carry (s : State) (it : HomeItem) (target : HomeItem) (r : HSrc) : HSrc × State :=
  match r with
  | .bad false (some k) c =>
    match tfind (s.home it.home).ptab k with
    | some x => let (k2, s) := s.newRec target.home x; (.bad false (some k2) c, s)
    | none => (.bad false (some 0) 0x26, s)
  | .bad false none c => let (k2, s) := s.newRec target.home ⟨it.pc, c, it.ctx⟩; (.bad false (some k2) c, s)
  | r => (r, s)

/-- Give a forward to the message that waits for it. -/
def State.sendForward (s : State) (it : HomeItem) (fwd : Nat) (r : HSrc) : State :=
  match s.homeq.find? fun h => h.kind.srcs.contains (.fwd fwd) with
  | none => s.dropItem it.id
  | some t =>
    let (x, s) := s.carry it t r
    let t2 : HomeItem := { t with kind := t.kind.mapSrc fun y => if y = .fwd fwd then x else y }
    let s1 : State := { s with homeq := s.homeq.map fun h => if h.id = t.id then t2 else h }
    s1.dropItem it.id

/-- PROXY_FORWARD (R104): a source home reads a slot as the wave's earlier operations have left it, and forwards it. -/
def execProxyForward (item : Nat) (s : State) : Result :=
  .next (match s.homeq.find? fun h => h.id == item with
  | none => s
  | some it =>
    match it.kind with
    | .forward i g fwd => if s.itemReady it then s.sendForward it fwd ((s.home it.home).read (.slot i g)) else s
    | _ => s)

/-- LDX_FILL (R277): the word of an LDX comes from memory into its slot; the wave's own buffered stores are seen (R105). -/
def execLdxFill (item : Nat) (s : State) : Result :=
  .next (match s.homeq.find? fun h => h.id == item with
  | none => s
  | some it =>
    match it.kind with
    | .fill parts _ _ => if s.itemReady it then s.homeLoad it parts true else s
    | _ => s)

/-- Apply a count change; a slot whose count reaches 0 becomes FREE; a stale change is dropped (R108). -/
def Slot.counted (x : Slot) (gen : Nat) (delta : Int) : Slot :=
  if !x.current gen then x
  else
    let n := ((x.count : Int) + delta).toNat
    if n = 0 then x.freed else { x with count := n }

/-- REFERENCE_COUNT_CHANGE (R108). -/
def execReferenceCountChange (item : Nat) (s : State) : Result :=
  .next (match s.homeq.find? fun h => h.id == item with
  | none => s
  | some it =>
    match it.kind with
    | .count i g d =>
      if s.itemReady it then (s.modSlot it.home i fun x => x.counted g d).finishItem it (.val 0) else s
    | _ => s)

/-- Whether a message sent at a time has found no answer within RTIMEOUT microseconds (R113, R177, R185). -/
def State.overdue (s : State) (t : Nat) : Bool := decide (s.t7 ≥ t + 7000 * s.link.rtimeout.toNat)

/-- POSTED_TIMEOUT (R113): a message that has found no answer within the remote timeout: its destination is poisoned with 0x28
when its home has failed, else with 0x29; a count change is lost with its home. -/
def execPostedTimeout (item : Nat) (s : State) : Result :=
  .next (match s.homeq.find? fun h => h.id == item with
  | none => s
  | some it =>
    let failed := (s.home it.home).failed
    let c : BitVec 7 := if failed then 0x28 else 0x29
    let bad := HSrc.bad false none c
    if !s.overdue it.t || s.homeSent it.id then s
    else match it.kind with
      | .forward _ _ fwd => s.sendForward it fwd bad
      | .count .. => if failed then s.finishItem it (.val 0) else s
      | .store .. | .atom .. => if failed || !it.queued then s.dropPosted it 0 bad else s
      | _ => s.finishItem it bad)

/-- HOME_STORE_PERFORM (R106): a home performs a queued store at memory, past the wave's own earlier bytes in the store buffer; a store
that its window, its expander or a check stops is dropped and reported (R54, R112). -/
def execHomeStorePerform (home store : Nat) (s : State) : Result :=
  .next (match s.homeq.find? fun h => h.id == store && h.home == home with
  | none => s
  | some it =>
    match it.kind with
    | .store a _ _ raw true pa key =>
      let sec := s.place pa / 32
      if !s.queuedClear it then s
      else if s.isPeer pa then s.sendRemote it.wid it.ctx pa (.home it.id 0)
      else if !s.accessDone 3 it.wid it.seq sec then s
      else
        let s := s.endHome it sec
        match s.storeStop (some (3, it.id, 0)) it.ctx (pa / 32) key raw.length with
        | none =>
          let bs := (List.range raw.length).map fun k => (pa % 32 + k, raw.getD k 0)
          (((s.sectorWrite (pa / 32) key bs).overwrite it.wid it.place pa raw.length).endStore it).retryStores (wCore it.wid)
        | some c => (s.noteStop it.ctx pa c).dropPosted it a.base (.bad false none c)
    | _ => s)

/-- The FREE slots of a home. -/
def State.freeSlots (s : State) (home : Nat) : Nat := homeSlots home - ((s.home home).slots.filter fun e => e.2.st != .free).length

/-- SLOT_GRANT (R101): a home grants a core whose pool has fallen below 32 as many slots as it asks for, up to 64, or as its FREE
slots allow; a home with none marks the pool dry. Which FREE slots it takes is the home's choice. -/
def execSlotGrant (core home : Nat) (slots : List Nat) (s : State) : Result :=
  let k := s.core core
  let n := min (64 - (k.pool home).length) (s.freeSlots home)
  let ok := slots.length == n && slots.eraseDups.length == n
    && slots.all fun i => decide (i < homeSlots home) && (s.slot home i).st == .free
  .next (if (k.pool home).length ≥ 32 ∨ home ≥ 10 ∨ (s.cluster (cluOf core)).pwr ≠ .on ∨ !ok then s
  else if n = 0 then s.setCore core { k with dry := tset false k.dry home true }
  else
    let s := s.setCore core { k with pools := tset [] k.pools home (k.pool home ++ slots), dry := tset false k.dry home false }
    slots.foldl (fun s i => s.modSlot home i fun x => { x with st := .granted, core := core }) s)

/-- Give up the messages that some lanes of a request still have at homes: their slots are poisoned with a cause (R112, R319). -/
def State.cancelPosted (s : State) (wid req : Nat) (lanes : Word) (cause : BitVec 7) : State :=
  (s.homeq.filter fun h => h.wid == wid && h.op == some req && lanes.getLsbD h.lane).foldl (fun s it =>
    let s := match it.kind.dst with | some d => s.writeSlot it d (.bad false none cause) | none => s
    s.dropItem it.id) s

end Sys2Proof.Machine
end

