-- ==== Sys2Proof/Machine/CopyEvents.lean ====
section
/-! DEFINITION. The copy engine (R127 to R131, R280 to R283): the ring and its header image, taking commands, landing sectors,
stopping at chunk boundaries, ending and faulting. -/

namespace Sys2Proof.Machine

/-- STATUS codes of a command (R128). -/
def stQueued : Nat := 0
/-- ACTIVE. -/
def stActive : Nat := 1
/-- DONE. -/
def stDone : Nat := 2
/-- FAULT. -/
def stFault : Nat := 3

/-- The fields of a command (R128). -/
def cmdLen (c : BitVec 256) : Nat := (c.extractLsb' 128 40).toNat / 32 * 32
/-- PROGRESS. -/
def cmdProgress (c : BitVec 256) : Nat := (c.extractLsb' 168 24).toNat
/-- TXBAR, when HASBAR is set. -/
def cmdBar (c : BitVec 256) : Option Nat := if c.getLsbD 225 then some (c.extractLsb' 192 20).toNat else none
/-- TILE and TILESRC, when HASTILE is set. -/
def cmdTile (c : BitVec 256) : Option (Nat × Bool) := if c.getLsbD 227 then some ((c.extractLsb' 212 8).toNat, c.getLsbD 226) else none
/-- The space of an end. -/
def cmdSpace (c : BitVec 256) (isSrc : Bool) : Nat := (c.extractLsb' (if isSrc then 220 else 222) 2).toNat
/-- The address of an end. -/
def cmdAddr (c : BitVec 256) (isSrc : Bool) : Nat := (c.extractLsb' (if isSrc then 0 else 64) 64).toNat / 32 * 32
/-- The command with another STATUS and PROGRESS. -/
def cmdSet (c : BitVec 256) (status progress : Nat) : BitVec 256 :=
  (c &&& ~~~((BitVec.ofNat 256 (2 ^ 24 - 1) <<< 168) ||| (BitVec.ofNat 256 3 <<< 230)))
    ||| (BitVec.ofNat 256 (progress % 2 ^ 24) <<< 168) ||| (BitVec.ofNat 256 status <<< 230)

/-- The scratchpad offset of the ring entry of a sequence number (R127). -/
def Team.entryOff (t : Team) (n : Nat) : Nat := t.base + 32 * (1 + n % 63)

/-- Write the image of a ring's indices into its header (R127). -/
def State.ringImage (s : State) (tid : Nat) : State :=
  match tfind s.teams tid with
  | some t => s.spWrite 0 t.core t.base (leBytes 4 (t.tail % 2 ^ 32) ++ leBytes 4 (t.taken % 2 ^ 32) ++ leBytes 4 (t.retired % 2 ^ 32) ++ leBytes 20 0)
  | none => s

/-- Write a command into its ring entry. -/
def State.ringWrite (s : State) (tid n : Nat) (c : BitVec 256) : State :=
  match tfind s.teams tid with
  | some t => s.spWrite 0 t.core (t.entryOff n) (leBytes 32 c.toNat)
  | none => s

/-- Write STATUS and PROGRESS of a command into its ring entry: its other fields are software's (R128, R130). -/
def State.ringStatus (s : State) (tid n status progress : Nat) : State :=
  match tfind s.teams tid with
  | some t => s.ringWrite tid n (cmdSet (BitVec.ofNat 256 (s.spNat 0 t.core (t.entryOff n) 32)) status progress)
  | none => s

/-- RETIRED advances over each leading entry that is neither queued nor active (R129). -/
def Team.retire (t : Team) : Team :=
  let open_ := (t.issued.filterMap (·.ring)) ++ t.active.filterMap (·.ring)
  { t with retired := open_.foldl min t.tail }

/-- Append the leading COPYs of a team whose releases have completed, in issue order (R127, R280). -/
def State.appendCopies (s : State) (tid : Nat) : Nat → State
  | 0 => s
  | k + 1 =>
    match tfind s.teams tid with
    | none => s
    | some t =>
      match t.issued.find? fun p => p.ring.isNone with
      | none => s
      | some p =>
        if !p.ready then s
        else
          let t2 : Team := { t with issued := t.issued.map (fun x => if x.id = p.id then { x with ring := some t.tail } else x), tail := t.tail + 1 }
          (((s.setTeam tid t2).ringWrite tid t.tail p.cmd).ringImage tid).appendCopies tid k

/-- The release of a COPY has completed (R280). -/
def State.copyReleased (s : State) (tid cmd : Nat) : State :=
  match tfind s.teams tid with
  | none => s
  | some t =>
    let t2 : Team := { t with issued := t.issued.map fun x => if x.id = cmd then { x with ready := true } else x }
    (s.setTeam tid t2).appendCopies tid t.issued.length

/-- Lower the counters of the COPY's or TMOV's wave, while it is still the team's (R143). -/
def State.copyCounters (s : State) (tid wid : Nat) (cnt : List Nat) : State :=
  match tfind s.waves wid with
  | some w => if w.team = tid then (s.setWave wid (w.fall cnt)).settle wid else s
  | none => s

/-- Whether an acquire or release of the issuing wave holds back a COPY or TMOV (R265, R266). -/
def State.copyBlocked (s : State) (tid wid seq : Nat) : Bool :=
  match tfind s.waves wid with
  | some w => w.team == tid && (s.acqBlocked wid seq || w.rels.any fun r => decide (r.seq < seq))
  | none => false

/-- Where byte o of an end of a command lies, or its fault (R122, R128, R131). -/
def State.copyPlace (s : State) (g : Grid) (t : Team) (c : BitVec 256) (move : Option (Nat × Nat)) (isSrc : Bool) (o : Nat) :
    Except (BitVec 7) Loc :=
  let tile := match move, cmdTile c with
    | some (a, d), _ => some (if isSrc then a else d)
    | none, some (i, src) => if src == isSrc then some i else none
    | none, none => none
  match tile with
  | some i =>
    let (l, u, x) := tileLoc g t (t.tile i) o
    .ok (.sp l u x)
  | none =>
    if cmdSpace c isSrc = 0 then
      let va := BitVec.ofNat 64 (cmdAddr c isSrc + o)
      match s.walk g.ctx va (if isSrc then .read else .write) with
      | .ok (_, tr) => if s.noPlane g.ctx (tr.pa va) then .error 0x74 else .ok (.mem (tr.pa va) tr.key)
      | .error e => .error e
    else match s.spLocate t.grid g t (cmdSpace c isSrc - 1) (BitVec.ofNat 32 (cmdAddr c isSrc + o)) 32 with
      | .ok (u, x) => .ok (.sp (cmdSpace c isSrc - 1) u x)
      | .error e => .error e

/-- The checks of COPY on a command as the engine reads it (R130, R280): the space field of its tile's end, the tile's state and shape, its
scratchpad ends, its txbar. The command's own tile stands FILLING or DRAINING. -/
def State.copyCheck (s : State) (g : Grid) (t : Team) (c : BitVec 256) : Option (BitVec 7) :=
  let badTile : Option (BitVec 7) := match cmdTile c with
    | some (i, src) =>
      if cmdSpace c src ≠ 0 then some 0x03
      else if !tileDefined (t.tile i) then some 0x6B
      else if src && tileState (t.tile i) = 0 then some (if tileFault (t.tile i) then 0x6C else 0x6A)
      else if tileBytes (t.tile i) ≠ cmdLen c then some 0x6B else none
    | none => none
  let endBad := fun (isSrc : Bool) =>
    let tileEnd := match cmdTile c with | some (_, src) => src == isSrc | none => false
    if tileEnd then none else s.copyEnd t.grid g t (cmdSpace c isSrc) (cmdAddr c isSrc) (cmdLen c)
  let barBad := match cmdBar c with
    | some b => decide (b % 2 ^ 19 * 16 + 16 > g.spSize (b / 2 ^ 19 % 2))
    | none => false
  match badTile, endBad false, endBad true with
  | some e, _, _ | none, some e, _ | none, none, some e => some e
  | none, none, none => if barBad then some 0x68 else none

/-- The sectors of chunk k of a copy of n bytes (R129). -/
def chunkSectors (n k : Nat) : List Nat := (List.range 2048).map (fun j => k * 2048 + j) |>.filter fun j => decide (32 * j < n)

/-- The tiles of a command end their state (R123). -/
def Team.endTiles (t : Team) (c : BitVec 256) (move : Option (Nat × Nat)) (ok : Bool) : Team :=
  let filled := fun (e : BitVec 128) => if tileState e = 1 then (if ok then setTileState e 2 else setTileFault (setTileState e 0) true) else e
  let drained := fun (e : BitVec 128) => if tileState e = 3 then setTileState e 2 else e
  match move, cmdTile c with
  | some (a, d), _ => (t.modTile d filled).modTile a drained
  | none, some (i, true) => t.modTile i drained
  | none, some (i, false) => t.modTile i filled
  | none, none => t

/-- The txbar that a command is counted at: none for one that names bytes outside the allocation (R131, R285). -/
def copyBar (g : Grid) (t : Team) (c : BitVec 256) : Option (Nat × Nat × Nat) :=
  (cmdBar c).bind fun b => if b % 2 ^ 19 * 16 + 16 > g.spSize (b / 2 ^ 19 % 2) then none else some (txPlace g t b)

/-- Sectors of a command that its barrier has not counted: those of the current chunk that have not landed, and all later chunks
(R129, R139). -/
def Active.uncounted (a : Active) : Nat := cmdLen a.cmd / 32 - a.chunk * 2048 - (chunkSectors (cmdLen a.cmd) a.chunk).length + a.left.length

/-- Set a barrier's FAULT flag and count the command's remaining sectors, in one read-modify-write (R131, R139). -/
def State.faultTx (s : State) (p : Nat × Nat × Nat) (n : Nat) : State := s.lowerTx p.1 p.2.1 p.2.2 n true

/-- A command ends: its STATUS, its tiles, the retired entries, its counters; a fault sets its barrier's flag and is logged (R123,
R129, R131). -/
def State.endCopy (s : State) (tid : Nat) (a : Active) (fault : Option (BitVec 7 × DWord)) : State :=
  match tfind s.teams tid, s.gridOf tid with
  | some t, some g =>
    let t2 : Team := ({ t with active := t.active.filter fun x => x.id != a.id } : Team).endTiles a.cmd a.move fault.isNone
    let s1 := s.setTeam tid t2.retire
    let s2 := match a.ring with
      | some n => (s1.ringStatus tid n (if fault.isNone then stDone else stFault) a.chunk).ringImage tid
      | none => s1
    let s3 := match fault, copyBar g t a.cmd with
      | some _, some p => s2.faultTx p a.uncounted
      | _, _ => s2
    let s4 := match fault with
      | some (c, addr) => s3.logFault tid c addr (cmdBar a.cmd)
      | none => s3
    s4.copyCounters tid a.wid a.counters
  | _, _ => s

/-- Whether a command is the next that its team's engine may begin: the ring and the tile-move queue are started in their joint
issue order, four ring commands at most (R129, R283). -/
def Team.mayTake (t : Team) (p : Pending) : Bool :=
  t.resident && !t.stopped && (t.issued ++ t.tmq).all (fun x => x.id == p.id || decide (p.order < x.order))
    && (match p.ring with
      | some _ => decide ((t.active.filter fun a => a.ring.isSome).length < 4)
      | none => p.move.isSome)

/-- Whether two places are one sector. -/
def State.sameSector (s : State) : Except (BitVec 7) Loc → Except (BitVec 7) Loc → Bool
  | .ok (.mem a _), .ok (.mem b _) => s.place a / 32 == s.place b / 32
  | .ok (.sp l u x), .ok (.sp m v y) => l == m && u == v && x / 32 == y / 32
  | _, _ => false

/-- Whether an earlier command of the team has still to write a destination sector: one that runs, or one that waits to begin or to go on
(R129, R281). -/
def State.copyBehind (s : State) (g : Grid) (t : Team) (a : Active) (dst : Except (BitVec 7) Loc) : Bool :=
  let covers := fun (c : BitVec 256) (move : Option (Nat × Nat)) (secs : List Nat) =>
    secs.any fun k => s.sameSector (s.copyPlace g t c move false (32 * k)) dst
  let rest := fun (c : BitVec 256) (k : Nat) => (List.range (cmdLen c / 32)).filter fun j => decide (j / 2048 ≥ k)
  (t.active.any fun x => x.order < a.order && covers x.cmd x.move (x.left ++ rest x.cmd (x.chunk + 1)))
    || (t.issued ++ t.tmq).any fun x => x.order < a.order && covers x.cmd x.move (rest x.cmd (cmdProgress x.cmd))

/-- Whether a later command's chunk in progress may wait for sectors that a command writes from chunk `k` on; a later command that a third one
may wait for is taken with all its chunks (R129, log 161). -/
def State.laterWaits (s : State) (g : Grid) (t : Team) (a : Active) (k : Nat) : Bool :=
  let rest := fun (x : Active) (n : Nat) => (List.range (cmdLen x.cmd / 32)).filter fun j => decide (j / 2048 ≥ n)
  let dst := fun (x : Active) (j : Nat) => s.copyPlace g t x.cmd x.move false (32 * j)
  t.active.any fun x => decide (a.order < x.order)
    && (x.left ++ if t.active.any fun y => decide (x.order < y.order) then rest x (x.chunk + 1) else []).any fun j =>
      (rest a k).any fun i => s.sameSector (dst a i) (dst x j)

/-- A sector has landed: its barrier falls by one; at a chunk's end the command goes on, ends, or stops and stands QUEUED again
(R129, R130). One whose later chunks a later command's chunk in progress waits for goes on first (log 161). A stopped command of a grid that drains
is gone (R78). -/
def State.landed (s : State) (tid : Nat) (a : Active) (sector : Nat) : State :=
  match tfind s.teams tid, s.gridOf tid with
  | some t, some g =>
    let s1 := match copyBar g t a.cmd with | some (l, u, o) => s.lowerTx l u o 1 false | none => s
    let left := a.left.filter fun k => k != sector
    if !left.isEmpty then
      s1.modTeam tid fun t => { t with active := t.active.map fun x => if x.id = a.id then { x with left := left } else x }
    else
      let k := a.chunk + 1
      let next := chunkSectors (cmdLen a.cmd) k
      let b : Active := { a with left := next, chunk := k, cmd := cmdSet a.cmd stActive k, pre := [] }
      if next.isEmpty then s1.endCopy tid b none
      else if a.stop && (g.stat == .draining || !s.laterWaits g t a k) then
        let c := cmdSet a.cmd stQueued k
        let p : Pending := ⟨a.id, a.ring, true, a.order, c, a.move, a.wid, a.seq, a.counters⟩
        let s2 := s1.modTeam tid fun t =>
          let u : Team := { t with active := t.active.filter fun x => x.id != a.id }
          if g.stat = .draining then u
          else if a.move.isSome then { u with tmq := p :: u.tmq }
          else { u with issued := p :: u.issued }
        match a.ring with | some n => s2.ringStatus tid n stQueued k | none => s2
      else
        let s2 := s1.modTeam tid fun t => { t with active := t.active.map fun x => if x.id = a.id then b else x }
        match a.ring with | some n => s2.ringStatus tid n stActive k | none => s2
  | _, _ => s

/-- Write a copied sector to its destination (R129, R161); the fault that stops it otherwise (R54, R131). -/
def State.copyWrite (s : State) (g : Grid) (tid : Nat) (a : Active) (sector : Nat) (dst : Loc) (addr : DWord) (bs : List Byte) : State :=
  match dst with
  | .sp l u x =>
    let (u, x) := s.forwarded l u x
    ((s.spStore l u x bs).wakeTx l u x 32).landed tid a sector
  | .mem pa key =>
    if s.isPeer pa then s.sendRemote a.wid g.ctx pa (.copy tid a.id sector bs)
    else match s.storeStop none g.ctx (pa / 32) key 32 with
      | some c => (s.noteStop g.ctx pa c).endCopy tid a (some (c, addr))
      | none =>
        ((s.sectorWrite (pa / 32) key ((List.range 32).map fun k => (k, bs.getD k 0))).account g.ctx (s.place pa) s.t7 true).landed tid a sector
  | .va _ => s

/-- What the engine finds in a source sector of an active copy: its bytes, or the cause of a fault as one byte, as it was read before or
reads now; none for a peer's sector that has not come yet (R47, R131, R161, R184). -/
def State.sourceOf (s : State) (g : Grid) (t : Team) (a : Active) (sector : Nat) : Option (List Byte) :=
  match tfind a.pre sector with
  | some bs => some bs
  | none => match s.copyPlace g t a.cmd a.move true (32 * sector) with
    | .error c => some [c.setWidth 8]
    | .ok (.sp l u x) =>
      let (u, x) := s.forwarded l u x
      some (s.spRead l u x 32)
    | .ok (.mem pa key) =>
      if s.isPeer pa then none
      else match s.stopAt none g.ctx pa key false with
        | some c => some [c.setWidth 8]
        | none => some (s.physRead pa 32)
    | .ok (.va _) => none

/-- The account of a source sector that is read now (R158, R333). -/
def State.sourceRead (s : State) (g : Grid) (t : Team) (a : Active) (sector : Nat) : State :=
  match tfind a.pre sector, s.copyPlace g t a.cmd a.move true (32 * sector) with
  | none, .ok (.mem pa key) => match s.stopAt none g.ctx pa key false with
    | some c => s.noteStop g.ctx pa c
    | none => s.account g.ctx (s.place pa) s.t7 false
  | _, _ => s

/-- Keep what a source sector of the current chunk holds, before the copy writes over it; a peer's sector is asked for (R280). -/
def State.keepSource (s : State) (tid : Nat) (g : Grid) (t : Team) (a : Active) (sector : Nat) : State :=
  match s.sourceOf g t a sector with
  | some bs => (s.sourceRead g t a sector).modTeam tid fun t =>
      { t with active := t.active.map fun x => if x.id = a.id then { x with pre := tput x.pre sector bs } else x }
  | none => match s.copyPlace g t a.cmd a.move true (32 * sector) with
    | .ok (.mem pa _) => s.sendRemote a.wid g.ctx pa (.copy tid a.id sector [])
    | _ => s

/-- A source sector of the current chunk, not read yet, that a sector's landing would write over (R280). -/
def State.overwritten (s : State) (g : Grid) (t : Team) (a : Active) (sector : Nat) (dst : Except (BitVec 7) Loc) : Option Nat :=
  a.left.find? fun k => k != sector && (tfind a.pre k).isNone && s.sameSector (s.copyPlace g t a.cmd a.move true (32 * k)) dst

/-- The virtual address that a report of a copy's end names; 0 for a scratchpad end. -/
def copyVa (c : BitVec 256) (isSrc : Bool) (o : Nat) : DWord := if cmdSpace c isSrc = 0 then BitVec.ofNat 64 (cmdAddr c isSrc + o) else 0

/-- Whether a barrier that a landing sector lowers may change now (R138). -/
def State.barFree (s : State) (g : Grid) (t : Team) (c : BitVec 256) : Bool :=
  match copyBar g t c with
  | some (l, u, o) => !s.rootBusy l u o
  | none => true

end Sys2Proof.Machine
end

