-- ==== Sys2Proof/Machine/Control.lean ====
section
/-! DEFINITION. The control instructions (R210 to R225), divergence and the reconvergence stack (R85 to R90). -/

namespace Sys2Proof.Machine

/-- The image of a stack entry (R90). -/
def REntry.image (e : REntry) : List Byte :=
  leBytes 32 ((if e.started then 2 ^ 77 else 0) + e.split % 4 * 2 ^ 78 + e.join.toNat % 2 ^ 56 * 2 ^ 80
    + e.resume.toNat % 2 ^ 56 * 2 ^ 136 + e.held.toNat * 2 ^ 192 + e.mask.toNat * 2 ^ 224)

/-- A stack entry from its image, and whether its reserved bits are 0 (R90). -/
def entryOf (bs : List Byte) : REntry × Bool :=
  let b := BitVec.ofNat 256 (leNat bs)
  (⟨b.extractLsb' 224 32, b.extractLsb' 192 32, (b.extractLsb' 136 56).setWidth 64, (b.extractLsb' 80 56).setWidth 64,
    (b.extractLsb' 78 2).toNat, b.getLsbD 77⟩, b.extractLsb' 0 77 == 0)

/-- The place of the j-th oldest entry in the spill area of a wave (R90). -/
def spillOff (w : Wave) (score j : Nat) : Nat := (w.xreg 8).toNat + score - 1536 * ((w.xreg 3).toNat + 1) + 32 * j

/-- Whether a team's allocation has room for its spill areas (R90). -/
def Grid.spillRoom (g : Grid) : Bool := decide (1536 * g.waves ≤ g.score)

/-- Write the oldest entry of the core to the spill area; its split then issues nothing for 8 clk (R90). -/
def State.spillOne (s : State) (wid split clk score : Nat) : State :=
  match tfind s.waves wid with
  | none => s
  | some w =>
    match w.stack.getLast? with
    | none => s
    | some e =>
      let s := s.spWrite 0 (wCore wid) (spillOff w score w.spilled) e.image
      let w := { w with stack := w.stack.dropLast, spilled := w.spilled + 1 }
      s.setWave wid (w.modSplit split fun p => { p with notBefore := clk + 9 })

/-- Keep the newest 16 entries in the core: entries above 16 after a fill are spilled again (log 158). -/
def State.respill (s : State) (wid split clk score : Nat) : Nat → State
  | 0 => s
  | n + 1 =>
    match tfind s.waves wid with
    | some w => if w.stack.length > 16 then (s.spillOne wid split clk score).respill wid split clk score n else s
    | none => s

/-- Push an entry; none when the stack would overflow (R90). -/
def State.pushEntry (s : State) (q : Iss) (e : REntry) : Option State :=
  match tfind s.waves q.wid with
  | none => none
  | some w =>
    if w.depth ≥ 64 then none
    else if w.stack.length ≥ 16 ∧ !q.grid.spillRoom then none
    else
      let s := if w.stack.length ≥ 16 then s.spillOne q.wid q.split q.clk q.grid.score else s
      some (s.modWave q.wid fun w => { w with stack := e :: w.stack })

/-- The lowest free split number. -/
def Wave.freeSplit (w : Wave) : Option Nat := (List.range 4).find? fun i => !(w.split i).live

/-- A split that a branch has just formed (R86). -/
def newSplit (pc : DWord) (mask : Word) (clk : Nat) : Split := ⟨true, pc, mask, some clk, 0, false, false, none, false⟩

/-- Send a further group of lanes to its address: a new split, or a stack entry (R86). -/
def State.sendGroup (s : State) (q : Iss) (mask : Word) (pc : DWord) : Option State :=
  match tfind s.waves q.wid with
  | none => none
  | some w =>
    match w.freeSplit with
    | some k => some (s.setWave q.wid (w.setSplit k (newSplit pc mask q.clk)))
    | none => s.pushEntry q ⟨mask, 0, pc, 0, q.split, false⟩

/-- The split keeps a group of lanes and continues at an address. -/
def State.keepGroup (s : State) (q : Iss) (mask : Word) (pc : DWord) : State :=
  s.modWave q.wid fun w => w.modSplit q.split fun p => { p with mask := mask, pc := pc }

/-- A target of 12 × n instructions from an address (R190). -/
def branchTarget (pc : DWord) (n : Word) : DWord := BitVec.setWidth 64 (BitVec.setWidth 56 (pc + n.signExtend 64 * 12))

/-- NOP (R210). -/
def execNop (h : Hints) (s : State) : Result := runInstr (.nop h) h (fun q s => .done (s.quick q)) s

/-- The divergence of BRA (R86, R211): T goes to the target, N to the next instruction. -/
def divideBra (s : State) (q : Iss) (t n : Word) (target : DWord) : Res :=
  if t = 0 then .done s
  else if n = 0 then .done (s.jump q target)
  else
    match tfind s.waves q.wid with
    | none => .stay
    | some w =>
      if (w.freeSplit).isSome then
        match (s.keepGroup q n (q.pc + 12)).sendGroup q t target with
        | some s => .done s
        | none => .bad 0x0B
      else
        match s.pushEntry q ⟨n, 0, q.pc + 12, 0, q.split, false⟩ with
        | some s => .done (s.keepGroup q t target)
        | none => .bad 0x0B

/-- A branch's result with its signal counter (R192). -/
def Res.quick (r : Res) (q : Iss) : Res := match r with | .done s => .done (s.quick q) | r => r

/-- BRA's effect (R211). -/
def braBody (not u : Bool) (a : Opd) (n : Word) (q : Iss) (s : State) : Res :=
  let target := branchTarget q.pc n
  (if u then .done (if (q.uni a != 0) != not then s.jump q target else s)
   else
     let t := maskOf fun l => q.part.getLsbD l && (q.pred a l != not)
     divideBra s q t (q.mask &&& ~~~t) target).quick q

/-- BRA (R211). -/
def execBra (h : Hints) (not u : Bool) (a : Opd) (n : Word) (s : State) : Result :=
  runInstr (.bra h not u a n) h (braBody not u a n) s

/-- Lanes grouped by their targets, in the order of their lowest lane. -/
def groupLanes (ls : List Nat) (t : Nat → DWord) : List (DWord × Word) :=
  ((ls.map t).eraseDups).map fun x => (x, maskOf fun l => ls.contains l && t l == x)

/-- BRX's effect (R86, R212). -/
def brxBody (a : Opd) (b : SrcB) (q : Iss) (s : State) : Res :=
  let ls := lanesOf q.mask
  if q.lanes.any fun l => (q.srcB b l).tag then .bad 0x20
  else
    let t := fun l => if q.part.getLsbD l then q.uni64 a + (q.srcB b l).w.setWidth 64 else q.pc + 12
    if ls.any fun l => (t l).extractLsb' 0 2 != 0 then .bad 0x05
    else match groupLanes ls t with
      | [] => .done s
      | g :: gs =>
        match gs.foldlM (fun s e => State.sendGroup s q e.2 e.1) (s.keepGroup q g.2 g.1) with
        | some s => .done (s.quick q)
        | none => .bad 0x0B

/-- BRX (R212). -/
def execBrx (h : Hints) (a : Opd) (b : SrcB) (s : State) : Result := runInstr (.brx h a b) h (brxBody a b) s

/-- The words of a 64-bit value, low word first. -/
def dwords (x : DWord) : List Word := [x.setWidth 32, x.extractLsb' 32 32]

/-- CALL's effect: the return address is written at once (R92, R213). -/
def callBody (d : Opd) (b : SrcB) (q : Iss) (s : State) : Res :=
  let target := match b with | .lit n => branchTarget q.pc n | .reg o => q.uni64 o
  if target.extractLsb' 0 2 != 0 then .bad 0x05
  else .done (((s.writeS q d (dwords (q.pc + 12))).jump q target).quick q)

/-- CALL (R213). -/
def execCall (h : Hints) (d : Opd) (b : SrcB) (s : State) : Result := runInstr (.call h d b) h (callBody d b) s

/-- RET (R213). -/
def execRet (h : Hints) (a : Opd) (s : State) : Result :=
  runInstr (.ret h a) h (fun q s =>
    if (q.uni64 a).extractLsb' 0 2 != 0 then .bad 0x05 else .done ((s.jump q (q.uni64 a)).quick q)) s

/-- Fuse two splits of a wave: the lower number stays, with both masks and the later clock; entries that carry the higher
number are renumbered, those in the spill area too (R87). The fused split continues at `pc`. -/
def State.fuse (s : State) (wid i j : Nat) (pc : DWord) : State :=
  match tfind s.waves wid with
  | none => s
  | some w =>
    let lo := min i j
    let hi := max i j
    let a := w.split lo
    let b := w.split hi
    let prev := match a.prev, b.prev with
      | some x, some y => some (max x y)
      | some x, none => some x
      | none, y => y
    let w := w.setSplit lo ⟨true, pc, a.mask ||| b.mask, prev, max a.notBefore b.notBefore, false, false, none, a.filling || b.filling⟩
    let w := w.setSplit hi Split.off
    let w := { w with stack := w.stack.map fun e => if e.split = hi then { e with split := lo } else e }
    let score := match s.gridOf w.team with | some g => g.score | none => 0
    let s := (List.range w.spilled).foldl (fun (s : State) k =>
      let o := spillOff w score k
      let e := entryOf (s.spRead 0 (wCore wid) o 32)
      if e.1.split = hi then
        let n := s.spNat 0 (wCore wid) o 32
        s.spWrite 0 (wCore wid) o (leBytes 32 (n - hi * 2 ^ 78 + lo * 2 ^ 78))
      else s) s
    (s.setWave wid w).renumber wid hi lo

/-- When every live split is held, the one held at the lowest address, and the lowest number among equals, continues past its
JOIN (R88). -/
def Wave.unstick (w : Wave) : Wave :=
  let live := w.liveSplits
  let stuck := live.filter fun i => (w.split i).joinHeld && !(w.split i).trapHeld
  if live.all (fun i => (w.split i).joinHeld || (w.split i).trapHeld) then
    match stuck.foldl (fun (m : Option Nat) i => match m with
        | none => some i
        | some k => if (w.split i).pc.toNat < (w.split k).pc.toNat then some i else some k) none with
    | some i => w.modSplit i fun p => { p with joinHeld := false, pc := p.pc + 12 }
    | none => w
  else w

/-- The newest stack entry of a split that is in the core. -/
def Wave.entryFor (w : Wave) (split : Nat) : Option Nat := w.stack.findIdx? fun e => e.split == split

/-- Whether an entry of a split lies in the spill area (R88 to R90). -/
def State.spilledFor (s : State) (wid : Nat) (w : Wave) (score split : Nat) : Bool :=
  (List.range w.spilled).any fun k => (entryOf (s.spRead 0 (wCore wid) (spillOff w score k) 32)).1.split == split

/-- A JOIN or EXIT whose entry lies in the spill area waits for a fill (R90). -/
def State.startFill (s : State) (wid split clk : Nat) : State :=
  s.modWave wid fun w => w.modSplit split fun p => { p with filling := true, notBefore := clk + 8 }

/-- The split that is held at an address. -/
def Wave.heldAt (w : Wave) (split : Nat) (pc : DWord) : Option Nat :=
  w.liveSplits.find? fun i => i != split && (w.split i).joinHeld && !(w.split i).trapHeld && (w.split i).pc == pc

/-- JOIN's effect (R88). -/
def joinBody (q : Iss) (s : State) : Res :=
  let w := q.w
  let sp := w.split q.split
  let score := q.grid.score
  let rest : State :=
    let s := s.respill q.wid q.split q.clk score 64
    match w.heldAt q.split q.pc with
    | some k => s.fuse q.wid q.split k (q.pc + 12)
    | none => s.modWave q.wid fun w => (w.modSplit q.split fun p => { p with joinHeld := true, pc := q.pc }).unstick
  match w.entryFor q.split with
  | some k =>
    match w.stack[k]? with
    | none => .stay
    | some e =>
      if !e.started then
        let s := s.modWave q.wid fun w =>
          { w with stack := w.stack.set k { e with held := sp.mask, join := q.pc, started := true } }
        .done (((s.keepGroup q e.mask e.resume).respill q.wid q.split q.clk score 64).quick q)
      else if e.join = q.pc then
        let s := s.modWave q.wid fun w => { w with stack := w.stack.eraseIdx k }
        .done (((s.keepGroup q (sp.mask ||| e.held) (q.pc + 12)).respill q.wid q.split q.clk score 64).quick q)
      else .done (rest.quick q)
  | none =>
    if s.spilledFor q.wid w score q.split then
      .instead fun s => s.startFill q.wid q.split q.clk
    else .done (rest.quick q)

/-- JOIN (R214). -/
def execJoin (h : Hints) (s : State) : Result := runInstr (.join h) h joinBody s

/-- Whether any lane of a wave is live in a split or a stack entry (R215). -/
def Wave.anyLive (w : Wave) : Bool := !w.liveSplits.isEmpty || w.depth > 0

/-- Whether a team's waves are all EXITED (R84). -/
def State.teamExited (s : State) (t : Nat) : Bool :=
  match tfind s.teams t with
  | none => true
  | some x =>
    (s.teamWaves t).all (fun wid => match tfind s.waves wid with | some w => w.stat == .exited | none => true)
      && x.saved.all fun e => e.2.stat == .exited

/-- A RUNNING grid whose last team's last wave has exited goes to DRAINING with status OK (R78). -/
def State.gridWavesDone (s : State) (g : Nat) : State :=
  match tfind s.grids g with
  | none => s
  | some x =>
    if x.stat = .running ∧ x.next = x.teams ∧ (s.gridTeams g).all s.teamExited then s.setGrid g { x with stat := .draining } else s

/-- The wave exits: its references are given up, its chain closes, its handler ends, and the exit release begins (R83, R108,
R215, R296, R315). -/
def State.waveExit (s : State) (q : Iss) : State :=
  let s := s.dropAllRefs q.wid
  let s := match q.w.chain with | some c => s.closeChain c | none => s
  let s := s.modWave q.wid fun w =>
    { w with stat := .exited, v := [], pend := [], chain := none, handler := none, heldTraps := [], exiting := true }
  let s := s.addRel q.wid .sys q.seq q.cnt .nothing q.split q.pc q.word q.part
  s.gridWavesDone q.team.grid

/-- EXIT's effect (R89, R215). -/
def exitBody (q : Iss) (s : State) : Res :=
  let w := q.w
  let sp := w.split q.split
  let mask := sp.mask &&& ~~~q.part
  let score := q.grid.score
  if mask != 0 then .done ((s.keepGroup q mask (q.pc + 12)).quick q)
  else match w.entryFor q.split with
    | some k =>
      match w.stack[k]? with
      | none => .stay
      | some e =>
        let s := s.modWave q.wid fun w => { w with stack := w.stack.eraseIdx k }
        let s := if e.started then s.keepGroup q e.held (e.join + 12) else s.keepGroup q e.mask e.resume
        .done ((s.respill q.wid q.split q.clk score 64).quick q)
    | none =>
      if s.spilledFor q.wid w score q.split then .instead fun s => s.startFill q.wid q.split q.clk
      else
        let s := (s.respill q.wid q.split q.clk score 64).modWave q.wid fun w => w.setSplit q.split Split.off
        match tfind s.waves q.wid with
        | some w2 =>
          if w2.anyLive then .done (((s.setWave q.wid w2.unstick).renumber q.wid q.split 4).quick q)
          else .done ((s.raiseCnt q q.cnt).waveExit q)
        | none => .stay

/-- EXIT (R215). -/
def execExit (h : Hints) (s : State) : Result := runInstr (.exit h) h exitBody s

/-- A trap that TRAP or BKPT raises: it has issued, and the trap program counter is the next address (R216, R311). -/
def softTrap (cause : BitVec 7) (b : SrcB) (q : Iss) (s : State) : Res :=
  .trapAfter (s.quick q) cause (q.uniB b)

/-- TRAP (R216). -/
def execTrap (h : Hints) (b : SrcB) (s : State) : Result := runInstr (.trap h b) h (softTrap 0x7F b) s

/-- RETT's effect (R217, R315). -/
def rettBody (q : Iss) (s : State) : Res :=
  match q.w.handler with
  | none => .bad 0x09
  | some r =>
    if (q.w.xreg 33).extractLsb' 0 2 != 0 then .bad 0x05
    else
      let ended := q.w.liveSplits.filter fun k => k != r.split && !(q.w.split k).trapHeld
      .done (ended.foldl (fun s k => s.renumber q.wid k 4) ((s.quick q).modWave q.wid fun w => (w.leaveHandler r).unstick))

/-- RETT (R315). -/
def execRett (h : Hints) (s : State) : Result := runInstr (.rett h) h rettBody s

/-- REGION's effect (R97, R218). It has waited for every counter to be 0. -/
def regionBody (n : Word) (q : Iss) (s : State) : Res :=
  if q.w.liveSplits.length > 1 ∨ q.w.depth > 0 then .bad 0x0D
  else .done ((s.modWave q.wid fun w =>
    let v := w.flush
    let r : RegionRec := ⟨q.pc + 12, q.mask, v.p, w.f, v.q, v.xreg 16, w.chain, n⟩
    { w.setX 10 (w.xreg 10 + 1) with region := some r }).quick q)

/-- REGION (R218). -/
def execRegion (h : Hints) (n : Word) (s : State) : Result := runInstr (.region h n) h (regionBody n) s

/-- REGEND (R220). -/
def execRegend (h : Hints) (s : State) : Result :=
  runInstr (.regend h) h (fun q s => .done ((if q.w.region.isSome then s.closeRegion q.wid else s).quick q)) s

/-- YIELD's effect (R222). -/
def yieldBody (n : Word) (q : Iss) (s : State) : Res :=
  let key := wPart q.wid * 4 + (q.w.xreg 11).toNat % 4
  let s := s.modWave q.wid fun w => w.modSplit q.split fun p => { p with notBefore := q.clk + n.toNat % 256 + 1 }
  let s := s.modCore (wCore q.wid) fun c => { c with yielded := c.yielded ++ [(wSlot q.wid * 4 + q.split, key)] }
  .done (s.quick q)

/-- YIELD (R222). -/
def execYield (h : Hints) (n : Word) (s : State) : Result := runInstr (.yield h n) h (yieldBody n) s

/-- ELECT's effect (R223): the lowest participant. -/
def electBody (d : Opd) (q : Iss) (s : State) : Res :=
  let m := q.lanes.headD 0
  let writes := match d with
    | .p p => pTargets p.toNat (q.lanes.map fun l => (l, l == m))
    | d => sTargets d [BitVec.ofNat 32 m]
  .done (s.writeLater q 4 writes 0 q.cnt)

/-- ELECT (R223). -/
def execElect (h : Hints) (d : Opd) (s : State) : Result := runInstr (.elect h d) h (electBody d) s

/-- VOTE's effect (R224). -/
def voteBody (kind : VoteKind) (d a : Opd) (q : Iss) (s : State) : Res :=
  let ls := q.lanes
  let on := ls.filter fun l => q.pred a l
  let ballot := maskOf fun l => on.contains l
  let val := match kind with
    | .any => !on.isEmpty
    | .all => on.length == ls.length
    | .uni => on.isEmpty || on.length == ls.length
    | .ballot => false
  match d with
  | .v r =>
    .done ((s.writeLater q 4 (ls.map fun l => (.v r.toNat l, ballot.toNat)) 0 q.cnt).dropOld q [r.toNat] ls)
  | .p p => .done (s.writeLater q 4 (pTargets p.toNat (ls.map fun l => (l, val))) 0 q.cnt)
  | d => .done (s.writeLater q 4 (sTargets d [ballot]) 0 q.cnt)

/-- VOTE (R224). -/
def execVote (h : Hints) (kind : VoteKind) (d a : Opd) (s : State) : Result :=
  runInstr (.vote h kind d a) h (voteBody kind d a) s

/-- WAIT: it issues at its threshold (R225). -/
def execWait (h : Hints) (a : Opd) (n : Word) (s : State) : Result :=
  runInstr (.wait h a n) h (fun q s => .done (s.quick q)) s

/-- WAITC: it issues at its four thresholds (R225). -/
def execWaitc (h : Hints) (n : Word) (s : State) : Result :=
  runInstr (.waitc h n) h (fun q s => .done (s.quick q)) s

end Sys2Proof.Machine
end

