-- ==== Sys2Proof/Machine/System.lean ====
section
/-! DEFINITION. The system instructions (R304 to R311). -/

namespace Sys2Proof.Machine

/-- FPSTAT as a GETS reads it: with or without the flags of each result in flight (R250). -/
def Iss.fpstat (q : Iss) : Word :=
  (List.range q.w.pend.length).foldl (fun x k =>
    match q.w.pend[k]? with
    | some p => if Config.earlyPick (q.fresh + 8800 + k) % 2 = 1 then x ||| p.flags.setWidth 32 else x
    | none => x) (q.w.xreg 16)

/-- A special register as GETS reads it (R197, R305). -/
def Iss.special (q : Iss) (i : Nat) : Word := if i = 9 then q.mask else if i = 16 then q.fpstat else q.w.xreg i

/-- GETS: a write in the issue clock (R305). -/
def execGets (h : Hints) (d a : Opd) (s : State) : Result :=
  runInstr (.gets h d a) h (fun q s => .done ((s.writeS q d [q.special (opdIdx a)]).quick q)) s

/-- FPSTAT after a SETS: each 1 bit clears its flag, but for a flag that a result raises in the same clock (R32, R250, R305). -/
def Wave.clearFlags (w : Wave) (clk : Nat) (v : Word) : Wave :=
  let raised : Word := if w.raisedAt = clk then w.raised.setWidth 32 else 0
  w.setX 16 ((w.xreg 16 &&& ~~~v) ||| raised)

/-- SETS's effect (R197, R305, R314): FPSTAT and the RW trap registers; any other register traps. -/
def setsBody (d : Opd) (b : SrcB) (q : Iss) (s : State) : Res :=
  let i := opdIdx d
  let v := q.uniB b
  if i = 16 then .done ((s.modWave q.wid fun w => w.clearFlags q.clk v).quick q)
  else if i = 33 ∨ (44 ≤ i ∧ i ≤ 47) then .done ((s.modWave q.wid fun w => w.setX i v).quick q)
  else if i = 34 then .done ((s.modWave q.wid fun w => w.setX i (v &&& 0xFFFFFF)).quick q)
  else .bad 0x08

/-- SETS (R305). -/
def execSets (h : Hints) (d : Opd) (b : SrcB) (s : State) : Result := runInstr (.sets h d b) h (setsBody d b) s

/-- TIME: nanoseconds since cold reset (R306). -/
def execTime (h : Hints) (d : Opd) (s : State) : Result :=
  runInstr (.time h d) h (fun q s => .done ((s.writeS q d (dwords (BitVec.ofNat 64 s.ns))).quick q)) s

/-- CLOCK: clocks of the current core (R306). -/
def execClock (h : Hints) (d : Opd) (s : State) : Result :=
  runInstr (.clock h d) h (fun q s => .done ((s.writeS q d (dwords (BitVec.ofNat 64 q.clk))).quick q)) s

/-- The pieces of QPUT's read of 256 bytes; they wait for its release (R307). -/
def qputPieces (q : Iss) (a : Opd) (t : Nat) : List Piece :=
  (List.range 8).map fun k =>
    match a with
    | .t i =>
      let (l, u, x) := tileLoc q.grid q.team (q.team.tile i.toNat) (32 * k)
      ⟨0, 32 * k, 32, 0, .sp l u x, .remote, [], t, 0⟩
    | a =>
      let va : DWord := BitVec.ofNat 64 ((q.uni64 a).toNat / 32 * 32) + BitVec.ofNat 64 (32 * k)
      ⟨0, 32 * k, 32, va, .va va, .remote, [], t, 0⟩

/-- QPUT's effect: the release at device scope, then the read, then the append; the split holds meanwhile (R307). -/
def qputBody (i : Instr) (a : Opd) (q : Iss) (s : State) : Res :=
  if isTOpd a && tileBytes (q.team.tile (opdIdx a)) < 256 then .bad 0x6B
  else
    let r := q.mkReq s.nextId i q.part (qputPieces q a s.t7) q.cnt
    .done (((s.addReq q r).holdSplit q r.id).addRel q.wid .dev q.seq [] (.req r.id) q.split q.pc q.word q.part)

/-- QPUT (R307). -/
def execQput (h : Hints) (queue : BitVec 3) (a : Opd) (s : State) : Result :=
  runInstr (.qput h queue a) h (qputBody (.qput h queue a) a) s

/-- PROMOTE (R157). -/
def State.promote (s : State) : BitVec 8 := s.pme.policy.extractLsb' 56 8

/-- HINT's effect: a translation through the TLBs, which serves a miss (R153, R308). -/
def hintBody (kind : HintKind) (a : Opd) (q : Iss) (s0 : State) : Res :=
  let s := s0.missed q.w.ctx (wCore q.wid) (q.uni64 a) .read
  match s0.xlate q.w.ctx (wCore q.wid) (q.uni64 a) .read with
  | .error _ => .done (s.quick q)
  | .ok t =>
    let c := tget (0 : BitVec 8) s.phys.hot t.frame
    let n := match kind with
      | .hot => if c.toNat < s.promote.toNat then s.promote else c
      | .cold => 0
    let s1 : State := { s with phys := { s.phys with hot := tset 0 s.phys.hot t.frame n } }
    .done (s1.quick q)

/-- HINT (R308). -/
def execHint (h : Hints) (kind : HintKind) (a : Opd) (s : State) : Result := runInstr (.hint h kind a) h (hintBody kind a) s

/-- Whether n pages from a virtual page number may enter a window of their owner (R309). -/
def State.windowRange (s : State) (ctx : Nat) : Nat → Nat → Bool
  | 0, _ => true
  | n + 1, vpn =>
    match s.walk ctx (BitVec.ofNat 64 (vpn * 65536)) .read with
    | .ok (_, t) => winOfKey t.key == 0 && !t.rekey && s.windowRange ctx n (vpn + 1)
    | .error _ => false

/-- A page-table entry with another window id and REKEY bit (R147). -/
def pteWindow (e : DWord) (win : Nat) (rekey : Bool) : DWord :=
  (e &&& ~~~(0x0100_0000_0000_FF00 : DWord)) ||| BitVec.ofNat 64 (win % 256 * 256)
    ||| (if rekey then 0x0100_0000_0000_0000 else 0)

/-- Write a page-table entry: one access of its controller (R158). -/
def State.pteWrite (s : State) (ctx pa : Nat) (e : DWord) : State :=
  (s.physWrite pa ctx (leBytes 8 e.toNat)).account ctx (s.place pa) s.t7 true

/-- Set the window id and the REKEY bit in the entries of n pages, and note their frames; a page in motion takes them when its own re-key
starts (R49, R163). -/
def State.markWindow (s : State) (ctx win : Nat) : Nat → Nat → State
  | 0, _ => s
  | n + 1, vpn =>
    let va : DWord := BitVec.ofNat 64 (vpn * 65536)
    (match s.walk ctx va .read with
    | .error _ => s
    | .ok (pa, t) =>
      let e : DWord := BitVec.ofNat 64 (s.physNat pa 8)
      if e.getLsbD 57 then s.walked ctx va
      else ((s.walked ctx va).pteWrite ctx pa (pteWindow e win true)).modWindow win fun x => { x with marked := t.frame :: x.marked }).markWindow ctx win n (vpn + 1)

/-- WOPEN's effect: judged and accepted by the window unit, then released before the first page is re-keyed (R49, R51,
R309). -/
def wopenBody (d a : Opd) (b : SrcB) (q : Iss) (s : State) : Res :=
  let base := q.uni64 a
  let v := q.uniB b
  let importer := (v.extractLsb' 24 6).toNat
  let n := (v.extractLsb' 0 24).toNat
  let vpn := base.toNat / 65536
  let me := q.w.ctx
  if base.extractLsb' 0 16 != 0 || base.extractLsb' 56 8 != 0 || n = 0 || v.getLsbD 30 || importer = me
      || (s.ctx importer).st == .free || !s.windowRange me n vpn then .bad 0x48
  else match ((List.range 193).drop 1).find? fun w => (s.window w).st == .closed with
    | none => .bad 0x47
    | some w =>
      let s := s.setWindow w ⟨.opening, me, importer, v.getLsbD 31, n, vpn, 0, none, [], some (q.wid, q.cnt), [], []⟩
      let s : State := { s with phys := { s.phys with keys := tset 0 s.phys.keys (63 + w) (Config.randomKey s.fresh) },
                                fresh := s.fresh + 1 }
      let s := s.markWindow me w n vpn
      .done (((s.writeS q d [BitVec.ofNat 32 w]).raiseCnt q q.cnt).addRel q.wid .dev q.seq [] (.wopen w) q.split q.pc q.word q.part)

/-- WOPEN (R309). -/
def execWopen (h : Hints) (d a : Opd) (b : SrcB) (s : State) : Result := runInstr (.wopen h d a b) h (wopenBody d a b) s

/-- The window unit accepts a close: an OPEN window is CLOSING, one that is OPENING holds the event; of two
held events it takes the first (R49, log 140). -/
def Window.close (x : Window) (byReset : Option Nat) : Window :=
  match x.st with
  | .opened => { x with st := .closing, done := 0, held := none }
  | .opening => { x with held := some (x.held.getD byReset) }
  | _ => x

/-- A window is closed: an OPEN one comes to its close point, where the accesses that have reached their controllers are noted (R49, R54). -/
def State.shut (s : State) (w : Nat) (byReset : Option Nat) : State :=
  let x := s.window w
  s.setWindow w { x.close byReset with early := if x.st = .opened then s.reached w else x.early }

/-- WCLOSE's effect: the window closes as it is accepted, and the release is performed before the first page is re-keyed back (R49, R54,
R309). -/
def wcloseBody (b : SrcB) (q : Iss) (s : State) : Res :=
  let w := (q.uniB b).toNat
  let x := s.window w
  if w = 0 ∨ w > 192 ∨ x.owner ≠ q.w.ctx ∨ x.st = .closed ∨ x.st = .closing then .bad 0x49
  else
    let s := (s.shut w none).modWindow w fun x => { x with closers := x.closers ++ [(q.wid, q.cnt)] }
    .done ((s.raiseCnt q q.cnt).addRel q.wid .dev q.seq [] (.wclose w) q.split q.pc q.word q.part)

/-- WCLOSE (R309). -/
def execWclose (h : Hints) (b : SrcB) (s : State) : Result := runInstr (.wclose h b) h (wcloseBody b) s

/-- TLBINV (R310). -/
def execTlbinv (h : Hints) (a : Opd) (b : SrcB) (s : State) : Result :=
  runInstr (.tlbinv h a b) h (fun q s =>
    .done ((s.raiseCnt q q.cnt).addRel q.wid .sys q.seq [] (.tlbinv ((q.uni64 a).toNat / 65536) (q.uniB b).toNat q.cnt)
      q.split q.pc q.word q.part)) s

/-- BKPT (R311). -/
def execBkpt (h : Hints) (b : SrcB) (s : State) : Result := runInstr (.bkpt h b) h (softTrap 0x0A b) s

end Sys2Proof.Machine
end

