-- ==== Sys2Proof/Machine/Pages.lean ====
section
/-! DEFINITION. Invalidations (R149, R154), the page migration engine (R156 to R163), the re-keying of windows and their
opening and closing (R49, R54). -/

namespace Sys2Proof.Machine

/-- Whether an address lies in a range of virtual pages. -/
def inPages (vpn count : Nat) (va : DWord) : Bool := decide (vpn ≤ va.toNat / 65536 ∧ va.toNat / 65536 < vpn + count)

/-- Whether a piece has been translated and is not performed yet. -/
def Piece.flying (p : Piece) : Bool :=
  match p.st, p.loc with
  | .ready, .mem _ _ | .remote, .mem _ _ => true
  | _, _ => false

/-- Whether the run of a frame register includes a page of a range (R150). -/
def frameOver (vpn count : Nat) (f : BitVec 192) : Bool :=
  fValid f && decide (fVbase f / 65536 < vpn + count ∧ vpn * 65536 < fVbase f + fLimit f)

/-- The frame that a message to a home brings with it (R105). -/
def HKind.frame? : HKind → Option (BitVec 192)
  | .load a _ | .store a _ _ _ false _ _ | .atom a _ _ _ _ _ _ => a.frame
  | _ => none

/-- Whether a message to a home carries a translated address in a range of pages, or a frame whose run includes one. -/
def HomeItem.carries (h : HomeItem) (vpn count : Nat) : Bool :=
  match h.kind with
  | .fill _ va _ => inPages vpn count va
  | .store a _ _ _ true _ _ => inPages vpn count a.base
  | k => k.frame?.any (frameOver vpn count)

/-- Whether a remote request carries an access that was translated in a range of pages: a store or a sector of a copy by its address, code
and a forest's sectors in any case (R154, R184). The pieces of requests and the messages of homes are named by themselves. -/
def State.remoteOver (s : State) (vpn count : Nat) (r : Remote) : Bool :=
  match r.what with
  | .store _ e _ => inPages vpn count e.va
  | .copy team cmd sector data => match (tfind s.teams team).bind fun t => t.active.find? fun a => a.id == cmd with
    | some a => inPages vpn count (copyVa a.cmd data.isEmpty (32 * sector))
    | none => false
  | .fetch .. | .forest .. => true
  | .piece .. | .home .. | .dropped => false

/-- The accesses of a context that were translated in a range of pages and that no controller has accepted (R154). -/
def State.flying (s : State) (ctx vpn count : Nat) : List Nat :=
  let mine := s.waves.filter fun e => e.2.ctx == ctx
  let rs := mine.flatMap fun (e : Nat × Wave) =>
    ((e.2.reqs.filter fun r => r.pieces.any fun p => p.flying && inPages vpn count p.va).map (·.id))
      ++ ((e.2.sb.filter fun x => inPages vpn count x.va).map (·.id))
  rs ++ ((s.homeq.filter fun h => h.ctx == ctx && h.carries vpn count).map (·.id))
    ++ ((s.link.remotes.filter fun r => r.ctx == ctx && s.remoteOver vpn count r).map (·.id))

/-- Cut the LIMIT of every frame register of a context whose run includes a page of the range, resident or saved (R154). -/
def State.cutFrames (s : State) (ctx vpn count : Nat) : State :=
  let cutAll := fun (t : Tab (BitVec 192)) => t.map fun e => (e.1, cutFrame vpn count e.2)
  let cut := fun (w : Wave) => { w with f := cutAll w.f, region := w.region.map fun r => { r with f := cutAll r.f } }
  { s with waves := s.waves.map fun e => (e.1, if e.2.ctx = ctx then cut e.2 else e.2),
           teams := s.teams.map fun e => (e.1, { e.2 with saved := e.2.saved.map fun x => (x.1, if x.2.ctx = ctx then cut x.2 else x.2) }) }

/-- Start an invalidation: the TLBs lose the pages and the frame registers are cut at once; the accesses translated before it
are awaited (R154). -/
def State.startInval (s : State) (ctx vpn count : Nat) (reg : Bool) (wid : Option Nat) (cnt : List Nat) : State :=
  let i : Inval := ⟨s.nextId, ctx, vpn, count, reg, wid, cnt, s.flying ctx vpn count⟩
  let s1 : State := { s with nextId := s.nextId + 1, invals := s.invals ++ [i],
                             cores := s.cores.map (fun e => (e.1, { e.2 with tlb := tlbCut ctx vpn count e.2.tlb })),
                             clusters := s.clusters.map fun e => (e.1, { e.2 with tlb := tlbCut ctx vpn count e.2.tlb }) }
  s1.cutFrames ctx vpn count

/-- Whether an access that an invalidation awaits is still under way: a request that is not parked, a buffered store, a message to a home,
or a remote request. -/
def State.underWay (s : State) (i : Inval) (id : Nat) : Bool :=
  (s.waves.any fun e => (e.2.reqs.any fun r => r.id == id && r.pieces.any fun p => p.flying && inPages i.vpn i.count p.va)
      || e.2.sb.any fun x => x.id == id)
    || s.homeq.any (fun h => h.id == id) || s.link.remotes.any fun r => r.id == id

/-- INVCNT_WRITE (R149, R154). -/
def execInvcntWrite (ctx : Nat) (value : BitVec 32) (s : State) : Result :=
  .next (if value = 0 ∨ s.invals.any (fun i => i.reg && i.ctx == ctx) then s
  else s.startInval ctx ((s.ctx ctx).invaddr.toNat / 65536) value.toNat true none [])

/-- INVALIDATION_COMPLETE (R154): every access translated before it has been accepted; the counter of TLBINV falls. -/
def execInvalidationComplete (inv : Nat) (s : State) : Result :=
  .next (match s.invals.find? fun i => i.id == inv with
  | none => s
  | some i =>
    if i.waits.any (s.underWay i) then s
    else
      let s1 : State := { s with invals := s.invals.filter fun x => x.id != inv }
      match i.wid with
      | some w => s1.modWave w fun x => x.fall i.cnt
      | none => s1)

/-- Change the engine's state. -/
def State.modPme (s : State) (f : Pme → Pme) : State := { s with pme := f s.pme }

/-- Change a move. -/
def State.setMove (s : State) (k : Nat) (m : Move) : State := s.modPme fun p => { p with moves := tput p.moves k m }

/-- Pages in motion (R156). -/
def Pme.inMotion (p : Pme) : Nat := (p.moves.filter fun e => e.2.rekey.isNone).length

/-- MAXMOVES (R157). -/
def Pme.maxMoves (p : Pme) : Nat :=
  let n := (p.policy.extractLsb' 0 7).toNat
  if n = 0 then 1 else min n 64

/-- Entries of a tier's pool. -/
def Pme.size (p : Pme) (t : Nat) : Nat := (tget (0 : Word) p.fpsize t).toNat

/-- The physical address of a pool entry: 52 bits (R12). -/
def Pme.entryAt (p : Pme) (t i : Nat) : Nat := ((tget (0 : DWord) p.fpbase t).toNat + 8 * i) % 2 ^ 52

/-- Whether a pool entry lies in memory that the engine reaches (R12, log 125). -/
def State.poolThere (s : State) (pa : Nat) : Bool := (s.frameThere (pa / 65536)).isSome && !s.isPeer pa && !s.portDown pa

/-- The frame that a pool entry names, when the entry can be read. -/
def State.poolEntry (s : State) (t i : Nat) : Option Nat :=
  let pa := s.pme.entryAt t i
  if s.poolThere pa && !s.isPoison pa then some (s.physNat pa 8 % 2 ^ 36) else none

/-- The next index of a pool. -/
def Pme.after (p : Pme) (t i : Nat) : Word := BitVec.ofNat 32 ((i + 1) % p.size t)

/-- Take the next valid frame of a tier's pool; invalid entries on the way, and those that cannot be read, are consumed, each with an Amber
event (R156). -/
def State.takeFrame (s : State) (t : Nat) : Nat → Option Nat × State
  | 0 => (none, s)
  | k + 1 =>
    let p := s.pme
    let head := (tget (0 : Word) p.fphead t)
    if p.size t = 0 ∨ head = tget 0 p.fptail t then (none, s)
    else
      let f := (s.poolEntry t head.toNat).getD 0
      let at_ := s.place (p.entryAt t head.toNat)
      let s0 := if s.poolThere at_ then s.account ((s.holderOf at_).getD noCtx) at_ s.t7 false else s
      let s1 := s0.modPme fun p => { p with fphead := tset 0 p.fphead t (p.after t head.toNat) }
      if (s.poolEntry t head.toNat).isSome ∧ s.frameThere f = some t ∧ (s.grantOf f).isNone ∧ !s.isPeer (f * 65536) ∧ !s.tests.retired.contains f then (some f, s1)
      else (s1.amberEvent 0x53 5 0 f).takeFrame t k

/-- Append a frame to its tier's pool; a full pool, or an entry that does not exist, leaves it out with an Amber event, and a retired frame
never returns (R156, R323). -/
def State.poolFrame (s : State) (f : Nat) : State :=
  if s.tests.retired.contains f then s
  else match tierOf (f * 65536) with
    | none => s
    | some t =>
      let p := s.pme
      let tail := tget (0 : Word) p.fptail t
      let pa := p.entryAt t tail.toNat
      if p.size t = 0 ∨ p.after t tail.toNat = tget 0 p.fphead t ∨ !s.poolThere pa then s.amberEvent 0x53 5 0 f
      else
        let s1 := (s.physWrite pa (s.ownerCtx (s.place pa)) (leBytes 8 f)).account ((s.holderOf (s.place pa)).getD noCtx) (s.place pa) s.t7 true
        s1.modPme fun p => { p with fptail := tset 0 p.fptail t (p.after t tail.toNat) }

/-- The page-table entry of a virtual page: its address and value, when its walk does not fail. -/
def State.pteAt (s : State) (ctx vpn : Nat) : Option (Nat × DWord) :=
  match s.walk ctx (BitVec.ofNat 64 (vpn * 65536)) .read with
  | .ok (pa, _) => some (pa, BitVec.ofNat 64 (s.physNat pa 8))
  | .error _ => none

/-- The MOVING bit. -/
def pteMoving : DWord := 0x0200_0000_0000_0000
/-- The REKEY bit. -/
def pteRekey : DWord := 0x0100_0000_0000_0000

/-- An entry with another frame and tier, not moving. -/
def pteMove (e : DWord) (frame tier : Nat) : DWord :=
  (e &&& ~~~(0x0E0F_FFFF_FFFF_0000 : DWord)) ||| BitVec.ofNat 64 (frame % 2 ^ 36 * 2 ^ 16 + tier % 4 * 2 ^ 58)

/-- Start the move of a page into a frame of a tier: MOVING is set and the page is invalidated (R160). -/
def State.startMove (s : State) (ctx vpn : Nat) (t : Tr) (d tier : Nat) : State :=
  match s.pteAt ctx vpn with
  | none => s
  | some (pa, e) =>
    let e := e ||| pteMoving
    let s1 := ((s.walked ctx (BitVec.ofNat 64 (vpn * 65536))).pteWrite ctx pa e).startInval ctx vpn 1 false none []
    let m : Move := ⟨ctx, vpn, t.frame, d, tier, none, t.key, t.key, .cutting, 0, 0, [], e, false, s.t7, s.nextId⟩
    let s2 := s1.setMove s1.nextId m
    { s2 with nextId := s1.nextId + 1 }

/-- Whether a page stands still: its entry has neither MOVING nor REKEY, and no move of it is still to reach IDLE (R158, R160). -/
def State.atRest (s : State) (t : Tr) : Bool :=
  !t.moving && !t.rekey && !s.pme.moves.any fun e => e.2.src == t.frame || e.2.dst == t.frame

/-- Judge a MOVEREQ in the order of R158: the code of MOVESTAT, and the state after. -/
def State.moveReq (s : State) (v : DWord) : Nat × State :=
  let ctx := (v.extractLsb' 58 6).toNat
  let tier := (v.extractLsb' 56 2).toNat
  let vpn := (v.extractLsb' 16 40).toNat
  if tier = 3 ∨ (s.ctx ctx).st = .free then (1, s)
  else
  let s := s.walked ctx (BitVec.ofNat 64 (vpn * 65536))
  match s.walk ctx (BitVec.ofNat 64 (vpn * 65536)) .read with
    | .error _ => (1, s)
    | .ok (_, t) =>
      if s.isPeer (t.frame * 65536) then (1, s)
      else if !s.atRest t then (2, s)
      else if t.tier = tier then (4, s)
      else if s.pme.inMotion ≥ s.pme.maxMoves then (5, s)
      else match s.takeFrame tier (s.pme.size tier + 1) with
        | (none, s1) => (3, s1)
        | (some d, s1) => (0, s1.startMove ctx vpn t d tier)

/-- MOVEREQ (R158). -/
def execMovereq (value : BitVec 64) (s : State) : Result :=
  let (c, s) := s.moveReq value
  .next (s.modPme fun p => { p with movestat := BitVec.ofNat 32 c })

/-- HOTSEL (R156). -/
def execHotsel (value : BitVec 64) (s : State) : Result := .next (s.modPme fun p => { p with hotsel := value.extractLsb' 0 36 })

/-- The valid entries below an interior table: index, and the table that the entry names (R146). -/
def State.tableEntries (s : State) (table : Nat) : List (Nat × Nat) :=
  (List.range 1024).filterMap fun i =>
    let e : DWord := BitVec.ofNat 64 (s.physNat (table + 8 * i) 8)
    if e.getLsbD 63 then some (i, e.toNat % 2 ^ 52 / 2 ^ 13 * 2 ^ 13) else none

/-- The virtual pages that a context's tables map. -/
def State.mappedPages (s : State) (ctx : Nat) : List Nat :=
  (s.tableEntries (s.ctx ctx).ptroot.toNat).flatMap fun a =>
    (s.tableEntries a.2).flatMap fun b => (s.tableEntries b.2).flatMap fun c =>
      (s.tableEntries c.2).map fun d => ((a.1 * 1024 + b.1) * 1024 + c.1) * 1024 + d.1

/-- A page that the policy may move: its frame, context, virtual page. -/
abbrev PageRef := Nat × Nat × Nat

/-- The pages that the tables of enabled contexts map, in ascending frame order (R158). -/
def State.policyPages (s : State) : List (PageRef × Tr) :=
  let ctxs := (List.range 64).filter fun n => s.pme.ctxen.getLsbD n && (s.ctx n).st != .free
  let ps := ctxs.flatMap fun n => (s.mappedPages n).filterMap fun v =>
    match s.walk n (BitVec.ofNat 64 (v * 65536)) .read with
    | .ok (_, t) => if s.grantOf t.frame = some n ∧ !s.isPeer (t.frame * 65536) then some ((t.frame, n, v), t) else none
    | .error _ => none
  ps.mergeSort fun a b => decide (a.1.1 ≤ b.1.1)

/-- DEMOTE (R157). -/
def State.demote (s : State) : BitVec 8 := s.pme.policy.extractLsb' 48 8

/-- A page's counter. -/
def State.hotOf (s : State) (frame : Nat) : Nat := (tget (0 : BitVec 8) s.phys.hot frame).toNat

/-- Start the move of a candidate when it may start (R158). -/
def State.tryMove (s : State) (p : PageRef) (tier : Nat) : State :=
  match s.walk p.2.1 (BitVec.ofNat 64 (p.2.2 * 65536)) .read with
  | .error _ => s
  | .ok (_, t) =>
    if !s.atRest t || decide (s.pme.inMotion ≥ s.pme.maxMoves) then s
    else match s.takeFrame tier (s.pme.size tier + 1) with
      | (some d, s1) => s1.startMove p.2.1 p.2.2 t d tier
      | (none, s1) => s1

/-- POLICY_INTERVAL (R158): candidates are selected, promotions before demotions, and every counter is halved. -/
def execPolicyInterval (s : State) : Result :=
  .next (if !s.pme.policy.getLsbD 7 ∨ (s.pme.policy.extractLsb' 8 24) = 0 then s
  else
    let ps := s.policyPages
    let ups := ps.filter fun e => e.2.tier != 0 && decide (s.hotOf e.1.1 ≥ s.promote.toNat)
    let downs := ps.filter fun e => decide (e.2.tier < 2) && decide (s.hotOf e.1.1 ≤ s.demote.toNat)
    let s1 := ups.foldl (fun s e => s.tryMove e.1 0) s
    let s2 := downs.foldl (fun s e => s.tryMove e.1 (e.2.tier + 1)) s1
    { s2 with phys := { s2.phys with hot := (s2.phys.hot.map fun (e : Nat × BitVec 8) => (e.1, e.2 >>> 1)).filter fun e => e.2 != 0 } })

/-- Whether an invalidation has completed. -/
def State.invalDone (s : State) (id : Nat) : Bool := s.invals.all fun i => i.id != id

/-- MOVE_CUT_COMPLETE (R160): the invalidation is complete and copying begins at sector 0. -/
def execMoveCutComplete (move : Nat) (s : State) : Result :=
  .next (match tfind s.pme.moves move with
  | some m => if m.st = .cutting ∧ s.invalDone m.inv then s.setMove move { m with st := .copying, pos := 0, t := s.t7 } else s
  | none => s)

/-- Mark a sector poisoned at a placed address (R161). -/
def State.markPoison (s : State) (pa : Nat) : State :=
  let k := s.cell pa / 32
  { s with phys := { s.phys with poison := if s.phys.poison.contains k then s.phys.poison else k :: s.phys.poison } }

/-- The engine writes a whole sector at a placed address, without any forwarding, sealed under a key slot (R44, R160). -/
def State.engineWrite (s : State) (pa key : Nat) (bs : List Byte) (poison : Bool) : State :=
  let ctx := s.ownerCtx pa
  let k := s.cell pa / 32
  let s0 := (s.renewed ctx (k / 64)).setSeal pa (key + sealPlace pa)
  let s1 : State := { s0 with phys := s0.phys.writeBytes ctx k ((List.range 32).map fun i => (i, bs.getD i 0)) }
  let s2 := if poison then s1.markPoison pa else { s1 with phys := { s1.phys with poison := s1.phys.poison.filter (· != k) } }
  s2.account ctx pa s.t7 true

/-- The sector that the engine reads at a placed address, when it stands and passes its check under a key slot; and the state in which its
controller has counted it, with what a failed check leaves behind (R42, R47, R158, R161). -/
def State.engineRead (s : State) (pa key : Nat) : Option (List Byte) × State :=
  let k := s.cell pa / 32
  let bad := s.phys.poison.contains k
  let fails := !s.phys.zero k && s.sealAt pa != key + sealPlace pa
  let s := if fails && !bad then (s.pmc (s.ownerCtx pa) 7 1).startTest (.dram pa) (.integrity false) else s
  (if bad || fails then none else some ((List.range 32).map fun i => s.phys.byte (k * 32 + i)), s.account (s.ownerCtx pa) pa s.t7 false)

/-- Whether the expander behind a frame does not answer (R182). -/
def State.frameDown (s : State) (frame : Nat) : Bool :=
  tierOf (frame * 65536) == some 2 && (s.port (32 + s.cxlPort (frame * 65536))).st != 2

/-- The report of an aborted move or re-key (R160, R163, R318): the page, the first poisoned sector and the poisoned count. -/
def State.abortReport (s : State) (m : Move) : State :=
  let first := m.poisoned.foldl min (m.poisoned.headD 0)
  s.report m.ctx (s.plainRec 0x50 (BitVec.ofNat 64 (m.vpn * 65536)) (BitVec.ofNat 64 (first + m.poisoned.length * 2 ^ 16))) 0

/-- Add a grant of one frame. -/
def State.grantFrame (s : State) (ctx frame : Nat) : State := { s with phys := { s.phys with grants := (frame, 1, ctx) :: s.phys.grants } }

/-- Remove a frame from every grant. -/
def State.ungrantFrame (s : State) (frame : Nat) : State :=
  { s with phys := { s.phys with grants := s.phys.grants.flatMap fun g =>
      if g.1 ≤ frame ∧ frame < g.1 + g.2.1 then
        (([(g.1, frame - g.1, g.2.2), (frame + 1, g.1 + g.2.1 - frame - 1, g.2.2)] : List (Nat × Nat × Nat)).filter fun x => x.2.1 != 0)
      else [g] } }

/-- Commit a move or re-key: the entry is rewritten in one compare-and-swap, and the page is invalidated; an entry that has
changed aborts it (R160, R163). -/
def State.commitMove (s : State) (k : Nat) (m : Move) : State :=
  match s.pteAt m.ctx m.vpn with
  | some (pa, e) =>
    if e = m.pte then
      let new := match m.rekey with
        | some (w, opens) => pteWindow e (if opens then w else 0) false
        | none => pteMove e m.dst m.tier
      let s1 := ((s.walked m.ctx (BitVec.ofNat 64 (m.vpn * 65536))).pteWrite m.ctx pa new).startInval m.ctx m.vpn 1 false none []
      let s2 := if m.rekey.isNone then s1.grantFrame ((s.grantOf m.src).getD m.ctx) m.dst else s1
      s2.setMove k { m with st := .committing, inv := s.nextId }
    else cancel
  | none => cancel
where
  /-- The entry has changed since CUTTING. -/
  cancel : State :=
    (s.report m.ctx (s.plainRec 0x52 (BitVec.ofNat 64 (m.vpn * 65536)) 0) 0).setMove k { m with st := .aborting }

/-- A sector position joins those marked poisoned. -/
def Move.poison (m : Move) (j : Nat) : Move := { m with poisoned := if m.poisoned.contains j then m.poisoned else m.poisoned ++ [j] }

/-- Whether the copy of a sector has taken more than 2,000 ns (R160). -/
def Move.late (m : Move) (now : Nat) : Bool := decide (now > m.t + 14000)

/-- MOVE_SECTOR_COPY (R160): a sector is copied and its bit set; after sector 2,047 the move commits. A copy that has taken more than
2,000 ns aborts. A source that fails its check twice, or is poisoned, is written poisoned at D; a re-key marks it where it stands
(R163). -/
def execMoveSectorCopy (move : Nat) (sourceFails : Bool) (s : State) : Result :=
  .next (match tfind s.pme.moves move with
  | none => s
  | some m =>
    let src := (m.src * 2048 + m.pos) * 32
    let dst := (m.dst * 2048 + m.pos) * 32
    let owner := s.ownerCtx src
    if m.st ≠ .copying ∨ m.pos ≥ 2048 then s
    else if m.late s.t7 then s.setMove move { m with st := .aborting }
    else if (m.rekey.isNone ∧ s.frameDown m.dst) ∨ !s.canServe src ∨ !s.canServe dst
        ∨ !s.engineTurn owner (s.groupOf src) ∨ !s.engineTurn owner (s.groupOf dst) then s
    else
      let was := s.phys.poison.contains (s.cell src / 32)
      let (bs, s0) := if sourceFails || s.frameDown m.src then (none, s.noteStop owner src 0x40) else s.engineRead src m.keyS
      let kept := (List.range 32).map fun i => s.phys.byte (s.cell src + i)
      let s1 := s0.engineWrite dst m.keyD (bs.getD (if m.rekey.isNone then [] else kept)) bs.isNone
      let m0 : Move := if bs.isNone && !was then m.poison m.pos else m
      let m1 : Move := { m0 with pos := m.pos + 1, moved := m.moved + 2 ^ m.pos, t := s.t7 }
      if m1.pos < 2048 then s1.setMove move m1 else (s1.setMove move m1).commitMove move m1)

/-- Whether a core or home still holds work that carries a frame (R160). -/
def State.holdsFrame (s : State) (frame : Nat) : Bool :=
  let at_ := fun (pa : Nat) => pa / 65536 == frame
  (s.waves.any fun e => (e.2.sb.any fun x => at_ (x.sector * 32)) || e.2.reqs.any fun r => r.pieces.any fun p =>
      p.flying && match p.loc with | .mem pa _ => at_ pa | _ => false)
    || s.homeq.any fun h => match h.kind with
      | .store _ _ _ _ true pa _ => at_ pa
      | .fill parts _ _ => parts.any fun p => at_ p.2.1
      | k => k.frame?.any fun f => fValid f && decide (fPbase f < (frame + 1) * 65536 ∧ frame * 65536 < fPbase f + fLimit f)

/-- Start the re-key of a window's next page; a page in motion waits for its move (R163). Sectors change key where they stand:
`moved` tells which key serves them. A page whose walk fails now counts as done, with no report (log 67). -/
def State.startRekey (s : State) (w : Nat) : Nat → State
  | 0 => s
  | n + 1 =>
    let x := s.window w
    let opens := x.st == .opening
    let vpn := x.basevpn + x.done
    if x.done ≥ x.pages ∨ (x.st ≠ .opening ∧ x.st ≠ .closing) ∨ s.pme.moves.any (fun e => e.2.rekey == some (w, opens)) then s
    else match s.pteAt x.owner vpn with
      | none => (s.setWindow w { x with done := x.done + 1 }).startRekey w n
      | some (pa, e) =>
        let frame := (e.extractLsb' 16 36).toNat
        if e.getLsbD 57 || s.pme.moves.any fun e => e.2.src == frame || e.2.dst == frame then s
        else
          let e := pteWindow e w true
          let s1 := ((s.walked x.owner (BitVec.ofNat 64 (vpn * 65536))).pteWrite x.owner pa e).startInval x.owner vpn 1 false none []
          let (k, d) := if opens then (x.owner, 63 + w) else (63 + w, x.owner)
          let m : Move := ⟨x.owner, vpn, frame, frame, (e.extractLsb' 58 2).toNat, some (w, opens), k, d, .cutting, 0, 0, [], e, false,
            s.t7, s.nextId⟩
          let s2 := s1.setMove s1.nextId m
          { s2 with nextId := s1.nextId + 1 }

/-- Whether the release of a window's WOPEN or WCLOSE is still to complete: its pages are re-keyed after it (R51, R54). -/
def State.windowReleasing (s : State) (w : Nat) : Bool :=
  let c : Cont := if (s.window w).st = .closing then .wclose w else .wopen w
  s.waves.any fun e => e.2.rels.any fun r => r.cont == c

/-- Whether an access from before a window's close point is not complete (R54). -/
def State.earlyBusy (s : State) (w : Nat) : Bool := (s.window w).early.any (s.earlyStands (63 + w))

/-- The pages of a window are re-keyed once the release of its WOPEN or WCLOSE has completed, and back once every access from before the
close point has (R49, R51, R54). -/
def State.rekeyOn (s : State) (w : Nat) : State := if s.windowReleasing w || s.earlyBusy w then s else s.startRekey w ((s.window w).pages + 1)

/-- Let the windows go on whose next page waited (R163). -/
def State.retryRekeys (s : State) : State := (s.windows.map (·.1)).foldl State.rekeyOn s

/-- MOVE_SOURCE_RELEASE (R160): once nothing carries S, it is cleared and appended to its pool; a re-keyed page makes way for the
next one. -/
def execMoveSourceRelease (move : Nat) (s : State) : Result :=
  .next (match tfind s.pme.moves move with
  | none => s
  | some m =>
    if m.st ≠ .committing ∨ !s.invalDone m.inv then s
    else match m.rekey with
      | some (w, _) =>
        let s1 := s.modPme fun p => { p with moves := terase p.moves move }
        let s2 := if m.poisoned.isEmpty then s1 else s1.abortReport m
        (s2.modWindow w fun x => { x with done := x.done + 1, marked := x.marked.filter (· != m.src) }).startRekey w ((s2.window w).pages + 1)
      | none =>
        if s.holdsFrame m.src then s
        else
          let ctx := (s.grantOf m.src).getD m.ctx
          let s1 := s.modPme fun p => { p with moves := terase p.moves move }
          let s2 := s1.clearFrame ctx m.src
          ((s2.ungrantFrame m.src).poolFrame m.src).retryRekeys)

/-- MOVE_COPY_TIMEOUT (R160): D fails, or a sector's copy has taken more than 2,000 ns: the move or re-key aborts. D can also fail while it is
ABORTING. A sector that a re-key cannot reach is poisoned as one that cannot be read (R163). -/
def execMoveCopyTimeout (move : Nat) (destFailed : Bool) (s : State) : Result :=
  .next (match tfind s.pme.moves move with
  | none => s
  | some m =>
    let bad := destFailed || (m.rekey.isNone && s.frameDown m.dst)
    if m.st = .copying ∧ (bad ∨ m.late s.t7) then s.setMove move { m with st := .aborting, dstBad := bad }
    else if m.st = .aborting ∧ bad then s.setMove move { m with dstBad := true }
    else s)

/-- The lowest set bit of a moved map. -/
def lowestBit (m : Nat) : Option Nat := (List.range 2048).find? (bitAt m)

/-- An abort ends: MOVING is cleared with FRAME = S, the page is invalidated, the report is made, D returns to its pool unless it
has failed (R160). A re-key clears REKEY; its page is still to be re-keyed, and is taken again (R49, R163, log 67). -/
def State.endAbort (s : State) (k : Nat) (m : Move) : State :=
  let s1 := match s.pteAt m.ctx m.vpn with
    | some (pa, e) =>
      if (e.extractLsb' 16 36).toNat = m.src then
        (s.walked m.ctx (BitVec.ofNat 64 (m.vpn * 65536))).pteWrite m.ctx pa (e &&& ~~~(if m.rekey.isNone then pteMoving else pteRekey))
      else s
    | none => s
  let s2 := (s1.startInval m.ctx m.vpn 1 false none []).abortReport m
  let ctx := s2.ownerCtx (m.dst * 65536)
  let s3 := s2.modPme fun p => { p with moves := terase p.moves k }
  let s4 : State := if m.rekey.isSome || m.dstBad || s.frameDown m.dst then s3 else (s3.clearFrame ctx m.dst).poolFrame m.dst
  s4.retryRekeys

/-- MOVE_COPY_BACK (R160): an aborting move copies its lowest moved sector back, or marks it poisoned at S when it cannot be
reached. -/
def execMoveCopyBack (move : Nat) (reachable : Bool) (s : State) : Result :=
  .next (match tfind s.pme.moves move with
  | none => s
  | some m =>
    if m.st ≠ .aborting then s
    else match lowestBit m.moved with
      | none => s.endAbort move m
      | some j =>
        let src := (m.src * 2048 + j) * 32
        let dst := (m.dst * 2048 + j) * 32
        let ok := reachable && !s.frameDown m.dst
        let m0 : Move := if ok then m else { m.poison j with dstBad := true }
        let m1 : Move := { m0 with moved := m.moved - 2 ^ j }
        let (bs, s0) := if ok then s.engineRead dst m.keyD else (none, s)
        let s1 := if ok then s0.engineWrite src m.keyS (bs.getD []) bs.isNone else s0.markPoison src
        if m1.moved = 0 then (s1.setMove move m1).endAbort move m1 else s1.setMove move m1)

/-- Enter CLOSING: the close point. A close by the reset of a context is reported to the other context (R49). -/
def State.closeWindow (s : State) (w : Nat) (byReset : Option Nat) : State :=
  let x := s.window w
  let s1 := s.shut w byReset
  let s2 := match byReset with
    | some c => s1.report (if c = x.owner then x.importer else x.owner) (s.plainRec 0x46 0 0) 0
    | none => s1
  s2.rekeyOn w

/-- A window is to close by the reset of a context: at once when it is OPEN; while it is OPENING the event is held,
and of two held events the first is taken (R49, log 140). -/
def State.askClose (s : State) (w : Nat) (ctx : Nat) : State :=
  let x := s.window w
  if x.st = .opened then s.closeWindow w (some ctx) else s.setWindow w (x.close (some ctx))

/-- Lower the counters of the wave of a WOPEN or WCLOSE. -/
def State.windowCounters (s : State) (e : Nat × List Nat) : State := s.modWave e.1 fun w => w.fall e.2

/-- WINDOW_OPENED (R49): every page has been re-keyed: the window is OPEN, WOPEN's counter falls, and a held close is taken. Until then its
next page is started, when nothing holds it up. -/
def execWindowOpened (window : Nat) (s : State) : Result :=
  let x := s.window window
  .next (if x.st ≠ .opening then s
  else if x.done < x.pages then s.rekeyOn window
  else
    let s1 := s.setWindow window { x with st := .opened, opener := none, held := none, marked := [] }
    let s2 := match x.opener with | some e => s1.windowCounters e | none => s1
    match x.held with
    | some c => s2.closeWindow window c
    | none => s2)

/-- Whether an access through a window that was accepted before its close point, or the re-key of a page of it, is still to complete (R49,
R54). -/
def State.windowBusy (s : State) (w : Nat) : Bool :=
  s.earlyBusy w || s.pme.moves.any fun e => match e.2.rekey with | some (k, _) => k == w | none => false

/-- WINDOW_CLOSED (R49): every page has been re-keyed back: the key slot is zeroised and WCLOSE's counter falls. -/
def execWindowClosed (window : Nat) (s : State) : Result :=
  let x := s.window window
  .next (if x.st ≠ .closing then s
  else if x.done < x.pages then s.rekeyOn window
  else if s.windowBusy window then s
  else
    let s1 : State := { s with phys := { s.phys with keys := terase s.phys.keys (63 + window) } }
    x.closers.foldl State.windowCounters (s1.setWindow window { Window.init with owner := x.owner, importer := x.importer, write := x.write, pages := x.pages, basevpn := x.basevpn }))

end Sys2Proof.Machine
end

