-- ==== Sys2Proof/Machine/SaveArea.lean ====
section
/-! DEFINITION. The save area of a context (R55, R56): which bytes of it units take, writing them, and the loss of a unit. The layout is
the device's own: the area is filled from its start in pieces of 1 KiB, and the bytes it holds are free values (log 124). -/

namespace Sys2Proof.Machine

/-- The runs of a context's save area that hold units: offset, bytes (R55). -/
def State.areaUsed (s : State) (ctx : Nat) : List (Nat × Nat) :=
  (s.teams.flatMap fun (e : Nat × Team) => if s.teamCtx e.1 = ctx then e.2.area else [])
    ++ s.grids.flatMap fun (e : Nat × Grid) => if e.2.ctx = ctx then e.2.images.flatMap fun i => i.2.area else []

/-- The gaps that runs leave in an area, lowest first. -/
def gapsOf (used : List (Nat × Nat)) (size : Nat) : List (Nat × Nat) :=
  let step := fun (acc : Nat × List (Nat × Nat)) (u : Nat × Nat) =>
    (max acc.1 (u.1 + u.2), if u.1 > acc.1 then acc.2 ++ [(acc.1, u.1 - acc.1)] else acc.2)
  let last := (used.mergeSort fun a b => decide (a.1 ≤ b.1)).foldl step (0, [])
  if last.1 < size then last.2 ++ [(last.1, size - last.1)] else last.2

/-- The first n bytes of gaps. -/
def takeRuns (n : Nat) : List (Nat × Nat) → List (Nat × Nat)
  | [] => []
  | g :: gs => if n = 0 then [] else if n ≤ g.2 then [(g.1, n)] else g :: takeRuns (n - g.2) gs

/-- The place in a context's save area that n more bytes take. -/
def State.carve (s : State) (ctx n : Nat) : List (Nat × Nat) := takeRuns n (gapsOf (s.areaUsed ctx) (s.ctx ctx).vdsavesz.toNat)

/-- A run of virtual addresses cut at page boundaries: address and bytes of each part. -/
def pageParts (va n : Nat) : List (Nat × Nat) :=
  (List.range ((va % 65536 + n + 65535) / 65536)).map fun k =>
    let a := if k = 0 then va else (va / 65536 + k) * 65536
    (a, min (va + n) ((a / 65536 + 1) * 65536) - a)

/-- The parts of runs of a context's save area, page by page. -/
def State.areaParts (s : State) (ctx : Nat) (runs : List (Nat × Nat)) : List (Nat × Nat) :=
  runs.flatMap fun r => pageParts ((s.ctx ctx).vdsave.toNat + r.1) r.2

/-- Whether a counter above some leaves would wrap within a run of writes (R45). -/
def Phys.nearWrap (p : Phys) (ctx : Nat) (leaves : List Nat) : Bool :=
  leaves.any fun l => (nodeKeys ctx l).any fun k => decide ((tget (0 : BitVec 56) p.nodes k).toNat + 4096 ≥ 2 ^ 56)

/-- Write n whole sectors of a page with the contents of units (R44, R55). -/
def State.saveSectors (s : State) (pa n : Nat) : State :=
  let ctx := s.ownerCtx (s.place pa)
  let stamp := s.fresh
  let sec := s.spot pa / 32
  let one := fun (s : State) (i : Nat) =>
    let k := s.spot (pa + 32 * i) / 32
    let t := s.renewed ctx (k / 64)
    ({ t with phys := t.phys.saveRun ctx k 1 (stamp + 32 * i) } : State)
  let t := if (s.moveOf (pa / 65536)).isSome || s.phys.nearWrap ctx ((List.range n).map fun i => (sec + i) / 64).eraseDups then
      (List.range n).foldl one s
    else { s with phys := s.phys.saveRun ctx sec n stamp }
  { t with fresh := t.fresh + 32 * n }

/-- Write units to their place in a context's save area; the answer says whether every part could be written (R56). -/
def State.saveWrite (s : State) (ctx : Nat) (runs : List (Nat × Nat)) : Bool × State :=
  (s.areaParts ctx runs).foldl (fun (acc : Bool × State) p =>
    let va : DWord := BitVec.ofNat 64 p.1
    let acc := (acc.1, acc.2.virtAccount ctx va p.2 true)
    match acc.2.walk ctx va .write with
    | .error _ => (false, acc.2)
    | .ok (_, t) =>
      if acc.2.isPeer (t.pa va) || acc.2.portDown (t.pa va) then (false, acc.2) else (acc.1, acc.2.saveSectors (t.pa va) (p.2 / 32))) (true, s)

/-- The account of reading units back (R158, R333). -/
def State.readArea (s : State) (ctx : Nat) (runs : List (Nat × Nat)) : State :=
  s.readsAccount ctx ((s.areaParts ctx runs).map fun p => (BitVec.ofNat 64 p.1, p.2))

/-- Whether units can be read back from their place in a context's save area (R56). -/
def State.saveReadable (s : State) (ctx : Nat) (runs : List (Nat × Nat)) : Bool :=
  (s.areaParts ctx runs).all fun p =>
    let va : DWord := BitVec.ofNat 64 p.1
    match s.walk ctx va .read with
    | .error _ => false
    | .ok (_, t) =>
      let here := fun (k : Nat) => decide (s.spot (t.pa va) / 32 ≤ k ∧ k < s.spot (t.pa va) / 32 + p.2 / 32)
      !s.isPeer (t.pa va) && !s.portDown (t.pa va) && !(s.phys.poison.any here)
        && !(s.phys.sealed.any fun e => here e.1 && e.2 != s.sealWith (t.pa va) ctx)

/-- A unit is lost: cause 0x43 to the context and to Amber; its grid drains when it would next resume (R56). -/
def State.loseUnit (s : State) (ctx gid : Nat) : State :=
  ((s.modGrid gid fun g => { g with lost := true }).report ctx (s.plainRec 0x43 (s.ctx ctx).vdsave 0) 0).amberEvent 0x43 7 ctx 0

/-- Write units of a grid to a place of their context's save area, or lose them (R56). The device tries a write that fails once more: in
one step of the model the second try meets what the first met. -/
def State.saveUnits (s : State) (ctx gid : Nat) (runs : List (Nat × Nat)) : State :=
  let (ok, t) := s.saveWrite ctx runs
  if ok then t else t.loseUnit ctx gid

end Sys2Proof.Machine
end

