-- ==== Sys2Proof/Machine/Teams.lean ====
section
/-! DEFINITION. Where teams stand: free runs of scratchpad (R116), tenant positions (R82), the allocations of grids on clusters
and dies, the end of a team (R84), the release of wave slots (R83). Then the steps of the copy engine that can end a team. -/

namespace Sys2Proof.Machine

/-- The table of a scratchpad level. -/
def State.spTab (s : State) (lvl : Nat) : Tab Byte := match lvl with | 0 => s.spCore | 1 => s.spClu | _ => s.spDie

/-- Replace the table of a scratchpad level. -/
def State.setSpTab (s : State) (lvl : Nat) (t : Tab Byte) : State :=
  match lvl with
  | 0 => { s with spCore := t }
  | 1 => { s with spClu := t }
  | _ => { s with spDie := t }

/-- Bytes of a unit of a level (R15). -/
def spTotal (lvl : Nat) : Nat := match lvl with | 0 => coreBytes | 1 => cluBytes | _ => dieBytes

/-- The non-zero bytes of an allocation, by their offset in it. -/
def State.spImage (s : State) (lvl unit off n : Nat) : Tab Byte :=
  let lo := unit * spTotal lvl + off
  (s.spTab lvl).filterMap fun e => if lo ≤ e.1 ∧ e.1 < lo + n then some (e.1 - lo, e.2) else none

/-- Zero an allocation. -/
def State.spZero (s : State) (lvl unit off n : Nat) : State :=
  let lo := unit * spTotal lvl + off
  s.setSpTab lvl ((s.spTab lvl).filter fun e => !(decide (lo ≤ e.1 ∧ e.1 < lo + n)))

/-- Fill an allocation with an image. -/
def State.spLoad (s : State) (lvl unit off n : Nat) (img : Tab Byte) : State :=
  let lo := unit * spTotal lvl + off
  let z := s.spZero lvl unit off n
  z.setSpTab lvl (img.foldl (fun t e => tset 0 t (lo + e.1) e.2) (z.spTab lvl))

/-- A run of free 64 KiB blocks (R79): of those that are free the lowest (log 164). -/
def freeRun (total n : Nat) (used : List (Nat × Nat)) : Option Nat :=
  ((List.range (total / 65536)).map (· * 65536)).find? fun b =>
    decide (b + n ≤ total) && used.all fun u => n == 0 || u.2 == 0 || decide (b + n ≤ u.1 ∨ u.1 + u.2 ≤ b)

/-- The LAZY and SAVING blocks of a unit of a level (R57). -/
def State.lazyRuns (s : State) (lvl unit : Nat) : List (Nat × Nat) :=
  s.lazies.filterMap fun u => match u.kind with
    | .block l k off => if l = lvl ∧ k = unit then some (off, 65536) else none
    | _ => none

/-- The runs of a core's scratchpad in use: teams, forwarding duties, LAZY units (R57, R98, R116). -/
def State.coreRuns (s : State) (core : Nat) : List (Nat × Nat) :=
  (s.teams.filterMap fun (e : Nat × Team) =>
      if e.2.resident && e.2.core == core then (s.gridOf e.1).map fun g => (e.2.base, g.score) else none)
    ++ ((s.core core).fwd.filterMap fun (f : Nat × Nat) => (s.gridOf f.1).map fun g => (f.2, g.score))
    ++ s.lazyRuns 0 core

/-- The runs of a cluster's or die's scratchpad in use. -/
def State.unitRuns (s : State) (lvl unit : Nat) : List (Nat × Nat) :=
  (s.grids.filterMap fun (e : Nat × Grid) => (tfind (if lvl = 1 then e.2.clu else e.2.die) unit).map fun b => (b, e.2.spSize lvl))
    ++ s.lazyRuns lvl unit

/-- The unit of a level that a core belongs to. -/
def unitOf (lvl core : Nat) : Nat := if lvl = 1 then cluOf core else dieOf core

/-- The allocations of a grid at a level. -/
def Grid.allocs (g : Grid) (lvl : Nat) : Tab Nat := if lvl = 1 then g.clu else g.die

/-- Replace them. -/
def Grid.setAllocs (g : Grid) (lvl : Nat) (t : Tab Nat) : Grid := if lvl = 1 then { g with clu := t } else { g with die := t }

/-- The image of a level that a team returns to. -/
def Team.img (t : Team) (lvl : Nat) : Nat := if lvl = 1 then t.imgs.1 else t.imgs.2

/-- Whether a team of the grid stands on a unit. -/
def State.occupied (s : State) (g lvl unit : Nat) : Bool :=
  s.teams.any fun t => t.2.grid == g && t.2.resident && unitOf lvl t.2.core == unit

/-- The LAZY blocks of a run of a unit of a level, of a team or of a grid's shared scratchpad (R57). -/
def lazyBlocks (first : Nat) (team : Option Nat) (gid ctx lvl unit base n : Nat) : List LazyUnit :=
  (List.range (n / 65536)).map fun k => ⟨first + k, team, gid, ctx, .block lvl unit (base + 65536 * k), .lazy, none⟩

/-- Whether a unit is a LAZY or SAVING block of a run of a unit of a level, of a team (or none) of a grid. -/
def LazyUnit.blockOf (u : LazyUnit) (team : Option Nat) (gid lvl unit base n : Nat) : Bool :=
  u.st != .owned && u.team == team && u.grid == gid && match u.kind with
    | .block l k off => l == lvl && k == unit && decide (base ≤ off ∧ off < base + n)
    | _ => false

/-- Units become LAZY: they are the latest of all (R57). -/
def State.addLazies (s : State) (us : List LazyUnit) : State := { s with lazies := s.lazies ++ us, nextId := s.nextId + us.length }

/-- A grid leaves a unit on which no team of it stands any more: its allocation is free. When a team without a place returns to its
bytes, they are saved; under lazy save the blocks stay where they are, LAZY (R55, R57, R79). -/
def State.leaveUnit (s : State) (gid lvl unit : Nat) : State :=
  match tfind s.grids gid with
  | none => s
  | some g =>
    match tfind (g.allocs lvl) unit with
    | none => s
    | some b =>
      if s.occupied gid lvl unit then s
      else
        let n := g.spSize lvl
        let g1 := g.setAllocs lvl (terase (g.allocs lvl) unit)
        let needed := fun (e : Nat × SpImage) => s.teams.any fun t => t.2.grid == gid && !t.2.resident && t.2.img e.2.lvl == e.1
        let mine := fun (e : Nat × SpImage) => e.2.lvl == lvl && e.2.now == some unit && needed e
        let rest := g.images.filter fun e => needed e
        if g.stat = .draining ∨ !g.images.any mine then s.setGrid gid { g1 with images := rest }
        else if g.eff.lazySave then
          (s.setGrid gid { g1 with images := rest.map fun e => if mine e then (e.1, { e.2 with base := b }) else e }).addLazies
            (lazyBlocks s.nextId none gid g.ctx lvl unit b n)
        else
          let area := s.carve g.ctx n
          let bytes := s.spImage lvl unit b n
          (s.setGrid gid { g1 with images := rest.map fun e => if mine e then (e.1, { e.2 with now := none, bytes := bytes, area := area }) else e }).saveUnits
            g.ctx gid area

/-- The tenant position that a context has on a core, or the lowest free one (R82). -/
def State.tenantPos (s : State) (core ctx : Nat) : Option Nat :=
  let t := (s.core core).tenants
  match (List.range 4).find? fun p => tfind t p == some ctx with
  | some p => some p
  | none => (List.range 4).find? fun p => (tfind t p).isNone

/-- Give a context its tenant position on a core; a new position starts with deficit 0, and the slots that its last holder has issued are
not its own (R82, R94, R340). -/
def State.takePos (s : State) (core ctx pos : Nat) : State :=
  s.modCore core fun c =>
    if tfind c.tenants pos = some ctx then c
    else { c with tenants := tput c.tenants pos ctx,
                  hist := c.hist.map fun e => (e.1, e.2.map fun p => if p = pos then 4 else p),
                  deficit := (List.range 6).foldl (fun d p => tset 0 d (p * 4 + pos) 0) c.deficit }

/-- Free the tenant position of a context whose last wave has left a core (R82). -/
def State.freePos (s : State) (core ctx : Nat) : State :=
  if s.waves.any fun e => wCore e.1 == core && e.2.ctx == ctx then s
  else s.modCore core fun c => { c with tenants := c.tenants.filter fun e => e.2 != ctx }

/-- Take a wave out of its slot: nothing of it stays in the scheduler's lists (R83). -/
def State.removeWave (s : State) (wid : Nat) : State :=
  match tfind s.waves wid with
  | none => s
  | some w =>
    let s1 : State := { s with waves := terase s.waves wid }
    (s1.modCore (wCore wid) fun c => { c with yielded := c.yielded.filter fun y => y.1 / 4 != wSlot wid }).freePos (wCore wid) w.ctx

/-- Whether an invalidation or a window still owes a wave the fall of its counters (R49, R154). -/
def State.owed (s : State) (wid : Nat) : Bool :=
  s.invals.any (fun i => i.wid == some wid)
    || s.windows.any fun w => w.2.closers.any (fun c => c.1 == wid) || w.2.opener.any fun c => c.1 == wid

/-- Whether nothing that a wave has issued is still under way (R83, R96). -/
def State.waveQuiet (s : State) (wid : Nat) : Bool :=
  (match tfind s.waves wid with | some w => w.reqs.isEmpty && w.sb.isEmpty && w.rels.isEmpty | none => true)
    && s.portq.all (fun p => p.wid != wid) && s.homeops.all (fun o => o.wid != wid) && s.homeq.all (fun h => h.wid != wid)
    && s.mxq.all (fun m => m.wid != wid) && s.forestq.all (fun f => f.wid != wid) && s.link.remotes.all (fun r => r.wid != wid)
    && !s.owed wid

/-- Whether a command of another team still names bytes of a team's core scratchpad (R84). -/
def State.namedByCopy (s : State) (tid : Nat) (t : Team) (score : Nat) : Bool :=
  let inMe := fun (g : Grid) (u : Team) (c : BitVec 256) (isSrc : Bool) =>
    cmdSpace c isSrc == 1 && match s.copyPlace g u c none isSrc 0 with
      | .ok (.sp 0 k x) => k == t.core && decide (t.base < x + cmdLen c ∧ x < t.base + score)
      | _ => false
  s.teams.any fun (e : Nat × Team) => e.1 != tid && match s.gridOf e.1 with
    | some g =>
      let cs := e.2.active.map (·.cmd) ++ e.2.issued.map (·.cmd)
      cs.any fun c => inMe g e.2 c false || inMe g e.2 c true
    | none => false

/-- Whether a team has ended: its waves are gone and its copies have completed (R84). -/
def State.teamOver (s : State) (tid : Nat) (t : Team) : Bool :=
  (s.teamWaves tid).isEmpty && t.saved.isEmpty && t.issued.isEmpty && t.active.isEmpty && t.tmq.isEmpty
    && !(t.resident && s.namedByCopy tid t (match s.gridOf tid with | some g => g.score | none => 0))

/-- Whether a team ends once its exited waves have left their slots: nothing of it is left to be saved (R83, R84). -/
def State.teamEnds (s : State) (tid : Nat) (t : Team) : Bool :=
  let ws := s.teamWaves tid
  !ws.isEmpty && ws.all (fun wid => (tfind s.waves wid).any fun w => w.stat == .exited)
    && (ws.foldl State.removeWave s).teamOver tid t

/-- Images of a grid to which no team returns any more go, with the LAZY blocks that stood for them; what is SAVING stays
until it is written (R7, R57). -/
def State.dropImages (s : State) (gid : Nat) : State :=
  match tfind s.grids gid with
  | none => s
  | some g =>
    let needed := fun (e : Nat × SpImage) => s.teams.any fun t => t.2.grid == gid && !t.2.resident && t.2.img e.2.lvl == e.1
    let gone := g.images.filter fun e => !needed e
    let blocks := fun (u : LazyUnit) => gone.any fun e => match e.2.now with
      | some k => (tfind (g.allocs e.2.lvl) k).isNone && u.blockOf none gid e.2.lvl k e.2.base (g.spSize e.2.lvl)
      | none => false
    { s.setGrid gid { g with images := g.images.filter needed } with lazies := s.lazies.filter fun u => u.st == .saving || !blocks u }

/-- The end of a team (R84): its log goes to the fault domain, its slots, scratchpad and tile entries return, its engine and its
leaf records are free, no port forwards for it any more. An arrival that a leaf has sent still reaches its root (R137). -/
def State.endTeam (s : State) (tid : Nat) (t : Team) : State :=
  let ctx := s.teamCtx tid
  let s1 := t.log.foldl (fun (s : State) r => s.toDomain ctx r) s
  let s1 := (List.range 24).foldl (fun (s : State) k => if (s.leaves k).isEmpty then s else s.removeLeaves k fun l => l.gone.isNone && l.team == tid) s1
  let s2 : State := { s1 with teams := terase s1.teams tid,
                              lazies := s1.lazies.filter fun u => u.st == .saving || u.team != some tid,
                              cores := s1.cores.map fun (e : Nat × Core) =>
                                (e.1, { e.2 with fwd := e.2.fwd.filter fun f => f.1 != tid,
                                                 mx := if e.2.mx.owner = some tid then { e.2.mx with owner := none } else e.2.mx }) }
  (((s2.freePos t.core ctx).leaveUnit t.grid 1 (cluOf t.core)).leaveUnit t.grid 2 (dieOf t.core)).dropImages t.grid

/-- End a team if it is over. -/
def State.tryEndTeam (s : State) (tid : Nat) : State :=
  match tfind s.teams tid with
  | none => s
  | some t => if s.teamOver tid t then s.endTeam tid t else s

/-- End every team that is over: the end of a copy can free the team whose scratchpad it named (R84). -/
def State.endOver (s : State) : State := (s.teams.map (·.1)).foldl State.tryEndTeam s

/-- WAVE_SLOT_RELEASE (R83): the slot of an exited wave is free once everything it issued has completed or been dropped; the last
slot of a team ends the team (R84). -/
def execWaveSlotRelease (wid : Nat) (s : State) : Result :=
  .next (match tfind s.waves wid with
  | none => s
  | some w => if w.stat = .exited ∧ s.waveQuiet wid then (s.removeWave wid).endOver else s)

/-- The engine reads a queued command and makes it ACTIVE at the chunk that it has reached; one that fails COPY's checks faults (R130); one of no
length is DONE (R280). -/
def State.copyTake (s : State) (team cmd : Nat) : State :=
  match tfind s.teams team, s.gridOf team with
  | some t, some g =>
    match (t.issued ++ t.tmq).find? fun p => p.id == cmd with
    | none => s
    | some p =>
      if !t.mayTake p || s.copyBlocked team p.wid p.seq then s
      else
        let c : BitVec 256 := match p.ring with | some n => BitVec.ofNat 256 (s.spNat 0 t.core (t.entryOff n) 32) | none => p.cmd
        let k := cmdProgress p.cmd
        let c1 := cmdSet c stActive k
        let a : Active := ⟨p.id, p.ring, p.order, c1, p.move, chunkSectors (cmdLen c) k, k, false, p.seq, p.wid, p.cnt, []⟩
        let t2 : Team := { t with issued := t.issued.filter (fun x => x.id != cmd), tmq := t.tmq.filter (fun x => x.id != cmd),
                                  active := t.active ++ [a], taken := match p.ring with | some n => max t.taken (n + 1) | none => t.taken }
        let s1 := s.setTeam team t2
        let s2 := match p.ring with | some n => (s1.ringStatus team n stActive k).ringImage team | none => s1
        match if p.move.isNone then s.copyCheck g t c else none with
        | some e => s2.endCopy team a (some (e, 0))
        | none => if a.left.isEmpty then s2.endCopy team a none else s2
  | _, _ => s

/-- The engine reads a source sector whole and writes it whole to its destination; a source sector of the same chunk that stands there is
read first (R280). -/
def State.copyLand (s : State) (team cmd sector : Nat) : State :=
  match tfind s.teams team, s.gridOf team with
  | some t, some g =>
    match t.active.find? fun a => a.id == cmd with
    | none => s
    | some a =>
      let o := 32 * sector
      let src := s.copyPlace g t a.cmd a.move true o
      let dst := s.copyPlace g t a.cmd a.move false o
      let busy := fun (l : Except (BitVec 7) Loc) => match l with | .ok (.mem pa _) => !s.canServe (s.place pa) || !s.engineTurn g.ctx (s.groupOf (s.place pa)) | _ => false
      let sent := s.link.remotes.any fun r => match r.what with | .copy x y z _ => x == team && y == cmd && z == sector | _ => false
      if !t.resident || !a.left.contains sector || busy src || busy dst || sent || !s.barFree g t a.cmd
          || s.copyBehind g t a dst then s
      else match s.overwritten g t a sector dst with
        | some k => s.keepSource team g t a k
        | none => match s.sourceOf g t a sector with
          | none => s.keepSource team g t a sector
          | some [c] => s.endCopy team a (some (c.setWidth 7, copyVa a.cmd true o))
          | some bs => match dst with
            | .error c => s.endCopy team a (some (c, copyVa a.cmd false o))
            | .ok d => (s.sourceRead g t a sector).copyWrite g team a sector d (copyVa a.cmd false o) bs
  | _, _ => s

/-- The causes with which a copy can fault (R131, R324). -/
def copyCauses : List Nat :=
  [0x03, 0x30, 0x31, 0x32, 0x33, 0x34, 0x35, 0x36, 0x37, 0x39, 0x40, 0x42, 0x44, 0x45, 0x51, 0x68, 0x69, 0x6A, 0x6B, 0x6C, 0x6E, 0x70, 0x71, 0x74, 0x76, 0x77]

/-- An active copy meets a fault (R131). -/
def State.copyFail (s : State) (team cmd cause addr : Nat) : State :=
  if !copyCauses.contains cause then s
  else match (tfind s.teams team).bind fun t => t.active.find? fun a => a.id == cmd with
    | some a => s.endCopy team a (some (BitVec.ofNat 7 cause, BitVec.ofNat 64 addr))
    | none => s

/-- COPY_TAKE (R129): the engine takes a queued command in ring order. -/
def execCopyTake (team cmd : Nat) (s : State) : Result := .next (s.copyTake team cmd).endOver

/-- COPY_SECTOR_LAND (R129): a sector of an active command lands. -/
def execCopySectorLand (team cmd sector : Nat) (s : State) : Result := .next (s.copyLand team cmd sector).endOver

/-- COPY_FAULT (R131): an active command meets a fault. -/
def execCopyFault (team cmd cause addr : Nat) (s : State) : Result := .next (s.copyFail team cmd cause addr).endOver

end Sys2Proof.Machine
end

