-- ==== Sys2Proof/Machine/Release.lean ====
section
/-! DEFINITION. RELEASE_COMPLETE (R265): a release completes, and what waited for it begins: a COPY's command, QPUT's read, the
re-keying of a window, a window's close, a forest instruction, an invalidation. -/

namespace Sys2Proof.Machine

/-- QPUT's release has completed: its sectors are translated and read, or its tile is read at its port (R307). -/
def State.startQput (s : State) (wid : Nat) (w : Wave) (r : Req) : State :=
  let found := r.pieces.map fun (p : Piece) =>
    match p.loc with
    | .va a => match s.locateVa w.ctx (wCore wid) a .read with
      | .ok (.va _) => ({ p with st := .untranslated } : Piece)
      | .ok l => { p with st := .ready, loc := l }
      | .error c => { p with st := .failed c }
    | _ => { p with st := .ready }
  let r1 : Req := { r with pieces := found }
  let ops := (List.range r1.pieces.length).filterMap fun k =>
    match r1.pieces[k]? with
    | some p => match p.loc with
      | .sp l u x => some (⟨s.nextId + k, wid, r.seq, p.lane, l, u, x, false, .piece r.id k, r.split, r.pc, r.word, [], false⟩ : PortOp)
      | _ => none
    | none => none
  let s1 : State := { s with portq := s.portq ++ ops, nextId := s.nextId + r1.pieces.length }
  let s2 := s1.modWave wid fun w => w.setReq r1
  if s2.piecesNoPlane w.ctx r1.pieces then s2.lateTrap wid r1 0x74 else s2.parkFaults wid r1

/-- What a completed release sets going (R265). -/
def State.runCont (s : State) (wid : Nat) (w : Wave) (c : Cont) : State :=
  match c with
  | .nothing => s
  | .copy id => s.copyReleased w.team id
  | .req id => match w.req id with | some r => s.startQput wid w r | none => s
  | .wopen k | .wclose k => s.rekeyOn k
  | .forest op => { s with forestq := s.forestq.map fun f => if f.id = op then { f with ready := true } else f }
  | .tlbinv vpn count cnt =>
    if count = 0 then s.modWave wid fun w => w.fall cnt else s.startInval w.ctx vpn count false (some wid) cnt

/-- A release that carried a remote store or atomic that was dropped: a trap after it has completed, or at EXIT a report to the
fault domain of the grid's region (R185, R320). -/
def State.releaseTrap (s : State) (wid : Nat) (w : Wave) (r : Rel) (cause : BitVec 7) : State :=
  let t : TrapInfo := ⟨cause, 0, r.split, r.pc, 0, 0, r.lanes, r.word, true⟩
  if w.stat = .exited then s.lostTrap wid w t else s.raiseTrap wid t

/-- RELEASE_COMPLETE (R265): every write, atomic and home store before it, and every earlier release, is done. -/
def execReleaseComplete (wid rel : Nat) (s : State) : Result :=
  .next (match tfind s.waves wid with
  | none => s
  | some w =>
    match w.rels.find? fun r => r.id == rel with
    | none => s
    | some r =>
      if s.uncovered wid r.seq r.scope || (r.cont != .nothing && s.acqBlocked wid r.seq) then s
      else
        let w1 : Wave := { w with rels := w.rels.filter fun x => x.id != rel, lost := none }
        let s1 := ((s.setWave wid (w1.fall r.cnt)).settle wid).runCont wid w r.cont
        match r.drop, w.lost with
        | some c, _ | none, some c => s1.releaseTrap wid w r c
        | none, none => s1)

end Sys2Proof.Machine
end

