-- ==== Sys2Proof/Machine/Preempt.lean ====
section
/-! DEFINITION. Pre-emption: halting and discarding waves (R96, R97), saving and restoring teams (R55, R57), LAZY units. -/

namespace Sys2Proof.Machine

/-- The lowest-numbered live split of a wave. -/
def Wave.firstSplit (w : Wave) : Nat := w.liveSplits.headD 0

/-- Add the release at system scope that pre-emption performs (R96, R97): no instruction issued it, so a trap of it names the lowest live
split, with word 0 (log 133). -/
def State.haltRelease (s : State) (wid : Nat) (w : Wave) : State :=
  s.addRel wid .sys w.seq [] .nothing w.firstSplit ((w.split w.firstSplit).pc - 12) 0 (w.split w.firstSplit).mask

/-- Halt a wave (R96): it issues nothing, and its fixed-latency results are written. The later steps follow once what it has issued is
complete. -/
def State.haltWave (s : State) (wid : Nat) : State :=
  s.modWave wid fun w => { w.flush with stat := .halted, halting := true }

/-- Free every slot that a region has tagged, at every home (R97, R114). -/
def State.freeTagged (s : State) (wid seq : Nat) : State :=
  { s with homes := s.homes.map fun (h : Nat × Home) => (h.1, { h.2 with slots := h.2.slots.map fun (e : Nat × Slot) =>
      (e.1, if e.2.rtag = some (wid, seq) then e.2.freed else e.2) }) }

/-- Whether a v or s register is a live-in of a region (R218). -/
def liveV (lives : Word) (r : Nat) : Bool := meetsLive lives (.v (BitVec.ofNat 8 r)) 1
/-- The same for an s register. -/
def liveS (lives : Word) (r : Nat) : Bool := meetsLive lives (.s (BitVec.ofNat 8 r)) 1

/-- The wave as a discard leaves it: one split at the region entry with the recorded mask, the recorded and live-in values, every
counter at 0; the split is number 0 (R97, log 156). Held traps that name the address after their instruction are still to be taken (R316). -/
def Wave.discarded (w : Wave) (r : RegionRec) : Wave :=
  let x : Wave := { w with stat := .discarded, halting := true, v := w.v.filter (fun e => liveV r.lives (e.1 / 32)), s := w.s.filter fun e => liveS r.lives e.1,
                           p := r.p, f := r.f, q := r.q, k := [], chain := r.chain,
                           splits := tset Split.off [] 0 ⟨true, r.entry, r.mask, none, 0, false, false, none, false⟩,
                           stack := [], spilled := 0, handler := none, heldTraps := w.heldTraps.filter (·.2.after), park := none, pend := [], reqs := [], acqs := [],
                           sb := (w.sb.map fun e => { e with bytes := e.bytes.filter fun b => b.rtag.isNone }).filter fun e => !e.bytes.isEmpty }
  x.setX 16 r.fpstat

/-- Discard a wave inside a region (R97): its tagged stores and slots go, its other stores are released, its references outside
the live-ins are given up. Its generation tag advances when its release has completed. -/
def State.discardWave (s : State) (wid : Nat) (w : Wave) (r : RegionRec) : State :=
  let seq := (w.xreg 10).toNat
  let v := w.flush
  let s0 := s.freeTagged wid seq
  let gone := v.v.filter fun e => !liveV r.lives (e.1 / 32)
  let s1 := gone.foldl (fun s e => s.dropRef wid w.seq (e.1 % 32) 0 none e.2) s0
  let s2 : State := { s1 with portq := s1.portq.filter (fun p => p.wid != wid), mxq := s1.mxq.filter (fun m => m.wid != wid),
                              homeops := s1.homeops.filter (fun o => o.wid != wid),
                              homeq := s1.homeq.filter fun h => !(h.wid == wid && h.rtag.isSome && h.stores) }
  let s3 := s2.dropReads fun r => r.wid == wid && match r.what with | .piece .. | .fetch .. => true | _ => false
  (s3.setWave wid (v.discarded r)).haltRelease wid (v.discarded r)

/-- Pre-empt a wave: a discard inside a region, otherwise, and in its handler, a halt; a trap that is due is entered first (R83, R221,
R316). -/
def State.preemptWave (s : State) (wid : Nat) : State :=
  let s := s.takeHeld wid
  match tfind s.waves wid with
  | none => s
  | some w =>
    if w.stat ≠ .ready ∧ w.stat ≠ .parked then s
    else match w.region with
      | some r => if w.handler.isSome then s.haltWave wid else s.discardWave wid w r
      | none => s.haltWave wid

/-- Begin to pre-empt a team: its waves stop, its copies stop at chunk boundaries (R96, R97, R130). -/
def State.stopTeam (s : State) (tid : Nat) (goal : Option Nat) : State :=
  let s1 := (s.teamWaves tid).foldl State.preemptWave s
  s1.modTeam tid fun t => { t with stopped := true, goal := goal, active := t.active.map fun a => { a with stop := true } }

/-- Whether an outstanding request is recorded as a replay packet (R96). -/
def Req.replays (r : Req) : Bool :=
  match r.instr with
  | .ld .. | .lds .. | .sld .. | .ldx .. | .frame .. => true
  | _ => false

/-- Whether a piece of a request cannot be performed until its fault is mended: it waits for a replay, or meets its fault again (R83,
R148). -/
def State.pieceStuck (s : State) (wid : Nat) (w : Wave) (r : Req) (p : Piece) : Bool :=
  let stop := fun (pa key : Nat) => (atomOf r.instr).isSome && (s.stopAt (some (0, wid, r.id)) w.ctx pa key true).isSome
  match p.st, p.loc with
  | .failed _, _ => true
  | .untranslated, .va _ => w.parkedLane r.id p.lane || match s.walk w.ctx p.va (accOf r.instr) with
    | .error _ => true
    | .ok (_, t) => stop (t.pa p.va) t.key
  | .ready, .mem pa key => stop pa key
  | _, _ => false

/-- Whether a request stays outstanding while its wave is saved. -/
def State.reqStays (s : State) (wid : Nat) (w : Wave) (r : Req) : Bool := r.replays || r.pieces.any (s.pieceStuck wid w r)

/-- The place in issue order behind which a wave's work waits for a barrier, for a read or for a replay (R96, R266): its first unfinished
barrier operation or acquire, or access of a replay packet that a release covers. -/
def State.stuckSeq (s : State) (wid : Nat) (w : Wave) : Option Nat :=
  let ports := (s.portq.filter fun p => p.wid == wid && match p.what with | .tx _ => true | _ => false).map (·.seq)
  let reqs := (w.reqs.filter fun r => isCovered r.instr && s.reqStays wid w r).map (·.seq)
  match ports ++ w.acqs.map (·.seq) ++ reqs with
  | [] => none
  | x :: xs => some (xs.foldl min x)

/-- Whether a place in issue order lies behind such a wait. -/
def behind (stuck : Option Nat) (seq : Nat) : Bool := match stuck with | some k => decide (k ≤ seq) | none => false

/-- Whether a message of a wave is part of a replay packet, of an LDX or of a MAT (R96). -/
def State.itemReplays (s : State) (h : HomeItem) : Bool :=
  match h.kind with
  | .fill .. | .load .. => true
  | .read .. => s.homeops.any fun o => some o.id == h.op && match o.instr with | .mat .. => true | _ => false
  | _ => false

/-- Whether what a pre-empted wave has issued is complete, but for what replay packets hold, barrier waits, and what waits behind one; its
stores that peers have not acknowledged are awaited too (R96, log 154). -/
def State.waveSettled (s : State) (wid : Nat) (w : Wave) : Bool :=
  let k := s.stuckSeq wid w
  w.reqs.all (fun r => s.reqStays wid w r || behind k r.seq)
    && s.homeops.all (fun o => o.wid != wid || match o.instr with | .mat .. => true | _ => false) && !s.owed wid
    && s.homeq.all (fun h => h.wid != wid || s.itemReplays h || (h.queued && behind k h.seq && !s.queuedClear h))
    && s.portq.all (fun p => p.wid != wid || behind k p.seq || match p.what with | .piece _ _ => !p.write | _ => true)
    && s.forestq.all (fun f => f.wid != wid || (!f.ready && behind k f.seq))
    && s.link.remotes.all fun r => r.wid != wid || match r.what with
      | .piece _ q _ => (w.req q).all fun x => x.replays
      | .fetch .. | .dropped => true
      | .home i _ => s.homeq.any fun h => h.id == i && s.itemReplays h
      | _ => false

/-- Whether a wave's buffered stores and releases are done, but for what waits behind a barrier. -/
def State.storesDone (s : State) (wid : Nat) (w : Wave) : Bool :=
  let k := s.stuckSeq wid w
  w.sb.all (fun e => (s.coveredBytes wid w e).1.isEmpty && e.bytes.all fun b => behind k b.seq) && w.rels.all fun r => behind k r.seq

/-- Whether a pre-empted wave can be saved (R96, R97). -/
def State.waveDrained (s : State) (wid : Nat) (w : Wave) : Bool := w.frozen && s.waveSettled wid w && s.storesDone wid w

/-- A request as it is saved: what is not performed is translated again when it is replayed, a remote read is sent again (R96). -/
def Req.toSave (r : Req) : Req :=
  r.parked.mapPieces (fun p => match p.st, p.loc with | .remote, .mem _ _ | .served, .mem _ _ => true | _, _ => false) fun p =>
    { p with st := .untranslated, loc := .va p.va, data := [] }

/-- A wave with its outstanding reads as replay packets (R96). -/
def Wave.toSave (w : Wave) : Wave := { w with reqs := w.reqs.map Req.toSave, code := [], halting := false }

/-- Steps 4 to 6 of a halt (R96), once what the wave has issued is complete: its outstanding reads become replay packets, its generation tag
advances, its buffered stores are released. The tag of a discarded wave advances behind its release (R97, log 154). -/
def State.freezeWave (s : State) (wid : Nat) : State :=
  match tfind s.waves wid with
  | none => s
  | some w =>
    if !w.halting || !s.waveSettled wid w then s
    else if w.stat = .halted then
      let s1 := s.dropReads fun r => r.wid == wid && match r.what with | .piece .. | .fetch .. => true | _ => false
      ((s1.setWave wid w.toSave).nextGen wid).haltRelease wid w
    else if s.storesDone wid w then (s.setWave wid { w with halting := false }).nextGen wid
    else s

/-- Whether the engine has no command of a team left that can go on: the first waits behind a barrier (R96). -/
def State.mxDrained (s : State) (tid : Nat) : Bool :=
  match s.mxq.find? fun m => m.team == tid with
  | none => true
  | some m => match tfind s.waves m.wid with
    | some w => behind (s.stuckSeq m.wid w) m.seq
    | none => false

/-- Whether a stopped team can be saved. -/
def State.teamDrained (s : State) (tid : Nat) (t : Team) : Bool :=
  t.resident && t.stopped && t.active.isEmpty && s.mxDrained tid
    && (s.teamWaves tid).all (fun wid => match tfind s.waves wid with
      | some w => if w.stat = .exited then s.waveQuiet wid else s.waveDrained wid w
      | none => true)
    && s.portq.all fun p => (match tfind s.waves p.wid with | some w => w.team == tid | none => false) || !(p.lvl == 0 && p.unit == t.core
        && decide (t.base ≤ p.off) && match s.gridOf tid with | some g => decide (p.off < t.base + g.score) | none => false)

/-- The index of a wave in its team. -/
def Team.indexOf (t : Team) (wid : Nat) : Nat := t.slots.idxOf (wSlot wid)

/-- A port operation as it is saved, with its offset in the team's own allocation. -/
def savedOp (g : Grid) (t : Team) (p : PortOp) : SavedOp :=
  let base := allocBase g t p.lvl
  let own := p.unit == spUnit p.lvl t.core && decide (base ≤ p.off ∧ p.off < base + g.spSize p.lvl)
  ⟨t.indexOf p.wid, own, { p with off := if own then p.off - base else p.off, asleep := false }⟩

/-- A port operation of a restored team. -/
def SavedOp.restore (x : SavedOp) (g : Grid) (t : Team) (wid : Nat) : PortOp :=
  if x.own then { x.op with wid := wid, unit := spUnit x.op.lvl t.core, off := allocBase g t x.op.lvl + x.op.off }
  else { x.op with wid := wid }

/-- What a saved team keeps under way. -/
def State.keptOf (s : State) (tid : Nat) (g : Grid) (t : Team) : Kept :=
  let mine := fun (wid : Nat) => match tfind s.waves wid with | some w => w.team == tid | none => false
  { ports := (s.portq.filter fun p => mine p.wid).map (savedOp g t),
    homes := (s.homeq.filter fun h => mine h.wid).map (fun h => (t.indexOf h.wid, h)),
    ops := (s.homeops.filter fun o => mine o.wid).map (fun o => (t.indexOf o.wid, o)), forest := (s.forestq.filter fun f => mine f.wid).map fun f => (t.indexOf f.wid, f),
    mx := (s.mxq.filter fun m => m.team == tid).map (fun m => (t.indexOf m.wid, m)), leaves := t.kept.leaves }

/-- The key under which a saved team's wave has tagged slots, while it has no wave slot (R55, R114). -/
def savedKey (tid idx : Nat) : Nat := 192 * 96 + 96 * tid + idx

/-- Slots that a wave's region has tagged follow the wave to another key. -/
def State.retagSlots (s : State) (a b : Nat) : State :=
  { s with homes := s.homes.map fun (h : Nat × Home) => (h.1, { h.2 with slots := h.2.slots.map fun (e : Nat × Slot) =>
      (e.1, match e.2.rtag with | some (x, n) => if x = a then { e.2 with rtag := some (b, n) } else e.2 | none => e.2) }) }

/-- The image of a level that a team returns to: the one that stands on its unit, or a new one (R55). -/
def State.pinImage (s : State) (gid lvl unit : Nat) : Nat × State :=
  match tfind s.grids gid with
  | none => (0, s)
  | some g =>
    if (tfind (g.allocs lvl) unit).isNone then (0, s)
    else match g.images.find? fun e => e.2.lvl == lvl && e.2.now == some unit with
      | some e => (e.1, s)
      | none =>
        let s1 := s.setGrid gid { g with images := tput g.images s.nextId ⟨lvl, some unit, 0, [], []⟩ }
        (s.nextId, { s1 with nextId := s.nextId + 1 })

/-- Take a leaf record out of its place until its team stands again; the whole cluster's records leave with the root (R138). -/
def State.parkLeaves (s : State) (tid cluster : Nat) : State :=
  match tfind s.teams tid, s.gridOf tid with
  | some t, some g =>
    let ls := s.leaves cluster
    if (tfind g.clu cluster).isSome then
      s.setLeaves cluster (ls.map fun l => if l.team = tid then { l with core := 192 } else l)
    else
      let mine := fun (l : LeafRec) => match l.gone with
        | some k => k == t.grid
        | none => match tfind s.teams l.team with | some u => u.grid == t.grid | none => false
      let gone := ls.filter mine
      let s1 := s.setLeaves cluster (ls.filter fun l => !mine l)
      { s1 with teams := s1.teams.map fun (e : Nat × Team) =>
          (e.1, { e.2 with kept := { e.2.kept with leaves := e.2.kept.leaves ++ gone.filter fun l => if l.gone.isSome then e.1 == tid else l.team == e.1 } }) }
  | _, _ => s

/-- How a team leaves its place: for the save area, or LAZY where its region says so; or for another core of its cluster (R55, R57, R98). -/
inductive Leave where
  | save | move
  deriving DecidableEq, Repr

/-- The units of a team that stay where they are (R55, R57). -/
def State.teamLazies (s : State) (tid : Nat) (t : Team) (g : Grid) (engine : Bool) : List LazyUnit :=
  let kinds : List LazyKind := ((List.range (g.score / 65536)).map fun k => LazyKind.block 0 t.core (t.base + 65536 * k))
    ++ t.slots.map (fun k => LazyKind.slot t.core k) ++ (if engine then [LazyKind.engine t.core] else []) ++ [LazyKind.record t.core t.tiles.length]
  (List.range kinds.length).map fun i => ⟨s.nextId + i, some tid, t.grid, g.ctx, kinds.getD i (.record t.core 0), .lazy, none⟩

/-- Take a drained team out of its queues and slots: what its waves hold and have under way goes into the team (R96, R97). -/
def State.packTeam (s : State) (tid : Nat) (t : Team) (g : Grid) : State :=
  let wids := s.teamWaves tid
  let mine := fun (wid : Nat) => wids.contains wid
  let saved := wids.foldl (fun (m : Tab Wave) wid => match tfind s.waves wid with
    | some w => if w.stat = .exited then m else tput m (t.indexOf wid) w.toSave
    | none => m) []
  let rewid := fun (p : Pending) => { p with wid := if mine p.wid then t.indexOf p.wid else 96 }
  let t1 : Team := { t with resident := false, saved := saved, kept := s.keptOf tid g t, issued := t.issued.map rewid, tmq := t.tmq.map rewid }
  let s1 : State := { s with portq := s.portq.filter (fun p => !mine p.wid), forestq := s.forestq.filter (fun f => !mine f.wid),
                             homeq := s.homeq.filter (fun h => !mine h.wid), homeops := s.homeops.filter (fun o => !mine o.wid),
                             mxq := s.mxq.filter fun m => m.team != tid }
  let s2 := wids.foldl (fun (s : State) wid => s.retagSlots wid (savedKey tid (t.indexOf wid))) ((s1.setTeam tid t1).dropReads fun r => mine r.wid)
  wids.foldl State.removeWave s2

/-- Save a drained team (R55, R57): its waves leave their slots; its scratchpad, slots, engine state and record go to the save area, or in
a region with the lazy-save bit stay as they are, LAZY. A team that migrates takes them with it. -/
def State.saveTeam (s : State) (tid : Nat) (how : Leave) : State :=
  match tfind s.teams tid, s.gridOf tid with
  | some t, some g =>
    let engine := (s.core t.core).mx.owner == some tid
    let isLazy := how == .save && g.eff.lazySave
    let pin := fun (lvl : Nat) (s : State) => if how == .move then (0, s) else s.pinImage t.grid lvl (unitOf lvl t.core)
    let (ic, s1) := pin 1 s
    let (id, s2) := pin 2 s1
    let s3 := s2.packTeam tid t g
    let lazies := if isLazy then s3.teamLazies tid t g engine else []
    let bytes := g.score + 36864 * ((tfind s3.teams tid).elim 0 fun x => x.saved.length) + (if engine then mxSaveBytes else 0) + 8192
    let area := if isLazy || how == .move then [] else s3.carve g.ctx bytes
    let s4 := s3.modTeam tid fun x =>
      { x with imgs := (ic, id), image := if isLazy then [] else s.spImage 0 t.core t.base g.score,
               mximage := if engine && !isLazy then some (s.core t.core).mx else none, area := area }
    let s5 := if engine && !isLazy then s4.modCore t.core fun c => { c with mx := Mx.init } else s4
    let s6 := s5.addLazies lazies
    let s7 := if how = .move then s6
      else ((if isLazy then s6 else s6.saveUnits g.ctx t.grid area).leaveUnit t.grid 1 (cluOf t.core)).leaveUnit t.grid 2 (dieOf t.core)
    s7.parkLeaves tid (cluOf t.core)
  | _, _ => s

/-- Resume a team that was stopped and stands in its place. -/
def State.resumeTeam (s : State) (tid : Nat) : State :=
  let s1 := (s.teamWaves tid).foldl (fun s wid => s.modWave wid fun w =>
    if w.stat = .halted ∨ w.stat = .discarded then { w with stat := if w.park.isSome then .parked else .ready } else w) s
  s1.modTeam tid fun t => { t with stopped := false, goal := none, active := t.active.map fun a => { a with stop := false } }

/-- A buffered store of a restored wave, translated again; one that cannot be is dropped and reported (R155). -/
def State.restoreEntry (s : State) (wid : Nat) (w : Wave) (e : SEntry) : State × Option SEntry :=
  match s.walk w.ctx e.va .store with
  | .ok (_, t) => (s, some { e with sector := t.pa e.va / 32, key := t.key })
  | .error c => (s.dropStore wid c (byteLanes e.bytes) e.pc e.va, none)

/-- The parts of a word of an LDX, translated again (R96). -/
def State.partsAgain (s : State) (ctx : Nat) (va : DWord) (parts : List (Nat × Nat × Nat)) : Except (BitVec 7) (List (Nat × Nat × Nat)) :=
  let next := fun (acc : Nat × List (Nat × Nat × Nat)) (p : Nat × Nat × Nat) =>
    let a := va + BitVec.ofNat 64 acc.1
    match s.walk ctx a .read with
    | .ok (_, t) => Except.ok (acc.1 + p.1, acc.2 ++ [(p.1, t.pa a, t.key)])
    | .error c => .error c
  (parts.foldlM next (0, [])).map (·.2)

/-- A message of a restored wave stands before its home again (R96, R155): its addresses are translated afresh, a frame that it brings has
its LIMIT computed afresh. A store that cannot be translated is dropped and reported; the slot of an LDX that cannot is poisoned (log
127). -/
def State.restoreItem (s : State) (wid : Nat) (h : HomeItem) : State :=
  let put := fun (k : HKind) => ({ s with homeq := s.homeq ++ [{ h with wid := wid, kind := k, t := s.t7 }] } : State)
  match h.kind with
  | .store a w d raw true _ _ =>
    match s.walk h.ctx a.base .store with
    | .ok (_, t) => put (.store a w d raw true (t.pa a.base) t.key)
    | .error c => s.dropStore wid c (laneBit h.lane) h.pc a.base
  | .fill parts va dst =>
    match s.partsAgain h.ctx va parts with
    | .ok ps => put (.fill ps va dst)
    | .error c => s.finishItem { h with wid := wid } (.bad false none c)
  | .load a dst =>
    let t := a.frame.elim s (s.refreshWalked h.ctx)
    { t with homeq := t.homeq ++ [{ h with wid := wid, kind := .load { a with frame := a.frame.map (s.refreshFrame h.ctx) } dst, t := s.t7 }] }
  | k => put k

/-- A wave in its slot again: its core, base and tenant position, frames with LIMIT computed afresh (R83, R98, R155). A parked one keeps the
tag that its record bears (R319, log 128). Its splits have no last instruction and wait for nothing (log 155). -/
def State.restoreWave (s : State) (wid : Nat) (w : Wave) (base pos : Nat) : State :=
  let ws := (((w.setX 7 (BitVec.ofNat 32 (wCore wid))).setX 8 (BitVec.ofNat 32 base)).setX 11 (BitVec.ofNat 32 pos))
  let w1 : Wave := { ws with stat := if w.park.isSome then .parked else .ready,
                             f := w.f.map (fun e => (e.1, s.refreshFrame w.ctx e.2)),
                             region := w.region.map (fun r => { r with f := r.f.map fun e => (e.1, s.refreshFrame w.ctx e.2) }),
                             splits := w.splits.map fun (e : Nat × Split) => (e.1, { e.2 with prev := none, notBefore := 0 }),
                             raised := 0, raisedAt := 0, sb := [] }
  let s0 := ((w.f ++ w.region.elim [] (·.f)).map (·.2)).foldl (fun (s : State) f => s.refreshWalked w.ctx f) s
  let s1 := s0.setWave wid w1
  w.sb.foldl (fun (s : State) e =>
    let (s, x) := s.restoreEntry wid w e
    match x with
    | some y => s.modWave wid fun v => { v with sb := v.sb ++ [y] }
    | none => s) s1

/-- The LAZY blocks of the image that a team returns to on a level. -/
def State.imageBlocks (s : State) (gid lvl img : Nat) : List LazyUnit :=
  match tfind s.grids gid with
  | none => []
  | some g => match tfind g.images img with
    | some i => match i.now with
      | some k => s.lazies.filter fun u => u.blockOf none gid lvl k i.base (g.spSize lvl)
      | none => []
    | none => []

/-- Bytes return to a run of a unit of a level: a block that is still LAZY there is as it was, any other is filled from the image (R57). -/
def State.refill (s : State) (lvl unit base n : Nat) (img : Tab Byte) (stays : List LazyUnit) : State :=
  (List.range (n / 65536)).foldl (fun (s : State) k =>
    let off := base + 65536 * k
    if stays.any fun u => u.kind == .block lvl unit off then s
    else s.spLoad lvl unit off 65536 ((img.filter fun e => e.1 / 65536 == k).map fun e => (e.1 % 65536, e.2))) s

/-- Give a grid its allocation on a unit for a team: the one that stands there, the image that the team returns to, in its place where its
blocks are LAZY, or a zeroed one; LAZY blocks that it leaves elsewhere move with it (R57, R72, R79, log 126). A team that finds its grid's allocation standing zeroes nothing (log 137). -/
def State.enterUnit (s : State) (gid lvl unit img : Nat) : State :=
  match tfind s.grids gid with
  | none => s
  | some g =>
    let n := g.spSize lvl
    if n = 0 ∨ (tfind (g.allocs lvl) unit).isSome then s
    else
      let blocks := s.imageBlocks gid lvl img
      let image := tfind g.images img
      let here := image.any fun i => i.now == some unit
      let stays := if here then blocks else []
      let moved := (blocks.filter fun _ => !here).flatMap fun u => match u.kind with
        | .block l k off => (s.spImage l k off 65536).map fun b => (off - image.elim 0 (·.base) + b.1, b.2)
        | _ => []
      let s0 : State := { s with lazies := s.lazies.filter fun u => !blocks.any fun x => x.id == u.id }
      let s1 := (if here then [] else blocks).foldl (fun (s : State) u => match u.kind with | .block l k off => s.spZero l k off 65536 | _ => s) s0
      match if here then image.map (·.base) else freeRun (spTotal lvl) n (s1.unitRuns lvl unit) with
      | none => s
      | some b =>
        let bytes := image.elim [] (·.bytes) ++ moved
        let images := g.images.map fun (e : Nat × SpImage) => (e.1, if e.1 = img then { e.2 with now := some unit, bytes := [], area := [] } else e.2)
        (s1.setGrid gid { (g.setAllocs lvl (tput (g.allocs lvl) unit b)) with images := images }).refill lvl unit b n bytes stays

/-- The wave slots of a core that are free: no wave, no team, no LAZY unit holds them, and no request of an earlier wave is under way
(R96). -/
def State.freeWaveSlots (s : State) (core : Nat) : List Nat :=
  (List.range 96).filter fun k => (tfind s.waves (widOf core k)).isNone
    && s.teams.all (fun t => !(t.2.resident && t.2.core == core && t.2.slots.contains k))
    && s.lazies.all (fun u => u.kind != .slot core k) && s.link.remotes.all fun r => r.wid != widOf core k

/-- The wave slots that a team of `n` waves takes on a core: which of the free ones is left open, so a free value orders them
(R79, log 115). -/
def State.placeSlots (s : State) (core n : Nat) : List Nat :=
  ((s.freeWaveSlots core).mergeSort fun a b =>
    decide (Config.pick (s.fresh + 96 * core + a) ≤ Config.pick (s.fresh + 96 * core + b))).take n

/-- Restore a saved team at a place (R57, R83, R98): its bytes stand there already. A team with no wave left takes no tenant position
(R82). -/
def State.restoreTeam (s : State) (tid core base : Nat) (slots : List Nat) (pos : Nat) : State :=
  match tfind s.teams tid, s.gridOf tid with
  | some t, some g =>
    let s0 := if t.saved.isEmpty then s else s.takePos core g.ctx pos
    let s1 := (s0.enterUnit t.grid 1 (cluOf core) t.imgs.1).enterUnit t.grid 2 (dieOf core) t.imgs.2
    let widAt := fun (i : Nat) => widOf core (slots.getD i 0)
    let back := fun (p : Pending) => { p with wid := if p.wid < slots.length then widAt p.wid else 192 * 96 }
    let t1 : Team := { t with core := core, base := base, slots := slots, resident := true, stopped := false, goal := none, saved := [],
                              image := [], mximage := none, kept := Kept.init, imgs := (0, 0), area := [],
                              issued := t.issued.map back, tmq := t.tmq.map back }
    let s2 := s1.setTeam tid t1
    let s3 := t.saved.foldl (fun (s : State) (e : Nat × Wave) => (s.retagSlots (savedKey tid e.1) (widAt e.1)).restoreWave (widAt e.1) e.2 base pos) s2
    let s4 := match t.mximage with | some m => s3.modCore core fun c => { c with mx := m } | none => s3
    let g1 := (tfind s4.grids t.grid).getD g
    let leaves := (s4.leaves (cluOf core)).map (fun l => if l.team = tid then { l with core := core } else l)
      ++ t.kept.leaves.map fun l => { l with core := core }
    let s5 := s4.setLeaves (cluOf core) leaves
    let s6 : State := { s5 with homeops := s5.homeops ++ t.kept.ops.map fun x => { x.2 with wid := widAt x.1 } }
    let s7 := t.kept.homes.foldl (fun (s : State) x => s.restoreItem (widAt x.1) x.2) s6
    { s7 with portq := s7.portq ++ t.kept.ports.map (fun x => x.restore g1 t1 (widAt x.idx)),
              forestq := s7.forestq ++ t.kept.forest.map (fun x => { x.2 with wid := widAt x.1 }),
              mxq := s7.mxq ++ t.kept.mx.map fun x => { x.2 with wid := widAt x.1, core := core, part := wPart (widAt x.1) } }
  | _, _ => s

/-- What a LAZY unit of a team holds joins the team's saved state, and the unit reads as zeros (R57). -/
def State.liftUnit (s : State) (u : LazyUnit) : State :=
  let join := fun (f : Team → Team) => match u.team with | some t => s.modTeam t f | none => s
  match u.kind with
  | .block lvl unit off =>
    (join fun t => { t with image := t.image ++ (s.spImage lvl unit off 65536).map fun b => (off - t.base + b.1, b.2) }).spZero lvl unit off 65536
  | .engine core => (join fun t => { t with mximage := some (s.core core).mx }).modCore core fun c => { c with mx := Mx.init }
  | .slot .. | .record .. => s

/-- Whether a unit stands where a team comes back to: it is then OWNED as it is (R57). -/
def LazyUnit.stands (u : LazyUnit) (core base n : Nat) : Bool :=
  match u.kind with
  | .block lvl unit off => lvl == 0 && unit == core && decide (base ≤ off ∧ off < base + n)
  | .slot c _ | .engine c | .record c _ => c == core

/-- Restore a saved team at a place: its LAZY units that stand there are OWNED again as they are; what its others hold moves with it, and
the rest comes from its image (R57, log 126). -/
def State.restoreSaved (s : State) (tid core base : Nat) (slots : List Nat) (pos : Nat) : State :=
  match s.gridOf tid with
  | some g =>
    let mine := s.lazies.filter fun u => u.team == some tid
    let here := fun (u : LazyUnit) => u.stands core base g.score && (tfind s.teams tid).any fun t => t.base == base
    let s0 := (mine.filter fun u => !here u).foldl State.liftUnit s
    match tfind s0.teams tid with
    | none => s
    | some t =>
      let s1 : State := { s0 with lazies := s0.lazies.filter fun u => u.team != some tid }
      (s1.refill 0 core base g.score t.image (mine.filter fun u => here u && u.isBlock)).restoreTeam tid core base slots pos
  | none => s

/-- A block of a grid's shared scratchpad leaves its unit: its bytes join the image, with the place where they are saved; the image stands on
its unit no longer once its last block has gone (R57). -/
def State.imageBlock (s : State) (u : LazyUnit) (lvl unit off : Nat) (area : List (Nat × Nat)) : State :=
  let last := fun (g : Grid) (i : SpImage) => !s.lazies.any fun x => x.id != u.id && x.blockOf none u.grid lvl unit i.base (g.spSize lvl)
  s.modGrid u.grid fun g => { g with images := g.images.map fun (e : Nat × SpImage) =>
    (e.1, if e.2.lvl = lvl ∧ e.2.now = some unit ∧ e.2.base ≤ off ∧ off < e.2.base + g.spSize lvl then
        { e.2 with bytes := e.2.bytes ++ (s.spImage lvl unit off 65536).map (fun b => (off - e.2.base + b.1, b.2)), area := e.2.area ++ area,
                   now := if last g e.2 then none else e.2.now }
      else e.2) }

/-- Whether the state that a SAVING unit holds still belongs to somebody: its team, with a wave for a slot, or an image of its grid. -/
def State.unitLives (s : State) (u : LazyUnit) : Bool :=
  match u.kind, u.team with
  | .slot .., _ => s.slotLives u
  | _, some t => (tfind s.teams t).isSome
  | .block lvl unit off, none => (tfind s.grids u.grid).any fun g => g.images.any fun e =>
      e.2.lvl == lvl && e.2.now == some unit && decide (e.2.base ≤ off ∧ off < e.2.base + g.spSize lvl)
  | _, none => false

/-- A SAVING unit is written to its owner's save area and zeroed; then the context that claimed it has it. A write that fails
twice loses the unit; one whose owner has gone has nothing to write (R56, R57). -/
def State.saveUnit (s : State) (u : LazyUnit) (ok : Bool) : State :=
  let lives := s.unitLives u
  let area := if lives then s.carve u.ctx u.bytes else []
  let s0 := match u.team with | some t => s.modTeam t fun x => { x with area := x.area ++ area } | none => s
  let s1 := match u.kind, u.team with
    | .block lvl unit off, none => (s0.imageBlock u lvl unit off area).spZero lvl unit off 65536
    | _, _ => s0.liftUnit u
  let hand : List LazyUnit := match u.claim with | some c => [{ u with team := none, ctx := c, st := .owned, claim := none }] | none => []
  let s2 : State := { s1 with lazies := s1.lazies.flatMap fun x => if x.id = u.id then hand else [x] }
  if !lives then s2 else if !ok then s2.loseUnit u.ctx u.grid else s2.saveUnits u.ctx u.grid area

/-- LAZY_SAVE_COMPLETE (R57): a SAVING unit is written. -/
def execLazySaveComplete (block : Nat) (s : State) : Result :=
  .next (match s.lazies.find? fun u => u.id == block with
  | none => s
  | some u => if u.st = .saving then s.saveUnit u true else s)

/-- SAVE_AREA_RETRY (R56): a write of a unit to the save area, or its read back, has failed and is tried once more; a second
failure loses the unit. The block is a SAVING unit or a team that is saved. -/
def execSaveAreaRetry (block : Nat) (ok : Bool) (s : State) : Result :=
  .next (match s.lazies.find? fun u => u.id == block with
  | some u => if u.st = .saving then s.saveUnit u ok else s
  | none =>
    match tfind s.teams block with
    | some t => if t.resident || ok then s else s.loseUnit (s.teamCtx block) t.grid
    | none => s)

end Sys2Proof.Machine
end

