-- ==== Sys2Proof/Machine/Launch.lean ====
section
/-! DEFINITION. The task-graph engine: triggers (R61), the graph store and its uploads (R62, R63), patch lists (R64), launch
packets (R65), completion records (R67 to R69), kernel images (R70, R71), region chains (R73 to R75), admission (R76, R77), and
the completion of grids (R78). -/

namespace Sys2Proof.Machine

/-- A completion record without its emit sequence (R67). -/
structure CRec where
  trig   : Nat
  graph  : Nat
  status : Nat
  tag    : Nat
  node   : Nat
  rkind  : Nat
  deriving DecidableEq, Repr

/-- The 32 bytes of a completion record. -/
def CRec.bytes (r : CRec) (e ns : Nat) : List Byte :=
  leBytes 4 e ++ leBytes 4 (r.trig % 2 ^ 28) ++ leBytes 2 r.graph ++ leBytes 2 r.status ++ leBytes 4 r.tag ++ leBytes 8 ns
    ++ leBytes 2 r.node ++ leBytes 1 r.rkind ++ leBytes 5 0

/-- A record that could not be written goes to Amber: unit class 6, its bytes 0 to 15 as detail (R69). R69 gives no unit number: 0 stands
there (log 114). -/
def State.amberRecord (s : State) (cause : Nat) (bs : List Byte) : State := s.amberEvent cause 6 0 (field bs 0 16)

/-- Write a record into the completion log (R67, R69). -/
def State.writeLog (s : State) (n e : Nat) (bs : List Byte) : State :=
  let c := s.ctx n
  let at_ := c.cplbase + BitVec.ofNat 64 (32 * (e % 2 ^ c.cplsize.toNat))
  let s := s.virtAccount n at_ 32 true
  match s.virtWrite n at_ bs with
  | .ok s => s
  | .error _ => s.amberRecord 0x84 bs

/-- Whether a context's completions go to its completion log: it is RESIDENT and no SUSPEND is under way (R40, R68). -/
def Ctx.present (c : Ctx) : Bool := c.st == .resident && !c.draining

/-- Emit a completion record (R67, R68): into the completion log with an interrupt, or into the interrupt log. -/
def State.emitRecord (s : State) (n : Nat) (r : CRec) : State :=
  let c := s.ctx n
  let e := c.seqemit + 1
  let bs := r.bytes e.toNat s.ns
  let s1 :=
    if c.present then (s.writeLog n e.toNat bs).emit (.msix (n + 1) 0)
    else if c.ilcount.toNat < c.ilsize.toNat then
      let at_ := c.ilbase + BitVec.ofNat 64 (32 * c.ilcount.toNat)
      let s := s.virtAccount n at_ 32 true
      match s.virtWrite n at_ bs with
      | .ok s => s.modCtx n fun c => { c with ilcount := c.ilcount + 1 }
      | .error _ => s.amberRecord 0x85 bs
    else s
  s1.modCtx n fun c => { c with seqemit := e }

/-- PRED j of a packet (R65). -/
def pkPred (p : List Byte) (j : Nat) : Nat := field p (28 + 2 * j) 2
/-- The predecessors that a packet names. -/
def pkPreds (p : List Byte) : List Nat := ((List.range 4).map (pkPred p)).filter fun x => x != 0xFFFF
/-- KERNEL. -/
def pkKernel (p : List Byte) : DWord := BitVec.ofNat 64 (field p 0 8)
/-- RCB. -/
def pkRcb (p : List Byte) : DWord := BitVec.ofNat 64 (field p 8 8)

/-- Whether a packet passes R65. -/
def packetOk (p : List Byte) : Bool :=
  let (x, y, z) := pkGrid p
  x != 0 && y != 0 && z != 0 && decide (1 ≤ pkWaves p ∧ pkWaves p ≤ 32 ∧ pkNparam p ≤ 48)

/-- Write bytes into a packet. -/
def patchBytes (p : List Byte) (at_ : Nat) (bs : List Byte) : List Byte := p.take at_ ++ bs ++ p.drop (at_ + bs.length)

/-- Launches of a context in flight (R61). -/
def State.inFlight (s : State) (n : Nat) : Nat := (s.launches.filter fun l => l.2.ctx == n).length

/-- Whether a graph has launches in flight: BUSY (R62). -/
def State.graphBusy (s : State) (g : Nat) : Bool := s.launches.any fun l => l.2.graph == g

/-- TRIG_WRITE (R61): an accepted trigger sets SEQACC and starts one launch; any other is refused and reported with 0x78; a write
of another width is ignored. -/
def execTrigWrite (ctx width : Nat) (value : BitVec 64) (s : State) : Result :=
  let g := (value.extractLsb' 52 12).toNat
  let seq := value.extractLsb' 24 28
  let patch := (value.extractLsb' 0 24).toNat
  let c := s.ctx ctx
  .next (if width ≠ 64 then s
  else match tfind s.graphs g with
    | some x =>
      if c.st = .resident ∧ x.ctx = ctx ∧ seq = c.seqacc + 1 ∧ s.inFlight ctx < 64 then
        let l : Launch := ⟨ctx, g, seq.toNat, patch, [], x.packets.map fun _ => .waiting, false, false⟩
        let s1 : State := { s with launches := tput s.launches s.nextId l, nextId := s.nextId + 1 }
        s1.modCtx ctx fun c => { c with seqacc := seq }
      else refuse g seq
    | none => refuse g seq)
where
  /-- A trigger that is not accepted. -/
  refuse (g : Nat) (seq : BitVec 28) : State :=
    s.report ctx (s.plainRec 0x78 0 (BitVec.ofNat 64 (seq.toNat + g * 2 ^ 32))) 0

/-- Whether a GLOAD write has a reserved bit set (R63). -/
def gloadReserved (v : BitVec 64) : Bool :=
  if v.getLsbD 63 then v.extractLsb' 12 51 != 0 else v.getLsbD 5 || v.extractLsb' 0 4 != 0

/-- Whether a GLOAD write is heard: 64 bits wide, and no command in progress (R63). -/
def State.gloadHeard (s : State) (ctx width : Nat) : Bool := width == 64 && (s.ctx ctx).gcmd.isNone

/-- GLOAD_ADDRESS_WRITE (R63): a command is armed with its address and OP. -/
def execGloadAddressWrite (ctx width : Nat) (value : BitVec 64) (s : State) : Result :=
  .next (if s.gloadHeard ctx width && !value.getLsbD 63 && !gloadReserved value then
    s.modCtx ctx fun c => { c with armed := some (value.getLsbD 4, value.extractLsb' 6 57 |>.setWidth 64 |>.shiftLeft 6) }
  else s)

/-- GLOAD_LOAD (R63): an id write starts the armed load; GSTAT reads 1. -/
def execGloadLoad (ctx width : Nat) (value : BitVec 64) (s : State) : Result :=
  .next (if s.gloadHeard ctx width && value.getLsbD 63 && !gloadReserved value then
    match (s.ctx ctx).armed with
    | some (true, a) => s.modCtx ctx fun c => { c with armed := none, gstat := 1, gcmd := some ⟨true, a, (value.extractLsb' 0 12).toNat⟩ }
    | _ => s
  else s)

/-- The result of an unload: 2 for an id of another context, 6 for a BUSY graph, else 0 (R63). -/
def State.unloadCode (s : State) (ctx id : Nat) : Nat :=
  match tfind s.graphs id with
  | none => 0
  | some g => if g.ctx ≠ ctx then 2 else if s.graphBusy id then 6 else 0

/-- GLOAD_UNLOAD (R63): an id write starts the armed unload; GSTAT reads 1. -/
def execGloadUnload (ctx width : Nat) (value : BitVec 64) (s : State) : Result :=
  .next (if s.gloadHeard ctx width && value.getLsbD 63 && !gloadReserved value then
    match (s.ctx ctx).armed with
    | some (false, a) => s.modCtx ctx fun c => { c with armed := none, gstat := 1, gcmd := some ⟨false, a, (value.extractLsb' 0 12).toNat⟩ }
    | _ => s
  else s)

/-- GLOAD_SEQUENCE_ERROR (R63): a reserved bit, or an id write with nothing armed: nothing starts, the command is disarmed, GSTAT
is 7. -/
def execGloadSequenceError (ctx width : Nat) (value : BitVec 64) (s : State) : Result :=
  .next (if s.gloadHeard ctx width && (gloadReserved value || (value.getLsbD 63 && (s.ctx ctx).armed.isNone)) then
    s.modCtx ctx fun c => { c with armed := none, gstat := 7 }
  else s)

/-- Blocks of the task-graph store in use, but for those of one id (R62, R63). -/
def State.blocksUsed (s : State) (but_ : Nat) : Nat := ((s.graphs.filter fun g => g.1 != but_).map fun g => 1 + g.2.packets.length).sum

/-- Read and check a graph image: the packets, or the code of GSTAT (R62, R63). -/
def State.readGraph (s : State) (ctx id : Nat) (addr : DWord) : Except Nat (List (List Byte)) :=
  match tfind s.graphs id with
  | some g => if g.ctx ≠ ctx then .error 2 else if s.graphBusy id then .error 6 else image
  | none => image
where
  /-- The image at the address. -/
  image : Except Nat (List (List Byte)) :=
    match s.virtRead ctx addr 64 with
    | .error _ => .error 5
    | .ok h =>
      let n := field h 0 2
      if n < 1 ∨ n > 1024 then .error 4
      else if s.blocksUsed id + 1 + n > 16384 then .error 3
      else match (List.range n).mapM fun i => s.virtRead ctx (addr + BitVec.ofNat 64 (64 + 256 * i)) 256 with
        | .error _ => .error 5
        | .ok ps =>
          if (List.range n).all fun i => packetOk (ps.getD i []) && (pkPreds (ps.getD i [])).all fun j => decide (j < i) then .ok ps
          else .error 4

/-- The bytes that a load reads, each run with its length: the header, and the packets that it announces (R62, R63). -/
def State.imageReads (s : State) (ctx id : Nat) (addr : DWord) : List (DWord × Nat) :=
  if (tfind s.graphs id).any fun g => g.ctx != ctx || s.graphBusy id then []
  else (addr, 64) :: match s.virtRead ctx addr 64 with
    | .ok h =>
      let n := field h 0 2
      if n < 1 ∨ n > 1024 ∨ s.blocksUsed id + 1 + n > 16384 then [] else [(addr + 64, 256 * n)]
    | .error _ => []

/-- A GLOAD command ends: an unload frees the id; for a load the image is read and checked whole, then copied, and a failing copy
leaves the id FREE (R62, R63). -/
def State.endLoad (s : State) (ctx : Nat) (copyFails : Bool) : State :=
  match (s.ctx ctx).gcmd with
  | none => s
  | some c =>
    let done := fun (s : State) (code : Nat) => s.modCtx ctx fun x => { x with gcmd := none, gstat := BitVec.ofNat 32 code }
    if !c.load then
      let code := s.unloadCode ctx c.id
      done (if code = 0 then { s with graphs := terase s.graphs c.id } else s) code
    else
      let rs := s.imageReads ctx c.id c.addr
      if !s.readsServable ctx rs then s
      else
        let t := s.readsAccount ctx rs
        match s.readGraph ctx c.id c.addr with
        | .error e => done t e
        | .ok ps =>
          if copyFails then done { t with graphs := terase t.graphs c.id } 5
          else done { t with graphs := tput t.graphs c.id ⟨ctx, ps⟩ } 0

/-- The read of an image fails its check: a load whose id does not refuse it ends with GSTAT 5, before anything is copied (R63). -/
def State.failLoad (s : State) (ctx : Nat) : State :=
  match (s.ctx ctx).gcmd with
  | none => s
  | some c =>
    if !c.load then s
    else
      let code := match s.readGraph ctx c.id c.addr with | .error 2 => 2 | .error 6 => 6 | _ => 5
      s.modCtx ctx fun x => { x with gcmd := none, gstat := BitVec.ofNat 32 code }

/-- GLOAD_LOAD_COMPLETE (R63): the command in progress ends. -/
def execGloadLoadComplete (ctx : Nat) (copyFails : Bool) (s : State) : Result := .next (s.endLoad ctx copyFails)

/-- A patch entry (R64): node, offset, value bytes, LAST. -/
abbrev Patch := Nat × Nat × List Byte × Bool

/-- Read and check one patch entry against the graph's packets (R64). -/
def State.readPatch (s : State) (ctx : Nat) (ps : List (List Byte)) (i : Nat) : Option Patch :=
  match s.virtRead ctx ((s.ctx ctx).patchbase + BitVec.ofNat 64 (64 * i)) 64 with
  | .error _ => none
  | .ok b =>
    let node := field b 0 2
    let off := field b 2 2
    let w := 4 * 2 ^ field b 4 1
    if node < ps.length ∧ field b 4 1 ≤ 3 ∧ off % w = 0 ∧ off + w ≤ 4 * pkNparam (ps.getD node []) then
      some (node, off, (b.drop 8).take w, field b 5 1 % 2 == 1)
    else none

/-- The patch entries from an index through the first with LAST set; none when the list is invalid (R64). -/
def State.readPatches (s : State) (ctx : Nat) (ps : List (List Byte)) : Nat → Nat → Option (List Patch)
  | 0, _ => none
  | n + 1, i =>
    match s.readPatch ctx ps i with
    | none => none
    | some p => if p.2.2.2 then some [p] else (s.readPatches ctx ps n (i + 1)).map (p :: ·)

/-- The patch entries that are read, through the first with LAST set or the first that is invalid. -/
def State.patchReads (s : State) (ctx : Nat) (ps : List (List Byte)) : Nat → Nat → List (DWord × Nat)
  | 0, _ => []
  | n + 1, i => ((s.ctx ctx).patchbase + BitVec.ofNat 64 (64 * i), 64) :: match s.readPatch ctx ps i with
    | some p => if p.2.2.2 then [] else s.patchReads ctx ps n (i + 1)
    | none => []

/-- The packets after patches in ascending order. -/
def applyPatches (ps : List (List Byte)) (es : List Patch) : List (List Byte) :=
  es.foldl (fun ps e => ps.set e.1 (patchBytes (ps.getD e.1 []) (64 + e.2.1) e.2.2.1)) ps

/-- The grid id one above a context's previous one, skipping 0 (R72). -/
def nextGrid (x : Word) : Word := if x + 1 = 0 then 1 else x + 1

/-- The buckets of a context that holds no grid are full (R328). -/
def State.fullBuckets (s : State) (n : Nat) : State :=
  if s.grids.any fun g => g.2.ctx == n && g.2.stat != .complete then s
  else { s with mc := { s.mc with spent := s.mc.spent.filter fun e => e.1 / 72 != n } }

/-- Form a grid from a packet, QUEUED for stage 5 (R17, R72). The buckets of a context that held none start full. -/
def State.formGrid (s0 : State) (n : Nat) (packet : List Byte) (from_ : Origin) : State :=
  let s := s0.fullBuckets n
  let x5 := nextGrid (s.ctx n).lastGrid
  let (x, y, z) := pkGrid packet
  let g : Grid := ⟨n, x5, packet, from_, .queued, false, none, [], s.nextId, 0, x * y * z, [], [], false, []⟩
  let s1 := s.setGrid s.nextId g
  ({ s1 with nextId := s.nextId + 1 } : State).modCtx n fun c => { c with lastGrid := x5 }

/-- Whether a node's state is final. -/
def NodeSt.ended : NodeSt → Bool
  | .done | .faulted | .skipped => true
  | _ => false

/-- What becomes of a waiting node: skipped behind a fault, ready once every predecessor is done (R65). -/
def nodeNext (ns : List NodeSt) (p : List Byte) : NodeSt :=
  let ss := (pkPreds p).map fun j => ns.getD j .skipped
  if ss.any fun x => x == .faulted || x == .skipped then .skipped else .waiting

/-- Whether a waiting node can be launched. -/
def nodeReady (ns : List NodeSt) (p : List Byte) : Bool := (pkPreds p).all fun j => ns.getD j .skipped == .done

/-- A node's packet as stage 4 forms it: NODE and PARENT are written by the device (R65). -/
def nodePacket (p : List Byte) (i : Nat) : List Byte := patchBytes (patchBytes p 26 (leBytes 2 i)) 40 (leBytes 8 0)

/-- Skip, or launch, each waiting node in ascending order (R65). -/
def State.startNodes (s : State) (lid : Nat) : State :=
  match tfind s.launches lid with
  | none => s
  | some l =>
    (List.range l.nodes.length).foldl (fun (s : State) i =>
      match tfind s.launches lid with
      | none => s
      | some l =>
        let p := l.packets.getD i []
        if l.nodes.getD i .skipped ≠ .waiting then s
        else if nodeNext l.nodes p = .skipped then { s with launches := tput s.launches lid { l with nodes := l.nodes.set i .skipped } }
        else if nodeReady l.nodes p then
          let s1 := s.formGrid l.ctx (nodePacket p i) (.node lid i)
          { s1 with launches := tput s1.launches lid { l with nodes := l.nodes.set i (.launched s.nextId) } }
        else s) s

/-- End a launch whose every node has ended: its launch record is emitted (R65, R67). -/
def State.endLaunch (s : State) (lid : Nat) : State :=
  match tfind s.launches lid with
  | none => s
  | some l =>
    if !l.formed || !l.nodes.all NodeSt.ended then s
    else
      let bad := l.nodes.any fun x => x != .done
      let s1 : State := { s with launches := terase s.launches lid }
      s1.emitRecord l.ctx ⟨l.seq, l.graph, if l.bad then 2 else if bad then 1 else 0, pkTag (l.packets.headD []), 0xFFFF, 0⟩

/-- A launch whose patch list is invalid or cannot be read faults with 0x79 and status 2: nothing is applied (R64). -/
def State.refusePatch (s : State) (launch : Nat) (l : Launch) (g : Graph) : State :=
  let s1 := s.report l.ctx (s.plainRec 0x79 ((s.ctx l.ctx).patchbase + BitVec.ofNat 64 (64 * l.patch)) 0) 0
  let l1 : Launch := { l with formed := true, bad := true, packets := g.packets, nodes := l.nodes.map fun _ => .skipped }
  State.endLaunch { s1 with launches := tput s1.launches launch l1 } launch

/-- Whether a launch is the next of its context to be formed: launches of a context are formed in order. -/
def State.mayForm (s : State) (launch : Nat) (l : Launch) : Bool :=
  !l.formed && !(s.launches.any fun e => e.2.ctx == l.ctx && !e.2.formed && decide (e.1 < launch))

/-- PATCH_APPLY (R64): the patch list is read and checked, then applied to the stored parameters; the packets are copied, and the
ready nodes go to stage 5. An invalid list faults the launch with 0x79 and status 2. -/
def execPatchApply (launch : Nat) (s : State) : Result :=
  .next (match tfind s.launches launch with
  | none => s
  | some l =>
    if !s.mayForm launch l then s
    else match tfind s.graphs l.graph with
      | none => s
      | some g =>
        let es := if l.patch = 0xFFFFFF then some [] else s.readPatches l.ctx g.packets 256 l.patch
        let rs := if l.patch = 0xFFFFFF then [] else s.patchReads l.ctx g.packets 256 l.patch
        if !s.readsServable l.ctx rs then s
        else
        let s := s.readsAccount l.ctx rs
        match es with
        | none => s.refusePatch launch l g
        | some es =>
          let ps := applyPatches g.packets es
          let l1 : Launch := { l with formed := true, packets := ps }
          State.startNodes { s with graphs := tput s.graphs l.graph { g with packets := ps },
                                    launches := tput s.launches launch l1 } launch)

/-- The fields of a tile declaration (R120). With ROWS 0 every field but ID is 0, the reserved ones among them: R120 names a cause for a
non-zero field, which R6 excepts (log 134). -/
def declOk (d : BitVec 128) (score sclu sdie : Nat) : Bool :=
  let rows := (d.extractLsb' 96 16).toNat
  let rowBytes := (d.extractLsb' 80 16).toNat
  let pitch := (d.extractLsb' 64 16).toNat
  let level := (d.extractLsb' 118 2).toNat
  let base := (d.extractLsb' 32 32).toNat
  geomOk rows rowBytes pitch level base && (rows != 0 || d.extractLsb' 0 120 == 0)
    && (rows == 0 || decide (geomEnd rows rowBytes pitch base ≤ (if level = 0 then score else if level = 1 then sclu else sdie)))

/-- ID of a declaration. -/
def declId (d : BitVec 128) : Nat := (d.extractLsb' 120 8).toNat

/-- The table entry that a declaration gives its id (R120, R121). -/
def declEntry (d : BitVec 128) : BitVec 128 :=
  mkEntry (d.extractLsb' 96 16).toNat (d.extractLsb' 80 16).toNat (d.extractLsb' 64 16).toNat (d.extractLsb' 118 2).toNat
    (d.extractLsb' 32 32).toNat false

/-- Read a kernel image's header and declarations (R70, R71, R120); none where the launch faults with 0x7E. R71 names only the header among
what must be readable: declarations that cannot be read fault the launch in the same way (log 130). -/
def State.readKernel (s : State) (n : Nat) (packet : List Byte) : Option KHead :=
  let k := pkKernel packet
  match s.virtRead n k 128 with
  | .error _ => none
  | .ok h =>
    let f := fun i len => field h i len
    let score := f 24 4
    let sclu := f 28 4
    let sdie := f 32 4
    let ok := k.toNat % 128 == 0 && f 0 4 == 0x4B524C43 && f 4 2 == 1 && f 8 4 % 4 == 0 && f 12 4 % 12 == 0 && f 16 4 % 12 == 0
      && decide (f 16 4 < f 12 4) && (f 20 1 == 0 || f 20 1 == pkWaves packet) && decide (f 21 1 ≤ 192 ∧ f 22 2 ≤ 256)
      && score % 65536 == 0 && decide (score ≤ coreBytes) && sclu % 65536 == 0 && decide (sclu ≤ cluBytes) && sdie % 65536 == 0
      && decide (sdie ≤ dieBytes) && f 36 4 % 16 == 0 && decide (f 40 2 ≤ 256)
    if !ok then none
    else match s.virtRead n (k + BitVec.ofNat 64 (f 36 4)) (16 * f 40 2) with
      | .error _ => none
      | .ok b =>
        let ds := (List.range (f 40 2)).map fun i => BitVec.ofNat 128 (field b (16 * i) 16)
        if ds.all (fun d => declOk d score sclu sdie) && (ds.map declId).eraseDups.length == ds.length then
          let code := k + BitVec.ofNat 64 (f 8 4)
          some ⟨code, code + BitVec.ofNat 64 (f 16 4), score, sclu, sdie, ds⟩
        else none

/-- What the reading of a kernel image touches: its header, and the declarations that it names. -/
def State.kernelReads (s : State) (n : Nat) (packet : List Byte) : List (DWord × Nat) :=
  let k := pkKernel packet
  (k, 128) :: match s.virtRead n k 128 with
    | .ok h => if field h 0 4 = 0x4B524C43 ∧ field h 40 2 ≤ 256 then [(k + BitVec.ofNat 64 (field h 36 4), 16 * field h 40 2)] else []
    | .error _ => []

/-- The default values of a root (R74). -/
def rootEff : Eff := ⟨0, 0, 1, 0, 0, 24, 18432, 150994944, 201326592, 268435456, 54525952, 10000, 0, false, false, 0, 0, 0, none⟩

/-- The effective values of a block under its parent's (R73, R74); `root` says that it has none. -/
def effOf (addr : DWord) (b : BitVec 2048) (root : Bool) (par : Eff) : Eff :=
  let own := fun (j : Nat) => b.getLsbD (64 + j)
  let v := fun (i n : Nat) => (b.extractLsb' i n).toNat
  let plain := fun (j i n p : Nat) => if own j then v i n else p
  let budget := fun (j i n p : Nat) => if own j then (if root then v i n else min (v i n) p) else p
  { addr := addr,
    prio := plain 0 96 4 par.prio, weight := plain 1 100 4 par.weight,
    fdom := BitVec.ofNat 32 (plain 2 128 32 par.fdom.toNat), traph := BitVec.ofNat 64 (plain 3 192 64 par.traph.toNat),
    bclu := budget 4 256 32 par.bclu, bwave := budget 5 288 32 par.bwave, bscore := budget 6 320 32 par.bscore,
    bsclu := budget 7 352 32 par.bsclu, bsdie := budget 8 384 32 par.bsdie, bproxy := budget 9 416 32 par.bproxy,
    btoken := budget 10 448 32 par.btoken, undolim := plain 11 480 32 par.undolim,
    demote := if own 12 then b.getLsbD 104 else par.demote, lazySave := if own 13 then b.getLsbD 105 else par.lazySave,
    fcores := plain 14 512 16 par.fcores, fslot := plain 14 528 8 par.fslot, fmem := plain 14 536 8 par.fmem,
    floorOf := if own 14 then some addr else par.floorOf }

/-- Whether effective values lie in their ranges (R73, R75). -/
def Eff.inRange (e : Eff) : Bool :=
  decide (1 ≤ e.weight ∧ 1 ≤ e.bclu ∧ e.bclu ≤ 24 ∧ 1 ≤ e.bwave ∧ e.bwave ≤ 18432 ∧ e.fcores ≤ 192 ∧ e.fslot ≤ 16)

/-- Read a block and its ancestors, at most `fuel` of them: the effective values, the block's first; or the address of the block
that makes the launch fault (R75). An effective value of any block of the chain counts, also one that the block below overrides (log
131). -/
def State.readChain (s : State) (n : Nat) : Nat → DWord → Except DWord (List Eff)
  | 0, a => .error a
  | fuel + 1, a =>
    if a = 0 ∨ a.extractLsb' 0 8 ≠ 0 then .error a
    else match s.virtRead n a 256 with
      | .error _ => .error a
      | .ok bs =>
        let b := BitVec.ofNat 2048 (leNat bs)
        let parent := b.extractLsb' 0 64
        let up : Except DWord (List Eff) := if parent = 0 then .ok [] else s.readChain n fuel parent
        match up with
        | .error e => .error e
        | .ok es =>
          let e := effOf a b es.isEmpty (es.headD rootEff)
          if e.inRange then .ok (e :: es) else .error a

/-- The blocks that the reading of a chain touches. -/
def State.chainReads (s : State) (n : Nat) : Nat → DWord → List (DWord × Nat)
  | 0, _ => []
  | fuel + 1, a =>
    if a = 0 ∨ a.extractLsb' 0 8 ≠ 0 then []
    else (a, 256) :: match s.virtRead n a 256 with
      | .ok bs =>
        let parent := (BitVec.ofNat 2048 (leNat bs)).extractLsb' 0 64
        if parent = 0 then [] else s.chainReads n fuel parent
      | .error _ => []

/-- What stage 5 reads for a packet: its kernel's image and its region's chain (R71, R75, R76). -/
def State.packetReads (s : State) (n : Nat) (packet : List Byte) : List (DWord × Nat) :=
  if !packetOk packet then []
  else s.kernelReads n packet ++ if (s.readKernel n packet).isSome then s.chainReads n 16 (pkRcb packet) else []

/-- Teams of a grid that one cluster of idle cores holds (R81). -/
def teamsPerCluster (waves score : Nat) : Nat := 8 * min (96 / waves) (if score = 0 then 96 else coreBytes / score)

/-- Whether the least that a grid needs, one team or all teams of a cooperative grid, exceeds the budgets with nothing else
resident (R76), or the save area (R56). -/
def tooLarge (packet : List Byte) (k : KHead) (e : Eff) (savesz : Nat) : Bool :=
  let (x, y, z) := pkGrid packet
  let t := if pkCoop packet then x * y * z else 1
  let w := pkWaves packet
  let per := teamsPerCluster w k.score
  let clus := (t + per - 1) / per
  let dies := (clus + 11) / 12
  decide (e.bclu < clus ∨ e.bwave < t * w ∨ e.bscore < t * k.score ∨ e.bsclu < clus * k.sclu ∨ e.bsdie < dies * k.sdie
    ∨ savesz < 36864 * (t * w) + t * k.score + clus * k.sclu + dies * k.sdie + 8192 * t)

/-- The charge of a floor contract, in 1/256 W (R77). -/
def Eff.charge (e : Eff) : Nat := 96 * e.fcores * e.fslot + 640 * e.fmem

/-- The key of a floor contract's charge. -/
def floorKey (ctx : Nat) (blk : DWord) : Nat := ctx * 2 ^ 56 + blk.toNat

/-- Stage 5 (R71, R75 to R77): the kernel, the region chain and the charge to take, or the cause, its address and the fault
domain. -/
def State.judgeGrid (s : State) (g : Grid) : Except (BitVec 7 × DWord × Word) (KHead × List Eff × Option (Nat × Nat)) :=
  if !packetOk g.packet then .error (0x79, 0, 0)
  else match s.readKernel g.ctx g.packet with
    | none => .error (0x7E, pkKernel g.packet, 0)
    | some k =>
      match s.readChain g.ctx 16 (pkRcb g.packet) with
      | .error a => .error (0x7E, a, 0)
      | .ok es =>
        let e := es.headD rootEff
        if tooLarge g.packet k e (s.ctx g.ctx).vdsavesz.toNat then .error (0x7C, pkRcb g.packet, e.fdom)
        else match e.floorOf with
          | none => .ok (k, es, none)
          | some b =>
            let key := floorKey g.ctx b
            if (tfind s.floors key).isSome then .ok (k, es, none)
            else if (s.floors.map (·.2)).sum + e.charge > 1600 * 256 then .error (0x7D, pkRcb g.packet, e.fdom)
            else .ok (k, es, some (key, e.charge))

/-- The block whose own contract a grid is under: fixed when it was admitted; of one that is QUEUED, what its chain now says (R75, R77). -/
def State.contractOf (s : State) (g : Grid) : Option DWord :=
  if g.stat = .queued then match s.readChain g.ctx 16 (pkRcb g.packet) with
    | .ok es => (es.headD rootEff).floorOf
    | .error _ => none
  else g.eff.floorOf

/-- Return the charges of a context's floor contracts that no grid short of COMPLETE is under (R77). -/
def State.returnFloors (s : State) (ctx : Nat) : State :=
  let bound := fun (key : Nat) => s.grids.any fun x => x.2.ctx == ctx && x.2.stat != .complete && (s.contractOf x.2).any fun b => floorKey ctx b == key
  { s with floors := s.floors.filter fun e => e.1 / 2 ^ 56 != ctx || bound e.1 }

/-- A grid becomes COMPLETE (R67, R77, R78): its record, its launch's nodes, the launch's end. -/
def State.completeGrid (s : State) (gid : Nat) (g : Grid) (fault : Bool) : State :=
  let s1 := (s.setGrid gid { g with stat := .complete, fault := fault, clu := [], die := [], images := [] }).returnFloors g.ctx
  let status := if fault then 1 else 0
  match g.origin with
  | .qput _ _ => if pkRec g.packet then s1.emitRecord g.ctx ⟨0, 0xFFFF, status, pkTag g.packet, 0xFFFF, 2⟩ else s1
  | .node lid i =>
    match tfind s1.launches lid with
    | none => s1
    | some l =>
      let s2 := if pkRec g.packet then s1.emitRecord g.ctx ⟨l.seq, l.graph, status, pkTag g.packet, i, 1⟩ else s1
      let l1 : Launch := { l with nodes := l.nodes.set i (if fault then .faulted else .done) }
      (State.startNodes { s2 with launches := tput s2.launches lid l1 } lid).endLaunch lid

/-- Judge a QUEUED grid: admitted with its effective values, or refused, reported and COMPLETE with status FAULT (R76, R78). -/
def State.admitGrid (s : State) (gid : Nat) (g : Grid) : State :=
  match s.judgeGrid g with
  | .error (c, a, d) =>
    let r : FRec := { s.plainRec c a 0 with fdom := d, gridid := g.x5 }
    (s.report g.ctx r 0).completeGrid gid g true
  | .ok (k, es, f) =>
    let s1 : State := match f with | some x => { s with floors := tput s.floors x.1 x.2 } | none => s
    let s2 := s1.setGrid gid { g with stat := .admitted, khead := some k, chain := es, order := s1.nextId }
    { s2 with nextId := s2.nextId + 1 }

/-- What stands at stage 5: the oldest QUEUED grid of a context in place, or the head of a device queue (R66, R76). -/
inductive Stage5 where
  | grid (gid : Nat)
  | queue (ctx q : Nat)
  deriving DecidableEq, Repr

/-- The candidates of stage 5; which of them reached it first is not fixed by the manual. -/
def State.stage5 (s : State) : List Stage5 :=
  let gs := (s.grids.filter fun g => g.2.stat == .queued && (s.ctx g.2.ctx).present).mergeSort fun a b => decide (a.2.order ≤ b.2.order)
  let hs := (s.ctxs.filter fun c => c.2.present).flatMap fun (c : Nat × Ctx) =>
    (c.2.queues.filter fun q => !q.2.isEmpty).map fun q => Stage5.queue c.1 q.1
  ((gs.take 1).map fun g => Stage5.grid g.1) ++ hs

/-- ADMISSION (R76): one launch is examined. The head of a device queue leaves its queue as its grid passes, and takes its grid id then (R66,
R72, log 132). -/
def execAdmission (s : State) : Result :=
  let cs := s.stage5
  .next (match cs[Config.pick s.fresh % cs.length]? with
  | none => s
  | some (.grid gid) => match tfind s.grids gid with
    | some g =>
      let rs := s.packetReads g.ctx g.packet
      if !s.readsServable g.ctx rs then s else State.admitGrid { s.readsAccount g.ctx rs with fresh := s.fresh + 1 } gid g
    | none => s
  | some (.queue n q) =>
    match tget [] (s.ctx n).queues q with
    | [] => s
    | (p, parent) :: rest =>
      let rs := s.packetReads n p
      if !s.readsServable n rs then s
      else
      let s0 : State := { s.readsAccount n rs with fresh := s.fresh + 1 }
      let s1 := s0.modCtx n fun c => { c with queues := tset [] c.queues q rest }
      let pid := match tfind s.grids parent with | some g => g.x5.toNat | none => 0
      let s2 := s1.formGrid n (patchBytes p 40 (leBytes 8 pid)) (.qput parent q)
      match tfind s2.grids s1.nextId with
      | some g => s2.admitGrid s1.nextId g
      | none => s2)

/-- Whether a grid still has children: packets in a queue, or grids that are not COMPLETE (R66, R80). -/
def State.hasChildren (s : State) (gid : Nat) (g : Grid) : Bool :=
  ((s.ctx g.ctx).queues.any fun q => q.2.any fun p => p.2 == gid)
    || s.grids.any fun x => x.2.stat != .complete && match x.2.origin with | .qput p _ => p == gid | _ => false

/-- GRID_COMPLETE (R78): a DRAINING grid whose teams have ended, its copies with them, and whose children are COMPLETE. -/
def execGridComplete (grid : Nat) (s : State) : Result :=
  .next (match tfind s.grids grid with
  | none => s
  | some g =>
    if g.stat = .draining ∧ (s.gridTeams grid).isEmpty ∧ !s.hasChildren grid g then s.completeGrid grid g g.fault else s)

end Sys2Proof.Machine
end

