-- ==== Sys2Proof/Machine/Place.lean ====
section
/-! DEFINITION. Placement (R79), budgets in use (R74, R76), cooperative grids and partitions (R78, R81, R187, R188), the start of
waves (R72), and the migration of a team (R98). -/

namespace Sys2Proof.Machine

/-- What a place on a core needs and gives: the core, its scratchpad base, its slots, the tenant position. -/
structure Place where
  core  : Nat
  base  : Nat
  slots : List Nat
  pos   : Nat
  deriving DecidableEq, Repr

/-- What the subtree under a block holds: its clusters, waves, and scratchpad bytes of the three levels (R74). -/
structure Usage where
  clus  : List Nat
  waves : Nat
  score : Nat
  sclu  : Nat
  sdie  : Nat
  deriving DecidableEq, Repr

/-- Resident teams of a grid. -/
def State.standingTeams (s : State) (gid : Nat) : List (Nat × Team) := s.teams.filter fun t => t.2.grid == gid && t.2.resident

/-- The core at which a unit stands, or a core of the cluster whose scratchpad it is a block of (R57, R74). -/
def LazyKind.core? : LazyKind → Option Nat
  | .block 0 core _ | .slot core _ | .engine core | .record core _ => some core
  | .block 1 k _ => some (8 * k)
  | .block _ _ _ => none

/-- Whether a unit belongs to a core, its cluster or its die (R57). -/
def LazyKind.at (k : LazyKind) (core : Nat) : Bool :=
  match k with
  | .block 0 c _ | .slot c _ | .engine c | .record c _ => c == core
  | .block l u _ => unitOf l core == u

/-- Whether two units are of one kind, of one level. -/
def LazyKind.like : LazyKind → LazyKind → Bool
  | .block l _ _, .block m _ _ => l == m
  | .slot .., .slot .. | .engine _, .engine _ | .record .., .record .. => true
  | _, _ => false

/-- What the grids of a context under a block hold, LAZY units among it (R57, R74). -/
def State.usage (s : State) (ctx : Nat) (blk : DWord) : Usage :=
  let gs := s.grids.filter fun g => g.2.ctx == ctx && g.2.chain.any fun e => e.addr == blk
  let ts := gs.flatMap fun (g : Nat × Grid) => (s.standingTeams g.1).map fun t => (g.2, t.2)
  let us := s.lazies.filter fun u => u.st != .owned && gs.any fun g => g.1 == u.grid
  let count := fun (like : LazyKind) => (us.filter fun u => u.kind.like like).length
  ⟨((ts.map fun t => cluOf t.2.core) ++ us.filterMap fun u => u.kind.core?.map cluOf).eraseDups,
    (ts.map fun t => t.1.waves).sum + count (.slot 0 0), (ts.map fun t => t.1.score).sum + 65536 * count (.block 0 0 0),
    (gs.map fun g => g.2.clu.length * g.2.sclu).sum + 65536 * count (.block 1 0 0),
    (gs.map fun g => g.2.die.length * g.2.sdie).sum + 65536 * count (.block 2 0 0)⟩

/-- The images that a team returns to; none for a new one. -/
def backImgs (back : Option Team) : Nat × Nat := match back with | some t => t.imgs | none => (0, 0)

/-- Whether a team brings the state of a matrix engine with it (R289). -/
def backEngine (back : Option Team) : Bool := back.any fun t => t.mximage.isSome

/-- Whether a team of a grid, new or coming back, fits on a core within every budget of its region and ancestors, and the save area; a team
that comes back as a matrix owner with its engine's bytes (R56, R76, R79). -/
def State.budgetsFit (s : State) (g : Grid) (back : Option Team) (core : Nat) : Bool :=
  let waves := match back with | some t => t.saved.length | none => g.waves
  let newC := if g.sclu = 0 ∨ (tfind g.clu (cluOf core)).isSome then 0 else g.sclu
  let newD := if g.sdie = 0 ∨ (tfind g.die (dieOf core)).isSome then 0 else g.sdie
  (g.chain.all fun e =>
    let u := s.usage g.ctx e.addr
    decide ((cluOf core :: u.clus).eraseDups.length ≤ e.bclu ∧ u.waves + g.waves ≤ e.bwave ∧ u.score + g.score ≤ e.bscore
      ∧ u.sclu + newC ≤ e.bsclu ∧ u.sdie + newD ≤ e.bsdie))
    && s.saveFits g.ctx (36864 * waves + g.score + newC + newD + 8192 + if backEngine back then mxSaveBytes else 0)

/-- Tile-table entries of a core in use, by teams that stand there and by the units that are LAZY team records or were
(R57, R120). -/
def State.tilesUsed (s : State) (core : Nat) : Nat :=
  ((s.teams.filter fun t => t.2.resident && t.2.core == core).map fun t => t.2.tiles.length).sum
    + (s.lazies.map fun u => match u.kind with | .record c n => if c = core then n else 0 | _ => 0).sum

/-- NTILE of a grid. -/
def Grid.ntile (g : Grid) : Nat := match g.khead with | some k => k.tiles.length | none => 0

/-- The image of a level that a saved team returns to, and the unit that holds it, if one does. -/
def Grid.imageUnit (g : Grid) (img : Nat) : Option Nat := (tfind g.images img).bind (·.now)

/-- Whether a run of a unit overlaps none of the runs in use. -/
def runFree (base n : Nat) (used : List (Nat × Nat)) : Bool :=
  used.all fun u => n == 0 || u.2 == 0 || decide (base + n ≤ u.1 ∨ u.1 + u.2 ≤ base)

/-- Whether a unit can supply a grid's allocation (R79), for a team that returns to an image: the one that stands, or its place where its
blocks are LAZY (R55, R57). -/
def State.unitFits (s : State) (g : Grid) (lvl unit img : Nat) : Bool :=
  let n := g.spSize lvl
  let room := (freeRun (spTotal lvl) n (s.unitRuns lvl unit)).isSome
  if n = 0 then true
  else if img ≠ 0 then
    match tfind g.images img with
    | some i => match i.now with
      | some u => u == unit && ((tfind (g.allocs lvl) unit).isSome || runFree i.base n (s.unitRuns lvl unit))
      | none => (tfind (g.allocs lvl) unit).isNone && room
    | none => (tfind (g.allocs lvl) unit).isNone && room
  else (tfind (g.allocs lvl) unit).isSome || room

/-- The units that a team which comes back finds again: its own, and the blocks of its images (R57). -/
def State.ownLazies (s : State) (tid : Nat) (t : Team) : List LazyUnit :=
  (s.lazies.filter fun u => u.team == some tid) ++ s.imageBlocks t.grid 1 t.imgs.1 ++ s.imageBlocks t.grid 2 t.imgs.2

/-- The units that have been handed to a context (R57). -/
def State.handed (s : State) (ctx : Nat) : List LazyUnit := s.lazies.filter fun u => u.st == .owned && u.ctx == ctx

/-- A context's team takes its place on a core: the units there that have been handed to the context are its own, or free (R57). -/
def State.takeHanded (s : State) (ctx core : Nat) : State :=
  { s with lazies := s.lazies.filter fun u => !(u.st == .owned && u.ctx == ctx && u.kind.at core) }

/-- The state with some units set aside, as they are to be judged when they give way; the engine of one that is SAVING is without an
owner (R57). -/
def State.without (s : State) (us : List LazyUnit) : State :=
  let gone := fun (u : LazyUnit) => us.any fun x => x.id == u.id
  let freed := fun (core : Nat) => us.any fun u => u.kind == .engine core && u.st == .saving
  { s with lazies := s.lazies.filter fun u => !gone u,
           cores := s.cores.map fun (e : Nat × Core) => (e.1, if freed e.1 then { e.2 with mx := Mx.init } else e.2) }

/-- Whether a core, its cluster and its die take a team, but for its run of scratchpad and its slots (R56, R79, R120, R289). -/
def State.coreTakes (s : State) (g : Grid) (back : Option Team) (core : Nat) : Bool :=
  !(s.core core).retired && decide (s.tilesUsed core + g.ntile ≤ 256) && s.unitFits g 1 (cluOf core) (backImgs back).1
    && s.unitFits g 2 (dieOf core) (backImgs back).2 && s.budgetsFit g back core && (!backEngine back || ((s.core core).mx.owner.isNone && s.engineOpen g.ctx core))

/-- The tenant position that a team would have on a core; a team whose waves have all exited needs none (R82). -/
def State.posFor (s : State) (g : Grid) (back : Option Team) (core : Nat) : Option Nat :=
  if back.any fun t => t.saved.isEmpty then some 0 else s.tenantPos core g.ctx

/-- A place for a team of a grid on a core (R79, R82, R116, R120). -/
def State.fitCore (s : State) (g : Grid) (back : Option Team) (core : Nat) : Option Place :=
  match freeRun coreBytes g.score (s.coreRuns core), s.posFor g back core with
  | some b, some p =>
    if decide (g.waves ≤ (s.freeWaveSlots core).length) && s.coreTakes g back core then some ⟨core, b, s.placeSlots core g.waves, p⟩ else none
  | _, _ => none

/-- The cores of the partition of a context, in ascending order; none when no partition holds it (R79, R187). -/
def State.partCores (s : State) (ctx : Nat) : List Nat :=
  match s.partOf ctx with
  | none => []
  | some q => ((List.range 24).filter fun k => (partClus (s.part q)).getLsbD k).flatMap fun k => (List.range 8).map fun c => 8 * k + c

/-- The first place in the partition (R79). -/
def State.findPlace (s : State) (g : Grid) (back : Option Team) : Option Place := (s.partCores g.ctx).findSome? (s.fitCore g back)

/-- A placement selects a cluster that is not ON: a GATED one is woken, and it or a CLOSING one holds the placement; at a WAKING one it
has no effect (R7, R132). -/
def State.wakeFor (s : State) (k : Nat) (h : Held) : State :=
  s.modCluster k fun c =>
    match c.pwr with
    | .gated => { c with pwr := .waking, wakeAt := c.clk + 14000, wanted := c.wanted ++ [h] }
    | .on | .waking => c
    | .closing => { c with wanted := c.wanted ++ [h] }

/-- Whether a team's placement is held at a cluster (R132). -/
def State.heldTeam (s : State) (gid : Nat) (team : Option Nat) : Bool :=
  s.clusters.any fun c => c.2.wanted.any fun h => h.grid == gid && h.team == team

/-- A wave as it starts (R72). -/
def newWave (g : Grid) (tid idx core base widx pos : Nat) : Wave :=
  let (x, y, z) := g.coords idx
  let xs := [x, y, z, widx, g.waves, g.x5.toNat, g.ctx, core, base, 0, 0, pos]
  { team := tid, ctx := g.ctx, stat := .ready,
    v := (List.range 32).foldl (fun t i => tset Lane.zero t (vKey 0 i) ⟨false, BitVec.ofNat 32 i⟩) [],
    s := (List.range (pkNparam g.packet)).foldl (fun t i => tset 0 t i (BitVec.ofNat 32 (field g.packet (64 + 4 * i) 4))) [],
    p := [], f := [], k := [], q := [],
    x := (List.range 12).foldl (fun t i => if i = 9 then t else tset 0 t i (BitVec.ofNat 32 (xs.getD i 0))) [],
    splits := [(0, ⟨true, (match g.khead with | some k => k.entry | none => 0), 0xFFFFFFFF, none, 0, false, false, none, false⟩)],
    stack := [], spilled := 0, handler := none, heldTraps := [], halting := false, region := none, chain := none, park := none, seq := 0, pend := [],
    reqs := [], sb := [], rels := [], acqs := [], exiting := false, lost := none, code := [], raised := 0, raisedAt := 0 }

/-- Start the next team of a grid at a place: its scratchpad reads as zero, its tiles stand EMPTY, its waves start (R72, R78). -/
def State.startTeam (s : State) (gid : Nat) (g : Grid) (p : Place) : State :=
  let tid := s.nextId
  let tiles := (match g.khead with | some k => k.tiles | none => []).foldl (fun t d => tput t (declId d) (declEntry d)) []
  let t : Team := ⟨gid, g.next, p.core, p.base, p.slots, tiles, 0, 0, 0, [], [], [], 0, [], true, false, [], none, [], Kept.init, (0, 0), [], none⟩
  let s1 : State := { s with nextId := tid + 1 }
  let s2 := ((s1.takePos p.core g.ctx p.pos).enterUnit gid 1 (cluOf p.core) 0).enterUnit gid 2 (dieOf p.core) 0
  let s3 := ((s2.spZero 0 p.core p.base g.score).setTeam tid t).modGrid gid fun x =>
    { x with next := x.next + 1, stat := if x.stat = .admitted then .running else x.stat }
  (List.range g.waves).foldl (fun s i => s.setWave (widOf p.core (p.slots.getD i 0)) (newWave g tid g.next p.core p.base i p.pos)) s3

/-- Whether a cluster is ON. -/
def State.isOn (s : State) (core : Nat) : Bool := (s.cluster (cluOf core)).pwr == .on

/-- A team that no FREE unit fits claims a LAZY unit of another context: of those of a kind that a core lacks for it, the one that has been
LAZY longest. It goes to SAVING. Nothing is claimed while the units that are SAVING for the context, or have been handed to it, will do
(R57). -/
def State.claimLazy (s : State) (g : Grid) (back : Option Team) : State :=
  let coming := s.lazies.filter fun u => (u.st == .owned && u.ctx == g.ctx) || (u.st == .saving && u.claim == some g.ctx)
  let others := s.lazies.filter fun u => u.st == .lazy && u.ctx != g.ctx
  if others.isEmpty then s
  else
    let fits := fun (gone : List LazyUnit) (core : Nat) => (State.fitCore (s.without (gone.map fun u => { u with st := .saving })) g back core).isSome
    let cores := (s.partCores g.ctx).filter (fits (coming ++ others))
    if cores.isEmpty || cores.any (fits coming) then s
    else
      let lacks := fun (u : LazyUnit) => cores.any fun c => u.kind.at c && !fits (coming ++ others.filter fun x => !x.kind.like u.kind) c
      match others.find? lacks with
      | some u => { s with lazies := s.lazies.map fun x => if x.id = u.id then { x with st := .saving, claim := some g.ctx } else x }
      | none => s

/-- Whether the units of a team that comes back can be read from the save area (R56). -/
def State.backReadable (s : State) (g : Grid) (t : Team) : Bool :=
  let area := fun (img : Nat) => match tfind g.images img with | some i => i.area | none => []
  s.saveReadable g.ctx (t.area ++ area t.imgs.1 ++ area t.imgs.2)

/-- The runs of the save area that a team which comes back has to read: its own, and its images' where its grid stands on neither unit (R55,
R57). -/
def State.backRuns (g : Grid) (t : Team) : List (Nat × Nat) :=
  let area := fun (img : Nat) => match tfind g.images img with | some i => if i.now.isNone then i.area else [] | none => []
  t.area ++ area t.imgs.1 ++ area t.imgs.2

/-- A saved team stands again at a place; one whose units cannot be read back is lost, and its grid drains (R56). -/
def State.bringBack (s : State) (gid : Nat) (g : Grid) (t : Nat × Team) (p : Place) : Bool × State :=
  let r := (s.takeHanded g.ctx p.core).readArea g.ctx (State.backRuns g t.2)
  if s.backReadable g t.2 then (true, r.restoreSaved t.1 p.core p.base p.slots p.pos)
  else (false, (r.loseUnit g.ctx gid).drainGrid gid)

/-- Place one team: a new one, or the saved team `back`. The answer says whether it stands. -/
def State.placeOne (s : State) (gid : Nat) (g : Grid) (back : Option (Nat × Team)) : Bool × State :=
  let team := back.map (·.2)
  if s.heldTeam gid (back.map (·.1)) then (false, s)
  else match (s.without (s.handed g.ctx ++ match back with | some t => s.ownLazies t.1 t.2 | none => [])).findPlace g team with
    | none => (false, s.claimLazy g team)
    | some p =>
      if !s.isOn p.core then (false, s.wakeFor (cluOf p.core) ⟨gid, back.map (·.1), p.core⟩)
      else match back with
        | some t => s.bringBack gid g t p
        | none => (true, (s.takeHanded g.ctx p.core).startTeam gid g p)

/-- The saved teams of a grid, in ascending team order (R79). -/
def State.waitingTeams (s : State) (gid : Nat) : List (Nat × Team) :=
  (s.teams.filter fun t => t.2.grid == gid && !t.2.resident).mergeSort fun a b => decide (a.2.idx ≤ b.2.idx)

/-- The place where a team's own LAZY units stand, if it can come back there: its blocks are still its own or free again, its slots or
others of the core are free, and the core takes it (R57). -/
def State.fitHere (s : State) (g : Grid) (t : Nat × Team) : Option Place :=
  let core := t.2.core
  let mine := s.ownLazies t.1 t.2
  let s0 := s.without (s.handed g.ctx ++ mine)
  let kept := fun (k : Nat) => mine.any fun u => u.kind == .slot core k
  let others := (s0.placeSlots core 96).filter fun k => !(kept k && t.2.slots.contains k)
  let slots := (t.2.slots.foldl (fun (acc : List Nat × List Nat) k =>
    if kept k then (acc.1 ++ [k], acc.2) else (acc.1 ++ acc.2.take 1, acc.2.drop 1)) ([], others)).1
  match s0.posFor g (some t.2) core with
  | some p =>
    if slots.length = t.2.slots.length && (s.partCores g.ctx).contains core && runFree t.2.base g.score (s0.coreRuns core) && s0.coreTakes g (some t.2) core
    then some ⟨core, t.2.base, slots, p⟩ else none
  | none => none

/-- A grid whose images stand nowhere where it has no allocation: as a team is judged that leaves its LAZY blocks (log 126). -/
def Grid.loose (g : Grid) : Grid :=
  { g with images := g.images.map fun e => (e.1, if (e.2.now.bind (tfind (g.allocs e.2.lvl) ·)).isNone then { e.2 with now := none } else e.2) }

/-- A place elsewhere for a team that has LAZY units, among some cores (log 126). -/
def State.elsewhere (s : State) (g : Grid) (t : Nat × Team) (cores : List Nat) : Option Place :=
  let own := s.ownLazies t.1 t.2
  let engine := own.any fun u => match u.kind with | .engine _ => true | _ => false
  let as_ : Team := if engine then { t.2 with mximage := some Mx.init } else t.2
  cores.findSome? ((s.without (s.handed g.ctx ++ own.map fun u => { u with st := .saving })).fitCore g.loose (some as_))

/-- Put a team with LAZY units back where they stand (R57). A unit that is SAVING makes it wait. A team that cannot stand there, but could
elsewhere, is placed there, and the units move with it (R188, log 126). -/
def State.resumeLazy (s : State) (gid : Nat) (g : Grid) (t : Nat × Team) : Option (Bool × State) :=
  let own := s.ownLazies t.1 t.2
  let other := s.elsewhere g t (s.partCores g.ctx)
  let go := fun (p : Place) => if s.isOn p.core then s.bringBack gid g t p else (false, s.wakeFor (cluOf p.core) ⟨gid, some t.1, p.core⟩)
  if own.isEmpty then none
  else if own.any (fun u => u.st == .saving) || s.heldTeam gid (some t.1) then some (false, s)
  else if own.all fun u => u.team.isNone then
    if ((s.without (s.handed g.ctx ++ own)).findPlace g (some t.2)).isSome then none else other.map go
  else match s.fitHere g t, other with
    | some p, _ => if s.isOn p.core then some (s.bringBack gid g t p) else some (false, s)
    | none, some p => some (go p)
    | none, none => some (false, s)

/-- Bring back saved teams of a grid in order, as long as they fit. -/
def State.restoreAll (s : State) (gid : Nat) : List (Nat × Team) → Bool × State
  | [] => (true, s)
  | t :: ts =>
    match tfind s.grids gid with
    | none => (false, s)
    | some g =>
      match s.resumeLazy gid g t with
      | some (true, s1) => s1.restoreAll gid ts
      | some (false, s1) => (false, s1)
      | none =>
        match s.placeOne gid g (some t) with
        | (true, s1) => s1.restoreAll gid ts
        | (false, s1) => (false, s1)

/-- Place the new teams of a grid in ascending order, as long as they fit (R79). -/
def State.placeNew (s : State) (gid : Nat) : Nat → Bool × State
  | 0 => (true, s)
  | n + 1 =>
    match tfind s.grids gid with
    | none => (false, s)
    | some g =>
      match s.placeOne gid g none with
      | (true, s1) => s1.placeNew gid n
      | (false, s1) => (false, s1)

/-- How many teams of a cooperative grid a set of clusters can hold, with the best choice of `extra` clusters added: of clusters of one die
only, where BSDIE supplies SDIE on one (R81). -/
def State.coopRoom (s : State) (g : Grid) (clus : List Nat) (extra : Nat) : Nat :=
  let w := g.waves
  let e := g.eff
  let per := fun (k : Nat) => (((List.range 8).filter fun c => !(s.core (8 * k + c)).retired).map fun _ =>
    min (96 / w) (if g.score = 0 then 96 else coreBytes / g.score)).sum
  let byBudget := min (e.bwave / w) (if g.score = 0 then e.bwave else e.bscore / g.score)
  let most := min e.bclu (if g.sclu = 0 then e.bclu else e.bsclu / g.sclu)
  let counts := fun (ks : List Nat) => (ks.map fun k => min (per k) byBudget).mergeSort fun a b => decide (b ≤ a)
  let room := fun (on : Nat → Bool) =>
    let more := (List.range 24).filter fun k => !clus.contains k && on k
    (((counts (clus.filter on) ++ (counts more).take extra).mergeSort fun a b => decide (b ≤ a)).take most).sum
  if g.sdie = 0 ∨ 2 * g.sdie ≤ e.bsdie then room fun _ => true
  else if g.sdie ≤ e.bsdie then max (room fun k => k / 12 == 0) (room fun k => k / 12 == 1)
  else 0

/-- The clusters of a context's partition, and its ceiling. -/
def State.partOfGrid (s : State) (ctx : Nat) : Option (List Nat × Nat) :=
  (s.partOf ctx).map fun q => ((List.range 24).filter fun k => (partClus (s.part q)).getLsbD k, partCeil (s.part q))

/-- Whether the partition can hold a cooperative grid now, and whether it ever can: at its ceiling, with whichever clusters are added to it
(R81, log 135). -/
def State.coopHolds (s : State) (g : Grid) : Bool × Bool :=
  match s.partOfGrid g.ctx with
  | none => (false, true)
  | some (clus, ceil) => (decide (g.teams ≤ s.coopRoom g clus 0), decide (g.teams ≤ s.coopRoom g clus (ceil - clus.length)))

/-- A cooperative grid that can never be held again drains with 0x7B (R78, R81). -/
def State.refuseCoop (s : State) (gid : Nat) (g : Grid) : State :=
  let r : FRec := { s.plainRec 0x7B (pkRcb g.packet) 0 with fdom := g.eff.fdom, gridid := g.x5 }
  (s.report g.ctx r 0).drainGrid gid

/-- Whether a grid has gone to DRAINING. -/
def State.drains (s : State) (gid : Nat) : Bool := (tfind s.grids gid).any fun g => g.stat == .draining

/-- Place a cooperative grid all at once, or not at all; one that is HELD waits until every team of it has been saved (R78, R79, R81).
Clusters that a part of it woke stay waking, and units that it claimed are SAVING. -/
def State.placeCoop (s : State) (gid : Nat) (g : Grid) : State :=
  if !(s.coopHolds g).2 then s.refuseCoop gid g
  else if !(s.coopHolds g).1 || (s.standingTeams gid).any fun t => t.2.stopped then s
  else
    let (ok1, s1) := s.restoreAll gid (s.waitingTeams gid)
    let (ok2, s2) := if ok1 then s1.placeNew gid (g.teams - g.next) else (false, s1)
    if ok1 && ok2 then s2.modGrid gid fun x => { x with stat := .running }
    else if s2.drains gid then s2
    else
      let t := (List.range 24).foldl (fun (s : State) k =>
        if (s2.cluster k).pwr = (s.cluster k).pwr ∧ (s2.cluster k).wanted = (s.cluster k).wanted then s
        else s.modCluster k fun c => { c with pwr := (s2.cluster k).pwr, wakeAt := (s2.cluster k).wakeAt, wanted := (s2.cluster k).wanted }) s
      { t with lazies := s.lazies.map fun u => match s2.lazies.find? fun x => x.id == u.id with | some x => x | none => u }

/-- Place what waits of one grid (R79). A grid that lost a unit drains when it would resume (R56). -/
def State.placeGrid (s : State) (gid : Nat) : State :=
  match tfind s.grids gid with
  | none => s
  | some g =>
    let wants := decide (g.next < g.teams) || !(s.waitingTeams gid).isEmpty
    if !(s.ctx g.ctx).present || !wants then s
    else if g.stat ≠ .admitted ∧ g.stat ≠ .running ∧ g.stat ≠ .held then s
    else if g.lost then s.drainGrid gid
    else if pkCoop g.packet then s.placeCoop gid g
    else
      let (ok, s1) := s.restoreAll gid (s.waitingTeams gid)
      if ok then (s1.placeNew gid (g.teams - g.next)).2 else s1

/-- A cluster that is ON takes a placement that it has held: a cooperative grid is tried as a whole; of any other the team takes its core,
when it still fits there (R132). -/
def State.takePlacement (s : State) (h : Held) : State :=
  match tfind s.grids h.grid with
  | none => s
  | some g =>
    let back := h.team.bind fun t => (tfind s.teams t).map fun x => (t, x)
    let live := (s.ctx g.ctx).present && !g.lost && (g.stat == .admitted || g.stat == .running) && (s.partCores g.ctx).contains h.core
    if pkCoop g.packet then s.placeGrid h.grid
    else if !live then s
    else match h.team, back with
      | some _, some t =>
        if t.2.resident then s
        else match (if (s.ownLazies t.1 t.2).isEmpty then (s.without (s.handed g.ctx)).fitCore g (some t.2) h.core else s.elsewhere g t [h.core]) with
          | some p => (s.bringBack h.grid g t p).2
          | none => s
      | none, _ =>
        if g.next ≥ g.teams then s
        else match (s.without (s.handed g.ctx)).fitCore g none h.core with
          | some p => (s.takeHanded g.ctx h.core).startTeam h.grid g p
          | none => s
      | _, _ => s

/-- The grids in the order in which placement takes them: PRIO, then admission (R79). -/
def State.placeOrder (s : State) : List Nat :=
  (s.grids.mergeSort fun a b =>
    decide (a.2.eff.prio > b.2.eff.prio) || (a.2.eff.prio == b.2.eff.prio && decide (a.2.order ≤ b.2.order))).map (·.1)

/-- Save the stopped teams that have drained and that neither a SUSPEND nor a migration has stopped (R78, R188). A team that ends, or whose
grid drains, is not saved. -/
def State.saveStopped (s : State) : State :=
  (s.teams.filter fun t => s.teamDrained t.1 t.2 && t.2.goal.isNone && !(s.ctx (s.teamCtx t.1)).draining && !s.teamEnds t.1 t.2
    && !s.drains t.2.grid).foldl
    (fun s t => s.saveTeam t.1 .save) s

/-- End the teams of drained grids that stand nowhere. -/
def State.endLost (s : State) : State := (s.teams.filter fun t => !t.2.resident).foldl (fun s t => s.tryEndTeam t.1) s

/-- Whether a grid has a team that waits for a place. -/
def State.waits (s : State) (e : Nat × Grid) : Bool :=
  (s.ctx e.2.ctx).present && (e.2.stat == .admitted || e.2.stat == .running || e.2.stat == .held)
    && (decide (e.2.next < e.2.teams) || !(s.waitingTeams e.1).isEmpty)

/-- Whether a unit that has been handed over is still wanted: an engine by a team of the context on its core, until the engine has an owner;
any by a team of the context that waits and may stand there. -/
def State.handedWanted (s : State) (u : LazyUnit) : Bool :=
  let waiting := (s.grids.any fun e => e.2.ctx == u.ctx && s.waits e) && (s.partCores u.ctx).any u.kind.at
  match u.kind with
  | .engine core => (s.core core).mx.owner.isNone && (waiting || s.teams.any fun t => t.2.resident && t.2.core == core && s.teamCtx t.1 == u.ctx)
  | _ => waiting

/-- TEAM_PLACEMENT (R79): pre-empted teams that have drained are saved; then the waiting teams are placed. A unit that was handed over and
that its context does not want any more is free (R57, log 126). -/
def execTeamPlacement (s : State) : Result :=
  let s0 := s.saveStopped.endLost
  let s1 : State := { s0 with lazies := s0.lazies.filter fun u => u.st != .owned || s0.handedWanted u }
  let t := s1.placeOrder.foldl State.placeGrid s1
  .next { t with fresh := t.fresh + 96 * 192 }

/-- The island of a core, module-wide. -/
def islandOf (core : Nat) : Nat := core / 2

/-- The place on a core to which a team may migrate (R98, R289). -/
def State.migrationPlace (s : State) (tid : Nat) (t : Team) (g : Grid) (core : Nat) : Option Place :=
  let free := s.freeWaveSlots core
  let engine := (s.core t.core).mx.owner == some tid
  match freeRun coreBytes g.score (s.coreRuns core), s.tenantPos core g.ctx with
  | some b, some p =>
    if cluOf core == cluOf t.core && islandOf core != islandOf t.core && !(s.core core).retired && decide (g.waves ≤ free.length)
        && decide (s.tilesUsed core + g.ntile ≤ 256) && (!engine || ((s.core core).mx.owner.isNone && s.engineOpen g.ctx core)) then
      some ⟨core, b, s.placeSlots core g.waves, p⟩
    else none
  | _, _ => none

/-- Return a core's pools to their homes: the slots are FREE with their generation kept (R114, R115). -/
def State.returnPools (s : State) (core : Nat) : State :=
  let s1 : State := { s with homes := s.homes.map fun (h : Nat × Home) => (h.1, { h.2 with slots := (h.2.slots.map fun (e : Nat × Slot) =>
      (e.1, if e.2.st = .granted ∧ e.2.core = core then { Slot.init with gen := e.2.gen } else e.2)).filter fun e => e.2 != Slot.init }) }
  s1.modCore core fun c => { c with pools := [], dry := [] }

/-- TEAM_MIGRATION (R98): a team that may move is stopped; once it has drained its state moves, its source port forwards for it, and
its waves and copies go on. When the destination has no room for it any more, the team resumes where it stands (log 157). -/
def execTeamMigration (team core : Nat) (s : State) : Result :=
  .next (match tfind s.teams team, s.gridOf team with
  | some t, some g =>
    match s.migrationPlace team t g core with
    | none => if t.goal = some core ∧ t.resident ∧ s.teamDrained team t then s.resumeTeam team else s
    | some p =>
      if !t.resident then s
      else if !t.stopped then
        if (s.ctx g.ctx).present ∧ (g.stat = .running) then s.stopTeam team (some core) else s
      else if t.goal ≠ some core ∨ !s.teamDrained team t then s
      else
        let s2 := (s.saveTeam team .move).restoreSaved team p.core p.base p.slots p.pos
        let s3 := (s2.modCore t.core fun c => { c with fwd := c.fwd ++ [(team, t.base)] }).returnPools t.core
        { s3 with fresh := s3.fresh + 96 * 192 }
  | _, _ => s)

/-- Pre-empt every team of a grid that stands (R78). -/
def State.stopGrid (s : State) (gid : Nat) : State := (s.standingTeams gid).foldl (fun s t => s.stopTeam t.1 none) s

/-- A cooperative grid that its partition can no longer hold is HELD, its teams pre-empted together; one that it can never hold drains
(R78, R81). -/
def State.judgeCoop (s : State) (gid : Nat) (g : Grid) : State :=
  if !(s.coopHolds g).2 then s.refuseCoop gid g
  else if g.stat = .running && !(s.coopHolds g).1 then (s.stopGrid gid).modGrid gid fun x => { x with stat := .held }
  else s

/-- After a partition has changed: cooperative grids that it can no longer hold are HELD, or drain; teams of other grids on
clusters that it has lost are pre-empted. The teams of a cooperative grid that it can still hold stay where they are (R78, R81, R188, log
136). -/
def State.shrink (s : State) : State :=
  s.grids.foldl (fun (s : State) (e : Nat × Grid) =>
    match tfind s.grids e.1 with
    | none => s
    | some g =>
      if g.stat ≠ .running ∧ g.stat ≠ .admitted ∧ g.stat ≠ .held then s
      else if pkCoop g.packet then s.judgeCoop e.1 g
      else
        let out := (s.standingTeams e.1).filter fun t => !(s.partCores g.ctx).contains t.2.core
        out.foldl (fun s t => s.stopTeam t.1 none) s) s

/-- PART_WRITE (R187, R188): the entry is written, or refused with PARTSTAT 1 or 2. -/
def execPartWrite (part : Nat) (value : BitVec 128) (s : State) : Result :=
  let v : BitVec 128 := value &&& ~~~(7 : BitVec 128)
  let others := (List.range 24).filter fun q => q != part
  let clash := others.any fun q =>
    partCtxs (s.part q) &&& partCtxs v != 0 || partClus (s.part q) &&& partClus v != 0 || partPorts (s.part q) &&& partPorts v != 0
  let stat := fun (n : Word) (s : State) => ({ s with link := { s.link with partstat := n } } : State)
  .next (if part ≥ 24 then s
  else if clash then stat 1 s
  else if partCeil v < (partClus v).cpop.toNat then stat 2 s
  else State.shrink (stat 0 { s with link := { s.link with part := tset 0 s.link.part part v } }))

end Sys2Proof.Machine
end

