-- ==== Sys2Proof/Machine/Context.lean ====
section
/-! DEFINITION. The life of a context (R38 to R41, R46): the commands of VDCTL, the interrupt log at ADMIT (R68), what a RESET
discards (R40, R57, R78, R114). -/

namespace Sys2Proof.Machine

/-- The result of a command (R39). -/
def State.vdErr (s : State) (n : Nat) (e : BitVec 4) : State := s.modCtx n fun c => { c with err := e }

/-- Change the state of a context. -/
def State.vdState (s : State) (n : Nat) (x : CtxSt) : State := s.modCtx n fun c => { c with st := x }

/-- Fill every bucket of a context (R328). -/
def State.fillBuckets (s : State) (n : Nat) : State :=
  { s with mc := { s.mc with spent := s.mc.spent.filter fun (e : Nat × Int) => e.1 / 72 != n } }

/-- The registers that CREATE and the last step of RESETTING set to 0 (R40, R59, R60, R68, R317). -/
def Ctx.cleared (c : Ctx) : Ctx :=
  { c with pmc := [], seqacc := 0, seqemit := 0, fqtail := 0, fqhead := 0, fqdrop := 0, ilcount := 0 }

/-- Draw a fresh key into the slot of a context (R40, R41). -/
def State.freshKey (s : State) (n : Nat) : State :=
  { s with fresh := s.fresh + 1, phys := { s.phys with keys := tset 0 s.phys.keys n (Config.randomKey s.fresh) } }

/-- CREATE (R40): a FREE context becomes CREATED; its counter-tree root, its counters and its queue pointers are 0. -/
def execCreate (ctx : Nat) (s : State) : Result :=
  .next (if (s.ctx ctx).st ≠ .free then s.vdErr ctx 1
  else
    let root := (treeLevels - 1) * 2 ^ 50 + ctx * 8
    let s1 : State := { s with phys := { s.phys with nodes := s.phys.nodes.filter fun (e : Nat × BitVec 56) => !(decide (root ≤ e.1 ∧ e.1 < root + 8)) } }
    ((s1.fillBuckets ctx).modCtx ctx fun c => { c.cleared with armed := none, st := .created }).vdErr ctx 0)

/-- KEYGEN (R40): a CREATED context takes a fresh key and becomes KEYED. -/
def execKeygen (ctx : Nat) (s : State) : Result :=
  .next (if (s.ctx ctx).st ≠ .created then s.vdErr ctx 1
  else ((s.freshKey ctx).modCtx ctx fun c => { c with keyvalid := true, st := .keyed }).vdErr ctx 0)

/-- The frames of a run, ascending. -/
def frameRun (first count : Nat) : List Nat := (List.range count).map (first + ·)

/-- Whether a run of frames may be granted to a context: it lies within one tier's range, and no frame of it is granted to another
context (R39). -/
def State.grantable (s : State) (n first count : Nat) : Bool :=
  decide (1 ≤ count) && (tierOf (first * 65536)).isSome && tierOf (first * 65536) == tierOf ((first + count - 1) * 65536)
    && s.phys.grants.all fun g => g.2.2 == n || decide (first + count ≤ g.1 ∨ g.1 + g.2.1 ≤ first)

/-- GRANT (R39, R40, R46): the pages that VDARG names are granted and read as zeros at once. -/
def execGrant (ctx : Nat) (s : State) : Result :=
  let c := s.ctx ctx
  let first := (c.vdarg.extractLsb' 0 36).toNat
  let count := (c.vdarg.extractLsb' 40 24).toNat
  .next (if c.st ≠ .keyed ∧ c.st ≠ .resident ∧ c.st ≠ .suspended then s.vdErr ctx 1
  else if !s.grantable ctx first count then s.vdErr ctx 2
  else
    let s1 := (frameRun first count).foldl (fun (s : State) f => s.clearFrame ctx f) s
    let s2 : State := { s1 with phys := { s1.phys with grants := (first, count, ctx) :: s1.phys.grants } }
    s2.vdErr ctx 0)

/-- Copy the held records into the completion log in emit order, with one interrupt whatever is held (R68, R69). A held record
that cannot be read back is treated as one that cannot be written to the completion log (log 89). -/
def State.replayLog (s : State) (n : Nat) : State :=
  let c := s.ctx n
  let s1 := (List.range c.ilcount.toNat).foldl (fun (s : State) i =>
    let at_ := c.ilbase + BitVec.ofNat 64 (32 * i)
    let s := s.virtAccount n at_ 32 false
    match s.virtRead n at_ 32 with
    | .ok bs => s.writeLog n (field bs 0 4) bs
    | .error _ => s.amberRecord 0x84 []) s
  (s1.modCtx n fun c => { c with ilcount := 0 }).emit (.msix (n + 1) 0)

/-- ADMIT (R40, R68): a KEYED or SUSPENDED context becomes RESIDENT; the interrupt log is replayed before its waves return to
placement. -/
def execAdmitCtx (ctx : Nat) (s : State) : Result :=
  .next (if (s.ctx ctx).st ≠ .keyed ∧ (s.ctx ctx).st ≠ .suspended then s.vdErr ctx 1
  else ((s.replayLog ctx).vdState ctx .resident).vdErr ctx 0)

/-- The teams of a context. -/
def State.ctxTeams (s : State) (n : Nat) : List (Nat × Team) := s.teams.filter fun t => s.teamCtx t.1 == n

/-- SUSPEND (R40): every wave of a RESIDENT context is pre-empted and its copies stop at chunk boundaries. -/
def execSuspend (ctx : Nat) (s : State) : Result :=
  .next (if (s.ctx ctx).st ≠ .resident then s.vdErr ctx 1
  else
    let s1 := ((s.ctxTeams ctx).filter fun t => t.2.resident).foldl (fun s t => s.stopTeam t.1 none) s
    (s1.modCtx ctx fun c => { c with draining := true }).vdErr ctx 0)

/-- SUSPEND_COMPLETE (R40): the last wave's state is saved and the context is SUSPENDED. A team whose waves have all exited ends first. -/
def execSuspendComplete (ctx : Nat) (s : State) : Result :=
  let ts := (s.ctxTeams ctx).filter fun t => t.2.resident
  .next (if !(s.ctx ctx).draining || (s.ctx ctx).st != .resident || ts.any (fun t => !s.teamDrained t.1 t.2 || s.teamEnds t.1 t.2) then s
  else
    let s1 := ts.foldl (fun s t => s.saveTeam t.1 .save) s
    s1.modCtx ctx fun c => { c with draining := false, st := .suspended })

/-- The homes without the slots and poison records of a context (R114, R115). -/
def Home.without (h : Home) (n : Nat) : Home :=
  { h with slots := h.slots.map (fun (e : Nat × Slot) => (e.1, if e.2.held && e.2.ctx == n then e.2.freed else e.2)),
           ptab := h.ptab.filter fun e => e.2.ctx != n }

/-- Zero what a LAZY unit holds (R57). -/
def State.zeroUnit (s : State) (u : LazyUnit) : State :=
  match u.kind with
  | .block lvl unit off => s.spZero lvl unit off 65536
  | .engine core => s.modCore core fun c => { c with mx := Mx.init }
  | _ => s

/-- Drop the waves, teams and grids of a context without saving them, with all that they have under way. A unit that is SAVING
is zeroed and handed over when its write is done (R7, R40, R57, R78, R114). -/
def State.discardContext (s : State) (n : Nat) : State :=
  let wids := (s.waves.filter fun e => e.2.ctx == n).map (·.1)
  let tids := (s.ctxTeams n).map (·.1)
  let mine := fun (wid : Nat) => wids.contains wid
  let ours := fun (tid : Nat) => tids.contains tid
  let s1 := wids.foldl (fun (s : State) w => (s.nextGen w).removeWave w) s
  let gone := fun (u : LazyUnit) => u.ctx == n && u.st != .saving
  let s2 := (s1.lazies.filter gone).foldl State.zeroUnit s1
  { s2 with
    teams := s2.teams.filter (fun t => !ours t.1), grids := s2.grids.filter (fun g => g.2.ctx != n),
    launches := s2.launches.filter (fun l => l.2.ctx != n), lazies := s2.lazies.filter (fun u => !gone u),
    floors := s2.floors.filter (fun f => f.1 / 2 ^ 56 != n),
    homes := s2.homes.map (fun (h : Nat × Home) => (h.1, h.2.without n)),
    homeq := s2.homeq.filter (fun h => h.ctx != n), homeops := s2.homeops.filter (fun o => !mine o.wid),
    portq := s2.portq.filter (fun p => !mine p.wid), mxq := s2.mxq.filter (fun m => !ours m.team),
    forestq := s2.forestq.filter (fun f => !mine f.wid),
    invals := s2.invals.map (fun (i : Inval) => if i.ctx = n then { i with wid := none, cnt := [] } else i),
    cores := s2.cores.map (fun (e : Nat × Core) => (e.1, { e.2 with
      fwd := e.2.fwd.filter fun f => !ours f.1, mx := if e.2.mx.owner.any ours then Mx.init else e.2.mx })),
    clusters := s2.clusters.map (fun (e : Nat × Cluster) => (e.1, { e.2 with leaves := e.2.leaves.filter fun l => !ours l.team })),
    windows := s2.windows.map (fun (w : Nat × Window) => (w.1, if w.2.owner = n then { w.2 with opener := none, closers := [] } else w.2)),
    link := { s2.link with remotes := s2.link.remotes.map fun r => if r.ctx = n then { r with what := .dropped } else r } }

/-- RESET (R40): the context's work is discarded and every window that it owns or imports closes. -/
def execReset (ctx : Nat) (s : State) : Result :=
  let c := s.ctx ctx
  .next (if c.st ≠ .keyed ∧ c.st ≠ .resident ∧ c.st ≠ .suspended then s.vdErr ctx 1
  else
    let s1 := (s.discardContext ctx).modCtx ctx fun c =>
      { c with st := .resetting, armed := none, queues := [], held := [], draining := false }
    let wins := (s1.windows.filter fun w => w.2.st != .closed && (w.2.owner == ctx || w.2.importer == ctx)).map (·.1)
    ((wins.foldl (fun (s : State) w => s.askClose w ctx) s1).retryRekeys).vdErr ctx 0)

/-- Whether nothing of a context that resets is outstanding: requests, a GLOAD, moves and re-keys, invalidations, its windows. -/
def State.ctxDrained (s : State) (n : Nat) : Bool :=
  s.link.remotes.all (fun r => r.ctx != n) && (s.ctx n).gcmd.isNone && s.pme.moves.all (fun m => m.2.ctx != n)
    && s.invals.all (fun i => i.ctx != n) && s.windows.all fun w => w.2.owner != n || w.2.st == .closed

/-- The frames granted to a context. -/
def State.grantedFrames (s : State) (n : Nat) : List Nat :=
  ((s.phys.grants.filter fun g => g.2.2 == n).flatMap fun g => frameRun g.1 g.2.1).eraseDups

/-- RESET_DRAIN_COMPLETE (R40): a fresh key, every granted page cleared, the counters 0; the pages stay granted. -/
def execResetDrainComplete (ctx : Nat) (s : State) : Result :=
  .next (if (s.ctx ctx).st ≠ .resetting ∨ !s.ctxDrained ctx then s
  else
    let s1 := (s.grantedFrames ctx).foldl (fun (s : State) f => s.clearFrame ctx f) (s.freshKey ctx)
    (s1.fillBuckets ctx).modCtx ctx fun c => { c.cleared with st := .keyed })

/-- RELEASE (R40, R62, R63): a GLOAD in progress ends, the key is zeroised, every page is ungranted, the graphs are FREE. -/
def execRelease (ctx : Nat) (s : State) : Result :=
  .next (if (s.ctx ctx).st ≠ .keyed then s.vdErr ctx 1
  else
    let s1 := s.endLoad ctx false
    let s2 : State := { s1 with phys := { s1.phys with keys := terase s1.phys.keys ctx,
                                                       grants := s1.phys.grants.filter fun g => g.2.2 != ctx },
                                graphs := s1.graphs.filter fun g => g.2.ctx != ctx }
    (s2.modCtx ctx fun c => { c with st := .free, keyvalid := false, armed := none }).vdErr ctx 0)

/-- VDCTL_UNDEFINED_COMMAND (R39): codes 8 to 15 set ERR to 3 and do nothing else. -/
def execVdctlUndefinedCommand (ctx : Nat) (code : BitVec 4) (s : State) : Result :=
  .next (if code.toNat ≥ 8 then s.vdErr ctx 3 else s)

/-- BACKGROUND_SCRUB (R46): the old ciphertext of a sector that reads as zeros is overwritten with zeros; a sector whose counters
have left zero is skipped. -/
def execBackgroundScrub (sector : Nat) (s : State) : Result :=
  let k := s.cell (sector * 32) / 32
  .next (if !s.phys.zero k || (s.grantOf (sector / 2048)).isNone || s.phys.scrubbed.contains k then s
  else { s with phys := { s.phys.settle k with scrubbed := k :: s.phys.scrubbed } })

end Sys2Proof.Machine
end

