-- ==== Sys2Proof/Machine/Faults.lean ====
section
/-! DEFINITION. Parked faults and their answers (R83, R318, R319): REPLAY, the records that wait for room, and the remote faults that
the device itself delivers (R185). -/

namespace Sys2Proof.Machine

/-- ACTION of a REPLAY (R319). -/
def replayAction (v : BitVec 64) : Nat := (v.extractLsb' 24 2).toNat

/-- The parked wave that CORE, SLOT and GEN name: GEN is the tag that its record bears (R318, R319). -/
def State.replayTarget (s : State) (v : BitVec 64) : Option (Nat × Wave × Park) :=
  let core := (v.extractLsb' 16 8).toNat
  let slot := (v.extractLsb' 8 7).toNat
  if core ≥ 192 ∨ slot ≥ 96 then none
  else match tfind s.waves (widOf core slot) with
    | none => none
    | some w => match w.park with
      | some k => if w.stat = .parked ∧ k.gen = v.extractLsb' 0 8 then some (widOf core slot, w, k) else none
      | none => none

/-- Set REPLAYSTAT. -/
def State.replayStat (s : State) (n : Nat) (x : Word) : State := s.modCtx n fun c => { c with replaystat := x }

/-- The trap of a parked fault (R319). -/
def Park.trap (k : Park) : TrapInfo := ⟨k.cause, k.origin, k.split, k.pc, k.addr, 0, k.lanes, k.word, false⟩

/-- The parked instruction ends by its fault report: the lanes that the record names are gone, its counters fall, and the wave is READY;
lanes that are still under way keep their results (R142, R319). -/
def State.endParked (s : State) (wid : Nat) (k : Park) : State :=
  let s1 := s.modWave wid Wave.unpark
  match k.req with
  | none => s1
  | some id =>
    let s2 := s1.cancelPosted wid id k.lanes k.cause
    let s3 := s2.modWave wid fun w => match w.req id with
      | some r =>
        let left : Req := { r with pieces := r.pieces.filter fun p => !k.lanes.getLsbD p.lane, cnt := [] }
        ((if left.complete then w.dropReq id else w.setReq left).fall r.cnt).wake id
      | none => w
    s3.settle wid

/-- Replay a parked wave: it is READY and its instruction goes on with its unfinished lanes (R83, R319). -/
def State.replayParked (s : State) (wid : Nat) : State := s.modWave wid Wave.unpark

/-- Deliver a parked fault as a trap, precise at the parked instruction: it is taken before the wave issues again (R316, R319). -/
def State.deliverPark (s : State) (wid : Nat) (k : Park) : State := (s.endParked wid k).raiseTrap wid k.trap

/-- End a parked wave as unrecovered (R313, R319). -/
def State.failParked (s : State) (wid : Nat) (k : Park) : State := (s.endParked wid k).unrecovered wid k.trap 0

/-- Judge a REPLAY of a context and perform it (R319). -/
def State.replay (s : State) (n : Nat) (v : BitVec 64) : State :=
  if replayAction v = 3 then s.replayStat n 2
  else match s.replayTarget v with
    | none => s.replayStat n 1
    | some (wid, w, k) =>
      if w.ctx ≠ n then s.replayStat n 3
      else
        let s1 := s.replayStat n 0
        match replayAction v with
        | 0 => s1.replayParked wid
        | 1 => s1.deliverPark wid k
        | _ => s1.failParked wid k

/-- REPLAY_WAVE (R319): ACTION 0. -/
def execReplayWave (ctx : Nat) (value : BitVec 64) (s : State) : Result := .next (if replayAction value = 0 then s.replay ctx value else s)

/-- REPLAY_DELIVER_TRAP (R319): ACTION 1. -/
def execReplayDeliverTrap (ctx : Nat) (value : BitVec 64) (s : State) : Result :=
  .next (if replayAction value = 1 then s.replay ctx value else s)

/-- REPLAY_UNRECOVERED (R319): ACTION 2. -/
def execReplayUnrecovered (ctx : Nat) (value : BitVec 64) (s : State) : Result :=
  .next (if replayAction value = 2 then s.replay ctx value else s)

/-- REPLAY_INVALID_ACTION (R319): ACTION 3. -/
def execReplayInvalidAction (ctx : Nat) (value : BitVec 64) (s : State) : Result :=
  .next (if replayAction value = 3 then s.replay ctx value else s)

/-- Deliver the remote fault of a parked wave whose record stands in its queue (R318, R319). -/
def State.deliverRemote (s : State) (wid : Nat) : State :=
  match tfind s.waves wid with
  | some w => match w.park with
    | some k =>
      if selfDelivered k.cause ∧ w.stat = .parked ∧ k.told then s.deliverPark wid k else s
    | none => s
  | none => s

/-- HELD_FAULT_RECORD_WRITE (R318): the oldest held record is written once a record slot is free. -/
def execHeldFaultRecordWrite (ctx : Nat) (s : State) : Result :=
  let c := s.ctx ctx
  .next (match c.held with
  | [] => s
  | (r, wid) :: rest =>
    if c.fqFull then s
    else ((s.modCtx ctx fun c => { c with held := rest }).writeTold ctx r wid).deliverRemote wid)

end Sys2Proof.Machine
end

