-- ==== Sys2Proof/Machine/Vector.lean ====
section
/-! DEFINITION. The shape of every per-lane datapath instruction: lanes without a proxy run in the core, lanes with one are
posted, crossings and demoted instructions hold their split (R103, R107, R111, R227, R240). -/

namespace Sys2Proof.Machine

/-- The operands of one lane in the order A, B, C. -/
structure Trio where
  a : Lane
  b : Lane
  c : Lane
  deriving DecidableEq, Repr

/-- The operands as a list. -/
def Trio.list (t : Trio) : List Lane := [t.a, t.b, t.c]
/-- Whether the lane is posted (R103). -/
def Trio.tagged (t : Trio) : Bool := t.a.tag || t.b.tag || t.c.tag

/-- Results of the lanes that run in the core, and the flags that they raise (R32). -/
def coreResults (op : Nat → AluOp) (src : Nat → Trio) (ls : List Nat) : List (Nat × Word) × BitVec 5 :=
  ls.foldl (fun acc l =>
    let t := src l
    let r := alu (op l) t.a.w t.b.w t.c.w
    (acc.1 ++ [(l, r.1)], acc.2 ||| r.2)) ([], 0)

/-- Post the operation of each lane, in ascending lane order (R104). `slots` gives destination slots; without them the result
returns to the operation `wait`. -/
def State.postLanes (s : State) (q : Iss) (op : Nat → AluOp) (src : Nat → Trio) (ls : List Nat) (slots : List (Nat × Nat))
    (wait : Option Nat) : State :=
  ls.foldl (fun s l =>
    let t := src l
    let dst := (tfind slots l).map fun i => (i, s.slotGen (homeOfLane t.list) i)
    s.postAlu q l (op l) t.a t.b t.c dst wait) s

/-- A per-lane instruction that writes one vector register. `px` tells whether it accepts proxies, `op` may depend on the
lane. -/
def vectorBody (i : Instr) (h : Hints) (lat : Nat) (px : Bool) (op : Iss → Nat → AluOp) (d a : Opd) (b : SrcB) (c : Opd)
    (q : Iss) (s : State) : Res :=
  let src := fun l => Trio.mk (q.src a l) (q.srcB b l) (q.src c l)
  let ls := q.lanes
  let tagged := ls.filter fun l => (src l).tagged
  if !px && !tagged.isEmpty then .bad 0x20
  else if tagged.any fun l => anyMalformed (src l).list then .bad 0x22
  else
    let inCore := ls.filter fun l => !(src l).tagged
    let (rs, fl) := coreResults (op q) src inCore
    match vDest d with
    | none => .done ((s.postLanes q (op q) src tagged [] none).writeLater q lat [] fl q.cnt)
    | some r =>
      let writes : List (Target × Nat) := rs.map fun e => (.v r e.1, e.2.toNat)
      let want := tagged.map fun l => (l, homeOfLane (src l).list)
      match s.judgeSlots q want with
      | .wait => .stay
      | .got slots =>
        let s := (s.takeSlots q want slots).postLanes q (op q) src tagged slots none
        let s := s.writeLater q lat writes fl q.cnt
        let s := s.writeLanes q r (want.zip slots |>.map fun e => (e.1.1, s.pxLane e.1.2 e.2.2))
        .done (s.dropOld q [r] ls)
      | .out cause =>
        if !q.grid.eff.demote then .bad cause
        else
          let cnt := countersOf [8] h
          if !q.room cnt then .stay
          else
            let op1 := s.nextId
            let s := s.openHomeOp q i (maskOf fun l => tagged.contains l) [] cnt true true
            let s := s.postLanes q (op q) src tagged [] (some op1)
            .done ((s.writeLater q lat writes fl []).dropOld q [r] inCore)

/-- A per-lane instruction that writes one vector register. -/
def vectorOp (i : Instr) (h : Hints) (lat : Nat) (px : Bool) (op : Iss → Nat → AluOp) (d a : Opd) (b : SrcB) (c : Opd)
    (s : State) : Result :=
  runInstr i h (vectorBody i h lat px op d a b c) s

/-- No operand. -/
def noOpd : Opd := .none 0
/-- No operand B. -/
def noB : SrcB := .reg (.none 0)

/-- A vector instruction whose operation is the same in every lane. -/
def vec1 (i : Instr) (h : Hints) (lat : Nat) (px : Bool) (op : AluOp) (d a : Opd) (b : SrcB) (c : Opd) (s : State) : Result :=
  vectorOp i h lat px (fun _ _ => op) d a b c s

/-- A comparison that writes one predicate; with a posted lane it is a crossing (R107, R232, R243). -/
def compareBody (i : Instr) (h : Hints) (op : AluOp) (d a : Opd) (b : SrcB) (q : Iss) (s : State) : Res :=
  let src := fun l => Trio.mk (q.src a l) (q.srcB b l) Lane.zero
  let ls := q.lanes
  let tagged := ls.filter fun l => (src l).tagged
  if tagged.any fun l => anyMalformed (src l).list then .bad 0x22
  else
    let inCore := ls.filter fun l => !(src l).tagged
    let (rs, _) := coreResults (fun _ => op) src inCore
    let writes := match d with | .p p => pTargets p.toNat (rs.map fun e => (e.1, e.2 != 0)) | _ => []
    if tagged.isEmpty then .done (s.writeLater q 4 writes 0 q.cnt)
    else
      let cnt := countersOf [8] h
      if !q.room cnt then .stay
      else
        let op1 := s.nextId
        let s := s.openHomeOp q i (maskOf fun l => tagged.contains l) [] cnt true true
        let s := s.postLanes q (fun _ => op) src tagged [] (some op1)
        .done (s.writeLater q 4 writes 0 [])

end Sys2Proof.Machine
end

