-- ==== Sys2Proof/Machine/FloatI.lean ====
section
/-! DEFINITION. The floating-point instructions (R239 to R250). -/

namespace Sys2Proof.Machine

/-- FADD (R241). -/
def execFadd (h : Hints) (rnd : Rnd) (d : Opd) (a : Opd) (b : SrcB) (s : State) : Result :=
  vec1 (.fadd h rnd d a b) h 4 true (.fadd rnd) d a b noOpd s

/-- FSUB (R241). -/
def execFsub (h : Hints) (rnd : Rnd) (d : Opd) (a : Opd) (b : SrcB) (s : State) : Result :=
  vec1 (.fsub h rnd d a b) h 4 true (.fsub rnd) d a b noOpd s

/-- FMUL (R241). -/
def execFmul (h : Hints) (rnd : Rnd) (d : Opd) (a : Opd) (b : SrcB) (s : State) : Result :=
  vec1 (.fmul h rnd d a b) h 4 true (.fmul rnd) d a b noOpd s

/-- FFMA (R241). -/
def execFfma (h : Hints) (rnd : Rnd) (d : Opd) (a : Opd) (b : SrcB) (c : Opd) (s : State) : Result :=
  vec1 (.ffma h rnd d a b c) h 4 true (.ffma rnd) d a b c s

/-- FMIN (R242). -/
def execFmin (h : Hints) (d : Opd) (a : Opd) (b : SrcB) (s : State) : Result :=
  vec1 (.fmin h d a b) h 4 true .fmin d a b noOpd s

/-- FMAX (R242). -/
def execFmax (h : Hints) (d : Opd) (a : Opd) (b : SrcB) (s : State) : Result :=
  vec1 (.fmax h d a b) h 4 true .fmax d a b noOpd s

/-- FSETP, a crossing when a lane is posted (R243). -/
def execFsetp (h : Hints) (cond : Cond) (d a : Opd) (b : SrcB) (s : State) : Result :=
  runInstr (.fsetp h cond d a b) h (compareBody (.fsetp h cond d a b) h (.fcmp cond) d a b) s

/-- FRCP (R244). -/
def execFrcp (h : Hints) (rnd : Rnd) (d : Opd) (a : Opd) (s : State) : Result :=
  vec1 (.frcp h rnd d a) h 8 false (.frcp rnd) d a noB noOpd s

/-- FRSQ (R244). -/
def execFrsq (h : Hints) (d : Opd) (a : Opd) (s : State) : Result :=
  vec1 (.frsq h d a) h 8 false .frsq d a noB noOpd s

/-- FSQRT (R244). -/
def execFsqrt (h : Hints) (rnd : Rnd) (d : Opd) (a : Opd) (s : State) : Result :=
  vec1 (.fsqrt h rnd d a) h 8 false (.fsqrt rnd) d a noB noOpd s

/-- FEXP2 (R244). -/
def execFexp2 (h : Hints) (d : Opd) (a : Opd) (s : State) : Result :=
  vec1 (.fexp2 h d a) h 8 false .fexp2 d a noB noOpd s

/-- FLOG2 (R244). -/
def execFlog2 (h : Hints) (d : Opd) (a : Opd) (s : State) : Result :=
  vec1 (.flog2 h d a) h 8 false .flog2 d a noB noOpd s

/-- FSIN (R244). -/
def execFsin (h : Hints) (d : Opd) (a : Opd) (s : State) : Result :=
  vec1 (.fsin h d a) h 8 false .fsin d a noB noOpd s

/-- FCOS (R244). -/
def execFcos (h : Hints) (d : Opd) (a : Opd) (s : State) : Result :=
  vec1 (.fcos h d a) h 8 false .fcos d a noB noOpd s

/-- HADD2 (R245). -/
def execHadd2 (h : Hints) (bf : Bool) (rnd : Rnd) (d : Opd) (a : Opd) (b : SrcB) (s : State) : Result :=
  vec1 (.hadd2 h bf rnd d a b) h 4 false (.hadd2 bf rnd) d a b noOpd s

/-- HMUL2 (R245). -/
def execHmul2 (h : Hints) (bf : Bool) (rnd : Rnd) (d : Opd) (a : Opd) (b : SrcB) (s : State) : Result :=
  vec1 (.hmul2 h bf rnd d a b) h 4 false (.hmul2 bf rnd) d a b noOpd s

/-- HFMA2 (R245). -/
def execHfma2 (h : Hints) (bf : Bool) (rnd : Rnd) (d : Opd) (a : Opd) (b : SrcB) (c : Opd) (s : State) : Result :=
  vec1 (.hfma2 h bf rnd d a b c) h 4 false (.hfma2 bf rnd) d a b c s

/-- F2I (R246). -/
def execF2i (h : Hints) (u : Bool) (rnd : Rnd) (d : Opd) (a : Opd) (s : State) : Result :=
  vec1 (.f2i h u rnd d a) h 4 false (.f2i u rnd) d a noB noOpd s

/-- I2F (R246). -/
def execI2f (h : Hints) (u : Bool) (rnd : Rnd) (d : Opd) (a : Opd) (s : State) : Result :=
  vec1 (.i2f h u rnd d a) h 4 false (.i2f u rnd) d a noB noOpd s

/-- What CVT reads of its destination: nothing when it writes the whole lane (FP32), else the elements that stay (R247). -/
def cvtKeep (dst : CvtFmt) (d : Opd) : Opd := match dst with
  | .f32 => noOpd
  | _ => d

/-- CVT; the other elements of the destination stay (R247). -/
def execCvt (h : Hints) (elem : BitVec 2) (sat : Bool) (rnd : Rnd) (dst : CvtFmt) (src : CvtFmt) (d : Opd) (a : Opd) (s : State) : Result :=
  vec1 (.cvt h elem sat rnd dst src d a) h 4 false (.cvt elem sat rnd dst src) d a noB (cvtKeep dst d) s

/-- The element bytes 4m to 4m + 3 of a block as a word (R30, R248). -/
def quantWord (codes : List Nat) (m : Nat) : Word :=
  BitVec.ofNat 32 ((List.range 8).foldl (fun n k => n + codes.getD (8 * m + k) 0 % 16 * 16 ^ k) 0)

/-- QUANT's effect: the block of the participants' values goes to five s registers (R31, R248). -/
def quantBody (d a : Opd) (q : Iss) (s : State) : Res :=
  if q.lanes.any fun l => (q.src a l).tag then .bad 0x20
  else
    let b := quantBlock (lanes.map fun l => if q.part.getLsbD l then (q.src a l).w else 0)
    let ws := (List.range 4).map (quantWord b.codes) ++ [BitVec.ofNat 32 (b.scale % 256 + b.spare % 256 * 256)]
    .done (s.writeLater q 8 (sTargets d ws) b.flags q.cnt)

/-- QUANT (R248). RND is ignored (R31). -/
def execQuant (h : Hints) (rnd : BitVec 2) (d a : Opd) (s : State) : Result :=
  runInstr (.quant h rnd d a) h (quantBody d a) s

/-- FCLASS (R249). -/
def execFclass (h : Hints) (d : Opd) (a : Opd) (s : State) : Result :=
  vec1 (.fclass h d a) h 4 false .fclass d a noB noOpd s

end Sys2Proof.Machine
end

