-- ==== Sys2Proof/Machine/Forest.lean ====
section
/-! DEFINITION. The forest instructions at issue: the core translates the descriptor's address, performs a release at device
scope and posts the instruction to its home (R167, R302, R303). -/

namespace Sys2Proof.Machine

/-- Issue a forest instruction: its descriptor is translated as one access of the wave, which parks on a fault there with its counts kept; then
it is posted, and the split holds until its home accepts or refuses it (R142, R148, R167). -/
def forestBody (i : Instr) (a : Opd) (args : List (Nat × Nat × Nat)) (q : Iss) (s : State) : Res :=
  let va := q.uni64 a
  let r : Req := { q.mkReq s.nextId i q.part [⟨q.lanes.headD 0, 0, 1, va, .va va, .untranslated, [], s.t7, 0⟩] q.cnt with aux := forestAux args }
  match s.locateVa q.w.ctx (wCore q.wid) va .read with
  | .ok (.mem pa key) =>
    if s.noPlane q.w.ctx pa then .bad 0x74
    else
      let s1 : State := { s with nextId := s.nextId + 1 }
      .done (((s1.raiseCnt q q.cnt).holdSplit q r.id).postForest (r.forestOp q.wid pa key va))
  | .error c => .done (((s.addReq q r).holdSplit q r.id).parkReq q.wid r c va q.part)
  | .ok _ => .done ((s.addReq q r).holdSplit q r.id)

/-- A forest instruction with no lane operand. -/
def forestOp (i : Instr) (h : Hints) (a : Opd) (s : State) : Result := runInstr i h (forestBody i a []) s

/-- FINIT (R166). -/
def execFinit (h : Hints) (a : Opd) (s : State) : Result := forestOp (.finit h a) h a s

/-- The elements of a lane's operands; tagged lanes trap (R167). -/
def forestLanes (i : Instr) (a : Opd) (xs : List (Nat × Lane × Lane)) (q : Iss) (s : State) : Res :=
  if xs.any fun x => x.2.1.tag || x.2.2.tag then .bad 0x20
  else forestBody i a (xs.map fun x => (x.1, x.2.1.w.toNat, x.2.2.w.toNat)) q s

/-- UNITE (R170). -/
def execUnite (h : Hints) (a b c : Opd) (s : State) : Result :=
  runInstr (.unite h a b c) h (fun q s =>
    forestLanes (.unite h a b c) a (q.lanes.map fun l => (l, q.src b l, q.src c l)) q s) s

/-- FIND (R171). -/
def execFind (h : Hints) (label : Bool) (d a b : Opd) (s : State) : Result :=
  runInstr (.find h label d a b) h (fun q s =>
    forestLanes (.find h label d a b) a (q.lanes.map fun l => (l, q.src b l, Lane.zero)) q s) s

/-- RELABEL (R173). -/
def execRelabel (h : Hints) (compact s32 : Bool) (op : Relab) (a b c : Opd) (s : State) : Result :=
  runInstr (.relabel h compact s32 op a b c) h (fun q s =>
    forestBody (.relabel h compact s32 op a b c) a [(0, (q.uni64 b).toNat, (q.uni64 c).toNat)] q s) s

/-- FSNAP (R172). -/
def execFsnap (h : Hints) (a : Opd) (s : State) : Result := forestOp (.fsnap h a) h a s

/-- FUNDO (R172). -/
def execFundo (h : Hints) (a : Opd) (s : State) : Result := forestOp (.fundo h a) h a s

/-- FCOMMIT (R172). -/
def execFcommit (h : Hints) (a : Opd) (s : State) : Result := forestOp (.fcommit h a) h a s

/-- FSTAT (R173). -/
def execFstat (h : Hints) (d a : Opd) (s : State) : Result := forestOp (.fstat h d a) h a s

end Sys2Proof.Machine
end

