-- ==== Sys2Proof/Machine/ForestEvents.lean ====
section
/-! DEFINITION. The equivalence engine at its home (R165 to R175): a forest instruction is judged, and performed as one
indivisible operation whose memory accesses may fail part way through. -/

namespace Sys2Proof.Machine

/-- How an operation that its home has accepted stops (R174): a memory failure with its cause, a corrupt forest, or, with nothing of it
performed yet, a sector of a peer slot that must be fetched first. -/
inductive FFail where
  | mem (cause : BitVec 7)
  | corrupt
  | need (pa : Nat)
  deriving DecidableEq, Repr

/-- On whose behalf the engine runs: the context, and the forest instruction. -/
structure FEnv where
  ctx : Nat
  op  : Nat
  deriving DecidableEq, Repr

/-- A run of the engine: it changes the state, and may fail with what it has written standing. -/
abbrev FRun := ExceptT FFail (StateM State)

/-- A forest's descriptor, with the fields of R165. -/
structure FDesc where
  va       : DWord
  state    : Nat
  home     : Nat
  n        : Nat
  classes  : Nat
  largest  : Nat
  snapC    : Nat
  snapL    : Nat
  loglen   : Nat
  logcap   : Nat
  parent   : DWord
  cls      : DWord
  minb     : DWord
  log      : DWord
  deriving DecidableEq, Repr

/-- A descriptor from its 128 bytes (R165). -/
def fdesc (va : DWord) (bs : List Byte) : FDesc :=
  let w := fun i => field bs i 4
  let d := fun i => BitVec.ofNat 64 (field bs i 8)
  { va := va, state := field bs 0 1 % 4, home := field bs 0 1 / 16, n := w 52, classes := w 56, largest := w 60, snapC := w 64,
    snapL := w 68, loglen := w 72, logcap := w 76, parent := d 80, cls := d 88, minb := d 96, log := d 104 }

/-- Whether a descriptor's fields lie in their ranges and on their alignments (R165). -/
def FDesc.valid (d : FDesc) : Bool :=
  d.va.toNat % 128 == 0 && decide (1 ≤ d.n ∧ d.n < 2 ^ 31 ∧ d.logcap ≤ 2 ^ 27) && d.log.toNat % 16 == 0 && d.minb.toNat % 32 == 0
    && d.cls.toNat % 32 == 0 && d.parent.toNat % 32 == 0

/-- A forest instruction before its home. -/
def State.forestOp (s : State) (id : Nat) : Option FOp := s.forestq.find? fun x => x.id == id

/-- Change a forest instruction before its home. -/
def State.modForest (s : State) (id : Nat) (f : FOp → FOp) : State := { s with forestq := s.forestq.map fun x => if x.id = id then f x else x }

/-- What stops an access of a forest instruction at an address: a check that has failed there, or what stops any access (R47, R174). -/
def State.forestStop (s : State) (e : FEnv) (pa key : Nat) (isWrite : Bool) : Option (BitVec 7) :=
  match (s.forestOp e.op).bind fun x => x.bad.find? fun b => b.1 == pa / 32 with
  | some b => some b.2
  | none => s.stopAt none e.ctx pa key isWrite

/-- What a failed access of a forest instruction leaves with the device: a check that a second read has found failing has left it already
(R47). -/
def State.forestNote (s : State) (e : FEnv) (pa : Nat) (c : BitVec 7) : State :=
  if ((s.forestOp e.op).any fun x => x.bad.any fun b => b.1 == pa / 32) then s else s.noteStop e.ctx pa c

/-- Where a word of the forest lies now with its key slot, or the failure of the access (R174). -/
def fplace (e : FEnv) (va : DWord) (acc : Acc) : FRun (Nat × Nat) := do
  let s ← get
  match s.walk e.ctx va acc with
  | .error c => throw (.mem c)
  | .ok (_, t) =>
    match s.forestStop e (t.pa va) t.key acc.writes with
    | some c => do
      set (s.forestNote e (t.pa va) c)
      throw (.mem c)
    | none => pure (t.pa va, t.key)

/-- The bytes of a sector of a peer slot, as the operation sees them. -/
def State.forestGot (s : State) (e : FEnv) (pa : Nat) : Option (List Byte) := (s.forestOp e.op).bind fun x => tfind x.got (pa / 32)

/-- Read a word (R168). -/
def frd (e : FEnv) (va : DWord) : FRun Nat := do
  let (pa, _) ← fplace e va .read
  let s ← get
  if s.isPeer pa then
    match s.forestGot e pa with
    | some bs => pure (field bs (pa % 32) 4)
    | none => throw (.need pa)
  else
    set (s.account e.ctx (s.place pa) s.t7 false)
    pure (s.physNat pa 4)

/-- Write bytes over those of a sector of a peer slot: the operation sees them, and they go out when it is performed. -/
def FOp.put (x : FOp) (pa : Nat) (bs : List Byte) : FOp :=
  let cells := (List.range bs.length).map fun k => (pa % 32 + k, bs.getD k 0)
  { x with puts := tput x.puts (pa / 32) ((tget [] x.puts (pa / 32)).filter (fun c => !cells.any fun d => d.1 == c.1) ++ cells),
           got := x.got.map fun g => (g.1, if g.1 = pa / 32 then cells.foldl (fun l c => l.set c.1 c.2) g.2 else g.2) }

/-- Write a word: one indivisible write at memory (R168). -/
def fwr (e : FEnv) (va : DWord) (x : Nat) : FRun Unit := do
  let (pa, key) ← fplace e va .write
  let s ← get
  if s.isPeer pa then set (s.modForest e.op fun o => o.put pa (leBytes 4 (x % 2 ^ 32)))
  else set ((s.physWrite pa key (leBytes 4 (x % 2 ^ 32))).account e.ctx (s.place pa) s.t7 true)

/-- The address of element i of an array of words. -/
def elemAt (base : DWord) (i : Nat) : DWord := base + BitVec.ofNat 64 (4 * i)

/-- Write a descriptor's HW fields and its STATE and HOME (R165). -/
def fsave (ctx : FEnv) (d : FDesc) : FRun Unit := do
  fwr ctx (d.va + 56) d.classes
  fwr ctx (d.va + 60) d.largest
  fwr ctx (d.va + 64) d.snapC
  fwr ctx (d.va + 68) d.snapL
  fwr ctx (d.va + 72) d.loglen
  let w ← frd ctx d.va
  fwr ctx d.va (w / 256 * 256 + d.home % 16 * 16 + w / 4 % 4 * 4 + d.state)

/-- The path of an element: each element with its parent word, the root last; a parent of N or more, or more than N steps, is
corrupt (R171, R174). -/
def fpath (ctx : FEnv) (d : FDesc) : Nat → Nat → List (Nat × Nat) → FRun (List (Nat × Nat))
  | 0, _, _ => throw .corrupt
  | k + 1, x, acc => do
    let w ← frd ctx (elemAt d.parent x)
    let p := w % 2 ^ 31
    if p ≥ d.n then throw .corrupt
    else if p = x then pure (acc ++ [(x, w)])
    else fpath ctx d k p (acc ++ [(x, w)])

/-- Whether a parent word is young (R165). -/
def isYoung (w : Nat) : Bool := decide (w ≥ 2 ^ 31)

/-- Re-point the elements of a path: each that is not young goes to the first young element after it, or to the root (R171). -/
def fcompress (ctx : FEnv) (d : FDesc) : List (Nat × Nat) → FRun Nat
  | [] => throw .corrupt
  | [(r, _)] => pure r
  | (e, w) :: rest => do
    let root := (rest.getLastD (e, w)).1
    let top := match rest.find? fun x => isYoung x.2 with | some x => x.1 | none => root
    if !isYoung w then fwr ctx (elemAt d.parent e) top
    fcompress ctx d rest

/-- The root of an element, its path compressed (R171). -/
def ffind (ctx : FEnv) (d : FDesc) (x : Nat) : FRun Nat := do
  let p ← fpath ctx d (d.n + 1) x []
  fcompress ctx d p

/-- The root of an element, nothing written. -/
def froot (ctx : FEnv) (d : FDesc) (x : Nat) : FRun Nat := do
  let p ← fpath ctx d (d.n + 1) x []
  pure (p.getLastD (x, 0)).1

/-- Join two distinct roots (R169); while a snapshot is open, the record of R172 is appended first. -/
def flink (ctx : FEnv) (d : FDesc) (ra rb : Nat) : FRun FDesc := do
  let sa ← frd ctx (elemAt d.cls ra)
  let sb ← frd ctx (elemAt d.cls rb)
  let ma ← frd ctx (elemAt d.minb ra)
  let mb ← frd ctx (elemAt d.minb rb)
  let first := decide (sa > sb) || (sa == sb && decide (ra < rb))
  let w := if first then ra else rb
  let c := if first then rb else ra
  let snap := d.state == 2
  if snap then
    let old ← frd ctx (elemAt d.parent c)
    let at_ := d.log + BitVec.ofNat 64 (16 * d.loglen)
    fwr ctx at_ c
    fwr ctx (at_ + 4) old
    fwr ctx (at_ + 8) (if first then sa else sb)
    fwr ctx (at_ + 12) (if first then ma else mb)
  let d := if snap then { d with loglen := (d.loglen + 1) % 2 ^ 32 } else d
  if snap then fwr ctx (d.va + 72) d.loglen
  fwr ctx (elemAt d.parent c) (w + if snap then 2 ^ 31 else 0)
  let size := (sa + sb) % 2 ^ 32
  fwr ctx (elemAt d.cls w) size
  fwr ctx (elemAt d.minb w) (min ma mb)
  let d : FDesc := { d with classes := (d.classes + 2 ^ 32 - 1) % 2 ^ 32, largest := max d.largest size }
  fwr ctx (d.va + 56) d.classes
  fwr ctx (d.va + 60) d.largest
  pure d

/-- UNITE: each lane's pair in ascending lane order (R170). -/
def funite (ctx : FEnv) (d : FDesc) : List (Nat × Nat × Nat) → FRun Unit
  | [] => pure ()
  | (_, a, b) :: rest => do
    let ra ← ffind ctx d a
    let rb ← ffind ctx d b
    let d ← if ra ≠ rb then flink ctx d ra rb else pure d
    funite ctx d rest

/-- Write a lane of a FIND: a value; a tagged lane gives up its reference (R303). -/
def State.findLane (s : State) (op : FOp) (reg lane : Nat) (v : Word) : State :=
  match tfind s.waves op.wid with
  | some w => (s.setWave op.wid (w.setLane reg lane ⟨false, v⟩)).dropRef op.wid op.seq lane op.pc none (w.lane reg lane)
  | none => s

/-- Write a lane of a FIND's destination; a discarded write writes nothing. -/
def findWrite (op : FOp) (d : Opd) (lane v : Nat) : FRun Unit :=
  match vDest d with
  | some r => modify fun s => s.findLane op r lane (BitVec.ofNat 32 v)
  | none => pure ()

/-- FIND: the root or the canonical label of each lane's element (R171). A failure leaves 0xFFFFFFFF in the lanes not written
(R174). -/
def ffindAll (ctx : FEnv) (op : FOp) (f : FDesc) (label : Bool) (d : Opd) : List (Nat × Nat × Nat) → FRun Unit
  | [] => pure ()
  | (l, x, y) :: rest => do
    let one : FRun Nat := do
      let r ← ffind ctx f x
      if label then frd ctx (elemAt f.minb r) else pure r
    let v ← tryCatch one fun e => do
      for k in (l, x, y) :: rest do findWrite op d k.1 0xFFFFFFFF
      throw e
    findWrite op d l v
    ffindAll ctx op f label d rest

/-- A record of the undo log (R172). -/
def flogRec (ctx : FEnv) (d : FDesc) (k : Nat) : FRun (Nat × Nat × Nat × Nat) := do
  let at_ := d.log + BitVec.ofNat 64 (16 * k)
  let c ← frd ctx at_
  let p ← frd ctx (at_ + 4)
  let n ← frd ctx (at_ + 8)
  let m ← frd ctx (at_ + 12)
  pure (c, p, n, m)

/-- FUNDO: the records undone, newest first (R172). -/
def fundo (ctx : FEnv) (d : FDesc) : Nat → FRun Unit
  | 0 => fsave ctx { d with classes := d.snapC, largest := d.snapL, loglen := 0 }
  | k + 1 => do
    let (c, p, n, m) ← flogRec ctx d k
    let w ← frd ctx (elemAt d.parent c)
    if w % 2 ^ 31 ≥ d.n then throw .corrupt
    fwr ctx (elemAt d.parent c) p
    fwr ctx (elemAt d.cls (w % 2 ^ 31)) n
    fwr ctx (elemAt d.minb (w % 2 ^ 31)) m
    fundo ctx d k

/-- FCOMMIT: the young bits of every record's child cleared (R172). -/
def fcommit (ctx : FEnv) (d : FDesc) : Nat → FRun Unit
  | 0 => fsave ctx { d with loglen := 0, state := 1 }
  | k + 1 => do
    let (c, _) ← flogRec ctx d k
    let w ← frd ctx (elemAt d.parent c)
    fwr ctx (elemAt d.parent c) (w % 2 ^ 31)
    fcommit ctx d k

/-- Write the initial words of every element (R166). -/
def finitAll (ctx : FEnv) (d : FDesc) : Nat → Nat → FRun Unit
  | 0, _ => fsave ctx d
  | k + 1, i => do
    fwr ctx (elemAt d.parent i) i
    fwr ctx (elemAt d.cls i) 1
    fwr ctx (elemAt d.minb i) i
    finitAll ctx d k (i + 1)

/-- Whether an FP32 code is NaN. -/
def isNanW (x : Word) : Bool := (fp32.decode x.toNat).isNan

/-- Two values of a class reduced (R173); a count carries the class's size. -/
def relabOp (op : Relab) (s32 : Bool) (x y : Word) : Word :=
  let nan : Word := 0x7FC00000
  match op with
  | .count => x
  | .sum => if s32 then x + y else BitVec.ofNat 32 (fp32.addOp .rn x.toNat y.toNat).1
  | .min => if s32 then minBy false x y else if isNanW x || isNanW y then nan else BitVec.ofNat 32 (fp32.minOp false x.toNat y.toNat)
  | .max => if s32 then maxBy false x y else if isNanW x || isNanW y then nan else BitVec.ofNat 32 (fp32.minOp true x.toNat y.toNat)

/-- The value of a class's first element (R173). -/
def relabFirst (op : Relab) (s32 : Bool) (x : Word) : Word := if !s32 && op != .count && isNanW x then 0x7FC00000 else x

/-- Reduce the elements over their classes, in the order in which the device takes them (R173). -/
def frelabel (ctx : FEnv) (d : FDesc) (op : Relab) (s32 : Bool) (inp : DWord) : List Nat → Tab Word → FRun (Tab Word)
  | [], t => pure t
  | i :: rest, t => do
    let r ← froot ctx d i
    let x ← if op = .count then frd ctx (elemAt d.cls r) else frd ctx (elemAt inp i)
    let v : Word := BitVec.ofNat 32 x
    let v := match tfind t r with | some y => relabOp op s32 y v | none => relabFirst op s32 v
    frelabel ctx d op s32 inp rest (tput t r v)

/-- The canonical label of each root. -/
def flabels (ctx : FEnv) (d : FDesc) : List Nat → FRun (List (Nat × Nat))
  | [] => pure []
  | r :: rest => do
    let m ← frd ctx (elemAt d.minb r)
    let xs ← flabels ctx d rest
    pure ((m, r) :: xs)

/-- Write results: each an element of OUT with its word. -/
def fout (ctx : FEnv) (out : DWord) : List (Nat × Word) → FRun Unit
  | [] => pure ()
  | (k, v) :: rest => do
    fwr ctx (elemAt out k) v.toNat
    fout ctx out rest

/-- RELABEL, once accepted (R173). -/
def frelabelAll (ctx : FEnv) (d : FDesc) (compact s32 : Bool) (op : Relab) (inp out : DWord) (order : List Nat) : FRun Unit := do
  let t ← frelabel ctx d op s32 inp order []
  if compact then
    let ls ← flabels ctx d (t.map (·.1))
    let roots := ((ls.mergeSort fun a b => decide (a.1 ≤ b.1)).map (·.2)).take d.classes
    fout ctx out ((List.range roots.length).map fun k => (k, tget 0 t (roots.getD k 0)))
  else fout ctx out t

/-- The pages of a range of virtual addresses. -/
def pagesOf (va : DWord) (n : Nat) : List DWord :=
  (List.range ((va.toNat % 65536 + n + 65535) / 65536)).map fun k => BitVec.ofNat 64 ((va.toNat / 65536 + k) * 65536)

/-- Whether every page of a range can be accessed by a context (R166, R173). -/
def State.reach (s : State) (ctx : Nat) (va : DWord) (n : Nat) (acc : Acc) : Bool :=
  decide (va.toNat + n ≤ 2 ^ 64) && (pagesOf va n).all fun a => match s.walk ctx a acc with | .ok _ => true | .error _ => false

/-- Whether two ranges overlap. -/
def overlaps (a n b m : Nat) : Bool := decide (a < b + m ∧ b < a + n)

/-- The ranges of a forest: its descriptor, its arrays and its log. -/
def FDesc.spans (d : FDesc) : List (DWord × Nat) :=
  [(d.va, 128), (d.parent, 4 * d.n), (d.cls, 4 * d.n), (d.minb, 4 * d.n)] ++ if d.logcap = 0 then [] else [(d.log, 16 * d.logcap)]

/-- The pages of a forest as they are translated. -/
def State.forestPages (s : State) (ctx : Nat) (d : FDesc) : List (Except (BitVec 7) Tr) :=
  (d.spans.flatMap fun e => pagesOf e.1 e.2).map fun a => match s.walk ctx a .write with | .ok (_, t) => .ok t | .error c => .error c

/-- The verdict of FINIT on its placement (R166). -/
def State.finitBad (s : State) (ctx : Nat) (d : FDesc) : Bool :=
  let sp := d.spans
  let clash := (List.range sp.length).any fun i => (List.range i).any fun j =>
    let x := sp.getD i (0, 0)
    let y := sp.getD j (0, 0)
    overlaps x.1.toNat x.2 y.1.toNat y.2
  let fs := (s.forestPages ctx d).map fun e => match e with
    | .ok t => some (homeOf (t.frame * 65536))
    | .error _ => none
  clash || sp.any (fun e => decide (e.1.toNat + e.2 > 2 ^ 64)) || fs.any (fun f => f != fs.headD none) || fs.headD none == none

/-- Whether a page of a forest is in motion or being re-keyed (R166). -/
def State.finitWaits (s : State) (ctx : Nat) (d : FDesc) : Bool :=
  (s.forestPages ctx d).any fun e => match e with | .ok t => t.moving || t.rekey | .error _ => false

/-- UNDOLIM of the issuing region applied to a log (R172). -/
def FDesc.limit (d : FDesc) (undolim : Nat) : Nat := if undolim ≠ 0 ∧ undolim < d.logcap then undolim else d.logcap

/-- The refusal of an instruction whose descriptor has been read: its cause (R166 to R173). -/
def State.refusal (s : State) (ctx undolim : Nat) (op : FOp) (d : FDesc) : Option (BitVec 7) :=
  let isInit := match op.instr with | .finit .. => true | _ => false
  if !d.valid ∨ (!isInit ∧ d.state = 0) then some 0x60
  else if !isInit ∧ d.state = 3 then some 0x67
  else match op.instr with
    | .finit .. => if s.finitBad ctx d then some 0x61 else none
    | .unite .. =>
      if op.args.any fun e => decide (e.2.1 ≥ d.n) || decide (e.2.2 ≥ d.n) then some 0x62
      else if d.state = 2 ∧ d.loglen + (op.args.filter fun e => e.2.1 != e.2.2).length > d.limit undolim then some 0x63
      else none
    | .find .. => if op.args.any fun e => decide (e.2.1 ≥ d.n) then some 0x62 else none
    | .relabel _ compact _ _ _ _ _ =>
      match op.args with
      | (_, inp, out) :: _ =>
        let cnt := if compact then d.classes else d.n
        if inp % 4 ≠ 0 ∨ out % 4 ≠ 0 ∨ !s.reach ctx (BitVec.ofNat 64 inp) (4 * d.n) .read
            ∨ !s.reach ctx (BitVec.ofNat 64 out) (4 * cnt) .write
            ∨ [d.parent, d.cls, d.minb].any (fun b => overlaps out (4 * cnt) b.toNat (4 * d.n)) then some 0x62
        else none
      | [] => some 0x62
    | .fsnap .. => if d.state = 2 ∨ d.limit undolim = 0 then some 0x64 else none
    | .fundo .. | .fcommit .. => if d.state = 1 then some 0x64 else none
    | _ => none

/-- The order in which the device takes the elements: the one given, where it names each once. -/
def takeOrder (n : Nat) (order : List Nat) : List Nat :=
  if order.length = n ∧ order.eraseDups.length = n ∧ order.all (fun k => decide (k < n)) then order else List.range n

/-- The operation that a home has accepted (R166, R170 to R173). -/
def frun (ctx : FEnv) (op : FOp) (d : FDesc) (home : Nat) (order : List Nat) : FRun Unit :=
  match op.instr with
  | .finit .. =>
    finitAll ctx { d with state := 1, home := home, classes := d.n, largest := 1, loglen := 0, snapC := 0, snapL := 0 } d.n 0
  | .unite .. => funite ctx d op.args
  | .find _ label v _ _ => ffindAll ctx op d label v op.args
  | .relabel _ compact s32 r _ _ _ =>
    match op.args with
    | (_, inp, out) :: _ => frelabelAll ctx d compact s32 r (BitVec.ofNat 64 inp) (BitVec.ofNat 64 out) (takeOrder d.n order)
    | [] => pure ()
  | .fsnap .. => fsave ctx { d with snapC := d.classes, snapL := d.largest, loglen := 0, state := 2 }
  | .fundo .. => fundo ctx d d.loglen
  | .fcommit .. => fcommit ctx d d.loglen
  | .fstat _ v _ =>
    modify fun s => s.modWave op.wid fun w =>
      w.storeNow (sTargets v [BitVec.ofNat 32 d.classes, BitVec.ofNat 32 d.largest])
  | _ => pure ()

/-- The instruction leaves its home: its counters fall. -/
def State.dropForest (s : State) (op : FOp) : State :=
  let s1 : State := { s with forestq := s.forestq.filter fun x => x.id != op.id }
  (s1.modWave op.wid fun w => w.fall op.cnt).settle op.wid

/-- A refusal: a precise trap, with nothing performed (R167). -/
def State.refuse (s : State) (op : FOp) (cause origin : BitVec 7) : State :=
  (s.dropForest op).raiseTrap op.wid ⟨cause, origin, op.split, op.pc, 0, 0, op.mask, op.word, false⟩

/-- Set a descriptor's STATE to FAILED and report (R174). -/
def State.failForest (s : State) (ctx : Nat) (op : FOp) (c o : BitVec 7) : State :=
  let e : FEnv := ⟨ctx, op.id⟩
  let mark : FRun Unit := do
    let w ← frd e op.desc
    fwr e op.desc (w / 4 * 4 + 3)
  let s := (mark.run s).2
  s.report ctx (s.waveRec op.wid c o 1 op.mask op.pc op.desc 0) op.wid

/-- HOME's reading of a sector of a descriptor (R167). -/
def State.readPart (s : State) (e : FEnv) (pa key : Nat) : Except FFail (List Byte) :=
  match s.forestStop e pa key false with
  | some c => .error (.mem c)
  | none =>
    if s.isPeer pa then
      match s.forestGot e pa with
      | some bs => .ok bs
      | none => .error (.need pa)
    else .ok (s.physRead pa 32)

/-- HOME's reading of a descriptor, with its home unit (R166, R167). -/
def State.readDesc (s : State) (e : FEnv) (va : DWord) : Except FFail (Nat × FDesc) :=
  match s.walk e.ctx va .read with
  | .error c => .error (.mem c)
  | .ok (_, t) =>
    ((List.range 4).mapM fun k => s.readPart e (t.pa va + 32 * k) t.key).map fun bs => (homeOf (t.pa va), fdesc va bs.flatten)

/-- The account of the sectors of a descriptor that its home reads, up to one that fails (R47, R158). -/
def State.descRead (s : State) (e : FEnv) (va : DWord) : State :=
  let s := s.walked e.ctx va
  match s.walk e.ctx va .read with
  | .error _ => s
  | .ok (_, t) =>
    let next := fun (acc : State × Bool) (k : Nat) =>
      let pa := t.pa va + 32 * k
      if acc.2 then match s.forestStop e pa t.key false with
        | some c => (acc.1.forestNote e pa c, false)
        | none => (acc.1.account e.ctx (s.place pa) s.t7 false, true)
      else acc
    if s.isPeer (t.pa va) then s else ((List.range 4).foldl next (s, true)).1

/-- Whether an operation has fetched sectors of peers, or has writes to them under way: no other operation on its forest comes between (R168,
R184). -/
def State.forestBusy (s : State) (x : FOp) : Bool :=
  x.phase != 0 || !x.got.isEmpty || s.link.remotes.any fun r => match r.what with | .forest k _ _ => k == x.id | _ => false

/-- Whether an instruction is a forest instruction. -/
def isForest : Instr → Bool
  | .finit .. | .unite .. | .find .. | .relabel .. | .fsnap .. | .fundo .. | .fcommit .. | .fstat .. => true
  | _ => false

/-- Whether an earlier forest instruction of the wave on the same forest still waits for its descriptor's translation (R168). -/
def State.forestBehind (s : State) (op : FOp) : Bool :=
  (tfind s.waves op.wid).any fun w => w.reqs.any fun r => decide (r.seq < op.seq) && isForest r.instr && r.pieces.any fun p =>
    p.va == op.desc || match s.walk w.ctx p.va .read with
      | .ok (_, t) => s.place (t.pa p.va) == s.place op.pa
      | .error _ => false

/-- Whether a forest instruction may be judged now: its release is complete, its wave's acquires have completed, and the wave's
earlier instructions on the forest are done, as is any that is part way through (R167, R168, R266). -/
def State.forestReady (s : State) (op : FOp) : Bool :=
  op.ready && !s.acqBlocked op.wid op.seq && !s.forestBehind op
    && !(s.forestq.any fun x => x.id != op.id && s.place x.pa == s.place op.pa && ((x.wid == op.wid && decide (x.seq < op.seq)) || s.forestBusy x))

/-- A sector of a peer slot is asked for; without a plane the instruction traps, with nothing of it performed (R184). -/
def State.askForest (s : State) (ctx : Nat) (x : FOp) (pa : Nat) : State :=
  if (s.planes ctx).isEmpty then s.refuse x 0x74 0 else s.sendRemote x.wid ctx pa (.forest x.id (pa / 32) [])

/-- An operation has been performed: it completes once every write to a peer is acknowledged; until then the next one goes out (R168,
R184). A write that has no plane fails. -/
def State.flushForest (s : State) (ctx : Nat) (id : Nat) : State :=
  match s.forestOp id with
  | none => s
  | some x =>
    match x.puts.find? fun p => !(s.link.remotes.any fun r => match r.what with | .forest k sec _ => k == id && sec == p.1 | _ => false) with
    | none => if x.puts.isEmpty then s.dropForest x else s
    | some (sec, bs) =>
      if !(s.planes ctx).isEmpty then s.sendRemote x.wid ctx (sec * 32) (.forest id sec bs)
      else
        let t := s.modForest id fun y => { y with puts := [], phase := 2 }
        let u := if x.phase = 2 then t else (t.failForest ctx x 0x65 0x74).modForest id fun y => { y with puts := [] }
        u.dropForest x

/-- FOREST_ACCEPT (R167): HOME judges a forest instruction, and refuses it or performs it indivisibly. `order` is the order in
which RELABEL takes the elements (R173). Sectors of peer slots are fetched before anything is performed (R181, R184). -/
def execForestAccept (op : Nat) (order : List Nat) (s : State) : Result :=
  .next (match s.forestq.find? fun x => x.id == op with
  | none => s
  | some x =>
    match tfind s.waves x.wid with
    | none => s
    | some w =>
      let e : FEnv := ⟨w.ctx, x.id⟩
      if x.phase ≠ 0 then s.flushForest w.ctx op
      else if !s.forestReady x then s
      else if x.desc.toNat % 128 ≠ 0 then s.refuse x 0x60 0
      else match s.readDesc e x.desc with
        | .error (.need pa) => s.askForest w.ctx x pa
        | .error (.mem c) => (s.descRead e x.desc).refuse x 0x60 c
        | .error .corrupt => s.refuse x 0x60 0
        | .ok (home, d) =>
          let s0 := s.descRead e x.desc
          let lim := match s.gridOf w.team with | some g => g.eff.undolim | none => 0
          match s.refusal w.ctx lim x d with
          | some c => s0.refuse x c 0
          | none =>
            let isInit := match x.instr with | .finit .. => true | _ => false
            if isInit && s.finitWaits w.ctx d then s
            else
              let done := fun (s : State) =>
                let t := s.modWave x.wid fun w => w.wake x.id
                (if ((t.forestOp op).any fun y => !y.puts.isEmpty) then t else t.dropForest x)
              match (frun e x d home order).run s0 with
              | (.error (.need pa), _) => s.askForest w.ctx x pa
              | (.ok _, s1) => done (s1.modForest op fun y => { y with phase := 1 })
              | (.error (.mem c), s1) => done ((s1.failForest w.ctx x 0x65 c).modForest op fun y => { y with phase := 2 })
              | (.error .corrupt, s1) => done ((s1.failForest w.ctx x 0x66 0).modForest op fun y => { y with phase := 2 }))

/-- A remote request of a forest instruction ends in a fault: a sector that was to be read fails its operation when it is judged; a write
that is lost makes the forest FAILED (R174, R185). -/
def State.failForestRemote (s : State) (op sector : Nat) (cause : BitVec 7) : State :=
  match (s.forestOp op).bind fun x => (tfind s.waves x.wid).map fun w => (x, w) with
  | none => s
  | some (x, w) =>
    if x.phase = 0 then s.modForest op fun y => { y with bad := y.bad ++ [(sector, cause)] }
    else
      let t := s.modForest op fun y => { y with puts := terase y.puts sector, phase := 2 }
      let u := if x.phase = 1 then t.failForest w.ctx x 0x65 cause else t
      u.flushForest w.ctx op

/-- A remote request of a forest instruction is answered: the sector is kept, or the write is done (R184). -/
def State.forestReply (s : State) (op sector : Nat) (isRead : Bool) (bs : List Byte) : State :=
  match (s.forestOp op).bind fun x => (tfind s.waves x.wid).map fun w => (x, w) with
  | none => s
  | some (_, w) =>
    if isRead then s.modForest op fun y => { y with got := tput y.got sector bs }
    else (s.modForest op fun y => { y with puts := terase y.puts sector }).flushForest w.ctx op

end Sys2Proof.Machine
end

