-- ==== Sys2Proof/Machine/Integer.lean ====
section
/-! DEFINITION. The integer instructions (R226 to R238). -/

namespace Sys2Proof.Machine

/-- IADD (R228). -/
def execIadd (h : Hints) (ovf : Sat) (d : Opd) (a : Opd) (b : SrcB) (s : State) : Result :=
  vec1 (.iadd h ovf d a b) h 4 true (.iadd ovf) d a b noOpd s

/-- ISUB (R228). -/
def execIsub (h : Hints) (ovf : Sat) (d : Opd) (a : Opd) (b : SrcB) (s : State) : Result :=
  vec1 (.isub h ovf d a b) h 4 true (.isub ovf) d a b noOpd s

/-- IMUL (R228). -/
def execImul (h : Hints) (d : Opd) (a : Opd) (b : SrcB) (s : State) : Result :=
  vec1 (.imul h d a b) h 4 true .imul d a b noOpd s

/-- IMULH (R228). -/
def execImulh (h : Hints) (u : Bool) (d : Opd) (a : Opd) (b : SrcB) (s : State) : Result :=
  vec1 (.imulh h u d a b) h 4 false (.imulh u) d a b noOpd s

/-- IMAD (R228). -/
def execImad (h : Hints) (d : Opd) (a : Opd) (b : SrcB) (c : Opd) (s : State) : Result :=
  vec1 (.imad h d a b c) h 4 true .imad d a b c s

/-- IDIV, 8 clk (R229). -/
def execIdiv (h : Hints) (u : Bool) (d : Opd) (a : Opd) (b : SrcB) (s : State) : Result :=
  vec1 (.idiv h u d a b) h 8 false (.idiv u) d a b noOpd s

/-- IREM, 8 clk (R229). -/
def execIrem (h : Hints) (u : Bool) (d : Opd) (a : Opd) (b : SrcB) (s : State) : Result :=
  vec1 (.irem h u d a b) h 8 false (.irem u) d a b noOpd s

/-- IMIN (R228). -/
def execImin (h : Hints) (u : Bool) (d : Opd) (a : Opd) (b : SrcB) (s : State) : Result :=
  vec1 (.imin h u d a b) h 4 true (.imin u) d a b noOpd s

/-- IMAX (R228). -/
def execImax (h : Hints) (u : Bool) (d : Opd) (a : Opd) (b : SrcB) (s : State) : Result :=
  vec1 (.imax h u d a b) h 4 true (.imax u) d a b noOpd s

/-- IABS (R230). -/
def execIabs (h : Hints) (sat : Bool) (d : Opd) (a : Opd) (s : State) : Result :=
  vec1 (.iabs h sat d a) h 4 false (.iabs sat) d a noB noOpd s

/-- AND (R228). -/
def execAnd (h : Hints) (d : Opd) (a : Opd) (b : SrcB) (s : State) : Result :=
  vec1 (.and h d a b) h 4 true .and d a b noOpd s

/-- OR (R228). -/
def execOr (h : Hints) (d : Opd) (a : Opd) (b : SrcB) (s : State) : Result :=
  vec1 (.or h d a b) h 4 true .or d a b noOpd s

/-- XOR (R228). -/
def execXor (h : Hints) (d : Opd) (a : Opd) (b : SrcB) (s : State) : Result :=
  vec1 (.xor h d a b) h 4 true .xor d a b noOpd s

/-- SHL (R228). -/
def execShl (h : Hints) (d : Opd) (a : Opd) (b : SrcB) (s : State) : Result :=
  vec1 (.shl h d a b) h 4 true .shl d a b noOpd s

/-- SHR (R228). -/
def execShr (h : Hints) (d : Opd) (a : Opd) (b : SrcB) (s : State) : Result :=
  vec1 (.shr h d a b) h 4 true .shr d a b noOpd s

/-- SAR (R228). -/
def execSar (h : Hints) (d : Opd) (a : Opd) (b : SrcB) (s : State) : Result :=
  vec1 (.sar h d a b) h 4 true .sar d a b noOpd s

/-- ROTL (R228). -/
def execRotl (h : Hints) (d : Opd) (a : Opd) (b : SrcB) (s : State) : Result :=
  vec1 (.rotl h d a b) h 4 false .rotl d a b noOpd s

/-- BFE (R231). -/
def execBfe (h : Hints) (sx : Bool) (d : Opd) (a : Opd) (b : SrcB) (s : State) : Result :=
  vec1 (.bfe h sx d a b) h 4 false (.bfe sx) d a b noOpd s

/-- BFI (R231). -/
def execBfi (h : Hints) (d : Opd) (a : Opd) (b : SrcB) (c : Opd) (s : State) : Result :=
  vec1 (.bfi h d a b c) h 4 false .bfi d a b c s

/-- POPC (R230). -/
def execPopc (h : Hints) (d : Opd) (a : Opd) (s : State) : Result :=
  vec1 (.popc h d a) h 4 false .popc d a noB noOpd s

/-- CLZ (R230). -/
def execClz (h : Hints) (d : Opd) (a : Opd) (s : State) : Result :=
  vec1 (.clz h d a) h 4 false .clz d a noB noOpd s

/-- BREV (R230). -/
def execBrev (h : Hints) (d : Opd) (a : Opd) (s : State) : Result :=
  vec1 (.brev h d a) h 4 false .brev d a noB noOpd s

/-- ISETP, a crossing when a lane is posted (R232). -/
def execIsetp (h : Hints) (cond : Cond) (uns : Bool) (d a : Opd) (b : SrcB) (s : State) : Result :=
  runInstr (.isetp h cond uns d a b) h (compareBody (.isetp h cond uns d a b) h (.icmp cond uns) d a b) s

/-- SEL: the predicate is read in the core and travels with a posted lane (R233). -/
def execSel (h : Hints) (not : Bool) (pred : BitVec 3) (d a : Opd) (b : SrcB) (s : State) : Result :=
  vectorOp (.sel h not pred d a b) h 4 true (fun q l => .sel (q.w.seenPred q.fresh pred.toNat l != not)) d a b noOpd s

/-- MOV's effect: a tagged lane is copied with its tag and raises its slot's count; it posts no operation and takes no slot
(R108, R234). -/
def movBody (d : Opd) (b : SrcB) (q : Iss) (s : State) : Res :=
  let ls := q.lanes
  let xs := ls.map fun l => (l, q.srcB b l)
  if xs.any fun x => anyMalformed [x.2] then .bad 0x22
  else match vDest d with
    | none => .done (s.writeLater q 4 [] 0 q.cnt)
    | some r =>
      let s := xs.foldl (fun s x =>
        if x.2.tag then s.post q.wid (pxHome x.2.w) q.seq x.1 q.pc (.count (pxSlot x.2.w) (pxGen x.2.w) 1) none none else s) s
      .done ((s.writeLater q 4 (xs.map fun x => (.v r x.1, laneNat x.2)) 0 q.cnt).dropOld q [r] ls)

/-- MOV (R234). -/
def execMov (h : Hints) (d : Opd) (b : SrcB) (s : State) : Result := runInstr (.mov h d b) h (movBody d b) s

/-- IADD2 (R235). -/
def execIadd2 (h : Hints) (ovf : Sat) (d : Opd) (a : Opd) (b : SrcB) (s : State) : Result :=
  vec1 (.iadd2 h ovf d a b) h 4 false (.iadd2 ovf) d a b noOpd s

/-- ISUB2 (R235). -/
def execIsub2 (h : Hints) (ovf : Sat) (d : Opd) (a : Opd) (b : SrcB) (s : State) : Result :=
  vec1 (.isub2 h ovf d a b) h 4 false (.isub2 ovf) d a b noOpd s

/-- IMIN2 (R235). -/
def execImin2 (h : Hints) (u : Bool) (d : Opd) (a : Opd) (b : SrcB) (s : State) : Result :=
  vec1 (.imin2 h u d a b) h 4 false (.imin2 u) d a b noOpd s

/-- IMAX2 (R235). -/
def execImax2 (h : Hints) (u : Bool) (d : Opd) (a : Opd) (b : SrcB) (s : State) : Result :=
  vec1 (.imax2 h u d a b) h 4 false (.imax2 u) d a b noOpd s

/-- ISETP2's effect: the result of element 0 goes to pD, that of element 1 to pD+1; a write to p7 is discarded (R235). -/
def isetp2Body (cond : Cond) (uns : Bool) (d a : Opd) (b : SrcB) (q : Iss) (s : State) : Res :=
  let ls := q.lanes
  if ls.any fun l => (q.src a l).tag || (q.srcB b l).tag then .bad 0x20
  else
    let res := fun e => ls.map fun l => (l, cmpInt cond uns (elem16 (q.src a l).w e) (elem16 (q.srcB b l).w e))
    let writes := match d with
      | .p p => pTargets p.toNat (res 0) ++ pTargets (p.toNat + 1) (res 1)
      | _ => []
    .done (s.writeLater q 4 writes 0 q.cnt)

/-- ISETP2 (R235). -/
def execIsetp2 (h : Hints) (cond : Cond) (uns : Bool) (d a : Opd) (b : SrcB) (s : State) : Result :=
  runInstr (.isetp2 h cond uns d a b) h (isetp2Body cond uns d a b) s

/-- PLOP's effect: a lookup of three predicates in an 8-bit table (R236). -/
def plopBody (lut : BitVec 8) (d a c b : Opd) (q : Iss) (s : State) : Res :=
  let res := q.lanes.map fun l => (l, plopBit lut (q.pred a l) (q.pred b l) (q.pred c l))
  .done (s.writeLater q 4 (match d with | .p p => pTargets p.toNat res | _ => []) 0 q.cnt)

/-- PLOP (R236). -/
def execPlop (h : Hints) (lut : BitVec 8) (d a c b : Opd) (s : State) : Result :=
  runInstr (.plop h lut d a c b) h (plopBody lut d a c b) s

/-- The v registers of a pair operand that a lane reads. -/
def pairTagged (q : Iss) (o : Opd) (l : Nat) : Bool :=
  match o with
  | .v i => (q.vlane i.toNat l).tag || (q.vlane (i.toNat + 1) l).tag
  | _ => false

/-- LEA's effect: both registers of the pair are written together (R237). -/
def leaBody (u : Bool) (scale : BitVec 2) (d a : Opd) (b : SrcB) (q : Iss) (s : State) : Res :=
  let ls := q.lanes
  if ls.any fun l => pairTagged q a l || (q.srcB b l).tag then .bad 0x20
  else match vDest d with
    | none => .done (s.writeLater q 4 [] 0 q.cnt)
    | some r =>
      let writes : List (Target × Nat) := ls.flatMap fun l =>
        let x := leaAddr u scale (q.src64 a l) (q.srcB b l).w
        [(.v r l, x.toNat % 2 ^ 32), (.v (r + 1) l, x.toNat / 2 ^ 32)]
      .done ((s.writeLater q 4 writes 0 q.cnt).dropOld q [r, r + 1] ls)

/-- LEA (R237). -/
def execLea (h : Hints) (u : Bool) (scale : BitVec 2) (d a : Opd) (b : SrcB) (s : State) : Result :=
  runInstr (.lea h u scale d a b) h (leaBody u scale d a b) s

end Sys2Proof.Machine
end

