-- ==== Sys2Proof/Machine/Matrix.lean ====
section
/-! DEFINITION. The matrix instructions at issue (R289 to R300): ownership, checks, and the commands that they send to the
engine. -/

namespace Sys2Proof.Machine

/-- Element width in bits (R203). -/
def fmtBits : Fmt → Nat
  | .e2m1 => 4
  | .e4m3 | .e5m2 | .int8 => 8
  | .fp16 | .bf16 => 16

/-- Groups of an operand row (R293). -/
def fmtGroups : Fmt → Nat
  | .e2m1 => 8
  | .e4m3 | .e5m2 | .int8 => 4
  | .fp16 | .bf16 => 2

/-- Whether a format carries block scales (R290, R293). -/
def fmtScales : Fmt → Bool
  | .e2m1 | .e4m3 | .e5m2 => true
  | _ => false

/-- Whether a format is one of the two 8-bit floating-point formats. -/
def isFp8 : Fmt → Bool
  | .e4m3 | .e5m2 => true
  | _ => false

/-- The number of a weight slot: SLOT × 16 + bank (R289). -/
def wslot (slot : Bool) (bank : Nat) : Nat := (if slot then 16 else 0) + bank

/-- The banks of a mask, ascending. -/
def banksOf (mask : Nat) : List Nat := (List.range 16).filter fun b => mask / 2 ^ b % 2 == 1

/-- The engine as a team finds it that issues a matrix instruction (R289). -/
def State.mxFor (s : State) (q : Iss) : Mx :=
  let m := (s.core (wCore q.wid)).mx
  if m.owner = some q.w.team then m else { Mx.init with owner := some q.w.team }

/-- The verdict of MMA on one bank: its slot, the formats and the scales (R293, R295). -/
def mmaBank (m : Mx) (part : Nat) (fmt : Fmt) (slot sc : Bool) (bank : Nat) : Option (BitVec 7) :=
  match tfind m.wst (wslot slot bank) with
  | none => some 0x12
  | some w =>
    let aValid := tget false m.asv part
    if fmt = .e2m1 ∧ w.fmt = .e2m1 then (if sc && aValid && w.scaled then none else some 0x13)
    else if isFp8 fmt && isFp8 w.fmt then (if sc && !aValid then some 0x13 else none)
    else if fmt = w.fmt ∧ !fmtScales fmt then (if sc then some 0x11 else none)
    else some 0x11

/-- The verdict of MSCALE on one bank (R294). -/
def mscaleBank (m : Mx) (slot : Bool) (bank : Nat) : Option (BitVec 7) :=
  match tfind m.wst (wslot slot bank) with
  | none => some 0x12
  | some w => if fmtScales w.fmt then none else some 0x11

/-- Send a command to the engine, in engine order (R297). -/
def State.sendMx (s : State) (q : Iss) (m : Mx) (i : Instr) (arg : Nat) (tile : Opd) (vals : Tab (List Byte)) : State :=
  let cell := match tile with | .t t => some (q.team.tile t.toNat) | _ => none
  let cmd : MCmd :=
    { id := s.nextId, core := wCore q.wid, part := wPart q.wid, wid := q.wid, team := q.w.team, seq := q.seq, instr := i,
      split := q.split, pc := q.pc, word := q.word, mask := q.part, chain := q.w.chain.getD s.nextId, arg := arg, slots := m.wst,
      tile := cell, cnt := q.cnt, prog := [], got := vals, fin := none, rowsIn := 0, rowAt := 0 }
  let s1 := s.modCore cmd.core fun c => { c with mx := m }
  let s2 : State := { s1 with nextId := s.nextId + 1, mxq := s1.mxq ++ [cmd] }
  s2.raiseCnt q q.cnt

/-- Whether a tile holds the bytes that an operand requires (R292). -/
def Iss.tileFits (q : Iss) (o : Opd) (n : Nat) : Bool := tileBytes (q.team.tile (opdIdx o)) == n

/-- MLOADB's effect (R290, R294). -/
def mloadbBody (i : Instr) (fmt : Fmt) (slot : Bool) (d : Opd) (b : SrcB) (q : Iss) (s : State) : Res :=
  let mask := (q.uniB b).toNat % 65536
  let banks := banksOf mask
  if !q.tileFits d (8192 * banks.length) then .bad 0x6B
  else
    let m := s.mxFor q
    .done (s.sendMx q { m with wst := banks.foldl (fun t k => tput t (wslot slot k) ⟨fmt, false⟩) m.wst } i mask d [])

/-- MLOADB (R294). -/
def execMloadb (h : Hints) (fmt : Fmt) (slot : Bool) (d : Opd) (b : SrcB) (s : State) : Result :=
  runInstr (.mloadb h fmt slot d b) h (mloadbBody (.mloadb h fmt slot d b) fmt slot d b) s

/-- MMA's effect: every check before any operand is fetched (R295). -/
def mmaBody (i : Instr) (fmt : Fmt) (slot sc : Bool) (a : Opd) (b : SrcB) (q : Iss) (s : State) : Res :=
  let mask := (q.uniB b).toNat % 65536
  let m := s.mxFor q
  if !q.tileFits a 4096 then .bad 0x6B
  else match (banksOf mask).findSome? (mmaBank m (wPart q.wid) fmt slot sc) with
    | some c => .bad c
    | none => .done (s.sendMx q m i mask a [])

/-- MMA (R295). -/
def execMma (h : Hints) (fmt : Fmt) (slot sc : Bool) (d a : Opd) (b : SrcB) (s : State) : Result :=
  runInstr (.mma h fmt slot sc d a b) h (mmaBody (.mma h fmt slot sc d a b) fmt slot sc a b) s

/-- The engine becomes the issuing team's. -/
def State.ownMx (s : State) (q : Iss) : State := s.modCore (wCore q.wid) fun c => { c with mx := s.mxFor q }

/-- MCHAIN's effect (R296). -/
def mchainBody (q : Iss) (s : State) : Res :=
  if q.w.chain.isSome then .bad 0x14
  else
    let s1 : State := { s with nextId := s.nextId + 1 }
    .done (((s1.ownMx q).modWave q.wid fun w => { w with chain := some s.nextId }).quick q)

/-- MCHAIN (R296). -/
def execMchain (h : Hints) (s : State) : Result := runInstr (.mchain h) h mchainBody s

/-- MEND's effect (R296). -/
def mendBody (q : Iss) (s : State) : Res :=
  match q.w.chain with
  | none => .bad 0x14
  | some c => .done ((((s.ownMx q).closeChain c).modWave q.wid fun w => { w with chain := none }).quick q)

/-- MEND (R296). -/
def execMend (h : Hints) (s : State) : Result := runInstr (.mend h) h mendBody s

/-- OPRDY: a marker that later matrix reads of the tile wait for (R298). -/
def execOprdy (h : Hints) (a : Opd) (s : State) : Result :=
  runInstr (.oprdy h a) h (fun q s => .done (s.sendMx q (s.mxFor q) (.oprdy h a) 0 a [])) s

/-- MZERO (R299). -/
def execMzero (h : Hints) (d : Opd) (s : State) : Result :=
  runInstr (.mzero h d) h (fun q s => .done (s.sendMx q (s.mxFor q) (.mzero h d) 0 noTile [])) s
where
  /-- No tile. -/
  noTile : Opd := .none 0

/-- Bytes of an accumulator image (R292). -/
def imageBytes (fmt : Fmt) (f32 : Bool) : Nat := 2048 * (if f32 then 32 else fmtBits fmt) / 8

/-- MREAD's effect (R299). -/
def mreadBody (i : Instr) (fmt : Fmt) (f32 : Bool) (d : Opd) (b : SrcB) (q : Iss) (s : State) : Res :=
  if isTOpd d && !q.tileFits d (imageBytes fmt f32) then .bad 0x6B
  else .done (s.sendMx q (s.mxFor q) i ((q.uniB b).toNat % 64) d [])

/-- MREAD (R299). -/
def execMread (h : Hints) (fmt : Fmt) (f32 : Bool) (d a : Opd) (b : SrcB) (s : State) : Result :=
  runInstr (.mread h fmt f32 d a b) h (mreadBody (.mread h fmt f32 d a b) fmt f32 d b) s

/-- MWRITE's effect: a column's values are read at issue (R299). -/
def mwriteBody (i : Instr) (fmt : Fmt) (f32 : Bool) (a : Opd) (b : SrcB) (q : Iss) (s : State) : Res :=
  if isTOpd a then
    (if !q.tileFits a (imageBytes fmt f32) then .bad 0x6B else .done (s.sendMx q (s.mxFor q) i 0 a []))
  else if q.lanes.any fun l => (q.src a l).tag then .bad 0x20
  else .done (s.sendMx q (s.mxFor q) i ((q.uniB b).toNat % 64) a (q.lanes.map fun l => (l, leBytes 4 (q.src a l).w.toNat)))

/-- MWRITE (R299). -/
def execMwrite (h : Hints) (fmt : Fmt) (f32 : Bool) (d a : Opd) (b : SrcB) (s : State) : Result :=
  runInstr (.mwrite h fmt f32 d a b) h (mwriteBody (.mwrite h fmt f32 d a b) fmt f32 a b) s

/-- MSCALE's effect (R290, R294). -/
def mscaleBody (i : Instr) (slot side : Bool) (d : Opd) (b : SrcB) (q : Iss) (s : State) : Res :=
  let m := s.mxFor q
  if side then
    (if !q.tileFits d 512 then .bad 0x6B
     else .done (s.sendMx q { m with asv := tset false m.asv (wPart q.wid) true } i 0 d []))
  else
    let mask := (q.uniB b).toNat % 65536
    let banks := banksOf mask
    if !q.tileFits d (1024 * banks.length) then .bad 0x6B
    else match banks.findSome? (mscaleBank m slot) with
      | some c => .bad c
      | none =>
        let wst := banks.foldl (fun (t : Tab WSlot) k => match tfind t (wslot slot k) with
          | some w => tput t (wslot slot k) { w with scaled := true }
          | none => t) m.wst
        .done (s.sendMx q { m with wst := wst } i mask d [])

/-- MSCALE (R294). -/
def execMscale (h : Hints) (slot side : Bool) (d : Opd) (b : SrcB) (s : State) : Result :=
  runInstr (.mscale h slot side d b) h (mscaleBody (.mscale h slot side d b) slot side d b) s

/-- MROWRED (R300). -/
def execMrowred (h : Hints) (op : RowRed) (d a : Opd) (s : State) : Result :=
  runInstr (.mrowred h op d a) h (fun q s => .done (s.sendMx q (s.mxFor q) (.mrowred h op d a) 0 a [])) s

end Sys2Proof.Machine
end

