-- ==== Sys2Proof/Machine/MatrixEvents.lean ====
section
/-! DEFINITION. The matrix engine at work (R289 to R300): each step of a command reads its operand sectors, applies some of its
elements in engine order, and ends the command when nothing of it is left. -/

namespace Sys2Proof.Machine

/-- The number of an accumulator element: tile, row, column. -/
def accKey (tile row col : Nat) : Nat := tile * 2048 + row * 64 + col

/-- The whole mask of the groups of an operand row. -/
def allGroups (fmt : Fmt) : Nat := 2 ^ fmtGroups fmt - 1

/-- The rows that a command acts on. -/
def MCmd.rows (c : MCmd) : List Nat := lanesOf c.mask

/-- The accumulator elements of a tile in a command's rows. -/
def MCmd.tileCells (c : MCmd) : List Nat := c.rows.flatMap fun i => (List.range 64).map fun k => i * 64 + k

/-- The banks of a command, with the accumulator tile or operand block that each takes, in order. -/
def MCmd.banks (c : MCmd) : List Nat := banksOf c.arg

/-- The sectors of an operand of n bytes. -/
def sectorsIn (n : Nat) : List Nat := List.range (n / 32)

/-- Every element, row or sector that a command handles (R292). -/
def MCmd.cells (c : MCmd) : List Nat :=
  match c.instr with
  | .mma .. => (List.range c.banks.length).flatMap fun j => c.tileCells.map fun k => j * 2048 + k
  | .mzero .. | .mrowred .. => c.tileCells
  | .mread _ _ _ (.t _) _ _ | .mwrite _ _ _ _ (.t _) _ => c.tileCells
  | .mread .. | .mwrite .. => c.rows
  | .mloadb .. => sectorsIn (8192 * c.banks.length)
  | .mscale _ _ side _ _ => if side then sectorsIn 512 else sectorsIn (1024 * c.banks.length)
  | _ => []

/-- What stands for a cell that is done: every group of an MMA, 1 elsewhere. -/
def MCmd.full (c : MCmd) : Nat := match c.instr with | .mma _ fmt .. => allGroups fmt | _ => 1

/-- Whether a command has finished a cell. -/
def MCmd.did (c : MCmd) (cell : Nat) : Bool := tget 0 c.prog cell == c.full

/-- Whether a command has still to write an accumulator element. -/
def MCmd.willWrite (c : MCmd) (tile row col : Nat) : Bool :=
  match c.instr with
  | .mma _ _ _ _ d _ _ =>
    let t := opdIdx d
    t ≤ tile && tile < t + c.banks.length && c.mask.getLsbD row && !c.did ((tile - t) * 2048 + row * 64 + col)
  | .mzero _ d => opdIdx d == tile && c.mask.getLsbD row && !c.did (row * 64 + col)
  | .mwrite _ _ _ d (.t _) _ => opdIdx d == tile && c.mask.getLsbD row && !c.did (row * 64 + col)
  | .mwrite _ _ _ d _ _ => opdIdx d == tile && c.mask.getLsbD row && c.arg == col && !c.did row
  | _ => false

/-- Whether a command has still to read an accumulator element. -/
def MCmd.willRead (c : MCmd) (tile row col : Nat) : Bool :=
  match c.instr with
  | .mread _ _ _ (.t _) a _ | .mrowred _ _ _ a =>
    opdIdx a == tile && c.mask.getLsbD row && (tfind c.got (row * 64 + col)).isNone
  | .mread _ _ _ _ a _ => opdIdx a == tile && c.mask.getLsbD row && c.arg == col && !c.did row
  | _ => false

/-- Whether a command is an MMA of a chain (R296). -/
def MCmd.chained (c : MCmd) : Bool := match c.instr with | .mma .. => c.chain != c.id | _ => false

/-- Where the writes of a command begin in engine order: at its MCHAIN for an MMA of a chain (R297). -/
def MCmd.begins (c : MCmd) : Nat := if c.chained then c.chain else c.id

/-- Whether the writes of one command to an element come before those of another (R36, R297): those of an MMA of a chain before a command
that stands after its MEND, or before an MMA whose MCHAIN it precedes; any other command's before what begins after it. The steps of a
chain, and what stands between its markers, are in no order (log 50). -/
def MCmd.precedes (x c : MCmd) : Bool :=
  if x.chained then (c.chained && decide (x.id < c.begins)) || x.fin.any fun e => decide (e < c.id) else decide (x.id < c.begins)

/-- The commands that stand before a command at its engine (R297). -/
def State.before (s : State) (c : MCmd) : List MCmd := s.mxq.filter fun x => x.core == c.core && decide (x.id < c.id)

/-- Whether a command may write an accumulator element now (R297). -/
def mayWrite (prev : List MCmd) (c : MCmd) (tile row col : Nat) : Bool :=
  prev.all fun x => !(x.willRead tile row col) && !(x.precedes c && x.willWrite tile row col)

/-- The least interval between A rows, in clk (R293). -/
def rowInterval (fmt : Fmt) : Nat := match fmtGroups fmt with | 8 => 4 | 4 => 8 | _ => 16

/-- The next A row of an MMA enters when max(C, I) clk have passed since the last (R295, R336). -/
def State.injectRow (s : State) (c : MCmd) : MCmd :=
  match c.instr with
  | .mma _ fmt .. =>
    let cad := (tget (0 : BitVec 5) (s.cluster (cluOf c.core)).mxcad (c.core % 8)).toNat
    let now := s.clk c.core
    if c.rowsIn = 0 ∨ (c.rowsIn < 32 ∧ c.rowAt + max cad (rowInterval fmt) ≤ now) then { c with rowsIn := c.rowsIn + 1, rowAt := now } else c
  | _ => c

/-- Whether an OPRDY of the wave that stands before a command still holds back its reads of a tile (R298). -/
def readsHeld (prev : List MCmd) (c : MCmd) (tile : Nat) : Bool :=
  prev.any fun x => x.wid == c.wid && match x.instr with
    | .oprdy _ (.t t) => t.toNat == tile
    | .oprdy _ _ => true
    | _ => false

/-- The tile that a command reads, if it reads one. -/
def MCmd.tileRead (c : MCmd) : Option Nat :=
  match c.instr with
  | .mma _ _ _ _ _ a _ => some (opdIdx a)
  | .mloadb _ _ _ d _ | .mscale _ _ _ d _ => some (opdIdx d)
  | .mwrite _ _ _ _ (.t t) _ => some t.toNat
  | _ => none

/-- Where a tile byte of a command lies: level, unit, offset, forwarded where its team has moved (R98, R122). -/
def State.mxPlace (s : State) (c : MCmd) (o : Nat) : Nat × Nat × Nat :=
  match c.tile, tfind s.teams c.team, s.gridOf c.team with
  | some e, some t, some g => tileLoc g t e o
  | _, _, _ => (0, 0, 0)

/-- A sector of a command's operand: as read before, or read now, whole (R298). -/
def State.mxSector (s : State) (c : MCmd) (k : Nat) : List Byte × MCmd :=
  match tfind c.got k with
  | some bs => (bs, c)
  | none =>
    let (l, u, o) := s.mxPlace c (32 * k)
    let bs := s.spRead l u o 32
    (bs, { c with got := tput c.got k bs })

/-- Operand bytes from a command's tile. -/
def State.mxBytes (s : State) (c : MCmd) (o n : Nat) : List Byte × MCmd :=
  let secs := (List.range ((o + n - 1) / 32 + 1)).filter fun k => decide (o / 32 ≤ k)
  let (bs, c) := secs.foldl (fun (acc : List Byte × MCmd) k => let (b, c) := s.mxSector acc.2 k; (acc.1 ++ b, c)) ([], c)
  ((bs.drop (o % 32)).take n, c)

/-- The code of element k of a row of operand bytes (R292). -/
def elemCode (fmt : Fmt) (bs : List Byte) (k : Nat) : Nat :=
  match fmtBits fmt with
  | 4 => (bs.getD (k / 2) 0).toNat / (if k % 2 = 0 then 1 else 16) % 16
  | 8 => (bs.getD k 0).toNat
  | _ => field bs (2 * k) 2

/-- The 32 element codes of a group. -/
def groupCodes (fmt : Fmt) (bs : List Byte) : List Nat := (List.range 32).map (elemCode fmt bs)

/-- Bytes of a group. -/
def groupBytes (fmt : Fmt) : Nat := 4 * fmtBits fmt

/-- The products of a group (R33). -/
def groupProds (fa fb : Fmt) (a b : List Byte) (sa sb : Option Nat) (pa pb : Nat) : List FV :=
  ((groupCodes fa a).zip (groupCodes fb b)).map fun e =>
    mxProd (fa == .int8) (mxElem fa e.1 sa pa) (mxElem fb e.2 sb pb)

/-- Stored bytes of a table, upward. -/
def tbytes (t : Tab Byte) (o n : Nat) : List Byte := (List.range n).map fun i => tget 0 t (o + i)

/-- Store bytes in a table, upward. -/
def tstore (t : Tab Byte) (o : Nat) : List Byte → Tab Byte
  | [] => t
  | b :: bs => tstore (tset 0 t o b) (o + 1) bs

/-- One step of an MMA: group g of an element (R33, R292, R294, R295). -/
def State.mmaStep (s : State) (c : MCmd) (fmt : Fmt) (slot sc : Bool) (bank tile row col g : Nat) : State × MCmd :=
  let m := (s.core c.core).mx
  let (a, c) := s.mxBytes c (128 * row + g * groupBytes fmt) (groupBytes fmt)
  let w := wslot slot bank
  let ws := (tfind c.slots w).getD ⟨fmt, false⟩
  let b := tbytes m.w (w * 8192 + 128 * col + g * groupBytes ws.fmt) (groupBytes ws.fmt)
  let sa := if sc then some (tget 0 m.asc (c.part * 512 + 8 * row + g)).toNat else none
  let pa := (tget 0 m.asc (c.part * 512 + 256 + 8 * row + g)).toNat
  let sb := if ws.scaled then some (tget 0 m.wsc (w * 1024 + 8 * col + g)).toNat else none
  let pb := (tget 0 m.wsc (w * 1024 + 512 + 8 * col + g)).toNat
  let k := accKey tile row col
  let acc := mxStep (tget 0 m.acc k) (groupProds fmt ws.fmt a b sa sb pa pb)
  (s.modCore c.core fun x => { x with mx := { x.mx with acc := tset 0 x.mx.acc k acc } }, c)

/-- Set an accumulator element. -/
def State.setAcc (s : State) (c : MCmd) (tile row col : Nat) (v : Word) : State :=
  s.modCore c.core fun x => { x with mx := { x.mx with acc := tset 0 x.mx.acc (accKey tile row col) v } }

/-- An accumulator element. -/
def State.accAt (s : State) (c : MCmd) (tile row col : Nat) : Word := tget 0 (s.core c.core).mx.acc (accKey tile row col)

/-- A command has finished a cell. -/
def MCmd.mark (c : MCmd) (cell : Nat) : MCmd := { c with prog := tput c.prog cell c.full }

/-- Write a lane of a destination from the engine: a value; a tagged lane gives up its reference (R108, R299); a destination of class none
discards it (R194). -/
def State.mxLane (s : State) (c : MCmd) (d : Opd) (lane : Nat) (v : Word) : State :=
  match d, tfind s.waves c.wid with
  | .v r, some w => (s.setWave c.wid (w.setLane r.toNat lane ⟨false, v⟩)).dropRef c.wid c.seq lane 0 none (w.lane r.toNat lane)
  | _, _ => s

/-- The bytes of an image element (R26, R299). With FP32 on both sides nothing is converted: the bits move, those of a NaN too
(log 139). -/
def imageElem (fmt : Fmt) (f32 : Bool) (v : Word) : List Byte :=
  if f32 then leBytes 4 v.toNat
  else
    let x := fp32.decode v.toNat
    match fmt with
    | .e4m3 => leBytes 1 (e4m3.encode .rn true x).1
    | .e5m2 => leBytes 1 (e5m2.encode .rn false x).1
    | .int8 => leBytes 1 (BitVec.ofInt 8 (toIntIn .rn (-128) 127 x).1).toNat
    | .fp16 => leBytes 2 (fp16.encode .rn false x).1
    | .bf16 => leBytes 2 (bf16.encode .rn false x).1
    | .e2m1 => []

/-- An FP32 word from an image element (R26, R299); an FP32 element moves its bits (log 139). -/
def imageValue (fmt : Fmt) (f32 : Bool) (bs : List Byte) : Word :=
  if f32 then BitVec.ofNat 32 (leNat bs) else BitVec.ofNat 32 (fp32.encode .rn false (mxElem fmt (leNat bs) none 0)).1

/-- Bytes of an image element. -/
def imageWidth (fmt : Fmt) (f32 : Bool) : Nat := (if f32 then 32 else fmtBits fmt) / 8

/-- The magnitude of a value. -/
def FV.mag : FV → FV
  | .fin _ m e => .fin false m e
  | .inf _ => .inf false
  | .nan => .nan

/-- The reduction of a row (R300). -/
def rowReduce (op : RowRed) (xs : List Word) : Word :=
  let vs := xs.map fun x => fp32.decode x.toNat
  let code := fun (x : FV) => BitVec.ofNat 32 (fp32.encode .rn false x).1
  match op with
  | .sum => code (sumFv vs)
  | .sumsq => if vs.any (FV.isInf false) && vs.any (FV.isInf true) then BitVec.ofNat 32 fp32.nanCode else code (sumFv (vs.map fun v => (FV.mul v v).1))
  | .max => BitVec.ofNat 32 (xs.foldl (fun m x => fp32.minOp true m x.toNat) fp32.nanCode)
  | .maxabs => BitVec.ofNat 32 ((vs.map fun v => (code v.mag).toNat).foldl (fp32.minOp true) fp32.nanCode)

/-- Store a sector of an MLOADB or MSCALE in the engine (R292, R294). -/
def State.mxLoad (s : State) (c : MCmd) (slot : Bool) (per : Nat) (scales : Bool) (k : Nat) : State × MCmd :=
  let (bs, c) := s.mxSector c k
  let o := 32 * k
  let at_ := wslot slot (c.banks.getD (o / per) 0) * per + o % per
  let s := s.modCore c.core fun x =>
    { x with mx := if scales then { x.mx with wsc := tstore x.mx.wsc at_ bs } else { x.mx with w := tstore x.mx.w at_ bs } }
  (s, c.mark k)

/-- Whether an MMA before a command has still to read a weight slot that the command writes (R297). -/
def usesSlot (prev : List MCmd) (slot : Bool) (bank : Nat) : Bool :=
  prev.any fun x => match x.instr with
    | .mma _ _ sl _ _ _ _ => sl == slot && x.banks.contains bank
    | _ => false

/-- Whether a load before a command has still to write a slot, or a partition's scale buffer, that the command writes. -/
def loadsSlot (prev : List MCmd) (scales slot : Bool) (bank : Nat) : Bool :=
  prev.any fun x => match x.instr with
    | .mloadb _ _ sl _ _ => !scales && sl == slot && x.banks.contains bank
    | .mscale _ sl side _ _ => scales && !side && sl == slot && x.banks.contains bank
    | _ => false

/-- Whether an earlier command still uses or writes a partition's A-scale buffer. -/
def usesScales (prev : List MCmd) (part : Nat) : Bool :=
  prev.any fun x => x.part == part && match x.instr with
    | .mma _ _ _ sc _ _ _ => sc
    | .mscale _ _ side _ _ => side
    | _ => false

/-- Handle one cell of a command, when its turn permits (R295, R297 to R299). `steps` is the order of an MMA's groups. -/
def State.mxCell (s : State) (prev : List MCmd) (steps : List Nat) (c : MCmd) (cell : Nat) : State × MCmd :=
  let row := cell / 64 % 32
  let col := cell % 64
  if c.did cell then (s, c)
  else match c.instr with
    | .mma _ fmt slot sc d _ _ =>
      let j := cell / 2048
      let tile := opdIdx d + j
      if row ≥ c.rowsIn || !mayWrite prev c tile row col then (s, c)
      else
        let gs := if steps.isEmpty then List.range (fmtGroups fmt) else steps.filter fun g => decide (g < fmtGroups fmt)
        gs.foldl (fun (acc : State × MCmd) g =>
          if bitAt (tget 0 acc.2.prog cell) g then acc
          else
            let (s, c) := acc.1.mmaStep acc.2 fmt slot sc (c.banks.getD j 0) tile row col g
            (s, { c with prog := tput c.prog cell (tget 0 c.prog cell + 2 ^ g) })) (s, c)
    | .mzero _ d => if mayWrite prev c (opdIdx d) row col then (s.setAcc c (opdIdx d) row col 0, c.mark cell) else (s, c)
    | .mwrite _ fmt f32 d (.t _) _ =>
      if !mayWrite prev c (opdIdx d) row col then (s, c)
      else
        let n := imageWidth fmt f32
        let (bs, c) := s.mxBytes c ((64 * row + col) * n) n
        (s.setAcc c (opdIdx d) row col (imageValue fmt f32 bs), c.mark cell)
    | .mwrite _ _ _ d _ _ =>
      if !mayWrite prev c (opdIdx d) cell c.arg then (s, c)
      else (s.setAcc c (opdIdx d) cell c.arg (BitVec.ofNat 32 (leNat ((tfind c.got cell).getD []))), c.mark cell)
    | .mread _ fmt f32 (.t _) a _ =>
      if (tfind c.got cell).isSome then (s, c)
      else (s, { c with got := tput c.got cell (imageElem fmt f32 (s.accAt c (opdIdx a) row col)) })
    | .mread _ _ _ d a _ =>
      (s.mxLane c d cell (s.accAt c (opdIdx a) cell c.arg), c.mark cell)
    | .mrowred _ op d a =>
      let c := if (tfind c.got cell).isSome then c else { c with got := tput c.got cell (leBytes 4 (s.accAt c (opdIdx a) row col).toNat) }
      let xs := (List.range 64).filterMap fun k => tfind c.got (row * 64 + k)
      if xs.length < 64 then (s, c)
      else
        let c := (List.range 64).foldl (fun (c : MCmd) k => c.mark (row * 64 + k)) c
        (s.mxLane c d row (rowReduce op (xs.map fun b => BitVec.ofNat 32 (leNat b))), c)
    | .mloadb _ _ slot _ _ =>
      let bank := c.banks.getD (32 * cell / 8192) 0
      if usesSlot prev slot bank || loadsSlot prev false slot bank then (s, c) else s.mxLoad c slot 8192 false cell
    | .mscale _ slot side _ _ =>
      if side then
        (if usesScales prev c.part then (s, c)
         else
          let (bs, c) := s.mxSector c cell
          (s.modCore c.core fun x => { x with mx := { x.mx with asc := tstore x.mx.asc (c.part * 512 + 32 * cell) bs } }, c.mark cell))
      else
        let bank := c.banks.getD (32 * cell / 1024) 0
        if usesSlot prev slot bank || loadsSlot prev true slot bank then (s, c) else s.mxLoad c slot 1024 true cell
    | _ => (s, c)

/-- Write the image rows of an MREAD whose elements are all read: whole sectors at the tile's port (R299). -/
def State.mxImage (s : State) (c : MCmd) (w : Nat) : State :=
  c.rows.foldl (fun (s : State) i =>
    (List.range (64 * w / 32)).foldl (fun (s : State) k =>
      let o := 64 * w * i + 32 * k
      let bs := ((List.range (32 / w)).flatMap fun e => (tfind c.got (i * 64 + 32 * k / w + e)).getD [])
      let (l, u, x) := s.mxPlace c o
      (s.spStore l u x bs).wakeTx l u x 32) s) s

/-- A command ends: it leaves the engine and its counters fall (R295, R299). -/
def State.endMx (s : State) (c : MCmd) : State :=
  let s1 : State := { s with mxq := s.mxq.filter fun x => x.id != c.id }
  (s1.modWave c.wid fun w => w.fall c.cnt).settle c.wid

/-- Whether a wave's own earlier scratchpad writes are performed, those of MREAD to any tile among them (R298). -/
def State.tileWritten (s : State) (prev : List MCmd) (c : MCmd) : Bool :=
  !(s.portq.any fun p => p.wid == c.wid && p.seq < c.seq && p.write && match p.what with | .piece _ _ => true | _ => false)
    && prev.all fun x => !(x.wid == c.wid && match x.instr with
      | .mread _ _ _ (.t _) _ _ => true
      | _ => false)

/-- An OPRDY: its counters fall when the wave's own earlier writes are performed; it stands until the acquires before it have
completed too (R298). -/
def State.stepOprdy (s : State) (prev : List MCmd) (c : MCmd) : State :=
  if !s.tileWritten prev c then s
  else if s.acqBlocked c.wid c.seq then
    let s1 : State := { s with mxq := s.mxq.map fun x => if x.id = c.id then { x with cnt := [] } else x }
    s1.modWave c.wid fun w => w.fall c.cnt
  else s.endMx c

/-- The steps of an MMA that a command has applied. -/
def MCmd.stepsDone (c : MCmd) : Nat :=
  match c.instr with
  | .mma .. => (c.prog.map fun e => ((List.range 8).filter (bitAt e.2)).length).sum
  | _ => 0

/-- MATRIX_COMMAND_EXECUTE (R297): the next A row of an MMA enters when it is due, and the engine handles the cells of a command that `sel`
picks, in their turn; the command ends with its last cell. -/
def execMatrixCommandExecute (cmd : Nat) (sel : MxSel) (s : State) : Result :=
  .next (match s.mxq.find? fun c => c.id == cmd with
  | none => s
  | some c =>
    let prev := s.before c
    match c.instr with
    | .oprdy .. => s.stepOprdy prev c
    | i =>
      if match c.tileRead with | some t => readsHeld prev c t | none => false then s
      else
        let all := c.cells
        let cells := if sel.cells.isEmpty then all else sel.cells.filter fun k => all.contains k
        let (s, d) := cells.foldl (fun (acc : State × MCmd) k => acc.1.mxCell prev sel.steps acc.2 k) (s, s.injectRow c)
        let s := match i with
          | .mma .. =>
            let n := d.stepsDone - c.stepsDone
            let ctx := s.teamCtx c.team
            if n = 0 then s
            else (s.pmc ctx 5 n).modCluster (cluOf c.core) fun k => { k with ran := if k.ran.contains c.core then k.ran else c.core :: k.ran }
          | _ => s
        let keep : State := { s with mxq := s.mxq.map fun x => if x.id = cmd then d else x }
        match i with
        | .mread _ fmt f32 (.t _) _ _ =>
          if d.cells.all (fun k => (tfind d.got k).isSome) && !s.acqBlocked c.wid c.seq
          then (s.mxImage d (imageWidth fmt f32)).endMx d else keep
        | _ => if d.cells.all d.did then s.endMx d else keep)

end Sys2Proof.Machine
end

