-- ==== Sys2Proof/Machine/Integrity.lean ====
section
/-! DEFINITION. What follows a sector that fails its check (R47, R182), and the self-tests of storage with their retirements
(R322, R323). -/

namespace Sys2Proof.Machine

/-- The cause of a failed check (R47, R182). -/
def integCause (c : IntegCheck) : BitVec 7 :=
  match c with
  | .tag => 0x40
  | .node => 0x42
  | .expander => 0x77

/-- The cause of a store of part of a sector whose sector fails its check (R47, R182). -/
def integStore (c : IntegCheck) : BitVec 7 :=
  match c with
  | .tag | .node => 0x41
  | .expander => 0x77

/-- Whether a piece waits for a sector: at memory, or, not parked, for the translation of its virtual sector. -/
def Wave.awaits (w : Wave) (req : Nat) (p : Piece) (sector : Nat) : Bool :=
  match p.st, p.loc with
  | .ready, .mem pa _ => pa / 32 == sector
  | .untranslated, .va a => a.toNat / 32 == sector && !w.parkedLane req p.lane
  | _, _ => false

/-- The last table entry that the walk of a virtual address reads (R146). -/
def State.lastEntry (s : State) (ctx : Nat) (va : DWord) : Option Nat := (s.walkReads ctx va 3 (s.ctx ctx).ptroot.toNat).getLast?

/-- Where a virtual address of a context lies, through its tables. -/
def State.vaPlace (s : State) (ctx : Nat) (va : DWord) (acc : Acc) : Option Nat :=
  match s.walk ctx va acc with | .ok (_, t) => some (t.pa va) | .error _ => none

/-- The context on whose behalf a sector is read. -/
def State.readerOf (s : State) : IntegTarget → Nat
  | .load wid _ _ | .atomic wid _ _ | .store wid _ | .fetch wid _ => match tfind s.waves wid with | some w => w.ctx | none => 0
  | .copy team _ _ => s.teamCtx team
  | .post item => match s.homeq.find? fun h => h.id == item with | some h => h.ctx | none => 0
  | .forest op _ => match (s.forestq.find? fun x => x.id == op).bind fun x => tfind s.waves x.wid with | some w => w.ctx | none => 0
  | .graph ctx => ctx
  | .patch launch => match tfind s.launches launch with | some l => l.ctx | none => 0
  | .other addr => s.ownerCtx addr

/-- The sector of a message to a home that is read at memory now. -/
def State.postSite (s : State) (it : HomeItem) : Option Nat :=
  match it.kind with
  | .store _ _ _ _ true pa _ => some pa
  | .atom .. => match s.atomAt it with | some (.ok (pa, _)) => some pa | _ => none
  | _ => match s.loadParts it with | some (.ok ps) => ps.head?.map (·.2.1) | _ => none

/-- The physical address of the sector that an access reads and checks, where it has one (R47): for a lane that is still to be translated
it is the last table entry of its walk. -/
def State.readSite (s : State) (target : IntegTarget) : Option Nat :=
  match target with
  | .load wid req sector | .atomic wid req sector =>
    (tfind s.waves wid).bind fun w => (w.req req).bind fun r => (r.pieces.find? fun p => w.awaits req p sector).bind fun p =>
      match p.loc with
      | .mem pa _ => some pa
      | _ => s.lastEntry w.ctx p.va
  | .copy team cmd sector =>
    (tfind s.teams team).bind fun t => (s.gridOf team).bind fun g => (t.active.find? fun a => a.id == cmd && a.left.contains sector).bind fun a =>
      match s.copyPlace g t a.cmd a.move true (32 * sector) with
      | .ok (.mem pa _) => some pa
      | _ => none
  | .post item => (s.homeq.find? fun h => h.id == item).bind s.postSite
  | .store wid entry => (tfind s.waves wid).bind fun w => (w.sb.find? fun e => e.id == entry).map fun e => e.sector * 32
  | .fetch wid split => (tfind s.waves wid).bind fun w => s.vaPlace w.ctx (w.split split).pc .fetch
  | .forest op sector => if s.forestq.any fun x => x.id == op then some (sector * 32) else none
  | .graph ctx => (s.ctx ctx).gcmd.bind fun c => if c.load then s.vaPlace ctx c.addr .read else none
  | .patch launch => (tfind s.launches launch).bind fun l =>
      if s.mayForm launch l && decide (l.patch ≠ 0xFFFFFF) then s.vaPlace l.ctx ((s.ctx l.ctx).patchbase + BitVec.ofNat 64 (64 * l.patch)) .read else none
  | .other addr => some addr

/-- Whether a check of a placed sector can fail: the tag of a sector that reads as zeros is not checked, only an expander returns poison of
its own, and a peer checks its own memory (R46, R47, R182). -/
def State.canFail (s : State) (pa : Nat) (c : IntegCheck) : Bool :=
  !s.isPeer pa && match c with
    | .tag => !s.phys.zero (s.cell pa / 32)
    | .node => (tierOf pa).isSome
    | .expander => tierOf pa == some 2

/-- The pieces of a request that wait for a sector meet a failure: a store is dropped there, any other access parks (R47). A failed check
of a table is cause 0x42 (R148). -/
def State.failPieces (s : State) (wid req sector : Nat) (c : IntegCheck) : State :=
  match tfind s.waves wid with
  | none => s
  | some w =>
    match w.req req with
    | none => s
    | some r =>
      let mine := fun p : Piece => w.awaits req p sector
      match (r.pieces.filter mine).head? with
      | none => s
      | some p0 =>
        let stored := performsAtOwner r.instr && (atomOf r.instr).isNone && p0.st == .ready
        let cause := if p0.st == .untranslated then 0x42 else integCause c
        if !stored then s.parkReq wid r cause p0.va (lanesIn (r.pieces.filter mine))
        else if decide (((r.pieces.filter mine).map (·.len)).sum ≥ 32) then s
        else (s.dropStore wid (integStore c) (lanesIn (r.pieces.filter mine)) r.pc p0.va).advance wid (r.mapPieces mine fun p => { p with st := .done })

/-- The covered bytes of a buffered store meet a failure: a part of a sector is dropped, a whole sector is not checked (R47). -/
def State.failStore (s : State) (wid entry : Nat) (c : IntegCheck) : State :=
  match tfind s.waves wid with
  | none => s
  | some w =>
    match w.sb.find? fun e => e.id == entry with
    | none => s
    | some e =>
      let (go, stay) := s.coveredBytes wid w e
      if go.isEmpty ∨ (SEntry.cells go).length = 32 then s
      else ((s.dropStore wid (integStore c) (byteLanes go) e.pc e.va).modWave wid fun w => w.keepBytes entry stay).retryStores (wCore wid)

/-- A home's operation meets a failure: its slot is poisoned, a posted store or atomic is dropped (R47, R112). -/
def State.failPost (s : State) (item : Nat) (c : IntegCheck) : State :=
  match s.homeq.find? fun h => h.id == item with
  | none => s
  | some it =>
    let bad := HSrc.bad false none (integCause c)
    match it.kind with
    | .load .. | .fill .. => s.finishItem it bad
    | .store a _ _ raw true _ _ => if raw.length = 32 then s else s.dropPosted it a.base (.bad false none (integStore c))
    | .atom a .. => s.dropPosted it a.base bad
    | _ => s

/-- What a check that has failed twice does to its access (R47). -/
def State.failAccess (s : State) (target : IntegTarget) (check : IntegCheck) : State :=
  match target with
  | .load wid req sector | .atomic wid req sector => s.failPieces wid req sector check
  | .copy team cmd sector =>
    match (tfind s.teams team).bind fun t => t.active.find? fun a => a.id == cmd with
    | some a => (s.copyFail team cmd (integCause check).toNat (copyVa a.cmd true (32 * sector)).toNat).endOver
    | none => s
  | .post item => s.failPost item check
  | .store wid entry => s.failStore wid entry check
  | .fetch wid split =>
    match tfind s.waves wid with
    | some w =>
      let sp := w.split split
      if w.stat = .ready ∧ sp.live then s.parkAt wid (integCause check) split sp.pc sp.mask sp.pc none 0 else s
    | none => s
  | .forest op sector =>
    { s with forestq := s.forestq.map fun x => if x.id = op then { x with bad := x.bad ++ [(sector, integCause check)] } else x }
  | .graph ctx => s.failLoad ctx
  | .patch launch =>
    match tfind s.launches launch with
    | some l => match tfind s.graphs l.graph with
      | some g => if s.mayForm launch l then s.refusePatch launch l g else s
      | none => s
    | none => s
  | .other _ => s

/-- INTEGRITY_REREAD (R47): a sector that fails its check is read once more; when that read fails too, the access has the outcome
of its kind. A test of the sector's row follows the failure, also one that the second read mends (log 93). -/
def execIntegrityReread (target : IntegTarget) (check : IntegCheck) (again : Bool) (s : State) : Result :=
  .next (match s.readSite target with
  | none => s
  | some pa =>
    let at_ := s.place pa
    if !s.canFail at_ check then s
    else
      let s1 := s.pmc (s.readerOf target) 7 1
      (if again then s1.failAccess target check else s1).startTest (.dram at_) (.integrity (check == .node)))

/-- What spares are counted for: an SRAM macro, or a DRAM bank (R323). -/
def spareKey : TestSite → Nat
  | .dram addr => 6 * 2 ^ 40 + bankKey ((chanOf addr).getD 0) (bankRow addr).1
  | site => macroKey site

/-- Spare rows: 2 per SRAM macro, 8 per DRAM bank (R323). -/
def sparesOf : TestSite → Nat
  | .dram _ => 8
  | _ => 2

/-- The Amber unit class and number of a macro (R321). -/
def amberUnit : TestSite → Nat × Nat
  | .core c _ | .bank c _ => (0, c)
  | .cluster k _ => (1, k)
  | .die _ _ => (7, 0)
  | .home h _ => (2, h)
  | .dram addr => (3, homeOf addr)

/-- The cause of the error that a test follows (R322, R324). -/
def errCause : TestError → BitVec 7
  | .corrected => 0x4A
  | .wave _ => 0x4B
  | .data _ _ => 0x4C
  | .slot _ => 0x40
  | .integrity node => if node then 0x42 else 0x40
  | .home => 0x28

/-- An event that concerns a macro, with the result and the triggering cause (R321). -/
def State.testEvent (s : State) (site : TestSite) (cause : BitVec 7) (lasting : Bool) (err : TestError) : State :=
  s.amberEvent cause.toNat (amberUnit site).1 (amberUnit site).2 ((if lasting then 2 ^ 16 else 0) + (errCause err).toNat * 2 ^ 17)

/-- Data that cannot be corrected reach a request or matrix command of a wave: it traps, precise at the instruction (R324). -/
def State.dataError (s : State) (wid id : Nat) : State :=
  match (tfind s.waves wid).bind fun w => w.req id with
  | some r => ({ s with portq := s.portq.filter fun p => !(p.wid == wid && p.seq == r.seq) } : State).lateTrap wid r 0x4C
  | none => match s.mxq.find? fun c => c.id == id && c.wid == wid with
    | some c => (s.endMx c).raiseTrap wid ⟨0x4C, 0, c.split, c.pc, 0, 0, c.mask, c.word, false⟩
    | none => s

/-- A slot of a home that cannot be corrected is poisoned; no instruction caused it, and its record names cause 0x40
with address 0 (R112, log 160). -/
def State.slotError (s : State) (home idx : Nat) : State :=
  let x := s.slot home idx
  if x.st ≠ .live then s
  else
    let (k, s) := s.newRec home ⟨0, 0x40, x.ctx⟩
    s.modSlot home idx fun x => { x with st := .poisoned, prec := k }

/-- What the error itself does before its test: state of a wave that cannot be corrected leaves the wave unrecovered; data that
cannot be corrected trap at the instruction that reads them; a slot is poisoned (R112, R324). -/
def State.storageError (s : State) (site : TestSite) (err : TestError) : State :=
  match err with
  | .wave wid => ((s.unrecovered wid ⟨0x4B, 0, 0, 0, 0, 0, 0, 0, false⟩ 0)).amberEvent 0x4B (amberUnit site).1 (amberUnit site).2 0
  | .data wid id => (s.dataError wid id).amberEvent 0x4C (amberUnit site).1 (amberUnit site).2 0
  | .slot idx => match site with | .home h _ => s.slotError h idx | _ => s
  | .corrected => s.amberEvent 0x4A (amberUnit site).1 (amberUnit site).2 0
  | .integrity _ | .home => s

/-- The grids of a core that retires: the teams there are pre-empted and return to placement; a cooperative grid with a team there is
pre-empted together, and so is one that its partition can no longer hold (R78, R323). -/
def State.leaveCore (s : State) (core : Nat) : State :=
  s.grids.foldl (fun (s : State) (e : Nat × Grid) =>
    match tfind s.grids e.1 with
    | none => s
    | some g =>
      let here := (s.standingTeams e.1).filter fun t => t.2.core == core
      if !pkCoop g.packet then here.foldl (fun s t => s.stopTeam t.1 none) s
      else if g.stat ≠ .running ∧ g.stat ≠ .admitted ∧ g.stat ≠ .held then s
      else if here.isEmpty || !(s.coopHolds g).2 then s.judgeCoop e.1 g
      else if g.stat = .running then (s.stopGrid e.1).modGrid e.1 fun x => { x with stat := .held }
      else s) s

/-- Retire a core (R323): its waves are halted and their teams return to placement; every context with waves there is told. -/
def State.retireCore (s : State) (core : Nat) : State :=
  let ctxs := ((s.waves.filter fun e => wCore e.1 == core).map fun e => e.2.ctx).eraseDups
  let s1 := ctxs.foldl (fun (s : State) n => s.report n { s.plainRec 0x4E 0 0 with core := core } 0) s
  (s1.modCore core fun c => { c with retired := true }).leaveCore core

/-- The virtual page of a context that a frame holds. -/
def State.pageOfFrame (s : State) (n frame : Nat) : Option (Nat × Tr) :=
  (s.mappedPages n).findSome? fun v => match s.walk n (BitVec.ofNat 64 (v * 65536)) .read with
    | .ok (_, t) => if t.frame = frame then some (v, t) else none
    | .error _ => none

/-- Retire a frame (R323): it never returns to a pool, the failing sector is poisoned, and the owner is told, also where a move
is bringing its page there. -/
def State.retireFrame (s : State) (addr : Nat) : State :=
  let f := addr / 65536
  let s1 : State := (({ s with tests := { s.tests with retired := f :: s.tests.retired } } : State)).markPoison (s.place addr)
  let tell := fun (s : State) (n : Nat) (va : Nat) => s.report n (s.plainRec 0x4F (BitVec.ofNat 64 va) 0) 0
  match s1.grantOf f, s1.pme.moves.find? fun e => e.2.dst == f with
  | some n, _ => match s1.pageOfFrame n f with
    | some (v, _) => tell s1 n (v * 65536)
    | none => tell s1 n 0
  | none, some m => tell s1 m.2.ctx (m.2.vpn * 65536)
  | none, none => s1

/-- A retired frame that still holds a page which is at rest gives it to a pool frame of the same tier, when there is one (R323). -/
def State.leaveFrame (s : State) (f : Nat) : State :=
  match (s.grantOf f).bind fun n => (s.pageOfFrame n f).map fun x => (n, x.1, x.2) with
  | none => s
  | some (n, v, t) =>
    if !s.atRest t then s
    else match s.takeFrame t.tier (s.pme.size t.tier + 1) with
      | (some d, s1) => s1.startMove n v t d t.tier
      | (none, s1) => s1

/-- Every retired frame gives up its page as soon as it can (R323). -/
def State.leaveRetired (s : State) : State := s.tests.retired.foldl State.leaveFrame s

/-- The reports that renewals owe are made: a sector that could not be read was marked poisoned (R45, R163, log 151). -/
def State.reportOwed (s : State) : State :=
  s.phys.owed.foldl (fun (s : State) e =>
    let (n, frame, ps) := e
    let va := match s.pageOfFrame n frame with | some (v, _) => v * 65536 | none => 0
    let first := ps.foldl min (ps.headD 0)
    s.report n (s.plainRec 0x50 (BitVec.ofNat 64 va) (BitVec.ofNat 64 (first + ps.length * 2 ^ 16))) 0)
    { s with phys := { s.phys with owed := [] } }

/-- A lasting error of a macro (R323): a spare row takes its place; with none left, the core, the frame or the home is retired. -/
def State.lastingError (s : State) (site : TestSite) (err : TestError) : State :=
  let used := tget 0 s.tests.spares (spareKey site)
  if used < sparesOf site then
    State.testEvent { s with tests := { s.tests with spares := tput s.tests.spares (spareKey site) (used + 1) } } site 0x4D true err
  else match site with
    | .core c _ | .bank c _ => (s.testEvent site 0x4E true err).retireCore c
    | .dram addr => ((s.testEvent site 0x4F true err).retireFrame addr).leaveFrame (addr / 65536)
    | .home h _ => (s.testEvent site 0x28 true err).modHome h fun x => { x with failed := true }
    | .cluster _ _ | .die _ _ => s.testEvent site (errCause err) true err

/-- A macro's test ends: the error is transient when every pattern passes, and lasting when one fails or when it is the macro's third within
one second (R323). -/
def State.classify (s : State) (site : TestSite) (err : TestError) (fails : Bool) : State :=
  let recent := (tget [] s.tests.times (macroKey site)).filter fun t => decide (s.t7 < t + 7000000000)
  if fails || decide (recent.length ≥ 2) then
    State.lastingError { s with tests := { s.tests with times := tset [] s.tests.times (macroKey site) [] } } site err
  else
    State.testEvent { s with tests := { s.tests with times := tset [] s.tests.times (macroKey site) (s.t7 :: recent) } } site (errCause err) false err

/-- SELF_TEST_COMPLETE (R322, R323): the test that runs on a macro ends with the error that started it. A storage error brings its test with
it in one step (log 93), but an expander repairs its own; one of another kind, found while the macro is under test, has its own effect and starts no second test. -/
def execSelfTestComplete (site : TestSite) (err : TestError) (fails : Bool) (s : State) : Result :=
  .next (match s.testOf site with
  | some (at_, e) =>
    if e = err then State.classify { s with tests := { s.tests with running := s.tests.running.filter fun x => macroKey x.1 != macroKey site } } at_ e fails
    else s.storageError site err
  | none => match err with
    | .integrity _ | .home => s
    | _ => if ownSite site then (s.storageError site err).classify site err fails else s)

/-- HOME_UNIT_FAILURE (R113, R322): the home answers nothing from now on, and its temporary store is tested. -/
def execHomeUnitFailure (home : Nat) (s : State) : Result :=
  .next (if home < 10 then (s.modHome home fun h => { h with failed := true }).startTest (.home home 0) .home else s)

end Sys2Proof.Machine
end

