-- ==== Sys2Proof/Machine/Fetch.lean ====
section
/-! DEFINITION. Fetching and decoding a split's next instruction: checks 1 to 9 of R206. -/

namespace Sys2Proof.Machine

/-- What a fetch comes to: an instruction with its word, a park, a trap, a sector of a peer slot that has not come yet, or a wait for a
controller. -/
inductive Fetched where
  | instr (i : Instr) (word : BitVec 96)
  | park (cause : BitVec 7) (addr : DWord)
  | trap (cause : BitVec 7) (word : BitVec 96)
  | away (pa : Nat)
  /-- its sector, or one that its walk reads, cannot be served yet (R322, R329, R331) -/
  | wait
  deriving DecidableEq, Repr

/-- One word of code for a split: translated for a fetch through the TLBs, under its own page (R148, R153, R190). In a peer slot it
comes by a remote request, which needs a plane (R184). -/
def State.fetchWord (s : State) (core : Nat) (w : Wave) (split : Nat) (a : DWord) : Except Fetched Nat :=
  if !s.tlbHit w.ctx core a && !s.walkServable w.ctx a then .error .wait
  else match s.xlate w.ctx core a .fetch with
  | .error c => .error (.park c a)
  | .ok t =>
    let pa := t.pa a
    if s.isPeer pa then
      match w.code.find? fun e => e.1 == pa / 32 * 4 + split with
      | some e => .ok (leNat ((e.2.drop (pa % 32)).take 4))
      | none => if (s.planes w.ctx).isEmpty then .error (.trap 0x74 0) else .error (.away pa)
    else if !s.canServe (s.place pa) then .error .wait
    else match s.stopAt none w.ctx pa t.key false with
      | some c => .error (.park c a)
      | none => .ok (s.physNat pa 4)

/-- The three words of an instruction, or what the first one that fails comes to (R190, R206). -/
def State.fetchInstr (s : State) (core : Nat) (w : Wave) (split : Nat) (pc : DWord) : Except Fetched (BitVec 96) :=
  match s.fetchWord core w split pc with
  | .error c => .error c
  | .ok w0 =>
    match s.fetchWord core w split (pc + 4) with
    | .error c => .error c
    | .ok w1 =>
      match s.fetchWord core w split (pc + 8) with
      | .error c => .error c
      | .ok w2 => .ok (BitVec.ofNat 96 (w0 + w1 * 2 ^ 32 + w2 * 2 ^ 64))

/-- Checks 1 to 9 of R206 at a split's address. -/
def State.fetched (s : State) (core : Nat) (w : Wave) (split : Nat) : Fetched :=
  let pc := (w.split split).pc
  if pc.extractLsb' 0 2 != 0 then .trap 0x05 0
  else match s.fetchInstr core w split pc with
    | .error f => f
    | .ok word =>
      match decodeWord word with
      | .ok i => .instr i word
      | .error r => .trap r.cause word

/-- The hints of a word, which a trap's lanes depend on (R193, R314). -/
def wordHints (w : BitVec 96) : Hints := (fieldsOf w).h

/-- What fetching one word leaves behind: a miss of the core TLB is served, and a sector that its controller reads is counted (R153,
R158). `first` says that the word begins another sector than the one before it. -/
def State.wordRead (s : State) (core ctx : Nat) (a : DWord) (first : Bool) : State :=
  let t := s.missed ctx core a .fetch
  match s.xlate ctx core a .fetch with
  | .ok x =>
    if !first || s.isPeer (x.pa a) then t
    else match s.stopAt none ctx (x.pa a) x.key false with
      | some c => t.noteStop ctx (x.pa a) c
      | none => t.account ctx (t.place (x.pa a)) t.t7 false
  | .error _ => t

/-- What fetching an instruction leaves behind, as far as it gets. -/
def State.fetching (s : State) (core : Nat) (w : Wave) (split : Nat) : State :=
  let pc := (w.split split).pc
  let next := fun (acc : State × Bool) (k : Nat) =>
    let a := pc + BitVec.ofNat 64 (4 * k)
    if acc.2 then (acc.1.wordRead core w.ctx a (k == 0 || a.toNat % 32 == 0), match s.fetchWord core w split a with | .ok _ => true | .error _ => false)
    else acc
  if pc.extractLsb' 0 2 != 0 then s else ([0, 1, 2].foldl next (s, true)).1

/-- A split that comes to issue: its wave is READY, and it is not held (R83, R91 item 1). -/
def State.comes (s : State) (wid split : Nat) : Option Wave :=
  (tfind s.waves wid).filter fun w =>
    let sp := w.split split
    w.stat == .ready && sp.live && !sp.joinHeld && !sp.trapHeld && sp.waitOn.isNone && !sp.filling && decide (sp.notBefore ≤ s.clk (wCore wid))

/-- Bring a split's next instruction to issue: the instruction with the state it issues in, or the state after a park or a
trap; nothing changes when the split cannot issue. -/
def State.toIssue (s : State) (wid split : Nat) : Except State (Instr × State) :=
  match s.comes wid split with
  | none => .error s
  | some w =>
    if w.trapDue.isSome then .error (s.takeHeld wid)
    else
      let sp := w.split split
      let t := s.fetching (wCore wid) w split
      match s.fetched (wCore wid) w split with
      | .instr i word => .ok (i, { t with cur := (wid, split), iw := word })
      | .away _ | .wait => .error s
      | .park c a => .error (t.parkAt wid c split sp.pc sp.mask a none 0)
      | .trap c word =>
        match s.deferTrap wid split with
        | some t => .error t
        | none => .error (t.takeTrap wid ⟨c, 0, split, sp.pc, 0, 0, w.guardMask s.fresh (wordHints word) sp.mask, word, false⟩)

/-- Whether a split's next word is bound to trap, or its fetch to park or trap: such a word waits for no counter and takes no issue slot
(R206). -/
def State.boundToTrap (s : State) (wid split : Nat) : Bool :=
  match s.comes wid split with
  | none => false
  | some w =>
    match s.fetched (wCore wid) w split with
    | .instr i _ => (notPermitted w i).isSome
    | .park .. | .trap .. => true
    | .away _ | .wait => false

/-- Ask a peer for the sector of code that a split's next instruction lacks (R184). -/
def State.askCode (s : State) (wid split : Nat) : State :=
  match s.comes wid split with
  | none => s
  | some w =>
    match s.fetched (wCore wid) w split with
    | .away pa => s.sendRemote wid w.ctx pa (.fetch wid split)
    | _ => s

end Sys2Proof.Machine
end

