-- ==== Sys2Proof/Machine/IssueClock.lean ====
section
/-! DEFINITION. The partition's clock: fusing splits, choosing tenants and splits for its two issue slots (R87, R91 to R95,
R335, R337, R340); the fill of a reconvergence entry (R90); the writeback of fixed-latency results (R92, R250). -/

namespace Sys2Proof.Machine

/-- A split that may be chosen for an issue slot. `res` are the resources that it takes: slices 0 to 7, the scalar unit 8, the
memory port 9, the command port 10, the branch unit 11. -/
structure Cand where
  wid   : Nat
  split : Nat
  pos   : Nat
  prio  : Nat
  res   : List Nat
  deriving DecidableEq, Repr

/-- The resources of an instruction (R93, R251, R291, R302, R304). -/
def Iss.resources (q : Iss) (i : Instr) : List Nat :=
  match i, i.fields with
  | .sld .., _ | .sst .., _ => [9]
  | .vread .., _ | .vwrite .., _ => q.slices i
  | i, some f =>
    let op := f.op.toNat
    if op < 0x040 then [11]
    else if op < 0x0C0 ∨ (0x100 ≤ op ∧ op < 0x140) then q.slices i
    else if op < 0x100 then [8]
    else if op < 0x1C0 then [9]
    else [10]
  | _, none => []

/-- The island of a core. -/
def State.island (s : State) (core : Nat) : Island := tget Island.init (s.cluster (cluOf core)).islands (core % 8 / 2)

/-- Whether a slice cannot accept a vector instruction in this clock (R335). -/
def State.sliceBusy (s : State) (core part j : Nat) : Bool :=
  (s.island core).mode != 0 && tget 0 (s.core core).slices (part * 8 + j) + 1 == s.clk core

/-- The lanes of a comparison whose operands a home compares (R107). -/
def Iss.crosses (q : Iss) (i : Instr) : Bool :=
  match i with
  | .isetp _ _ _ _ a b | .fsetp _ _ _ a b => q.lanes.any fun l => (q.src a l).tag || (q.srcB b l).tag
  | _ => false

/-- The operands of an instruction whose tagged lanes take slots, by lane (R103). -/
def Iss.trio (q : Iss) (i : Instr) (l : Nat) : Option (Opd × List Lane) :=
  match i with
  | .fadd _ _ d a b | .fsub _ _ d a b | .fmul _ _ d a b | .iadd _ _ d a b | .isub _ _ d a b | .imin _ _ d a b | .imax _ _ d a b
  | .sel _ _ _ d a b => some (d, [q.src a l, q.srcB b l])
  | .fmin _ d a b | .fmax _ d a b | .imul _ d a b | .and _ d a b | .or _ d a b | .xor _ d a b | .shl _ d a b | .shr _ d a b
  | .sar _ d a b => some (d, [q.src a l, q.srcB b l])
  | .ffma _ _ d a b c => some (d, [q.src a l, q.srcB b l, q.src c l])
  | .imad _ d a b c => some (d, [q.src a l, q.srcB b l, q.src c l])
  | .atom _ op false d _ m => if memNr m then none else some (d, q.index m l :: q.dataWords d (atomRegs op false) l)
  | _ => none

/-- The slots that an instruction takes, each a lane and a home (R102, R103, R273). -/
def Iss.takes (q : Iss) (i : Instr) : List (Nat × Nat) :=
  q.lanes.filterMap fun l => match q.trio i l with
    | some (d, xs) => if (vDest d).isSome && xs.any (·.tag) then some (l, homeOfLane xs) else none
    | none => none

/-- Whether an instruction is a crossing, or becomes one as it is demoted, and k8 or its signal counter has no room for it (R91 item 5, R107,
R111). -/
def State.lacksRoom (s : State) (q : Iss) (i : Instr) (h : Hints) : Bool :=
  !q.room (countersOf [8] h) && (q.crosses i || (q.grid.eff.demote && match s.judgeSlots q (q.takes i) with | .out _ => true | _ => false))

/-- A split as a candidate for issue: items 1 to 5 of R91 hold for its next instruction, which passes checks 1 to 10 of R206. One that will
trap at issue by check 11 is eligible. -/
def State.candidate (s : State) (wid split : Nat) : Option Cand :=
  match s.comes wid split with
  | none => none
  | some w =>
    let core := wCore wid
    let prio := match s.gridOf w.team with | some g => g.eff.prio | none => 0
    if (w.split split).prev = some (s.clk core) then none
    else match s.fetched core w split with
      | .instr i word =>
        match ({ s with cur := (wid, split), iw := word } : State).sight i (wordHints word) with
        | none => none
        | some q =>
          let res := q.resources i
          if (res.any fun j => decide (j < 8) && s.sliceBusy core (wPart wid) j) then none
          else if (notPermitted w i).isSome || heldBack s q i (wordHints word) || s.lacksRoom q i (wordHints word) then none
          else some ⟨wid, split, (w.xreg 11).toNat % 4, prio, res⟩
      | _ => none

/-- The waves of a partition that are in their slots. -/
def State.partWaves (s : State) (core part : Nat) : List Nat :=
  ((List.range 16).map fun k => widOf core (part * 16 + k)).filter fun wid => (tfind s.waves wid).isSome

/-- Every candidate of a partition, in the order of wave slot and split. -/
def State.candidates (s : State) (core part : Nat) : List Cand :=
  (s.partWaves core part).flatMap fun wid => (List.range 4).filterMap fun k => s.candidate wid k

/-- The weight of a tenant on a core: the largest among its waves there (R94). -/
def State.weightOf (s : State) (core pos : Nat) : Nat :=
  ((s.waves.filter fun e => wCore e.1 == core && (e.2.xreg 11).toNat % 4 == pos).map fun e =>
    match s.gridOf e.2.team with | some g => g.eff.weight | none => 0).foldl max 0

/-- The cores on which the floor of a block is active: the first FCORES on which its grids hold waves, in the order in which
its teams were placed (R340). -/
def State.floorCores (s : State) (ctx : Nat) (blk : DWord) : List Nat :=
  let mine := s.teams.filter fun t => t.2.resident && match s.gridOf t.1 with
    | some g => g.ctx == ctx && g.eff.floorOf == some blk && (s.teamWaves t.1).any fun w =>
        match tfind s.waves w with | some x => x.stat != .exited | none => false
    | none => false
  let n := match (mine.head?.bind fun t => s.gridOf t.1) with | some g => g.eff.fcores | none => 0
  ((mine.map fun t => t.2.core).eraseDups).take n

/-- FSLOT that stands for a tenant position on a core: the floors of its context that are active there (R340). -/
def State.floorOf (s : State) (core pos : Nat) : Nat :=
  match tfind (s.core core).tenants pos with
  | none => 0
  | some ctx =>
    let here := (s.teams.filter fun t => t.2.core == core && t.2.resident && s.teamCtx t.1 == ctx).filterMap fun t => s.gridOf t.1
    let blks := (here.filterMap fun g => g.eff.floorOf).eraseDups
    (blks.map fun b => if (s.floorCores ctx b).contains core then
        (match here.find? fun g => g.eff.floorOf == some b with | some g => g.eff.fslot | none => 0) else 0).sum

/-- The tenant with a floor share that is chosen first, if there is one; between equal shares the lower position (R340). `before` are
the tenants that have been chosen already in this clock. -/
def State.floorPick (s : State) (core part : Nat) (before elig : List Nat) : Option Nat :=
  let hist := (before ++ tget [] (s.core core).hist part).take 256
  let share := fun p => (hist.filter (· == p)).length
  ((List.range 4).filter fun p => elig.contains p && decide (share p * 16 < s.floorOf core p * hist.length)).foldl (fun (m : Option Nat) p => match m with
    | none => some p
    | some k => if share p < share k then some p else some k) none

/-- The tenant that the deficit counters choose, with the counters after it (R94). -/
def deficitPick (deficit : Nat → Nat) (weight : Nat → Nat) (last : Nat) (elig : List Nat) : Option (Nat × (Nat → Nat)) :=
  let d := if elig.any fun t => decide (deficit t > 0) then deficit
    else fun t => if elig.contains t then deficit t + weight t else deficit t
  let order := ((List.range 4).map fun k => (last + 1 + k) % 4).filter fun t => elig.contains t
  match order.foldl (fun (m : Option Nat) t => match m with
      | none => some t
      | some k => if d t > d k then some t else some k) none with
  | none => none
  | some t => some (t, fun k => if k = t then d k - 1 else d k)

/-- The split of a tenant that is taken (R95, R222). -/
def splitPick (last : Nat) (yielded : Nat → Bool) (cs : List Cand) : Option Cand :=
  let key := fun c : Cand => wSlot c.wid * 4 + c.split
  let rank := fun c : Cand =>
    (if yielded (key c) then 2 ^ 20 else 0) + (15 - c.prio) * 2 ^ 10 + (key c + 384 - last - 1) % 384
  cs.foldl (fun (m : Option Cand) c => match m with
    | none => some c
    | some k => if rank c < rank k then some c else some k) none

/-- Choose for one slot among candidates: the split, and the core after the choice (R94, R95, R340). A tenant that its floor
chooses is not the last one chosen for the tie of deficits (log 165). -/
def State.chooseSlot (s : State) (core part : Nat) (before : List Nat) (cs : List Cand) : Option (Cand × State) :=
  let k := s.core core
  let elig := (cs.map (·.pos)).eraseDups
  let take := fun (pos : Nat) (k : Core) =>
    let at_ := part * 4 + pos
    let ys := k.yielded.filter fun y => y.2 == at_
    (splitPick (tget 0 k.lastSplit at_) (fun key => ys.any fun y => y.1 == key) (cs.filter fun c => c.pos == pos)).map fun c =>
      (c, s.setCore core { k with yielded := k.yielded.filter fun y => y.2 != at_ })
  match s.floorPick core part before elig with
  | some pos => take pos k
  | none =>
    match deficitPick (fun t => tget 0 k.deficit (part * 4 + t)) (s.weightOf core) (tget 0 k.lastTenant part) elig with
    | none => none
    | some (pos, d) =>
      take pos { k with lastTenant := tset 0 k.lastTenant part pos,
                        deficit := (List.range 4).foldl (fun t j => tset 0 t (part * 4 + j) (d j)) k.deficit }

/-- Fuse the splits of a wave whose program counters are equal, none of them held (R87). -/
def State.fuseWave (s : State) (wid : Nat) : State :=
  [(0, 1), (0, 2), (0, 3), (1, 2), (1, 3), (2, 3)].foldl (fun (s : State) (e : Nat × Nat) =>
    match tfind s.waves wid with
    | none => s
    | some w =>
      let a := w.split e.1
      let b := w.split e.2
      let idle := fun x : Split => x.live && !x.joinHeld && !x.trapHeld && x.waitOn.isNone
      if w.stat = .ready ∧ idle a ∧ idle b ∧ a.pc = b.pc then s.fuse wid e.1 e.2 a.pc else s) s

/-- A matrix instruction that comes to issue claims an engine that stands LAZY for another team: it goes to SAVING for the context of
that instruction's team (R57, R289). -/
def State.claimEngine (s : State) (wid split : Nat) : State :=
  match s.comes wid split with
  | none => s
  | some w =>
    let core := wCore wid
    match s.fetched core w split, (s.core core).mx.owner with
    | .instr i _, some o =>
      if isMatrix i && o != w.team && s.saveFits w.ctx mxSaveBytes then
        { s with lazies := s.lazies.map fun u =>
            if u.kind = .engine core ∧ u.st = .lazy then { u with st := .saving, claim := some w.ctx } else u }
      else s
    | _, _ => s

/-- What a wave does at the start of a clock: a held trap is taken (R316), its splits fuse (R87), code in a peer slot is asked for (R184), a
LAZY engine is claimed. -/
def State.startWave (s : State) (wid : Nat) : State :=
  (List.range 4).foldl (fun s k => (s.askCode wid k).claimEngine wid k) ((s.takeHeld wid).fuseWave wid)

/-- What a partition does at the start of a clock. -/
def State.startClock (s : State) (core part : Nat) : State := (s.partWaves core part).foldl State.startWave s

/-- The splits of a partition whose next words are bound to trap (R206). -/
def State.trapping (s : State) (core part : Nat) : List Task :=
  (s.partWaves core part).flatMap fun wid => ((List.range 4).filter (s.boundToTrap wid)).map (Task.issue wid)

/-- The splits that a partition chooses for its two slots, in order; during the halving that follows a droop only slot 0 issues (R93, R94,
R337). -/
def State.chooseSlots (s : State) (core part : Nat) : List Task × State :=
  let cs := s.candidates core part
  match s.chooseSlot core part [] cs with
  | none => ([], s)
  | some (c0, s1) =>
    let beside := cs.filter fun c => !(c.wid == c0.wid && c.split == c0.split) && !c.res.any fun r => c0.res.contains r
    match (if (s.cluster (cluOf core)).halving > 0 then none else s1.chooseSlot core part [c0.pos] beside) with
    | none => ([.issue c0.wid c0.split], s1)
    | some (c1, s2) => ([.issue c0.wid c0.split, .issue c1.wid c1.split], s2)

/-- PARTITION_ISSUE_CLOCK (R94): the partition chooses from the state in which the clock finds it; what it has chosen stands at issue behind the
choices of the other partitions, in the order of partitions and slots (R124). -/
def execPartitionIssueClock (core part : Nat) (s : State) : Result :=
  let s := s.startClock core part
  let (chosen, s1) := s.chooseSlots core part
  .next { s1 with agenda := s1.agenda ++ s.trapping core part ++ chosen }

/-- The lanes that wait in a stack entry (R90). -/
def REntry.lanes (e : REntry) : Word := if e.started then e.held else e.mask

/-- Whether a filled entry is corrupt (R90). -/
def entryCorrupt (w : Wave) (others : List REntry) (e : REntry × Bool) : Bool :=
  !e.2 || !(w.split e.1.split).live || e.1.resume.extractLsb' 0 2 != 0 || e.1.join.extractLsb' 0 2 != 0
    || w.liveSplits.any (fun i => (w.split i).mask &&& e.1.lanes != 0)
    || others.any fun o => o.lanes &&& e.1.lanes != 0

/-- RECONVERGENCE_FILL (R90): the newest spilled entry is read back and checked; the split then issues its JOIN or EXIT again. With
nothing left in the area it issues it at once. -/
def execReconvergenceFill (wid split : Nat) (s : State) : Result :=
  .next (match tfind s.waves wid with
  | none => s
  | some w =>
    let sp := w.split split
    let score := match s.gridOf w.team with | some g => g.score | none => 0
    let free := s.modWave wid fun w => w.modSplit split fun p => { p with filling := false }
    if !sp.filling ∨ s.clk (wCore wid) < sp.notBefore then s
    else if w.spilled = 0 then free
    else
      let at_ := fun k => entryOf (s.spRead 0 (wCore wid) (spillOff w score k) 32)
      let e := at_ (w.spilled - 1)
      let others := w.stack ++ (List.range (w.spilled - 1)).map fun k => (at_ k).1
      if entryCorrupt w others e then
        let word := match s.fetched (wCore wid) w split with | .instr _ x => x | _ => 0
        free.raiseTrap wid ⟨0x0C, 0, split, sp.pc, 0, 0, w.guardMask s.fresh (wordHints word) sp.mask, word, false⟩
      else free.modWave wid fun w => { w with stack := w.stack ++ [e.1], spilled := w.spilled - 1 })

/-- The first result of a wave that is due: the one with the earliest clock. -/
def Wave.firstDue (w : Wave) : Option Writeback :=
  w.pend.foldl (fun (m : Option Writeback) p => match m with
    | none => some p
    | some k => if p.due < k.due then some p else some k) none

/-- Write a result: its targets, its flags, its counters (R92, R192, R250). -/
def Wave.writeback (w : Wave) (clk : Nat) (p : Writeback) : Wave :=
  let w := { w with pend := w.pend.filter fun x => x.id != p.id }
  let w := ((p.writes.foldl (fun w e => w.store e.1 e.2) w).orFlags p.flags).fall p.cnt
  { w with raised := if w.raisedAt = clk then w.raised ||| p.flags else p.flags, raisedAt := clk }

/-- RESULT_WRITEBACK (R92): a result whose latency has passed is written. -/
def execResultWriteback (wid wb : Nat) (s : State) : Result :=
  .next (match tfind s.waves wid with
  | none => s
  | some w =>
    match w.pend.find? fun p => p.id == wb, w.firstDue with
    | some p, some f =>
      if p.due ≤ s.clk (wCore wid) ∧ p.due ≤ f.due then s.setWave wid (w.writeback (s.clk (wCore wid)) p) else s
    | _, _ => s)

end Sys2Proof.Machine
end

