-- ==== Sys2Proof/Machine/LaneNet.lean ====
section
/-! DEFINITION. The lane network: the Benes network and its three instructions (R257 to R261). -/

namespace Sys2Proof.Machine

/-- The bit that stage s exchanges (R258). -/
def stageBit (s : Nat) : Nat := if s ≤ 4 then 4 - s else s - 4

/-- The switch of stage s that a position meets (R258). -/
def switchOf (s x : Nat) : Nat :=
  let b := stageBit s
  x / 2 ^ (b + 1) * 2 ^ b + x % 2 ^ b

/-- One stage of the network on what stands at the 32 positions (R258). -/
def stageStep (q : BitVec 144) (s : Nat) (xs : List Nat) : List Nat :=
  let b := stageBit s
  (List.range 32).map fun x =>
    if q.getLsbD (16 * s + switchOf s x) then
      (if x / 2 ^ b % 2 = 0 then xs.getD (x + 2 ^ b) 0 else xs.getD (x - 2 ^ b) 0)
    else xs.getD x 0

/-- The permutation of a setting: for each destination its source lane (R258). -/
def permOf (q : BitVec 144) : List Nat := (List.range 9).foldl (fun xs s => stageStep q s xs) (List.range 32)

/-- Walk one loop of the network: destination j is carried by half 0, its partner by half 1, and so on along the loop. `col`
gives each destination 1 plus its half, 0 while it has none. -/
def walkLoop (h : Nat) (p : List Nat) : Nat → Nat → Tab Nat → Tab Nat
  | 0, _, col => col
  | n + 1, j, col =>
    let other := if j < h then j + h else j - h
    let col := tset 0 (tset 0 col j 1) other 2
    let i := p.getD other 0
    let mate := if i < h then i + h else i - h
    let next := (p.idxOf? mate).getD 0
    if tget 0 col next = 0 then walkLoop h p n next col else col

/-- Which half carries each destination. -/
def halves (h : Nat) (p : List Nat) : Tab Nat :=
  (List.range (2 * h)).foldl (fun col j => if tget 0 col j = 0 then walkLoop h p (2 * h) j col else col) []

/-- A setting, as a number, of the part of the network that permutes the 2 ^ (d + 1) positions from `base` (R258, R259). -/
def setPart : Nat → Nat → List Nat → Nat
  | 0, base, p => if p.getD 0 0 = 1 then 2 ^ (16 * 4 + switchOf 4 base) else 0
  | d + 1, base, p =>
    let h := 2 ^ (d + 1)
    let col := halves h p
    let low := fun j => tget 0 col j == 2
    let sIn := 4 - (d + 1)
    let sOut := 4 + (d + 1)
    let bits := (List.range h).foldl (fun n k =>
      let n := if low ((p.idxOf? k).getD 0) then n + 2 ^ (16 * sIn + switchOf sIn (base + k)) else n
      if low k then n + 2 ^ (16 * sOut + switchOf sOut (base + k)) else n) 0
    let sub := fun (wantLow : Bool) => (List.range h).map fun k => p.getD (if low k = wantLow then k else k + h) 0 % h
    bits + setPart d base (sub false) + setPart d (base + h) (sub true)

/-- Whether 32 sources are a permutation. -/
def isPerm (p : List Nat) : Bool := (List.range 32).all fun i => p.contains i

/-- PSET's effect (R259). -/
def psetBody (raw : Bool) (d a : Opd) (q : Iss) (s : State) : Res :=
  let read := if raw then List.range 5 else lanes
  if read.any fun l => (q.src a l).tag then .bad 0x20
  else
    let p := lanes.map fun l => (q.src a l).w.toNat % 32
    let x := if raw then (List.range 5).foldl (fun n l => n + (q.src a l).w.toNat * 2 ^ (32 * l)) 0 % 2 ^ 144
      else setPart 4 0 p
    if !raw && !isPerm p then .bad 0x10
    else .done (s.writeLater q 6 (match d with | .q i => [(.q i.toNat, x)] | _ => []) 0 q.cnt)

/-- PSET (R259). -/
def execPset (h : Hints) (raw : Bool) (d a : Opd) (s : State) : Result := runInstr (.pset h raw d a) h (psetBody raw d a) s

/-- Write to each participant lane of D a lane of A (R260, R261). -/
def routeLanes (d a : Opd) (from_ : Nat → Nat) (q : Iss) (s : State) : Res :=
  let ls := q.lanes
  if ls.any fun l => (q.src a (from_ l)).tag then .bad 0x20
  else match d with
    | .v r =>
      .done ((s.writeLater q 6 (ls.map fun l => (.v r.toNat l, (q.src a (from_ l)).w.toNat)) 0 q.cnt).dropOld q [r.toNat] ls)
    | _ => .done (s.writeLater q 6 [] 0 q.cnt)

/-- PERM's effect (R260). -/
def permBody (d a b : Opd) (q : Iss) (s : State) : Res :=
  let cfg := match b with | .q i => BitVec.ofNat 144 (q.w.seen q.fresh (.q i.toNat)) | _ => 0
  let p := permOf cfg
  routeLanes d a (fun l => p.getD l 0) q s

/-- PERM (R260). -/
def execPerm (h : Hints) (d a b : Opd) (s : State) : Result := runInstr (.perm h d a b) h (permBody d a b) s

/-- BCAST (R261). -/
def execBcast (h : Hints) (d a : Opd) (b : SrcB) (s : State) : Result :=
  runInstr (.bcast h d a b) h (fun q s => routeLanes d a (fun _ => (q.uniB b).toNat % 32) q s) s

end Sys2Proof.Machine
end

