-- ==== Sys2Proof/Machine/Link.lean ====
section
/-! DEFINITION. The ports (R178, R179), remote requests with their replies (R184 to R186), requests that arrive from the fabric and
from the host (R180, R183, R184). -/

namespace Sys2Proof.Machine

/-- Change a port. -/
def State.modPort (s : State) (p : Nat) (f : Port → Port) : State := s.setPort p (f (s.port p))

/-- Whether a request reads or writes sectors of peer slots by itself. -/
def goesOut (i : Instr) : Bool := isSectorLoad i || performsAtOwner i

/-- Whether a piece of a request may be sent to its peer now: nothing of its wave before it is still to be performed at its sector, and
none is under way there (R184, R186, R265 to R267). -/
def State.maySend (s : State) (wid : Nat) (w : Wave) (r : Req) (p : Piece) : Bool :=
  match p.st, p.loc with
  | .ready, .mem pa _ =>
    s.isPeer pa && goesOut r.instr && !s.acqBlocked wid r.seq && !(performsAtOwner r.instr && s.relBlocked wid r.seq)
      && !s.earlier w (laneSeq r.seq p.lane) (pa / 32) && !s.postedBefore wid (laneSeq r.seq p.lane) (pa / 32)
      && !(performsAtOwner r.instr && s.queuedBefore wid (laneSeq r.seq p.lane) (pa / 32) (bytesAt pa p.len)) && !s.peerHeld wid (pa / 32) && (s.planeFor w.ctx pa).isSome
  | _, _ => false

/-- Send a piece that lies in a peer slot and may go. An atomic that meets a buffered store of its wave first acts as a PUB.sys; an access
that has come after its window's close point parks (R54, R184, R274). -/
def State.sendPiece (s : State) (wid : Nat) (w : Wave) (r : Req) (k : Nat) (p : Piece) : State :=
  match p.loc with
  | .mem pa key =>
    let atom := (atomOf r.instr).isSome
    if !s.maySend wid w r p then s
    else match s.stopAt none w.ctx pa key (performsAtOwner r.instr) with
      | some c => (s.noteStop w.ctx pa c).parkReq wid r c p.va (laneBit p.lane)
      | none =>
        if atom && s.bufferedBefore w (laneSeq r.seq p.lane) (pa / 32) then s.addRel wid .sys r.seq [] .nothing r.split r.pc r.word r.mask
        else
          let q : Req := { r with pieces := r.pieces.set k { p with st := .remote } }
          (s.modWave wid fun w => w.setReq q).sendRemote wid w.ctx pa (.piece wid r.id k)
  | _ => s

/-- Send the pieces of a wave's requests that lie in peer slots and may go (R184). -/
def State.sendPeers (s : State) (wid : Nat) : State :=
  match tfind s.waves wid with
  | none => s
  | some w =>
    w.reqs.foldl (fun (s : State) r =>
      (List.range r.pieces.length).foldl (fun (s : State) k =>
        match (tfind s.waves wid).bind fun w => (w.req r.id).bind fun r => (r.pieces[k]?).map fun p => (w, r, p) with
        | none => s
        | some (w, r, p) => s.sendPiece wid w r k p) s) s

/-- Finish one remote piece. -/
def State.pieceDone (s : State) (wid : Nat) (r : Req) (k : Nat) : State :=
  match r.pieces[k]? with
  | some p => s.advance wid { r with pieces := r.pieces.set k { p with st := .done } }
  | none => s

/-- A release of the wave carries a dropped store or atomic: the first one behind it under way, or else the next one (R185). -/
def State.dropRemote (s : State) (wid seq : Nat) (cause : BitVec 7) : State :=
  s.modWave wid fun w =>
    match w.rels.find? fun r => seq < r.seq with
    | some x => { w with rels := w.rels.map fun r => if r.id = x.id ∧ r.drop.isNone then { r with drop := some cause } else r }
    | none => { w with lost := some (w.lost.getD cause) }

/-- The generation tag of a wave's slot advances when a remote request of the wave ends in a fault: a late reply is dropped (R96, R185). -/
def State.raiseTag (s : State) (wid : Nat) : State := if (tfind s.waves wid).isSome then s.nextGen wid else s

/-- A remote access that returns a value fails: the wave parks at its instruction with the lanes not finished, and traps once its record is
written; while the wave is parked already, the lanes wait, and it parks for them after its replay (R185, R316, R319). -/
def State.failPiece (s : State) (wid : Nat) (r : Req) (p : Piece) (cause : BitVec 7) : State :=
  ((s.parkReq wid r cause p.va r.unfinished).raiseTag wid).deliverRemote wid

/-- A remote request fails with a cause (R185). -/
def State.failRemote (s : State) (x : Remote) (cause : BitVec 7) : State :=
  match x.what with
  | .dropped => s
  | .piece wid id k =>
    match (tfind s.waves wid).bind fun w => w.req id with
    | none => s
    | some r =>
      match r.pieces[k]? with
      | none => s
      | some p =>
        let returns := match atomOf r.instr with | some (_, _, nr) => !nr | none => !performsAtOwner r.instr
        if !returns then ((s.dropRemote wid r.seq cause).pieceDone wid r k).raiseTag wid
        else
          let r1 : Req := { r with pieces := r.pieces.set k { p with st := .untranslated, loc := .va p.va } }
          (s.modWave wid fun v => v.setReq r1).failPiece wid r1 p cause
  | .store wid _ rel =>
    match tfind s.waves wid with
    | none => s
    | some w =>
      let t := if w.rels.any fun r => r.id == rel.id then
          s.setWave wid { w with rels := w.rels.map fun r => if r.id = rel.id ∧ r.drop.isNone then { r with drop := some cause } else r }
        else s.releaseTrap wid w rel cause
      t.raiseTag wid
  | .copy team cmd sector data =>
    match (tfind s.teams team).bind fun t => t.active.find? fun a => a.id == cmd with
    | some a => (s.copyFail team cmd cause.toNat (copyVa a.cmd data.isEmpty (32 * sector)).toNat).endOver
    | none => s
  | .home item _ =>
    match s.homeq.find? fun h => h.id == item with
    | none => s
    | some it =>
      let t := match it.kind with
        | .store a .. | .atom a .. => s.dropPosted it a.base (.bad false none cause)
        | _ => s.finishItem it (.bad false none cause)
      t.raiseTag it.wid
  | .forest op sector _ => (s.failForestRemote op sector cause).raiseTag x.wid
  | .fetch wid split =>
    match tfind s.waves wid with
    | none => s
    | some w =>
      let sp := w.split split
      if w.stat = .ready ∧ sp.live then ((s.parkAt wid cause split sp.pc sp.mask sp.pc none 0).raiseTag wid).deliverRemote wid else s.raiseTag wid

/-- The data of a reply reach what sent the request (R184). The word of an LDX with an untagged offset takes the wave's own earlier stores as
it comes (R264, R267). -/
def State.remoteData (s : State) (x : Remote) (bs : List Byte) : State :=
  let whole := (List.range 32).map fun j => bs.getD j 0
  match x.what with
  | .dropped => s
  | .piece wid id k =>
    match (tfind s.waves wid).bind fun w => (w.req id).map fun r => (w, r) with
    | none => s
    | some (w, r) =>
      match r.pieces[k]? with
      | none => s
      | some p =>
        match atomOf r.instr with
        | some (_, w64, nr) =>
          (if nr then s else s.writeDest wid r p.lane (oldWords w64 (leNat (bs.take p.len)))).pieceDone wid r k
        | none =>
          if performsAtOwner r.instr then s.pieceDone wid r k
          else
            let pa := match p.loc with | .mem pa _ => pa | _ => 0
            let got := (List.range p.len).map fun j => bs.getD j 0
            let r1 : Req := { r with pieces := r.pieces.set k { p with st := .served, data := s.overlay wid w r.seq pa got } }
            s.deliver wid r1 fun q => q.st == .served && q.lane == p.lane && q.off == p.off
  | .store _ _ _ => s
  | .copy team cmd sector data =>
    match (tfind s.teams team).bind fun t => t.active.find? fun a => a.id == cmd with
    | none => s
    | some a =>
      if !data.isEmpty then (s.landed team a sector).endOver
      else s.modTeam team fun t => { t with active := t.active.map fun y => if y.id = cmd then { y with pre := tput y.pre sector whole } else y }
  | .home item part =>
    match s.homeq.find? fun h => h.id == item with
    | none => s
    | some it =>
      match it.kind with
      | .store .. => s.endStore it
      | .atom .. => (s.pmc it.ctx 4 1).finishItem it (.val (BitVec.ofNat 32 (leNat (bs.take 4))))
      | .fill parts _ _ =>
        let word := match tfind s.waves it.wid, parts[part]? with
          | some w, some p => s.overlay it.wid w it.seq p.2.1 ((List.range p.1).map fun j => bs.getD j 0)
          | _, _ => bs
        { s with homeq := s.homeq.map fun h => if h.id = item then { h with got := tput h.got part word } else h }
      | _ => { s with homeq := s.homeq.map fun h => if h.id = item then { h with got := tput h.got part bs } else h }
  | .forest op sector data => s.forestReply op sector data.isEmpty whole
  | .fetch wid split =>
    let at_ := x.sector * 4 + split
    s.modWave wid fun w => { w with code := w.code.filter (fun e => e.1 != at_) ++ [(at_, whole)] }

/-- Whether a return bears an older generation tag than its wave's slot: it is dropped, and its request goes on waiting (R96). Requests of
the copy engine, of homes and of their forest engines bear none. -/
def State.staleReply (s : State) (x : Remote) : Bool :=
  match x.what with
  | .piece .. | .store .. | .fetch .. => x.gen != tget 0 (s.core (wCore x.wid)).gens (wSlot x.wid)
  | _ => false

/-- Take a remote request off the list. -/
def State.takeRemote (s : State) (id : Nat) : State :=
  { s with link := { s.link with remotes := s.link.remotes.filter fun r => r.id != id } }

/-- REMOTE_REPLY (R184, R185): a reply, an acknowledgement or a fault reply arrives; one whose request has ended, or that bears an older tag,
is dropped. -/
def execRemoteReply (req : Nat) (rp : Reply) (s : State) : Result :=
  .next (match s.link.remotes.find? fun r => r.id == req with
  | none => s
  | some x =>
    if s.staleReply x then s
    else
    let s1 := s.takeRemote req
    match rp with
    | .data bs => s1.remoteData x bs
    | .ack => s1.remoteData x []
    | .fault => s1.failRemote x 0x70)

/-- REMOTE_TIMEOUT (R185): RTIMEOUT has lapsed since the request was sent. -/
def execRemoteTimeout (req : Nat) (s : State) : Result :=
  .next (match s.link.remotes.find? fun r => r.id == req with
  | none => s
  | some x => if s.overdue x.t then (s.takeRemote req).failRemote x 0x71 else s)

/-- End every request in flight on a port as a timeout (R179). -/
def State.endPort (s : State) (p : Nat) : State :=
  (s.link.remotes.filter fun r => r.port == p).foldl (fun (s : State) x => (s.takeRemote x.id).failRemote x 0x71) s

/-- PORT_ENABLE (R179): a DOWN port begins training. -/
def execPortEnable (port : Nat) (s : State) : Result :=
  .next (if port > 36 then s
  else s.modPort port fun p => { p with enable := true, st := if p.st = 0 then 1 else p.st, fails := if p.st = 0 then 0 else p.fails })

/-- PORT_DISABLE (R179): the port goes DOWN and its requests in flight end; port 36 ignores the write (R178). -/
def execPortDisable (port : Nat) (s : State) : Result :=
  .next (if port ≥ 36 then s
  else
    let p := s.port port
    let s1 := s.setPort port (if p.st = 0 then { p with enable := false }
      else { p with enable := false, st := 0, wasFailed := p.st == 3, fails := 0, badFlits := 0 })
    if p.st = 0 then s1 else s1.endPort port)

/-- An event of a port in the Amber black box (R179). -/
def State.portEvent (s : State) (port : Nat) : State := s.amberEvent 0x75 4 port 0

/-- PORT_TRAINING_COMPLETE (R179): the port is UP; a CXL port has learnt its expander's capacity (R181). -/
def execPortTrainingComplete (port capacity : Nat) (s : State) : Result :=
  .next (let p := s.port port
  if p.st ≠ 1 then s
  else
    let s1 := s.setPort port { p with st := 2, fails := 0, badFlits := 0, capacity := if 32 ≤ port ∧ port < 36 then capacity else p.capacity }
    if p.wasFailed then s1.portEvent port else s1)

/-- PORT_TRAINING_FAIL (R179): the sixteenth failure in a row fails the port. -/
def execPortTrainingFail (port : Nat) (s : State) : Result :=
  .next (let p := s.port port
  if p.st ≠ 1 then s
  else if p.fails + 1 ≥ 16 then (s.setPort port { p with fails := p.fails + 1, st := 3 }).portEvent port
  else s.setPort port { p with fails := p.fails + 1 })

/-- An UP port trains again: its requests in flight end, and the retrain is counted (R179). -/
def State.retrain (s : State) (port : Nat) : State :=
  (s.modPort port fun p => { p with st := 1, fails := 0, badFlits := 0,
                                    retrains := if p.retrains = 255 then 255 else p.retrains + 1 }).endPort port

/-- PORT_LINK_LOST (R179): the partner is lost. -/
def execPortLinkLost (port : Nat) (s : State) : Result := .next (if (s.port port).st = 2 then s.retrain port else s)

/-- FLIT_RECEIVE (R179, R183): a flit that fails its check is resent; the eighth in a row retrains the port. -/
def execFlitReceive (port : Nat) (good : Bool) (s : State) : Result :=
  .next (let p := s.port port
  if p.st ≠ 2 then s
  else if good then s.setPort port { p with badFlits := 0 }
  else if p.badFlits + 1 ≥ 8 then s.retrain port
  else s.setPort port { p with badFlits := p.badFlits + 1 })

/-- Inbound entry j (R183). -/
def State.inEntry (s : State) (j : Nat) : BitVec 128 := tget 0 s.link.inmap j
/-- ENABLE of an inbound entry. -/
def inEnable (e : BitVec 128) : Bool := e.getLsbD 127
/-- WRITE. -/
def inWrite (e : BitVec 128) : Bool := e.getLsbD 126
/-- CONTEXT. -/
def inCtx (e : BitVec 128) : Nat := (e.extractLsb' 120 6).toNat
/-- SRCDEV. -/
def inSrc (e : BitVec 128) : BitVec 22 := e.extractLsb' 98 22
/-- PAGES. -/
def inPagesOf (e : BitVec 128) : Nat := (e.extractLsb' 75 23).toNat
/-- VPN. -/
def inVpn (e : BitVec 128) : Nat := (e.extractLsb' 0 40).toNat

/-- Whether a request writes. -/
def reqWrites : MemReq → Bool
  | .read _ => false
  | _ => true

/-- The bytes that a request touches. -/
def reqLen : MemReq → Nat
  | .read n => n
  | .write bs => bs.length
  | .atomic _ w64 _ _ _ => if w64 then 8 else 4

/-- Whether an inbound request is accepted (R184); a host access has no source device to match. -/
def State.inAccepted (s : State) (j : Nat) (src : Option (BitVec 22)) (off : Nat) (rq : MemReq) : Bool :=
  let e := s.inEntry j
  let c := (s.ctx (inCtx e)).st
  inEnable e && (match src with | some d => d == inSrc e | none => true) && (inWrite e || !reqWrites rq)
    && decide (off < inPagesOf e * 65536) && (c == .resident || c == .suspended)

/-- What stops an inbound access at one of its bytes: its translation, its sector, or a peer slot (R148, R184). Poison and a
failed tag do not stop a write of whole sectors (R47, R161). -/
def State.inFault (s : State) (ctx : Nat) (va : DWord) (n : Nat) (acc : Acc) : Option (BitVec 7) :=
  let whole := acc == .write && va.toNat % 32 == 0 && n % 32 == 0
  (List.range n).findSome? fun k =>
    let a := va + BitVec.ofNat 64 k
    match s.walk ctx a acc with
    | .error c => some c
    | .ok (_, t) => if s.isPeer (t.pa a) then some 0x74 else match s.stopAt none ctx (t.pa a) t.key (acc == .write) with
      | some c => if (c = 0x51 ∨ c = 0x40) ∧ whole then none else some c
      | none => none

/-- Perform an accepted inbound access of a context: the data of its answer, or its failure (R184, R186). -/
def State.inPerform (s : State) (ctx : Nat) (va : DWord) (rq : MemReq) : Except (BitVec 7) (List Byte × State) :=
  let n := reqLen rq
  let acc := if reqWrites rq then Acc.write else Acc.read
  match s.inFault ctx va n acc with
  | some c => .error c
  | none =>
    let s1 := s.virtAccount ctx va n (reqWrites rq)
    match rq with
    | .read n => (s1.virtRead ctx va n).map fun bs => (bs, s1)
    | .write bs => (s1.virtWrite ctx va bs).map fun s2 => ([], s2)
    | .atomic op w64 d c n =>
      match s1.virtRead ctx va (reqLen rq) with
      | .error e => .error e
      | .ok old =>
        let new := atomNew op w64 (leNat old) d.toNat c.toNat n.toNat
        (s1.virtWrite ctx va (leBytes (reqLen rq) new)).map fun s2 => (old, s2)

/-- An inbound request: its answer, or none when it fails; a failure is reported to the entry's context when it is enabled, else in the
Amber black box (R184). -/
def State.inbound (s : State) (cause : BitVec 7) (unit j : Nat) (src : Option (BitVec 22)) (off : Nat) (rq : MemReq) :
    Option (List Byte) × State :=
  let e := s.inEntry j
  let va := BitVec.ofNat 64 (inVpn e * 65536 + off)
  match (if s.inAccepted j src off rq then s.inPerform (inCtx e) va rq else .error 0) with
  | .ok (bs, s1) => (some bs, s1)
  | .error c =>
    let s := if c = 0 ∨ c = 0x45 then s else s.virtAccount (inCtx e) va (reqLen rq) (reqWrites rq)
    (none, if inEnable e then s.report (inCtx e) (s.plainRec cause va 0) 0
      else s.amberEvent cause.toNat 4 unit (j + (src.getD 0).toNat * 2 ^ 8 + off % 2 ^ 64 * 2 ^ 64))

/-- INBOUND_REQUEST (R184): a request of a peer arrives at an UP Pralink port. -/
def execInboundRequest (port : Nat) (rq : InReq) (s : State) : Result :=
  .next (if port ≥ 32 ∨ (s.port port).st ≠ 2 ∨ rq.entry ≥ 64 then s
  else match s.inbound 0x72 port rq.entry (some rq.src) rq.off rq.req with
    | (some bs, s1) => s1.emit (.reply port rq.src.toNat bs)
    | (none, s1) => s1.emit (.replyFault port rq.src.toNat))

/-- HOST_MEM_ACCESS (R180, R184): an access of the host through its range of 16 TiB; a failed read returns poison, a failed write is
dropped. -/
def execHostMemAccess (addr : Nat) (rq : MemReq) (s : State) : Result :=
  .next (if addr ≥ 2 ^ 44 ∨ (s.port 36).st ≠ 2 then s
  else match s.inbound 0x73 36 (64 + addr / 2 ^ 38) none (addr % 2 ^ 38) rq with
    | (some bs, s1) => s1.emit (if reqWrites rq && bs.isEmpty then .hostDone else .hostData bs)
    | (none, s1) => s1.emit (if reqWrites rq then .hostDone else .hostPoison))

end Sys2Proof.Machine
end

