-- ==== Sys2Proof/Machine/MemCtl.lean ====
section
/-! DEFINITION. The memory controllers' own steps: rows that close, refresh (R330, R331), temperature (R332). Times are in sevenths
of a nanosecond. -/

namespace Sys2Proof.Machine

/-- A saturating 32-bit count (R333). -/
def inc32 (x : Word) : Word := if x = BitVec.allOnes 32 then x else x + 1

/-- The channel group of a channel (R325). -/
def groupOfChan (ch : Nat) : Nat := if ch < 512 then ch / 64 * 8 + ch % 64 / 8 else 64 + (ch - 512) / 4

/-- Whether a bank is busy: a row is open, or an accepted access of it waits or is unfinished (R330). -/
def State.bankBusy (s : State) (chan bank : Nat) : Bool :=
  let b := s.bank (bankKey chan bank)
  b.row.isSome || decide (b.lastUse > s.t7) || s.accepted (groupOfChan chan) chan bank

/-- A bank that is not busy and owes a refresh begins to repay one (R331). -/
def State.repay (s : State) (chan bank : Nat) : State :=
  let b := s.bank (bankKey chan bank)
  if b.owes > 0 ∧ b.refreshing.isNone ∧ !s.bankBusy chan bank then
    s.setBank (bankKey chan bank) { b with owes := b.owes - 1, refreshing := some s.t7 }
  else s

/-- A refresh of a bank refreshes every row of it: no row counts activations and none is hot (R329). -/
def Bank.refreshed (b : Bank) : Bank := { b with acts := [], hot := [] }

/-- ROW_IDLE_CLOSE (R330): a bank that has been idle for 100 ns closes its row, whose precharge begins; a bank with no row
open repays what it owes. -/
def execRowIdleClose (channel bank : Nat) (s : State) : Result :=
  .next (let b := s.bank (bankKey channel bank)
  if s.accepted (groupOfChan channel) channel bank ∨ (b.row.isSome ∧ s.t7 < b.lastUse + 700) then s
  else (s.setBank (bankKey channel bank) (if b.row.isSome then { b with row := none, pre := s.t7 } else b)).repay channel bank)

/-- Every bank of a channel after a change. -/
def State.mapBanks (s : State) (channel : Nat) (f : Bank → Bank) : State :=
  (List.range 16).foldl (fun (s : State) j => s.setBank (bankKey channel j) (f (s.bank (bankKey channel j)))) s

/-- When a forced all-bank refresh begins: the columns in progress have ended, a refresh that runs has ended, and every open row has been
precharged as tRAS allows (R330, R331). -/
def State.forcedAt (s : State) (channel : Nat) : Nat :=
  let t := timingOf channel
  let bs := (List.range 16).map fun j => s.bank (bankKey channel j)
  let pre := (bs.map fun b => max b.lastUse (match b.refreshing with | some r => r + 840 | none => 0)).foldl max s.t7
  if bs.any fun b => b.row.isSome then ((bs.filter fun b => b.row.isSome).map fun b => b.lastAct + t.ras).foldl max pre + t.rp else pre

/-- REFRESH_DUE (R331): the next bank's refresh is issued, postponed, or forces an all-bank refresh; during an all-bank refresh it is
satisfied. One that falls due while another refresh of its bank runs follows it. -/
def execRefreshDue (channel : Nat) (s : State) : Result :=
  let j := tget 0 s.mc.nextRef channel
  let s1 : State := { s with mc := { s.mc with nextRef := tset 0 s.mc.nextRef channel ((j + 1) % 16) } }
  let k := bankKey channel j
  let b := s1.bank k
  .next (if tget 0 s1.mc.allRef channel ≠ 0 then s1
  else if !s1.bankBusy channel j then
    s1.setBank k (if b.refreshing.isSome then { b with owes := b.owes + 1 } else { b with refreshing := some s1.t7 })
  else if b.owes < 8 then
    (s1.setBank k { b with owes := b.owes + 1 }).modGroup (groupOfChan channel) fun g => { g with refpost := inc32 g.refpost }
  else
    let at_ := s1.forcedAt channel
    let s2 := (s1.mapBanks channel fun b => { b with row := none, owes := 0, refreshing := none }).modGroup (groupOfChan channel) fun g =>
      { g with refforce := inc32 g.refforce }
    { s2 with mc := { s2.mc with allRef := tset 0 s2.mc.allRef channel (at_ + 1) } })

/-- ALL_BANK_REFRESH_END (R331): tRFCab has passed. -/
def execAllBankRefreshEnd (channel : Nat) (s : State) : Result :=
  let began := tget 0 s.mc.allRef channel
  .next (if began = 0 ∨ s.t7 + 1 < began + 2450 then s
  else
    let s1 : State := { s with mc := { s.mc with allRef := tset 0 s.mc.allRef channel 0 } }
    s1.mapBanks channel Bank.refreshed)

/-- PER_BANK_REFRESH_COMPLETE (R331): tRFCpb has passed: the bank is free, and one that still owes and is not busy repays its next
refresh. -/
def execPerBankRefreshComplete (channel bank : Nat) (s : State) : Result :=
  .next (let b := s.bank (bankKey channel bank)
  match b.refreshing with
  | none => s
  | some t => if s.t7 < t + 840 then s
    else (s.setBank (bankKey channel bank) (({ b with refreshing := none } : Bank).refreshed)).repay channel bank)

/-- The temperature thresholds (R332). -/
def threshold (i : Nat) : Nat := if i = 0 then 85 else if i = 1 then 95 else 105

/-- Thresholds at or above which a stack stands: crossed upward at their value, downward 3 °C below it (R332). -/
def crossed (before temp : Nat) : Nat :=
  ((List.range 3).filter fun i => if i < before then decide (threshold i < temp + 3) else decide (threshold i ≤ temp)).length

/-- THERMAL_THRESHOLD_CROSSING (R332): the hottest layer of a stack; each threshold crossed writes an Amber event; at 105 °C the module
shuts down. -/
def execThermalThresholdCrossing (stack temp : Nat) (s : State) : Result :=
  .next (if stack ≥ 8 then s
  else
    let before := (tget ((0, 0) : BitVec 8 × BitVec 2) s.mc.therm stack).2.toNat
    let after := crossed before temp
    let ups := (List.range 3).filter fun i => before ≤ i && i < after
    let downs := ((List.range 3).filter fun i => after ≤ i && i < before).reverse
    let s1 : State := { s with mc := { s.mc with therm := tset (0, 0) s.mc.therm stack (BitVec.ofNat 8 (min temp 255), BitVec.ofNat 2 after) } }
    let s2 := (ups ++ downs).foldl (fun (s : State) i => s.amberEvent (0x80 + i) 3 stack 0) s1
    if ups.contains 2 then ({ s2 with shutdown := true } : State).emit .shutdown else s2)

end Sys2Proof.Machine
end

