-- ==== Sys2Proof/Machine/Power.lean ====
section
/-! DEFINITION. Power and current control (R334 to R339) and the gating of clusters (R132). -/

namespace Sys2Proof.Machine

/-- Island i of a cluster. -/
def Cluster.isl (k : Cluster) (i : Nat) : Island := tget Island.init k.islands i

/-- Replace an island. -/
def Cluster.setIsl (k : Cluster) (i : Nat) (x : Island) : Cluster := { k with islands := tset Island.init k.islands i x }

/-- R of an island at the end of a window (R335). -/
def Island.load (x : Island) : Nat := 256 * x.count * (if x.mode = 0 then 1 else 2) / 98304

/-- An island at the end of a window (R335). -/
def Island.endWindow (x : Island) (clk : Nat) : Island :=
  let r := x.load
  let hi := max x.nthi.toNat x.ntlo.toNat
  let y : Island := { x with count := 0 }
  if x.mode = 0 ∧ x.nten ∧ r < x.ntlo.toNat then { y with mode := 1 }
  else if x.mode = 1 ∧ r ≥ hi then { y with mode := 2, rose := clk }
  else y

/-- A core's cadence at the end of a window: raised, lowered or left (R336). -/
def nextCadence (watts lim : Nat) (ran : Bool) (c : Nat) : Nat :=
  if watts > lim then (if ran then min 31 (max c 8 + 4) else c)
  else if 8 * watts < 7 * lim then (if c < 12 then 0 else c - 4)
  else c

/-- POWER_WINDOW_END (R334 to R336): CLUPWR is measured, the islands act, the cadences follow. -/
def execPowerWindowEnd (cluster watts : Nat) (s : State) : Result :=
  .next (s.modCluster cluster fun k =>
    if k.pwr = .gated then { k with pwrW := 0 }
    else
      let w := watts % 4096
      let k1 := (List.range 4).foldl (fun (k : Cluster) i => k.setIsl i ((k.isl i).endWindow k.clk)) k
      let cads := (List.range 8).foldl (fun (t : Tab (BitVec 5)) p =>
        tset 0 t p (BitVec.ofNat 5 (nextCadence w k.lim.toNat (k.ran.contains (8 * cluster + p)) (tget (0 : BitVec 5) k.mxcad p).toNat))) k.mxcad
      { k1 with pwrW := BitVec.ofNat 12 w, mxcad := cads, ran := [] })

/-- ISLAND_VOLTAGE_STABLE (R335): 1,400 clk after RISING began the full rate returns. -/
def execIslandVoltageStable (cluster island : Nat) (s : State) : Result :=
  .next (s.modCluster cluster fun k =>
    let x := k.isl island
    if x.mode = 2 ∧ x.rose + 1400 ≤ k.clk then k.setIsl island { x with mode := 0 } else k)

/-- ISLCTL_WRITE (R334, R335): the thresholds and NTEN are stored; NTEN written 0 raises a NEAR island. -/
def execIslctlWrite (cluster island : Nat) (value : BitVec 32) (s : State) : Result :=
  .next (if cluster ≥ 24 ∨ island ≥ 4 then s
  else s.modCluster cluster fun k =>
    let x := k.isl island
    let y : Island := { x with ntlo := value.extractLsb' 24 8, nthi := value.extractLsb' 16 8, nten := value.getLsbD 15 }
    k.setIsl island (if !y.nten && x.mode == 1 then { y with mode := 2, rose := k.clk } else y))

/-- DROOP_DETECT (R337): the droop is counted; outside a stretch a stretch of 6 clk begins. -/
def execDroopDetect (cluster : Nat) (s : State) : Result :=
  .next (s.modCluster cluster fun k =>
    let n := if k.droopcnt = BitVec.allOnes 32 then k.droopcnt else k.droopcnt + 1
    if k.stretch > 0 then { k with droopcnt := n } else { k with droopcnt := n, stretch := 6, halving := 0, half := false })

/-- DROOP_STRETCH_END (R337): the last stretched clock has passed; 64 halving clk follow. -/
def execDroopStretchEnd (cluster : Nat) (s : State) : Result :=
  .next (s.modCluster cluster fun k => if k.stretch = 1 then { k with stretch := 0, halving := 64, half := false } else k)

/-- DROOP_HALVING_END (R337): issue returns to two slots. -/
def execDroopHalvingEnd (cluster : Nat) (s : State) : Result :=
  .next (s.modCluster cluster fun k => if k.halving = 1 then { k with halving := 0 } else k)

/-- Whether a core is idle: no wave, no allocation, no ACTIVE or QUEUED copy, no forwarding duty (R132). -/
def State.coreIdle (s : State) (core : Nat) : Bool :=
  s.waves.all (fun e => wCore e.1 != core) && s.teams.all (fun t => !(t.2.resident && t.2.core == core))
    && s.lazies.all (fun u => u.kind.core? != some core) && (s.core core).fwd.isEmpty

/-- Whether every core of a cluster is idle; a block of the cluster's scratchpad that is LAZY keeps it awake (R57, R132). -/
def State.clusterIdle (s : State) (k : Nat) : Bool := (List.range 8).all fun c => s.coreIdle (8 * k + c)

/-- A gate request: granted when every core is idle, else refused (R132, R339). -/
def State.requestGate (s : State) (k : Nat) : State :=
  if (s.cluster k).pwr ≠ .on then s
  else if s.clusterIdle k then s.modCluster k fun c => { c with pwr := .closing }
  else s.modCluster k fun c => { c with idleFrom := s.t7 }

/-- CLUSTER_GATE_REQUEST (R132): software writes GATE. -/
def execClusterGateRequest (cluster : Nat) (s : State) : Result := .next (s.requestGate cluster)

/-- CLUSTER_AUTO_GATE (R339): with AUTO set, a cluster that has been idle for 1,000,000 ns requests its own gating. -/
def execClusterAutoGate (cluster : Nat) (s : State) : Result :=
  let k := s.cluster cluster
  .next (if k.auto && decide (k.idleFrom + 7000000 ≤ s.t7) then s.requestGate cluster else s)

/-- Whether a port of a cluster, or its cluster scratchpad, still has a transaction to perform. -/
def State.portsBusy (s : State) (k : Nat) : Bool :=
  s.portq.any fun p => (p.lvl == 0 && cluOf p.unit == k) || (p.lvl == 1 && p.unit == k)

/-- CLUSTER_GATED (R132): with every accepted transaction performed, the pools return and power goes; a held placement wakes the
cluster again. -/
def execClusterGated (cluster : Nat) (s : State) : Result :=
  .next (if (s.cluster cluster).pwr ≠ .closing ∨ s.portsBusy cluster then s
  else
    let s1 := (List.range 8).foldl (fun (s : State) c =>
      (s.returnPools (8 * cluster + c)).modCore (8 * cluster + c) fun x => { x with tlb := [], mx := Mx.init }) s
    s1.modCluster cluster fun k =>
      { k with pwr := if k.wanted.isEmpty then .gated else .waking, wakeAt := if k.wanted.isEmpty then k.wakeAt else k.clk + 14000, tlb := [], ran := [],
               pwrW := 0, mxcad := [], islands := k.islands.map fun (e : Nat × Island) => (e.1, { e.2 with mode := 0, count := 0 }) })

/-- CLUSTER_WAKE_REQUEST (R132, R339): a GATED cluster wakes. -/
def execClusterWakeRequest (cluster : Nat) (s : State) : Result :=
  .next (if (s.cluster cluster).pwr = .gated then s.modCluster cluster fun k => { k with pwr := .waking, wakeAt := k.clk + 14000 } else s)

/-- CLUSTER_WAKE_COMPLETE (R132, R339): 14,000 clk after WAKING began the scratchpads are zeroed and the cluster is ON; it takes
the placements that it has held, in their order. -/
def execClusterWakeComplete (cluster : Nat) (s : State) : Result :=
  let k := s.cluster cluster
  .next (if k.pwr ≠ .waking ∨ k.clk < k.wakeAt then s
  else
    let s1 := (List.range 8).foldl (fun (s : State) c => s.spZero 0 (8 * cluster + c) 0 coreBytes) s
    let s2 := (s1.spZero 1 cluster 0 cluBytes).modCluster cluster fun k => { k with pwr := .on, wanted := [], idleFrom := s.t7 }
    let t := k.wanted.foldl State.takePlacement s2
    { t with fresh := t.fresh + 96 * 192 })

end Sys2Proof.Machine
end

