-- ==== Sys2Proof/Machine/Regs.lean ====
section
/-! DEFINITION. The register spaces: the management space and the trigger pages, their offsets and widths, what a read returns and what
a write stores (R4 to R6, R38, R39, R48, R60, R68, R149, R156, R177, R178, R317, R321, R333, R334). -/

namespace Sys2Proof.Machine

/-- The registers of the device. -/
inductive Reg where
  | window (w : Nat)
  | vdctl (n : Nat) | vdarg (n : Nat) | vdsave (n : Nat) | vdsavesz (n : Nat) | vdsavemax (n : Nat) | pmcsel (n i : Nat) | pmc (n i : Nat)
  | ilbase (n : Nat) | ilsize (n : Nat) | ilcount (n : Nat)
  | ptroot (n : Nat) | invaddr (n : Nat) | invcnt (n : Nat) | invstat (n : Nat)
  | pmpolicy | pmctxen | fpbase (t : Nat) | fpsize (t : Nat) | fphead (t : Nat) | fptail (t : Nat) | movereq | movestat | hotsel | hotval
  | moving
  | devid | rtimeout | portctl (p : Nat) | cxlmap (i : Nat) | inmap (j : Nat) | part (q : Nat) | partstat
  | fqbase (n : Nat) | fqsize (n : Nat) | fqtail (n : Nat) | fqhead (n : Nat) | fqdrop (n : Nat) | replay (n : Nat) | replaystat (n : Nat)
  | abseq | abcount | event (e : Nat)
  | latcnt (g : Nat) | latsum (g : Nat) | latmax (g : Nat) | refpost (g : Nat) | refforce (g : Nat) | rhthrot (g : Nat) | hammerth
  | therm (i : Nat)
  | cluctl (c : Nat) | clulim (c : Nat) | clupwr (c : Nat) | droopth (c : Nat) | droopcnt (c : Nat) | islctl (c i : Nat) | mxcad (c p : Nat)
  | trig (n : Nat) | seqacc (n : Nat) | seqemit (n : Nat) | gload (n : Nat) | gstat (n : Nat) | patchbase (n : Nat) | cplbase (n : Nat)
  | cplsize (n : Nat)
  deriving DecidableEq, Repr

/-- A register of a context's page, by its offset (R38). -/
def ctxReg (n o : Nat) : Option Reg :=
  if o = 0 then some (.vdctl n) else if o = 8 then some (.vdarg n) else if o = 0x10 then some (.vdsave n)
  else if o = 0x18 then some (.vdsavesz n) else if o = 0x20 then some (.vdsavemax n)
  else if 0x100 ≤ o ∧ o < 0x120 ∧ o % 4 = 0 then some (.pmcsel n ((o - 0x100) / 4))
  else if 0x200 ≤ o ∧ o < 0x240 ∧ o % 8 = 0 then some (.pmc n ((o - 0x200) / 8)) else none

/-- A register of a trigger page (R60). -/
def trigReg (n o : Nat) : Option Reg :=
  if o = 0 then some (.trig n) else if o = 8 then some (.seqacc n) else if o = 0x10 then some (.seqemit n) else if o = 0x18 then some (.gload n)
  else if o = 0x20 then some (.gstat n) else if o = 0x28 then some (.patchbase n) else if o = 0x30 then some (.cplbase n)
  else if o = 0x38 then some (.cplsize n) else none

/-- A register of the page migration engine (R156). -/
def pmeReg (o : Nat) : Option Reg :=
  if o = 0 then some .pmpolicy else if o = 8 then some .pmctxen
  else if o = 0x70 then some .movereq else if o = 0x78 then some .movestat else if o = 0x80 then some .hotsel
  else if o = 0x88 then some .hotval else if o = 0x90 then some .moving
  else if 0x10 ≤ o ∧ o < 0x70 then
    let t := (o - 0x10) / 0x20
    let k := (o - 0x10) % 0x20
    if k = 0 then some (.fpbase t) else if k = 8 then some (.fpsize t) else if k = 12 then some (.fphead t) else if k = 16 then some (.fptail t) else none
  else none

/-- A register of the link block (R177). -/
def linkReg (o : Nat) : Option Reg :=
  if o = 0 then some .devid else if o = 4 then some .rtimeout
  else if 0x100 ≤ o ∧ o < 0x194 ∧ o % 4 = 0 then some (.portctl ((o - 0x100) / 4))
  else if 0x400 ≤ o ∧ o < 0x600 ∧ o % 8 = 0 then some (.cxlmap ((o - 0x400) / 8))
  else if 0x800 ≤ o ∧ o < 0x1000 ∧ o % 16 = 0 then some (.inmap ((o - 0x800) / 16))
  else if 0x1000 ≤ o ∧ o < 0x1180 ∧ o % 16 = 0 then some (.part ((o - 0x1000) / 16))
  else if o = 0x1200 then some .partstat else none

/-- A register of a context's fault block (R317). -/
def faultReg (n o : Nat) : Option Reg :=
  if o = 0 then some (.fqbase n) else if o = 8 then some (.fqsize n) else if o = 12 then some (.fqtail n) else if o = 16 then some (.fqhead n)
  else if o = 20 then some (.fqdrop n) else if o = 24 then some (.replay n) else if o = 32 then some (.replaystat n) else none

/-- A register of the controller block (R333). -/
def mcReg (o : Nat) : Option Reg :=
  if o < 0x1200 then
    let g := o / 0x40
    let k := o % 0x40
    if k = 0 then some (.latcnt g) else if k = 8 then some (.latsum g) else if k = 16 then some (.latmax g) else if k = 20 then some (.refpost g)
    else if k = 24 then some (.refforce g) else if k = 28 then some (.rhthrot g) else none
  else if o = 0x2000 then some .hammerth
  else if 0x2008 ≤ o ∧ o < 0x2028 ∧ o % 4 = 0 then some (.therm ((o - 0x2008) / 4)) else none

/-- A register of a cluster's power block (R334). -/
def powerReg (c o : Nat) : Option Reg :=
  if o = 0 then some (.cluctl c) else if o = 4 then some (.clulim c) else if o = 8 then some (.clupwr c) else if o = 12 then some (.droopth c)
  else if o = 16 then some (.droopcnt c) else if 0x20 ≤ o ∧ o < 0x30 ∧ o % 4 = 0 then some (.islctl c ((o - 0x20) / 4))
  else if 0x40 ≤ o ∧ o < 0x60 ∧ o % 4 = 0 then some (.mxcad c ((o - 0x40) / 4)) else none

/-- The register at an offset; none where the offset is reserved (R6). -/
def regAt (off : Nat) : Option Reg :=
  if 0x80010 ≤ off ∧ off < 0x80C10 ∧ off % 16 = 0 then some (.window ((off - 0x80000) / 16))
  else if 0x100000 ≤ off ∧ off < 0x140000 then ctxReg ((off - 0x100000) / 0x1000) (off % 0x1000)
  else if 0x200000 ≤ off ∧ off < 0x201000 then
    let n := (off - 0x200000) / 0x40
    if off % 0x40 = 0 then some (.ilbase n) else if off % 0x40 = 8 then some (.ilsize n) else if off % 0x40 = 12 then some (.ilcount n) else none
  else if 0x300000 ≤ off ∧ off < 0x301000 then
    let n := (off - 0x300000) / 0x40
    if off % 0x40 = 0 then some (.ptroot n) else if off % 0x40 = 8 then some (.invaddr n) else if off % 0x40 = 16 then some (.invcnt n)
    else if off % 0x40 = 20 then some (.invstat n) else none
  else if 0x400000 ≤ off ∧ off < 0x401000 then pmeReg (off - 0x400000)
  else if 0x500000 ≤ off ∧ off < 0x502000 then linkReg (off - 0x500000)
  else if 0x600000 ≤ off ∧ off < 0x601000 then faultReg ((off - 0x600000) / 0x40) (off % 0x40)
  else if off = 0x700000 then some .abseq
  else if off = 0x700004 then some .abcount
  else if 0x720000 ≤ off ∧ off < 0x740000 ∧ off % 32 = 0 then some (.event ((off - 0x720000) / 32))
  else if 0x800000 ≤ off ∧ off < 0x803000 then mcReg (off - 0x800000)
  else if 0x900000 ≤ off ∧ off < 0x901800 then powerReg ((off - 0x900000) / 0x100) (off % 0x100)
  else if 0x1000000 ≤ off ∧ off < 0x1040000 then trigReg ((off - 0x1000000) / 0x1000) (off % 0x1000)
  else none

/-- The register at an offset that a function maps: physical function 0 maps the management space and every trigger page, virtual function
n + 1 the trigger page of context n (R180). -/
def fnReg (fn off : Nat) : Option Reg :=
  if fn = 0 then regAt off else if fn ≤ 64 ∧ off < 0x1000 then trigReg (fn - 1) off else none

/-- The width of a register. -/
def Reg.width : Reg → Nat
  | .window _ | .inmap _ | .part _ => 128
  | .event _ => 256
  | .vdarg _ | .vdsave _ | .vdsavesz _ | .vdsavemax _ | .pmc _ _ | .ilbase _ | .ptroot _ | .invaddr _ | .pmpolicy | .pmctxen | .fpbase _
  | .movereq | .hotsel | .cxlmap _ | .fqbase _ | .replay _ | .latcnt _ | .latsum _ | .trig _ | .seqacc _ | .seqemit _ | .gload _
  | .patchbase _ | .cplbase _ => 64
  | _ => 32

/-- The code of a context's state (R39). -/
def ctxCode : CtxSt → Nat
  | .free => 0
  | .created => 1
  | .keyed => 2
  | .resident => 3
  | .suspended => 4
  | .resetting => 5

/-- The code of a window's state (R48). -/
def winCode : WinSt → Nat
  | .closed => 0
  | .opening => 1
  | .opened => 2
  | .closing => 3

/-- The code of a cluster's state (R334). -/
def pwrCode : PwrSt → Nat
  | .on => 0
  | .closing => 1
  | .gated => 2
  | .waking => 3

/-- A flag as a bit. -/
def bitN (b : Bool) (i : Nat) : Nat := if b then 2 ^ i else 0

/-- What a read of a register returns (R4, R6). -/
def State.readReg (s : State) : Reg → Nat
  | .window w =>
    let x := s.window w
    winCode x.st * 2 ^ 126 + x.owner * 2 ^ 120 + x.importer * 2 ^ 114 + bitN x.write 113 + x.pages * 2 ^ 88 + x.basevpn
  | .vdctl n => bitN (s.ctx n).keyvalid 31 + ctxCode (s.ctx n).st * 2 ^ 28 + (s.ctx n).err.toNat * 2 ^ 8
  | .vdarg n => (s.ctx n).vdarg.toNat
  | .vdsave n => (s.ctx n).vdsave.toNat
  | .vdsavesz n => (s.ctx n).vdsavesz.toNat
  | .vdsavemax n => s.saveMax n
  | .pmcsel n i => (tget (0 : Word) (s.ctx n).pmcsel i).toNat
  | .pmc n i => (tget (0 : DWord) (s.ctx n).pmc i).toNat
  | .ilbase n => (s.ctx n).ilbase.toNat
  | .ilsize n => (s.ctx n).ilsize.toNat
  | .ilcount n => (s.ctx n).ilcount.toNat
  | .ptroot n => (s.ctx n).ptroot.toNat
  | .invaddr n => (s.ctx n).invaddr.toNat
  | .invcnt _ | .movereq | .hotsel | .replay _ | .trig _ | .gload _ => 0
  | .invstat n => bitN (s.invals.any fun i => i.reg && i.ctx == n) 0
  | .pmpolicy => s.pme.policy.toNat
  | .pmctxen => s.pme.ctxen.toNat
  | .fpbase t => (tget (0 : DWord) s.pme.fpbase t).toNat
  | .fpsize t => s.pme.size t
  | .fphead t => (tget (0 : Word) s.pme.fphead t).toNat
  | .fptail t => (tget (0 : Word) s.pme.fptail t).toNat
  | .movestat => s.pme.movestat.toNat
  | .hotval => s.hotOf s.pme.hotsel.toNat
  | .moving => s.pme.inMotion
  | .devid => s.link.devid.toNat
  | .rtimeout => s.link.rtimeout.toNat
  | .portctl p => bitN (s.port p).enable 31 + (s.port p).retrains.toNat * 2 ^ 16 + (s.port p).st.toNat
  | .cxlmap i => (s.cxlmap i).toNat
  | .inmap j => (s.inEntry j).toNat
  | .part q => (s.part q).toNat
  | .partstat => s.link.partstat.toNat
  | .fqbase n => (s.ctx n).fqbase.toNat
  | .fqsize n => (s.ctx n).fqsize.toNat
  | .fqtail n => (s.ctx n).fqtail.toNat
  | .fqhead n => (s.ctx n).fqhead.toNat
  | .fqdrop n => (s.ctx n).fqdrop.toNat
  | .replaystat n => (s.ctx n).replaystat.toNat
  | .abseq => s.amber.seq.toNat
  | .abcount => s.amber.count.toNat
  | .event e => (tget (0 : BitVec 256) s.amber.events e).toNat
  | .latcnt g => (s.group g).latcnt.toNat
  | .latsum g => (s.group g).latsum.toNat
  | .latmax g => (s.group g).latmax.toNat
  | .refpost g => (s.group g).refpost.toNat
  | .refforce g => (s.group g).refforce.toNat
  | .rhthrot g => (s.group g).rhthrot.toNat
  | .hammerth => s.mc.hammer.toNat
  | .therm i => let t := tget ((0, 0) : BitVec 8 × BitVec 2) s.mc.therm i; t.1.toNat + t.2.toNat * 2 ^ 8
  | .cluctl c => pwrCode (s.cluster c).pwr * 2 ^ 6 + bitN (s.cluster c).auto 2
  | .clulim c => (s.cluster c).lim.toNat
  | .clupwr c => (s.cluster c).pwrW.toNat
  | .droopth c => (s.cluster c).droopth.toNat
  | .droopcnt c => (s.cluster c).droopcnt.toNat
  | .islctl c i => let x := (s.cluster c).isl i
    x.ntlo.toNat * 2 ^ 24 + x.nthi.toNat * 2 ^ 16 + bitN x.nten 15 + x.mode.toNat
  | .mxcad c p => (tget (0 : BitVec 5) (s.cluster c).mxcad p).toNat
  | .seqacc n => (s.ctx n).seqacc.toNat
  | .seqemit n => (s.ctx n).seqemit.toNat
  | .gstat n => (s.ctx n).gstat.toNat
  | .patchbase n => (s.ctx n).patchbase.toNat
  | .cplbase n => (s.ctx n).cplbase.toNat
  | .cplsize n => (s.ctx n).cplsize.toNat

/-- What a read at an offset of a function returns: 0 where the offset is reserved (R6, R180). -/
def State.readAt (s : State) (fn off : Nat) : Nat := match fnReg fn off with | some r => s.readReg r | none => 0

/-- The state after a step that answers one. -/
def Result.orElse (r : Result) (s : State) : State :=
  match r with
  | .next t => t
  | _ => s

/-- A value between two bounds. -/
def clamp (lo hi x : Nat) : Nat := max lo (min hi x)

/-- log2 of a queue's record count: 6 to 16, any other value is 6 (R60, R317). -/
def logSize (v : BitVec 128) : BitVec 5 := let x := v.extractLsb' 0 5; if 6 ≤ x.toNat ∧ x.toNat ≤ 16 then x else 6

/-- A 64-bit value whose low bits read 0. -/
def aligned (v : BitVec 128) (low : Nat) : DWord := BitVec.ofNat 64 (v.toNat % 2 ^ 64 / 2 ^ low * 2 ^ low)

/-- A command written to VDCTL (R39, R40). CMD 0 does nothing, and leaves ERR as it stands (log 138). -/
def State.vdCommand (s : State) (n code : Nat) : Result :=
  match code with
  | 0 => .next s
  | 1 => execCreate n s
  | 2 => execKeygen n s
  | 3 => execGrant n s
  | 4 => execAdmitCtx n s
  | 5 => execSuspend n s
  | 6 => execReset n s
  | 7 => execRelease n s
  | c => execVdctlUndefinedCommand n (BitVec.ofNat 4 c) s

/-- A write to GLOAD, by its kind (R63). -/
def State.gloadWrite (s : State) (n width : Nat) (v : DWord) : Result :=
  if gloadReserved v || (v.getLsbD 63 && (s.ctx n).armed.isNone) then execGloadSequenceError n width v s
  else if !v.getLsbD 63 then execGloadAddressWrite n width v s
  else match (s.ctx n).armed with
    | some (true, _) => execGloadLoad n width v s
    | _ => execGloadUnload n width v s

/-- A write to CLUCTL: AUTO, then a gate request, then a wake request (R334). -/
def State.cluWrite (s : State) (c : Nat) (v : BitVec 128) : State :=
  let s1 := s.modCluster c fun k => { k with auto := v.getLsbD 2 }
  let s2 := if v.getLsbD 0 then s1.requestGate c else s1
  if v.getLsbD 1 then (execClusterWakeRequest c s2).orElse s2 else s2

/-- What a write of a register's own width does: fields are stored by their field maps, commands are performed (R4 to R6). -/
def State.writeReg (s : State) (r : Reg) (v : BitVec 128) : State :=
  let d : DWord := v.setWidth 64
  let w : Word := v.setWidth 32
  match r with
  | .vdctl n => (s.vdCommand n (v.extractLsb' 0 4).toNat).orElse s
  | .vdarg n => s.modCtx n fun c => { c with vdarg := d }
  | .vdsave n => s.modCtx n fun c => { c with vdsave := aligned v 16 }
  | .vdsavesz n => s.modCtx n fun c => { c with vdsavesz := aligned v 16 }
  | .pmcsel n i => s.modCtx n fun c => { c with pmcsel := tset 0 c.pmcsel i (w &&& 0xFF) }
  | .pmc n i => s.modCtx n fun c => { c with pmc := tset 0 c.pmc i d }
  | .ilbase n => s.modCtx n fun c => { c with ilbase := aligned v 5 }
  | .ilsize n => s.modCtx n fun c => { c with ilsize := BitVec.ofNat 32 (min w.toNat 65536) }
  | .ptroot n => s.modCtx n fun c => { c with ptroot := aligned v 13 &&& 0xFFFFFFFFFFFFF }
  | .invaddr n => s.modCtx n fun c => { c with invaddr := aligned v 16 }
  | .invcnt n => (execInvcntWrite n w s).orElse s
  | .pmpolicy => s.modPme fun p => { p with policy := d &&& 0xFFFF000FFFFFFFFF }
  | .pmctxen => s.modPme fun p => { p with ctxen := d }
  | .fpbase t => s.modPme fun p => { p with fpbase := tset 0 p.fpbase t d }
  | .fpsize t => s.modPme fun p => { p with fpsize := tset 0 p.fpsize t (BitVec.ofNat 32 (min w.toNat (2 ^ 20))) }
  | .fptail t => s.modPme fun p => { p with fptail := tset 0 p.fptail t w }
  | .movereq => (execMovereq d s).orElse s
  | .hotsel => (execHotsel d s).orElse s
  | .devid =>
    if (List.range 32).all fun p => (s.port p).st == 0 then { s with link := { s.link with devid := v.extractLsb' 0 22 } } else s
  | .rtimeout => { s with link := { s.link with rtimeout := BitVec.ofNat 32 (clamp 10 1000000 w.toNat) } }
  | .portctl p => if p = 36 then s else if v.getLsbD 31 then (execPortEnable p s).orElse s else (execPortDisable p s).orElse s
  | .cxlmap i => { s with link := { s.link with cxlmap := tset 0 s.link.cxlmap i (d &&& 0xFFFFFFFF0000000F) } }
  | .inmap j => { s with link := { s.link with inmap := tset 0 s.link.inmap j (v &&& ~~~(BitVec.ofNat 128 ((2 ^ 35 - 1) * 2 ^ 40))) } }
  | .part q => (execPartWrite q v s).orElse s
  | .fqbase n => s.modCtx n fun c => { c with fqbase := aligned v 12 }
  | .fqsize n => s.modCtx n fun c => { c with fqsize := logSize v }
  | .fqhead n => s.modCtx n fun c => { c with fqhead := w }
  | .replay n => s.replay n d
  | .latcnt g => s.modGroup g fun q => { q with latcnt := d }
  | .latsum g => s.modGroup g fun q => { q with latsum := d }
  | .latmax g => s.modGroup g fun q => { q with latmax := w }
  | .refpost g => s.modGroup g fun q => { q with refpost := w }
  | .refforce g => s.modGroup g fun q => { q with refforce := w }
  | .rhthrot g => s.modGroup g fun q => { q with rhthrot := w }
  | .hammerth => { s with mc := { s.mc with hammer := BitVec.ofNat 16 (max 512 (w.toNat % 65536)) } }
  | .cluctl c => s.cluWrite c v
  | .clulim c => s.modCluster c fun k => { k with lim := BitVec.ofNat 12 (clamp 20 400 (w.toNat % 4096)) }
  | .droopth c => s.modCluster c fun k => { k with droopth := BitVec.ofNat 8 (clamp 10 120 (w.toNat % 256)) }
  | .droopcnt c => s.modCluster c fun k => { k with droopcnt := w }
  | .islctl c i => (execIslctlWrite c i w s).orElse s
  | .trig n => (execTrigWrite n 64 d s).orElse s
  | .gload n => (s.gloadWrite n 64 d).orElse s
  | .patchbase n => s.modCtx n fun c => { c with patchbase := aligned v 6 }
  | .cplbase n => s.modCtx n fun c => { c with cplbase := aligned v 12 }
  | .cplsize n => s.modCtx n fun c => { c with cplsize := logSize v }
  | .window _ | .vdsavemax _ | .ilcount _ | .invstat _ | .fphead _ | .movestat | .hotval | .moving | .partstat | .fqtail _ | .fqdrop _
  | .replaystat _ | .abseq | .abcount | .event _ | .therm _ | .clupwr _ | .mxcad _ _ | .seqacc _ | .seqemit _ | .gstat _ => s

/-- REGISTER_WRITE (R4): a write of a register's width at its offset in the space of a function; a reserved offset, or another width,
stores nothing (R6, R180). -/
def execRegisterWrite (offset : BarOffset) (width : Nat) (value : BitVec 128) (s : State) : Result :=
  .next (match fnReg offset.fn offset.off with
  | some r => if r.width = width then s.writeReg r value else s
  | none => s)

end Sys2Proof.Machine
end

