-- ==== Sys2Proof/Machine/Reset.lean ====
section
/-! DEFINITION. Cold and warm reset (R5, R321). -/

namespace Sys2Proof.Machine

/-- COLD_RESET (R5, R321): every register field takes its reset value and the Amber black box is empty. What stays is no register: the
repairs of storage and the frames that never return to a pool (R323), and the model's own count of free values and its outbox. -/
def execColdReset (s : State) : Result :=
  .next { State.reset with fresh := s.fresh, outbox := s.outbox, tests := { s.tests with times := [] } }

/-- A port after a warm reset: RETRAINS counts since cold reset (R178). -/
def Port.warm (start p : Port) : Port := { start with retrains := p.retrains }

/-- A cluster after a warm reset: its cores' clocks count since cold reset (R306). -/
def Cluster.warm (k : Cluster) : Cluster := { Cluster.init with clk := k.clk, idleFrom := k.idleFrom }

/-- WARM_RESET (R321): the device is reset and the Amber black box survives. TIME, CLOCK and RETRAINS count since cold reset, a retired
core stays retired until cold reset (R323), the sensors go on reading (R332). -/
def execWarmReset (s : State) : Result :=
  .next { State.reset with
    fresh := s.fresh, outbox := s.outbox, tests := s.tests, amber := s.amber, t7 := s.t7, shutdown := s.shutdown,
    cores := (s.cores.filter fun e => e.2.retired).map fun e => (e.1, { Core.init with retired := true }),
    clusters := s.clusters.map fun e => (e.1, e.2.warm),
    link := { Link.init with ports := (List.range 37).foldl (fun (t : Tab Port) p =>
      tset Port.init t p ((tget Port.init Link.init.ports p).warm (tget Port.init s.link.ports p))) [] },
    mc := { Mc.init with therm := s.mc.therm } }

end Sys2Proof.Machine
end

