-- ==== Sys2Proof/Machine/Scalar.lean ====
section
/-! DEFINITION. The uniform scalar instructions (R251 to R256) but for SLD and SST. -/

namespace Sys2Proof.Machine

/-- A uniform scalar instruction: one result, 2 clk (R252). -/
def scalarOp (i : Instr) (h : Hints) (op : AluOp) (d a : Opd) (b : SrcB) (s : State) : Result :=
  runInstr i h (fun q s => .done (s.writeLater q 2 (sTargets d [(alu op (q.uni a) (q.uniB b) 0).1]) 0 q.cnt)) s

/-- SADD (R253). -/
def execSadd (h : Hints) (d : Opd) (a : Opd) (b : SrcB) (s : State) : Result :=
  scalarOp (.sadd h d a b) h (.iadd .wrap) d a b s

/-- SSUB (R253). -/
def execSsub (h : Hints) (d : Opd) (a : Opd) (b : SrcB) (s : State) : Result :=
  scalarOp (.ssub h d a b) h (.isub .wrap) d a b s

/-- SMUL (R253). -/
def execSmul (h : Hints) (d : Opd) (a : Opd) (b : SrcB) (s : State) : Result :=
  scalarOp (.smul h d a b) h .imul d a b s

/-- SAND (R253). -/
def execSand (h : Hints) (d : Opd) (a : Opd) (b : SrcB) (s : State) : Result :=
  scalarOp (.sand h d a b) h .and d a b s

/-- SOR (R253). -/
def execSor (h : Hints) (d : Opd) (a : Opd) (b : SrcB) (s : State) : Result :=
  scalarOp (.sor h d a b) h .or d a b s

/-- SXOR (R253). -/
def execSxor (h : Hints) (d : Opd) (a : Opd) (b : SrcB) (s : State) : Result :=
  scalarOp (.sxor h d a b) h .xor d a b s

/-- SSHL (R253). -/
def execSshl (h : Hints) (d : Opd) (a : Opd) (b : SrcB) (s : State) : Result :=
  scalarOp (.sshl h d a b) h .shl d a b s

/-- SSHR (R253). -/
def execSshr (h : Hints) (sx : Bool) (d : Opd) (a : Opd) (b : SrcB) (s : State) : Result :=
  scalarOp (.sshr h sx d a b) h (if sx then .sar else .shr) d a b s

/-- SMOV's effect (R253). -/
def smovBody (w64 : Bool) (d : Opd) (b : SrcB) (q : Iss) (s : State) : Res :=
  let ws := if w64 then dwordsOf (match b with | .reg o => q.uni64 o | .lit n => n.signExtend 64) else [q.uniB b]
  .done (s.writeLater q 2 (sTargets d ws) 0 q.cnt)
where
  /-- The words of a 64-bit value, low word first. -/
  dwordsOf (x : DWord) : List Word := [x.setWidth 32, x.extractLsb' 32 32]

/-- SMOV (R253). -/
def execSmov (h : Hints) (w64 : Bool) (d : Opd) (b : SrcB) (s : State) : Result :=
  runInstr (.smov h w64 d b) h (smovBody w64 d b) s

/-- SCMP (R254). -/
def execScmp (h : Hints) (cond : Cond) (uns : Bool) (d : Opd) (a : Opd) (b : SrcB) (s : State) : Result :=
  scalarOp (.scmp h cond uns d a b) h (.icmp cond uns) d a b s

/-- SMIN (R253). -/
def execSmin (h : Hints) (u : Bool) (d : Opd) (a : Opd) (b : SrcB) (s : State) : Result :=
  scalarOp (.smin h u d a b) h (.imin u) d a b s

/-- SMAX (R253). -/
def execSmax (h : Hints) (u : Bool) (d : Opd) (a : Opd) (b : SrcB) (s : State) : Result :=
  scalarOp (.smax h u d a b) h (.imax u) d a b s

/-- VREAD's effect (R256). -/
def vreadBody (d a : Opd) (b : SrcB) (q : Iss) (s : State) : Res :=
  let x := q.src a ((q.uniB b).toNat % 32)
  if x.tag then .bad 0x20 else .done (s.writeLater q 4 (sTargets d [x.w]) 0 q.cnt)

/-- VREAD (R256). -/
def execVread (h : Hints) (d a : Opd) (b : SrcB) (s : State) : Result := runInstr (.vread h d a b) h (vreadBody d a b) s

/-- VWRITE's effect: lane n, when it is a participant, or every participant lane (R256). -/
def vwriteBody (all : Bool) (d a : Opd) (b : SrcB) (q : Iss) (s : State) : Res :=
  let ls := if all then q.lanes else q.lanes.filter fun l => l == (q.uniB b).toNat % 32
  match d with
  | .v r =>
    .done ((s.writeLater q 4 (ls.map fun l => (.v r.toNat l, (q.uni a).toNat)) 0 q.cnt).dropOld q [r.toNat] ls)
  | _ => .done (s.writeLater q 4 [] 0 q.cnt)

/-- VWRITE (R256). -/
def execVwrite (h : Hints) (all : Bool) (d a : Opd) (b : SrcB) (s : State) : Result :=
  runInstr (.vwrite h all d a b) h (vwriteBody all d a b) s

end Sys2Proof.Machine
end

