-- ==== Sys2Proof/Machine/Dispatch.lean ====
section
/-! DEFINITION. One arm per instruction or event: a direct call of its meaning. -/

namespace Sys2Proof.Machine

/-- The meaning of an instruction or event of the table. -/
def exec (i : Instr) (s : State) : Host.Outcome State Fault Refusal :=
  match i with
  | .nop h => Sys2Proof.Machine.execNop h s
  | .bra h not u a n => Sys2Proof.Machine.execBra h not u a n s
  | .brx h a b => Sys2Proof.Machine.execBrx h a b s
  | .call h d b => Sys2Proof.Machine.execCall h d b s
  | .ret h a => Sys2Proof.Machine.execRet h a s
  | .join h => Sys2Proof.Machine.execJoin h s
  | .exit h => Sys2Proof.Machine.execExit h s
  | .trap h b => Sys2Proof.Machine.execTrap h b s
  | .rett h => Sys2Proof.Machine.execRett h s
  | .region h n => Sys2Proof.Machine.execRegion h n s
  | .regend h => Sys2Proof.Machine.execRegend h s
  | .yield h n => Sys2Proof.Machine.execYield h n s
  | .elect h d => Sys2Proof.Machine.execElect h d s
  | .vote h kind d a => Sys2Proof.Machine.execVote h kind d a s
  | .wait h a n => Sys2Proof.Machine.execWait h a n s
  | .waitc h n => Sys2Proof.Machine.execWaitc h n s
  | .iadd h ovf d a b => Sys2Proof.Machine.execIadd h ovf d a b s
  | .isub h ovf d a b => Sys2Proof.Machine.execIsub h ovf d a b s
  | .imul h d a b => Sys2Proof.Machine.execImul h d a b s
  | .imulh h u d a b => Sys2Proof.Machine.execImulh h u d a b s
  | .imad h d a b c => Sys2Proof.Machine.execImad h d a b c s
  | .idiv h u d a b => Sys2Proof.Machine.execIdiv h u d a b s
  | .irem h u d a b => Sys2Proof.Machine.execIrem h u d a b s
  | .imin h u d a b => Sys2Proof.Machine.execImin h u d a b s
  | .imax h u d a b => Sys2Proof.Machine.execImax h u d a b s
  | .iabs h sat d a => Sys2Proof.Machine.execIabs h sat d a s
  | .and h d a b => Sys2Proof.Machine.execAnd h d a b s
  | .or h d a b => Sys2Proof.Machine.execOr h d a b s
  | .xor h d a b => Sys2Proof.Machine.execXor h d a b s
  | .shl h d a b => Sys2Proof.Machine.execShl h d a b s
  | .shr h d a b => Sys2Proof.Machine.execShr h d a b s
  | .sar h d a b => Sys2Proof.Machine.execSar h d a b s
  | .rotl h d a b => Sys2Proof.Machine.execRotl h d a b s
  | .bfe h sx d a b => Sys2Proof.Machine.execBfe h sx d a b s
  | .bfi h d a b c => Sys2Proof.Machine.execBfi h d a b c s
  | .popc h d a => Sys2Proof.Machine.execPopc h d a s
  | .clz h d a => Sys2Proof.Machine.execClz h d a s
  | .brev h d a => Sys2Proof.Machine.execBrev h d a s
  | .isetp h cond uns d a b => Sys2Proof.Machine.execIsetp h cond uns d a b s
  | .sel h not pred d a b => Sys2Proof.Machine.execSel h not pred d a b s
  | .mov h d b => Sys2Proof.Machine.execMov h d b s
  | .iadd2 h ovf d a b => Sys2Proof.Machine.execIadd2 h ovf d a b s
  | .isub2 h ovf d a b => Sys2Proof.Machine.execIsub2 h ovf d a b s
  | .imin2 h u d a b => Sys2Proof.Machine.execImin2 h u d a b s
  | .imax2 h u d a b => Sys2Proof.Machine.execImax2 h u d a b s
  | .isetp2 h cond uns d a b => Sys2Proof.Machine.execIsetp2 h cond uns d a b s
  | .plop h lut d a c b => Sys2Proof.Machine.execPlop h lut d a c b s
  | .lea h u scale d a b => Sys2Proof.Machine.execLea h u scale d a b s
  | .fadd h rnd d a b => Sys2Proof.Machine.execFadd h rnd d a b s
  | .fsub h rnd d a b => Sys2Proof.Machine.execFsub h rnd d a b s
  | .fmul h rnd d a b => Sys2Proof.Machine.execFmul h rnd d a b s
  | .ffma h rnd d a b c => Sys2Proof.Machine.execFfma h rnd d a b c s
  | .fmin h d a b => Sys2Proof.Machine.execFmin h d a b s
  | .fmax h d a b => Sys2Proof.Machine.execFmax h d a b s
  | .fsetp h cond d a b => Sys2Proof.Machine.execFsetp h cond d a b s
  | .frcp h rnd d a => Sys2Proof.Machine.execFrcp h rnd d a s
  | .frsq h d a => Sys2Proof.Machine.execFrsq h d a s
  | .fsqrt h rnd d a => Sys2Proof.Machine.execFsqrt h rnd d a s
  | .fexp2 h d a => Sys2Proof.Machine.execFexp2 h d a s
  | .flog2 h d a => Sys2Proof.Machine.execFlog2 h d a s
  | .fsin h d a => Sys2Proof.Machine.execFsin h d a s
  | .fcos h d a => Sys2Proof.Machine.execFcos h d a s
  | .hadd2 h bf rnd d a b => Sys2Proof.Machine.execHadd2 h bf rnd d a b s
  | .hmul2 h bf rnd d a b => Sys2Proof.Machine.execHmul2 h bf rnd d a b s
  | .hfma2 h bf rnd d a b c => Sys2Proof.Machine.execHfma2 h bf rnd d a b c s
  | .f2i h u rnd d a => Sys2Proof.Machine.execF2i h u rnd d a s
  | .i2f h u rnd d a => Sys2Proof.Machine.execI2f h u rnd d a s
  | .cvt h elem sat rnd dst src d a => Sys2Proof.Machine.execCvt h elem sat rnd dst src d a s
  | .quant h rnd d a => Sys2Proof.Machine.execQuant h rnd d a s
  | .fclass h d a => Sys2Proof.Machine.execFclass h d a s
  | .sadd h d a b => Sys2Proof.Machine.execSadd h d a b s
  | .ssub h d a b => Sys2Proof.Machine.execSsub h d a b s
  | .smul h d a b => Sys2Proof.Machine.execSmul h d a b s
  | .sand h d a b => Sys2Proof.Machine.execSand h d a b s
  | .sor h d a b => Sys2Proof.Machine.execSor h d a b s
  | .sxor h d a b => Sys2Proof.Machine.execSxor h d a b s
  | .sshl h d a b => Sys2Proof.Machine.execSshl h d a b s
  | .sshr h sx d a b => Sys2Proof.Machine.execSshr h sx d a b s
  | .smov h w64 d b => Sys2Proof.Machine.execSmov h w64 d b s
  | .scmp h cond uns d a b => Sys2Proof.Machine.execScmp h cond uns d a b s
  | .smin h u d a b => Sys2Proof.Machine.execSmin h u d a b s
  | .smax h u d a b => Sys2Proof.Machine.execSmax h u d a b s
  | .sld h width d a m => Sys2Proof.Machine.execSld h width d a m s
  | .sst h width d a m => Sys2Proof.Machine.execSst h width d a m s
  | .vread h d a b => Sys2Proof.Machine.execVread h d a b s
  | .vwrite h all d a b => Sys2Proof.Machine.execVwrite h all d a b s
  | .pset h raw d a => Sys2Proof.Machine.execPset h raw d a s
  | .perm h d a b => Sys2Proof.Machine.execPerm h d a b s
  | .bcast h d a b => Sys2Proof.Machine.execBcast h d a b s
  | .ld h width d a m => Sys2Proof.Machine.execLd h width d a m s
  | .st h width d a m => Sys2Proof.Machine.execSt h width d a m s
  | .lds h width d a m => Sys2Proof.Machine.execLds h width d a m s
  | .sts h width d a m => Sys2Proof.Machine.execSts h width d a m s
  | .atom h op w64 d a m => Sys2Proof.Machine.execAtom h op w64 d a m s
  | .atoms h op w64 d a m => Sys2Proof.Machine.execAtoms h op w64 d a m s
  | .frame h d a => Sys2Proof.Machine.execFrame h d a s
  | .pub h scope => Sys2Proof.Machine.execPub h scope s
  | .acq h scope => Sys2Proof.Machine.execAcq h scope s
  | .fence h scope => Sys2Proof.Machine.execFence h scope s
  | .ldx h d a m => Sys2Proof.Machine.execLdx h d a m s
  | .mat h d a => Sys2Proof.Machine.execMat h d a s
  | .pxrel h d => Sys2Proof.Machine.execPxrel h d s
  | .ispx h d a => Sys2Proof.Machine.execIspx h d a s
  | .copy h dsp ssp d a b c => Sys2Proof.Machine.execCopy h dsp ssp d a b c s
  | .tdef h d a => Sys2Proof.Machine.execTdef h d a s
  | .tmov h d a c => Sys2Proof.Machine.execTmov h d a c s
  | .tstat h d a => Sys2Proof.Machine.execTstat h d a s
  | .tfree h d => Sys2Proof.Machine.execTfree h d s
  | .txinit h a b => Sys2Proof.Machine.execTxinit h a b s
  | .txexpect h a b => Sys2Proof.Machine.execTxexpect h a b s
  | .txarrive h a b => Sys2Proof.Machine.execTxarrive h a b s
  | .txwait h a b => Sys2Proof.Machine.execTxwait h a b s
  | .txtest h d a b => Sys2Proof.Machine.execTxtest h d a b s
  | .cbar h a b => Sys2Proof.Machine.execCbar h a b s
  | .mloadb h fmt slot d b => Sys2Proof.Machine.execMloadb h fmt slot d b s
  | .mma h fmt slot sc d a b => Sys2Proof.Machine.execMma h fmt slot sc d a b s
  | .mchain h => Sys2Proof.Machine.execMchain h s
  | .mend h => Sys2Proof.Machine.execMend h s
  | .oprdy h a => Sys2Proof.Machine.execOprdy h a s
  | .mzero h d => Sys2Proof.Machine.execMzero h d s
  | .mread h fmt f32 d a b => Sys2Proof.Machine.execMread h fmt f32 d a b s
  | .mwrite h fmt f32 d a b => Sys2Proof.Machine.execMwrite h fmt f32 d a b s
  | .mscale h slot side d b => Sys2Proof.Machine.execMscale h slot side d b s
  | .mrowred h op d a => Sys2Proof.Machine.execMrowred h op d a s
  | .finit h a => Sys2Proof.Machine.execFinit h a s
  | .unite h a b c => Sys2Proof.Machine.execUnite h a b c s
  | .find h label d a b => Sys2Proof.Machine.execFind h label d a b s
  | .relabel h compact s32 op a b c => Sys2Proof.Machine.execRelabel h compact s32 op a b c s
  | .fsnap h a => Sys2Proof.Machine.execFsnap h a s
  | .fundo h a => Sys2Proof.Machine.execFundo h a s
  | .fcommit h a => Sys2Proof.Machine.execFcommit h a s
  | .fstat h d a => Sys2Proof.Machine.execFstat h d a s
  | .gets h d a => Sys2Proof.Machine.execGets h d a s
  | .sets h d b => Sys2Proof.Machine.execSets h d b s
  | .time h d => Sys2Proof.Machine.execTime h d s
  | .clock h d => Sys2Proof.Machine.execClock h d s
  | .qput h queue a => Sys2Proof.Machine.execQput h queue a s
  | .hint h kind a => Sys2Proof.Machine.execHint h kind a s
  | .wopen h d a b => Sys2Proof.Machine.execWopen h d a b s
  | .wclose h b => Sys2Proof.Machine.execWclose h b s
  | .tlbinv h a b => Sys2Proof.Machine.execTlbinv h a b s
  | .bkpt h b => Sys2Proof.Machine.execBkpt h b s
  | .partitionIssueClock core part => Sys2Proof.Machine.execPartitionIssueClock core part s
  | .reconvergenceFill wid split => Sys2Proof.Machine.execReconvergenceFill wid split s
  | .resultWriteback wid wb => Sys2Proof.Machine.execResultWriteback wid wb s
  | .memorySectorReturn wid req sector => Sys2Proof.Machine.execMemorySectorReturn wid req sector s
  | .tlbMissServed wid req page evictCore evictCluster => Sys2Proof.Machine.execTlbMissServed wid req page evictCore evictCluster s
  | .storeAccepted wid entry => Sys2Proof.Machine.execStoreAccepted wid entry s
  | .releaseComplete wid rel => Sys2Proof.Machine.execReleaseComplete wid rel s
  | .atomicPerform wid req sector => Sys2Proof.Machine.execAtomicPerform wid req sector s
  | .portAccess op => Sys2Proof.Machine.execPortAccess op s
  | .slotGrant core home slots => Sys2Proof.Machine.execSlotGrant core home slots s
  | .postedOperationExecute item => Sys2Proof.Machine.execPostedOperationExecute item s
  | .proxyForward item => Sys2Proof.Machine.execProxyForward item s
  | .ldxFill item => Sys2Proof.Machine.execLdxFill item s
  | .referenceCountChange item => Sys2Proof.Machine.execReferenceCountChange item s
  | .crossingResult item => Sys2Proof.Machine.execCrossingResult item s
  | .postedTimeout item => Sys2Proof.Machine.execPostedTimeout item s
  | .homeStorePerform home store => Sys2Proof.Machine.execHomeStorePerform home store s
  | .matrixCommandExecute cmd sel => Sys2Proof.Machine.execMatrixCommandExecute cmd sel s
  | .forestAccept op order => Sys2Proof.Machine.execForestAccept op order s
  | .copyTake team cmd => Sys2Proof.Machine.execCopyTake team cmd s
  | .copySectorLand team cmd sector => Sys2Proof.Machine.execCopySectorLand team cmd sector s
  | .copyFault team cmd cause addr => Sys2Proof.Machine.execCopyFault team cmd cause addr s
  | .leafArrivalDelivery cluster leaf => Sys2Proof.Machine.execLeafArrivalDelivery cluster leaf s
  | .rootBroadcast cluster leaf => Sys2Proof.Machine.execRootBroadcast cluster leaf s
  | .teamPlacement => Sys2Proof.Machine.execTeamPlacement s
  | .lazySaveComplete block => Sys2Proof.Machine.execLazySaveComplete block s
  | .saveAreaRetry block ok => Sys2Proof.Machine.execSaveAreaRetry block ok s
  | .waveSlotRelease wid => Sys2Proof.Machine.execWaveSlotRelease wid s
  | .teamMigration team core => Sys2Proof.Machine.execTeamMigration team core s
  | .gridComplete grid => Sys2Proof.Machine.execGridComplete grid s
  | .trigWrite ctx width value => Sys2Proof.Machine.execTrigWrite ctx width value s
  | .patchApply launch => Sys2Proof.Machine.execPatchApply launch s
  | .admission => Sys2Proof.Machine.execAdmission s
  | .gloadAddressWrite ctx width value => Sys2Proof.Machine.execGloadAddressWrite ctx width value s
  | .gloadLoad ctx width value => Sys2Proof.Machine.execGloadLoad ctx width value s
  | .gloadUnload ctx width value => Sys2Proof.Machine.execGloadUnload ctx width value s
  | .gloadSequenceError ctx width value => Sys2Proof.Machine.execGloadSequenceError ctx width value s
  | .gloadLoadComplete ctx copyFails => Sys2Proof.Machine.execGloadLoadComplete ctx copyFails s
  | .create ctx => Sys2Proof.Machine.execCreate ctx s
  | .keygen ctx => Sys2Proof.Machine.execKeygen ctx s
  | .grant ctx => Sys2Proof.Machine.execGrant ctx s
  | .admitCtx ctx => Sys2Proof.Machine.execAdmitCtx ctx s
  | .suspend ctx => Sys2Proof.Machine.execSuspend ctx s
  | .suspendComplete ctx => Sys2Proof.Machine.execSuspendComplete ctx s
  | .reset ctx => Sys2Proof.Machine.execReset ctx s
  | .resetDrainComplete ctx => Sys2Proof.Machine.execResetDrainComplete ctx s
  | .release ctx => Sys2Proof.Machine.execRelease ctx s
  | .vdctlUndefinedCommand ctx code => Sys2Proof.Machine.execVdctlUndefinedCommand ctx code s
  | .backgroundScrub sector => Sys2Proof.Machine.execBackgroundScrub sector s
  | .integrityReread target check again => Sys2Proof.Machine.execIntegrityReread target check again s
  | .selfTestComplete site err fails => Sys2Proof.Machine.execSelfTestComplete site err fails s
  | .windowOpened window => Sys2Proof.Machine.execWindowOpened window s
  | .windowClosed window => Sys2Proof.Machine.execWindowClosed window s
  | .replayWave ctx value => Sys2Proof.Machine.execReplayWave ctx value s
  | .replayDeliverTrap ctx value => Sys2Proof.Machine.execReplayDeliverTrap ctx value s
  | .replayUnrecovered ctx value => Sys2Proof.Machine.execReplayUnrecovered ctx value s
  | .replayInvalidAction ctx value => Sys2Proof.Machine.execReplayInvalidAction ctx value s
  | .heldFaultRecordWrite ctx => Sys2Proof.Machine.execHeldFaultRecordWrite ctx s
  | .invcntWrite ctx value => Sys2Proof.Machine.execInvcntWrite ctx value s
  | .invalidationComplete inv => Sys2Proof.Machine.execInvalidationComplete inv s
  | .movereq value => Sys2Proof.Machine.execMovereq value s
  | .hotsel value => Sys2Proof.Machine.execHotsel value s
  | .policyInterval => Sys2Proof.Machine.execPolicyInterval s
  | .moveCutComplete move => Sys2Proof.Machine.execMoveCutComplete move s
  | .moveSectorCopy move sourceFails => Sys2Proof.Machine.execMoveSectorCopy move sourceFails s
  | .moveSourceRelease move => Sys2Proof.Machine.execMoveSourceRelease move s
  | .moveCopyTimeout move destFailed => Sys2Proof.Machine.execMoveCopyTimeout move destFailed s
  | .moveCopyBack move reachable => Sys2Proof.Machine.execMoveCopyBack move reachable s
  | .portEnable port => Sys2Proof.Machine.execPortEnable port s
  | .portDisable port => Sys2Proof.Machine.execPortDisable port s
  | .portTrainingComplete port capacity => Sys2Proof.Machine.execPortTrainingComplete port capacity s
  | .portTrainingFail port => Sys2Proof.Machine.execPortTrainingFail port s
  | .portLinkLost port => Sys2Proof.Machine.execPortLinkLost port s
  | .flitReceive port good => Sys2Proof.Machine.execFlitReceive port good s
  | .inboundRequest port rq => Sys2Proof.Machine.execInboundRequest port rq s
  | .hostMemAccess addr rq => Sys2Proof.Machine.execHostMemAccess addr rq s
  | .remoteReply req rp => Sys2Proof.Machine.execRemoteReply req rp s
  | .remoteTimeout req => Sys2Proof.Machine.execRemoteTimeout req s
  | .partWrite part value => Sys2Proof.Machine.execPartWrite part value s
  | .commandSlot group => Sys2Proof.Machine.execCommandSlot group s
  | .tokenBucketFill ctx group span => Sys2Proof.Machine.execTokenBucketFill ctx group span s
  | .rowIdleClose channel bank => Sys2Proof.Machine.execRowIdleClose channel bank s
  | .refreshDue channel => Sys2Proof.Machine.execRefreshDue channel s
  | .allBankRefreshEnd channel => Sys2Proof.Machine.execAllBankRefreshEnd channel s
  | .thermalThresholdCrossing stack temp => Sys2Proof.Machine.execThermalThresholdCrossing stack temp s
  | .powerWindowEnd cluster watts => Sys2Proof.Machine.execPowerWindowEnd cluster watts s
  | .islandVoltageStable cluster island => Sys2Proof.Machine.execIslandVoltageStable cluster island s
  | .islctlWrite cluster island value => Sys2Proof.Machine.execIslctlWrite cluster island value s
  | .droopDetect cluster => Sys2Proof.Machine.execDroopDetect cluster s
  | .droopStretchEnd cluster => Sys2Proof.Machine.execDroopStretchEnd cluster s
  | .droopHalvingEnd cluster => Sys2Proof.Machine.execDroopHalvingEnd cluster s
  | .clusterGateRequest cluster => Sys2Proof.Machine.execClusterGateRequest cluster s
  | .clusterAutoGate cluster => Sys2Proof.Machine.execClusterAutoGate cluster s
  | .clusterGated cluster => Sys2Proof.Machine.execClusterGated cluster s
  | .clusterWakeRequest cluster => Sys2Proof.Machine.execClusterWakeRequest cluster s
  | .clusterWakeComplete cluster => Sys2Proof.Machine.execClusterWakeComplete cluster s
  | .coldReset => Sys2Proof.Machine.execColdReset s
  | .warmReset => Sys2Proof.Machine.execWarmReset s
  | .registerWrite offset width value => Sys2Proof.Machine.execRegisterWrite offset width value s
  | .homeUnitFailure home => Sys2Proof.Machine.execHomeUnitFailure home s
  | .perBankRefreshComplete channel bank => Sys2Proof.Machine.execPerBankRefreshComplete channel bank s

end Sys2Proof.Machine
end

