-- ==== Sys2Proof/Machine/Sched.lean ====
section
/-! DEFINITION. One clock of the device: time and the clusters' clocks advance (R2, R306, R337), what is due is put on the agenda,
then some of the asynchronous steps that stand open, in an order that is free, then the clock of every occupied partition. -/

namespace Sys2Proof.Machine

/-- One clock period of the device for a cluster: a stretched clock takes two (R337); the count stands still while the cluster is
GATED (R306). The stretched and the halving clocks left fall to 1, from where their end is a step of its own. -/
def Cluster.advance (k : Cluster) : Cluster :=
  if k.pwr = .gated then k
  else if k.stretch > 0 ∧ !k.half then { k with half := true }
  else { k with half := false, clk := k.clk + 1, stretch := if k.stretch > 1 then k.stretch - 1 else k.stretch,
                halving := if k.stretch = 0 ∧ k.halving > 1 then k.halving - 1 else k.halving }

/-- Whether a cluster begins a clock with this period. -/
def Cluster.ticks (k : Cluster) : Bool := !(k.pwr == .gated) && !(decide (k.stretch > 0) && !k.half)

/-- Event steps as tasks. -/
def tasks (l : List Instr) : List Task := l.map Task.ev

/-- Keys of a table. -/
def keysOf {α : Type} (t : Tab α) : List Nat := t.map (·.1)

/-- The steps of power control that are due in a cluster (R335, R337, R339): `before` is the cluster as the clock found it. -/
def State.powerDue (s : State) (before : Cluster) (c : Nat) : List Instr :=
  let k := s.cluster c
  (if before.ticks && before.stretch == 1 then [Instr.droopStretchEnd c] else [])
    ++ (if before.ticks && before.stretch == 0 && before.halving == 1 then [Instr.droopHalvingEnd c] else [])
    ++ (if before.ticks && k.clk % 4096 == 0 then [Instr.powerWindowEnd c (Config.pick (s.fresh + c))] else [])
    ++ ((List.range 4).filter fun i => (k.isl i).mode == 2 && decide ((k.isl i).rose + 1400 ≤ k.clk)).map (Instr.islandVoltageStable c)
    ++ (if k.pwr == .waking && decide (k.wakeAt ≤ k.clk) then [Instr.clusterWakeComplete c] else [])
    ++ (if k.pwr == .on && k.auto && decide (k.idleFrom + 7000000 ≤ s.t7) then [Instr.clusterAutoGate c] else [])

/-- The results of a wave that are due, in the order of their clocks (R92). -/
def State.resultsDue (s : State) (wid : Nat) (w : Wave) : List Instr :=
  ((w.pend.filter fun p => decide (p.due ≤ s.clk (wCore wid))).mergeSort fun a b => decide (a.due ≤ b.due)).map fun p => Instr.resultWriteback wid p.id

/-- The fills of a wave's reconvergence stack that are due (R90). -/
def State.fillsDue (s : State) (wid : Nat) (w : Wave) : List Instr :=
  ((List.range 4).filter fun k => (w.split k).filling && decide ((w.split k).notBefore ≤ s.clk (wCore wid))).map (Instr.reconvergenceFill wid)

/-- Whether a period of `p` sevenths of a nanosecond ends with this clock. -/
def State.every (s : State) (p : Nat) : Bool := s.t7 / p != (s.t7 - 5) / p

/-- The refreshes of the HBM4E pseudo-channels that fall due (R330, R331). -/
def State.refreshesDue (s : State) : List Instr :=
  ((List.range 512).filter fun ch =>
    s.every (if (tget ((0, 0) : BitVec 8 × BitVec 2) s.mc.therm (ch / 64)).2.toNat ≥ 1 then 854 else 1708)).map Instr.refreshDue

/-- What ends in the banks at its time: a refresh, an all-bank refresh, a row that has been idle; a bank that owes refreshes repays one
(R330, R331). -/
def State.banksDue (s : State) : List Instr :=
  (s.mc.banks.flatMap fun (e : Nat × Bank) =>
      (match e.2.refreshing with | some t => if t + 840 ≤ s.t7 then [Instr.perBankRefreshComplete (e.1 / 16) (e.1 % 16)] else [] | none => [])
        ++ (if if e.2.row.isSome then decide (e.2.lastUse + 700 ≤ s.t7) else decide (e.2.owes > 0) && e.2.refreshing.isNone
            then [Instr.rowIdleClose (e.1 / 16) (e.1 % 16)] else []))
    ++ (s.mc.allRef.filter fun e => decide (e.2 ≠ 0) && decide (e.2 + 2450 ≤ s.t7 + 1)).map fun e => Instr.allBankRefreshEnd e.1

/-- The buckets that are not full gain a clock's tokens (R328). -/
def State.fillsOfBuckets (s : State) : List Instr :=
  s.mc.spent.map fun (e : Nat × Int) => Instr.tokenBucketFill (e.1 / 72) (e.1 % 72) 5

/-- The evaluation of the migration policy, when its interval ends (R157, R158). -/
def State.policyDue (s : State) : List Instr :=
  let us := (s.pme.policy.extractLsb' 8 24).toNat
  if us ≠ 0 ∧ s.every (7000 * us) then [.policyInterval] else []

/-- The steps that a wave's requests and stores leave open. -/
def openOfWave (n wid : Nat) (w : Wave) : List Instr :=
  let mem := fun (p : Piece) => match p.loc with | .mem pa _ => some (pa / 32) | _ => none
  (w.reqs.flatMap fun r =>
      ((r.pieces.filter fun p => p.st == .served).filterMap mem).eraseDups.map (Instr.memorySectorReturn wid r.id)
        ++ ((((r.pieces.filter fun p => p.st == .untranslated).map fun p => p.va.toNat / 65536).eraseDups).map fun v =>
            Instr.tlbMissServed wid r.id v (Config.pick n) (Config.pick (n + 1)))
        ++ (if performsAtOwner r.instr then (((r.pieces.filter fun p => p.st == .ready).filterMap mem).eraseDups).map (Instr.atomicPerform wid r.id) else []))
    ++ (w.sb.map fun e => Instr.storeAccepted wid e.id) ++ (w.rels.map fun r => Instr.releaseComplete wid r.id)
    ++ (if w.stat == .exited then [Instr.waveSlotRelease wid] else [])

/-- The step that a message to a home leaves open. -/
def openOfItem (it : HomeItem) : Instr :=
  match it.kind with
  | .forward .. => .proxyForward it.id
  | .fill .. => .ldxFill it.id
  | .count .. => .referenceCountChange it.id
  | _ => if it.queued then .homeStorePerform it.home it.id else if it.crosses then .crossingResult it.id else .postedOperationExecute it.id

/-- The steps that a team's copies leave open (R129). -/
def openOfTeam (tid : Nat) (t : Team) : List Instr :=
  ((t.issued ++ t.tmq).map fun p => Instr.copyTake tid p.id) ++ t.active.flatMap fun a => a.left.map (Instr.copySectorLand tid a.id)

/-- The FREE slots with which a home could answer a core, from a place onward (R101). -/
def State.grantChoice (s : State) (core home start : Nat) : List Nat :=
  let n := min (64 - ((s.core core).pool home).length) (s.freeSlots home)
  (((List.range (n + (s.home home).slots.length)).map fun k => (start + k) % homeSlots home).filter fun i => (s.slot home i).st == .free).take n

/-- The grants that the cores with waves ask for (R101). -/
def State.openGrants (s : State) (n : Nat) : List Instr :=
  ((keysOf s.waves).map wCore).eraseDups.flatMap fun c =>
    ((List.range 10).filter fun h => decide (((s.core c).pool h).length < 32)).map fun h => Instr.slotGrant c h (s.grantChoice c h (Config.pick n))

/-- An order of n things, by free keys. -/
def shuffle (n seed : Nat) : List Nat := (List.range n).mergeSort fun a b => decide (Config.pick (seed + a) ≤ Config.pick (seed + b))

/-- The acceptance of a forest instruction, with an order for its elements (R173). -/
def State.openForest (s : State) (n : Nat) (x : FOp) : Instr :=
  let ctx := match tfind s.waves x.wid with | some w => w.ctx | none => 0
  .forestAccept x.id (match x.instr, s.readDesc ⟨ctx, x.id⟩ x.desc with
    | .relabel .., .ok (_, d) => if d.valid then shuffle d.n n else []
    | _, _ => [])

/-- A step of a matrix command: one cell or all, one group of steps or all (R297). -/
def openMatrix (n : Nat) (c : MCmd) : Instr :=
  let k := Config.pick n
  let cells := c.cells
  .matrixCommandExecute c.id ⟨if k % 2 = 0 then [] else (cells[k / 2 % cells.length]?).toList,
    if Config.pick (n + 1) % 2 = 0 then [] else [Config.pick (n + 2) % 64]⟩

/-- The steps that a move leaves open (R160). -/
def openOfMove (k : Nat) : List Instr :=
  [.moveCutComplete k, .moveSectorCopy k false, .moveSourceRelease k, .moveCopyTimeout k false, .moveCopyBack k true]

/-- The steps of a context that stand open. -/
def openOfCtx (n : Nat) (c : Ctx) : List Instr :=
  (if c.gcmd.isSome then [Instr.gloadLoadComplete n false] else []) ++ (if c.draining then [Instr.suspendComplete n] else [])
    ++ (if c.st == .resetting then [Instr.resetDrainComplete n] else [])
    ++ (if !c.held.isEmpty && !c.fqFull then [Instr.heldFaultRecordWrite n] else [])

/-- Every asynchronous step of the device that stands open. A step whose conditions do not hold changes nothing. -/
def State.openSteps (s : State) (n : Nat) : List Instr :=
  (s.waves.flatMap fun (e : Nat × Wave) => openOfWave n e.1 e.2)
    ++ s.portq.map (fun p => Instr.portAccess p.id) ++ s.homeq.map openOfItem ++ s.homeq.map (fun it => Instr.postedTimeout it.id)
    ++ s.openGrants n ++ s.mxq.map (openMatrix n) ++ s.forestq.map (s.openForest n)
    ++ (s.teams.flatMap fun (e : Nat × Team) => openOfTeam e.1 e.2)
    ++ (s.clusters.flatMap fun (e : Nat × Cluster) => e.2.leaves.flatMap fun l => [Instr.leafArrivalDelivery e.1 l.id, Instr.rootBroadcast e.1 l.id])
    ++ [Instr.teamPlacement, Instr.admission] ++ (keysOf s.grids).map Instr.gridComplete ++ (keysOf s.launches).map Instr.patchApply
    ++ (s.lazies.filter fun u => u.st == .saving).map (fun u => Instr.lazySaveComplete u.id)
    ++ (s.teams.filterMap fun (e : Nat × Team) => e.2.goal.map (Instr.teamMigration e.1))
    ++ (keysOf s.teams).map (fun t => Instr.teamMigration t (Config.pick n % 192))
    ++ (s.ctxs.flatMap fun (e : Nat × Ctx) => openOfCtx e.1 e.2)
    ++ (keysOf s.windows).flatMap (fun w => [Instr.windowOpened w, Instr.windowClosed w])
    ++ s.invals.map (fun i => Instr.invalidationComplete i.id) ++ (keysOf s.pme.moves).flatMap openOfMove
    ++ s.link.remotes.map (fun r => Instr.remoteTimeout r.id)
    ++ ((s.standing.flatMap fun x => x.sectors.map fun d => s.groupOf (d.sector * 32)).eraseDups).map Instr.commandSlot
    ++ (s.tests.running.map fun e => Instr.selfTestComplete e.1 e.2 (Config.pick n % 2 == 0))
    ++ (List.range 16).map (fun k => Instr.refreshDue (512 + k)) ++ ((s.clusters.filter fun e => e.2.pwr == .closing).map fun e => Instr.clusterGated e.1)
    ++ ((keysOf s.phys.bytes).map (· / 32)).eraseDups.map Instr.backgroundScrub

/-- Some of the open steps, as many and in such an order as the free values say. -/
def State.someSteps (s : State) : List Instr :=
  let open_ := s.openSteps (s.fresh + 1)
  (List.range (Config.asyncCount s.fresh)).filterMap fun k => open_[Config.pick (s.fresh + 1 + k) % open_.length]?

/-- The partitions that hold waves, on cores whose cluster begins a clock. -/
def State.partitions (s : State) (ticking : List Nat) : List Instr :=
  (((keysOf s.waves).filter fun w => ticking.contains (cluOf (wCore w))).map fun w => (wCore w, wPart w)).eraseDups.map fun p =>
    Instr.partitionIssueClock p.1 p.2

/-- What goes on by itself between steps: remote requests that may go are sent, held LDXs are tried again (R102), stores that were held back
enter (R184), lanes that failed while their wave was parked park it again (R83), re-keys go on (R163), halts whose wave has settled go on (R96, R97), reports that renewals owe
are made (R45), retired frames give up their pages (R323), remote faults whose records are
written are delivered (R319). -/
def State.goOn (s : State) : State :=
  let s1 := (keysOf s.waves).foldl (fun (s : State) wid =>
    match tfind s.waves wid with
    | none => s
    | some w =>
      let s2 := w.reqs.foldl (fun (s : State) r => match r.instr with | .ldx .. => if w.stat = .ready ∨ w.stat = .parked then s.retryLdx wid r else s | _ => s) s
      let s3 := if w.park.isNone then w.reqs.foldl (fun (s : State) r => s.parkLeft wid r.id) s2 else s2
      ((s3.sendPeers wid).deliverRemote wid).freezeWave wid) s
  let cores := ((keysOf s1.waves).map wCore).eraseDups
  let s2 := cores.foldl (fun (s : State) c => (s.retryStores c).stampUnsent c) s1
  s2.retryRekeys.reportOwed.leaveRetired

/-- A clock of the device: time advances by 5/7 ns (R2, R306). -/
def State.tick (s : State) : State :=
  let clus := List.range 24
  let ticking := clus.filter fun c => (s.cluster c).ticks
  let s1 := clus.foldl (fun (s : State) c => s.modCluster c Cluster.advance) { s with t7 := s.t7 + 5 }
  let s2 := (clus.filter fun c => !s1.clusterIdle c).foldl (fun (s : State) c => s.modCluster c fun k => { k with idleFrom := s.t7 }) s1
  let s3 := s2.goOn
  let due := clus.flatMap (fun c => s3.powerDue (s.cluster c) c)
    ++ (s3.waves.flatMap fun (e : Nat × Wave) => s3.resultsDue e.1 e.2 ++ s3.fillsDue e.1 e.2) ++ s3.banksDue ++ s3.refreshesDue ++ s3.fillsOfBuckets ++ s3.policyDue
  let picks := s3.someSteps
  { s3 with fresh := s3.fresh + 1 + picks.length + 64, agenda := tasks (due ++ picks ++ s3.partitions ticking) }

end Sys2Proof.Machine
end

