-- ==== Sys2Proof/Machine/Step.lean ====
section
/-! DEFINITION. One step of the machine: the move that stands first in the agenda, or a clock when none stands. -/

namespace Sys2Proof.Machine

/-- Whether a machine that has shut itself down takes a move: only a cold reset (R332). -/
def endsShutdown : Task → Bool
  | .ev .coldReset => true
  | _ => false

/-- Perform one task. -/
def perform (t : Task) (s : State) : Host.Outcome State Fault Refusal :=
  match t with
  | .ev i => exec i s
  | .issue wid split =>
    match s.toIssue wid split with
    | .ok (i, s) => exec i s
    | .error s => .next s

/-- One step: the first task of the agenda, or a clock of the device. -/
def step (s : State) : Host.Outcome State Fault Refusal :=
  match s.agenda with
  | [] => if s.shutdown then .next s else .next s.tick
  | t :: rest =>
    let s : State := { s with agenda := rest }
    if s.shutdown && !endsShutdown t then .next s else perform t s

/-- Bytes that stand in memory, as after a write: the counters of their sectors are not 0 (R46). -/
def State.lay (s : State) (pa : Nat) (bs : List Byte) : State :=
  let n := bs.length
  let cells := (List.range n).map fun i => (s.spot (pa + i), bs.getD i 0)
  { s with phys := { s.phys with
      bytes := cells.foldl (fun t c => tset 0 t c.1 c.2) s.phys.bytes,
      minor := cells.foldl (fun t c => tset 0 t (c.1 / 32) 1) s.phys.minor } }

/-- The wave that `withFetchWord` uses when none stands at issue: one split of all lanes at address 0x1_0000. -/
def firstWave : Wave :=
  { team := 1, ctx := 0, stat := .ready, v := [], s := [], p := [], f := [], k := [], q := [], x := [(4, 1), (5, 1)],
    splits := [(0, ⟨true, 0x10000, 0xFFFFFFFF, none, 0, false, false, none, false⟩)], stack := [], spilled := 0,
    handler := none, heldTraps := [], halting := false, region := none, chain := none, park := none, seq := 0, pend := [], reqs := [], sb := [],
    rels := [], acqs := [], exiting := false, lost := none, code := [], raised := 0, raisedAt := 0 }

/-- A context, a grid, a team and a wave that stand ready to issue at address 0x1_0000, which maps to frame 1; the page tables
stand in frame 0. -/
def State.withWave (s : State) : State :=
  let c := s.ctx 0
  let s := s.setCtx 0 { c with st := .resident, keyvalid := true, ptroot := 0, vdsavesz := 0x10000000 }
  let pkt := leBytes 64 (2 ^ 128 + 2 ^ 144 + 2 ^ 160 + 2 ^ 176)
  let g : Grid := ⟨0, 1, pkt, .node 0 0, .running, false, some ⟨0, 0, 65536, 0, 0, []⟩, [], 0, 1, 1, [], [], false, []⟩
  let t : Team := ⟨1, 0, 0, 0, [0], [], 0, 0, 0, [], [], [], 0, [], true, false, [], none, [], Kept.init, (0, 0), [], none⟩
  let s := ((s.setGrid 1 g).setTeam 1 t).setWave 0 firstWave
  let s : State := { s with phys := { s.phys with grants := [(0, 2, 0)] }, agenda := .issue 0 0 :: s.agenda }
  let s := s.lay 0 (leBytes 8 (2 ^ 63 + 0x2000))
  let s := s.lay 0x2000 (leBytes 8 (2 ^ 63 + 0x4000))
  let s := s.lay 0x4000 (leBytes 8 (2 ^ 63 + 0x6000))
  s.lay 0x6008 (leBytes 8 (2 ^ 63 + 2 ^ 62 + 2 ^ 61 + 0x10000))

/-- The physical address of the instruction that the first task of the agenda issues. -/
def State.nextFetch (s : State) : Option Nat :=
  match s.agenda with
  | .issue wid split :: _ =>
    match tfind s.waves wid with
    | some w =>
      match s.walk w.ctx (w.split split).pc .fetch with
      | .ok (_, t) => some (t.pa (w.split split).pc)
      | .error _ => none
    | none => none
  | _ => none

/-- The state with an instruction, whose bits are those of `w`, where the next step fetches: the split that stands at issue,
or a wave that is put there. -/
def State.withFetchWord (s : State) (nbits w : Nat) : State :=
  let bs := leBytes 12 (w % 2 ^ nbits)
  match s.nextFetch with
  | some pa => s.lay pa bs
  | none => s.withWave.lay 0x10000 bs

end Sys2Proof.Machine
end

