-- ==== Sys2Proof/Safety.lean ====
section
/-! DEFINITION. The terms in which claims about the machine are stated: the canonical forms of the state, what a wave's registers
come to hold, when a split issues, and what an instruction leaves alone. -/

namespace Sys2Proof.Machine

/-- Physical memory stands in canonical form. -/
def Phys.wf (p : Phys) : Bool := twf 0 p.bytes && twf 0 p.minor && twf 0 p.major && twf 0 p.nodes

/-- Every memory of the machine stands in canonical form. -/
def State.memWf (s : State) : Bool := s.phys.wf && twf 0 s.spCore && twf 0 s.spClu && twf 0 s.spDie

/-- What a register lane, a predicate bit or a register of a wave holds once every result in flight is written (R92). -/
def Wave.newest (w : Wave) (x : Target) : Nat := (w.pending x).getLastD (w.stored x)

/-- The same for a wave in its slot; 0 where no wave stands. -/
def State.newest (s : State) (wid : Nat) (x : Target) : Nat :=
  match tfind s.waves wid with
  | some w => w.newest x
  | none => 0

/-- The split at issue may issue `i`, some lane of it participates, and no tile that it names traps (R83, R91, R124, R206, R225):
`q` is what the instruction sees. -/
def Issues (i : Instr) (h : Hints) (s : State) (q : Iss) : Prop :=
  s.sight i h = some q ∧ notPermitted q.w i = none ∧ heldBack s q i h = false ∧ q.part ≠ 0 ∧ q.verdict i = .ok

/-- `exec` answers a next state, of which `P` holds. -/
def Completes (i : Instr) (s : State) (P : State → Prop) : Prop := ∃ t, exec i s = .next t ∧ P t

/-- Every byte of memory and of every scratchpad reads as before. -/
def SameMemory (s t : State) : Prop :=
  (∀ pa, t.phys.byte pa = s.phys.byte pa) ∧ ∀ lvl unit off, t.spByte lvl unit off = s.spByte lvl unit off

/-- What most instructions leave alone in their wave: special registers, frames, the stack, the handler, the region, the chain,
buffered stores and its life. -/
def Wave.keeps (v w : Wave) : Prop :=
  w.x = v.x ∧ w.f = v.f ∧ w.stack = v.stack ∧ w.spilled = v.spilled ∧ w.handler = v.handler ∧ w.region = v.region
    ∧ w.chain = v.chain ∧ w.park = v.park ∧ w.stat = v.stat ∧ w.sb = v.sb

/-- A wave has just issued an instruction that writes exactly the values `ws`: they are the newest values of their targets, every
other register keeps its newest value, the split stands at `pc` with its mask, its other splits stand as they were, the counters
`q.cnt` have risen, and nothing else of the wave, of other waves or of memory has changed (R92, R142, R192). -/
def Wrote (q : Iss) (pc : DWord) (ws : List (Target × Nat)) (s t : State) : Prop :=
  SameMemory s t ∧ (∀ k, k ≠ q.wid → tfind t.waves k = tfind s.waves k)
    ∧ (∀ e ∈ ws, t.newest q.wid e.1 = e.2) ∧ (∀ x, (∀ e ∈ ws, e.1 ≠ x) → t.newest q.wid x = s.newest q.wid x)
    ∧ ∃ w, tfind t.waves q.wid = some w ∧ q.w.keeps w ∧ (w.split q.split).pc = pc ∧ (w.split q.split).mask = q.mask
      ∧ (∀ j, j ≠ q.split → w.split j = q.w.split j)
      ∧ ∀ k, w.kreg k = q.w.kreg k + if q.cnt.contains k then 1 else 0

/-- No register, no byte of memory and no other wave has changed. -/
def Quiet (q : Iss) (s t : State) : Prop :=
  SameMemory s t ∧ (∀ k, k ≠ q.wid → tfind t.waves k = tfind s.waves k) ∧ ∀ x, t.newest q.wid x = s.newest q.wid x

/-- The instruction has issued: its split stands at `pc` with its mask, the other splits stand as they were, and the counters `q.cnt`
have risen (R91, R142). -/
def Wave.passed (w : Wave) (q : Iss) (pc : DWord) : Prop :=
  (w.split q.split).pc = pc ∧ (w.split q.split).mask = q.mask ∧ (∀ j, j ≠ q.split → w.split j = q.w.split j)
    ∧ ∀ k, w.kreg k = q.w.kreg k + if q.cnt.contains k then 1 else 0

/-- A memory instruction has issued: its request with the pieces `ps` of its lanes stands behind the wave's other requests, its
counters have risen, and nothing is performed yet: no register and no byte of memory has changed (R143, R263). -/
def Asked (q : Iss) (i : Instr) (mask : Word) (ps : List Piece) (s t : State) : Prop :=
  Quiet q s t ∧ ∃ w id, tfind t.waves q.wid = some w ∧ q.w.keeps w ∧ w.passed q (q.pc + 12)
    ∧ w.reqs = q.w.reqs ++ [q.mkReq id i mask ps q.cnt]

/-- Each piece of a scratchpad request stands at the port of its place (R125). -/
def AtPorts (ps : List Piece) (wid : Nat) (write : Bool) (t : State) : Prop :=
  ∀ (k : Nat) (p : Piece) (l u o : Nat), ps[k]? = some p → p.loc = .sp l u o →
    ∃ op ∈ t.portq, op.wid = wid ∧ op.lane = p.lane ∧ op.lvl = l ∧ op.unit = u ∧ op.off = o ∧ op.write = write

/-- A release of the instruction stands in its wave, with its scope and what it sets going (R265). -/
def Releasing (q : Iss) (scope : Scope) (c : Cont → Prop) (t : State) : Prop :=
  ∃ w r, tfind t.waves q.wid = some w ∧ r ∈ w.rels ∧ r.seq = q.seq ∧ r.scope = scope ∧ c r.cont

/-- The split waits for the operation (R134, R167). -/
def Waits (q : Iss) (id : Nat) (t : State) : Prop :=
  ∃ w, tfind t.waves q.wid = some w ∧ (w.split q.split).waitOn = some id

/-- A trap of the instruction can enter its handler now: no split of a lower number is still to issue in this clock, the wave is not
in its handler, and TRAPH is a handler's address (R313, R316). -/
def CanTrap (q : Iss) (s : State) : Prop :=
  (∀ k, k < q.split → s.agenda.contains (.issue q.wid k) = false) ∧ q.w.handler = none ∧ q.grid.eff.traph ≠ 0
    ∧ badTraph q.grid.eff.traph = false

/-- The wave has entered its handler with a cause, a trap program counter and an argument (R313, R314): the trapping split stands at
TRAPH with its whole mask, every other live split is held, an open region is closed, and the trap registers hold the trap. -/
def Entered (q : Iss) (cause : BitVec 7) (tpc : DWord) (arg : Word) (s t : State) : Prop :=
  Quiet q s t ∧ ∃ w, tfind t.waves q.wid = some w ∧ w.handler = some ⟨q.split, q.mask, q.w.depth⟩ ∧ w.region = none
    ∧ (w.split q.split).live = true ∧ (w.split q.split).pc = q.grid.eff.traph ∧ (w.split q.split).mask = q.mask
    ∧ (w.split q.split).trapHeld = false ∧ (∀ j, j ≠ q.split → (w.split j).live = true → (w.split j).trapHeld = true)
    ∧ w.xreg 32 = (cause.setWidth 32 ||| if q.w.region.isSome then 0x10000 else 0)
    ∧ w.xreg 33 = tpc.extractLsb' 0 32 ∧ w.xreg 34 = (tpc.extractLsb' 32 24).setWidth 32 ∧ w.xreg 37 = arg
    ∧ w.xreg 38 = q.part ∧ w.xreg 39 = q.mask ∧ w.xreg 40 = q.word.extractLsb' 0 32 ∧ w.xreg 41 = q.word.extractLsb' 32 32
    ∧ w.xreg 42 = q.word.extractLsb' 64 32 ∧ w.xreg 43 = BitVec.ofNat 32 q.split

/-- Every other wave stands as before. -/
def OtherWaves (wid : Nat) (s t : State) : Prop := ∀ k, k ≠ wid → tfind t.waves k = tfind s.waves k

/-- No register of any wave holds another value once its results are written. -/
def SameRegs (s t : State) : Prop := ∀ k x, t.newest k x = s.newest k x

/-- A request stands in a wave that is in its slot. -/
def Standing (s : State) (wid : Nat) (w : Wave) (r : Req) : Prop := tfind s.waves wid = some w ∧ w.req r.id = some r

/-- The counters that an operation holds have fallen (R142). -/
def CountersFall (ks : List Nat) (w v : Wave) : Prop := ∀ k ∈ ks, v.kreg k < w.kreg k ∨ v.kreg k = 0

/-- A target of 32 lanes. -/
def Target.there : Target → Prop
  | .v _ l | .p _ l => l < 32
  | _ => True

/-- A number that a target can hold. -/
def Target.fits (x : Target) (n : Nat) : Prop :=
  x.there ∧ match x with
    | .v _ _ => n < 2 ^ 33
    | .p _ _ => n < 2
    | .s _ => n < 2 ^ 32
    | .q _ => n < 2 ^ 144

/-- Bytes of one unit of a scratchpad level (R15). -/
def spCap (lvl : Nat) : Nat := if lvl = 0 then coreBytes else if lvl = 1 then cluBytes else dieBytes

/-- A per-lane instruction that writes one vector register: its operands in the order A, B, C and its operation. -/
structure VecForm where
  h  : Hints
  d  : Opd
  a  : Opd
  b  : SrcB
  c  : Opd
  op : Iss → Nat → AluOp

/-- The instructions that write one vector register lane by lane, with what they compute (R228 to R235, R241 to R249). -/
def vecForm : Instr → Option VecForm
  | .iadd h o d a b => some ⟨h, d, a, b, noOpd, fun _ _ => .iadd o⟩
  | .isub h o d a b => some ⟨h, d, a, b, noOpd, fun _ _ => .isub o⟩
  | .imul h d a b => some ⟨h, d, a, b, noOpd, fun _ _ => .imul⟩
  | .imulh h u d a b => some ⟨h, d, a, b, noOpd, fun _ _ => .imulh u⟩
  | .imad h d a b c => some ⟨h, d, a, b, c, fun _ _ => .imad⟩
  | .idiv h u d a b => some ⟨h, d, a, b, noOpd, fun _ _ => .idiv u⟩
  | .irem h u d a b => some ⟨h, d, a, b, noOpd, fun _ _ => .irem u⟩
  | .imin h u d a b => some ⟨h, d, a, b, noOpd, fun _ _ => .imin u⟩
  | .imax h u d a b => some ⟨h, d, a, b, noOpd, fun _ _ => .imax u⟩
  | .iabs h sat d a => some ⟨h, d, a, noB, noOpd, fun _ _ => .iabs sat⟩
  | .and h d a b => some ⟨h, d, a, b, noOpd, fun _ _ => .and⟩
  | .or h d a b => some ⟨h, d, a, b, noOpd, fun _ _ => .or⟩
  | .xor h d a b => some ⟨h, d, a, b, noOpd, fun _ _ => .xor⟩
  | .shl h d a b => some ⟨h, d, a, b, noOpd, fun _ _ => .shl⟩
  | .shr h d a b => some ⟨h, d, a, b, noOpd, fun _ _ => .shr⟩
  | .sar h d a b => some ⟨h, d, a, b, noOpd, fun _ _ => .sar⟩
  | .rotl h d a b => some ⟨h, d, a, b, noOpd, fun _ _ => .rotl⟩
  | .bfe h sx d a b => some ⟨h, d, a, b, noOpd, fun _ _ => .bfe sx⟩
  | .bfi h d a b c => some ⟨h, d, a, b, c, fun _ _ => .bfi⟩
  | .popc h d a => some ⟨h, d, a, noB, noOpd, fun _ _ => .popc⟩
  | .clz h d a => some ⟨h, d, a, noB, noOpd, fun _ _ => .clz⟩
  | .brev h d a => some ⟨h, d, a, noB, noOpd, fun _ _ => .brev⟩
  | .sel h not p d a b => some ⟨h, d, a, b, noOpd, fun q l => .sel (q.w.seenPred q.fresh p.toNat l != not)⟩
  | .mov h d b => some ⟨h, d, noOpd, b, noOpd, fun _ _ => .mov⟩
  | .iadd2 h o d a b => some ⟨h, d, a, b, noOpd, fun _ _ => .iadd2 o⟩
  | .isub2 h o d a b => some ⟨h, d, a, b, noOpd, fun _ _ => .isub2 o⟩
  | .imin2 h u d a b => some ⟨h, d, a, b, noOpd, fun _ _ => .imin2 u⟩
  | .imax2 h u d a b => some ⟨h, d, a, b, noOpd, fun _ _ => .imax2 u⟩
  | .fadd h r d a b => some ⟨h, d, a, b, noOpd, fun _ _ => .fadd r⟩
  | .fsub h r d a b => some ⟨h, d, a, b, noOpd, fun _ _ => .fsub r⟩
  | .fmul h r d a b => some ⟨h, d, a, b, noOpd, fun _ _ => .fmul r⟩
  | .ffma h r d a b c => some ⟨h, d, a, b, c, fun _ _ => .ffma r⟩
  | .fmin h d a b => some ⟨h, d, a, b, noOpd, fun _ _ => .fmin⟩
  | .fmax h d a b => some ⟨h, d, a, b, noOpd, fun _ _ => .fmax⟩
  | .frcp h r d a => some ⟨h, d, a, noB, noOpd, fun _ _ => .frcp r⟩
  | .frsq h d a => some ⟨h, d, a, noB, noOpd, fun _ _ => .frsq⟩
  | .fsqrt h r d a => some ⟨h, d, a, noB, noOpd, fun _ _ => .fsqrt r⟩
  | .fexp2 h d a => some ⟨h, d, a, noB, noOpd, fun _ _ => .fexp2⟩
  | .flog2 h d a => some ⟨h, d, a, noB, noOpd, fun _ _ => .flog2⟩
  | .fsin h d a => some ⟨h, d, a, noB, noOpd, fun _ _ => .fsin⟩
  | .fcos h d a => some ⟨h, d, a, noB, noOpd, fun _ _ => .fcos⟩
  | .hadd2 h bf r d a b => some ⟨h, d, a, b, noOpd, fun _ _ => .hadd2 bf r⟩
  | .hmul2 h bf r d a b => some ⟨h, d, a, b, noOpd, fun _ _ => .hmul2 bf r⟩
  | .hfma2 h bf r d a b c => some ⟨h, d, a, b, c, fun _ _ => .hfma2 bf r⟩
  | .f2i h u r d a => some ⟨h, d, a, noB, noOpd, fun _ _ => .f2i u r⟩
  | .i2f h u r d a => some ⟨h, d, a, noB, noOpd, fun _ _ => .i2f u r⟩
  | .cvt h e sat r dst src d a => some ⟨h, d, a, noB, cvtKeep dst d, fun _ _ => .cvt e sat r dst src⟩
  | .fclass h d a => some ⟨h, d, a, noB, noOpd, fun _ _ => .fclass⟩
  | _ => none

/-- Whether an operand of a lane is a proxy. -/
def VecForm.tagged (f : VecForm) (q : Iss) (l : Nat) : Bool := (q.src f.a l).tag || (q.srcB f.b l).tag || (q.src f.c l).tag

/-- The result of a lane with the flags it raises. -/
def VecForm.result (f : VecForm) (q : Iss) (l : Nat) : Word × BitVec 5 :=
  alu (f.op q l) (q.src f.a l).w (q.srcB f.b l).w (q.src f.c l).w

/-- What the instruction writes: its result in every participant lane of D; nothing when D is none (R193, R194). -/
def VecForm.writes (f : VecForm) (q : Iss) : List (Target × Nat) :=
  match f.d with
  | .v r => q.lanes.map fun l => (.v r.toNat l, (f.result q l).1.toNat)
  | _ => []

/-- The flags that the participant lanes raise together (R32). -/
def VecForm.flags (f : VecForm) (q : Iss) : BitVec 5 := q.lanes.foldl (fun x l => x ||| (f.result q l).2) 0

/-- What a write of one bit a lane to a predicate register comes to; p7 is not written (R194). -/
def predWrites (d : Opd) (xs : List (Nat × Bool)) : List (Target × Nat) :=
  match d with
  | .p p => pTargets p.toNat xs
  | _ => []

/-- What a write of one word a lane to a vector register comes to. -/
def laneWrites (d : Opd) (xs : List (Nat × Word)) : List (Target × Nat) :=
  match d with
  | .v r => xs.map fun x => (.v r.toNat x.1, x.2.toNat)
  | _ => []

/-- What a write of words to consecutive s registers comes to; nothing when D is none (R194). -/
def sWrites (d : Opd) (ws : List Nat) : List (Target × Nat) :=
  match d with
  | .s r => (List.range ws.length).map fun k => (.s (r.toNat + k), ws.getD k 0)
  | _ => []

/-- No participant lane of an operand is a proxy. -/
def Untagged (q : Iss) (xs : Nat → List Lane) : Prop := ∀ l ∈ q.lanes, ∀ x ∈ xs l, x.tag = false

/-- The per-lane instructions whose operands may be proxies (R103); MOV copies them (R234). -/
def postable : Instr → Bool
  | .iadd .. | .isub .. | .imul .. | .imad .. | .imin .. | .imax .. | .and .. | .or .. | .xor .. | .shl .. | .shr .. | .sar ..
  | .sel .. | .fadd .. | .fsub .. | .fmul .. | .ffma .. | .fmin .. | .fmax .. => true
  | _ => false

/-- The lanes of a per-lane instruction that are posted (R103). -/
def VecForm.posted (f : VecForm) (q : Iss) : List Nat := q.lanes.filter (f.tagged q)

/-- The home that executes a posted lane: that of its first proxy in the order A, B, C (R103). -/
def VecForm.home (f : VecForm) (q : Iss) (l : Nat) : Nat := homeOfLane [q.src f.a l, q.srcB f.b l, q.src f.c l]

/-- A proxy stands in a register lane, and it names a LIVE slot of the home with count 1 (R99, R102, R108). -/
def HoldsProxy (t : State) (wid r l h i : Nat) : Prop :=
  t.newest wid (.v r l) = laneNat ⟨true, pxWord h i (t.slotGen h i)⟩ ∧ (t.slot h i).st = .live ∧ (t.slot h i).count = 1

/-- How an operand of a posted lane travels to the home that executes it (R103): a value as it is, a proxy of that home as its slot, and
a proxy of another home as a forward, whose message stands at its own home. -/
def Travels (q : Iss) (t : State) (home lane : Nat) (x : Lane) (k : HSrc) : Prop :=
  (x.tag = false → k = .val x.w)
    ∧ (x.tag = true → pxHome x.w = home → k = .slot (pxSlot x.w) (pxGen x.w))
    ∧ (x.tag = true → pxHome x.w ≠ home → ∃ m ∈ t.homeq, k = .fwd m.id ∧ m.wid = q.wid ∧ m.seq = q.seq ∧ m.lane = lane
      ∧ m.home = pxHome x.w ∧ m.kind = .forward (pxSlot x.w) (pxGen x.w) m.id)

/-- The message of a posted lane of an instruction stands at a home (R103, R104). -/
def PostedTo (q : Iss) (t : State) (home lane : Nat) (k : HKind) : Prop :=
  ∃ m ∈ t.homeq, m.wid = q.wid ∧ m.home = home ∧ m.lane = lane ∧ m.seq = q.seq ∧ m.kind = k

end Sys2Proof.Machine
end

