-- ==== Sys2Proof/Certificates/Slice0/Obligations.lean ====
section
/-! DEFINITION. The statements about the machine: instructions, then the steps of the device, then the whole machine. -/

section

open Sys2Proof Sys2Proof.Machine

/-- R193, R194, R228 to R235, R241 to R249: each of the 48 per-lane instructions of `vecForm`, when no
participant lane of its operands is a proxy, writes its operation's result to every participant lane of D with
the tag clear, and puts the flags that its lanes raise in flight with it; it writes nothing else and no memory. -/
def Obligations.VectorWrites : Prop :=
  ∀ (i : Instr) (f : VecForm) (s : State) (q : Iss), vecForm i = some f → Issues i f.h s q →
    (∀ l ∈ q.lanes, f.tagged q l = false) →
    Completes i s fun t => Wrote q (q.pc + 12) (f.writes q) s t
      ∧ ∃ w b, tfind t.waves q.wid = some w ∧ b ∈ w.pend ∧ b.writes = f.writes q ∧ b.flags = f.flags q ∧ q.clk < b.due

/-- R228 to R230: the integer instructions of one lane, with the value that each participant lane of D receives
from its operands a, b and c; nothing else is written. -/
def Obligations.IntegerResults : Prop :=
  ∀ (s : State) (q : Iss) (h : Hints) (d a c : Opd) (b : SrcB) (u : Bool),
    let x := fun l => (q.src a l).w
    let y := fun l => (q.srcB b l).w
    let z := fun l => (q.src c l).w
    let writes := fun (i : Instr) (xs : Nat → List Lane) (f : Nat → Word) =>
      Issues i h s q → Untagged q xs → Completes i s (Wrote q (q.pc + 12) (laneWrites d (q.lanes.map fun l => (l, f l))) s)
    let one := fun l => [q.src a l]
    let two := fun l => [q.src a l, q.srcB b l]
    let three := fun l => [q.src a l, q.srcB b l, q.src c l]
    let less := fun (m n : Word) => if u then m.toNat < n.toNat else m.toInt < n.toInt
    writes (.iadd h .wrap d a b) two (fun l => x l + y l)
    ∧ writes (.iadd h .sat d a b) two (fun l => BitVec.ofInt 32 (max (-2 ^ 31) (min ((x l).toInt + (y l).toInt) (2 ^ 31 - 1))))
    ∧ writes (.iadd h .usat d a b) two (fun l => BitVec.ofNat 32 (min ((x l).toNat + (y l).toNat) (2 ^ 32 - 1)))
    ∧ writes (.isub h .wrap d a b) two (fun l => x l - y l)
    ∧ writes (.isub h .sat d a b) two (fun l => BitVec.ofInt 32 (max (-2 ^ 31) (min ((x l).toInt - (y l).toInt) (2 ^ 31 - 1))))
    ∧ writes (.isub h .usat d a b) two (fun l => BitVec.ofNat 32 ((x l).toNat - (y l).toNat))
    ∧ writes (.imul h d a b) two (fun l => x l * y l)
    ∧ writes (.imulh h u d a b) two (fun l => if u then BitVec.ofNat 32 ((x l).toNat * (y l).toNat / 2 ^ 32)
      else BitVec.ofInt 32 ((x l).toInt * (y l).toInt / 2 ^ 32))
    ∧ writes (.imad h d a b c) three (fun l => x l * y l + z l)
    ∧ writes (.imin h u d a b) two (fun l => if less (y l) (x l) then y l else x l)
    ∧ writes (.imax h u d a b) two (fun l => if less (x l) (y l) then y l else x l)
    ∧ writes (.and h d a b) two (fun l => x l &&& y l)
    ∧ writes (.or h d a b) two (fun l => x l ||| y l)
    ∧ writes (.xor h d a b) two (fun l => x l ^^^ y l)
    ∧ writes (.shl h d a b) two (fun l => if (y l).toNat < 32 then x l <<< (y l).toNat else 0)
    ∧ writes (.shr h d a b) two (fun l => if (y l).toNat < 32 then x l >>> (y l).toNat else 0)
    ∧ writes (.sar h d a b) two (fun l => if (y l).toNat < 32 then (x l).sshiftRight (y l).toNat
      else if (x l).getLsbD 31 then 0xFFFFFFFF else 0)
    ∧ writes (.rotl h d a b) two (fun l => (x l).rotateLeft ((y l).toNat % 32))
    ∧ writes (.idiv h true d a b) two (fun l => if y l = 0 then 0xFFFFFFFF else BitVec.ofNat 32 ((x l).toNat / (y l).toNat))
    ∧ writes (.irem h true d a b) two (fun l => if y l = 0 then x l else BitVec.ofNat 32 ((x l).toNat % (y l).toNat))
    ∧ writes (.idiv h false d a b) two (fun l => if y l = 0 then 0xFFFFFFFF else if x l = 0x80000000 ∧ y l = 0xFFFFFFFF then 0x80000000
      else BitVec.ofInt 32 ((x l).toInt.tdiv (y l).toInt))
    ∧ writes (.irem h false d a b) two (fun l => if y l = 0 then x l else if x l = 0x80000000 ∧ y l = 0xFFFFFFFF then 0
      else BitVec.ofInt 32 ((x l).toInt.tmod (y l).toInt))
    ∧ writes (.iabs h u d a) one (fun l => if (x l).toInt < 0 then (if x l = 0x80000000 ∧ u then 0x7FFFFFFF else -x l) else x l)
    ∧ writes (.popc h d a) one (fun l => BitVec.ofNat 32 ((List.range 32).filter fun j => (x l).getLsbD j).length)
    ∧ writes (.clz h d a) one (fun l => if x l = 0 then 32 else BitVec.ofNat 32 (31 - Nat.log2 (x l).toNat))
    ∧ writes (.brev h d a) one (fun l => (x l).reverse)

/-- R223, R224, R232, R235, R236, R243: ISETP, FSETP, ISETP2 and PLOP write the bit of each participant lane to
predicates; ISETP2 writes element 0 to pD and element 1 to pD+1, and traps with 0x20 when it would read a proxy;
PLOP's table is its word's EXT. ELECT names the lowest participant, and with no participant changes nothing;
VOTE combines the participants' predicate bits, and `.ballot` writes their mask. -/
def Obligations.PredicateWrites : Prop :=
  (∀ s q h cond uns d a b, Issues (.isetp h cond uns d a b) h s q → Untagged q (fun l => [q.src a l, q.srcB b l]) →
    Completes (.isetp h cond uns d a b) s
      (Wrote q (q.pc + 12) (predWrites d (q.lanes.map fun l => (l, cmpInt cond uns (q.src a l).w (q.srcB b l).w))) s))
  ∧ (∀ s q h cond d a b, Issues (.fsetp h cond d a b) h s q → Untagged q (fun l => [q.src a l, q.srcB b l]) →
    Completes (.fsetp h cond d a b) s
      (Wrote q (q.pc + 12) (predWrites d (q.lanes.map fun l =>
        (l, cmpFv cond (fp32.decode (q.src a l).w.toNat) (fp32.decode (q.srcB b l).w.toNat)))) s))
  ∧ (∀ s q h cond uns d a b, Issues (.isetp2 h cond uns d a b) h s q → Untagged q (fun l => [q.src a l, q.srcB b l]) →
    let bits := fun j => q.lanes.map fun l => (l, cmpInt cond uns (elem16 (q.src a l).w j) (elem16 (q.srcB b l).w j))
    Completes (.isetp2 h cond uns d a b) s
      (Wrote q (q.pc + 12) (match d with | .p p => pTargets p.toNat (bits 0) ++ pTargets (p.toNat + 1) (bits 1) | _ => []) s))
  ∧ (∀ s q h cond uns d a b, Issues (.isetp2 h cond uns d a b) h s q → CanTrap q s →
    (∃ l ∈ q.lanes, (q.src a l).tag = true ∨ (q.srcB b l).tag = true) →
    Completes (.isetp2 h cond uns d a b) s (Entered q 0x20 q.pc 0 s))
  ∧ (∀ s q h lut d a c b, Issues (.plop h lut d a c b) h s q →
    Completes (.plop h lut d a c b) s
      (Wrote q (q.pc + 12) (predWrites d (q.lanes.map fun l => (l, lut.getLsbD
        ((q.pred a l).toNat * 4 + (q.pred b l).toNat * 2 + (q.pred c l).toNat)))) s))
  ∧ (∀ h lut d a c b w, encodeWord (.plop h lut d a c b) = some w → w.getLsbD 61 = false ∧ w.extractLsb' 24 8 = lut)
  ∧ (∀ s q h d, s.sight (.elect h d) h = some q → notPermitted q.w (.elect h d) = none → heldBack s q (.elect h d) h = false → q.part = 0 →
    Completes (.elect h d) s (Quiet q s))
  ∧ (∀ s q h d, Issues (.elect h d) h s q →
    ∃ m ∈ q.lanes, (∀ k ∈ q.lanes, m ≤ k) ∧
      Completes (.elect h d) s (Wrote q (q.pc + 12)
        (match d with | .p p => pTargets p.toNat (q.lanes.map fun l => (l, l == m)) | d => sWrites d [m]) s))
  ∧ ∀ s q h d a,
    let votes := fun (k : VoteKind) (x : Bool) => Issues (.vote h k d a) h s q → (∀ r, d ≠ .s r ∧ d ≠ .v r) →
      Completes (.vote h k d a) s (Wrote q (q.pc + 12) (predWrites d (q.lanes.map fun l => (l, x))) s)
    votes .any (q.lanes.any (q.pred a)) ∧ votes .all (q.lanes.all (q.pred a))
    ∧ votes .uni (q.lanes.all (q.pred a) || q.lanes.all fun k => !q.pred a k)
    ∧ (Issues (.vote h .ballot d a) h s q → (∀ r, d ≠ .p r) →
      ∃ m : Word, (∀ l, l < 32 → m.getLsbD l = (q.lanes.contains l && q.pred a l)) ∧
        Completes (.vote h .ballot d a) s (Wrote q (q.pc + 12)
          (match d with | .v r => q.lanes.map fun l => (.v r.toNat l, m.toNat) | d => sWrites d [m.toNat]) s))

/-- R252 to R254: the twelve uniform scalar instructions write one s register, or nothing when D is none. -/
def Obligations.ScalarWrites : Prop :=
  ∀ (s : State) (q : Iss) (h : Hints) (d a : Opd) (b : SrcB),
    let does := fun (i : Instr) (x : Word) =>
      Issues i h s q → Completes i s (Wrote q (q.pc + 12) (sWrites d [x.toNat]) s)
    let x := q.uni a
    let y := q.uniB b
    does (.sadd h d a b) (x + y) ∧ does (.ssub h d a b) (x - y) ∧ does (.smul h d a b) (x * y)
      ∧ does (.sand h d a b) (x &&& y) ∧ does (.sor h d a b) (x ||| y) ∧ does (.sxor h d a b) (x ^^^ y)
      ∧ does (.sshl h d a b) (if y.toNat < 32 then x <<< y.toNat else 0)
      ∧ does (.sshr h false d a b) (if y.toNat < 32 then x >>> y.toNat else 0)
      ∧ does (.sshr h true d a b) (x.sshiftRight (min y.toNat 31))
      ∧ does (.smov h false d b) y
      ∧ (∀ c u, does (.scmp h c u d a b) (if cmpInt c u x y then 1 else 0))
      ∧ (∀ u, does (.smin h u d a b) (if ltBy u y x then y else x))
      ∧ ∀ u, does (.smax h u d a b) (if ltBy u x y then y else x)

/-- R237, R248, R253, R256: the instructions that write a pair or five registers, or move a word between a lane
and an s register: SMOV of 64 bits, LEA, QUANT, VREAD and VWRITE. A proxy that LEA, QUANT or VREAD would read
traps with 0x20. -/
def Obligations.WideWrites : Prop :=
  (∀ s q h d b, Issues (.smov h true d b) h s q →
    let x : DWord := match b with | .reg o => q.uni64 o | .lit n => n.signExtend 64
    Completes (.smov h true d b) s (Wrote q (q.pc + 12) (sWrites d [x.toNat % 2 ^ 32, x.toNat / 2 ^ 32]) s))
  ∧ (∀ s q h u scale d a b, Issues (.lea h u scale d a b) h s q →
    (∀ l ∈ q.lanes, pairTagged q a l = false ∧ (q.srcB b l).tag = false) →
    let x := fun l => q.src64 a l + ((if u then (q.srcB b l).w.setWidth 64 else (q.srcB b l).w.signExtend 64) <<< scale.toNat)
    Completes (.lea h u scale d a b) s
      (Wrote q (q.pc + 12) (match d with
        | .v r => q.lanes.flatMap fun l => [(.v r.toNat l, (x l).toNat % 2 ^ 32), (.v (r.toNat + 1) l, (x l).toNat / 2 ^ 32)]
        | _ => []) s))
  ∧ (∀ s q h u scale d a b, Issues (.lea h u scale d a b) h s q → CanTrap q s →
    (∃ l ∈ q.lanes, pairTagged q a l = true ∨ (q.srcB b l).tag = true) → Completes (.lea h u scale d a b) s (Entered q 0x20 q.pc 0 s))
  ∧ (∀ s q h rnd d a, Issues (.quant h rnd d a) h s q → CanTrap q s → (∃ l ∈ q.lanes, (q.src a l).tag = true) →
    Completes (.quant h rnd d a) s (Entered q 0x20 q.pc 0 s))
  ∧ (∀ s q h d a b, Issues (.vread h d a b) h s q → CanTrap q s → (q.src a ((q.uniB b).toNat % 32)).tag = true →
    Completes (.vread h d a b) s (Entered q 0x20 q.pc 0 s))
  ∧ (∀ s q h rnd d a, Issues (.quant h rnd d a) h s q → Untagged q (fun l => [q.src a l]) →
    let b := quantBlock ((List.range 32).map fun l => if q.part.getLsbD l then (q.src a l).w else 0)
    Completes (.quant h rnd d a) s
      (Wrote q (q.pc + 12) (sWrites d ((List.range 5).map fun k =>
        (if k < 4 then quantWord b.codes k else BitVec.ofNat 32 (b.scale % 256 + b.spare % 256 * 256)).toNat)) s))
  ∧ (∀ s q h d a b, Issues (.vread h d a b) h s q → (q.src a ((q.uniB b).toNat % 32)).tag = false →
    Completes (.vread h d a b) s
      (Wrote q (q.pc + 12) (sWrites d [(q.src a ((q.uniB b).toNat % 32)).w.toNat]) s))
  ∧ ∀ s q h all d a b, Issues (.vwrite h all d a b) h s q →
    Completes (.vwrite h all d a b) s
      (Wrote q (q.pc + 12)
        (laneWrites d ((q.lanes.filter fun l => all || l == (q.uniB b).toNat % 32).map fun l => (l, q.uni a))) s)

/-- R260, R261: PERM gives each participant lane the lane of A that the setting in qB carries to it, and BCAST
gives every participant lane one lane of A. A source lane that is a proxy traps with 0x20, and nothing is
written. -/
def Obligations.LaneRouting : Prop :=
  (∀ s q h d a i, Issues (.perm h d a (.q i)) h s q →
    let p := permOf (BitVec.ofNat 144 (q.w.seen q.fresh (.q i.toNat)))
    ((∀ l ∈ q.lanes, (q.src a (p.getD l 0)).tag = false) →
      Completes (.perm h d a (.q i)) s
        (Wrote q (q.pc + 12) (laneWrites d (q.lanes.map fun l => (l, (q.src a (p.getD l 0)).w))) s))
    ∧ ((∃ l ∈ q.lanes, (q.src a (p.getD l 0)).tag = true) → CanTrap q s →
      Completes (.perm h d a (.q i)) s (Entered q 0x20 q.pc 0 s)))
  ∧ ∀ s q h d a b, Issues (.bcast h d a b) h s q →
    let n := (q.uniB b).toNat % 32
    ((q.src a n).tag = false →
      Completes (.bcast h d a b) s (Wrote q (q.pc + 12) (laneWrites d (q.lanes.map fun l => (l, (q.src a n).w))) s))
    ∧ ((q.src a n).tag = true → CanTrap q s → Completes (.bcast h d a b) s (Entered q 0x20 q.pc 0 s))

/-- R258, R259: every setting of the network is a permutation. PSET.raw writes q bits from the first five lanes
of A. PSET writes a setting whose permutation is the one that the lanes of A name (which one is not said), and
traps with 0x10 when they name none. A proxy among the lanes that are read traps with 0x20. -/
def Obligations.NetworkSettings : Prop :=
  (∀ q : BitVec 144, List.Perm (permOf q) (List.range 32))
  ∧ (∀ s q h i a, Issues (.pset h true (.q i) a) h s q →
    ((∀ l, l < 5 → (q.src a l).tag = false) →
      ∃ x : BitVec 144, (∀ l k, l < 5 → k < 32 → 32 * l + k < 144 → x.getLsbD (32 * l + k) = (q.src a l).w.getLsbD k) ∧
        Completes (.pset h true (.q i) a) s (Wrote q (q.pc + 12) [(.q i.toNat, x.toNat)] s))
    ∧ ((∃ l, l < 5 ∧ (q.src a l).tag = true) → CanTrap q s → Completes (.pset h true (.q i) a) s (Entered q 0x20 q.pc 0 s)))
  ∧ ∀ s q h i a, Issues (.pset h false (.q i) a) h s q →
    let p := (List.range 32).map fun l => (q.src a l).w.toNat % 32
    ((∀ l, l < 32 → (q.src a l).tag = false) → List.Perm p (List.range 32) →
      ∃ x : BitVec 144, permOf x = p ∧ Completes (.pset h false (.q i) a) s (Wrote q (q.pc + 12) [(.q i.toNat, x.toNat)] s))
    ∧ ((∀ l, l < 32 → (q.src a l).tag = false) → ¬ List.Perm p (List.range 32) → CanTrap q s →
      Completes (.pset h false (.q i) a) s (Entered q 0x10 q.pc 0 s))
    ∧ ((∃ l, l < 32 ∧ (q.src a l).tag = true) → CanTrap q s → Completes (.pset h false (.q i) a) s (Entered q 0x20 q.pc 0 s))

/-- R190, R210, R211, R213, R222, R225: NOP, WAIT, WAITC, YIELD, the uniform BRA, CALL and RET move the split's
program counter and write nothing but CALL's return address. WAIT and WAITC issue only at their thresholds.
After YIELD of N the split issues next N clocks later than the following one (counted so by inference from R222:
log 30). -/
def Obligations.UniformControl : Prop :=
  (∀ s q h, Issues (.nop h) h s q → Completes (.nop h) s (Wrote q (q.pc + 12) [] s))
  ∧ (∀ s q h a n, Issues (.wait h a n) h s q →
    q.w.kreg a.idx.toNat ≤ n.toNat % 64 ∧ Completes (.wait h a n) s (Wrote q (q.pc + 12) [] s))
  ∧ (∀ s q h n, Issues (.waitc h n) h s q →
    (∀ j, j < 4 → q.w.kreg (8 + j) ≤ n.toNat / 256 ^ j % 64) ∧ Completes (.waitc h n) s (Wrote q (q.pc + 12) [] s))
  ∧ (∀ s q h n, Issues (.yield h n) h s q →
    Completes (.yield h n) s fun t => Wrote q (q.pc + 12) [] s t
      ∧ ∃ w, tfind t.waves q.wid = some w ∧ (w.split q.split).notBefore = q.clk + n.toNat % 256 + 1)
  ∧ (∀ s q h not a n, Issues (.bra h not true a n) h s q →
    Completes (.bra h not true a n) s
      (Wrote q (if (q.uni a != 0) != not then ((q.pc + n.signExtend 64 * 12).setWidth 56).setWidth 64 else q.pc + 12) [] s))
  ∧ (∀ s q h d b, Issues (.call h d b) h s q →
    let target : DWord := match b with
      | .lit n => ((q.pc + n.signExtend 64 * 12).setWidth 56).setWidth 64
      | .reg o => q.uni64 o
    target.extractLsb' 0 2 = 0 →
    Completes (.call h d b) s
      (Wrote q target (sWrites d [(q.pc + 12).toNat % 2 ^ 32, (q.pc + 12).toNat / 2 ^ 32]) s))
  ∧ ∀ s q h a, Issues (.ret h a) h s q → (q.uni64 a).extractLsb' 0 2 = 0 →
    Completes (.ret h a) s (Wrote q (q.uni64 a) [] s)

/-- R86, R211: a divergent BRA. The taken lanes T go to the target and the others N to the next instruction:
with a free split the branching split keeps N and the lowest free split takes T; with none the branching split
takes T and an entry for N is pushed. -/
def Obligations.BranchDiverges : Prop :=
  ∀ (s : State) (q : Iss) (h : Hints) (not : Bool) (a : Opd) (n : Word), Issues (.bra h not false a n) h s q →
    (q.w.freeSplit.isSome = true ∨ (q.w.depth < 64 ∧ (q.w.stack.length < 16 ∨ q.grid.spillRoom = true))) →
    let target := ((q.pc + n.signExtend 64 * 12).setWidth 56).setWidth 64
    ∃ T : Word, (∀ l, l < 32 → T.getLsbD l = (q.part.getLsbD l && (q.pred a l != not))) ∧
      Completes (.bra h not false a n) s fun t =>
        (∀ pa, t.phys.byte pa = s.phys.byte pa) ∧ (∀ x, t.newest q.wid x = s.newest q.wid x) ∧
        ((q.w.freeSplit.isSome = true ∨ q.w.stack.length < 16) → SameMemory s t) ∧
        ∃ w, tfind t.waves q.wid = some w ∧
          let N := q.mask &&& ~~~T
          (T = 0 → (w.split q.split).pc = q.pc + 12 ∧ (w.split q.split).mask = q.mask)
          ∧ (T ≠ 0 → N = 0 → (w.split q.split).pc = target ∧ (w.split q.split).mask = q.mask)
          ∧ (T ≠ 0 → N ≠ 0 → ∀ k, q.w.freeSplit = some k →
            (w.split q.split).pc = q.pc + 12 ∧ (w.split q.split).mask = N
              ∧ (w.split k).live = true ∧ (w.split k).pc = target ∧ (w.split k).mask = T)
          ∧ (T ≠ 0 → N ≠ 0 → q.w.freeSplit = none →
            (w.split q.split).pc = target ∧ (w.split q.split).mask = T
              ∧ w.stack.head? = some ⟨N, 0, q.pc + 12, 0, q.split, false⟩)

/-- R86, R90, R206, R212: BRX sends every lane of the split to its own target, in a live split, in a stack entry
or, when the stack overflows its 16 entries, in an entry of the spill area; lanes that do not participate go to
the next instruction. It traps with 0x20 on a proxy index, with 0x05 on a misaligned target, and with 0x0B when
a push would make a 65th entry or needs a spill area that is not there. -/
def Obligations.IndexedBranch : Prop :=
  ∀ (s : State) (q : Iss) (h : Hints) (a : Opd) (b : SrcB), Issues (.brx h a b) h s q → q.split < 4 →
    let t := fun l => if q.part.getLsbD l then q.uni64 a + (q.srcB b l).w.setWidth 64 else q.pc + 12
    let aligned := ∀ l ∈ lanesOf q.mask, (t l).extractLsb' 0 2 = 0
    let pushes := (groupLanes (lanesOf q.mask) t).length - 1 - (4 - q.w.liveSplits.length)
    (Untagged q (fun l => [q.srcB b l]) → aligned → q.w.depth + pushes ≤ 64 →
      (q.w.stack.length + pushes ≤ 16 ∨ q.grid.spillRoom = true) →
      Completes (.brx h a b) s fun u => (∀ pa, u.phys.byte pa = s.phys.byte pa) ∧ OtherWaves q.wid s u
        ∧ (∀ x, u.newest q.wid x = s.newest q.wid x) ∧ (q.w.stack.length + pushes ≤ 16 → SameMemory s u)
        ∧ ∃ w, tfind u.waves q.wid = some w ∧ ∀ l ∈ lanesOf q.mask,
          (∃ j, j < 4 ∧ (w.split j).live = true ∧ (w.split j).mask.getLsbD l = true ∧ (w.split j).pc = t l)
          ∨ (∃ e ∈ w.stack, e.mask.getLsbD l = true ∧ e.resume = t l)
          ∨ ∃ k, k < w.spilled ∧
            let e := (entryOf (u.spRead 0 (wCore q.wid) (spillOff w q.grid.score k) 32)).1
            e.mask.getLsbD l = true ∧ e.resume = ((t l).setWidth 56).setWidth 64)
    ∧ (CanTrap q s → (∃ l ∈ q.lanes, (q.srcB b l).tag = true) → Completes (.brx h a b) s (Entered q 0x20 q.pc 0 s))
    ∧ (CanTrap q s → Untagged q (fun l => [q.srcB b l]) → ¬ aligned → Completes (.brx h a b) s (Entered q 0x05 q.pc 0 s))
    ∧ (CanTrap q s → Untagged q (fun l => [q.srcB b l]) → aligned → 0 < pushes →
      (64 < q.w.depth + pushes ∨ (q.grid.spillRoom = false ∧ 16 < q.w.stack.length + pushes)) →
      Completes (.brx h a b) s (Entered q 0x0B q.pc 0 s))

/-- R88, R90, R214: JOIN. With an entry of its split that has not started, the split takes the entry's lanes at
its address and its own lanes are held in it; at the JOIN of a started entry both groups go on together; with no
entry it fuses with a split that is held at the same address, waits while another split still runs, and goes on
alone when it is the only one. -/
def Obligations.JoinReconverges : Prop :=
  ∀ (s : State) (q : Iss) (h : Hints), Issues (.join h) h s q → q.w.stack.length ≤ 16 →
    (∀ k e, q.w.entryFor q.split = some k → q.w.stack[k]? = some e → e.started = false →
      Completes (.join h) s fun t => Quiet q s t ∧ ∃ w, tfind t.waves q.wid = some w
        ∧ (w.split q.split).pc = e.resume ∧ (w.split q.split).mask = e.mask
        ∧ w.stack = q.w.stack.set k { e with held := q.mask, join := q.pc, started := true })
    ∧ (∀ k e, q.w.entryFor q.split = some k → q.w.stack[k]? = some e → e.started = true → e.join = q.pc →
      Completes (.join h) s fun t => Quiet q s t ∧ ∃ w, tfind t.waves q.wid = some w
        ∧ (w.split q.split).pc = q.pc + 12 ∧ (w.split q.split).mask = q.mask ||| e.held ∧ w.stack = q.w.stack.eraseIdx k)
    ∧ (∀ k, q.w.entryFor q.split = none → q.w.spilled = 0 → q.w.heldAt q.split q.pc = some k →
      Completes (.join h) s fun t => Quiet q s t ∧ ∃ w, tfind t.waves q.wid = some w
        ∧ (w.split (min q.split k)).live = true ∧ (w.split (min q.split k)).pc = q.pc + 12
        ∧ (w.split (min q.split k)).mask = q.mask ||| (q.w.split k).mask ∧ (w.split (max q.split k)).live = false)
    ∧ (∀ j, q.w.entryFor q.split = none → q.w.spilled = 0 → q.w.heldAt q.split q.pc = none → j < 4 → j ≠ q.split →
      (q.w.split j).live = true → (q.w.split j).joinHeld = false → (q.w.split j).trapHeld = false →
      Completes (.join h) s fun t => Quiet q s t ∧ ∃ w, tfind t.waves q.wid = some w
        ∧ (w.split q.split).joinHeld = true ∧ (w.split q.split).pc = q.pc ∧ (w.split q.split).mask = q.mask)
    ∧ (q.w.entryFor q.split = none → q.w.spilled = 0 → q.split < 4 →
      (∀ j, j < 4 → j ≠ q.split → (q.w.split j).live = false) →
      Completes (.join h) s (Wrote q (q.pc + 12) [] s))

/-- R83, R89, R215: EXIT removes its participants; a split whose last lane ends takes the lanes of its newest
entry, ends while another split lives, or ends the wave, whose registers are given up and whose exit release
begins. -/
def Obligations.ExitEndsLanes : Prop :=
  ∀ (s : State) (q : Iss) (h : Hints), Issues (.exit h) h s q → q.w.stack.length ≤ 16 →
    (q.mask &&& ~~~q.part ≠ 0 →
      Completes (.exit h) s fun t => Quiet q s t ∧ ∃ w, tfind t.waves q.wid = some w
        ∧ (w.split q.split).pc = q.pc + 12 ∧ (w.split q.split).mask = q.mask &&& ~~~q.part)
    ∧ (∀ k e, q.mask &&& ~~~q.part = 0 → q.w.entryFor q.split = some k → q.w.stack[k]? = some e →
      Completes (.exit h) s fun t => Quiet q s t ∧ ∃ w, tfind t.waves q.wid = some w ∧ w.stack = q.w.stack.eraseIdx k
        ∧ (w.split q.split).pc = (if e.started then e.join + 12 else e.resume)
        ∧ (w.split q.split).mask = if e.started then e.held else e.mask)
    ∧ (∀ j, q.mask &&& ~~~q.part = 0 → q.w.entryFor q.split = none → q.w.spilled = 0 → j < 4 → j ≠ q.split →
      (q.w.split j).live = true →
      Completes (.exit h) s fun t => Quiet q s t ∧ ∃ w, tfind t.waves q.wid = some w ∧ (w.split q.split).live = false
        ∧ w.stat = .ready)
    ∧ (q.mask &&& ~~~q.part = 0 → q.w.depth = 0 → (∀ j, j < 4 → j ≠ q.split → (q.w.split j).live = false) →
      Completes (.exit h) s fun t => SameMemory s t ∧ ∃ w, tfind t.waves q.wid = some w ∧ w.stat = .exited ∧ w.v = []
        ∧ ∃ r ∈ w.rels, r.seq = q.seq ∧ r.scope = .sys)

/-- R97, R218, R220: REGION records the state to which a discard returns and takes the next region sequence
number; REGEND closes the region, and the stores made in it become ordinary ones. -/
def Obligations.RegionsOpenAndClose : Prop :=
  (∀ s q h n, Issues (.region h n) h s q → q.w.liveSplits.length ≤ 1 → q.w.depth = 0 →
    (∀ j, j < 12 → q.w.kreg j = 0) ∧
    Completes (.region h n) s fun t => Quiet q s t ∧ ∃ w r, tfind t.waves q.wid = some w ∧ w.region = some r
      ∧ r.entry = q.pc + 12 ∧ r.mask = q.mask ∧ r.p = q.w.flush.p ∧ r.f = q.w.f ∧ r.q = q.w.flush.q
      ∧ r.fpstat = q.w.flush.xreg 16 ∧ r.chain = q.w.chain ∧ r.lives = n
      ∧ w.xreg 10 = q.w.xreg 10 + 1)
  ∧ ∀ s q h, Issues (.regend h) h s q →
    Completes (.regend h) s fun t => Quiet q s t ∧ ∃ w, tfind t.waves q.wid = some w ∧ w.region = none
      ∧ (q.w.region.isSome = true → ∀ e ∈ w.sb, ∀ b ∈ e.bytes, b.rtag = none)

/-- R216, R311, R313, R314: TRAP and BKPT enter the wave's handler, with the next instruction's address as the
trap program counter and the operand as TARG. -/
def Obligations.SoftwareTraps : Prop :=
  ∀ (s : State) (q : Iss) (h : Hints) (b : SrcB), CanTrap q s →
    (Issues (.trap h b) h s q → Completes (.trap h b) s (Entered q 0x7F (q.pc + 12) (q.uniB b) s))
    ∧ (Issues (.bkpt h b) h s q → Completes (.bkpt h b) s (Entered q 0x0A (q.pc + 12) (q.uniB b) s))

/-- R217, R315: RETT leaves the handler: the split that trapped resumes at the trap program counter with TMASK,
and no split is held by the trap any more. -/
def Obligations.ReturnFromTrap : Prop :=
  ∀ (s : State) (q : Iss) (h : Hints) (r : HandlerRec), Issues (.rett h) h s q → q.w.handler = some r →
    (q.w.xreg 33).extractLsb' 0 2 = 0 →
    Completes (.rett h) s fun t => Quiet q s t ∧ ∃ w, tfind t.waves q.wid = some w ∧ w.handler = none ∧ w.x = q.w.x
      ∧ (w.split r.split).live = true ∧ (w.split r.split).mask = q.w.xreg 39
      ∧ (w.split r.split).pc = ((q.w.xreg 34).setWidth 64 <<< 32 ||| (q.w.xreg 33).setWidth 64)
      ∧ ∀ j, (w.split j).trapHeld = false

/-- R208, R218, R219, R221: RETT, and SETS to a register x32 to x47, trap with 0x09 outside the handler; in an
open region, an instruction that would write a live-in register traps with 0x0E and one that a region does not
permit with 0x0F. Each traps at its own address, with the region closed first and nothing of the instruction
done; that 0x09 and 0x0F do so whatever lanes participate is an inference (log 32). -/
def Obligations.PermissionTraps : Prop :=
  (∀ (s : State) (q : Iss) (h : Hints) (i : Instr), (i = .rett h ∨ ∃ k b, i = .sets h (.x k) b ∧ 32 ≤ k.toNat ∧ k.toNat ≤ 47) →
    s.sight i h = some q → CanTrap q s → Completes i s (Entered q 0x09 q.pc 0 s))
  ∧ ∀ (i : Instr) (f : Fields) (s : State) (q : Iss) (r : RegionRec), i.fields = some f → s.sight i f.h = some q → CanTrap q s →
    needsHandler i = false → q.w.region = some r →
    (writesLive r.lives i = true → Completes i s (Entered q 0x0E q.pc 0 s))
    ∧ (writesLive r.lives i = false → regionForbids i = true → Completes i s (Entered q 0x0F q.pc 0 s))

/-- R193: an instruction of a wave in which no lane participates does nothing but issue: no register, no counter
and no byte of memory changes. -/
def Obligations.NoParticipant : Prop :=
  ∀ (i : Instr) (f : Fields) (s : State) (q : Iss), i.fields = some f → s.sight i f.h = some q → notPermitted q.w i = none →
    heldBack s q i f.h = false → q.part = 0 →
    Completes i s fun t => Quiet q s t ∧ ∃ w, tfind t.waves q.wid = some w ∧ q.w.keeps w ∧ w.reqs = q.w.reqs
      ∧ (w.split q.split).pc = q.pc + 12 ∧ (w.split q.split).mask = q.mask ∧ ∀ k, w.kreg k = q.w.kreg k

/-- R91, R124, R225: an instruction that something holds back does not issue, and nothing changes. -/
def Obligations.HeldBackWaits : Prop :=
  ∀ (i : Instr) (f : Fields) (s : State) (q : Iss), i.fields = some f → s.sight i f.h = some q → notPermitted q.w i = none →
    heldBack s q i f.h = true → exec i s = .next s

/-- R201, R270: LD and SLD from memory leave a request for the addressed bytes of each lane; an acquiring load
also leaves an acquire that waits for it (R266). -/
def Obligations.LoadsAsk : Prop :=
  (∀ s q h width d a m, Issues (.ld h width d a m) h s q → q.badFrame a = false → (∀ l ∈ q.lanes, q.idxTagged m l = false) →
    let i : Instr := .ld h width d a m
    let ps := q.globalPieces (s.issued i q) a m (widthBytes width) .read q.lanes fun _ => []
    (∀ p ∈ ps, p.2 = none) → (s.issued i q).piecesNoPlane q.w.ctx (ps.map (·.1)) = false →
    Completes i s fun t => Asked q i q.part (ps.map (·.1)) s t
      ∧ (orderAcq (memOrder m) = true → ∃ w r c, tfind t.waves q.wid = some w ∧ r ∈ w.reqs ∧ c ∈ w.acqs ∧ r.seq = q.seq
        ∧ c.seq = q.seq ∧ c.loads = some r.id))
  ∧ ∀ s q h width d a m, Issues (.sld h width d a m) h s q → isTOpd a = false → q.badFrame a = false →
    let i : Instr := .sld h width d a m
    let ps := q.globalPieces (s.issued i q) a m (widthBytes width) .read [0] fun _ => []
    (∀ p ∈ ps, p.2 = none) → (s.issued i q).piecesNoPlane q.w.ctx (ps.map (·.1)) = false →
    Completes i s fun t => Asked q i 1 (ps.map (·.1)) s t
      ∧ (orderAcq (memOrder m) = true → ∃ w r c, tfind t.waves q.wid = some w ∧ r ∈ w.reqs ∧ c ∈ w.acqs ∧ r.seq = q.seq
        ∧ c.seq = q.seq ∧ c.loads = some r.id)

/-- R119, R122, R125, R270, R272: the scratchpad accesses LDS, STS and ATOMS, and SLD and SST on a tile, leave a
request whose pieces stand at the ports of the places that their addresses name. -/
def Obligations.ScratchpadAccesses : Prop :=
  (∀ s q h width d a m ps, Issues (.lds h width d a m) h s q → (∀ l ∈ q.lanes, q.idxTagged m l = false) →
    q.spAll (s.issued (.lds h width d a m) q) a m (widthBytes width) q.lanes (fun _ => []) = .ok ps →
    Completes (.lds h width d a m) s fun t => Asked q (.lds h width d a m) q.part ps s t ∧ AtPorts ps q.wid false t)
  ∧ (∀ s q h width d a m ps, Issues (.sts h width d a m) h s q →
    Untagged q (fun l => q.index m l :: q.dataWords d (widthRegs width) l) →
    q.spAll (s.issued (.sts h width d a m) q) a m (widthBytes width) q.lanes
      (fun l => storeBytes width ((q.dataWords d (widthRegs width) l).map (·.w))) = .ok ps →
    Completes (.sts h width d a m) s fun t => Asked q (.sts h width d a m) q.part ps s t ∧ AtPorts ps q.wid true t)
  ∧ (∀ s q h width d k m ps, Issues (.sld h width d (.t k) m) h s q →
    q.spAll (s.issued (.sld h width d (.t k) m) q) (.t k) m (widthBytes width) [0] (fun _ => []) = .ok ps →
    Completes (.sld h width d (.t k) m) s fun t => Asked q (.sld h width d (.t k) m) 1 ps s t ∧ AtPorts ps q.wid false t)
  ∧ (∀ s q h width d k m ps, Issues (.sst h width d (.t k) m) h s q →
    q.spAll (s.issued (.sst h width d (.t k) m) q) (.t k) m (widthBytes width) [0]
      (fun _ => storeBytes width ((q.dataWords d (widthRegs width) 0).map (·.w))) = .ok ps →
    Completes (.sst h width d (.t k) m) s fun t => Asked q (.sst h width d (.t k) m) 1 ps s t ∧ AtPorts ps q.wid true t)
  ∧ ∀ s q h op w64 d a m, Issues (.atoms h op w64 d a m) h s q →
    Untagged q (fun l => q.index m l :: q.dataWords d (atomRegs op w64) l) →
    let i : Instr := .atoms h op w64 d a m
    let n := if w64 then 8 else 4
    ∀ place : Nat → Loc, (∀ l ∈ q.lanes, ∃ x y, (s.issued i q).spPieces q a (q.offset m l - BitVec.ofNat 64 ((q.offset m l).toNat % n)) n
        = .ok [(x, y, place l)]) →
    let ps := q.lanes.map fun l => (⟨l, 0, n, 0, place l, .ready,
      atomData op w64 ((q.dataWords d (atomRegs op w64) l).map (·.w)), s.t7, 0⟩ : Piece)
    Completes i s fun t => Asked q i q.part ps s t ∧ AtPorts ps q.wid true t

/-- R102 to R104, R108, R206: in a per-lane instruction that accepts proxies, a lane with a proxy operand is
posted to the home of its first proxy, and its destination lane becomes a proxy of a slot taken there; every
other participant lane holds its own result. With D none the operation is posted and no slot is taken (an
inference: log 25). Every other per-lane instruction of `vecForm` but MOV traps with 0x20 when a participant
lane of an operand is a proxy. -/
def Obligations.ProxyOperands : Prop :=
  (∀ (i : Instr) (f : VecForm) (s : State) (q : Iss) (r : BitVec 8) (slots : List (Nat × Nat)), vecForm i = some f →
    postable i = true → f.d = .v r → Issues i f.h s q →
    (∀ l ∈ q.lanes, anyMalformed [q.src f.a l, q.srcB f.b l, q.src f.c l] = false) →
    (s.issued i q).judgeSlots q ((f.posted q).map fun l => (l, f.home q l)) = .got slots →
    Completes i s fun t => SameMemory s t
      ∧ (∀ l ∈ q.lanes, f.tagged q l = false → t.newest q.wid (.v r.toNat l) = (f.result q l).1.toNat)
      ∧ (∀ l ∈ f.posted q, ∀ k, tfind slots l = some k → HoldsProxy t q.wid r.toNat l (f.home q l) k
        ∧ ∃ m ∈ t.homeq, m.wid = q.wid ∧ m.home = f.home q l ∧ m.lane = l ∧ m.seq = q.seq
          ∧ ∃ a b c, m.kind = .alu (f.op q l) a b c (some (k, t.slotGen (f.home q l) k)))
      ∧ ∀ x, (∀ l ∈ q.lanes, x ≠ .v r.toNat l) → t.newest q.wid x = s.newest q.wid x)
  ∧ (∀ (i : Instr) (f : VecForm) (s : State) (q : Iss) (k : BitVec 8), vecForm i = some f → postable i = true → f.d = .none k →
    Issues i f.h s q → (∀ l ∈ q.lanes, anyMalformed [q.src f.a l, q.srcB f.b l, q.src f.c l] = false) →
    Completes i s fun t => Wrote q (q.pc + 12) [] s t ∧ t.homes = s.homes ∧ ∀ l ∈ f.posted q, ∃ m ∈ t.homeq, m.wid = q.wid
      ∧ m.home = f.home q l ∧ m.lane = l ∧ ∃ a b c, m.kind = .alu (f.op q l) a b c none)
  ∧ ∀ (i : Instr) (f : VecForm) (s : State) (q : Iss), vecForm i = some f → postable i = false → (∀ h d b, i ≠ .mov h d b) →
    Issues i f.h s q → CanTrap q s → f.posted q ≠ [] → Completes i s (Entered q 0x20 q.pc 0 s)

/-- R234: MOV copies operand B lane by lane, a proxy with its tag, and posts a rise of its slot's count. It
takes no slot and posts no operation, and the reference that a lane of D held is released. With a literal it is
encoded with A none and the literal in field B. -/
def Obligations.MoveCopiesProxies : Prop :=
  (∀ (s : State) (q : Iss) (h : Hints) (r : BitVec 8) (b : SrcB), Issues (.mov h (.v r) b) h s q →
    (∀ l ∈ q.lanes, anyMalformed [q.srcB b l] = false) →
    Completes (.mov h (.v r) b) s fun t =>
      Wrote q (q.pc + 12) (q.lanes.map fun l => (.v r.toNat l, laneNat (q.srcB b l))) s t
      ∧ (∀ l ∈ q.lanes, (q.srcB b l).tag = true → ∃ m ∈ t.homeq, m.wid = q.wid ∧ m.lane = l ∧ m.home = pxHome (q.srcB b l).w
        ∧ m.kind = .count (pxSlot (q.srcB b l).w) (pxGen (q.srcB b l).w) 1)
      ∧ (∀ l ∈ q.lanes, (q.w.latest r.toNat l).tag = true → pxMalformed (q.w.latest r.toNat l).w = false → ∃ m ∈ t.homeq,
        m.wid = q.wid ∧ m.lane = l ∧ m.home = pxHome (q.w.latest r.toNat l).w
        ∧ m.kind = .count (pxSlot (q.w.latest r.toNat l).w) (pxGen (q.w.latest r.toNat l).w) (-1))
      ∧ t.homes = s.homes ∧ ∀ m ∈ t.homeq, m ∈ s.homeq ∨ ∃ i g n, m.kind = .count i g n)
  ∧ (∀ s q h k b, Issues (.mov h (.none k) b) h s q → (∀ l ∈ q.lanes, anyMalformed [q.srcB b l] = false) →
    Completes (.mov h (.none k) b) s fun t => Wrote q (q.pc + 12) [] s t ∧ t.homes = s.homes ∧ t.homeq = s.homeq)
  ∧ ∀ h d n w, encodeWord (.mov h d (.lit n)) = some w →
    w.getLsbD 61 = true ∧ w.extractLsb' 40 4 = 0xF ∧ w.extractLsb' 0 32 = n

/-- R107, R232, R243, R278: with a proxy operand, ISETP, FSETP and MAT are crossings: the split waits, and each
proxy lane has a message at its home. Without one MAT copies its lanes at once (an inference: log 28). -/
def Obligations.Crossings : Prop :=
  (∀ (s : State) (q : Iss) (h : Hints) (i : Instr) (op : AluOp) (d a : Opd) (b : SrcB),
    ((∃ c u, i = .isetp h c u d a b ∧ op = .icmp c u) ∨ ∃ c, i = .fsetp h c d a b ∧ op = .fcmp c) → Issues i h s q →
    (∀ l ∈ q.lanes, anyMalformed [q.src a l, q.srcB b l] = false) → q.room (countersOf [8] h) = true →
    (∃ l ∈ q.lanes, (q.src a l).tag || (q.srcB b l).tag) →
    Completes i s fun t => ∃ o ∈ t.homeops, Waits q o.id t ∧ o.wid = q.wid ∧ o.holds = true
      ∧ (∀ l, l < 32 → o.left.getLsbD l = (q.lanes.contains l && ((q.src a l).tag || (q.srcB b l).tag)))
      ∧ ∀ l ∈ q.lanes, ((q.src a l).tag || (q.srcB b l).tag) = true → ∃ m ∈ t.homeq, m.op = some o.id ∧ m.lane = l
        ∧ m.home = homeOfLane [q.src a l, q.srcB b l] ∧ ∃ x y z, m.kind = .alu op x y z none)
  ∧ (∀ s q h d a, Issues (.mat h d a) h s q → (∀ l ∈ q.lanes, anyMalformed [q.src a l] = false) →
    (∃ l ∈ q.lanes, (q.src a l).tag = true) →
    Completes (.mat h d a) s fun t => Quiet q s t ∧ ∃ o ∈ t.homeops, Waits q o.id t ∧ o.wid = q.wid
      ∧ ∀ l ∈ q.lanes, (q.src a l).tag = true → ∃ m ∈ t.homeq, m.op = some o.id ∧ m.lane = l ∧ m.home = pxHome (q.src a l).w
        ∧ m.kind = .read (pxSlot (q.src a l).w) (pxGen (q.src a l).w))
  ∧ ∀ s q h d a, Issues (.mat h d a) h s q → Untagged q (fun l => [q.src a l]) →
    Completes (.mat h d a) s (Wrote q (q.pc + 12) (laneWrites d (q.lanes.map fun l => (l, (q.src a l).w))) s)

/-- R102, R103, R105, R159, R277, R279: LDX turns each lane into a proxy, and posts its fill to the home that
serves its word's sector or, with a proxy index, its load to the home of the index; with D none it takes no slot
(an inference: log 25); PXREL gives up the proxies of its lanes, which become 0; ISPX reads the tags. -/
def Obligations.ProxyInstructions : Prop :=
  (∀ s q h d a m, let i : Instr := .ldx h d a m
    Issues i h s q → q.badFrame a = false → (∀ l ∈ q.lanes, anyMalformed [q.index m l] = false) →
    let u := s.issued i q
    let ps := q.globalPieces u a m 4 .read (q.lanes.filter fun l => !q.idxTagged m l) fun _ => []
    let fill := fun l => u.ldxItem (q.mkReq u.nextId i q.part (ps.map (·.1)) q.cnt) l
    let at_ := fun l => if q.idxTagged m l then pxHome (q.index m l).w else match fill l with | some e => e.1 | none => 0
    let posts := fun (t : State) (dst : Nat → Option (Nat × Nat)) => ∀ l ∈ q.lanes,
      (q.idxTagged m l = true → PostedTo q t (at_ l) l
        (.load (q.homeAddr a m (.slot (pxSlot (q.index m l).w) (pxGen (q.index m l).w))) (dst l)))
      ∧ (q.idxTagged m l = false → ∀ e, fill l = some e → PostedTo q t (at_ l) l (.fill e.2.1 e.2.2 (dst l)))
    u.piecesNoPlane q.w.ctx (ps.map (·.1)) = false → (∀ p ∈ ps, p.2 = none ∧ p.1.st ≠ .untranslated) →
    (∀ r slots, d = .v r → u.judgeSlots q (q.lanes.map fun l => (l, at_ l)) = .got slots →
      Completes i s fun t => SameMemory s t ∧ posts t (fun l => (tfind slots l).map fun k => (k, t.slotGen (at_ l) k))
        ∧ (∀ l ∈ q.lanes, ∀ k, tfind slots l = some k → HoldsProxy t q.wid r.toNat l (at_ l) k)
        ∧ ∀ x, (∀ l ∈ q.lanes, x ≠ .v r.toNat l) → t.newest q.wid x = s.newest q.wid x)
    ∧ ∀ k, d = .none k → Completes i s fun t => Quiet q s t ∧ t.homes = s.homes ∧ posts t fun _ => none)
  ∧ (∀ s q h k, Issues (.pxrel h (.none k)) h s q → Completes (.pxrel h (.none k)) s (Wrote q (q.pc + 12) [] s))
  ∧ (∀ s q h r, Issues (.pxrel h (.v r)) h s q → (∀ l ∈ q.lanes, anyMalformed [q.vlane r.toNat l] = false) →
    Completes (.pxrel h (.v r)) s fun t =>
      Wrote q (q.pc + 12) ((q.lanes.filter fun l => (q.vlane r.toNat l).tag).map fun l => (.v r.toNat l, 0)) s t
      ∧ ∀ l ∈ q.lanes, (q.vlane r.toNat l).tag = true → ∃ m ∈ t.homeq, m.wid = q.wid ∧ m.lane = l
        ∧ m.home = pxHome (q.vlane r.toNat l).w
        ∧ m.kind = .count (pxSlot (q.vlane r.toNat l).w) (pxGen (q.vlane r.toNat l).w) (-1))
  ∧ ∀ s q h d a, Issues (.ispx h d a) h s q →
    Completes (.ispx h d a) s (Wrote q (q.pc + 12) (predWrites d (q.lanes.map fun l => (l, (q.src a l).tag))) s)

/-- R103, R105, R106, R264, R270, R271: a plain ST or SST enters the bytes of its lanes in the wave's store
buffer, so that memory is unchanged; a release store leaves a request that waits for its release. A lane of ST
whose index or data is a proxy is posted to the home of the first of them, with its address and its data; more
than one register of data must hold no proxy. -/
def Obligations.StoresAreBuffered : Prop :=
  (∀ (s : State) (q : Iss) (h : Hints) (width : Width) (d a : Opd) (m : Mem) (i : Instr) (ls : List Nat) (mask : Word),
    (i = .st h width d a m ∧ ls = q.lanes ∧ mask = q.part ∨ i = .sst h width d a m ∧ ls = [0] ∧ mask = 1 ∧ isTOpd a = false) →
    Issues i h s q → q.badFrame a = false → Untagged q (fun l => q.index m l :: q.dataWords d (widthRegs width) l) →
    let ps := q.globalPieces (s.issued i q) a m (widthBytes width) .write ls
      fun l => storeBytes width ((q.dataWords d (widthRegs width) l).map (·.w))
    (∀ p ∈ ps, p.2 = none) → (s.issued i q).piecesNoPlane q.w.ctx (ps.map (·.1)) = false →
    (orderRel (memOrder m) = false →
      let u := (({ s.issued i q with nextId := (s.issued i q).nextId + 1 } : State)).enterStores q.wid
        (q.mkReq (s.issued i q).nextId i mask (ps.map (·.1)) q.cnt)
      u.2.complete = true →
      Completes i s fun t => Quiet q s t ∧ ∃ w v, tfind t.waves q.wid = some w ∧ tfind u.1.waves q.wid = some v ∧ w.sb = v.sb
        ∧ w.reqs = q.w.reqs ∧ w.passed q (q.pc + 12))
    ∧ (orderRel (memOrder m) = true →
      Completes i s fun t => Asked q i mask (ps.map (·.1)) s t
        ∧ (memScope m ≠ .wave → Releasing q (memScope m) (fun c => c = .nothing) t)))
  ∧ ∀ (s : State) (q : Iss) (h : Hints) (width : Width) (d a : Opd) (m : Mem), let i : Instr := .st h width d a m
    Issues i h s q → q.badFrame a = false → (∀ l ∈ q.lanes, anyMalformed (q.index m l :: q.dataWords d (widthRegs width) l) = false) →
    (1 < widthRegs width → Untagged q (fun l => q.dataWords d (widthRegs width) l)) →
    let posted := q.postedLanes d (widthRegs width) m
    let ps := q.globalPieces (s.issued i q) a m (widthBytes width) .write (q.lanes.filter fun l => !posted.contains l)
      fun l => storeBytes width ((q.dataWords d (widthRegs width) l).map (·.w))
    (∀ p ∈ ps, p.2 = none) → (s.issued i q).piecesNoPlane q.w.ctx (ps.map (·.1)) = false →
    (orderRel (memOrder m) = true ∨ q.w.region = none) → posted ≠ [] →
    Completes i s fun t => Quiet q s t
      ∧ (∀ l ∈ posted, ∃ ho hd,
        let home := homeOfLane [q.index m l, (q.dataWords d (widthRegs width) l).headD Lane.zero]
        Travels q t home l (q.index m l) ho ∧ Travels q t home l ((q.dataWords d (widthRegs width) l).headD Lane.zero) hd
          ∧ PostedTo q t home l (.store (q.homeAddr a m ho) width hd
            (storeBytes width ((q.dataWords d (widthRegs width) l).map (·.w))) false 0 0))
      ∧ (orderRel (memOrder m) = false →
        let u := (({ s.issued i q with nextId := (s.issued i q).nextId + 1 } : State)).enterStores q.wid
          (q.mkReq (s.issued i q).nextId i q.part (ps.map (·.1)) q.cnt)
        u.2.complete = true → ∃ w v, tfind t.waves q.wid = some w ∧ tfind u.1.waves q.wid = some v ∧ w.sb = v.sb)
      ∧ (orderRel (memOrder m) = true → memScope m ≠ .wave → Releasing q (memScope m) (fun c => c = .nothing) t)

/-- R264, R267, R270: the bytes of a lane's store enter the wave's entry for their sector; where no later store
of the wave has written, its later reads see them. -/
def Obligations.BufferedBytesAreSeen : Prop :=
  ∀ (s : State) (wid seq lane pa key : Nat) (pc va : DWord) (rtag : Option Nat) (data : List Byte) (w : Wave),
    tfind s.waves wid = some w → pa % 32 + data.length ≤ 32 → s.pme.moves = [] →
    (∀ e ∈ w.sb, ∀ b ∈ e.bytes, b.place ≤ laneSeq seq lane) → (∀ m ∈ s.homeq, m.wid = wid → laneSeq m.seq m.lane < laneSeq seq lane) →
    ∃ v, tfind (s.bufferStore wid seq lane pc rtag pa key va data).waves wid = some v ∧
      ∀ (later : Nat) (old : List Byte), seq < later → old.length = data.length →
        (s.bufferStore wid seq lane pc rtag pa key va data).overlay wid v later pa old = data

/-- R103, R105, R106, R271, R273, R274: ATOM leaves a request with the aligned location and the operands of each
lane; one with `.rel` or `.ar` releases first, and one to a sector that the wave's store buffer holds releases
at `.sys`. A lane of a 32-bit ATOM with a proxy operand is posted to the home of the first of them, and its D
lane, unless `.nr` keeps no old value, becomes a proxy of a slot taken there. -/
def Obligations.AtomicsAsk : Prop :=
  ∀ (s : State) (q : Iss) (h : Hints) (op : AtomOp) (w64 : Bool) (d a : Opd) (m : Mem),
    let i : Instr := .atom h op w64 d a m
    let u := s.issued i q
    Issues i h s q → q.badFrame a = false →
    let posted := q.postedLanes d (atomRegs op w64) m
    let ps := q.atomPieces u op w64 d a m (q.lanes.filter fun l => !posted.contains l)
    (∀ p ∈ ps, p.2 = none) → u.piecesNoPlane q.w.ctx (ps.map (·.1)) = false →
    let released := fun (t : State) =>
      (orderRel (memOrder m) = true → memScope m ≠ .wave → Releasing q (memScope m) (fun c => c = .nothing) t)
      ∧ ((ps.any fun p => q.w.buffered p.1) = true → Releasing q .sys (fun c => c = .nothing) t)
    (posted = [] → Completes i s fun t => Asked q i q.part (ps.map (·.1)) s t ∧ released t)
    ∧ (w64 = false → (∀ l ∈ q.lanes, anyMalformed (q.index m l :: q.dataWords d (atomRegs op w64) l) = false) →
      let home := fun l => homeOfLane (q.index m l :: q.dataWords d (atomRegs op w64) l)
      let want := if memNr m || (vDest d).isNone then [] else posted.map fun l => (l, home l)
      ∀ slots, u.judgeSlots q want = .got slots →
      Completes i s fun t => SameMemory s t ∧ released t
        ∧ (∀ x, (∀ r l, vDest d = some r → l ∈ posted → x ≠ .v r l) → t.newest q.wid x = s.newest q.wid x)
        ∧ (∃ w r, tfind t.waves q.wid = some w ∧ r ∈ w.reqs ∧ r.seq = q.seq ∧ r.pieces = ps.map (·.1) ++ posted.map (postedPiece s))
        ∧ (∀ r l k, vDest d = some r → l ∈ posted → tfind slots l = some k → HoldsProxy t q.wid r l (home l) k)
        ∧ ∀ l ∈ posted, ∃ ho hx hy, let ds := q.dataWords d (atomRegs op w64) l
          Travels q t (home l) l (q.index m l) ho ∧ Travels q t (home l) l (ds.headD Lane.zero) hx
            ∧ Travels q t (home l) l (ds.getD 1 Lane.zero) hy
            ∧ PostedTo q t (home l) l (.atom (q.homeAddr a m ho) op (if op = .cas then .val 0 else hx) (if op = .cas then hx else .val 0)
              (if op = .cas then hy else .val 0) ((tfind slots l).map fun k => (k, t.slotGen (home l) k)) (memNr m)))

/-- R265, R266, R276: PUB leaves a release of its scope, ACQ an acquire of every earlier read, FENCE both; a
release at wave scope is complete when it issues. The acquire, which bears the next free number, stands exactly
while something that it waits for is left: one whose reads have already completed is gone at once. -/
def Obligations.OrderingInstructions : Prop :=
  ∀ (s : State) (q : Iss) (h : Hints) (scope : Scope),
    let pending := fun (t : State) (k : Nat) (i : Instr) => ∃ w, tfind t.waves q.wid = some w
      ∧ let a : Acq := ⟨(s.issued i q).nextId + k, q.seq, none, q.cnt⟩
        (a ∈ w.acqs ↔ t.acqDone q.wid w a = false)
    (Issues (.pub h scope) h s q →
      Completes (.pub h scope) s fun t => Quiet q s t ∧ (scope ≠ .wave → Releasing q scope (fun c => c = .nothing) t)
        ∧ ∃ w, tfind t.waves q.wid = some w ∧ q.w.keeps w ∧ (w.split q.split).pc = q.pc + 12
          ∧ ∀ k, w.kreg k = q.w.kreg k + if q.cnt.contains k && scope != .wave then 1 else 0)
    ∧ (Issues (.acq h scope) h s q → Completes (.acq h scope) s fun t => Quiet q s t ∧ pending t 0 (.acq h scope))
    ∧ (Issues (.fence h scope) h s q →
      Completes (.fence h scope) s fun t => Quiet q s t ∧ pending t (if scope = .wave then 0 else 1) (.fence h scope)
        ∧ (scope ≠ .wave → Releasing q scope (fun c => c = .nothing) t))

/-- R151, R275, R331: FRAME writes its frame register at once when the core TLB holds the page and the entries
of its run can be read; otherwise it leaves a request. -/
def Obligations.FrameRegisters : Prop :=
  ∀ (s : State) (q : Iss) (h : Hints) (d a : Opd), Issues (.frame h d a) h s q → (q.uni64 a).extractLsb' 56 8 = 0 →
    let va := q.uni64 a
    let u := s.issued (.frame h d a) q
    (∀ t0 t1, tlbFind (u.core (wCore q.wid)).tlb q.w.ctx va = some t0 → u.judgeTr q.w.ctx t0 .read = .ok t1 →
      u.runServable q.w.ctx t1 va = true → Completes (.frame h d a) s fun t => Quiet q s t ∧ ∃ w, tfind t.waves q.wid = some w ∧ w.x = q.w.x
        ∧ ∀ k, tget 0 w.f k = if k = d.idx.toNat then u.frameOf q.w.ctx t1 va else tget 0 q.w.f k)
    ∧ ((tlbFind (u.core (wCore q.wid)).tlb q.w.ctx va = none ∨ ∃ t0 t1, tlbFind (u.core (wCore q.wid)).tlb q.w.ctx va = some t0
        ∧ u.judgeTr q.w.ctx t0 .read = .ok t1 ∧ u.runServable q.w.ctx t1 va = false) →
      Completes (.frame h d a) s (Asked q (.frame h d a) q.part [⟨q.lanes.headD 0, 0, 1, va, .va va, .untranslated, [], s.t7, 0⟩] s))

/-- R123, R127, R280, R283: COPY leaves its command with its team, to be appended once a release at device scope
completes, and TMOV queues its move, each with the barrier that its operand C names, if it names one; a tile
that a copy fills goes to FILLING and one that it empties to DRAINING. The command's address field of a tile
end, which the engine ignores, is 0 (an inference: log 39). -/
def Obligations.CopiesAreIssued : Prop :=
  let named := fun (q : Iss) (c : Opd) (bar : Option Nat) => (∃ k, c = .none k) ∧ bar = none
    ∨ (∃ k p, c = .s k ∧ txName q.grid q.team (q.uni c) = .ok p) ∧ bar = some (txField (q.uni c))
  (∀ s q h dsp ssp d a b c bar, Issues (.copy h dsp ssp d a b c) h s q → named q c bar →
    let i : Instr := .copy h dsp ssp d a b c
    let u := s.issued i q
    let len := (q.uni b).toNat / 32 * 32
    let tile := if isTOpd d then some (opdIdx d, false) else if isTOpd a then some (opdIdx a, true) else none
    (∀ x, tile = some x → tileBytes (q.team.tile x.1) = len) →
    (isTOpd d = false → u.copyEnd q.team.grid q.grid q.team (spaceCode dsp) (q.copyAddr d) len = none) →
    (isTOpd a = false → u.copyEnd q.team.grid q.grid q.team (spaceCode ssp) (q.copyAddr a) len = none) →
    q.team.ringHeld < 63 →
    Completes i s fun t => Quiet q s t ∧ ∃ x p, tfind t.teams q.w.team = some x ∧ x.issued = q.team.issued ++ [p]
      ∧ p.wid = q.wid ∧ p.seq = q.seq ∧ p.cnt = q.cnt
      ∧ p.cmd = copyCmd (spaceCode dsp) (spaceCode ssp) tile bar len (q.copyAddr d) (q.copyAddr a)
      ∧ Releasing q .dev (fun c => c = .copy p.id) t
      ∧ (∀ k, tile = some (k, false) → tileState (x.tile k) = 1) ∧ ∀ k, tile = some (k, true) → tileState (x.tile k) = 3)
  ∧ ∀ s q h d a c bar, Issues (.tmov h (.t d) (.t a) c) h s q → named q c bar → d ≠ a →
    tileBytes (q.team.tile d.toNat) = tileBytes (q.team.tile a.toNat) → q.team.tmq.length < 8 →
    Completes (.tmov h (.t d) (.t a) c) s fun t => Quiet q s t ∧ ∃ x p, tfind t.teams q.w.team = some x
      ∧ x.tmq = q.team.tmq ++ [p] ∧ p.move = some (a.toNat, d.toNat) ∧ p.cnt = q.cnt
      ∧ p.cmd = copyCmd 0 0 none bar (tileBytes (q.team.tile a.toNat)) 0 0
      ∧ tileState (x.tile d.toNat) = 1 ∧ tileState (x.tile a.toNat) = 3

/-- R120 to R123, R194, R284: TDEF gives a tile its geometry and makes it EMPTY, or with ROWS 0 takes its
geometry away, TFREE takes it away, TSTAT reads the entry. TDEF and TFREE keep FAULT (an inference: log 41). -/
def Obligations.TileTable : Prop :=
  (∀ s q h d a, Issues (.tdef h (.t d) a) h s q →
    let r := fun k => match a with | .s i => (q.sreg (i.toNat + k)).toNat | _ => 0
    let rows := r 0 % 65536
    let rowBytes := r 0 / 65536
    let pitch := r 1 % 65536
    let level := r 1 / 65536 % 4
    r 1 < 2 ^ 18 → geomOk rows rowBytes pitch level (r 2) = true →
    (rows ≠ 0 → geomEnd rows rowBytes pitch (r 2) ≤ q.grid.spSize level) →
    Completes (.tdef h (.t d) a) s fun t => Wrote q (q.pc + 12) [] s t ∧ ∃ x, tfind t.teams q.w.team = some x ∧
      let e := x.tile d.toNat
      (tileDefined e = true ↔ rows ≠ 0) ∧ tileState e = 0 ∧ tileRows e = rows ∧ tileRowBytes e = rowBytes ∧ tileLevel e = level
        ∧ tilePitch e = (if pitch = 0 then rowBytes else pitch) ∧ tileBase e = r 2
        ∧ tileFault e = tileFault (q.team.tile d.toNat) ∧ ∀ k, k ≠ d.toNat → x.tile k = q.team.tile k)
  ∧ (∀ s q h d, Issues (.tfree h (.t d)) h s q → tileDefined (q.team.tile d.toNat) = true →
    Completes (.tfree h (.t d)) s fun t => Wrote q (q.pc + 12) [] s t ∧ ∃ x, tfind t.teams q.w.team = some x ∧
      tileDefined (x.tile d.toNat) = false ∧ tileState (x.tile d.toNat) = 0
        ∧ tileFault (x.tile d.toNat) = tileFault (q.team.tile d.toNat) ∧ ∀ k, k ≠ d.toNat → x.tile k = q.team.tile k)
  ∧ ∀ s q h d a, Issues (.tstat h d a) h s q →
    Completes (.tstat h d a) s (Wrote q (q.pc + 12) (sWrites d ((List.range 4).map fun k =>
      (q.team.tile (opdIdx a)).toNat / 2 ^ (32 * k) % 2 ^ 32)) s)

/-- R134, R137, R138, R286 to R288: each barrier instruction sends its operation to the port of the barrier that
its operand names; all but TXINIT hold their split until it is done, and TXARRIVE releases first (R140). -/
def Obligations.BarrierInstructions : Prop :=
  ∀ (s : State) (q : Iss) (h : Hints) (d a b : Opd) (v : SrcB) (lvl unit off : Nat),
    txName q.grid q.team (q.uni a) = .ok (lvl, unit, off) →
    let sent := fun (i : Instr) (k : TxKind) (holds : Bool) =>
      Completes i s fun t => Quiet q s t ∧ ∃ op, t.portq = s.portq ++ [op] ∧ op.wid = q.wid ∧ op.seq = q.seq ∧ op.lvl = lvl
        ∧ op.unit = unit ∧ op.off = off ∧ op.what = .tx k ∧ op.cnt = q.cnt ∧ (holds = true → Waits q op.id t)
    (Issues (.txinit h a v) h s q → (q.uniB v).toNat ≠ 0 → (q.uniB v).toNat ≤ 16777215 →
      sent (.txinit h a v) (.init (q.uniB v).toNat) false)
    ∧ (Issues (.txexpect h a v) h s q → sent (.txexpect h a v) (.expect (q.uniB v).toNat) true)
    ∧ (Issues (.txarrive h a v) h s q → (q.uniB v).toNat ≠ 0 →
      sent (.txarrive h a v) (.arrive (q.uniB v).toNat) true
      ∧ ∃ scope, (scope = .team ∨ scope = .clu) ∧ Completes (.txarrive h a v) s (Releasing q scope (fun c => c = .nothing)))
    ∧ (Issues (.txwait h a v) h s q → sent (.txwait h a v) (.wait ((q.uniB v).toNat % 16)) true)
    ∧ (Issues (.txtest h d a v) h s q → sent (.txtest h d a v) (.test ((q.uniB v).toNat % 16) d) true)
    ∧ (Issues (.cbar h a b) h s q → (q.uni a).getLsbD 31 = false → (q.uni b).getLsbD 31 = true →
      ((q.uni b).extractLsb' 0 31).toNat % 16 = 0 → ((q.uni b).extractLsb' 0 31).toNat + 16 ≤ q.grid.sclu →
      sent (.cbar h a b) (.cbar ((q.uni b).extractLsb' 0 31).toNat) true)

/-- R289, R290, R294 to R300: each matrix instruction makes its team the owner of the core's engine, which a new
owner finds at zero with no slot loaded, and sends its command to the engine behind those already sent; MCHAIN
and MEND open and close the wave's chain and send none. -/
def Obligations.MatrixInstructions : Prop :=
  ∀ (s : State) (q : Iss) (h : Hints) (fmt : Fmt) (slot sc f32 : Bool) (op : RowRed) (d a : Opd) (b : SrcB),
    let core := wCore q.wid
    let mine := fun (t : State) => (t.core core).mx.owner = some q.w.team
      ∧ (t.core core).mx.acc = (if (s.core core).mx.owner = some q.w.team then (s.core core).mx.acc else [])
    let sends := fun (i : Instr) (arg : Nat) (tile : Option (BitVec 128)) (t : State) =>
      Quiet q s t ∧ mine t ∧ ∃ c, t.mxq = s.mxq ++ [c] ∧ c.instr = i ∧ c.core = core ∧ c.wid = q.wid ∧ c.team = q.w.team
        ∧ c.seq = q.seq ∧ c.mask = q.part ∧ c.arg = arg ∧ c.tile = tile ∧ c.cnt = q.cnt
        ∧ (∀ k, q.w.chain = some k → c.chain = k)
    let mask := (q.uniB b).toNat % 65536
    let wslots := fun (t : State) => (t.core core).mx.wst
    let old := (s.mxFor q).wst
    let tileOf := fun (o : Opd) => match o with | .t k => some (q.team.tile k.toNat) | _ => none
    (Issues (.mloadb h fmt slot d b) h s q → tileBytes (q.team.tile (opdIdx d)) = 8192 * (banksOf mask).length →
      Completes (.mloadb h fmt slot d b) s fun t => sends (.mloadb h fmt slot d b) mask (tileOf d) t
        ∧ ∀ k, tfind (wslots t) k = if ∃ x ∈ banksOf mask, k = wslot slot x then some ⟨fmt, false⟩ else tfind old k)
    ∧ (Issues (.mma h fmt slot sc d a b) h s q → tileBytes (q.team.tile (opdIdx a)) = 4096 →
      (∀ k ∈ banksOf mask, mmaBank (s.mxFor q) (wPart q.wid) fmt slot sc k = none) →
      Completes (.mma h fmt slot sc d a b) s (sends (.mma h fmt slot sc d a b) mask (tileOf a)))
    ∧ (Issues (.mchain h) h s q → q.w.chain = none →
      Completes (.mchain h) s fun t => Quiet q s t ∧ mine t ∧ t.mxq = s.mxq
        ∧ ∃ w, tfind t.waves q.wid = some w ∧ w.chain.isSome = true ∧ w.passed q (q.pc + 12))
    ∧ (Issues (.mend h) h s q → q.w.chain.isSome = true →
      Completes (.mend h) s fun t => Quiet q s t ∧ mine t
        ∧ t.mxq = s.mxq.map (fun m => if some m.chain = q.w.chain then { m with fin := some s.nextId } else m)
        ∧ ∃ w, tfind t.waves q.wid = some w ∧ w.chain = none ∧ w.passed q (q.pc + 12))
    ∧ (Issues (.oprdy h a) h s q → Completes (.oprdy h a) s (sends (.oprdy h a) 0 (tileOf a)))
    ∧ (Issues (.mzero h d) h s q → Completes (.mzero h d) s (sends (.mzero h d) 0 none))
    ∧ (Issues (.mread h fmt f32 d a b) h s q → (isTOpd d = true → tileBytes (q.team.tile (opdIdx d)) = imageBytes fmt f32) →
      Completes (.mread h fmt f32 d a b) s (sends (.mread h fmt f32 d a b) ((q.uniB b).toNat % 64) (tileOf d)))
    ∧ (Issues (.mwrite h fmt f32 d a b) h s q → isTOpd a = true → tileBytes (q.team.tile (opdIdx a)) = imageBytes fmt f32 →
      Completes (.mwrite h fmt f32 d a b) s (sends (.mwrite h fmt f32 d a b) 0 (tileOf a)))
    ∧ (Issues (.mwrite h fmt f32 d a b) h s q → isTOpd a = false → Untagged q (fun l => [q.src a l]) →
      Completes (.mwrite h fmt f32 d a b) s fun t => sends (.mwrite h fmt f32 d a b) ((q.uniB b).toNat % 64) none t
        ∧ ∀ c, t.mxq = s.mxq ++ [c] → c.got = q.lanes.map fun l => (l, leBytes 4 (q.src a l).w.toNat))
    ∧ (Issues (.mscale h slot true d b) h s q → tileBytes (q.team.tile (opdIdx d)) = 512 →
      Completes (.mscale h slot true d b) s fun t => sends (.mscale h slot true d b) 0 (tileOf d) t
        ∧ tget false (t.core core).mx.asv (wPart q.wid) = true)
    ∧ (Issues (.mscale h slot false d b) h s q → tileBytes (q.team.tile (opdIdx d)) = 1024 * (banksOf mask).length →
      (∀ k ∈ banksOf mask, mscaleBank (s.mxFor q) slot k = none) →
      Completes (.mscale h slot false d b) s fun t => sends (.mscale h slot false d b) mask (tileOf d) t
        ∧ ∀ x ∈ banksOf mask, ∃ y, tfind (wslots t) (wslot slot x) = some y ∧ y.scaled = true)
    ∧ (Issues (.mrowred h op d a) h s q → Completes (.mrowred h op d a) s (sends (.mrowred h op d a) 0 (tileOf a)))

/-- R142, R167, R302, R303: a forest instruction holds its split. When the core TLB holds its descriptor's page
it begins a release at device scope and is posted to the descriptor's home with its lanes' elements, its
counters raised; on a miss its request is left, to be posted when the page is translated. -/
def Obligations.ForestInstructions : Prop :=
  ∀ (s : State) (q : Iss) (h : Hints) (d a b c : Opd) (label compact s32 : Bool) (op : Relab),
    let does := fun (i : Instr) (args : List (Nat × Nat × Nat)) => Issues i h s q →
      (∀ pa key, (s.issued i q).locateVa q.w.ctx (wCore q.wid) (q.uni64 a) .read = .ok (.mem pa key) →
        (s.issued i q).noPlane q.w.ctx pa = false →
        Completes i s fun t => Quiet q s t ∧ ∃ o w, t.forestq = s.forestq ++ [o] ∧ o.instr = i ∧ o.wid = q.wid ∧ o.seq = q.seq
          ∧ o.desc = q.uni64 a ∧ o.pa = pa ∧ o.key = key ∧ o.args = args ∧ o.ready = false ∧ o.cnt = q.cnt
          ∧ Waits q o.id t ∧ Releasing q .dev (fun k => k = .forest o.id) t
          ∧ tfind t.waves q.wid = some w ∧ ∀ k, w.kreg k = q.w.kreg k + if q.cnt.contains k then 1 else 0)
      ∧ ((s.issued i q).locateVa q.w.ctx (wCore q.wid) (q.uni64 a) .read = .ok (.va (q.uni64 a)) →
        Completes i s fun t => Quiet q s t ∧ t.forestq = s.forestq ∧ ∃ w r, tfind t.waves q.wid = some w ∧ w.reqs = q.w.reqs ++ [r]
          ∧ r.instr = i ∧ r.seq = q.seq ∧ r.cnt = q.cnt ∧ r.aux = forestAux args ∧ Waits q r.id t
          ∧ (∃ p, r.pieces = [p] ∧ p.st = .untranslated ∧ p.va = q.uni64 a)
          ∧ ∀ k, w.kreg k = q.w.kreg k + if q.cnt.contains k then 1 else 0)
    does (.finit h a) [] ∧ does (.fsnap h a) [] ∧ does (.fundo h a) [] ∧ does (.fcommit h a) [] ∧ does (.fstat h d a) []
    ∧ does (.relabel h compact s32 op a b c) [(0, (q.uni64 b).toNat, (q.uni64 c).toNat)]
    ∧ (Untagged q (fun l => [q.src b l, q.src c l]) →
      does (.unite h a b c) (q.lanes.map fun l => (l, (q.src b l).w.toNat, (q.src c l).w.toNat)))
    ∧ (Untagged q (fun l => [q.src b l]) →
      does (.find h label d a b) (q.lanes.map fun l => (l, (q.src b l).w.toNat, 0)))

/-- R250, R304 to R306, R314: GETS, TIME and CLOCK write their s registers in the issue clock; SETS clears flags
of FPSTAT and, in the handler, writes the trap registers that are read-write. -/
def Obligations.SpecialRegisters : Prop :=
  (∀ s q h d k, Issues (.gets h d (.x k)) h s q →
    Completes (.gets h d (.x k)) s fun t => (k.toNat ≠ 16 ∨ q.w.pend = []) →
      Wrote q (q.pc + 12) (sWrites d [(if k.toNat = 9 then q.mask else q.w.xreg k.toNat).toNat]) s t)
  ∧ (∀ s q h d, Issues (.time h d) h s q → s.t7 / 7 < 2 ^ 64 →
    Completes (.time h d) s (Wrote q (q.pc + 12) (sWrites d [s.t7 / 7 % 2 ^ 32, s.t7 / 7 / 2 ^ 32]) s))
  ∧ (∀ s q h d, Issues (.clock h d) h s q → q.clk < 2 ^ 64 →
    Completes (.clock h d) s (Wrote q (q.pc + 12) (sWrites d [q.clk % 2 ^ 32, q.clk / 2 ^ 32]) s))
  ∧ (∀ s q h b, Issues (.sets h (.x 16) b) h s q → q.w.raisedAt ≠ q.clk →
    Completes (.sets h (.x 16) b) s fun t => Quiet q s t ∧ ∃ w, tfind t.waves q.wid = some w ∧ w.passed q (q.pc + 12)
      ∧ w.xreg 16 = q.w.xreg 16 &&& ~~~(q.uniB b) ∧ ∀ j, j ≠ 16 → w.xreg j = q.w.xreg j)
  ∧ ∀ s q h k b, Issues (.sets h (.x k) b) h s q → (k.toNat = 33 ∨ k.toNat = 34 ∨ (44 ≤ k.toNat ∧ k.toNat ≤ 47)) →
    Completes (.sets h (.x k) b) s fun t => Quiet q s t ∧ ∃ w, tfind t.waves q.wid = some w ∧ w.passed q (q.pc + 12)
      ∧ w.xreg k.toNat = (if k.toNat = 34 then q.uniB b &&& 0xFFFFFF else q.uniB b) ∧ ∀ j, j ≠ k.toNat → w.xreg j = q.w.xreg j

/-- R49, R51, R54, R309, R310: an accepted WOPEN takes the lowest CLOSED window, which is OPENING with the
fields of its operands and a fresh key; an accepted WCLOSE makes an OPEN window CLOSING, and an OPENING one
holds the event. That both act as they are accepted, and only the re-keying waits for their release, is an
inference (log 44). Each leaves the release at device scope that its re-keying waits for. TLBINV leaves the
release at system scope after which its range is invalidated. -/
def Obligations.WindowInstructions : Prop :=
  (∀ s q h d a b w, Issues (.wopen h d a b) h s q →
    let u := s.issued (.wopen h d a b) q
    let v := q.uniB b
    let importer := (v.extractLsb' 24 6).toNat
    let n := (v.extractLsb' 0 24).toNat
    let vpn := (q.uni64 a).toNat / 65536
    (q.uni64 a).extractLsb' 0 16 = 0 → (q.uni64 a).extractLsb' 56 8 = 0 → n ≠ 0 → v.getLsbD 30 = false →
    importer ≠ q.w.ctx → (u.ctx importer).st ≠ .free → u.windowRange q.w.ctx n vpn = true →
    ((List.range 193).drop 1).find? (fun w => (u.window w).st == .closed) = some w →
    Completes (.wopen h d a b) s fun t => (∀ r, d = .s r → t.newest q.wid (.s r.toNat) = w) ∧ (t.window w).st = .opening
      ∧ (t.window w).owner = q.w.ctx ∧ (t.window w).importer = importer ∧ (t.window w).write = v.getLsbD 31
      ∧ (t.window w).pages = n ∧ (t.window w).basevpn = vpn ∧ (t.window w).opener = some (q.wid, q.cnt)
      ∧ tget 0 t.phys.keys (63 + w) = Config.randomKey u.fresh
      ∧ (∀ j, j ≠ w → t.window j = s.window j) ∧ Releasing q .dev (fun c => c = .wopen w) t)
  ∧ (∀ s q h b, Issues (.wclose h b) h s q →
    let w := (q.uniB b).toNat
    w ≠ 0 → w ≤ 192 → (s.window w).owner = q.w.ctx → (s.window w).st ≠ .closed → (s.window w).st ≠ .closing →
    Completes (.wclose h b) s fun t => Quiet q s t ∧ (t.window w).closers = (s.window w).closers ++ [(q.wid, q.cnt)]
      ∧ ((s.window w).st = .opened → (t.window w).st = .closing ∧ (t.window w).done = 0)
      ∧ ((s.window w).st = .opening → (t.window w).st = .opening ∧ (t.window w).held.isSome = true)
      ∧ (∀ j, j ≠ w → t.window j = s.window j) ∧ Releasing q .dev (fun c => c = .wclose w) t)
  ∧ ∀ s q h a b, Issues (.tlbinv h a b) h s q →
    Completes (.tlbinv h a b) s fun t => Quiet q s t
      ∧ Releasing q .sys (fun c => c = .tlbinv ((q.uni64 a).toNat / 65536) (q.uniB b).toNat q.cnt) t

/-- R157, R307, R308: QPUT holds its split, begins a release at device scope and leaves its read of the packet;
HINT raises the hotness counter of the addressed frame to PROMOTE or clears it, after the accesses of its own
translation have counted, and does nothing where its address does not translate. That its translation, a miss
included, is made and counted in its own step is an inference (logs 22, 69). -/
def Obligations.QueueAndHint : Prop :=
  (∀ s q h queue a, Issues (.qput h queue a) h s q → (isTOpd a = true → 256 ≤ tileBytes (q.team.tile (opdIdx a))) →
    Completes (.qput h queue a) s fun t => Asked q (.qput h queue a) q.part (qputPieces q a s.t7) s t
      ∧ ∃ w r, tfind t.waves q.wid = some w ∧ r ∈ w.reqs ∧ r.seq = q.seq ∧ Waits q r.id t
        ∧ Releasing q .dev (fun c => c = .req r.id) t)
  ∧ ∀ s q h kind a, Issues (.hint h kind a) h s q →
    let u := (s.issued (.hint h kind a) q).missed q.w.ctx (wCore q.wid) (q.uni64 a) .read
    (∀ tr, (s.issued (.hint h kind a) q).xlate q.w.ctx (wCore q.wid) (q.uni64 a) .read = .ok tr →
      Completes (.hint h kind a) s fun t => Wrote q (q.pc + 12) [] s t
        ∧ ∀ f, tget 0 t.phys.hot f = if f = tr.frame then (match kind with
            | .hot => if (tget 0 u.phys.hot f).toNat < s.promote.toNat then s.promote else tget 0 u.phys.hot f
            | .cold => 0)
          else tget 0 u.phys.hot f)
    ∧ ∀ c, (s.issued (.hint h kind a) q).xlate q.w.ctx (wCore q.wid) (q.uni64 a) .read = .error c →
      Completes (.hint h kind a) s fun t => Wrote q (q.pc + 12) [] s t ∧ t.phys.hot = u.phys.hot

/-- R87, R90 to R95, R206, R250, R337, R340: at its clock a partition puts at most two of its candidates at
issue, which share no resource, only one while a droop halves the issue, and at least one when it has a
candidate; splits whose next words are bound to trap come to issue besides, before the choices of their own
partition, and all stand behind what the clock has on the agenda (the order within a clock is an inference: logs
145, 146); a fill that is not corrupt brings the newest spilled entry back; a result whose latency has passed is
written with its flags, and its counters fall. -/
def Obligations.PartitionClock : Prop :=
  (∀ s core part,
    let u := s.startClock core part
    let cs := u.candidates core part
    Completes (.partitionIssueClock core part) s fun t => ∃ (l : List Cand) (ks : Tab Core),
      t = { u with cores := ks, agenda := u.agenda ++ u.trapping core part ++ l.map fun c => Task.issue c.wid c.split }
      ∧ l.length ≤ 2 ∧ (∀ c ∈ l, c ∈ cs) ∧ (cs ≠ [] → l ≠ []) ∧ ((u.cluster (cluOf core)).halving > 0 → l.length ≤ 1)
      ∧ l.Pairwise fun a b => (a.wid, a.split) ≠ (b.wid, b.split) ∧ ∀ r ∈ b.res, r ∉ a.res)
  ∧ (∀ s wid k w g, tfind s.waves wid = some w → s.gridOf w.team = some g → (w.split k).filling = true →
    (w.split k).notBefore ≤ s.clk (wCore wid) → w.spilled ≠ 0 →
    let at_ := fun n => entryOf (s.spRead 0 (wCore wid) (spillOff w g.score n) 32)
    entryCorrupt w (w.stack ++ (List.range (w.spilled - 1)).map fun n => (at_ n).1) (at_ (w.spilled - 1)) = false →
    Completes (.reconvergenceFill wid k) s fun t => SameMemory s t ∧ SameRegs s t ∧ OtherWaves wid s t
      ∧ ∃ v, tfind t.waves wid = some v ∧ v.stack = w.stack ++ [(at_ (w.spilled - 1)).1] ∧ v.spilled = w.spilled - 1
        ∧ v.split k = { w.split k with filling := false } ∧ ∀ j, j ≠ k → v.split j = w.split j)
  ∧ ∀ s wid w p, tfind s.waves wid = some w → (w.pend.find? fun x => x.id == p.id) = some p → p.due ≤ s.clk (wCore wid) →
    (∀ x ∈ w.pend, p.due ≤ x.due) → (p.writes.map (·.1)).Nodup → (∀ e ∈ p.writes, e.1.fits e.2) →
    Completes (.resultWriteback wid p.id) s fun t => SameMemory s t ∧ OtherWaves wid s t ∧ ∃ v, tfind t.waves wid = some v
      ∧ (∀ e ∈ p.writes, v.stored e.1 = e.2) ∧ (∀ x, x.there → (∀ e ∈ p.writes, e.1 ≠ x) → v.stored x = w.stored x)
      ∧ v.pend = w.pend.filter (fun x => x.id != p.id) ∧ CountersFall p.cnt w v ∧ v.splits = w.splits
      ∧ v.xreg 16 = w.xreg 16 ||| p.flags.setWidth 32 ∧ v.raisedAt = s.clk (wCore wid)

/-- R153, R270, R327, R328, R331: a command slot reads a sector for the request that is served, the wave's own
buffered bytes included, and its data move then or later; once they have moved, the sector's return writes the
registers of the lanes that it completes and ends a complete request; a miss of those that the core keeps
outstanding, once the entries that its walk reads can be served, places its page's pieces and leaves the page in
the core TLB. -/
def Obligations.LoadsReturn : Prop :=
  (∀ s g x w r d, s.idleSlot g = false → (s.group g).started = [] → s.servable g = [x] → x.kind = 0 →
    (x.sectors.mergeSort fun a b => decide (a.sector ≤ b.sector)).head? = some d →
    tfind s.waves x.a = some w → w.req x.b = some r →
    (∀ p ∈ r.pieces, ∀ pa key, p.st = .ready → s.touches p d.sector = true → p.loc = .mem pa key → s.stopAt (some (0, x.a, x.b)) w.ctx pa key false = none) →
    Completes (.commandSlot g) s fun t => SameMemory s t ∧ SameRegs s t ∧ OtherWaves x.a s t
      ∧ ∃ v done, s.t7 ≤ done ∧ tfind t.waves x.a = some v ∧ v.reqs = w.reqs.map fun y => if y.id = x.b then
          r.mapPieces (fun p => p.st == .ready && s.touches p d.sector) fun p => match p.loc with
            | .mem a _ => { p with st := .served, data := s.overlay x.a w r.seq a (s.physRead a p.len), due := done }
            | _ => p
        else y)
  ∧ (∀ s wid sector w r h width d a m, Standing s wid w r → r.instr = .ld h width (.v d) a m → r.pieces ≠ [] →
    (∀ p ∈ r.pieces, p.lane < 32 ∧ p.st = .served ∧ p.due ≤ s.t7 ∧ ∃ pa key, p.loc = .mem pa key ∧ pa / 32 = sector) →
    Completes (.memorySectorReturn wid r.id sector) s fun t => SameMemory s t ∧ OtherWaves wid s t ∧ ∃ v, tfind t.waves wid = some v
      ∧ v.req r.id = none ∧ CountersFall r.cnt w v
      ∧ ∀ p ∈ r.pieces, ∀ k, k < widthRegs width → v.lane (d.toNat + k) p.lane = ⟨false, (loadWords width (r.laneBytes p.lane)).getD k 0⟩)
  ∧ ∀ s wid page ec ek w r h width d a m p0 tr, Standing s wid w r → r.instr = .ld h width d a m →
    let core := wCore wid
    let va : DWord := BitVec.ofNat 64 (page * 65536)
    let mine := w.awaitsPage r.id page
    let r1 := r.mapPieces mine fun p => { p with loc := .mem (Tr.pa tr p.va) tr.key, st := .ready, t := s.t7 }
    (r.pieces.filter mine).head? = some p0 → s.waiters core w.ctx page = [(wid, r)] → s.registered core w.ctx page = true →
    s.xlate w.ctx core va .read = .ok tr → (s.tlbHit w.ctx core va = true ∨ s.walkServable w.ctx va = true ∧ s.walkTurn w.ctx va = true) →
    s.noPlane w.ctx (Tr.pa tr p0.va) = false → (∀ p ∈ r.pieces, p.failure = none) →
    Completes (.tlbMissServed wid r.id page ec ek) s fun t => SameMemory s t ∧ SameRegs s t ∧ OtherWaves wid s t
      ∧ (∃ v, tfind t.waves wid = some v ∧ v.reqs = w.reqs.map fun x => if x.id = r.id then r1 else x)
      ∧ (tlbFind (t.core core).tlb w.ctx p0.va).isSome = true

/-- R264, R265, R267, R273: once its data have moved, a controller accepts the covered bytes of a buffered
store, the newest for each byte, and an atomic that is next of its wave at its sector is performed at its
location and its lane takes the old value; a release completes when nothing before it is left, and not earlier. -/
def Obligations.StoresPerform : Prop :=
  (∀ s wid w e id, tfind s.waves wid = some w → (w.sb.find? fun x => x.id == id) = some e →
    let go := (s.coveredBytes wid w e).1
    let sec := s.place (e.sector * 32) / 32
    go ≠ [] → s.isPeer (e.sector * 32) = false → s.accessDone 2 wid id sec = true →
    s.storeStop (some (2, wid, id)) w.ctx e.sector e.key (lastBytes (SEntry.cells go)).length = none →
    Completes (.storeAccepted wid id) s fun t => SameRegs s t
      ∧ (∀ o, o < 32 → t.physByte (e.sector * 32 + o) = match (go.filter fun b => b.off == o).getLast? with
        | some b => b.val
        | none => s.physByte (e.sector * 32 + o))
      ∧ ∀ pa, pa / 32 ≠ s.spot (e.sector * 32) / 32 → t.phys.byte pa = s.phys.byte pa)
  ∧ (∀ s wid sector w r p pa key h op w64 d a m, Standing s wid w r → r.instr = .atom h op w64 (.v d) a m →
    let here := fun x : Piece => x.st == .ready && match x.loc with | .mem y _ => y / 32 == sector | _ => false
    let sec := s.place (sector * 32) / 32
    r.pieces.filter here = [p] → p.loc = .mem pa key → p.lane < 32 → p.len = (if w64 then 8 else 4) → pa % p.len = 0 →
    s.isPeer (sector * 32) = false → s.acqBlocked wid r.seq = false → s.relBlocked wid r.seq = false →
    s.nextThere wid (w.setReq (r.mapPieces here fun x => { x with st := .done })) (laneSeq r.seq p.lane) sec
      (bytesAt pa p.len) = true →
    s.bufferedBefore w (laneSeq r.seq p.lane) sec = false → s.accessDone 1 wid r.id sec = true →
    s.stopAt (some (0, wid, r.id)) w.ctx (sector * 32) key true = none →
    Completes (.atomicPerform wid r.id sector) s fun t =>
      t.physNat pa p.len = atomApply op w64 (s.physNat pa p.len) p.data % 2 ^ (8 * p.len)
      ∧ (∀ x, x / 32 ≠ s.spot (sector * 32) / 32 → t.phys.byte x = s.phys.byte x)
      ∧ (∀ x, x < pa ∨ pa + p.len ≤ x → x / 32 = sector → t.physByte x = s.physByte x)
      ∧ ∃ v, tfind t.waves wid = some v ∧ (memNr m = false → ∀ k, k < (if w64 then 2 else 1) →
        v.lane (d.toNat + k) p.lane = ⟨false, (oldWords w64 (s.physNat pa p.len)).getD k 0⟩))
  ∧ ∀ s wid w r, tfind s.waves wid = some w → (w.rels.find? fun x => x.id == r.id) = some r →
    (s.uncovered wid r.seq r.scope = true → exec (.releaseComplete wid r.id) s = .next s)
    ∧ (s.uncovered wid r.seq r.scope = false → r.cont = .nothing → r.drop = none → w.lost = none →
      Completes (.releaseComplete wid r.id) s fun t => SameMemory s t ∧ SameRegs s t ∧ OtherWaves wid s t
        ∧ ∃ v, tfind t.waves wid = some v ∧ v.rels = w.rels.filter (fun x => x.id != r.id) ∧ CountersFall r.cnt w v)

/-- R125 to R128, R136 to R138, R270 to R273: a scratchpad port performs a load or a store, which leaves the
device's own fields of a copy ring as they are; an arrival lowers ARRIVALS, and with both counts at zero an
unlinked core barrier goes to its next phase with ARRIVALS loaded again; a linked one's arrival is delivered
once to its root, and a root's broadcast gives a leaf that has sent the new phase and changes no other leaf. -/
def Obligations.PortsPerform : Prop :=
  (∀ s p rid idx w r x h width d a m, (s.portq.find? fun o => o.id == p.id) = some p → s.portReady p = true → p.what = .piece rid idx →
    tfind s.waves p.wid = some w → w.req rid = some r → r.pieces[idx]? = some x → p.lvl < 3 → p.off + x.data.length ≤ spCap p.lvl →
    (s.core p.unit).fwd = [] → r.instr = .sts h width d a m →
    Completes (.portAccess p.id) s fun t => SameRegs s t ∧ (∀ pa, t.phys.byte pa = s.phys.byte pa)
      ∧ (∀ k, k < x.data.length → let hw := if p.lvl = 0 then s.hwBits p.unit (p.off + k) else 0
        t.spByte p.lvl p.unit (p.off + k) = (s.spByte p.lvl p.unit (p.off + k) &&& hw) ||| (x.data.getD k 0 &&& ~~~hw))
      ∧ ∀ l u o, l < 3 → o < spCap l → (l, u) ≠ (p.lvl, p.unit) ∨ o < p.off ∨ p.off + x.data.length ≤ o →
        t.spByte l u o = s.spByte l u o)
  ∧ (∀ s p rid idx w r x h width d a m, (s.portq.find? fun o => o.id == p.id) = some p → s.portReady p = true →
    p.what = .piece rid idx → tfind s.waves p.wid = some w → w.req rid = some r → r.pieces = [x] → idx = 0 → x.lane < 32 →
    (s.core p.unit).fwd = [] → r.instr = .lds h width (.v d) a m →
    Completes (.portAccess p.id) s fun t => SameMemory s t ∧ OtherWaves p.wid s t ∧ ∃ v, tfind t.waves p.wid = some v ∧
      ∀ k, k < widthRegs width →
        v.lane (d.toNat + k) x.lane = ⟨false, (loadWords width (s.spRead p.lvl p.unit p.off x.len)).getD k 0⟩)
  ∧ (∀ s p c, (s.portq.find? fun o => o.id == p.id) = some p → s.portReady p = true → p.what = .tx (.arrive c) → p.lvl = 0 →
    p.off + 16 ≤ coreBytes → (∀ k, k < 16 → s.hwBits p.unit (p.off + k) = 0) →
    let x := s.txAt 0 p.unit p.off
    c ≤ txArr x → txLinked x = false →
    Completes (.portAccess p.id) s fun t => SameRegs s t ∧ (∀ pa, t.phys.byte pa = s.phys.byte pa)
      ∧ txLinked (t.txAt 0 p.unit p.off) = false ∧ txFault (t.txAt 0 p.unit p.off) = txFault x ∧ txExp (t.txAt 0 p.unit p.off) = txExp x
      ∧ (txArr x = c → txSec x = 0 → txPhase (t.txAt 0 p.unit p.off) = txPhase x + 1 ∧ txArr (t.txAt 0 p.unit p.off) = txExp x)
      ∧ (txArr x ≠ c ∨ txSec x ≠ 0 → txPhase (t.txAt 0 p.unit p.off) = txPhase x ∧ txArr (t.txAt 0 p.unit p.off) = txArr x - c
        ∧ txSec (t.txAt 0 p.unit p.off) = txSec x))
  ∧ (∀ s k l f rest, ((s.leaves k).find? fun x => x.id == l.id) = some l → l.mail = f :: rest → l.gone = none →
    let off := s.rootAt k l
    let x := s.txAt 1 k off
    s.rootBusy 1 k off = false → off + 16 ≤ cluBytes → 1 ≤ txArr x → (1 < txArr x ∨ txSec x ≠ 0) →
    Completes (.leafArrivalDelivery k l.id) s fun t => t.waves = s.waves ∧ (∀ pa, t.phys.byte pa = s.phys.byte pa)
      ∧ txArr (t.txAt 1 k off) = txArr x - 1 ∧ txFault (t.txAt 1 k off) = (txFault x || f) ∧ txPhase (t.txAt 1 k off) = txPhase x
      ∧ ∀ y ∈ t.leaves k, y.id = l.id → y.mail = rest)
  ∧ ∀ s k l ph f, ((s.leaves k).find? fun x => x.id == l.id) = some l → l.news = some (ph, f) → l.core < 192 →
    let off := s.leafOff l
    let x := s.txAt 0 l.core off
    (l.sent = true → off + 16 ≤ coreBytes → (∀ k, k < 16 → s.hwBits l.core (off + k) = 0) →
      Completes (.rootBroadcast k l.id) s fun t => t.waves = s.waves ∧ (∀ pa, t.phys.byte pa = s.phys.byte pa)
        ∧ txPhase (t.txAt 0 l.core off) = ph ∧ txFault (t.txAt 0 l.core off) = (txFault x || f)
        ∧ txArr (t.txAt 0 l.core off) = txExp x ∧ ∀ y ∈ t.leaves k, y.id = l.id → y.news = none ∧ y.sent = false)
    ∧ (l.sent = false → Completes (.rootBroadcast k l.id) s fun t => SameMemory s t ∧ t.waves = s.waves
        ∧ ∀ y ∈ t.leaves k, y.id = l.id → y.news = none ∧ y.sent = false)

/-- R99, R103 to R108, R112 to R115: what a home does with the messages of waves: a posted operation writes its
result into its slot, or poisons it with the record of a poisoned operand; a forward gives its value to the
message that waits for it; LDX's word comes from memory; a count change frees a slot whose count reaches 0 and
drops when it is stale; a copied-out value wakes its split; a queued store is performed at memory; a message
whose home has failed poisons its slot once RTIMEOUT has passed. -/
def Obligations.HomesAnswer : Prop :=
  (∀ s it i g, (s.homeq.find? fun h => h.id == it.id) = some it → s.itemReady it = true → it.op = none →
    (s.slot it.home i).current g = true → ∀ op a b c, it.kind = .alu op a b c (some (i, g)) →
    (∀ x y z, s.readyKind it = some (.alu op (.val x) (.val y) (.val z) (some (i, g))) →
      Completes (.postedOperationExecute it.id) s fun t => SameMemory s t ∧ SameRegs s t
        ∧ t.slot it.home i = { s.slot it.home i with val := (alu op x y z).1 } ∧ t.homeq = s.homeq.filter fun h => h.id != it.id)
    ∧ ∀ k r cause, s.readyKind it = some k → k.srcs.find? HSrc.isBad = some (.bad false (some r) cause) →
      Completes (.postedOperationExecute it.id) s fun t => SameMemory s t ∧ SameRegs s t
        ∧ (t.slot it.home i).st = .poisoned ∧ (t.slot it.home i).prec = r)
  ∧ (∀ s it m i g fwd, (s.homeq.find? fun h => h.id == it.id) = some it → s.itemReady it = true → it.kind = .forward i g fwd →
    (s.slot it.home i).current g = true → (s.slot it.home i).st = .live →
    (s.homeq.find? fun h => h.kind.srcs.contains (.fwd fwd)) = some m → m.id ≠ it.id →
    Completes (.proxyForward it.id) s fun t => SameMemory s t ∧ t.waves = s.waves ∧ t.homes = s.homes
      ∧ { m with kind := m.kind.mapSrc fun y => if y = .fwd fwd then .val (s.slot it.home i).val else y } ∈ t.homeq
      ∧ ∀ h ∈ t.homeq, h.id ≠ it.id)
  ∧ (∀ s it w pa key va i g, (s.homeq.find? fun h => h.id == it.id) = some it → s.itemReady it = true →
    it.kind = .fill [(4, pa, key)] va (some (i, g)) → it.op = none → tfind s.waves it.wid = some w →
    (s.slot it.home i).current g = true → it.got = [] → s.loadClear it pa = true → s.isPeer pa = false →
    s.accessDone 3 it.wid it.seq (s.place pa / 32) = true → s.stopAt (some (3, it.id, 0)) it.ctx pa key false = none →
    Completes (.ldxFill it.id) s fun t => SameMemory s t ∧ SameRegs s t
      ∧ t.slot it.home i = { s.slot it.home i with val := BitVec.ofNat 32 (leNat (s.overlay it.wid w it.seq pa (s.physRead pa 4))) })
  ∧ (∀ s it i g d, (s.homeq.find? fun h => h.id == it.id) = some it → s.itemReady it = true → it.kind = .count i g d → it.op = none →
    Completes (.referenceCountChange it.id) s fun t => SameMemory s t ∧ SameRegs s t
      ∧ ((s.slot it.home i).current g = false → t.slot it.home i = s.slot it.home i)
      ∧ ((s.slot it.home i).current g = true → ((s.slot it.home i).count : Int) + d ≤ 0 →
        (t.slot it.home i).st = .free ∧ (t.slot it.home i).gen = (s.slot it.home i).gen + 1)
      ∧ ((s.slot it.home i).current g = true → 0 < ((s.slot it.home i).count : Int) + d →
        ((t.slot it.home i).count : Int) = (s.slot it.home i).count + d ∧ (t.slot it.home i).st = (s.slot it.home i).st))
  ∧ (∀ s it o w h r a i g j, (s.homeq.find? fun h => h.id == it.id) = some it → s.itemReady it = true → it.kind = .read i g →
    it.op = some o.id → (s.homeops.find? fun x => x.id == o.id) = some o → it.lane < 32 → o.left = laneBit it.lane → o.bad = [] → o.got = [] →
    o.instr = .mat h (.v r) a → tfind s.waves o.wid = some w → (w.split j).waitOn = some o.id →
    (s.slot it.home i).current g = true → (s.slot it.home i).st = .live →
    Completes (.crossingResult it.id) s fun t => SameMemory s t ∧ t.newest o.wid (.v r.toNat it.lane) = (s.slot it.home i).val.toNat
      ∧ ∃ v, tfind t.waves o.wid = some v ∧ (v.split j).waitOn = none ∧ CountersFall o.cnt w v)
  ∧ (∀ s it op a b c i g, (s.homeq.find? fun h => h.id == it.id) = some it → it.kind = .alu op a b c (some (i, g)) → it.op = none →
    s.overdue it.t = true → s.homeSent it.id = false → (s.slot it.home i).current g = true → (s.home it.home).ptab.length < 4095 →
    Completes (.postedTimeout it.id) s fun t => SameMemory s t ∧ SameRegs s t ∧ (t.slot it.home i).st = .poisoned
      ∧ tfind (t.home it.home).ptab (t.slot it.home i).prec
        = some ⟨it.pc, if (s.home it.home).failed then 0x28 else 0x29, it.ctx⟩)
  ∧ (∀ s it w a width raw pa key, (s.homeq.find? fun h => h.id == it.id && h.home == it.home) = some it →
    it.kind = .store a width (.val 0) raw true pa key → it.op = none → tfind s.waves it.wid = some w → s.queuedClear it = true →
    s.accessDone 3 it.wid it.seq (s.place pa / 32) = true → s.isPeer pa = false → s.storeStop (some (3, it.id, 0)) it.ctx (pa / 32) key raw.length = none →
    pa % 32 + raw.length ≤ 32 →
    Completes (.homeStorePerform it.home it.id) s fun t => SameRegs s t
      ∧ (∀ k, k < raw.length → t.physByte (pa + k) = raw.getD k 0)
      ∧ (∀ x, x / 32 ≠ s.spot pa / 32 → t.phys.byte x = s.phys.byte x) ∧ ∀ h ∈ t.homeq, h.id ≠ it.id)
  ∧ (∀ s core home slots, ((s.core core).pool home).length < 32 → home < 10 → (s.cluster (cluOf core)).pwr = .on → slots.Nodup →
    slots.length = min (64 - ((s.core core).pool home).length) (s.freeSlots home) →
    (∀ i ∈ slots, i < homeSlots home ∧ (s.slot home i).st = .free) →
    Completes (.slotGrant core home slots) s fun t => SameMemory s t ∧ t.waves = s.waves
      ∧ (t.core core).pool home = (s.core core).pool home ++ slots ∧ tget false (t.core core).dry home = slots.isEmpty
      ∧ (∀ i ∈ slots, (t.slot home i).st = .granted ∧ (t.slot home i).core = core) ∧ ∀ i, i ∉ slots → t.slot home i = s.slot home i)
  ∧ ∀ s home, home < 10 →
    Completes (.homeUnitFailure home) s fun t => (t.home home).failed = true ∧ (t.home home).slots = (s.home home).slots
      ∧ (∀ it : HomeItem, it.home = home → t.itemReady it = false) ∧ ∀ h, h ≠ home → t.home h = s.home h

/-- R33, R289, R293, R297, R299, R336: steps of the matrix engine whose turn has come: one group of an element
of an MMA, whose A row has entered, adds its products to the accumulator; MZERO clears its rows; MREAD gives
each lane the element of its row and the column; a command that is done leaves the engine and its counters fall. -/
def Obligations.EngineExecutes : Prop :=
  (∀ s c h fmt slot sc d a b cell g, (s.mxq.find? fun x => x.id == c.id) = some c → s.before c = [] →
    c.instr = .mma h fmt slot sc d a b → cell ∈ c.cells → g < fmtGroups fmt → bitAt (tget 0 c.prog cell) g = false →
    let j := cell / 2048
    let row := cell / 64 % 32
    let col := cell % 64
    row < (s.injectRow c).rowsIn →
    let m := (s.core c.core).mx
    let k := wslot slot (c.banks.getD j 0)
    let ws := (tfind c.slots k).getD ⟨fmt, false⟩
    let key := accKey (opdIdx d + j) row col
    let prods := groupProds fmt ws.fmt (s.mxBytes c (128 * row + g * groupBytes fmt) (groupBytes fmt)).1
      (tbytes m.w (k * 8192 + 128 * col + g * groupBytes ws.fmt) (groupBytes ws.fmt))
      (if sc then some (tget 0 m.asc (c.part * 512 + 8 * row + g)).toNat else none)
      (if ws.scaled then some (tget 0 m.wsc (k * 1024 + 8 * col + g)).toNat else none)
      (tget 0 m.asc (c.part * 512 + 256 + 8 * row + g)).toNat (tget 0 m.wsc (k * 1024 + 512 + 8 * col + g)).toNat
    Completes (.matrixCommandExecute c.id ⟨[cell], [g]⟩) s fun t => SameMemory s t ∧ SameRegs s t
      ∧ tget 0 (t.core c.core).mx.acc key = mxStep (tget 0 m.acc key) prods
      ∧ ∀ x, x ≠ key → tget 0 (t.core c.core).mx.acc x = tget 0 m.acc x)
  ∧ (∀ s c w h d, (s.mxq.find? fun x => x.id == c.id) = some c → s.before c = [] → c.instr = .mzero h d → c.prog = [] →
    tfind s.waves c.wid = some w →
    Completes (.matrixCommandExecute c.id ⟨[], []⟩) s fun t => SameMemory s t ∧ SameRegs s t
      ∧ (∀ row col, row < 32 → col < 64 → tget 0 (t.core c.core).mx.acc (accKey (opdIdx d) row col)
        = if c.mask.getLsbD row then 0 else tget 0 (s.core c.core).mx.acc (accKey (opdIdx d) row col))
      ∧ (∀ x ∈ t.mxq, x.id ≠ c.id) ∧ ∃ v, tfind t.waves c.wid = some v ∧ CountersFall c.cnt w v)
  ∧ ∀ s c w h fmt f32 r a b, (s.mxq.find? fun x => x.id == c.id) = some c → s.before c = [] →
    c.instr = .mread h fmt f32 (.v r) a b → c.prog = [] → tfind s.waves c.wid = some w →
    Completes (.matrixCommandExecute c.id ⟨[], []⟩) s fun t => SameMemory s t ∧ OtherWaves c.wid s t
      ∧ (∀ x ∈ t.mxq, x.id ≠ c.id) ∧ ∃ v, tfind t.waves c.wid = some v ∧ CountersFall c.cnt w v
        ∧ ∀ l ∈ lanesOf c.mask, v.lane r.toNat l = ⟨false, tget 0 (s.core c.core).mx.acc (accKey (opdIdx a) l c.arg)⟩

/-- R167, R171, R173, R316: the home of a forest judges an instruction that stands first and whose release is
complete: a refusal is a precise trap with nothing performed, which stands due and is taken when the wave issues
again (an inference: log 149); FSTAT brings CLASSES and LARGEST; FIND of an element that is its own parent
brings the element; of these two the split goes on and the counters fall. -/
def Obligations.ForestJudges : Prop :=
  ∀ (s : State) (x : FOp) (w : Wave) (home : Nat) (d : FDesc) (g : Grid) (order : List Nat),
    (s.forestq.find? fun y => y.id == x.id) = some x → tfind s.waves x.wid = some w → s.gridOf w.team = some g → x.phase = 0 →
    x.puts = [] → s.forestReady x = true → x.desc.toNat % 128 = 0 → s.readDesc ⟨w.ctx, x.id⟩ x.desc = .ok (home, d) →
    (∀ c, s.refusal w.ctx g.eff.undolim x d = some c → w.stat = .ready → w.handler = none → w.heldTraps = [] →
      (w.split x.split).trapHeld = false → (w.split x.split).live = true → g.eff.traph ≠ 0 → badTraph g.eff.traph = false → w.region = none →
      Completes (.forestAccept x.id order) s fun t => SameMemory s t ∧ SameRegs s t ∧ OtherWaves x.wid s t
        ∧ (∀ y ∈ t.forestq, y.id ≠ x.id)
        ∧ (∃ v, tfind t.waves x.wid = some v ∧ CountersFall x.cnt w v
          ∧ v.trapDue = some ⟨c, 0, x.split, x.pc, 0, 0, x.mask, x.word, false⟩)
        ∧ ∃ v, tfind (t.takeHeld x.wid).waves x.wid = some v ∧ v.handler.isSome = true ∧ (v.split x.split).pc = g.eff.traph
          ∧ (v.split x.split).waitOn = none ∧ v.xreg 32 = c.setWidth 32 ∧ v.xreg 33 = x.pc.extractLsb' 0 32)
    ∧ (s.refusal w.ctx g.eff.undolim x d = none → ∀ h r a j, x.instr = .fstat h (.s r) a → (w.split j).waitOn = some x.id →
      Completes (.forestAccept x.id order) s fun t => SameMemory s t ∧ OtherWaves x.wid s t
        ∧ t.newest x.wid (.s r.toNat) = d.classes % 2 ^ 32 ∧ t.newest x.wid (.s (r.toNat + 1)) = d.largest % 2 ^ 32
        ∧ ∃ v, tfind t.waves x.wid = some v ∧ (v.split j).waitOn = none ∧ CountersFall x.cnt w v)
    ∧ (s.refusal w.ctx g.eff.undolim x d = none → ∀ h r a b j l e k tr, x.instr = .find h false (.v r) a b → x.args = [(l, e, 0)] →
      l < 32 → (w.split j).waitOn = some x.id → s.walk w.ctx (elemAt d.parent e) .read = .ok (k, tr) →
      let pa := tr.pa (elemAt d.parent e)
      s.isPeer pa = false → s.forestStop ⟨w.ctx, x.id⟩ pa tr.key false = none → s.physNat pa 4 % 2 ^ 31 = e →
      Completes (.forestAccept x.id order) s fun t => SameMemory s t ∧ OtherWaves x.wid s t
        ∧ ∃ v, tfind t.waves x.wid = some v ∧ v.lane r.toNat l = ⟨false, BitVec.ofNat 32 e⟩ ∧ (v.split j).waitOn = none
          ∧ CountersFall x.cnt w v)

/-- R83, R84, R128 to R131: the copy engine takes a command that stands first, which becomes ACTIVE in its ring
entry at the chunk that it has reached (that it is read again from ring memory, and its PROGRESS is the device's
own, is an inference: log 65); a sector lands whole; a fault ends its command and is logged with its team; each
step then ends every team that is over; an exited wave of which nothing is under way leaves its slot, and the
last of a team that is over ends the team. -/
def Obligations.CopiesAndTeamsEnd : Prop :=
  (∀ s team p t g n, tfind s.teams team = some t → s.gridOf team = some g →
    ((t.issued ++ t.tmq).find? fun x => x.id == p.id) = some p → t.mayTake p = true → s.copyBlocked team p.wid p.seq = false →
    p.ring = some n → p.move = none →
    let c := BitVec.ofNat 256 (s.spNat 0 t.core (t.entryOff n) 32)
    let k := cmdProgress p.cmd
    chunkSectors (cmdLen c) k ≠ [] → s.copyCheck g t c = none →
    Completes (.copyTake team p.id) s fun v => ∃ u : State, v = u.endOver ∧ SameRegs s u ∧ (∀ pa, u.phys.byte pa = s.phys.byte pa)
      ∧ u.spNat 0 t.core (t.entryOff n) 32 = (cmdSet c stActive k).toNat
      ∧ ∃ x a, tfind u.teams team = some x ∧ x.active = t.active ++ [a] ∧ a.id = p.id ∧ a.ring = some n ∧ a.chunk = k
        ∧ a.cmd = cmdSet c stActive k ∧ a.left = chunkSectors (cmdLen c) k ∧ ∀ y ∈ x.issued, y.id ≠ p.id)
  ∧ (∀ s team t g a sector pa key l v x, tfind s.teams team = some t → s.gridOf team = some g →
    (t.active.find? fun y => y.id == a.id) = some a → t.resident = true → sector ∈ a.left → tfind a.pre sector = none →
    s.copyPlace g t a.cmd a.move true (32 * sector) = .ok (.mem pa key) → s.copyPlace g t a.cmd a.move false (32 * sector) = .ok (.sp l v x) →
    s.canServe (s.place pa) = true → s.engineTurn g.ctx (s.groupOf (s.place pa)) = true → s.isPeer pa = false →
    s.stopAt none g.ctx pa key false = none →
    (∀ r ∈ s.link.remotes, ∀ y z k d, r.what ≠ .copy y z k d) → cmdBar a.cmd = none → s.copyBehind g t a (.ok (.sp l v x)) = false →
    s.overwritten g t a sector (.ok (.sp l v x)) = none → (∀ k, (s.core k).fwd = []) → l < 3 → x + 32 ≤ spCap l →
    (∃ k ∈ a.left, k ≠ sector) →
    Completes (.copySectorLand team a.id sector) s fun w => ∃ u : State, w = u.endOver ∧ SameRegs s u
      ∧ (∀ y, u.phys.byte y = s.phys.byte y)
      ∧ (∀ k, k < 32 → let hw := if l = 0 then s.hwBits v (x + k) else 0
        u.spByte l v (x + k) = (s.spByte l v (x + k) &&& hw) ||| (s.physByte (pa + k) &&& ~~~hw))
      ∧ (∀ l2 v2 o, l2 < 3 → o < spCap l2 → (l2, v2) ≠ (l, v) ∨ o < x ∨ x + 32 ≤ o → u.spByte l2 v2 o = s.spByte l2 v2 o)
      ∧ ∃ y, tfind u.teams team = some y ∧ ∀ b ∈ y.active, b.id = a.id → b.left = a.left.filter fun k => k != sector)
  ∧ (∀ s team t g a cause addr, tfind s.teams team = some t → s.gridOf team = some g →
    (t.active.find? fun y => y.id == a.id) = some a → t.log.length < 8 → cause ∈ copyCauses →
    Completes (.copyFault team a.id cause addr) s fun v => ∃ u : State, v = u.endOver ∧ SameRegs s u
      ∧ (∀ y, u.phys.byte y = s.phys.byte y)
      ∧ ∃ y r, tfind u.teams team = some y ∧ (∀ b ∈ y.active, b.id ≠ a.id) ∧ y.log = t.log ++ [r] ∧ r.cause = BitVec.ofNat 7 cause
        ∧ r.addr = BitVec.ofNat 64 addr ∧ r.bar = cmdBar a.cmd ∧ r.kind = 3 ∧ r.fdom = g.eff.fdom)
  ∧ ∀ s wid w t, tfind s.waves wid = some w → w.stat = .exited → s.waveQuiet wid = true → tfind s.teams w.team = some t →
    Completes (.waveSlotRelease wid) s fun u => tfind u.waves wid = none ∧ OtherWaves wid s u
      ∧ ((s.removeWave wid).teamOver w.team t = true → tfind u.teams w.team = none)
      ∧ ((∀ e ∈ s.teams, (s.removeWave wid).teamOver e.1 e.2 = false) → u.teams = s.teams ∧ SameMemory s u)

/-- R39, R40, R46, R68: the commands of VDCTL. In a state that does not accept it a command sets ERR to 1 and
does nothing else; CREATE clears the counters; KEYGEN draws a key; GRANT grants pages that read as zeros at
once, and 2 for pages that it may not grant; ADMIT makes the context RESIDENT and interrupts the host; SUSPEND
stops its waves, and completes when its teams have drained; RESET discards its waves; the drain clears every
granted page; RELEASE ungrants them, frees the graphs and zeroises the key; codes 8 to 15 set ERR to 3. -/
def Obligations.ContextCommands : Prop :=
  ∀ (s : State) (n : Nat),
    let c := s.ctx n
    let refused := fun (i : Instr) => exec i s = .next (s.modCtx n fun c => { c with err := 1 })
    let becomes := fun (i : Instr) (x : CtxSt) (P : State → Prop) =>
      Completes i s fun t => (t.ctx n).st = x ∧ (t.ctx n).err = 0 ∧ P t
    (c.st ≠ .free → refused (.create n))
    ∧ (c.st = .free → becomes (.create n) .created fun t => t.waves = s.waves ∧ SameMemory s t ∧ (t.ctx n).seqacc = 0
      ∧ (t.ctx n).seqemit = 0 ∧ (t.ctx n).fqhead = 0 ∧ (t.ctx n).fqtail = 0 ∧ (t.ctx n).fqdrop = 0 ∧ (t.ctx n).ilcount = 0
      ∧ (∀ k, tget 0 (t.ctx n).pmc k = 0) ∧ ∀ m, m ≠ n → t.ctx m = s.ctx m)
    ∧ (c.st ≠ .created → refused (.keygen n))
    ∧ (c.st = .created → becomes (.keygen n) .keyed fun t => t.waves = s.waves ∧ SameMemory s t ∧ (t.ctx n).keyvalid = true
      ∧ tget 0 t.phys.keys n = Config.randomKey s.fresh ∧ ∀ m, m ≠ n → t.ctx m = s.ctx m)
    ∧ (c.st ≠ .keyed → c.st ≠ .resident → c.st ≠ .suspended → refused (.grant n) ∧ refused (.reset n))
    ∧ (c.st = .keyed ∨ c.st = .resident ∨ c.st = .suspended →
      let first := (c.vdarg.extractLsb' 0 36).toNat
      let count := (c.vdarg.extractLsb' 40 24).toNat
      (s.grantable n first count = false → exec (.grant n) s = .next (s.modCtx n fun c => { c with err := 2 }))
      ∧ (s.grantable n first count = true → becomes (.grant n) c.st fun t => t.waves = s.waves
        ∧ (∀ pa, first ≤ pa / 65536 → pa / 65536 < first + count → t.grantOf (pa / 65536) = some n ∧ t.phys.byte (s.cell pa) = 0)
        ∧ ∀ x, (∀ pa, first ≤ pa / 65536 → pa / 65536 < first + count → s.cell pa ≠ x) → t.phys.byte x = s.phys.byte x))
    ∧ (c.st ≠ .keyed → c.st ≠ .suspended → refused (.admitCtx n))
    ∧ (c.st = .keyed ∨ c.st = .suspended → becomes (.admitCtx n) .resident fun t => t.waves = s.waves ∧ (t.ctx n).ilcount = 0
      ∧ t.outbox = s.outbox ++ [.msix (n + 1) 0])
    ∧ (c.st ≠ .resident → refused (.suspend n))
    ∧ (c.st = .resident → becomes (.suspend n) .resident fun t => (t.ctx n).draining = true ∧ ∀ wid w x,
      tfind s.waves wid = some w → tfind s.teams w.team = some x → x.resident = true → s.teamCtx w.team = n →
      ∃ v, tfind t.waves wid = some v ∧ v.stat ≠ .ready ∧ v.stat ≠ .parked)
    ∧ (c.st = .resident → c.draining = true → (∀ x ∈ s.ctxTeams n, x.2.resident = true →
        s.teamDrained x.1 x.2 = true ∧ s.teamEnds x.1 x.2 = false) →
      Completes (.suspendComplete n) s fun t => (t.ctx n).st = .suspended ∧ (t.ctx n).draining = false)
    ∧ (c.st = .keyed ∨ c.st = .resident ∨ c.st = .suspended → becomes (.reset n) .resetting fun t => (t.ctx n).armed = none
      ∧ ∀ wid w, tfind t.waves wid = some w → w.ctx ≠ n)
    ∧ (c.st = .resetting → s.ctxDrained n = true → Completes (.resetDrainComplete n) s fun t => (t.ctx n).st = .keyed
      ∧ t.phys.grants = s.phys.grants ∧ (∃ k, tget 0 t.phys.keys n = Config.randomKey k)
      ∧ ∀ pa, pa / 65536 ∈ s.grantedFrames n → t.phys.byte (s.cell pa) = 0)
    ∧ (c.st ≠ .keyed → refused (.release n))
    ∧ (c.st = .keyed → c.gcmd = none → becomes (.release n) .free fun t => (t.ctx n).keyvalid = false ∧ tget 0 t.phys.keys n = 0
      ∧ (∀ g ∈ t.phys.grants, g.2.2 ≠ n) ∧ ∀ g ∈ t.graphs, g.2.ctx ≠ n)
    ∧ ∀ code : BitVec 4, 8 ≤ code.toNat → exec (.vdctlUndefinedCommand n code) s = .next (s.modCtx n fun c => { c with err := 3 })

/-- R17, R61 to R65, R72, R76, R78: an accepted trigger starts one launch; its packets are copied and its ready
nodes become QUEUED grids; a grid that passes stage 5 is ADMITTED with the values of its region chain; a drained
grid without teams or children is COMPLETE. A GLOAD address arms a command, an id starts it, a bad write is code
7, and the command that ends installs or frees the id. -/
def Obligations.Launches : Prop :=
  (∀ s n x (v : BitVec 64),
    let g := (v.extractLsb' 52 12).toNat
    let seq := v.extractLsb' 24 28
    tfind s.graphs g = some x → x.ctx = n → (s.ctx n).st = .resident → seq = (s.ctx n).seqacc + 1 → s.inFlight n < 64 →
    Completes (.trigWrite n 64 v) s fun t => t.waves = s.waves ∧ SameMemory s t ∧ (t.ctx n).seqacc = seq ∧ t.grids = s.grids
      ∧ ∃ k l, tfind t.launches k = some l ∧ l.ctx = n ∧ l.graph = g ∧ l.seq = seq.toNat ∧ l.patch = (v.extractLsb' 0 24).toNat
        ∧ l.formed = false ∧ l.nodes = x.packets.map fun _ => .waiting)
  ∧ (∀ s k l g p, tfind s.launches k = some l → l.formed = false →
    (∀ e ∈ s.launches, e.2.ctx = l.ctx → e.2.formed = false → k ≤ e.1) → l.patch = 0xFFFFFF → tfind s.graphs l.graph = some g →
    g.packets = [p] → pkPreds p = [] → l.nodes = [.waiting] →
    Completes (.patchApply k) s fun t => t.waves = s.waves ∧ SameMemory s t ∧ (t.ctx l.ctx).lastGrid = nextGrid (s.ctx l.ctx).lastGrid
      ∧ ∃ l2 x, tfind t.launches k = some l2 ∧ l2.formed = true ∧ l2.packets = [p] ∧ l2.nodes = [.launched s.nextId]
        ∧ tfind t.grids s.nextId = some x ∧ x.ctx = l.ctx ∧ x.stat = .queued ∧ x.packet = nodePacket p 0 ∧ x.origin = .node k 0
        ∧ x.x5 = nextGrid (s.ctx l.ctx).lastGrid)
  ∧ (∀ s k g h es, s.stage5 = [.grid k] → tfind s.grids k = some g →
    State.judgeGrid { s with fresh := s.fresh + 1 } g = .ok (h, es, none) → s.readsServable g.ctx (s.packetReads g.ctx g.packet) = true →
    Completes .admission s fun t => t.waves = s.waves ∧ SameMemory s t
      ∧ tfind t.grids k = some { g with stat := .admitted, khead := some h, chain := es, order := s.nextId }
      ∧ ∀ j, j ≠ k → tfind t.grids j = tfind s.grids j)
  ∧ (∀ s k g p j, tfind s.grids k = some g → g.stat = .draining → s.gridTeams k = [] → s.hasChildren k g = false → g.origin = .qput p j →
    Completes (.gridComplete k) s fun t => t.waves = s.waves
      ∧ (t.ctx g.ctx).seqemit = (if pkRec g.packet then (s.ctx g.ctx).seqemit + 1 else (s.ctx g.ctx).seqemit)
      ∧ ∃ x, tfind t.grids k = some x ∧ x.stat = .complete ∧ x.fault = g.fault ∧ x.clu = [] ∧ x.die = [])
  ∧ ∀ (s : State) (n : Nat) (v : BitVec 64), (s.ctx n).gcmd = none →
    let changes := fun (i : Instr) (f : Ctx → Ctx) => exec i s = .next (s.modCtx n f)
    (v.getLsbD 63 = false → gloadReserved v = false → ∃ a : DWord, a.toNat = v.toNat / 64 * 64
      ∧ changes (.gloadAddressWrite n 64 v) fun c => { c with armed := some (v.getLsbD 4, a) })
    ∧ (∀ a, v.getLsbD 63 = true → gloadReserved v = false → (s.ctx n).armed = some (true, a) →
      changes (.gloadLoad n 64 v) fun c => { c with armed := none, gstat := 1, gcmd := some ⟨true, a, (v.extractLsb' 0 12).toNat⟩ })
    ∧ (∀ a, v.getLsbD 63 = true → gloadReserved v = false → (s.ctx n).armed = some (false, a) →
      changes (.gloadUnload n 64 v) fun c => { c with armed := none, gstat := 1, gcmd := some ⟨false, a, (v.extractLsb' 0 12).toNat⟩ })
    ∧ (gloadReserved v = true ∨ v.getLsbD 63 = true ∧ (s.ctx n).armed = none →
      changes (.gloadSequenceError n 64 v) fun c => { c with armed := none, gstat := 7 })
    ∧ ∀ (u : State) (q : GCmd) (fails : Bool), (u.ctx n).gcmd = some q →
      let ends := fun (code : Word) (P : State → Prop) => Completes (.gloadLoadComplete n fails) u fun t =>
        t.waves = u.waves ∧ SameMemory u t ∧ (t.ctx n).gcmd = none ∧ (t.ctx n).gstat = code ∧ P t
      (q.load = false → u.unloadCode n q.id = 0 → ends 0 fun t => tfind t.graphs q.id = none)
      ∧ (q.load = false → u.unloadCode n q.id ≠ 0 → ends (BitVec.ofNat 32 (u.unloadCode n q.id)) fun t => t.graphs = u.graphs)
      ∧ (q.load = true → u.readsServable n (u.imageReads n q.id q.addr) = false → exec (.gloadLoadComplete n fails) u = .next u)
      ∧ (u.readsServable n (u.imageReads n q.id q.addr) = true → (∀ e, q.load = true → u.readGraph n q.id q.addr = .error e → ends (BitVec.ofNat 32 e) fun t => t.graphs = u.graphs)
        ∧ (∀ ps, q.load = true → u.readGraph n q.id q.addr = .ok ps → fails = false →
          ends 0 fun t => tfind t.graphs q.id = some ⟨n, ps⟩)
        ∧ ∀ ps, q.load = true → u.readGraph n q.id q.addr = .ok ps → fails = true → ends 5 fun t => tfind t.graphs q.id = none)

/-- R56, R57, R72, R79, R98, R187: placement starts the team of a grid on the first core that fits, with its
waves' initial state; a SAVING block of a team is zeroed, is OWNED by the context that claimed it, or FREE when
none has, and is written to its place in the save area (its bytes also join the team's own image, from which the
model restores them: log 85, DESIGN CHOICE); a failed save loses the unit of its grid; a team that may migrate
is stopped, and once it has drained it stands on the new core while its old port forwards for it; a partition
entry that clashes with none is written. -/
def Obligations.TeamsArePlaced : Prop :=
  (∀ s k g p, s.teams = [] → s.grids = [(k, g)] → (∀ u ∈ s.lazies, u.st = .owned → s.handedWanted u = true) → g.stat = .admitted → g.lost = false → pkCoop g.packet = false → g.next = 0 → g.teams = 1 →
    (s.ctx g.ctx).present = true → s.heldTeam k none = false →
    (s.without (s.handed g.ctx)).findPlace g none = some p → s.isOn p.core = true →
    Completes .teamPlacement s fun t => (∀ pa, t.phys.byte pa = s.phys.byte pa)
      ∧ (∃ x, tfind t.grids k = some x ∧ x.stat = .running ∧ x.next = 1)
      ∧ (∃ x, tfind t.teams s.nextId = some x ∧ x.grid = k ∧ x.idx = 0 ∧ x.core = p.core ∧ x.base = p.base ∧ x.resident = true)
      ∧ ∀ i, i < g.waves → tfind t.waves (widOf p.core (p.slots.getD i 0)) = some (newWave g s.nextId 0 p.core p.base i p.pos))
  ∧ (∀ s (u : LazyUnit) tid x core off, (s.lazies.find? fun y => y.id == u.id) = some u → u.st = .saving → u.kind = .block 0 core off →
    u.team = some tid → tfind s.teams tid = some x →
    let area := s.carve u.ctx 65536
    let freed := fun (v : State) => v.waves = s.waves ∧ (∀ pa, v.phys.byte pa = s.phys.byte pa)
      ∧ (∃ y, tfind v.teams tid = some y ∧ y.area = x.area ++ area
        ∧ y.image = x.image ++ (s.spImage 0 core off 65536).map fun b => (off - x.base + b.1, b.2))
      ∧ (∀ o, o < 65536 → v.spByte 0 core (off + o) = 0) ∧ (∀ y ∈ v.lazies, y.id = u.id → u.claim = some y.ctx ∧ y = { u with team := none, ctx := y.ctx, st := .owned, claim := none })
      ∧ ∀ c, u.claim = some c → { u with team := none, ctx := c, st := .owned, claim := none } ∈ v.lazies
    let saved := fun (t : State) => ∃ v : State, t = v.saveUnits u.ctx u.grid area ∧ freed v
    Completes (.lazySaveComplete u.id) s saved ∧ Completes (.saveAreaRetry u.id true) s saved
      ∧ Completes (.saveAreaRetry u.id false) s fun t => ∃ v : State, t = v.loseUnit u.ctx u.grid ∧ freed v)
  ∧ (∀ s k x g, (s.lazies.find? fun y => y.id == k) = none → tfind s.teams k = some x → x.resident = false → tfind s.grids x.grid = some g →
    Completes (.saveAreaRetry k false) s fun t => t.waves = s.waves ∧ ∃ y, tfind t.grids x.grid = some y ∧ y.lost = true)
  ∧ (∀ s k x g c p, tfind s.teams k = some x → s.gridOf k = some g → s.migrationPlace k x g c = some p → x.resident = true →
    (x.stopped = false → (s.ctx g.ctx).present = true → g.stat = .running →
      Completes (.teamMigration k c) s fun t => (∃ y, tfind t.teams k = some y ∧ y.stopped = true ∧ y.goal = some c ∧ y.core = x.core)
        ∧ ∀ wid w, tfind s.waves wid = some w → w.team = k → ∃ v, tfind t.waves wid = some v ∧ v.stat ≠ .ready ∧ v.stat ≠ .parked)
    ∧ (x.stopped = true → x.goal = some c → s.teamDrained k x = true →
      Completes (.teamMigration k c) s fun t => (k, x.base) ∈ (t.core x.core).fwd
        ∧ ∃ y, tfind t.teams k = some y ∧ y.core = p.core ∧ y.base = p.base ∧ y.slots = p.slots ∧ y.resident = true ∧ y.stopped = false))
  ∧ ∀ s q (v : BitVec 128), q < 24 →
    let w : BitVec 128 := v &&& ~~~(7 : BitVec 128)
    (∀ j, j < 24 → j ≠ q → partCtxs (s.part j) &&& partCtxs w = 0 ∧ partClus (s.part j) &&& partClus w = 0
      ∧ partPorts (s.part j) &&& partPorts w = 0) → (partClus w).cpop.toNat ≤ partCeil w →
    Completes (.partWrite q v) s fun t => t.part q = w ∧ t.link.partstat = 0 ∧ ∀ j, j ≠ q → t.part j = s.part j

/-- R49, R149, R154, R316, R318, R319: a write of INVCNT takes the pages out of the TLBs of every core and
cluster and cuts the LIMIT of every frame register of the context at once, and completes when the accesses
translated before it are done; a window whose pages are re-keyed opens or closes, and the counters of those that
waited fall; REPLAY resumes a parked wave, traps it (the trap stands due and is taken when the wave issues
again: log 149) or ends it unrecovered, and an invalid action does nothing but say so; a held record is written
when there is room, and its wave learns it. -/
def Obligations.FaultsAndInvalidations : Prop :=
  (∀ s n (v : BitVec 32), v ≠ 0 → (∀ i ∈ s.invals, i.reg = true → i.ctx ≠ n) →
    let vpn := (s.ctx n).invaddr.toNat / 65536
    let inside := fun (va : DWord) => vpn ≤ va.toNat / 65536 ∧ va.toNat / 65536 < vpn + v.toNat
    let cut := fun (x y : Tab (BitVec 192)) => ∀ k, tget 0 y k = cutFrame vpn v.toNat (tget 0 x k)
    Completes (.invcntWrite n v) s fun t => SameMemory s t ∧ SameRegs s t
      ∧ (∀ c va, inside va → tlbFind (t.core c).tlb n va = none ∧ tlbFind (t.cluster c).tlb n va = none)
      ∧ (∀ wid w, tfind s.waves wid = some w → ∃ x, tfind t.waves wid = some x ∧ (w.ctx ≠ n → x = w)
        ∧ (w.ctx = n → cut w.f x.f ∧ ∀ r, w.region = some r → ∃ q, x.region = some q ∧ cut r.f q.f))
      ∧ (∀ tid a, tfind s.teams tid = some a → ∃ b, tfind t.teams tid = some b ∧ ∀ i w, tfind a.saved i = some w → w.ctx = n →
        ∃ x, tfind b.saved i = some x ∧ cut w.f x.f)
      ∧ ∃ i, t.invals = s.invals ++ [i] ∧ i.ctx = n ∧ i.vpn = vpn ∧ i.count = v.toNat ∧ i.reg = true ∧ i.waits = s.flying n vpn v.toNat)
  ∧ (∀ s i w wid, (s.invals.find? fun x => x.id == i.id) = some i → (∀ k ∈ i.waits, s.underWay i k = false) → i.wid = some wid →
    tfind s.waves wid = some w →
    Completes (.invalidationComplete i.id) s fun t => SameMemory s t ∧ SameRegs s t ∧ OtherWaves wid s t
      ∧ t.invals = s.invals.filter (fun x => x.id != i.id) ∧ ∃ v, tfind t.waves wid = some v ∧ CountersFall i.cnt w v)
  ∧ (∀ s k wid w cnt, (s.window k).pages ≤ (s.window k).done → tfind s.waves wid = some w →
    let x := s.window k
    (x.st = .opening → x.opener = some (wid, cnt) →
      (x.held = none → Completes (.windowOpened k) s fun t => SameMemory s t ∧ SameRegs s t
        ∧ t.window k = { x with st := .opened, opener := none, marked := [] } ∧ (∀ j, j ≠ k → t.window j = s.window j)
        ∧ ∃ v, tfind t.waves wid = some v ∧ CountersFall cnt w v)
      ∧ (x.held.isSome = true → Completes (.windowOpened k) s fun t => (t.window k).st = .closing ∧ (t.window k).closers = x.closers
        ∧ ∃ v, tfind t.waves wid = some v ∧ CountersFall cnt w v))
    ∧ (x.st = .closing → s.windowBusy k = false → x.closers = [(wid, cnt)] →
      Completes (.windowClosed k) s fun t => SameMemory s t ∧ SameRegs s t ∧ tget 0 t.phys.keys (63 + k) = 0
        ∧ (t.window k).st = .closed ∧ (t.window k).owner = x.owner ∧ (t.window k).importer = x.importer
        ∧ (∀ j, j ≠ k → t.window j = s.window j) ∧ ∃ v, tfind t.waves wid = some v ∧ CountersFall cnt w v))
  ∧ (∀ s n (v : BitVec 64) wid w p,
    (replayAction v = 3 → exec (.replayInvalidAction n v) s = .next (s.modCtx n fun c => { c with replaystat := 2 }))
    ∧ (s.replayTarget v = some (wid, w, p) → w.ctx = n → tfind s.waves wid = some w →
      (replayAction v = 0 → Completes (.replayWave n v) s fun t => SameMemory s t ∧ SameRegs s t ∧ (t.ctx n).replaystat = 0
        ∧ OtherWaves wid s t ∧ tfind t.waves wid = some { w with stat := .ready, park := none })
      ∧ (∀ g, replayAction v = 1 → s.gridOf w.team = some g → w.handler = none → w.heldTraps = [] → w.region = none → g.eff.traph ≠ 0 →
        badTraph g.eff.traph = false → (w.split p.split).trapHeld = false → (w.split p.split).live = true →
        Completes (.replayDeliverTrap n v) s fun t => SameMemory s t ∧ SameRegs s t ∧ (t.ctx n).replaystat = 0 ∧ OtherWaves wid s t
          ∧ (∃ u, tfind t.waves wid = some u ∧ u.stat = .ready ∧ u.park = none ∧ u.trapDue = some p.trap
            ∧ ∀ id r, p.req = some id → w.req id = some r → CountersFall r.cnt w u)
          ∧ ∃ u, tfind (t.takeHeld wid).waves wid = some u ∧ u.handler.isSome = true ∧ (u.split p.split).pc = g.eff.traph
            ∧ u.xreg 33 = p.pc.extractLsb' 0 32 ∧ u.xreg 38 = p.lanes)
      ∧ (∀ x g, replayAction v = 2 → tfind s.teams w.team = some x → tfind s.grids x.grid = some g → g.stat = .running →
        Completes (.replayUnrecovered n v) s fun t =>
          ∃ u y, tfind t.waves wid = some u ∧ u.stat = .exited ∧ tfind t.grids x.grid = some y ∧ y.stat = .draining ∧ y.fault = true)))
  ∧ ∀ s n r wid rest u, (s.ctx n).held = (r, wid) :: rest → (s.ctx n).fqFull = false →
    State.virtWrite (s.modCtx n fun c => { c with held := rest }) n
      ((s.ctx n).fqbase + BitVec.ofNat 64 (64 * ((s.ctx n).fqtail.toNat % 2 ^ (s.ctx n).fqsize.toNat)))
      (r.bytes (s.ctx n).fqtail.toNat) = .ok u →
    let written := fun (t : State) => (∀ pa, t.phys.byte pa = u.phys.byte pa) ∧ (t.ctx n).held = rest ∧ (t.ctx n).fqtail = (s.ctx n).fqtail + 1
      ∧ t.outbox = s.outbox ++ [.msix (n + 1) 1]
    (tfind s.waves wid = none → Completes (.heldFaultRecordWrite n) s fun t => t.waves = s.waves ∧ written t)
    ∧ ∀ w k, tfind s.waves wid = some w → w.park = some k → k.gen = r.gen → r.kind = 0 → selfDelivered k.cause = false →
      Completes (.heldFaultRecordWrite n) s fun t => OtherWaves wid s t ∧ written t
        ∧ tfind t.waves wid = some { w with park := some { k with told := true } }

/-- R156 to R161: a MOVEREQ that may start takes a frame, sets MOVING and reports 0; a sector is copied to D and
its bit set, one that cannot be read stands poisoned at D; with the last sector the entry, if it still stands as
CUTTING left it, names D and its tier with MOVING cleared, its page is invalidated, and D is granted; a late or
failing copy aborts, and so does one whose entry has changed; an aborting move copies a moved sector back, and
with none left MOVING is cleared in the entry (which the report of the abort may overwrite, where the fault
queue has room for it), its page is invalidated and D is cleared; once nothing carries S, S is cleared; the
policy, where it moves no page, halves every counter. HOTSEL takes its value. -/
def Obligations.PagesMove : Prop :=
  (∀ s (v : BitVec 64) c u, s.moveReq v = (c, u) →
    Completes (.movereq v) s fun t => t.waves = u.waves ∧ (∀ pa, t.phys.byte pa = u.phys.byte pa) ∧ t.pme.moves = u.pme.moves
      ∧ t.pme.movestat = BitVec.ofNat 32 c)
  ∧ (∀ s (v : BitVec 64) t d u,
    let n := (v.extractLsb' 58 6).toNat
    let tier := (v.extractLsb' 56 2).toNat
    let vpn := (v.extractLsb' 16 40).toNat
    tier ≠ 3 → (s.ctx n).st ≠ .free → (∃ pa, s.walk n (BitVec.ofNat 64 (vpn * 65536)) .read = .ok (pa, t)) →
    s.isPeer (t.frame * 65536) = false → s.atRest t = true → t.tier ≠ tier → s.pme.inMotion < s.pme.maxMoves →
    s.takeFrame tier (s.pme.size tier + 1) = (some d, u) →
    Completes (.movereq v) s fun x => x.pme.movestat = 0 ∧ ∃ k m, tfind x.pme.moves k = some m ∧ m.ctx = n ∧ m.vpn = vpn ∧ m.src = t.frame
      ∧ m.dst = d ∧ m.tier = tier ∧ m.rekey = none ∧ m.st = .cutting ∧ m.pte &&& pteMoving = pteMoving)
  ∧ (∀ s (v : BitVec 64), Completes (.hotsel v) s fun t => t = { s with pme := { s.pme with hotsel := v.extractLsb' 0 36 } })
  ∧ (∀ s, s.pme.policy.getLsbD 7 = true → s.pme.policy.extractLsb' 8 24 ≠ 0 → twf 0 s.phys.hot = true →
    (∀ e ∈ s.policyPages, (e.2.tier = 0 ∨ s.hotOf e.1.1 < s.promote.toNat) ∧ (2 ≤ e.2.tier ∨ s.demote.toNat < s.hotOf e.1.1)) →
    Completes .policyInterval s fun t => (∀ f, tget 0 t.phys.hot f = tget 0 s.phys.hot f >>> 1)
      ∧ t.waves = s.waves ∧ SameMemory s t ∧ t.pme = s.pme)
  ∧ (∀ s k m, tfind s.pme.moves k = some m →
    let at_ := fun (frame j : Nat) => (frame * 2048 + j) * 32
    (m.st = .cutting → s.invalDone m.inv = true →
      Completes (.moveCutComplete k) s fun t => t.waves = s.waves ∧ SameMemory s t
        ∧ tfind t.pme.moves k = some { m with st := .copying, pos := 0, t := s.t7 })
    ∧ (m.st = .copying → m.pos < 2048 → m.late s.t7 = true →
      Completes (.moveSectorCopy k false) s fun t => t.waves = s.waves ∧ SameMemory s t
        ∧ tfind t.pme.moves k = some { m with st := .aborting })
    ∧ (m.st = .copying → m.pos < 2047 → m.rekey = none → m.late s.t7 = false → s.frameDown m.dst = false →
      let src := at_ m.src m.pos
      let dst := at_ m.dst m.pos
      s.canServe src = true → s.canServe dst = true →
      s.engineTurn (s.ownerCtx src) (s.groupOf src) = true → s.engineTurn (s.ownerCtx src) (s.groupOf dst) = true →
      (s.frameDown m.src = false → s.phys.poison.contains (s.cell src / 32) = false →
        s.phys.zero (s.cell src / 32) = true ∨ s.sealAt src = m.keyS + sealPlace src →
        Completes (.moveSectorCopy k false) s fun t => t.waves = s.waves
          ∧ (∀ o, o < 32 → t.phys.byte (s.cell dst + o) = s.phys.byte (s.cell src + o))
          ∧ (∀ pa, pa / 32 ≠ s.cell dst / 32 → t.phys.byte pa = s.phys.byte pa)
          ∧ tfind t.pme.moves k = some { m with pos := m.pos + 1, moved := m.moved + 2 ^ m.pos, t := s.t7 })
      ∧ Completes (.moveSectorCopy k true) s fun t => t.waves = s.waves ∧ t.phys.poison.contains (s.cell dst / 32) = true
        ∧ (∀ pa, pa / 32 ≠ s.cell dst / 32 → t.phys.byte pa = s.phys.byte pa)
        ∧ ∃ q, tfind t.pme.moves k = some q ∧ q.st = .copying ∧ q.pos = m.pos + 1 ∧ q.moved = m.moved + 2 ^ m.pos
          ∧ (s.phys.poison.contains (s.cell src / 32) = false → q.poisoned.contains m.pos = true))
    ∧ (∀ pa e, m.st = .copying → m.pos = 2047 → m.rekey = none → m.late s.t7 = false → s.frameDown m.src = false → s.frameDown m.dst = false →
      let src := at_ m.src m.pos
      let dst := at_ m.dst m.pos
      s.canServe src = true → s.canServe dst = true →
      s.engineTurn (s.ownerCtx src) (s.groupOf src) = true → s.engineTurn (s.ownerCtx src) (s.groupOf dst) = true →
      (s.engineRead src m.keyS).1.isSome = true →
      let last : Move := { m with pos := 2048, moved := m.moved + 2 ^ 2047, t := s.t7 }
      let copied := ((s.engineRead src m.keyS).2.engineWrite dst m.keyD ((s.engineRead src m.keyS).1.getD []) false).setMove k last
      copied.pteAt m.ctx m.vpn = some (pa, e) →
      (e = m.pte → Completes (.moveSectorCopy k false) s fun t => SameRegs s t ∧ t.physNat pa 8 = (pteMove e m.dst m.tier).toNat
        ∧ t.grantOf m.dst = some ((s.grantOf m.src).getD m.ctx)
        ∧ ∃ i q, t.invals = s.invals ++ [i] ∧ i.ctx = m.ctx ∧ i.vpn = m.vpn ∧ i.count = 1 ∧ tfind t.pme.moves k = some q
          ∧ q = { last with st := .committing, inv := i.id })
      ∧ (e ≠ m.pte → Completes (.moveSectorCopy k false) s fun t => SameRegs s t ∧ t.invals = s.invals
        ∧ tfind t.pme.moves k = some { last with st := .aborting }))
    ∧ (∀ pa e ok, m.st = .aborting → lowestBit m.moved = none → m.rekey = none → m.poisoned = [] → m.dstBad = false →
      s.frameDown m.dst = false → s.pteAt m.ctx m.vpn = some (pa, e) → (e.extractLsb' 16 36).toNat = m.src → s.windows = [] →
      (∀ i, s.pme.size i = 0) →
      Completes (.moveCopyBack k ok) s fun t => SameRegs s t ∧ tfind t.pme.moves k = none
        ∧ (∃ i, t.invals = s.invals ++ [i] ∧ i.ctx = m.ctx ∧ i.vpn = m.vpn ∧ i.count = 1)
        ∧ (∀ x, x / 65536 = m.dst → t.phys.byte (s.cell x) = 0)
        ∧ ((s.ctx m.ctx).fqFull = true → s.pme.moves = [(k, m)] → s.cell pa / 65536 ≠ s.cell (m.dst * 65536) / 65536 →
          t.physNat pa 8 = (e &&& ~~~pteMoving).toNat))
    ∧ (m.st = .copying → m.rekey = none → m.t + 14000 < s.t7 → s.frameDown m.dst = false →
      Completes (.moveCopyTimeout k false) s fun t => t.waves = s.waves ∧ SameMemory s t
        ∧ tfind t.pme.moves k = some { m with st := .aborting, dstBad := false })
    ∧ (m.st = .copying ∨ m.st = .aborting → m.rekey = none →
      Completes (.moveCopyTimeout k true) s fun t => t.waves = s.waves ∧ SameMemory s t
        ∧ tfind t.pme.moves k = some { m with st := .aborting, dstBad := true })
    ∧ (∀ j, m.st = .aborting → lowestBit m.moved = some j → m.moved ≠ 2 ^ j → s.frameDown m.dst = false →
      let src := at_ m.src j
      let dst := at_ m.dst j
      s.phys.poison.contains (s.cell dst / 32) = false → s.phys.zero (s.cell dst / 32) = true ∨ s.sealAt dst = m.keyD + sealPlace dst →
      Completes (.moveCopyBack k true) s fun t => t.waves = s.waves
        ∧ (∀ o, o < 32 → t.phys.byte (s.cell src + o) = s.phys.byte (s.cell dst + o))
        ∧ tfind t.pme.moves k = some { m with moved := m.moved - 2 ^ j })
    ∧ (m.st = .committing → s.invalDone m.inv = true → m.rekey = none → s.holdsFrame m.src = false →
      (∀ i, s.pme.size i = 0) → s.windows = [] →
      Completes (.moveSourceRelease k) s fun t => t.waves = s.waves ∧ tfind t.pme.moves k = none ∧ t.grantOf m.src = none
        ∧ ∀ pa, pa / 65536 = m.src → t.phys.byte (s.cell pa) = 0))

/-- R43, R46, R47, R112, R148, R182, R321 to R323: the scrub of a granted sector that reads as zeros changes no byte;
a sector that fails its check is read once more and counted, and the row is tested; a load whose second read
fails parks its wave at the load with every unfinished lane, an LDX's fill poisons its slot with the cause, and
a store of part of a sector, buffered or of a home, is dropped with a report, which a full fault queue only
counts; the test of an error ends: a transient one is recorded, a lasting one takes a spare row, and with none
left the home, the core or the frame is retired. That the test of a storage error ends in the step that brings
the error is log 93. -/
def Obligations.StorageErrors : Prop :=
  (∀ s sector,
    let k := s.cell (sector * 32) / 32
    s.phys.zero k = true → (s.grantOf (sector / 2048)).isSome = true →
    Completes (.backgroundScrub sector) s fun t => t.waves = s.waves ∧ SameMemory s t ∧ t.phys.scrubbed.contains k = true)
  ∧ (∀ s target check pa, s.readSite target = some pa → s.canFail (s.place pa) check = true →
    Completes (.integrityReread target check false) s fun t => t.waves = s.waves ∧ SameMemory s t
      ∧ ((chanOf (s.place pa)).isSome = true → (t.testOf (.dram (s.place pa))).isSome = true)
      ∧ ∀ i, i < 8 → (t.ctx (s.readerOf target)).pmcsel = (s.ctx (s.readerOf target)).pmcsel
        ∧ tget 0 (t.ctx (s.readerOf target)).pmc i = tget 0 (s.ctx (s.readerOf target)).pmc i
          + if (tget (0 : Word) (s.ctx (s.readerOf target)).pmcsel i).toNat % 256 = 7 then 1 else 0)
  ∧ (∀ s wid w r sector check p0 pa, Standing s wid w r → w.stat = .ready → w.park = none → w.heldTraps = [] →
    performsAtOwner r.instr = false → s.readSite (.load wid r.id sector) = some pa → s.canFail (s.place pa) check = true →
    (r.pieces.filter fun p => w.awaits r.id p sector).head? = some p0 →
    Completes (.integrityReread (.load wid r.id sector) check true) s fun t => SameRegs s t ∧ OtherWaves wid s t
      ∧ ((chanOf (s.place pa)).isSome = true → (t.testOf (.dram (s.place pa))).isSome = true)
      ∧ ∃ v k, tfind t.waves wid = some v ∧ v.stat = .parked ∧ v.park = some k ∧ k.pc = r.pc ∧ k.addr = p0.va ∧ k.lanes = r.unfinished
        ∧ k.cause = match check with
          | .tag => if p0.st = .untranslated then 0x42 else 0x40
          | .node => 0x42
          | .expander => 0x77)
  ∧ (∀ s it w pa key va i g c, (s.homeq.find? fun h => h.id == it.id) = some it → s.itemReady it = true →
    it.kind = .fill [(4, pa, key)] va (some (i, g)) → it.op = none → tfind s.waves it.wid = some w →
    (s.slot it.home i).current g = true → it.got = [] → s.loadClear it pa = true → s.isPeer pa = false →
    s.accessDone 3 it.wid it.seq (s.place pa / 32) = true → (s.home it.home).ptab.length < 4095 →
    s.stopAt (some (3, it.id, 0)) it.ctx pa key false = some c →
    Completes (.ldxFill it.id) s fun t => SameMemory s t ∧ SameRegs s t ∧ (t.slot it.home i).st = .poisoned
      ∧ tfind (t.home it.home).ptab (t.slot it.home i).prec = some ⟨it.pc, c, it.ctx⟩
      ∧ (c = 0x40 → (chanOf (s.place pa)).isSome = true → (t.testOf (.dram (s.place pa))).isSome = true))
  ∧ (∀ s wid w e id c, tfind s.waves wid = some w → (w.sb.find? fun x => x.id == id) = some e → w.reqs = [] →
    let go := (s.coveredBytes wid w e).1
    go ≠ [] → s.isPeer (e.sector * 32) = false → s.accessDone 2 wid id (s.place (e.sector * 32) / 32) = true →
    s.storeStop (some (2, wid, id)) w.ctx e.sector e.key (lastBytes (SEntry.cells go)).length = some c → (s.ctx w.ctx).fqFull = true →
    Completes (.storeAccepted wid id) s fun t => SameMemory s t ∧ SameRegs s t ∧ (t.ctx w.ctx).fqdrop = satInc (s.ctx w.ctx).fqdrop
      ∧ (∃ v, tfind t.waves wid = some v ∧ v.sb = (w.keepBytes id (s.coveredBytes wid w e).2).sb)
      ∧ (c = 0x41 → (chanOf (s.place (e.sector * 32))).isSome = true → (t.testOf (.dram (s.place (e.sector * 32)))).isSome = true))
  ∧ (∀ s it w a width raw pa key c, (s.homeq.find? fun h => h.id == it.id && h.home == it.home) = some it →
    it.kind = .store a width (.val 0) raw true pa key → it.op = none → tfind s.waves it.wid = some w → s.queuedClear it = true →
    s.accessDone 3 it.wid it.seq (s.place pa / 32) = true → s.isPeer pa = false →
    s.storeStop (some (3, it.id, 0)) it.ctx (pa / 32) key raw.length = some c → (s.ctx it.ctx).fqFull = true →
    Completes (.homeStorePerform it.home it.id) s fun t => SameMemory s t ∧ SameRegs s t ∧ (∀ h ∈ t.homeq, h.id ≠ it.id)
      ∧ (t.ctx it.ctx).fqdrop = satInc (s.ctx it.ctx).fqdrop)
  ∧ ∀ s site,
    let recent := (tget [] s.tests.times (macroKey site)).filter fun t => decide (s.t7 < t + 7000000000)
    let used := tget 0 s.tests.spares (spareKey site)
    let spares := match site with | .dram _ => 8 | _ => 2
    (s.testOf site = none → ownSite site = true →
      (recent.length < 2 →
        Completes (.selfTestComplete site .corrected false) s fun t => t.waves = s.waves ∧ SameMemory s t ∧ t.amber.seq = s.amber.seq + 2
          ∧ t.tests.spares = s.tests.spares ∧ tget [] t.tests.times (macroKey site) = s.t7 :: recent)
      ∧ (∀ fails, fails = true ∨ 2 ≤ recent.length → used < spares →
        Completes (.selfTestComplete site .corrected fails) s fun t => t.waves = s.waves ∧ SameMemory s t
          ∧ t.amber.seq = s.amber.seq + 2 ∧ tget 0 t.tests.spares (spareKey site) = used + 1)
      ∧ ∀ c row, site = .core c row → 2 ≤ used →
        Completes (.selfTestComplete site .corrected true) s fun t => (t.core c).retired = true)
    ∧ ∀ err, s.testOf site = some (site, err) → (err = .home ∨ ∃ n, err = .integrity n) →
      (used < spares → Completes (.selfTestComplete site err true) s fun t => t.waves = s.waves ∧ SameMemory s t
        ∧ t.testOf site = none ∧ t.amber.seq = s.amber.seq + 1 ∧ tget 0 t.tests.spares (spareKey site) = used + 1)
      ∧ (∀ h row, site = .home h row → 2 ≤ used →
        Completes (.selfTestComplete site err true) s fun t => t.waves = s.waves ∧ SameMemory s t ∧ (t.home h).failed = true)
      ∧ ∀ addr, site = .dram addr → 8 ≤ used →
        Completes (.selfTestComplete site err true) s fun t => (addr / 65536) ∈ t.tests.retired

/-- R178 to R180, R183 to R185: how a port's registers follow its training, its flits and its software, when no
request is in flight on it (that port 36, whose register ignores writes, trains by the same step is an
inference: log 96); an accepted read of a peer or of the host is answered with its bytes and changes no memory,
a refused one with a failure; a reply brings a load its data, and one with an older generation tag is dropped; a
fault reply or a timeout marks the release that waits for the store. -/
def Obligations.LinkEvents : Prop :=
  (∀ (s : State) p,
    let q := s.port p
    let quiet := ∀ x ∈ s.link.remotes, x.port ≠ p
    let becomes := fun (i : Instr) (x : Port) (events : Nat) => Completes i s fun t => t.port p = x ∧ (∀ j, j ≠ p → t.port j = s.port j)
      ∧ t.waves = s.waves ∧ SameMemory s t ∧ t.amber.seq = s.amber.seq + BitVec.ofNat 32 events
    let again := { q with st := 1, fails := 0, badFlits := 0, retrains := if q.retrains = 255 then 255 else q.retrains + 1 }
    (p ≤ 36 → becomes (.portEnable p) (if q.st = 0 then { q with enable := true, st := 1, fails := 0 } else { q with enable := true }) 0)
    ∧ (p < 36 → q.st ≠ 0 → quiet →
      becomes (.portDisable p) { q with enable := false, st := 0, wasFailed := q.st == 3, fails := 0, badFlits := 0 } 0)
    ∧ (p < 36 → q.st = 0 → becomes (.portDisable p) { q with enable := false } 0)
    ∧ (∀ n, q.st = 1 → becomes (.portTrainingComplete p n)
      { q with st := 2, fails := 0, badFlits := 0, capacity := if 32 ≤ p ∧ p < 36 then n else q.capacity } (if q.wasFailed then 1 else 0))
    ∧ (q.st = 1 → q.fails < 15 → becomes (.portTrainingFail p) { q with fails := q.fails + 1 } 0)
    ∧ (q.st = 1 → q.fails = 15 → becomes (.portTrainingFail p) { q with fails := 16, st := 3 } 1)
    ∧ (q.st = 2 → quiet → becomes (.portLinkLost p) again 0 ∧ (7 ≤ q.badFlits → becomes (.flitReceive p false) again 0))
    ∧ (q.st = 2 → becomes (.flitReceive p true) { q with badFlits := 0 } 0)
    ∧ (q.st = 2 → q.badFlits < 7 → becomes (.flitReceive p false) { q with badFlits := q.badFlits + 1 } 0))
  ∧ (∀ s port (rq : InReq) n bs, port < 32 → (s.port port).st = 2 → rq.entry < 64 → rq.req = .read n →
    let e := s.inEntry rq.entry
    let va := BitVec.ofNat 64 (inVpn e * 65536 + rq.off)
    (s.inAccepted rq.entry (some rq.src) rq.off rq.req = true → s.inFault (inCtx e) va n .read = none → s.virtRead (inCtx e) va n = .ok bs →
      Completes (.inboundRequest port rq) s fun t =>
        t.outbox = s.outbox ++ [.reply port rq.src.toNat bs] ∧ SameMemory s t ∧ t.waves = s.waves)
    ∧ (inEnable e = false → Completes (.inboundRequest port rq) s fun t =>
      t.outbox = s.outbox ++ [.replyFault port rq.src.toNat] ∧ SameMemory s t ∧ t.waves = s.waves ∧ t.amber.seq = s.amber.seq + 1))
  ∧ (∀ s addr n bs, addr < 2 ^ 44 → (s.port 36).st = 2 →
    let e := s.inEntry (64 + addr / 2 ^ 38)
    let va := BitVec.ofNat 64 (inVpn e * 65536 + addr % 2 ^ 38)
    (s.inAccepted (64 + addr / 2 ^ 38) none (addr % 2 ^ 38) (.read n) = true → s.inFault (inCtx e) va n .read = none →
      s.virtRead (inCtx e) va n = .ok bs →
      Completes (.hostMemAccess addr (.read n)) s fun t => t.outbox = s.outbox ++ [.hostData bs] ∧ SameMemory s t ∧ t.waves = s.waves)
    ∧ (inEnable e = false → Completes (.hostMemAccess addr (.read n)) s fun t =>
      t.outbox = s.outbox ++ [.hostPoison] ∧ SameMemory s t ∧ t.waves = s.waves ∧ t.amber.seq = s.amber.seq + 1))
  ∧ (∀ s x wid w r p pa key h width d a m bs, (s.link.remotes.find? fun y => y.id == x.id) = some x → x.what = .piece wid r.id 0 →
    s.staleReply x = false → Standing s wid w r → r.instr = .ld h width (.v d) a m → r.pieces = [p] → p.lane < 32 → p.loc = .mem pa key →
    Completes (.remoteReply x.id (.data bs)) s fun t => SameMemory s t ∧ OtherWaves wid s t ∧ ∃ v, tfind t.waves wid = some v
      ∧ v.req r.id = none ∧ CountersFall r.cnt w v
      ∧ ∀ k, k < widthRegs width → v.lane (d.toNat + k) p.lane = ⟨false, (loadWords width
        (s.overlay wid w r.seq pa ((List.range p.len).map fun j => bs.getD j 0))).getD k 0⟩)
  ∧ (∀ s x rp, (s.link.remotes.find? fun y => y.id == x.id) = some x → s.staleReply x = true → exec (.remoteReply x.id rp) s = .next s)
  ∧ ∀ s x wid w e rel, (s.link.remotes.find? fun y => y.id == x.id) = some x → x.what = .store wid e rel →
    tfind s.waves wid = some w → (w.rels.any fun r => r.id == rel.id) = true →
    let marked := fun (c : BitVec 7) (t : State) => SameMemory s t ∧ OtherWaves wid s t ∧ (∀ y ∈ t.link.remotes, y.id ≠ x.id)
      ∧ tfind t.waves wid = some { w with rels := w.rels.map fun r => if r.id = rel.id ∧ r.drop.isNone then { r with drop := some c } else r }
    (s.staleReply x = false → Completes (.remoteReply x.id .fault) s (marked 0x70))
    ∧ (s.t7 < x.t + 7000 * s.link.rtimeout.toNat → exec (.remoteTimeout x.id) s = .next s)
    ∧ (x.t + 7000 * s.link.rtimeout.toNat ≤ s.t7 → Completes (.remoteTimeout x.id) s (marked 0x71))

/-- R328, R330 to R332: a bucket gains a context's tokens for each span of time and is full while no grid of it
runs; an idle row closes; a refresh that is due is issued, postponed up to eight times, or forces an all-bank
refresh; a refresh leaves no activation counted; a stack's temperature moves its threshold level, and 105 °C
shuts the module down. That a refresh which falls due in a bank that is being refreshed is owed, and that every
channel takes the refresh times of HBM4E, are inferences (log 101). -/
def Obligations.ControllerEvents : Prop :=
  (∀ (s : State) ctx group span,
    let gs := s.grids.filter fun g => g.2.ctx == ctx && g.2.stat != .complete
    Completes (.tokenBucketFill ctx group span) s fun t => t.waves = s.waves ∧ SameMemory s t
      ∧ (∀ k, k ≠ ctx * 72 + group → tget 0 t.mc.spent k = tget 0 s.mc.spent k)
      ∧ (gs = [] → tget 0 t.mc.spent (ctx * 72 + group) = 0)
      ∧ ∀ g, gs = [g] → tget 0 t.mc.spent (ctx * 72 + group) = max 0 (tget 0 s.mc.spent (ctx * 72 + group)
        - ((g.2.eff.btoken * s.t7 / 7000 - g.2.eff.btoken * (s.t7 - span) / 7000 : Nat) : Int)))
  ∧ (∀ (s : State) channel b, b < 16 →
    let k := bankKey channel b
    let x := s.bank k
    let becomes := fun (i : Instr) (y : Bank) => Completes i s fun t => t.bank k = y ∧ (∀ j, j ≠ k → t.bank j = s.bank j)
      ∧ t.waves = s.waves ∧ SameMemory s t
    let open_ := x.row.isSome = true ∨ s.t7 < x.lastUse
    let asked := s.accepted (groupOfChan channel) channel b
    let group := groupOfChan channel
    (x.row.isSome = true → x.lastUse + 700 ≤ s.t7 → asked = false → becomes (.rowIdleClose channel b)
      (if 0 < x.owes ∧ x.refreshing = none then { x with row := none, pre := s.t7, owes := x.owes - 1, refreshing := some s.t7 }
        else { x with row := none, pre := s.t7 }))
    ∧ (∀ at_, x.refreshing = some at_ → at_ + 840 ≤ s.t7 → becomes (.perBankRefreshComplete channel b)
      (if 0 < x.owes ∧ ¬ open_ ∧ asked = false then { x with acts := [], hot := [], owes := x.owes - 1, refreshing := some s.t7 }
        else { x with acts := [], hot := [], refreshing := none }))
    ∧ (tget 0 s.mc.nextRef channel = b → tget 0 s.mc.allRef channel = 0 →
      let next := fun (t : State) => tget 0 t.mc.nextRef channel = (b + 1) % 16
      (¬ open_ → asked = false → becomes (.refreshDue channel)
          (if x.refreshing.isSome then { x with owes := x.owes + 1 } else { x with refreshing := some s.t7 })
        ∧ Completes (.refreshDue channel) s fun t => next t ∧ (t.group group).refpost = (s.group group).refpost)
      ∧ (open_ ∨ asked = true → x.owes < 8 → becomes (.refreshDue channel) { x with owes := x.owes + 1 }
        ∧ Completes (.refreshDue channel) s fun t => next t ∧ (t.group group).refpost = inc32 (s.group group).refpost)
      ∧ (open_ ∨ asked = true → 8 ≤ x.owes → Completes (.refreshDue channel) s fun t => next t ∧ SameMemory s t
        ∧ (t.group group).refforce = inc32 (s.group group).refforce ∧ s.t7 < tget 0 t.mc.allRef channel
        ∧ tget 0 t.mc.allRef channel = s.forcedAt channel + 1 ∧ ∀ j, j < 16 → t.bank (bankKey channel j)
          = { s.bank (bankKey channel j) with row := none, owes := 0, refreshing := none }))
    ∧ (tget 0 s.mc.allRef channel ≠ 0 → tget 0 s.mc.allRef channel + 2449 ≤ s.t7 → Completes (.allBankRefreshEnd channel) s fun t =>
      t.waves = s.waves ∧ SameMemory s t ∧ tget 0 t.mc.allRef channel = 0 ∧ t.bank k = { x with acts := [], hot := [] }))
  ∧ ∀ s stack temp, stack < 8 →
    let before := (tget ((0, 0) : BitVec 8 × BitVec 2) s.mc.therm stack).2.toNat
    Completes (.thermalThresholdCrossing stack temp) s fun t => t.waves = s.waves ∧ SameMemory s t
      ∧ ((tget ((0, 0) : BitVec 8 × BitVec 2) t.mc.therm stack).1.toNat = min temp 255)
      ∧ (∀ i d, (i, d) ∈ [(0, 85), (1, 95), (2, 105)] → (i < (tget ((0, 0) : BitVec 8 × BitVec 2) t.mc.therm stack).2.toNat
        ↔ if i < before then d < temp + 3 else d ≤ temp))
      ∧ t.shutdown = (s.shutdown || (decide (before < 3) && decide (105 ≤ temp)))

/-- R132, R334 to R339: the sensors and controllers of a cluster: a droop stretches six clocks and halves 64; at
a window's end the islands change their mode by R and the cadences follow the limit; an island rises in 1,400
clocks; an idle cluster closes, and once nothing is under way its power goes; a held placement wakes it again; a
wake takes 14,000 clocks and leaves the scratchpads zero. That gating empties the TLBs and the engine is an
inference (log 102); the scratchpad bytes that it loses keep their values in the model until the wake zeroes
them, which is the model's choice: nothing can read them. -/
def Obligations.PowerEvents : Prop :=
  ∀ (s : State) c,
    let k := s.cluster c
    let becomes := fun (i : Instr) (x : Cluster) => Completes i s fun t => t.cluster c = x ∧ (∀ j, j ≠ c → t.cluster j = s.cluster j)
      ∧ t.waves = s.waves ∧ SameMemory s t ∧ t.cores = s.cores
    let count := if k.droopcnt = BitVec.allOnes 32 then k.droopcnt else k.droopcnt + 1
    (becomes (.droopDetect c) (if k.stretch = 0 then { k with droopcnt := count, stretch := 6, halving := 0, half := false }
      else { k with droopcnt := count }))
    ∧ (k.stretch = 1 → becomes (.droopStretchEnd c) { k with stretch := 0, halving := 64, half := false })
    ∧ (k.halving = 1 → becomes (.droopHalvingEnd c) { k with halving := 0 })
    ∧ (∀ watts, watts < 4096 →
      (k.pwr = .gated → becomes (.powerWindowEnd c watts) { k with pwrW := 0 })
      ∧ (k.pwr ≠ .gated → Completes (.powerWindowEnd c watts) s fun t => t.waves = s.waves ∧ SameMemory s t
        ∧ (t.cluster c).pwrW.toNat = watts ∧ (t.cluster c).ran = [] ∧ (∀ j, j ≠ c → t.cluster j = s.cluster j)
        ∧ (∀ i, i < 4 →
          let x := k.isl i
          let r := 256 * x.count * (if x.mode = 0 then 1 else 2) / 98304
          ((t.cluster c).isl i).count = 0
          ∧ ((t.cluster c).isl i).mode = (if x.mode = 0 ∧ x.nten = true ∧ r < x.ntlo.toNat then 1
            else if x.mode = 1 ∧ x.ntlo.toNat ≤ r ∧ x.nthi.toNat ≤ r then 2 else x.mode))
        ∧ ∀ p, p < 8 →
          let old := (tget (0 : BitVec 5) k.mxcad p).toNat
          (tget (0 : BitVec 5) (t.cluster c).mxcad p).toNat =
            if k.lim.toNat < watts then (if k.ran.contains (8 * c + p) then min 31 (max old 8 + 4) else old)
            else if 8 * watts < 7 * k.lim.toNat then (if old < 12 then 0 else old - 4) else old))
    ∧ (∀ i, (k.isl i).mode = 2 → (k.isl i).rose + 1400 ≤ k.clk → Completes (.islandVoltageStable c i) s fun t =>
      t.waves = s.waves ∧ SameMemory s t ∧ (t.cluster c).isl i = { k.isl i with mode := 0 } ∧ ∀ j, j ≠ i → (t.cluster c).isl j = k.isl j)
    ∧ (∀ i (v : BitVec 32), c < 24 → i < 4 → Completes (.islctlWrite c i v) s fun t => t.waves = s.waves ∧ SameMemory s t
      ∧ ((t.cluster c).isl i).ntlo = v.extractLsb' 24 8 ∧ ((t.cluster c).isl i).nthi = v.extractLsb' 16 8
      ∧ ((t.cluster c).isl i).nten = v.getLsbD 15
      ∧ ((t.cluster c).isl i).mode = (if v.getLsbD 15 = false ∧ (k.isl i).mode = 1 then 2 else (k.isl i).mode)
      ∧ ∀ j, j ≠ i → (t.cluster c).isl j = k.isl j)
    ∧ (k.pwr = .on → (s.clusterIdle c = true → becomes (.clusterGateRequest c) { k with pwr := .closing })
      ∧ (s.clusterIdle c = false → becomes (.clusterGateRequest c) { k with idleFrom := s.t7 })
      ∧ (k.auto = true → k.idleFrom + 7000000 ≤ s.t7 → s.clusterIdle c = true → becomes (.clusterAutoGate c) { k with pwr := .closing }))
    ∧ (k.auto = false → exec (.clusterAutoGate c) s = .next s)
    ∧ (k.pwr = .closing → s.portsBusy c = false → Completes (.clusterGated c) s fun t => t.waves = s.waves ∧ SameMemory s t
      ∧ (k.wanted = [] → (t.cluster c).pwr = .gated) ∧ (k.wanted ≠ [] → (t.cluster c).pwr = .waking ∧ (t.cluster c).wakeAt = k.clk + 14000)
      ∧ (t.cluster c).tlb = [] ∧ (t.cluster c).pwrW = 0 ∧ (∀ p, tget (0 : BitVec 5) (t.cluster c).mxcad p = 0)
      ∧ ∀ p, p < 8 → (t.core (8 * c + p)).pools = [] ∧ (t.core (8 * c + p)).tlb = []
        ∧ (t.core (8 * c + p)).mx = Mx.init)
    ∧ (k.pwr = .gated → becomes (.clusterWakeRequest c) { k with pwr := .waking, wakeAt := k.clk + 14000 })
    ∧ (k.pwr ≠ .gated → exec (.clusterWakeRequest c) s = .next s)
    ∧ (k.pwr = .waking → k.wakeAt ≤ k.clk → k.wanted = [] → Completes (.clusterWakeComplete c) s fun t => t.waves = s.waves
      ∧ (∀ pa, t.phys.byte pa = s.phys.byte pa) ∧ (t.cluster c).pwr = .on
      ∧ (∀ u off, off < coreBytes → t.spByte 0 u off = if u / 8 = c then 0 else s.spByte 0 u off)
      ∧ ∀ u off, off < cluBytes → t.spByte 1 u off = if u = c then 0 else s.spByte 1 u off)

/-- R4 to R6, R38, R39, R48, R56, R60, R68, R149, R154, R156, R177, R178, R180, R183, R317, R333, R334: a write
at a reserved offset, or of another width than the register's (the model's choice, log 60), changes nothing, and
a reserved offset reads 0; a virtual function maps its context's trigger page and nothing else; a command 0
leaves ERR (the model's choice, log 138); a register that software cannot write keeps its value; a command
register performs its command; any other holds what its field map keeps of the value. -/
def Obligations.RegisterWrites : Prop :=
  (∀ s fn off n v, (∀ r, fnReg fn off = some r → r.width ≠ n) → Completes (.registerWrite ⟨fn, off⟩ n v) s (· = s))
  ∧ (∀ s fn off r v, fnReg fn off = some r → Completes (.registerWrite ⟨fn, off⟩ r.width v) s (· = s.writeReg r v))
  ∧ (∀ s n off w v, n < 64 → off < 0x1000 → exec (.registerWrite ⟨n + 1, off⟩ w v) s = exec (.registerWrite ⟨0, 0x1000000 + 0x1000 * n + off⟩ w v) s
    ∧ s.readAt (n + 1) off = s.readAt 0 (0x1000000 + 0x1000 * n + off))
  ∧ (∀ s n off w v, 0x1000 ≤ off → exec (.registerWrite ⟨n + 1, off⟩ w v) s = .next s ∧ s.readAt (n + 1) off = 0)
  ∧ (∀ s fn off n v, off ∈ [0x48, 0xFF8] → fn ≠ 0 → exec (.registerWrite ⟨fn, off⟩ n v) s = .next s ∧ s.readAt fn off = 0)
  ∧ (∀ s off n v, off ∈ [0x0, 0x80000, 0x100028, 0x100240, 0x140000, 0x200010, 0x300018, 0x400098, 0x500008, 0x600024, 0x700008, 0x802004,
      0x900014, 0x901800, 0x1000040, 0x1040000] → exec (.registerWrite ⟨0, off⟩ n v) s = .next s ∧ s.readAt 0 off = 0)
  ∧ (∀ s off n v, off ∈ [0x80010, 0x700000, 0x700004, 0x720000, 0x400078, 0x400088, 0x400090, 0x501200, 0x802008, 0x900008, 0x900040,
      0x500190] → exec (.registerWrite ⟨0, off⟩ n v) s = .next s)
  ∧ (∀ s n (v : BitVec 128), n < 64 →
    let at_ := fun off size => Instr.registerWrite ⟨0, off + 0x1000 * n⟩ size v
    let at4 := fun off size => Instr.registerWrite ⟨0, off + 0x40 * n⟩ size v
    let d : BitVec 64 := v.setWidth 64
    let w : BitVec 32 := v.setWidth 32
    (v.toNat % 16 = 0 → exec (at_ 0x100000 32) s = .next s)
    ∧ (∀ (code : Nat) (i : Instr), (code, i) ∈ [(1, Instr.create n), (2, .keygen n), (3, .grant n), (4, .admitCtx n), (5, .suspend n), (6, .reset n),
      (7, .release n)] → v.toNat % 16 = code → exec (at_ 0x100000 32) s = exec i s)
    ∧ (8 ≤ v.toNat % 16 → exec (at_ 0x100000 32) s = exec (.vdctlUndefinedCommand n (v.extractLsb' 0 4)) s)
    ∧ exec (at_ 0x1000000 64) s = exec (.trigWrite n 64 d) s
    ∧ exec (at4 0x300010 32) s = exec (.invcntWrite n w) s
    ∧ exec (at_ 0x100008 64) s = .next (s.modCtx n fun c => { c with vdarg := d })
    ∧ exec (at_ 0x1000030 64) s = .next (s.modCtx n fun c => { c with cplbase := d &&& ~~~0xFFF })
    ∧ exec (at4 0x300000 64) s = .next (s.modCtx n fun c => { c with ptroot := d &&& 0xFFFFFFFFFE000 })
    ∧ exec (at4 0x300008 64) s = .next (s.modCtx n fun c => { c with invaddr := d &&& ~~~0xFFFF })
    ∧ exec (at4 0x600000 64) s = .next (s.modCtx n fun c => { c with fqbase := d &&& ~~~0xFFF })
    ∧ exec (at4 0x600010 32) s = .next (s.modCtx n fun c => { c with fqhead := w })
    ∧ ∃ t, exec (at4 0x600008 32) s = .next t
      ∧ t.ctx n = { s.ctx n with fqsize := if 6 ≤ v.toNat % 32 ∧ v.toNat % 32 ≤ 16 then v.extractLsb' 0 5 else 6 })
  ∧ (∀ s j (v : BitVec 128), j < 128 → ∃ t, exec (.registerWrite ⟨0, 0x500800 + 16 * j⟩ 128 v) s = .next t
    ∧ (∀ b, b < 128 → (t.inEntry j).getLsbD b = (v.getLsbD b && (b < 40 || 75 ≤ b))) ∧ ∀ i, i ≠ j → t.inEntry i = s.inEntry i)
  ∧ (∀ s (v : BitVec 128), exec (.registerWrite ⟨0, 0x400070⟩ 64 v) s = exec (.movereq (v.setWidth 64)) s
    ∧ exec (.registerWrite ⟨0, 0x500004⟩ 32 v) s
      = .next { s with link := { s.link with rtimeout := BitVec.ofNat 32 (max 10 (min 1000000 (v.toNat % 2 ^ 32))) } }
    ∧ exec (.registerWrite ⟨0, 0x802000⟩ 32 v) s = .next { s with mc := { s.mc with hammer := BitVec.ofNat 16 (max 512 (v.toNat % 65536)) } }
    ∧ ∀ p, p < 36 → exec (.registerWrite ⟨0, 0x500100 + 4 * p⟩ 32 v) s = exec (if v.getLsbD 31 then .portEnable p else .portDisable p) s)
  ∧ ∀ s c (v : BitVec 128), c < 24 → (∀ i, i < 4 → exec (.registerWrite ⟨0, 0x900020 + 0x100 * c + 4 * i⟩ 32 v) s = exec (.islctlWrite c i (v.setWidth 32)) s)
    ∧ exec (.registerWrite ⟨0, 0x900004 + 0x100 * c⟩ 32 v) s
      = .next (s.modCluster c fun k => { k with lim := BitVec.ofNat 12 (max 20 (min 400 (v.toNat % 4096))) })
    ∧ ∃ t, exec (.registerWrite ⟨0, 0x900000 + 0x100 * c⟩ 32 v) s = .next t ∧ (t.cluster c).auto = v.getLsbD 2
      ∧ (v.getLsbD 1 = true → (s.cluster c).pwr = .gated → (t.cluster c).pwr = .waking)
      ∧ (v.getLsbD 0 = true → (s.cluster c).pwr = .on → (t.cluster c).pwr = if s.clusterIdle c then .closing else .on)

/-- R5, R39, R48, R60, R68, R149, R156, R177, R178, R317, R321, R333, R334: after reset each register reads as
its table says; a cold reset gives every register that value; a warm reset gives it to every register but those
that keep counting or are kept: the Amber black box, the temperatures and RETRAINS. That a warm reset keeps more
than the black box is an inference (log 95). The values that the model chose (VDARG, VDSAVE: log 7) are in no
clause of their own. Reset memory stands in canonical form. -/
def Obligations.ResetValues : Prop :=
  (∀ n i j k, State.reset.readReg (.vdctl n) = 0 ∧ State.reset.readReg (.pmcsel n i) = 0 ∧ State.reset.readReg (.pmc n i) = 0
    ∧ State.reset.readReg (.window k) = 0 ∧ State.reset.readReg (.seqacc n) = 0 ∧ State.reset.readReg (.seqemit n) = 0
    ∧ State.reset.readReg (.gstat n) = 0 ∧ State.reset.readReg (.cplsize n) = 6 ∧ State.reset.readReg (.fqsize n) = 6
    ∧ State.reset.readReg (.fqtail n) = 0 ∧ State.reset.readReg (.ilcount n) = 0 ∧ State.reset.readReg (.ptroot n) = 0
    ∧ State.reset.readReg (.invstat n) = 0 ∧ State.reset.readReg .pmpolicy = 0 ∧ State.reset.readReg .devid = 0
    ∧ State.reset.readReg .rtimeout = 2000 ∧ State.reset.readReg (.portctl j) = (if j = 36 then 2 ^ 31 else 0)
    ∧ State.reset.readReg (.inmap j) = 0 ∧ State.reset.readReg .abseq = 0 ∧ State.reset.readReg .abcount = 0
    ∧ State.reset.readReg .hammerth = 4096 ∧ State.reset.readReg (.therm i) = 0 ∧ State.reset.readReg (.latcnt i) = 0
    ∧ State.reset.readReg (.cluctl i) = 4 ∧ State.reset.readReg (.clulim i) = 75 ∧ State.reset.readReg (.droopth i) = 40)
  ∧ State.reset.memWf = true ∧ State.reset.waves = []
  ∧ (∀ s, ∃ t, exec .coldReset s = .next t ∧ t.memWf = true ∧ t.waves = [] ∧ t.t7 = 0 ∧ ∀ r, t.readReg r = State.reset.readReg r)
  ∧ ∀ s, ∃ t, exec .warmReset s = .next t ∧ t.memWf = true ∧ t.waves = [] ∧ t.amber = s.amber ∧ t.t7 = s.t7 ∧ t.tests = s.tests
    ∧ (∀ p, p < 37 → t.port p = { State.reset.port p with retrains := (s.port p).retrains })
    ∧ (∀ i, t.readReg (.therm i) = s.readReg (.therm i))
    ∧ ∀ r, (match r with | .abseq | .abcount | .event _ | .portctl _ | .therm _ => False | _ => True) →
      t.readReg r = State.reset.readReg r

/-- R87, R190, R206, R338: the step of a split that stands at issue, READY, live, not held, with no trap due,
performs exactly the instruction that the twelve bytes at its program counter decode to, in the state where that
split is the one at issue and the fetch has filled its TLBs and counted its sectors, which changes no wave, no
team and no memory; an empty agenda makes the step a clock, and a step of the device at the head of the agenda
is performed by itself. That steps stand in an agenda is the model's choice (log 1); that the fetch fills the
TLBs and counts its sectors in its own step are inferences (logs 22, 69). -/
def Obligations.StepRunsDecoded : Prop :=
  (∀ (s : State) wid split rest w i (word : BitVec 96) (tr : Nat → Tr), s.agenda = .issue wid split :: rest → s.shutdown = false →
    tfind s.waves wid = some w → w.stat = .ready → w.trapDue = none →
    let s0 : State := { s with agenda := rest }
    let sp := w.split split
    let va := fun k => sp.pc + BitVec.ofNat 64 (4 * k)
    sp.live = true → sp.joinHeld = false → sp.trapHeld = false → sp.waitOn = none → sp.filling = false → sp.notBefore ≤ s.clk (wCore wid) →
    sp.pc.extractLsb' 0 2 = 0 →
    (∀ k, k < 3 → s0.xlate w.ctx (wCore wid) (va k) .fetch = .ok (tr k) ∧ s.isPeer ((tr k).pa (va k)) = false
      ∧ (s0.tlbHit w.ctx (wCore wid) (va k) = true ∨ s0.walkServable w.ctx (va k) = true) ∧ s.canServe (s.place ((tr k).pa (va k))) = true
      ∧ s.stopAt none w.ctx ((tr k).pa (va k)) (tr k).key false = none
      ∧ ∀ o, o < 4 → word.extractLsb' (8 * (4 * k + o)) 8 = s.physByte ((tr k).pa (va k) + o)) →
    decodeWord word = .ok i →
    let t := s0.fetching (wCore wid) w split
    step s = exec i { t with cur := (wid, split), iw := word }
      ∧ t.waves = s.waves ∧ t.teams = s.teams ∧ t.agenda = rest ∧ SameMemory s t)
  ∧ (∀ s i rest, s.agenda = .ev i :: rest → s.shutdown = false → step s = exec i { s with agenda := rest })
  ∧ (∀ s, s.agenda = [] → s.shutdown = false → step s = .next s.tick)
  ∧ ∀ s t rest, s.agenda = t :: rest → s.shutdown = true → t ≠ .ev .coldReset → step s = .next { s with agenda := rest }

/-- R190 to R194, R198, R200 to R202, R204: words written field by field in the order of R191 (WAIT, STALL,
SIGNAL, GNEG, GUARD, OPCODE, L, MOD, D, A, field B), one of each group of the opcode map, decode to the
instruction they stand for. -/
def Obligations.DecodeWords : Prop :=
  let h : Hints := ⟨0x801, 5, 15, true, 3⟩
  let hints : BitVec 24 := 0x801#12 ++ 5#4 ++ 15#4 ++ 1#1 ++ 3#3
  decodeWord (hints ++ 0x000#10 ++ 0#1 ++ 0b00000#5 ++ 0xF00#12 ++ 0xF00#12 ++ 0x00#8 ++ 0xF00#12 ++ 0xF00#12) = .ok (.nop h)
  ∧ decodeWord (hints ++ 0x001#10 ++ 1#1 ++ 0b00010#5 ++ 0xF00#12 ++ 0x203#12 ++ 0xFFFFFFFE#32) = .ok (.bra h true false (.p 3) 0xFFFFFFFE)
  ∧ decodeWord (hints ++ 0x040#10 ++ 0#1 ++ 0b00001#5 ++ 0x005#12 ++ 0x111#12 ++ 0x00#8 ++ 0xF00#12 ++ 0x0C8#12)
    = .ok (.iadd h .sat (.v 5) (.s 17) (.reg (.v 200)))
  ∧ decodeWord (hints ++ 0x056#10 ++ 0#1 ++ 0b01010#5 ++ 0x202#12 ++ 0x001#12 ++ 0x00#8 ++ 0xF00#12 ++ 0x102#12)
    = .ok (.isetp h .lt true (.p 2) (.v 1) (.reg (.s 2)))
  ∧ decodeWord (hints ++ 0x083#10 ++ 1#1 ++ 0b00011#5 ++ 0x001#12 ++ 0x002#12 ++ 0x40000000#32)
    = .ok (.ffma h .ru (.v 1) (.v 2) (.lit 0x40000000) (.v 1))
  ∧ decodeWord (hints ++ 0x0C0#10 ++ 1#1 ++ 0b00000#5 ++ 0x10A#12 ++ 0x10B#12 ++ 0xFFFFFFFF#32)
    = .ok (.sadd h (.s 10) (.s 11) (.lit 0xFFFFFFFF))
  ∧ decodeWord (hints ++ 0x101#10 ++ 0#1 ++ 0b00000#5 ++ 0x004#12 ++ 0x005#12 ++ 0x00#8 ++ 0xF00#12 ++ 0x703#12)
    = .ok (.perm h (.v 4) (.v 5) (.q 3))
  ∧ decodeWord (hints ++ 0x140#10 ++ 0#1 ++ 0b00101#5 ++ 0x006#12 ++ 0x302#12 ++ 3#2 ++ 1#2 ++ 3#3 ++ 0#1 ++ 0x009#12 ++ 0xFFC#12)
    = .ok (.ld h .w64 (.v 6) (.f 2) (.index 3 .acq .dev false (.v 9) 0xFFC))
  ∧ decodeWord (hints ++ 0x14B#10 ++ 0#1 ++ 0b00000#5 ++ 0x00C#12 ++ 0x00B#12 ++ 0x00#8 ++ 0xF00#12 ++ 0xF00#12)
    = .ok (.mat h (.v 12) (.v 11))
  ∧ decodeWord (hints ++ 0x180#10 ++ 0#1 ++ 0b00100#5 ++ 0x108#12 ++ 0x106#12 ++ 0x00#8 ++ 0x105#12 ++ 0x104#12)
    = .ok (.copy h .core .global (.s 8) (.s 6) (.s 4) (.s 5))
  ∧ decodeWord (hints ++ 0x188#10 ++ 1#1 ++ 0b00000#5 ++ 0xF00#12 ++ 0x107#12 ++ 0x00000001#32) = .ok (.txwait h (.s 7) (.lit 1))
  ∧ decodeWord (hints ++ 0x1C1#10 ++ 1#1 ++ 0b00111#5 ++ 0x504#12 ++ 0x609#12 ++ 0x0000000F#32)
    = .ok (.mma h .e4m3 true true (.a 4) (.t 9) (.lit 15))
  ∧ decodeWord (hints ++ 0x202#10 ++ 0#1 ++ 0b00001#5 ++ 0x014#12 ++ 0x108#12 ++ 0x00#8 ++ 0xF00#12 ++ 0x015#12)
    = .ok (.find h true (.v 20) (.s 8) (.v 21))
  ∧ decodeWord (hints ++ 0x240#10 ++ 0#1 ++ 0b00000#5 ++ 0x103#12 ++ 0x805#12 ++ 0x00#8 ++ 0xF00#12 ++ 0xF00#12)
    = .ok (.gets h (.s 3) (.x 5))
  ∧ decodeWord 0 = .error .operandClass

/-- R190 to R203, R206: encoding and decoding agree. Every well-formed instruction decodes from the word and
from the twelve bytes that the encoder writes for it, whatever follows them, with every hint, modifier and
operand as it was; and whatever decodes is well-formed. -/
def Obligations.DecodeEncode : Prop :=
  (∀ (i : Instr) (w : BitVec 96) (rest : List Byte), i.wf = true → encodeWord i = some w →
    decodeWord w = .ok i ∧ decode (leBytes 12 w.toNat ++ rest) = .ok (i, rest))
  ∧ ∀ (w : BitVec 96) (i : Instr), decodeWord w = .ok i → i.wf = true ∧ ∃ f, i.fields = some f

/-- R12, R15, R42 to R46: physical memory with its counters and the three scratchpads keep their canonical form
at every step, so that equal memories are equal data. -/
def Obligations.MemoryStaysCanonical : Prop :=
  ∀ s t : State, s.memWf = true → step s = .next t → t.memWf = true

end
end

