-- ==== Sys2Proof/Laws/Tab.lean ====
section
/-! SUPPORT. Laws of sparse tables: reading after writing, and that every table operation keeps the canonical form. -/

namespace Sys2Proof.Machine

/- One proof at a time: many at once cost a thread, and its stack, each. -/
set_option Elab.async false

variable {α : Type}

theorem tfind_tput (m : Tab α) (k : Nat) (v : α) (j : Nat) : tfind (tput m k v) j = if j = k then some v else tfind m j := by
  induction m with
  | nil => simp [tput, tfind, eq_comm]
  | cons e m ih =>
    obtain ⟨k', v'⟩ := e
    unfold tput
    split
    · simp only [tfind]; split <;> simp_all [eq_comm]
    · split
      · simp only [tfind]; subst_vars; split <;> simp_all [eq_comm]
      · simp only [tfind, ih]
        split
        · rw [if_neg (by omega)]
        · rfl

@[simp] theorem tfind_tput_self (m : Tab α) (k : Nat) (v : α) : tfind (tput m k v) k = some v := by simp [tfind_tput]

theorem tfind_tput_ne (m : Tab α) {k j : Nat} (v : α) (h : j ≠ k) : tfind (tput m k v) j = tfind m j := by simp [tfind_tput, h]

theorem tget_eq (d : α) (m : Tab α) (k : Nat) : tget d m k = (tfind m k).getD d := by
  induction m with
  | nil => rfl
  | cons e m ih =>
    obtain ⟨k', v'⟩ := e
    simp only [tget, tfind, ih]; split <;> simp

theorem tfind_terase (m : Tab α) (k j : Nat) : tfind (terase m k) j = if j = k then none else tfind m j := by
  induction m with
  | nil => simp [terase, tfind]
  | cons e m ih =>
    obtain ⟨k', v'⟩ := e
    simp only [terase, List.filter_cons, tfind] at *
    by_cases h : k' = k
    · subst h; simp only [bne_self_eq_false, Bool.false_eq_true, ↓reduceIte, ih]; split <;> simp_all [eq_comm]
    · simp only [bne_iff_ne, ne_eq, h, not_false_eq_true, ↓reduceIte, tfind, ih]
      by_cases hj : k' = j
      · subst hj; simp [h]
      · simp [hj]

theorem tget_tset [DecidableEq α] (d : α) (m : Tab α) (k : Nat) (v : α) (j : Nat) :
    tget d (tset d m k v) j = if j = k then v else tget d m j := by
  unfold tset
  split
  · simp only [tget_eq, tfind_terase]; split <;> simp_all
  · simp only [tget_eq, tfind_tput]; split <;> simp

@[simp] theorem tget_tset_self [DecidableEq α] (d : α) (m : Tab α) (k : Nat) (v : α) : tget d (tset d m k v) k = v := by
  simp [tget_tset]

theorem tget_tset_ne [DecidableEq α] (d : α) (m : Tab α) {k j : Nat} (v : α) (h : j ≠ k) :
    tget d (tset d m k v) j = tget d m j := by
  simp [tget_tset, h]

theorem tget_tput (d : α) (m : Tab α) (k : Nat) (v : α) (j : Nat) : tget d (tput m k v) j = if j = k then v else tget d m j := by
  simp only [tget_eq, tfind_tput]; split <;> simp

theorem tget_terase (d : α) (m : Tab α) (k j : Nat) : tget d (terase m k) j = if j = k then d else tget d m j := by
  simp only [tget_eq, tfind_terase]; split <;> simp

theorem tsorted_tail {e : Nat × α} {m : Tab α} (h : tsorted (e :: m) = true) : tsorted m = true := by
  cases m with
  | nil => rfl
  | cons b m => simp only [tsorted, Bool.and_eq_true] at h; exact h.2

theorem tsorted_cons {e : Nat × α} {m : Tab α} : tsorted (e :: m) = true ↔ (∀ x ∈ m, e.1 < x.1) ∧ tsorted m = true := by
  induction m generalizing e with
  | nil => simp [tsorted]
  | cons b m ih =>
    simp only [tsorted, Bool.and_eq_true, decide_eq_true_eq, List.mem_cons, forall_eq_or_imp]
    constructor
    · rintro ⟨h1, h2⟩
      exact ⟨⟨h1, fun x hx => lt_trans h1 ((ih.mp h2).1 x hx)⟩, h2⟩
    · rintro ⟨⟨h1, _⟩, h2⟩
      exact ⟨h1, h2⟩

theorem tsorted_filter {m : Tab α} (p : Nat × α → Bool) (h : tsorted m = true) : tsorted (m.filter p) = true := by
  induction m with
  | nil => rfl
  | cons e m ih =>
    rw [tsorted_cons] at h
    rw [List.filter_cons]
    split
    · exact tsorted_cons.mpr ⟨fun x hx => h.1 x (List.mem_of_mem_filter hx), ih h.2⟩
    · exact ih h.2

theorem mem_tput {m : Tab α} {k : Nat} {v : α} {x : Nat × α} (h : x ∈ tput m k v) : x = (k, v) ∨ x ∈ m := by
  induction m with
  | nil => simp_all [tput]
  | cons e m ih =>
    obtain ⟨k', v'⟩ := e
    unfold tput at h
    split at h
    · simpa using h
    · split at h
      · rcases List.mem_cons.mp h with h | h
        · exact .inl h
        · exact .inr (List.mem_cons_of_mem _ h)
      · rcases List.mem_cons.mp h with h | h
        · exact .inr (by simp [h])
        · exact (ih h).imp id (List.mem_cons_of_mem _)

theorem tsorted_tput {m : Tab α} (k : Nat) (v : α) (h : tsorted m = true) : tsorted (tput m k v) = true := by
  induction m with
  | nil => rfl
  | cons e m ih =>
    obtain ⟨k', v'⟩ := e
    have hs := tsorted_cons.mp h
    unfold tput
    split
    · rename_i hk
      exact tsorted_cons.mpr ⟨fun x hx => (List.mem_cons.mp hx).elim (fun e => e ▸ hk) fun hx => lt_trans hk (hs.1 x hx), h⟩
    · split
      · rename_i hk; subst hk; exact tsorted_cons.mpr hs
      · refine tsorted_cons.mpr ⟨fun x hx => ?_, ih hs.2⟩
        rcases mem_tput hx with rfl | hx
        · simp only; omega
        · exact hs.1 x hx

/-- Setting a key keeps the canonical form. -/
theorem twf_tset [DecidableEq α] {d : α} {m : Tab α} (k : Nat) (v : α) (h : twf d m = true) : twf d (tset d m k v) = true := by
  simp only [twf, Bool.and_eq_true, List.all_eq_true, decide_eq_true_eq] at *
  unfold tset
  split
  · exact ⟨tsorted_filter _ h.1, fun x hx => h.2 x (List.mem_of_mem_filter hx)⟩
  · rename_i hv
    refine ⟨tsorted_tput k v h.1, fun x hx => ?_⟩
    rcases mem_tput hx with rfl | hx
    · exact hv
    · exact h.2 x hx

/-- Removing entries keeps the canonical form. -/
theorem twf_filter [DecidableEq α] {d : α} {m : Tab α} (p : Nat × α → Bool) (h : twf d m = true) : twf d (m.filter p) = true := by
  simp only [twf, Bool.and_eq_true, List.all_eq_true, decide_eq_true_eq] at *
  exact ⟨tsorted_filter p h.1, fun x hx => h.2 x (List.mem_of_mem_filter hx)⟩

theorem tsorted_map {m : Tab α} (f : Nat → α → α) (h : tsorted m = true) : tsorted (m.map fun e => (e.1, f e.1 e.2)) = true := by
  induction m with
  | nil => rfl
  | cons e m ih =>
    obtain ⟨h1, h2⟩ := tsorted_cons.mp h
    refine tsorted_cons.mpr ⟨fun x hx => ?_, ih h2⟩
    obtain ⟨y, hy, rfl⟩ := List.mem_map.mp hx
    exact h1 y hy

/-- Changing the values to others than the default keeps the canonical form. -/
theorem twf_map [DecidableEq α] {d : α} {m : Tab α} (f : Nat → α → α) (hf : ∀ k v, v ≠ d → f k v ≠ d) (h : twf d m = true) :
    twf d (m.map fun e => (e.1, f e.1 e.2)) = true := by
  simp only [twf, Bool.and_eq_true, List.all_eq_true, decide_eq_true_eq] at *
  refine ⟨tsorted_map f h.1, fun x hx => ?_⟩
  obtain ⟨y, hy, rfl⟩ := List.mem_map.mp hx
  exact hf _ _ (h.2 y hy)

/-- Setting many keys keeps the canonical form. -/
theorem twf_foldl [DecidableEq α] {β : Type} {d : α} (l : List β) (f : Tab α → β → Tab α)
    (hf : ∀ m b, twf d m = true → twf d (f m b) = true) {m : Tab α} (h : twf d m = true) : twf d (l.foldl f m) = true := by
  induction l generalizing m with
  | nil => exact h
  | cons b l ih => exact ih (hf m b h)

end Sys2Proof.Machine
end

