-- ==== Sys2Proof/Laws/State.lean ====
section
/-! SUPPORT. What each update of the state leaves: one lemma per field per update. -/

namespace Sys2Proof.Machine

/- One proof at a time: many at once cost a thread, and its stack, each. -/
set_option Elab.async false

@[simp] theorem State.setWave_agenda (s : State) (k : Nat) (x : Wave) : (s.setWave k x).agenda = s.agenda := rfl
@[simp] theorem State.setWave_cur (s : State) (k : Nat) (x : Wave) : (s.setWave k x).cur = s.cur := rfl
@[simp] theorem State.setWave_iw (s : State) (k : Nat) (x : Wave) : (s.setWave k x).iw = s.iw := rfl
@[simp] theorem State.setWave_t7 (s : State) (k : Nat) (x : Wave) : (s.setWave k x).t7 = s.t7 := rfl
@[simp] theorem State.setWave_fresh (s : State) (k : Nat) (x : Wave) : (s.setWave k x).fresh = s.fresh := rfl
@[simp] theorem State.setWave_nextId (s : State) (k : Nat) (x : Wave) : (s.setWave k x).nextId = s.nextId := rfl
@[simp] theorem State.setWave_shutdown (s : State) (k : Nat) (x : Wave) : (s.setWave k x).shutdown = s.shutdown := rfl
@[simp] theorem State.setWave_outbox (s : State) (k : Nat) (x : Wave) : (s.setWave k x).outbox = s.outbox := rfl
@[simp] theorem State.setWave_phys (s : State) (k : Nat) (x : Wave) : (s.setWave k x).phys = s.phys := rfl
@[simp] theorem State.setWave_spCore (s : State) (k : Nat) (x : Wave) : (s.setWave k x).spCore = s.spCore := rfl
@[simp] theorem State.setWave_spClu (s : State) (k : Nat) (x : Wave) : (s.setWave k x).spClu = s.spClu := rfl
@[simp] theorem State.setWave_spDie (s : State) (k : Nat) (x : Wave) : (s.setWave k x).spDie = s.spDie := rfl
@[simp] theorem State.setWave_ctxs (s : State) (k : Nat) (x : Wave) : (s.setWave k x).ctxs = s.ctxs := rfl
@[simp] theorem State.setWave_windows (s : State) (k : Nat) (x : Wave) : (s.setWave k x).windows = s.windows := rfl
@[simp] theorem State.setWave_graphs (s : State) (k : Nat) (x : Wave) : (s.setWave k x).graphs = s.graphs := rfl
@[simp] theorem State.setWave_launches (s : State) (k : Nat) (x : Wave) : (s.setWave k x).launches = s.launches := rfl
@[simp] theorem State.setWave_grids (s : State) (k : Nat) (x : Wave) : (s.setWave k x).grids = s.grids := rfl
@[simp] theorem State.setWave_floors (s : State) (k : Nat) (x : Wave) : (s.setWave k x).floors = s.floors := rfl
@[simp] theorem State.setWave_teams (s : State) (k : Nat) (x : Wave) : (s.setWave k x).teams = s.teams := rfl
@[simp] theorem State.setWave_waves (s : State) (k : Nat) (x : Wave) : (s.setWave k x).waves = tput s.waves k x := rfl
@[simp] theorem State.setWave_cores (s : State) (k : Nat) (x : Wave) : (s.setWave k x).cores = s.cores := rfl
@[simp] theorem State.setWave_homes (s : State) (k : Nat) (x : Wave) : (s.setWave k x).homes = s.homes := rfl
@[simp] theorem State.setWave_clusters (s : State) (k : Nat) (x : Wave) : (s.setWave k x).clusters = s.clusters := rfl
@[simp] theorem State.setWave_portq (s : State) (k : Nat) (x : Wave) : (s.setWave k x).portq = s.portq := rfl
@[simp] theorem State.setWave_homeq (s : State) (k : Nat) (x : Wave) : (s.setWave k x).homeq = s.homeq := rfl
@[simp] theorem State.setWave_homeops (s : State) (k : Nat) (x : Wave) : (s.setWave k x).homeops = s.homeops := rfl
@[simp] theorem State.setWave_mxq (s : State) (k : Nat) (x : Wave) : (s.setWave k x).mxq = s.mxq := rfl
@[simp] theorem State.setWave_forestq (s : State) (k : Nat) (x : Wave) : (s.setWave k x).forestq = s.forestq := rfl
@[simp] theorem State.setWave_invals (s : State) (k : Nat) (x : Wave) : (s.setWave k x).invals = s.invals := rfl
@[simp] theorem State.setWave_lazies (s : State) (k : Nat) (x : Wave) : (s.setWave k x).lazies = s.lazies := rfl
@[simp] theorem State.setWave_pme (s : State) (k : Nat) (x : Wave) : (s.setWave k x).pme = s.pme := rfl
@[simp] theorem State.setWave_link (s : State) (k : Nat) (x : Wave) : (s.setWave k x).link = s.link := rfl
@[simp] theorem State.setWave_mc (s : State) (k : Nat) (x : Wave) : (s.setWave k x).mc = s.mc := rfl
@[simp] theorem State.setWave_amber (s : State) (k : Nat) (x : Wave) : (s.setWave k x).amber = s.amber := rfl
@[simp] theorem State.setWave_tests (s : State) (k : Nat) (x : Wave) : (s.setWave k x).tests = s.tests := rfl

@[simp] theorem State.setTeam_agenda (s : State) (k : Nat) (x : Team) : (s.setTeam k x).agenda = s.agenda := rfl
@[simp] theorem State.setTeam_cur (s : State) (k : Nat) (x : Team) : (s.setTeam k x).cur = s.cur := rfl
@[simp] theorem State.setTeam_iw (s : State) (k : Nat) (x : Team) : (s.setTeam k x).iw = s.iw := rfl
@[simp] theorem State.setTeam_t7 (s : State) (k : Nat) (x : Team) : (s.setTeam k x).t7 = s.t7 := rfl
@[simp] theorem State.setTeam_fresh (s : State) (k : Nat) (x : Team) : (s.setTeam k x).fresh = s.fresh := rfl
@[simp] theorem State.setTeam_nextId (s : State) (k : Nat) (x : Team) : (s.setTeam k x).nextId = s.nextId := rfl
@[simp] theorem State.setTeam_shutdown (s : State) (k : Nat) (x : Team) : (s.setTeam k x).shutdown = s.shutdown := rfl
@[simp] theorem State.setTeam_outbox (s : State) (k : Nat) (x : Team) : (s.setTeam k x).outbox = s.outbox := rfl
@[simp] theorem State.setTeam_phys (s : State) (k : Nat) (x : Team) : (s.setTeam k x).phys = s.phys := rfl
@[simp] theorem State.setTeam_spCore (s : State) (k : Nat) (x : Team) : (s.setTeam k x).spCore = s.spCore := rfl
@[simp] theorem State.setTeam_spClu (s : State) (k : Nat) (x : Team) : (s.setTeam k x).spClu = s.spClu := rfl
@[simp] theorem State.setTeam_spDie (s : State) (k : Nat) (x : Team) : (s.setTeam k x).spDie = s.spDie := rfl
@[simp] theorem State.setTeam_ctxs (s : State) (k : Nat) (x : Team) : (s.setTeam k x).ctxs = s.ctxs := rfl
@[simp] theorem State.setTeam_windows (s : State) (k : Nat) (x : Team) : (s.setTeam k x).windows = s.windows := rfl
@[simp] theorem State.setTeam_graphs (s : State) (k : Nat) (x : Team) : (s.setTeam k x).graphs = s.graphs := rfl
@[simp] theorem State.setTeam_launches (s : State) (k : Nat) (x : Team) : (s.setTeam k x).launches = s.launches := rfl
@[simp] theorem State.setTeam_grids (s : State) (k : Nat) (x : Team) : (s.setTeam k x).grids = s.grids := rfl
@[simp] theorem State.setTeam_floors (s : State) (k : Nat) (x : Team) : (s.setTeam k x).floors = s.floors := rfl
@[simp] theorem State.setTeam_teams (s : State) (k : Nat) (x : Team) : (s.setTeam k x).teams = tput s.teams k x := rfl
@[simp] theorem State.setTeam_waves (s : State) (k : Nat) (x : Team) : (s.setTeam k x).waves = s.waves := rfl
@[simp] theorem State.setTeam_cores (s : State) (k : Nat) (x : Team) : (s.setTeam k x).cores = s.cores := rfl
@[simp] theorem State.setTeam_homes (s : State) (k : Nat) (x : Team) : (s.setTeam k x).homes = s.homes := rfl
@[simp] theorem State.setTeam_clusters (s : State) (k : Nat) (x : Team) : (s.setTeam k x).clusters = s.clusters := rfl
@[simp] theorem State.setTeam_portq (s : State) (k : Nat) (x : Team) : (s.setTeam k x).portq = s.portq := rfl
@[simp] theorem State.setTeam_homeq (s : State) (k : Nat) (x : Team) : (s.setTeam k x).homeq = s.homeq := rfl
@[simp] theorem State.setTeam_homeops (s : State) (k : Nat) (x : Team) : (s.setTeam k x).homeops = s.homeops := rfl
@[simp] theorem State.setTeam_mxq (s : State) (k : Nat) (x : Team) : (s.setTeam k x).mxq = s.mxq := rfl
@[simp] theorem State.setTeam_forestq (s : State) (k : Nat) (x : Team) : (s.setTeam k x).forestq = s.forestq := rfl
@[simp] theorem State.setTeam_invals (s : State) (k : Nat) (x : Team) : (s.setTeam k x).invals = s.invals := rfl
@[simp] theorem State.setTeam_lazies (s : State) (k : Nat) (x : Team) : (s.setTeam k x).lazies = s.lazies := rfl
@[simp] theorem State.setTeam_pme (s : State) (k : Nat) (x : Team) : (s.setTeam k x).pme = s.pme := rfl
@[simp] theorem State.setTeam_link (s : State) (k : Nat) (x : Team) : (s.setTeam k x).link = s.link := rfl
@[simp] theorem State.setTeam_mc (s : State) (k : Nat) (x : Team) : (s.setTeam k x).mc = s.mc := rfl
@[simp] theorem State.setTeam_amber (s : State) (k : Nat) (x : Team) : (s.setTeam k x).amber = s.amber := rfl
@[simp] theorem State.setTeam_tests (s : State) (k : Nat) (x : Team) : (s.setTeam k x).tests = s.tests := rfl

@[simp] theorem State.setGrid_agenda (s : State) (k : Nat) (x : Grid) : (s.setGrid k x).agenda = s.agenda := rfl
@[simp] theorem State.setGrid_cur (s : State) (k : Nat) (x : Grid) : (s.setGrid k x).cur = s.cur := rfl
@[simp] theorem State.setGrid_iw (s : State) (k : Nat) (x : Grid) : (s.setGrid k x).iw = s.iw := rfl
@[simp] theorem State.setGrid_t7 (s : State) (k : Nat) (x : Grid) : (s.setGrid k x).t7 = s.t7 := rfl
@[simp] theorem State.setGrid_fresh (s : State) (k : Nat) (x : Grid) : (s.setGrid k x).fresh = s.fresh := rfl
@[simp] theorem State.setGrid_nextId (s : State) (k : Nat) (x : Grid) : (s.setGrid k x).nextId = s.nextId := rfl
@[simp] theorem State.setGrid_shutdown (s : State) (k : Nat) (x : Grid) : (s.setGrid k x).shutdown = s.shutdown := rfl
@[simp] theorem State.setGrid_outbox (s : State) (k : Nat) (x : Grid) : (s.setGrid k x).outbox = s.outbox := rfl
@[simp] theorem State.setGrid_phys (s : State) (k : Nat) (x : Grid) : (s.setGrid k x).phys = s.phys := rfl
@[simp] theorem State.setGrid_spCore (s : State) (k : Nat) (x : Grid) : (s.setGrid k x).spCore = s.spCore := rfl
@[simp] theorem State.setGrid_spClu (s : State) (k : Nat) (x : Grid) : (s.setGrid k x).spClu = s.spClu := rfl
@[simp] theorem State.setGrid_spDie (s : State) (k : Nat) (x : Grid) : (s.setGrid k x).spDie = s.spDie := rfl
@[simp] theorem State.setGrid_ctxs (s : State) (k : Nat) (x : Grid) : (s.setGrid k x).ctxs = s.ctxs := rfl
@[simp] theorem State.setGrid_windows (s : State) (k : Nat) (x : Grid) : (s.setGrid k x).windows = s.windows := rfl
@[simp] theorem State.setGrid_graphs (s : State) (k : Nat) (x : Grid) : (s.setGrid k x).graphs = s.graphs := rfl
@[simp] theorem State.setGrid_launches (s : State) (k : Nat) (x : Grid) : (s.setGrid k x).launches = s.launches := rfl
@[simp] theorem State.setGrid_grids (s : State) (k : Nat) (x : Grid) : (s.setGrid k x).grids = tput s.grids k x := rfl
@[simp] theorem State.setGrid_floors (s : State) (k : Nat) (x : Grid) : (s.setGrid k x).floors = s.floors := rfl
@[simp] theorem State.setGrid_teams (s : State) (k : Nat) (x : Grid) : (s.setGrid k x).teams = s.teams := rfl
@[simp] theorem State.setGrid_waves (s : State) (k : Nat) (x : Grid) : (s.setGrid k x).waves = s.waves := rfl
@[simp] theorem State.setGrid_cores (s : State) (k : Nat) (x : Grid) : (s.setGrid k x).cores = s.cores := rfl
@[simp] theorem State.setGrid_homes (s : State) (k : Nat) (x : Grid) : (s.setGrid k x).homes = s.homes := rfl
@[simp] theorem State.setGrid_clusters (s : State) (k : Nat) (x : Grid) : (s.setGrid k x).clusters = s.clusters := rfl
@[simp] theorem State.setGrid_portq (s : State) (k : Nat) (x : Grid) : (s.setGrid k x).portq = s.portq := rfl
@[simp] theorem State.setGrid_homeq (s : State) (k : Nat) (x : Grid) : (s.setGrid k x).homeq = s.homeq := rfl
@[simp] theorem State.setGrid_homeops (s : State) (k : Nat) (x : Grid) : (s.setGrid k x).homeops = s.homeops := rfl
@[simp] theorem State.setGrid_mxq (s : State) (k : Nat) (x : Grid) : (s.setGrid k x).mxq = s.mxq := rfl
@[simp] theorem State.setGrid_forestq (s : State) (k : Nat) (x : Grid) : (s.setGrid k x).forestq = s.forestq := rfl
@[simp] theorem State.setGrid_invals (s : State) (k : Nat) (x : Grid) : (s.setGrid k x).invals = s.invals := rfl
@[simp] theorem State.setGrid_lazies (s : State) (k : Nat) (x : Grid) : (s.setGrid k x).lazies = s.lazies := rfl
@[simp] theorem State.setGrid_pme (s : State) (k : Nat) (x : Grid) : (s.setGrid k x).pme = s.pme := rfl
@[simp] theorem State.setGrid_link (s : State) (k : Nat) (x : Grid) : (s.setGrid k x).link = s.link := rfl
@[simp] theorem State.setGrid_mc (s : State) (k : Nat) (x : Grid) : (s.setGrid k x).mc = s.mc := rfl
@[simp] theorem State.setGrid_amber (s : State) (k : Nat) (x : Grid) : (s.setGrid k x).amber = s.amber := rfl
@[simp] theorem State.setGrid_tests (s : State) (k : Nat) (x : Grid) : (s.setGrid k x).tests = s.tests := rfl

@[simp] theorem State.setCore_agenda (s : State) (k : Nat) (x : Core) : (s.setCore k x).agenda = s.agenda := rfl
@[simp] theorem State.setCore_cur (s : State) (k : Nat) (x : Core) : (s.setCore k x).cur = s.cur := rfl
@[simp] theorem State.setCore_iw (s : State) (k : Nat) (x : Core) : (s.setCore k x).iw = s.iw := rfl
@[simp] theorem State.setCore_t7 (s : State) (k : Nat) (x : Core) : (s.setCore k x).t7 = s.t7 := rfl
@[simp] theorem State.setCore_fresh (s : State) (k : Nat) (x : Core) : (s.setCore k x).fresh = s.fresh := rfl
@[simp] theorem State.setCore_nextId (s : State) (k : Nat) (x : Core) : (s.setCore k x).nextId = s.nextId := rfl
@[simp] theorem State.setCore_shutdown (s : State) (k : Nat) (x : Core) : (s.setCore k x).shutdown = s.shutdown := rfl
@[simp] theorem State.setCore_outbox (s : State) (k : Nat) (x : Core) : (s.setCore k x).outbox = s.outbox := rfl
@[simp] theorem State.setCore_phys (s : State) (k : Nat) (x : Core) : (s.setCore k x).phys = s.phys := rfl
@[simp] theorem State.setCore_spCore (s : State) (k : Nat) (x : Core) : (s.setCore k x).spCore = s.spCore := rfl
@[simp] theorem State.setCore_spClu (s : State) (k : Nat) (x : Core) : (s.setCore k x).spClu = s.spClu := rfl
@[simp] theorem State.setCore_spDie (s : State) (k : Nat) (x : Core) : (s.setCore k x).spDie = s.spDie := rfl
@[simp] theorem State.setCore_ctxs (s : State) (k : Nat) (x : Core) : (s.setCore k x).ctxs = s.ctxs := rfl
@[simp] theorem State.setCore_windows (s : State) (k : Nat) (x : Core) : (s.setCore k x).windows = s.windows := rfl
@[simp] theorem State.setCore_graphs (s : State) (k : Nat) (x : Core) : (s.setCore k x).graphs = s.graphs := rfl
@[simp] theorem State.setCore_launches (s : State) (k : Nat) (x : Core) : (s.setCore k x).launches = s.launches := rfl
@[simp] theorem State.setCore_grids (s : State) (k : Nat) (x : Core) : (s.setCore k x).grids = s.grids := rfl
@[simp] theorem State.setCore_floors (s : State) (k : Nat) (x : Core) : (s.setCore k x).floors = s.floors := rfl
@[simp] theorem State.setCore_teams (s : State) (k : Nat) (x : Core) : (s.setCore k x).teams = s.teams := rfl
@[simp] theorem State.setCore_waves (s : State) (k : Nat) (x : Core) : (s.setCore k x).waves = s.waves := rfl
@[simp] theorem State.setCore_cores (s : State) (k : Nat) (x : Core) : (s.setCore k x).cores = tset Core.init s.cores k x := rfl
@[simp] theorem State.setCore_homes (s : State) (k : Nat) (x : Core) : (s.setCore k x).homes = s.homes := rfl
@[simp] theorem State.setCore_clusters (s : State) (k : Nat) (x : Core) : (s.setCore k x).clusters = s.clusters := rfl
@[simp] theorem State.setCore_portq (s : State) (k : Nat) (x : Core) : (s.setCore k x).portq = s.portq := rfl
@[simp] theorem State.setCore_homeq (s : State) (k : Nat) (x : Core) : (s.setCore k x).homeq = s.homeq := rfl
@[simp] theorem State.setCore_homeops (s : State) (k : Nat) (x : Core) : (s.setCore k x).homeops = s.homeops := rfl
@[simp] theorem State.setCore_mxq (s : State) (k : Nat) (x : Core) : (s.setCore k x).mxq = s.mxq := rfl
@[simp] theorem State.setCore_forestq (s : State) (k : Nat) (x : Core) : (s.setCore k x).forestq = s.forestq := rfl
@[simp] theorem State.setCore_invals (s : State) (k : Nat) (x : Core) : (s.setCore k x).invals = s.invals := rfl
@[simp] theorem State.setCore_lazies (s : State) (k : Nat) (x : Core) : (s.setCore k x).lazies = s.lazies := rfl
@[simp] theorem State.setCore_pme (s : State) (k : Nat) (x : Core) : (s.setCore k x).pme = s.pme := rfl
@[simp] theorem State.setCore_link (s : State) (k : Nat) (x : Core) : (s.setCore k x).link = s.link := rfl
@[simp] theorem State.setCore_mc (s : State) (k : Nat) (x : Core) : (s.setCore k x).mc = s.mc := rfl
@[simp] theorem State.setCore_amber (s : State) (k : Nat) (x : Core) : (s.setCore k x).amber = s.amber := rfl
@[simp] theorem State.setCore_tests (s : State) (k : Nat) (x : Core) : (s.setCore k x).tests = s.tests := rfl

@[simp] theorem State.setCluster_agenda (s : State) (k : Nat) (x : Cluster) : (s.setCluster k x).agenda = s.agenda := rfl
@[simp] theorem State.setCluster_cur (s : State) (k : Nat) (x : Cluster) : (s.setCluster k x).cur = s.cur := rfl
@[simp] theorem State.setCluster_iw (s : State) (k : Nat) (x : Cluster) : (s.setCluster k x).iw = s.iw := rfl
@[simp] theorem State.setCluster_t7 (s : State) (k : Nat) (x : Cluster) : (s.setCluster k x).t7 = s.t7 := rfl
@[simp] theorem State.setCluster_fresh (s : State) (k : Nat) (x : Cluster) : (s.setCluster k x).fresh = s.fresh := rfl
@[simp] theorem State.setCluster_nextId (s : State) (k : Nat) (x : Cluster) : (s.setCluster k x).nextId = s.nextId := rfl
@[simp] theorem State.setCluster_shutdown (s : State) (k : Nat) (x : Cluster) : (s.setCluster k x).shutdown = s.shutdown := rfl
@[simp] theorem State.setCluster_outbox (s : State) (k : Nat) (x : Cluster) : (s.setCluster k x).outbox = s.outbox := rfl
@[simp] theorem State.setCluster_phys (s : State) (k : Nat) (x : Cluster) : (s.setCluster k x).phys = s.phys := rfl
@[simp] theorem State.setCluster_spCore (s : State) (k : Nat) (x : Cluster) : (s.setCluster k x).spCore = s.spCore := rfl
@[simp] theorem State.setCluster_spClu (s : State) (k : Nat) (x : Cluster) : (s.setCluster k x).spClu = s.spClu := rfl
@[simp] theorem State.setCluster_spDie (s : State) (k : Nat) (x : Cluster) : (s.setCluster k x).spDie = s.spDie := rfl
@[simp] theorem State.setCluster_ctxs (s : State) (k : Nat) (x : Cluster) : (s.setCluster k x).ctxs = s.ctxs := rfl
@[simp] theorem State.setCluster_windows (s : State) (k : Nat) (x : Cluster) : (s.setCluster k x).windows = s.windows := rfl
@[simp] theorem State.setCluster_graphs (s : State) (k : Nat) (x : Cluster) : (s.setCluster k x).graphs = s.graphs := rfl
@[simp] theorem State.setCluster_launches (s : State) (k : Nat) (x : Cluster) : (s.setCluster k x).launches = s.launches := rfl
@[simp] theorem State.setCluster_grids (s : State) (k : Nat) (x : Cluster) : (s.setCluster k x).grids = s.grids := rfl
@[simp] theorem State.setCluster_floors (s : State) (k : Nat) (x : Cluster) : (s.setCluster k x).floors = s.floors := rfl
@[simp] theorem State.setCluster_teams (s : State) (k : Nat) (x : Cluster) : (s.setCluster k x).teams = s.teams := rfl
@[simp] theorem State.setCluster_waves (s : State) (k : Nat) (x : Cluster) : (s.setCluster k x).waves = s.waves := rfl
@[simp] theorem State.setCluster_cores (s : State) (k : Nat) (x : Cluster) : (s.setCluster k x).cores = s.cores := rfl
@[simp] theorem State.setCluster_homes (s : State) (k : Nat) (x : Cluster) : (s.setCluster k x).homes = s.homes := rfl
@[simp] theorem State.setCluster_clusters (s : State) (k : Nat) (x : Cluster) : (s.setCluster k x).clusters = tset Cluster.init s.clusters k x := rfl
@[simp] theorem State.setCluster_portq (s : State) (k : Nat) (x : Cluster) : (s.setCluster k x).portq = s.portq := rfl
@[simp] theorem State.setCluster_homeq (s : State) (k : Nat) (x : Cluster) : (s.setCluster k x).homeq = s.homeq := rfl
@[simp] theorem State.setCluster_homeops (s : State) (k : Nat) (x : Cluster) : (s.setCluster k x).homeops = s.homeops := rfl
@[simp] theorem State.setCluster_mxq (s : State) (k : Nat) (x : Cluster) : (s.setCluster k x).mxq = s.mxq := rfl
@[simp] theorem State.setCluster_forestq (s : State) (k : Nat) (x : Cluster) : (s.setCluster k x).forestq = s.forestq := rfl
@[simp] theorem State.setCluster_invals (s : State) (k : Nat) (x : Cluster) : (s.setCluster k x).invals = s.invals := rfl
@[simp] theorem State.setCluster_lazies (s : State) (k : Nat) (x : Cluster) : (s.setCluster k x).lazies = s.lazies := rfl
@[simp] theorem State.setCluster_pme (s : State) (k : Nat) (x : Cluster) : (s.setCluster k x).pme = s.pme := rfl
@[simp] theorem State.setCluster_link (s : State) (k : Nat) (x : Cluster) : (s.setCluster k x).link = s.link := rfl
@[simp] theorem State.setCluster_mc (s : State) (k : Nat) (x : Cluster) : (s.setCluster k x).mc = s.mc := rfl
@[simp] theorem State.setCluster_amber (s : State) (k : Nat) (x : Cluster) : (s.setCluster k x).amber = s.amber := rfl
@[simp] theorem State.setCluster_tests (s : State) (k : Nat) (x : Cluster) : (s.setCluster k x).tests = s.tests := rfl

@[simp] theorem State.setHome_agenda (s : State) (k : Nat) (x : Home) : (s.setHome k x).agenda = s.agenda := rfl
@[simp] theorem State.setHome_cur (s : State) (k : Nat) (x : Home) : (s.setHome k x).cur = s.cur := rfl
@[simp] theorem State.setHome_iw (s : State) (k : Nat) (x : Home) : (s.setHome k x).iw = s.iw := rfl
@[simp] theorem State.setHome_t7 (s : State) (k : Nat) (x : Home) : (s.setHome k x).t7 = s.t7 := rfl
@[simp] theorem State.setHome_fresh (s : State) (k : Nat) (x : Home) : (s.setHome k x).fresh = s.fresh := rfl
@[simp] theorem State.setHome_nextId (s : State) (k : Nat) (x : Home) : (s.setHome k x).nextId = s.nextId := rfl
@[simp] theorem State.setHome_shutdown (s : State) (k : Nat) (x : Home) : (s.setHome k x).shutdown = s.shutdown := rfl
@[simp] theorem State.setHome_outbox (s : State) (k : Nat) (x : Home) : (s.setHome k x).outbox = s.outbox := rfl
@[simp] theorem State.setHome_phys (s : State) (k : Nat) (x : Home) : (s.setHome k x).phys = s.phys := rfl
@[simp] theorem State.setHome_spCore (s : State) (k : Nat) (x : Home) : (s.setHome k x).spCore = s.spCore := rfl
@[simp] theorem State.setHome_spClu (s : State) (k : Nat) (x : Home) : (s.setHome k x).spClu = s.spClu := rfl
@[simp] theorem State.setHome_spDie (s : State) (k : Nat) (x : Home) : (s.setHome k x).spDie = s.spDie := rfl
@[simp] theorem State.setHome_ctxs (s : State) (k : Nat) (x : Home) : (s.setHome k x).ctxs = s.ctxs := rfl
@[simp] theorem State.setHome_windows (s : State) (k : Nat) (x : Home) : (s.setHome k x).windows = s.windows := rfl
@[simp] theorem State.setHome_graphs (s : State) (k : Nat) (x : Home) : (s.setHome k x).graphs = s.graphs := rfl
@[simp] theorem State.setHome_launches (s : State) (k : Nat) (x : Home) : (s.setHome k x).launches = s.launches := rfl
@[simp] theorem State.setHome_grids (s : State) (k : Nat) (x : Home) : (s.setHome k x).grids = s.grids := rfl
@[simp] theorem State.setHome_floors (s : State) (k : Nat) (x : Home) : (s.setHome k x).floors = s.floors := rfl
@[simp] theorem State.setHome_teams (s : State) (k : Nat) (x : Home) : (s.setHome k x).teams = s.teams := rfl
@[simp] theorem State.setHome_waves (s : State) (k : Nat) (x : Home) : (s.setHome k x).waves = s.waves := rfl
@[simp] theorem State.setHome_cores (s : State) (k : Nat) (x : Home) : (s.setHome k x).cores = s.cores := rfl
@[simp] theorem State.setHome_homes (s : State) (k : Nat) (x : Home) : (s.setHome k x).homes = tset Home.init s.homes k x := rfl
@[simp] theorem State.setHome_clusters (s : State) (k : Nat) (x : Home) : (s.setHome k x).clusters = s.clusters := rfl
@[simp] theorem State.setHome_portq (s : State) (k : Nat) (x : Home) : (s.setHome k x).portq = s.portq := rfl
@[simp] theorem State.setHome_homeq (s : State) (k : Nat) (x : Home) : (s.setHome k x).homeq = s.homeq := rfl
@[simp] theorem State.setHome_homeops (s : State) (k : Nat) (x : Home) : (s.setHome k x).homeops = s.homeops := rfl
@[simp] theorem State.setHome_mxq (s : State) (k : Nat) (x : Home) : (s.setHome k x).mxq = s.mxq := rfl
@[simp] theorem State.setHome_forestq (s : State) (k : Nat) (x : Home) : (s.setHome k x).forestq = s.forestq := rfl
@[simp] theorem State.setHome_invals (s : State) (k : Nat) (x : Home) : (s.setHome k x).invals = s.invals := rfl
@[simp] theorem State.setHome_lazies (s : State) (k : Nat) (x : Home) : (s.setHome k x).lazies = s.lazies := rfl
@[simp] theorem State.setHome_pme (s : State) (k : Nat) (x : Home) : (s.setHome k x).pme = s.pme := rfl
@[simp] theorem State.setHome_link (s : State) (k : Nat) (x : Home) : (s.setHome k x).link = s.link := rfl
@[simp] theorem State.setHome_mc (s : State) (k : Nat) (x : Home) : (s.setHome k x).mc = s.mc := rfl
@[simp] theorem State.setHome_amber (s : State) (k : Nat) (x : Home) : (s.setHome k x).amber = s.amber := rfl
@[simp] theorem State.setHome_tests (s : State) (k : Nat) (x : Home) : (s.setHome k x).tests = s.tests := rfl

@[simp] theorem State.setCtx_agenda (s : State) (k : Nat) (x : Ctx) : (s.setCtx k x).agenda = s.agenda := rfl
@[simp] theorem State.setCtx_cur (s : State) (k : Nat) (x : Ctx) : (s.setCtx k x).cur = s.cur := rfl
@[simp] theorem State.setCtx_iw (s : State) (k : Nat) (x : Ctx) : (s.setCtx k x).iw = s.iw := rfl
@[simp] theorem State.setCtx_t7 (s : State) (k : Nat) (x : Ctx) : (s.setCtx k x).t7 = s.t7 := rfl
@[simp] theorem State.setCtx_fresh (s : State) (k : Nat) (x : Ctx) : (s.setCtx k x).fresh = s.fresh := rfl
@[simp] theorem State.setCtx_nextId (s : State) (k : Nat) (x : Ctx) : (s.setCtx k x).nextId = s.nextId := rfl
@[simp] theorem State.setCtx_shutdown (s : State) (k : Nat) (x : Ctx) : (s.setCtx k x).shutdown = s.shutdown := rfl
@[simp] theorem State.setCtx_outbox (s : State) (k : Nat) (x : Ctx) : (s.setCtx k x).outbox = s.outbox := rfl
@[simp] theorem State.setCtx_phys (s : State) (k : Nat) (x : Ctx) : (s.setCtx k x).phys = s.phys := rfl
@[simp] theorem State.setCtx_spCore (s : State) (k : Nat) (x : Ctx) : (s.setCtx k x).spCore = s.spCore := rfl
@[simp] theorem State.setCtx_spClu (s : State) (k : Nat) (x : Ctx) : (s.setCtx k x).spClu = s.spClu := rfl
@[simp] theorem State.setCtx_spDie (s : State) (k : Nat) (x : Ctx) : (s.setCtx k x).spDie = s.spDie := rfl
@[simp] theorem State.setCtx_ctxs (s : State) (k : Nat) (x : Ctx) : (s.setCtx k x).ctxs = tset Ctx.init s.ctxs k x := rfl
@[simp] theorem State.setCtx_windows (s : State) (k : Nat) (x : Ctx) : (s.setCtx k x).windows = s.windows := rfl
@[simp] theorem State.setCtx_graphs (s : State) (k : Nat) (x : Ctx) : (s.setCtx k x).graphs = s.graphs := rfl
@[simp] theorem State.setCtx_launches (s : State) (k : Nat) (x : Ctx) : (s.setCtx k x).launches = s.launches := rfl
@[simp] theorem State.setCtx_grids (s : State) (k : Nat) (x : Ctx) : (s.setCtx k x).grids = s.grids := rfl
@[simp] theorem State.setCtx_floors (s : State) (k : Nat) (x : Ctx) : (s.setCtx k x).floors = s.floors := rfl
@[simp] theorem State.setCtx_teams (s : State) (k : Nat) (x : Ctx) : (s.setCtx k x).teams = s.teams := rfl
@[simp] theorem State.setCtx_waves (s : State) (k : Nat) (x : Ctx) : (s.setCtx k x).waves = s.waves := rfl
@[simp] theorem State.setCtx_cores (s : State) (k : Nat) (x : Ctx) : (s.setCtx k x).cores = s.cores := rfl
@[simp] theorem State.setCtx_homes (s : State) (k : Nat) (x : Ctx) : (s.setCtx k x).homes = s.homes := rfl
@[simp] theorem State.setCtx_clusters (s : State) (k : Nat) (x : Ctx) : (s.setCtx k x).clusters = s.clusters := rfl
@[simp] theorem State.setCtx_portq (s : State) (k : Nat) (x : Ctx) : (s.setCtx k x).portq = s.portq := rfl
@[simp] theorem State.setCtx_homeq (s : State) (k : Nat) (x : Ctx) : (s.setCtx k x).homeq = s.homeq := rfl
@[simp] theorem State.setCtx_homeops (s : State) (k : Nat) (x : Ctx) : (s.setCtx k x).homeops = s.homeops := rfl
@[simp] theorem State.setCtx_mxq (s : State) (k : Nat) (x : Ctx) : (s.setCtx k x).mxq = s.mxq := rfl
@[simp] theorem State.setCtx_forestq (s : State) (k : Nat) (x : Ctx) : (s.setCtx k x).forestq = s.forestq := rfl
@[simp] theorem State.setCtx_invals (s : State) (k : Nat) (x : Ctx) : (s.setCtx k x).invals = s.invals := rfl
@[simp] theorem State.setCtx_lazies (s : State) (k : Nat) (x : Ctx) : (s.setCtx k x).lazies = s.lazies := rfl
@[simp] theorem State.setCtx_pme (s : State) (k : Nat) (x : Ctx) : (s.setCtx k x).pme = s.pme := rfl
@[simp] theorem State.setCtx_link (s : State) (k : Nat) (x : Ctx) : (s.setCtx k x).link = s.link := rfl
@[simp] theorem State.setCtx_mc (s : State) (k : Nat) (x : Ctx) : (s.setCtx k x).mc = s.mc := rfl
@[simp] theorem State.setCtx_amber (s : State) (k : Nat) (x : Ctx) : (s.setCtx k x).amber = s.amber := rfl
@[simp] theorem State.setCtx_tests (s : State) (k : Nat) (x : Ctx) : (s.setCtx k x).tests = s.tests := rfl

@[simp] theorem State.setWindow_agenda (s : State) (k : Nat) (x : Window) : (s.setWindow k x).agenda = s.agenda := rfl
@[simp] theorem State.setWindow_cur (s : State) (k : Nat) (x : Window) : (s.setWindow k x).cur = s.cur := rfl
@[simp] theorem State.setWindow_iw (s : State) (k : Nat) (x : Window) : (s.setWindow k x).iw = s.iw := rfl
@[simp] theorem State.setWindow_t7 (s : State) (k : Nat) (x : Window) : (s.setWindow k x).t7 = s.t7 := rfl
@[simp] theorem State.setWindow_fresh (s : State) (k : Nat) (x : Window) : (s.setWindow k x).fresh = s.fresh := rfl
@[simp] theorem State.setWindow_nextId (s : State) (k : Nat) (x : Window) : (s.setWindow k x).nextId = s.nextId := rfl
@[simp] theorem State.setWindow_shutdown (s : State) (k : Nat) (x : Window) : (s.setWindow k x).shutdown = s.shutdown := rfl
@[simp] theorem State.setWindow_outbox (s : State) (k : Nat) (x : Window) : (s.setWindow k x).outbox = s.outbox := rfl
@[simp] theorem State.setWindow_phys (s : State) (k : Nat) (x : Window) : (s.setWindow k x).phys = s.phys := rfl
@[simp] theorem State.setWindow_spCore (s : State) (k : Nat) (x : Window) : (s.setWindow k x).spCore = s.spCore := rfl
@[simp] theorem State.setWindow_spClu (s : State) (k : Nat) (x : Window) : (s.setWindow k x).spClu = s.spClu := rfl
@[simp] theorem State.setWindow_spDie (s : State) (k : Nat) (x : Window) : (s.setWindow k x).spDie = s.spDie := rfl
@[simp] theorem State.setWindow_ctxs (s : State) (k : Nat) (x : Window) : (s.setWindow k x).ctxs = s.ctxs := rfl
@[simp] theorem State.setWindow_windows (s : State) (k : Nat) (x : Window) : (s.setWindow k x).windows = tset Window.init s.windows k x := rfl
@[simp] theorem State.setWindow_graphs (s : State) (k : Nat) (x : Window) : (s.setWindow k x).graphs = s.graphs := rfl
@[simp] theorem State.setWindow_launches (s : State) (k : Nat) (x : Window) : (s.setWindow k x).launches = s.launches := rfl
@[simp] theorem State.setWindow_grids (s : State) (k : Nat) (x : Window) : (s.setWindow k x).grids = s.grids := rfl
@[simp] theorem State.setWindow_floors (s : State) (k : Nat) (x : Window) : (s.setWindow k x).floors = s.floors := rfl
@[simp] theorem State.setWindow_teams (s : State) (k : Nat) (x : Window) : (s.setWindow k x).teams = s.teams := rfl
@[simp] theorem State.setWindow_waves (s : State) (k : Nat) (x : Window) : (s.setWindow k x).waves = s.waves := rfl
@[simp] theorem State.setWindow_cores (s : State) (k : Nat) (x : Window) : (s.setWindow k x).cores = s.cores := rfl
@[simp] theorem State.setWindow_homes (s : State) (k : Nat) (x : Window) : (s.setWindow k x).homes = s.homes := rfl
@[simp] theorem State.setWindow_clusters (s : State) (k : Nat) (x : Window) : (s.setWindow k x).clusters = s.clusters := rfl
@[simp] theorem State.setWindow_portq (s : State) (k : Nat) (x : Window) : (s.setWindow k x).portq = s.portq := rfl
@[simp] theorem State.setWindow_homeq (s : State) (k : Nat) (x : Window) : (s.setWindow k x).homeq = s.homeq := rfl
@[simp] theorem State.setWindow_homeops (s : State) (k : Nat) (x : Window) : (s.setWindow k x).homeops = s.homeops := rfl
@[simp] theorem State.setWindow_mxq (s : State) (k : Nat) (x : Window) : (s.setWindow k x).mxq = s.mxq := rfl
@[simp] theorem State.setWindow_forestq (s : State) (k : Nat) (x : Window) : (s.setWindow k x).forestq = s.forestq := rfl
@[simp] theorem State.setWindow_invals (s : State) (k : Nat) (x : Window) : (s.setWindow k x).invals = s.invals := rfl
@[simp] theorem State.setWindow_lazies (s : State) (k : Nat) (x : Window) : (s.setWindow k x).lazies = s.lazies := rfl
@[simp] theorem State.setWindow_pme (s : State) (k : Nat) (x : Window) : (s.setWindow k x).pme = s.pme := rfl
@[simp] theorem State.setWindow_link (s : State) (k : Nat) (x : Window) : (s.setWindow k x).link = s.link := rfl
@[simp] theorem State.setWindow_mc (s : State) (k : Nat) (x : Window) : (s.setWindow k x).mc = s.mc := rfl
@[simp] theorem State.setWindow_amber (s : State) (k : Nat) (x : Window) : (s.setWindow k x).amber = s.amber := rfl
@[simp] theorem State.setWindow_tests (s : State) (k : Nat) (x : Window) : (s.setWindow k x).tests = s.tests := rfl

@[simp] theorem State.modCore_agenda (s : State) (k : Nat) (f : Core → Core) : (s.modCore k f).agenda = s.agenda := rfl
@[simp] theorem State.modCore_cur (s : State) (k : Nat) (f : Core → Core) : (s.modCore k f).cur = s.cur := rfl
@[simp] theorem State.modCore_iw (s : State) (k : Nat) (f : Core → Core) : (s.modCore k f).iw = s.iw := rfl
@[simp] theorem State.modCore_t7 (s : State) (k : Nat) (f : Core → Core) : (s.modCore k f).t7 = s.t7 := rfl
@[simp] theorem State.modCore_fresh (s : State) (k : Nat) (f : Core → Core) : (s.modCore k f).fresh = s.fresh := rfl
@[simp] theorem State.modCore_nextId (s : State) (k : Nat) (f : Core → Core) : (s.modCore k f).nextId = s.nextId := rfl
@[simp] theorem State.modCore_shutdown (s : State) (k : Nat) (f : Core → Core) : (s.modCore k f).shutdown = s.shutdown := rfl
@[simp] theorem State.modCore_outbox (s : State) (k : Nat) (f : Core → Core) : (s.modCore k f).outbox = s.outbox := rfl
@[simp] theorem State.modCore_phys (s : State) (k : Nat) (f : Core → Core) : (s.modCore k f).phys = s.phys := rfl
@[simp] theorem State.modCore_spCore (s : State) (k : Nat) (f : Core → Core) : (s.modCore k f).spCore = s.spCore := rfl
@[simp] theorem State.modCore_spClu (s : State) (k : Nat) (f : Core → Core) : (s.modCore k f).spClu = s.spClu := rfl
@[simp] theorem State.modCore_spDie (s : State) (k : Nat) (f : Core → Core) : (s.modCore k f).spDie = s.spDie := rfl
@[simp] theorem State.modCore_ctxs (s : State) (k : Nat) (f : Core → Core) : (s.modCore k f).ctxs = s.ctxs := rfl
@[simp] theorem State.modCore_windows (s : State) (k : Nat) (f : Core → Core) : (s.modCore k f).windows = s.windows := rfl
@[simp] theorem State.modCore_graphs (s : State) (k : Nat) (f : Core → Core) : (s.modCore k f).graphs = s.graphs := rfl
@[simp] theorem State.modCore_launches (s : State) (k : Nat) (f : Core → Core) : (s.modCore k f).launches = s.launches := rfl
@[simp] theorem State.modCore_grids (s : State) (k : Nat) (f : Core → Core) : (s.modCore k f).grids = s.grids := rfl
@[simp] theorem State.modCore_floors (s : State) (k : Nat) (f : Core → Core) : (s.modCore k f).floors = s.floors := rfl
@[simp] theorem State.modCore_teams (s : State) (k : Nat) (f : Core → Core) : (s.modCore k f).teams = s.teams := rfl
@[simp] theorem State.modCore_waves (s : State) (k : Nat) (f : Core → Core) : (s.modCore k f).waves = s.waves := rfl
@[simp] theorem State.modCore_homes (s : State) (k : Nat) (f : Core → Core) : (s.modCore k f).homes = s.homes := rfl
@[simp] theorem State.modCore_clusters (s : State) (k : Nat) (f : Core → Core) : (s.modCore k f).clusters = s.clusters := rfl
@[simp] theorem State.modCore_portq (s : State) (k : Nat) (f : Core → Core) : (s.modCore k f).portq = s.portq := rfl
@[simp] theorem State.modCore_homeq (s : State) (k : Nat) (f : Core → Core) : (s.modCore k f).homeq = s.homeq := rfl
@[simp] theorem State.modCore_homeops (s : State) (k : Nat) (f : Core → Core) : (s.modCore k f).homeops = s.homeops := rfl
@[simp] theorem State.modCore_mxq (s : State) (k : Nat) (f : Core → Core) : (s.modCore k f).mxq = s.mxq := rfl
@[simp] theorem State.modCore_forestq (s : State) (k : Nat) (f : Core → Core) : (s.modCore k f).forestq = s.forestq := rfl
@[simp] theorem State.modCore_invals (s : State) (k : Nat) (f : Core → Core) : (s.modCore k f).invals = s.invals := rfl
@[simp] theorem State.modCore_lazies (s : State) (k : Nat) (f : Core → Core) : (s.modCore k f).lazies = s.lazies := rfl
@[simp] theorem State.modCore_pme (s : State) (k : Nat) (f : Core → Core) : (s.modCore k f).pme = s.pme := rfl
@[simp] theorem State.modCore_link (s : State) (k : Nat) (f : Core → Core) : (s.modCore k f).link = s.link := rfl
@[simp] theorem State.modCore_mc (s : State) (k : Nat) (f : Core → Core) : (s.modCore k f).mc = s.mc := rfl
@[simp] theorem State.modCore_amber (s : State) (k : Nat) (f : Core → Core) : (s.modCore k f).amber = s.amber := rfl
@[simp] theorem State.modCore_tests (s : State) (k : Nat) (f : Core → Core) : (s.modCore k f).tests = s.tests := rfl

@[simp] theorem State.modCluster_agenda (s : State) (k : Nat) (f : Cluster → Cluster) : (s.modCluster k f).agenda = s.agenda := rfl
@[simp] theorem State.modCluster_cur (s : State) (k : Nat) (f : Cluster → Cluster) : (s.modCluster k f).cur = s.cur := rfl
@[simp] theorem State.modCluster_iw (s : State) (k : Nat) (f : Cluster → Cluster) : (s.modCluster k f).iw = s.iw := rfl
@[simp] theorem State.modCluster_t7 (s : State) (k : Nat) (f : Cluster → Cluster) : (s.modCluster k f).t7 = s.t7 := rfl
@[simp] theorem State.modCluster_fresh (s : State) (k : Nat) (f : Cluster → Cluster) : (s.modCluster k f).fresh = s.fresh := rfl
@[simp] theorem State.modCluster_nextId (s : State) (k : Nat) (f : Cluster → Cluster) : (s.modCluster k f).nextId = s.nextId := rfl
@[simp] theorem State.modCluster_shutdown (s : State) (k : Nat) (f : Cluster → Cluster) : (s.modCluster k f).shutdown = s.shutdown := rfl
@[simp] theorem State.modCluster_outbox (s : State) (k : Nat) (f : Cluster → Cluster) : (s.modCluster k f).outbox = s.outbox := rfl
@[simp] theorem State.modCluster_phys (s : State) (k : Nat) (f : Cluster → Cluster) : (s.modCluster k f).phys = s.phys := rfl
@[simp] theorem State.modCluster_spCore (s : State) (k : Nat) (f : Cluster → Cluster) : (s.modCluster k f).spCore = s.spCore := rfl
@[simp] theorem State.modCluster_spClu (s : State) (k : Nat) (f : Cluster → Cluster) : (s.modCluster k f).spClu = s.spClu := rfl
@[simp] theorem State.modCluster_spDie (s : State) (k : Nat) (f : Cluster → Cluster) : (s.modCluster k f).spDie = s.spDie := rfl
@[simp] theorem State.modCluster_ctxs (s : State) (k : Nat) (f : Cluster → Cluster) : (s.modCluster k f).ctxs = s.ctxs := rfl
@[simp] theorem State.modCluster_windows (s : State) (k : Nat) (f : Cluster → Cluster) : (s.modCluster k f).windows = s.windows := rfl
@[simp] theorem State.modCluster_graphs (s : State) (k : Nat) (f : Cluster → Cluster) : (s.modCluster k f).graphs = s.graphs := rfl
@[simp] theorem State.modCluster_launches (s : State) (k : Nat) (f : Cluster → Cluster) : (s.modCluster k f).launches = s.launches := rfl
@[simp] theorem State.modCluster_grids (s : State) (k : Nat) (f : Cluster → Cluster) : (s.modCluster k f).grids = s.grids := rfl
@[simp] theorem State.modCluster_floors (s : State) (k : Nat) (f : Cluster → Cluster) : (s.modCluster k f).floors = s.floors := rfl
@[simp] theorem State.modCluster_teams (s : State) (k : Nat) (f : Cluster → Cluster) : (s.modCluster k f).teams = s.teams := rfl
@[simp] theorem State.modCluster_waves (s : State) (k : Nat) (f : Cluster → Cluster) : (s.modCluster k f).waves = s.waves := rfl
@[simp] theorem State.modCluster_cores (s : State) (k : Nat) (f : Cluster → Cluster) : (s.modCluster k f).cores = s.cores := rfl
@[simp] theorem State.modCluster_homes (s : State) (k : Nat) (f : Cluster → Cluster) : (s.modCluster k f).homes = s.homes := rfl
@[simp] theorem State.modCluster_portq (s : State) (k : Nat) (f : Cluster → Cluster) : (s.modCluster k f).portq = s.portq := rfl
@[simp] theorem State.modCluster_homeq (s : State) (k : Nat) (f : Cluster → Cluster) : (s.modCluster k f).homeq = s.homeq := rfl
@[simp] theorem State.modCluster_homeops (s : State) (k : Nat) (f : Cluster → Cluster) : (s.modCluster k f).homeops = s.homeops := rfl
@[simp] theorem State.modCluster_mxq (s : State) (k : Nat) (f : Cluster → Cluster) : (s.modCluster k f).mxq = s.mxq := rfl
@[simp] theorem State.modCluster_forestq (s : State) (k : Nat) (f : Cluster → Cluster) : (s.modCluster k f).forestq = s.forestq := rfl
@[simp] theorem State.modCluster_invals (s : State) (k : Nat) (f : Cluster → Cluster) : (s.modCluster k f).invals = s.invals := rfl
@[simp] theorem State.modCluster_lazies (s : State) (k : Nat) (f : Cluster → Cluster) : (s.modCluster k f).lazies = s.lazies := rfl
@[simp] theorem State.modCluster_pme (s : State) (k : Nat) (f : Cluster → Cluster) : (s.modCluster k f).pme = s.pme := rfl
@[simp] theorem State.modCluster_link (s : State) (k : Nat) (f : Cluster → Cluster) : (s.modCluster k f).link = s.link := rfl
@[simp] theorem State.modCluster_mc (s : State) (k : Nat) (f : Cluster → Cluster) : (s.modCluster k f).mc = s.mc := rfl
@[simp] theorem State.modCluster_amber (s : State) (k : Nat) (f : Cluster → Cluster) : (s.modCluster k f).amber = s.amber := rfl
@[simp] theorem State.modCluster_tests (s : State) (k : Nat) (f : Cluster → Cluster) : (s.modCluster k f).tests = s.tests := rfl

@[simp] theorem State.modHome_agenda (s : State) (k : Nat) (f : Home → Home) : (s.modHome k f).agenda = s.agenda := rfl
@[simp] theorem State.modHome_cur (s : State) (k : Nat) (f : Home → Home) : (s.modHome k f).cur = s.cur := rfl
@[simp] theorem State.modHome_iw (s : State) (k : Nat) (f : Home → Home) : (s.modHome k f).iw = s.iw := rfl
@[simp] theorem State.modHome_t7 (s : State) (k : Nat) (f : Home → Home) : (s.modHome k f).t7 = s.t7 := rfl
@[simp] theorem State.modHome_fresh (s : State) (k : Nat) (f : Home → Home) : (s.modHome k f).fresh = s.fresh := rfl
@[simp] theorem State.modHome_nextId (s : State) (k : Nat) (f : Home → Home) : (s.modHome k f).nextId = s.nextId := rfl
@[simp] theorem State.modHome_shutdown (s : State) (k : Nat) (f : Home → Home) : (s.modHome k f).shutdown = s.shutdown := rfl
@[simp] theorem State.modHome_outbox (s : State) (k : Nat) (f : Home → Home) : (s.modHome k f).outbox = s.outbox := rfl
@[simp] theorem State.modHome_phys (s : State) (k : Nat) (f : Home → Home) : (s.modHome k f).phys = s.phys := rfl
@[simp] theorem State.modHome_spCore (s : State) (k : Nat) (f : Home → Home) : (s.modHome k f).spCore = s.spCore := rfl
@[simp] theorem State.modHome_spClu (s : State) (k : Nat) (f : Home → Home) : (s.modHome k f).spClu = s.spClu := rfl
@[simp] theorem State.modHome_spDie (s : State) (k : Nat) (f : Home → Home) : (s.modHome k f).spDie = s.spDie := rfl
@[simp] theorem State.modHome_ctxs (s : State) (k : Nat) (f : Home → Home) : (s.modHome k f).ctxs = s.ctxs := rfl
@[simp] theorem State.modHome_windows (s : State) (k : Nat) (f : Home → Home) : (s.modHome k f).windows = s.windows := rfl
@[simp] theorem State.modHome_graphs (s : State) (k : Nat) (f : Home → Home) : (s.modHome k f).graphs = s.graphs := rfl
@[simp] theorem State.modHome_launches (s : State) (k : Nat) (f : Home → Home) : (s.modHome k f).launches = s.launches := rfl
@[simp] theorem State.modHome_grids (s : State) (k : Nat) (f : Home → Home) : (s.modHome k f).grids = s.grids := rfl
@[simp] theorem State.modHome_floors (s : State) (k : Nat) (f : Home → Home) : (s.modHome k f).floors = s.floors := rfl
@[simp] theorem State.modHome_teams (s : State) (k : Nat) (f : Home → Home) : (s.modHome k f).teams = s.teams := rfl
@[simp] theorem State.modHome_waves (s : State) (k : Nat) (f : Home → Home) : (s.modHome k f).waves = s.waves := rfl
@[simp] theorem State.modHome_cores (s : State) (k : Nat) (f : Home → Home) : (s.modHome k f).cores = s.cores := rfl
@[simp] theorem State.modHome_clusters (s : State) (k : Nat) (f : Home → Home) : (s.modHome k f).clusters = s.clusters := rfl
@[simp] theorem State.modHome_portq (s : State) (k : Nat) (f : Home → Home) : (s.modHome k f).portq = s.portq := rfl
@[simp] theorem State.modHome_homeq (s : State) (k : Nat) (f : Home → Home) : (s.modHome k f).homeq = s.homeq := rfl
@[simp] theorem State.modHome_homeops (s : State) (k : Nat) (f : Home → Home) : (s.modHome k f).homeops = s.homeops := rfl
@[simp] theorem State.modHome_mxq (s : State) (k : Nat) (f : Home → Home) : (s.modHome k f).mxq = s.mxq := rfl
@[simp] theorem State.modHome_forestq (s : State) (k : Nat) (f : Home → Home) : (s.modHome k f).forestq = s.forestq := rfl
@[simp] theorem State.modHome_invals (s : State) (k : Nat) (f : Home → Home) : (s.modHome k f).invals = s.invals := rfl
@[simp] theorem State.modHome_lazies (s : State) (k : Nat) (f : Home → Home) : (s.modHome k f).lazies = s.lazies := rfl
@[simp] theorem State.modHome_pme (s : State) (k : Nat) (f : Home → Home) : (s.modHome k f).pme = s.pme := rfl
@[simp] theorem State.modHome_link (s : State) (k : Nat) (f : Home → Home) : (s.modHome k f).link = s.link := rfl
@[simp] theorem State.modHome_mc (s : State) (k : Nat) (f : Home → Home) : (s.modHome k f).mc = s.mc := rfl
@[simp] theorem State.modHome_amber (s : State) (k : Nat) (f : Home → Home) : (s.modHome k f).amber = s.amber := rfl
@[simp] theorem State.modHome_tests (s : State) (k : Nat) (f : Home → Home) : (s.modHome k f).tests = s.tests := rfl

@[simp] theorem State.modCtx_agenda (s : State) (k : Nat) (f : Ctx → Ctx) : (s.modCtx k f).agenda = s.agenda := rfl
@[simp] theorem State.modCtx_cur (s : State) (k : Nat) (f : Ctx → Ctx) : (s.modCtx k f).cur = s.cur := rfl
@[simp] theorem State.modCtx_iw (s : State) (k : Nat) (f : Ctx → Ctx) : (s.modCtx k f).iw = s.iw := rfl
@[simp] theorem State.modCtx_t7 (s : State) (k : Nat) (f : Ctx → Ctx) : (s.modCtx k f).t7 = s.t7 := rfl
@[simp] theorem State.modCtx_fresh (s : State) (k : Nat) (f : Ctx → Ctx) : (s.modCtx k f).fresh = s.fresh := rfl
@[simp] theorem State.modCtx_nextId (s : State) (k : Nat) (f : Ctx → Ctx) : (s.modCtx k f).nextId = s.nextId := rfl
@[simp] theorem State.modCtx_shutdown (s : State) (k : Nat) (f : Ctx → Ctx) : (s.modCtx k f).shutdown = s.shutdown := rfl
@[simp] theorem State.modCtx_outbox (s : State) (k : Nat) (f : Ctx → Ctx) : (s.modCtx k f).outbox = s.outbox := rfl
@[simp] theorem State.modCtx_phys (s : State) (k : Nat) (f : Ctx → Ctx) : (s.modCtx k f).phys = s.phys := rfl
@[simp] theorem State.modCtx_spCore (s : State) (k : Nat) (f : Ctx → Ctx) : (s.modCtx k f).spCore = s.spCore := rfl
@[simp] theorem State.modCtx_spClu (s : State) (k : Nat) (f : Ctx → Ctx) : (s.modCtx k f).spClu = s.spClu := rfl
@[simp] theorem State.modCtx_spDie (s : State) (k : Nat) (f : Ctx → Ctx) : (s.modCtx k f).spDie = s.spDie := rfl
@[simp] theorem State.modCtx_windows (s : State) (k : Nat) (f : Ctx → Ctx) : (s.modCtx k f).windows = s.windows := rfl
@[simp] theorem State.modCtx_graphs (s : State) (k : Nat) (f : Ctx → Ctx) : (s.modCtx k f).graphs = s.graphs := rfl
@[simp] theorem State.modCtx_launches (s : State) (k : Nat) (f : Ctx → Ctx) : (s.modCtx k f).launches = s.launches := rfl
@[simp] theorem State.modCtx_grids (s : State) (k : Nat) (f : Ctx → Ctx) : (s.modCtx k f).grids = s.grids := rfl
@[simp] theorem State.modCtx_floors (s : State) (k : Nat) (f : Ctx → Ctx) : (s.modCtx k f).floors = s.floors := rfl
@[simp] theorem State.modCtx_teams (s : State) (k : Nat) (f : Ctx → Ctx) : (s.modCtx k f).teams = s.teams := rfl
@[simp] theorem State.modCtx_waves (s : State) (k : Nat) (f : Ctx → Ctx) : (s.modCtx k f).waves = s.waves := rfl
@[simp] theorem State.modCtx_cores (s : State) (k : Nat) (f : Ctx → Ctx) : (s.modCtx k f).cores = s.cores := rfl
@[simp] theorem State.modCtx_homes (s : State) (k : Nat) (f : Ctx → Ctx) : (s.modCtx k f).homes = s.homes := rfl
@[simp] theorem State.modCtx_clusters (s : State) (k : Nat) (f : Ctx → Ctx) : (s.modCtx k f).clusters = s.clusters := rfl
@[simp] theorem State.modCtx_portq (s : State) (k : Nat) (f : Ctx → Ctx) : (s.modCtx k f).portq = s.portq := rfl
@[simp] theorem State.modCtx_homeq (s : State) (k : Nat) (f : Ctx → Ctx) : (s.modCtx k f).homeq = s.homeq := rfl
@[simp] theorem State.modCtx_homeops (s : State) (k : Nat) (f : Ctx → Ctx) : (s.modCtx k f).homeops = s.homeops := rfl
@[simp] theorem State.modCtx_mxq (s : State) (k : Nat) (f : Ctx → Ctx) : (s.modCtx k f).mxq = s.mxq := rfl
@[simp] theorem State.modCtx_forestq (s : State) (k : Nat) (f : Ctx → Ctx) : (s.modCtx k f).forestq = s.forestq := rfl
@[simp] theorem State.modCtx_invals (s : State) (k : Nat) (f : Ctx → Ctx) : (s.modCtx k f).invals = s.invals := rfl
@[simp] theorem State.modCtx_lazies (s : State) (k : Nat) (f : Ctx → Ctx) : (s.modCtx k f).lazies = s.lazies := rfl
@[simp] theorem State.modCtx_pme (s : State) (k : Nat) (f : Ctx → Ctx) : (s.modCtx k f).pme = s.pme := rfl
@[simp] theorem State.modCtx_link (s : State) (k : Nat) (f : Ctx → Ctx) : (s.modCtx k f).link = s.link := rfl
@[simp] theorem State.modCtx_mc (s : State) (k : Nat) (f : Ctx → Ctx) : (s.modCtx k f).mc = s.mc := rfl
@[simp] theorem State.modCtx_amber (s : State) (k : Nat) (f : Ctx → Ctx) : (s.modCtx k f).amber = s.amber := rfl
@[simp] theorem State.modCtx_tests (s : State) (k : Nat) (f : Ctx → Ctx) : (s.modCtx k f).tests = s.tests := rfl

@[simp] theorem State.modWindow_agenda (s : State) (k : Nat) (f : Window → Window) : (s.modWindow k f).agenda = s.agenda := rfl
@[simp] theorem State.modWindow_cur (s : State) (k : Nat) (f : Window → Window) : (s.modWindow k f).cur = s.cur := rfl
@[simp] theorem State.modWindow_iw (s : State) (k : Nat) (f : Window → Window) : (s.modWindow k f).iw = s.iw := rfl
@[simp] theorem State.modWindow_t7 (s : State) (k : Nat) (f : Window → Window) : (s.modWindow k f).t7 = s.t7 := rfl
@[simp] theorem State.modWindow_fresh (s : State) (k : Nat) (f : Window → Window) : (s.modWindow k f).fresh = s.fresh := rfl
@[simp] theorem State.modWindow_nextId (s : State) (k : Nat) (f : Window → Window) : (s.modWindow k f).nextId = s.nextId := rfl
@[simp] theorem State.modWindow_shutdown (s : State) (k : Nat) (f : Window → Window) : (s.modWindow k f).shutdown = s.shutdown := rfl
@[simp] theorem State.modWindow_outbox (s : State) (k : Nat) (f : Window → Window) : (s.modWindow k f).outbox = s.outbox := rfl
@[simp] theorem State.modWindow_phys (s : State) (k : Nat) (f : Window → Window) : (s.modWindow k f).phys = s.phys := rfl
@[simp] theorem State.modWindow_spCore (s : State) (k : Nat) (f : Window → Window) : (s.modWindow k f).spCore = s.spCore := rfl
@[simp] theorem State.modWindow_spClu (s : State) (k : Nat) (f : Window → Window) : (s.modWindow k f).spClu = s.spClu := rfl
@[simp] theorem State.modWindow_spDie (s : State) (k : Nat) (f : Window → Window) : (s.modWindow k f).spDie = s.spDie := rfl
@[simp] theorem State.modWindow_ctxs (s : State) (k : Nat) (f : Window → Window) : (s.modWindow k f).ctxs = s.ctxs := rfl
@[simp] theorem State.modWindow_graphs (s : State) (k : Nat) (f : Window → Window) : (s.modWindow k f).graphs = s.graphs := rfl
@[simp] theorem State.modWindow_launches (s : State) (k : Nat) (f : Window → Window) : (s.modWindow k f).launches = s.launches := rfl
@[simp] theorem State.modWindow_grids (s : State) (k : Nat) (f : Window → Window) : (s.modWindow k f).grids = s.grids := rfl
@[simp] theorem State.modWindow_floors (s : State) (k : Nat) (f : Window → Window) : (s.modWindow k f).floors = s.floors := rfl
@[simp] theorem State.modWindow_teams (s : State) (k : Nat) (f : Window → Window) : (s.modWindow k f).teams = s.teams := rfl
@[simp] theorem State.modWindow_waves (s : State) (k : Nat) (f : Window → Window) : (s.modWindow k f).waves = s.waves := rfl
@[simp] theorem State.modWindow_cores (s : State) (k : Nat) (f : Window → Window) : (s.modWindow k f).cores = s.cores := rfl
@[simp] theorem State.modWindow_homes (s : State) (k : Nat) (f : Window → Window) : (s.modWindow k f).homes = s.homes := rfl
@[simp] theorem State.modWindow_clusters (s : State) (k : Nat) (f : Window → Window) : (s.modWindow k f).clusters = s.clusters := rfl
@[simp] theorem State.modWindow_portq (s : State) (k : Nat) (f : Window → Window) : (s.modWindow k f).portq = s.portq := rfl
@[simp] theorem State.modWindow_homeq (s : State) (k : Nat) (f : Window → Window) : (s.modWindow k f).homeq = s.homeq := rfl
@[simp] theorem State.modWindow_homeops (s : State) (k : Nat) (f : Window → Window) : (s.modWindow k f).homeops = s.homeops := rfl
@[simp] theorem State.modWindow_mxq (s : State) (k : Nat) (f : Window → Window) : (s.modWindow k f).mxq = s.mxq := rfl
@[simp] theorem State.modWindow_forestq (s : State) (k : Nat) (f : Window → Window) : (s.modWindow k f).forestq = s.forestq := rfl
@[simp] theorem State.modWindow_invals (s : State) (k : Nat) (f : Window → Window) : (s.modWindow k f).invals = s.invals := rfl
@[simp] theorem State.modWindow_lazies (s : State) (k : Nat) (f : Window → Window) : (s.modWindow k f).lazies = s.lazies := rfl
@[simp] theorem State.modWindow_pme (s : State) (k : Nat) (f : Window → Window) : (s.modWindow k f).pme = s.pme := rfl
@[simp] theorem State.modWindow_link (s : State) (k : Nat) (f : Window → Window) : (s.modWindow k f).link = s.link := rfl
@[simp] theorem State.modWindow_mc (s : State) (k : Nat) (f : Window → Window) : (s.modWindow k f).mc = s.mc := rfl
@[simp] theorem State.modWindow_amber (s : State) (k : Nat) (f : Window → Window) : (s.modWindow k f).amber = s.amber := rfl
@[simp] theorem State.modWindow_tests (s : State) (k : Nat) (f : Window → Window) : (s.modWindow k f).tests = s.tests := rfl

@[simp] theorem State.modWave_agenda (s : State) (k : Nat) (f : Wave → Wave) : (s.modWave k f).agenda = s.agenda := by unfold State.modWave; split <;> rfl
@[simp] theorem State.modWave_cur (s : State) (k : Nat) (f : Wave → Wave) : (s.modWave k f).cur = s.cur := by unfold State.modWave; split <;> rfl
@[simp] theorem State.modWave_iw (s : State) (k : Nat) (f : Wave → Wave) : (s.modWave k f).iw = s.iw := by unfold State.modWave; split <;> rfl
@[simp] theorem State.modWave_t7 (s : State) (k : Nat) (f : Wave → Wave) : (s.modWave k f).t7 = s.t7 := by unfold State.modWave; split <;> rfl
@[simp] theorem State.modWave_fresh (s : State) (k : Nat) (f : Wave → Wave) : (s.modWave k f).fresh = s.fresh := by unfold State.modWave; split <;> rfl
@[simp] theorem State.modWave_nextId (s : State) (k : Nat) (f : Wave → Wave) : (s.modWave k f).nextId = s.nextId := by unfold State.modWave; split <;> rfl
@[simp] theorem State.modWave_shutdown (s : State) (k : Nat) (f : Wave → Wave) : (s.modWave k f).shutdown = s.shutdown := by unfold State.modWave; split <;> rfl
@[simp] theorem State.modWave_outbox (s : State) (k : Nat) (f : Wave → Wave) : (s.modWave k f).outbox = s.outbox := by unfold State.modWave; split <;> rfl
@[simp] theorem State.modWave_phys (s : State) (k : Nat) (f : Wave → Wave) : (s.modWave k f).phys = s.phys := by unfold State.modWave; split <;> rfl
@[simp] theorem State.modWave_spCore (s : State) (k : Nat) (f : Wave → Wave) : (s.modWave k f).spCore = s.spCore := by unfold State.modWave; split <;> rfl
@[simp] theorem State.modWave_spClu (s : State) (k : Nat) (f : Wave → Wave) : (s.modWave k f).spClu = s.spClu := by unfold State.modWave; split <;> rfl
@[simp] theorem State.modWave_spDie (s : State) (k : Nat) (f : Wave → Wave) : (s.modWave k f).spDie = s.spDie := by unfold State.modWave; split <;> rfl
@[simp] theorem State.modWave_ctxs (s : State) (k : Nat) (f : Wave → Wave) : (s.modWave k f).ctxs = s.ctxs := by unfold State.modWave; split <;> rfl
@[simp] theorem State.modWave_windows (s : State) (k : Nat) (f : Wave → Wave) : (s.modWave k f).windows = s.windows := by unfold State.modWave; split <;> rfl
@[simp] theorem State.modWave_graphs (s : State) (k : Nat) (f : Wave → Wave) : (s.modWave k f).graphs = s.graphs := by unfold State.modWave; split <;> rfl
@[simp] theorem State.modWave_launches (s : State) (k : Nat) (f : Wave → Wave) : (s.modWave k f).launches = s.launches := by unfold State.modWave; split <;> rfl
@[simp] theorem State.modWave_grids (s : State) (k : Nat) (f : Wave → Wave) : (s.modWave k f).grids = s.grids := by unfold State.modWave; split <;> rfl
@[simp] theorem State.modWave_floors (s : State) (k : Nat) (f : Wave → Wave) : (s.modWave k f).floors = s.floors := by unfold State.modWave; split <;> rfl
@[simp] theorem State.modWave_teams (s : State) (k : Nat) (f : Wave → Wave) : (s.modWave k f).teams = s.teams := by unfold State.modWave; split <;> rfl
@[simp] theorem State.modWave_cores (s : State) (k : Nat) (f : Wave → Wave) : (s.modWave k f).cores = s.cores := by unfold State.modWave; split <;> rfl
@[simp] theorem State.modWave_homes (s : State) (k : Nat) (f : Wave → Wave) : (s.modWave k f).homes = s.homes := by unfold State.modWave; split <;> rfl
@[simp] theorem State.modWave_clusters (s : State) (k : Nat) (f : Wave → Wave) : (s.modWave k f).clusters = s.clusters := by unfold State.modWave; split <;> rfl
@[simp] theorem State.modWave_portq (s : State) (k : Nat) (f : Wave → Wave) : (s.modWave k f).portq = s.portq := by unfold State.modWave; split <;> rfl
@[simp] theorem State.modWave_homeq (s : State) (k : Nat) (f : Wave → Wave) : (s.modWave k f).homeq = s.homeq := by unfold State.modWave; split <;> rfl
@[simp] theorem State.modWave_homeops (s : State) (k : Nat) (f : Wave → Wave) : (s.modWave k f).homeops = s.homeops := by unfold State.modWave; split <;> rfl
@[simp] theorem State.modWave_mxq (s : State) (k : Nat) (f : Wave → Wave) : (s.modWave k f).mxq = s.mxq := by unfold State.modWave; split <;> rfl
@[simp] theorem State.modWave_forestq (s : State) (k : Nat) (f : Wave → Wave) : (s.modWave k f).forestq = s.forestq := by unfold State.modWave; split <;> rfl
@[simp] theorem State.modWave_invals (s : State) (k : Nat) (f : Wave → Wave) : (s.modWave k f).invals = s.invals := by unfold State.modWave; split <;> rfl
@[simp] theorem State.modWave_lazies (s : State) (k : Nat) (f : Wave → Wave) : (s.modWave k f).lazies = s.lazies := by unfold State.modWave; split <;> rfl
@[simp] theorem State.modWave_pme (s : State) (k : Nat) (f : Wave → Wave) : (s.modWave k f).pme = s.pme := by unfold State.modWave; split <;> rfl
@[simp] theorem State.modWave_link (s : State) (k : Nat) (f : Wave → Wave) : (s.modWave k f).link = s.link := by unfold State.modWave; split <;> rfl
@[simp] theorem State.modWave_mc (s : State) (k : Nat) (f : Wave → Wave) : (s.modWave k f).mc = s.mc := by unfold State.modWave; split <;> rfl
@[simp] theorem State.modWave_amber (s : State) (k : Nat) (f : Wave → Wave) : (s.modWave k f).amber = s.amber := by unfold State.modWave; split <;> rfl
@[simp] theorem State.modWave_tests (s : State) (k : Nat) (f : Wave → Wave) : (s.modWave k f).tests = s.tests := by unfold State.modWave; split <;> rfl

@[simp] theorem State.modTeam_agenda (s : State) (k : Nat) (f : Team → Team) : (s.modTeam k f).agenda = s.agenda := by unfold State.modTeam; split <;> rfl
@[simp] theorem State.modTeam_cur (s : State) (k : Nat) (f : Team → Team) : (s.modTeam k f).cur = s.cur := by unfold State.modTeam; split <;> rfl
@[simp] theorem State.modTeam_iw (s : State) (k : Nat) (f : Team → Team) : (s.modTeam k f).iw = s.iw := by unfold State.modTeam; split <;> rfl
@[simp] theorem State.modTeam_t7 (s : State) (k : Nat) (f : Team → Team) : (s.modTeam k f).t7 = s.t7 := by unfold State.modTeam; split <;> rfl
@[simp] theorem State.modTeam_fresh (s : State) (k : Nat) (f : Team → Team) : (s.modTeam k f).fresh = s.fresh := by unfold State.modTeam; split <;> rfl
@[simp] theorem State.modTeam_nextId (s : State) (k : Nat) (f : Team → Team) : (s.modTeam k f).nextId = s.nextId := by unfold State.modTeam; split <;> rfl
@[simp] theorem State.modTeam_shutdown (s : State) (k : Nat) (f : Team → Team) : (s.modTeam k f).shutdown = s.shutdown := by unfold State.modTeam; split <;> rfl
@[simp] theorem State.modTeam_outbox (s : State) (k : Nat) (f : Team → Team) : (s.modTeam k f).outbox = s.outbox := by unfold State.modTeam; split <;> rfl
@[simp] theorem State.modTeam_phys (s : State) (k : Nat) (f : Team → Team) : (s.modTeam k f).phys = s.phys := by unfold State.modTeam; split <;> rfl
@[simp] theorem State.modTeam_spCore (s : State) (k : Nat) (f : Team → Team) : (s.modTeam k f).spCore = s.spCore := by unfold State.modTeam; split <;> rfl
@[simp] theorem State.modTeam_spClu (s : State) (k : Nat) (f : Team → Team) : (s.modTeam k f).spClu = s.spClu := by unfold State.modTeam; split <;> rfl
@[simp] theorem State.modTeam_spDie (s : State) (k : Nat) (f : Team → Team) : (s.modTeam k f).spDie = s.spDie := by unfold State.modTeam; split <;> rfl
@[simp] theorem State.modTeam_ctxs (s : State) (k : Nat) (f : Team → Team) : (s.modTeam k f).ctxs = s.ctxs := by unfold State.modTeam; split <;> rfl
@[simp] theorem State.modTeam_windows (s : State) (k : Nat) (f : Team → Team) : (s.modTeam k f).windows = s.windows := by unfold State.modTeam; split <;> rfl
@[simp] theorem State.modTeam_graphs (s : State) (k : Nat) (f : Team → Team) : (s.modTeam k f).graphs = s.graphs := by unfold State.modTeam; split <;> rfl
@[simp] theorem State.modTeam_launches (s : State) (k : Nat) (f : Team → Team) : (s.modTeam k f).launches = s.launches := by unfold State.modTeam; split <;> rfl
@[simp] theorem State.modTeam_grids (s : State) (k : Nat) (f : Team → Team) : (s.modTeam k f).grids = s.grids := by unfold State.modTeam; split <;> rfl
@[simp] theorem State.modTeam_floors (s : State) (k : Nat) (f : Team → Team) : (s.modTeam k f).floors = s.floors := by unfold State.modTeam; split <;> rfl
@[simp] theorem State.modTeam_waves (s : State) (k : Nat) (f : Team → Team) : (s.modTeam k f).waves = s.waves := by unfold State.modTeam; split <;> rfl
@[simp] theorem State.modTeam_cores (s : State) (k : Nat) (f : Team → Team) : (s.modTeam k f).cores = s.cores := by unfold State.modTeam; split <;> rfl
@[simp] theorem State.modTeam_homes (s : State) (k : Nat) (f : Team → Team) : (s.modTeam k f).homes = s.homes := by unfold State.modTeam; split <;> rfl
@[simp] theorem State.modTeam_clusters (s : State) (k : Nat) (f : Team → Team) : (s.modTeam k f).clusters = s.clusters := by unfold State.modTeam; split <;> rfl
@[simp] theorem State.modTeam_portq (s : State) (k : Nat) (f : Team → Team) : (s.modTeam k f).portq = s.portq := by unfold State.modTeam; split <;> rfl
@[simp] theorem State.modTeam_homeq (s : State) (k : Nat) (f : Team → Team) : (s.modTeam k f).homeq = s.homeq := by unfold State.modTeam; split <;> rfl
@[simp] theorem State.modTeam_homeops (s : State) (k : Nat) (f : Team → Team) : (s.modTeam k f).homeops = s.homeops := by unfold State.modTeam; split <;> rfl
@[simp] theorem State.modTeam_mxq (s : State) (k : Nat) (f : Team → Team) : (s.modTeam k f).mxq = s.mxq := by unfold State.modTeam; split <;> rfl
@[simp] theorem State.modTeam_forestq (s : State) (k : Nat) (f : Team → Team) : (s.modTeam k f).forestq = s.forestq := by unfold State.modTeam; split <;> rfl
@[simp] theorem State.modTeam_invals (s : State) (k : Nat) (f : Team → Team) : (s.modTeam k f).invals = s.invals := by unfold State.modTeam; split <;> rfl
@[simp] theorem State.modTeam_lazies (s : State) (k : Nat) (f : Team → Team) : (s.modTeam k f).lazies = s.lazies := by unfold State.modTeam; split <;> rfl
@[simp] theorem State.modTeam_pme (s : State) (k : Nat) (f : Team → Team) : (s.modTeam k f).pme = s.pme := by unfold State.modTeam; split <;> rfl
@[simp] theorem State.modTeam_link (s : State) (k : Nat) (f : Team → Team) : (s.modTeam k f).link = s.link := by unfold State.modTeam; split <;> rfl
@[simp] theorem State.modTeam_mc (s : State) (k : Nat) (f : Team → Team) : (s.modTeam k f).mc = s.mc := by unfold State.modTeam; split <;> rfl
@[simp] theorem State.modTeam_amber (s : State) (k : Nat) (f : Team → Team) : (s.modTeam k f).amber = s.amber := by unfold State.modTeam; split <;> rfl
@[simp] theorem State.modTeam_tests (s : State) (k : Nat) (f : Team → Team) : (s.modTeam k f).tests = s.tests := by unfold State.modTeam; split <;> rfl

@[simp] theorem State.modGrid_agenda (s : State) (k : Nat) (f : Grid → Grid) : (s.modGrid k f).agenda = s.agenda := by unfold State.modGrid; split <;> rfl
@[simp] theorem State.modGrid_cur (s : State) (k : Nat) (f : Grid → Grid) : (s.modGrid k f).cur = s.cur := by unfold State.modGrid; split <;> rfl
@[simp] theorem State.modGrid_iw (s : State) (k : Nat) (f : Grid → Grid) : (s.modGrid k f).iw = s.iw := by unfold State.modGrid; split <;> rfl
@[simp] theorem State.modGrid_t7 (s : State) (k : Nat) (f : Grid → Grid) : (s.modGrid k f).t7 = s.t7 := by unfold State.modGrid; split <;> rfl
@[simp] theorem State.modGrid_fresh (s : State) (k : Nat) (f : Grid → Grid) : (s.modGrid k f).fresh = s.fresh := by unfold State.modGrid; split <;> rfl
@[simp] theorem State.modGrid_nextId (s : State) (k : Nat) (f : Grid → Grid) : (s.modGrid k f).nextId = s.nextId := by unfold State.modGrid; split <;> rfl
@[simp] theorem State.modGrid_shutdown (s : State) (k : Nat) (f : Grid → Grid) : (s.modGrid k f).shutdown = s.shutdown := by unfold State.modGrid; split <;> rfl
@[simp] theorem State.modGrid_outbox (s : State) (k : Nat) (f : Grid → Grid) : (s.modGrid k f).outbox = s.outbox := by unfold State.modGrid; split <;> rfl
@[simp] theorem State.modGrid_phys (s : State) (k : Nat) (f : Grid → Grid) : (s.modGrid k f).phys = s.phys := by unfold State.modGrid; split <;> rfl
@[simp] theorem State.modGrid_spCore (s : State) (k : Nat) (f : Grid → Grid) : (s.modGrid k f).spCore = s.spCore := by unfold State.modGrid; split <;> rfl
@[simp] theorem State.modGrid_spClu (s : State) (k : Nat) (f : Grid → Grid) : (s.modGrid k f).spClu = s.spClu := by unfold State.modGrid; split <;> rfl
@[simp] theorem State.modGrid_spDie (s : State) (k : Nat) (f : Grid → Grid) : (s.modGrid k f).spDie = s.spDie := by unfold State.modGrid; split <;> rfl
@[simp] theorem State.modGrid_ctxs (s : State) (k : Nat) (f : Grid → Grid) : (s.modGrid k f).ctxs = s.ctxs := by unfold State.modGrid; split <;> rfl
@[simp] theorem State.modGrid_windows (s : State) (k : Nat) (f : Grid → Grid) : (s.modGrid k f).windows = s.windows := by unfold State.modGrid; split <;> rfl
@[simp] theorem State.modGrid_graphs (s : State) (k : Nat) (f : Grid → Grid) : (s.modGrid k f).graphs = s.graphs := by unfold State.modGrid; split <;> rfl
@[simp] theorem State.modGrid_launches (s : State) (k : Nat) (f : Grid → Grid) : (s.modGrid k f).launches = s.launches := by unfold State.modGrid; split <;> rfl
@[simp] theorem State.modGrid_floors (s : State) (k : Nat) (f : Grid → Grid) : (s.modGrid k f).floors = s.floors := by unfold State.modGrid; split <;> rfl
@[simp] theorem State.modGrid_teams (s : State) (k : Nat) (f : Grid → Grid) : (s.modGrid k f).teams = s.teams := by unfold State.modGrid; split <;> rfl
@[simp] theorem State.modGrid_waves (s : State) (k : Nat) (f : Grid → Grid) : (s.modGrid k f).waves = s.waves := by unfold State.modGrid; split <;> rfl
@[simp] theorem State.modGrid_cores (s : State) (k : Nat) (f : Grid → Grid) : (s.modGrid k f).cores = s.cores := by unfold State.modGrid; split <;> rfl
@[simp] theorem State.modGrid_homes (s : State) (k : Nat) (f : Grid → Grid) : (s.modGrid k f).homes = s.homes := by unfold State.modGrid; split <;> rfl
@[simp] theorem State.modGrid_clusters (s : State) (k : Nat) (f : Grid → Grid) : (s.modGrid k f).clusters = s.clusters := by unfold State.modGrid; split <;> rfl
@[simp] theorem State.modGrid_portq (s : State) (k : Nat) (f : Grid → Grid) : (s.modGrid k f).portq = s.portq := by unfold State.modGrid; split <;> rfl
@[simp] theorem State.modGrid_homeq (s : State) (k : Nat) (f : Grid → Grid) : (s.modGrid k f).homeq = s.homeq := by unfold State.modGrid; split <;> rfl
@[simp] theorem State.modGrid_homeops (s : State) (k : Nat) (f : Grid → Grid) : (s.modGrid k f).homeops = s.homeops := by unfold State.modGrid; split <;> rfl
@[simp] theorem State.modGrid_mxq (s : State) (k : Nat) (f : Grid → Grid) : (s.modGrid k f).mxq = s.mxq := by unfold State.modGrid; split <;> rfl
@[simp] theorem State.modGrid_forestq (s : State) (k : Nat) (f : Grid → Grid) : (s.modGrid k f).forestq = s.forestq := by unfold State.modGrid; split <;> rfl
@[simp] theorem State.modGrid_invals (s : State) (k : Nat) (f : Grid → Grid) : (s.modGrid k f).invals = s.invals := by unfold State.modGrid; split <;> rfl
@[simp] theorem State.modGrid_lazies (s : State) (k : Nat) (f : Grid → Grid) : (s.modGrid k f).lazies = s.lazies := by unfold State.modGrid; split <;> rfl
@[simp] theorem State.modGrid_pme (s : State) (k : Nat) (f : Grid → Grid) : (s.modGrid k f).pme = s.pme := by unfold State.modGrid; split <;> rfl
@[simp] theorem State.modGrid_link (s : State) (k : Nat) (f : Grid → Grid) : (s.modGrid k f).link = s.link := by unfold State.modGrid; split <;> rfl
@[simp] theorem State.modGrid_mc (s : State) (k : Nat) (f : Grid → Grid) : (s.modGrid k f).mc = s.mc := by unfold State.modGrid; split <;> rfl
@[simp] theorem State.modGrid_amber (s : State) (k : Nat) (f : Grid → Grid) : (s.modGrid k f).amber = s.amber := by unfold State.modGrid; split <;> rfl
@[simp] theorem State.modGrid_tests (s : State) (k : Nat) (f : Grid → Grid) : (s.modGrid k f).tests = s.tests := by unfold State.modGrid; split <;> rfl

@[simp] theorem Wave.setSplit_team (w : Wave) (k : Nat) (x : Split) : (w.setSplit k x).team = w.team := rfl
@[simp] theorem Wave.setSplit_ctx (w : Wave) (k : Nat) (x : Split) : (w.setSplit k x).ctx = w.ctx := rfl
@[simp] theorem Wave.setSplit_stat (w : Wave) (k : Nat) (x : Split) : (w.setSplit k x).stat = w.stat := rfl
@[simp] theorem Wave.setSplit_v (w : Wave) (k : Nat) (x : Split) : (w.setSplit k x).v = w.v := rfl
@[simp] theorem Wave.setSplit_s (w : Wave) (k : Nat) (x : Split) : (w.setSplit k x).s = w.s := rfl
@[simp] theorem Wave.setSplit_p (w : Wave) (k : Nat) (x : Split) : (w.setSplit k x).p = w.p := rfl
@[simp] theorem Wave.setSplit_f (w : Wave) (k : Nat) (x : Split) : (w.setSplit k x).f = w.f := rfl
@[simp] theorem Wave.setSplit_k (w : Wave) (k : Nat) (x : Split) : (w.setSplit k x).k = w.k := rfl
@[simp] theorem Wave.setSplit_q (w : Wave) (k : Nat) (x : Split) : (w.setSplit k x).q = w.q := rfl
@[simp] theorem Wave.setSplit_x (w : Wave) (k : Nat) (x : Split) : (w.setSplit k x).x = w.x := rfl
@[simp] theorem Wave.setSplit_stack (w : Wave) (k : Nat) (x : Split) : (w.setSplit k x).stack = w.stack := rfl
@[simp] theorem Wave.setSplit_spilled (w : Wave) (k : Nat) (x : Split) : (w.setSplit k x).spilled = w.spilled := rfl
@[simp] theorem Wave.setSplit_handler (w : Wave) (k : Nat) (x : Split) : (w.setSplit k x).handler = w.handler := rfl
@[simp] theorem Wave.setSplit_heldTraps (w : Wave) (k : Nat) (x : Split) : (w.setSplit k x).heldTraps = w.heldTraps := rfl
@[simp] theorem Wave.setSplit_region (w : Wave) (k : Nat) (x : Split) : (w.setSplit k x).region = w.region := rfl
@[simp] theorem Wave.setSplit_chain (w : Wave) (k : Nat) (x : Split) : (w.setSplit k x).chain = w.chain := rfl
@[simp] theorem Wave.setSplit_park (w : Wave) (k : Nat) (x : Split) : (w.setSplit k x).park = w.park := rfl
@[simp] theorem Wave.setSplit_seq (w : Wave) (k : Nat) (x : Split) : (w.setSplit k x).seq = w.seq := rfl
@[simp] theorem Wave.setSplit_pend (w : Wave) (k : Nat) (x : Split) : (w.setSplit k x).pend = w.pend := rfl
@[simp] theorem Wave.setSplit_reqs (w : Wave) (k : Nat) (x : Split) : (w.setSplit k x).reqs = w.reqs := rfl
@[simp] theorem Wave.setSplit_sb (w : Wave) (k : Nat) (x : Split) : (w.setSplit k x).sb = w.sb := rfl
@[simp] theorem Wave.setSplit_rels (w : Wave) (k : Nat) (x : Split) : (w.setSplit k x).rels = w.rels := rfl
@[simp] theorem Wave.setSplit_acqs (w : Wave) (k : Nat) (x : Split) : (w.setSplit k x).acqs = w.acqs := rfl
@[simp] theorem Wave.setSplit_exiting (w : Wave) (k : Nat) (x : Split) : (w.setSplit k x).exiting = w.exiting := rfl
@[simp] theorem Wave.setSplit_lost (w : Wave) (k : Nat) (x : Split) : (w.setSplit k x).lost = w.lost := rfl
@[simp] theorem Wave.setSplit_code (w : Wave) (k : Nat) (x : Split) : (w.setSplit k x).code = w.code := rfl
@[simp] theorem Wave.setSplit_raised (w : Wave) (k : Nat) (x : Split) : (w.setSplit k x).raised = w.raised := rfl
@[simp] theorem Wave.setSplit_raisedAt (w : Wave) (k : Nat) (x : Split) : (w.setSplit k x).raisedAt = w.raisedAt := rfl

@[simp] theorem Wave.modSplit_team (w : Wave) (k : Nat) (f : Split → Split) : (w.modSplit k f).team = w.team := rfl
@[simp] theorem Wave.modSplit_ctx (w : Wave) (k : Nat) (f : Split → Split) : (w.modSplit k f).ctx = w.ctx := rfl
@[simp] theorem Wave.modSplit_stat (w : Wave) (k : Nat) (f : Split → Split) : (w.modSplit k f).stat = w.stat := rfl
@[simp] theorem Wave.modSplit_v (w : Wave) (k : Nat) (f : Split → Split) : (w.modSplit k f).v = w.v := rfl
@[simp] theorem Wave.modSplit_s (w : Wave) (k : Nat) (f : Split → Split) : (w.modSplit k f).s = w.s := rfl
@[simp] theorem Wave.modSplit_p (w : Wave) (k : Nat) (f : Split → Split) : (w.modSplit k f).p = w.p := rfl
@[simp] theorem Wave.modSplit_f (w : Wave) (k : Nat) (f : Split → Split) : (w.modSplit k f).f = w.f := rfl
@[simp] theorem Wave.modSplit_k (w : Wave) (k : Nat) (f : Split → Split) : (w.modSplit k f).k = w.k := rfl
@[simp] theorem Wave.modSplit_q (w : Wave) (k : Nat) (f : Split → Split) : (w.modSplit k f).q = w.q := rfl
@[simp] theorem Wave.modSplit_x (w : Wave) (k : Nat) (f : Split → Split) : (w.modSplit k f).x = w.x := rfl
@[simp] theorem Wave.modSplit_stack (w : Wave) (k : Nat) (f : Split → Split) : (w.modSplit k f).stack = w.stack := rfl
@[simp] theorem Wave.modSplit_spilled (w : Wave) (k : Nat) (f : Split → Split) : (w.modSplit k f).spilled = w.spilled := rfl
@[simp] theorem Wave.modSplit_handler (w : Wave) (k : Nat) (f : Split → Split) : (w.modSplit k f).handler = w.handler := rfl
@[simp] theorem Wave.modSplit_heldTraps (w : Wave) (k : Nat) (f : Split → Split) : (w.modSplit k f).heldTraps = w.heldTraps := rfl
@[simp] theorem Wave.modSplit_region (w : Wave) (k : Nat) (f : Split → Split) : (w.modSplit k f).region = w.region := rfl
@[simp] theorem Wave.modSplit_chain (w : Wave) (k : Nat) (f : Split → Split) : (w.modSplit k f).chain = w.chain := rfl
@[simp] theorem Wave.modSplit_park (w : Wave) (k : Nat) (f : Split → Split) : (w.modSplit k f).park = w.park := rfl
@[simp] theorem Wave.modSplit_seq (w : Wave) (k : Nat) (f : Split → Split) : (w.modSplit k f).seq = w.seq := rfl
@[simp] theorem Wave.modSplit_pend (w : Wave) (k : Nat) (f : Split → Split) : (w.modSplit k f).pend = w.pend := rfl
@[simp] theorem Wave.modSplit_reqs (w : Wave) (k : Nat) (f : Split → Split) : (w.modSplit k f).reqs = w.reqs := rfl
@[simp] theorem Wave.modSplit_sb (w : Wave) (k : Nat) (f : Split → Split) : (w.modSplit k f).sb = w.sb := rfl
@[simp] theorem Wave.modSplit_rels (w : Wave) (k : Nat) (f : Split → Split) : (w.modSplit k f).rels = w.rels := rfl
@[simp] theorem Wave.modSplit_acqs (w : Wave) (k : Nat) (f : Split → Split) : (w.modSplit k f).acqs = w.acqs := rfl
@[simp] theorem Wave.modSplit_exiting (w : Wave) (k : Nat) (f : Split → Split) : (w.modSplit k f).exiting = w.exiting := rfl
@[simp] theorem Wave.modSplit_lost (w : Wave) (k : Nat) (f : Split → Split) : (w.modSplit k f).lost = w.lost := rfl
@[simp] theorem Wave.modSplit_code (w : Wave) (k : Nat) (f : Split → Split) : (w.modSplit k f).code = w.code := rfl
@[simp] theorem Wave.modSplit_raised (w : Wave) (k : Nat) (f : Split → Split) : (w.modSplit k f).raised = w.raised := rfl
@[simp] theorem Wave.modSplit_raisedAt (w : Wave) (k : Nat) (f : Split → Split) : (w.modSplit k f).raisedAt = w.raisedAt := rfl

@[simp] theorem Wave.setLane_team (w : Wave) (r l : Nat) (x : Lane) : (w.setLane r l x).team = w.team := rfl
@[simp] theorem Wave.setLane_ctx (w : Wave) (r l : Nat) (x : Lane) : (w.setLane r l x).ctx = w.ctx := rfl
@[simp] theorem Wave.setLane_stat (w : Wave) (r l : Nat) (x : Lane) : (w.setLane r l x).stat = w.stat := rfl
@[simp] theorem Wave.setLane_s (w : Wave) (r l : Nat) (x : Lane) : (w.setLane r l x).s = w.s := rfl
@[simp] theorem Wave.setLane_p (w : Wave) (r l : Nat) (x : Lane) : (w.setLane r l x).p = w.p := rfl
@[simp] theorem Wave.setLane_f (w : Wave) (r l : Nat) (x : Lane) : (w.setLane r l x).f = w.f := rfl
@[simp] theorem Wave.setLane_k (w : Wave) (r l : Nat) (x : Lane) : (w.setLane r l x).k = w.k := rfl
@[simp] theorem Wave.setLane_q (w : Wave) (r l : Nat) (x : Lane) : (w.setLane r l x).q = w.q := rfl
@[simp] theorem Wave.setLane_x (w : Wave) (r l : Nat) (x : Lane) : (w.setLane r l x).x = w.x := rfl
@[simp] theorem Wave.setLane_splits (w : Wave) (r l : Nat) (x : Lane) : (w.setLane r l x).splits = w.splits := rfl
@[simp] theorem Wave.setLane_stack (w : Wave) (r l : Nat) (x : Lane) : (w.setLane r l x).stack = w.stack := rfl
@[simp] theorem Wave.setLane_spilled (w : Wave) (r l : Nat) (x : Lane) : (w.setLane r l x).spilled = w.spilled := rfl
@[simp] theorem Wave.setLane_handler (w : Wave) (r l : Nat) (x : Lane) : (w.setLane r l x).handler = w.handler := rfl
@[simp] theorem Wave.setLane_heldTraps (w : Wave) (r l : Nat) (x : Lane) : (w.setLane r l x).heldTraps = w.heldTraps := rfl
@[simp] theorem Wave.setLane_region (w : Wave) (r l : Nat) (x : Lane) : (w.setLane r l x).region = w.region := rfl
@[simp] theorem Wave.setLane_chain (w : Wave) (r l : Nat) (x : Lane) : (w.setLane r l x).chain = w.chain := rfl
@[simp] theorem Wave.setLane_park (w : Wave) (r l : Nat) (x : Lane) : (w.setLane r l x).park = w.park := rfl
@[simp] theorem Wave.setLane_seq (w : Wave) (r l : Nat) (x : Lane) : (w.setLane r l x).seq = w.seq := rfl
@[simp] theorem Wave.setLane_pend (w : Wave) (r l : Nat) (x : Lane) : (w.setLane r l x).pend = w.pend := rfl
@[simp] theorem Wave.setLane_reqs (w : Wave) (r l : Nat) (x : Lane) : (w.setLane r l x).reqs = w.reqs := rfl
@[simp] theorem Wave.setLane_sb (w : Wave) (r l : Nat) (x : Lane) : (w.setLane r l x).sb = w.sb := rfl
@[simp] theorem Wave.setLane_rels (w : Wave) (r l : Nat) (x : Lane) : (w.setLane r l x).rels = w.rels := rfl
@[simp] theorem Wave.setLane_acqs (w : Wave) (r l : Nat) (x : Lane) : (w.setLane r l x).acqs = w.acqs := rfl
@[simp] theorem Wave.setLane_exiting (w : Wave) (r l : Nat) (x : Lane) : (w.setLane r l x).exiting = w.exiting := rfl
@[simp] theorem Wave.setLane_lost (w : Wave) (r l : Nat) (x : Lane) : (w.setLane r l x).lost = w.lost := rfl
@[simp] theorem Wave.setLane_code (w : Wave) (r l : Nat) (x : Lane) : (w.setLane r l x).code = w.code := rfl
@[simp] theorem Wave.setLane_raised (w : Wave) (r l : Nat) (x : Lane) : (w.setLane r l x).raised = w.raised := rfl
@[simp] theorem Wave.setLane_raisedAt (w : Wave) (r l : Nat) (x : Lane) : (w.setLane r l x).raisedAt = w.raisedAt := rfl

@[simp] theorem Wave.setX_team (w : Wave) (k : Nat) (x : Word) : (w.setX k x).team = w.team := rfl
@[simp] theorem Wave.setX_ctx (w : Wave) (k : Nat) (x : Word) : (w.setX k x).ctx = w.ctx := rfl
@[simp] theorem Wave.setX_stat (w : Wave) (k : Nat) (x : Word) : (w.setX k x).stat = w.stat := rfl
@[simp] theorem Wave.setX_v (w : Wave) (k : Nat) (x : Word) : (w.setX k x).v = w.v := rfl
@[simp] theorem Wave.setX_s (w : Wave) (k : Nat) (x : Word) : (w.setX k x).s = w.s := rfl
@[simp] theorem Wave.setX_p (w : Wave) (k : Nat) (x : Word) : (w.setX k x).p = w.p := rfl
@[simp] theorem Wave.setX_f (w : Wave) (k : Nat) (x : Word) : (w.setX k x).f = w.f := rfl
@[simp] theorem Wave.setX_k (w : Wave) (k : Nat) (x : Word) : (w.setX k x).k = w.k := rfl
@[simp] theorem Wave.setX_q (w : Wave) (k : Nat) (x : Word) : (w.setX k x).q = w.q := rfl
@[simp] theorem Wave.setX_splits (w : Wave) (k : Nat) (x : Word) : (w.setX k x).splits = w.splits := rfl
@[simp] theorem Wave.setX_stack (w : Wave) (k : Nat) (x : Word) : (w.setX k x).stack = w.stack := rfl
@[simp] theorem Wave.setX_spilled (w : Wave) (k : Nat) (x : Word) : (w.setX k x).spilled = w.spilled := rfl
@[simp] theorem Wave.setX_handler (w : Wave) (k : Nat) (x : Word) : (w.setX k x).handler = w.handler := rfl
@[simp] theorem Wave.setX_heldTraps (w : Wave) (k : Nat) (x : Word) : (w.setX k x).heldTraps = w.heldTraps := rfl
@[simp] theorem Wave.setX_region (w : Wave) (k : Nat) (x : Word) : (w.setX k x).region = w.region := rfl
@[simp] theorem Wave.setX_chain (w : Wave) (k : Nat) (x : Word) : (w.setX k x).chain = w.chain := rfl
@[simp] theorem Wave.setX_park (w : Wave) (k : Nat) (x : Word) : (w.setX k x).park = w.park := rfl
@[simp] theorem Wave.setX_seq (w : Wave) (k : Nat) (x : Word) : (w.setX k x).seq = w.seq := rfl
@[simp] theorem Wave.setX_pend (w : Wave) (k : Nat) (x : Word) : (w.setX k x).pend = w.pend := rfl
@[simp] theorem Wave.setX_reqs (w : Wave) (k : Nat) (x : Word) : (w.setX k x).reqs = w.reqs := rfl
@[simp] theorem Wave.setX_sb (w : Wave) (k : Nat) (x : Word) : (w.setX k x).sb = w.sb := rfl
@[simp] theorem Wave.setX_rels (w : Wave) (k : Nat) (x : Word) : (w.setX k x).rels = w.rels := rfl
@[simp] theorem Wave.setX_acqs (w : Wave) (k : Nat) (x : Word) : (w.setX k x).acqs = w.acqs := rfl
@[simp] theorem Wave.setX_exiting (w : Wave) (k : Nat) (x : Word) : (w.setX k x).exiting = w.exiting := rfl
@[simp] theorem Wave.setX_lost (w : Wave) (k : Nat) (x : Word) : (w.setX k x).lost = w.lost := rfl
@[simp] theorem Wave.setX_code (w : Wave) (k : Nat) (x : Word) : (w.setX k x).code = w.code := rfl
@[simp] theorem Wave.setX_raised (w : Wave) (k : Nat) (x : Word) : (w.setX k x).raised = w.raised := rfl
@[simp] theorem Wave.setX_raisedAt (w : Wave) (k : Nat) (x : Word) : (w.setX k x).raisedAt = w.raisedAt := rfl

@[simp] theorem Wave.raise_team (w : Wave) (ks : List Nat) : (w.raise ks).team = w.team := by
  induction ks generalizing w with
  | nil => rfl
  | cons k ks ih => simp only [Wave.raise, ih]
@[simp] theorem Wave.raise_ctx (w : Wave) (ks : List Nat) : (w.raise ks).ctx = w.ctx := by
  induction ks generalizing w with
  | nil => rfl
  | cons k ks ih => simp only [Wave.raise, ih]
@[simp] theorem Wave.raise_stat (w : Wave) (ks : List Nat) : (w.raise ks).stat = w.stat := by
  induction ks generalizing w with
  | nil => rfl
  | cons k ks ih => simp only [Wave.raise, ih]
@[simp] theorem Wave.raise_v (w : Wave) (ks : List Nat) : (w.raise ks).v = w.v := by
  induction ks generalizing w with
  | nil => rfl
  | cons k ks ih => simp only [Wave.raise, ih]
@[simp] theorem Wave.raise_s (w : Wave) (ks : List Nat) : (w.raise ks).s = w.s := by
  induction ks generalizing w with
  | nil => rfl
  | cons k ks ih => simp only [Wave.raise, ih]
@[simp] theorem Wave.raise_p (w : Wave) (ks : List Nat) : (w.raise ks).p = w.p := by
  induction ks generalizing w with
  | nil => rfl
  | cons k ks ih => simp only [Wave.raise, ih]
@[simp] theorem Wave.raise_f (w : Wave) (ks : List Nat) : (w.raise ks).f = w.f := by
  induction ks generalizing w with
  | nil => rfl
  | cons k ks ih => simp only [Wave.raise, ih]
@[simp] theorem Wave.raise_q (w : Wave) (ks : List Nat) : (w.raise ks).q = w.q := by
  induction ks generalizing w with
  | nil => rfl
  | cons k ks ih => simp only [Wave.raise, ih]
@[simp] theorem Wave.raise_x (w : Wave) (ks : List Nat) : (w.raise ks).x = w.x := by
  induction ks generalizing w with
  | nil => rfl
  | cons k ks ih => simp only [Wave.raise, ih]
@[simp] theorem Wave.raise_splits (w : Wave) (ks : List Nat) : (w.raise ks).splits = w.splits := by
  induction ks generalizing w with
  | nil => rfl
  | cons k ks ih => simp only [Wave.raise, ih]
@[simp] theorem Wave.raise_stack (w : Wave) (ks : List Nat) : (w.raise ks).stack = w.stack := by
  induction ks generalizing w with
  | nil => rfl
  | cons k ks ih => simp only [Wave.raise, ih]
@[simp] theorem Wave.raise_spilled (w : Wave) (ks : List Nat) : (w.raise ks).spilled = w.spilled := by
  induction ks generalizing w with
  | nil => rfl
  | cons k ks ih => simp only [Wave.raise, ih]
@[simp] theorem Wave.raise_handler (w : Wave) (ks : List Nat) : (w.raise ks).handler = w.handler := by
  induction ks generalizing w with
  | nil => rfl
  | cons k ks ih => simp only [Wave.raise, ih]
@[simp] theorem Wave.raise_heldTraps (w : Wave) (ks : List Nat) : (w.raise ks).heldTraps = w.heldTraps := by
  induction ks generalizing w with
  | nil => rfl
  | cons k ks ih => simp only [Wave.raise, ih]
@[simp] theorem Wave.raise_region (w : Wave) (ks : List Nat) : (w.raise ks).region = w.region := by
  induction ks generalizing w with
  | nil => rfl
  | cons k ks ih => simp only [Wave.raise, ih]
@[simp] theorem Wave.raise_chain (w : Wave) (ks : List Nat) : (w.raise ks).chain = w.chain := by
  induction ks generalizing w with
  | nil => rfl
  | cons k ks ih => simp only [Wave.raise, ih]
@[simp] theorem Wave.raise_park (w : Wave) (ks : List Nat) : (w.raise ks).park = w.park := by
  induction ks generalizing w with
  | nil => rfl
  | cons k ks ih => simp only [Wave.raise, ih]
@[simp] theorem Wave.raise_seq (w : Wave) (ks : List Nat) : (w.raise ks).seq = w.seq := by
  induction ks generalizing w with
  | nil => rfl
  | cons k ks ih => simp only [Wave.raise, ih]
@[simp] theorem Wave.raise_pend (w : Wave) (ks : List Nat) : (w.raise ks).pend = w.pend := by
  induction ks generalizing w with
  | nil => rfl
  | cons k ks ih => simp only [Wave.raise, ih]
@[simp] theorem Wave.raise_reqs (w : Wave) (ks : List Nat) : (w.raise ks).reqs = w.reqs := by
  induction ks generalizing w with
  | nil => rfl
  | cons k ks ih => simp only [Wave.raise, ih]
@[simp] theorem Wave.raise_sb (w : Wave) (ks : List Nat) : (w.raise ks).sb = w.sb := by
  induction ks generalizing w with
  | nil => rfl
  | cons k ks ih => simp only [Wave.raise, ih]
@[simp] theorem Wave.raise_rels (w : Wave) (ks : List Nat) : (w.raise ks).rels = w.rels := by
  induction ks generalizing w with
  | nil => rfl
  | cons k ks ih => simp only [Wave.raise, ih]
@[simp] theorem Wave.raise_acqs (w : Wave) (ks : List Nat) : (w.raise ks).acqs = w.acqs := by
  induction ks generalizing w with
  | nil => rfl
  | cons k ks ih => simp only [Wave.raise, ih]
@[simp] theorem Wave.raise_exiting (w : Wave) (ks : List Nat) : (w.raise ks).exiting = w.exiting := by
  induction ks generalizing w with
  | nil => rfl
  | cons k ks ih => simp only [Wave.raise, ih]
@[simp] theorem Wave.raise_lost (w : Wave) (ks : List Nat) : (w.raise ks).lost = w.lost := by
  induction ks generalizing w with
  | nil => rfl
  | cons k ks ih => simp only [Wave.raise, ih]
@[simp] theorem Wave.raise_code (w : Wave) (ks : List Nat) : (w.raise ks).code = w.code := by
  induction ks generalizing w with
  | nil => rfl
  | cons k ks ih => simp only [Wave.raise, ih]
@[simp] theorem Wave.raise_raised (w : Wave) (ks : List Nat) : (w.raise ks).raised = w.raised := by
  induction ks generalizing w with
  | nil => rfl
  | cons k ks ih => simp only [Wave.raise, ih]
@[simp] theorem Wave.raise_raisedAt (w : Wave) (ks : List Nat) : (w.raise ks).raisedAt = w.raisedAt := by
  induction ks generalizing w with
  | nil => rfl
  | cons k ks ih => simp only [Wave.raise, ih]

@[simp] theorem Wave.fall_team (w : Wave) (ks : List Nat) : (w.fall ks).team = w.team := by
  induction ks generalizing w with
  | nil => rfl
  | cons k ks ih => simp only [Wave.fall, ih]
@[simp] theorem Wave.fall_ctx (w : Wave) (ks : List Nat) : (w.fall ks).ctx = w.ctx := by
  induction ks generalizing w with
  | nil => rfl
  | cons k ks ih => simp only [Wave.fall, ih]
@[simp] theorem Wave.fall_stat (w : Wave) (ks : List Nat) : (w.fall ks).stat = w.stat := by
  induction ks generalizing w with
  | nil => rfl
  | cons k ks ih => simp only [Wave.fall, ih]
@[simp] theorem Wave.fall_v (w : Wave) (ks : List Nat) : (w.fall ks).v = w.v := by
  induction ks generalizing w with
  | nil => rfl
  | cons k ks ih => simp only [Wave.fall, ih]
@[simp] theorem Wave.fall_s (w : Wave) (ks : List Nat) : (w.fall ks).s = w.s := by
  induction ks generalizing w with
  | nil => rfl
  | cons k ks ih => simp only [Wave.fall, ih]
@[simp] theorem Wave.fall_p (w : Wave) (ks : List Nat) : (w.fall ks).p = w.p := by
  induction ks generalizing w with
  | nil => rfl
  | cons k ks ih => simp only [Wave.fall, ih]
@[simp] theorem Wave.fall_f (w : Wave) (ks : List Nat) : (w.fall ks).f = w.f := by
  induction ks generalizing w with
  | nil => rfl
  | cons k ks ih => simp only [Wave.fall, ih]
@[simp] theorem Wave.fall_q (w : Wave) (ks : List Nat) : (w.fall ks).q = w.q := by
  induction ks generalizing w with
  | nil => rfl
  | cons k ks ih => simp only [Wave.fall, ih]
@[simp] theorem Wave.fall_x (w : Wave) (ks : List Nat) : (w.fall ks).x = w.x := by
  induction ks generalizing w with
  | nil => rfl
  | cons k ks ih => simp only [Wave.fall, ih]
@[simp] theorem Wave.fall_splits (w : Wave) (ks : List Nat) : (w.fall ks).splits = w.splits := by
  induction ks generalizing w with
  | nil => rfl
  | cons k ks ih => simp only [Wave.fall, ih]
@[simp] theorem Wave.fall_stack (w : Wave) (ks : List Nat) : (w.fall ks).stack = w.stack := by
  induction ks generalizing w with
  | nil => rfl
  | cons k ks ih => simp only [Wave.fall, ih]
@[simp] theorem Wave.fall_spilled (w : Wave) (ks : List Nat) : (w.fall ks).spilled = w.spilled := by
  induction ks generalizing w with
  | nil => rfl
  | cons k ks ih => simp only [Wave.fall, ih]
@[simp] theorem Wave.fall_handler (w : Wave) (ks : List Nat) : (w.fall ks).handler = w.handler := by
  induction ks generalizing w with
  | nil => rfl
  | cons k ks ih => simp only [Wave.fall, ih]
@[simp] theorem Wave.fall_heldTraps (w : Wave) (ks : List Nat) : (w.fall ks).heldTraps = w.heldTraps := by
  induction ks generalizing w with
  | nil => rfl
  | cons k ks ih => simp only [Wave.fall, ih]
@[simp] theorem Wave.fall_region (w : Wave) (ks : List Nat) : (w.fall ks).region = w.region := by
  induction ks generalizing w with
  | nil => rfl
  | cons k ks ih => simp only [Wave.fall, ih]
@[simp] theorem Wave.fall_chain (w : Wave) (ks : List Nat) : (w.fall ks).chain = w.chain := by
  induction ks generalizing w with
  | nil => rfl
  | cons k ks ih => simp only [Wave.fall, ih]
@[simp] theorem Wave.fall_park (w : Wave) (ks : List Nat) : (w.fall ks).park = w.park := by
  induction ks generalizing w with
  | nil => rfl
  | cons k ks ih => simp only [Wave.fall, ih]
@[simp] theorem Wave.fall_seq (w : Wave) (ks : List Nat) : (w.fall ks).seq = w.seq := by
  induction ks generalizing w with
  | nil => rfl
  | cons k ks ih => simp only [Wave.fall, ih]
@[simp] theorem Wave.fall_pend (w : Wave) (ks : List Nat) : (w.fall ks).pend = w.pend := by
  induction ks generalizing w with
  | nil => rfl
  | cons k ks ih => simp only [Wave.fall, ih]
@[simp] theorem Wave.fall_reqs (w : Wave) (ks : List Nat) : (w.fall ks).reqs = w.reqs := by
  induction ks generalizing w with
  | nil => rfl
  | cons k ks ih => simp only [Wave.fall, ih]
@[simp] theorem Wave.fall_sb (w : Wave) (ks : List Nat) : (w.fall ks).sb = w.sb := by
  induction ks generalizing w with
  | nil => rfl
  | cons k ks ih => simp only [Wave.fall, ih]
@[simp] theorem Wave.fall_rels (w : Wave) (ks : List Nat) : (w.fall ks).rels = w.rels := by
  induction ks generalizing w with
  | nil => rfl
  | cons k ks ih => simp only [Wave.fall, ih]
@[simp] theorem Wave.fall_acqs (w : Wave) (ks : List Nat) : (w.fall ks).acqs = w.acqs := by
  induction ks generalizing w with
  | nil => rfl
  | cons k ks ih => simp only [Wave.fall, ih]
@[simp] theorem Wave.fall_exiting (w : Wave) (ks : List Nat) : (w.fall ks).exiting = w.exiting := by
  induction ks generalizing w with
  | nil => rfl
  | cons k ks ih => simp only [Wave.fall, ih]
@[simp] theorem Wave.fall_lost (w : Wave) (ks : List Nat) : (w.fall ks).lost = w.lost := by
  induction ks generalizing w with
  | nil => rfl
  | cons k ks ih => simp only [Wave.fall, ih]
@[simp] theorem Wave.fall_code (w : Wave) (ks : List Nat) : (w.fall ks).code = w.code := by
  induction ks generalizing w with
  | nil => rfl
  | cons k ks ih => simp only [Wave.fall, ih]
@[simp] theorem Wave.fall_raised (w : Wave) (ks : List Nat) : (w.fall ks).raised = w.raised := by
  induction ks generalizing w with
  | nil => rfl
  | cons k ks ih => simp only [Wave.fall, ih]
@[simp] theorem Wave.fall_raisedAt (w : Wave) (ks : List Nat) : (w.fall ks).raisedAt = w.raisedAt := by
  induction ks generalizing w with
  | nil => rfl
  | cons k ks ih => simp only [Wave.fall, ih]

theorem tfind_modWave (s : State) (k : Nat) (f : Wave → Wave) (j : Nat) :
    tfind (s.modWave k f).waves j = if j = k then (tfind s.waves k).map f else tfind s.waves j := by
  unfold State.modWave
  split
  · simp only [State.setWave_waves, tfind_tput]; split <;> simp_all
  · split <;> simp_all

@[simp] theorem tfind_modWave_self (s : State) (k : Nat) (f : Wave → Wave) :
    tfind (s.modWave k f).waves k = (tfind s.waves k).map f := by simp [tfind_modWave]

theorem tfind_modWave_ne (s : State) {k j : Nat} (f : Wave → Wave) (h : j ≠ k) :
    tfind (s.modWave k f).waves j = tfind s.waves j := by simp [tfind_modWave, h]

theorem tfind_modTeam (s : State) (k : Nat) (f : Team → Team) (j : Nat) :
    tfind (s.modTeam k f).teams j = if j = k then (tfind s.teams k).map f else tfind s.teams j := by
  unfold State.modTeam
  split
  · simp only [State.setTeam_teams, tfind_tput]; split <;> simp_all
  · split <;> simp_all

theorem State.core_modCore (s : State) (k : Nat) (f : Core → Core) (j : Nat) :
    (s.modCore k f).core j = if j = k then f (s.core k) else s.core j := by
  simp only [State.core, State.modCore, State.setCore_cores, tget_tset]

theorem State.cluster_modCluster (s : State) (k : Nat) (f : Cluster → Cluster) (j : Nat) :
    (s.modCluster k f).cluster j = if j = k then f (s.cluster k) else s.cluster j := by
  simp only [State.cluster, State.modCluster, State.setCluster_clusters, tget_tset]

theorem State.home_modHome (s : State) (k : Nat) (f : Home → Home) (j : Nat) :
    (s.modHome k f).home j = if j = k then f (s.home k) else s.home j := by
  simp only [State.home, State.modHome, State.setHome_homes, tget_tset]

theorem State.ctx_modCtx (s : State) (k : Nat) (f : Ctx → Ctx) (j : Nat) :
    (s.modCtx k f).ctx j = if j = k then f (s.ctx k) else s.ctx j := by
  simp only [State.ctx, State.modCtx, State.setCtx_ctxs, tget_tset]

theorem State.window_setWindow (s : State) (k : Nat) (x : Window) (j : Nat) :
    (s.setWindow k x).window j = if j = k then x else s.window j := by
  simp only [State.window, State.setWindow_windows, tget_tset]

theorem Wave.split_setSplit (w : Wave) (k : Nat) (x : Split) (j : Nat) :
    (w.setSplit k x).split j = if j = k then x else w.split j := by
  simp only [Wave.split, Wave.setSplit, tget_tset]

theorem Wave.split_modSplit (w : Wave) (k : Nat) (f : Split → Split) (j : Nat) :
    (w.modSplit k f).split j = if j = k then f (w.split k) else w.split j := by
  simp only [Wave.modSplit, Wave.split_setSplit]

@[simp] theorem Wave.split_raise (w : Wave) (ks : List Nat) (j : Nat) : (w.raise ks).split j = w.split j := by
  simp only [Wave.split, Wave.raise_splits]

@[simp] theorem Wave.split_fall (w : Wave) (ks : List Nat) (j : Nat) : (w.fall ks).split j = w.split j := by
  simp only [Wave.split, Wave.fall_splits]

theorem Wave.lane_setLane (w : Wave) (r l : Nat) (x : Lane) (r' l' : Nat) :
    (w.setLane r l x).lane r' l' = if vKey r' l' = vKey r l then x else w.lane r' l' := by
  simp only [Wave.lane, Wave.setLane, tget_tset]

theorem Wave.xreg_setX (w : Wave) (i : Nat) (v : Word) (j : Nat) : (w.setX i v).xreg j = if j = i then v else w.xreg j := by
  simp only [Wave.xreg, Wave.setX, tget_tset]

end Sys2Proof.Machine
end

