-- ==== Sys2Proof/Laws/Issue.lean ====
section
/-! SUPPORT. What issuing an instruction does, once for all: the state in which it has issued, its results in flight, and
`runInstr` in terms of the instruction's own effect. -/

namespace Sys2Proof.Machine

/- One proof at a time: many at once cost a thread, and its stack, each. -/
set_option Elab.async false

/-- What `sight` says of the wave and the split at issue. -/
theorem sight_some {s : State} {i : Instr} {h : Hints} {q : Iss} (hq : s.sight i h = some q) :
    tfind s.waves q.wid = some q.w ∧ tfind s.teams q.w.team = some q.team ∧ s.gridOf q.w.team = some q.grid
      ∧ q.wid = s.cur.1 ∧ q.split = s.cur.2 ∧ q.pc = (q.w.split q.split).pc ∧ q.mask = (q.w.split q.split).mask
      ∧ q.clk = s.clk (wCore q.wid) ∧ q.seq = q.w.seq ∧ q.word = s.iw ∧ q.cnt = countersOf (classOf i) h
      ∧ q.w.stat = .ready ∧ q.part = q.w.guardMask s.fresh h q.mask ∧ q.fresh = s.fresh := by
  unfold State.sight at hq
  simp only at hq
  split at hq
  · cases hq
  · rename_i w hw
    split at hq
    · rename_i team grid ht hg
      split at hq
      · rename_i hc
        cases hq
        exact ⟨hw, ht, hg, rfl, rfl, rfl, rfl, rfl, rfl, rfl, rfl, hc.1, rfl, rfl⟩
      · cases hq
    · cases hq

theorem State.pmc_waves (s : State) (c e n : Nat) : (s.pmc c e n).waves = s.waves := rfl
theorem State.pmc_phys (s : State) (c e n : Nat) : (s.pmc c e n).phys = s.phys := rfl

/-- Issuing an instruction changes its wave's clock, address and place in issue order, and the scheduler's records; no memory. -/
theorem issued_frame (s : State) (i : Instr) (q : Iss) :
    (s.issued i q).phys = s.phys ∧ (s.issued i q).spCore = s.spCore ∧ (s.issued i q).spClu = s.spClu
      ∧ (s.issued i q).spDie = s.spDie ∧ (s.issued i q).teams = s.teams ∧ (s.issued i q).grids = s.grids
      ∧ (s.issued i q).homes = s.homes ∧ (s.issued i q).homeq = s.homeq ∧ (s.issued i q).portq = s.portq
      ∧ (s.issued i q).windows = s.windows ∧ (s.issued i q).nextId = s.nextId ∧ (s.issued i q).t7 = s.t7
      ∧ (s.issued i q).agenda = s.agenda := by
  unfold State.issued
  simp only
  split <;> exact ⟨rfl, rfl, rfl, rfl, rfl, rfl, rfl, rfl, rfl, rfl, rfl, rfl, rfl⟩

/-- A wave in which an instruction has issued. -/
def issuedWave (q : Iss) : Wave :=
  { (q.w.modSplit q.split fun p => { p with prev := some q.clk, pc := q.pc + 12 }) with
    seq := q.w.seq + 1, code := q.w.code.filter fun e => e.1 % 4 != q.split }

theorem issuedWave_split (q : Iss) (j : Nat) :
    (issuedWave q).split j = if j = q.split then { q.w.split q.split with prev := some q.clk, pc := q.pc + 12 } else q.w.split j :=
  Wave.split_modSplit q.w q.split (fun p => { p with prev := some q.clk, pc := q.pc + 12 }) j

theorem issuedWave_keeps (q : Iss) : q.w.keeps (issuedWave q) := ⟨rfl, rfl, rfl, rfl, rfl, rfl, rfl, rfl, rfl, rfl⟩

theorem issuedWave_newest (q : Iss) (x : Target) : (issuedWave q).newest x = q.w.newest x := by cases x <;> rfl

/-- The waves in which an instruction has issued. -/
theorem issued_waves (s : State) (i : Instr) (q : Iss) : (s.issued i q).waves = tput s.waves q.wid (issuedWave q) := by
  unfold State.issued
  simp only
  split <;> rfl

theorem tfind_issued (s : State) (i : Instr) (q : Iss) (j : Nat) :
    tfind (s.issued i q).waves j = if j = q.wid then some (issuedWave q) else tfind s.waves j := by
  rw [issued_waves, tfind_tput]

/-- `runInstr` of an instruction that issues is its own effect. -/
theorem runInstr_done {s : State} {i : Instr} {h : Hints} {q : Iss} {body : Iss → State → Res} {t : State} (hi : Issues i h s q)
    (hb : body q (s.issued i q) = .done t) : runInstr i h body s = .next t := by
  obtain ⟨h1, h2, h3, h4, h5⟩ := hi
  simp only [runInstr, h1, h2, h3, h4, h5, Bool.false_eq_true, ↓reduceIte, hb]

theorem getLastD_append_cons {α : Type} (a : α) (l m : List α) (d : α) : (l ++ a :: m).getLastD d = (a :: m).getLastD d := by
  rw [List.getLastD_eq_getLast?, List.getLastD_eq_getLast?, List.getLast?_append]
  simp [List.getLast?_cons]

theorem kreg_raise (w : Wave) (ks : List Nat) (hn : ks.Nodup) (hk : ∀ k ∈ ks, w.kreg k < 63) (j : Nat) :
    (w.raise ks).kreg j = w.kreg j + if ks.contains j then 1 else 0 := by
  induction ks generalizing w with
  | nil => simp [Wave.raise]
  | cons k ks ih =>
    have hn' := List.nodup_cons.mp hn
    have one : ∀ j, ({ w with k := tset 0 w.k k (BitVec.ofNat 6 (w.kreg k + 1)) } : Wave).kreg j
        = if j = k then w.kreg k + 1 else w.kreg j := by
      intro j
      have := hk k (by simp)
      by_cases e : j = k
      · subst e
        rw [if_pos rfl]
        simp only [Wave.kreg, tget_tset_self, BitVec.toNat_ofNat] at *
        omega
      · rw [if_neg e]
        simp only [Wave.kreg, tget_tset_ne _ _ _ e]
    simp only [Wave.raise]
    rw [ih _ hn'.2 (by
      intro x hx
      rw [one, if_neg (fun (e : x = k) => hn'.1 (e ▸ hx))]
      exact hk x (by simp [hx])), one]
    by_cases hj : j = k
    · subst hj; simp [hn'.1]
    · simp [hj]

theorem countersOf_nodup (cls : List Nat) (h : Hints) (hc : cls.Nodup) : (countersOf cls h).Nodup := by
  unfold countersOf
  split
  · rename_i hh
    rw [List.nodup_append]
    refine ⟨hc, by simp, ?_⟩
    intro a ha b hb
    simp only [List.mem_singleton] at hb
    subst hb
    intro e
    have := hh.2
    simp_all
  · exact hc

theorem classOf_nodup (i : Instr) : (classOf i).Nodup := by
  unfold classOf
  split <;> (try split) <;> simp

/-- An instruction that issues with a participant finds room in its counters. -/
theorem issues_room {i : Instr} {h : Hints} {s : State} {q : Iss} (hi : Issues i h s q) : ∀ k ∈ q.cnt, q.w.kreg k < 63 := by
  obtain ⟨_, _, h3, h4, _⟩ := hi
  intro k hk
  simp only [heldBack, Bool.or_eq_false_iff, Bool.and_eq_false_iff, bne_eq_false_iff_eq] at h3
  rcases h3.1.1.2 with h | h
  · exact absurd h h4
  · have := List.any_eq_false.mp h k hk
    simpa using this

theorem pending_append (w : Wave) (ps : List Writeback) (x : Target) :
    ({ w with pend := ps } : Wave).pending x = ps.flatMap fun p => (p.writes.filter fun e => e.1 = x).map (·.2) := rfl

/-- Filtering other targets out of what is in flight leaves what is pending for a target. -/
theorem pending_filter (ps : List Writeback) (ts : List Target) (x : Target) (hx : x ∉ ts) (c : Writeback → Prop) [DecidablePred c] :
    (ps.map fun p => if c p then { p with writes := p.writes.filter fun e => !ts.contains e.1 } else p).flatMap
        (fun p => (p.writes.filter fun e => e.1 = x).map (·.2))
      = ps.flatMap fun p => (p.writes.filter fun e => e.1 = x).map (·.2) := by
  induction ps with
  | nil => rfl
  | cons p ps ih =>
    simp only [List.map_cons, List.flatMap_cons, ih]
    congr 1
    split
    · simp only [List.filter_filter]
      congr 1
      apply List.filter_congr
      intro e _
      by_cases he : e.1 = x
      · subst he; simp [hx]
      · simp [he]
    · rfl

/-- The one value that a list of writes holds for a target. -/
theorem filter_writes (ws : List (Target × Nat)) (hn : (ws.map (·.1)).Nodup) (e : Target × Nat) (he : e ∈ ws) :
    (ws.filter fun x => x.1 = e.1).map (·.2) = [e.2] := by
  induction ws with
  | nil => cases he
  | cons a ws ih =>
    simp only [List.map_cons, List.nodup_cons] at hn
    rcases List.mem_cons.mp he with rfl | he
    · have : ws.filter (fun x => x.1 = e.1) = [] := by
        rw [List.filter_eq_nil_iff]
        intro x hx hxe
        exact hn.1 (List.mem_map.mpr ⟨x, hx, by simpa using hxe⟩)
      simp [this]
    · have : a.1 ≠ e.1 := fun h => hn.1 (h ▸ List.mem_map.mpr ⟨e, he, rfl⟩)
      simp [this, ih hn.2 he]

theorem Wave.stored_raise (w : Wave) (ks : List Nat) (x : Target) : (w.raise ks).stored x = w.stored x := by
  cases x <;> simp only [Wave.stored, Wave.lane, Wave.raise_v, Wave.raise_p, Wave.raise_s, Wave.raise_q]

/-- Results written later are the newest values of their targets (R92). -/
theorem newest_later (w : Wave) (ks : List Nat) (c : Writeback → Prop) [DecidablePred c] (ts : List Target) (b : Writeback)
    (hts : ts = b.writes.map (·.1)) (hn : ts.Nodup) (x : Target) :
    let w' := ({ w with pend := (w.pend.map fun p => if c p then { p with writes := p.writes.filter fun e => !ts.contains e.1 } else p)
      ++ [b] } : Wave).raise ks
    (∀ e ∈ b.writes, e.1 = x → w'.newest x = e.2) ∧ ((∀ e ∈ b.writes, e.1 ≠ x) → w'.newest x = w.newest x) := by
  have hp : ∀ v : Wave, (v.raise ks).pending x = v.pending x := by
    intro v; simp only [Wave.pending, Wave.raise_pend]
  refine ⟨?_, ?_⟩
  · intro e he hx
    subst hx
    simp only [Wave.newest, hp]
    simp only [Wave.pending, List.flatMap_append, List.flatMap_cons, List.flatMap_nil, List.append_nil]
    rw [filter_writes b.writes (hts ▸ hn) e he, getLastD_append_cons]
    rfl
  · intro hx
    have hx' : x ∉ ts := by
      subst hts
      intro hm
      obtain ⟨e, he, h⟩ := List.mem_map.mp hm
      exact hx e he h
    simp only [Wave.newest, hp, Wave.stored_raise]
    simp only [Wave.pending, List.flatMap_append, List.flatMap_cons, List.flatMap_nil, List.append_nil]
    rw [pending_filter _ _ _ hx']
    have : b.writes.filter (fun e => decide (e.1 = x)) = [] := by
      rw [List.filter_eq_nil_iff]
      intro e he h
      exact hx e he (by simpa using h)
    rw [this]
    simp only [List.map_nil, List.append_nil]
    cases x <;> rfl

/-- The wave of an instruction whose results are in flight. -/
def laterWave (q : Iss) (lat : Nat) (b : Writeback) : Wave :=
  let w := issuedWave q
  ({ w with pend := (w.pend.map fun p =>
      if p.due ≥ q.clk + lat then { p with writes := p.writes.filter fun e => !(b.writes.map (·.1)).contains e.1 } else p)
    ++ [b] } : Wave).raise q.cnt

theorem laterWave_newest (q : Iss) (lat : Nat) (b : Writeback) (hn : (b.writes.map (·.1)).Nodup) (x : Target) :
    (∀ e ∈ b.writes, e.1 = x → (laterWave q lat b).newest x = e.2)
      ∧ ((∀ e ∈ b.writes, e.1 ≠ x) → (laterWave q lat b).newest x = q.w.newest x) := by
  have := newest_later (issuedWave q) q.cnt (fun p => p.due ≥ q.clk + lat) (b.writes.map (·.1)) b rfl hn x
  rw [issuedWave_newest] at this
  exact this

theorem laterWave_split (q : Iss) (lat : Nat) (b : Writeback) (j : Nat) :
    (laterWave q lat b).split j = (issuedWave q).split j := by
  simp only [laterWave, Wave.split_raise]
  rfl

theorem laterWave_keeps (q : Iss) (lat : Nat) (b : Writeback) : q.w.keeps (laterWave q lat b) := by
  simp only [Wave.keeps, laterWave, Wave.raise_x, Wave.raise_f, Wave.raise_stack, Wave.raise_spilled, Wave.raise_handler,
    Wave.raise_region, Wave.raise_chain, Wave.raise_park, Wave.raise_stat, Wave.raise_sb]
  exact issuedWave_keeps q

/-- The waves after results have been put in flight. -/
theorem tfind_writeLater (s : State) (i : Instr) (q : Iss) (lat : Nat) (ws : List (Target × Nat)) (fl : BitVec 5) (j : Nat) :
    tfind ((s.issued i q).writeLater q lat ws fl q.cnt).waves j =
      if j = q.wid then some (laterWave q lat ⟨(s.issued i q).nextId, q.clk + lat, ws, fl, q.cnt⟩) else tfind s.waves j := by
  simp only [State.writeLater, tfind_modWave]
  split
  · simp only [tfind_issued, ↓reduceIte, Option.map_some]
    rfl
  · simp only [tfind_issued, if_neg ‹_›]

/-- A fixed-latency instruction writes its results and nothing else (R92, R142, R192). -/
theorem wrote_writeLater {i : Instr} {h : Hints} {s : State} {q : Iss} (hi : Issues i h s q) (lat : Nat) (ws : List (Target × Nat))
    (fl : BitVec 5) (hn : (ws.map (·.1)).Nodup) :
    Wrote q (q.pc + 12) ws s ((s.issued i q).writeLater q lat ws fl q.cnt) := by
  obtain ⟨hw, -, -, -, -, -, hmask, -, -, -, hcnt, -, -, -⟩ := sight_some hi.1
  have hf := issued_frame s i q
  have ht := tfind_writeLater s i q lat ws fl
  have hroom := issues_room hi
  have hnd : q.cnt.Nodup := by rw [hcnt]; exact countersOf_nodup _ _ (classOf_nodup i)
  have hphys : ((s.issued i q).writeLater q lat ws fl q.cnt).phys = s.phys := by
    simp only [State.writeLater, State.modWave_phys]; exact hf.1
  refine ⟨⟨fun pa => by rw [hphys], ?_⟩, ?_, ?_, ?_, ?_⟩
  · intro lvl unit off
    have h1 : ((s.issued i q).writeLater q lat ws fl q.cnt).spCore = s.spCore := by
      simp only [State.writeLater, State.modWave_spCore]; exact hf.2.1
    have h2 : ((s.issued i q).writeLater q lat ws fl q.cnt).spClu = s.spClu := by
      simp only [State.writeLater, State.modWave_spClu]; exact hf.2.2.1
    have h3 : ((s.issued i q).writeLater q lat ws fl q.cnt).spDie = s.spDie := by
      simp only [State.writeLater, State.modWave_spDie]; exact hf.2.2.2.1
    unfold State.spByte
    rw [h1, h2, h3]
  · intro k hk
    rw [ht, if_neg hk]
  · intro e he
    unfold State.newest
    rw [ht, if_pos rfl]
    exact (laterWave_newest q lat ⟨_, _, ws, fl, q.cnt⟩ hn e.1).1 e he rfl
  · intro x hx
    unfold State.newest
    rw [ht, if_pos rfl, hw]
    exact (laterWave_newest q lat ⟨_, _, ws, fl, q.cnt⟩ hn x).2 hx
  · refine ⟨_, by rw [ht, if_pos rfl], laterWave_keeps .., ?_, ?_, ?_, ?_⟩
    · rw [laterWave_split, issuedWave_split, if_pos rfl]
    · rw [laterWave_split, issuedWave_split, if_pos rfl, hmask]
    · intro j hj
      rw [laterWave_split, issuedWave_split, if_neg hj]
    · intro k
      refine (kreg_raise _ q.cnt hnd ?_ k).trans ?_
      · exact hroom
      · rfl

end Sys2Proof.Machine
end

