-- ==== Sys2Proof/Laws/Mem.lean ====
section
/-! SUPPORT. Laws of memory and the scratchpads: every operation that writes them keeps their canonical form, and a read after a
write gives what was written where it was written and what stood there elsewhere. -/

namespace Sys2Proof.Machine

/- One proof at a time: many at once cost a thread, and its stack, each. -/
set_option Elab.async false

theorem Phys.wf_iff (p : Phys) : p.wf = true ↔
    twf 0 p.bytes = true ∧ twf 0 p.minor = true ∧ twf 0 p.major = true ∧ twf 0 p.nodes = true := by
  simp [Phys.wf, Bool.and_eq_true, and_assoc]

/-- Cutting a sector out of the runs of saved units leaves every table. -/
theorem Phys.cut_tables (p : Phys) (sector : Nat) : (p.cut sector).bytes = p.bytes ∧ (p.cut sector).minor = p.minor
    ∧ (p.cut sector).major = p.major ∧ (p.cut sector).nodes = p.nodes := by
  unfold Phys.cut; split <;> exact ⟨rfl, rfl, rfl, rfl⟩

theorem Phys.wf_settle {p : Phys} (sector : Nat) (h : p.wf = true) : (p.settle sector).wf = true := by
  rw [Phys.wf_iff] at h
  unfold Phys.settle
  split
  · have hc := Phys.cut_tables p sector
    generalize p.cut sector = q at *
    refine (Phys.wf_iff _).mpr ⟨twf_filter _ h.1, ?_⟩
    rw [hc.2.1, hc.2.2.1, hc.2.2.2]
    exact h.2
  · exact (Phys.wf_iff _).mpr h

theorem Phys.wf_cut {p : Phys} (sector : Nat) (h : p.wf = true) : (p.cut sector).wf = true := by
  have hc := Phys.cut_tables p sector
  rw [Phys.wf_iff] at *
  rw [hc.1, hc.2.1, hc.2.2.1, hc.2.2.2]
  exact h

/-- Setting the counters of a list of keys keeps the canonical form. -/
theorem twf_setAll {α : Type} [DecidableEq α] {d : α} (l : List Nat) (f : Tab α → Nat → α) {m : Tab α} (h : twf d m = true) :
    twf d (l.foldl (fun t k => tset d t k (f t k)) m) = true :=
  twf_foldl l _ (fun _ _ hm => twf_tset _ _ hm) h

theorem Phys.wf_bumpNodes {p : Phys} (ctx leaf : Nat) (h : p.wf = true) : (p.bumpNodes ctx leaf).wf = true := by
  rw [Phys.wf_iff] at h ⊢
  unfold Phys.bumpNodes Phys.bumpNodesBy
  generalize nodeKeys ctx leaf = l
  exact ⟨h.1, h.2.1, h.2.2.1, twf_setAll l _ h.2.2.2⟩

theorem Phys.wf_settles {p : Phys} (l : List Nat) (h : p.wf = true) : (l.foldl Phys.settle p).wf = true := by
  induction l generalizing p with
  | nil => exact h
  | cons k l ih => exact ih (Phys.wf_settle k h)

theorem Phys.wf_countWrite {p : Phys} (ctx sector : Nat) (h : p.wf = true) : (p.countWrite ctx sector).wf = true := by
  unfold Phys.countWrite
  dsimp only
  have h1 := Phys.wf_settle sector h
  generalize ((List.range 64).map fun j => sector / 64 * 64 + j) = l
  generalize p.settle sector = p1 at *
  apply Phys.wf_bumpNodes
  split
  · have h2 := Phys.wf_settles l h1
    rw [Phys.wf_iff] at h2 ⊢
    exact ⟨h2.1, twf_setAll l _ h2.2.1, twf_tset _ _ h2.2.2.1, h2.2.2.2⟩
  · rw [Phys.wf_iff] at h1 ⊢
    exact ⟨h1.1, twf_tset _ _ h1.2.1, h1.2.2⟩

theorem Phys.wf_thaw {p : Phys} (sector : Nat) (h : p.wf = true) : (p.thaw sector).wf = true := by
  unfold Phys.thaw
  split
  · have h1 := Phys.wf_cut sector h
    generalize p.cut sector = q at *
    rw [Phys.wf_iff] at *
    exact ⟨twf_foldl _ _ (fun _ _ hm => twf_tset _ _ hm) h.1, h1.2⟩
  · exact h

theorem Phys.wf_writeBytes {p : Phys} (ctx sector : Nat) (bs : List (Nat × Byte)) (h : p.wf = true) :
    (p.writeBytes ctx sector bs).wf = true := by
  unfold Phys.writeBytes
  have h1 := Phys.wf_countWrite ctx sector (Phys.wf_thaw sector h)
  dsimp only
  generalize (p.thaw sector).countWrite ctx sector = p1 at *
  rw [Phys.wf_iff] at h1 ⊢
  exact ⟨twf_foldl bs _ (fun _ _ hm => twf_tset _ _ hm) h1.1, h1.2⟩

theorem Phys.wf_wipe {p : Phys} (frame : Nat) (h : p.wf = true) : (p.wipe frame).wf = true := by
  rw [Phys.wf_iff] at h
  exact (Phys.wf_iff _).mpr ⟨twf_filter _ h.1, twf_filter _ h.2.1, twf_filter _ h.2.2.1, h.2.2.2⟩

theorem State.memWf_iff (s : State) : s.memWf = true ↔
    s.phys.wf = true ∧ twf 0 s.spCore = true ∧ twf 0 s.spClu = true ∧ twf 0 s.spDie = true := by
  simp [State.memWf, Bool.and_eq_true, and_assoc]

/-- A step that leaves the scratchpads alone and keeps the form of physical memory keeps the form of all. -/
theorem State.memWf_of {s t : State} (h : s.memWf = true) (hp : s.phys.wf = true → t.phys.wf = true) (h0 : t.spCore = s.spCore)
    (h1 : t.spClu = s.spClu) (h2 : t.spDie = s.spDie) : t.memWf = true := by
  rw [State.memWf_iff] at *
  rw [h0, h1, h2]
  exact ⟨hp h.1, h.2⟩

/-- The memory of the machine after reset stands in canonical form. -/
theorem reset_memWf : State.reset.memWf = true := by decide

/-- A key renewal keeps the canonical form (R45). -/
theorem memWf_renewKeys {s : State} (n : Nat) (h : s.memWf = true) : (s.renewKeys n).memWf = true := by
  refine State.memWf_of h (fun hp => ?_) rfl rfl rfl
  unfold State.renewKeys
  rw [Phys.wf_iff] at hp ⊢
  refine ⟨hp.1, twf_foldl _ _ (fun m b hm => ?_) hp.2.1, twf_filter _ hp.2.2.1, twf_map (fun k v => if nodeOver n _ k then 1 else v) (fun k v => ?_) hp.2.2.2⟩
  · split
    · exact hm
    · exact twf_tset _ _ hm
  · intro hv
    split
    · decide
    · exact hv

theorem memWf_amberEvent {s : State} (a b c d : Nat) (h : s.memWf = true) : (s.amberEvent a b c d).memWf = true := h

theorem memWf_renewed {s : State} (n leaf : Nat) (h : s.memWf = true) : (s.renewed n leaf).memWf = true := by
  unfold State.renewed
  split
  · have h1 := memWf_renewKeys n h
    generalize s.renewKeys n = t at *
    refine memWf_amberEvent _ _ _ _ (State.memWf_of h1 (fun hp => ?_) rfl rfl rfl)
    generalize nodeKeys n leaf = l
    rw [Phys.wf_iff] at hp ⊢
    exact ⟨hp.1, hp.2.1, hp.2.2.1, twf_setAll l (fun _ _ => 1) hp.2.2.2⟩
  · exact h

/-- Sealing a sector keeps the canonical form. -/
theorem memWf_seal {s : State} (pa key : Nat) (h : s.memWf = true) : (s.seal pa key).memWf = true := by
  unfold State.seal State.setSeal
  dsimp only
  split
  · exact h
  · split <;> exact State.memWf_of h (fun hp => by rw [Phys.wf_iff] at hp ⊢; exact hp) rfl rfl rfl

/-- A fold of operations that keep the canonical form keeps it. -/
theorem memWf_foldl {β : Type} (l : List β) (f : State → β → State) (hf : ∀ s b, s.memWf = true → (f s b).memWf = true) {s : State}
    (h : s.memWf = true) : (l.foldl f s).memWf = true := by
  induction l generalizing s with
  | nil => exact h
  | cons b l ih => exact ih (hf s b h)

/-- Clearing a frame keeps the canonical form (R46). -/
theorem memWf_clearFrame {s : State} (n frame : Nat) (h : s.memWf = true) : (s.clearFrame n frame).memWf = true := by
  unfold State.clearFrame
  dsimp only
  generalize s.cell (frame * 65536) / 65536 = c
  generalize List.range 32 = l
  refine memWf_foldl l _ (fun u j hu => ?_) (State.memWf_of h (Phys.wf_wipe c) rfl rfl rfl)
  exact State.memWf_of (memWf_renewed n _ hu) (Phys.wf_bumpNodes n _) rfl rfl rfl

/-- Writing part of a sector keeps the canonical form (R44). -/
theorem memWf_sectorWrite {s : State} (sector key : Nat) (bs : List (Nat × Byte)) (h : s.memWf = true) :
    (s.sectorWrite sector key bs).memWf = true := by
  unfold State.sectorWrite
  dsimp only
  generalize s.spot (sector * 32) / 32 = sec
  generalize s.ownerCtx (s.place (sector * 32)) = n
  have h1 := memWf_renewed n (sec / 64) h
  generalize s.renewed n (sec / 64) = u at *
  have h2 : (if (bs.length = 32 || u.phys.zero sec) = true then u.seal (sector * 32) key else u).memWf = true := by
    split
    · exact memWf_seal _ _ h1
    · exact h1
  generalize (if (bs.length = 32 || u.phys.zero sec) = true then u.seal (sector * 32) key else u) = v at *
  refine State.memWf_of h2 (fun hp => ?_) rfl rfl rfl
  have h3 := Phys.wf_writeBytes n sec bs hp
  dsimp only
  generalize v.phys.writeBytes n sec bs = p at *
  split
  · rw [Phys.wf_iff] at h3 ⊢; exact h3
  · exact h3

/-- Writing bytes upward keeps the canonical form. -/
theorem memWf_physWrite {s : State} (pa key : Nat) (bs : List Byte) (h : s.memWf = true) : (s.physWrite pa key bs).memWf = true :=
  memWf_foldl _ _ (fun _ _ hm => memWf_sectorWrite _ _ _ hm) h

/-- Writing a scratchpad byte keeps the canonical form. -/
theorem memWf_setSpByte {s : State} (lvl unit off : Nat) (b : Byte) (h : s.memWf = true) : (s.setSpByte lvl unit off b).memWf = true := by
  rw [State.memWf_iff] at *
  unfold State.setSpByte
  split
  · exact ⟨h.1, twf_tset _ _ h.2.1, h.2.2⟩
  · exact ⟨h.1, h.2.1, twf_tset _ _ h.2.2.1, h.2.2.2⟩
  · exact ⟨h.1, h.2.1, h.2.2.1, twf_tset _ _ h.2.2.2⟩

theorem memWf_spWrite {s : State} (lvl unit off : Nat) (bs : List Byte) (h : s.memWf = true) : (s.spWrite lvl unit off bs).memWf = true := by
  induction bs generalizing s off with
  | nil => exact h
  | cons b bs ih => exact ih (off + 1) (memWf_setSpByte _ _ _ _ h)

theorem memWf_setSpTab {s : State} (lvl : Nat) (t : Tab Byte) (h : s.memWf = true) (ht : twf 0 t = true) : (s.setSpTab lvl t).memWf = true := by
  rw [State.memWf_iff] at *
  unfold State.setSpTab
  split
  · exact ⟨h.1, ht, h.2.2⟩
  · exact ⟨h.1, h.2.1, ht, h.2.2.2⟩
  · exact ⟨h.1, h.2.1, h.2.2.1, ht⟩

theorem twf_spTab {s : State} (lvl : Nat) (h : s.memWf = true) : twf 0 (s.spTab lvl) = true := by
  rw [State.memWf_iff] at h
  unfold State.spTab
  split
  · exact h.2.1
  · exact h.2.2.1
  · exact h.2.2.2

/-- Zeroing an allocation keeps the canonical form. -/
theorem memWf_spZero {s : State} (lvl unit off n : Nat) (h : s.memWf = true) : (s.spZero lvl unit off n).memWf = true :=
  memWf_setSpTab _ _ h (twf_filter _ (twf_spTab lvl h))

/-- Filling an allocation keeps the canonical form. -/
theorem memWf_spLoad {s : State} (lvl unit off n : Nat) (img : Tab Byte) (h : s.memWf = true) :
    (s.spLoad lvl unit off n img).memWf = true :=
  memWf_setSpTab _ _ (memWf_spZero _ _ _ _ h)
    (twf_foldl _ _ (fun _ _ hm => twf_tset _ _ hm) (twf_spTab lvl (memWf_spZero _ _ _ _ h)))

/-- Reading a scratchpad byte after writing one of the same unit. -/
theorem spByte_setSpByte (s : State) (lvl unit off : Nat) (b : Byte) (o : Nat) :
    (s.setSpByte lvl unit off b).spByte lvl unit o = if o = off then b else s.spByte lvl unit o := by
  rcases lvl with _ | _ | lvl <;> simp only [State.setSpByte, State.spByte, tget_tset, Nat.add_left_cancel_iff]

/-- Writing the scratchpad of one level leaves the other levels. -/
theorem spByte_setSpByte_level (s : State) {lvl m : Nat} (unit off : Nat) (b : Byte) (u o : Nat) (h : min m 2 ≠ min lvl 2) :
    (s.setSpByte lvl unit off b).spByte m u o = s.spByte m u o := by
  rcases lvl with _ | _ | _ <;> rcases m with _ | _ | _ <;>
    first | rfl | (exact absurd (by omega) h)

/-- Reading a scratchpad byte of a unit after writing bytes upward in it. -/
theorem spByte_spWrite (s : State) (lvl unit off : Nat) (bs : List Byte) (o : Nat) :
    (s.spWrite lvl unit off bs).spByte lvl unit o
      = if off ≤ o ∧ o < off + bs.length then bs.getD (o - off) 0 else s.spByte lvl unit o := by
  induction bs generalizing s off with
  | nil => rw [if_neg (by simp)]; rfl
  | cons b bs ih =>
    rw [State.spWrite, ih, spByte_setSpByte]
    simp only [List.length_cons]
    by_cases h : o = off
    · subst h; rw [if_neg (by omega), if_pos rfl, if_pos (by omega)]; simp
    · rw [if_neg h]
      by_cases h2 : off + 1 ≤ o ∧ o < off + 1 + bs.length
      · rw [if_pos h2, if_pos (by omega), show o - off = (o - (off + 1)) + 1 by omega]; simp
      · rw [if_neg h2, if_neg (by omega)]

/-- Reading a table whose keys were filtered. -/
theorem tget_filter_key {α : Type} (d : α) (m : Tab α) (P : Nat → Bool) (k : Nat) :
    tget d (m.filter fun e => P e.1) k = if P k then tget d m k else d := by
  induction m with
  | nil => simp [tget]
  | cons e m ih =>
    obtain ⟨k', v⟩ := e
    simp only [List.filter_cons]
    by_cases h : k' = k
    · subst h
      by_cases hp : P k' = true
      · simp [hp, tget]
      · rw [if_neg hp, ih]; simp [hp]
    · by_cases hp : P k' = true
      · simp only [hp, if_true, tget, h, if_false, ih]
      · rw [if_neg hp, ih]; simp [tget, h]

theorem runByte_append (l m : List (Nat × Nat × Nat)) (pa : Nat) : runByte (l ++ m) pa = (runByte l pa).or (runByte m pa) := by
  simp only [runByte, List.find?_append]
  cases l.find? (inRun (pa / 32)) <;> rfl

/-- Runs of no sector hold no byte. -/
theorem runByte_filter (l : List (Nat × Nat × Nat)) (pa : Nat) : runByte (l.filter fun r => r.2.1 != 0) pa = runByte l pa := by
  have h : ∀ r : Nat × Nat × Nat, ((r.2.1 != 0) && inRun (pa / 32) r) = inRun (pa / 32) r := by
    intro r
    by_cases hr : r.2.1 = 0
    · simp [inRun, hr]
    · simp [hr]
  have h2 : ∀ r : Nat × Nat × Nat, decide ((r.2.1 != 0) = true ∧ inRun (pa / 32) r = true) = inRun (pa / 32) r := fun r => by
    rw [Bool.decide_and, Bool.decide_eq_true, Bool.decide_eq_true]; exact h r
  simp only [runByte, List.find?_filter, h2]

/-- A run without a sector holds no byte of it, and its other bytes. -/
theorem runByte_cutRun (sector pa : Nat) (r : Nat × Nat × Nat) :
    runByte (cutRun sector r) pa = if pa / 32 = sector then none else runByte [r] pa := by
  obtain ⟨a, n, st⟩ := r
  unfold cutRun runByte inRun
  by_cases hin : a ≤ sector ∧ sector < a + n
  · simp only [hin.1, hin.2, decide_true, Bool.and_self, if_true]
    by_cases hs : pa / 32 = sector
    · have e1 : ¬ pa / 32 < a + (sector - a) := by omega
      have e2 : ¬ sector + 1 ≤ pa / 32 := by omega
      simp [hs, show ¬ sector < a + (sector - a) by omega]
    · rw [if_neg hs]
      by_cases h1 : a ≤ pa / 32 ∧ pa / 32 < sector
      · simp [h1.1, show pa / 32 < a + (sector - a) by omega, show pa / 32 < a + n by omega]
      · have e1 : (decide (a ≤ pa / 32) && decide (pa / 32 < a + (sector - a))) = false := by
          simp only [Bool.and_eq_false_imp, decide_eq_true_eq, decide_eq_false_iff_not]; omega
        simp only [List.find?_cons, e1, List.find?_nil]
        by_cases h2 : sector + 1 ≤ pa / 32 ∧ pa / 32 < a + n
        · have e2 : pa / 32 < sector + 1 + (a + n - (sector + 1)) := by omega
          have e3 : a ≤ pa / 32 := by omega
          simp only [h2.1, e2, e3, h2.2, decide_true, Bool.and_self, Option.map_some]
          rw [show st + 32 * (sector + 1 - a) + (pa - 32 * (sector + 1)) = st + (pa - 32 * a) by omega]
        · have e2 : (decide (sector + 1 ≤ pa / 32) && decide (pa / 32 < sector + 1 + (a + n - (sector + 1)))) = false := by
            simp only [Bool.and_eq_false_imp, decide_eq_true_eq, decide_eq_false_iff_not]; omega
          have e3 : (decide (a ≤ pa / 32) && decide (pa / 32 < a + n)) = false := by
            simp only [Bool.and_eq_false_imp, decide_eq_true_eq, decide_eq_false_iff_not]; omega
          simp only [e2, e3]
  · have e : (decide (a ≤ sector) && decide (sector < a + n)) = false := by
      simp only [Bool.and_eq_false_imp, decide_eq_true_eq, decide_eq_false_iff_not]; omega
    simp only [e, Bool.false_eq_true, if_false]
    by_cases hs : pa / 32 = sector
    · subst hs; simp [e]
    · rw [if_neg hs]

theorem runByte_cutRuns (sector pa : Nat) (l : List (Nat × Nat × Nat)) :
    runByte (l.flatMap (cutRun sector)) pa = if pa / 32 = sector then none else runByte l pa := by
  induction l with
  | nil => simp [runByte]
  | cons r l ih =>
    rw [List.flatMap_cons, runByte_append, runByte_cutRun, ih, show r :: l = [r] ++ l from rfl, runByte_append]
    split <;> rfl

/-- A run that does not hold a sector holds no byte of it. -/
theorem runByte_none {l : List (Nat × Nat × Nat)} {sector pa : Nat} (h : l.any (inRun sector) = false) (hs : pa / 32 = sector) :
    runByte l pa = none := by
  subst hs
  rw [runByte, Option.map_eq_none_iff, List.find?_eq_none]
  simpa using h

/-- What the runs of saved units hold once a sector has been cut out of them. -/
theorem Phys.runs_cut (p : Phys) (sector pa : Nat) : runByte (p.cut sector).saved pa = if pa / 32 = sector then none else runByte p.saved pa := by
  unfold Phys.cut
  split
  · rw [runByte_filter, runByte_cutRuns]
  · rename_i h
    split
    · exact runByte_none (by simpa using h) ‹_›
    · rfl

theorem Phys.zero_congr {p q : Phys} (h1 : q.minor = p.minor) (h2 : q.major = p.major) (k : Nat) : q.zero k = p.zero k := by
  unfold Phys.zero; rw [h1, h2]

theorem Phys.zero_settle (p : Phys) (sector k : Nat) : (p.settle sector).zero k = p.zero k := by
  have hc := Phys.cut_tables p sector
  unfold Phys.settle
  split
  · exact Phys.zero_congr hc.2.1 hc.2.2.1 k
  · rfl

/-- What a settled sector lists and what the runs hold: a sector that reads as zeros has neither. -/
theorem Phys.parts_settle (p : Phys) (sector pa : Nat) :
    (runByte (p.settle sector).saved pa).getD (tget 0 (p.settle sector).bytes pa)
      = if pa / 32 = sector then p.byte pa else (runByte p.saved pa).getD (tget 0 p.bytes pa) := by
  have hr := Phys.runs_cut p sector pa
  unfold Phys.settle Phys.byte
  split
  · rename_i hz
    dsimp only
    rw [hr, tget_filter_key 0 p.bytes (fun a => a / 32 != sector)]
    by_cases h : pa / 32 = sector
    · simp [h, hz]
    · simp [h]
  · rename_i hz
    by_cases h : pa / 32 = sector
    · subst h; simp [hz]
    · simp [h]

theorem Phys.byte_settle (p : Phys) (sector pa : Nat) : (p.settle sector).byte pa = p.byte pa := by
  have hb := Phys.parts_settle p sector pa
  rw [Phys.byte, Phys.zero_settle, hb, Phys.byte]
  by_cases hz : p.zero (pa / 32) = true
  · simp [hz]
  · simp [hz]

theorem Phys.counters_settles (p : Phys) (l : List Nat) : (l.foldl Phys.settle p).minor = p.minor ∧ (l.foldl Phys.settle p).major = p.major := by
  induction l generalizing p with
  | nil => exact ⟨rfl, rfl⟩
  | cons k l ih =>
    have hc := Phys.cut_tables p k
    have h : (p.settle k).minor = p.minor ∧ (p.settle k).major = p.major := by
      unfold Phys.settle
      split
      · exact ⟨hc.2.1, hc.2.2.1⟩
      · exact ⟨rfl, rfl⟩
    rw [List.foldl_cons]; exact ⟨(ih _).1.trans h.1, (ih _).2.trans h.2⟩

theorem Phys.byte_settles (p : Phys) (l : List Nat) (pa : Nat) : (l.foldl Phys.settle p).byte pa = p.byte pa := by
  induction l generalizing p with
  | nil => rfl
  | cons k l ih => rw [List.foldl_cons, ih, Phys.byte_settle]

theorem Phys.parts_settles (p : Phys) (l : List Nat) (pa : Nat) :
    (runByte (l.foldl Phys.settle p).saved pa).getD (tget 0 (l.foldl Phys.settle p).bytes pa)
      = if pa / 32 ∈ l then p.byte pa else (runByte p.saved pa).getD (tget 0 p.bytes pa) := by
  induction l generalizing p with
  | nil => simp
  | cons k l ih =>
    rw [List.foldl_cons, ih, Phys.byte_settle, Phys.parts_settle]
    by_cases h : pa / 32 ∈ l
    · simp [h]
    · by_cases h2 : pa / 32 = k <;> simp [h, h2]

theorem Phys.byte_bumpNodes (p : Phys) (ctx leaf pa : Nat) : (p.bumpNodes ctx leaf).byte pa = p.byte pa := by
  unfold Phys.bumpNodes Phys.bumpNodesBy
  generalize nodeKeys ctx leaf = l
  rfl

theorem Phys.saved_bumpNodes (p : Phys) (ctx leaf : Nat) : (p.bumpNodes ctx leaf).saved = p.saved := by
  unfold Phys.bumpNodes Phys.bumpNodesBy
  generalize nodeKeys ctx leaf = l
  rfl

theorem tget_setAll {α : Type} [DecidableEq α] (d v : α) (l : List Nat) (m : Tab α) (k : Nat) :
    tget d (l.foldl (fun t k => tset d t k v) m) k = if k ∈ l then v else tget d m k := by
  induction l generalizing m with
  | nil => simp
  | cons j l ih =>
    rw [List.foldl_cons, ih, tget_tset]
    by_cases h : k ∈ l
    · simp [h]
    · by_cases h2 : k = j <;> simp [h, h2]

/-- The sectors of a leaf (R43). -/
theorem mem_leaf (sector k : Nat) : k ∈ ((List.range 64).map fun j => sector / 64 * 64 + j) ↔ k / 64 = sector / 64 := by
  simp only [List.mem_map, List.mem_range]
  constructor
  · rintro ⟨j, hj, rfl⟩; omega
  · intro h; exact ⟨k % 64, Nat.mod_lt _ (by omega), by omega⟩

/-- Counting a write leaves what every byte reads as; afterwards the sector is no longer one that reads as zeros, and its listed bytes
are what it reads as (R44, R46). -/
theorem Phys.byte_countWrite (p : Phys) (ctx sector : Nat) :
    (∀ pa, (p.countWrite ctx sector).byte pa = p.byte pa) ∧ (p.countWrite ctx sector).zero sector = false := by
  unfold Phys.countWrite
  dsimp only
  have hb := Phys.parts_settle p sector
  have hz := Phys.zero_settle p sector
  have hy := Phys.byte_settle p sector
  have hm := mem_leaf sector
  generalize ((List.range 64).map fun j => sector / 64 * 64 + j) = l at *
  by_cases h127 : tget (0 : BitVec 7) (p.settle sector).minor sector = 127
  · rw [if_pos h127]
    have c := Phys.counters_settles (p.settle sector) l
    have b := Phys.parts_settles (p.settle sector) l
    have y := Phys.byte_settles (p.settle sector) l
    generalize l.foldl Phys.settle (p.settle sector) = p2 at *
    have zero' : ∀ k, Phys.zero (Phys.bumpNodes { p2 with
        major := tset 0 p2.major (sector / 64) (tget 0 p2.major (sector / 64) + 1),
        minor := l.foldl (fun t k => tset 0 t k 1) p2.minor } ctx (sector / 64)) k
        = if k / 64 = sector / 64 then false else p2.zero k := by
      intro k
      simp only [Phys.bumpNodes, Phys.bumpNodesBy, Phys.zero, tget_setAll, tget_tset, hm]
      by_cases hk : k / 64 = sector / 64
      · simp [hk]
      · simp [hk]
    refine ⟨fun pa => ?_, by rw [zero']; simp⟩
    rw [Phys.byte, zero']
    have hbytes : ∀ (q : Phys) n c l2, (Phys.bumpNodes { q with major := n, minor := c } ctx l2).bytes = q.bytes := fun _ _ _ _ => rfl
    have hruns : ∀ (q : Phys) n c l2, (Phys.bumpNodes { q with major := n, minor := c } ctx l2).saved = q.saved := fun _ _ _ _ => rfl
    rw [hbytes, hruns]
    by_cases hk : pa / 32 / 64 = sector / 64
    · rw [if_pos hk, b, if_pos ((hm _).mpr hk), hy]; simp
    · rw [if_neg hk, ← hy, ← y, Phys.byte]
  · rw [if_neg h127]
    generalize hp1 : p.settle sector = p1 at *
    have hne : tget (0 : BitVec 7) p1.minor sector + 1 ≠ 0 := by
      intro h; apply h127; generalize tget (0 : BitVec 7) p1.minor sector = x at *; revert h; revert x; decide
    have zero' : ∀ k, Phys.zero (Phys.bumpNodes { p1 with minor := tset 0 p1.minor sector (tget 0 p1.minor sector + 1) } ctx (sector / 64)) k
        = if k = sector then false else p1.zero k := by
      intro k
      simp only [Phys.bumpNodes, Phys.bumpNodesBy, Phys.zero, tget_tset]
      by_cases hk : k = sector
      · simp only [hk, if_true, Bool.and_eq_false_imp, beq_iff_eq]; exact fun h => absurd h hne
      · simp [hk]
    refine ⟨fun pa => ?_, by rw [zero']; simp⟩
    rw [Phys.byte, zero']
    have hbytes : ∀ (q : Phys) c l2, (Phys.bumpNodes { q with minor := c } ctx l2).bytes = q.bytes := fun _ _ _ => rfl
    have hruns : ∀ (q : Phys) c l2, (Phys.bumpNodes { q with minor := c } ctx l2).saved = q.saved := fun _ _ _ => rfl
    rw [hbytes, hruns]
    by_cases hk : pa / 32 = sector
    · rw [if_pos hk, hb, if_pos hk]; simp
    · rw [if_neg hk, ← hy, Phys.byte]

theorem tget_setBytes (m : Tab Byte) (base : Nat) (bs : List (Nat × Byte)) (a : Nat) (h : ∀ e ∈ bs, base + e.1 ≠ a) :
    tget 0 (bs.foldl (fun b e => tset 0 b (base + e.1) e.2) m) a = tget 0 m a := by
  induction bs generalizing m with
  | nil => rfl
  | cons e bs ih =>
    rw [List.foldl_cons, ih _ (fun x hx => h x (List.mem_cons_of_mem _ hx)), tget_tset_ne _ _ _ (Ne.symm (h e List.mem_cons_self))]

theorem tget_setFold (m : Tab Byte) (base n : Nat) (v : Nat → Byte) (pa : Nat) :
    tget 0 ((List.range n).foldl (fun t i => tset 0 t (base + i) (v i)) m) pa
      = if base ≤ pa ∧ pa < base + n then v (pa - base) else tget 0 m pa := by
  induction n with
  | zero => rw [if_neg (by omega)]; rfl
  | succ n ih =>
    rw [List.range_succ, List.foldl_append, List.foldl_cons, List.foldl_nil, tget_tset, ih]
    by_cases h : pa = base + n
    · subst h; simp
    · rw [if_neg h]
      by_cases h2 : base ≤ pa ∧ pa < base + n
      · rw [if_pos h2, if_pos (by omega)]
      · rw [if_neg h2, if_neg (by omega)]

/-- Taking a sector out of a run of saved units leaves what every byte reads as, and no run holds the sector any longer. -/
theorem Phys.byte_thaw (p : Phys) (sector : Nat) :
    (∀ pa, (p.thaw sector).byte pa = p.byte pa) ∧ ∀ pa, pa / 32 = sector → runByte (p.thaw sector).saved pa = none := by
  unfold Phys.thaw
  split
  · have hc := Phys.cut_tables p sector
    have hr := Phys.runs_cut p sector
    generalize p.cut sector = q at *
    refine ⟨fun pa => ?_, fun pa h => by rw [hr, if_pos h]⟩
    have hz : Phys.zero { q with bytes := (List.range 32).foldl (fun t i => tset 0 t (sector * 32 + i) (p.byte (sector * 32 + i))) p.bytes } (pa / 32)
        = p.zero (pa / 32) := Phys.zero_congr hc.2.1 hc.2.2.1 _
    rw [Phys.byte, hz, hr, tget_setFold]
    by_cases h0 : p.zero (pa / 32) = true
    · simp [Phys.byte, h0]
    · simp only [h0, Bool.false_eq_true, if_false]
      by_cases h : pa / 32 = sector
      · simp only [h, show sector * 32 ≤ pa ∧ pa < sector * 32 + 32 by omega, show sector * 32 + (pa - sector * 32) = pa by omega, if_true,
          and_self, Option.getD_none, Phys.byte, h ▸ h0, Bool.false_eq_true, if_false]
      · simp only [h, show ¬ (sector * 32 ≤ pa ∧ pa < sector * 32 + 32) by omega, if_false, Phys.byte, h0, Bool.false_eq_true]
  · rename_i h
    exact ⟨fun _ => rfl, fun pa hp => runByte_none (by simpa using h) hp⟩

theorem runByte_settle {p : Phys} {pa : Nat} (k : Nat) (h : runByte p.saved pa = none) : runByte (p.settle k).saved pa = none := by
  have hr := Phys.runs_cut p k pa
  unfold Phys.settle
  split
  · rw [hr]; split <;> first | rfl | exact h
  · exact h

theorem runByte_settles {p : Phys} {pa : Nat} (l : List Nat) (h : runByte p.saved pa = none) : runByte (l.foldl Phys.settle p).saved pa = none := by
  induction l generalizing p with
  | nil => exact h
  | cons k l ih => exact ih (runByte_settle k h)

theorem runByte_countWrite {p : Phys} {pa : Nat} (ctx sector : Nat) (h : runByte p.saved pa = none) :
    runByte (p.countWrite ctx sector).saved pa = none := by
  unfold Phys.countWrite
  dsimp only
  have h1 := runByte_settle sector h
  generalize p.settle sector = p1 at *
  generalize ((List.range 64).map fun j => sector / 64 * 64 + j) = l
  rw [Phys.saved_bumpNodes]
  split
  · exact runByte_settles l h1
  · exact h1

/-- Reading a byte after a write of part of a sector, where the write does not reach (R44). -/
theorem Phys.byte_writeBytes_ne (p : Phys) (ctx sector : Nat) (bs : List (Nat × Byte)) (pa : Nat)
    (h : ∀ e ∈ bs, sector * 32 + e.1 ≠ pa) : (p.writeBytes ctx sector bs).byte pa = p.byte pa := by
  unfold Phys.writeBytes
  have hc := (Phys.byte_countWrite (p.thaw sector) ctx sector).1 pa
  rw [(Phys.byte_thaw p sector).1] at hc
  generalize (p.thaw sector).countWrite ctx sector = p1 at *
  dsimp only
  have hz : ∀ q : Phys, ∀ b, Phys.zero { q with bytes := b } = q.zero := fun _ _ => rfl
  rw [← hc, Phys.byte, Phys.byte, hz, tget_setBytes _ _ _ _ h]

/-- Reading a byte after a write of it: the byte written (R44). -/
theorem Phys.byte_writeBytes_at (p : Phys) (ctx sector : Nat) (bs : List (Nat × Byte)) (k : Nat) (b : Byte) (hk : k < 32) (hb : (k, b) ∈ bs)
    (hn : (bs.map (·.1)).Nodup) : (p.writeBytes ctx sector bs).byte (sector * 32 + k) = b := by
  unfold Phys.writeBytes
  have hc := (Phys.byte_countWrite (p.thaw sector) ctx sector).2
  have hr := runByte_countWrite ctx sector ((Phys.byte_thaw p sector).2 (sector * 32 + k) (by omega))
  generalize (p.thaw sector).countWrite ctx sector = p1 at *
  dsimp only
  have hz : ∀ q : Phys, ∀ c, Phys.zero { q with bytes := c } = q.zero := fun _ _ => rfl
  rw [Phys.byte, hz, show (sector * 32 + k) / 32 = sector by omega, hc, hr]
  simp only [Bool.false_eq_true, if_false, Option.getD_none]
  generalize p1.bytes = m
  clear hc hz hr
  induction bs generalizing m with
  | nil => exact absurd hb (by simp)
  | cons e bs ih =>
    rw [List.foldl_cons]
    have hn2 := List.nodup_cons.mp (by simpa using hn : (e.1 :: bs.map (·.1)).Nodup)
    rcases List.mem_cons.mp hb with rfl | hb2
    · rw [tget_setBytes _ _ _ _ (fun x hx hh => hn2.1 (List.mem_map.mpr ⟨x, hx, by omega⟩)), tget_tset_self]
    · exact ih hb2 hn2.2 _

end Sys2Proof.Machine
end

