-- ==== Sys2Proof/Laws/Trap.lean ====
section
/-! SUPPORT. What taking a trap, and returning from one, do: once for every instruction and event that traps (R313 to R316). -/

namespace Sys2Proof.Machine

/- One proof at a time: many at once cost a thread, and its stack, each. -/
set_option Elab.async false

/-- Closing a region: the wave's region ends and its buffered stores become ordinary ones; memory and the other waves stand (R220). -/
theorem closeRegion_spec (s : State) (wid : Nat) {w : Wave} (hw : tfind s.waves wid = some w) :
    (s.closeRegion wid).phys = s.phys ∧ (s.closeRegion wid).spCore = s.spCore ∧ (s.closeRegion wid).spClu = s.spClu
      ∧ (s.closeRegion wid).spDie = s.spDie ∧ (s.closeRegion wid).teams = s.teams ∧ (s.closeRegion wid).grids = s.grids
      ∧ ∀ j, tfind (s.closeRegion wid).waves j = if j = wid then
          some { w with region := none, reqs := w.reqs.map fun r => { r with rtag := none },
                        sb := w.sb.map fun e => { e with bytes := e.bytes.map fun b => { b with rtag := none } } }
        else tfind s.waves j := by
  unfold State.closeRegion State.modWave State.setWave
  simp only [hw]
  exact ⟨trivial, trivial, trivial, trivial, trivial, trivial, fun j => tfind_tput _ _ _ _⟩

/-- A trap of a wave that is READY and out of its handler, from a live split that no handler holds, enters the handler; one that names
no record of its team's log enters as it is (R313, R320). -/
theorem takeTrap_enters {s : State} {wid : Nat} {t : TrapInfo} {w : Wave} {g : Grid} (hw : tfind s.waves wid = some w)
    (hr : w.stat = .ready) (hl : (w.split t.split).live = true) (ht : (w.split t.split).trapHeld = false) (hh : w.handler = none)
    (hg : s.gridOf w.team = some g) (h0 : g.eff.traph ≠ 0) (hb : badTraph g.eff.traph = false) (hc : t.cause ≠ 0x6F) :
    s.takeTrap wid t = s.enterHandler wid t g.eff.traph := by
  simp only [State.takeTrap, hw, hr, hl, ht, hh, hg, hb, ne_eq, not_true_eq_false, Bool.false_eq_true, Bool.not_true, or_self, if_false,
    Option.isSome_none, false_or, reduceCtorEq]
  rw [if_neg h0, State.takeRecord, if_pos hc]

/-- A trap of a wave that is not READY is held (R316). -/
theorem takeTrap_held {s : State} {wid : Nat} {t : TrapInfo} {w : Wave} (hw : tfind s.waves wid = some w) (hx : w.stat ≠ .exited)
    (hr : w.stat ≠ .ready) : s.takeTrap wid t = s.setWave wid (w.hold (s.clk (wCore wid)) t) := by
  simp [State.takeTrap, hw, hx, hr]

/-- A trap of an operation that has issued is held until the wave issues again, unless a handler split raises it (R316). -/
theorem raiseTrap_held {s : State} {wid : Nat} {t : TrapInfo} {w : Wave} (hw : tfind s.waves wid = some w) (hx : w.stat ≠ .exited)
    (hh : w.handler = none) : s.raiseTrap wid t = s.setWave wid (w.hold (s.clk (wCore wid)) t) := by
  simp [State.raiseTrap, hw, hx, hh]

/-- The oldest held trap of a wave that is READY and out of its handler is taken (R316). -/
theorem takeHeld_due {s : State} {wid : Nat} {w : Wave} {e : Nat × TrapInfo} {l : List (Nat × TrapInfo)} (hw : tfind s.waves wid = some w)
    (hr : w.stat = .ready) (hh : w.handler = none) (hl : w.heldTraps = e :: l) :
    s.takeHeld wid = (s.setWave wid { w with heldTraps := l }).takeTrap wid e.2 := by
  simp [State.takeHeld, Wave.trapDue, hw, hr, hh, hl]

/-- Entering the handler leaves memory, the scratchpads and every other wave alone. -/
theorem enterHandler_frame (s : State) (wid : Nat) (t : TrapInfo) (a : DWord) {w : Wave} (hw : tfind s.waves wid = some w) :
    (s.enterHandler wid t a).phys = s.phys ∧ (s.enterHandler wid t a).spCore = s.spCore
      ∧ (s.enterHandler wid t a).spClu = s.spClu ∧ (s.enterHandler wid t a).spDie = s.spDie
      ∧ ∀ j, j ≠ wid → tfind (s.enterHandler wid t a).waves j = tfind s.waves j := by
  obtain ⟨c1, c2, c3, c4, -, -, c7⟩ := closeRegion_spec s wid hw
  unfold State.enterHandler
  simp only [hw]
  by_cases hr : w.region.isSome = true
  · simp only [hr, if_true]
    unfold State.modWave State.setWave
    rw [c7 wid, if_pos rfl]
    exact ⟨c1, c2, c3, c4, fun j hj => by rw [tfind_tput_ne _ _ hj, c7 j, if_neg hj]⟩
  · simp only [hr, Bool.false_eq_true, if_false]
    clear c1 c2 c3 c4 c7
    unfold State.modWave State.setWave
    rw [hw]
    exact ⟨rfl, rfl, rfl, rfl, fun j hj => tfind_tput_ne _ _ hj⟩

/-- The trap registers that entry writes, in the order of their numbers (R314). -/
def trapRegs (t : TrapInfo) (mask : Word) (region : Bool) : List (Nat × Word) :=
  let tpc := if t.after then t.pc + 12 else t.pc
  [(32, t.cause.setWidth 32 ||| (t.origin.setWidth 32 <<< 8) ||| (if region then 0x10000 else 0)),
   (33, tpc.extractLsb' 0 32), (34, (tpc.extractLsb' 32 24).setWidth 32), (35, t.addr.extractLsb' 0 32),
   (36, t.addr.extractLsb' 32 32), (37, t.arg), (38, t.lanes), (39, mask), (40, t.word.extractLsb' 0 32),
   (41, t.word.extractLsb' 32 32), (42, t.word.extractLsb' 64 32), (43, BitVec.ofNat 32 t.split)]

theorem foldl_setX (xs : List (Nat × Word)) (w : Wave) : xs.foldl (fun w e => w.setX e.1 e.2) w
    = { w with x := xs.foldl (fun x e => tset 0 x e.1 e.2) w.x } := by
  induction xs generalizing w with
  | nil => rfl
  | cons e xs ih => rw [List.foldl_cons, ih, List.foldl_cons]; rfl

theorem tget_foldl_tset {α : Type} [DecidableEq α] (d : α) (xs : List (Nat × α)) (m : Tab α) (k : Nat) :
    tget d (xs.foldl (fun x e => tset d x e.1 e.2) m) k = ((xs.filter fun e => e.1 == k).map (·.2)).getLastD (tget d m k) := by
  induction xs generalizing m with
  | nil => rfl
  | cons e xs ih =>
    rw [List.foldl_cons, ih, tget_tset]
    by_cases h : e.1 = k
    · subst h
      simp only [List.filter_cons, beq_self_eq_true, if_true, List.map_cons]
      generalize ((xs.filter fun x => x.1 == e.1).map (·.2)) = l
      cases l <;> rfl
    · rw [if_neg (Ne.symm h)]
      simp [h]

/-- A wave that enters its handler. -/
def handlerWave (w : Wave) (t : TrapInfo) (a : DWord) (region : Bool) : Wave :=
  Wave.setSplit ((trapRegs t (w.split t.split).mask region).foldl (fun w e => w.setX e.1 e.2)
      { w with splits := w.splits.map fun (e : Nat × Split) => (e.1, { e.2 with trapHeld := true }),
               handler := some ⟨t.split, (w.split t.split).mask, w.depth⟩ }) t.split
    { w.split t.split with pc := a, joinHeld := false, trapHeld := false, waitOn := none, filling := false }

theorem tfind_hold (l : Tab Split) (j : Nat) : tfind (l.map fun e : Nat × Split => (e.1, { e.2 with trapHeld := true })) j
    = (tfind l j).map fun p => { p with trapHeld := true } := by
  induction l with
  | nil => rfl
  | cons e l ih => simp only [List.map_cons, tfind, ih]; split <;> rfl

/-- What entering the handler does to its wave (R313, R314): nothing that a register of a lane, an s, p or q register comes to hold has
changed; the handler is recorded, the trap registers hold the trap, the trapping split stands at TRAPH with its mask, and every other
split is held. -/
theorem handlerWave_spec (w : Wave) (t : TrapInfo) (a : DWord) (region : Bool) :
    let v := handlerWave w t a region
    (∀ x, v.newest x = w.newest x) ∧ v.region = w.region ∧ v.handler = some ⟨t.split, (w.split t.split).mask, w.depth⟩
      ∧ v.stack = w.stack ∧ v.stat = w.stat ∧ v.k = w.k ∧ v.f = w.f
      ∧ v.split t.split = { w.split t.split with pc := a, joinHeld := false, trapHeld := false, waitOn := none, filling := false }
      ∧ (∀ j, j ≠ t.split → v.split j = match tfind w.splits j with | some p => { p with trapHeld := true } | none => Split.off)
      ∧ ∀ k, v.xreg k = (((trapRegs t (w.split t.split).mask region).filter fun e => e.1 == k).map (·.2)).getLastD (w.xreg k) := by
  unfold handlerWave
  rw [foldl_setX]
  refine ⟨fun y => by cases y <;> rfl, rfl, rfl, rfl, rfl, rfl, rfl, ?_, fun j hj => ?_, fun k => tget_foldl_tset 0 _ _ k⟩
  · exact (Wave.split_setSplit _ _ _ _).trans (if_pos rfl)
  · refine (Wave.split_setSplit _ _ _ _).trans ((if_neg hj).trans ?_)
    rw [Wave.split, tget_eq, tfind_hold]
    cases tfind w.splits j <;> rfl

/-- A wave whose open region has closed (R220). -/
def Wave.regionClosed (w : Wave) : Wave :=
  if w.region.isSome then
    { w with region := none, reqs := w.reqs.map fun r => { r with rtag := none },
             sb := w.sb.map fun e => { e with bytes := e.bytes.map fun b => { b with rtag := none } } }
  else w

/-- The wave in its handler, once its region has closed (R221, R313). -/
theorem enterHandler_wave (s : State) (wid : Nat) (t : TrapInfo) (a : DWord) {w : Wave} (hw : tfind s.waves wid = some w) :
    tfind (s.enterHandler wid t a).waves wid = some (handlerWave w.regionClosed t a w.region.isSome) := by
  obtain ⟨-, -, -, -, -, -, c7⟩ := closeRegion_spec s wid hw
  have c8 := (c7 wid).trans (if_pos rfl)
  unfold State.enterHandler Wave.regionClosed
  simp only [hw]
  by_cases hr : w.region.isSome = true
  · simp only [hr, if_true]
    rw [State.modWave, c8]
    exact tfind_tput_self _ _ _
  · simp only [hr, Bool.false_eq_true, if_false]
    rw [State.modWave, hw]
    exact tfind_tput_self _ _ _

/-- RETT's effect on its wave (R315): the trapping split resumes with TMASK at the trap program counter, and no split is held by the
trap. -/
theorem leaveHandler_spec (w : Wave) (h : HandlerRec) :
    let v := w.leaveHandler h
    v.handler = none ∧ v.x = w.x ∧ (∀ x, v.newest x = w.newest x) ∧ (v.split h.split).live = true
      ∧ (v.split h.split).mask = w.xreg 39
      ∧ (v.split h.split).pc = ((w.xreg 34).setWidth 64 <<< 32 ||| (w.xreg 33).setWidth 64)
      ∧ ∀ j, (v.split j).trapHeld = false := by
  unfold Wave.leaveHandler
  refine ⟨rfl, rfl, fun x => by cases x <;> rfl, ?_, ?_, ?_, fun j => ?_⟩
  · rw [Wave.split_setSplit, if_pos rfl]
  · rw [Wave.split_setSplit, if_pos rfl]; rfl
  · rw [Wave.split_setSplit, if_pos rfl]
  · rw [Wave.split_setSplit]
    split
    · rfl
    · show (tget Split.off _ j).trapHeld = false
      generalize (w.splits.filter fun e => e.2.trapHeld && e.1 != h.split) = l
      induction l with
      | nil => rfl
      | cons e l ih => simp only [List.map_cons, tget]; split <;> first | rfl | exact ih

end Sys2Proof.Machine
end

