-- ==== Sys2Proof/Laws/Enter.lean ====
section
/-! SUPPORT. A trap at issue, and a request of a memory instruction, in the terms in which claims are stated. -/

namespace Sys2Proof.Machine

/- One proof at a time: many at once cost a thread, and its stack, each. -/
set_option Elab.async false

/-- The split that `sight` sees is live and not held. -/
theorem sight_split {s : State} {i : Instr} {h : Hints} {q : Iss} (hq : s.sight i h = some q) :
    (q.w.split q.split).live = true ∧ (q.w.split q.split).joinHeld = false ∧ (q.w.split q.split).trapHeld = false
      ∧ (q.w.split q.split).waitOn = none ∧ (q.w.split q.split).filling = false := by
  unfold State.sight at hq
  simp only at hq
  split at hq
  · cases hq
  · split at hq
    · split at hq
      · rename_i hc
        cases hq
        obtain ⟨-, h1, h2, h3, h4, h5, -⟩ := hc
        exact ⟨h1, by simpa using h2, by simpa using h3, h4, by simpa using h5⟩
      · cases hq
    · cases hq

theorem deferTrap_none {s : State} {wid split : Nat} (h : ∀ k, k < split → s.agenda.contains (.issue wid k) = false) :
    s.deferTrap wid split = none := by
  unfold State.deferTrap
  rw [show ((List.range split).find? fun k => s.agenda.contains (.issue wid k)) = none from
    List.find?_eq_none.mpr fun k hk => by rw [h k (List.mem_range.mp hk)]; decide]

theorem newest_regionClosed (w : Wave) (x : Target) : w.regionClosed.newest x = w.newest x := by
  unfold Wave.regionClosed; split <;> cases x <;> rfl

/-- A trap of the instruction at issue that can enter its handler enters it, in a state of the same wave (R206, R313, R314). -/
theorem entered_takeTrap {s u : State} {i : Instr} {h : Hints} {q : Iss} (hq : s.sight i h = some q) (hc : CanTrap q s) (after : Bool)
    {c : BitVec 7} (hc6 : c ≠ 0x6F) (addr : DWord) (arg : Word) (hu : tfind u.waves q.wid = some q.w) (hm : SameMemory s u)
    (ho : ∀ k, k ≠ q.wid → tfind u.waves k = tfind s.waves k) (hg : u.gridOf q.w.team = some q.grid) :
    Entered q c (if after then q.pc + 12 else q.pc) arg s (u.takeTrap q.wid (q.trapInfo after c addr arg)) := by
  obtain ⟨hw, -, -, -, -, -, hmask, -, -, hword, -, hst, -, -⟩ := sight_some hq
  obtain ⟨hlive, -, hheld, -, -⟩ := sight_split hq
  obtain ⟨-, hh, h0, hb⟩ := hc
  rw [takeTrap_enters hu hst hlive hheld hh hg h0 hb hc6]
  obtain ⟨f1, f2, f3, f4, f5⟩ := enterHandler_frame u q.wid (q.trapInfo after c addr arg) q.grid.eff.traph hu
  have hv := enterHandler_wave u q.wid (q.trapInfo after c addr arg) q.grid.eff.traph hu
  obtain ⟨n1, n2, n3, n4, n5, n6, n7, n8, n9, n10⟩ :=
    handlerWave_spec q.w.regionClosed (q.trapInfo after c addr arg) q.grid.eff.traph q.w.region.isSome
  have hcl : ∀ j, q.w.regionClosed.split j = q.w.split j := fun j => by unfold Wave.regionClosed; split <;> rfl
  have hcs : q.w.regionClosed.splits = q.w.splits := by unfold Wave.regionClosed; split <;> rfl
  have hcx : ∀ k, q.w.regionClosed.xreg k = q.w.xreg k := fun k => by unfold Wave.regionClosed; split <;> rfl
  have hcd : q.w.regionClosed.depth = q.w.depth := by unfold Wave.regionClosed; split <;> rfl
  have hcr : q.w.regionClosed.region = none := by
    unfold Wave.regionClosed
    split
    · rfl
    · rename_i hr; simpa using hr
  have ht : (q.trapInfo after c addr arg).split = q.split := rfl
  rw [ht] at n3 n8 n9 n10
  rw [hcl] at n3 n8 n10
  refine ⟨⟨⟨fun pa => by rw [f1]; exact hm.1 pa, fun l x o => ?_⟩, fun k hk => by rw [f5 k hk]; exact ho k hk, fun x => ?_⟩,
    _, hv, ?_, by rw [n2, hcr], by rw [n8]; exact hlive, by rw [n8], by rw [n8]; exact hmask.symm, by rw [n8], fun j hj hl => ?_, ?_⟩
  · refine Eq.trans ?_ (hm.2 l x o)
    unfold State.spByte
    rw [f2, f3, f4]
  · unfold State.newest
    rw [hv, hw]
    exact (n1 x).trans (newest_regionClosed _ _)
  · rw [n3, hcd, ← hmask]
  · rw [n9 j hj, hcs] at hl ⊢
    cases hs : tfind q.w.splits j with
    | none => rw [hs] at hl; exact absurd hl (by decide)
    | some p => rfl
  · have hx := fun k => (n10 k)
    refine ⟨?_, ?_, ?_, ?_, ?_, ?_, ?_, ?_, ?_, ?_⟩ <;> rw [hx] <;> unfold trapRegs <;>
      (simp [Iss.trapInfo, hmask]; try rfl)

/-- A trap at issue whose lower splits have nothing to issue enters the handler (R206, R316). -/
theorem entered_trapAt {s : State} {i : Instr} {h : Hints} {q : Iss} (hq : s.sight i h = some q) (hc : CanTrap q s)
    {c : BitVec 7} (hc6 : c ≠ 0x6F) (addr : DWord) (arg : Word) : Entered q c q.pc arg s (s.trapAt q c addr arg) := by
  obtain ⟨hw, -, hg, -⟩ := sight_some hq
  unfold State.trapAt
  rw [deferTrap_none hc.1]
  exact entered_takeTrap hq hc false hc6 addr arg hw ⟨fun _ => rfl, fun _ _ _ => rfl⟩ (fun _ _ => rfl) hg

/-- `runInstr` of an instruction whose own effect is a trap at issue. -/
theorem runInstr_bad {s : State} {i : Instr} {h : Hints} {q : Iss} {body : Iss → State → Res} {c : BitVec 7} {a : DWord} {x : Word}
    (hi : Issues i h s q) (hb : body q (s.issued i q) = .trap c a x) : runInstr i h body s = .next (s.trapAt q c a x) := by
  obtain ⟨h1, h2, h3, h4, h5⟩ := hi
  simp only [runInstr, h1, h2, h3, h4, h5, Bool.false_eq_true, ↓reduceIte, hb]

/-- A memory instruction that leaves its request has asked and done nothing else yet (R143, R263). -/
theorem asked_addReq {i : Instr} {h : Hints} {s : State} {q : Iss} (hi : Issues i h s q) (mask : Word) (ps : List Piece) (id : Nat) :
    Asked q i mask ps s ((s.issued i q).addReq q (q.mkReq id i mask ps q.cnt)) := by
  obtain ⟨hw, -, -, -, -, -, hmask, -, -, -, hcnt, -, -, -⟩ := sight_some hi.1
  have hf := issued_frame s i q
  have hroom := issues_room hi
  have hnd : q.cnt.Nodup := by rw [hcnt]; exact countersOf_nodup _ _ (classOf_nodup i)
  have hr : (q.mkReq id i mask ps q.cnt).cnt = q.cnt := rfl
  have ht : ∀ j, tfind ((s.issued i q).addReq q (q.mkReq id i mask ps q.cnt)).waves j = if j = q.wid then
      some (({ issuedWave q with reqs := q.w.reqs ++ [q.mkReq id i mask ps q.cnt] } : Wave).raise q.cnt) else tfind s.waves j := by
    intro j
    simp only [State.addReq, tfind_modWave]
    split
    · simp only [tfind_issued, ↓reduceIte, Option.map_some]; rfl
    · simp only [tfind_issued, if_neg ‹_›]
  have hraise : ∀ (w : Wave) ks, (w.raise ks).reqs = w.reqs ∧ w.keeps (w.raise ks) ∧ (w.raise ks).splits = w.splits ∧ (w.raise ks).pend = w.pend := by
    intro w ks
    induction ks generalizing w with
    | nil => exact ⟨rfl, ⟨rfl, rfl, rfl, rfl, rfl, rfl, rfl, rfl, rfl, rfl⟩, rfl, rfl⟩
    | cons k ks ih => exact ih _
  refine ⟨⟨⟨fun pa => ?_, fun l x o => ?_⟩, fun k hk => by rw [ht, if_neg hk], fun x => ?_⟩, _, id, by rw [ht, if_pos rfl], ?_, ⟨?_, ?_, ?_, ?_⟩, ?_⟩
  · simp only [State.addReq, State.modWave_phys, hf.1]
  · unfold State.spByte
    simp only [State.addReq, State.modWave_spCore, State.modWave_spClu, State.modWave_spDie, hf.2.1, hf.2.2.1, hf.2.2.2.1]
  · unfold State.newest
    rw [ht, if_pos rfl, hw]
    simp only [Wave.newest, Wave.stored_raise, Wave.pending, (hraise _ _).2.2.2]
    exact issuedWave_newest q x
  · exact (hraise _ q.cnt).2.1
  · rw [Wave.split, (hraise _ _).2.2.1]
    exact congrArg Split.pc ((issuedWave_split q q.split).trans (if_pos rfl))
  · rw [Wave.split, (hraise _ _).2.2.1, hmask]
    have hs := issuedWave_split q q.split
    rw [if_pos rfl] at hs
    have hs2 : ((issuedWave q).split q.split).mask = (q.w.split q.split).mask := by rw [hs]
    exact hs2
  · intro j hj
    rw [Wave.split, (hraise _ _).2.2.1]
    exact (issuedWave_split q j).trans (if_neg hj)
  · intro k
    refine (kreg_raise _ q.cnt hnd ?_ k).trans ?_
    · exact hroom
    · rfl
  · exact (hraise _ _).1

end Sys2Proof.Machine
end

