-- ==== Sys2Proof/Laws/Vector.lean ====
section
/-! SUPPORT. What the per-lane instructions share: lanes that run in the core, and references that an overwritten register gives
up. -/

namespace Sys2Proof.Machine

/- One proof at a time: many at once cost a thread, and its stack, each. -/
set_option Elab.async false

/-- Two states hold the same waves and the same memory. -/
def SameWaves (s t : State) : Prop := t.waves = s.waves ∧ t.phys = s.phys ∧ t.spCore = s.spCore ∧ t.spClu = s.spClu ∧ t.spDie = s.spDie

theorem SameWaves.rfl' (s : State) : SameWaves s s := ⟨rfl, rfl, rfl, rfl, rfl⟩

theorem SameWaves.trans {s t u : State} (a : SameWaves s t) (b : SameWaves t u) : SameWaves s u :=
  ⟨b.1.trans a.1, b.2.1.trans a.2.1, b.2.2.1.trans a.2.2.1, b.2.2.2.1.trans a.2.2.2.1, b.2.2.2.2.trans a.2.2.2.2⟩

theorem SameWaves.foldl {β : Type} (l : List β) (f : State → β → State) (hf : ∀ s b, SameWaves s (f s b)) (s : State) :
    SameWaves s (l.foldl f s) := by
  induction l generalizing s with
  | nil => exact SameWaves.rfl' s
  | cons b l ih => exact (hf s b).trans (ih _)

/-- A message to a home changes no wave and no memory. -/
theorem post_sameWaves (s : State) (wid home seq lane : Nat) (pc : DWord) (kind : HKind) (op rtag : Option Nat) :
    SameWaves s (s.post wid home seq lane pc kind op rtag) := ⟨rfl, rfl, rfl, rfl, rfl⟩

theorem dropRef_sameWaves (s : State) (wid seq lane : Nat) (pc : DWord) (op : Option Nat) (l : Lane) :
    SameWaves s (s.dropRef wid seq lane pc op l) := by
  unfold State.dropRef
  split
  · exact post_sameWaves ..
  · exact SameWaves.rfl' s

/-- Giving up the references of an overwritten register changes no wave and no memory. -/
theorem dropOld_sameWaves (s : State) (q : Iss) (rs ls : List Nat) : SameWaves s (s.dropOld q rs ls) := by
  unfold State.dropOld
  exact SameWaves.foldl rs _ (fun s r => SameWaves.foldl ls _ (fun s l => dropRef_sameWaves ..) s) s

/-- A claim that an instruction writes certain values depends on waves and memory alone. -/
theorem Wrote.of_same {q : Iss} {pc : DWord} {ws : List (Target × Nat)} {s t u : State} (hw : Wrote q pc ws s t)
    (h : SameWaves t u) : Wrote q pc ws s u := by
  obtain ⟨h1, h2, h3, h4, h5⟩ := h
  unfold Wrote SameMemory State.newest State.spByte at *
  rw [h1, h2, h3, h4, h5]
  exact hw

theorem Wrote.congr_left {q : Iss} {pc : DWord} {ws : List (Target × Nat)} {s t u : State} (hw : Wrote q pc ws s t)
    (h : SameWaves u s) : Wrote q pc ws u t := by
  obtain ⟨h1, h2, h3, h4, h5⟩ := h
  unfold Wrote SameMemory State.newest State.spByte at *
  rw [h1, h2, h3, h4, h5] at hw
  exact hw

/-- The lanes of a mask, each once. -/
theorem lanesOf_nodup (m : Word) : (lanesOf m).Nodup := (List.nodup_range).filter _

/-- Writing no lane changes no wave. -/
theorem writeLanes_nil_sameWaves (s : State) (q : Iss) (r : Nat) (w : Wave) (hw : tfind s.waves q.wid = some w) :
    SameMemory s (s.writeLanes q r []) ∧ ∀ j, tfind (s.writeLanes q r []).waves j = tfind s.waves j := by
  refine ⟨⟨fun pa => by simp only [State.writeLanes, State.modWave_phys], fun l u o => by
    simp only [State.spByte, State.writeLanes, State.modWave_spCore, State.modWave_spClu, State.modWave_spDie]⟩, ?_⟩
  intro j
  simp only [State.writeLanes, tfind_modWave]
  split
  · subst_vars
    rw [hw]
    simp only [List.map_nil, dropTargets, List.contains_nil, Bool.not_false, List.foldl_nil, Option.map_some, List.filter_true,
      List.map_id']
  · rfl

/-- The results of the lanes that run in the core, each with its lane, and their flags together (R32). -/
theorem coreResults_eq (op : Nat → AluOp) (src : Nat → Trio) (ls : List Nat) (acc : List (Nat × Word) × BitVec 5) :
    ls.foldl (fun acc l =>
      let t := src l
      let r := alu (op l) t.a.w t.b.w t.c.w
      (acc.1 ++ [(l, r.1)], acc.2 ||| r.2)) acc
    = (acc.1 ++ ls.map (fun l => (l, (alu (op l) (src l).a.w (src l).b.w (src l).c.w).1)),
        ls.foldl (fun x l => x ||| (alu (op l) (src l).a.w (src l).b.w (src l).c.w).2) acc.2) := by
  induction ls generalizing acc with
  | nil => simp
  | cons l ls ih => simp only [List.foldl_cons, ih, List.map_cons, List.append_assoc, List.cons_append, List.nil_append]

/-- With no proxy among its operands, a per-lane instruction puts every participant's result in flight and posts nothing but the
references that its destination gives up. -/
theorem vectorBody_core (i : Instr) (h : Hints) (lat : Nat) (px : Bool) (op : Iss → Nat → AluOp) (d a : Opd) (b : SrcB) (c : Opd)
    (q : Iss) (s : State) (hu : ∀ l ∈ q.lanes, ((q.src a l).tag || (q.srcB b l).tag || (q.src c l).tag) = false) :
    ∃ s1, SameWaves s s1 ∧ s1.nextId = s.nextId ∧
      let rs := q.lanes.map fun l => (l, (alu (op q l) (q.src a l).w (q.srcB b l).w (q.src c l).w).1)
      let fl := q.lanes.foldl (fun x l => x ||| (alu (op q l) (q.src a l).w (q.srcB b l).w (q.src c l).w).2) 0
      vectorBody i h lat px op d a b c q s = match vDest d with
        | none => .done (s.writeLater q lat [] fl q.cnt)
        | some r => .done (((s1.writeLater q lat (rs.map fun e => (.v r e.1, e.2.toNat)) fl q.cnt).writeLanes q r []).dropOld q [r] q.lanes) := by
  have ht : (q.lanes.filter fun l => (Trio.mk (q.src a l) (q.srcB b l) (q.src c l)).tagged) = [] := by
    rw [List.filter_eq_nil_iff]
    intro l hl
    simp only [Trio.tagged, hu l hl, Bool.false_eq_true, not_false_eq_true]
  have hc : (q.lanes.filter fun l => !(Trio.mk (q.src a l) (q.srcB b l) (q.src c l)).tagged) = q.lanes := by
    rw [List.filter_eq_self]
    intro l hl
    simp only [Trio.tagged, hu l hl, Bool.not_false]
  refine ⟨s.takeSlots q [] [], ⟨rfl, rfl, rfl, rfl, rfl⟩, rfl, ?_⟩
  unfold vectorBody
  simp only [ht, hc, List.isEmpty_nil, Bool.not_true, Bool.and_false, Bool.false_eq_true, ↓reduceIte, List.any_nil, coreResults]
  rw [coreResults_eq (op q) (fun l => Trio.mk (q.src a l) (q.srcB b l) (q.src c l)) q.lanes ([], 0)]
  cases hd : vDest d <;>
    simp [List.nil_append, List.map_nil, State.judgeSlots, State.postLanes]

end Sys2Proof.Machine
end

