-- ==== Sys2Proof/Tests/Slice0.lean ====
section
/-! SUPPORT. Tests: words of the spec's encoding and what they decode to, ill-formed terms, single steps on a small machine, and for every
statement with hypotheses a concrete state and operands that meet them. -/

namespace Sys2Proof.Tests

open Sys2Proof Sys2Proof.Machine

/- One proof at a time: many at once cost a thread, and its stack, each. -/
set_option Elab.async false

/-- Hints of an instruction that waits for nothing, names no counter and has the guard p7. -/
def nh : Hints := ⟨0, 0, 15, false, 7⟩

/-- An entry of the tile table. -/
def tileOf (st lvl rows rowBytes base : Nat) : BitVec 128 :=
  BitVec.ofNat 128 (st * 2 ^ 126 + lvl * 2 ^ 124 + 2 ^ 123 + rows * 2 ^ 96 + rowBytes * 2 ^ 80 + base * 2 ^ 32)

/-- The effective values of a region whose handler stands at 0x1_0800. -/
def eff1 : Eff := ⟨0, 0, 1, 0, 0x10800, 24, 18432, 150994944, 201326592, 268435456, 54525952, 10000, 0, false, false, 0, 0, 0, none⟩

/-- A wave with all lanes in split 0; s2:s3 is the address 0x1_0000, p0 holds in 16 lanes, lane l of v1 holds l. -/
def wave1 : Wave :=
  { firstWave with s := [(2, 0x10000), (4, 0x10100), (6, 96), (8, 64), (9, 8192), (11, 0x80000010), (12, 0x200004), (14, 0x8000)], p := [(0, 0xFFFF)], v := (List.range 31).map fun l => (33 + l, ⟨false, BitVec.ofNat 32 (l + 1)⟩) }

/-- A small machine: `withWave` with this wave, a handler, cluster scratchpad and tiles. -/
def unit : State :=
  let s := State.reset.withWave
  let s := { s with agenda := [] }
  let s := match tfind s.grids 1 with
    | some g => s.setGrid 1 { g with khead := some ⟨0, 0, 65536, 4096, 0, []⟩, clu := [(0, 0)], chain := [eff1] }
    | none => s
  let s := match tfind s.teams 1 with
    | some t => s.setTeam 1 { t with tiles := [(1, tileOf 2 0 64 128 0), (2, tileOf 2 0 32 128 8192), (3, tileOf 0 0 64 128 16384), (4, tileOf 2 0 4 128 32768),
                                                (5, tileOf 2 0 8 128 33792)] }
    | none => s
  s.setWave 0 wave1

/-- The machine with its wave changed. -/
def unitW (f : Wave → Wave) : State := unit.setWave 0 (f wave1)
/-- The machine with its team changed. -/
def unitT (f : Team → Team) : State := match tfind unit.teams 1 with | some t => unit.setTeam 1 (f t) | none => unit

/-- A split of the wave. -/
def sp (live : Bool) (pc : DWord) (mask : Word) (held : Bool) : Split := ⟨live, pc, mask, none, 0, held, false, none, false⟩

/-- `Issues`, and a property of what the instruction sees, as one Boolean. -/
def stands (i : Instr) (s : State) (P : Iss → Bool) : Bool :=
  match i.fields with
  | some f =>
    match s.sight i f.h with
    | some q => decide (notPermitted q.w i = none) && !heldBack s q i f.h && q.part != 0 && decide (q.verdict i = .ok) && P q
    | none => false
  | none => false

theorem issues_of {i : Instr} {s : State} {P : Iss → Bool} (hs : stands i s P = true) :
    ∃ f q, i.fields = some f ∧ Issues i f.h s q ∧ P q = true := by
  unfold stands at hs
  split at hs
  · rename_i f hf
    split at hs
    · rename_i q hq
      simp only [Bool.and_eq_true, decide_eq_true_eq, Bool.not_eq_true', bne_iff_ne, ne_eq] at hs
      obtain ⟨⟨⟨⟨a, b⟩, c⟩, d⟩, e⟩ := hs
      exact ⟨f, q, hf, ⟨hq, a, by simpa using b, by simpa using c, d⟩, e⟩
    · cases hs
  · cases hs

/-- A trap of the instruction can be taken. -/
def traps (s : State) (q : Iss) : Bool :=
  (List.range q.split).all (fun k => !s.agenda.contains (.issue q.wid k)) && q.w.handler.isNone && q.grid.eff.traph != 0 && !badTraph q.grid.eff.traph

/-- Every lane of the operands is untagged. -/
def plain (q : Iss) (xs : Nat → List Lane) : Bool := q.lanes.all fun l => (xs l).all fun x => !x.tag

/-- A machine with granted slots in its core's pools and a proxy of slot 9 of home 3 in lane 0 of v7. -/
def prox : State :=
  let s := unitW fun w => { w with v := w.v ++ [(224, ⟨true, pxWord 3 9 0⟩)] }
  let s := s.setHome 3 { Home.init with slots := [(9, ⟨.live, 41, 0, 1, 0, 0, 0, none, 1⟩)] }
  s.modCore 0 fun c => { c with pools := [(0, (List.range 40).map (· + 100)), (3, [20, 21, 22])] }

theorem witness_VectorWrites : stands (.iadd nh .wrap (.v 5) (.v 1) (.reg (.s 2))) unit (fun q => plain q fun l => [q.src (.v 1) l]) = true := by decide

theorem witness_PredicateWrites :
    stands (.isetp nh .lt false (.p 1) (.v 1) (.lit 5)) unit (fun q => plain q fun l => [q.src (.v 1) l]) = true
    ∧ stands (.fsetp nh .num (.p 1) (.v 1) (.lit 5)) unit (fun q => plain q fun l => [q.src (.v 1) l]) = true
    ∧ stands (.isetp2 nh .eq true (.p 2) (.v 1) (.lit 5)) unit (fun q => plain q fun l => [q.src (.v 1) l]) = true
    ∧ stands (.plop nh 0x80 (.p 1) (.p 0) (.p 1) (.p 2)) unit (fun _ => true) = true
    ∧ stands (.isetp2 nh .eq true (.none 0) (.v 7) (.lit 5)) prox (fun q => traps prox q && q.lanes.any fun l => (q.src (.v 7) l).tag) = true
    ∧ stands (.elect nh (.p 1)) unit (fun _ => true) = true ∧ stands (.elect nh (.s 1)) unit (fun _ => true) = true
    ∧ stands (.vote nh .any (.p 1) (.p 0)) unit (fun _ => true) = true ∧ stands (.vote nh .all (.p 1) (.p 0)) unit (fun _ => true) = true
    ∧ stands (.vote nh .uni (.p 1) (.p 0)) unit (fun _ => true) = true ∧ stands (.vote nh .ballot (.s 1) (.p 0)) unit (fun _ => true) = true
    ∧ stands (.vote nh .ballot (.v 2) (.p 0)) unit (fun _ => true) = true
    ∧ (match unit.sight (.elect ⟨0, 0, 15, true, 7⟩ (.s 1)) ⟨0, 0, 15, true, 7⟩ with
      | some q => decide (notPermitted q.w (.elect ⟨0, 0, 15, true, 7⟩ (.s 1)) = none)
        && !heldBack unit q (.elect ⟨0, 0, 15, true, 7⟩ (.s 1)) ⟨0, 0, 15, true, 7⟩ && q.part == 0
      | none => false) = true
    ∧ (encodeWord (.plop nh 0x96 (.p 1) (.p 2) (.p 3) (.p 4))).isSome = true := by decide

theorem witness_IntegerResults :
    ([.iadd nh .wrap (.v 5) (.v 1) (.lit 5), .iadd nh .sat (.v 5) (.v 1) (.lit 5), .iadd nh .usat (.v 5) (.v 1) (.lit 5),
      .isub nh .wrap (.v 5) (.v 1) (.lit 5), .isub nh .sat (.v 5) (.v 1) (.lit 5), .isub nh .usat (.v 5) (.v 1) (.lit 5),
      .imul nh (.v 5) (.v 1) (.lit 5), .imulh nh true (.v 5) (.v 1) (.lit 5), .imad nh (.v 5) (.v 1) (.reg (.s 2)) (.v 1),
      .imin nh true (.v 5) (.v 1) (.lit 5), .imax nh false (.v 5) (.v 1) (.lit 5), .and nh (.v 5) (.v 1) (.lit 5), .or nh (.v 5) (.v 1) (.lit 5),
      .xor nh (.v 5) (.v 1) (.lit 5), .shl nh (.v 5) (.v 1) (.lit 32), .shr nh (.v 5) (.v 1) (.lit 32), .sar nh (.v 5) (.v 1) (.lit 32),
      .rotl nh (.v 5) (.v 1) (.lit 32), .idiv nh true (.v 5) (.v 1) (.lit 0), .irem nh true (.v 5) (.v 1) (.lit 0),
      .idiv nh false (.v 5) (.v 1) (.lit 0xFFFFFFFF), .irem nh false (.v 5) (.v 1) (.lit 0xFFFFFFFF), .iabs nh true (.v 5) (.v 1),
      .popc nh (.v 5) (.v 1), .clz nh (.v 5) (.v 1), .brev nh (.v 5) (.v 1)] : List Instr).all
      (fun i => stands i unit fun q => plain q fun l => [q.src (.v 1) l, q.srcB (.reg (.s 2)) l]) = true := by decide

theorem witness_ScalarWrites :
    ([.sadd nh (.s 1) (.s 2) (.lit 1), .ssub nh (.s 1) (.s 2) (.lit 1), .smul nh (.s 1) (.s 2) (.lit 3), .sand nh (.s 1) (.s 2) (.lit 1),
      .sor nh (.s 1) (.s 2) (.lit 1), .sxor nh (.s 1) (.s 2) (.lit 1), .sshl nh (.s 1) (.s 2) (.lit 32), .sshr nh false (.s 1) (.s 2) (.lit 1),
      .sshr nh true (.s 1) (.s 2) (.lit 40), .smov nh false (.s 1) (.lit 1), .scmp nh .lt true (.s 1) (.s 2) (.lit 1),
      .smin nh true (.s 1) (.s 2) (.lit 1), .smax nh false (.s 1) (.s 2) (.lit 1)] : List Instr).all
      (fun i => stands i unit fun _ => true) = true := by decide

theorem witness_WideWrites :
    stands (.smov nh true (.s 6) (.lit 0xFFFFFFFF)) unit (fun _ => true) = true
    ∧ stands (.lea nh true 3 (.v 6) (.s 2) (.lit 5)) unit (fun q => q.lanes.all fun l => !pairTagged q (.s 2) l) = true
    ∧ stands (.quant nh 0 (.s 12) (.v 1)) unit (fun q => plain q fun l => [q.src (.v 1) l]) = true
    ∧ stands (.vread nh (.s 1) (.v 1) (.lit 31)) unit (fun q => !(q.src (.v 1) 31).tag) = true
    ∧ stands (.vwrite nh false (.v 2) (.s 2) (.lit 31)) unit (fun _ => true) = true
    ∧ stands (.lea nh true 3 (.v 6) (.s 2) (.reg (.v 7))) prox (fun q => traps prox q && q.lanes.any fun l => (q.srcB (.reg (.v 7)) l).tag) = true
    ∧ stands (.quant nh 0 (.s 12) (.v 7)) prox (fun q => traps prox q && q.lanes.any fun l => (q.src (.v 7) l).tag) = true
    ∧ stands (.vread nh (.s 1) (.v 7) (.lit 0)) prox (fun q => traps prox q && (q.src (.v 7) 0).tag) = true := by decide

theorem witness_LaneRouting :
    stands (.perm nh (.v 2) (.v 1) (.q 1)) unit (fun q => q.lanes.all fun l =>
      !(q.src (.v 1) ((permOf (BitVec.ofNat 144 (q.w.seen q.fresh (.q 1)))).getD l 0)).tag) = true
    ∧ stands (.perm nh (.v 2) (.v 7) (.q 1)) prox (fun q => traps prox q && q.lanes.any fun l =>
      (q.src (.v 7) ((permOf (BitVec.ofNat 144 (q.w.seen q.fresh (.q 1)))).getD l 0)).tag) = true
    ∧ stands (.bcast nh (.v 2) (.v 1) (.lit 31)) unit (fun q => !(q.src (.v 1) 31).tag) = true
    ∧ stands (.bcast nh (.v 2) (.v 7) (.lit 0)) prox (fun q => traps prox q && (q.src (.v 7) 0).tag) = true := by decide

theorem witness_NetworkSettings :
    stands (.pset nh true (.q 1) (.v 1)) unit (fun q => (List.range 5).all fun l => !(q.src (.v 1) l).tag) = true
    ∧ stands (.pset nh true (.q 1) (.v 7)) prox (fun q => traps prox q && (List.range 5).any fun l => (q.src (.v 7) l).tag) = true
    ∧ stands (.pset nh false (.q 1) (.v 1)) unit (fun q => (List.range 32).all (fun l => !(q.src (.v 1) l).tag)
      && (List.range 32).all fun l => (lanes.map fun l => (q.src (.v 1) l).w.toNat % 32).contains l) = true
    ∧ stands (.pset nh false (.q 1) (.none 0)) unit (fun q => traps unit q && (List.range 32).all (fun l => !(q.src (.none 0) l).tag)
      && !(lanes.map fun l => (q.src (.none 0) l).w.toNat % 32).contains 1) = true
    ∧ stands (.pset nh false (.q 1) (.v 7)) prox (fun q => traps prox q && (List.range 32).any fun l => (q.src (.v 7) l).tag) = true := by decide

theorem witness_UniformControl :
    stands (.nop nh) unit (fun _ => true) = true ∧ stands (.wait nh (.k 2) 0) unit (fun _ => true) = true
    ∧ stands (.waitc nh 0) unit (fun _ => true) = true ∧ stands (.yield nh 255) unit (fun _ => true) = true
    ∧ stands (.bra nh false true (.s 2) 0xFFFFFFFF) unit (fun _ => true) = true
    ∧ stands (.call nh (.s 10) (.lit 4)) unit (fun q => ((q.pc + 48).extractLsb' 0 2 == 0)) = true
    ∧ stands (.ret nh (.s 2)) unit (fun q => (q.uni64 (.s 2)).extractLsb' 0 2 == 0) = true := by decide

/-- Four live splits. -/
def four : State := unitW fun w => { w with splits := [(0, sp true 0x10000 0xFF00FF false), (1, sp true 0x10010 0xFF00 false),
  (2, sp true 0x10020 0xF000000 false), (3, sp true 0x10030 0xF0000000 false)] }

theorem witness_BranchDiverges :
    stands (.bra nh false false (.p 0) 9) unit (fun q => q.w.freeSplit.isSome) = true
    ∧ stands (.bra nh false false (.p 0) 9) four (fun q => q.w.freeSplit.isNone && decide (q.w.depth < 64 ∧ q.w.stack.length < 16)) = true := by decide

/-- A wave whose register v9 holds 4 in its odd lanes. -/
def forked (f : Wave → Wave) : State := unitW fun w =>
  f { w with v := w.v ++ (List.range 32).map fun l => (288 + l, ⟨false, BitVec.ofNat 32 (4 * (l % 2))⟩) }
/-- Four live splits, and so many entries on the stack and spilled. -/
def crowded (stack spilled : Nat) : State := forked fun w =>
  { w with splits := [(0, sp true 0x10000 0xFF00FF false), (1, sp true 0x10010 0xFF00 false), (2, sp true 0x10020 0xF000000 false),
                      (3, sp true 0x10030 0xF0000000 false)],
           stack := List.replicate stack ⟨0xFF00, 0, 0x10200, 0x10300, 1, false⟩, spilled := spilled }
/-- The same for a grid whose waves have no room to spill. -/
def roomless (s : State) : State :=
  match tfind s.grids 1 with
  | some g => s.setGrid 1 { g with khead := some ⟨0, 0, 0, 4096, 0, []⟩ }
  | none => s

/-- BRX s2:s3, v9 with its targets aligned or not, and what it pushes. -/
def branches (q : Iss) (b : SrcB) (aligned : Bool) (P : Nat → Bool) : Bool :=
  let t := fun l => if q.part.getLsbD l then q.uni64 (.s 2) + (q.srcB b l).w.setWidth 64 else q.pc + 12
  decide (q.split < 4) && plain q (fun l => [q.srcB b l]) && (lanesOf q.mask).all (fun l => (t l).extractLsb' 0 2 == 0) == aligned
    && P ((groupLanes (lanesOf q.mask) t).length - 1 - (4 - q.w.liveSplits.length))

theorem witness_IndexedBranch :
    stands (.brx nh (.s 2) (.reg (.v 9))) (forked id) (fun q => branches q (.reg (.v 9)) true fun n => n == 0) = true
    ∧ stands (.brx nh (.s 2) (.reg (.v 9))) (crowded 15 48) (fun q => branches q (.reg (.v 9)) true fun n => n == 1) = true
    ∧ stands (.brx nh (.s 2) (.reg (.v 9))) (crowded 16 47) (fun q => branches q (.reg (.v 9)) true fun n => n == 1 && q.grid.spillRoom) = true
    ∧ stands (.brx nh (.s 2) (.reg (.v 7))) prox (fun q => traps prox q && q.lanes.any fun l => (q.srcB (.reg (.v 7)) l).tag) = true
    ∧ stands (.brx nh (.s 2) (.reg (.v 1))) unit (fun q => traps unit q && branches q (.reg (.v 1)) false fun _ => true) = true
    ∧ stands (.brx nh (.s 2) (.reg (.v 9))) (crowded 16 48) (fun q => traps (crowded 16 48) q && branches q (.reg (.v 9)) true fun n => n == 1) = true
    ∧ stands (.brx nh (.s 2) (.reg (.v 9))) (roomless (crowded 16 0)) (fun q => traps (roomless (crowded 16 0)) q && !q.grid.spillRoom
      && branches q (.reg (.v 9)) true fun n => n == 1) = true := by decide +kernel

/-- A wave whose split 0 has an entry on the stack. -/
def entry1 (started : Bool) : State := unitW fun w =>
  { w with splits := [(0, sp true 0x10000 0xFFFF false)], stack := [⟨0xFF0000, 0xF0000000, 0x10200, 0x10000, 0, started⟩] }
/-- A wave whose split 0 and split 1 live. -/
def two (held : Bool) : State := unitW fun w => { w with splits := [(0, sp true 0x10000 0xFFFF false), (1, sp true 0x10000 0xFF0000 held)] }

theorem witness_JoinReconverges :
    stands (.join nh) (entry1 false) (fun q => match q.w.entryFor q.split with
      | some k => (match q.w.stack[k]? with | some e => !e.started | none => false) | none => false) = true
    ∧ stands (.join nh) (entry1 true) (fun q => match q.w.entryFor q.split with
      | some k => (match q.w.stack[k]? with | some e => e.started && e.join == q.pc | none => false) | none => false) = true
    ∧ stands (.join nh) (two true) (fun q => q.w.entryFor q.split == none && q.w.spilled == 0 && (q.w.heldAt q.split q.pc).isSome) = true
    ∧ stands (.join nh) (two false) (fun q => q.w.entryFor q.split == none && q.w.spilled == 0 && (q.w.heldAt q.split q.pc).isNone
      && (q.w.split 1).live && !(q.w.split 1).joinHeld && !(q.w.split 1).trapHeld) = true
    ∧ stands (.join nh) unit (fun q => q.w.entryFor q.split == none && q.w.spilled == 0 && (List.range 3).all fun j => !(q.w.split (j + 1)).live) = true := by
  decide

theorem witness_ExitEndsLanes :
    stands (.exit { nh with guard := 0 }) unit (fun q => q.mask &&& ~~~q.part != 0) = true
    ∧ stands (.exit nh) (entry1 true) (fun q => q.mask &&& ~~~q.part == 0 && (q.w.entryFor q.split).isSome) = true
    ∧ stands (.exit nh) (two false) (fun q => q.mask &&& ~~~q.part == 0 && q.w.entryFor q.split == none && q.w.spilled == 0 && (q.w.split 1).live) = true
    ∧ stands (.exit nh) unit (fun q => q.mask &&& ~~~q.part == 0 && q.w.depth == 0 && (List.range 3).all fun j => !(q.w.split (j + 1)).live) = true := by
  decide

/-- A wave in a region with live-in registers v0 and s0. -/
def inRegion : State := unitW fun w => { w with region := some ⟨0x10000, 0xFFFFFFFF, [], [], [], 0, none, 0x00010001⟩ }
/-- A wave in its handler. -/
def inHandler : State := unitW fun w => { w with handler := some ⟨0, 0xFFFFFFFF, 0⟩, x := [(33, 0x10008), (39, 0xFFFF)] }

theorem witness_RegionsOpenAndClose :
    stands (.region nh 0) unit (fun q => decide (q.w.liveSplits.length ≤ 1 ∧ q.w.depth = 0)) = true
    ∧ stands (.regend nh) inRegion (fun q => q.w.region.isSome) = true := by decide

theorem witness_SoftwareTraps :
    stands (.trap nh (.lit 7)) unit (fun q => traps unit q) = true ∧ stands (.bkpt nh (.lit 7)) unit (fun q => traps unit q) = true := by decide

theorem witness_ReturnFromTrap : stands (.rett nh) inHandler (fun q => q.w.handler.isSome && (q.w.xreg 33).extractLsb' 0 2 == 0) = true := by decide

/-- What an instruction sees, when it is not asked whether it may issue. -/
def sees (i : Instr) (s : State) (P : Iss → Bool) : Bool :=
  match i.fields with
  | some f => (match s.sight i f.h with | some q => P q | none => false)
  | none => false

theorem witness_PermissionTraps :
    sees (.rett nh) unit (fun q => traps unit q) = true ∧ sees (.sets nh (.x 47) (.lit 1)) unit (fun q => traps unit q) = true
    ∧ sees (.mov nh (.v 0) (.lit 1)) inRegion (fun q => traps inRegion q && q.w.region.isSome
      && !needsHandler (.mov nh (.v 0) (.lit 1)) && writesLive 0x00010001 (.mov nh (.v 0) (.lit 1))) = true
    ∧ sees (.exit nh) inRegion (fun q => traps inRegion q && q.w.region.isSome
      && !needsHandler (.exit nh) && !writesLive 0x00010001 (.exit nh) && regionForbids (.exit nh)) = true := by decide

theorem witness_NoParticipant : sees (.iadd { nh with gneg := true } .wrap (.v 5) (.v 1) (.lit 1)) unit (fun q =>
    decide (notPermitted q.w (.iadd { nh with gneg := true } .wrap (.v 5) (.v 1) (.lit 1)) = none)
    && !heldBack unit q (.iadd { nh with gneg := true } .wrap (.v 5) (.v 1) (.lit 1)) { nh with gneg := true } && q.part == 0) = true := by decide

theorem witness_HeldBackWaits : sees (.wait nh (.k 2) 0) (unitW fun w => { w with k := [(2, 1)] }) (fun q =>
    decide (notPermitted q.w (.wait nh (.k 2) 0) = none) && heldBack unit q (.wait nh (.k 2) 0) nh) = true := by decide

/-- The address s2:s3 with the lane's index times 4. -/
def byLane (o : Order) (sc : Scope) : Mem := .index 2 o sc false (.v 1) 0

/-- What a request of a load, store or atomic needs: no bad frame, untagged indices, translated or translatable pieces. -/
def asks (i : Instr) (s : State) (ps : Iss → List (Piece × Option (BitVec 7))) (all : Bool) : Bool :=
  stands i s fun q => !q.badFrame (.s 2) && (q.lanes.all fun l => !q.idxTagged (byLane .plain .wave) l)
    && ((ps q).all fun p => p.2 == none && (!all || p.1.st != .untranslated)) && !(s.issued i q).piecesNoPlane q.w.ctx ((ps q).map (·.1))

theorem witness_LoadsAsk :
    asks (.ld nh .w64 (.v 6) (.s 2) (byLane .plain .wave)) unit
      (fun q => q.globalPieces (unit.issued (.ld nh .w64 (.v 6) (.s 2) (byLane .plain .wave)) q) (.s 2) (byLane .plain .wave) 8 .read q.lanes fun _ => [])
      false = true
    ∧ asks (.ld nh .w32 (.v 6) (.s 2) (byLane .acq .dev)) unit
      (fun q => q.globalPieces (unit.issued (.ld nh .w32 (.v 6) (.s 2) (byLane .acq .dev)) q) (.s 2) (byLane .acq .dev) 4 .read q.lanes fun _ => [])
      false = true
    ∧ asks (.sld nh .w32 (.s 5) (.s 2) (.offset 4)) unit
      (fun q => q.globalPieces (unit.issued (.sld nh .w32 (.s 5) (.s 2) (.offset 4)) q) (.s 2) (.offset 4) 4 .read [0] fun _ => []) false = true := by
  decide

/-- Whether a scratchpad access forms its pieces. -/
def okPieces (x : Except (BitVec 7) (List Piece)) : Bool := match x with | .ok _ => true | .error _ => false

theorem witness_ScratchpadAccesses :
    stands (.lds nh .w32 (.v 6) (.none 0) (byLane .plain .wave)) unit (fun q => okPieces
      (q.spAll (unit.issued (.lds nh .w32 (.v 6) (.none 0) (byLane .plain .wave)) q) (.none 0) (byLane .plain .wave) 4 q.lanes fun _ => [])) = true
    ∧ stands (.sts nh .w32 (.v 1) (.none 0) (byLane .plain .wave)) unit (fun q => okPieces
      (q.spAll (unit.issued (.sts nh .w32 (.v 1) (.none 0) (byLane .plain .wave)) q) (.none 0) (byLane .plain .wave) 4 q.lanes
        fun l => storeBytes .w32 ((q.dataWords (.v 1) 1 l).map (·.w)))) = true
    ∧ stands (.sld nh .w32 (.s 5) (.t 1) (.offset 8188)) unit (fun q => okPieces
      (q.spAll (unit.issued (.sld nh .w32 (.s 5) (.t 1) (.offset 8188)) q) (.t 1) (.offset 8188) 4 [0] fun _ => [])) = true
    ∧ stands (.sst nh .w32 (.s 8) (.t 1) (.offset 0)) unit (fun q => okPieces
      (q.spAll (unit.issued (.sst nh .w32 (.s 8) (.t 1) (.offset 0)) q) (.t 1) (.offset 0) 4 [0]
        fun _ => storeBytes .w32 ((q.dataWords (.s 8) 1 0).map (·.w)))) = true
    ∧ stands (.atoms nh .add false (.v 1) (.none 0) (byLane .plain .wave)) unit (fun q => q.lanes.all fun l =>
      match State.spPieces (unit.issued (.atoms nh .add false (.v 1) (.none 0) (byLane .plain .wave)) q) q (.none 0)
        (q.offset (byLane .plain .wave) l - BitVec.ofNat 64 ((q.offset (byLane .plain .wave) l).toNat % 4)) 4 with
      | .ok [_] => true
      | _ => false) = true := by decide

/-- What a posted lane of a per-lane instruction needs. -/
def posts (i : Instr) (s : State) : Bool :=
  match vecForm i with
  | some f => postable i && stands i s fun q => (q.lanes.all fun l => !anyMalformed [q.src f.a l, q.srcB f.b l, q.src f.c l])
      && f.posted q != [] && (match (s.issued i q).judgeSlots q ((f.posted q).map fun l => (l, f.home q l)) with | .got _ => true | _ => false)
  | none => false

theorem witness_ProxyOperands :
    posts (.iadd nh .wrap (.v 8) (.v 7) (.lit 1)) prox = true ∧ posts (.iadd nh .wrap (.none 0) (.v 7) (.lit 1)) prox = true
    ∧ (match vecForm (.imulh nh false (.v 8) (.v 7) (.lit 1)) with
      | some f => !postable (.imulh nh false (.v 8) (.v 7) (.lit 1))
        && stands (.imulh nh false (.v 8) (.v 7) (.lit 1)) prox (fun q => traps prox q && f.posted q != [])
      | none => false) = true := by decide

theorem witness_MoveCopiesProxies : stands (.mov nh (.v 8) (.reg (.v 7))) prox (fun q =>
    (q.lanes.all fun l => !anyMalformed [q.srcB (.reg (.v 7)) l]) && q.lanes.any fun l => (q.srcB (.reg (.v 7)) l).tag) = true
    ∧ stands (.mov nh (.v 7) (.lit 3)) prox (fun q => q.lanes.any fun l => (q.w.latest 7 l).tag && !pxMalformed (q.w.latest 7 l).w) = true
    ∧ stands (.mov nh (.none 0) (.reg (.v 7))) prox (fun q => q.lanes.all fun l => !anyMalformed [q.srcB (.reg (.v 7)) l]) = true
    ∧ (encodeWord (.mov nh (.v 4) (.lit 0))).isSome = true := by decide

theorem witness_Crossings :
    stands (.isetp nh .lt false (.p 1) (.v 7) (.lit 5)) prox (fun q => (q.lanes.all fun l => !anyMalformed [q.src (.v 7) l])
      && q.room (countersOf [8] nh) && q.lanes.any fun l => (q.src (.v 7) l).tag) = true
    ∧ stands (.mat nh (.v 8) (.v 7)) prox (fun q => (q.lanes.all fun l => !anyMalformed [q.src (.v 7) l])
      && q.lanes.any fun l => (q.src (.v 7) l).tag) = true
    ∧ stands (.mat nh (.v 8) (.v 1)) prox (fun q => plain q fun l => [q.src (.v 1) l]) = true := by decide

/-- The core TLB holds page 1 of context 0. -/
def cached (s : State) : State := s.modCore 0 fun c => { c with tlb := [⟨0, 0, 2, 1, 1, 0, 0, true, true, false, false⟩] }

/-- The address s2:s3 with the lane's index in v7 times 4, which is a proxy in lane 0. -/
def byProxy (o : Order) (sc : Scope) (nr : Bool) : Mem := .index 2 o sc nr (.v 7) 0

/-- What LDX with D a vector register or none needs. -/
def loadsProxy (d : Opd) (m : Mem) (P : Iss → Bool) : Bool :=
  let i : Instr := .ldx nh d (.s 2) m
  let s := cached prox
  stands i s fun q =>
    let ps := q.globalPieces (s.issued i q) (.s 2) m 4 .read (q.lanes.filter fun l => !q.idxTagged m l) fun _ => []
    let fill := fun l => (s.issued i q).ldxItem (q.mkReq (s.issued i q).nextId i q.part (ps.map (·.1)) q.cnt) l
    let home := fun l => if q.idxTagged m l then pxHome (q.index m l).w else match fill l with | some e => e.1 | none => 0
    !q.badFrame (.s 2) && (q.lanes.all fun l => !anyMalformed [q.index m l]) && !(s.issued i q).piecesNoPlane q.w.ctx (ps.map (·.1))
      && (ps.all fun p => p.2 == none && p.1.st != .untranslated) && P q
      && match (s.issued i q).judgeSlots q (q.lanes.map fun l => (l, home l)) with
        | .got _ => true
        | _ => false

theorem witness_ProxyInstructions :
    loadsProxy (.v 8) (byLane .plain .wave) (fun q => q.lanes.all fun l => !q.idxTagged (byLane .plain .wave) l) = true
    ∧ loadsProxy (.v 8) (byProxy .plain .wave false) (fun q => q.lanes.any fun l => q.idxTagged (byProxy .plain .wave false) l) = true
    ∧ loadsProxy (.none 0) (byProxy .plain .wave false) (fun q => q.lanes.any fun l => q.idxTagged (byProxy .plain .wave false) l) = true
    ∧ stands (.pxrel nh (.none 0)) prox (fun _ => true) = true
    ∧ stands (.pxrel nh (.v 7)) prox (fun q => (q.lanes.all fun l => !anyMalformed [q.vlane 7 l]) && q.lanes.any fun l => (q.vlane 7 l).tag) = true
    ∧ stands (.ispx nh (.p 1) (.v 7)) prox (fun _ => true) = true := by decide +kernel

/-- What a buffered store needs. -/
def buffers (i : Instr) (s : State) (width : Width) (d : Opd) (m : Mem) (ls : List Nat) (mask : Word) : Bool :=
  stands i s fun q =>
    let ps := q.globalPieces (s.issued i q) (.s 2) m (widthBytes width) .write ls fun l => storeBytes width ((q.dataWords d (widthRegs width) l).map (·.w))
    !q.badFrame (.s 2) && plain q (fun l => q.index m l :: q.dataWords d (widthRegs width) l) && (ps.all fun p => p.2 == none)
      && !(s.issued i q).piecesNoPlane q.w.ctx (ps.map (·.1)) && (orderRel (memOrder m)
      || (State.enterStores { s.issued i q with nextId := (s.issued i q).nextId + 1 } q.wid
        (q.mkReq (s.issued i q).nextId i mask (ps.map (·.1)) q.cnt)).2.complete)

/-- What a store with posted lanes needs. -/
def postsStore (d : Opd) (m : Mem) : Bool :=
  let i : Instr := .st nh .w32 d (.s 2) m
  let s := cached prox
  stands i s fun q =>
    let posted := q.postedLanes d 1 m
    let ps := q.globalPieces (s.issued i q) (.s 2) m 4 .write (q.lanes.filter fun l => !posted.contains l)
      fun l => storeBytes .w32 ((q.dataWords d 1 l).map (·.w))
    !q.badFrame (.s 2) && (q.lanes.all fun l => !anyMalformed (q.index m l :: q.dataWords d 1 l)) && (ps.all fun p => p.2 == none)
      && !(s.issued i q).piecesNoPlane q.w.ctx (ps.map (·.1)) && q.w.region.isNone && posted == [0]
      && (orderRel (memOrder m) || (State.enterStores { s.issued i q with nextId := (s.issued i q).nextId + 1 } q.wid
        (q.mkReq (s.issued i q).nextId i q.part (ps.map (·.1)) q.cnt)).2.complete)

theorem witness_StoresAreBuffered :
    buffers (.st nh .w32 (.v 1) (.s 2) (byLane .plain .wave)) (cached unit) .w32 (.v 1) (byLane .plain .wave) (List.range 32) 0xFFFFFFFF = true
    ∧ buffers (.sst nh .w32 (.s 8) (.s 2) (.offset 4)) (cached unit) .w32 (.s 8) (.offset 4) [0] 1 = true
    ∧ buffers (.st nh .w32 (.v 1) (.s 2) (byLane .rel .dev)) (cached unit) .w32 (.v 1) (byLane .rel .dev) (List.range 32) 0xFFFFFFFF = true
    ∧ postsStore (.v 1) (byProxy .plain .wave false) = true ∧ postsStore (.v 7) (byLane .plain .wave) = true
    ∧ postsStore (.v 7) (byProxy .rel .dev false) = true := by decide +kernel

theorem witness_BufferedBytesAreSeen :
    tfind unit.waves 0 = some wave1 ∧ 0x10004 % 32 + ([1, 2, 3, 4] : List Byte).length ≤ 32 ∧ unit.pme.moves = []
    ∧ (∀ e ∈ wave1.sb, ∀ b ∈ e.bytes, b.seq ≤ 5) ∧ (∀ m ∈ unit.homeq, m.wid = 0 → m.seq ≤ 5 ∧ unit.queuedBytes m = []) := by decide

/-- The wave's store buffer holds a byte of the sector at 0x1_0000. -/
def holdingByte : State := cached (unitW fun w => { w with sb := [⟨4, 2048, 0, 0x10000, 0x10000, [⟨0, 7, 2, 0, none⟩]⟩] })

/-- What ATOM.add needs of the lanes of its operands, posted ones among them. -/
def addsAt (s : State) (d : Opd) (m : Mem) (P : Iss → List Nat → List (Piece × Option (BitVec 7)) → Bool) : Bool :=
  let i : Instr := .atom nh .add false d (.s 2) m
  stands i s fun q =>
    let posted := q.postedLanes d 1 m
    let ps := q.atomPieces (s.issued i q) .add false d (.s 2) m (q.lanes.filter fun l => !posted.contains l)
    let want := if memNr m || (vDest d).isNone then [] else posted.map fun l => (l, homeOfLane (q.index m l :: q.dataWords d 1 l))
    !q.badFrame (.s 2) && (ps.all fun p => p.2 == none) && !(s.issued i q).piecesNoPlane q.w.ctx (ps.map (·.1))
      && (q.lanes.all fun l => !anyMalformed (q.index m l :: q.dataWords d 1 l)) && P q posted ps
      && match (s.issued i q).judgeSlots q want with
        | .got slots => slots.length == want.length
        | _ => false

theorem witness_AtomicsAsk :
    asks (.atom nh .cas true (.v 8) (.s 2) (byLane .ar .sys)) unit
      (fun q => q.atomPieces (unit.issued (.atom nh .cas true (.v 8) (.s 2) (byLane .ar .sys)) q) .cas true (.v 8) (.s 2) (byLane .ar .sys) q.lanes)
      false = true
    ∧ addsAt unit (.v 1) (byLane .plain .wave) (fun _ posted _ => posted == []) = true
    ∧ addsAt holdingByte (.v 1) (byLane .plain .wave) (fun q posted ps => posted == [] && ps.any fun p => q.w.buffered p.1) = true
    ∧ addsAt (cached prox) (.v 7) (byLane .plain .wave) (fun _ posted _ => posted == [0]) = true
    ∧ addsAt (cached prox) (.v 1) (byProxy .rel .dev false) (fun _ posted _ => posted == [0]) = true
    ∧ addsAt (cached prox) (.v 7) (byProxy .plain .wave true) (fun _ posted _ => posted == [0]) = true := by decide +kernel

theorem witness_OrderingInstructions : stands (.pub nh .dev) unit (fun _ => true) = true ∧ stands (.acq nh .team) unit (fun _ => true) = true
    ∧ stands (.fence nh .sys) unit (fun _ => true) = true := by decide

/-- The page table's channel is in an all-bank refresh. -/
def unserved (s : State) : State := { s with mc := { s.mc with allRef := (chanOf 0x6008).toList.map fun c => (c, 1) } }

/-- FRAME of s2:s3, whose page the core TLB holds. -/
def framed (s : State) (servable : Bool) : Bool :=
  stands (.frame nh (.f 1) (.s 2)) s fun q => ((q.uni64 (.s 2)).extractLsb' 56 8 == 0)
    && match tlbFind (s.core 0).tlb q.w.ctx (q.uni64 (.s 2)) with
      | some t =>
        let u := s.issued (.frame nh (.f 1) (.s 2)) q
        (match u.judgeTr q.w.ctx t .read with
        | .ok t1 => u.runServable q.w.ctx t1 (q.uni64 (.s 2)) == servable
        | .error _ => false)
      | none => false

theorem witness_FrameRegisters :
    framed (cached unit) true = true ∧ framed (unserved (cached unit)) false = true
    ∧ stands (.frame nh (.f 1) (.s 2)) unit (fun q => (tlbFind (unit.core 0).tlb q.w.ctx (q.uni64 (.s 2))).isNone) = true := by decide +kernel

/-- A barrier that operand s8 names. -/
def barred (q : Iss) : Bool := match txName q.grid q.team (q.uni (.s 8)) with | .ok _ => true | .error _ => false

theorem witness_CopiesAreIssued :
    stands (.copy nh .core .global (.s 6) (.s 2) (.s 8) (.none 0)) unit (fun q =>
      let u := unit.issued (.copy nh .core .global (.s 6) (.s 2) (.s 8) (.none 0)) q
      u.copyEnd q.team.grid q.grid q.team 1 (q.copyAddr (.s 6)) 64 == none && u.copyEnd q.team.grid q.grid q.team 0 (q.copyAddr (.s 2)) 64 == none
        && decide (q.team.ringHeld < 63)) = true
    ∧ stands (.copy nh .global .global (.t 3) (.s 2) (.s 9) (.none 0)) unit (fun q => tileBytes (q.team.tile 3) == (q.uni (.s 9)).toNat / 32 * 32
      && decide (q.team.ringHeld < 63)) = true
    ∧ stands (.tmov nh (.t 3) (.t 1) (.none 0)) unit (fun q => tileBytes (q.team.tile 3) == tileBytes (q.team.tile 1) && decide (q.team.tmq.length < 8)) = true
    ∧ stands (.copy nh .global .global (.t 3) (.s 2) (.s 9) (.s 8)) unit (fun q => barred q && tileBytes (q.team.tile 3) == (q.uni (.s 9)).toNat / 32 * 32
      && decide (q.team.ringHeld < 63)) = true
    ∧ stands (.tmov nh (.t 3) (.t 1) (.s 8)) unit (fun q => barred q && tileBytes (q.team.tile 3) == tileBytes (q.team.tile 1)
      && decide (q.team.tmq.length < 8)) = true := by
  decide +kernel

theorem witness_TileTable :
    stands (.tdef nh (.t 3) (.s 12)) unit (fun q =>
      let r := fun k => (q.sreg (12 + k)).toNat
      decide (r 1 < 2 ^ 18 ∧ r 0 % 65536 ≠ 0) && geomOk (r 0 % 65536) (r 0 / 65536) (r 1 % 65536) (r 1 / 65536 % 4) (r 2)
        && decide (geomEnd (r 0 % 65536) (r 0 / 65536) (r 1 % 65536) (r 2) ≤ q.grid.spSize (r 1 / 65536 % 4))) = true
    ∧ stands (.tdef nh (.t 3) (.none 0)) unit (fun _ => geomOk 0 0 0 0 0) = true
    ∧ stands (.tfree nh (.t 1)) unit (fun q => tileDefined (q.team.tile 1)) = true
    ∧ stands (.tstat nh (.s 4) (.t 1)) unit (fun _ => true) = true := by decide

theorem witness_BarrierInstructions :
    stands (.txinit nh (.s 8) (.lit 5)) unit (fun q => (match txName q.grid q.team (q.uni (.s 8)) with | .ok _ => true | .error _ => false)) = true
    ∧ stands (.txexpect nh (.s 8) (.lit 5)) unit (fun _ => true) = true ∧ stands (.txarrive nh (.s 8) (.lit 1)) unit (fun _ => true) = true
    ∧ stands (.txwait nh (.s 8) (.lit 1)) unit (fun _ => true) = true ∧ stands (.txtest nh (.s 4) (.s 8) (.lit 1)) unit (fun _ => true) = true
    ∧ stands (.cbar nh (.s 8) (.s 11)) unit (fun q => !(q.uni (.s 8)).getLsbD 31 && (q.uni (.s 11)).getLsbD 31
      && decide (((q.uni (.s 11)).extractLsb' 0 31).toNat % 16 = 0 ∧ ((q.uni (.s 11)).extractLsb' 0 31).toNat + 16 ≤ q.grid.sclu)) = true := by decide

/-- The team owns the engine, with slot 0 of bank 0 loaded with E4M3. -/
def engine : State := (unitW fun w => { w with chain := some 7 }).modCore 0 fun c => { c with mx := { Mx.init with owner := some 1, wst := [(0, ⟨.e4m3, false⟩)] } }

theorem witness_MatrixInstructions :
    stands (.mloadb nh .e4m3 false (.t 1) (.lit 1)) engine (fun q => tileBytes (q.team.tile 1) == 8192) = true
    ∧ stands (.mma nh .e4m3 false false (.a 4) (.t 2) (.lit 1)) engine (fun q => tileBytes (q.team.tile 2) == 4096
      && (mmaBank (engine.mxFor q) (wPart q.wid) .e4m3 false false 0).isNone) = true
    ∧ stands (.mchain nh) unit (fun q => q.w.chain.isNone) = true ∧ stands (.mend nh) engine (fun q => q.w.chain.isSome) = true
    ∧ stands (.oprdy nh (.t 2)) engine (fun _ => true) = true ∧ stands (.mzero nh (.a 4)) engine (fun _ => true) = true
    ∧ stands (.mread nh .e2m1 false (.v 4) (.a 4) (.lit 3)) engine (fun _ => true) = true
    ∧ stands (.mread nh .e2m1 true (.t 1) (.a 4) (.reg (.none 0))) engine (fun q => tileBytes (q.team.tile 1) == imageBytes .e2m1 true) = true
    ∧ stands (.mwrite nh .e2m1 true (.a 4) (.t 1) (.reg (.none 0))) engine (fun q => tileBytes (q.team.tile 1) == imageBytes .e2m1 true) = true
    ∧ stands (.mwrite nh .e2m1 false (.a 4) (.v 1) (.lit 3)) engine (fun q => plain q fun l => [q.src (.v 1) l]) = true
    ∧ stands (.mscale nh false true (.t 4) (.reg (.none 0))) engine (fun q => tileBytes (q.team.tile 4) == 512) = true
    ∧ stands (.mscale nh false false (.t 5) (.lit 1)) engine (fun q => tileBytes (q.team.tile 5) == 1024 && (mscaleBank (engine.mxFor q) false 0).isNone) = true
    ∧ stands (.mrowred nh .max (.v 4) (.a 4)) engine (fun _ => true) = true := by decide

/-- The descriptor's page: the core TLB holds it and its memory can be reached, or the core TLB misses. -/
def reaches (i : Instr) (s : State) (hit : Bool) (more : Iss → Bool) : Bool :=
  stands i s fun q => more q && match (s.issued i q).locateVa q.w.ctx (wCore q.wid) (q.uni64 (.s 2)) .read with
    | .ok (.mem pa _) => hit && !(s.issued i q).noPlane q.w.ctx pa
    | .ok (.va va) => !hit && va == q.uni64 (.s 2)
    | _ => false

theorem witness_ForestInstructions : ([(cached unit, true), (unit, false)] : List (State × Bool)).all (fun e =>
    (([.finit nh (.s 2), .fsnap nh (.s 2), .fundo nh (.s 2), .fcommit nh (.s 2), .fstat nh (.s 6) (.s 2),
      .relabel nh false false .sum (.s 2) (.s 8) (.s 12)] : List Instr).all fun i => reaches i e.1 e.2 fun _ => true)
    && reaches (.unite nh (.s 2) (.v 1) (.v 1)) e.1 e.2 (fun q => plain q fun l => [q.src (.v 1) l])
    && reaches (.find nh true (.v 6) (.s 2) (.v 1)) e.1 e.2 (fun q => plain q fun l => [q.src (.v 1) l])) = true := by decide +kernel

theorem witness_SpecialRegisters :
    stands (.gets nh (.s 1) (.x 9)) unit (fun q => q.w.pend.isEmpty) = true ∧ stands (.time nh (.s 6)) unit (fun _ => decide (unit.t7 / 7 < 2 ^ 64)) = true
    ∧ stands (.clock nh (.s 6)) unit (fun q => decide (q.clk < 2 ^ 64)) = true
    ∧ stands (.sets nh (.x 16) (.lit 1)) (unitW fun w => { w with x := [(16, 3)], raisedAt := 9 }) (fun q => q.w.raisedAt != q.clk) = true
    ∧ stands (.sets nh (.x 34) (.lit 0xFFFFFFFF)) inHandler (fun _ => true) = true := by decide

/-- Context 1 is RESIDENT, window 1 is open to it. -/
def shared (st : WinSt) : State := (unit.setCtx 1 { Ctx.init with st := .resident }).setWindow 1 ⟨st, 0, 1, true, 1, 1, 1, none, [], none, [], []⟩

theorem witness_WindowInstructions :
    stands (.wopen nh (.s 1) (.s 2) (.lit 0x81000001)) (shared .closed) (fun q =>
      ((q.uni64 (.s 2)).extractLsb' 0 16 == 0) && ((q.uni64 (.s 2)).extractLsb' 56 8 == 0) && q.w.ctx != 1
      && ((((shared .closed).issued (.wopen nh (.s 1) (.s 2) (.lit 0x81000001)) q).ctx 1).st != .free)
      && ((shared .closed).issued (.wopen nh (.s 1) (.s 2) (.lit 0x81000001)) q).windowRange q.w.ctx 1 1
      && (((List.range 193).drop 1).find? fun w => ((shared .closed).window w).st == .closed) == some 1) = true
    ∧ stands (.wclose nh (.lit 1)) (shared .opened) (fun q => ((shared .opened).window 1).owner == q.w.ctx
      && ((shared .opened).window 1).st == .opened) = true
    ∧ stands (.wclose nh (.lit 192)) ((shared .opened).setWindow 192 { (shared .opening).window 1 with pages := 1 }) (fun q => q.w.ctx == 0) = true
    ∧ stands (.tlbinv nh (.s 2) (.lit 1)) unit (fun _ => true) = true := by decide

theorem witness_QueueAndHint :
    stands (.qput nh 3 (.s 2)) unit (fun _ => true) = true ∧ stands (.qput nh 3 (.t 1)) unit (fun q => decide (256 ≤ tileBytes (q.team.tile 1))) = true
    ∧ stands (.hint nh .hot (.s 2)) unit (fun q => match (unit.issued (.hint nh .hot (.s 2)) q).xlate q.w.ctx (wCore q.wid) (q.uni64 (.s 2)) .read with
      | .ok _ => true
      | .error _ => false) = true
    ∧ stands (.hint nh .cold (.s 6)) unit (fun q => match (unit.issued (.hint nh .cold (.s 6)) q).xlate q.w.ctx (wCore q.wid) (q.uni64 (.s 6)) .read with
      | .ok _ => false
      | .error _ => true) = true := by decide

/-- A wave with three spilled entries in its split 0, which fills. -/
def spilt : State :=
  let s := unit.setWave 0 { wave1 with splits := [(0, sp true 0x10000 0xFF false)], stack := (List.range 17).map fun k => ⟨BitVec.ofNat 32 (2 ^ (k + 8)), 0, 0x10200, 0x10300, 0, false⟩ }
  let s := s.spillOne 0 0 0 65536
  s.modWave 0 fun w => w.modSplit 0 fun p => { p with filling := true, notBefore := 0 }

/-- A result in flight for v3 and s4. -/
def result1 : Writeback := ⟨5, 0, [(.v 3 1, 7), (.s 4, 9)], 1, [2]⟩

/-- A request of lanes 0 and 1 for the word at 0x1_0000 of physical memory, with its pieces in one state. -/
def req1 (i : Instr) (ps : List Piece) : Req := ⟨3, 0, i, 0, 0x10000, 0, 3, ps, [2], none, []⟩
/-- A piece of one lane at a physical address. -/
def atMem (lane pa len : Nat) (st : PieceSt) (data : List Byte) : Piece := ⟨lane, 0, len, BitVec.ofNat 64 pa, .mem pa 0, st, data, 0, 0⟩
/-- The load LD.w32 v6, [s2:s3 + v1 × 4]. -/
def load1 : Instr := .ld nh .w32 (.v 6) (.s 2) (byLane .plain .wave)
/-- The machine with a request under way. -/
def asking (r : Req) : State := unitW fun w => { w with reqs := [r], k := [(2, 1)], seq := 9 }
/-- A miss of lane 0. -/
def missing : Req := req1 load1 [⟨0, 0, 4, 0x10004, .va 0x10004, .untranslated, [], 0, 0⟩]

/-- The request stands in its wave, and `P` holds of the wave. -/
def standing (s : State) (wid : Nat) (r : Req) (P : Wave → Bool) : Bool :=
  match tfind s.waves wid with
  | some w => w.req r.id == some r && P w
  | none => false

theorem witness_PartitionClock :
    (match tfind spilt.waves 0, spilt.gridOf 1 with
      | some w, some g => (w.split 0).filling && decide ((w.split 0).notBefore ≤ spilt.clk (wCore 0)) && w.spilled == 1 && w.team == 1
        && !entryCorrupt w w.stack (entryOf (spilt.spRead 0 (wCore 0) (spillOff w g.score 0) 32))
      | _, _ => false) = true
    ∧ (∃ w, tfind (unitW fun w => { w with pend := [result1], k := [(2, 1)] }).waves 0 = some w
      ∧ (w.pend.find? fun x => x.id == 5) = some result1 ∧ result1.due ≤ 0 ∧ (∀ x ∈ w.pend, result1.due ≤ x.due)
      ∧ (result1.writes.map (·.1)).Nodup ∧ (∀ e ∈ result1.writes, e.1.fits e.2)) := by
  refine ⟨by decide, _, rfl, by decide, by decide, by decide, by decide, ?_⟩
  intro e he
  rcases List.mem_cons.1 he with rfl | he
  · exact ⟨show 1 < 32 by decide, show 7 < 2 ^ 33 by decide⟩
  · rcases List.mem_cons.1 he with rfl | he
    · exact ⟨trivial, show 9 < 2 ^ 32 by decide⟩
    · cases he

/-- A load whose piece may be served. -/
def ready1 : Req := req1 load1 [atMem 0 0x10000 4 .ready []]
/-- A load whose sector has come back. -/
def served1 : Req := req1 load1 [atMem 0 0x10000 4 .served [1, 2, 3, 4], atMem 1 0x10004 4 .served [5, 6, 7, 8]]

/-- What stands at the channel group of ready1's sector. -/
def waiting1 : Waiting := ⟨0, 0, 3, 0, 0, 0, 3, 0, false, [⟨2048, 0, false⟩]⟩

theorem witness_LoadsReturn :
    (asking ready1).idleSlot ((asking ready1).groupOf 0x10000) = false ∧ ((asking ready1).group ((asking ready1).groupOf 0x10000)).started = []
    ∧ (asking ready1).servable ((asking ready1).groupOf 0x10000) = [waiting1]
    ∧ (waiting1.sectors.mergeSort fun a b => decide (a.sector ≤ b.sector)).head? = some ⟨2048, 0, false⟩
    ∧ standing (asking ready1) 0 ready1 (fun w => (asking ready1).touches (atMem 0 0x10000 4 .ready []) 2048
      && decide ((asking ready1).stopAt (some (0, 0, 3)) w.ctx 0x10000 0 false = none)) = true
    ∧ standing (asking served1) 0 served1 (fun _ => served1.pieces.all fun p => decide (p.lane < 32 ∧ p.st = .served ∧ p.due ≤ (asking served1).t7)
      && match p.loc with | .mem pa _ => pa / 32 == 2048 | _ => false) = true
    ∧ standing (asking missing) 0 missing (fun w => (missing.pieces.all fun p => p.st == .untranslated && p.va.toNat / 65536 == 1 && !w.parkedLane 3 p.lane)
      && (asking missing).registered (wCore 0) 0 1
      && decide ((asking missing).waiters (wCore 0) 0 1 = [(0, missing)]) && (asking missing).walkServable 0 0x10000
      && (asking missing).walkTurn 0 0x10000 && missing.pieces.all (fun p => p.failure.isNone)
      && match (asking missing).xlate 0 (wCore 0) 0x10000 .read with
        | .ok tr => !(asking missing).noPlane 0 (tr.pa 0x10004)
        | _ => false) = true := by decide +kernel

/-- The data of an access have moved at the sector of an address. -/
def begun (s : State) (kind a b pa : Nat) : State :=
  s.modGroup (s.groupOf pa) fun q => { q with started := [⟨kind, a, b, pa / 32, true, 0⟩] }

/-- A store buffer entry with two bytes and the releases of the wave. -/
def buffered (rels : List Rel) (sb : List SEntry) : State := unitW fun w => { w with sb := sb, rels := rels, k := [(2, 1)], seq := 9 }
/-- Two bytes stored into the sector at 0x1_0000. -/
def entry2 : SEntry := ⟨4, 2048, 0, 0x10000, 0x10000, [⟨0, 7, 2, 0, none⟩, ⟨1, 8, 3, 0, none⟩, ⟨1, 9, 4, 0, none⟩]⟩
/-- A release at place 5. -/
def rel5 (cont : Cont) : Rel := ⟨6, 5, .sys, [2], cont, 0, 0x10000, 0, 1, none, 0⟩
/-- ATOM.add of lane 0 at 0x1_0004. -/
def atomic1 : Req := req1 (.atom nh .add false (.v 1) (.s 2) (byLane .plain .wave)) [atMem 0 0x10004 4 .ready (leBytes 8 5 ++ leBytes 16 0)]

theorem witness_StoresPerform :
    (let s := begun (buffered [rel5 .nothing] [entry2]) 2 0 4 0x10000
    match tfind s.waves 0 with
      | some w => (w.sb.find? fun x => x.id == 4) == some entry2 && (s.coveredBytes 0 w entry2).1 == entry2.bytes && s.accessDone 2 0 4 2048
        && s.place (2048 * 32) / 32 == 2048 && !s.isPeer (2048 * 32) && s.storeStop (some (2, 0, 4)) w.ctx 2048 0 (lastBytes (SEntry.cells (s.coveredBytes 0 w entry2).1)).length == none
      | none => false) = true
    ∧ (let s := begun (asking atomic1) 1 0 3 0x10004
      standing s 0 atomic1 fun w => atomic1.pieces == [atMem 0 0x10004 4 .ready (leBytes 8 5 ++ leBytes 16 0)]
      && !s.acqBlocked 0 0 && !s.relBlocked 0 0 && s.nextThere 0 (w.setReq { atomic1 with pieces := [atMem 0 0x10004 4 .done (leBytes 8 5 ++ leBytes 16 0)] }) (laneSeq 0 0) 2048 (bytesAt 0x10004 4)
      && !s.bufferedBefore w (laneSeq 0 0) 2048 && s.accessDone 1 0 3 2048 && s.stopAt (some (0, 0, 3)) w.ctx (2048 * 32) 0 true == none) = true
    ∧ (buffered [rel5 .nothing] [entry2]).uncovered 0 5 .sys = true
    ∧ (match tfind (buffered [rel5 .nothing] []).waves 0 with
      | some w => (w.rels.find? fun x => x.id == 6) == some (rel5 .nothing) && w.lost == none
      | none => false) = true
    ∧ (buffered [rel5 .nothing] []).uncovered 0 5 .sys = false := by decide +kernel

/-- An operation of lane 0 at core scratchpad byte 64, or another place. -/
def portOp (lvl off : Nat) (write : Bool) (what : PortWhat) : PortOp := ⟨7, 0, 0, 0, lvl, 0, off, write, what, 0, 0x10000, 0, [2], false⟩
/-- A scratchpad request of one lane, at its port. -/
def atPort (i : Instr) (write : Bool) (data : List Byte) : State :=
  { asking (req1 i [⟨0, 0, 4, 0, .sp 0 0 64, .ready, data, 0, 0⟩]) with portq := [portOp 0 64 write (.piece 3 0)] }
/-- STS and LDS of lane 0. -/
def sts1 : Instr := .sts nh .w32 (.v 1) (.none 0) (byLane .plain .wave)
def lds1 : Instr := .lds nh .w32 (.v 6) (.none 0) (byLane .plain .wave)
/-- A barrier of core 0 at byte 256 with an arrival at its port. -/
def arriving (arr c : Nat) (sec : Int) : State :=
  { (unitW fun w => { w with k := [(2, 1)] }).setTx 0 0 256 (txWord 3 false false arr 5 sec 0) with portq := [portOp 0 256 true (.tx (.arrive c))] }
/-- A leaf of the barrier at byte 512 of the cluster scratchpad. -/
def leaf (news : Option (BitVec 4 × Bool)) (mail : List Bool) : LeafRec := ⟨2, 1, 0, 256, 512, true, news, mail, none⟩
/-- Its root expects two arrivals. -/
def linked (l : LeafRec) : State :=
  (((unit.setTx 0 0 256 (txWord 3 false true 0 5 0 32)).setTx 1 0 512 (txWord 3 false false 2 2 0 0))).setLeaves 0 [l]

theorem witness_PortsPerform :
    ((atPort sts1 true [1, 2, 3, 4]).portq.find? fun o => o.id == 7) = some (portOp 0 64 true (.piece 3 0))
    ∧ (atPort sts1 true [1, 2, 3, 4]).portReady (portOp 0 64 true (.piece 3 0)) = true
    ∧ (match tfind (atPort sts1 true [1, 2, 3, 4]).waves 0 with | some w => (w.req 3).any fun r => decide (r.pieces.length = 1) | none => false) = true
    ∧ ((atPort sts1 true [1, 2, 3, 4]).core 0).fwd = []
    ∧ ((atPort lds1 false []).portq.find? fun o => o.id == 7) = some (portOp 0 64 false (.piece 3 0))
    ∧ (atPort lds1 false []).portReady (portOp 0 64 false (.piece 3 0)) = true
    ∧ (match tfind (atPort lds1 false []).waves 0 with | some w => (w.req 3).any fun r => decide (r.pieces.length = 1) | none => false) = true
    ∧ ((atPort lds1 false []).core 0).fwd = []
    ∧ ((arriving 2 2 0).portq.find? fun o => o.id == 7) = some (portOp 0 256 true (.tx (.arrive 2)))
    ∧ (arriving 2 2 0).portReady (portOp 0 256 true (.tx (.arrive 2))) = true
    ∧ 2 ≤ txArr ((arriving 2 2 0).txAt 0 0 256) ∧ txLinked ((arriving 2 2 0).txAt 0 0 256) = false
    ∧ (arriving 2 2 (-1)).portReady (portOp 0 256 true (.tx (.arrive 2))) = true ∧ 2 ≤ txArr ((arriving 2 2 (-1)).txAt 0 0 256)
    ∧ (((linked (leaf none [true])).leaves 0).find? fun x => x.id == 2) = some (leaf none [true])
    ∧ (linked (leaf none [true])).rootAt 0 (leaf none [true]) = 512
    ∧ (linked (leaf none [true])).rootBusy 1 0 512 = false ∧ 1 < txArr ((linked (leaf none [true])).txAt 1 0 512)
    ∧ (((linked (leaf (some (4, true)) [])).leaves 0).find? fun x => x.id == 2) = some (leaf (some (4, true)) [])
    ∧ (linked (leaf (some (4, true)) [])).leafOff (leaf (some (4, true)) []) = 256 ∧ (leaf (some (4, true)) []).sent = true
    ∧ ((linked { leaf (some (4, true)) [] with sent := false }).leaves 0).find? (fun x => x.id == 2) = some { leaf (some (4, true)) [] with sent := false }
    ∧ (∀ k, k < 16 → unit.hwBits 0 (256 + k) = 0) ∧ unit.hwBits 0 0 = 0xFF := by decide +kernel

/-- A message of lane 1 of the wave to home 3. -/
def msg (kind : HKind) (op : Option Nat) : HomeItem := ⟨8, 3, 0, 0, 2, 1, 0x10000, kind, op, 1, none, 0, []⟩
/-- Home 3 holds live slots 9 and 20 and the poisoned slot 21; the message stands there. -/
def homed (ms : List HomeItem) : State :=
  let s := unitW fun w => { w with k := [(2, 1)], seq := 9, rels := [rel5 .nothing] }
  let s := s.setHome 3 { Home.init with slots := [(9, ⟨.live, 41, 2, 1, 0, 0, 0, none, 1⟩), (20, ⟨.live, 0, 0, 2, 0, 0, 0, none, 1⟩), (21, ⟨.poisoned, 0, 0, 1, 5, 0, 0, none, 1⟩)], ptab := [(5, ⟨0x10040, 0x40, 0⟩)] }
  { s with homeq := ms }
/-- slot 9 + 1, and slot 21 + 1, into slot 20 -/
def add9 : HomeItem := msg (.alu (.iadd .wrap) (.slot 9 2) (.val 1) (.val 0) (some (20, 0))) none
def add21 : HomeItem := msg (.alu (.iadd .wrap) (.slot 21 0) (.val 1) (.val 0) (some (20, 0))) none
/-- A forward of slot 9, and the message at home 4 that waits for it. -/
def fwd9 : HomeItem := msg (.forward 9 2 77) none
def waits77 : HomeItem := { msg (.alu .mov (.fwd 77) (.val 0) (.val 0) (some (1, 0))) none with id := 9, home := 4 }
/-- The word at 0x1_0004, for slot 20. -/
def fill20 : HomeItem := msg (.fill [(4, 0x10004, 0)] 0x10004 (some (20, 0))) none
/-- A store of a word at 0x1_0004 that stands in the home's queue. -/
def queued1 : HomeItem := msg (.store ⟨.val 4, 0, 0, none, 0x10000⟩ .w32 (.val 0) [1, 2, 3, 4] true 0x10004 0) none
/-- A MAT of lane 1 that waits for slot 9. -/
def mat1 : HomeOp := ⟨30, 0, 2, .mat nh (.v 8) (.v 7), 0, 0x10000, 0, 2, [], [], [2], false, true⟩
def reading : State :=
  let s := homed [msg (.read 9 2) (some 30)]
  let s : State := { s with homeops := [mat1] }
  s.modWave 0 fun w => w.modSplit 0 fun p => { p with waitOn := some 30 }

set_option maxRecDepth 4000 in
theorem witness_HomesAnswer :
    ((homed [add9]).homeq.find? fun h => h.id == 8) = some add9 ∧ (homed [add9]).itemReady add9 = true
    ∧ ((homed [add9]).slot 3 20).current 0 = true
    ∧ (homed [add9]).readyKind add9 = some (.alu (.iadd .wrap) (.val 41) (.val 1) (.val 0) (some (20, 0)))
    ∧ (homed [add21]).itemReady add21 = true
    ∧ ((homed [add21]).readyKind add21).map (fun k => k.srcs.find? HSrc.isBad) = some (some (.bad false (some 5) 0x40))
    ∧ (homed [fwd9, waits77]).itemReady fwd9 = true ∧ ((homed [fwd9, waits77]).slot 3 9).current 2 = true
    ∧ ((homed [fwd9, waits77]).homeq.find? fun h => h.kind.srcs.contains (.fwd 77)) = some waits77
    ∧ (homed [fill20]).itemReady fill20 = true ∧ (begun (homed [fill20]) 3 0 2 0x10004).loadClear fill20 0x10004 = true ∧ (begun (homed [fill20]) 3 0 2 0x10004).accessDone 3 0 2 ((homed [fill20]).place 0x10004 / 32) = true
    ∧ (homed [fill20]).isPeer 0x10004 = false ∧ (homed [fill20]).stopAt (some (3, 8, 0)) 0 0x10004 0 false = none
    ∧ (homed [msg (.count 9 2 (-1)) none]).itemReady (msg (.count 9 2 (-1)) none) = true
    ∧ ((homed [msg (.count 20 0 (-1)) none]).slot 3 20).current 0 = true ∧ ((homed [msg (.count 9 7 (-1)) none]).slot 3 9).current 7 = false
    ∧ reading.itemReady (msg (.read 9 2) (some 30)) = true ∧ (reading.homeops.find? fun x => x.id == 30) = some mat1 ∧ mat1.left = laneBit 1
    ∧ (match tfind reading.waves 0 with | some w => (w.split 0).waitOn == some 30 | none => false) = true
    ∧ ({ homed [add9] with t7 := 14000000 } : State).overdue 0 = true ∧ (homed [add9]).homeSent 8 = false ∧ ((homed [add9]).home 3).ptab.length < 4095
    ∧ (homed [queued1]).queuedClear queued1 = true ∧ (begun (homed [queued1]) 3 0 2 0x10004).accessDone 3 0 2 ((homed [queued1]).place 0x10004 / 32) = true
    ∧ (homed [queued1]).storeStop (some (3, 8, 0)) 0 (0x10004 / 32) 0 4 = none := by decide +kernel

theorem witness_SlotGrant : ((unit.core 0).pool 3).length < 32 ∧ (unit.cluster (cluOf 0)).pwr = .on
    ∧ (List.range 64).length = min (64 - ((unit.core 0).pool 3).length) (unit.freeSlots 3)
    ∧ (∀ i ∈ List.range 64, i < homeSlots 3 ∧ (unit.slot 3 i).st = .free) ∧ (List.range 64).Nodup :=
  ⟨by decide, by decide, by decide, fun _ hi => ⟨Nat.lt_of_lt_of_le (List.mem_range.1 hi) (by decide), rfl⟩, List.nodup_range⟩

/-- An engine with one command. -/
def working (c : MCmd) : State :=
  ((unitW fun w => { w with k := [(2, 1)], seq := 9 }).modCore 0 fun k => { k with mx := { Mx.init with owner := some 1, wst := [(0, ⟨.e4m3, false⟩)], acc := [(accKey 4 1 2, 0x3F800000), (accKey 4 3 2, 0x40000000)] } }).modTeam 1 id |> fun s => { s with mxq := [c] }
/-- MMA.e4m3 a4, t2 with one bank; MZERO a4; MREAD v4, a4, 2. -/
def mma1 : MCmd := ⟨11, 0, 0, 0, 1, 2, .mma nh .e4m3 false false (.a 4) (.t 2) (.lit 1), 0, 0x10000, 0, 0xFF, 1, 1, [(0, ⟨.e4m3, false⟩)], some (tileOf 2 0 32 128 8192), [2], [], [], none, 32, 0⟩
def mzero1 : MCmd := { mma1 with instr := .mzero nh (.a 4), mask := 2 }
def mread1 : MCmd := { mma1 with instr := .mread nh .e4m3 false (.v 4) (.a 4) (.lit 2), mask := 0xA, arg := 2 }

set_option maxRecDepth 8000 in
theorem witness_EngineExecutes :
    ((working mma1).mxq.find? fun x => x.id == 11) = some mma1 ∧ (working mma1).before mma1 = [] ∧ 66 ∈ mma1.cells ∧ 3 < fmtGroups .e4m3
    ∧ bitAt (tget 0 mma1.prog 66) 3 = false ∧ 66 / 64 % 32 < ((working mma1).injectRow mma1).rowsIn
    ∧ ((working mzero1).mxq.find? fun x => x.id == 11) = some mzero1 ∧ (working mzero1).before mzero1 = [] ∧ mzero1.prog = []
    ∧ ((working mread1).mxq.find? fun x => x.id == 11) = some mread1 ∧ (working mread1).before mread1 = []
    ∧ (tfind (working mread1).waves 0).isSome = true := by decide

/-- A forest of 4 elements at 0x1_0800, with its arrays behind it; element 1 has the parent 1. -/
def forest : State := (unitW fun w => { w with k := [(2, 1)], seq := 9, splits := [(0, { sp true 0x1000C 0xFFFFFFFF false with waitOn := some 12 })] }).lay 0x10800
  ([1] ++ leBytes 51 0 ++ leBytes 4 4 ++ leBytes 4 3 ++ leBytes 4 2 ++ leBytes 12 0 ++ leBytes 4 64 ++ leBytes 8 0x11000 ++ leBytes 8 0x11100 ++ leBytes 8 0x11200 ++ leBytes 8 0x11300 ++ leBytes 16 0) |> fun s => s.lay 0x11000 ([0, 0, 0, 0, 1, 0, 0, 0, 2, 0, 0, 0, 2])
/-- A forest instruction that stands first at its home. -/
def forestOp (i : Instr) (args : List (Nat × Nat × Nat)) : FOp := ⟨12, 0, 2, i, 0, 0x10000, 0, 3, 0x10800, 0x10800, 0, args, [2], true, [], [], [], 0⟩
def judging (o : FOp) : State := { forest with forestq := [o] }
/-- What a judgement needs. -/
def judged (o : FOp) (want : Option (BitVec 7)) : Bool :=
  let s := judging o
  (s.forestq.find? fun y => y.id == 12) == some o && s.forestReady o && o.desc.toNat % 128 == 0
    && match tfind s.waves 0, s.gridOf 1, s.readDesc ⟨0, 12⟩ o.desc with
      | some w, some g, .ok (_, d) => s.refusal w.ctx g.eff.undolim o d == want && (w.split 0).waitOn == some 12 && w.stat == .ready && w.handler.isNone && w.heldTraps.isEmpty
        && (w.split 0).live && !(w.split 0).trapHeld && g.eff.traph != 0 && !badTraph g.eff.traph && w.region.isNone
      | _, _, _ => false
/-- FIND of element 1 in lane 0. -/
def find1 : FOp := forestOp (.find nh false (.v 6) (.s 2) (.v 1)) [(0, 1, 0)]

set_option maxRecDepth 8000 in
theorem witness_ForestJudges :
    judged (forestOp (.find nh false (.v 6) (.s 2) (.v 1)) [(0, 4, 0)]) (some 0x62) = true ∧ judged (forestOp (.fundo nh (.s 2)) []) (some 0x64) = true
    ∧ judged (forestOp (.fstat nh (.s 6) (.s 2)) []) none = true ∧ judged find1 none = true
    ∧ (match (judging find1).readDesc ⟨0, 12⟩ find1.desc with
      | .ok (_, d) => (match (judging find1).walk 0 (elemAt d.parent 1) .read with
        | .ok (_, tr) =>
          let pa := tr.pa (elemAt d.parent 1)
          !(judging find1).isPeer pa && decide ((judging find1).forestStop ⟨0, 12⟩ pa tr.key false = none) && (judging find1).physNat pa 4 % 2 ^ 31 == 1
        | .error _ => false)
      | .error _ => false) = true := by decide

/-- A copy of 64 bytes from 0x1_0000 to core scratchpad byte 4096, and the team that issued it. -/
def copy1 : BitVec 256 := copyCmd 1 0 none none 64 4096 0x10000
def copying (issued : List Pending) (active : List Active) : State :=
  (unitT fun t => { t with tail := 1, issued := issued, active := active }).spWrite 0 0 32 (leBytes 32 copy1.toNat)
def pending1 : Pending := ⟨20, some 0, true, 1, copy1, none, 0, 2, []⟩
def active1 : Active := ⟨20, some 0, 1, copy1, none, [0, 1], 0, false, 2, 0, [], []⟩
/-- The wave has exited. -/
def gone : State := unitW fun w => { w with stat := .exited }

theorem witness_CopiesAndTeamsEnd :
    (match tfind (copying [pending1] []).teams 1, (copying [pending1] []).gridOf 1 with
      | some t, some g =>
        let c := BitVec.ofNat 256 ((copying [pending1] []).spNat 0 t.core (t.entryOff 0) 32)
        ((t.issued ++ t.tmq).find? fun x => x.id == 20) == some pending1 && t.mayTake pending1 && !(copying [pending1] []).copyBlocked 1 0 2
          && cmdLen c == 64 && cmdProgress pending1.cmd == 0 && (copying [pending1] []).copyCheck g t c == none
      | _, _ => false) = true
    ∧ (match tfind (copying [] [active1]).teams 1, (copying [] [active1]).gridOf 1 with
      | some t, some g =>
        let s := copying [] [active1]
        (t.active.find? fun y => y.id == 20) == some active1 && t.resident && active1.left.contains 0 && active1.left.contains 1
          && (match s.copyPlace g t copy1 none true 0, s.copyPlace g t copy1 none false 0 with
            | .ok (.mem pa key), .ok (.sp l v x) => pa == 0x10000 && l == 0 && v == 0 && x == 4096 && s.stopAt none g.ctx pa key false == none
            | _, _ => false)
          && s.canServe (s.place 0x10000) && s.engineTurn g.ctx (s.groupOf (s.place 0x10000)) && !s.isPeer 0x10000 && s.link.remotes.isEmpty && cmdBar copy1 == none
          && !s.copyBehind g t active1 (.ok (.sp 0 0 4096)) && s.overwritten g t active1 0 (.ok (.sp 0 0 4096)) == none && copyCauses.contains 0x76 && decide (t.log.length < 8) && s.teamWaves 1 != []
      | _, _ => false) = true
    ∧ (∀ k, ((copying [] [active1]).core k).fwd = [])
    ∧ (match tfind gone.waves 0, tfind gone.teams 1 with
      | some w, some t => w.stat == .exited && gone.waveQuiet 0 && (gone.removeWave 0).teamOver 1 t
        && ((unitT fun t => { t with issued := [pending1] }).removeWave 0).teams.all fun e =>
          !((unitT fun t => { t with issued := [pending1] }).removeWave 0).teamOver e.1 e.2
      | _, _ => false) = true := by
  refine ⟨by decide +kernel, by decide +kernel, ?_, by decide +kernel⟩
  intro k
  rfl

/-- Context 1 in a state; VDARG names the frames 100 and 101. -/
def inState (st : CtxSt) : State := unit.setCtx 1 { Ctx.init with st := st, keyvalid := true, vdarg := 0x0000020000000064 }
/-- Context 0, whose team has been stopped and has drained. -/
def drained : State := ((unitT fun t => { t with stopped := true }).modCtx 0 fun c => { c with draining := true }).modWave 0 fun w => { w with stat := .halted, halting := false }

theorem witness_ContextCommands :
    (inState .free).ctx 1 = { Ctx.init with st := .free, keyvalid := true, vdarg := 0x0000020000000064 } ∧ ((inState .created).ctx 1).st = .created
    ∧ ((inState .keyed).ctx 1).st = .keyed ∧ ((inState .keyed).ctx 1).gcmd = none ∧ (inState .keyed).grantable 1 100 2 = true
    ∧ (inState .keyed).grantable 1 100 0 = false ∧ (inState .resident).grantable 1 1 2 = false ∧ ((inState .suspended).ctx 1).st = .suspended
    ∧ (unit.ctx 0).st = .resident ∧ (match tfind unit.waves 0, tfind unit.teams 1 with
      | some w, some x => w.team == 1 && x.resident && unit.teamCtx 1 == 0
      | _, _ => false) = true
    ∧ (drained.ctx 0).draining = true ∧ ((drained.ctxTeams 0).all fun x => !x.2.resident || (drained.teamDrained x.1 x.2 && !drained.teamEnds x.1 x.2)) = true
    ∧ ((inState .resetting).ctx 1).st = .resetting ∧ (inState .resetting).ctxDrained 1 = true := by decide

/-- The machine with more bytes in its memory, behind the page table. -/
def holding (s : State) (pa : Nat) (bs : List Byte) : State :=
  { s with phys := { s.phys with bytes := s.phys.bytes ++ (((List.range bs.length).zip bs).filter fun e => e.2 != 0).map (fun e => (pa + e.1, e.2)), minor := s.phys.minor ++ (List.range ((bs.length + 31) / 32)).map fun k => (pa / 32 + k, 1) } }

/-- A packet of one team of one wave: KERNEL at 0x1_0880, RCB at 0x1_0900. -/
def packet1 : List Byte := leBytes 8 0x10880 ++ leBytes 8 0x10900 ++ leBytes 2 1 ++ leBytes 2 1 ++ leBytes 2 1 ++ [1, 2] ++ leBytes 4 0 ++ leBytes 8 0xFFFFFFFFFFFFFFFF
  ++ leBytes 220 0
/-- A kernel header and a region control block of default values. -/
def kernel1 : List Byte := leBytes 4 0x4B524C43 ++ leBytes 2 1 ++ leBytes 2 0 ++ leBytes 4 0 ++ leBytes 4 24 ++ leBytes 4 12 ++ leBytes 4 1 ++ leBytes 4 65536 ++ leBytes 100 0
/-- A queued grid. -/
def queued5 : Nat × Grid := (5, ⟨0, 2, packet1, .node 9 0, .queued, false, none, [], 8, 0, 1, [], [], false, []⟩)
/-- A machine whose graph 7 has one node; a launch of it; a queued grid. -/
def launching : State :=
  let s : State := { (holding unit 0x10880 kernel1) with graphs := [(7, ⟨0, [packet1]⟩)], launches := [(3, ⟨0, 7, 1, 0xFFFFFF, [], [.waiting], false, false⟩)], nextId := 40 }
  s.setGrid 5 queued5.2
/-- A trigger of graph 7 with sequence number 1. -/
def trig1 : BitVec 64 := BitVec.ofNat 64 (7 * 2 ^ 52 + 2 ^ 24 + 0xFFFFFF)

/-- A grid that drains, with no team. -/
def draining1 : State := unit.setGrid 6 ⟨0, 2, packet1, .qput 1 0, .draining, false, none, [], 8, 1, 1, [], [], false, []⟩
/-- A context whose GLOAD command is armed, or in progress. -/
def loading (armed : Option (Bool × DWord)) (cmd : Option GCmd) : State :=
  (holding unit 0x11000 (leBytes 64 1 ++ packet1)).modCtx 0 fun c => { c with armed := armed, gcmd := cmd }

theorem stage5 : launching.stage5 = [.grid 5] := by
  have h : ∀ (l : List (Nat × Grid)) (f : Nat × Grid → Nat × Grid → Bool), l = [queued5] → (l.mergeSort f).take 1 = [queued5] := by
    intro l f h; subst h; simp
  unfold State.stage5
  simp only
  rw [h _ _ (by decide +kernel)]
  decide +kernel

theorem witness_Launches :
    tfind launching.graphs 7 = some ⟨0, [packet1]⟩
    ∧ (launching.ctx 0).st = .resident
    ∧ trig1.extractLsb' 24 28 = (launching.ctx 0).seqacc + 1
    ∧ (trig1.extractLsb' 52 12).toNat = 7
    ∧ launching.inFlight 0 < 64
    ∧ (launching.launches.all fun e => decide (3 ≤ e.1)) = true
    ∧ pkPreds packet1 = []
    ∧ (match tfind draining1.grids 6 with
      | some g => g.stat == .draining && (draining1.gridTeams 6).isEmpty && !draining1.hasChildren 6 g
      | none => false) = true
    ∧ ((loading none none).ctx 0).gcmd = none
    ∧ gloadReserved 0x11000 = false
    ∧ gloadReserved 0x8000000000000007 = false
    ∧ gloadReserved 1 = true
    ∧ ((loading (some (true, 0x11000)) none).ctx 0).armed = some (true, 0x11000)
    ∧ (loading none (some ⟨false, 0, 7⟩)).unloadCode 0 7 = 0
    ∧ (State.unloadCode { loading none (some ⟨false, 0, 7⟩) with graphs := [(7, ⟨1, []⟩)] } 0 7) = 2
    ∧ ((loading none (some ⟨true, 0x11000, 7⟩)).ctx 0).gcmd = some ⟨true, 0x11000, 7⟩ := by decide +kernel

theorem witness_Admission :
    (match tfind launching.grids 5 with
      | some g => (match State.judgeGrid { launching with fresh := launching.fresh + 1 } g with | .ok (_, _, none) => true | _ => false)
        && launching.readsServable g.ctx (launching.packetReads g.ctx g.packet)
      | none => false) = true := by decide +kernel

theorem witness_GloadLoad :
    (match (loading none (some ⟨true, 0x11000, 7⟩)).readGraph 0 7 0x11000 with | .ok ps => ps.length == 1 | .error _ => false) = true
    ∧ (let s := loading none (some ⟨true, 0x11000, 7⟩)
      s.readsServable 0 (s.imageReads 0 7 0x11000) = true
      ∧ (unserved s).readsServable 0 ((unserved s).imageReads 0 7 0x11000) = false) := by decide +kernel

theorem witness_GloadFails :
    (match (loading none (some ⟨true, 0x11FC0, 7⟩)).readGraph 0 7 0x11FC0 with | .ok _ => false | .error e => e == 4) = true
    ∧ (let s := loading none (some ⟨true, 0x11FC0, 7⟩)
      s.readsServable 0 (s.imageReads 0 7 0x11FC0) = true) := by decide +kernel

/-- The partition of context 0: cluster 0. -/
def part0 : BitVec 128 := BitVec.ofNat 128 (2 ^ 64 + 2 ^ 40 + 8)
/-- An admitted grid and nothing placed. -/
def placing : State :=
  let s : State := { unit with teams := [], waves := [], grids := [(5, ⟨0, 2, packet1, .node 9 0, .admitted, false, some ⟨0, 0x10800, 65536, 4096, 0, []⟩, [eff1], 8, 0, 1, [], [], false, []⟩)], nextId := 40 }
  { s with link := { s.link with part := [(0, part0)] } }
/-- A unit of the team that is SAVING. -/
def saving1 (claim : Option Nat) : LazyUnit := ⟨50, some 1, 1, 0, .block 0 0 0, .saving, claim⟩
def saving (claim : Option Nat) : State := { (unitT fun t => { t with resident := false }) with waves := [], lazies := [saving1 claim] }
/-- A block that the context has been given and that a waiting grid of it wants. -/
def given : LazyUnit := ⟨51, none, 1, 0, .block 0 0 65536, .owned, none⟩
/-- A team that stops for a migration. -/
def moving : State := (unitT fun t => { t with stopped := true, goal := some 4 }).modWave 0 fun w => { w with stat := .halted, halting := false }

theorem witness_TeamsArePlaced :
    (match tfind placing.grids 5 with
      | some g => g.stat == .admitted && !pkCoop g.packet && g.teams == 1 && (placing.ctx 0).present && !placing.heldTeam 5 none && placing.lazies == [] && (match (placing.without (placing.handed 0)).findPlace g none with
        | some p => placing.isOn p.core
        | none => false)
      | none => false) = true
    ∧ (let s : State := { placing with lazies := [given] }
      (s.lazies.all fun u => u.st != .owned || s.handedWanted u) && match tfind s.grids 5 with
        | some g => !s.heldTeam 5 none && (match (s.without (s.handed 0)).findPlace g none with | some p => s.isOn p.core | none => false)
        | none => false) = true
    ∧ (([none, some 3] : List (Option Nat)).all fun c => ((saving c).lazies.find? fun y => y.id == 50) == some (saving1 c)
      && (tfind (saving c).teams 1).isSome) = true
    ∧ (match tfind (unitT fun t => { t with resident := false }).teams 1 with | some t => !t.resident && (tfind unit.grids t.grid).isSome | none => false) = true
    ∧ (match tfind unit.teams 1, unit.gridOf 1 with
      | some x, some g => (unit.migrationPlace 1 x g 4).isSome && x.resident && !x.stopped && (unit.ctx g.ctx).present && g.stat == .running
      | _, _ => false) = true
    ∧ (match tfind moving.teams 1, moving.gridOf 1 with
      | some x, some g => (moving.migrationPlace 1 x g 4).isSome && x.resident && x.stopped && x.goal == some 4 && moving.teamDrained 1 x
      | _, _ => false) = true
    ∧ (partClus part0).cpop.toNat ≤ partCeil part0 := by decide +kernel

/-- A wave with a request translated in page 1, and an invalidation of that page in progress. -/
def invalid1 : Inval := ⟨60, 0, 1, 2, false, some 0, [2], []⟩
def invalidating : State := { (cached (unitW fun w => { w with k := [(2, 1)] })) with invals := [invalid1] }
/-- Window 1 in a state of its life, with the wave that waits for it; its one page is re-keyed. -/
def windowed (st : WinSt) : State := (unitW fun w => { w with k := [(2, 1)] }).setWindow 1
  (match st with
    | .opening => ⟨.opening, 0, 1, true, 1, 1, 1, none, [], some (0, [2]), [], []⟩
    | _ => ⟨st, 0, 1, true, 1, 1, 1, none, [(0, [2])], none, [], []⟩)
/-- A parked fault of lanes 0 to 3 of split 0. -/
def park1 : Park := ⟨0x10, 0, 0, 0x10000, 15, 0x20000, none, 0, 0, true⟩
def parked : State := unitW fun w => { w with stat := .parked, park := some park1 }
/-- REPLAY of core 0, slot 0, generation 0 with an action. -/
def replay (action : Nat) : BitVec 64 := BitVec.ofNat 64 (action * 2 ^ 24)
/-- A record that waits for the fault queue at 0x1_2000. -/
def rec1 : FRec := ⟨0x10, 0, 0, 0, 1, 0, 0, 0, 15, 0x10000, 0x20000, 0, 0, none⟩
def held1 : State := { unit.modCtx 0 fun c => { c with held := [(rec1, 9)], fqbase := 0x12000 } with waves := [] }

theorem witness_FaultsAndInvalidations :
    (∀ i ∈ unit.invals, i.reg = true → i.ctx ≠ 0) ∧ (invalidating.invals.find? fun x => x.id == 60) = some invalid1
    ∧ (∀ k ∈ invalid1.waits, invalidating.underWay invalid1 k = false) ∧ (tfind invalidating.waves 0).isSome = true
    ∧ ((windowed .opening).window 1).pages ≤ ((windowed .opening).window 1).done ∧ ((windowed .opening).window 1).st = .opening
    ∧ ((windowed .opening).window 1).opener = some (0, [2]) ∧ ((windowed .opening).window 1).held = none
    ∧ (((windowed .opening).setWindow 1 { (windowed .opening).window 1 with held := some none }).window 1).held.isSome = true
    ∧ ((windowed .closing).window 1).st = .closing ∧ (windowed .closing).windowBusy 1 = false ∧ ((windowed .closing).window 1).closers = [(0, [2])]
    ∧ (([0, 1, 2] : List Nat).all fun a => replayAction (replay a) == a) = true ∧ replayAction (replay 3) = 3
    ∧ (match parked.replayTarget (replay 1), tfind parked.waves 0 with
      | some (wid, w, p), some v => wid == 0 && w == v && w.ctx == 0 && p == park1 && w.handler == none && w.region == none && w.heldTraps.isEmpty && (w.split p.split).live
        && !(w.split p.split).trapHeld && eff1.traph != 0 && !badTraph eff1.traph
      | _, _ => false) = true
    ∧ (match tfind parked.teams 1 with | some x => (tfind parked.grids x.grid).any fun g => g.stat == .running && g.eff.traph == eff1.traph | none => false) = true := by
  decide +kernel

theorem witness_HeldFaultRecord :
    (held1.ctx 0).held = [(rec1, 9)] ∧ (held1.ctx 0).fqFull = false ∧ tfind held1.waves 9 = none
    ∧ (match tfind parked.waves 0 with | some w => w.park == some park1 && park1.gen == rec1.gen | none => false) = true
    ∧ rec1.kind = 0 ∧ selfDelivered park1.cause = false
    ∧ (match State.virtWrite (held1.modCtx 0 fun c => { c with held := [] }) 0
        ((held1.ctx 0).fqbase + BitVec.ofNat 64 (64 * ((held1.ctx 0).fqtail.toNat % 2 ^ (held1.ctx 0).fqsize.toNat)))
        (rec1.bytes (held1.ctx 0).fqtail.toNat) with | .ok _ => true | .error _ => false) = true := by decide +kernel

/-- The pool of tier 1, at 0x1_3000, holds its first frame. -/
def pooled : State := { (holding unit 0x13000 (leBytes 8 0x1000000)) with pme := { Pme.init with fpbase := [(1, 0x13000)], fpsize := [(1, 4)], fptail := [(1, 1)] } }
/-- MOVEREQ of page 1 of context 0 to tier 1. -/
def move1 : BitVec 64 := BitVec.ofNat 64 (2 ^ 56 + 2 ^ 16)
/-- A page of context 0 that moves from frame 1 to frame 300. -/
def mover (st : MoveSt) (pos moved : Nat) : Move := ⟨0, 1, 1, 300, 0, none, 0, 0, st, pos, moved, [], pteMoving, false, 0, 70⟩
def inMotion (m : Move) : State := { unit with pme := { Pme.init with moves := [(5, m)] } }

/-- The fault queue of context 0 is full. -/
def brimful (s : State) : State := s.modCtx 0 fun c => { c with fqtail := 64, fqsize := 6 }
/-- The same page with the entry that stands in its table, at the end of its copy or with nothing left to copy back. -/
def ending (st : MoveSt) (pos : Nat) : Move :=
  { mover st pos 0 with pte := match unit.pteAt 0 1 with | some (_, e) => e | none => 0 }
/-- What the copy of the last sector needs, when the entry stands as CUTTING left it or not. -/
def lastCopied (s : State) (m : Move) (same : Bool) : Bool :=
  let src := (m.src * 2048 + 2047) * 32
  let dst := (m.dst * 2048 + 2047) * 32
  let c := ((s.engineRead src m.keyS).2.engineWrite dst m.keyD ((s.engineRead src m.keyS).1.getD []) false).setMove 5
    { m with pos := 2048, moved := m.moved + 2 ^ 2047, t := s.t7 }
  !m.late s.t7 && !s.frameDown m.src && !s.frameDown m.dst && s.canServe src && s.canServe dst
    && s.engineTurn (s.ownerCtx src) (s.groupOf src) && s.engineTurn (s.ownerCtx src) (s.groupOf dst) && (s.engineRead src m.keyS).1.isSome
    && match c.pteAt m.ctx m.vpn with
      | some (_, e) => (e == m.pte) == same
      | none => false

theorem witness_PagesMove :
    (match unit.moveReq 0 with | (c, _) => c != 0) = true
    ∧ (let s : State := { unit with pme := { Pme.init with policy := 0x1080 } }
      s.pme.policy.getLsbD 7 && s.pme.policy.extractLsb' 8 24 != 0 && twf 0 s.phys.hot && s.policyPages.all fun e =>
        (e.2.tier == 0 || decide (s.hotOf e.1.1 < s.promote.toNat)) && (decide (2 ≤ e.2.tier) || decide (s.demote.toNat < s.hotOf e.1.1))) = true
    ∧ (match pooled.walk 0 0x10000 .read with | .ok (_, t) => pooled.atRest t && t.tier == 0 && !pooled.isPeer (t.frame * 65536) | .error _ => false) = true
    ∧ pooled.pme.inMotion < pooled.pme.maxMoves ∧ (pooled.ctx 0).st ≠ .free ∧ (move1.extractLsb' 56 2).toNat = 1 ∧ (move1.extractLsb' 16 40).toNat = 1
    ∧ (pooled.takeFrame 1 (pooled.pme.size 1 + 1)).1 = some 0x1000000
    ∧ (inMotion (mover .cutting 0 0)).invalDone 70 = true
    ∧ (mover .copying 3 7).late (inMotion (mover .copying 3 7)).t7 = false ∧ (mover .copying 3 7).late ({ inMotion (mover .copying 3 7) with t7 := 14001 } : State).t7 = true
    ∧ (mover .copying 3 7).t + 14000 < ({ inMotion (mover .copying 3 7) with t7 := 14001 } : State).t7
    ∧ (let s := inMotion (mover .copying 3 7)
      let at_ := fun (frame : Nat) => (frame * 2048 + 3) * 32
      s.engineTurn (s.ownerCtx (at_ 1)) (s.groupOf (at_ 1)) && s.engineTurn (s.ownerCtx (at_ 1)) (s.groupOf (at_ 300))) = true
    ∧ lastCopied (inMotion (ending .copying 2047)) (ending .copying 2047) true = true
    ∧ lastCopied (inMotion { ending .copying 2047 with pte := pteMoving }) { ending .copying 2047 with pte := pteMoving } false = true
    ∧ (let m := ending .aborting 5
      let s := inMotion m
      lowestBit m.moved = none ∧ s.frameDown m.dst = false ∧ s.windows = [] ∧ s.pme.fpsize = [] ∧ s.pme.moves = [(5, m)]
        ∧ (match s.pteAt m.ctx m.vpn with
          | some (pa, e) => (e.extractLsb' 16 36).toNat == m.src && s.cell pa / 65536 != s.cell (m.dst * 65536) / 65536
          | none => false) = true)
    ∧ ((brimful (inMotion (ending .aborting 5))).ctx 0).fqFull = true
    ∧ (inMotion (mover .copying 3 7)).frameDown 300 = false ∧ (inMotion (mover .copying 3 7)).frameDown 1 = false
    ∧ (inMotion (mover .copying 3 7)).canServe ((1 * 2048 + 3) * 32) = true ∧ (inMotion (mover .copying 3 7)).canServe ((300 * 2048 + 3) * 32) = true
    ∧ (inMotion (mover .copying 3 7)).phys.poison.contains ((inMotion (mover .copying 3 7)).cell ((1 * 2048 + 3) * 32) / 32) = false
    ∧ (inMotion (mover .copying 3 7)).sealAt ((1 * 2048 + 3) * 32) = (mover .copying 3 7).keyS + sealPlace ((1 * 2048 + 3) * 32)
    ∧ (inMotion (mover .copying 3 7)).phys.zero ((inMotion (mover .aborting 3 6)).cell ((300 * 2048 + 1) * 32) / 32) = true
    ∧ lowestBit (mover .aborting 3 6).moved = some 1 ∧ (mover .aborting 3 6).moved ≠ 2 ^ 1
    ∧ (inMotion (mover .committing 0 0)).invalDone 70 = true ∧ (inMotion (mover .committing 0 0)).holdsFrame 1 = false
    ∧ (inMotion (mover .committing 0 0)).pme.fpsize = [] ∧ (inMotion (mover .committing 0 0)).windows = [] := by decide +kernel

/-- A machine on which a storage macro has failed before: two spare rows of core 0 and of home 3 are used. -/
def tested (times : List Nat) (used : Nat) : State :=
  { unit with tests := ⟨[(spareKey (.core 0 9), used), (spareKey (.home 3 9), used)], [(macroKey (.core 0 9), times)], [], []⟩ }
/-- A macro under test. -/
def testing (site : TestSite) (err : TestError) (used : Nat) : State := { unit with tests := ⟨[(spareKey site, used)], [], [], [(site, err)]⟩ }

/-- The sector at 0x1_0000 is poisoned; a fill and a store of a home wait for it, or a buffered store of one byte. -/
def marred (s : State) : State := { s with phys := { s.phys with poison := [s.cell 0x10000 / 32] } }

theorem witness_FailedChecks :
    (let s := begun (marred (homed [fill20])) 3 0 2 0x10004
    (s.homeq.find? fun h => h.id == 8) = some fill20 ∧ s.itemReady fill20 = true ∧ (s.slot 3 20).current 0 = true ∧ s.loadClear fill20 0x10004 = true
      ∧ s.isPeer 0x10004 = false ∧ s.accessDone 3 0 2 (s.place 0x10004 / 32) = true ∧ (s.home 3).ptab.length < 4095
      ∧ (s.stopAt (some (3, 8, 0)) 0 0x10004 0 false).isSome = true)
    ∧ (let s := brimful (begun (marred (buffered [rel5 .nothing] [entry2])) 2 0 4 0x10000)
      (s.ctx 0).fqFull = true ∧ (match tfind s.waves 0 with
        | some w => (w.sb.find? fun x => x.id == 4) == some entry2 && w.reqs == [] && (s.coveredBytes 0 w entry2).1 != [] && !s.isPeer (2048 * 32)
          && s.accessDone 2 0 4 (s.place (2048 * 32) / 32)
          && (s.storeStop (some (2, 0, 4)) w.ctx 2048 0 (lastBytes (SEntry.cells (s.coveredBytes 0 w entry2).1)).length).isSome
        | none => false) = true)
    ∧ (let s := brimful (begun (marred (homed [queued1])) 3 0 2 0x10004)
      (s.ctx 0).fqFull = true ∧ (s.homeq.find? fun h => h.id == 8 && h.home == 3) = some queued1 ∧ s.queuedClear queued1 = true
        ∧ s.accessDone 3 0 2 (s.place 0x10004 / 32) = true ∧ s.isPeer 0x10004 = false ∧ (s.storeStop (some (3, 8, 0)) 0 (0x10004 / 32) 0 4).isSome = true) := by
  decide +kernel

theorem witness_StorageErrors :
    unit.phys.zero (unit.cell (2500 * 32) / 32) = true ∧ (unit.grantOf (2500 / 2048)).isSome = true
    ∧ (asking ready1).readSite (.load 0 3 2048) = some 0x10000
    ∧ ([.node, .tag] : List IntegCheck).all (fun k => (holding (asking ready1) 0x10000 [1]).canFail 0x10000 k) = true
    ∧ standing (asking ready1) 0 ready1 (fun w => w.stat == .ready && w.park.isNone && w.heldTraps.isEmpty && !performsAtOwner ready1.instr
      && (ready1.pieces.filter fun p => w.awaits 3 p 2048) == ready1.pieces) = true
    ∧ (asking missing).readSite (.load 0 3 (0x10004 / 32)) = some 0x6008 ∧ (asking missing).canFail 0x6008 .tag = true
    ∧ unit.testOf (.core 0 9) = none ∧ ownSite (.core 0 9) = true ∧ (testing (.home 3 9) .home 2).testOf (.home 3 9) = some (.home 3 9, .home)
    ∧ (testing (.dram 0x10000) (.integrity true) 8).testOf (.dram 0x10000) = some (.dram 0x10000, .integrity true)
    ∧ 8 ≤ tget 0 (testing (.dram 0x10000) (.integrity true) 8).tests.spares (spareKey (.dram 0x10000))
    ∧ ((tget [] (tested [5] 0).tests.times (macroKey (.core 0 9))).filter fun t => decide ((tested [5] 0).t7 < t + 7000000000)).length < 2
    ∧ 2 ≤ ((tget [] (tested [5, 3] 0).tests.times (macroKey (.core 0 9))).filter fun t => decide ((tested [5, 3] 0).t7 < t + 7000000000)).length
    ∧ tget 0 (tested [5, 3] 0).tests.spares (spareKey (.core 0 9)) < 2 ∧ 2 ≤ tget 0 (tested [] 2).tests.spares (spareKey (.home 3 9))
    ∧ 2 ≤ tget 0 (tested [] 2).tests.spares (spareKey (.core 0 9)) := by decide +kernel

/-- Port 3 in a state of its training; inbound entries of context 0. -/
def port3 (st : BitVec 2) (fails bad : Nat) : State :=
  let e : BitVec 128 := BitVec.ofNat 128 (2 ^ 127 + 77 * 2 ^ 98 + 2 * 2 ^ 75 + 1)
  { unit with link := { Link.init with ports := [(3, ⟨true, 5, st, fails, bad, false, 0⟩), (36, ⟨true, 0, 2, 0, 0, false, 0⟩)], inmap := [(0, e), (64, e)] } }
/-- A read of 4 bytes at offset 8 of entry 0 by device 77. -/
def inRead : InReq := ⟨77, 0, 8, .read 4⟩
/-- A load of a peer's word that waits for its reply, and a store of a release. -/
def away (what : RemoteWhat) (r : List Req) (rels : List Rel) : State :=
  let s := unitW fun w => { w with reqs := r, k := [(2, 1)], seq := 9, rels := rels }
  { s with link := { Link.init with remotes := [⟨80, 0, 0, 0, 3, 2048, 0, what⟩] } }
def remoteLoad : Req := req1 load1 [{ atMem 0 0x10000 4 .ready [] with st := .remote }]

theorem witness_LinkEvents :
    (([0, 1, 2, 3] : List (BitVec 2)).all fun st => ((port3 st 0 0).port 3).st == st) = true
    ∧ ((port3 1 14 0).port 3).fails < 15 ∧ ((port3 1 15 0).port 3).fails = 15 ∧ ((port3 2 0 6).port 3).badFlits < 7 ∧ 7 ≤ ((port3 2 0 7).port 3).badFlits
    ∧ (∀ x ∈ (port3 2 0 0).link.remotes, x.port ≠ 3)
    ∧ (port3 2 0 0).inAccepted 0 (some 77) 8 (.read 4) = true ∧ (port3 2 0 0).inAccepted 64 none 8 (.read 4) = true ∧ inEnable ((port3 2 0 0).inEntry 5) = false
    ∧ inEnable ((port3 2 0 0).inEntry 65) = false
    ∧ (let va := BitVec.ofNat 64 (inVpn ((port3 2 0 0).inEntry 0) * 65536 + 8)
      (port3 2 0 0).inFault 0 va 4 .read = none ∧ (match (port3 2 0 0).virtRead 0 va 4 with | .ok bs => bs.length == 4 | .error _ => false) = true)
    ∧ (away (.piece 0 3 0) [remoteLoad] []).staleReply ⟨80, 0, 0, 0, 3, 2048, 0, .piece 0 3 0⟩ = false
    ∧ ((away (.piece 0 3 0) [remoteLoad] []).nextGen 0).staleReply ⟨80, 0, 0, 0, 3, 2048, 0, .piece 0 3 0⟩ = true
    ∧ (away (.store 0 entry2 (rel5 .nothing)) [] [rel5 .nothing]).staleReply ⟨80, 0, 0, 0, 3, 2048, 0, .store 0 entry2 (rel5 .nothing)⟩ = false
    ∧ standing (away (.piece 0 3 0) [remoteLoad] []) 0 remoteLoad (fun _ => remoteLoad.pieces.length == 1) = true
    ∧ ((away (.store 0 entry2 (rel5 .nothing)) [] [rel5 .nothing]).link.remotes.find? fun y => y.id == 80)
      = some ⟨80, 0, 0, 0, 3, 2048, 0, .store 0 entry2 (rel5 .nothing)⟩
    ∧ (match tfind (away (.store 0 entry2 (rel5 .nothing)) [] [rel5 .nothing]).waves 0 with
      | some w => w.rels.any fun r => r.id == 6
      | none => false) = true
    ∧ (away (.store 0 entry2 (rel5 .nothing)) [] [rel5 .nothing]).t7 < 0 + 7000 * (unit.link.rtimeout.toNat) := by decide +kernel

/-- Hints with every field set: WAIT k11 and k0, STALL 5, SIGNAL none, the guard not p3. -/
def dh : Hints := ⟨0x801, 5, 15, true, 3⟩
/-- A word of the register form, field by field as R191 lays it out: opcode, MOD, D, A, EXT, C, B. -/
def rw (op : BitVec 10) (mod : BitVec 5) (d a : BitVec 12) (ext : BitVec 8) (c b : BitVec 12) : BitVec 96 :=
  0x801#12 ++ 5#4 ++ 15#4 ++ 1#1 ++ 3#3 ++ op ++ 0#1 ++ mod ++ d ++ a ++ ext ++ c ++ b
/-- A word of the literal form: opcode, MOD, D, A, literal. -/
def lw (op : BitVec 10) (mod : BitVec 5) (d a : BitVec 12) (n : BitVec 32) : BitVec 96 :=
  0x801#12 ++ 5#4 ++ 15#4 ++ 1#1 ++ 3#3 ++ op ++ 1#1 ++ mod ++ d ++ a ++ n
/-- Each word decodes to its instruction, and the encoder writes the word. -/
def decodesAll (l : List (BitVec 96 × Instr)) : Bool :=
  l.all fun e => encodeWord e.2 == some e.1 && match decodeWord e.1 with | .ok i => i == e.2 | .error _ => false

/-- The encoding tables: R209 to R225. -/
theorem test_decode_control : decodesAll [
    (rw 0x000 0b0 0xF00 0xF00 0x00 0xF00 0xF00, .nop dh),
    (lw 0x001 0b10 0xF00 0x203 0xFFFFFFFE, .bra dh true false (.p 3) 0xFFFFFFFE),
    (lw 0x001 0b1 0xF00 0x104 0x00000002, .bra dh false true (.s 4) 2),
    (rw 0x002 0b0 0xF00 0x106 0x00 0xF00 0x007, .brx dh (.s 6) (.reg (.v 7))),
    (lw 0x003 0b0 0x108 0xF00 0x00000010, .call dh (.s 8) (.lit 16)),
    (rw 0x003 0b0 0x108 0xF00 0x00 0xF00 0x10A, .call dh (.s 8) (.reg (.s 10))),
    (rw 0x004 0b0 0xF00 0x10C 0x00 0xF00 0xF00, .ret dh (.s 12)),
    (rw 0x005 0b0 0xF00 0xF00 0x00 0xF00 0xF00, .join dh),
    (rw 0x006 0b0 0xF00 0xF00 0x00 0xF00 0xF00, .exit dh),
    (lw 0x007 0b0 0xF00 0xF00 0x00000009, .trap dh (.lit 9)),
    (rw 0x008 0b0 0xF00 0xF00 0x00 0xF00 0xF00, .rett dh),
    (lw 0x009 0b0 0xF00 0xF00 0x08040A02, .region dh 0x08040A02),
    (rw 0x00A 0b0 0xF00 0xF00 0x00 0xF00 0xF00, .regend dh),
    (lw 0x00B 0b0 0xF00 0xF00 0x000000FF, .yield dh 255),
    (rw 0x00C 0b0 0x103 0xF00 0x00 0xF00 0xF00, .elect dh (.s 3)),
    (rw 0x00D 0b11 0x103 0x202 0x00 0xF00 0xF00, .vote dh .ballot (.s 3) (.p 2)),
    (rw 0x00D 0b1 0x201 0x202 0x00 0xF00 0xF00, .vote dh .all (.p 1) (.p 2)),
    (lw 0x00E 0b0 0xF00 0x40B 0x0000003F, .wait dh (.k 11) 63),
    (lw 0x00F 0b0 0xF00 0xF00 0x01020304, .waitc dh 0x01020304)] = true := by decide +kernel

/-- The encoding tables: R226. -/
theorem test_decode_integer : decodesAll [
    (rw 0x040 0b1 0x011 0x102 0x00 0xF00 0x044, .iadd dh .sat (.v 17) (.s 2) (.reg (.v 68))),
    (rw 0x041 0b10 0x011 0x102 0x00 0xF00 0x044, .isub dh .usat (.v 17) (.s 2) (.reg (.v 68))),
    (rw 0x042 0b0 0x011 0x102 0x00 0xF00 0x044, .imul dh (.v 17) (.s 2) (.reg (.v 68))),
    (rw 0x043 0b1 0x011 0x102 0x00 0xF00 0x044, .imulh dh true (.v 17) (.s 2) (.reg (.v 68))),
    (rw 0x044 0b0 0x011 0x102 0x00 0x033 0x044, .imad dh (.v 17) (.s 2) (.reg (.v 68)) (.v 51)),
    (rw 0x045 0b1 0x011 0x102 0x00 0xF00 0x044, .idiv dh true (.v 17) (.s 2) (.reg (.v 68))),
    (rw 0x046 0b0 0x011 0x102 0x00 0xF00 0x044, .irem dh false (.v 17) (.s 2) (.reg (.v 68))),
    (rw 0x047 0b1 0x011 0x102 0x00 0xF00 0x044, .imin dh true (.v 17) (.s 2) (.reg (.v 68))),
    (rw 0x048 0b0 0x011 0x102 0x00 0xF00 0x044, .imax dh false (.v 17) (.s 2) (.reg (.v 68))),
    (rw 0x049 0b1 0x011 0x102 0x00 0xF00 0xF00, .iabs dh true (.v 17) (.s 2)),
    (rw 0x04A 0b0 0x011 0x102 0x00 0xF00 0x044, .and dh (.v 17) (.s 2) (.reg (.v 68))),
    (rw 0x04B 0b0 0x011 0x102 0x00 0xF00 0x044, .or dh (.v 17) (.s 2) (.reg (.v 68))),
    (rw 0x04C 0b0 0x011 0x102 0x00 0xF00 0x044, .xor dh (.v 17) (.s 2) (.reg (.v 68))),
    (rw 0x04D 0b0 0x011 0x102 0x00 0xF00 0x044, .shl dh (.v 17) (.s 2) (.reg (.v 68))),
    (rw 0x04E 0b0 0x011 0x102 0x00 0xF00 0x044, .shr dh (.v 17) (.s 2) (.reg (.v 68))),
    (rw 0x04F 0b0 0x011 0x102 0x00 0xF00 0x044, .sar dh (.v 17) (.s 2) (.reg (.v 68))),
    (rw 0x050 0b0 0x011 0x102 0x00 0xF00 0x044, .rotl dh (.v 17) (.s 2) (.reg (.v 68))),
    (rw 0x051 0b1 0x011 0x102 0x00 0xF00 0x044, .bfe dh true (.v 17) (.s 2) (.reg (.v 68))),
    (lw 0x052 0b0 0x011 0x102 0x00000804, .bfi dh (.v 17) (.s 2) (.lit 0x804) (.v 17)),
    (rw 0x053 0b0 0x011 0x102 0x00 0xF00 0xF00, .popc dh (.v 17) (.s 2)),
    (rw 0x054 0b0 0x011 0x102 0x00 0xF00 0xF00, .clz dh (.v 17) (.s 2)),
    (rw 0x055 0b0 0x011 0x102 0x00 0xF00 0xF00, .brev dh (.v 17) (.s 2)),
    (rw 0x056 0b1110 0x201 0x102 0x00 0xF00 0x044, .isetp dh .le true (.p 1) (.s 2) (.reg (.v 68))),
    (rw 0x057 0b1101 0x011 0x102 0x00 0xF00 0x044, .sel dh true 5 (.v 17) (.s 2) (.reg (.v 68))),
    (lw 0x058 0b0 0x011 0xF00 0x12345678, .mov dh (.v 17) (.lit 0x12345678)),
    (rw 0x059 0b10 0x011 0x102 0x00 0xF00 0x044, .iadd2 dh .usat (.v 17) (.s 2) (.reg (.v 68))),
    (rw 0x05A 0b1 0x011 0x102 0x00 0xF00 0x044, .isub2 dh .sat (.v 17) (.s 2) (.reg (.v 68))),
    (rw 0x05B 0b0 0x011 0x102 0x00 0xF00 0x044, .imin2 dh false (.v 17) (.s 2) (.reg (.v 68))),
    (rw 0x05C 0b1 0x011 0x102 0x00 0xF00 0x044, .imax2 dh true (.v 17) (.s 2) (.reg (.v 68))),
    (rw 0x05D 0b1010 0x204 0x008 0x00 0xF00 0x114, .isetp2 dh .lt true (.p 4) (.v 8) (.reg (.s 20))),
    (rw 0x05E 0b0 0x201 0x202 0xE8 0x203 0x204, .plop dh 0xE8 (.p 1) (.p 2) (.p 3) (.p 4)),
    (rw 0x05F 0b110 0x012 0x104 0x00 0xF00 0x005, .lea dh true 2 (.v 18) (.s 4) (.reg (.v 5)))] = true := by decide +kernel

/-- The encoding tables: R239, R247. -/
theorem test_decode_float : decodesAll [
    (rw 0x080 0b0 0x011 0x102 0x00 0xF00 0x044, .fadd dh .rn (.v 17) (.s 2) (.reg (.v 68))),
    (rw 0x081 0b1 0x011 0x102 0x00 0xF00 0x044, .fsub dh .rz (.v 17) (.s 2) (.reg (.v 68))),
    (rw 0x082 0b10 0x011 0x102 0x00 0xF00 0x044, .fmul dh .rd (.v 17) (.s 2) (.reg (.v 68))),
    (rw 0x083 0b11 0x011 0x102 0x00 0x033 0x044, .ffma dh .ru (.v 17) (.s 2) (.reg (.v 68)) (.v 51)),
    (rw 0x084 0b0 0x011 0x102 0x00 0xF00 0x044, .fmin dh (.v 17) (.s 2) (.reg (.v 68))),
    (rw 0x085 0b0 0x011 0x102 0x00 0xF00 0x044, .fmax dh (.v 17) (.s 2) (.reg (.v 68))),
    (rw 0x086 0b11100 0x201 0x102 0x00 0xF00 0x044, .fsetp dh .nan (.p 1) (.s 2) (.reg (.v 68))),
    (rw 0x087 0b1 0x011 0x102 0x00 0xF00 0xF00, .frcp dh .rz (.v 17) (.s 2)),
    (rw 0x088 0b0 0x011 0x102 0x00 0xF00 0xF00, .frsq dh (.v 17) (.s 2)),
    (rw 0x089 0b10 0x011 0x102 0x00 0xF00 0xF00, .fsqrt dh .rd (.v 17) (.s 2)),
    (rw 0x08A 0b0 0x011 0x102 0x00 0xF00 0xF00, .fexp2 dh (.v 17) (.s 2)),
    (rw 0x08B 0b0 0x011 0x102 0x00 0xF00 0xF00, .flog2 dh (.v 17) (.s 2)),
    (rw 0x08C 0b0 0x011 0x102 0x00 0xF00 0xF00, .fsin dh (.v 17) (.s 2)),
    (rw 0x08D 0b0 0x011 0x102 0x00 0xF00 0xF00, .fcos dh (.v 17) (.s 2)),
    (rw 0x095 0b0 0x011 0x102 0x00 0xF00 0xF00, .fclass dh (.v 17) (.s 2)),
    (rw 0x08E 0b101 0x011 0x102 0x00 0xF00 0x044, .hadd2 dh true .rz (.v 17) (.s 2) (.reg (.v 68))),
    (rw 0x08F 0b11 0x011 0x102 0x00 0xF00 0x044, .hmul2 dh false .ru (.v 17) (.s 2) (.reg (.v 68))),
    (rw 0x090 0b110 0x011 0x102 0x00 0x033 0x044, .hfma2 dh true .rd (.v 17) (.s 2) (.reg (.v 68)) (.v 51)),
    (rw 0x091 0b101 0x011 0x102 0x00 0xF00 0xF00, .f2i dh true .rz (.v 17) (.s 2)),
    (rw 0x092 0b10 0x011 0x102 0x00 0xF00 0xF00, .i2f dh false .rd (.v 17) (.s 2)),
    (rw 0x093 0b1001 0x011 0x102 0x40 0xF00 0xF00, .cvt dh 1 false .rz .e4m3 .f32 (.v 17) (.s 2)),
    (rw 0x093 0b10110 0x011 0x102 0x12 0xF00 0xF00, .cvt dh 2 true .rd .f16 .bf16 (.v 17) (.s 2)),
    (rw 0x094 0b10 0x108 0x011 0x00 0xF00 0xF00, .quant dh 2 (.s 8) (.v 17))] = true := by decide +kernel

/-- The encoding tables: R251. -/
theorem test_decode_scalar : decodesAll [
    (rw 0x0C0 0b0 0x111 0x102 0x00 0xF00 0x144, .sadd dh (.s 17) (.s 2) (.reg (.s 68))),
    (rw 0x0C1 0b0 0x111 0x102 0x00 0xF00 0x144, .ssub dh (.s 17) (.s 2) (.reg (.s 68))),
    (rw 0x0C2 0b0 0x111 0x102 0x00 0xF00 0x144, .smul dh (.s 17) (.s 2) (.reg (.s 68))),
    (rw 0x0C3 0b0 0x111 0x102 0x00 0xF00 0x144, .sand dh (.s 17) (.s 2) (.reg (.s 68))),
    (rw 0x0C4 0b0 0x111 0x102 0x00 0xF00 0x144, .sor dh (.s 17) (.s 2) (.reg (.s 68))),
    (rw 0x0C5 0b0 0x111 0x102 0x00 0xF00 0x144, .sxor dh (.s 17) (.s 2) (.reg (.s 68))),
    (rw 0x0C6 0b0 0x111 0x102 0x00 0xF00 0x144, .sshl dh (.s 17) (.s 2) (.reg (.s 68))),
    (rw 0x0C7 0b1 0x111 0x102 0x00 0xF00 0x144, .sshr dh true (.s 17) (.s 2) (.reg (.s 68))),
    (lw 0x0C8 0b1 0x110 0xF00 0xFFFFFFFF, .smov dh true (.s 16) (.lit 0xFFFFFFFF)),
    (rw 0x0C9 0b10110 0x111 0x102 0x00 0xF00 0x144, .scmp dh .ge true (.s 17) (.s 2) (.reg (.s 68))),
    (rw 0x0CA 0b1 0x111 0x102 0x00 0xF00 0x144, .smin dh true (.s 17) (.s 2) (.reg (.s 68))),
    (rw 0x0CB 0b0 0x111 0x102 0x00 0xF00 0x144, .smax dh false (.s 17) (.s 2) (.reg (.s 68))),
    (lw 0x0CC 0b101 0x110 0x104 0xFFFFFFF8, .sld dh .w64 (.s 16) (.s 4) (.offset 0xFFFFFFF8)),
    (lw 0x0CD 0b1 0x111 0x605 0x00000003, .sst dh .u8 (.s 17) (.t 5) (.offset 3)),
    (rw 0x0CE 0b0 0x111 0x007 0x00 0xF00 0x109, .vread dh (.s 17) (.v 7) (.reg (.s 9))),
    (lw 0x0CF 0b0 0x007 0x111 0x0000001F, .vwrite dh false (.v 7) (.s 17) (.lit 31)),
    (rw 0x0CF 0b1 0x007 0x111 0x00 0xF00 0xF00, .vwrite dh true (.v 7) (.s 17) (.reg (.none 0)))] = true := by decide +kernel

/-- The encoding tables: R257. -/
theorem test_decode_lane : decodesAll [
    (rw 0x100 0b1 0x702 0x007 0x00 0xF00 0xF00, .pset dh true (.q 2) (.v 7)),
    (rw 0x101 0b0 0x008 0x007 0x00 0xF00 0x702, .perm dh (.v 8) (.v 7) (.q 2)),
    (lw 0x102 0b0 0x008 0x007 0x00000005, .bcast dh (.v 8) (.v 7) (.lit 5))] = true := by decide +kernel

/-- The encoding tables: R268, R273. -/
theorem test_decode_memory : decodesAll [
    (rw 0x140 0b110 0x008 0x302 0b11010110 0x009 0xFFC, .ld dh .w128 (.v 8) (.f 2) (.index 3 .acq .dev false (.v 9) 0xFFC)),
    (rw 0x141 0b10 0x007 0x104 0b01101000 0x109 0x004, .st dh .s8 (.v 7) (.s 4) (.index 1 .rel .sys false (.s 9) 4)),
    (rw 0x142 0b11 0x007 0x605 0b10000000 0x009 0x008, .lds dh .u16 (.v 7) (.t 5) (.index 2 .plain .wave false (.v 9) 8)),
    (lw 0x143 0b100 0x007 0xF01 0x00000010, .sts dh .s16 (.v 7) (.none 1) (.offset 16)),
    (rw 0x144 0b10010 0x008 0x302 0b00110101 0x009 0x000, .atom dh .cas false (.v 8) (.f 2) (.index 0 .ar .clu true (.v 9) 0)),
    (rw 0x144 0b1 0x008 0x302 0b10000001 0x001 0x008, .atom dh .add true (.v 8) (.f 2) (.index 2 .plain .wave true (.v 1) 8)),
    (rw 0x145 0b11010 0x007 0xF02 0b00000000 0x009 0x000, .atoms dh .inc false (.v 7) (.none 2) (.index 0 .plain .wave false (.v 9) 0)),
    (rw 0x146 0b0 0x303 0x104 0x00 0xF00 0xF00, .frame dh (.f 3) (.s 4)),
    (rw 0x147 0b1 0xF00 0xF00 0x00 0xF00 0xF00, .pub dh .team),
    (rw 0x148 0b11 0xF00 0xF00 0x00 0xF00 0xF00, .acq dh .dev),
    (rw 0x149 0b100 0xF00 0xF00 0x00 0xF00 0xF00, .fence dh .sys),
    (rw 0x14A 0b0 0x007 0x302 0b10000000 0x009 0x000, .ldx dh (.v 7) (.f 2) (.index 2 .plain .wave false (.v 9) 0)),
    (rw 0x14B 0b0 0x008 0x007 0x00 0xF00 0xF00, .mat dh (.v 8) (.v 7)),
    (rw 0x14C 0b0 0x007 0xF00 0x00 0xF00 0xF00, .pxrel dh (.v 7)),
    (rw 0x14D 0b0 0x201 0x007 0x00 0xF00 0xF00, .ispx dh (.p 1) (.v 7))] = true := by decide +kernel

/-- The encoding tables: R269. -/
theorem test_decode_async : decodesAll [
    (rw 0x180 0b100 0x10A 0x100 0x00 0x108 0x106, .copy dh .core .global (.s 10) (.s 0) (.s 6) (.s 8)),
    (rw 0x180 0b10 0x604 0x10A 0x00 0xF00 0x106, .copy dh .global .cluster (.t 4) (.s 10) (.s 6) (.none 0)),
    (rw 0x181 0b0 0x604 0x108 0x00 0xF00 0xF00, .tdef dh (.t 4) (.s 8)),
    (rw 0x182 0b0 0x604 0x605 0x00 0x109 0xF00, .tmov dh (.t 4) (.t 5) (.s 9)),
    (rw 0x183 0b0 0x108 0x604 0x00 0xF00 0xF00, .tstat dh (.s 8) (.t 4)),
    (rw 0x184 0b0 0x604 0xF00 0x00 0xF00 0xF00, .tfree dh (.t 4)),
    (lw 0x185 0b0 0xF00 0x107 0x00000003, .txinit dh (.s 7) (.lit 3)),
    (lw 0x186 0b0 0xF00 0x107 0x00000003, .txexpect dh (.s 7) (.lit 3)),
    (lw 0x187 0b0 0xF00 0x107 0x00000003, .txarrive dh (.s 7) (.lit 3)),
    (lw 0x188 0b0 0xF00 0x107 0x00000003, .txwait dh (.s 7) (.lit 3)),
    (rw 0x189 0b0 0x108 0x107 0x00 0xF00 0x106, .txtest dh (.s 8) (.s 7) (.reg (.s 6))),
    (rw 0x18A 0b0 0xF00 0x107 0x00 0xF00 0x106, .cbar dh (.s 7) (.s 6))] = true := by decide +kernel

/-- The encoding tables: R291. -/
theorem test_decode_matrix : decodesAll [
    (lw 0x1C0 0b10010 0x604 0xF00 0x00000003, .mloadb dh .fp16 true (.t 4) (.lit 3)),
    (lw 0x1C1 0b1101 0x505 0x604 0x00000003, .mma dh .int8 false true (.a 5) (.t 4) (.lit 3)),
    (rw 0x1C2 0b0 0xF00 0xF00 0x00 0xF00 0xF00, .mchain dh),
    (rw 0x1C3 0b0 0xF00 0xF00 0x00 0xF00 0xF00, .mend dh),
    (rw 0x1C4 0b0 0xF00 0x604 0x00 0xF00 0xF00, .oprdy dh (.t 4)),
    (rw 0x1C5 0b0 0x505 0xF00 0x00 0xF00 0xF00, .mzero dh (.a 5)),
    (lw 0x1C6 0b0 0x007 0x505 0x00000009, .mread dh .e2m1 false (.v 7) (.a 5) (.lit 9)),
    (rw 0x1C6 0b10100 0x604 0x505 0x00 0xF00 0xF00, .mread dh .bf16 false (.t 4) (.a 5) (.reg (.none 0))),
    (rw 0x1C7 0b1 0x505 0x604 0x00 0xF00 0xF00, .mwrite dh .e2m1 true (.a 5) (.t 4) (.reg (.none 0))),
    (lw 0x1C8 0b10 0x604 0xF00 0x00000003, .mscale dh true false (.t 4) (.lit 3)),
    (rw 0x1C8 0b1 0x604 0xF00 0x00 0xF00 0xF00, .mscale dh false true (.t 4) (.reg (.none 0))),
    (rw 0x1C9 0b10 0x007 0x505 0x00 0xF00 0xF00, .mrowred dh .maxabs (.v 7) (.a 5))] = true := by decide +kernel

/-- The encoding tables: R302. -/
theorem test_decode_forest : decodesAll [
    (rw 0x200 0b0 0xF00 0x104 0x00 0xF00 0xF00, .finit dh (.s 4)),
    (rw 0x204 0b0 0xF00 0x104 0x00 0xF00 0xF00, .fsnap dh (.s 4)),
    (rw 0x205 0b0 0xF00 0x104 0x00 0xF00 0xF00, .fundo dh (.s 4)),
    (rw 0x206 0b0 0xF00 0x104 0x00 0xF00 0xF00, .fcommit dh (.s 4)),
    (rw 0x201 0b0 0xF00 0x104 0x00 0x009 0x007, .unite dh (.s 4) (.v 7) (.v 9)),
    (rw 0x202 0b1 0x008 0x104 0x00 0xF00 0x007, .find dh true (.v 8) (.s 4) (.v 7)),
    (rw 0x203 0b1101 0xF00 0x104 0x00 0x108 0x106, .relabel dh true true .min (.s 4) (.s 6) (.s 8)),
    (rw 0x207 0b0 0x106 0x104 0x00 0xF00 0xF00, .fstat dh (.s 6) (.s 4))] = true := by decide +kernel

/-- The encoding tables: R304. -/
theorem test_decode_system : decodesAll [
    (rw 0x240 0b0 0x103 0x80A 0x00 0xF00 0xF00, .gets dh (.s 3) (.x 10)),
    (lw 0x241 0b0 0x810 0xF00 0x0000001F, .sets dh (.x 16) (.lit 31)),
    (rw 0x242 0b0 0x104 0xF00 0x00 0xF00 0xF00, .time dh (.s 4)),
    (rw 0x243 0b0 0x104 0xF00 0x00 0xF00 0xF00, .clock dh (.s 4)),
    (rw 0x244 0b111 0xF00 0x604 0x00 0xF00 0xF00, .qput dh 7 (.t 4)),
    (rw 0x245 0b1 0xF00 0x104 0x00 0xF00 0xF00, .hint dh .cold (.s 4)),
    (lw 0x246 0b0 0x103 0x104 0x81000001, .wopen dh (.s 3) (.s 4) (.lit 0x81000001)),
    (rw 0x247 0b0 0xF00 0xF00 0x00 0xF00 0x103, .wclose dh (.reg (.s 3))),
    (rw 0x248 0b0 0xF00 0x104 0x00 0xF00 0x103, .tlbinv dh (.s 4) (.reg (.s 3))),
    (lw 0x249 0b0 0xF00 0xF00 0x00000007, .bkpt dh (.lit 7))] = true := by decide +kernel

/-- An ill-formed term for each check of `Instr.wf`, with the rule that it breaks. -/
def illFormed : List Instr :=
  [ .nop { nh with signal := 12 },                                        -- R192: SIGNAL 0xC
    .iadd nh .wrap (.s 1) (.v 1) (.lit 0),                                -- R195: D is no v
    .iadd nh .wrap (.v 1) (.p 1) (.lit 0),                                -- A is no v, s or none
    .iadd nh .wrap (.v 1) (.v 1) (.reg (.f 1)),                           -- B of another class
    .sadd nh (.s 192) (.s 1) (.lit 0), .isetp nh .eq false (.p 8) (.v 1) (.lit 0), .frame nh (.f 8) (.s 2), .wait nh (.k 12) 0,
    .mzero nh (.a 64), .pset nh true (.q 8) (.v 1), .gets nh (.s 1) (.x 12), .gets nh (.s 1) (.x 17), .gets nh (.s 1) (.x 48),   -- R194, R197
    .bra nh false true (.p 1) 0, .bra nh false false (.s 1) 0,            -- R211
    .vote nh .ballot (.p 1) (.p 0), .vote nh .any (.s 1) (.p 0),          -- R224
    .brx nh (.s 3) (.lit 0), .call nh (.s 3) (.lit 0), .call nh (.s 2) (.reg (.s 5)), .ret nh (.s 1),   -- R195: pairs
    .region nh 0x80810000, .region nh 0x0000FF01,                         -- R218
    .imad nh (.v 1) (.v 2) (.lit 0) (.v 3), .bfi nh (.v 1) (.v 2) (.lit 0) (.v 3), .ffma nh .rn (.v 1) (.v 2) (.lit 0) (.v 3),
    .hfma2 nh false .rn (.v 1) (.v 2) (.lit 0) (.v 3),                    -- R198: C is D in the literal form
    .isetp nh .num false (.p 1) (.v 1) (.lit 0), .isetp2 nh .nan false (.p 2) (.v 1) (.lit 0), .scmp nh .num false (.s 1) (.s 1) (.lit 0),   -- R200
    .isetp2 nh .eq false (.p 1) (.v 1) (.lit 0), .lea nh false 0 (.v 1) (.s 2) (.lit 0), .lea nh false 0 (.v 2) (.s 3) (.lit 0),
    .cvt nh 0 false .rn .f32 .f32 (.v 1) (.v 2), .cvt nh 0 true .rn .e4m3 .f32 (.v 1) (.v 2),             -- R247
    .quant nh 0 (.s 9) (.v 1), .quant nh 0 (.s 188) (.v 1),               -- R248
    .smov nh true (.s 1) (.lit 0), .smov nh true (.s 2) (.reg (.s 3)),
    .sld nh .w32 (.s 1) (.none 0) (.offset 0), .sld nh .w32 (.s 1) (.s 2) (.index 0 .plain .wave false (.v 1) 0),   -- R255
    .sld nh .w32 (.s 1) (.s 2) (.index 0 .rel .dev false (.s 1) 0), .sst nh .w32 (.s 1) (.s 2) (.index 0 .acq .dev false (.s 1) 0),
    .ld nh .w64 (.v 1) (.s 2) (.offset 0), .ld nh .w128 (.v 2) (.s 2) (.offset 0), .ld nh .w32 (.v 1) (.s 3) (.offset 0),
    .ld nh .w32 (.v 1) (.s 2) (.index 0 .rel .dev false (.v 1) 0), .ld nh .w32 (.v 1) (.s 2) (.index 0 .plain .dev false (.v 1) 0),
    .ld nh .w32 (.v 1) (.s 2) (.index 0 .plain .wave true (.v 1) 0), .ld nh .w32 (.v 1) (.t 2) (.offset 0),   -- R201, R202, R271
    .lds nh .w32 (.v 1) (.s 2) (.offset 0), .lds nh .w32 (.v 1) (.none 3) (.offset 0), .ldx nh (.v 1) (.s 2) (.index 0 .acq .dev false (.v 1) 0),
    .atom nh .cas false (.v 1) (.s 2) (.offset 0), .atom nh .cas true (.v 2) (.s 2) (.offset 0), .atom nh .add true (.v 1) (.s 2) (.offset 0),
    .atom nh .fadd true (.v 2) (.s 2) (.offset 0), .atoms nh .inc true (.v 2) (.none 0) (.offset 0),      -- R273
    .vwrite nh true (.v 1) (.s 1) (.lit 0), .vwrite nh true (.v 1) (.s 1) (.reg (.s 2)),                  -- R256
    .perm nh (.v 1) (.v 2) (.v 3), .copy nh .global .global (.s 3) (.s 2) (.s 1) (.none 0), .copy nh .global .global (.v 2) (.s 2) (.s 1) (.none 0),
    .tdef nh (.t 1) (.s 2), .tstat nh (.s 2) (.t 1), .tmov nh (.t 1) (.s 2) (.none 0), .txtest nh (.s 2) (.s 1) (.lit 0),   -- R269
    .mread nh .e2m1 false (.t 1) (.a 1) (.lit 0), .mwrite nh .e2m1 false (.a 1) (.t 1) (.lit 0), .mscale nh false true (.t 1) (.lit 0),   -- R291
    .relabel nh false true .count (.s 2) (.s 4) (.s 6), .relabel nh false false .sum (.s 2) (.s 5) (.s 6), .fstat nh (.s 3) (.s 2), .unite nh (.s 2) (.s 4) (.v 1),   -- R302
    .time nh (.s 1), .qput nh 0 (.s 1), .hint nh .hot (.s 1), .wopen nh (.s 1) (.s 3) (.lit 0), .tlbinv nh (.s 3) (.lit 0), .bkpt nh (.reg (.v 1)) ]

theorem test_wellformed_refuses : illFormed.all (fun i => !i.wf) = true := by decide +kernel

/-- A reserved opcode, a used literal bit, an all-zero word and the checks of R206 by their names. -/
theorem test_decode_refuses :
    (match decodeWord (rw 0x010 0 0xF00 0xF00 0 0xF00 0xF00) with | .error _ => true | .ok _ => false)
    && (match decodeWord (lw 0x005 0 0xF00 0xF00 0) with | .error _ => true | .ok _ => false)
    && (match decodeWord (rw 0x040 3 0x001 0x001 0 0xF00 0x001) with | .error _ => true | .ok _ => false)
    && (match decodeWord (rw 0x040 0 0x001 0x001 1 0xF00 0x001) with | .error _ => true | .ok _ => false)
    && (match decodeWord (rw 0x040 0 0x001 0x001 0 0x001 0x001) with | .error _ => true | .ok _ => false)
    && (match decodeWord 0 with | .error _ => true | .ok _ => false) = true := by decide +kernel

/-- MOV v3, #7 with no hints, field by field. -/
def movWord : BitVec 96 := 0x000#12 ++ 0#4 ++ 15#4 ++ 0#1 ++ 7#3 ++ 0x058#10 ++ 1#1 ++ 0#5 ++ 0x003#12 ++ 0xF00#12 ++ 0x00000007#32

/-- R190, R191: the decoder reads MOV v3, #7 from its word, and the step runs it where it stands first. -/
theorem test_first_instruction : decodeTableWord 96 movWord.toNat = some (.mov nh (.v 3) (.lit 7))
    ∧ (match step (State.reset.withFetchWord 96 movWord.toNat) with
      | .next t => t.newest 0 (.v 3 31) == 7 && t.newest 0 (.v 2 31) == 0
      | _ => false) = true := by decide +kernel

/-- The newest value of a register after an instruction. -/
def after (i : Instr) (x : Target) (n : Nat) : Bool := match exec i unit with | .next t => t.newest 0 x == n | _ => false

/-- R228: 0x10000 + 1 in lane 3, with v1 = lane + 1; wrap, signed and unsigned saturation at the ends. -/
theorem test_add : (after (.iadd nh .wrap (.v 5) (.v 1) (.lit 0xFFFFFFFF)) (.v 5 4) 3 && after (.iadd nh .sat (.v 5) (.v 1) (.lit 0x7FFFFFFF)) (.v 5 4) 0x7FFFFFFF
    && after (.iadd nh .usat (.v 5) (.v 1) (.lit 0xFFFFFFFE)) (.v 5 4) 0xFFFFFFFF && after (.isub nh .usat (.v 5) (.v 1) (.lit 9)) (.v 5 4) 0
    && after (.isub nh .sat (.v 5) (.v 1) (.lit 0x80000000)) (.v 5 4) 0x7FFFFFFF) = true := by decide +kernel

/-- R228: a shift count counts whole; SAR fills with the sign; ROTL takes five bits. -/
theorem test_shift : (after (.shl nh (.v 5) (.v 1) (.lit 0x100)) (.v 5 4) 0 && after (.shl nh (.v 5) (.v 1) (.lit 31)) (.v 5 1) 0x80000000
    && after (.sar nh (.v 5) (.s 11) (.lit 40)) (.v 5 0) 0xFFFFFFFF && after (.shr nh (.v 5) (.s 11) (.lit 31)) (.v 5 0) 1
    && after (.rotl nh (.v 5) (.s 11) (.lit 33)) (.v 5 0) 0x21) = true := by decide +kernel

/-- R243, R244: 1.0 + 2.0, 3.0 × 0.5, and a rounding to nearest even against rounding up. -/
theorem test_float : (after (.fadd nh .rn (.v 5) (.none 0) (.lit 0x40400000)) (.v 5 0) 0x40400000
    && (match exec (.fmul nh .rn (.v 5) (.s 2) (.lit 0x3F000000)) (unitW fun w => { w with s := [(2, 0x40400000)] }) with | .next t => t.newest 0 (.v 5 7) == 0x3FC00000 | _ => false)
    && (match exec (.fadd nh .rn (.v 5) (.s 2) (.lit 0x33800000)) (unitW fun w => { w with s := [(2, 0x3F800000)] }) with | .next t => t.newest 0 (.v 5 7) == 0x3F800000 | _ => false)
    && (match exec (.fadd nh .ru (.v 5) (.s 2) (.lit 0x33800000)) (unitW fun w => { w with s := [(2, 0x3F800000)] }) with | .next t => t.newest 0 (.v 5 7) == 0x3F800001 | _ => false))
    = true := by decide +kernel

/-- Channel 2 with its bank 1 in a state, and the time. -/
def channel (b : Bank) (next all t7 : Nat) : State :=
  { unit with mc := { Mc.init with banks := [(bankKey 2 1, b)], nextRef := if next = 0 then [] else [(2, next)], allRef := if all = 0 then [] else [(2, all)] }, t7 := t7 }
def openRow : Bank := { Bank.init with row := some 7, lastUse := 100, owes := 1, acts := [(7, 3)], hot := [7] }
def refreshing1 : Bank := { Bank.init with refreshing := some 100, owes := 1, acts := [(7, 3)] }
/-- A refreshing bank whose next refresh falls due. -/
def dueAgain : State := channel refreshing1 1 0 200

theorem witness_ControllerEvents :
    (unit.grids.filter fun g => g.2.ctx == 0 && g.2.stat != .complete).length = 1 ∧ (unit.grids.filter fun g => g.2.ctx == 3 && g.2.stat != .complete) = []
    ∧ ((channel openRow 0 0 800).bank (bankKey 2 1)) = openRow ∧ (channel openRow 0 0 800).accepted (groupOfChan 2) 2 1 = false ∧ openRow.row.isSome = true ∧ openRow.lastUse + 700 ≤ 800
    ∧ ((channel refreshing1 0 0 940).bank (bankKey 2 1)).refreshing = some 100 ∧ 100 + 840 ≤ 940
    ∧ tget 0 (channel Bank.init 1 0 0).mc.nextRef 2 = 1 ∧ tget 0 (channel Bank.init 1 0 0).mc.allRef 2 = 0
    ∧ ((channel Bank.init 1 0 0).bank (bankKey 2 1)).row = none ∧ ((channel Bank.init 1 0 0).bank (bankKey 2 1)).lastUse = 0
    ∧ (channel Bank.init 1 0 0).accepted (groupOfChan 2) 2 1 = false ∧ ((channel openRow 1 0 0).bank (bankKey 2 1)).owes < 8
    ∧ (dueAgain.bank (bankKey 2 1)).refreshing.isSome = true ∧ (dueAgain.bank (bankKey 2 1)).row = none ∧ (dueAgain.bank (bankKey 2 1)).lastUse ≤ dueAgain.t7
    ∧ dueAgain.accepted (groupOfChan 2) 2 1 = false ∧ tget 0 dueAgain.mc.nextRef 2 = 1 ∧ tget 0 dueAgain.mc.allRef 2 = 0
    ∧ 8 ≤ ((channel { openRow with owes := 8 } 1 0 0).bank (bankKey 2 1)).owes
    ∧ tget 0 (channel openRow 1 5 2454).mc.allRef 2 ≠ 0 ∧ tget 0 (channel openRow 1 5 2454).mc.allRef 2 + 2449 ≤ (channel openRow 1 5 2454).t7 := by decide +kernel

/-- Cluster 2 in a state. -/
def clustered (k : Cluster) (t7 : Nat) : State := { unit with clusters := [(2, k)], t7 := t7 }
def island (mode : BitVec 2) (count : Nat) : Cluster := { Cluster.init with clk := 1400, islands := [(1, ⟨16, 64, true, mode, 0, count⟩)] }

theorem witness_PowerEvents :
    ((clustered { Cluster.init with stretch := 1 } 0).cluster 2).stretch = 1 ∧ ((clustered { Cluster.init with halving := 1 } 0).cluster 2).halving = 1
    ∧ ((clustered { Cluster.init with pwr := .gated } 0).cluster 2).pwr = .gated
    ∧ ((clustered (island 2 0) 0).cluster 2).isl 1 = ⟨16, 64, true, 2, 0, 0⟩ ∧ 0 + 1400 ≤ ((clustered (island 2 0) 0).cluster 2).clk
    ∧ (clustered Cluster.init 7000000).clusterIdle 2 = true ∧ unit.clusterIdle 0 = false ∧ (unit.cluster 0).pwr = .on
    ∧ ((clustered Cluster.init 7000000).cluster 2).idleFrom + 7000000 ≤ (clustered Cluster.init 7000000).t7 ∧ Cluster.init.auto = true
    ∧ (clustered { Cluster.init with pwr := .closing } 0).portsBusy 2 = false ∧ Cluster.init.wanted = []
    ∧ (clustered { Cluster.init with pwr := .closing, wanted := [⟨1, none, 16⟩] } 0).portsBusy 2 = false ∧ ((clustered { Cluster.init with pwr := .closing, wanted := [⟨1, none, 16⟩] } 0).cluster 2).wanted ≠ []
    ∧ (clustered { Cluster.init with pwr := .waking, wakeAt := 5, clk := 5 } 0).cluster 2 = { Cluster.init with pwr := .waking, wakeAt := 5, clk := 5 } := by
  decide +kernel

/-- 0x80010 is WINDOW 1: a write of 8 bits, which is not its width, stores nothing; 0x80000 is reserved; VDCTL stands at both ends of its
range, and the trigger page of context 63 in virtual function 64. -/
theorem witness_RegisterWrites :
    fnReg 0 0x80010 = some (.window 1) ∧ (fnReg 0 0x80010).map (fun r => r.width) ≠ some 8 ∧ fnReg 0 0x80000 = none ∧ fnReg 64 0x18 = some (.gload 63)
    ∧ fnReg 65 0 = none ∧ fnReg 1 0x1000 = none
    ∧ fnReg 0 0x100000 = some (.vdctl 0) ∧ fnReg 0 0x13F000 = some (.vdctl 63) ∧ (7 : BitVec 128).toNat % 16 = 7 ∧ 8 ≤ (15 : BitVec 128).toNat % 16 := by
  decide +kernel

/-- The split of `withFetchWord` stands at issue, and the twelve bytes at its program counter are those of MOV v3, #7. -/
theorem witness_StepRunsDecoded :
    (let s := State.reset.withFetchWord 96 movWord.toNat
    s.agenda = [.issue 0 0] ∧ s.shutdown = false
    ∧ (match tfind s.waves 0 with
      | some w => w.stat == .ready && w.trapDue.isNone && (w.split 0).live && !(w.split 0).joinHeld && !(w.split 0).trapHeld && (w.split 0).waitOn.isNone
        && !(w.split 0).filling && decide ((w.split 0).notBefore ≤ s.clk (wCore 0)) && (w.split 0).pc == 0x10000
        && (List.range 3).all fun k => match State.xlate { s with agenda := [] } w.ctx 0 (0x10000 + BitVec.ofNat 64 (4 * k)) .fetch with
          | .ok t => !s.isPeer (t.pa (0x10000 + BitVec.ofNat 64 (4 * k))) && s.stopAt none w.ctx (t.pa (0x10000 + BitVec.ofNat 64 (4 * k))) t.key false == none
            && (State.tlbHit { s with agenda := [] } w.ctx 0 (0x10000 + BitVec.ofNat 64 (4 * k)) || State.walkServable { s with agenda := [] } w.ctx (0x10000 + BitVec.ofNat 64 (4 * k)))
            && s.canServe (s.place (t.pa (0x10000 + BitVec.ofNat 64 (4 * k))))
            && (List.range 4).all fun o => movWord.extractLsb' (8 * (4 * k + o)) 8 == s.physByte (t.pa (0x10000 + BitVec.ofNat 64 (4 * k)) + o)
          | .error _ => false
      | none => false) = true)
    ∧ decodeWord movWord = .ok (.mov nh (.v 3) (.lit 7))
    ∧ ({ State.reset with agenda := [.ev .coldReset] } : State).agenda = [.ev .coldReset] ∧ State.reset.agenda = [] ∧ State.reset.shutdown = false
    ∧ (Task.ev .warmReset ≠ .ev .coldReset) := by decide +kernel

theorem witness_DecodeEncode : Instr.wf (.iadd nh .sat (.v 5) (.s 17) (.reg (.v 200))) = true
    ∧ (encodeWord (.iadd nh .sat (.v 5) (.s 17) (.reg (.v 200)))).isSome = true := by decide +kernel

theorem witness_MemoryStaysCanonical : State.reset.memWf = true ∧ unit.memWf = true
    ∧ (match step (State.reset.withFetchWord 96 movWord.toNat) with | .next t => t.memWf | _ => false) = true := by decide +kernel

end Sys2Proof.Tests
end

section
/-! PROOFS. The registers: what a write of the host does at every offset (R4 to R6, R180), and what the registers read after a reset
(R5, R321). -/

namespace Sys2Proof.Machine

/-! Where the registers of a numbered block stand. -/

/-- The page of context n (R38). -/
theorem fnReg_ctxPage {n o : Nat} (hn : n < 64) (ho : o < 0x1000) : fnReg 0 (0x100000 + o + 0x1000 * n) = ctxReg n o := by
  have hq : (0x100000 + o + 0x1000 * n - 0x100000) / 0x1000 = n := by omega
  have hr : (0x100000 + o + 0x1000 * n) % 0x1000 = o := by omega
  simp (disch := omega) only [fnReg, regAt, if_pos, if_neg, if_true, hq, hr]

/-- The trigger page of context n, in the space of the physical function (R60, R180). -/
theorem fnReg_trigPage {n o : Nat} (hn : n < 64) (ho : o < 0x1000) : fnReg 0 (0x1000000 + o + 0x1000 * n) = trigReg n o := by
  have hq : (0x1000000 + o + 0x1000 * n - 0x1000000) / 0x1000 = n := by omega
  have hr : (0x1000000 + o + 0x1000 * n) % 0x1000 = o := by omega
  simp (disch := omega) only [fnReg, regAt, if_pos, if_neg, if_true, hq, hr]

/-- The fault block of context n (R317). -/
theorem fnReg_faultBlock {n o : Nat} (hn : n < 64) (ho : o < 0x40) : fnReg 0 (0x600000 + o + 0x40 * n) = faultReg n o := by
  have hq : (0x600000 + o + 0x40 * n - 0x600000) / 0x40 = n := by omega
  have hr : (0x600000 + o + 0x40 * n) % 0x40 = o := by omega
  simp (disch := omega) only [fnReg, regAt, if_pos, if_neg, if_true, hq, hr]

/-- The translation block of context n (R149). -/
theorem fnReg_translationBlock {n o : Nat} (hn : n < 64) (ho : o < 0x40) : fnReg 0 (0x300000 + o + 0x40 * n)
    = if o = 0 then some (.ptroot n) else if o = 8 then some (.invaddr n) else if o = 16 then some (.invcnt n)
      else if o = 20 then some (.invstat n) else none := by
  have hq : (0x300000 + o + 0x40 * n - 0x300000) / 0x40 = n := by omega
  have hr : (0x300000 + o + 0x40 * n) % 0x40 = o := by omega
  simp (disch := omega) only [fnReg, regAt, if_pos, if_neg, if_true, hq, hr]

/-- The power block of cluster c (R334). -/
theorem fnReg_powerBlock {c o : Nat} (hc : c < 24) (ho : o < 0x100) : fnReg 0 (0x900000 + o + 0x100 * c) = powerReg c o := by
  have hq : (0x900000 + o + 0x100 * c - 0x900000) / 0x100 = c := by omega
  have hr : (0x900000 + o + 0x100 * c) % 0x100 = o := by omega
  simp (disch := omega) only [fnReg, regAt, if_pos, if_neg, if_true, hq, hr]

theorem fnReg_islctl {c i : Nat} (hc : c < 24) (hi : i < 4) : fnReg 0 (0x900020 + 0x100 * c + 4 * i) = some (.islctl c i) := by
  have hk : (0x20 + 4 * i - 0x20) / 4 = i := by omega
  rw [show 0x900020 + 0x100 * c + 4 * i = 0x900000 + (0x20 + 4 * i) + 0x100 * c by omega, fnReg_powerBlock hc (by omega)]
  simp (disch := omega) only [powerReg, if_pos, if_neg, hk]

/-- The inbound entries of the link block (R183). -/
theorem fnReg_inmap {j : Nat} (hj : j < 128) : fnReg 0 (0x500800 + 16 * j) = some (.inmap j) := by
  have hk : (0x500800 + 16 * j - 0x500000 - 0x800) / 16 = j := by omega
  simp (disch := omega) only [fnReg, regAt, linkReg, if_pos, if_neg, if_true, hk]

/-- The ports of the link block (R178). -/
theorem fnReg_portctl {p : Nat} (hp : p < 37) : fnReg 0 (0x500100 + 4 * p) = some (.portctl p) := by
  have hk : (0x500100 + 4 * p - 0x500000 - 0x100) / 4 = p := by omega
  simp (disch := omega) only [fnReg, regAt, linkReg, if_pos, if_neg, if_true, hk]

/-- Virtual function n + 1 maps the trigger page of context n (R180). -/
theorem fnReg_virtual {n off : Nat} (hn : n < 64) (ho : off < 0x1000) :
    fnReg (n + 1) off = fnReg 0 (0x1000000 + 0x1000 * n + off) := by
  rw [Nat.add_right_comm, fnReg_trigPage hn ho]
  simp (disch := omega) only [fnReg, if_pos, if_neg, Nat.add_sub_cancel]

/-- A virtual function maps no more than a page (R180). -/
theorem fnReg_virtual_beyond {n off : Nat} (ho : 0x1000 ≤ off) : fnReg (n + 1) off = none := by
  simp (disch := omega) only [fnReg, if_neg]

/-- What no trigger page has, no virtual function has. -/
theorem fnReg_virtual_reserved {fn off : Nat} (hf : fn ≠ 0) (ho : ∀ n, trigReg n off = none) : fnReg fn off = none := by
  simp only [fnReg, if_neg hf, ho, ite_self]

/-! What a write does: one rule for each kind of register. -/

section

variable {fn off n : Nat} {r : Reg} {v : BitVec 128} {s t : State}

/-- A reserved offset, or another width than the register's, stores nothing (R6, log 60). -/
theorem exec_registerWrite_ignored (h : ∀ r, fnReg fn off = some r → r.width ≠ n) :
    exec (.registerWrite ⟨fn, off⟩ n v) s = .next s := by
  simp only [exec, execRegisterWrite]
  cases hr : fnReg fn off with
  | none => rfl
  | some r => simp only [if_neg (h r hr)]

theorem exec_registerWrite_reserved (h : fnReg fn off = none) : exec (.registerWrite ⟨fn, off⟩ n v) s = .next s :=
  exec_registerWrite_ignored fun r hr => by simp [h] at hr

theorem readAt_reserved (h : fnReg fn off = none) : s.readAt fn off = 0 := by
  simp only [State.readAt, h]

/-- A write of its own width does what the register does. -/
theorem exec_registerWrite_stores (h : fnReg fn off = some r) (hn : r.width = n) (hw : s.writeReg r v = t) :
    exec (.registerWrite ⟨fn, off⟩ n v) s = .next t := by
  simp only [exec, execRegisterWrite, h, hn, if_true, hw]

/-- A command register performs its command. -/
theorem exec_registerWrite_performs {x : Result} (h : fnReg fn off = some r) (hn : r.width = n) (hw : s.writeReg r v = x.orElse s)
    (hx : ∃ t, x = .next t) : exec (.registerWrite ⟨fn, off⟩ n v) s = x := by
  obtain ⟨t, rfl⟩ := hx
  exact exec_registerWrite_stores h hn hw

/-- A write, and a read, depend on the offset only through the register that stands there. -/
theorem exec_registerWrite_congr {fn' off' : Nat} (h : fnReg fn off = fnReg fn' off') :
    exec (.registerWrite ⟨fn, off⟩ n v) s = exec (.registerWrite ⟨fn', off'⟩ n v) s := by
  simp only [exec, execRegisterWrite, h]

/-- The registers that software cannot write; the host port takes no command (R178). -/
def Reg.readOnly : Reg → Bool
  | .window _ | .vdsavemax _ | .ilcount _ | .invstat _ | .fphead _ | .movestat | .hotval | .moving | .partstat | .fqtail _ | .fqdrop _
  | .replaystat _ | .abseq | .abcount | .event _ | .therm _ | .clupwr _ | .mxcad _ _ | .seqacc _ | .seqemit _ | .gstat _
  | .portctl 36 => true
  | _ => false

theorem writeReg_readOnly (h : r.readOnly = true) (v : BitVec 128) : s.writeReg r v = s := by
  unfold Reg.readOnly at h
  split at h
  case h_23 => cases h
  all_goals rfl

/-- A register that software cannot write keeps its value, and so does all else (R4). -/
theorem exec_registerWrite_readOnly (h : (fnReg fn off).all Reg.readOnly = true) :
    exec (.registerWrite ⟨fn, off⟩ n v) s = .next s := by
  cases hr : fnReg fn off with
  | none => exact exec_registerWrite_reserved hr
  | some r =>
    rw [hr] at h
    by_cases hw : r.width = n
    · exact exec_registerWrite_stores hr hw (writeReg_readOnly h v)
    · exact exec_registerWrite_ignored fun r' hr' => Option.some.inj (hr.symm.trans hr') ▸ hw

end

/-! The commands of VDCTL (R39). -/

/-- The command that a code names: a step of the table for each of 1 to 7. -/
theorem vdCommand_eq_exec {n code : Nat} {i : Instr} (s : State) (h : (code, i) ∈ [(1, Instr.create n), (2, .keygen n), (3, .grant n),
    (4, .admitCtx n), (5, .suspend n), (6, .reset n), (7, .release n)]) : s.vdCommand n code = exec i s := by
  simp only [List.mem_cons, Prod.mk.injEq, List.not_mem_nil, or_false] at h
  obtain ⟨rfl, rfl⟩ | ⟨rfl, rfl⟩ | ⟨rfl, rfl⟩ | ⟨rfl, rfl⟩ | ⟨rfl, rfl⟩ | ⟨rfl, rfl⟩ | ⟨rfl, rfl⟩ := h <;> rfl

theorem vdCommand_undefined {n code : Nat} (s : State) (h : 8 ≤ code) :
    s.vdCommand n code = exec (.vdctlUndefinedCommand n (BitVec.ofNat 4 code)) s := by
  unfold State.vdCommand
  split
  case h_9 => rfl
  all_goals omega

/-- Every command answers a next state. -/
theorem vdCommand_next (s : State) (n code : Nat) : ∃ t, s.vdCommand n code = .next t := by
  unfold State.vdCommand
  split <;> exact ⟨_, rfl⟩

theorem exec_write_vdctl {n : Nat} (hn : n < 64) (v : BitVec 128) (s : State) :
    exec (.registerWrite ⟨0, 0x100000 + 0x1000 * n⟩ 32 v) s = s.vdCommand n (v.toNat % 16) :=
  exec_registerWrite_performs (fnReg_ctxPage (o := 0) hn (by decide)) rfl
    (by simp only [State.writeReg, BitVec.extractLsb'_toNat, Nat.shiftRight_zero]) (vdCommand_next s n _)

/-! The field maps. -/

/-- A value whose low bits read 0. -/
theorem aligned_eq_and (v : BitVec 128) (low : Nat) : aligned v low = v.setWidth 64 &&& (BitVec.allOnes 64 <<< low) := by
  have h : aligned v low = (v.setWidth 64 >>> low) <<< low := by
    apply BitVec.eq_of_toNat_eq
    simp [aligned, Nat.shiftRight_eq_div_pow, Nat.shiftLeft_eq]
  refine BitVec.eq_of_getLsbD_eq fun i hi => ?_
  simp only [h, BitVec.getLsbD_and, BitVec.getLsbD_shiftLeft, BitVec.getLsbD_ushiftRight, BitVec.getLsbD_setWidth, BitVec.getLsbD_allOnes]
  by_cases hl : i < low
  · simp [hl]
  · rw [Nat.add_sub_cancel' (Nat.le_of_not_lt hl)]
    simp [hl, hi, show i - low < 64 by omega]

theorem logSize_eq (v : BitVec 128) :
    logSize v = if 6 ≤ v.toNat % 32 ∧ v.toNat % 32 ≤ 16 then v.extractLsb' 0 5 else 6 := by
  simp only [logSize, BitVec.extractLsb'_toNat, Nat.shiftRight_zero]

/-- What the field map of an inbound entry keeps: all but bits 40 to 74 (R183). -/
theorem getLsbD_inboundFields (v : BitVec 128) {b : Nat} (hb : b < 128) :
    (v &&& ~~~(BitVec.ofNat 128 ((2 ^ 35 - 1) * 2 ^ 40))).getLsbD b = (v.getLsbD b && (b < 40 || 75 ≤ b)) := by
  have hm : (~~~(BitVec.ofNat 128 ((2 ^ 35 - 1) * 2 ^ 40))).getLsbD b = (b < 40 || 75 ≤ b) := by
    simp only [BitVec.getLsbD_not, BitVec.getLsbD_ofNat, Nat.testBit_mul_two_pow, Nat.testBit_two_pow_sub_one, hb]
    rw [Bool.eq_iff_iff]
    simp only [decide_true, Bool.true_and, Bool.not_and, Bool.or_eq_true, Bool.not_eq_eq_eq_not, Bool.not_true,
      decide_eq_false_iff_not, not_le, not_lt, decide_eq_true_eq]
    omega
  rw [BitVec.getLsbD_and, hm]

/-! What a write of some registers does, at its offset. -/

section

variable {n c : Nat} (v : BitVec 128) (s : State)

/-- The registers of a context that hold what their field maps keep (R38, R60, R149, R317). -/
theorem exec_write_ctxFields (hn : n < 64) :
    exec (.registerWrite ⟨0, 0x100008 + 0x1000 * n⟩ 64 v) s = .next (s.modCtx n fun c => { c with vdarg := v.setWidth 64 })
    ∧ exec (.registerWrite ⟨0, 0x1000030 + 0x1000 * n⟩ 64 v) s = .next (s.modCtx n fun c => { c with cplbase := v.setWidth 64 &&& ~~~0xFFF })
    ∧ exec (.registerWrite ⟨0, 0x300000 + 0x40 * n⟩ 64 v) s
      = .next (s.modCtx n fun c => { c with ptroot := v.setWidth 64 &&& 0xFFFFFFFFFE000 })
    ∧ exec (.registerWrite ⟨0, 0x300008 + 0x40 * n⟩ 64 v) s = .next (s.modCtx n fun c => { c with invaddr := v.setWidth 64 &&& ~~~0xFFFF })
    ∧ exec (.registerWrite ⟨0, 0x600000 + 0x40 * n⟩ 64 v) s = .next (s.modCtx n fun c => { c with fqbase := v.setWidth 64 &&& ~~~0xFFF })
    ∧ exec (.registerWrite ⟨0, 0x600010 + 0x40 * n⟩ 32 v) s = .next (s.modCtx n fun c => { c with fqhead := v.setWidth 32 })
    ∧ exec (.registerWrite ⟨0, 0x600008 + 0x40 * n⟩ 32 v) s = .next (s.modCtx n fun c => { c with fqsize := logSize v }) := by
  have low12 : aligned v 12 = v.setWidth 64 &&& ~~~0xFFF := aligned_eq_and v 12
  have low16 : aligned v 16 = v.setWidth 64 &&& ~~~0xFFFF := aligned_eq_and v 16
  have root : aligned v 13 &&& 0xFFFFFFFFFFFFF = v.setWidth 64 &&& 0xFFFFFFFFFE000 := by
    rw [aligned_eq_and, BitVec.and_assoc]
    rfl
  refine ⟨exec_registerWrite_stores (fnReg_ctxPage (o := 8) hn (by decide)) rfl rfl,
    exec_registerWrite_stores (fnReg_trigPage (o := 0x30) hn (by decide)) rfl ?_,
    exec_registerWrite_stores (fnReg_translationBlock (o := 0) hn (by decide)) rfl ?_,
    exec_registerWrite_stores (fnReg_translationBlock (o := 8) hn (by decide)) rfl ?_,
    exec_registerWrite_stores (fnReg_faultBlock (o := 0) hn (by decide)) rfl ?_,
    exec_registerWrite_stores (fnReg_faultBlock (o := 16) hn (by decide)) rfl rfl,
    exec_registerWrite_stores (fnReg_faultBlock (o := 8) hn (by decide)) rfl rfl⟩
  all_goals simp only [State.writeReg, low12, low16, root]

/-- A trigger through its register (R60, R61). -/
theorem exec_write_trig (hn : n < 64) :
    exec (.registerWrite ⟨0, 0x1000000 + 0x1000 * n⟩ 64 v) s = exec (.trigWrite n 64 (v.setWidth 64)) s :=
  exec_registerWrite_performs (fnReg_trigPage (o := 0) hn (by decide)) rfl rfl ⟨_, rfl⟩

/-- An invalidation through its register (R149). -/
theorem exec_write_invcnt (hn : n < 64) :
    exec (.registerWrite ⟨0, 0x300010 + 0x40 * n⟩ 32 v) s = exec (.invcntWrite n (v.setWidth 32)) s :=
  exec_registerWrite_performs (fnReg_translationBlock (o := 16) hn (by decide)) rfl rfl ⟨_, rfl⟩

/-- An inbound entry (R183). -/
theorem exec_write_inmap {j : Nat} (hj : j < 128) : ∃ t, exec (.registerWrite ⟨0, 0x500800 + 16 * j⟩ 128 v) s = .next t
    ∧ (∀ b, b < 128 → (t.inEntry j).getLsbD b = (v.getLsbD b && (b < 40 || 75 ≤ b))) ∧ ∀ i, i ≠ j → t.inEntry i = s.inEntry i := by
  refine ⟨_, exec_registerWrite_stores (fnReg_inmap hj) rfl rfl, fun b hb => ?_, fun i hi => ?_⟩
  · rw [← getLsbD_inboundFields v hb]
    simp only [State.inEntry, State.writeReg, tget_tset_self]
  · simp only [State.inEntry, State.writeReg, tget_tset_ne _ _ _ hi]

/-- A move of a page through its register (R156, R158). -/
theorem exec_write_movereq : exec (.registerWrite ⟨0, 0x400070⟩ 64 v) s = exec (.movereq (v.setWidth 64)) s :=
  exec_registerWrite_performs (r := .movereq) (by decide) rfl rfl ⟨_, rfl⟩

theorem exec_write_rtimeout : exec (.registerWrite ⟨0, 0x500004⟩ 32 v) s
    = .next { s with link := { s.link with rtimeout := BitVec.ofNat 32 (max 10 (min 1000000 (v.toNat % 2 ^ 32))) } } :=
  exec_registerWrite_stores (r := .rtimeout) (by decide) rfl (by simp only [State.writeReg, clamp, BitVec.toNat_setWidth])

theorem exec_write_hammerth : exec (.registerWrite ⟨0, 0x802000⟩ 32 v) s
    = .next { s with mc := { s.mc with hammer := BitVec.ofNat 16 (max 512 (v.toNat % 65536)) } } := by
  have hm : v.toNat % 2 ^ 32 % 65536 = v.toNat % 65536 := Nat.mod_mod_of_dvd _ (by decide)
  exact exec_registerWrite_stores (r := .hammerth) (by decide) rfl (by simp only [State.writeReg, BitVec.toNat_setWidth, hm])

/-- ENABLE of a port starts it or stops it (R178, R179). -/
theorem exec_write_portctl {p : Nat} (hp : p < 36) : exec (.registerWrite ⟨0, 0x500100 + 4 * p⟩ 32 v) s
    = exec (if v.getLsbD 31 then .portEnable p else .portDisable p) s := by
  have h36 : p ≠ 36 := by omega
  cases hb : v.getLsbD 31 with
  | true =>
    exact exec_registerWrite_performs (fnReg_portctl (by omega)) rfl (by simp only [State.writeReg, if_neg h36, hb, if_true]; rfl) ⟨_, rfl⟩
  | false =>
    refine exec_registerWrite_performs (fnReg_portctl (by omega)) rfl ?_ ⟨_, rfl⟩
    simp only [State.writeReg, if_neg h36, hb, Bool.false_eq_true, if_false]
    rfl

/-- The thresholds of an island (R334, R335). -/
theorem exec_write_islctl {i : Nat} (hc : c < 24) (hi : i < 4) :
    exec (.registerWrite ⟨0, 0x900020 + 0x100 * c + 4 * i⟩ 32 v) s = exec (.islctlWrite c i (v.setWidth 32)) s :=
  exec_registerWrite_performs (fnReg_islctl hc hi) rfl rfl ⟨_, rfl⟩

theorem exec_write_clulim (hc : c < 24) : exec (.registerWrite ⟨0, 0x900004 + 0x100 * c⟩ 32 v) s
    = .next (s.modCluster c fun k => { k with lim := BitVec.ofNat 12 (max 20 (min 400 (v.toNat % 4096))) }) := by
  have hm : v.toNat % 2 ^ 32 % 4096 = v.toNat % 4096 := Nat.mod_mod_of_dvd _ (by decide)
  exact exec_registerWrite_stores (fnReg_powerBlock (o := 4) hc (by decide)) rfl
    (by simp only [State.writeReg, clamp, BitVec.toNat_setWidth, hm])

theorem exec_write_cluctl (hc : c < 24) :
    exec (.registerWrite ⟨0, 0x900000 + 0x100 * c⟩ 32 v) s = .next (s.cluWrite c v) :=
  exec_registerWrite_stores (fnReg_powerBlock (o := 0) hc (by decide)) rfl rfl

end

/-! CLUCTL: AUTO, a gate request, a wake request (R334). -/

section

variable (s : State) (c : Nat)

/-- A gate request that is made or not: it leaves the setting of AUTO, and the state unless the cluster is ON (R132, R339). -/
theorem gateRequest_cluster (b : Bool) :
    let t := if b then s.requestGate c else s
    (t.cluster c).auto = (s.cluster c).auto ∧ (t.cluster c).pwr
      = if b = true ∧ (s.cluster c).pwr = .on then (if s.clusterIdle c then .closing else .on) else (s.cluster c).pwr := by
  cases b with
  | false => simp
  | true =>
    by_cases hp : (s.cluster c).pwr = .on
    · cases hi : s.clusterIdle c <;> simp [State.requestGate, hp, hi, State.cluster_modCluster]
    · simp [State.requestGate, hp]

/-- A wake request that is made or not: it leaves the setting of AUTO, and the state unless the cluster is GATED (R132, R339). -/
theorem wakeRequest_cluster (b : Bool) :
    let t := if b then (execClusterWakeRequest c s).orElse s else s
    (t.cluster c).auto = (s.cluster c).auto
      ∧ (t.cluster c).pwr = if b = true ∧ (s.cluster c).pwr = .gated then .waking else (s.cluster c).pwr := by
  cases b with
  | false => simp
  | true =>
    by_cases hp : (s.cluster c).pwr = .gated <;>
      simp [execClusterWakeRequest, Result.orElse, hp, State.cluster_modCluster]

/-- The state of a cluster after a write of CLUCTL: the gate request first, then the wake request. -/
theorem cluWrite_cluster (v : BitVec 128) :
    let gate : PwrSt := if v.getLsbD 0 = true ∧ (s.cluster c).pwr = .on then (if s.clusterIdle c then .closing else .on)
      else (s.cluster c).pwr
    ((s.cluWrite c v).cluster c).auto = v.getLsbD 2
      ∧ ((s.cluWrite c v).cluster c).pwr = if v.getLsbD 1 = true ∧ gate = .gated then .waking else gate := by
  let s1 := s.modCluster c fun k => { k with auto := v.getLsbD 2 }
  have hc : s1.cluster c = { s.cluster c with auto := v.getLsbD 2 } := (State.cluster_modCluster s c _ c).trans (if_pos rfl)
  have hidle : s1.clusterIdle c = s.clusterIdle c := rfl
  obtain ⟨ga, gp⟩ := gateRequest_cluster s1 c (v.getLsbD 0)
  obtain ⟨wa, wp⟩ := wakeRequest_cluster (if v.getLsbD 0 then s1.requestGate c else s1) c (v.getLsbD 1)
  rw [hc, hidle] at gp
  rw [gp] at wp
  exact ⟨wa.trans (ga.trans (congrArg Cluster.auto hc)), wp⟩

end

/-- Settles O55. Each offset names its register, and each kind of register has its rule: ignored, read only, a field map, or a
command. -/
theorem registerWrites : Obligations.RegisterWrites := by
  unfold Obligations.RegisterWrites
  refine ⟨fun s fn off n v h => ⟨s, exec_registerWrite_ignored h, rfl⟩, fun s fn off r v h => ⟨_, exec_registerWrite_stores h rfl rfl, rfl⟩,
    fun s n off w v hn ho => ⟨exec_registerWrite_congr (fnReg_virtual hn ho), ?_⟩,
    fun s n off w v ho => ⟨exec_registerWrite_reserved (fnReg_virtual_beyond ho), readAt_reserved (fnReg_virtual_beyond ho)⟩,
    fun s fn off n v ho hf => ?_, fun s off n v ho => ?_, fun s off n v ho => exec_registerWrite_readOnly ?_, fun s n v hn => ?_,
    fun s j v hj => exec_write_inmap v s hj,
    fun s v => ⟨exec_write_movereq v s, exec_write_rtimeout v s, exec_write_hammerth v s, fun p hp => exec_write_portctl v s hp⟩,
    fun s c v hc => ⟨fun i hi => exec_write_islctl v s hc hi, exec_write_clulim v s hc, _, exec_write_cluctl v s hc, ?_⟩⟩
  · simp only [State.readAt, fnReg_virtual hn ho]
  · have h : fnReg fn off = none := by
      simp only [List.mem_cons, List.not_mem_nil, or_false] at ho
      obtain rfl | rfl := ho <;> exact fnReg_virtual_reserved hf fun n => rfl
    exact ⟨exec_registerWrite_reserved h, readAt_reserved h⟩
  · have h : fnReg 0 off = none := by revert off; decide
    exact ⟨exec_registerWrite_reserved h, readAt_reserved h⟩
  · revert off; decide
  · obtain ⟨harg, hcpl, hroot, hinv, hbase, hhead, hsize⟩ := exec_write_ctxFields v s hn
    have extractCode : v.extractLsb' 0 4 = BitVec.ofNat 4 (v.toNat % 16) := BitVec.eq_of_toNat_eq (by simp)
    intro at_ at4 d w
    refine ⟨fun h => ?_, fun code i hi h => ?_, fun h => ?_, exec_write_trig v s hn, exec_write_invcnt v s hn,
      harg, hcpl, hroot, hinv, hbase, hhead, _, hsize, ?_⟩
    · rw [exec_write_vdctl hn, h]; rfl
    · rw [exec_write_vdctl hn, h, vdCommand_eq_exec s hi]
    · rw [exec_write_vdctl hn, vdCommand_undefined s h, extractCode]
    · rw [State.ctx_modCtx, if_pos rfl, logSize_eq]
  · obtain ⟨ha, hp⟩ := cluWrite_cluster s c v
    refine ⟨ha, fun h1 hg => ?_, fun h0 ho => ?_⟩
    · simp [hp, h1, hg]
    · simp only [hp, h0, ho, true_and, if_true]
      cases s.clusterIdle c <;> simp

/-! What the registers read after a reset (R5, R321). -/

/-- The reset value of each register (R39, R48, R60, R68, R149, R156, R177, R178, R317, R333, R334). -/
def Reg.resetValue : Reg → Nat
  | .cplsize _ | .fqsize _ => 6
  | .rtimeout => 2000
  | .portctl p => if p = 36 then 2 ^ 31 else 0
  | .hammerth => 4096
  | .cluctl _ => 4
  | .clulim _ => 75
  | .droopth _ => 40
  | .islctl _ _ => 16 * 2 ^ 24 + 64 * 2 ^ 16 + 2 ^ 15
  | _ => 0

theorem reset_port (p : Nat) : State.reset.port p = if p = 36 then Port.host else Port.init := by
  simp only [State.port, State.reset, Link.init, tget, eq_comm]

/-- With no wave, team, grid or LAZY unit, and no engine owned, a save has no bytes (R56). -/
theorem saveMax_of_idle {s : State} (n : Nat) (hw : s.waves = []) (ht : s.teams = []) (hg : s.grids = []) (hl : s.lazies = [])
    (hm : ∀ e ∈ s.cores, e.2.mx.owner = none) : s.saveMax n = 0 := by
  simp only [State.saveMax, State.spHeld, hw, ht, hg, hl, List.filter_nil, List.map_nil, List.length_nil, List.sum_nil, Nat.add_zero,
    Nat.mul_zero, Nat.zero_add]
  rw [List.filter_eq_nil_iff.mpr fun e he => ?_]
  · rfl
  · simp [hm e he]

/-- Each register of the state after reset reads as its table says. -/
theorem reset_readReg (r : Reg) : State.reset.readReg r = r.resetValue := by
  cases r with
  | portctl p =>
    simp only [State.readReg, reset_port, Reg.resetValue]
    split <;> rfl
  | window | vdctl | therm | cluctl | islctl =>
    simp [State.readReg, State.window, State.ctx, State.cluster, Cluster.isl, State.reset, tget, Window.init, Ctx.init, Mc.init, Cluster.init,
      Island.init, winCode, ctxCode, pwrCode, bitN, Reg.resetValue]
  | vdsavemax n => exact saveMax_of_idle n rfl rfl rfl rfl (List.forall_mem_nil _)
  | _ => rfl

/-- No register reads the count of free values, the outbox or the self-tests: what a cold reset keeps is no register (R5, R323). -/
theorem readReg_congr_kept (s : State) (r : Reg) (f : Nat) (o : List Out) (x : Tests) :
    ({ s with fresh := f, outbox := o, tests := x } : State).readReg r = s.readReg r := by
  cases r <;> rfl

/-- The state that a warm reset leaves. -/
def State.afterWarmReset (s : State) : State := (execWarmReset s).orElse s

theorem exec_warmReset (s : State) : exec .warmReset s = .next s.afterWarmReset := rfl

theorem tget_map {α : Type} (d : α) (f : α → α) (hd : f d = d) (m : Tab α) (k : Nat) :
    tget d (m.map fun e => (e.1, f e.2)) k = f (tget d m k) := by
  induction m with
  | nil => exact hd.symm
  | cons e m ih =>
    simp only [List.map_cons, tget, ih]
    split <;> rfl

theorem tget_tsetRange {α : Type} [DecidableEq α] (d : α) (f : Nat → α) (n k : Nat) :
    tget d ((List.range n).foldl (fun t i => tset d t i (f i)) []) k = if k < n then f k else d := by
  induction n with
  | zero => rfl
  | succ n ih =>
    rw [List.range_succ, List.foldl_append, List.foldl_cons, List.foldl_nil, tget_tset, ih]
    by_cases hk : k = n
    · simp [hk]
    · simp only [if_neg hk, show k < n + 1 ↔ k < n by omega]

/-- A warm reset leaves every cluster as after reset but for its clocks (R306, R334). -/
theorem afterWarmReset_cluster (s : State) (c : Nat) : s.afterWarmReset.cluster c = (s.cluster c).warm :=
  tget_map Cluster.init Cluster.warm rfl s.clusters c

/-- A warm reset leaves every port as after reset but for RETRAINS (R178). -/
theorem afterWarmReset_port (s : State) {p : Nat} (hp : p < 37) :
    s.afterWarmReset.port p = { State.reset.port p with retrains := (s.port p).retrains } :=
  (tget_tsetRange Port.init (fun i => (State.reset.port i).warm (s.port i)) 37 p).trans (if_pos hp)

/-- The registers that go on counting over a warm reset, or are kept: the black box, the ports with RETRAINS, the temperatures
(R178, R321, R332, log 95). -/
def Reg.keptByWarmReset : Reg → Bool
  | .abseq | .abcount | .event _ | .portctl _ | .therm _ => true
  | _ => false

/-- A warm reset gives every other register its reset value. -/
theorem afterWarmReset_readReg (s : State) {r : Reg} (h : r.keptByWarmReset = false) :
    s.afterWarmReset.readReg r = State.reset.readReg r := by
  cases r with
  | abseq | abcount | event _ | portctl _ | therm _ => cases h
  | cluctl | clulim | clupwr | droopth | droopcnt | islctl | mxcad =>
    simp only [State.readReg, afterWarmReset_cluster]
    rfl
  | vdsavemax n =>
    refine saveMax_of_idle n rfl rfl rfl rfl fun e he => ?_
    obtain ⟨x, -, rfl⟩ := List.mem_map.mp he
    rfl
  | _ => rfl

/-- Settles O56. Reset gives each register its table's value; a cold reset leaves that state but for what is no register; a warm reset
is judged register by register. -/
theorem resetValues : Obligations.ResetValues := by
  unfold Obligations.ResetValues
  refine ⟨fun n i j k => by simp only [reset_readReg, Reg.resetValue, and_self], reset_memWf, rfl,
    fun s => ⟨_, rfl, reset_memWf, rfl, rfl, fun r => readReg_congr_kept State.reset r _ _ _⟩,
    fun s => ⟨_, exec_warmReset s, reset_memWf, rfl, rfl, rfl, rfl, fun p hp => afterWarmReset_port s hp, fun i => rfl, fun r hr => ?_⟩⟩
  refine afterWarmReset_readReg s ?_
  cases r with
  | abseq | abcount | event _ | portctl _ | therm _ => exact hr.elim
  | _ => rfl

end Sys2Proof.Machine
end

section
/-! PROOFS. Every step keeps memory canonical (R12, R15, R42 to R46). First the form of what a step answers, and what leaves the form as it
is. An operation that writes no byte, counter or table of the scratchpads has an equation; one that writes some keeps the form. -/

namespace Sys2Proof.Machine

/- One proof at a time, here and in the sections below: many at once cost a thread, and its stack, each. -/
set_option Elab.async false

/-- Every memory of the state that an outcome answers stands in canonical form; of an outcome that answers none, nothing is asked. -/
def Result.memWf (r : Result) : Bool :=
  match r with
  | .next s => s.memWf
  | _ => true

@[simp] theorem Result.memWf_next (s : State) : Result.memWf (.next s) = s.memWf := (rfl)

/-- What an instruction comes to at issue keeps the canonical form. -/
def Res.memWf : Res → Prop
  | .done s | .trapAfter s _ _ => s.memWf = true
  | .instead f => ∀ s, s.memWf = true → (f s).memWf = true
  | .stay | .trap .. => True

@[simp] theorem Res.memWf_stay : Res.stay.memWf := trivial
@[simp] theorem Res.memWf_trap (c : BitVec 7) (a : DWord) (x : Word) : (Res.trap c a x).memWf := trivial
@[simp] theorem Res.memWf_done (s : State) : (Res.done s).memWf ↔ s.memWf = true := Iff.rfl
@[simp] theorem Res.memWf_trapAfter (s : State) (c : BitVec 7) (x : Word) : (Res.trapAfter s c x).memWf ↔ s.memWf = true := Iff.rfl
@[simp] theorem Res.memWf_instead (f : State → State) :
    (Res.instead f).memWf ↔ ∀ s, s.memWf = true → (f s).memWf = true := Iff.rfl

/-- An update that leaves the tables of memory and the scratchpads leaves the form in which they stand, whatever else it changes. -/
@[simp] theorem memWf_update (s : State)
    (agenda cur iw t7 fresh nextId shutdown outbox ctxs windows graphs launches grids floors teams waves
    cores homes clusters portq homeq homeops mxq forestq invals lazies pme link mc amber tests) :
    State.memWf ⟨agenda, cur, iw, t7, fresh, nextId, shutdown, outbox, s.phys, s.spCore, s.spClu, s.spDie, ctxs, windows, graphs, launches,
      grids, floors, teams, waves, cores, homes, clusters, portq, homeq, homeops, mxq, forestq, invals, lazies, pme, link, mc, amber,
      tests⟩ = s.memWf := (rfl)

/-- The same for an update of what else physical memory holds: marks, grants, keys, seals. -/
@[simp] theorem memWf_updatePhys (s : State) (poison grants keys hot scrubbed sealed saved owed)
    (agenda cur iw t7 fresh nextId shutdown outbox
    ctxs windows graphs launches grids floors teams waves cores homes clusters portq homeq homeops mxq forestq invals lazies pme link mc amber
    tests) :
    State.memWf ⟨agenda, cur, iw, t7, fresh, nextId, shutdown, outbox, ⟨s.phys.bytes, s.phys.minor, s.phys.major, s.phys.nodes, poison,
      grants, keys, hot, scrubbed, sealed, saved, owed⟩, s.spCore, s.spClu, s.spDie, ctxs, windows, graphs, launches, grids, floors, teams,
      waves, cores, homes, clusters, portq, homeq, homeops, mxq, forestq, invals, lazies, pme, link, mc, amber, tests⟩ = s.memWf := (rfl)

/-- A fold of operations that leave the form leaves it. -/
@[simp] theorem memWf_foldl_eq {β : Type} (l : List β) (f : State → β → State) (s : State) (hf : ∀ s b, (f s b).memWf = s.memWf) :
    (l.foldl f s).memWf = s.memWf := by
  induction l generalizing s with
  | nil => rfl
  | cons b l ih => exact (ih (f s b)).trans (hf s b)

@[simp] theorem memWf_ite (c : Prop) [Decidable c] (s t : State) :
    (if c then s else t).memWf = if c then s.memWf else t.memWf := apply_ite ..

/-- The state of a pair that has been named. -/
theorem memWf_of_pair {α : Type} {x : α × State} {a : α} {t : State} (hx : x = (a, t)) : t.memWf = x.2.memWf := by rw [hx]

end Sys2Proof.Machine
end

section
/-! PROOFS. Memory stays canonical under the operations of Machine/Access.lean, in their order there: numbering of the parts. -/

namespace Sys2Proof.Machine

set_option Elab.async false

@[simp] theorem memWf_setCore (s : State) (c : Nat) (x : Core) : (s.setCore c x).memWf = s.memWf := (rfl)

@[simp] theorem memWf_setWindow (s : State) (w : Nat) (x : Window) : (s.setWindow w x).memWf = s.memWf := (rfl)

@[simp] theorem memWf_setWave (s : State) (wid : Nat) (w : Wave) : (s.setWave wid w).memWf = s.memWf := (rfl)

@[simp] theorem memWf_setTeam (s : State) (t : Nat) (x : Team) : (s.setTeam t x).memWf = s.memWf := (rfl)

@[simp] theorem memWf_setGrid (s : State) (g : Nat) (x : Grid) : (s.setGrid g x).memWf = s.memWf := (rfl)

@[simp] theorem memWf_modWave (s : State) (wid : Nat) (f : Wave → Wave) : (s.modWave wid f).memWf = s.memWf := by
  unfold State.modWave
  split <;> rfl

@[simp] theorem memWf_modTeam (s : State) (t : Nat) (f : Team → Team) : (s.modTeam t f).memWf = s.memWf := by
  unfold State.modTeam
  split <;> rfl

@[simp] theorem memWf_modGrid (s : State) (g : Nat) (f : Grid → Grid) : (s.modGrid g f).memWf = s.memWf := by
  unfold State.modGrid
  split <;> rfl

@[simp] theorem memWf_modCore (s : State) (c : Nat) (f : Core → Core) : (s.modCore c f).memWf = s.memWf := (rfl)

@[simp] theorem memWf_modCluster (s : State) (k : Nat) (f : Cluster → Cluster) : (s.modCluster k f).memWf = s.memWf := (rfl)

@[simp] theorem memWf_modHome (s : State) (h : Nat) (f : Home → Home) : (s.modHome h f).memWf = s.memWf := (rfl)

@[simp] theorem memWf_modCtx (s : State) (n : Nat) (f : Ctx → Ctx) : (s.modCtx n f).memWf = s.memWf := (rfl)

@[simp] theorem memWf_modWindow (s : State) (w : Nat) (f : Window → Window) : (s.modWindow w f).memWf = s.memWf := (rfl)

@[simp] theorem memWf_emit (s : State) (o : Out) : (s.emit o).memWf = s.memWf := (rfl)

@[simp] theorem memWf_pmc (s : State) (ctx event n : Nat) : (s.pmc ctx event n).memWf = s.memWf := by
  unfold State.pmc
  simp

end Sys2Proof.Machine
end

section
/-! PROOFS. Memory stays canonical under the operations of Machine/Mem.lean, in their order there: physical memory behind the memory
controllers. -/

namespace Sys2Proof.Machine

set_option Elab.async false

@[simp] theorem memWf_setPort (s : State) (p : Nat) (x : Port) : (s.setPort p x).memWf = s.memWf := (rfl)

@[simp] theorem memWf_setSeal (s : State) (pa mark : Nat) : (s.setSeal pa mark).memWf = s.memWf := by
  unfold State.setSeal
  simp

@[simp] theorem memWf_amberEvent_eq (s : State) (cause cls unit detail : Nat) :
    (s.amberEvent cause cls unit detail).memWf = s.memWf := (rfl)

@[simp] theorem memWf_modGroup (s : State) (g : Nat) (f : Group → Group) : (s.modGroup g f).memWf = s.memWf := (rfl)

@[simp] theorem memWf_setBank (s : State) (k : Nat) (b : Bank) : (s.setBank k b).memWf = s.memWf := (rfl)

@[simp] theorem memWf_spendTokens (s : State) (ctx g n : Nat) : (s.spendTokens ctx g n).memWf = s.memWf := (rfl)

@[simp] theorem memWf_sampleHot (s : State) (pa : Nat) : (s.sampleHot pa).memWf = s.memWf := by
  unfold State.sampleHot
  simp

@[simp] theorem memWf_access (s : State) (ctx pa since : Nat) (isWrite spend : Bool) :
    (s.access ctx pa since isWrite spend).2.memWf = s.memWf := by
  unfold State.access
  dsimp only
  repeat' split
  all_goals simp

@[simp] theorem memWf_account (s : State) (ctx pa since : Nat) (isWrite : Bool) : (s.account ctx pa since isWrite).memWf = s.memWf := by
  unfold State.account
  simp

@[simp] theorem memWf_startTest (s : State) (site : TestSite) (err : TestError) : (s.startTest site err).memWf = s.memWf := by
  unfold State.startTest
  simp

@[simp] theorem memWf_checkFailed (s : State) (ctx pa : Nat) : (s.checkFailed ctx pa).memWf = s.memWf := by
  unfold State.checkFailed
  simp

@[simp] theorem memWf_noteStop (s : State) (ctx pa : Nat) (c : BitVec 7) : (s.noteStop ctx pa c).memWf = s.memWf := by
  unfold State.noteStop
  simp

end Sys2Proof.Machine
end

section
/-! PROOFS. Memory stays canonical under the operations of Machine/Mmu.lean, in their order there: translation. -/

namespace Sys2Proof.Machine

set_option Elab.async false

@[simp] theorem memWf_walked (s : State) (ctx : Nat) (va : DWord) : (s.walked ctx va).memWf = s.memWf := by
  unfold State.walked
  dsimp only
  split <;> simp

@[simp] theorem memWf_serveMiss (s : State) (ctx core : Nat) (va : DWord) (acc : Acc) (evictCore evictCluster : Nat) :
    (s.serveMiss ctx core va acc evictCore evictCluster).2.memWf = s.memWf := by
  unfold State.serveMiss
  dsimp only
  repeat' split
  all_goals simp

@[simp] theorem memWf_missed (s : State) (ctx core : Nat) (va : DWord) (acc : Acc) : (s.missed ctx core va acc).memWf = s.memWf := by
  unfold State.missed
  simp

@[simp] theorem memWf_runWalked (s : State) (ctx : Nat) (t : Tr) (va : DWord) : (s.runWalked ctx t va).memWf = s.memWf := by
  unfold State.runWalked
  simp

@[simp] theorem memWf_refreshWalked (s : State) (ctx : Nat) (f : BitVec 192) : (s.refreshWalked ctx f).memWf = s.memWf := by
  unfold State.refreshWalked
  dsimp only
  repeat' split
  all_goals simp

@[simp] theorem memWf_virtAccount (s : State) (ctx : Nat) (va : DWord) (n : Nat) (isWrite : Bool) :
    (s.virtAccount ctx va n isWrite).memWf = s.memWf := by
  unfold State.virtAccount
  refine List.foldlRecOn (motive := fun acc : State × Option Nat => acc.1.memWf = s.memWf) _ _ rfl fun acc hacc a _ => ?_
  dsimp only
  repeat' split
  all_goals simp [hacc]

@[simp] theorem memWf_readsAccount (s : State) (ctx : Nat) (rs : List (DWord × Nat)) : (s.readsAccount ctx rs).memWf = s.memWf := by
  unfold State.readsAccount
  simp

theorem memWf_virtWrite {s t : State} {ctx : Nat} {va : DWord} {bs : List Byte} (ht : s.virtWrite ctx va bs = .ok t) (h : s.memWf = true) :
    t.memWf = true := by
  unfold State.virtWrite at ht
  dsimp only at ht
  repeat' split at ht
  all_goals cases ht
  exact memWf_foldl _ _ (fun _ _ hm => memWf_sectorWrite _ _ _ hm) h

end Sys2Proof.Machine
end

section
/-! PROOFS. Memory stays canonical under the operations of Machine/Report.lean, in their order there: reports. -/

namespace Sys2Proof.Machine

set_option Elab.async false

@[simp] theorem memWf_writeRec {s : State} {n : Nat} {r : FRec} (h : s.memWf = true) : (s.writeRec n r).memWf = true := by
  unfold State.writeRec
  dsimp only
  split
  · next ht => simpa using memWf_virtWrite ht (by simpa using h)
  · simp [h]

@[simp] theorem memWf_writeTold {s : State} {n : Nat} {r : FRec} {wid : Nat} (h : s.memWf = true) : (s.writeTold n r wid).memWf = true := by
  unfold State.writeTold
  simp [h]

@[simp] theorem memWf_report {s : State} {n : Nat} {r : FRec} {wid : Nat} (h : s.memWf = true) : (s.report n r wid).memWf = true := by
  unfold State.report
  simp [h]

@[simp] theorem memWf_toDomain {s : State} {ctx : Nat} {r : FRec} (h : s.memWf = true) : (s.toDomain ctx r).memWf = true := by
  unfold State.toDomain
  simp [h]

@[simp] theorem memWf_logFault {s : State} {t : Nat} {cause : BitVec 7} {addr : DWord} {bar : Option Nat} (h : s.memWf = true) :
    (s.logFault t cause addr bar).memWf = true := by
  unfold State.logFault
  split <;> simp [h]

@[simp] theorem memWf_post (s : State) (wid home seq lane : Nat) (pc : DWord) (kind : HKind) (op : Option Nat) (rtag : Option Nat) :
    (s.post wid home seq lane pc kind op rtag).memWf = s.memWf := by
  unfold State.post
  simp

@[simp] theorem memWf_dropRef (s : State) (wid seq lane : Nat) (pc : DWord) (op : Option Nat) (l : Lane) :
    (s.dropRef wid seq lane pc op l).memWf = s.memWf := by
  unfold State.dropRef
  simp

@[simp] theorem memWf_dropSaved (s : State) (ctx grid : Nat) (w : Wave) : (s.dropSaved ctx grid w).memWf = s.memWf := by
  unfold State.dropSaved
  simp

@[simp] theorem memWf_dropAllRefs (s : State) (wid : Nat) : (s.dropAllRefs wid).memWf = s.memWf := by
  unfold State.dropAllRefs
  split <;> simp

end Sys2Proof.Machine
end

section
/-! PROOFS. Memory stays canonical under the operations of Machine/Ops.lean, in their order there: the operations that instructions
and events share. -/

namespace Sys2Proof.Machine

set_option Elab.async false

@[simp] theorem memWf_settle (s : State) (wid : Nat) : (s.settle wid).memWf = s.memWf := by
  unfold State.settle
  split <;> simp

@[simp] theorem memWf_addRel (s : State) (wid : Nat) (scope : Scope) (seq : Nat) (cnt : List Nat) (cont : Cont) (split : Nat) (pc : DWord)
    (word : BitVec 96) (lanes : Word) : (s.addRel wid scope seq cnt cont split pc word lanes).memWf = s.memWf := by
  unfold State.addRel
  simp

@[simp] theorem memWf_closeRegion (s : State) (wid : Nat) : (s.closeRegion wid).memWf = s.memWf := by
  unfold State.closeRegion
  simp

@[simp] theorem memWf_closeChain (s : State) (chain : Nat) : (s.closeChain chain).memWf = s.memWf := by
  unfold State.closeChain
  simp

@[simp] theorem memWf_nextGen (s : State) (wid : Nat) : (s.nextGen wid).memWf = s.memWf := (rfl)

@[simp] theorem memWf_dropReads (s : State) (which : Remote → Bool) : (s.dropReads which).memWf = s.memWf := by
  unfold State.dropReads
  simp

@[simp] theorem memWf_stopWave (s : State) (wid : Nat) : (s.stopWave wid).memWf = s.memWf := by
  unfold State.stopWave
  split <;> simp

@[simp] theorem memWf_freeSaved (s : State) (ctx tid : Nat) : (s.freeSaved ctx tid).memWf = s.memWf := by
  unfold State.freeSaved
  split <;> simp

@[simp] theorem memWf_drainGrid (s : State) (g : Nat) : (s.drainGrid g).memWf = s.memWf := by
  unfold State.drainGrid
  split <;> simp

@[simp] theorem memWf_unrecovered {s : State} {wid : Nat} {t : TrapInfo} {detail : DWord} (h : s.memWf = true) :
    (s.unrecovered wid t detail).memWf = true := by
  unfold State.unrecovered
  split <;> simp [h]

@[simp] theorem memWf_enterHandler (s : State) (wid : Nat) (t : TrapInfo) (traph : DWord) :
    (s.enterHandler wid t traph).memWf = s.memWf := by
  unfold State.enterHandler
  simp

@[simp] theorem memWf_takeRecord (s : State) (wid : Nat) (t : TrapInfo) : (s.takeRecord wid t).1.memWf = s.memWf := by
  unfold State.takeRecord
  repeat' split
  all_goals simp

@[simp] theorem memWf_lostTrap {s : State} {wid : Nat} {w : Wave} {t : TrapInfo} (h : s.memWf = true) :
    (s.lostTrap wid w t).memWf = true := by
  unfold State.lostTrap
  simp [h]

@[simp] theorem memWf_takeTrap {s : State} {wid : Nat} {t : TrapInfo} (h : s.memWf = true) : (s.takeTrap wid t).memWf = true := by
  unfold State.takeTrap
  split <;> simp [h]

@[simp] theorem memWf_raiseTrap {s : State} {wid : Nat} {t : TrapInfo} (h : s.memWf = true) : (s.raiseTrap wid t).memWf = true := by
  unfold State.raiseTrap
  split <;> simp [h]

@[simp] theorem memWf_takeHeld {s : State} {wid : Nat} (h : s.memWf = true) : (s.takeHeld wid).memWf = true := by
  unfold State.takeHeld
  repeat' split
  all_goals simp [h]

@[simp] theorem memWf_renumber (s : State) (wid old new : Nat) : (s.renumber wid old new).memWf = s.memWf := by
  unfold State.renumber
  simp

@[simp] theorem memWf_dropWhole (s : State) (wid : Nat) (req : Option Nat) : (s.dropWhole wid req).memWf = s.memWf := by
  unfold State.dropWhole
  simp

@[simp] theorem memWf_parkAt {s : State} {wid : Nat} {cause : BitVec 7} {split : Nat} {pc : DWord} {lanes : Word} {addr : DWord}
    {req : Option Nat} {word : BitVec 96} (h : s.memWf = true) : (s.parkAt wid cause split pc lanes addr req word).memWf = true := by
  unfold State.parkAt
  split <;> simp [h]

end Sys2Proof.Machine
end

section
/-! PROOFS. Memory stays canonical under the operations of Machine/Issue.lean, in their order there: issue. -/

namespace Sys2Proof.Machine

set_option Elab.async false

@[simp] theorem memWf_issued (s : State) (i : Instr) (q : Iss) : (s.issued i q).memWf = s.memWf := by
  unfold State.issued
  simp

theorem memWf_deferTrap {s t : State} {wid split : Nat} (ht : s.deferTrap wid split = some t) : t.memWf = s.memWf := by
  unfold State.deferTrap at ht
  split at ht <;> cases ht
  rfl

@[simp] theorem memWf_trapAt {s : State} {q : Iss} {cause : BitVec 7} {addr : DWord} {arg : Word} (h : s.memWf = true) :
    (s.trapAt q cause addr arg).memWf = true := by
  unfold State.trapAt
  split
  · next ht => rw [memWf_deferTrap ht, h]
  · exact memWf_takeTrap h

/-- An instruction at issue keeps the canonical form if what its own body comes to does. -/
theorem memWf_runInstr {i : Instr} {hints : Hints} {body : Iss → State → Res} {s : State} (h : s.memWf = true)
    (hb : ∀ q t, t.memWf = true → (body q t).memWf) : Result.memWf (runInstr i hints body s) = true := by
  unfold runInstr
  rw [Result.memWf_next]
  split
  · exact h
  · next q _ =>
    have hi : (s.issued i q).memWf = true := by simpa using h
    split
    · exact memWf_trapAt h
    split
    · exact h
    split
    · exact hi
    split
    · exact memWf_trapAt h
    have hq := hb q _ hi
    split <;> simp only [*, Res.memWf] at hq
    · exact h
    · exact memWf_trapAt h
    · exact hq
    · split
      · next ht => rw [memWf_deferTrap ht, h]
      · exact memWf_takeTrap hq
    · exact hq s h

@[simp] theorem memWf_raiseCnt (s : State) (q : Iss) (cnt : List Nat) : (s.raiseCnt q cnt).memWf = s.memWf := by
  unfold State.raiseCnt
  simp

@[simp] theorem memWf_writeLater (s : State) (q : Iss) (lat : Nat) (writes : List (Target × Nat)) (flags : BitVec 5) (cnt : List Nat) :
    (s.writeLater q lat writes flags cnt).memWf = s.memWf := by
  unfold State.writeLater
  simp

@[simp] theorem memWf_quick (s : State) (q : Iss) : (s.quick q).memWf = s.memWf := by
  unfold State.quick
  simp

@[simp] theorem memWf_dropOld (s : State) (q : Iss) (regs : List Nat) (ls : List Nat) : (s.dropOld q regs ls).memWf = s.memWf := by
  unfold State.dropOld
  simp

@[simp] theorem memWf_writeLanes (s : State) (q : Iss) (reg : Nat) (xs : List (Nat × Lane)) : (s.writeLanes q reg xs).memWf = s.memWf := by
  unfold State.writeLanes
  simp

@[simp] theorem memWf_writeS (s : State) (q : Iss) (o : Opd) (ws : List Word) : (s.writeS q o ws).memWf = s.memWf := by
  unfold State.writeS
  simp

@[simp] theorem memWf_jump (s : State) (q : Iss) (pc : DWord) : (s.jump q pc).memWf = s.memWf := by
  unfold State.jump
  simp

@[simp] theorem memWf_holdSplit (s : State) (q : Iss) (op : Nat) : (s.holdSplit q op).memWf = s.memWf := by
  unfold State.holdSplit
  simp

end Sys2Proof.Machine
end

section
/-! PROOFS. Memory stays canonical under the operations of Machine/Proxy.lean, in their order there: what a core does with proxies. -/

namespace Sys2Proof.Machine

set_option Elab.async false

@[simp] theorem memWf_modSlot (s : State) (h i : Nat) (f : Slot → Slot) : (s.modSlot h i f).memWf = s.memWf := (rfl)

@[simp] theorem memWf_takeSlots (s : State) (q : Iss) (want : List (Nat × Nat)) (slots : List (Nat × Nat)) :
    (s.takeSlots q want slots).memWf = s.memWf := by
  unfold State.takeSlots
  simp

@[simp] theorem memWf_postSrc (s : State) (q : Iss) (lane home : Nat) (x : Lane) : (s.postSrc q lane home x).2.memWf = s.memWf := by
  unfold State.postSrc
  repeat' split
  all_goals simp

@[simp] theorem memWf_postAlu (s : State) (q : Iss) (lane : Nat) (op : AluOp) (a b c : Lane) (dst : Option (Nat × Nat))
    (wait : Option Nat) : (s.postAlu q lane op a b c dst wait).memWf = s.memWf := by
  unfold State.postAlu
  simp

@[simp] theorem memWf_openHomeOp (s : State) (q : Iss) (i : Instr) (left : Word) (got : List (Nat × Nat)) (cnt : List Nat)
    (holds isRead : Bool) : (s.openHomeOp q i left got cnt holds isRead).memWf = s.memWf := by
  unfold State.openHomeOp
  simp

end Sys2Proof.Machine
end

section
/-! PROOFS. Memory stays canonical under the operations of Machine/Access2.lean, in their order there: what memory instructions share
at issue. -/

namespace Sys2Proof.Machine

set_option Elab.async false

@[simp] theorem memWf_addReq (s : State) (q : Iss) (r : Req) : (s.addReq q r).memWf = s.memWf := by
  unfold State.addReq
  simp

@[simp] theorem memWf_parkReq {s : State} {wid : Nat} {r : Req} {cause : BitVec 7} {addr : DWord} {lanes : Word} (h : s.memWf = true) :
    (s.parkReq wid r cause addr lanes).memWf = true := by
  unfold State.parkReq
  split <;> simp [h]

@[simp] theorem memWf_parkFaults {s : State} {wid : Nat} {r : Req} (h : s.memWf = true) : (s.parkFaults wid r).memWf = true := by
  unfold State.parkFaults
  dsimp only
  repeat' split
  all_goals simp [h]

@[simp] theorem memWf_postForest (s : State) (op : FOp) : (s.postForest op).memWf = s.memWf := by
  unfold State.postForest
  simp

@[simp] theorem memWf_addAcq (s : State) (wid seq : Nat) (loads : Option Nat) (cnt : List Nat) :
    (s.addAcq wid seq loads cnt).memWf = s.memWf := by
  unfold State.addAcq
  simp

@[simp] theorem memWf_bufferStore (s : State) (wid seq lane : Nat) (pc : DWord) (rtag : Option Nat) (pa key : Nat) (va : DWord)
    (data : List Byte) : (s.bufferStore wid seq lane pc rtag pa key va data).memWf = s.memWf := by
  unfold State.bufferStore
  split <;> simp

@[simp] theorem memWf_enterStores (s : State) (wid : Nat) (r : Req) : (s.enterStores wid r).1.memWf = s.memWf := by
  unfold State.enterStores
  refine List.foldlRecOn (motive := fun acc : State × Req => acc.1.memWf = s.memWf) _ _ rfl fun acc hacc p _ => ?_
  repeat' split
  all_goals simp [hacc]

@[simp] theorem memWf_finishReq (s : State) (wid : Nat) (r : Req) : (s.finishReq wid r).memWf = s.memWf := by
  unfold State.finishReq
  simp

@[simp] theorem memWf_putReq (s : State) (wid : Nat) (r : Req) : (s.putReq wid r).memWf = s.memWf := by
  unfold State.putReq
  simp

@[simp] theorem memWf_storeShort (s : State) (wid : Nat) (w : Wave) (r : Req) : (s.storeShort wid w r).memWf = s.memWf := by
  unfold State.storeShort
  simp

@[simp] theorem memWf_sendPort (s : State) (q : Iss) (r : Req) (write : Bool) : (s.sendPort q r write).memWf = s.memWf := by
  unfold State.sendPort
  simp

end Sys2Proof.Machine
end

section
/-! PROOFS. Memory stays canonical under the operations of Machine/Async.lean, in their order there: copies. -/

namespace Sys2Proof.Machine

set_option Elab.async false

@[simp] theorem memWf_copyBody {dsp ssp : Space} {d a b c : Opd} {q : Iss} {s : State} (h : s.memWf = true) :
    (copyBody dsp ssp d a b c q s).memWf := by
  unfold copyBody
  dsimp only
  repeat' split
  all_goals simp [h]

@[simp] theorem memWf_tdefBody {d a : Opd} {q : Iss} {s : State} (h : s.memWf = true) : (tdefBody d a q s).memWf := by
  unfold tdefBody
  dsimp only
  repeat' split
  all_goals simp [h]

@[simp] theorem memWf_tmovBody {d a c : Opd} {q : Iss} {s : State} (h : s.memWf = true) : (tmovBody d a c q s).memWf := by
  unfold tmovBody
  dsimp only
  repeat' split
  all_goals simp [h]

@[simp] theorem memWf_tfreeBody {d : Opd} {q : Iss} {s : State} (h : s.memWf = true) : (tfreeBody d q s).memWf := by
  unfold tfreeBody
  simp [h]

@[simp] theorem memWf_sendTx (s : State) (q : Iss) (where_ : Nat × Nat × Nat) (k : TxKind) (holds : Bool) :
    (s.sendTx q where_ k holds).memWf = s.memWf := by
  unfold State.sendTx
  simp

@[simp] theorem memWf_txBody {a : Opd} {bad : Bool} {k : TxKind} {holds : Bool} {q : Iss} {s : State} (h : s.memWf = true) :
    (txBody a bad k holds q s).memWf := by
  unfold txBody
  repeat' split
  all_goals simp [h]

@[simp] theorem memWf_txinitBody {a : Opd} {b : SrcB} {q : Iss} {s : State} (h : s.memWf = true) : (txinitBody a b q s).memWf := by
  unfold txinitBody
  simp [h]

@[simp] theorem memWf_txarriveBody {a : Opd} {b : SrcB} {q : Iss} {s : State} (h : s.memWf = true) : (txarriveBody a b q s).memWf := by
  unfold txarriveBody
  dsimp only
  repeat' split
  all_goals simp [h]

@[simp] theorem memWf_cbarBody {a b : Opd} {q : Iss} {s : State} (h : s.memWf = true) : (cbarBody a b q s).memWf := by
  unfold cbarBody
  dsimp only
  repeat' split
  all_goals simp [h]

end Sys2Proof.Machine
end

section
/-! PROOFS. Memory stays canonical under the operations of Machine/Serve.lean, in their order there: what the controllers and ports
share when they serve the requests of waves. -/

namespace Sys2Proof.Machine

set_option Elab.async false

@[simp] theorem memWf_overwrite (s : State) (wid at_ pa n : Nat) : (s.overwrite wid at_ pa n).memWf = s.memWf := by
  unfold State.overwrite
  simp

@[simp] theorem memWf_writeDest (s : State) (wid : Nat) (r : Req) (lane : Nat) (ws : List Word) :
    (s.writeDest wid r lane ws).memWf = s.memWf := by
  unfold State.writeDest
  split
  · refine memWf_foldl_eq _ _ _ fun s k => ?_
    split <;> simp
  · simp
  · rfl

@[simp] theorem memWf_lateTrap {s : State} {wid : Nat} {r : Req} {cause : BitVec 7} (h : s.memWf = true) :
    (s.lateTrap wid r cause).memWf = true := by
  unfold State.lateTrap
  simp [h]

@[simp] theorem memWf_finishQput {s : State} {wid : Nat} {r : Req} {queue : Nat} (h : s.memWf = true) :
    (s.finishQput wid r queue).memWf = true := by
  unfold State.finishQput
  split <;> simp [h]

@[simp] theorem memWf_unstore (s : State) (wid : Nat) (r : Req) : (s.unstore wid r).memWf = s.memWf := by
  unfold State.unstore
  simp

@[simp] theorem memWf_goStore {s : State} {wid : Nat} {r : Req} (h : s.memWf = true) : (s.goStore wid r).memWf = true := by
  unfold State.goStore
  dsimp only
  repeat' split
  all_goals simp [h]

@[simp] theorem memWf_advance {s : State} {wid : Nat} {r : Req} (h : s.memWf = true) : (s.advance wid r).memWf = true := by
  unfold State.advance
  split <;> simp [h]

@[simp] theorem memWf_deliver {s : State} {wid : Nat} {r : Req} {which : Piece → Bool} (h : s.memWf = true) :
    (s.deliver wid r which).memWf = true := by
  unfold State.deliver
  split <;> simp [h]

@[simp] theorem memWf_dropStore {s : State} {wid : Nat} {cause : BitVec 7} {lanes : Word} {pc va : DWord} (h : s.memWf = true) :
    (s.dropStore wid cause lanes pc va).memWf = true := by
  unfold State.dropStore
  split <;> simp [h]

@[simp] theorem memWf_storeSector {s : State} {who : Who} {wid ctx sector key : Nat} {lanes : Word} {pc va : DWord}
    {bs : List (Nat × Byte)} (h : s.memWf = true) : (s.storeSector who wid ctx sector key lanes pc va bs).memWf = true := by
  unfold State.storeSector
  dsimp only
  split <;> simp [h, memWf_sectorWrite]

end Sys2Proof.Machine
end

section
/-! PROOFS. Memory stays canonical under the operations of Machine/Barrier.lean, in their order there: transaction barriers. -/

namespace Sys2Proof.Machine

set_option Elab.async false

@[simp] theorem memWf_spStore {s : State} {lvl unit off : Nat} {bs : List Byte} (h : s.memWf = true) :
    (s.spStore lvl unit off bs).memWf = true := by
  unfold State.spStore
  simp [h, memWf_spWrite]

@[simp] theorem memWf_setTx {s : State} {lvl unit off : Nat} {x : BitVec 128} (h : s.memWf = true) :
    (s.setTx lvl unit off x).memWf = true := by
  unfold State.setTx
  simp [h]

@[simp] theorem memWf_wakeTx (s : State) (lvl unit off n : Nat) : (s.wakeTx lvl unit off n).memWf = s.memWf := by
  unfold State.wakeTx
  simp

@[simp] theorem memWf_setLeaves (s : State) (k : Nat) (ls : List LeafRec) : (s.setLeaves k ls).memWf = s.memWf := (rfl)

@[simp] theorem memWf_modLeaf (s : State) (core off : Nat) (f : LeafRec → LeafRec) : (s.modLeaf core off f).memWf = s.memWf := by
  unfold State.modLeaf
  simp

@[simp] theorem memWf_settleTx {s : State} {lvl unit off : Nat} {x : BitVec 128} (h : s.memWf = true) :
    (s.settleTx lvl unit off x).memWf = true := by
  unfold State.settleTx
  simp [h]

@[simp] theorem memWf_lowerTx {s : State} {lvl unit off n : Nat} {fault : Bool} (h : s.memWf = true) :
    (s.lowerTx lvl unit off n fault).memWf = true := by
  unfold State.lowerTx
  simp [h]

@[simp] theorem memWf_removeLeaves (s : State) (k : Nat) (which : LeafRec → Bool) : (s.removeLeaves k which).memWf = s.memWf := by
  unfold State.removeLeaves
  simp

@[simp] theorem memWf_execLeafArrivalDelivery {cluster leaf : Nat} {s : State} (h : s.memWf = true) :
    Result.memWf (execLeafArrivalDelivery cluster leaf s) = true := by
  unfold execLeafArrivalDelivery
  dsimp only
  repeat' split
  all_goals simp [h]

@[simp] theorem memWf_execRootBroadcast {cluster leaf : Nat} {s : State} (h : s.memWf = true) :
    Result.memWf (execRootBroadcast cluster leaf s) = true := by
  unfold execRootBroadcast
  repeat' split
  all_goals simp [h]

@[simp] theorem memWf_dropPort (s : State) (id : Nat) : (s.dropPort id).memWf = s.memWf := (rfl)

@[simp] theorem memWf_endTx (s : State) (p : PortOp) : (s.endTx p).memWf = s.memWf := by
  unfold State.endTx
  simp

@[simp] theorem memWf_failTx {s : State} {p : PortOp} (h : s.memWf = true) : (s.failTx p).memWf = true := by
  unfold State.failTx
  simp [h]

@[simp] theorem memWf_endWait {s : State} {p : PortOp} {x : BitVec 128} (h : s.memWf = true) : (s.endWait p x).memWf = true := by
  unfold State.endWait
  dsimp only
  repeat' split
  all_goals simp [h]

@[simp] theorem memWf_linkTx {s : State} {p : PortOp} {root : Nat} {x : BitVec 128} (h : s.memWf = true) :
    (s.linkTx p root x).memWf = true := by
  unfold State.linkTx
  repeat' split
  all_goals simp [h]

@[simp] theorem memWf_performTx {s : State} {p : PortOp} {k : TxKind} (h : s.memWf = true) : (s.performTx p k).memWf = true := by
  unfold State.performTx
  dsimp only
  repeat' split
  all_goals simp [h]

@[simp] theorem memWf_performPort {s : State} {p : PortOp} {req idx : Nat} (h : s.memWf = true) :
    (s.performPort p req idx).memWf = true := by
  unfold State.performPort
  dsimp only
  repeat' split
  all_goals simp [h]

@[simp] theorem memWf_execPortAccess {op : Nat} {s : State} (h : s.memWf = true) : Result.memWf (execPortAccess op s) = true := by
  unfold execPortAccess
  repeat' split
  all_goals simp [h]

end Sys2Proof.Machine
end

section
/-! PROOFS. Memory stays canonical under the operations of Machine/Memory.lean, in their order there: the memory instructions at
issue. -/

namespace Sys2Proof.Machine

set_option Elab.async false

@[simp] theorem memWf_openRequest {i : Instr} {acq : Bool} {ps : List (Piece × Option (BitVec 7))} {mask : Word} {q : Iss} {s : State}
    (h : s.memWf = true) : (openRequest i acq ps mask q s).memWf := by
  unfold openRequest
  split <;> simp [h]

@[simp] theorem memWf_ldBody {i : Instr} {width : Width} {a : Opd} {m : Mem} {q : Iss} {s : State} (h : s.memWf = true) :
    (ldBody i width a m q s).memWf := by
  unfold ldBody
  repeat' split
  all_goals simp [h]

/-- The lanes of a store at issue keep the form if the posting of its posted lanes does. -/
@[simp] theorem memWf_storeRequest {i : Instr} {m : Mem} {ps : List (Piece × Option (BitVec 7))} {posted : List Nat} {q : Iss} {s : State}
    {postAll : State → Nat → State} (hp : ∀ s id, (postAll s id).memWf = s.memWf) (h : s.memWf = true) :
    (storeRequest i m ps posted q s postAll).memWf := by
  unfold storeRequest
  dsimp only
  repeat' split
  all_goals simp [hp, h]

@[simp] theorem memWf_postStore (s : State) (q : Iss) (width : Width) (d a : Opd) (m : Mem) (req l : Nat) :
    (s.postStore q width d a m req l).memWf = s.memWf := by
  unfold State.postStore
  simp

@[simp] theorem memWf_stBody {i : Instr} {width : Width} {d a : Opd} {m : Mem} {q : Iss} {s : State} (h : s.memWf = true) :
    (stBody i width d a m q s).memWf := by
  unfold stBody
  dsimp only
  repeat' split
  all_goals simp [h]

@[simp] theorem memWf_portRequest {i : Instr} {m : Mem} {ps : Except (BitVec 7) (List Piece)} {write : Bool} {q : Iss} {s : State}
    (h : s.memWf = true) : (portRequest i m ps write q s).memWf := by
  unfold portRequest
  split <;> simp [h]

@[simp] theorem memWf_ldsBody {i : Instr} {width : Width} {a : Opd} {m : Mem} {q : Iss} {s : State} (h : s.memWf = true) :
    (ldsBody i width a m q s).memWf := by
  unfold ldsBody
  split <;> simp [h]

@[simp] theorem memWf_stsBody {i : Instr} {width : Width} {d a : Opd} {m : Mem} {q : Iss} {s : State} (h : s.memWf = true) :
    (stsBody i width d a m q s).memWf := by
  unfold stsBody
  dsimp only
  split <;> simp [h]

@[simp] theorem memWf_sldBody {i : Instr} {width : Width} {a : Opd} {m : Mem} {q : Iss} {s : State} (h : s.memWf = true) :
    (sldBody i width a m q s).memWf := by
  unfold sldBody
  repeat' split
  all_goals simp [h]

@[simp] theorem memWf_sstBody {i : Instr} {width : Width} {d a : Opd} {m : Mem} {q : Iss} {s : State} (h : s.memWf = true) :
    (sstBody i width d a m q s).memWf := by
  unfold sstBody
  repeat' split
  all_goals simp [h]

@[simp] theorem memWf_postAtom (s : State) (q : Iss) (op : AtomOp) (d a : Opd) (m : Mem) (wait : Option Nat) (l : Nat) (slot : Option Nat) :
    (s.postAtom q op d a m wait l slot).memWf = s.memWf := by
  unfold State.postAtom
  simp

@[simp] theorem memWf_atomBody {i : Instr} {h : Hints} {op : AtomOp} {w64 : Bool} {d a : Opd} {m : Mem} {q : Iss} {s : State}
    (hs : s.memWf = true) : (atomBody i h op w64 d a m q s).memWf := by
  unfold atomBody
  extract_lets n posted inCore ps homeOf reg want mk
  clear_value reg
  have hmk : ∀ t slots hold, t.memWf = true → (mk t slots hold).memWf = true := by
    intro t slots hold ht
    dsimp only [mk]
    refine memWf_parkFaults ?_
    cases reg <;> simp [ht]
  clear_value mk
  repeat' split
  all_goals simp [hmk, hs]

@[simp] theorem memWf_atomsBody {i : Instr} {op : AtomOp} {w64 : Bool} {d a : Opd} {m : Mem} {q : Iss} {s : State} (h : s.memWf = true) :
    (atomsBody i op w64 d a m q s).memWf := by
  unfold atomsBody
  dsimp only
  split <;> simp [h]

@[simp] theorem memWf_frameBody {i : Instr} {d a : Opd} {q : Iss} {s : State} (h : s.memWf = true) : (frameBody i d a q s).memWf := by
  unfold frameBody
  dsimp only
  repeat' split
  all_goals simp [h]

@[simp] theorem memWf_fillLdx (s : State) (q : Iss) (r : Req) (d a : Opd) (m : Mem) (tagged : List (Nat × Lane))
    (want slots : List (Nat × Nat)) : (s.fillLdx q r d a m tagged want slots).memWf = s.memWf := by
  unfold State.fillLdx
  extract_lets s1 s2
  have h2 : s2.memWf = s.memWf := by
    refine (memWf_foldl_eq _ _ _ fun s e => ?_).trans (memWf_takeSlots ..)
    dsimp only
    repeat' split
    all_goals simp
  clear_value s2
  repeat' split
  all_goals simp [h2]

@[simp] theorem memWf_ldxBody {i : Instr} {d a : Opd} {m : Mem} {q : Iss} {s : State} (h : s.memWf = true) :
    (ldxBody i d a m q s).memWf := by
  unfold ldxBody
  dsimp only
  repeat' split
  all_goals simp [h]

@[simp] theorem memWf_matBody {i : Instr} {d a : Opd} {q : Iss} {s : State} (h : s.memWf = true) : (matBody i d a q s).memWf := by
  unfold matBody
  dsimp only
  repeat' split
  all_goals simp [h]

@[simp] theorem memWf_pxrelBody {i : Instr} {d : Opd} {q : Iss} {s : State} (h : s.memWf = true) : (pxrelBody i d q s).memWf := by
  unfold pxrelBody
  dsimp only
  repeat' split
  all_goals simp [h]

@[simp] theorem memWf_ispxBody {d a : Opd} {q : Iss} {s : State} (h : s.memWf = true) : (ispxBody d a q s).memWf := by
  unfold ispxBody
  simp [h]

end Sys2Proof.Machine
end

section
/-! PROOFS. Memory stays canonical under the operations of Machine/HomeOps.lean, in their order there: what a home sees of its
messages. -/

namespace Sys2Proof.Machine

set_option Elab.async false

@[simp] theorem memWf_homeMissed (s : State) (it : HomeItem) (a : HAddr) (off : Word) (n : Nat) (acc : Acc) :
    (s.homeMissed it a off n acc).memWf = s.memWf := by
  unfold State.homeMissed
  refine memWf_foldl_eq _ _ _ fun s c => ?_
  dsimp only
  repeat' split
  all_goals simp

@[simp] theorem memWf_sendRemote (s : State) (wid ctx pa : Nat) (what : RemoteWhat) : (s.sendRemote wid ctx pa what).memWf = s.memWf := by
  unfold State.sendRemote
  repeat' split
  all_goals simp

end Sys2Proof.Machine
end

section
/-! PROOFS. Memory stays canonical under the operations of Machine/Waiting.lean, in their order there: what waits at the channel
groups of the memory controllers. -/

namespace Sys2Proof.Machine

set_option Elab.async false

@[simp] theorem memWf_stampUnsent (s : State) (core : Nat) : (s.stampUnsent core).memWf = s.memWf := by
  unfold State.stampUnsent
  simp

@[simp] theorem memWf_endAccess (s : State) (kind a b sec : Nat) : (s.endAccess kind a b sec).memWf = s.memWf := (rfl)

end Sys2Proof.Machine
end

section
/-! PROOFS. Memory stays canonical under the operations of Machine/MemEvents.lean, in their order there: the steps that serve memory
requests. -/

namespace Sys2Proof.Machine

set_option Elab.async false

@[simp] theorem memWf_serveSector {s : State} {wid req : Nat} {d : Due} {spend : Bool} (h : s.memWf = true) :
    (s.serveSector wid req d spend).memWf = true := by
  unfold State.serveSector
  dsimp only
  repeat' split
  all_goals simp [h]

@[simp] theorem memWf_serveAccess {s : State} {g : Nat} {x : Waiting} {d : Due} {spend : Bool} (h : s.memWf = true) :
    (s.serveAccess g x d spend).memWf = true := by
  unfold State.serveAccess
  dsimp only
  repeat' split
  all_goals simp [h]

@[simp] theorem memWf_pruneStarted (s : State) (g : Nat) : (s.pruneStarted g).memWf = s.memWf := by
  unfold State.pruneStarted
  simp

@[simp] theorem memWf_execCommandSlot {group : Nat} {s : State} (h : s.memWf = true) : Result.memWf (execCommandSlot group s) = true := by
  unfold execCommandSlot
  dsimp only
  repeat' split
  all_goals simp [h]

@[simp] theorem memWf_execMemorySectorReturn {wid req sector : Nat} {s : State} (h : s.memWf = true) :
    Result.memWf (execMemorySectorReturn wid req sector s) = true := by
  unfold execMemorySectorReturn
  repeat' split
  all_goals simp [h]

@[simp] theorem memWf_retryStores {s : State} {core : Nat} (h : s.memWf = true) : (s.retryStores core).memWf = true := by
  unfold State.retryStores
  refine memWf_foldl _ _ (fun s wid h => ?_) h
  split
  · exact h
  · exact memWf_foldl _ _ (fun s r h => memWf_goStore h) h

@[simp] theorem memWf_execStoreAccepted {wid entry : Nat} {s : State} (h : s.memWf = true) :
    Result.memWf (execStoreAccepted wid entry s) = true := by
  unfold execStoreAccepted
  repeat' split
  all_goals simp [h]

@[simp] theorem memWf_performAtom {s : State} {wid : Nat} {r : Req} {p : Piece} (h : s.memWf = true) :
    (s.performAtom wid r p).memWf = true := by
  unfold State.performAtom
  split <;> simp [h, memWf_physWrite]

@[simp] theorem memWf_performRel {s : State} {wid ctx : Nat} {r : Req} {sector key : Nat} {va : DWord} {ps : List Piece}
    (h : s.memWf = true) : (s.performRel wid ctx r sector key va ps).memWf = true := by
  unfold State.performRel
  extract_lets bs past t
  have ht : t.memWf = true := memWf_storeSector h
  have hpast : (past t).memWf = t.memWf := by
    refine memWf_foldl_eq _ _ _ fun s p => ?_
    split <;> simp
  split
  · exact memWf_retryStores (hpast.trans ht)
  · exact ht

@[simp] theorem memWf_execAtomicPerform {wid req sector : Nat} {s : State} (h : s.memWf = true) :
    Result.memWf (execAtomicPerform wid req sector s) = true := by
  unfold execAtomicPerform
  rw [Result.memWf_next]
  split
  · exact h
  split
  · exact h
  extract_lets here keyOf sec atom s1
  have h1 : s1.memWf = true := by simpa [s1] using h
  split
  · exact h
  extract_lets mine go went s2
  have h2 : s2.memWf = true := by
    dsimp only [s2]
    split
    · exact memWf_foldl _ _ (fun s p h => memWf_performAtom h) h1
    · exact memWf_performRel h1
  repeat' split
  all_goals simp [h, h1, h2]

@[simp] theorem memWf_retryLdx {s : State} {wid : Nat} {r : Req} (h : s.memWf = true) : (s.retryLdx wid r).memWf = true := by
  unfold State.retryLdx
  dsimp only
  repeat' split
  all_goals simp [h]

@[simp] theorem memWf_translated {s : State} {wid : Nat} {r : Req} {va : DWord} {t : Tr} (h : s.memWf = true) :
    (s.translated wid r va t).memWf = true := by
  unfold State.translated
  repeat' split
  all_goals simp [h]

@[simp] theorem memWf_parkLeft {s : State} {wid req : Nat} (h : s.memWf = true) : (s.parkLeft wid req).memWf = true := by
  unfold State.parkLeft
  split <;> simp [h]

@[simp] theorem memWf_pageServed {s : State} {wid req page : Nat} {x : Except (BitVec 7) Tr} (h : s.memWf = true) :
    (s.pageServed wid req page x).memWf = true := by
  unfold State.pageServed
  dsimp only
  repeat' split
  all_goals simp [h]

@[simp] theorem memWf_execTlbMissServed {wid req page evictCore evictCluster : Nat} {s : State} (h : s.memWf = true) :
    Result.memWf (execTlbMissServed wid req page evictCore evictCluster s) = true := by
  unfold execTlbMissServed
  rw [Result.memWf_next]
  split
  · exact h
  · extract_lets core va rs found runs acc t
    have ht : t.memWf = true := by simp [t, h]
    split
    · exact h
    · exact memWf_foldl _ _ (fun s x h => memWf_pageServed h) ht

@[simp] theorem memWf_execTokenBucketFill (ctx group span : Nat) (s : State) :
    Result.memWf (execTokenBucketFill ctx group span s) = s.memWf := by
  unfold execTokenBucketFill
  simp

end Sys2Proof.Machine
end

section
/-! PROOFS. Memory stays canonical under the operations of Machine/HomeEvents.lean, in their order there: the homes. -/

namespace Sys2Proof.Machine

set_option Elab.async false

@[simp] theorem memWf_dropItem (s : State) (id : Nat) : (s.dropItem id).memWf = s.memWf := (rfl)

@[simp] theorem memWf_newRec (s : State) (home : Nat) (r : PRec) : (s.newRec home r).2.memWf = s.memWf := by
  unfold State.newRec
  dsimp only
  repeat' split
  all_goals simp

@[simp] theorem memWf_recFor (s : State) (it : HomeItem) (x0 : HSrc) : (s.recFor it x0).2.memWf = s.memWf := by
  unfold State.recFor
  split <;> simp

@[simp] theorem memWf_writeSlot (s : State) (it : HomeItem) (d : Nat × Nat) (r : HSrc) : (s.writeSlot it d r).memWf = s.memWf := by
  unfold State.writeSlot
  dsimp only
  repeat' split
  all_goals simp

@[simp] theorem memWf_writeCrossing (s : State) (o : HomeOp) : (s.writeCrossing o).memWf = s.memWf := by
  unfold State.writeCrossing
  repeat' split
  all_goals try simp
  · refine memWf_foldl_eq _ _ _ fun s e => ?_
    split <;> simp

@[simp] theorem memWf_endHomeOp {s : State} {o : HomeOp} (h : s.memWf = true) : (s.endHomeOp o).memWf = true := by
  unfold State.endHomeOp
  split <;> simp [h]

@[simp] theorem memWf_answerOp {s : State} {it : HomeItem} {o : HomeOp} {r : HSrc} (h : s.memWf = true) :
    (s.answerOp it o r).memWf = true := by
  unfold State.answerOp
  simp [h]

@[simp] theorem memWf_endDemoted {s : State} {wid : Nat} {q : Req} (h : s.memWf = true) : (s.endDemoted wid q).memWf = true := by
  unfold State.endDemoted
  dsimp only
  split <;> simp [h]

@[simp] theorem memWf_answerReq {s : State} {it : HomeItem} {id : Nat} {r : HSrc} (h : s.memWf = true) :
    (s.answerReq it id r).memWf = true := by
  unfold State.answerReq
  split <;> simp [h]

@[simp] theorem memWf_answer {s : State} {it : HomeItem} {r : HSrc} (h : s.memWf = true) : (s.answer it r).memWf = true := by
  unfold State.answer
  repeat' split
  all_goals simp [h]

@[simp] theorem memWf_finishItem {s : State} {it : HomeItem} {r : HSrc} (h : s.memWf = true) : (s.finishItem it r).memWf = true := by
  unfold State.finishItem
  split <;> simp [h]

@[simp] theorem memWf_endStore {s : State} {it : HomeItem} (h : s.memWf = true) : (s.endStore it).memWf = true := by
  unfold State.endStore
  simp [h]

@[simp] theorem memWf_dropPosted {s : State} {it : HomeItem} {va : DWord} {r : HSrc} (h : s.memWf = true) :
    (s.dropPosted it va r).memWf = true := by
  unfold State.dropPosted
  simp [h]

@[simp] theorem memWf_endHome (s : State) (it : HomeItem) (sec : Nat) : (s.endHome it sec).memWf = s.memWf := by
  unfold State.endHome
  simp

@[simp] theorem memWf_homeLoad {s : State} {it : HomeItem} {parts : List Part} {own : Bool} (h : s.memWf = true) :
    (s.homeLoad it parts own).memWf = true := by
  unfold State.homeLoad
  dsimp only
  repeat' split
  all_goals simp [h]

@[simp] theorem memWf_homeQueue {s : State} {it : HomeItem} {a : HAddr} {off d : HSrc} {width : Width} {raw : List Byte}
    (h : s.memWf = true) : (s.homeQueue it a off d width raw).memWf = true := by
  unfold State.homeQueue
  dsimp only
  split <;> simp [h]

@[simp] theorem memWf_homeAtom {s : State} {it : HomeItem} {a : HAddr} {off d c n : HSrc} {op : AtomOp} (h : s.memWf = true) :
    (s.homeAtom it a off d c n op).memWf = true := by
  unfold State.homeAtom
  dsimp only
  repeat' split
  all_goals simp [h, memWf_physWrite]

@[simp] theorem memWf_homeExecute {s : State} {it : HomeItem} {k : HKind} (h : s.memWf = true) : (s.homeExecute it k).memWf = true := by
  unfold State.homeExecute
  repeat' split
  all_goals simp [h]

@[simp] theorem memWf_execPostedOperationExecute {item : Nat} {s : State} (h : s.memWf = true) :
    Result.memWf (execPostedOperationExecute item s) = true := by
  unfold execPostedOperationExecute
  repeat' split
  all_goals simp [h]

@[simp] theorem memWf_execCrossingResult {item : Nat} {s : State} (h : s.memWf = true) :
    Result.memWf (execCrossingResult item s) = true := by
  unfold execCrossingResult
  repeat' split
  all_goals simp [h]

@[simp] theorem memWf_carry (s : State) (it : HomeItem) (target : HomeItem) (r : HSrc) : (s.carry it target r).2.memWf = s.memWf := by
  unfold State.carry
  dsimp only
  repeat' split
  all_goals simp

@[simp] theorem memWf_sendForward (s : State) (it : HomeItem) (fwd : Nat) (r : HSrc) : (s.sendForward it fwd r).memWf = s.memWf := by
  unfold State.sendForward
  split <;> simp

@[simp] theorem memWf_execProxyForward (item : Nat) (s : State) : Result.memWf (execProxyForward item s) = s.memWf := by
  unfold execProxyForward
  repeat' split
  all_goals simp

@[simp] theorem memWf_execLdxFill {item : Nat} {s : State} (h : s.memWf = true) : Result.memWf (execLdxFill item s) = true := by
  unfold execLdxFill
  repeat' split
  all_goals simp [h]

@[simp] theorem memWf_execReferenceCountChange {item : Nat} {s : State} (h : s.memWf = true) :
    Result.memWf (execReferenceCountChange item s) = true := by
  unfold execReferenceCountChange
  repeat' split
  all_goals simp [h]

@[simp] theorem memWf_execPostedTimeout {item : Nat} {s : State} (h : s.memWf = true) : Result.memWf (execPostedTimeout item s) = true := by
  unfold execPostedTimeout
  repeat' split
  all_goals simp [h]

@[simp] theorem memWf_execHomeStorePerform {home store : Nat} {s : State} (h : s.memWf = true) :
    Result.memWf (execHomeStorePerform home store s) = true := by
  unfold execHomeStorePerform
  dsimp only [Result.memWf_next]
  repeat' split
  all_goals try simp [h]
  · exact memWf_retryStores (memWf_endStore (by simpa using memWf_sectorWrite _ _ _ (by simpa using h)))

@[simp] theorem memWf_execSlotGrant (core home : Nat) (slots : List Nat) (s : State) :
    Result.memWf (execSlotGrant core home slots s) = s.memWf := by
  unfold execSlotGrant
  simp

@[simp] theorem memWf_cancelPosted (s : State) (wid req : Nat) (lanes : Word) (cause : BitVec 7) :
    (s.cancelPosted wid req lanes cause).memWf = s.memWf := by
  unfold State.cancelPosted
  refine memWf_foldl_eq _ _ _ fun s it => ?_
  dsimp only
  split <;> simp

end Sys2Proof.Machine
end

section
/-! PROOFS. Memory stays canonical under the operations of Machine/CopyEvents.lean, in their order there: the copy engine. -/

namespace Sys2Proof.Machine

set_option Elab.async false

@[simp] theorem memWf_ringImage {s : State} {tid : Nat} (h : s.memWf = true) : (s.ringImage tid).memWf = true := by
  unfold State.ringImage
  split <;> simp [h, memWf_spWrite]

@[simp] theorem memWf_ringWrite {s : State} {tid n : Nat} {c : BitVec 256} (h : s.memWf = true) : (s.ringWrite tid n c).memWf = true := by
  unfold State.ringWrite
  split <;> simp [h, memWf_spWrite]

@[simp] theorem memWf_ringStatus {s : State} {tid n status progress : Nat} (h : s.memWf = true) :
    (s.ringStatus tid n status progress).memWf = true := by
  unfold State.ringStatus
  split <;> simp [h]

@[simp] theorem memWf_appendCopies {s : State} {tid n : Nat} (h : s.memWf = true) : (s.appendCopies tid n).memWf = true := by
  induction n generalizing s with
  | zero => exact h
  | succ k ih =>
    unfold State.appendCopies
    dsimp only
    repeat' split
    all_goals try exact h
    · exact ih (memWf_ringImage (memWf_ringWrite (by simpa using h)))

@[simp] theorem memWf_copyReleased {s : State} {tid cmd : Nat} (h : s.memWf = true) : (s.copyReleased tid cmd).memWf = true := by
  unfold State.copyReleased
  split <;> simp [h]

@[simp] theorem memWf_copyCounters (s : State) (tid wid : Nat) (cnt : List Nat) : (s.copyCounters tid wid cnt).memWf = s.memWf := by
  unfold State.copyCounters
  split <;> simp

@[simp] theorem memWf_faultTx {s : State} {p : Nat × Nat × Nat} {n : Nat} (h : s.memWf = true) : (s.faultTx p n).memWf = true := by
  unfold State.faultTx
  simp [h]

@[simp] theorem memWf_endCopy {s : State} {tid : Nat} {a : Active} {fault : Option (BitVec 7 × DWord)} (h : s.memWf = true) :
    (s.endCopy tid a fault).memWf = true := by
  unfold State.endCopy
  split
  · extract_lets t2 s1 s2 s3 s4
    have h1 : s1.memWf = true := by simpa [s1] using h
    have h2 : s2.memWf = true := by
      dsimp only [s2]
      split
      · exact memWf_ringImage (memWf_ringStatus h1)
      · exact h1
    have h3 : s3.memWf = true := by
      dsimp only [s3]
      split
      · exact memWf_faultTx h2
      · exact h2
    have h4 : s4.memWf = true := by
      dsimp only [s4]
      split
      · exact memWf_logFault h3
      · exact h3
    simpa using h4
  · exact h

@[simp] theorem memWf_landed {s : State} {tid : Nat} {a : Active} {sector : Nat} (h : s.memWf = true) :
    (s.landed tid a sector).memWf = true := by
  unfold State.landed
  repeat' split
  all_goals simp [h]

@[simp] theorem memWf_copyWrite {s : State} {g : Grid} {tid : Nat} {a : Active} {sector : Nat} {dst : Loc} {addr : DWord} {bs : List Byte}
    (h : s.memWf = true) : (s.copyWrite g tid a sector dst addr bs).memWf = true := by
  unfold State.copyWrite
  repeat' split
  all_goals simp [h, memWf_sectorWrite]

@[simp] theorem memWf_sourceRead (s : State) (g : Grid) (t : Team) (a : Active) (sector : Nat) :
    (s.sourceRead g t a sector).memWf = s.memWf := by
  unfold State.sourceRead
  repeat' split
  all_goals simp

@[simp] theorem memWf_keepSource (s : State) (tid : Nat) (g : Grid) (t : Team) (a : Active) (sector : Nat) :
    (s.keepSource tid g t a sector).memWf = s.memWf := by
  unfold State.keepSource
  repeat' split
  all_goals simp

end Sys2Proof.Machine
end

section
/-! PROOFS. Memory stays canonical under the operations of Machine/Control.lean, in their order there: the control instructions. -/

namespace Sys2Proof.Machine

set_option Elab.async false

@[simp] theorem memWf_spillOne {s : State} {wid split clk score : Nat} (h : s.memWf = true) :
    (s.spillOne wid split clk score).memWf = true := by
  unfold State.spillOne
  repeat' split
  all_goals simp [h, memWf_spWrite]

@[simp] theorem memWf_respill {s : State} {wid split clk score n : Nat} (h : s.memWf = true) :
    (s.respill wid split clk score n).memWf = true := by
  induction n generalizing s with
  | zero => exact h
  | succ n ih =>
    unfold State.respill
    repeat' split
    all_goals simp [h, ih]

theorem memWf_pushEntry {s t : State} {q : Iss} {e : REntry} (ht : s.pushEntry q e = some t) (h : s.memWf = true) : t.memWf = true := by
  unfold State.pushEntry at ht
  dsimp only at ht
  repeat' split at ht
  all_goals cases ht
  all_goals simp [h]

theorem memWf_sendGroup {s t : State} {q : Iss} {mask : Word} {pc : DWord} (ht : s.sendGroup q mask pc = some t) (h : s.memWf = true) :
    t.memWf = true := by
  unfold State.sendGroup at ht
  repeat' split at ht
  · cases ht
  · cases ht
    exact h
  · exact memWf_pushEntry ht h

@[simp] theorem memWf_keepGroup (s : State) (q : Iss) (mask : Word) (pc : DWord) : (s.keepGroup q mask pc).memWf = s.memWf := by
  unfold State.keepGroup
  simp

@[simp] theorem memWf_divideBra {s : State} {q : Iss} {t n : Word} {target : DWord} (h : s.memWf = true) :
    (divideBra s q t n target).memWf := by
  unfold divideBra
  repeat' split
  all_goals try simp [h]
  · next ht => exact memWf_sendGroup ht (by simpa using h)
  · next ht => exact memWf_pushEntry ht h

@[simp] theorem Res.memWf_quick {r : Res} {q : Iss} (h : r.memWf) : (r.quick q).memWf := by
  cases r with
  | done s => exact (Machine.memWf_quick s q).trans h
  | _ => exact h

@[simp] theorem memWf_braBody {not u : Bool} {a : Opd} {n : Word} {q : Iss} {s : State} (h : s.memWf = true) :
    (braBody not u a n q s).memWf := by
  unfold braBody
  refine Res.memWf_quick ?_
  split
  · simp [h]
  · exact memWf_divideBra h

/-- Steps that answer no state, or one in canonical form, in turn. -/
theorem memWf_foldlM {β : Type} {f : State → β → Option State} (hf : ∀ s b t, f s b = some t → s.memWf = true → t.memWf = true)
    {l : List β} {s t : State} (ht : l.foldlM f s = some t) (h : s.memWf = true) : t.memWf = true := by
  induction l generalizing s with
  | nil =>
    cases ht
    exact h
  | cons b l ih =>
    obtain ⟨u, hu, ht⟩ := Option.bind_eq_some_iff.mp ht
    exact ih ht (hf s b u hu h)

@[simp] theorem memWf_brxBody {a : Opd} {b : SrcB} {q : Iss} {s : State} (h : s.memWf = true) : (brxBody a b q s).memWf := by
  unfold brxBody
  dsimp only
  repeat' split
  all_goals try simp [h]
  · next ht => exact memWf_foldlM (fun s e t => memWf_sendGroup) ht (by simpa using h)

@[simp] theorem memWf_callBody {d : Opd} {b : SrcB} {q : Iss} {s : State} (h : s.memWf = true) : (callBody d b q s).memWf := by
  unfold callBody
  dsimp only
  repeat' split
  all_goals simp [h]

@[simp] theorem memWf_fuse {s : State} {wid i j : Nat} {pc : DWord} (h : s.memWf = true) : (s.fuse wid i j pc).memWf = true := by
  unfold State.fuse
  split
  · exact h
  · extract_lets lo hi a b prev w1 w2 w3 score s1
    have h1 : s1.memWf = true := by
      refine memWf_foldl _ _ (fun s k h => ?_) h
      dsimp only
      split
      · exact memWf_spWrite _ _ _ _ h
      · exact h
    rw [memWf_renumber, memWf_setWave, h1]

@[simp] theorem memWf_startFill (s : State) (wid split clk : Nat) : (s.startFill wid split clk).memWf = s.memWf := by
  unfold State.startFill
  simp

@[simp] theorem memWf_joinBody {q : Iss} {s : State} (h : s.memWf = true) : (joinBody q s).memWf := by
  unfold joinBody
  dsimp only
  repeat' split
  all_goals simp [h]

@[simp] theorem memWf_gridWavesDone (s : State) (g : Nat) : (s.gridWavesDone g).memWf = s.memWf := by
  unfold State.gridWavesDone
  split <;> simp

@[simp] theorem memWf_waveExit (s : State) (q : Iss) : (s.waveExit q).memWf = s.memWf := by
  unfold State.waveExit
  split <;> simp

@[simp] theorem memWf_exitBody {q : Iss} {s : State} (h : s.memWf = true) : (exitBody q s).memWf := by
  unfold exitBody
  dsimp only
  repeat' split
  all_goals simp [h]

@[simp] theorem memWf_softTrap {cause : BitVec 7} {b : SrcB} {q : Iss} {s : State} (h : s.memWf = true) : (softTrap cause b q s).memWf := by
  unfold softTrap
  simp [h]

@[simp] theorem memWf_rettBody {q : Iss} {s : State} (h : s.memWf = true) : (rettBody q s).memWf := by
  unfold rettBody
  repeat' split
  all_goals simp [h]

@[simp] theorem memWf_regionBody {n : Word} {q : Iss} {s : State} (h : s.memWf = true) : (regionBody n q s).memWf := by
  unfold regionBody
  split <;> simp [h]

@[simp] theorem memWf_yieldBody {n : Word} {q : Iss} {s : State} (h : s.memWf = true) : (yieldBody n q s).memWf := by
  unfold yieldBody
  simp [h]

@[simp] theorem memWf_electBody {d : Opd} {q : Iss} {s : State} (h : s.memWf = true) : (electBody d q s).memWf := by
  unfold electBody
  simp [h]

@[simp] theorem memWf_voteBody {kind : VoteKind} {d a : Opd} {q : Iss} {s : State} (h : s.memWf = true) :
    (voteBody kind d a q s).memWf := by
  unfold voteBody
  repeat' split
  all_goals simp [h]

end Sys2Proof.Machine
end

section
/-! PROOFS. Memory stays canonical under the operations of Machine/System.lean, in their order there: the system instructions. -/

namespace Sys2Proof.Machine

set_option Elab.async false

@[simp] theorem memWf_setsBody {d : Opd} {b : SrcB} {q : Iss} {s : State} (h : s.memWf = true) : (setsBody d b q s).memWf := by
  unfold setsBody
  dsimp only
  repeat' split
  all_goals simp [h]

@[simp] theorem memWf_qputBody {i : Instr} {a : Opd} {q : Iss} {s : State} (h : s.memWf = true) : (qputBody i a q s).memWf := by
  unfold qputBody
  split <;> simp [h]

@[simp] theorem memWf_hintBody {kind : HintKind} {a : Opd} {q : Iss} {s0 : State} (h : s0.memWf = true) : (hintBody kind a q s0).memWf := by
  unfold hintBody
  split <;> simp [h]

@[simp] theorem memWf_pteWrite {s : State} {ctx pa : Nat} {e : DWord} (h : s.memWf = true) : (s.pteWrite ctx pa e).memWf = true := by
  unfold State.pteWrite
  simp [h, memWf_physWrite]

@[simp] theorem memWf_markWindow {s : State} {ctx win n vpn : Nat} (h : s.memWf = true) : (s.markWindow ctx win n vpn).memWf = true := by
  induction n generalizing s vpn with
  | zero => exact h
  | succ n ih =>
    unfold State.markWindow
    refine ih ?_
    dsimp only
    repeat' split
    all_goals simp [h]

@[simp] theorem memWf_wopenBody {d a : Opd} {b : SrcB} {q : Iss} {s : State} (h : s.memWf = true) : (wopenBody d a b q s).memWf := by
  unfold wopenBody
  dsimp only
  repeat' split
  all_goals simp [h]

@[simp] theorem memWf_shut (s : State) (w : Nat) (byReset : Option Nat) : (s.shut w byReset).memWf = s.memWf := by
  unfold State.shut
  simp

@[simp] theorem memWf_wcloseBody {b : SrcB} {q : Iss} {s : State} (h : s.memWf = true) : (wcloseBody b q s).memWf := by
  unfold wcloseBody
  dsimp only
  split <;> simp [h]

end Sys2Proof.Machine
end

section
/-! PROOFS. Memory stays canonical under the operations of Machine/Pages.lean, in their order there: invalidations. -/

namespace Sys2Proof.Machine

set_option Elab.async false

@[simp] theorem memWf_startInval (s : State) (ctx vpn count : Nat) (reg : Bool) (wid : Option Nat) (cnt : List Nat) :
    (s.startInval ctx vpn count reg wid cnt).memWf = s.memWf := (rfl)

@[simp] theorem memWf_execInvcntWrite (ctx : Nat) (value : BitVec 32) (s : State) :
    Result.memWf (execInvcntWrite ctx value s) = s.memWf := by
  unfold execInvcntWrite
  simp

@[simp] theorem memWf_execInvalidationComplete (inv : Nat) (s : State) : Result.memWf (execInvalidationComplete inv s) = s.memWf := by
  unfold execInvalidationComplete
  repeat' split
  all_goals simp

@[simp] theorem memWf_modPme (s : State) (f : Pme → Pme) : (s.modPme f).memWf = s.memWf := (rfl)

@[simp] theorem memWf_setMove (s : State) (k : Nat) (m : Move) : (s.setMove k m).memWf = s.memWf := (rfl)

@[simp] theorem memWf_takeFrame (s : State) (t n : Nat) : (s.takeFrame t n).2.memWf = s.memWf := by
  induction n generalizing s with
  | zero => rfl
  | succ k ih =>
    unfold State.takeFrame
    dsimp only
    repeat' split
    all_goals simp [ih]

@[simp] theorem memWf_poolFrame {s : State} {f : Nat} (h : s.memWf = true) : (s.poolFrame f).memWf = true := by
  unfold State.poolFrame
  repeat' split
  all_goals simp [h, memWf_physWrite]

@[simp] theorem memWf_startMove {s : State} {ctx vpn : Nat} {t : Tr} {d tier : Nat} (h : s.memWf = true) :
    (s.startMove ctx vpn t d tier).memWf = true := by
  unfold State.startMove
  split <;> simp [h]

@[simp] theorem memWf_moveReq {s : State} {v : DWord} (h : s.memWf = true) : (s.moveReq v).2.memWf = true := by
  unfold State.moveReq
  dsimp only
  repeat' split
  all_goals try simp [h]
  · next ht => simp [memWf_of_pair ht, h]
  · next ht => exact memWf_startMove (by simp [memWf_of_pair ht, h])

@[simp] theorem memWf_execMovereq {value : BitVec 64} {s : State} (h : s.memWf = true) : Result.memWf (execMovereq value s) = true := by
  unfold execMovereq
  simp [h]

@[simp] theorem memWf_execHotsel (value : BitVec 64) (s : State) : Result.memWf (execHotsel value s) = s.memWf := (rfl)

@[simp] theorem memWf_tryMove {s : State} {p : PageRef} {tier : Nat} (h : s.memWf = true) : (s.tryMove p tier).memWf = true := by
  unfold State.tryMove
  repeat' split
  all_goals try exact h
  · next ht => exact memWf_startMove (by simp [memWf_of_pair ht, h])
  · next ht => simp [memWf_of_pair ht, h]

@[simp] theorem memWf_execPolicyInterval {s : State} (h : s.memWf = true) : Result.memWf (execPolicyInterval s) = true := by
  unfold execPolicyInterval
  rw [Result.memWf_next]
  split
  · exact h
  · rw [memWf_updatePhys]
    exact memWf_foldl _ _ (fun s e h => memWf_tryMove h) (memWf_foldl _ _ (fun s e h => memWf_tryMove h) h)

@[simp] theorem memWf_execMoveCutComplete (move : Nat) (s : State) : Result.memWf (execMoveCutComplete move s) = s.memWf := by
  unfold execMoveCutComplete
  split <;> simp

@[simp] theorem memWf_markPoison (s : State) (pa : Nat) : (s.markPoison pa).memWf = s.memWf := by
  unfold State.markPoison
  simp

@[simp] theorem memWf_engineWrite {s : State} {pa key : Nat} {bs : List Byte} {poison : Bool} (h : s.memWf = true) :
    (s.engineWrite pa key bs poison).memWf = true := by
  unfold State.engineWrite
  extract_lets ctx k s0 s1 p s2
  have h0 : s0.memWf = true := by simpa [s0] using memWf_renewed ctx (k / 64) h
  have h1 : s1.memWf = true := State.memWf_of h0 (Phys.wf_writeBytes ctx k _) rfl rfl rfl
  clear_value s1
  have h2 : s2.memWf = s1.memWf := by
    dsimp only [s2, p]
    split <;> simp
  simpa [h2] using h1

@[simp] theorem memWf_engineRead (s : State) (pa key : Nat) : (s.engineRead pa key).2.memWf = s.memWf := by
  unfold State.engineRead
  simp

@[simp] theorem memWf_abortReport {s : State} {m : Move} (h : s.memWf = true) : (s.abortReport m).memWf = true := by
  unfold State.abortReport
  simp [h]

@[simp] theorem memWf_grantFrame (s : State) (ctx frame : Nat) : (s.grantFrame ctx frame).memWf = s.memWf := (rfl)

@[simp] theorem memWf_ungrantFrame (s : State) (frame : Nat) : (s.ungrantFrame frame).memWf = s.memWf := by
  unfold State.ungrantFrame
  simp

@[simp] theorem memWf_commitMove {s : State} {k : Nat} {m : Move} (h : s.memWf = true) : (s.commitMove k m).memWf = true := by
  have hc : (State.commitMove.cancel s k m).memWf = true := by simp [State.commitMove.cancel, h]
  unfold State.commitMove
  dsimp only
  repeat' split
  all_goals simp [h, hc]

@[simp] theorem memWf_execMoveSectorCopy {move : Nat} {sourceFails : Bool} {s : State} (h : s.memWf = true) :
    Result.memWf (execMoveSectorCopy move sourceFails s) = true := by
  unfold execMoveSectorCopy
  rw [Result.memWf_next]
  split
  · exact h
  extract_lets src dst owner was kept
  split
  · exact h
  split
  · simpa using h
  split
  · exact h
  split
  next bs s0 hs0 =>
    have h0 : s0.memWf = true := by
      rw [memWf_of_pair hs0]
      split <;> simp [h]
    dsimp only
    split <;> simp [h0]

@[simp] theorem memWf_startRekey {s : State} {w n : Nat} (h : s.memWf = true) : (s.startRekey w n).memWf = true := by
  induction n generalizing s with
  | zero => exact h
  | succ n ih =>
    unfold State.startRekey
    dsimp only
    repeat' split
    all_goals simp [h, ih]

@[simp] theorem memWf_rekeyOn {s : State} {w : Nat} (h : s.memWf = true) : (s.rekeyOn w).memWf = true := by
  unfold State.rekeyOn
  simp [h]

@[simp] theorem memWf_retryRekeys {s : State} (h : s.memWf = true) : s.retryRekeys.memWf = true :=
  memWf_foldl _ _ (fun _ _ h => memWf_rekeyOn h) h

@[simp] theorem memWf_execMoveSourceRelease {move : Nat} {s : State} (h : s.memWf = true) :
    Result.memWf (execMoveSourceRelease move s) = true := by
  unfold execMoveSourceRelease
  dsimp only [Result.memWf_next]
  repeat' split
  all_goals try simp [h]
  · exact memWf_retryRekeys (memWf_poolFrame (by simpa using memWf_clearFrame _ _ (by simpa using h)))

@[simp] theorem memWf_execMoveCopyTimeout (move : Nat) (destFailed : Bool) (s : State) :
    Result.memWf (execMoveCopyTimeout move destFailed s) = s.memWf := by
  unfold execMoveCopyTimeout
  split <;> simp

@[simp] theorem memWf_endAbort {s : State} {k : Nat} {m : Move} (h : s.memWf = true) : (s.endAbort k m).memWf = true := by
  unfold State.endAbort
  extract_lets s1 s2 ctx s3 s4
  have h1 : s1.memWf = true := by
    dsimp only [s1]
    repeat' split
    all_goals simp [h]
  have h3 : s3.memWf = true := by simp [s3, s2, h1]
  refine memWf_retryRekeys ?_
  dsimp only [s4]
  split
  · exact h3
  · exact memWf_poolFrame (memWf_clearFrame _ _ h3)

@[simp] theorem memWf_execMoveCopyBack {move : Nat} {reachable : Bool} {s : State} (h : s.memWf = true) :
    Result.memWf (execMoveCopyBack move reachable s) = true := by
  unfold execMoveCopyBack
  rw [Result.memWf_next]
  split
  · exact h
  split
  · exact h
  split
  · exact memWf_endAbort h
  extract_lets src dst ok m0 m1
  split
  next bs s0 hs0 =>
    have h0 : s0.memWf = true := by
      rw [memWf_of_pair hs0]
      split <;> simp [h]
    extract_lets s1
    have h1 : s1.memWf = true := by
      dsimp only [s1]
      split <;> simp [h0]
    split <;> simp [h1]

@[simp] theorem memWf_closeWindow {s : State} {w : Nat} {byReset : Option Nat} (h : s.memWf = true) :
    (s.closeWindow w byReset).memWf = true := by
  unfold State.closeWindow
  split <;> simp [h]

@[simp] theorem memWf_askClose {s : State} {w : Nat} {ctx : Nat} (h : s.memWf = true) : (s.askClose w ctx).memWf = true := by
  unfold State.askClose
  simp [h]

@[simp] theorem memWf_windowCounters (s : State) (e : Nat × List Nat) : (s.windowCounters e).memWf = s.memWf := by
  unfold State.windowCounters
  simp

@[simp] theorem memWf_execWindowOpened {window : Nat} {s : State} (h : s.memWf = true) :
    Result.memWf (execWindowOpened window s) = true := by
  unfold execWindowOpened
  dsimp only
  repeat' split
  all_goals simp [h]

@[simp] theorem memWf_execWindowClosed {window : Nat} {s : State} (h : s.memWf = true) :
    Result.memWf (execWindowClosed window s) = true := by
  unfold execWindowClosed
  simp [h]

end Sys2Proof.Machine
end

section
/-! PROOFS. Memory stays canonical under the operations of Machine/SaveArea.lean, in their order there: the save area of a context. -/

namespace Sys2Proof.Machine

set_option Elab.async false

theorem Phys.wf_bumpNodesBy {p : Phys} (ctx leaf n : Nat) (h : p.wf = true) : (p.bumpNodesBy ctx leaf n).wf = true := by
  rw [Phys.wf_iff] at h ⊢
  obtain ⟨hb, hmin, hmaj, hn⟩ := h
  exact ⟨hb, hmin, hmaj, twf_setAll (nodeKeys ctx leaf) (fun t k => tget 0 t k + BitVec.ofNat 56 n) hn⟩

/-- A fold of operations on physical memory that keep its canonical form keeps it. -/
theorem Phys.wf_foldl {β : Type} (l : List β) (f : Phys → β → Phys) (hf : ∀ p b, p.wf = true → (f p b).wf = true) {p : Phys}
    (h : p.wf = true) : (l.foldl f p).wf = true :=
  List.foldlRecOn (motive := fun p : Phys => p.wf = true) l f h fun p hp b _ => hf p b hp

theorem Phys.wf_countRun {p : Phys} (ctx sector n : Nat) (h : p.wf = true) : (p.countRun ctx sector n).wf = true := by
  unfold Phys.countRun
  dsimp only
  split
  · exact Phys.wf_foldl _ _ (fun _ _ hp => Phys.wf_countWrite _ _ hp) h
  · refine Phys.wf_foldl _ _ (fun _ _ hp => Phys.wf_bumpNodesBy _ _ _ hp) ?_
    rw [Phys.wf_iff] at h ⊢
    obtain ⟨hb, hmin, hmaj, hn⟩ := h
    exact ⟨hb, twf_setAll _ (fun t k => tget 0 t k + 1) hmin, hmaj, hn⟩

theorem Phys.wf_saveRun {p : Phys} (ctx sector n stamp : Nat) (h : p.wf = true) : (p.saveRun ctx sector n stamp).wf = true := by
  unfold Phys.saveRun
  extract_lets p1 here p2
  have h1 : p1.wf = true := Phys.wf_foldl _ _ (fun _ _ hp => Phys.wf_cut _ hp) h
  have h2 : p2.wf = true := by
    rw [Phys.wf_iff] at h1 ⊢
    obtain ⟨hb, hmin, hmaj, hn⟩ := h1
    exact ⟨twf_filter _ hb, hmin, hmaj, hn⟩
  exact Phys.wf_countRun ctx sector n h2

@[simp] theorem memWf_saveSectors {s : State} {pa n : Nat} (h : s.memWf = true) : (s.saveSectors pa n).memWf = true := by
  unfold State.saveSectors
  extract_lets ctx stamp sec one t
  rw [memWf_update]
  dsimp only [t]
  split
  · refine memWf_foldl _ _ (fun s i h => ?_) h
    exact State.memWf_of (memWf_renewed ctx _ h) (Phys.wf_saveRun ctx _ _ _) rfl rfl rfl
  · exact State.memWf_of h (Phys.wf_saveRun ctx _ _ _) rfl rfl rfl

@[simp] theorem memWf_saveWrite {s : State} {ctx : Nat} {runs : List (Nat × Nat)} (h : s.memWf = true) :
    (s.saveWrite ctx runs).2.memWf = true := by
  unfold State.saveWrite
  refine List.foldlRecOn (motive := fun acc : Bool × State => acc.2.memWf = true) _ _ h fun acc hacc p _ => ?_
  dsimp only
  repeat' split
  all_goals simp [hacc]

@[simp] theorem memWf_readArea (s : State) (ctx : Nat) (runs : List (Nat × Nat)) : (s.readArea ctx runs).memWf = s.memWf := by
  unfold State.readArea
  simp

@[simp] theorem memWf_loseUnit {s : State} {ctx gid : Nat} (h : s.memWf = true) : (s.loseUnit ctx gid).memWf = true := by
  unfold State.loseUnit
  simp [h]

@[simp] theorem memWf_saveUnits {s : State} {ctx gid : Nat} {runs : List (Nat × Nat)} (h : s.memWf = true) :
    (s.saveUnits ctx gid runs).memWf = true := by
  unfold State.saveUnits
  simp [h]

end Sys2Proof.Machine
end

section
/-! PROOFS. Memory stays canonical under the operations of Machine/Teams.lean, in their order there: where teams stand. -/

namespace Sys2Proof.Machine

set_option Elab.async false

@[simp] theorem memWf_addLazies (s : State) (us : List LazyUnit) : (s.addLazies us).memWf = s.memWf := (rfl)

@[simp] theorem memWf_leaveUnit {s : State} {gid lvl unit : Nat} (h : s.memWf = true) : (s.leaveUnit gid lvl unit).memWf = true := by
  unfold State.leaveUnit
  repeat' split
  all_goals simp [h]

@[simp] theorem memWf_takePos (s : State) (core ctx pos : Nat) : (s.takePos core ctx pos).memWf = s.memWf := by
  unfold State.takePos
  simp

@[simp] theorem memWf_freePos (s : State) (core ctx : Nat) : (s.freePos core ctx).memWf = s.memWf := by
  unfold State.freePos
  simp

@[simp] theorem memWf_removeWave (s : State) (wid : Nat) : (s.removeWave wid).memWf = s.memWf := by
  unfold State.removeWave
  split <;> simp

@[simp] theorem memWf_dropImages (s : State) (gid : Nat) : (s.dropImages gid).memWf = s.memWf := by
  unfold State.dropImages
  split <;> rfl

@[simp] theorem memWf_endTeam {s : State} {tid : Nat} {t : Team} (h : s.memWf = true) : (s.endTeam tid t).memWf = true := by
  unfold State.endTeam
  extract_lets ctx s1 s2 s3
  have h1 : s1.memWf = true := memWf_foldl _ _ (fun s r h => memWf_toDomain h) h
  have h2 : s2.memWf = true := by simpa [s2] using h1
  have h3 : s3.memWf = true := by simpa [s3] using h2
  rw [memWf_dropImages]
  exact memWf_leaveUnit (memWf_leaveUnit (by simpa using h3))

@[simp] theorem memWf_tryEndTeam {s : State} {tid : Nat} (h : s.memWf = true) : (s.tryEndTeam tid).memWf = true := by
  unfold State.tryEndTeam
  split <;> simp [h]

@[simp] theorem memWf_endOver {s : State} (h : s.memWf = true) : s.endOver.memWf = true :=
  memWf_foldl _ _ (fun _ _ h => memWf_tryEndTeam h) h

@[simp] theorem memWf_execWaveSlotRelease {wid : Nat} {s : State} (h : s.memWf = true) :
    Result.memWf (execWaveSlotRelease wid s) = true := by
  unfold execWaveSlotRelease
  split <;> simp [h]

@[simp] theorem memWf_copyTake {s : State} {team cmd : Nat} (h : s.memWf = true) : (s.copyTake team cmd).memWf = true := by
  unfold State.copyTake
  split
  · split
    · exact h
    split
    · exact h
    extract_lets c k c1 a t2 s1 s2
    have h1 : s1.memWf = true := by simpa [s1] using h
    have h2 : s2.memWf = true := by
      dsimp only [s2]
      split <;> simp [h1]
    repeat' split
    all_goals simp [h2]
  · exact h

@[simp] theorem memWf_copyLand {s : State} {team cmd sector : Nat} (h : s.memWf = true) : (s.copyLand team cmd sector).memWf = true := by
  unfold State.copyLand
  dsimp only
  repeat' split
  all_goals simp [h]

@[simp] theorem memWf_copyFail {s : State} {team cmd cause addr : Nat} (h : s.memWf = true) :
    (s.copyFail team cmd cause addr).memWf = true := by
  unfold State.copyFail
  repeat' split
  all_goals simp [h]

@[simp] theorem memWf_execCopyTake {team cmd : Nat} {s : State} (h : s.memWf = true) : Result.memWf (execCopyTake team cmd s) = true := by
  unfold execCopyTake
  simp [h]

@[simp] theorem memWf_execCopySectorLand {team cmd sector : Nat} {s : State} (h : s.memWf = true) :
    Result.memWf (execCopySectorLand team cmd sector s) = true := by
  unfold execCopySectorLand
  simp [h]

@[simp] theorem memWf_execCopyFault {team cmd cause addr : Nat} {s : State} (h : s.memWf = true) :
    Result.memWf (execCopyFault team cmd cause addr s) = true := by
  unfold execCopyFault
  simp [h]

end Sys2Proof.Machine
end

section
/-! PROOFS. Memory stays canonical under the operations of Machine/Release.lean, in their order there: RELEASE_COMPLETE. -/

namespace Sys2Proof.Machine

set_option Elab.async false

@[simp] theorem memWf_startQput {s : State} {wid : Nat} {w : Wave} {r : Req} (h : s.memWf = true) : (s.startQput wid w r).memWf = true := by
  unfold State.startQput
  simp [h]

@[simp] theorem memWf_runCont {s : State} {wid : Nat} {w : Wave} {c : Cont} (h : s.memWf = true) : (s.runCont wid w c).memWf = true := by
  unfold State.runCont
  repeat' split
  all_goals simp [h]

@[simp] theorem memWf_releaseTrap {s : State} {wid : Nat} {w : Wave} {r : Rel} {cause : BitVec 7} (h : s.memWf = true) :
    (s.releaseTrap wid w r cause).memWf = true := by
  unfold State.releaseTrap
  simp [h]

@[simp] theorem memWf_execReleaseComplete {wid rel : Nat} {s : State} (h : s.memWf = true) :
    Result.memWf (execReleaseComplete wid rel s) = true := by
  unfold execReleaseComplete
  repeat' split
  all_goals simp [h]

end Sys2Proof.Machine
end

section
/-! PROOFS. Memory stays canonical under the operations of Machine/Preempt.lean, in their order there: pre-emption. -/

namespace Sys2Proof.Machine

set_option Elab.async false

@[simp] theorem memWf_haltRelease (s : State) (wid : Nat) (w : Wave) : (s.haltRelease wid w).memWf = s.memWf := by
  unfold State.haltRelease
  simp

@[simp] theorem memWf_haltWave (s : State) (wid : Nat) : (s.haltWave wid).memWf = s.memWf := by
  unfold State.haltWave
  simp

@[simp] theorem memWf_freeTagged (s : State) (wid seq : Nat) : (s.freeTagged wid seq).memWf = s.memWf := by
  unfold State.freeTagged
  simp

@[simp] theorem memWf_discardWave (s : State) (wid : Nat) (w : Wave) (r : RegionRec) : (s.discardWave wid w r).memWf = s.memWf := by
  unfold State.discardWave
  simp

@[simp] theorem memWf_preemptWave {s : State} {wid : Nat} (h : s.memWf = true) : (s.preemptWave wid).memWf = true := by
  unfold State.preemptWave
  dsimp only
  repeat' split
  all_goals simp [h]

@[simp] theorem memWf_stopTeam {s : State} {tid : Nat} {goal : Option Nat} (h : s.memWf = true) : (s.stopTeam tid goal).memWf = true := by
  unfold State.stopTeam
  dsimp only
  rw [memWf_modTeam]
  exact memWf_foldl _ _ (fun _ _ h => memWf_preemptWave h) h

@[simp] theorem memWf_freezeWave (s : State) (wid : Nat) : (s.freezeWave wid).memWf = s.memWf := by
  unfold State.freezeWave
  split <;> simp

@[simp] theorem memWf_retagSlots (s : State) (a b : Nat) : (s.retagSlots a b).memWf = s.memWf := by
  unfold State.retagSlots
  simp

@[simp] theorem memWf_pinImage (s : State) (gid lvl unit : Nat) : (s.pinImage gid lvl unit).2.memWf = s.memWf := by
  unfold State.pinImage
  repeat' split
  all_goals simp

@[simp] theorem memWf_parkLeaves (s : State) (tid cluster : Nat) : (s.parkLeaves tid cluster).memWf = s.memWf := by
  unfold State.parkLeaves
  split <;> simp

@[simp] theorem memWf_packTeam (s : State) (tid : Nat) (t : Team) (g : Grid) : (s.packTeam tid t g).memWf = s.memWf := by
  unfold State.packTeam
  simp

@[simp] theorem memWf_saveTeam {s : State} {tid : Nat} {how : Leave} (h : s.memWf = true) : (s.saveTeam tid how).memWf = true := by
  unfold State.saveTeam
  split
  · next t g _ _ =>
    extract_lets engine isLazy pin
    have hpin : ∀ lvl u, (pin lvl u).2.memWf = u.memWf := by
      intro lvl u
      dsimp only [pin]
      split <;> simp
    clear_value pin
    split
    next ic s1 hs1 =>
    split
    next id s2 hs2 =>
    have h2 : s2.memWf = true := by rw [memWf_of_pair hs2, hpin, memWf_of_pair hs1, hpin, h]
    extract_lets s3 lazies bytes area s4 s5 s6 s7
    have h6 : s6.memWf = true := by
      have h5 : s5.memWf = true := by
        dsimp only [s5, s4, s3]
        split <;> simp [h2]
      simpa [s6] using h5
    have h7 : s7.memWf = true := by
      dsimp only [s7]
      split
      · exact h6
      · refine memWf_leaveUnit (memWf_leaveUnit ?_)
        split <;> simp [h6]
    simpa using h7
  · exact h

@[simp] theorem memWf_resumeTeam (s : State) (tid : Nat) : (s.resumeTeam tid).memWf = s.memWf := by
  unfold State.resumeTeam
  simp

@[simp] theorem memWf_restoreEntry {s : State} {wid : Nat} {w : Wave} {e : SEntry} (h : s.memWf = true) :
    (s.restoreEntry wid w e).1.memWf = true := by
  unfold State.restoreEntry
  split <;> simp [h]

@[simp] theorem memWf_restoreItem {s : State} {wid : Nat} {item : HomeItem} (h : s.memWf = true) :
    (s.restoreItem wid item).memWf = true := by
  unfold State.restoreItem
  dsimp only
  split
  · split <;> simp [h]
  · split <;> simp [h]
  · cases HAddr.frame _ <;> simp [h]
  · simp [h]

@[simp] theorem memWf_restoreWave {s : State} {wid : Nat} {w : Wave} {base pos : Nat} (h : s.memWf = true) :
    (s.restoreWave wid w base pos).memWf = true := by
  unfold State.restoreWave
  extract_lets ws w1 s0 s1
  have h1 : s1.memWf = true := by simpa [s1, s0] using h
  refine memWf_foldl _ _ (fun s e h => ?_) h1
  dsimp only
  split <;> simp [h]

@[simp] theorem memWf_refill {s : State} {lvl unit base n : Nat} {img : Tab Byte} {stays : List LazyUnit} (h : s.memWf = true) :
    (s.refill lvl unit base n img stays).memWf = true := by
  unfold State.refill
  refine memWf_foldl _ _ (fun s k h => ?_) h
  dsimp only
  split
  · exact h
  · exact memWf_spLoad _ _ _ _ _ h

@[simp] theorem memWf_enterUnit {s : State} {gid lvl unit img : Nat} (h : s.memWf = true) :
    (s.enterUnit gid lvl unit img).memWf = true := by
  unfold State.enterUnit
  split
  · exact h
  extract_lets n blocks image here stays moved s0 s1
  have h1 : s1.memWf = true := by
    refine memWf_foldl _ _ (fun s u h => ?_) h
    split
    · exact memWf_spZero _ _ _ _ h
    · exact h
  split
  · exact h
  split
  · exact h
  exact memWf_refill (by simpa using h1)

@[simp] theorem memWf_restoreTeam {s : State} {tid core base : Nat} {slots : List Nat} {pos : Nat} (h : s.memWf = true) :
    (s.restoreTeam tid core base slots pos).memWf = true := by
  unfold State.restoreTeam
  split
  · extract_lets s0 s1 widAt back t1 s2 s3 s4 g1 leaves s5 s6 s7
    have h0 : s0.memWf = true := by
      dsimp only [s0]
      split <;> simp [h]
    have h2 : s2.memWf = true := by simpa [s2] using memWf_enterUnit (memWf_enterUnit h0)
    have h3 : s3.memWf = true := memWf_foldl _ _ (fun s e h => memWf_restoreWave (by simpa using h)) h2
    have h4 : s4.memWf = true := by
      dsimp only [s4]
      split <;> simp [h3]
    have h6 : s6.memWf = true := by simpa [s6, s5] using h4
    have h7 : s7.memWf = true := memWf_foldl _ _ (fun s x h => memWf_restoreItem h) h6
    simpa using h7
  · exact h

@[simp] theorem memWf_liftUnit {s : State} {u : LazyUnit} (h : s.memWf = true) : (s.liftUnit u).memWf = true := by
  unfold State.liftUnit
  repeat' split
  all_goals simp [h, memWf_spZero]

@[simp] theorem memWf_restoreSaved {s : State} {tid core base : Nat} {slots : List Nat} {pos : Nat} (h : s.memWf = true) :
    (s.restoreSaved tid core base slots pos).memWf = true := by
  unfold State.restoreSaved
  split
  · extract_lets mine here s0
    have h0 : s0.memWf = true := memWf_foldl _ _ (fun _ _ h => memWf_liftUnit h) h
    split
    · exact h
    · refine memWf_restoreTeam (memWf_refill ?_)
      rw [memWf_update, h0]
  · exact h

@[simp] theorem memWf_imageBlock (s : State) (u : LazyUnit) (lvl unit off : Nat) (area : List (Nat × Nat)) :
    (s.imageBlock u lvl unit off area).memWf = s.memWf := by
  unfold State.imageBlock
  simp

@[simp] theorem memWf_saveUnit {s : State} {u : LazyUnit} {ok : Bool} (h : s.memWf = true) : (s.saveUnit u ok).memWf = true := by
  unfold State.saveUnit
  repeat' split
  all_goals simp [h, memWf_spZero]

@[simp] theorem memWf_execLazySaveComplete {block : Nat} {s : State} (h : s.memWf = true) :
    Result.memWf (execLazySaveComplete block s) = true := by
  unfold execLazySaveComplete
  split <;> simp [h]

@[simp] theorem memWf_execSaveAreaRetry {block : Nat} {ok : Bool} {s : State} (h : s.memWf = true) :
    Result.memWf (execSaveAreaRetry block ok s) = true := by
  unfold execSaveAreaRetry
  repeat' split
  all_goals simp [h]

end Sys2Proof.Machine
end

section
/-! PROOFS. Memory stays canonical under the operations of Machine/Launch.lean, in their order there: the task-graph engine. -/

namespace Sys2Proof.Machine

set_option Elab.async false

@[simp] theorem memWf_amberRecord (s : State) (cause : Nat) (bs : List Byte) : (s.amberRecord cause bs).memWf = s.memWf := (rfl)

@[simp] theorem memWf_writeLog {s : State} {n e : Nat} {bs : List Byte} (h : s.memWf = true) : (s.writeLog n e bs).memWf = true := by
  unfold State.writeLog
  dsimp only
  split
  · next ht => exact memWf_virtWrite ht (by simpa using h)
  · simpa using h

@[simp] theorem memWf_emitRecord {s : State} {n : Nat} {r : CRec} (h : s.memWf = true) : (s.emitRecord n r).memWf = true := by
  unfold State.emitRecord
  dsimp only
  rw [memWf_modCtx]
  split
  · simp [h]
  split
  · split
    · next ht => simpa using memWf_virtWrite ht (by simpa using h)
    · simpa using h
  · exact h

@[simp] theorem memWf_execTrigWrite {ctx width : Nat} {value : BitVec 64} {s : State} (h : s.memWf = true) :
    Result.memWf (execTrigWrite ctx width value s) = true := by
  have hr : ∀ g seq, (execTrigWrite.refuse ctx s g seq).memWf = true := fun _ _ => memWf_report h
  unfold execTrigWrite
  dsimp only [Result.memWf_next]
  repeat' split
  all_goals simp [h, hr]

@[simp] theorem memWf_execGloadAddressWrite (ctx width : Nat) (value : BitVec 64) (s : State) :
    Result.memWf (execGloadAddressWrite ctx width value s) = s.memWf := by
  unfold execGloadAddressWrite
  simp

@[simp] theorem memWf_execGloadLoad (ctx width : Nat) (value : BitVec 64) (s : State) :
    Result.memWf (execGloadLoad ctx width value s) = s.memWf := by
  unfold execGloadLoad
  repeat' split
  all_goals simp

@[simp] theorem memWf_execGloadUnload (ctx width : Nat) (value : BitVec 64) (s : State) :
    Result.memWf (execGloadUnload ctx width value s) = s.memWf := by
  unfold execGloadUnload
  repeat' split
  all_goals simp

@[simp] theorem memWf_execGloadSequenceError (ctx width : Nat) (value : BitVec 64) (s : State) :
    Result.memWf (execGloadSequenceError ctx width value s) = s.memWf := by
  unfold execGloadSequenceError
  simp

@[simp] theorem memWf_endLoad (s : State) (ctx : Nat) (copyFails : Bool) : (s.endLoad ctx copyFails).memWf = s.memWf := by
  unfold State.endLoad
  repeat' split
  all_goals simp

@[simp] theorem memWf_failLoad (s : State) (ctx : Nat) : (s.failLoad ctx).memWf = s.memWf := by
  unfold State.failLoad
  split <;> simp

@[simp] theorem memWf_execGloadLoadComplete (ctx : Nat) (copyFails : Bool) (s : State) :
    Result.memWf (execGloadLoadComplete ctx copyFails s) = s.memWf := by
  unfold execGloadLoadComplete
  simp

@[simp] theorem memWf_fullBuckets (s : State) (n : Nat) : (s.fullBuckets n).memWf = s.memWf := by
  unfold State.fullBuckets
  simp

@[simp] theorem memWf_formGrid (s0 : State) (n : Nat) (packet : List Byte) (from_ : Origin) :
    (s0.formGrid n packet from_).memWf = s0.memWf := by
  unfold State.formGrid
  simp

@[simp] theorem memWf_startNodes (s : State) (lid : Nat) : (s.startNodes lid).memWf = s.memWf := by
  unfold State.startNodes
  split
  · rfl
  refine memWf_foldl_eq _ _ _ fun s i => ?_
  split
  · rfl
  dsimp only
  repeat' split
  all_goals simp

@[simp] theorem memWf_endLaunch {s : State} {lid : Nat} (h : s.memWf = true) : (s.endLaunch lid).memWf = true := by
  unfold State.endLaunch
  split <;> simp [h]

@[simp] theorem memWf_refusePatch {s : State} {launch : Nat} {l : Launch} {g : Graph} (h : s.memWf = true) :
    (s.refusePatch launch l g).memWf = true := by
  unfold State.refusePatch
  simp [h]

@[simp] theorem memWf_execPatchApply {launch : Nat} {s : State} (h : s.memWf = true) : Result.memWf (execPatchApply launch s) = true := by
  unfold execPatchApply
  dsimp only
  repeat' split
  all_goals simp [h]

@[simp] theorem memWf_returnFloors (s : State) (ctx : Nat) : (s.returnFloors ctx).memWf = s.memWf := (rfl)

@[simp] theorem memWf_completeGrid {s : State} {gid : Nat} {g : Grid} {fault : Bool} (h : s.memWf = true) :
    (s.completeGrid gid g fault).memWf = true := by
  unfold State.completeGrid
  dsimp only
  repeat' split
  all_goals simp [h]

@[simp] theorem memWf_admitGrid {s : State} {gid : Nat} {g : Grid} (h : s.memWf = true) : (s.admitGrid gid g).memWf = true := by
  unfold State.admitGrid
  repeat' split
  all_goals simp [h]

@[simp] theorem memWf_execAdmission {s : State} (h : s.memWf = true) : Result.memWf (execAdmission s) = true := by
  unfold execAdmission
  dsimp only
  repeat' split
  all_goals simp [h]

@[simp] theorem memWf_execGridComplete {grid : Nat} {s : State} (h : s.memWf = true) : Result.memWf (execGridComplete grid s) = true := by
  unfold execGridComplete
  split <;> simp [h]

end Sys2Proof.Machine
end

section
/-! PROOFS. Memory stays canonical under the operations of Machine/Place.lean, in their order there: placement. -/

namespace Sys2Proof.Machine

set_option Elab.async false

@[simp] theorem memWf_takeHanded (s : State) (ctx core : Nat) : (s.takeHanded ctx core).memWf = s.memWf := (rfl)

@[simp] theorem memWf_wakeFor (s : State) (k : Nat) (h : Held) : (s.wakeFor k h).memWf = s.memWf := by
  unfold State.wakeFor
  simp

@[simp] theorem memWf_startTeam {s : State} {gid : Nat} {g : Grid} {p : Place} (h : s.memWf = true) :
    (s.startTeam gid g p).memWf = true := by
  unfold State.startTeam
  extract_lets tid tiles t s1 s2 s3
  have h2 : s2.memWf = true := memWf_enterUnit (memWf_enterUnit (by simpa [s1] using h))
  have h3 : s3.memWf = true := by simpa [s3] using memWf_spZero 0 p.core p.base g.score h2
  exact memWf_foldl _ _ (fun s i h => by simpa using h) h3

@[simp] theorem memWf_claimLazy (s : State) (g : Grid) (back : Option Team) : (s.claimLazy g back).memWf = s.memWf := by
  unfold State.claimLazy
  dsimp only
  repeat' split
  all_goals simp

@[simp] theorem memWf_bringBack {s : State} {gid : Nat} {g : Grid} {t : Nat × Team} {p : Place} (h : s.memWf = true) :
    (s.bringBack gid g t p).2.memWf = true := by
  unfold State.bringBack
  split <;> simp [h]

@[simp] theorem memWf_placeOne {s : State} {gid : Nat} {g : Grid} {back : Option (Nat × Team)} (h : s.memWf = true) :
    (s.placeOne gid g back).2.memWf = true := by
  unfold State.placeOne
  dsimp only
  repeat' split
  all_goals simp [h]

theorem memWf_resumeLazy {s u : State} {gid : Nat} {g : Grid} {t : Nat × Team} {b : Bool} (hu : s.resumeLazy gid g t = some (b, u))
    (h : s.memWf = true) : u.memWf = true := by
  unfold State.resumeLazy at hu
  extract_lets own other go at hu
  have hgo : ∀ p, go p = (b, u) → u.memWf = true := by
    intro p hp
    rw [memWf_of_pair hp]
    dsimp only [go]
    split <;> simp [h]
  clear_value go
  split at hu
  · cases hu
  split at hu
  · cases hu
    exact h
  split at hu
  · split at hu
    · cases hu
    · obtain ⟨p, -, hp⟩ := Option.map_eq_some_iff.mp hu
      exact hgo p hp
  split at hu
  · split at hu
    · exact (memWf_of_pair (Option.some.inj hu)).trans (memWf_bringBack h)
    · cases hu
      exact h
  · exact hgo _ (Option.some.inj hu)
  · cases hu
    exact h

@[simp] theorem memWf_restoreAll {s : State} {gid : Nat} {ts : List (Nat × Team)} (h : s.memWf = true) :
    (s.restoreAll gid ts).2.memWf = true := by
  induction ts generalizing s with
  | nil => exact h
  | cons t ts ih =>
    unfold State.restoreAll
    split
    · exact h
    split
    · next hu => exact ih (memWf_resumeLazy hu h)
    · next hu => exact memWf_resumeLazy hu h
    · have hp : ∀ {g b u}, s.placeOne gid g (some t) = (b, u) → u.memWf = true := fun hu => (memWf_of_pair hu).trans (memWf_placeOne h)
      split
      · next hu => exact ih (hp hu)
      · next hu => exact hp hu

@[simp] theorem memWf_placeNew {s : State} {gid n : Nat} (h : s.memWf = true) : (s.placeNew gid n).2.memWf = true := by
  induction n generalizing s with
  | zero => exact h
  | succ n ih =>
    unfold State.placeNew
    split
    · exact h
    · have hp : ∀ {g b u}, s.placeOne gid g none = (b, u) → u.memWf = true := fun hu => (memWf_of_pair hu).trans (memWf_placeOne h)
      split
      · next hu => exact ih (hp hu)
      · next hu => exact hp hu

@[simp] theorem memWf_refuseCoop {s : State} {gid : Nat} {g : Grid} (h : s.memWf = true) : (s.refuseCoop gid g).memWf = true := by
  unfold State.refuseCoop
  simp [h]

@[simp] theorem memWf_placeCoop {s : State} {gid : Nat} {g : Grid} (h : s.memWf = true) : (s.placeCoop gid g).memWf = true := by
  unfold State.placeCoop
  dsimp only
  repeat' split
  all_goals simp [h]

@[simp] theorem memWf_placeGrid {s : State} {gid : Nat} (h : s.memWf = true) : (s.placeGrid gid).memWf = true := by
  unfold State.placeGrid
  split <;> simp [h]

@[simp] theorem memWf_takePlacement {s : State} {h : Held} (hs : s.memWf = true) : (s.takePlacement h).memWf = true := by
  unfold State.takePlacement
  dsimp only
  repeat' split
  all_goals simp [hs]

@[simp] theorem memWf_saveStopped {s : State} (h : s.memWf = true) : s.saveStopped.memWf = true :=
  memWf_foldl _ _ (fun _ _ h => memWf_saveTeam h) h

@[simp] theorem memWf_endLost {s : State} (h : s.memWf = true) : s.endLost.memWf = true :=
  memWf_foldl _ _ (fun _ _ h => memWf_tryEndTeam h) h

@[simp] theorem memWf_execTeamPlacement {s : State} (h : s.memWf = true) : Result.memWf (execTeamPlacement s) = true := by
  unfold execTeamPlacement
  extract_lets s0 s1 t
  have h0 : s0.memWf = true := memWf_endLost (memWf_saveStopped h)
  have ht : t.memWf = true := memWf_foldl _ _ (fun _ _ h => memWf_placeGrid h) h0
  simpa using ht

@[simp] theorem memWf_returnPools (s : State) (core : Nat) : (s.returnPools core).memWf = s.memWf := by
  unfold State.returnPools
  simp

@[simp] theorem memWf_execTeamMigration {team core : Nat} {s : State} (h : s.memWf = true) :
    Result.memWf (execTeamMigration team core s) = true := by
  unfold execTeamMigration
  repeat' split
  all_goals simp [h]

@[simp] theorem memWf_stopGrid {s : State} {gid : Nat} (h : s.memWf = true) : (s.stopGrid gid).memWf = true :=
  memWf_foldl _ _ (fun _ _ h => memWf_stopTeam h) h

@[simp] theorem memWf_judgeCoop {s : State} {gid : Nat} {g : Grid} (h : s.memWf = true) : (s.judgeCoop gid g).memWf = true := by
  unfold State.judgeCoop
  simp [h]

@[simp] theorem memWf_shrink {s : State} (h : s.memWf = true) : s.shrink.memWf = true := by
  refine memWf_foldl _ _ (fun s e h => ?_) h
  split
  · exact h
  split
  · exact h
  split
  · exact memWf_judgeCoop h
  · exact memWf_foldl _ _ (fun _ _ h => memWf_stopTeam h) h

@[simp] theorem memWf_execPartWrite {part : Nat} {value : BitVec 128} {s : State} (h : s.memWf = true) :
    Result.memWf (execPartWrite part value s) = true := by
  unfold execPartWrite
  simp [h]

end Sys2Proof.Machine
end

section
/-! PROOFS. Memory stays canonical under the operations of Machine/Context.lean, in their order there: the life of a context. -/

namespace Sys2Proof.Machine

set_option Elab.async false

@[simp] theorem memWf_vdErr (s : State) (n : Nat) (e : BitVec 4) : (s.vdErr n e).memWf = s.memWf := (rfl)

@[simp] theorem memWf_vdState (s : State) (n : Nat) (x : CtxSt) : (s.vdState n x).memWf = s.memWf := (rfl)

@[simp] theorem memWf_fillBuckets (s : State) (n : Nat) : (s.fillBuckets n).memWf = s.memWf := (rfl)

@[simp] theorem memWf_freshKey (s : State) (n : Nat) : (s.freshKey n).memWf = s.memWf := (rfl)

@[simp] theorem memWf_execCreate {ctx : Nat} {s : State} (h : s.memWf = true) : Result.memWf (execCreate ctx s) = true := by
  unfold execCreate
  split
  · simpa using h
  · extract_lets root ph s1
    have h1 : s1.memWf = true := by
      refine State.memWf_of h (fun hp => ?_) rfl rfl rfl
      rw [Phys.wf_iff] at hp ⊢
      obtain ⟨hb, hmi, hma, hn⟩ := hp
      exact ⟨hb, hmi, hma, twf_filter _ hn⟩
    simpa using h1

@[simp] theorem memWf_execKeygen (ctx : Nat) (s : State) : Result.memWf (execKeygen ctx s) = s.memWf := by
  unfold execKeygen
  simp

@[simp] theorem memWf_execGrant {ctx : Nat} {s : State} (h : s.memWf = true) : Result.memWf (execGrant ctx s) = true := by
  unfold execGrant
  extract_lets c first count s1 ph s2
  have h1 : s1.memWf = true := memWf_foldl _ _ (fun _ _ h => memWf_clearFrame _ _ h) h
  have h2 : s2.memWf = true := h1
  repeat' split
  all_goals simp [h, h2]

@[simp] theorem memWf_replayLog {s : State} {n : Nat} (h : s.memWf = true) : (s.replayLog n).memWf = true := by
  unfold State.replayLog
  extract_lets c s1
  have h1 : s1.memWf = true := by
    refine memWf_foldl _ _ (fun s i h => ?_) h
    dsimp only
    split
    · exact memWf_writeLog (by simpa using h)
    · simpa using h
  simpa using h1

@[simp] theorem memWf_execAdmitCtx {ctx : Nat} {s : State} (h : s.memWf = true) : Result.memWf (execAdmitCtx ctx s) = true := by
  unfold execAdmitCtx
  simp [h]

@[simp] theorem memWf_execSuspend {ctx : Nat} {s : State} (h : s.memWf = true) : Result.memWf (execSuspend ctx s) = true := by
  unfold execSuspend
  extract_lets s1
  have h1 : s1.memWf = true := memWf_foldl _ _ (fun _ _ h => memWf_stopTeam h) h
  split <;> simp [h, h1]

@[simp] theorem memWf_execSuspendComplete {ctx : Nat} {s : State} (h : s.memWf = true) :
    Result.memWf (execSuspendComplete ctx s) = true := by
  unfold execSuspendComplete
  extract_lets ts s1
  have h1 : s1.memWf = true := memWf_foldl _ _ (fun _ _ h => memWf_saveTeam h) h
  split <;> simp [h, h1]

@[simp] theorem memWf_zeroUnit {s : State} {u : LazyUnit} (h : s.memWf = true) : (s.zeroUnit u).memWf = true := by
  unfold State.zeroUnit
  split <;> simp [h, memWf_spZero]

@[simp] theorem memWf_discardContext {s : State} {n : Nat} (h : s.memWf = true) : (s.discardContext n).memWf = true := by
  unfold State.discardContext
  extract_lets wids tids mine ours s1 gone s2
  have h1 : s1.memWf = true := memWf_foldl _ _ (fun _ _ h => by simpa using h) h
  have h2 : s2.memWf = true := memWf_foldl _ _ (fun _ _ h => memWf_zeroUnit h) h1
  clear_value s2
  exact h2

@[simp] theorem memWf_execReset {ctx : Nat} {s : State} (h : s.memWf = true) : Result.memWf (execReset ctx s) = true := by
  unfold execReset
  extract_lets c s1 wins
  have h1 : s1.memWf = true := by simp [s1, h]
  have h2 : (wins.foldl (fun (s : State) w => s.askClose w ctx) s1).memWf = true := memWf_foldl _ _ (fun _ _ h => memWf_askClose h) h1
  split <;> simp [h, h2]

@[simp] theorem memWf_execResetDrainComplete {ctx : Nat} {s : State} (h : s.memWf = true) :
    Result.memWf (execResetDrainComplete ctx s) = true := by
  unfold execResetDrainComplete
  extract_lets s1
  have h1 : s1.memWf = true := memWf_foldl _ _ (fun _ _ h => memWf_clearFrame _ _ h) (by simpa using h)
  split <;> simp [h, h1]

@[simp] theorem memWf_execRelease (ctx : Nat) (s : State) : Result.memWf (execRelease ctx s) = s.memWf := by
  unfold execRelease
  simp

@[simp] theorem memWf_execVdctlUndefinedCommand (ctx : Nat) (code : BitVec 4) (s : State) :
    Result.memWf (execVdctlUndefinedCommand ctx code s) = s.memWf := by
  unfold execVdctlUndefinedCommand
  simp

@[simp] theorem memWf_execBackgroundScrub {sector : Nat} {s : State} (h : s.memWf = true) :
    Result.memWf (execBackgroundScrub sector s) = true := by
  unfold execBackgroundScrub
  extract_lets k
  split
  · exact h
  · refine State.memWf_of h (fun hp => ?_) rfl rfl rfl
    have hk := Phys.wf_settle k hp
    rw [Phys.wf_iff] at hk ⊢
    exact hk

end Sys2Proof.Machine
end

section
/-! PROOFS. Memory stays canonical under the operations of Machine/Faults.lean, in their order there: parked faults and their answers. -/

namespace Sys2Proof.Machine

set_option Elab.async false

@[simp] theorem memWf_replayStat (s : State) (n : Nat) (x : Word) : (s.replayStat n x).memWf = s.memWf := (rfl)

@[simp] theorem memWf_endParked (s : State) (wid : Nat) (k : Park) : (s.endParked wid k).memWf = s.memWf := by
  unfold State.endParked
  split <;> simp

@[simp] theorem memWf_replayParked (s : State) (wid : Nat) : (s.replayParked wid).memWf = s.memWf := by
  unfold State.replayParked
  simp

@[simp] theorem memWf_deliverPark {s : State} {wid : Nat} {k : Park} (h : s.memWf = true) : (s.deliverPark wid k).memWf = true := by
  unfold State.deliverPark
  simp [h]

@[simp] theorem memWf_failParked {s : State} {wid : Nat} {k : Park} (h : s.memWf = true) : (s.failParked wid k).memWf = true := by
  unfold State.failParked
  simp [h]

@[simp] theorem memWf_replay {s : State} {n : Nat} {v : BitVec 64} (h : s.memWf = true) : (s.replay n v).memWf = true := by
  unfold State.replay
  repeat' split
  all_goals simp [h]

@[simp] theorem memWf_execReplayWave {ctx : Nat} {value : BitVec 64} {s : State} (h : s.memWf = true) :
    Result.memWf (execReplayWave ctx value s) = true := by
  unfold execReplayWave
  simp [h]

@[simp] theorem memWf_execReplayDeliverTrap {ctx : Nat} {value : BitVec 64} {s : State} (h : s.memWf = true) :
    Result.memWf (execReplayDeliverTrap ctx value s) = true := by
  unfold execReplayDeliverTrap
  simp [h]

@[simp] theorem memWf_execReplayUnrecovered {ctx : Nat} {value : BitVec 64} {s : State} (h : s.memWf = true) :
    Result.memWf (execReplayUnrecovered ctx value s) = true := by
  unfold execReplayUnrecovered
  simp [h]

@[simp] theorem memWf_execReplayInvalidAction {ctx : Nat} {value : BitVec 64} {s : State} (h : s.memWf = true) :
    Result.memWf (execReplayInvalidAction ctx value s) = true := by
  unfold execReplayInvalidAction
  simp [h]

@[simp] theorem memWf_deliverRemote {s : State} {wid : Nat} (h : s.memWf = true) : (s.deliverRemote wid).memWf = true := by
  unfold State.deliverRemote
  repeat' split
  all_goals simp [h]

@[simp] theorem memWf_execHeldFaultRecordWrite {ctx : Nat} {s : State} (h : s.memWf = true) :
    Result.memWf (execHeldFaultRecordWrite ctx s) = true := by
  unfold execHeldFaultRecordWrite
  dsimp only
  split <;> simp [h]

end Sys2Proof.Machine
end

section
/-! PROOFS. Memory stays canonical under the operations of Machine/Vector.lean, in their order there: the shape of every per-lane
datapath instruction. -/

namespace Sys2Proof.Machine

set_option Elab.async false

@[simp] theorem memWf_postLanes (s : State) (q : Iss) (op : Nat → AluOp) (src : Nat → Trio) (ls : List Nat) (slots : List (Nat × Nat))
    (wait : Option Nat) : (s.postLanes q op src ls slots wait).memWf = s.memWf := by
  unfold State.postLanes
  simp

@[simp] theorem memWf_vectorBody {i : Instr} {h : Hints} {lat : Nat} {px : Bool} {op : Iss → Nat → AluOp} {d a : Opd} {b : SrcB} {c : Opd}
    {q : Iss} {s : State} (hs : s.memWf = true) : (vectorBody i h lat px op d a b c q s).memWf := by
  unfold vectorBody
  dsimp only
  repeat' split
  all_goals simp [hs]

@[simp] theorem memWf_vectorOp {i : Instr} {h : Hints} {lat : Nat} {px : Bool} {op : Iss → Nat → AluOp} {d a : Opd} {b : SrcB} {c : Opd}
    {s : State} (hs : s.memWf = true) : Result.memWf (vectorOp i h lat px op d a b c s) = true :=
  memWf_runInstr hs fun _ _ ht => memWf_vectorBody ht

@[simp] theorem memWf_compareBody {i : Instr} {h : Hints} {op : AluOp} {d a : Opd} {b : SrcB} {q : Iss} {s : State} (hs : s.memWf = true) :
    (compareBody i h op d a b q s).memWf := by
  unfold compareBody
  dsimp only
  repeat' split
  all_goals simp [hs]

end Sys2Proof.Machine
end

section
/-! PROOFS. Memory stays canonical under the operations of Machine/FloatI.lean, in their order there: the floating-point instructions. -/

namespace Sys2Proof.Machine

set_option Elab.async false

@[simp] theorem memWf_quantBody {d a : Opd} {q : Iss} {s : State} (h : s.memWf = true) : (quantBody d a q s).memWf := by
  unfold quantBody
  split <;> simp [h]

end Sys2Proof.Machine
end

section
/-! PROOFS. Memory stays canonical under the operations of Machine/Forest.lean, in their order there: the forest instructions at
issue. -/

namespace Sys2Proof.Machine

set_option Elab.async false

@[simp] theorem memWf_forestBody {i : Instr} {a : Opd} {args : List (Nat × Nat × Nat)} {q : Iss} {s : State} (h : s.memWf = true) :
    (forestBody i a args q s).memWf := by
  unfold forestBody
  dsimp only
  repeat' split
  all_goals simp [h]

@[simp] theorem memWf_forestOp {i : Instr} {h : Hints} {a : Opd} {s : State} (hs : s.memWf = true) :
    Result.memWf (forestOp i h a s) = true :=
  memWf_runInstr hs fun _ _ ht => memWf_forestBody ht

@[simp] theorem memWf_forestLanes {i : Instr} {a : Opd} {xs : List (Nat × Lane × Lane)} {q : Iss} {s : State} (h : s.memWf = true) :
    (forestLanes i a xs q s).memWf := by
  unfold forestLanes
  split <;> simp [h]

end Sys2Proof.Machine
end

section
/-! PROOFS. Memory stays canonical under the operations of Machine/ForestEvents.lean, in their order there: the equivalence engine at
its home. -/

namespace Sys2Proof.Machine

set_option Elab.async false

@[simp] theorem memWf_modForest (s : State) (id : Nat) (f : FOp → FOp) : (s.modForest id f).memWf = s.memWf := by
  unfold State.modForest
  simp

@[simp] theorem memWf_forestNote (s : State) (e : FEnv) (pa : Nat) (c : BitVec 7) : (s.forestNote e pa c).memWf = s.memWf := by
  unfold State.forestNote
  simp

@[simp] theorem memWf_findLane (s : State) (op : FOp) (reg lane : Nat) (v : Word) : (s.findLane op reg lane v).memWf = s.memWf := by
  unfold State.findLane
  split <;> simp

/-- A run of the forest engine keeps the canonical form, however it ends. -/
def FKeeps {α : Type} (m : FRun α) : Prop := ∀ s, s.memWf = true → (m.run s).2.memWf = true

theorem fkeeps_pure {α : Type} (a : α) : FKeeps (Pure.pure a : FRun α) := fun _ h => h

theorem fkeeps_throw {α : Type} (e : FFail) : FKeeps (MonadExcept.throw e : FRun α) := fun _ h => h

theorem fkeeps_set {t : State} (h : t.memWf = true) : FKeeps (MonadStateOf.set t : FRun PUnit) := fun _ _ => h

theorem fkeeps_modify {f : State → State} (hf : ∀ s, s.memWf = true → (f s).memWf = true) : FKeeps (modify f : FRun PUnit) :=
  fun s h => hf s h

theorem FKeeps.bind {α β : Type} {m : FRun α} {f : α → FRun β} (hm : FKeeps m) (hf : ∀ a, FKeeps (f a)) : FKeeps (m >>= f) := by
  intro s h
  have hs := hm s h
  change (ExceptT.bindCont f (m.run s).1 (m.run s).2).2.memWf = true
  generalize (m.run s).1 = x, (m.run s).2 = t at hs
  cases x with
  | ok a => exact hf a t hs
  | error e => exact hs

/-- What is read of the state at hand may be assumed to stand in canonical form. -/
theorem fkeeps_get {β : Type} {f : State → FRun β} (hf : ∀ s, s.memWf = true → FKeeps (f s)) : FKeeps (MonadState.get >>= f) :=
  fun s h => hf s h s h

/-- Where a run fails, its handler takes over at the state that the run has reached. -/
theorem run_tryCatch {α : Type} (m : FRun α) (f : FFail → FRun α) (s : State) : (MonadExcept.tryCatch m f).run s
    = match m.run s with | (.ok a, t) => (.ok a, t) | (.error e, t) => (f e).run t := by
  simp only [MonadExcept.tryCatch, tryCatchThe, MonadExceptOf.tryCatch, ExceptT.tryCatch, ExceptT.run, ExceptT.mk]
  change StateT.bind (m : StateT State Id (Except FFail α)) _ s = _
  unfold StateT.bind
  generalize m s = x
  obtain ⟨r, t⟩ := x
  cases r <;> rfl

theorem fkeeps_tryCatch {α : Type} {m : FRun α} {f : FFail → FRun α} (hm : FKeeps m) (hf : ∀ e, FKeeps (f e)) :
    FKeeps (MonadExcept.tryCatch m f) := by
  intro s h
  have hs := hm s h
  rw [run_tryCatch]
  generalize m.run s = x at *
  obtain ⟨r, t⟩ := x
  cases r with
  | ok a => exact hs
  | error e => exact hf e t hs

theorem fkeeps_forIn {α : Type} {l : List α} {f : α → PUnit → FRun (ForInStep PUnit)} (hf : ∀ a b, FKeeps (f a b)) :
    FKeeps (ForIn.forIn l PUnit.unit f) := by
  induction l with
  | nil => exact fkeeps_pure _
  | cons a l ih =>
    rw [List.forIn_cons]
    refine (hf a _).bind fun r => ?_
    cases r
    · exact fkeeps_pure _
    · exact ih

theorem fkeeps_ite {α : Type} {c : Prop} [Decidable c] {m n : FRun α} (hm : FKeeps m) (hn : FKeeps n) : FKeeps (if c then m else n) := by
  split <;> assumption

theorem fkeeps_fplace {e : FEnv} {va : DWord} {acc : Acc} : FKeeps (fplace e va acc) := by
  refine fkeeps_get fun s h => ?_
  split
  · exact fkeeps_throw _
  split
  · exact FKeeps.bind (fkeeps_set (by simpa using h)) fun _ => fkeeps_throw _
  · exact fkeeps_pure _

theorem fkeeps_frd {e : FEnv} {va : DWord} : FKeeps (frd e va) := by
  refine FKeeps.bind fkeeps_fplace fun _ => fkeeps_get fun s h => ?_
  split
  · split
    · exact fkeeps_pure _
    · exact fkeeps_throw _
  · exact FKeeps.bind (fkeeps_set (by simpa using h)) fun _ => fkeeps_pure _

theorem fkeeps_fwr {e : FEnv} {va : DWord} {x : Nat} : FKeeps (fwr e va x) := by
  refine FKeeps.bind fkeeps_fplace fun _ => fkeeps_get fun s h => ?_
  split
  · exact fkeeps_set (by simpa using h)
  · exact fkeeps_set (by simpa using memWf_physWrite _ _ _ h)

theorem fkeeps_fsave {ctx : FEnv} {d : FDesc} : FKeeps (fsave ctx d) := by
  unfold fsave
  exact fkeeps_fwr.bind fun _ => fkeeps_fwr.bind fun _ => fkeeps_fwr.bind fun _ => fkeeps_fwr.bind fun _ => fkeeps_fwr.bind fun _ =>
    fkeeps_frd.bind fun _ => fkeeps_fwr

theorem fkeeps_fpath {ctx : FEnv} {d : FDesc} {n x : Nat} {acc : List (Nat × Nat)} : FKeeps (fpath ctx d n x acc) := by
  induction n generalizing x acc with
  | zero => exact fkeeps_throw _
  | succ k ih => exact fkeeps_frd.bind fun w => fkeeps_ite (fkeeps_throw _) (fkeeps_ite (fkeeps_pure _) ih)

theorem fkeeps_fcompress {ctx : FEnv} {d : FDesc} {p : List (Nat × Nat)} : FKeeps (fcompress ctx d p) := by
  induction p with
  | nil => exact fkeeps_throw _
  | cons x p ih =>
    cases p with
    | nil => exact fkeeps_pure _
    | cons y p => exact fkeeps_ite (fkeeps_fwr.bind fun _ => ih) ih

theorem fkeeps_ffind {ctx : FEnv} {d : FDesc} {x : Nat} : FKeeps (ffind ctx d x) := fkeeps_fpath.bind fun _ => fkeeps_fcompress

theorem fkeeps_froot {ctx : FEnv} {d : FDesc} {x : Nat} : FKeeps (froot ctx d x) := fkeeps_fpath.bind fun _ => fkeeps_pure _

theorem fkeeps_flink {ctx : FEnv} {d : FDesc} {ra rb : Nat} : FKeeps (flink ctx d ra rb) := by
  unfold flink
  refine fkeeps_frd.bind fun sa => fkeeps_frd.bind fun sb => fkeeps_frd.bind fun ma => fkeeps_frd.bind fun mb => ?_
  extract_lets first w c snap e size d' sizes counted at_
  have hsizes : ∀ u, FKeeps (sizes u) := fun _ =>
    fkeeps_fwr.bind fun _ => fkeeps_fwr.bind fun _ => fkeeps_fwr.bind fun _ => fkeeps_fwr.bind fun _ => fkeeps_fwr.bind fun _ =>
      fkeeps_pure _
  have hcounted : ∀ u, FKeeps (counted u) := fun _ => fkeeps_ite (fkeeps_fwr.bind hsizes) (hsizes ())
  refine fkeeps_ite (fkeeps_frd.bind fun _ => ?_) (hcounted ())
  exact fkeeps_fwr.bind fun _ => fkeeps_fwr.bind fun _ => fkeeps_fwr.bind fun _ => fkeeps_fwr.bind hcounted

theorem fkeeps_funite {ctx : FEnv} {d : FDesc} {l : List (Nat × Nat × Nat)} : FKeeps (funite ctx d l) := by
  induction l generalizing d with
  | nil => exact fkeeps_pure _
  | cons x l ih =>
    refine fkeeps_ffind.bind fun ra => fkeeps_ffind.bind fun rb => ?_
    exact fkeeps_ite (fkeeps_flink.bind fun _ => ih) ih

theorem fkeeps_findWrite {op : FOp} {d : Opd} {lane v : Nat} : FKeeps (findWrite op d lane v) := by
  unfold findWrite
  split
  · exact fkeeps_modify fun s h => by simpa using h
  · exact fkeeps_pure _

theorem fkeeps_ffindAll {ctx : FEnv} {op : FOp} {f : FDesc} {label : Bool} {d : Opd} {l : List (Nat × Nat × Nat)} :
    FKeeps (ffindAll ctx op f label d l) := by
  induction l with
  | nil => exact fkeeps_pure _
  | cons x l ih =>
    refine FKeeps.bind (fkeeps_tryCatch ?_ fun e => ?_) fun v => fkeeps_findWrite.bind fun _ => ih
    · exact fkeeps_ffind.bind fun r => fkeeps_ite fkeeps_frd (fkeeps_pure _)
    · exact (fkeeps_forIn fun a b => fkeeps_findWrite.bind fun _ => fkeeps_pure _).bind fun _ => fkeeps_throw e

theorem fkeeps_flogRec {ctx : FEnv} {d : FDesc} {k : Nat} : FKeeps (flogRec ctx d k) := by
  unfold flogRec
  exact fkeeps_frd.bind fun _ => fkeeps_frd.bind fun _ => fkeeps_frd.bind fun _ => fkeeps_frd.bind fun _ => fkeeps_pure _

theorem fkeeps_fundo {ctx : FEnv} {d : FDesc} {n : Nat} : FKeeps (fundo ctx d n) := by
  induction n with
  | zero => exact fkeeps_fsave
  | succ k ih =>
    refine fkeeps_flogRec.bind fun r => fkeeps_frd.bind fun w => fkeeps_ite (fkeeps_throw _) ?_
    exact fkeeps_fwr.bind fun _ => fkeeps_fwr.bind fun _ => fkeeps_fwr.bind fun _ => ih

theorem fkeeps_fcommit {ctx : FEnv} {d : FDesc} {n : Nat} : FKeeps (fcommit ctx d n) := by
  induction n with
  | zero => exact fkeeps_fsave
  | succ k ih => exact fkeeps_flogRec.bind fun r => fkeeps_frd.bind fun w => fkeeps_fwr.bind fun _ => ih

theorem fkeeps_finitAll {ctx : FEnv} {d : FDesc} {n i : Nat} : FKeeps (finitAll ctx d n i) := by
  induction n generalizing i with
  | zero => exact fkeeps_fsave
  | succ k ih => exact fkeeps_fwr.bind fun _ => fkeeps_fwr.bind fun _ => fkeeps_fwr.bind fun _ => ih

theorem fkeeps_frelabel {ctx : FEnv} {d : FDesc} {op : Relab} {s32 : Bool} {inp : DWord} {l : List Nat} {t : Tab Word} :
    FKeeps (frelabel ctx d op s32 inp l t) := by
  induction l generalizing t with
  | nil => exact fkeeps_pure _
  | cons i l ih => exact fkeeps_froot.bind fun r => fkeeps_ite (fkeeps_frd.bind fun _ => ih) (fkeeps_frd.bind fun _ => ih)

theorem fkeeps_flabels {ctx : FEnv} {d : FDesc} {l : List Nat} : FKeeps (flabels ctx d l) := by
  induction l with
  | nil => exact fkeeps_pure _
  | cons r l ih => exact fkeeps_frd.bind fun _ => ih.bind fun _ => fkeeps_pure _

theorem fkeeps_fout {ctx : FEnv} {out : DWord} {l : List (Nat × Word)} : FKeeps (fout ctx out l) := by
  induction l with
  | nil => exact fkeeps_pure _
  | cons x l ih => exact fkeeps_fwr.bind fun _ => ih

theorem fkeeps_frelabelAll {ctx : FEnv} {d : FDesc} {compact s32 : Bool} {op : Relab} {inp out : DWord} {order : List Nat} :
    FKeeps (frelabelAll ctx d compact s32 op inp out order) :=
  fkeeps_frelabel.bind fun _ => fkeeps_ite (fkeeps_flabels.bind fun _ => fkeeps_fout) fkeeps_fout

theorem fkeeps_frun {ctx : FEnv} {op : FOp} {d : FDesc} {home : Nat} {order : List Nat} : FKeeps (frun ctx op d home order) := by
  unfold frun
  split
  · exact fkeeps_finitAll
  · exact fkeeps_funite
  · exact fkeeps_ffindAll
  · split
    · exact fkeeps_frelabelAll
    · exact fkeeps_pure _
  · exact fkeeps_fsave
  · exact fkeeps_fundo
  · exact fkeeps_fcommit
  · exact fkeeps_modify fun s h => by simpa using h
  · exact fkeeps_pure _

@[simp] theorem memWf_dropForest (s : State) (op : FOp) : (s.dropForest op).memWf = s.memWf := by
  unfold State.dropForest
  simp

@[simp] theorem memWf_refuse {s : State} {op : FOp} {cause origin : BitVec 7} (h : s.memWf = true) :
    (s.refuse op cause origin).memWf = true := by
  unfold State.refuse
  simp [h]

@[simp] theorem memWf_failForest {s : State} {ctx : Nat} {op : FOp} {c o : BitVec 7} (h : s.memWf = true) :
    (s.failForest ctx op c o).memWf = true := by
  unfold State.failForest
  extract_lets e mark s1
  have h1 : s1.memWf = true := (fkeeps_frd.bind fun _ => fkeeps_fwr : FKeeps mark) s h
  simp [h1]

/-- A fold over a state and a value that leaves the form leaves it. -/
theorem memWf_foldl_fst {α β : Type} (l : List β) (f : State × α → β → State × α) (x : State × α)
    (hf : ∀ x b, (f x b).1.memWf = x.1.memWf) : (l.foldl f x).1.memWf = x.1.memWf := by
  induction l generalizing x with
  | nil => rfl
  | cons b l ih => exact (ih (f x b)).trans (hf x b)

@[simp] theorem memWf_descRead (s : State) (e : FEnv) (va : DWord) : (s.descRead e va).memWf = s.memWf := by
  unfold State.descRead
  extract_lets s1
  have h1 : s1.memWf = s.memWf := by simp [s1]
  clear_value s1
  split
  · exact h1
  · extract_lets next
    split
    · exact h1
    · refine (memWf_foldl_fst _ next _ fun x k => ?_).trans h1
      simp only [next]
      repeat' split
      all_goals simp

@[simp] theorem memWf_askForest {s : State} {ctx : Nat} {x : FOp} {pa : Nat} (h : s.memWf = true) :
    (s.askForest ctx x pa).memWf = true := by
  unfold State.askForest
  simp [h]

@[simp] theorem memWf_flushForest {s : State} {ctx : Nat} {id : Nat} (h : s.memWf = true) : (s.flushForest ctx id).memWf = true := by
  unfold State.flushForest
  repeat' split
  all_goals simp [h]

@[simp] theorem memWf_execForestAccept {op : Nat} {order : List Nat} {s : State} (h : s.memWf = true) :
    Result.memWf (execForestAccept op order s) = true := by
  unfold execForestAccept
  rw [Result.memWf_next]
  split
  · exact h
  split
  · exact h
  · next x _ _ w _ =>
    extract_lets e s0 lim isInit done
    have h0 : s0.memWf = true := by simpa [s0] using h
    have hdone : ∀ t, t.memWf = true → (done t).memWf = true := fun t ht => by
      simp only [done]
      split <;> simp [ht]
    clear_value done
    split
    · simp [h]
    split
    · exact h
    split
    · simp [h]
    split
    · simp [h]
    · simp [h]
    · simp [h]
    · next home d _ =>
      split
      · simp [h0]
      split
      · exact h
      · have hrun : (((frun e x d home order).run s0).2).memWf = true := fkeeps_frun s0 h0
        split
        · simp [h]
        all_goals
          next hx =>
            have ht := (memWf_of_pair hx).trans hrun
            exact hdone _ (by simp [ht])

@[simp] theorem memWf_failForestRemote {s : State} {op sector : Nat} {cause : BitVec 7} (h : s.memWf = true) :
    (s.failForestRemote op sector cause).memWf = true := by
  unfold State.failForestRemote
  split <;> simp [h]

@[simp] theorem memWf_forestReply {s : State} {op sector : Nat} {isRead : Bool} {bs : List Byte} (h : s.memWf = true) :
    (s.forestReply op sector isRead bs).memWf = true := by
  unfold State.forestReply
  split <;> simp [h]

end Sys2Proof.Machine
end

section
/-! PROOFS. Memory stays canonical under the operations of Machine/Integer.lean, in their order there: the integer instructions. -/

namespace Sys2Proof.Machine

set_option Elab.async false

@[simp] theorem memWf_movBody {d : Opd} {b : SrcB} {q : Iss} {s : State} (h : s.memWf = true) : (movBody d b q s).memWf := by
  unfold movBody
  dsimp only
  repeat' split
  all_goals simp [h]

@[simp] theorem memWf_isetp2Body {cond : Cond} {uns : Bool} {d a : Opd} {b : SrcB} {q : Iss} {s : State} (h : s.memWf = true) :
    (isetp2Body cond uns d a b q s).memWf := by
  unfold isetp2Body
  dsimp only
  split <;> simp [h]

@[simp] theorem memWf_plopBody {lut : BitVec 8} {d a c b : Opd} {q : Iss} {s : State} (h : s.memWf = true) :
    (plopBody lut d a c b q s).memWf := by
  unfold plopBody
  simp [h]

@[simp] theorem memWf_leaBody {u : Bool} {scale : BitVec 2} {d a : Opd} {b : SrcB} {q : Iss} {s : State} (h : s.memWf = true) :
    (leaBody u scale d a b q s).memWf := by
  unfold leaBody
  dsimp only
  repeat' split
  all_goals simp [h]

end Sys2Proof.Machine
end

section
/-! PROOFS. Memory stays canonical under the operations of Machine/Matrix.lean, in their order there: the matrix instructions at
issue. -/

namespace Sys2Proof.Machine

set_option Elab.async false

@[simp] theorem memWf_sendMx (s : State) (q : Iss) (m : Mx) (i : Instr) (arg : Nat) (tile : Opd) (vals : Tab (List Byte)) :
    (s.sendMx q m i arg tile vals).memWf = s.memWf := by
  unfold State.sendMx
  simp

@[simp] theorem memWf_mloadbBody {i : Instr} {fmt : Fmt} {slot : Bool} {d : Opd} {b : SrcB} {q : Iss} {s : State} (h : s.memWf = true) :
    (mloadbBody i fmt slot d b q s).memWf := by
  unfold mloadbBody
  dsimp only
  split <;> simp [h]

@[simp] theorem memWf_mmaBody {i : Instr} {fmt : Fmt} {slot sc : Bool} {a : Opd} {b : SrcB} {q : Iss} {s : State} (h : s.memWf = true) :
    (mmaBody i fmt slot sc a b q s).memWf := by
  unfold mmaBody
  dsimp only
  repeat' split
  all_goals simp [h]

@[simp] theorem memWf_ownMx (s : State) (q : Iss) : (s.ownMx q).memWf = s.memWf := (rfl)

@[simp] theorem memWf_mchainBody {q : Iss} {s : State} (h : s.memWf = true) : (mchainBody q s).memWf := by
  unfold mchainBody
  split <;> simp [h]

@[simp] theorem memWf_mendBody {q : Iss} {s : State} (h : s.memWf = true) : (mendBody q s).memWf := by
  unfold mendBody
  split <;> simp [h]

@[simp] theorem memWf_mreadBody {i : Instr} {fmt : Fmt} {f32 : Bool} {d : Opd} {b : SrcB} {q : Iss} {s : State} (h : s.memWf = true) :
    (mreadBody i fmt f32 d b q s).memWf := by
  unfold mreadBody
  split <;> simp [h]

@[simp] theorem memWf_mwriteBody {i : Instr} {fmt : Fmt} {f32 : Bool} {a : Opd} {b : SrcB} {q : Iss} {s : State} (h : s.memWf = true) :
    (mwriteBody i fmt f32 a b q s).memWf := by
  unfold mwriteBody
  repeat' split
  all_goals simp [h]

@[simp] theorem memWf_mscaleBody {i : Instr} {slot side : Bool} {d : Opd} {b : SrcB} {q : Iss} {s : State} (h : s.memWf = true) :
    (mscaleBody i slot side d b q s).memWf := by
  unfold mscaleBody
  dsimp only
  repeat' split
  all_goals simp [h]

end Sys2Proof.Machine
end

section
/-! PROOFS. Memory stays canonical under the operations of Machine/MatrixEvents.lean, in their order there: the matrix engine at work. -/

namespace Sys2Proof.Machine

set_option Elab.async false

@[simp] theorem memWf_mmaStep (s : State) (c : MCmd) (fmt : Fmt) (slot sc : Bool) (bank tile row col g : Nat) :
    (s.mmaStep c fmt slot sc bank tile row col g).1.memWf = s.memWf := by
  unfold State.mmaStep
  simp

@[simp] theorem memWf_setAcc (s : State) (c : MCmd) (tile row col : Nat) (v : Word) : (s.setAcc c tile row col v).memWf = s.memWf := (rfl)

@[simp] theorem memWf_mxLane (s : State) (c : MCmd) (d : Opd) (lane : Nat) (v : Word) : (s.mxLane c d lane v).memWf = s.memWf := by
  unfold State.mxLane
  split <;> simp

@[simp] theorem memWf_mxLoad (s : State) (c : MCmd) (slot : Bool) (per : Nat) (scales : Bool) (k : Nat) :
    (s.mxLoad c slot per scales k).1.memWf = s.memWf := by
  unfold State.mxLoad
  simp

@[simp] theorem memWf_mxCell (s : State) (prev : List MCmd) (steps : List Nat) (c : MCmd) (cell : Nat) :
    (s.mxCell prev steps c cell).1.memWf = s.memWf := by
  unfold State.mxCell
  extract_lets row col j bank sbank
  split
  · rfl
  split
  · extract_lets tile gs
    split
    · rfl
    · refine memWf_foldl_fst _ _ _ fun x g => ?_
      split
      · rfl
      · exact memWf_mmaStep ..
  · split <;> simp
  · split
    · rfl
    · exact memWf_setAcc ..
  · split <;> simp
  · split <;> simp
  · exact memWf_mxLane ..
  · extract_lets
    split
    · rfl
    · exact memWf_mxLane ..
  · split
    · rfl
    · exact memWf_mxLoad ..
  · split
    · split
      · rfl
      · exact memWf_modCore ..
    · split
      · rfl
      · exact memWf_mxLoad ..
  · rfl

@[simp] theorem memWf_mxImage {s : State} {c : MCmd} {w : Nat} (h : s.memWf = true) : (s.mxImage c w).memWf = true :=
  memWf_foldl _ _ (fun _ _ h => memWf_foldl _ _ (fun _ _ h => by simp [memWf_spStore h]) h) h

@[simp] theorem memWf_endMx (s : State) (c : MCmd) : (s.endMx c).memWf = s.memWf := by
  unfold State.endMx
  simp

@[simp] theorem memWf_stepOprdy (s : State) (prev : List MCmd) (c : MCmd) : (s.stepOprdy prev c).memWf = s.memWf := by
  unfold State.stepOprdy
  simp

theorem memWf_ite_of {c : Prop} [Decidable c] {s t : State} (hs : s.memWf = true) (ht : t.memWf = true) :
    (if c then s else t).memWf = true := by
  split <;> assumption

@[simp] theorem memWf_execMatrixCommandExecute {cmd : Nat} {sel : MxSel} {s : State} (h : s.memWf = true) :
    Result.memWf (execMatrixCommandExecute cmd sel s) = true := by
  unfold execMatrixCommandExecute
  rw [Result.memWf_next]
  split
  · exact h
  · next c _ =>
    extract_lets prev all cells
    split
    · simpa using h
    · refine memWf_ite_of h ?_
      generalize hx : cells.foldl _ _ = x
      have hx : x.1.memWf = true := hx ▸ (memWf_foldl_fst _ _ _ fun x k => memWf_mxCell ..).trans h
      split
      next t d _ =>
        extract_lets n ctx u keep
        have hu : u.memWf = true := by
          simp only [u]
          repeat' split
          all_goals simpa using hx
        clear_value u
        have hk : keep.memWf = true := hu
        repeat' split
        all_goals simp [hu, hk]

end Sys2Proof.Machine
end

section
/-! PROOFS. Memory stays canonical under the operations of Machine/Integrity.lean, in their order there: what follows a sector that
fails its check. -/

namespace Sys2Proof.Machine

set_option Elab.async false

@[simp] theorem memWf_failPieces {s : State} {wid req sector : Nat} {c : IntegCheck} (h : s.memWf = true) :
    (s.failPieces wid req sector c).memWf = true := by
  unfold State.failPieces
  dsimp only
  repeat' split
  all_goals simp [h]

@[simp] theorem memWf_failStore {s : State} {wid entry : Nat} {c : IntegCheck} (h : s.memWf = true) :
    (s.failStore wid entry c).memWf = true := by
  unfold State.failStore
  repeat' split
  all_goals simp [h]

@[simp] theorem memWf_failPost {s : State} {item : Nat} {c : IntegCheck} (h : s.memWf = true) : (s.failPost item c).memWf = true := by
  unfold State.failPost
  repeat' split
  all_goals simp [h]

@[simp] theorem memWf_failAccess {s : State} {target : IntegTarget} {check : IntegCheck} (h : s.memWf = true) :
    (s.failAccess target check).memWf = true := by
  unfold State.failAccess
  repeat' split
  all_goals simp [h]

@[simp] theorem memWf_execIntegrityReread {target : IntegTarget} {check : IntegCheck} {again : Bool} {s : State} (h : s.memWf = true) :
    Result.memWf (execIntegrityReread target check again s) = true := by
  unfold execIntegrityReread
  split <;> simp [h]

@[simp] theorem memWf_testEvent (s : State) (site : TestSite) (cause : BitVec 7) (lasting : Bool) (err : TestError) :
    (s.testEvent site cause lasting err).memWf = s.memWf := by
  unfold State.testEvent
  simp

@[simp] theorem memWf_dataError {s : State} {wid id : Nat} (h : s.memWf = true) : (s.dataError wid id).memWf = true := by
  unfold State.dataError
  repeat' split
  all_goals simp [h]

@[simp] theorem memWf_slotError (s : State) (home idx : Nat) : (s.slotError home idx).memWf = s.memWf := by
  unfold State.slotError
  simp

@[simp] theorem memWf_storageError {s : State} {site : TestSite} {err : TestError} (h : s.memWf = true) :
    (s.storageError site err).memWf = true := by
  unfold State.storageError
  repeat' split
  all_goals simp [h]

@[simp] theorem memWf_leaveCore {s : State} {core : Nat} (h : s.memWf = true) : (s.leaveCore core).memWf = true := by
  refine memWf_foldl _ _ (fun s e h => ?_) h
  split
  · exact h
  · extract_lets here
    split
    · exact memWf_foldl _ _ (fun _ _ h => memWf_stopTeam h) h
    · repeat' split
      all_goals simp [h]

@[simp] theorem memWf_retireCore {s : State} {core : Nat} (h : s.memWf = true) : (s.retireCore core).memWf = true := by
  unfold State.retireCore
  extract_lets ctxs s1
  have h1 : s1.memWf = true := memWf_foldl _ _ (fun _ _ h => memWf_report h) h
  exact memWf_leaveCore (by simpa using h1)

@[simp] theorem memWf_retireFrame {s : State} {addr : Nat} (h : s.memWf = true) : (s.retireFrame addr).memWf = true := by
  unfold State.retireFrame
  dsimp only
  repeat' split
  all_goals simp [h]

@[simp] theorem memWf_leaveFrame {s : State} {f : Nat} (h : s.memWf = true) : (s.leaveFrame f).memWf = true := by
  unfold State.leaveFrame
  split
  · exact h
  split
  · exact h
  · split
    all_goals
      next hx =>
        have h1 := (memWf_of_pair hx).trans (memWf_takeFrame ..)
        simp [h1, h]

@[simp] theorem memWf_leaveRetired {s : State} (h : s.memWf = true) : s.leaveRetired.memWf = true :=
  memWf_foldl _ _ (fun _ _ h => memWf_leaveFrame h) h

@[simp] theorem memWf_reportOwed {s : State} (h : s.memWf = true) : s.reportOwed.memWf = true := by
  unfold State.reportOwed
  exact memWf_foldl _ _ (fun _ _ h => memWf_report h) h

@[simp] theorem memWf_lastingError {s : State} {site : TestSite} {err : TestError} (h : s.memWf = true) :
    (s.lastingError site err).memWf = true := by
  unfold State.lastingError
  split <;> simp [h]

@[simp] theorem memWf_classify {s : State} {site : TestSite} {err : TestError} {fails : Bool} (h : s.memWf = true) :
    (s.classify site err fails).memWf = true := by
  unfold State.classify
  simp [h]

@[simp] theorem memWf_execSelfTestComplete {site : TestSite} {err : TestError} {fails : Bool} {s : State} (h : s.memWf = true) :
    Result.memWf (execSelfTestComplete site err fails s) = true := by
  unfold execSelfTestComplete
  repeat' split
  all_goals simp [h]

@[simp] theorem memWf_execHomeUnitFailure (home : Nat) (s : State) : Result.memWf (execHomeUnitFailure home s) = s.memWf := by
  unfold execHomeUnitFailure
  simp

end Sys2Proof.Machine
end

section
/-! PROOFS. Memory stays canonical under the operations of Machine/Fetch.lean, in their order there: fetching and decoding a split's
next instruction. -/

namespace Sys2Proof.Machine

set_option Elab.async false

@[simp] theorem memWf_wordRead (s : State) (core ctx : Nat) (a : DWord) (first : Bool) : (s.wordRead core ctx a first).memWf = s.memWf := by
  unfold State.wordRead
  repeat' split
  all_goals simp

@[simp] theorem memWf_fetching (s : State) (core : Nat) (w : Wave) (split : Nat) : (s.fetching core w split).memWf = s.memWf := by
  unfold State.fetching
  extract_lets pc next
  split
  · rfl
  · refine memWf_foldl_fst _ next _ fun x k => ?_
    simp only [next]
    split <;> simp

/-- What comes to issue finds the form kept, and so does what issues nothing. -/
theorem memWf_toIssue {s : State} {wid split : Nat} (h : s.memWf = true) :
    (∀ {i t}, s.toIssue wid split = .ok (i, t) → t.memWf = true) ∧ ∀ {t}, s.toIssue wid split = .error t → t.memWf = true := by
  unfold State.toIssue
  split
  · exact ⟨nofun, fun ht => Except.error.inj ht ▸ h⟩
  split
  · exact ⟨nofun, fun ht => Except.error.inj ht ▸ memWf_takeHeld h⟩
  · next w _ _ =>
    extract_lets sp t
    have h1 : t.memWf = true := by simpa [t] using h
    clear_value t
    split
    · refine ⟨fun ht => ?_, nofun⟩
      obtain ⟨-, rfl⟩ := Prod.mk.inj (Except.ok.inj ht)
      simpa using h1
    · exact ⟨nofun, fun ht => Except.error.inj ht ▸ h⟩
    · exact ⟨nofun, fun ht => Except.error.inj ht ▸ h⟩
    · exact ⟨nofun, fun ht => Except.error.inj ht ▸ memWf_parkAt h1⟩
    · split
      · next hd =>
        refine ⟨nofun, fun ht => Except.error.inj ht ▸ ?_⟩
        rw [memWf_deferTrap hd, h]
      · exact ⟨nofun, fun ht => Except.error.inj ht ▸ memWf_takeTrap h1⟩

@[simp] theorem memWf_askCode (s : State) (wid split : Nat) : (s.askCode wid split).memWf = s.memWf := by
  unfold State.askCode
  repeat' split
  all_goals simp

end Sys2Proof.Machine
end

section
/-! PROOFS. Memory stays canonical under the operations of Machine/IssueClock.lean, in their order there: the partition's clock. -/

namespace Sys2Proof.Machine

set_option Elab.async false

@[simp] theorem memWf_fuseWave {s : State} {wid : Nat} (h : s.memWf = true) : (s.fuseWave wid).memWf = true := by
  refine memWf_foldl _ _ (fun s e h => ?_) h
  dsimp only
  repeat' split
  all_goals simp [h]

@[simp] theorem memWf_claimEngine (s : State) (wid split : Nat) : (s.claimEngine wid split).memWf = s.memWf := by
  unfold State.claimEngine
  dsimp only
  repeat' split
  all_goals simp

@[simp] theorem memWf_startWave {s : State} {wid : Nat} (h : s.memWf = true) : (s.startWave wid).memWf = true :=
  memWf_foldl _ _ (fun _ _ h => by simpa using h) (memWf_fuseWave (memWf_takeHeld h))

@[simp] theorem memWf_startClock {s : State} {core part : Nat} (h : s.memWf = true) : (s.startClock core part).memWf = true :=
  memWf_foldl _ _ (fun _ _ h => memWf_startWave h) h

theorem memWf_chooseSlot {s : State} {core part : Nat} {before : List Nat} {cs : List Cand} {c : Cand} {t : State}
    (ht : s.chooseSlot core part before cs = some (c, t)) : t.memWf = s.memWf := by
  unfold State.chooseSlot at ht
  extract_lets k elig take at ht
  have htake : ∀ {pos k c t}, take pos k = some (c, t) → t.memWf = s.memWf := fun h => by
    simp only [take, Option.map_eq_some_iff, Prod.mk.injEq] at h
    obtain ⟨_, _, _, rfl⟩ := h
    simp
  clear_value take
  split at ht
  · exact htake ht
  split at ht
  · cases ht
  · exact htake ht

@[simp] theorem memWf_chooseSlots (s : State) (core part : Nat) : (s.chooseSlots core part).2.memWf = s.memWf := by
  unfold State.chooseSlots
  extract_lets cs
  split
  · rfl
  · next h0 =>
    have h0 := memWf_chooseSlot h0
    extract_lets beside
    split
    · exact h0
    · next h1 =>
      split at h1
      · cases h1
      · exact (memWf_chooseSlot h1).trans h0

@[simp] theorem memWf_execPartitionIssueClock {core part : Nat} {s : State} (h : s.memWf = true) :
    Result.memWf (execPartitionIssueClock core part s) = true := by
  unfold execPartitionIssueClock
  simp [h]

@[simp] theorem memWf_execReconvergenceFill {wid split : Nat} {s : State} (h : s.memWf = true) :
    Result.memWf (execReconvergenceFill wid split s) = true := by
  unfold execReconvergenceFill
  split <;> simp [h]

@[simp] theorem memWf_execResultWriteback (wid wb : Nat) (s : State) : Result.memWf (execResultWriteback wid wb s) = s.memWf := by
  unfold execResultWriteback
  repeat' split
  all_goals simp

end Sys2Proof.Machine
end

section
/-! PROOFS. Memory stays canonical under the operations of Machine/LaneNet.lean, in their order there: the lane network. -/

namespace Sys2Proof.Machine

set_option Elab.async false

@[simp] theorem memWf_psetBody {raw : Bool} {d a : Opd} {q : Iss} {s : State} (h : s.memWf = true) : (psetBody raw d a q s).memWf := by
  unfold psetBody
  dsimp only
  repeat' split
  all_goals simp [h]

@[simp] theorem memWf_routeLanes {d a : Opd} {from_ : Nat → Nat} {q : Iss} {s : State} (h : s.memWf = true) :
    (routeLanes d a from_ q s).memWf := by
  unfold routeLanes
  dsimp only
  repeat' split
  all_goals simp [h]

@[simp] theorem memWf_permBody {d a b : Opd} {q : Iss} {s : State} (h : s.memWf = true) : (permBody d a b q s).memWf := by
  unfold permBody
  simp [h]

end Sys2Proof.Machine
end

section
/-! PROOFS. Memory stays canonical under the operations of Machine/Link.lean, in their order there: the ports. -/

namespace Sys2Proof.Machine

set_option Elab.async false

@[simp] theorem memWf_modPort (s : State) (p : Nat) (f : Port → Port) : (s.modPort p f).memWf = s.memWf := (rfl)

@[simp] theorem memWf_sendPiece {s : State} {wid : Nat} {w : Wave} {r : Req} {k : Nat} {p : Piece} (h : s.memWf = true) :
    (s.sendPiece wid w r k p).memWf = true := by
  unfold State.sendPiece
  repeat' split
  all_goals simp [h]

@[simp] theorem memWf_sendPeers {s : State} {wid : Nat} (h : s.memWf = true) : (s.sendPeers wid).memWf = true := by
  unfold State.sendPeers
  split
  · exact h
  · refine memWf_foldl _ _ (fun s r h => memWf_foldl _ _ (fun s k h => ?_) h) h
    split
    · exact h
    · exact memWf_sendPiece h

@[simp] theorem memWf_pieceDone {s : State} {wid : Nat} {r : Req} {k : Nat} (h : s.memWf = true) : (s.pieceDone wid r k).memWf = true := by
  unfold State.pieceDone
  split <;> simp [h]

@[simp] theorem memWf_dropRemote (s : State) (wid seq : Nat) (cause : BitVec 7) : (s.dropRemote wid seq cause).memWf = s.memWf := by
  unfold State.dropRemote
  simp

@[simp] theorem memWf_raiseTag (s : State) (wid : Nat) : (s.raiseTag wid).memWf = s.memWf := by
  unfold State.raiseTag
  simp

@[simp] theorem memWf_failPiece {s : State} {wid : Nat} {r : Req} {p : Piece} {cause : BitVec 7} (h : s.memWf = true) :
    (s.failPiece wid r p cause).memWf = true := by
  unfold State.failPiece
  simp [h]

@[simp] theorem memWf_failRemote {s : State} {x : Remote} {cause : BitVec 7} (h : s.memWf = true) :
    (s.failRemote x cause).memWf = true := by
  unfold State.failRemote
  repeat' split
  all_goals simp [h]

@[simp] theorem memWf_remoteData {s : State} {x : Remote} {bs : List Byte} (h : s.memWf = true) : (s.remoteData x bs).memWf = true := by
  unfold State.remoteData
  repeat' split
  all_goals simp [h]

@[simp] theorem memWf_takeRemote (s : State) (id : Nat) : (s.takeRemote id).memWf = s.memWf := (rfl)

@[simp] theorem memWf_execRemoteReply {req : Nat} {rp : Reply} {s : State} (h : s.memWf = true) :
    Result.memWf (execRemoteReply req rp s) = true := by
  unfold execRemoteReply
  repeat' split
  all_goals simp [h]

@[simp] theorem memWf_execRemoteTimeout {req : Nat} {s : State} (h : s.memWf = true) : Result.memWf (execRemoteTimeout req s) = true := by
  unfold execRemoteTimeout
  split <;> simp [h]

@[simp] theorem memWf_endPort {s : State} {p : Nat} (h : s.memWf = true) : (s.endPort p).memWf = true :=
  memWf_foldl _ _ (fun _ _ h => memWf_failRemote (by simpa using h)) h

@[simp] theorem memWf_execPortEnable (port : Nat) (s : State) : Result.memWf (execPortEnable port s) = s.memWf := by
  unfold execPortEnable
  simp

@[simp] theorem memWf_execPortDisable {port : Nat} {s : State} (h : s.memWf = true) : Result.memWf (execPortDisable port s) = true := by
  unfold execPortDisable
  simp [h]

@[simp] theorem memWf_portEvent (s : State) (port : Nat) : (s.portEvent port).memWf = s.memWf := (rfl)

@[simp] theorem memWf_execPortTrainingComplete (port capacity : Nat) (s : State) :
    Result.memWf (execPortTrainingComplete port capacity s) = s.memWf := by
  unfold execPortTrainingComplete
  simp

@[simp] theorem memWf_execPortTrainingFail (port : Nat) (s : State) : Result.memWf (execPortTrainingFail port s) = s.memWf := by
  unfold execPortTrainingFail
  simp

@[simp] theorem memWf_retrain {s : State} {port : Nat} (h : s.memWf = true) : (s.retrain port).memWf = true := by
  unfold State.retrain
  simp [h]

@[simp] theorem memWf_execPortLinkLost {port : Nat} {s : State} (h : s.memWf = true) : Result.memWf (execPortLinkLost port s) = true := by
  unfold execPortLinkLost
  simp [h]

@[simp] theorem memWf_execFlitReceive {port : Nat} {good : Bool} {s : State} (h : s.memWf = true) :
    Result.memWf (execFlitReceive port good s) = true := by
  unfold execFlitReceive
  simp [h]

/-- What an access that has been mapped has answered. -/
theorem exists_of_map_eq_ok {ε α β : Type} {f : α → β} {x : Except ε α} {b : β} (h : x.map f = .ok b) : ∃ a, x = .ok a ∧ f a = b := by
  cases x with
  | error e => cases h
  | ok a => exact ⟨a, rfl, Except.ok.inj h⟩

theorem memWf_inPerform {s t : State} {ctx : Nat} {va : DWord} {rq : MemReq} {bs : List Byte}
    (ht : s.inPerform ctx va rq = .ok (bs, t)) (h : s.memWf = true) : t.memWf = true := by
  unfold State.inPerform at ht
  extract_lets n acc s1 at ht
  have h1 : s1.memWf = true := by simpa [s1] using h
  clear_value s1
  split at ht
  · cases ht
  split at ht
  · obtain ⟨_, _, he⟩ := exists_of_map_eq_ok ht
    exact (Prod.mk.inj he).2 ▸ h1
  · obtain ⟨_, hw, he⟩ := exists_of_map_eq_ok ht
    exact (Prod.mk.inj he).2 ▸ memWf_virtWrite hw h1
  · split at ht
    · cases ht
    · obtain ⟨_, hw, he⟩ := exists_of_map_eq_ok ht
      exact (Prod.mk.inj he).2 ▸ memWf_virtWrite hw h1

@[simp] theorem memWf_inbound {s : State} {cause : BitVec 7} {unit j : Nat} {src : Option (BitVec 22)} {off : Nat} {rq : MemReq}
    (h : s.memWf = true) : (s.inbound cause unit j src off rq).2.memWf = true := by
  unfold State.inbound
  extract_lets e va
  split
  · next hx =>
    split at hx
    · exact memWf_inPerform hx h
    · cases hx
  · extract_lets s1
    have h1 : s1.memWf = true := by
      simp only [s1]
      split <;> simp [h]
    dsimp only
    split <;> simp [h1]

@[simp] theorem memWf_execInboundRequest {port : Nat} {rq : InReq} {s : State} (h : s.memWf = true) :
    Result.memWf (execInboundRequest port rq s) = true := by
  unfold execInboundRequest
  split
  · exact h
  · split
    all_goals
      next hx => simpa using (memWf_of_pair hx).trans (memWf_inbound h)

@[simp] theorem memWf_execHostMemAccess {addr : Nat} {rq : MemReq} {s : State} (h : s.memWf = true) :
    Result.memWf (execHostMemAccess addr rq s) = true := by
  unfold execHostMemAccess
  split
  · exact h
  · split
    all_goals
      next hx => simpa using (memWf_of_pair hx).trans (memWf_inbound h)

end Sys2Proof.Machine
end

section
/-! PROOFS. Memory stays canonical under the operations of Machine/MemCtl.lean, in their order there: the memory controllers' own
steps. -/

namespace Sys2Proof.Machine

set_option Elab.async false

@[simp] theorem memWf_repay (s : State) (chan bank : Nat) : (s.repay chan bank).memWf = s.memWf := by
  unfold State.repay
  simp

@[simp] theorem memWf_execRowIdleClose (channel bank : Nat) (s : State) : Result.memWf (execRowIdleClose channel bank s) = s.memWf := by
  unfold execRowIdleClose
  simp

@[simp] theorem memWf_mapBanks (s : State) (channel : Nat) (f : Bank → Bank) : (s.mapBanks channel f).memWf = s.memWf := by
  unfold State.mapBanks
  simp

@[simp] theorem memWf_execRefreshDue (channel : Nat) (s : State) : Result.memWf (execRefreshDue channel s) = s.memWf := by
  unfold execRefreshDue
  simp

@[simp] theorem memWf_execAllBankRefreshEnd (channel : Nat) (s : State) : Result.memWf (execAllBankRefreshEnd channel s) = s.memWf := by
  unfold execAllBankRefreshEnd
  simp

@[simp] theorem memWf_execPerBankRefreshComplete (channel bank : Nat) (s : State) :
    Result.memWf (execPerBankRefreshComplete channel bank s) = s.memWf := by
  unfold execPerBankRefreshComplete
  dsimp only
  split <;> simp

@[simp] theorem memWf_execThermalThresholdCrossing (stack temp : Nat) (s : State) :
    Result.memWf (execThermalThresholdCrossing stack temp s) = s.memWf := by
  unfold execThermalThresholdCrossing
  extract_lets before after ups downs mc s1 s2
  have h2 : s2.memWf = s1.memWf := memWf_foldl_eq _ _ _ fun _ _ => rfl
  have h1 : s1.memWf = s.memWf := rfl
  rw [h1] at h2
  clear_value s2
  repeat' split
  all_goals simp [h2]

end Sys2Proof.Machine
end

section
/-! PROOFS. Memory stays canonical under the operations of Machine/Power.lean, in their order there: power and current control. -/

namespace Sys2Proof.Machine

set_option Elab.async false

@[simp] theorem memWf_execPowerWindowEnd (cluster watts : Nat) (s : State) :
    Result.memWf (execPowerWindowEnd cluster watts s) = s.memWf := by
  unfold execPowerWindowEnd
  simp

@[simp] theorem memWf_execIslandVoltageStable (cluster island : Nat) (s : State) :
    Result.memWf (execIslandVoltageStable cluster island s) = s.memWf := by
  unfold execIslandVoltageStable
  simp

@[simp] theorem memWf_execIslctlWrite (cluster island : Nat) (value : BitVec 32) (s : State) :
    Result.memWf (execIslctlWrite cluster island value s) = s.memWf := by
  unfold execIslctlWrite
  simp

@[simp] theorem memWf_execDroopDetect (cluster : Nat) (s : State) : Result.memWf (execDroopDetect cluster s) = s.memWf := by
  unfold execDroopDetect
  simp

@[simp] theorem memWf_execDroopStretchEnd (cluster : Nat) (s : State) : Result.memWf (execDroopStretchEnd cluster s) = s.memWf := by
  unfold execDroopStretchEnd
  simp

@[simp] theorem memWf_execDroopHalvingEnd (cluster : Nat) (s : State) : Result.memWf (execDroopHalvingEnd cluster s) = s.memWf := by
  unfold execDroopHalvingEnd
  simp

@[simp] theorem memWf_requestGate (s : State) (k : Nat) : (s.requestGate k).memWf = s.memWf := by
  unfold State.requestGate
  simp

@[simp] theorem memWf_execClusterGateRequest (cluster : Nat) (s : State) : Result.memWf (execClusterGateRequest cluster s) = s.memWf := by
  unfold execClusterGateRequest
  simp

@[simp] theorem memWf_execClusterAutoGate (cluster : Nat) (s : State) : Result.memWf (execClusterAutoGate cluster s) = s.memWf := by
  unfold execClusterAutoGate
  simp

@[simp] theorem memWf_execClusterGated (cluster : Nat) (s : State) : Result.memWf (execClusterGated cluster s) = s.memWf := by
  unfold execClusterGated
  simp

@[simp] theorem memWf_execClusterWakeRequest (cluster : Nat) (s : State) : Result.memWf (execClusterWakeRequest cluster s) = s.memWf := by
  unfold execClusterWakeRequest
  simp

@[simp] theorem memWf_execClusterWakeComplete {cluster : Nat} {s : State} (h : s.memWf = true) :
    Result.memWf (execClusterWakeComplete cluster s) = true := by
  unfold execClusterWakeComplete
  extract_lets k s1 s2 t
  have h1 : s1.memWf = true := memWf_foldl _ _ (fun _ _ h => memWf_spZero _ _ _ _ h) h
  have h2 : s2.memWf = true := by simpa [s2] using memWf_spZero _ _ _ _ h1
  have ht : t.memWf = true := memWf_foldl _ _ (fun _ _ h => memWf_takePlacement h) h2
  split
  · exact h
  · exact ht

end Sys2Proof.Machine
end

section
/-! PROOFS. Memory stays canonical under the operations of Machine/Regs.lean, in their order there: the register spaces. -/

namespace Sys2Proof.Machine

set_option Elab.async false

@[simp] theorem memWf_orElse {r : Result} {s : State} (hr : Result.memWf r = true) (h : s.memWf = true) : (r.orElse s).memWf = true := by
  cases r with
  | next t => exact hr
  | _ => exact h

@[simp] theorem memWf_vdCommand {s : State} {n code : Nat} (h : s.memWf = true) : Result.memWf (s.vdCommand n code) = true := by
  unfold State.vdCommand
  split <;> simp [h]

@[simp] theorem memWf_gloadWrite (s : State) (n width : Nat) (v : DWord) : Result.memWf (s.gloadWrite n width v) = s.memWf := by
  unfold State.gloadWrite
  repeat' split
  all_goals simp

@[simp] theorem memWf_cluWrite (s : State) (c : Nat) (v : BitVec 128) : (s.cluWrite c v).memWf = s.memWf := by
  unfold State.cluWrite
  extract_lets s1 s2
  have h2 : s2.memWf = s.memWf := by
    simp only [s2]
    split <;> simp [s1]
  clear_value s2
  split
  · unfold execClusterWakeRequest Result.orElse
    dsimp only
    split <;> simp [h2]
  · exact h2

@[simp] theorem memWf_writeReg {s : State} {r : Reg} {v : BitVec 128} (h : s.memWf = true) : (s.writeReg r v).memWf = true := by
  unfold State.writeReg
  split <;> simp [h]

@[simp] theorem memWf_execRegisterWrite {offset : BarOffset} {width : Nat} {value : BitVec 128} {s : State} (h : s.memWf = true) :
    Result.memWf (execRegisterWrite offset width value s) = true := by
  unfold execRegisterWrite
  split <;> simp [h]

end Sys2Proof.Machine
end

section
/-! PROOFS. Memory stays canonical under the operations of Machine/Reset.lean, in their order there: cold and warm reset. -/

namespace Sys2Proof.Machine

set_option Elab.async false

@[simp] theorem memWf_execColdReset (s : State) : Result.memWf (execColdReset s) = true := reset_memWf

@[simp] theorem memWf_execWarmReset (s : State) : Result.memWf (execWarmReset s) = true := reset_memWf

end Sys2Proof.Machine
end

section
/-! PROOFS. Memory stays canonical under the operations of Machine/Scalar.lean, in their order there: the uniform scalar instructions. -/

namespace Sys2Proof.Machine

set_option Elab.async false

@[simp] theorem memWf_scalarOp {i : Instr} {h : Hints} {op : AluOp} {d a : Opd} {b : SrcB} {s : State} (hs : s.memWf = true) :
    Result.memWf (scalarOp i h op d a b s) = true :=
  memWf_runInstr hs fun q t ht => by simpa using ht

@[simp] theorem memWf_smovBody {w64 : Bool} {d : Opd} {b : SrcB} {q : Iss} {s : State} (h : s.memWf = true) :
    (smovBody w64 d b q s).memWf := by
  unfold smovBody
  simp [h]

@[simp] theorem memWf_vreadBody {d a : Opd} {b : SrcB} {q : Iss} {s : State} (h : s.memWf = true) : (vreadBody d a b q s).memWf := by
  unfold vreadBody
  dsimp only
  split <;> simp [h]

@[simp] theorem memWf_vwriteBody {all : Bool} {d a : Opd} {b : SrcB} {q : Iss} {s : State} (h : s.memWf = true) :
    (vwriteBody all d a b q s).memWf := by
  unfold vwriteBody
  repeat' split
  all_goals simp [h]

end Sys2Proof.Machine
end

section
/-! PROOFS. Memory stays canonical under the operations of Machine/Dispatch.lean, in their order there: one arm per instruction or
event. -/

namespace Sys2Proof.Machine

set_option Elab.async false

/-- Every instruction keeps the canonical form: those at issue by what their bodies do, the events by what they come to. -/
@[simp] theorem memWf_exec {i : Instr} {s : State} (h : s.memWf = true) : Result.memWf (exec i s) = true := by
  cases i with
  | iadd | isub | imul | imulh | imad | idiv | irem | imin | imax | iabs | and | or | xor | shl | shr | sar | rotl | bfe | bfi
  | popc | clz | brev | sel | iadd2 | isub2 | imin2 | imax2 | fadd | fsub | fmul | ffma | fmin | fmax | frcp | frsq | fsqrt | fexp2
  | flog2 | fsin | fcos | hadd2 | hmul2 | hfma2 | f2i | i2f | cvt | fclass =>
    exact memWf_vectorOp h
  | sadd | ssub | smul | sand | sor | sxor | sshl | sshr | scmp | smin | smax =>
    exact memWf_scalarOp h
  | finit | fsnap | fundo | fcommit | fstat =>
    dsimp only [exec]
    exact memWf_forestOp h
  | nop | bra | brx | call | join | exit | trap | rett | region | regend | yield | elect | vote | wait | waitc | isetp | mov
  | isetp2 | plop | lea | fsetp | quant | smov | sld | sst | vread | vwrite | pset | perm | bcast | ld | st | lds | sts | atom
  | atoms | frame | pub | acq | fence | ldx | mat | pxrel | ispx | copy | tdef | tmov | tstat | tfree | txinit | txexpect
  | txarrive | txwait | txtest | cbar | mloadb | mma | mchain | mend | oprdy | mzero | mread | mwrite | mscale | mrowred | unite
  | find | relabel | gets | sets | time | clock | qput | hint | wopen | wclose | tlbinv | bkpt =>
    dsimp only [exec]
    exact memWf_runInstr h fun q t ht => by simp [ht]
  | ret =>
    dsimp only [exec]
    refine memWf_runInstr h fun q t ht => ?_
    split <;> simp [ht]
  | _ =>
    dsimp only [exec]
    simp [h]

end Sys2Proof.Machine
end

section
/-! PROOFS. Memory stays canonical under the operations of Machine/Sched.lean, in their order there: one clock of the device. -/

namespace Sys2Proof.Machine

set_option Elab.async false

@[simp] theorem memWf_goOn {s : State} (h : s.memWf = true) : s.goOn.memWf = true := by
  unfold State.goOn
  extract_lets s1 cores s2
  have h1 : s1.memWf = true := by
    refine memWf_foldl _ _ (fun s wid h => ?_) h
    split
    · exact h
    · extract_lets u2 u3
      have hu2 : u2.memWf = true := by
        refine memWf_foldl _ _ (fun s r h => ?_) h
        repeat' split
        all_goals simp [h]
      have hu3 : u3.memWf = true := memWf_ite_of (memWf_foldl _ _ (fun _ _ h => by simp [h]) hu2) hu2
      exact (memWf_freezeWave ..).trans (memWf_deliverRemote (memWf_sendPeers hu3))
  have h2 : s2.memWf = true := memWf_foldl _ _ (fun _ _ h => by simp [h]) h1
  exact memWf_leaveRetired (memWf_reportOwed (memWf_retryRekeys h2))

@[simp] theorem memWf_tick {s : State} (h : s.memWf = true) : s.tick.memWf = true := by
  unfold State.tick
  extract_lets clus ticking s1 s2 s3 due picks
  have h1 : s1.memWf = true := by simp [s1, h]
  have h2 : s2.memWf = true := by simp [s2, h1]
  have h3 : s3.memWf = true := memWf_goOn h2
  rw [memWf_update]
  exact h3

end Sys2Proof.Machine
end

section
/-! PROOFS. Memory stays canonical under the operations of Machine/Step.lean, in their order there: one step of the machine. -/

namespace Sys2Proof.Machine

set_option Elab.async false

@[simp] theorem memWf_perform {t : Task} {s : State} (h : s.memWf = true) : Result.memWf (perform t s) = true := by
  unfold perform
  split
  · exact memWf_exec h
  · split
    · next hi => exact memWf_exec ((memWf_toIssue h).1 hi)
    · next hi => exact (memWf_toIssue h).2 hi

@[simp] theorem memWf_step {s : State} (h : s.memWf = true) : Result.memWf (step s) = true := by
  unfold step
  split
  · split
    · exact h
    · exact memWf_tick h
  · extract_lets t
    have ht : t.memWf = true := h
    split
    · exact ht
    · exact memWf_perform ht

end Sys2Proof.Machine
end

section
/-! PROOFS. Memory stays canonical at every step. -/

namespace Sys2Proof.Machine

set_option Elab.async false

/-- Settles O60, by the rule for one step: every operation of an instruction or an event keeps the form. -/
theorem memoryStaysCanonical : Obligations.MemoryStaysCanonical := by
  unfold Obligations.MemoryStaysCanonical
  intro s t h hst
  have ht := memWf_step h
  rwa [hst] at ht

end Sys2Proof.Machine
end

section
/-! PROOFS. What the accounts of the device's reads leave alone (R47, R158, R333): an account moves counters, banks, tests and the hotness
samples, and nothing that translation, the checks or the bytes of a read rest on. -/

namespace Sys2Proof.Machine

set_option Elab.async false

/-- A state differs from another in no more than accounts change: the controllers, the self-tests, the hotness samples, and the
performance counters of contexts. -/
def Accounted (s t : State) : Prop :=
  ∃ mc tests hot ctxs, t = { s with phys := { s.phys with hot := hot }, mc := mc, tests := tests, ctxs := ctxs }
    ∧ ∀ n, ∃ p, tget Ctx.init ctxs n = { s.ctx n with pmc := p }

theorem Accounted.refl (s : State) : Accounted s s := ⟨_, _, _, _, rfl, fun _ => ⟨_, rfl⟩⟩

theorem Accounted.trans {s t u : State} (hst : Accounted s t) (htu : Accounted t u) : Accounted s u := by
  obtain ⟨mc, tests, hot, ctxs, rfl, hc⟩ := hst
  obtain ⟨mc', tests', hot', ctxs', rfl, hc'⟩ := htu
  refine ⟨mc', tests', hot', ctxs', rfl, fun n => ?_⟩
  obtain ⟨p, hp⟩ := hc n
  obtain ⟨p', hp'⟩ := hc' n
  exact ⟨p', hp'.trans (congrArg (fun c : Ctx => { c with pmc := p' }) hp)⟩

theorem Accounted.ite {s t u : State} {c : Prop} [Decidable c] (ht : Accounted s t) (hu : Accounted s u) :
    Accounted s (if c then t else u) := by
  split <;> assumption

theorem Accounted.foldl {β : Type} {f : State → β → State} (hf : ∀ s b, Accounted s (f s b)) (l : List β) (s : State) :
    Accounted s (l.foldl f s) := by
  induction l generalizing s with
  | nil => exact .refl s
  | cons b l ih => exact (hf s b).trans (ih _)

theorem accounted_mc (s : State) (mc : Mc) : Accounted s { s with mc := mc } := ⟨_, _, _, _, rfl, fun _ => ⟨_, rfl⟩⟩

theorem accounted_pmc (s : State) (ctx event n : Nat) : Accounted s (s.pmc ctx event n) := by
  refine ⟨_, _, _, _, rfl, fun k => ?_⟩
  rw [tget_tset]
  split
  · next h =>
    subst h
    exact ⟨_, rfl⟩
  · exact ⟨_, rfl⟩

theorem accounted_sampleHot (s : State) (pa : Nat) : Accounted s (s.sampleHot pa) := by
  refine Accounted.ite ?_ ?_
  · exact ⟨_, _, _, _, rfl, fun _ => ⟨_, rfl⟩⟩
  · exact accounted_mc s _

theorem accounted_access (s : State) (ctx pa since : Nat) (isWrite spend : Bool) : Accounted s (s.access ctx pa since isWrite spend).2 := by
  unfold State.access
  extract_lets g owner
  split
  next t x fresh_ hx =>
    have ht : Accounted s t := by
      split at hx
      · cases hx
        exact .refl s
      · cases hx
        exact accounted_mc s _
    extract_lets lat t1 t2 t3 t4 t5
    have h1 : Accounted s t1 := ht.trans (accounted_mc t _)
    have h2 : Accounted s t2 := h1.trans (.ite (accounted_mc t1 _) (.refl t1))
    have h3 : Accounted s t3 := h2.trans (.ite (accounted_mc t2 _) (.refl t2))
    have h4 : Accounted s t4 := h3.trans (accounted_sampleHot t3 pa)
    have h5 : Accounted s t5 := h4.trans (.ite (.refl t4) (accounted_pmc t4 _ _ _))
    exact h5.trans (.ite (.refl t5) (accounted_pmc t5 _ _ _))

theorem accounted_account (s : State) (ctx pa since : Nat) (isWrite : Bool) : Accounted s (s.account ctx pa since isWrite) :=
  accounted_access s ctx pa since isWrite _

theorem accounted_startTest (s : State) (site : TestSite) (err : TestError) : Accounted s (s.startTest site err) :=
  .ite (.refl s) ⟨_, _, _, _, rfl, fun _ => ⟨_, rfl⟩⟩

theorem accounted_checkFailed (s : State) (ctx pa : Nat) : Accounted s (s.checkFailed ctx pa) :=
  (accounted_pmc s ctx 7 1).trans (accounted_startTest _ _ _)

theorem accounted_noteStop (s : State) (ctx pa : Nat) (c : BitVec 7) : Accounted s (s.noteStop ctx pa c) :=
  .ite (accounted_checkFailed s ctx pa) (.refl s)

theorem accounted_walked (s : State) (ctx : Nat) (va : DWord) : Accounted s (s.walked ctx va) := by
  unfold State.walked
  extract_lets es t
  have ht : Accounted s t := .foldl (fun _ _ => accounted_account ..) _ _
  split
  · exact ht.trans (.ite (accounted_checkFailed t ctx _) (.refl t))
  · exact ht

/-- The account of an engine's access goes sector by sector, with the walk of every page, up to the sector that stops it. -/
theorem accounted_virtAccount (s : State) (ctx : Nat) (va : DWord) (n : Nat) (isWrite : Bool) :
    Accounted s (s.virtAccount ctx va n isWrite) := by
  unfold State.virtAccount
  refine List.foldlRecOn (motive := fun acc : State × Option Nat => Accounted s acc.1) _ _ (.refl s) fun acc hacc a _ => ?_
  split
  · exact hacc
  · extract_lets t whole
    have ht : Accounted s t := hacc.trans (.ite (.refl _) (accounted_walked ..))
    split
    · exact ht
    · split
      · exact ht.trans (accounted_noteStop ..)
      · exact ht.trans (accounted_account ..)

theorem accounted_readsAccount (s : State) (ctx : Nat) (rs : List (DWord × Nat)) : Accounted s (s.readsAccount ctx rs) :=
  .foldl (fun _ _ => accounted_virtAccount ..) rs s

section
variable {s t : State} (h : Accounted s t)
include h

theorem Accounted.waves : t.waves = s.waves := by obtain ⟨_, _, _, _, rfl, _⟩ := h; rfl
theorem Accounted.grids : t.grids = s.grids := by obtain ⟨_, _, _, _, rfl, _⟩ := h; rfl
theorem Accounted.graphs : t.graphs = s.graphs := by obtain ⟨_, _, _, _, rfl, _⟩ := h; rfl
theorem Accounted.nextId : t.nextId = s.nextId := by obtain ⟨_, _, _, _, rfl, _⟩ := h; rfl

/-- An account moves no byte. -/
theorem Accounted.sameMemory : SameMemory s t := by obtain ⟨_, _, _, _, rfl, _⟩ := h; exact ⟨fun _ => rfl, fun _ _ _ => rfl⟩

/-- Of a context, only its performance counters may have moved. -/
theorem Accounted.ctx (n : Nat) : ∃ p, t.ctx n = { s.ctx n with pmc := p } := by obtain ⟨_, _, _, _, rfl, hc⟩ := h; exact hc n

theorem Accounted.walkFrom (ctx : Nat) (va : DWord) (acc : Acc) (n table : Nat) :
    t.walkFrom ctx va acc n table = s.walkFrom ctx va acc n table := by
  obtain ⟨_, _, _, _, rfl, _⟩ := h
  induction n generalizing table with
  | zero => rfl
  | succ n ih =>
    simp only [State.walkFrom, ih]
    rfl

/-- Translation is as before. -/
theorem Accounted.walk (ctx : Nat) (va : DWord) (acc : Acc) : t.walk ctx va acc = s.walk ctx va acc := by
  obtain ⟨p, hp⟩ := h.ctx ctx
  simp only [State.walk, h.walkFrom, hp]

/-- An engine reads as before. -/
theorem Accounted.virtRead (ctx : Nat) (va : DWord) (n : Nat) : t.virtRead ctx va n = s.virtRead ctx va n := by
  have hstop : t.engineStop = s.engineStop := by obtain ⟨_, _, _, _, rfl, _⟩ := h; rfl
  have hbyte : t.physByte = s.physByte := by obtain ⟨_, _, _, _, rfl, _⟩ := h; rfl
  simp only [State.virtRead, h.walk, hstop, hbyte]

theorem Accounted.readChain (n fuel : Nat) (a : DWord) : t.readChain n fuel a = s.readChain n fuel a := by
  induction fuel generalizing a with
  | zero => rfl
  | succ fuel ih => simp only [State.readChain, h.virtRead, ih]

/-- Stage 5 judges as before. -/
theorem Accounted.judgeGrid (g : Grid) : t.judgeGrid g = s.judgeGrid g := by
  have hfloors : t.floors = s.floors := by obtain ⟨_, _, _, _, rfl, _⟩ := h; rfl
  obtain ⟨p, hp⟩ := h.ctx g.ctx
  simp only [State.judgeGrid, State.readKernel, h.virtRead, h.readChain, hfloors, hp]

end

end Sys2Proof.Machine
end

section
/-! PROOFS. Launches (R61 to R78): triggers, the grid of a launch's node, admission and completion. -/

namespace Sys2Proof.Machine

set_option Elab.async false

/-- An accepted trigger sets SEQACC and lists one launch (R61). -/
theorem exec_trigWrite_accepted {s : State} {n : Nat} {v : BitVec 64} {x : Graph} (hg : tfind s.graphs (v.extractLsb' 52 12).toNat = some x)
    (hx : x.ctx = n) (hr : (s.ctx n).st = .resident) (hq : v.extractLsb' 24 28 = (s.ctx n).seqacc + 1) (hf : s.inFlight n < 64) :
    exec (.trigWrite n 64 v) s = .next (({ s with
      launches := tput s.launches s.nextId ⟨n, (v.extractLsb' 52 12).toNat, (v.extractLsb' 24 28).toNat, (v.extractLsb' 0 24).toNat, [],
        x.packets.map fun _ => .waiting, false, false⟩,
      nextId := s.nextId + 1 } : State).modCtx n fun c => { c with seqacc := v.extractLsb' 24 28 }) := by
  change execTrigWrite n 64 v s = _
  simp only [execTrigWrite, hg, ne_eq, not_true, if_false]
  rw [if_pos ⟨hr, hx, hq, hf⟩]

/-- The first launch of its context that is not formed may be formed. -/
theorem mayForm_of_first {s : State} {k : Nat} {l : Launch} (hl : l.formed = false)
    (hk : ∀ e ∈ s.launches, e.2.ctx = l.ctx → e.2.formed = false → k ≤ e.1) : s.mayForm k l = true := by
  simp only [State.mayForm, hl, Bool.not_false, Bool.true_and, Bool.not_eq_true', List.any_eq_false, Bool.and_eq_true, beq_iff_eq,
    Bool.not_eq_true', decide_eq_true_eq, not_and, and_imp]
  exact fun e he hc hf => Nat.not_lt.mpr (hk e he hc hf)

/-- Filling the buckets of a context changes no more than the controllers. -/
theorem accounted_fullBuckets (s : State) (n : Nat) : Accounted s (s.fullBuckets n) := .ite (.refl s) (accounted_mc s _)

section
variable (s : State) (n : Nat) (packet : List Byte) (o : Origin)

/-- A grid that is formed stands QUEUED under the next id (R17, R72). -/
theorem formGrid_grid : ∃ x, tfind (s.formGrid n packet o).grids s.nextId = some x ∧ x.ctx = n ∧ x.stat = .queued ∧ x.packet = packet
    ∧ x.origin = o ∧ x.x5 = nextGrid (s.ctx n).lastGrid := by
  have ha := accounted_fullBuckets s n
  obtain ⟨p, hp⟩ := ha.ctx n
  have hl : ((s.fullBuckets n).ctx n).lastGrid = (s.ctx n).lastGrid := by rw [hp]
  rw [← ha.nextId]
  exact ⟨_, tfind_tput_self .., rfl, rfl, rfl, rfl, congrArg nextGrid hl⟩

theorem formGrid_lastGrid : ((s.formGrid n packet o).ctx n).lastGrid = nextGrid (s.ctx n).lastGrid := by
  obtain ⟨p, hp⟩ := (accounted_fullBuckets s n).ctx n
  unfold State.formGrid
  simp only [State.ctx_modCtx, if_true, hp]

theorem formGrid_waves : (s.formGrid n packet o).waves = s.waves := (accounted_fullBuckets s n).waves

theorem formGrid_sameMemory : SameMemory s (s.formGrid n packet o) := (accounted_fullBuckets s n).sameMemory

theorem formGrid_launches : (s.formGrid n packet o).launches = s.launches := by
  obtain ⟨_, _, _, _, h, _⟩ := accounted_fullBuckets s n
  unfold State.formGrid
  rw [h]
  rfl

end

/-- A launch of one node without predecessors starts it (R65). -/
theorem startNodes_single {s : State} {lid : Nat} {l : Launch} {p : List Byte} (hl : tfind s.launches lid = some l)
    (hn : l.nodes = [.waiting]) (hp : l.packets = [p]) (h0 : pkPreds p = []) :
    s.startNodes lid = { s.formGrid l.ctx (nodePacket p 0) (.node lid 0) with
      launches := tput s.launches lid { l with nodes := [.launched s.nextId] } } := by
  have hnext : nodeNext [.waiting] p ≠ .skipped := by simp [nodeNext, h0]
  have hready : nodeReady [.waiting] p = true := by simp [nodeReady, h0]
  simp [State.startNodes, hl, hn, hp, List.range_succ, hnext, hready, formGrid_launches]

/-- What stands once it has been started: the node launched, and its grid QUEUED. -/
theorem startNodes_single_result {s : State} {lid : Nat} {l : Launch} {p : List Byte} (hl : tfind s.launches lid = some l)
    (hn : l.nodes = [.waiting]) (hp : l.packets = [p]) (h0 : pkPreds p = []) :
    let t := s.startNodes lid
    t.waves = s.waves ∧ SameMemory s t ∧ (t.ctx l.ctx).lastGrid = nextGrid (s.ctx l.ctx).lastGrid
      ∧ tfind t.launches lid = some { l with nodes := [.launched s.nextId] }
      ∧ ∃ x, tfind t.grids s.nextId = some x ∧ x.ctx = l.ctx ∧ x.stat = .queued ∧ x.packet = nodePacket p 0 ∧ x.origin = .node lid 0
        ∧ x.x5 = nextGrid (s.ctx l.ctx).lastGrid := by
  rw [startNodes_single hl hn hp h0]
  exact ⟨formGrid_waves s l.ctx (nodePacket p 0) (.node lid 0), formGrid_sameMemory s l.ctx (nodePacket p 0) (.node lid 0),
    formGrid_lastGrid s _ _ _, tfind_tput_self .., formGrid_grid s _ _ _⟩

/-- A launch without patches whose graph has one node copies its packet and starts its node. -/
theorem exec_patchApply_single {s : State} {k : Nat} {l : Launch} {g : Graph} {p : List Byte} (hl : tfind s.launches k = some l)
    (hm : s.mayForm k l = true) (hpatch : l.patch = 0xFFFFFF) (hg : tfind s.graphs l.graph = some g) (hp : g.packets = [p]) :
    exec (.patchApply k) s = .next (State.startNodes { s with
      graphs := tput s.graphs l.graph { g with packets := [p] }
      launches := tput s.launches k { l with formed := true, packets := [p] } } k) := by
  change execPatchApply k s = _
  simp [execPatchApply, hl, hm, hpatch, hg, hp, State.readsServable, State.readsAccount, applyPatches]

/-- The clock of free values takes no part in an account. -/
theorem Accounted.withFresh {s t : State} (h : Accounted s t) (f : Nat) : Accounted { s with fresh := f } { t with fresh := f } := by
  obtain ⟨_, _, _, _, rfl, hc⟩ := h
  exact ⟨_, _, _, _, rfl, hc⟩

/-- A grid that passes stage 5 without a charge is ADMITTED (R76). -/
theorem admitGrid_ok {s : State} {k : Nat} {g : Grid} {h : KHead} {es : List Eff} (hj : s.judgeGrid g = .ok (h, es, none)) :
    s.admitGrid k g = { s.setGrid k { g with stat := .admitted, khead := some h, chain := es, order := s.nextId } with
      nextId := s.nextId + 1 } := by
  simp only [State.admitGrid, hj]
  rfl

/-- The one candidate of stage 5 is judged once its reads have been made. -/
theorem exec_admission_single {s : State} {k : Nat} {g : Grid} (hs : s.stage5 = [.grid k]) (hg : tfind s.grids k = some g)
    (hr : s.readsServable g.ctx (s.packetReads g.ctx g.packet) = true) :
    exec .admission s
      = .next (State.admitGrid { s.readsAccount g.ctx (s.packetReads g.ctx g.packet) with fresh := s.fresh + 1 } k g) := by
  change execAdmission s = _
  simp [execAdmission, hs, hg, hr, Nat.mod_one]

end Sys2Proof.Machine
end

section
/-! PROOFS. Completion records (R67 to R69) and the completion of a grid (R78): a record is bytes in memory, a number of its context and an
interrupt. -/

namespace Sys2Proof.Machine

set_option Elab.async false

/-- A state differs from another in no more than a write of memory changes: memory with its counters, the black
box, and the free values that a renewal of keys draws. -/
def Written (s t : State) : Prop := ∃ phys amber fresh, t = { s with phys := phys, amber := amber, fresh := fresh }

theorem Written.refl (s : State) : Written s s := ⟨_, _, _, rfl⟩

theorem Written.trans {s t u : State} (hst : Written s t) (htu : Written t u) : Written s u := by
  obtain ⟨_, _, _, rfl⟩ := hst
  obtain ⟨_, _, _, rfl⟩ := htu
  exact ⟨_, _, _, rfl⟩

theorem Written.foldl {β : Type} {f : State → β → State} (hf : ∀ s b, Written s (f s b)) (l : List β) (s : State) :
    Written s (l.foldl f s) := by
  induction l generalizing s with
  | nil => exact .refl s
  | cons b l ih => exact (hf s b).trans (ih _)

theorem written_phys (s : State) (phys : Phys) : Written s { s with phys := phys } := ⟨_, s.amber, s.fresh, rfl⟩

theorem written_amberEvent (s : State) (cause cls unit detail : Nat) : Written s (s.amberEvent cause cls unit detail) :=
  ⟨s.phys, _, s.fresh, rfl⟩

theorem written_renewed (s : State) (n leaf : Nat) : Written s (s.renewed n leaf) := by
  unfold State.renewed
  split
  · extract_lets t p
    have ht : Written s t := ⟨_, s.amber, _, rfl⟩
    exact (ht.trans (written_phys t p)).trans (written_amberEvent ..)
  · exact .refl s

theorem written_seal (s : State) (pa key : Nat) : Written s (s.seal pa key) := by
  unfold State.seal State.setSeal
  split
  · exact .refl s
  · dsimp only
    split <;> exact written_phys s _

theorem written_sectorWrite (s : State) (sector key : Nat) (bs : List (Nat × Byte)) : Written s (s.sectorWrite sector key bs) := by
  unfold State.sectorWrite
  extract_lets pa sec n t fresh_ u p
  have ht : Written s t := written_renewed s n _
  have hu : Written s u := by
    simp only [u]
    split
    · exact ht.trans (written_seal t pa key)
    · exact ht
  exact hu.trans (written_phys u _)

theorem written_virtWrite {s t : State} {ctx : Nat} {va : DWord} {bs : List Byte} (ht : s.virtWrite ctx va bs = .ok t) : Written s t := by
  unfold State.virtWrite at ht
  extract_lets pages cells secs stop at ht
  split at ht
  · cases ht
  split at ht
  · cases ht
  · cases ht
    exact .foldl (fun _ _ => written_sectorWrite ..) _ _

theorem Written.waves {s t : State} (h : Written s t) : t.waves = s.waves := by obtain ⟨_, _, _, rfl⟩ := h; rfl
theorem Written.grids {s t : State} (h : Written s t) : t.grids = s.grids := by obtain ⟨_, _, _, rfl⟩ := h; rfl

theorem emit_waves (s : State) (o : Out) : (s.emit o).waves = s.waves := rfl
theorem emit_grids (s : State) (o : Out) : (s.emit o).grids = s.grids := rfl

/-- Writing a record moves no wave and no grid. -/
theorem writeLog_work (s : State) (n e : Nat) (bs : List Byte) :
    (s.writeLog n e bs).waves = s.waves ∧ (s.writeLog n e bs).grids = s.grids := by
  unfold State.writeLog
  extract_lets c at_ t
  have ha : Accounted s t := accounted_virtAccount ..
  split
  · next u hu =>
    have hw := written_virtWrite hu
    exact ⟨hw.waves.trans ha.waves, hw.grids.trans ha.grids⟩
  · exact ⟨ha.waves, ha.grids⟩

/-- Emitting a record moves no wave and no grid, and takes the next number of its context (R67, R68). -/
theorem emitRecord_work (s : State) (n : Nat) (r : CRec) : (s.emitRecord n r).waves = s.waves ∧ (s.emitRecord n r).grids = s.grids
    ∧ ((s.emitRecord n r).ctx n).seqemit = (s.ctx n).seqemit + 1 := by
  unfold State.emitRecord
  extract_lets c e bs at_ t s1
  have ha : Accounted s t := accounted_virtAccount ..
  have h1 : s1.waves = s.waves ∧ s1.grids = s.grids := by
    simp only [s1]
    split
    · rw [emit_waves, emit_grids]
      exact writeLog_work s n e.toNat bs
    split
    · split
      · next u hu =>
        have hw := written_virtWrite hu
        exact ⟨hw.waves.trans ha.waves, hw.grids.trans ha.grids⟩
      · exact ⟨ha.waves, ha.grids⟩
    · exact ⟨rfl, rfl⟩
  exact ⟨h1.1, h1.2, by simp [State.ctx_modCtx, e, c]⟩

/-- A DRAINING grid without teams or children completes (R78). -/
theorem exec_gridComplete_drained {s : State} {k : Nat} {g : Grid} (hg : tfind s.grids k = some g) (hd : g.stat = .draining)
    (ht : s.gridTeams k = []) (hc : s.hasChildren k g = false) : exec (.gridComplete k) s = .next (s.completeGrid k g g.fault) := by
  change execGridComplete k s = _
  simp [execGridComplete, hg, hd, ht, hc]

/-- A grid of a device queue that completes: COMPLETE with its fault, and a record where its packet asks for one (R67, R78). -/
theorem completeGrid_qput (s : State) (k : Nat) {g : Grid} (fault : Bool) {p j : Nat} (ho : g.origin = .qput p j) :
    (s.completeGrid k g fault).waves = s.waves
      ∧ ((s.completeGrid k g fault).ctx g.ctx).seqemit = (if pkRec g.packet then (s.ctx g.ctx).seqemit + 1 else (s.ctx g.ctx).seqemit)
      ∧ ∃ x, tfind (s.completeGrid k g fault).grids k = some x ∧ x.stat = .complete ∧ x.fault = fault ∧ x.clu = [] ∧ x.die = [] := by
  unfold State.completeGrid
  extract_lets t status
  have hw : t.waves = s.waves := rfl
  have hc : t.ctx g.ctx = s.ctx g.ctx := rfl
  have hg : ∃ x, tfind t.grids k = some x ∧ x.stat = .complete ∧ x.fault = fault ∧ x.clu = [] ∧ x.die = [] :=
    ⟨_, tfind_tput_self .., rfl, rfl, rfl, rfl⟩
  clear_value t status
  simp only [ho]
  split
  · obtain ⟨hw', hg', hs⟩ := emitRecord_work t g.ctx ⟨0, 0xFFFF, status, pkTag g.packet, 0xFFFF, 2⟩
    rw [hw', hg', hs, hc]
    exact ⟨hw, rfl, hg⟩
  · exact ⟨hw, congrArg Ctx.seqemit hc, hg⟩

end Sys2Proof.Machine
end

section
/-! PROOFS. The commands of GLOAD (R62, R63). -/

namespace Sys2Proof.Machine

set_option Elab.async false

/-- The address of an address write: its bits from 6 on. -/
theorem gloadAddress_toNat {v : BitVec 64} (h : v.getLsbD 63 = false) :
    (((v.extractLsb' 6 57).setWidth 64).shiftLeft 6).toNat = v.toNat / 64 * 64 := by
  have hv : 2 * v.toNat < 2 ^ 64 := BitVec.msb_eq_false_iff_two_mul_lt.mp ((BitVec.msb_eq_getLsbD_last v).trans h)
  simp only [BitVec.shiftLeft_eq, BitVec.toNat_shiftLeft, BitVec.toNat_setWidth, BitVec.extractLsb'_toNat, Nat.shiftRight_eq_div_pow,
    Nat.shiftLeft_eq]
  omega

section
variable {s : State} {n : Nat} {v : BitVec 64} (hn : (s.ctx n).gcmd = none)
include hn

/-- A write of 64 bits is heard while no command is in progress (R63). -/
theorem gloadHeard_of_idle : s.gloadHeard n 64 = true := by simp [State.gloadHeard, hn]

theorem exec_gloadAddressWrite (h63 : v.getLsbD 63 = false) (hr : gloadReserved v = false) : exec (.gloadAddressWrite n 64 v) s
    = .next (s.modCtx n fun c => { c with armed := some (v.getLsbD 4, ((v.extractLsb' 6 57).setWidth 64).shiftLeft 6) }) := by
  change execGloadAddressWrite n 64 v s = _
  simp only [execGloadAddressWrite, gloadHeard_of_idle hn, h63, hr, Bool.not_false, Bool.and_self, if_true]

theorem exec_gloadLoad {a : DWord} (h63 : v.getLsbD 63 = true) (hr : gloadReserved v = false) (ha : (s.ctx n).armed = some (true, a)) :
    exec (.gloadLoad n 64 v) s = .next (s.modCtx n fun c =>
      { c with armed := none, gstat := 1, gcmd := some ⟨true, a, (v.extractLsb' 0 12).toNat⟩ }) := by
  change execGloadLoad n 64 v s = _
  simp only [execGloadLoad, gloadHeard_of_idle hn, h63, hr, ha, Bool.not_false, Bool.and_self, if_true]

theorem exec_gloadUnload {a : DWord} (h63 : v.getLsbD 63 = true) (hr : gloadReserved v = false) (ha : (s.ctx n).armed = some (false, a)) :
    exec (.gloadUnload n 64 v) s = .next (s.modCtx n fun c =>
      { c with armed := none, gstat := 1, gcmd := some ⟨false, a, (v.extractLsb' 0 12).toNat⟩ }) := by
  change execGloadUnload n 64 v s = _
  simp only [execGloadUnload, gloadHeard_of_idle hn, h63, hr, ha, Bool.not_false, Bool.and_self, if_true]

theorem exec_gloadSequenceError (h : gloadReserved v = true ∨ v.getLsbD 63 = true ∧ (s.ctx n).armed = none) :
    exec (.gloadSequenceError n 64 v) s = .next (s.modCtx n fun c => { c with armed := none, gstat := 7 }) := by
  have hc : (gloadReserved v || (v.getLsbD 63 && (s.ctx n).armed.isNone)) = true := by
    rcases h with h | ⟨h63, ha⟩
    · simp [h]
    · simp [h63, ha]
  change execGloadSequenceError n 64 v s = _
  simp only [execGloadSequenceError, gloadHeard_of_idle hn, hc, Bool.and_self, if_true]

end

/-- A command of GLOAD ends with a code (R63). -/
def State.loadEnds (s : State) (n : Nat) (code : Word) : State := s.modCtx n fun x => { x with gcmd := none, gstat := code }

section
variable {u : State} {n : Nat} {q : GCmd} (hq : (u.ctx n).gcmd = some q) (fails : Bool)
include hq

theorem endLoad_unload (hl : q.load = false) :
    u.endLoad n fails = State.loadEnds (if u.unloadCode n q.id = 0 then { u with graphs := terase u.graphs q.id } else u) n
      (BitVec.ofNat 32 (u.unloadCode n q.id)) := by
  simp only [State.endLoad, hq, hl, Bool.not_false, if_true]
  rfl

theorem endLoad_waits (hl : q.load = true) (hr : u.readsServable n (u.imageReads n q.id q.addr) = false) : u.endLoad n fails = u := by
  simp only [State.endLoad, hq, hl, hr, Bool.not_true, Bool.not_false, if_true, Bool.false_eq_true, if_false]

variable (hl : q.load = true) (hr : u.readsServable n (u.imageReads n q.id q.addr) = true)
include hl hr

theorem endLoad_error {e : Nat} (he : u.readGraph n q.id q.addr = .error e) :
    u.endLoad n fails = (u.readsAccount n (u.imageReads n q.id q.addr)).loadEnds n (BitVec.ofNat 32 e) := by
  simp only [State.endLoad, hq, hl, hr, he, Bool.not_true, Bool.false_eq_true, if_false]
  rfl

theorem endLoad_installs {ps : List (List Byte)} (hp : u.readGraph n q.id q.addr = .ok ps) (hf : fails = false) :
    u.endLoad n fails = State.loadEnds { u.readsAccount n (u.imageReads n q.id q.addr) with
      graphs := tput (u.readsAccount n (u.imageReads n q.id q.addr)).graphs q.id ⟨n, ps⟩ } n 0 := by
  simp only [State.endLoad, hq, hl, hr, hp, hf, Bool.not_true, Bool.false_eq_true, if_false]
  rfl

theorem endLoad_copyFails {ps : List (List Byte)} (hp : u.readGraph n q.id q.addr = .ok ps) (hf : fails = true) :
    u.endLoad n fails = State.loadEnds { u.readsAccount n (u.imageReads n q.id q.addr) with
      graphs := terase (u.readsAccount n (u.imageReads n q.id q.addr)).graphs q.id } n 5 := by
  simp only [State.endLoad, hq, hl, hr, hp, hf, Bool.not_true, Bool.false_eq_true, if_false, if_true]
  rfl

end

/-- What the end of a command leaves, whatever it did to the store of graphs: the waves, memory, no command, and its code. -/
theorem completes_endLoad {u t : State} {n : Nat} {fails : Bool} {code : Word} {P : State → Prop} (he : u.endLoad n fails = t.loadEnds n code)
    (hw : t.waves = u.waves) (hm : SameMemory u t) (hP : P (t.loadEnds n code)) :
    Completes (.gloadLoadComplete n fails) u fun t =>
      t.waves = u.waves ∧ SameMemory u t ∧ (t.ctx n).gcmd = none ∧ (t.ctx n).gstat = code ∧ P t := by
  refine ⟨t.loadEnds n code, congrArg _ he, hw, hm, ?_, ?_, hP⟩ <;> simp [State.loadEnds, State.ctx_modCtx]

/-- Settles O47, part by part: the trigger, the launch of one node, stage 5, the completion of a grid, and the commands of GLOAD. -/
theorem launches : Obligations.Launches := by
  unfold Obligations.Launches
  refine ⟨?_, ?_, ?_, ?_, ?_⟩
  · intro s n x v g seq hg hx hr hq hf
    exact ⟨_, exec_trigWrite_accepted hg hx hr hq hf, rfl, ⟨fun _ => rfl, fun _ _ _ => rfl⟩, by simp [State.ctx_modCtx, seq], rfl,
      s.nextId, _, tfind_tput_self .., rfl, rfl, rfl, rfl, rfl, rfl⟩
  · intro s k l g p hl hf hk hpatch hg hp h0 hn
    have he := exec_patchApply_single hl (mayForm_of_first hf hk) hpatch hg hp
    obtain ⟨hw, hm, hlast, hl2, x, hx⟩ := startNodes_single_result (s := { s with
      graphs := tput s.graphs l.graph { g with packets := [p] }
      launches := tput s.launches k { l with formed := true, packets := [p] } }) (tfind_tput_self ..) hn rfl h0
    exact ⟨_, he, hw, hm, hlast, _, x, hl2, rfl, rfl, rfl, hx⟩
  · intro s k g h es hs hg hj hr
    have ha := (accounted_readsAccount s g.ctx (s.packetReads g.ctx g.packet)).withFresh (s.fresh + 1)
    have he := exec_admission_single hs hg hr
    rw [admitGrid_ok ((ha.judgeGrid g).trans hj), ha.nextId] at he
    refine ⟨_, he, ha.waves, ha.sameMemory, tfind_tput_self .., fun j hne => ?_⟩
    exact (tfind_tput_ne _ _ hne).trans (congrArg (tfind · j) ha.grids)
  · intro s k g p j hg hd ht hc ho
    exact ⟨_, exec_gridComplete_drained hg hd ht hc, completeGrid_qput s k g.fault ho⟩
  · intro s n v hn changes
    refine ⟨fun h63 hr => ⟨_, gloadAddress_toNat h63, exec_gloadAddressWrite hn h63 hr⟩, fun _ => exec_gloadLoad hn,
      fun _ => exec_gloadUnload hn, exec_gloadSequenceError hn, ?_⟩
    intro u q fails hq ends
    have ha := accounted_readsAccount u n (u.imageReads n q.id q.addr)
    have hu : SameMemory u u := ⟨fun _ => rfl, fun _ _ _ => rfl⟩
    refine ⟨fun hl h0 => ?_, fun hl h0 => ?_, fun hl hr => congrArg _ (endLoad_waits hq fails hl hr),
      fun hr => ⟨fun e hl he => ?_, fun ps hl hp hf => ?_, fun ps hl hp hf => ?_⟩⟩
    · have he := endLoad_unload hq fails hl
      rw [h0, if_pos rfl] at he
      exact completes_endLoad he rfl hu ((tfind_terase ..).trans (if_pos rfl))
    · have he := endLoad_unload hq fails hl
      rw [if_neg h0] at he
      exact completes_endLoad he rfl hu rfl
    · exact completes_endLoad (endLoad_error hq fails hl hr he) ha.waves ha.sameMemory ha.graphs
    · exact completes_endLoad (endLoad_installs hq fails hl hr hp hf) ha.waves ha.sameMemory (tfind_tput_self ..)
    · exact completes_endLoad (endLoad_copyFails hq fails hl hr hp hf) ha.waves ha.sameMemory ((tfind_terase ..).trans (if_pos rfl))

end Sys2Proof.Machine
end

section
/-! PROOFS. The end of a matrix command (R142, R276, R299): its wave's counters fall, acquires complete, the command leaves the engine. -/

namespace Sys2Proof.Machine

set_option Elab.async false

/-- A wave of which nothing has changed but that counters have fallen and acquires have completed. -/
def Wave.Eased (w v : Wave) : Prop := ∃ acqs k, v = { w with acqs := acqs, k := k } ∧ ∀ i, v.kreg i ≤ w.kreg i

theorem Wave.Eased.refl (w : Wave) : w.Eased w := ⟨w.acqs, w.k, rfl, fun _ => le_rfl⟩

theorem Wave.Eased.trans {u v w : Wave} (huv : u.Eased v) (hvw : v.Eased w) : u.Eased w := by
  obtain ⟨_, _, rfl, hv⟩ := huv
  obtain ⟨acqs, k, rfl, hw⟩ := hvw
  exact ⟨acqs, k, rfl, fun i => (hw i).trans (hv i)⟩

section
variable {w v : Wave} (h : w.Eased v)
include h

theorem Wave.Eased.kreg_le (i : Nat) : v.kreg i ≤ w.kreg i := by obtain ⟨_, _, -, hk⟩ := h; exact hk i

theorem Wave.Eased.lane (r l : Nat) : v.lane r l = w.lane r l := by obtain ⟨_, _, rfl, -⟩ := h; rfl

theorem Wave.Eased.newest (x : Target) : v.newest x = w.newest x := by obtain ⟨_, _, rfl, -⟩ := h; cases x <;> rfl

end

/-- A wave with one counter lowered by 1, never below 0 (R142). -/
def Wave.lowered (w : Wave) (k : Nat) : Wave := { w with k := tset 0 w.k k (BitVec.ofNat 6 (w.kreg k - 1)) }

theorem fall_cons (w : Wave) (k : Nat) (ks : List Nat) : w.fall (k :: ks) = (w.lowered k).fall ks := rfl

theorem kreg_lowered (w : Wave) (k j : Nat) : (w.lowered k).kreg j = if j = k then w.kreg k - 1 else w.kreg j := by
  have hk : w.kreg k < 64 := BitVec.isLt _
  have hmod : (BitVec.ofNat 6 (w.kreg k - 1)).toNat = w.kreg k - 1 := by rw [BitVec.toNat_ofNat]; omega
  simp only [Wave.lowered, Wave.kreg, tget_tset]
  split
  · exact hmod
  · rfl

theorem eased_lowered (w : Wave) (k : Nat) : w.Eased (w.lowered k) := by
  refine ⟨w.acqs, _, rfl, fun j => ?_⟩
  rw [kreg_lowered]
  split
  · next h => subst h; omega
  · exact le_rfl

theorem eased_fall (w : Wave) (ks : List Nat) : w.Eased (w.fall ks) := by
  induction ks generalizing w with
  | nil => exact .refl w
  | cons k ks ih => exact (eased_lowered w k).trans (ih _)

theorem countersFall_fall (w : Wave) (ks : List Nat) : CountersFall ks w (w.fall ks) := by
  induction ks generalizing w with
  | nil => exact fun _ hk => absurd hk List.not_mem_nil
  | cons k ks ih =>
    intro j hj
    rw [fall_cons]
    rcases List.mem_cons.mp hj with rfl | hj
    · have hone := kreg_lowered w j j
      have hrest := (eased_fall (w.lowered j) ks).kreg_le j
      rw [if_pos rfl] at hone
      omega
    · have hone := (eased_lowered w k).kreg_le j
      have hrest := ih (w.lowered k) j hj
      omega

theorem CountersFall.eased {ks : List Nat} {u v w : Wave} (h : CountersFall ks u v) (hw : v.Eased w) : CountersFall ks u w := by
  intro k hk
  have hle := hw.kreg_le k
  have hv := h k hk
  omega

/-- Completing acquires eases the one wave, if any of them is done (R276). -/
theorem settle_cases (s : State) (wid : Nat) :
    s.settle wid = s ∨ ∃ w v, tfind s.waves wid = some w ∧ w.Eased v ∧ s.settle wid = s.setWave wid v := by
  unfold State.settle
  split
  · exact .inl rfl
  · next w hw =>
    extract_lets done
    split
    · exact .inl rfl
    · exact .inr ⟨w, _, hw, .trans ⟨w.acqs.filter fun a => !s.acqDone wid w a, w.k, rfl, fun _ => le_rfl⟩ (eased_fall _ _), rfl⟩

/-- What the end of a command leaves of the waves: its own, if it is still there, is eased and its counters have fallen. -/
structure EndsIn (c : MCmd) (s t : State) : Prop where
  others : OtherWaves c.wid s t
  gone : tfind s.waves c.wid = none → tfind t.waves c.wid = none
  own : ∀ w, tfind s.waves c.wid = some w → ∃ v, tfind t.waves c.wid = some v ∧ w.Eased v ∧ CountersFall c.cnt w v

/-- The end of a command changes the engine's queue, which it leaves, and the waves. -/
theorem endMx_spec (s : State) (c : MCmd) :
    ∃ waves, s.endMx c = { s with mxq := s.mxq.filter fun x => x.id != c.id, waves := waves } ∧ EndsIn c s (s.endMx c) := by
  unfold State.endMx
  extract_lets s1
  cases hw : tfind s.waves c.wid with
  | none =>
    have h1 : s1.modWave c.wid (fun w => w.fall c.cnt) = s1 := by simp only [State.modWave, s1, hw]
    have h2 : s1.settle c.wid = s1 := by simp only [State.settle, s1, hw]
    rw [h1, h2]
    exact ⟨s.waves, rfl, fun _ _ => rfl, id, fun w h => by cases hw.symm.trans h⟩
  | some w =>
    have h1 : s1.modWave c.wid (fun w => w.fall c.cnt) = s1.setWave c.wid (w.fall c.cnt) := by simp only [State.modWave, s1, hw]
    have hf : tfind (s1.setWave c.wid (w.fall c.cnt)).waves c.wid = some (w.fall c.cnt) := tfind_tput_self ..
    rw [h1]
    rcases settle_cases (s1.setWave c.wid (w.fall c.cnt)) c.wid with h2 | ⟨w1, v, hw1, hv, h2⟩
    · rw [h2]
      refine ⟨_, rfl, fun k hk => tfind_tput_ne _ _ hk, fun h => (by cases hw.symm.trans h), fun u hu => ?_⟩
      cases hw.symm.trans hu
      exact ⟨_, hf, eased_fall w c.cnt, countersFall_fall w c.cnt⟩
    · cases hf.symm.trans hw1
      rw [h2]
      refine ⟨_, rfl, fun k hk => (tfind_tput_ne _ _ hk).trans (tfind_tput_ne _ _ hk), fun h => (by cases hw.symm.trans h), fun u hu => ?_⟩
      cases hw.symm.trans hu
      exact ⟨v, tfind_tput_self .., (eased_fall w c.cnt).trans hv, (countersFall_fall w c.cnt).eased hv⟩

theorem endMx_sameMemory (s : State) (c : MCmd) : SameMemory s (s.endMx c) := by
  obtain ⟨_, he, -⟩ := endMx_spec s c
  rw [he]
  exact ⟨fun _ => rfl, fun _ _ _ => rfl⟩

@[simp] theorem endMx_core (s : State) (c : MCmd) : (s.endMx c).core = s.core := by
  obtain ⟨_, he, -⟩ := endMx_spec s c
  rw [he]
  rfl

theorem endMx_leaves (s : State) (c : MCmd) : ∀ x ∈ (s.endMx c).mxq, x.id ≠ c.id := by
  obtain ⟨_, he, -⟩ := endMx_spec s c
  rw [he]
  intro x hx
  simpa using (List.mem_filter.mp hx).2

theorem endsIn_endMx (s : State) (c : MCmd) : EndsIn c s (s.endMx c) := by
  obtain ⟨_, -, h⟩ := endMx_spec s c
  exact h

theorem endMx_sameRegs (s : State) (c : MCmd) : SameRegs s (s.endMx c) := by
  obtain ⟨others, gone, own⟩ := endsIn_endMx s c
  intro k x
  unfold State.newest
  by_cases hk : k = c.wid
  · subst hk
    cases hw : tfind s.waves c.wid with
    | none => simp only [gone hw]
    | some w =>
      obtain ⟨v, hv, he, -⟩ := own w hw
      simp only [hv, he.newest]
  · rw [others k hk]

end Sys2Proof.Machine
end

section
/-! PROOFS. The matrix engine at work (R289 to R299): the accumulators, one group of an MMA, and the commands whose cells are all handled in
one step. -/

namespace Sys2Proof.Machine

set_option Elab.async false

theorem SameMemory.trans {s t u : State} (hst : SameMemory s t) (htu : SameMemory t u) : SameMemory s u :=
  ⟨fun pa => (htu.1 pa).trans (hst.1 pa), fun l v o => (htu.2 l v o).trans (hst.2 l v o)⟩

theorem SameRegs.trans {s t u : State} (hst : SameRegs s t) (htu : SameRegs t u) : SameRegs s u :=
  fun k x => (htu k x).trans (hst k x)

theorem SameWaves.sameMemory {s t : State} (h : SameWaves s t) : SameMemory s t := by
  obtain ⟨-, hp, hc, hk, hd⟩ := h
  exact ⟨fun pa => by rw [hp], fun l u o => by simp only [State.spByte, hc, hk, hd]⟩

theorem SameWaves.sameRegs {s t : State} (h : SameWaves s t) : SameRegs s t := by
  obtain ⟨hw, -⟩ := h
  exact fun k x => by simp only [State.newest, hw]

/-- The accumulator elements of a core's engine. -/
def State.accOf (s : State) (core key : Nat) : Word := tget 0 (s.core core).mx.acc key

theorem setAcc_sameWaves (s : State) (c : MCmd) (tile row col : Nat) (v : Word) : SameWaves s (s.setAcc c tile row col v) :=
  ⟨rfl, rfl, rfl, rfl, rfl⟩

theorem accOf_setAcc (s : State) (c : MCmd) (tile row col : Nat) (v : Word) (x : Nat) :
    (s.setAcc c tile row col v).accOf c.core x = if x = accKey tile row col then v else s.accOf c.core x := by
  simp only [State.accOf, State.setAcc, State.core_modCore, if_true, tget_tset]

/-! One group of an element of an MMA (R33, R293, R297). -/

/-- A command of which a number of A rows have entered, the last at a clock. -/
def MCmd.entered (c : MCmd) (rows at_ : Nat) : MCmd := { c with rowsIn := rows, rowAt := at_ }

theorem injectRow_eq (s : State) (c : MCmd) : ∃ rows at_, s.injectRow c = c.entered rows at_ := by
  unfold State.injectRow
  split
  · extract_lets cad now
    split
    · exact ⟨_, _, rfl⟩
    · exact ⟨c.rowsIn, c.rowAt, rfl⟩
  · exact ⟨c.rowsIn, c.rowAt, rfl⟩

/-- The bytes of some sectors of a command's operand, one after the other. -/
def State.readSecs (s : State) (c : MCmd) (secs : List Nat) : List Byte × MCmd :=
  secs.foldl (fun acc k => (acc.1 ++ (s.mxSector acc.2 k).1, (s.mxSector acc.2 k).2)) ([], c)

/-- Operand bytes are read sector by sector (R298). -/
theorem mxBytes_eq (s : State) (c : MCmd) (o n : Nat) :
    let read := s.readSecs c ((List.range ((o + n - 1) / 32 + 1)).filter fun k => decide (o / 32 ≤ k))
    s.mxBytes c o n = ((read.1.drop (o % 32)).take n, read.2) := rfl

theorem mxSector_command (s : State) (c : MCmd) (k : Nat) : ∃ got, (s.mxSector c k).2 = { c with got := got } := by
  unfold State.mxSector
  split
  · exact ⟨c.got, rfl⟩
  · exact ⟨_, rfl⟩

/-- Reading operand bytes changes no more of a command than the sectors that it has read. -/
theorem mxBytes_command (s : State) (c : MCmd) (o n : Nat) : ∃ got, (s.mxBytes c o n).2 = { c with got := got } := by
  rw [mxBytes_eq]
  refine List.foldlRecOn (motive := fun acc : List Byte × MCmd => ∃ got, acc.2 = { c with got := got }) _ _ ⟨c.got, rfl⟩ ?_
  intro acc hacc k _
  obtain ⟨_, hc⟩ := hacc
  obtain ⟨got, hs⟩ := mxSector_command s acc.2 k
  exact ⟨got, by rw [hs, hc]⟩

theorem mxSector_entered (s : State) (c : MCmd) (rows at_ k : Nat) :
    s.mxSector (c.entered rows at_) k = ((s.mxSector c k).1, (s.mxSector c k).2.entered rows at_) := by
  have hgot : (c.entered rows at_).got = c.got := rfl
  unfold State.mxSector
  rw [hgot]
  cases tfind c.got k <;> rfl

theorem readSecs_entered (s : State) (c : MCmd) (rows at_ : Nat) (secs : List Nat) :
    s.readSecs (c.entered rows at_) secs = ((s.readSecs c secs).1, (s.readSecs c secs).2.entered rows at_) :=
  List.foldl_hom (fun x : List Byte × MCmd => (x.1, x.2.entered rows at_)) (init := ([], c)) fun x k => by
    simp only [mxSector_entered]

/-- Operand bytes do not depend on the rows that have entered. -/
theorem mxBytes_entered (s : State) (c : MCmd) (rows at_ o n : Nat) : (s.mxBytes (c.entered rows at_) o n).1 = (s.mxBytes c o n).1 := by
  rw [mxBytes_eq, mxBytes_eq, readSecs_entered]

/-- The products that group g adds to the element at a row and a column (R33, R292, R294). -/
def State.stepProds (s : State) (c : MCmd) (fmt : Fmt) (slot sc : Bool) (bank row col g : Nat) : List FV :=
  let m := (s.core c.core).mx
  let k := wslot slot bank
  let ws := (tfind c.slots k).getD ⟨fmt, false⟩
  groupProds fmt ws.fmt (s.mxBytes c (128 * row + g * groupBytes fmt) (groupBytes fmt)).1
    (tbytes m.w (k * 8192 + 128 * col + g * groupBytes ws.fmt) (groupBytes ws.fmt))
    (if sc then some (tget 0 m.asc (c.part * 512 + 8 * row + g)).toNat else none)
    (if ws.scaled then some (tget 0 m.wsc (k * 1024 + 8 * col + g)).toNat else none)
    (tget 0 m.asc (c.part * 512 + 256 + 8 * row + g)).toNat (tget 0 m.wsc (k * 1024 + 512 + 8 * col + g)).toNat

theorem stepProds_entered (s : State) (c : MCmd) (rows at_ : Nat) (fmt : Fmt) (slot sc : Bool) (bank row col g : Nat) :
    s.stepProds (c.entered rows at_) fmt slot sc bank row col g = s.stepProds c fmt slot sc bank row col g := by
  unfold State.stepProds
  rw [mxBytes_entered]
  rfl

/-- One step of an MMA sets its one element. -/
theorem mmaStep_state (s : State) (c : MCmd) (fmt : Fmt) (slot sc : Bool) (bank tile row col g : Nat) :
    (s.mmaStep c fmt slot sc bank tile row col g).1 = s.setAcc c tile row col
      (mxStep (s.accOf c.core (accKey tile row col)) (s.stepProds c fmt slot sc bank row col g)) := by
  obtain ⟨got, hc⟩ := mxBytes_command s c (128 * row + g * groupBytes fmt) (groupBytes fmt)
  unfold State.mmaStep
  simp only [hc]
  rfl

/-- A full mask has the bit of every group. -/
theorem bitAt_allGroups {fmt : Fmt} {g : Nat} (hg : g < fmtGroups fmt) : bitAt (allGroups fmt) g = true := by
  have h := Nat.testBit_two_pow_sub_one (fmtGroups fmt) g
  rw [Nat.testBit_eq_decide_div_mod_eq, decide_eq_decide] at h
  simpa [bitAt, allGroups] using h.mpr hg

/-- A command one of whose groups is not applied has not finished the cell. -/
theorem did_of_group {c : MCmd} {h : Hints} {fmt : Fmt} {slot sc : Bool} {d a : Opd} {b : SrcB} {cell g : Nat}
    (hi : c.instr = .mma h fmt slot sc d a b) (hg : g < fmtGroups fmt) (hb : bitAt (tget 0 c.prog cell) g = false) :
    c.did cell = false := by
  rw [MCmd.did, beq_eq_false_iff_ne]
  intro he
  rw [he, MCmd.full, hi, bitAt_allGroups hg] at hb
  cases hb

/-- With no command before it, a group of an element whose row has entered is one step of the MMA. -/
theorem mxCell_group (s : State) {c : MCmd} {h : Hints} {fmt : Fmt} {slot sc : Bool} {d a : Opd} {b : SrcB} {cell g : Nat}
    (hi : c.instr = .mma h fmt slot sc d a b) (hg : g < fmtGroups fmt) (hb : bitAt (tget 0 c.prog cell) g = false)
    (hr : cell / 64 % 32 < c.rowsIn) :
    (s.mxCell [] [g] c cell).1
      = (s.mmaStep c fmt slot sc (c.banks.getD (cell / 2048) 0) (opdIdx d + cell / 2048) (cell / 64 % 32) (cell % 64) g).1 := by
  unfold State.mxCell
  simp [did_of_group hi hg hb, hi, Nat.not_le.mpr hr, mayWrite, hg, hb]

/-- Once the A row that is due has entered, such a group adds its products to its element. -/
theorem mxCell_injected (s : State) {c : MCmd} {h : Hints} {fmt : Fmt} {slot sc : Bool} {d a : Opd} {b : SrcB} {cell g : Nat}
    (hi : c.instr = .mma h fmt slot sc d a b) (hg : g < fmtGroups fmt) (hb : bitAt (tget 0 c.prog cell) g = false)
    (hr : cell / 64 % 32 < (s.injectRow c).rowsIn) :
    (s.mxCell [] [g] (s.injectRow c) cell).1 = s.setAcc c (opdIdx d + cell / 2048) (cell / 64 % 32) (cell % 64)
      (mxStep (s.accOf c.core (accKey (opdIdx d + cell / 2048) (cell / 64 % 32) (cell % 64)))
        (s.stepProds c fmt slot sc (c.banks.getD (cell / 2048) 0) (cell / 64 % 32) (cell % 64) g)) := by
  obtain ⟨rows, at_, he⟩ := injectRow_eq s c
  rw [he] at hr ⊢
  rw [mxCell_group s (c := c.entered rows at_) hi hg hb hr, mmaStep_state, stepProds_entered]
  rfl

/-! What follows the cells that a step has handled (R299, R336). -/

/-- The steps that a command has gone on are counted, and its core has run an MMA in the window (R336). -/
def State.countSteps (s : State) (c d : MCmd) : State :=
  let n := d.stepsDone - c.stepsDone
  if n = 0 then s
  else (s.pmc (s.teamCtx c.team) 5 n).modCluster (cluOf c.core) fun k =>
    { k with ran := if k.ran.contains c.core then k.ran else c.core :: k.ran }

/-- A command ends with its last cell; else it stays in the queue as it has become. -/
def State.turnEnds (s : State) (cmd : Nat) (d : MCmd) : State :=
  if d.cells.all d.did then s.endMx d else { s with mxq := s.mxq.map fun x => if x.id = cmd then d else x }

/-- Memory, registers and engines are as before. -/
structure SameEngines (s t : State) : Prop where
  memory : SameMemory s t
  regs : SameRegs s t
  core : t.core = s.core

theorem SameEngines.trans {s t u : State} (hst : SameEngines s t) (htu : SameEngines t u) : SameEngines s u :=
  ⟨hst.memory.trans htu.memory, hst.regs.trans htu.regs, htu.core.trans hst.core⟩

theorem countSteps_sameEngines (s : State) (c d : MCmd) : SameEngines s (s.countSteps c d) := by
  unfold State.countSteps
  extract_lets n
  split <;> exact ⟨⟨fun _ => rfl, fun _ _ _ => rfl⟩, fun _ _ => rfl, rfl⟩

theorem turnEnds_sameEngines (s : State) (cmd : Nat) (d : MCmd) : SameEngines s (s.turnEnds cmd d) := by
  unfold State.turnEnds
  split
  · exact ⟨endMx_sameMemory s d, endMx_sameRegs s d, endMx_core s d⟩
  · exact ⟨⟨fun _ => rfl, fun _ _ _ => rfl⟩, fun _ _ => rfl, rfl⟩

/-- MATRIX_COMMAND_EXECUTE of one cell of an MMA that has no command before it. -/
theorem exec_mma_cell {s : State} {c : MCmd} {h : Hints} {fmt : Fmt} {slot sc : Bool} {d a : Opd} {b : SrcB} {cell : Nat} {steps : List Nat}
    (hc : (s.mxq.find? fun x => x.id == c.id) = some c) (hb : s.before c = []) (hi : c.instr = .mma h fmt slot sc d a b)
    (hm : cell ∈ c.cells) :
    let x := s.mxCell [] steps (s.injectRow c) cell
    exec (.matrixCommandExecute c.id ⟨[cell], steps⟩) s = .next ((x.1.countSteps c x.2).turnEnds c.id x.2) := by
  intro x
  have hsel : ([cell].filter fun k => c.cells.contains k) = [cell] := by simpa using hm
  change execMatrixCommandExecute c.id ⟨[cell], steps⟩ s = _
  unfold execMatrixCommandExecute
  simp only [hc, hb, hi, MCmd.tileRead, readsHeld, List.any_nil, List.isEmpty_cons, hsel, List.foldl_cons, List.foldl_nil,
    Bool.false_eq_true, if_false]
  rfl

/-! Commands that handle every cell in one step (R297, R299). -/

/-- A command whose cells have got so far. -/
def MCmd.progress (c : MCmd) (prog : Tab Nat) : MCmd := { c with prog := prog }

@[simp] theorem progress_instr (c : MCmd) (prog : Tab Nat) : (c.progress prog).instr = c.instr := rfl

/-- A command that has finished some cells more. -/
def MCmd.marks (c : MCmd) (l : List Nat) : MCmd := l.foldl MCmd.mark c

theorem marks_eq (c : MCmd) (l : List Nat) : ∃ prog, c.marks l = c.progress prog :=
  List.foldlRecOn (motive := fun e : MCmd => ∃ prog, e = c.progress prog) l _ ⟨c.prog, rfl⟩
    fun e ⟨_, he⟩ k _ => ⟨tput e.prog k e.full, by rw [he]; rfl⟩

theorem did_mark (c : MCmd) (k j : Nat) : (c.mark k).did j = true ↔ j = k ∨ c.did j = true := by
  have hfull : (c.mark k).full = c.full := rfl
  rw [MCmd.did, hfull, MCmd.mark, tget_tput, MCmd.did]
  split <;> simp [*]

theorem did_marks (c : MCmd) (l : List Nat) (j : Nat) : (c.marks l).did j = true ↔ j ∈ l ∨ c.did j = true := by
  induction l generalizing c with
  | nil => simp [MCmd.marks]
  | cons k l ih =>
    rw [MCmd.marks, List.foldl_cons, ← MCmd.marks, ih, did_mark, List.mem_cons]
    tauto

/-- A command that has finished all of its cells is done. -/
theorem all_did_marks (c : MCmd) : (c.marks c.cells).cells.all (c.marks c.cells).did = true := by
  obtain ⟨prog, he⟩ := marks_eq c c.cells
  have hcells : (c.marks c.cells).cells = c.cells := by rw [he]; rfl
  rw [hcells, List.all_eq_true]
  exact fun k hk => (did_marks c c.cells k).mpr (.inl hk)

/-- The step of the engine that handles cells of a command in an order, with no command before it. -/
def State.mxCells (s : State) (c : MCmd) (l : List Nat) : State × MCmd :=
  l.foldl (fun acc k => acc.1.mxCell [] [] acc.2 k) (s, c)

/-- A command whose cells are not done handles each in turn and marks it. -/
theorem mxCells_fresh {c : MCmd} {f : State → Nat → State}
    (hf : ∀ s prog k, (c.progress prog).did k = false →
      s.mxCell [] [] (c.progress prog) k = (f s k, (c.progress prog).mark k))
    (l : List Nat) (hn : l.Nodup) (s : State) (prog : Tab Nat) (hd : ∀ k ∈ l, (c.progress prog).did k = false) :
    s.mxCells (c.progress prog) l = (l.foldl f s, (c.progress prog).marks l) := by
  induction l generalizing s prog with
  | nil => rfl
  | cons k l ih =>
    obtain ⟨hk, hn⟩ := List.nodup_cons.mp hn
    obtain ⟨hdk, hd⟩ := List.forall_mem_cons.mp hd
    have hrest : ∀ j ∈ l, ((c.progress prog).mark k).did j = false := by
      intro j hj
      rw [Bool.eq_false_iff, Ne, did_mark, not_or, hd j hj]
      exact ⟨fun e => hk (e ▸ hj), Bool.false_ne_true⟩
    rw [State.mxCells, List.foldl_cons, hf s prog k hdk]
    exact ih hn (f s k) _ hrest

/-- MZERO, or an MREAD to a vector register. -/
def MCmd.plain (c : MCmd) : Prop := (∃ h d, c.instr = .mzero h d) ∨ ∃ h fmt f32 r a b, c.instr = .mread h fmt f32 (.v r) a b

theorem nodup_tileCells (c : MCmd) : c.tileCells.Nodup := by
  rw [MCmd.tileCells, List.nodup_flatMap]
  refine ⟨fun i _ => List.nodup_range.map fun x y h => Nat.add_left_cancel h, (lanesOf_nodup c.mask).imp fun {i j} hij x hi hj => ?_⟩
  obtain ⟨x, hx, rfl⟩ := List.mem_map.mp hi
  obtain ⟨y, hy, he⟩ := List.mem_map.mp hj
  rw [List.mem_range] at hx hy
  omega

theorem mem_lanesOf {m : Word} {l : Nat} : l ∈ lanesOf m ↔ l < 32 ∧ m.getLsbD l = true := by
  simp [lanesOf, lanes]

theorem mem_tileCells {c : MCmd} {k : Nat} : k ∈ c.tileCells ↔ k < 2048 ∧ c.mask.getLsbD (k / 64) = true := by
  simp only [MCmd.tileCells, MCmd.rows, List.mem_flatMap, List.mem_map, List.mem_range, mem_lanesOf]
  constructor
  · rintro ⟨i, ⟨hi, hm⟩, x, hx, rfl⟩
    rw [show (i * 64 + x) / 64 = i by omega]
    exact ⟨by omega, hm⟩
  · rintro ⟨hk, hm⟩
    exact ⟨k / 64, ⟨by omega, hm⟩, k % 64, by omega, by omega⟩

theorem nodup_cells_of_plain {c : MCmd} (hi : c.plain) : c.cells.Nodup := by
  rcases hi with ⟨h, d, hi⟩ | ⟨h, fmt, f32, r, a, b, hi⟩
  · simpa only [MCmd.cells, hi] using nodup_tileCells c
  · simpa only [MCmd.cells, hi, MCmd.rows] using lanesOf_nodup c.mask

/-- MATRIX_COMMAND_EXECUTE of every cell of such a command that has no command before it. -/
theorem exec_plain {s : State} {c : MCmd} (hc : (s.mxq.find? fun x => x.id == c.id) = some c) (hb : s.before c = []) (hi : c.plain) :
    exec (.matrixCommandExecute c.id ⟨[], []⟩) s = .next ((s.mxCells c c.cells).1.turnEnds c.id (s.mxCells c c.cells).2) := by
  change execMatrixCommandExecute c.id ⟨[], []⟩ s = _
  unfold execMatrixCommandExecute State.mxCells
  rcases hi with ⟨h, d, hi⟩ | ⟨h, fmt, f32, r, a, b, hi⟩ <;>
    simp only [hc, hb, hi, MCmd.tileRead, State.injectRow, List.isEmpty_nil, if_true, Bool.false_eq_true, if_false] <;> rfl

/-- One that is not yet begun handles each of its cells and ends. -/
theorem exec_plain_fresh {s : State} {c : MCmd} {f : State → Nat → State} (hc : (s.mxq.find? fun x => x.id == c.id) = some c)
    (hb : s.before c = []) (hi : c.plain) (hp : c.prog = [])
    (hf : ∀ s prog k, (c.progress prog).did k = false →
      s.mxCell [] [] (c.progress prog) k = (f s k, (c.progress prog).mark k)) :
    exec (.matrixCommandExecute c.id ⟨[], []⟩) s = .next ((c.cells.foldl f s).endMx (c.marks c.cells)) := by
  have hfresh : ∀ k ∈ c.cells, c.did k = false := by
    intro k _
    rcases hi with ⟨h, d, hi⟩ | ⟨h, fmt, f32, r, a, b, hi⟩ <;> simp [MCmd.did, MCmd.full, hp, hi, tget]
  have hcells : s.mxCells c c.cells = (c.cells.foldl f s, c.marks c.cells) :=
    mxCells_fresh hf c.cells (nodup_cells_of_plain hi) s c.prog hfresh
  rw [exec_plain hc hb hi, hcells, State.turnEnds, if_pos (all_did_marks c)]

/-! MZERO (R297). -/

/-- One element of a tile cleared. -/
def State.zeroCell (c : MCmd) (tile : Nat) (s : State) (k : Nat) : State := s.setAcc c tile (k / 64 % 32) (k % 64) 0

theorem mxCell_mzero {c : MCmd} {h : Hints} {d : Opd} (hi : c.instr = .mzero h d) (s : State) (prog : Tab Nat) (k : Nat)
    (hk : (c.progress prog).did k = false) :
    s.mxCell [] [] (c.progress prog) k = (s.zeroCell c (opdIdx d) k, (c.progress prog).mark k) := by
  unfold State.mxCell
  simp only [hk, progress_instr, hi]
  rfl

theorem zeroCells_sameWaves (s : State) (c : MCmd) (tile : Nat) (l : List Nat) : SameWaves s (l.foldl (State.zeroCell c tile) s) :=
  SameWaves.foldl l _ (fun s _ => setAcc_sameWaves s c tile _ _ 0) s

theorem accOf_zeroCells (s : State) (c : MCmd) (tile : Nat) (l : List Nat) (x : Nat) :
    (l.foldl (State.zeroCell c tile) s).accOf c.core x
      = if ∃ k ∈ l, x = accKey tile (k / 64 % 32) (k % 64) then 0 else s.accOf c.core x := by
  induction l generalizing s with
  | nil => simp
  | cons k l ih =>
    rw [List.foldl_cons, ih, State.zeroCell, accOf_setAcc]
    by_cases hk : x = accKey tile (k / 64 % 32) (k % 64)
    · simp [hk]
    · simp [hk]

/-- Clearing the cells of a command clears its rows of the tile, and no other. -/
theorem accOf_zeroTile (s : State) (c : MCmd) (tile : Nat) {row col : Nat} (hr : row < 32) (hc : col < 64) :
    (c.tileCells.foldl (State.zeroCell c tile) s).accOf c.core (accKey tile row col)
      = if c.mask.getLsbD row then 0 else s.accOf c.core (accKey tile row col) := by
  rw [accOf_zeroCells]
  refine if_congr ⟨?_, fun h => ⟨row * 64 + col, mem_tileCells.mpr ⟨by omega, ?_⟩, ?_⟩⟩ rfl rfl
  · rintro ⟨k, hk, he⟩
    obtain ⟨hk, hm⟩ := mem_tileCells.mp hk
    have hrow : k / 64 = row := by unfold accKey at he; omega
    exact hrow ▸ hm
  · rwa [show (row * 64 + col) / 64 = row by omega]
  · unfold accKey; omega

/-! MREAD to a vector register (R299). -/

/-- Of memory, the engines and the waves, two states differ in one wave at most. -/
structure OnlyWave (wid : Nat) (s t : State) : Prop where
  memory : SameMemory s t
  others : OtherWaves wid s t
  core : t.core = s.core

theorem OnlyWave.refl (wid : Nat) (s : State) : OnlyWave wid s s := ⟨⟨fun _ => rfl, fun _ _ _ => rfl⟩, fun _ _ => rfl, rfl⟩

theorem OnlyWave.trans {wid : Nat} {s t u : State} (hst : OnlyWave wid s t) (htu : OnlyWave wid t u) : OnlyWave wid s u :=
  ⟨hst.memory.trans htu.memory, fun k hk => (htu.others k hk).trans (hst.others k hk), htu.core.trans hst.core⟩

theorem onlyWave_endMx (s : State) (c : MCmd) : OnlyWave c.wid s (s.endMx c) :=
  ⟨endMx_sameMemory s c, (endsIn_endMx s c).others, endMx_core s c⟩

/-- Giving up a reference posts a message, or does nothing (R108). -/
theorem dropRef_eq (s : State) (wid seq lane : Nat) (pc : DWord) (op : Option Nat) (l : Lane) :
    ∃ homeq nextId, s.dropRef wid seq lane pc op l = { s with homeq := homeq, nextId := nextId } := by
  unfold State.dropRef
  split
  · exact ⟨_, _, rfl⟩
  · exact ⟨s.homeq, s.nextId, rfl⟩

/-- The engine writes one lane of a vector register (R299). -/
theorem mxLane_spec {s : State} {c : MCmd} {w : Wave} (hw : tfind s.waves c.wid = some w) (r : BitVec 8) (l : Nat) (v : Word) :
    OnlyWave c.wid s (s.mxLane c (.v r) l v)
      ∧ tfind (s.mxLane c (.v r) l v).waves c.wid = some (w.setLane r.toNat l ⟨false, v⟩) := by
  unfold State.mxLane
  simp only [hw]
  obtain ⟨_, _, he⟩ := dropRef_eq (s.setWave c.wid (w.setLane r.toNat l ⟨false, v⟩)) c.wid c.seq l 0 none (w.lane r.toNat l)
  rw [he]
  exact ⟨⟨⟨fun _ => rfl, fun _ _ _ => rfl⟩, fun _ hk => tfind_tput_ne _ _ hk, rfl⟩, tfind_tput_self ..⟩

/-- One lane of a vector register takes the element of its row and the command's column. -/
def State.readLane (c : MCmd) (r : BitVec 8) (tile : Nat) (s : State) (l : Nat) : State :=
  s.mxLane c (.v r) l (s.accAt c tile l c.arg)

theorem mxCell_mread {c : MCmd} {h : Hints} {fmt : Fmt} {f32 : Bool} {r : BitVec 8} {a : Opd} {b : SrcB}
    (hi : c.instr = .mread h fmt f32 (.v r) a b) (s : State) (prog : Tab Nat) (k : Nat)
    (hk : (c.progress prog).did k = false) :
    s.mxCell [] [] (c.progress prog) k = (s.readLane c r (opdIdx a) k, (c.progress prog).mark k) := by
  unfold State.mxCell
  simp only [hk, progress_instr, hi]
  rfl

/-- Reading lanes gives each its element and changes no other lane, no counter, no other wave, no memory and no accumulator. -/
theorem readLanes_spec {s : State} {c : MCmd} {w : Wave} (hw : tfind s.waves c.wid = some w) (r : BitVec 8) (tile : Nat) (ls : List Nat) :
    let t := ls.foldl (State.readLane c r tile) s
    OnlyWave c.wid s t ∧ ∃ v, tfind t.waves c.wid = some v ∧ v.k = w.k
      ∧ ∀ j, v.lane r.toNat j = if j ∈ ls then ⟨false, s.accOf c.core (accKey tile j c.arg)⟩ else w.lane r.toNat j := by
  induction ls generalizing s w with
  | nil => exact ⟨.refl _ s, w, hw, rfl, fun j => by simp⟩
  | cons l ls ih =>
    intro t
    obtain ⟨h1, hw1⟩ := mxLane_spec hw r l (s.accAt c tile l c.arg)
    obtain ⟨h2, v, hv, hk, hl⟩ := ih hw1
    refine ⟨h1.trans h2, v, hv, hk, fun j => ?_⟩
    have hacc : (s.mxLane c (.v r) l (s.accAt c tile l c.arg)).accOf c.core = s.accOf c.core := by
      funext x
      simp only [State.accOf, h1.core]
    have hkey : vKey r.toNat j = vKey r.toNat l ↔ j = l := by unfold vKey; omega
    rw [hl, hacc, Wave.lane_setLane, if_congr hkey rfl rfl]
    by_cases hj : j = l
    · subst hj
      simp [State.accAt, State.accOf]
    · simp [hj]

/-- A plain command ends: it has left the engine, and its wave has its counters lower and its registers as they were. -/
theorem endMx_marks {u : State} {c : MCmd} {w : Wave} (l : List Nat) (hw : tfind u.waves c.wid = some w) :
    (∀ x ∈ (u.endMx (c.marks l)).mxq, x.id ≠ c.id)
      ∧ ∃ v, tfind (u.endMx (c.marks l)).waves c.wid = some v ∧ w.Eased v ∧ CountersFall c.cnt w v := by
  obtain ⟨prog, he⟩ := marks_eq c l
  rw [he]
  exact ⟨endMx_leaves u (c.progress prog), (endsIn_endMx u (c.progress prog)).own w hw⟩

/-- Settles O43: a group of an MMA is one step of its element, and MZERO and MREAD handle their cells and end. -/
theorem engineExecutes : Obligations.EngineExecutes := by
  unfold Obligations.EngineExecutes
  refine ⟨?_, ?_, ?_⟩
  · intro s c h fmt slot sc d a b cell g hc hb hi hm hg hbit j row col hr m k ws key prods
    have hcell := mxCell_injected s hi hg hbit hr
    have hexec := exec_mma_cell (steps := [g]) hc hb hi hm
    generalize s.mxCell [] [g] (s.injectRow c) cell = x at hexec hcell
    have hset : SameWaves s x.1 := by
      rw [hcell]
      exact setAcc_sameWaves ..
    have hacc : ∀ y, x.1.accOf c.core y = if y = key then mxStep (s.accOf c.core key) prods else s.accOf c.core y := by
      rw [hcell]
      exact accOf_setAcc s c (opdIdx d + j) row col (mxStep (s.accOf c.core key) prods)
    obtain ⟨hmem, hregs, hcore⟩ := (countSteps_sameEngines x.1 c x.2).trans (turnEnds_sameEngines _ c.id x.2)
    refine ⟨_, hexec, hset.sameMemory.trans hmem, hset.sameRegs.trans hregs, ?_, fun y hy => ?_⟩ <;> rw [hcore]
    · exact (hacc key).trans (if_pos rfl)
    · exact (hacc y).trans (if_neg hy)
  · intro s c w h d hc hb hi hp hw
    have hcells : c.cells = c.tileCells := by simp only [MCmd.cells, hi]
    have hsame := zeroCells_sameWaves s c (opdIdx d) c.cells
    obtain ⟨hq, v, hv, -, hfall⟩ := endMx_marks (u := c.cells.foldl (State.zeroCell c (opdIdx d)) s) c.cells (hsame.1 ▸ hw)
    refine ⟨_, exec_plain_fresh hc hb (.inl ⟨h, d, hi⟩) hp (mxCell_mzero hi), hsame.sameMemory.trans (endMx_sameMemory ..),
      hsame.sameRegs.trans (endMx_sameRegs _ _), fun row col hrow hcol => ?_, hq, v, hv, hfall⟩
    rw [endMx_core, hcells]
    exact accOf_zeroTile s c (opdIdx d) hrow hcol
  · intro s c w h fmt f32 r a b hc hb hi hp hw
    have hcells : c.cells = lanesOf c.mask := by simp only [MCmd.cells, hi, MCmd.rows]
    obtain ⟨hread, u, hu, hk, hlane⟩ := readLanes_spec hw r (opdIdx a) c.cells
    obtain ⟨hq, v, hv, heased, hfall⟩ := endMx_marks c.cells hu
    obtain ⟨prog, hmarks⟩ := marks_eq c c.cells
    have hend := onlyWave_endMx (c.cells.foldl (State.readLane c r (opdIdx a)) s) (c.marks c.cells)
    rw [show (c.marks c.cells).wid = c.wid by rw [hmarks]; rfl] at hend
    have hall := hread.trans hend
    refine ⟨_, exec_plain_fresh hc hb (.inr ⟨h, fmt, f32, r, a, b, hi⟩) hp (mxCell_mread hi), hall.memory, hall.others, hq, v, hv, ?_, ?_⟩
    · simpa only [CountersFall, Wave.kreg, hk] using hfall
    · intro l hl
      rw [heased.lane, hlane, if_pos (hcells ▸ hl)]
      rfl

end Sys2Proof.Machine
end

section
/-! PROOFS. The life of a context: what refutes its statements. Each refutation stands on a state written out here, which the model takes
where the statement does not: the state, what the model makes of it, and the clause that this contradicts. -/

namespace Sys2Proof.Machine

/-- What a reading of the state gives after a step, if the step answers a state. -/
def observe {α : Type} (r : Result) (f : State → α) : Option α :=
  match r with
  | .next t => some (f t)
  | _ => none

theorem observe_of_next {α : Type} {r : Result} {t : State} (f : State → α) (h : r = .next t) : observe r f = some (f t) := by
  subst h
  rfl

/-- Hints of an instruction that waits for nothing, names no counter and has the guard p7. -/
def plainHints : Hints := ⟨0, 0, 15, false, 7⟩

/-! GRANT of a page in which a run of saved units begins (R46, R55). -/

/-- Frame 0 is to be granted to context 0. A run of saved units holds the last sector of frame 0 and the first one of frame 1, where `b` is
listed beneath it. -/
def runAcross (b : Byte) : State :=
  { State.reset with
    ctxs := [(0, { Ctx.init with st := .keyed, vdarg := BitVec.ofNat 64 (2 ^ 40) })],
    phys := { Phys.init with bytes := [(65536, b)], minor := [(2048, 1)], saved := [(2047, 2, 0)] } }

/-- VDARG names frame 0 alone. -/
theorem vdarg_runAcross (b : Byte) :
    (((runAcross b).ctx 0).vdarg.extractLsb' 0 36).toNat = 0 ∧ (((runAcross b).ctx 0).vdarg.extractLsb' 40 24).toNat = 1 := by
  change ((BitVec.ofNat 64 (2 ^ 40)).extractLsb' 0 36).toNat = 0 ∧ ((BitVec.ofNat 64 (2 ^ 40)).extractLsb' 40 24).toNat = 1
  decide

theorem grantable_runAcross (b : Byte) : (runAcross b).grantable 0 0 1 = true := by
  rfl

/-- Before the GRANT the first byte of frame 1 is one of the run. -/
theorem byte_runAcross (b : Byte) : (runAcross b).phys.byte 65536 = Config.saveByte 32 := by
  rfl

/-- `Phys.wipe` drops the whole run with the frame in which it begins, so that the byte listed beneath it shows. -/
theorem byte_grant_runAcross :
    ∀ b ∈ [(1 : Byte), 2], observe (exec (.grant 0) (runAcross b)) (fun t => t.phys.byte 65536) = some b := by
  decide +kernel

/-- The first byte of frame 1 is no byte of the granted page. -/
theorem cell_runAcross_ne (b : Byte) {pa : Nat} (h : pa / 65536 < 1) : (runAcross b).cell pa ≠ 65536 := by
  have ht : tierOf pa ≠ some 2 := by
    simp only [tierOf]
    rw [if_pos (by omega)]
    decide
  rw [State.cell, if_neg (fun hc => ht hc.1)]
  omega

/-- Refutes O46, at its clause of GRANT, which says that no byte outside the granted pages changes. The clear of a frame drops every run of
saved units that begins in it, here one that ends in the next frame: were the clause true of `runAcross 1` and of `runAcross 2`, one byte of
the run would be both 1 and 2. No save of the model leaves a run that crosses a page, but the statement speaks of every state. -/
theorem not_contextCommands : ¬ Obligations.ContextCommands := by
  unfold Obligations.ContextCommands
  intro h
  have kept : ∀ b ∈ [(1 : Byte), 2], b = Config.saveByte 32 := by
    intro b hb
    obtain ⟨-, -, -, -, -, hgrant, -⟩ := h (runAcross b) 0
    obtain ⟨hfirst, hcount⟩ := vdarg_runAcross b
    simp only [hfirst, hcount] at hgrant
    obtain ⟨t, he, -, -, -, -, hkeep⟩ := (hgrant (.inl rfl)).2 (grantable_runAcross b)
    have hsame : t.phys.byte 65536 = (runAcross b).phys.byte 65536 := hkeep 65536 fun pa _ hpa => cell_runAcross_ne b (by omega)
    have hnow := (observe_of_next (fun t => t.phys.byte 65536) he).symm.trans (byte_grant_runAcross b hb)
    exact (Option.some.inj hnow).symm.trans (hsame.trans (byte_runAcross b))
  exact absurd ((kept 1 (by decide)).trans (kept 2 (by decide)).symm) (by decide)

/-! REPLAY of a wave, another lane of which has failed while it was parked (R148, R319). -/

/-- A load of two lanes: lane 0 waits for the replay, lane 1 has failed meanwhile. -/
def loadFailedTwice : Req :=
  ⟨20, 0, .ld plainHints .w32 (.v 1) (.s 2) (.offset 0), 0, 0x10000, 0, 3,
    [⟨0, 0, 4, 0x20000, .va 0x20000, .untranslated, [], 0, 0⟩, ⟨1, 4, 4, 0x30000, .va 0x30000, .failed 0x30, [], 0, 0⟩], [], none, []⟩

/-- The wave is parked for lane 0 of that load, and its record stands in the queue. -/
def parkFailedTwice : Park := ⟨0x30, 0, 0, 0x10000, 1, 0x20000, some 20, 0, 0, true⟩

/-- The parked wave. -/
def waveFailedTwice : Wave := { firstWave with stat := .parked, park := some parkFailedTwice, reqs := [loadFailedTwice] }

/-- The machine with that wave in slot 0 of core 0. -/
def failedTwice : State := State.reset.withWave.setWave 0 waveFailedTwice

theorem replayTarget_failedTwice : failedTwice.replayTarget 0 = some (0, waveFailedTwice, parkFailedTwice) := by
  decide +kernel

/-- A replay of ACTION 0 that names a parked wave of its context lets the wave go on. -/
theorem exec_replayWave {s : State} {n wid : Nat} {v : BitVec 64} {w : Wave} {p : Park} (ha : replayAction v = 0)
    (ht : s.replayTarget v = some (wid, w, p)) (hn : w.ctx = n) :
    exec (.replayWave n v) s = .next ((s.replayStat n 0).replayParked wid) := by
  change execReplayWave n v s = _
  simp [execReplayWave, State.replay, ha, ht, hn]

/-- The wave that goes on is the parked one, unparked: what has failed meanwhile is to be translated again. -/
theorem tfind_replayParked {s : State} {n wid : Nat} {w : Wave} (x : Word) (hw : tfind s.waves wid = some w) :
    tfind ((s.replayStat n x).replayParked wid).waves wid = some w.unpark := by
  simp [State.replayParked, State.replayStat, State.modWave, hw]

/-- Refutes O49, at its clause of REPLAY with ACTION 0, which says that the wave is READY, parked no longer, and otherwise as it was. A lane
that has failed while the wave was parked for another one is translated again after the replay (`Req.retry`), so a request of the wave
changes too. -/
theorem not_faultsAndInvalidations : ¬ Obligations.FaultsAndInvalidations := by
  unfold Obligations.FaultsAndInvalidations
  intro h
  obtain ⟨-, -, -, hreplay, -⟩ := h
  have hw : tfind failedTwice.waves 0 = some waveFailedTwice := tfind_tput_self ..
  obtain ⟨-, htarget⟩ := hreplay failedTwice 0 0 0 waveFailedTwice parkFailedTwice
  obtain ⟨hready, -, -⟩ := htarget replayTarget_failedTwice rfl hw
  obtain ⟨t, he, -, -, -, -, ht⟩ := hready (by decide)
  cases (exec_replayWave (n := 0) (by decide) replayTarget_failedTwice rfl).symm.trans he
  have hunparked := Option.some.inj ((tfind_replayParked 0 hw).symm.trans ht)
  exact absurd (congrArg Wave.reqs hunparked) (by decide)

/-! An expander returns poison for a page table (R47, R148, R182). -/

/-- Lane 0 of a load, still to be translated. -/
def laneUntranslated : Piece := ⟨0, 0, 4, 0x10000, .va 0x10000, .untranslated, [], 0, 0⟩

/-- The load of that lane. -/
def loadUntranslated : Req :=
  ⟨20, 0, .ld plainHints .w32 (.v 1) (.s 2) (.offset 0), 0, 0x10000, 0, 1, [laneUntranslated], [], none, []⟩

/-- The wave of that load. -/
def waveUntranslated : Wave := { firstWave with reqs := [loadUntranslated] }

/-- The machine with that wave, whose page table stands in an expander unit behind CXL slot 0; the expander's port is UP. -/
def tableInExpander : State :=
  let s := (State.reset.withWave.setWave 0 waveUntranslated).modCtx 0 fun c => { c with ptroot := 0x100000000000 }
  { s with phys := { s.phys with grants := (2 ^ 28, 1, 0) :: s.phys.grants },
           link := { s.link with cxlmap := [(0, 2 ^ 62)], ports := [(32, ⟨true, 0, 2, 0, 0, false, 1⟩)] } }

theorem standing_tableInExpander : Standing tableInExpander 0 waveUntranslated loadUntranslated := by
  unfold Standing
  decide +kernel

theorem awaits_tableInExpander :
    (loadUntranslated.pieces.filter fun p => waveUntranslated.awaits loadUntranslated.id p 2048).head? = some laneUntranslated := by
  decide +kernel

theorem readSite_tableInExpander : tableInExpander.readSite (.load 0 loadUntranslated.id 2048) = some 0x100000000000 := by
  decide +kernel

theorem canFail_tableInExpander : tableInExpander.canFail (tableInExpander.place 0x100000000000) .expander = true := by
  decide +kernel

/-- The wave parks with the cause of a table that cannot be read (R148). -/
theorem parkCause_tableInExpander :
    observe (exec (.integrityReread (.load 0 loadUntranslated.id 2048) .expander true) tableInExpander)
      (fun t => (tfind t.waves 0).bind fun w => w.park.map (·.cause)) = some (some 0x42) := by
  decide +kernel

/-- Refutes O51, at its clause of a load whose second read fails, which names cause 0x77 for every sector that an expander returns poisoned.
The sector that a lane still to be translated reads is an entry of its page table, and a table that cannot be read is cause 0x42 whatever
kept it from being read (R47, R148). -/
theorem not_storageErrors : ¬ Obligations.StorageErrors := by
  unfold Obligations.StorageErrors
  intro h
  obtain ⟨-, -, hload, -⟩ := h
  obtain ⟨t, he, -, -, -, v, k, hv, -, hpark, -, -, -, hcause⟩ :=
    hload tableInExpander 0 waveUntranslated loadUntranslated 2048 .expander laneUntranslated 0x100000000000 standing_tableInExpander rfl rfl
      rfl rfl readSite_tableInExpander canFail_tableInExpander awaits_tableInExpander
  have hnow := parkCause_tableInExpander
  rw [observe_of_next _ he] at hnow
  simp only [hv, Option.bind_some, hpark, Option.map_some, hcause] at hnow
  exact absurd hnow (by decide)

/-! A team that migrates with a demoted LDX of its handler, whose page is mapped no longer (R96, R98, R111, R313). -/

/-- An LDX of one lane that took no slot under demote mode: the lane is posted, and its value is to come back. -/
def ldxDemoted : Req :=
  ⟨20, 0, .ldx plainHints (.v 1) (.s 2) (.offset 0), 0, 0x10000, 0, 1, [⟨0, 0, 4, 0x20000, .va 0x20000, .remote, [], 0, 0⟩], [], none, []⟩

/-- The wave of that LDX, HALTED in its trap handler. -/
def waveInHandler : Wave := { firstWave with stat := .halted, handler := some ⟨0, 0xFFFFFFFF, 0⟩, reqs := [ldxDemoted] }

/-- The team of that wave, stopped on core 0 to move to core 2. -/
def migrant : Team :=
  ⟨1, 0, 0, 0, [0], [], 0, 0, 0, [], [], [], 0, [], true, true, [], none, [], Kept.init, (0, 0), [], some 2⟩

/-- Its grid, as `State.withWave` has it. -/
def migrantGrid : Grid :=
  ⟨0, 1, leBytes 64 (2 ^ 128 + 2 ^ 144 + 2 ^ 160 + 2 ^ 176), .node 0 0, .running, false, some ⟨0, 0, 65536, 0, 0, []⟩, [], 0, 1, 1, [], [],
    false, []⟩

/-- The machine with them. The message of the LDX stands at its home; no page is mapped at its address 0x2_0000. -/
def migrating : State :=
  let s := (State.reset.withWave.setWave 0 waveInHandler).setTeam 1 migrant
  { s with homeq := [⟨30, 0, 0, 0, 0, 0, 0x10000, .fill [(4, 0x20000, 0)] 0x20000 none, some 20, 1, none, 0, []⟩] }

theorem tfind_migrating : tfind migrating.teams 1 = some migrant ∧ migrating.gridOf 1 = some migrantGrid := by
  decide +kernel

theorem teamDrained_migrating : migrating.teamDrained 1 migrant = true := by
  decide +kernel

/-- A team of one wave takes one of the free slots of its core. -/
theorem placeSlots_one {s : State} {core : Nat} (h : s.freeWaveSlots core ≠ []) : ∃ k < 96, s.placeSlots core 1 = [k] := by
  let sorted := (s.freeWaveSlots core).mergeSort fun a b =>
    decide (Config.pick (s.fresh + 96 * core + a) ≤ Config.pick (s.fresh + 96 * core + b))
  have hperm : sorted.Perm (s.freeWaveSlots core) := List.mergeSort_perm ..
  obtain ⟨k, l, hl⟩ := List.exists_cons_of_ne_nil fun hn : sorted = [] => h (hperm.symm.trans (.of_eq hn)).eq_nil
  have hk : k ∈ s.freeWaveSlots core := hperm.subset (hl ▸ List.mem_cons_self)
  exact ⟨k, List.mem_range.mp (List.mem_of_mem_filter hk), congrArg (List.take 1) hl⟩

/-- Core 2 has room for the team. -/
theorem migrationPlace_migrating :
    migrating.migrationPlace 1 migrant migrantGrid 2 = some ⟨2, 0, migrating.placeSlots 2 1, 0⟩ := by
  have hrun : freeRun coreBytes migrantGrid.score (migrating.coreRuns 2) = some 0 := by decide +kernel
  have hpos : migrating.tenantPos 2 migrantGrid.ctx = some 0 := by decide +kernel
  have hone : migrantGrid.waves = 1 := by decide +kernel
  simp only [State.migrationPlace, hrun, hpos, hone]
  exact if_pos (by decide +kernel)

/-- A drained team that may move is saved, and stands again at its new place. -/
theorem exec_teamMigration_drained {s : State} {k c : Nat} {x : Team} {g : Grid} {p : Place} (hx : tfind s.teams k = some x)
    (hg : s.gridOf k = some g) (hp : s.migrationPlace k x g c = some p) (hr : x.resident = true) (hs : x.stopped = true)
    (hc : x.goal = some c) (hd : s.teamDrained k x = true) :
    let moved := (s.saveTeam k .move).restoreSaved k p.core p.base p.slots p.pos
    let t := (moved.modCore x.core fun y => { y with fwd := y.fwd ++ [(k, x.base)] }).returnPools x.core
    exec (.teamMigration k c) s = .next { t with fresh := t.fresh + 96 * 192 } := by
  change execTeamMigration k c s = _
  simp only [execTeamMigration, hx, hg, hp, hr, hs, hc, hd, Bool.not_true, Bool.false_eq_true, if_false, ne_eq, not_true, or_self]

theorem teams_teamMigration {s : State} {k c : Nat} {x : Team} {g : Grid} {p : Place} (hx : tfind s.teams k = some x)
    (hg : s.gridOf k = some g) (hp : s.migrationPlace k x g c = some p) (hr : x.resident = true) (hs : x.stopped = true)
    (hc : x.goal = some c) (hd : s.teamDrained k x = true) :
    ∃ t, exec (.teamMigration k c) s = .next t
      ∧ t.teams = ((s.saveTeam k .move).restoreSaved k p.core p.base p.slots p.pos).teams :=
  ⟨_, exec_teamMigration_drained hx hg hp hr hs hc hd, rfl⟩

/-- In whichever slot it stands again, its wave takes the trap of the LDX in its handler: the grid drains, and the team is stopped. -/
theorem restored_migrant_stopped :
    ∀ k < 96, (tfind ((migrating.saveTeam 1 .move).restoreSaved 1 2 0 [k] 0).teams 1).any (·.stopped) = true := by
  decide +kernel

/-- Refutes O48, at its clause of a drained team that migrates, which says that it goes on where it stands again. The message of an LDX is
translated afresh there, and its page may be mapped no longer. Under demote mode the LDX then traps (R111); in the handler that trap is
unrecovered (R313), the grid drains, and the team stands stopped on its new core. -/
theorem not_teamsArePlaced : ¬ Obligations.TeamsArePlaced := by
  unfold Obligations.TeamsArePlaced
  intro h
  obtain ⟨-, -, -, hmigrate, -⟩ := h
  obtain ⟨hx, hg⟩ := tfind_migrating
  obtain ⟨-, hmoves⟩ := hmigrate migrating 1 migrant migrantGrid 2 _ hx hg migrationPlace_migrating rfl
  obtain ⟨t, he, -, y, hy, -, -, -, -, hruns⟩ := hmoves rfl rfl teamDrained_migrating
  obtain ⟨u, hu, hteams⟩ := teams_teamMigration hx hg migrationPlace_migrating rfl rfl rfl teamDrained_migrating
  obtain rfl : u = t := Host.Outcome.next.inj (hu.symm.trans he)
  dsimp only at hteams
  obtain ⟨k, hk, hslots⟩ := placeSlots_one (s := migrating) (core := 2) (by decide +kernel)
  have hstopped := restored_migrant_stopped k hk
  rw [← hslots, ← hteams, hy, Option.any_some, hruns] at hstopped
  exact Bool.false_ne_true hstopped

end Sys2Proof.Machine
end

section
/-! PROOFS. WOPEN, WCLOSE and TLBINV (R49, R51, R54, R309, R310), and the one clause of their statement that the model leaves open: which
draw the key of a new window is. The marking of the window's pages writes their page-table entries, and a write under a counter that is
about to wrap renews every key of the context (R45), the new window's among them. The key is then a later draw of `Config.randomKey`, of
which the model says nothing: the statement holds if all draws are equal, and it makes two certain draws equal. -/

namespace Sys2Proof.Machine

set_option Elab.async false

/-! The keys under writes of memory. -/

theorem keys_cut (p : Phys) (k : Nat) : (p.cut k).keys = p.keys := by unfold Phys.cut; split <;> rfl

theorem keys_thaw (p : Phys) (k : Nat) : (p.thaw k).keys = p.keys := by
  unfold Phys.thaw
  split
  · exact keys_cut p k
  · rfl

theorem keys_settle (p : Phys) (k : Nat) : (p.settle k).keys = p.keys := by
  unfold Phys.settle
  split
  · exact keys_cut p k
  · rfl

theorem keys_settles (l : List Nat) (p : Phys) : (l.foldl Phys.settle p).keys = p.keys := by
  induction l generalizing p with
  | nil => rfl
  | cons k l ih => exact (ih _).trans (keys_settle p k)

theorem keys_bumpNodes (p : Phys) (n leaf : Nat) : (p.bumpNodes n leaf).keys = p.keys := by simp only [Phys.bumpNodes, Phys.bumpNodesBy]

theorem keys_countWrite (p : Phys) (n k : Nat) : (p.countWrite n k).keys = p.keys := by
  unfold Phys.countWrite
  simp only [keys_bumpNodes]
  split
  · simp only [keys_settles, keys_settle]
  · simp only [keys_settle]

theorem keys_writeBytes (p : Phys) (n k : Nat) (bs : List (Nat × Byte)) : (p.writeBytes n k bs).keys = p.keys := by
  simp only [Phys.writeBytes, keys_countWrite, keys_thaw]

theorem keys_seal (s : State) (pa key : Nat) : (s.seal pa key).phys.keys = s.phys.keys := by
  unfold State.seal State.setSeal
  split
  · rfl
  · dsimp only
    split <;> rfl

/-- A write of a sector changes keys by the renewal before it alone (R45). -/
theorem keys_sectorWrite (s : State) (sector key : Nat) (bs : List (Nat × Byte)) :
    (s.sectorWrite sector key bs).phys.keys
      = (s.renewed (s.ownerCtx (s.place (sector * 32))) (s.spot (sector * 32) / 32 / 64)).phys.keys := by
  unfold State.sectorWrite
  extract_lets pa sec n t fresh_ u p
  have hu : u.phys.keys = t.phys.keys := by
    simp only [u]
    split
    · exact keys_seal t pa key
    · rfl
  have hpoison (p : Phys) : (if bs.length = 32 then { p with poison := p.poison.filter (· != sec) } else p).keys = p.keys := by
    split <;> rfl
  dsimp only
  rw [hpoison, keys_writeBytes, hu]

theorem keys_account (s : State) (n pa since : Nat) (isWrite : Bool) : (s.account n pa since isWrite).phys.keys = s.phys.keys := by
  obtain ⟨_, _, _, _, h, -⟩ := accounted_account s n pa since isWrite
  rw [h]

/-- A key is as it was, or some draw. -/
def Redrawn (k : Nat) (s t : State) : Prop :=
  tget 0 t.phys.keys k = tget 0 s.phys.keys k ∨ ∃ i, tget 0 t.phys.keys k = Config.randomKey i

theorem tget_foldl_draws (slot : Nat → Nat) (draw : Nat → BitVec 256) (l : List Nat) (m : Tab (BitVec 256)) (k : Nat) :
    tget 0 (l.foldl (fun m i => tset 0 m (slot i) (draw i)) m) k = tget 0 m k
      ∨ ∃ i, tget 0 (l.foldl (fun m i => tset 0 m (slot i) (draw i)) m) k = draw i := by
  induction l generalizing m with
  | nil => exact .inl rfl
  | cons i l ih =>
    rcases ih (tset 0 m (slot i) (draw i)) with h | h
    · rw [List.foldl_cons, h, tget_tset]
      split
      · exact .inr ⟨i, rfl⟩
      · exact .inl rfl
    · exact .inr h

theorem redrawn_renewed (s : State) (n leaf k : Nat) : Redrawn k s (s.renewed n leaf) := by
  unfold State.renewed
  split
  · let slots := n :: (s.ownWindows n).map (63 + ·)
    exact (tget_foldl_draws (slots.getD · 0) (fun i => Config.randomKey (s.fresh + i)) (List.range slots.length) s.phys.keys k).imp_right
      fun ⟨_, h⟩ => ⟨_, h⟩
  · exact .inl rfl

/-- A renewal draws a key for the context, and then one for its only window. -/
theorem key_renewed {s : State} {n leaf w : Nat} (hr : s.phys.mustRenew n leaf = true) (ho : s.ownWindows n = [w]) :
    tget 0 (s.renewed n leaf).phys.keys (63 + w) = Config.randomKey (s.fresh + 1) := by
  unfold State.renewed
  rw [if_pos hr]
  unfold State.renewKeys
  simp only [ho]
  exact tget_tset_self ..

/-! The marking of a window's pages. -/

/-- Window `w` stands as before but for the frames noted in it, the other windows and the waves stand as before, and the window's key is as
it was or drawn anew. -/
structure OnlyMarks (w : Nat) (s t : State) : Prop where
  waves : t.waves = s.waves
  others : ∀ j, j ≠ w → t.window j = s.window j
  marks : ∃ m, t.window w = { s.window w with marked := m }
  key : Redrawn (63 + w) s t

section
variable {w : Nat} {s t u : State}

theorem OnlyMarks.refl (w : Nat) (s : State) : OnlyMarks w s s := ⟨rfl, fun _ _ => rfl, ⟨_, rfl⟩, .inl rfl⟩

theorem OnlyMarks.trans (h : OnlyMarks w s t) (h' : OnlyMarks w t u) : OnlyMarks w s u := by
  obtain ⟨m, hm⟩ := h.marks
  obtain ⟨m', hm'⟩ := h'.marks
  refine ⟨h'.waves.trans h.waves, fun j hj => (h'.others j hj).trans (h.others j hj), ⟨m', by rw [hm', hm]⟩, ?_⟩
  rcases h'.key with hk | hk
  · exact h.key.imp hk.trans fun ⟨i, hi⟩ => ⟨i, hk.trans hi⟩
  · exact .inr hk

theorem OnlyMarks.of_written (h : Written s t) (hk : Redrawn (63 + w) s t) : OnlyMarks w s t := by
  obtain ⟨_, _, _, rfl⟩ := h
  exact ⟨rfl, fun _ _ => rfl, ⟨_, rfl⟩, hk⟩

theorem OnlyMarks.of_accounted (h : Accounted s t) : OnlyMarks w s t := by
  obtain ⟨_, _, _, _, rfl, _⟩ := h
  exact ⟨rfl, fun _ _ => rfl, ⟨_, rfl⟩, .inl rfl⟩

theorem OnlyMarks.foldl {β : Type} {f : State → β → State} (hf : ∀ s b, OnlyMarks w s (f s b)) (l : List β) (s : State) :
    OnlyMarks w s (l.foldl f s) := by
  induction l generalizing s with
  | nil => exact .refl w s
  | cons b l ih => exact (hf s b).trans (ih _)

end

theorem onlyMarks_sectorWrite (w : Nat) (s : State) (sector key : Nat) (bs : List (Nat × Byte)) :
    OnlyMarks w s (s.sectorWrite sector key bs) := by
  refine .of_written (written_sectorWrite s sector key bs) ?_
  unfold Redrawn
  rw [keys_sectorWrite]
  exact redrawn_renewed ..

theorem onlyMarks_pteWrite (w : Nat) (s : State) (n pa : Nat) (e : DWord) : OnlyMarks w s (s.pteWrite n pa e) :=
  (OnlyMarks.foldl (fun _ _ => onlyMarks_sectorWrite ..) _ _).trans (.of_accounted (accounted_account ..))

theorem onlyMarks_modWindow (w : Nat) (s : State) (f : Nat) :
    OnlyMarks w s (s.modWindow w fun x => { x with marked := f :: x.marked }) := by
  refine ⟨rfl, fun j hj => ?_, ⟨f :: (s.window w).marked, ?_⟩, .inl rfl⟩
  · rw [State.modWindow, State.window_setWindow, if_neg hj]
  · rw [State.modWindow, State.window_setWindow, if_pos rfl]

theorem onlyMarks_markWindow (w n ctx : Nat) (s : State) (vpn : Nat) : OnlyMarks w s (s.markWindow ctx w n vpn) := by
  induction n generalizing s vpn with
  | zero => exact .refl w s
  | succ n ih =>
    unfold State.markWindow
    extract_lets va
    refine .trans ?_ (ih _ _)
    split
    · exact .refl w s
    · have hw : OnlyMarks w s (s.walked ctx va) := .of_accounted (accounted_walked s ctx va)
      extract_lets e
      split
      · exact hw
      · exact (hw.trans (onlyMarks_pteWrite ..)).trans (onlyMarks_modWindow ..)

/-! What an instruction that leaves a release leaves alone. -/

theorem raise_newest (w : Wave) (ks : List Nat) (x : Target) : (w.raise ks).newest x = w.newest x := by
  cases x <;> simp [Wave.newest, Wave.pending, Wave.stored, Wave.lane]

theorem rels_newest (w : Wave) (l : List Rel) (x : Target) : ({ w with rels := l } : Wave).newest x = w.newest x := by cases x <;> rfl

theorem pending_dropTargets (w : Wave) {ts : List Target} {x : Target} (hx : x ∈ ts) :
    ({ w with pend := dropTargets ts w.pend } : Wave).pending x = [] := by
  simp only [Wave.pending, dropTargets, List.flatMap_map, List.filter_filter]
  refine List.flatMap_eq_nil_iff.mpr fun p _ => ?_
  simp only [List.map_eq_nil_iff, List.filter_eq_nil_iff, decide_eq_true_eq, Bool.and_eq_true, Bool.not_eq_true', List.contains_eq_mem]
  rintro e _ ⟨rfl, h⟩
  simp [hx] at h

theorem storeNow_newest (w : Wave) (r : Nat) (x : Word) : (w.storeNow [(.s r, x.toNat)]).newest (.s r) = x.toNat := by
  have hp : (w.storeNow [(.s r, x.toNat)]).pending (.s r) = [] := pending_dropTargets w (List.mem_singleton_self _)
  rw [Wave.newest, hp]
  simp [Wave.storeNow, Wave.store, Wave.stored]

theorem modWave_frame (s : State) (k : Nat) (f : Wave → Wave) :
    (s.modWave k f).windows = s.windows ∧ (s.modWave k f).phys = s.phys ∧ (s.modWave k f).spCore = s.spCore
      ∧ (s.modWave k f).spClu = s.spClu ∧ (s.modWave k f).spDie = s.spDie := by
  unfold State.modWave
  split <;> exact ⟨rfl, rfl, rfl, rfl, rfl⟩

/-- The instruction raises its counters and leaves a release that goes on to `cont`. -/
def State.released (s : State) (q : Iss) (scope : Scope) (cont : Cont) : State :=
  (s.raiseCnt q q.cnt).addRel q.wid scope q.seq [] cont q.split q.pc q.word q.part

theorem released_frame (s : State) (q : Iss) (scope : Scope) (cont : Cont) :
    (s.released q scope cont).windows = s.windows ∧ (s.released q scope cont).phys = s.phys
      ∧ (s.released q scope cont).spCore = s.spCore ∧ (s.released q scope cont).spClu = s.spClu
      ∧ (s.released q scope cont).spDie = s.spDie := by
  simp only [State.released, State.addRel, State.raiseCnt]
  split <;> simp only [modWave_frame, and_self]

theorem tfind_released_ne (s : State) {q : Iss} (scope : Scope) (cont : Cont) {k : Nat} (hk : k ≠ q.wid) :
    tfind (s.released q scope cont).waves k = tfind s.waves k := by
  simp only [State.released, State.addRel, State.raiseCnt]
  split <;> simp only [tfind_modWave_ne _ _ hk]

theorem tfind_released {s : State} {q : Iss} {scope : Scope} (cont : Cont) {v : Wave} (hs : scope ≠ .wave)
    (hv : tfind s.waves q.wid = some v) :
    ∃ r, tfind (s.released q scope cont).waves q.wid = some { v.raise q.cnt with rels := (v.raise q.cnt).rels ++ [r] }
      ∧ r.seq = q.seq ∧ r.scope = scope ∧ r.cont = cont := by
  simp only [State.released, State.addRel, State.raiseCnt, if_neg hs, tfind_modWave_self, hv, Option.map_some]
  exact ⟨_, rfl, rfl, rfl, rfl⟩

theorem releasing_released {s : State} {q : Iss} {scope : Scope} {cont : Cont} {v : Wave} (hs : scope ≠ .wave)
    (hv : tfind s.waves q.wid = some v) : Releasing q scope (fun c => c = cont) (s.released q scope cont) := by
  obtain ⟨r, hr, hseq, hscope, hcont⟩ := tfind_released cont hs hv
  exact ⟨_, r, hr, List.mem_append_right _ (List.mem_singleton_self r), hseq, hscope, hcont⟩

theorem window_released (s : State) (q : Iss) (scope : Scope) (cont : Cont) (j : Nat) : (s.released q scope cont).window j = s.window j := by
  simp only [State.window, released_frame]

theorem newest_released {s : State} {q : Iss} {scope : Scope} (cont : Cont) {v : Wave} (hs : scope ≠ .wave)
    (hv : tfind s.waves q.wid = some v) (x : Target) : (s.released q scope cont).newest q.wid x = v.newest x := by
  obtain ⟨r, hr, -⟩ := tfind_released cont hs hv
  rw [State.newest, hr]
  exact (rels_newest ..).trans (raise_newest ..)

theorem wave_issued (s : State) (i : Instr) (q : Iss) : tfind (s.issued i q).waves q.wid = some (issuedWave q) :=
  (tfind_issued s i q q.wid).trans (if_pos rfl)

theorem window_issued (s : State) (i : Instr) (q : Iss) (j : Nat) : (s.issued i q).window j = s.window j := by
  simp only [State.window, issued_frame]

/-- With its release left, an instruction that has changed no wave and no memory has changed no register either. -/
theorem quiet_released {s m : State} {i : Instr} {q : Iss} {h : Hints} (hi : Issues i h s q) (hwaves : m.waves = (s.issued i q).waves)
    (hmem : m.phys = s.phys ∧ m.spCore = s.spCore ∧ m.spClu = s.spClu ∧ m.spDie = s.spDie) {scope : Scope} (hs : scope ≠ .wave)
    (cont : Cont) : Quiet q s (m.released q scope cont) := by
  obtain ⟨hw, -⟩ := sight_some hi.1
  obtain ⟨hphys, hcore, hclu, hdie⟩ := hmem
  obtain ⟨-, hphys', hcore', hclu', hdie'⟩ := released_frame m q scope cont
  refine ⟨⟨fun pa => ?_, fun lvl unit off => ?_⟩, fun k hk => ?_, fun x => ?_⟩
  · rw [hphys', hphys]
  · simp only [State.spByte, hcore', hclu', hdie', hcore, hclu, hdie]
  · rw [tfind_released_ne _ _ _ hk, hwaves, tfind_issued, if_neg hk]
  · rw [newest_released cont hs ((congrArg (tfind · q.wid) hwaves).trans (wave_issued s i q)), issuedWave_newest, State.newest, hw]

theorem issued_memory (s : State) (i : Instr) (q : Iss) :
    (s.issued i q).phys = s.phys ∧ (s.issued i q).spCore = s.spCore ∧ (s.issued i q).spClu = s.spClu
      ∧ (s.issued i q).spDie = s.spDie := by
  obtain ⟨hphys, hcore, hclu, hdie, -⟩ := issued_frame s i q
  exact ⟨hphys, hcore, hclu, hdie⟩

/-! WOPEN. -/

/-- A window is taken, and a key is drawn for it. -/
def State.claimed (s : State) (w : Nat) (x : Window) : State :=
  let t := s.setWindow w x
  { t with phys := { t.phys with keys := tset 0 t.phys.keys (63 + w) (Config.randomKey t.fresh) }, fresh := t.fresh + 1 }

theorem window_claimed (s : State) (w : Nat) (x : Window) (j : Nat) : (s.claimed w x).window j = if j = w then x else s.window j :=
  State.window_setWindow s w x j

theorem key_claimed (s : State) (w : Nat) (x : Window) : tget 0 (s.claimed w x).phys.keys (63 + w) = Config.randomKey s.fresh :=
  tget_tset_self ..

/-- The window that an accepted WOPEN takes. -/
def windowTaken (q : Iss) (a : Opd) (b : SrcB) : Window :=
  ⟨.opening, q.w.ctx, ((q.uniB b).extractLsb' 24 6).toNat, (q.uniB b).getLsbD 31, ((q.uniB b).extractLsb' 0 24).toNat,
    (q.uni64 a).toNat / 65536, 0, none, [], some (q.wid, q.cnt), [], []⟩

/-- The window is taken, and its pages are marked. -/
def State.wopenMarked (u : State) (q : Iss) (a : Opd) (b : SrcB) (w : Nat) : State :=
  (u.claimed w (windowTaken q a b)).markWindow q.w.ctx w ((q.uniB b).extractLsb' 0 24).toNat ((q.uni64 a).toNat / 65536)

/-- An accepted WOPEN has done its work. -/
def State.wopenDone (u : State) (q : Iss) (d a : Opd) (b : SrcB) (w : Nat) : State :=
  ((u.wopenMarked q a b w).writeS q d [BitVec.ofNat 32 w]).released q .dev (.wopen w)

theorem wopenBody_accepted {u : State} {q : Iss} {d a : Opd} {b : SrcB} {w : Nat} (halign : (q.uni64 a).extractLsb' 0 16 = 0)
    (hspace : (q.uni64 a).extractLsb' 56 8 = 0) (hn : ((q.uniB b).extractLsb' 0 24).toNat ≠ 0) (h30 : (q.uniB b).getLsbD 30 = false)
    (hself : ((q.uniB b).extractLsb' 24 6).toNat ≠ q.w.ctx) (hst : (u.ctx ((q.uniB b).extractLsb' 24 6).toNat).st ≠ .free)
    (hrange : u.windowRange q.w.ctx ((q.uniB b).extractLsb' 0 24).toNat ((q.uni64 a).toNat / 65536) = true)
    (hw : ((List.range 193).drop 1).find? (fun w => (u.window w).st == .closed) = some w) :
    wopenBody d a b q u = .done (u.wopenDone q d a b w) := by
  unfold wopenBody
  extract_lets base v importer n vpn me
  have hok : (base.extractLsb' 0 16 != 0 || base.extractLsb' 56 8 != 0 || n = 0 || v.getLsbD 30 || importer = me
      || (u.ctx importer).st == .free || !u.windowRange me n vpn) = false := by
    have h1 : (base.extractLsb' 0 16 != 0) = false := bne_eq_false_iff_eq.mpr halign
    have h2 : (base.extractLsb' 56 8 != 0) = false := bne_eq_false_iff_eq.mpr hspace
    have h3 : decide (n = 0) = false := decide_eq_false hn
    have h5 : decide (importer = me) = false := decide_eq_false hself
    have h6 : ((u.ctx importer).st == .free) = false := beq_eq_false_iff_ne.mpr hst
    have h7 : u.windowRange me n vpn = true := hrange
    rw [h1, h2, h3, h30, h5, h6, h7]
    rfl
  rw [if_neg (ne_true_of_eq_false hok)]
  simp only [hw]
  unfold State.wopenDone State.wopenMarked State.claimed windowTaken State.released
  rfl

theorem exec_wopen (h : Hints) (d a : Opd) (b : SrcB) (s : State) :
    exec (.wopen h d a b) s = runInstr (.wopen h d a b) h (wopenBody d a b) s := rfl

theorem exec_wopen_accepted {s : State} {q : Iss} {h : Hints} {d a : Opd} {b : SrcB} {w : Nat} (hi : Issues (.wopen h d a b) h s q)
    (hb : wopenBody d a b q (s.issued (.wopen h d a b) q) = .done ((s.issued (.wopen h d a b) q).wopenDone q d a b w)) :
    exec (.wopen h d a b) s = .next ((s.issued (.wopen h d a b) q).wopenDone q d a b w) :=
  (exec_wopen h d a b s).trans (runInstr_done hi hb)

theorem onlyMarks_wopenMarked (u : State) (q : Iss) (a : Opd) (b : SrcB) (w : Nat) :
    OnlyMarks w (u.claimed w (windowTaken q a b)) (u.wopenMarked q a b w) := onlyMarks_markWindow ..

theorem window_wopenDone (u : State) (q : Iss) (d a : Opd) (b : SrcB) (w j : Nat) :
    (u.wopenDone q d a b w).window j = (u.wopenMarked q a b w).window j := by
  rw [State.wopenDone, window_released]
  simp only [State.window, State.writeS, modWave_frame]

theorem phys_wopenDone (u : State) (q : Iss) (d a : Opd) (b : SrcB) (w : Nat) :
    (u.wopenDone q d a b w).phys = (u.wopenMarked q a b w).phys := by
  simp only [State.wopenDone, released_frame, State.writeS, modWave_frame]

/-- What an accepted WOPEN does; of the key, that it is some draw. -/
theorem wopenDone_spec {u : State} {q : Iss} (d a : Opd) (b : SrcB) {w : Nat} {v : Wave} (hv : tfind u.waves q.wid = some v) (hw : w < 193) :
    (∀ r, d = .s r → (u.wopenDone q d a b w).newest q.wid (.s r.toNat) = w)
      ∧ (∃ m, (u.wopenDone q d a b w).window w = { windowTaken q a b with marked := m })
      ∧ (∃ k, tget 0 (u.wopenDone q d a b w).phys.keys (63 + w) = Config.randomKey k)
      ∧ (∀ j, j ≠ w → (u.wopenDone q d a b w).window j = u.window j)
      ∧ Releasing q .dev (fun c => c = .wopen w) (u.wopenDone q d a b w) := by
  have hm := onlyMarks_wopenMarked u q a b w
  have hdev : Scope.dev ≠ Scope.wave := by decide
  have hwave : tfind ((u.wopenMarked q a b w).writeS q d [BitVec.ofNat 32 w]).waves q.wid
      = some (v.storeNow (sTargets d [BitVec.ofNat 32 w])) := by
    have hu : (u.claimed w (windowTaken q a b)).waves = u.waves := rfl
    simp only [State.writeS, tfind_modWave_self, hm.waves, hu, hv, Option.map_some]
  refine ⟨?_, ?_, ?_, fun j hj => ?_, releasing_released hdev hwave⟩
  · rintro r rfl
    refine (newest_released (.wopen w) hdev hwave _).trans ((storeNow_newest v r.toNat (BitVec.ofNat 32 w)).trans ?_)
    rw [BitVec.toNat_ofNat, Nat.mod_eq_of_lt (by omega)]
  · obtain ⟨m, h⟩ := hm.marks
    rw [window_claimed, if_pos rfl] at h
    exact ⟨m, (window_wopenDone ..).trans h⟩
  · rw [phys_wopenDone]
    rcases hm.key with h | h
    · exact ⟨_, h.trans (key_claimed ..)⟩
    · exact h
  · rw [window_wopenDone, hm.others j hj, window_claimed, if_neg hj]

/-! WCLOSE and TLBINV. -/

/-- An accepted WCLOSE has done its work. -/
def State.wcloseDone (u : State) (q : Iss) (w : Nat) : State :=
  ((u.shut w none).modWindow w fun x => { x with closers := x.closers ++ [(q.wid, q.cnt)] }).released q .dev (.wclose w)

theorem wcloseBody_accepted {u : State} {q : Iss} {b : SrcB} (h0 : (q.uniB b).toNat ≠ 0) (h192 : (q.uniB b).toNat ≤ 192)
    (ho : (u.window (q.uniB b).toNat).owner = q.w.ctx) (hc : (u.window (q.uniB b).toNat).st ≠ .closed)
    (hcl : (u.window (q.uniB b).toNat).st ≠ .closing) : wcloseBody b q u = .done (u.wcloseDone q (q.uniB b).toNat) := by
  unfold wcloseBody
  rw [if_neg]
  · rfl
  · rintro (h | h | h | h | h)
    · exact h0 h
    · exact absurd h (Nat.not_lt.mpr h192)
    · exact h ho
    · exact hc h
    · exact hcl h

theorem exec_wclose (h : Hints) (b : SrcB) (s : State) : exec (.wclose h b) s = runInstr (.wclose h b) h (wcloseBody b) s := rfl

theorem exec_wclose_accepted {s : State} {q : Iss} {h : Hints} {b : SrcB} {w : Nat} (hi : Issues (.wclose h b) h s q)
    (hb : wcloseBody b q (s.issued (.wclose h b) q) = .done ((s.issued (.wclose h b) q).wcloseDone q w)) :
    exec (.wclose h b) s = .next ((s.issued (.wclose h b) q).wcloseDone q w) :=
  (exec_wclose h b s).trans (runInstr_done hi hb)

theorem window_wcloseDone (u : State) (q : Iss) (w j : Nat) :
    (u.wcloseDone q w).window j = if j = w then { (u.window w).close none with
      early := if (u.window w).st = .opened then u.reached w else (u.window w).early,
      closers := ((u.window w).close none).closers ++ [(q.wid, q.cnt)] } else u.window j := by
  rw [State.wcloseDone, window_released, State.modWindow, State.window_setWindow, State.shut, State.window_setWindow, if_pos rfl]
  by_cases hj : j = w
  · rw [if_pos hj, if_pos hj]
  · rw [if_neg hj, if_neg hj, State.window_setWindow, if_neg hj]

theorem wcloseDone_spec {u : State} {q : Iss} {w : Nat} {v : Wave} (hv : tfind u.waves q.wid = some v) :
    ((u.wcloseDone q w).window w).closers = (u.window w).closers ++ [(q.wid, q.cnt)]
      ∧ ((u.window w).st = .opened → ((u.wcloseDone q w).window w).st = .closing ∧ ((u.wcloseDone q w).window w).done = 0)
      ∧ ((u.window w).st = .opening → ((u.wcloseDone q w).window w).st = .opening ∧ ((u.wcloseDone q w).window w).held.isSome = true)
      ∧ (∀ j, j ≠ w → (u.wcloseDone q w).window j = u.window j) ∧ Releasing q .dev (fun c => c = .wclose w) (u.wcloseDone q w) := by
  have hclosers : ((u.window w).close none).closers = (u.window w).closers := by
    unfold Window.close
    split <;> rfl
  rw [window_wcloseDone, if_pos rfl]
  refine ⟨by rw [hclosers], fun h => ?_, fun h => ?_, fun j hj => by rw [window_wcloseDone, if_neg hj], releasing_released (by decide) hv⟩
  · simp [Window.close, h]
  · simp [Window.close, h]

theorem windowChange_frame (s : State) (w : Nat) (f : Window → Window) :
    (s.modWindow w f).waves = s.waves ∧ (s.modWindow w f).phys = s.phys ∧ (s.modWindow w f).spCore = s.spCore
      ∧ (s.modWindow w f).spClu = s.spClu ∧ (s.modWindow w f).spDie = s.spDie := ⟨rfl, rfl, rfl, rfl, rfl⟩

theorem shut_frame (s : State) (w : Nat) (r : Option Nat) :
    (s.shut w r).waves = s.waves ∧ (s.shut w r).phys = s.phys ∧ (s.shut w r).spCore = s.spCore
      ∧ (s.shut w r).spClu = s.spClu ∧ (s.shut w r).spDie = s.spDie := ⟨rfl, rfl, rfl, rfl, rfl⟩

theorem quiet_wcloseDone {s : State} {q : Iss} {h : Hints} {b : SrcB} (hi : Issues (.wclose h b) h s q) (w : Nat) :
    Quiet q s ((s.issued (.wclose h b) q).wcloseDone q w) := by
  unfold State.wcloseDone
  refine quiet_released hi ?_ ?_ (by decide) _
  · simp only [windowChange_frame, shut_frame]
  · simp only [windowChange_frame, shut_frame]
    exact issued_memory ..

theorem exec_tlbinv {s : State} {q : Iss} {h : Hints} {a : Opd} {b : SrcB} (hi : Issues (.tlbinv h a b) h s q) :
    exec (.tlbinv h a b) s
      = .next ((s.issued (.tlbinv h a b) q).released q .sys (.tlbinv ((q.uni64 a).toNat / 65536) (q.uniB b).toNat q.cnt)) := by
  change execTlbinv h a b s = _
  exact runInstr_done hi rfl

/-! Both ways the statement turns on the draws. -/

/-- Were all draws one value, the statement would hold: its other clauses do. -/
theorem windowInstructions_of_draws (hk : ∀ i j, Config.randomKey i = Config.randomKey j) : Obligations.WindowInstructions := by
  unfold Obligations.WindowInstructions
  refine ⟨fun s q h d a b w hi => ?_, fun s q h b hi => ?_, fun s q h a b hi => ?_⟩
  · intro u v importer n vpn halign hspace hn h30 hself hst hrange hw
    obtain ⟨hd, ⟨m, hwin⟩, ⟨k, hkey⟩, hothers, hrel⟩ := wopenDone_spec d a b (wave_issued s (.wopen h d a b) q)
      (List.mem_range.mp (List.mem_of_mem_drop (List.mem_of_find?_eq_some hw)))
    refine ⟨_, exec_wopen_accepted hi (wopenBody_accepted halign hspace hn h30 hself hst hrange hw), ?_⟩
    dsimp only
    rw [hwin]
    exact ⟨hd, rfl, rfl, rfl, rfl, rfl, rfl, rfl, hkey.trans (hk _ _), fun j hj => (hothers j hj).trans (window_issued ..), hrel⟩
  · intro w h0 h192 ho hc hcl
    have hw := window_issued s (.wclose h b) q w
    have hspec := wcloseDone_spec (w := w) (wave_issued s (.wclose h b) q)
    rw [hw] at hspec
    obtain ⟨hclosers, hopened, hopening, hothers, hrel⟩ := hspec
    rw [← hw] at ho hc hcl
    exact ⟨_, exec_wclose_accepted hi (wcloseBody_accepted h0 h192 ho hc hcl), quiet_wcloseDone hi w, hclosers, hopened, hopening,
      fun j hj => (hothers j hj).trans (window_issued ..), hrel⟩
  · exact ⟨_, exec_tlbinv hi, quiet_released hi rfl (issued_memory ..) (by decide) _, releasing_released (by decide) (wave_issued ..)⟩

/-- A page-table entry lies in one sector. With a counter above it about to wrap, its write draws the key of its context's window anew. -/
theorem key_pteWrite {s : State} {n pa sec w : Nat} {e : DWord} (hpa : ((List.range 8).map fun i => (pa + i) / 32).eraseDups = [sec])
    (hr : s.phys.mustRenew (s.ownerCtx (s.place (sec * 32))) (s.spot (sec * 32) / 32 / 64) = true)
    (ho : s.ownWindows (s.ownerCtx (s.place (sec * 32))) = [w]) :
    tget 0 (s.pteWrite n pa e).phys.keys (63 + w) = Config.randomKey (s.fresh + 1) := by
  unfold State.pteWrite State.physWrite
  extract_lets cells secs
  have hsecs : secs = [sec] := by
    have hlen : (leBytes 8 e.toNat).length = 8 := rfl
    simp only [secs, cells, List.map_map, Function.comp_def, hlen, hpa]
  rw [keys_account, hsecs, List.foldl_cons, List.foldl_nil, keys_sectorWrite]
  exact key_renewed hr ho

/-- The key of a window of one page, whose entry is that of `key_pteWrite`. -/
theorem key_markWindow_one {c : State} {ctx w vpn pa sec : Nat} {tr : Tr}
    (hwalk : c.walk ctx (BitVec.ofNat 64 (vpn * 65536)) .read = .ok (pa, tr))
    (h57 : (BitVec.ofNat 64 (c.physNat pa 8) : DWord).getLsbD 57 = false)
    (hpa : ((List.range 8).map fun i => (pa + i) / 32).eraseDups = [sec])
    (hr : (c.walked ctx (BitVec.ofNat 64 (vpn * 65536))).phys.mustRenew
      ((c.walked ctx (BitVec.ofNat 64 (vpn * 65536))).ownerCtx ((c.walked ctx (BitVec.ofNat 64 (vpn * 65536))).place (sec * 32)))
      ((c.walked ctx (BitVec.ofNat 64 (vpn * 65536))).spot (sec * 32) / 32 / 64) = true)
    (ho : (c.walked ctx (BitVec.ofNat 64 (vpn * 65536))).ownWindows
      ((c.walked ctx (BitVec.ofNat 64 (vpn * 65536))).ownerCtx ((c.walked ctx (BitVec.ofNat 64 (vpn * 65536))).place (sec * 32))) = [w]) :
    tget 0 (c.markWindow ctx w 1 vpn).phys.keys (63 + w)
      = Config.randomKey ((c.walked ctx (BitVec.ofNat 64 (vpn * 65536))).fresh + 1) := by
  unfold State.markWindow
  simp only [hwalk, h57, Bool.false_eq_true, if_false]
  exact key_pteWrite hpa hr ho

/-- WOPEN of the page at 0x1_0000 to context 1. -/
def wopenPage : Instr := .wopen plainHints (.s 1) (.s 2) (.lit 0x81000001)

/-- The machine of the tests. A counter above the entry of the page at 0x1_0000 is about to wrap. -/
def counterFull : State :=
  let s := Tests.shared .closed
  { s with phys := { s.phys with nodes := [(12, BitVec.allOnes 56)] } }

/-- The pages of window 1 are about to be marked. -/
def claimedFull (q : Iss) : State := (counterFull.issued wopenPage q).claimed 1 (windowTaken q (.s 2) (.lit 0x81000001))

/-- WOPEN is accepted in this state, its pages' entry stands at address 24584, and its window is the only one of the entry's context. -/
theorem stands_counterFull :
    Tests.stands wopenPage counterFull (fun q =>
      let u := counterFull.issued wopenPage q
      let v := (claimedFull q).walked 0 (BitVec.ofNat 64 (1 * 65536))
      q.uni64 (.s 2) == 0x10000 && q.w.ctx == 0 && (u.ctx 1).st != .free && u.windowRange 0 1 1
      && (((List.range 193).drop 1).find? fun w => (u.window w).st == .closed) == some 1
      && u.fresh == 16384 && v.fresh == 16385
      && v.phys.mustRenew (v.ownerCtx (v.place (768 * 32))) (v.spot (768 * 32) / 32 / 64)
      && v.ownWindows (v.ownerCtx (v.place (768 * 32))) == [1]
      && !(BitVec.ofNat 64 ((claimedFull q).physNat 24584 8) : DWord).getLsbD 57
      && ((claimedFull q).walk 0 (BitVec.ofNat 64 (1 * 65536)) .read).toOption.any (·.1 == 24584)) = true := by
  decide +kernel

/-- The statement makes two certain draws equal: the one that it names, and the one with which a renewal replaces it. -/
theorem draws_of_windowInstructions (h : Obligations.WindowInstructions) : Config.randomKey 16384 = Config.randomKey 16386 := by
  obtain ⟨f, q, hf, hi, hp⟩ := Tests.issues_of stands_counterFull
  cases hf
  change Issues wopenPage plainHints counterFull q at hi
  simp only [Bool.and_eq_true, beq_iff_eq, bne_iff_ne, ne_eq, Bool.not_eq_true'] at hp
  obtain ⟨⟨⟨⟨⟨⟨⟨⟨⟨⟨ha, hctx⟩, hst⟩, hrange⟩, hw⟩, hfresh⟩, hfresh'⟩, hfull⟩, hown⟩, h57⟩, hwalk⟩ := hp
  have himporter : ((0x81000001 : Word).extractLsb' 24 6).toNat = 1 := by decide
  have hpages : ((0x81000001 : Word).extractLsb' 0 24).toNat = 1 := by decide
  have hvpn : (q.uni64 (.s 2)).toNat / 65536 = 1 := by rw [ha]; decide
  have hmarked : (counterFull.issued wopenPage q).wopenMarked q (.s 2) (.lit 0x81000001) 1 = (claimedFull q).markWindow 0 1 1 1 := by
    rw [State.wopenMarked, hctx, hvpn]
    exact congrArg (fun n => (claimedFull q).markWindow 0 1 n 1) hpages
  have halign : (q.uni64 (.s 2)).extractLsb' 0 16 = 0 := by rw [ha]; decide
  have hspace : (q.uni64 (.s 2)).extractLsb' 56 8 = 0 := by rw [ha]; decide
  have h30 : (0x81000001 : Word).getLsbD 30 = false := by decide +kernel
  have hself : ((0x81000001 : Word).extractLsb' 24 6).toNat ≠ q.w.ctx := by rw [hctx]; decide
  have hn : ((0x81000001 : Word).extractLsb' 0 24).toNat ≠ 0 := by decide
  rw [← himporter] at hst
  have hrange' : (counterFull.issued wopenPage q).windowRange q.w.ctx ((0x81000001 : Word).extractLsb' 0 24).toNat
      ((q.uni64 (.s 2)).toNat / 65536) = true := by
    rw [hctx, hpages, hvpn]
    exact hrange
  have hbody := wopenBody_accepted (d := .s 1) (a := .s 2) (b := .lit 0x81000001) halign hspace hn h30 hself hst hrange' hw
  unfold Obligations.WindowInstructions at h
  obtain ⟨hopen, -⟩ := h
  obtain ⟨t, he, -, -, -, -, -, -, -, -, hkey, -⟩ :=
    hopen counterFull q plainHints (.s 1) (.s 2) (.lit 0x81000001) 1 hi halign hspace hn h30 hself hst hrange' hw
  obtain rfl := Host.Outcome.next.inj ((exec_wopen_accepted hi hbody).symm.trans he)
  rw [phys_wopenDone] at hkey
  cases hok : (claimedFull q).walk 0 (BitVec.ofNat 64 (1 * 65536)) .read with
  | error _ => simp [hok, Except.toOption] at hwalk
  | ok x =>
    obtain ⟨pa, tr⟩ := x
    simp only [hok, Except.toOption, Option.any_some, beq_iff_eq] at hwalk
    subst hwalk
    have hdrawn := key_markWindow_one hok h57 (by decide) hfull hown
    rw [hfresh', ← hmarked] at hdrawn
    exact (congrArg Config.randomKey hfresh.symm).trans (hkey.symm.trans hdrawn)

end Sys2Proof.Machine
end

section
/-! PROOFS. Instructions at issue and steps of the machine (R87, R91, R190, R206, R225): what is held back changes nothing, and a step runs the
instruction that the bytes at its split's program counter decode to. -/

namespace Sys2Proof.Machine

set_option Elab.async false

theorem scalarOp_eq_runInstr (i : Instr) (h : Hints) (op : AluOp) (d a : Opd) (b : SrcB) (s : State) :
    ∃ body, scalarOp i h op d a b s = runInstr i h body s := ⟨_, by unfold scalarOp; rfl⟩

/-- Every instruction that has fields of an instruction word runs in the frame of issue, with its hints. -/
theorem exec_eq_runInstr {i : Instr} {f : Fields} (hf : i.fields = some f) (s : State) : ∃ body, exec i s = runInstr i f.h body s := by
  cases i with
  | sadd | ssub | smul | sand | sor | sxor | sshl | sshr | scmp | smin | smax =>
    cases hf
    exact scalarOp_eq_runInstr ..
  | _ =>
    cases hf <;> (dsimp only [exec]; exact ⟨_, rfl⟩)

/-- An instruction that is permitted and held back does not issue (R91). -/
theorem runInstr_held {s : State} {q : Iss} {i : Instr} {h : Hints} (body : Iss → State → Res) (hq : s.sight i h = some q)
    (hp : notPermitted q.w i = none) (hb : heldBack s q i h = true) : runInstr i h body s = .next s := by
  simp only [runInstr, hq, hp, hb, if_true]

/-- Settles O18: whatever its meaning is, an instruction runs in the one frame of issue, which gives the state back when something holds the
instruction back. -/
theorem heldBackWaits : Obligations.HeldBackWaits := by
  unfold Obligations.HeldBackWaits
  intro i f s q hf hq hp hb
  obtain ⟨body, he⟩ := exec_eq_runInstr hf s
  rw [he, runInstr_held body hq hp hb]

/-! What a fetch reads (R190, R206). -/

theorem leNat_leBytes (n x : Nat) : leNat (leBytes n x) = x % 256 ^ n := by
  induction n generalizing x with
  | zero => exact (Nat.mod_one x).symm
  | succ n ih =>
    calc leNat (leBytes (n + 1) x) = x % 256 + 256 * (x / 256 % 256 ^ n) := by rw [leBytes, leNat, ih, BitVec.toNat_ofNat]
      _ = x % (256 * 256 ^ n) := Nat.mod_mul.symm
      _ = x % 256 ^ (n + 1) := by rw [Nat.pow_succ' (n := n)]

theorem leBytes_eq_map (n x : Nat) : leBytes n x = (List.range n).map fun i => BitVec.ofNat 8 (x / 256 ^ i) := by
  induction n generalizing x with
  | zero => rfl
  | succ n ih =>
    rw [leBytes, ih, List.range_succ_eq_map, List.map_cons, List.map_map, Nat.pow_zero, Nat.div_one]
    congr 1
    refine List.map_congr_left fun i _ => ?_
    rw [Function.comp_apply, Nat.pow_succ', Nat.div_div_eq_div_mul]

/-- The number of four bytes that are those of the `k`-th word of an instruction word is that word. -/
theorem physNat_word {s : State} {pa k : Nat} {word : BitVec 96}
    (h : ∀ o, o < 4 → word.extractLsb' (8 * (4 * k + o)) 8 = s.physByte (pa + o)) : s.physNat pa 4 = word.toNat / 2 ^ (32 * k) % 2 ^ 32 := by
  have hb : s.physRead pa 4 = leBytes 4 (word.toNat / 2 ^ (32 * k)) := by
    rw [leBytes_eq_map, State.physRead]
    refine List.map_congr_left fun o ho => ?_
    rw [← h o (List.mem_range.mp ho)]
    refine BitVec.eq_of_toNat_eq ?_
    rw [BitVec.extractLsb'_toNat, BitVec.toNat_ofNat, Nat.shiftRight_eq_div_pow, Nat.div_div_eq_div_mul, show (256 : Nat) = 2 ^ 8 from rfl,
      ← Nat.pow_mul, ← Nat.pow_add]
    congr 3
    omega
  rw [State.physNat, hb, leNat_leBytes, show (256 : Nat) ^ 4 = 2 ^ 32 from rfl]

/-- A word of code in memory of the device itself that nothing keeps from being read comes as it stands there. -/
theorem fetchWord_ok {s : State} {core : Nat} {w : Wave} {a : DWord} {t : Tr} (split : Nat)
    (hr : s.tlbHit w.ctx core a = true ∨ s.walkServable w.ctx a = true) (hx : s.xlate w.ctx core a .fetch = .ok t)
    (hp : s.isPeer (t.pa a) = false) (hs : s.canServe (s.place (t.pa a)) = true)
    (hst : s.stopAt none w.ctx (t.pa a) t.key false = none) : s.fetchWord core w split a = .ok (s.physNat (t.pa a) 4) := by
  have hwait : (!s.tlbHit w.ctx core a && !s.walkServable w.ctx a) = false := by rcases hr with h | h <;> simp [h]
  simp only [State.fetchWord, hwait, hx, hp, hs, hst, Bool.not_true, Bool.false_eq_true, if_false]

/-- The three words of an instruction word are its bits. -/
theorem words_toNat (word : BitVec 96) :
    BitVec.ofNat 96 (word.toNat % 2 ^ 32 + word.toNat / 2 ^ 32 % 2 ^ 32 * 2 ^ 32 + word.toNat / 2 ^ 64 % 2 ^ 32 * 2 ^ 64) = word := by
  have hlt := word.isLt
  refine BitVec.eq_of_toNat_eq ?_
  rw [BitVec.toNat_ofNat]
  omega

theorem fetchInstr_ok {s : State} {core : Nat} {w : Wave} {split : Nat} {pc : DWord} {word : BitVec 96}
    (h : ∀ k, k < 3 → s.fetchWord core w split (pc + BitVec.ofNat 64 (4 * k)) = .ok (word.toNat / 2 ^ (32 * k) % 2 ^ 32)) :
    s.fetchInstr core w split pc = .ok word := by
  have h0 : s.fetchWord core w split pc = .ok (word.toNat % 2 ^ 32) := by simpa using h 0 (by decide)
  have h1 : s.fetchWord core w split (pc + 4) = .ok (word.toNat / 2 ^ 32 % 2 ^ 32) := h 1 (by decide)
  have h2 : s.fetchWord core w split (pc + 8) = .ok (word.toNat / 2 ^ 64 % 2 ^ 32) := h 2 (by decide)
  simp only [State.fetchInstr, h0, h1, h2, words_toNat]

/-! What a fetch leaves behind (R153, R158). -/

/-- Waves, teams, the agenda and every memory stand as they stood before a fetch. -/
structure Fetches (s t : State) : Prop where
  waves : t.waves = s.waves
  teams : t.teams = s.teams
  agenda : t.agenda = s.agenda
  memory : SameMemory s t

theorem Fetches.refl (s : State) : Fetches s s := ⟨rfl, rfl, rfl, fun _ => rfl, fun _ _ _ => rfl⟩

theorem Fetches.trans {s t u : State} (hst : Fetches s t) (htu : Fetches t u) : Fetches s u :=
  ⟨htu.waves.trans hst.waves, htu.teams.trans hst.teams, htu.agenda.trans hst.agenda, hst.memory.trans htu.memory⟩

theorem Fetches.of_accounted {s t : State} (h : Accounted s t) : Fetches s t := by
  have hm := h.sameMemory
  obtain ⟨_, _, _, _, rfl, _⟩ := h
  exact ⟨rfl, rfl, rfl, hm⟩

theorem fetches_serveMiss (s : State) (ctx core : Nat) (va : DWord) (acc : Acc) (n m : Nat) :
    Fetches s (s.serveMiss ctx core va acc n m).2 := by
  unfold State.serveMiss
  extract_lets k fillCore u
  have hu : Fetches s u := (Fetches.of_accounted (accounted_pmc s ctx 6 1)).trans (.of_accounted (accounted_walked ..))
  have hcore : ∀ (v : State) (t : Tr), Fetches v (fillCore v t) := fun v t => ⟨rfl, rfl, rfl, fun _ => rfl, fun _ _ _ => rfl⟩
  have hclu : ∀ (v : State) (f : Cluster → Cluster), Fetches v (v.modCluster k f) := fun v f =>
    ⟨rfl, rfl, rfl, fun _ => rfl, fun _ _ _ => rfl⟩
  clear_value fillCore u
  split
  · split
    · exact hcore ..
    · exact .refl s
  · split
    · exact hu
    · exact (hu.trans (hclu ..)).trans (hcore ..)

theorem fetches_missed (s : State) (ctx core : Nat) (va : DWord) (acc : Acc) : Fetches s (s.missed ctx core va acc) := by
  unfold State.missed
  split
  · exact .refl s
  · obtain ⟨hw, ht, ha, hm⟩ := fetches_serveMiss s ctx core va acc (Config.pick s.fresh) (Config.pick (s.fresh + 1))
    exact ⟨hw, ht, ha, hm⟩

theorem fetches_wordRead (s : State) (core ctx : Nat) (a : DWord) (first : Bool) : Fetches s (s.wordRead core ctx a first) := by
  unfold State.wordRead
  extract_lets t
  have ht : Fetches s t := fetches_missed ..
  split
  · split
    · exact ht
    · split
      · exact ht.trans (.of_accounted (accounted_noteStop ..))
      · exact ht.trans (.of_accounted (accounted_account ..))
  · exact ht

theorem fetches_fetching (s : State) (core : Nat) (w : Wave) (split : Nat) : Fetches s (s.fetching core w split) := by
  unfold State.fetching
  extract_lets pc next
  split
  · exact .refl s
  · refine List.foldlRecOn (motive := fun acc : State × Bool => Fetches s acc.1) _ _ (.refl s) fun acc hacc k _ => ?_
    simp only [next]
    split
    · exact hacc.trans (fetches_wordRead ..)
    · exact hacc

/-! A step that issues. -/

theorem comes_ready {s : State} {wid split : Nat} {w : Wave} (hw : tfind s.waves wid = some w) (hr : w.stat = .ready)
    (hl : (w.split split).live = true) (hj : (w.split split).joinHeld = false) (ht : (w.split split).trapHeld = false)
    (ho : (w.split split).waitOn = none) (hf : (w.split split).filling = false) (hn : (w.split split).notBefore ≤ s.clk (wCore wid)) :
    s.comes wid split = some w := by
  simp [State.comes, hw, hr, hl, hj, ht, ho, hf, hn]

theorem fetched_ok {s : State} {core : Nat} {w : Wave} {split : Nat} {word : BitVec 96} {i : Instr}
    (ha : (w.split split).pc.extractLsb' 0 2 = 0) (hw : s.fetchInstr core w split (w.split split).pc = .ok word)
    (hd : decodeWord word = .ok i) : s.fetched core w split = .instr i word := by
  simp [State.fetched, ha, hw, hd]

/-- A split that comes to issue with no trap due brings the instruction that it fetches to issue. -/
theorem toIssue_ok {s : State} {wid split : Nat} {w : Wave} {i : Instr} {word : BitVec 96} (hc : s.comes wid split = some w)
    (ht : w.trapDue = none) (hf : s.fetched (wCore wid) w split = .instr i word) :
    s.toIssue wid split = .ok (i, { s.fetching (wCore wid) w split with cur := (wid, split), iw := word }) := by
  simp [State.toIssue, hc, ht, hf]

theorem step_task {s : State} {t : Task} {rest : List Task} (ha : s.agenda = t :: rest) (hs : s.shutdown = false) :
    step s = perform t { s with agenda := rest } := by
  simp [step, ha, hs]

theorem endsShutdown_eq_false {t : Task} (ht : t ≠ .ev .coldReset) : endsShutdown t = false := by
  unfold endsShutdown
  split
  · exact absurd rfl ht
  · rfl

/-- Settles O57: the three words that the fetch reads are the bits of the instruction word, and the fetch itself only fills TLBs and counts. -/
theorem stepRunsDecoded : Obligations.StepRunsDecoded := by
  unfold Obligations.StepRunsDecoded
  refine ⟨?_, ?_, ?_, ?_⟩
  · intro s wid split rest w i word tr ha hs hw hr ht s0 sp va hl hj hh ho hf hn hpc hbytes hd t
    have hcomes : s0.comes wid split = some w := comes_ready hw hr hl hj hh ho hf hn
    have hword : ∀ k, k < 3 → s0.fetchWord (wCore wid) w split (va k) = .ok (word.toNat / 2 ^ (32 * k) % 2 ^ 32) := by
      intro k hk
      obtain ⟨hx, hp, hserve, hcan, hstop, hb⟩ := hbytes k hk
      have hnat : s0.physNat ((tr k).pa (va k)) 4 = word.toNat / 2 ^ (32 * k) % 2 ^ 32 := physNat_word hb
      rw [← hnat]
      exact fetchWord_ok split hserve hx hp hcan hstop
    have hfetched : s0.fetched (wCore wid) w split = .instr i word := fetched_ok hpc (fetchInstr_ok hword) hd
    obtain ⟨hwaves, hteams, hagenda, hmem⟩ : Fetches s0 t := fetches_fetching ..
    refine ⟨?_, hwaves, hteams, hagenda, hmem⟩
    rw [step_task ha hs]
    simp only [perform, toIssue_ok hcomes ht hfetched, s0, t]
  · intro s i rest ha hs
    exact step_task ha hs
  · intro s ha hs
    simp [step, ha, hs]
  · intro s t rest ha hs ht
    simp [step, ha, hs, endsShutdown_eq_false ht]

end Sys2Proof.Machine
end

section
/-! PROOFS. What the operations of the control instructions leave alone (R85 to R92): splits, the stack and the counters of one wave change, and
no register and no memory does. -/

namespace Sys2Proof.Machine

set_option Elab.async false

/-! Quiet changes of the wave at issue. -/

theorem Quiet.refl (q : Iss) (s : State) : Quiet q s s := ⟨⟨fun _ => rfl, fun _ _ _ => rfl⟩, fun _ _ => rfl, fun _ => rfl⟩

theorem Quiet.trans {q : Iss} {s t u : State} (hst : Quiet q s t) (htu : Quiet q t u) : Quiet q s u := by
  obtain ⟨hm, ho, hn⟩ := hst
  obtain ⟨hm', ho', hn'⟩ := htu
  exact ⟨hm.trans hm', fun k hk => (ho' k hk).trans (ho k hk), fun x => (hn' x).trans (hn x)⟩

theorem sameMemory_modWave (s : State) (k : Nat) (f : Wave → Wave) : SameMemory s (s.modWave k f) := by
  obtain ⟨-, hphys, hcore, hclu, hdie⟩ := modWave_frame s k f
  exact ⟨fun pa => by rw [hphys], fun l u o => by simp only [State.spByte, hcore, hclu, hdie]⟩

theorem newest_modWave (s : State) (k : Nat) {f : Wave → Wave} (hf : ∀ w x, (f w).newest x = w.newest x) (x : Target) :
    (s.modWave k f).newest k x = s.newest k x := by
  simp only [State.newest, tfind_modWave_self]
  cases tfind s.waves k with
  | none => rfl
  | some w => exact hf w x

theorem quiet_modWave (q : Iss) (s : State) {f : Wave → Wave} (hf : ∀ w x, (f w).newest x = w.newest x) :
    Quiet q s (s.modWave q.wid f) :=
  ⟨sameMemory_modWave .., fun _ hk => tfind_modWave_ne s f hk, newest_modWave s q.wid hf⟩

theorem quiet_setWave {q : Iss} {s : State} {w v : Wave} (hw : tfind s.waves q.wid = some w) (hv : ∀ x, v.newest x = w.newest x) :
    Quiet q s (s.setWave q.wid v) := by
  refine ⟨⟨fun _ => rfl, fun _ _ _ => rfl⟩, fun k hk => tfind_tput_ne _ _ hk, fun x => ?_⟩
  rw [State.newest, State.setWave_waves, tfind_tput_self, State.newest, hw]
  exact hv x

theorem quiet_issued {s : State} {i : Instr} {h : Hints} {q : Iss} (hq : s.sight i h = some q) : Quiet q s (s.issued i q) := by
  obtain ⟨hw, -⟩ := sight_some hq
  obtain ⟨hphys, hcore, hclu, hdie⟩ := issued_memory s i q
  refine ⟨⟨fun pa => by rw [hphys], fun l u o => by simp only [State.spByte, hcore, hclu, hdie]⟩, fun k hk => ?_, fun x => ?_⟩
  · rw [tfind_issued, if_neg hk]
  · rw [State.newest, wave_issued, State.newest, hw]
    exact issuedWave_newest q x

theorem newest_setSplit (w : Wave) (k : Nat) (p : Split) (x : Target) : (w.setSplit k p).newest x = w.newest x := by cases x <;> rfl

theorem newest_modSplit (w : Wave) (k : Nat) (f : Split → Split) (x : Target) : (w.modSplit k f).newest x = w.newest x :=
  newest_setSplit ..

theorem newest_stack (w : Wave) (st : List REntry) (x : Target) : ({ w with stack := st } : Wave).newest x = w.newest x := by
  cases x <;> rfl

/-- With its work done, an instruction raises the counters that fall in the next clock, and puts no result in flight (R192). -/
theorem tfind_quick {s : State} {q : Iss} {v : Wave} (hv : tfind s.waves q.wid = some v) :
    ∃ pend, tfind (s.quick q).waves q.wid = some (({ v with pend := pend } : Wave).raise q.cnt) := by
  unfold State.quick
  split
  · next hc =>
    rw [List.isEmpty_iff.mp hc]
    exact ⟨v.pend, hv⟩
  · refine ⟨(v.pend.map fun p => if p.due ≥ q.clk + 1 then { p with writes := p.writes.filter fun e => !List.contains [] e.1 } else p)
      ++ [⟨s.nextId, q.clk + 1, [], 0, q.cnt⟩], ?_⟩
    simp only [State.writeLater, tfind_modWave_self, hv, Option.map_some]
    rfl

theorem raise_eq (w : Wave) (ks : List Nat) : ∃ k, w.raise ks = { w with k := k } := by
  induction ks generalizing w with
  | nil => exact ⟨w.k, rfl⟩
  | cons k ks ih => exact ih _

theorem quiet_quick (q : Iss) (s : State) : Quiet q s (s.quick q) := by
  unfold State.quick
  split
  · exact .refl q s
  · refine quiet_modWave q s fun w x => ?_
    exact (newest_later w q.cnt (fun p => p.due ≥ q.clk + 1) [] ⟨s.nextId, q.clk + 1, [], 0, q.cnt⟩ rfl List.nodup_nil x).2 (by simp)

/-- An instruction whose effect on its wave is quiet, and then counts, completes. -/
theorem completes_quick {s u : State} {i : Instr} {h : Hints} {q : Iss} {body : Iss → State → Res} {v : Wave} {P : Wave → Prop}
    (hi : Issues i h s q) (he : exec i s = runInstr i h body s) (hb : body q (s.issued i q) = .done (u.quick q))
    (hu : Quiet q (s.issued i q) u) (hv : tfind u.waves q.wid = some v) (hP : ∀ pend k, P { v with pend := pend, k := k }) :
    Completes i s fun t => Quiet q s t ∧ ∃ w, tfind t.waves q.wid = some w ∧ P w := by
  have hq := hi.1
  obtain ⟨pend, hw⟩ := tfind_quick hv
  obtain ⟨k, hk⟩ := raise_eq { v with pend := pend } q.cnt
  exact ⟨u.quick q, he.trans (runInstr_done hi hb), ((quiet_issued hq).trans hu).trans (quiet_quick q u), _, hw, hk ▸ hP pend k⟩

/-- An instruction that only moves its split on, with its mask kept, writes nothing (R190). -/
theorem completes_moved {s u : State} {i : Instr} {h : Hints} {q : Iss} {body : Iss → State → Res} {v : Wave} {pc : DWord}
    (hi : Issues i h s q) (he : exec i s = runInstr i h body s) (hb : body q (s.issued i q) = .done (u.quick q))
    (hu : Quiet q (s.issued i q) u) (hv : tfind u.waves q.wid = some v) (hkeeps : q.w.keeps v) (hk : v.k = q.w.k)
    (hpc : (v.split q.split).pc = pc) (hmask : (v.split q.split).mask = q.mask)
    (hother : ∀ j, j ≠ q.split → v.split j = q.w.split j) : Completes i s (Wrote q pc [] s) := by
  have hq := hi.1
  obtain ⟨-, -, -, -, -, -, -, -, -, -, hcnt, -⟩ := sight_some hq
  obtain ⟨hm, ho, hn⟩ := ((quiet_issued hq).trans hu).trans (quiet_quick q u)
  obtain ⟨pend, hw⟩ := tfind_quick hv
  obtain ⟨n, hn'⟩ := raise_eq { v with pend := pend } q.cnt
  refine ⟨u.quick q, he.trans (runInstr_done hi hb), hm, ho, by simp, fun x _ => hn x, _, hw, ?_, ?_, ?_, ?_, fun j => ?_⟩
  · rw [hn']; exact hkeeps
  · rw [hn']; exact hpc
  · rw [hn']; exact hmask
  · rw [hn']; exact hother
  · have hreg : ∀ j, ({ v with pend := pend } : Wave).kreg j = q.w.kreg j := fun j => congrArg (fun k => (tget 0 k j).toNat) hk
    rw [kreg_raise _ _ (hcnt ▸ countersOf_nodup _ _ (classOf_nodup i)) (fun j hj => (hreg j).trans_lt (issues_room hi j hj)), hreg]

/-! The split at issue. -/

theorem issuedWave_own (q : Iss) : (issuedWave q).split q.split = { q.w.split q.split with prev := some q.clk, pc := q.pc + 12 } :=
  (issuedWave_split q q.split).trans (if_pos rfl)

theorem issuedWave_other {q : Iss} {j : Nat} (hj : j ≠ q.split) : (issuedWave q).split j = q.w.split j :=
  (issuedWave_split q j).trans (if_neg hj)

theorem live_issuedWave (q : Iss) (j : Nat) : ((issuedWave q).split j).live = (q.w.split j).live := by
  rw [issuedWave_split]
  split
  · next h => rw [h]
  · rfl

theorem liveSplits_congr {v w : Wave} (h : ∀ j, (v.split j).live = (w.split j).live) : v.liveSplits = w.liveSplits := by
  simp only [Wave.liveSplits, h]

/-- The split keeps a group of lanes and continues at an address. -/
def Wave.keepGroup (w : Wave) (q : Iss) (mask : Word) (pc : DWord) : Wave := w.modSplit q.split fun p => { p with mask := mask, pc := pc }

theorem keepGroup_own (w : Wave) (q : Iss) (mask : Word) (pc : DWord) :
    (w.keepGroup q mask pc).split q.split = { w.split q.split with mask := mask, pc := pc } :=
  (Wave.split_modSplit ..).trans (if_pos rfl)

theorem keepGroup_other (w : Wave) {q : Iss} (mask : Word) (pc : DWord) {j : Nat} (hj : j ≠ q.split) :
    (w.keepGroup q mask pc).split j = w.split j :=
  (Wave.split_modSplit ..).trans (if_neg hj)

theorem tfind_keepGroup {s : State} {q : Iss} {w : Wave} (mask : Word) (pc : DWord) (hw : tfind s.waves q.wid = some w) :
    tfind (s.keepGroup q mask pc).waves q.wid = some (w.keepGroup q mask pc) := by
  rw [State.keepGroup, tfind_modWave_self, hw]
  rfl

theorem quiet_keepGroup (q : Iss) (s : State) (mask : Word) (pc : DWord) : Quiet q s (s.keepGroup q mask pc) :=
  quiet_modWave q s fun _ _ => newest_modSplit ..

theorem tfind_jump {s : State} {q : Iss} {w : Wave} (pc : DWord) (hw : tfind s.waves q.wid = some w) :
    tfind (s.jump q pc).waves q.wid = some (w.modSplit q.split fun p => { p with pc := pc }) := by
  rw [State.jump, tfind_modWave_self, hw]
  rfl

theorem quiet_jump (q : Iss) (s : State) (pc : DWord) : Quiet q s (s.jump q pc) := quiet_modWave q s fun _ _ => newest_modSplit ..

end Sys2Proof.Machine
end

section
/-! PROOFS. JOIN and EXIT (R83, R88 to R90, R214, R215). -/

namespace Sys2Proof.Machine

set_option Elab.async false

/-! Operations on the splits and the stack. -/

/-- A stack of at most 16 entries stays in the core (R90). -/
theorem respill_short {s : State} {wid : Nat} {w : Wave} (split clk score n : Nat) (hw : tfind s.waves wid = some w)
    (hl : w.stack.length ≤ 16) : s.respill wid split clk score n = s := by
  cases n with
  | zero => rfl
  | succ n => simp only [State.respill, hw, if_neg (Nat.not_lt.mpr hl)]

/-- With no entry in the spill area, none lies there for a split. -/
theorem spilledFor_none {s : State} {wid : Nat} {w : Wave} (score split : Nat) (h : w.spilled = 0) :
    s.spilledFor wid w score split = false := by
  simp [State.spilledFor, h]

/-- A split's number after `new` has taken the place of `old`. -/
def renumbered (old new k : Nat) : Nat := if k = old then new else k

/-- What waits on behalf of the splits of a wave names them by their new numbers (R87). -/
def Wave.renumber (w : Wave) (old new : Nat) : Wave :=
  { w with reqs := w.reqs.map (fun r => { r with split := renumbered old new r.split }),
           rels := w.rels.map (fun r => { r with split := renumbered old new r.split }),
           park := w.park.map (fun k => { k with split := renumbered old new k.split }),
           heldTraps := w.heldTraps.map fun e => (e.1, { e.2 with split := renumbered old new e.2.split }) }

theorem tfind_renumber {s : State} {wid : Nat} {w : Wave} (old new : Nat) (hw : tfind s.waves wid = some w) :
    tfind (s.renumber wid old new).waves wid = some (w.renumber old new) :=
  (tfind_modWave_self ..).trans (congrArg (Option.map _) hw)

theorem quiet_renumber (q : Iss) (s : State) (old new : Nat) : Quiet q s (s.renumber q.wid old new) :=
  quiet_modWave q s fun _ x => by cases x <;> rfl

/-- Letting a held split go on changes splits, none of which ends or begins. -/
theorem unstick_eq (w : Wave) : ∃ splits, w.unstick = { w with splits := splits } := by
  unfold Wave.unstick
  extract_lets live stuck
  split
  · split
    · exact ⟨_, rfl⟩
    · exact ⟨w.splits, rfl⟩
  · exact ⟨w.splits, rfl⟩

theorem live_unstick (w : Wave) (j : Nat) : (w.unstick.split j).live = (w.split j).live := by
  unfold Wave.unstick
  extract_lets live stuck
  split
  · split
    · rw [Wave.split_modSplit]
      split
      · next h => rw [h]
      · rfl
    · rfl
  · rfl

/-- While a split still runs, none that is held goes on (R88). -/
theorem unstick_running {w : Wave} {j : Nat} (h4 : j < 4) (hl : (w.split j).live = true) (hj : (w.split j).joinHeld = false)
    (ht : (w.split j).trapHeld = false) : w.unstick = w := by
  have hall : w.liveSplits.all (fun i => (w.split i).joinHeld || (w.split i).trapHeld) = false :=
    List.all_eq_false.mpr ⟨j, by simp [Wave.liveSplits, h4, hl], by simp [hj, ht]⟩
  simp only [Wave.unstick, hall, Bool.false_eq_true, if_false]

/-- The only split of a wave, held at a JOIN, continues past it (R88). -/
theorem unstick_alone {w : Wave} {j : Nat} (hl : w.liveSplits = [j]) (hj : (w.split j).joinHeld = true)
    (ht : (w.split j).trapHeld = false) : w.unstick = w.modSplit j fun p => { p with joinHeld := false, pc := p.pc + 12 } := by
  simp [Wave.unstick, hl, hj, ht]

theorem liveSplits_alone {w : Wave} {k : Nat} (h4 : k < 4) (hk : (w.split k).live = true)
    (h : ∀ j, j < 4 → j ≠ k → (w.split j).live = false) : w.liveSplits = [k] := by
  have hp : ∀ j ∈ List.range 4, (w.split j).live = (j == k) := by
    intro j hj
    by_cases e : j = k
    · rw [e, hk, beq_self_eq_true]
    · rw [h j (List.mem_range.mp hj) e, beq_eq_false_iff_ne.mpr e]
  rw [Wave.liveSplits, List.filter_congr hp, List.filter_beq, List.count_eq_one_of_mem List.nodup_range (List.mem_range.mpr h4),
    List.replicate_one]

/-- A stack entry of a wave is replaced. -/
def Wave.setEntry (w : Wave) (k : Nat) (e : REntry) : Wave := { w with stack := w.stack.set k e }

/-- A stack entry of a wave is taken off. -/
def Wave.dropEntry (w : Wave) (k : Nat) : Wave := { w with stack := w.stack.eraseIdx k }

theorem tfind_modWave_some {s : State} {k : Nat} {w : Wave} (f : Wave → Wave) (hw : tfind s.waves k = some w) :
    tfind (s.modWave k f).waves k = some (f w) := by
  rw [tfind_modWave_self, hw]
  rfl

/-- A wave in which two splits have become one (R87). -/
def Wave.fused (w : Wave) (i j : Nat) (p : Split) : Wave :=
  { (w.setSplit (min i j) p).setSplit (max i j) Split.off with
    stack := w.stack.map fun e => if e.split = max i j then { e with split := min i j } else e }

/-- With no entry in the spill area, a fuse changes only its wave, and the numbers that name its splits (R87). -/
theorem fuse_unspilled {s : State} {wid : Nat} {w : Wave} (i j : Nat) (pc : DWord) (hw : tfind s.waves wid = some w)
    (h0 : w.spilled = 0) : ∃ p : Split, p.live = true ∧ p.pc = pc ∧ p.mask = (w.split (min i j)).mask ||| (w.split (max i j)).mask
      ∧ s.fuse wid i j pc = (s.setWave wid (w.fused i j p)).renumber wid (max i j) (min i j) := by
  unfold State.fuse
  simp -zeta only [hw]
  extract_lets lo hi a b prev w1 w2 w3 score s'
  have hsp : w3.spilled = 0 := h0
  have hs : s' = s := by simp only [s', hsp, List.range_zero, List.foldl_nil]
  refine ⟨⟨true, pc, a.mask ||| b.mask, prev, max a.notBefore b.notBefore, false, false, none, a.filling || b.filling⟩, rfl, rfl, rfl, ?_⟩
  rw [hs]
  rfl

theorem fused_low (w : Wave) {i j : Nat} (p : Split) (hij : i ≠ j) : (w.fused i j p).split (min i j) = p := by
  refine (Wave.split_setSplit (w.setSplit (min i j) p) (max i j) Split.off (min i j)).trans ?_
  rw [if_neg (by omega), Wave.split_setSplit, if_pos rfl]

theorem fused_high (w : Wave) (i j : Nat) (p : Split) : (w.fused i j p).split (max i j) = Split.off :=
  (Wave.split_setSplit (w.setSplit (min i j) p) (max i j) Split.off (max i j)).trans (if_pos rfl)

theorem newest_fused (w : Wave) (i j : Nat) (p : Split) (x : Target) : (w.fused i j p).newest x = w.newest x := by cases x <;> rfl

/-! JOIN. -/

section
variable {s : State} {q : Iss}

/-- A JOIN whose entry has not started lets the lanes of the entry run (R88). -/
theorem joinBody_starts {k : Nat} {e : REntry} (hk : q.w.entryFor q.split = some k) (he : q.w.stack[k]? = some e) (hs : e.started = false) :
    joinBody q s = .done ((((s.modWave q.wid fun w =>
      w.setEntry k { e with held := (q.w.split q.split).mask, join := q.pc, started := true }).keepGroup q e.mask
        e.resume).respill q.wid q.split q.clk q.grid.score 64).quick q) := by
  simp [joinBody, Wave.setEntry, hk, he, hs]

/-- The JOIN of a started entry joins the two groups (R88). -/
theorem joinBody_meets {k : Nat} {e : REntry} (hk : q.w.entryFor q.split = some k) (he : q.w.stack[k]? = some e) (hs : e.started = true)
    (hj : e.join = q.pc) :
    joinBody q s = .done ((((s.modWave q.wid fun w => w.dropEntry k).keepGroup q
      ((q.w.split q.split).mask ||| e.held) (q.pc + 12)).respill q.wid q.split q.clk q.grid.score 64).quick q) := by
  simp [joinBody, Wave.dropEntry, hk, he, hs, hj]

/-- With no entry, a JOIN fuses with a split that is held at it (R88). -/
theorem joinBody_fuses {k : Nat} (hk : q.w.entryFor q.split = none) (h0 : q.w.spilled = 0) (hh : q.w.heldAt q.split q.pc = some k) :
    joinBody q s = .done (((s.respill q.wid q.split q.clk q.grid.score 64).fuse q.wid q.split k (q.pc + 12)).quick q) := by
  simp [joinBody, hk, spilledFor_none _ _ h0, hh]

/-- With no entry and no split held there, a JOIN holds its split, and goes on if no split runs (R88). -/
theorem joinBody_holds (hk : q.w.entryFor q.split = none) (h0 : q.w.spilled = 0) (hh : q.w.heldAt q.split q.pc = none) :
    joinBody q s = .done (((s.respill q.wid q.split q.clk q.grid.score 64).modWave q.wid fun w =>
      (w.modSplit q.split fun p => { p with joinHeld := true, pc := q.pc }).unstick).quick q) := by
  simp [joinBody, hk, spilledFor_none _ _ h0, hh]

end

theorem exec_join (h : Hints) (s : State) : exec (.join h) s = runInstr (.join h) h joinBody s := rfl

theorem newest_unstick (w : Wave) (x : Target) : w.unstick.newest x = w.newest x := by
  obtain ⟨splits, h⟩ := unstick_eq w
  rw [h]
  cases x <;> rfl

/-- The split that a JOIN finds held at an address is another one. -/
theorem heldAt_ne {w : Wave} {split k : Nat} {pc : DWord} (h : w.heldAt split pc = some k) : k ≠ split := by
  have := List.find?_some h
  simp only [Bool.and_eq_true, bne_iff_ne] at this
  exact this.1.1.1

theorem heldAt_alone {w : Wave} {split : Nat} {pc : DWord} (h : ∀ j, j < 4 → j ≠ split → (w.split j).live = false) :
    w.heldAt split pc = none := by
  refine List.find?_eq_none.mpr fun j hj => ?_
  obtain ⟨hj4, hl⟩ := List.mem_filter.mp hj
  by_cases e : j = split
  · simp [e]
  · rw [h j (List.mem_range.mp hj4) e] at hl
    cases hl

/-- The wave of a split that a JOIN holds. -/
def joinedWave (q : Iss) : Wave := (issuedWave q).modSplit q.split fun p => { p with joinHeld := true, pc := q.pc }

theorem joinedWave_own (q : Iss) :
    (joinedWave q).split q.split = { q.w.split q.split with prev := some q.clk, joinHeld := true, pc := q.pc } := by
  refine (Wave.split_modSplit ..).trans ((if_pos rfl).trans ?_)
  rw [issuedWave_own]

theorem joinedWave_other {q : Iss} {j : Nat} (hj : j ≠ q.split) : (joinedWave q).split j = q.w.split j :=
  (Wave.split_modSplit ..).trans ((if_neg hj).trans (issuedWave_other hj))

/-- Settles O11: one clause for each of the five cases that the body of JOIN distinguishes. -/
theorem joinReconverges : Obligations.JoinReconverges := by
  unfold Obligations.JoinReconverges
  intro s q h hi h16
  obtain ⟨hw, -, -, -, -, -, hmask, -⟩ := sight_some hi.1
  obtain ⟨hlive, -, htrap, -⟩ := sight_split hi.1
  have hv : tfind (s.issued (.join h) q).waves q.wid = some (issuedWave q) := wave_issued ..
  have hshort := respill_short q.split q.clk q.grid.score 64 hv h16
  refine ⟨fun k e hk he hs => ?_, fun k e hk he hs hj => ?_, fun k hk h0 hh => ?_, fun j hk h0 hh hj4 hj hjl hjh hjt => ?_,
    fun hk h0 h4 halone => ?_⟩
  · have hb := joinBody_starts (s := s.issued (.join h) q) hk he hs
    have hv1 := tfind_modWave_some (fun w => w.setEntry k { e with held := (q.w.split q.split).mask, join := q.pc, started := true }) hv
    have hv2 := tfind_keepGroup e.mask e.resume hv1
    rw [respill_short _ _ _ _ hv2 ((List.length_set ..).trans_le h16)] at hb
    refine completes_quick hi (exec_join h s) hb
      ((quiet_modWave q _ fun w x => newest_stack w _ x).trans (quiet_keepGroup ..)) hv2 fun pend k => ⟨?_, ?_, ?_⟩
    · exact congrArg Split.pc (keepGroup_own ..)
    · exact congrArg Split.mask (keepGroup_own ..)
    · rw [hmask]; rfl
  · have hb := joinBody_meets (s := s.issued (.join h) q) hk he hs hj
    have hv1 := tfind_modWave_some (fun w => w.dropEntry k) hv
    have hv2 := tfind_keepGroup ((q.w.split q.split).mask ||| e.held) (q.pc + 12) hv1
    rw [respill_short _ _ _ _ hv2 ((List.length_eraseIdx_le ..).trans h16)] at hb
    refine completes_quick hi (exec_join h s) hb
      ((quiet_modWave q _ fun w x => newest_stack w _ x).trans (quiet_keepGroup ..)) hv2 fun pend k => ⟨?_, ?_, rfl⟩
    · exact congrArg Split.pc (keepGroup_own ..)
    · exact (congrArg Split.mask (keepGroup_own ..)).trans (congrArg (· ||| e.held) hmask.symm)
  · have hb := joinBody_fuses (s := s.issued (.join h) q) hk h0 hh
    rw [hshort] at hb
    have hne := heldAt_ne hh
    obtain ⟨p, hlo, hpc, hm, hfuse⟩ := fuse_unspilled q.split k (q.pc + 12) hv h0
    have hown := fused_low (issuedWave q) p hne.symm
    rw [hfuse] at hb
    refine completes_quick hi (exec_join h s) hb ((quiet_setWave hv fun x => newest_fused _ _ _ p x).trans (quiet_renumber ..))
      (tfind_renumber _ _ (tfind_tput_self ..)) fun pend n => ⟨(congrArg Split.live hown).trans hlo, (congrArg Split.pc hown).trans hpc,
        (congrArg Split.mask hown).trans (hm.trans ?_), congrArg Split.live (fused_high ..)⟩
    have ho : ((issuedWave q).split q.split).mask = q.mask := by rw [issuedWave_own, hmask]
    have hk' : (issuedWave q).split k = q.w.split k := issuedWave_other hne
    rcases Nat.le_total q.split k with hle | hle
    · rw [Nat.min_eq_left hle, Nat.max_eq_right hle, ho, hk']
    · rw [Nat.min_eq_right hle, Nat.max_eq_left hle, ho, hk', BitVec.or_comm]
  · have hb := joinBody_holds (s := s.issued (.join h) q) hk h0 hh
    rw [hshort] at hb
    have hrun : (joinedWave q).unstick = joinedWave q := by
      refine unstick_running hj4 ?_ ?_ ?_ <;> rw [joinedWave_other hj] <;> assumption
    have hv1 : tfind ((s.issued (.join h) q).modWave q.wid fun w =>
        (w.modSplit q.split fun p => { p with joinHeld := true, pc := q.pc }).unstick).waves q.wid = some (joinedWave q) := by
      rw [tfind_modWave_self, hv, Option.map_some]
      exact congrArg some hrun
    refine completes_quick hi (exec_join h s) hb (quiet_modWave q _ fun w x => (newest_unstick ..).trans (newest_modSplit ..)) hv1
      fun pend n => ⟨?_, ?_, ?_⟩
    · exact congrArg Split.joinHeld (joinedWave_own q)
    · exact congrArg Split.pc (joinedWave_own q)
    · exact (congrArg Split.mask (joinedWave_own q)).trans hmask.symm
  · have hb := joinBody_holds (s := s.issued (.join h) q) hk h0 (heldAt_alone halone)
    rw [hshort] at hb
    have hone : (joinedWave q).liveSplits = [q.split] := by
      refine liveSplits_alone h4 ?_ fun j hj4 hj => ?_
      · rw [joinedWave_own, hlive]
      · rw [joinedWave_other hj, halone j hj4 hj]
    have hgo := unstick_alone hone (by rw [joinedWave_own]) (by rw [joinedWave_own, htrap])
    have hv1 := (tfind_modWave_some (fun w => (w.modSplit q.split fun p => { p with joinHeld := true, pc := q.pc }).unstick) hv).trans
      (congrArg some hgo)
    have hown := (Wave.split_modSplit (joinedWave q) q.split (fun p => { p with joinHeld := false, pc := p.pc + 12 }) q.split).trans
      (if_pos rfl)
    rw [joinedWave_own] at hown
    refine completes_moved hi (exec_join h s) hb (quiet_modWave q _ fun w x => (newest_unstick ..).trans (newest_modSplit ..)) hv1
      (issuedWave_keeps q) rfl (congrArg Split.pc hown) ((congrArg Split.mask hown).trans hmask.symm) fun j hj => ?_
    exact (Wave.split_modSplit ..).trans ((if_neg hj).trans (joinedWave_other hj))

end Sys2Proof.Machine
end

section
/-! PROOFS. EXIT (R83, R89, R215). -/

namespace Sys2Proof.Machine

set_option Elab.async false

section
variable {s : State} {q : Iss}

theorem exitBody_stays (hm : (q.w.split q.split).mask &&& ~~~q.part ≠ 0) :
    exitBody q s = .done ((s.keepGroup q ((q.w.split q.split).mask &&& ~~~q.part) (q.pc + 12)).quick q) :=
  if_pos (bne_iff_ne.mpr hm)

/-- A split whose last lane ends goes on with one group of its newest entry, the held one once the other has run (R89). -/
theorem exitBody_pops (hm : (q.w.split q.split).mask &&& ~~~q.part = 0) {k : Nat} {e : REntry}
    (hk : q.w.entryFor q.split = some k) (he : q.w.stack[k]? = some e) :
    exitBody q s = .done ((((s.modWave q.wid fun w => w.dropEntry k).keepGroup q (if e.started then e.held else e.mask)
      (if e.started then e.join + 12 else e.resume)).respill q.wid q.split q.clk q.grid.score 64).quick q) := by
  cases hs : e.started <;> simp [exitBody, Wave.dropEntry, hm, hk, he, hs]

theorem exitBody_ends (hm : (q.w.split q.split).mask &&& ~~~q.part = 0) (hk : q.w.entryFor q.split = none) (h0 : q.w.spilled = 0)
    {v : Wave} (hv : tfind ((s.respill q.wid q.split q.clk q.grid.score 64).modWave q.wid fun w => w.setSplit q.split Split.off).waves q.wid
      = some v) :
    exitBody q s =
      if v.anyLive then .done (((((s.respill q.wid q.split q.clk q.grid.score 64).modWave q.wid fun w => w.setSplit q.split Split.off).setWave
        q.wid v.unstick).renumber q.wid q.split 4).quick q)
      else .done ((((s.respill q.wid q.split q.clk q.grid.score 64).modWave q.wid fun w => w.setSplit q.split Split.off).raiseCnt
        q q.cnt).waveExit q) := by
  simp [exitBody, hm, hk, spilledFor_none _ _ h0, hv]

end

theorem exec_exit (h : Hints) (s : State) : exec (.exit h) s = runInstr (.exit h) h exitBody s := rfl

/-! What the end of a wave leaves alone, and what it leaves of the wave. -/

theorem dropAllRefs_sameWaves (s : State) (wid : Nat) : SameWaves s (s.dropAllRefs wid) := by
  unfold State.dropAllRefs
  split
  · exact .foldl _ _ (fun _ _ => dropRef_sameWaves ..) _
  · exact .rfl' s

theorem gridWavesDone_sameWaves (s : State) (g : Nat) : SameWaves s (s.gridWavesDone g) := by
  unfold State.gridWavesDone
  split
  · exact .rfl' s
  · split
    · exact ⟨rfl, rfl, rfl, rfl, rfl⟩
    · exact .rfl' s

/-- A release of a scope beyond the wave stands with its wave, and changes nothing else of it (R140). -/
theorem tfind_addRel {s : State} {wid : Nat} {w : Wave} {scope : Scope} (seq : Nat) (cnt : List Nat) (cont : Cont) (split : Nat)
    (pc : DWord) (word : BitVec 96) (lanes : Word) (hw : tfind s.waves wid = some w) (hs : scope ≠ .wave) :
    tfind (s.addRel wid scope seq cnt cont split pc word lanes).waves wid
      = some { w with rels := w.rels ++ [⟨s.nextId, seq, scope, cnt, cont, split, pc, word, lanes, none, s.t7⟩] } := by
  rw [State.addRel, if_neg hs]
  exact tfind_modWave_some (s := { s with nextId := s.nextId + 1 }) _ hw

theorem addRel_sameMemory (s : State) (wid : Nat) (scope : Scope) (seq : Nat) (cnt : List Nat) (cont : Cont) (split : Nat) (pc : DWord)
    (word : BitVec 96) (lanes : Word) : SameMemory s (s.addRel wid scope seq cnt cont split pc word lanes) := by
  unfold State.addRel
  split
  · exact sameMemory_modWave ..
  · exact sameMemory_modWave { s with nextId := s.nextId + 1 } _ _

/-- The end of a wave: no byte of memory changes, it is EXITED without registers, and its exit release stands (R83, R215). -/
theorem waveExit_spec {s : State} {q : Iss} {w : Wave} (hw : tfind s.waves q.wid = some w) :
    SameMemory s (s.waveExit q) ∧ ∃ v, tfind (s.waveExit q).waves q.wid = some v ∧ v.stat = .exited ∧ v.v = []
      ∧ ∃ r ∈ v.rels, r.seq = q.seq ∧ r.scope = .sys := by
  unfold State.waveExit
  extract_lets s1 s2 s3 s4
  have h1 : SameWaves s s1 := dropAllRefs_sameWaves ..
  have h2 : SameWaves s s2 := by
    refine h1.trans ?_
    simp only [s2]
    split
    · exact ⟨rfl, rfl, rfl, rfl, rfl⟩
    · exact .rfl' s1
  have hw3 : tfind s3.waves q.wid = some
      { w with stat := .exited, v := [], pend := [], chain := none, handler := none, heldTraps := [], exiting := true } :=
    tfind_modWave_some _ (h2.1 ▸ hw)
  have h3 : SameMemory s2 s3 := sameMemory_modWave ..
  have h4 : SameMemory s3 s4 := addRel_sameMemory ..
  have hw4 := tfind_addRel q.seq q.cnt .nothing q.split q.pc q.word q.part hw3 (scope := .sys) (by decide)
  have h5 := gridWavesDone_sameWaves s4 q.team.grid
  refine ⟨((h2.sameMemory.trans h3).trans h4).trans h5.sameMemory, _, (congrArg (tfind · q.wid) h5.1).trans hw4, rfl, rfl,
    _, List.mem_append_right _ (List.mem_singleton_self _), rfl, rfl⟩

theorem liveSplits_eq_nil {w : Wave} (h : ∀ j, j < 4 → (w.split j).live = false) : w.liveSplits = [] :=
  List.filter_eq_nil_iff.mpr fun j hj => by simp [h j (List.mem_range.mp hj)]

theorem anyLive_of_live {w : Wave} {j : Nat} (h4 : j < 4) (hj : (w.split j).live = true) : w.anyLive = true := by
  have hmem : j ∈ w.liveSplits := List.mem_filter.mpr ⟨List.mem_range.mpr h4, hj⟩
  have hne : w.liveSplits.isEmpty = false := List.isEmpty_eq_false_iff_exists_mem.mpr ⟨j, hmem⟩
  rw [Wave.anyLive, hne, Bool.not_false, Bool.true_or]

/-- The wave whose split at issue ends. -/
def endedWave (q : Iss) : Wave := (issuedWave q).setSplit q.split Split.off

theorem endedWave_own (q : Iss) : (endedWave q).split q.split = Split.off := (Wave.split_setSplit ..).trans (if_pos rfl)

theorem endedWave_other {q : Iss} {j : Nat} (hj : j ≠ q.split) : (endedWave q).split j = q.w.split j :=
  (Wave.split_setSplit ..).trans ((if_neg hj).trans (issuedWave_other hj))

/-- Settles O12: one clause for each way in which EXIT leaves its split. -/
theorem exitEndsLanes : Obligations.ExitEndsLanes := by
  unfold Obligations.ExitEndsLanes
  intro s q h hi h16
  obtain ⟨hw, -, -, -, -, -, hmask, -, -, -, -, hready, -⟩ := sight_some hi.1
  have hv : tfind (s.issued (.exit h) q).waves q.wid = some (issuedWave q) := wave_issued ..
  have hshort := respill_short q.split q.clk q.grid.score 64 hv h16
  have hv1 : tfind ((s.issued (.exit h) q).modWave q.wid fun w => w.setSplit q.split Split.off).waves q.wid = some (endedWave q) :=
    tfind_modWave_some (fun w => w.setSplit q.split Split.off) hv
  rw [hmask]
  refine ⟨fun hm => ?_, fun k e hm hk he => ?_, fun j hm hk h0 hj4 hj hjl => ?_, fun hm h0 halone => ?_⟩
  · have hown := keepGroup_own (issuedWave q) q ((q.w.split q.split).mask &&& ~~~q.part) (q.pc + 12)
    exact completes_quick hi (exec_exit h s) (exitBody_stays hm) (quiet_keepGroup ..) (tfind_keepGroup _ _ hv) fun pend k =>
      ⟨congrArg Split.pc hown, congrArg Split.mask hown⟩
  · have hb := exitBody_pops (s := s.issued (.exit h) q) hm hk he
    have hv2 := tfind_keepGroup (if e.started then e.held else e.mask) (if e.started then e.join + 12 else e.resume)
      (tfind_modWave_some (fun w => w.dropEntry k) hv)
    rw [respill_short _ _ _ _ hv2 ((List.length_eraseIdx_le ..).trans h16)] at hb
    exact completes_quick hi (exec_exit h s) hb ((quiet_modWave q _ fun w x => newest_stack w _ x).trans (quiet_keepGroup ..)) hv2
      fun pend k => ⟨rfl, congrArg Split.pc (keepGroup_own ..), congrArg Split.mask (keepGroup_own ..)⟩
  · have hb := exitBody_ends (s := s.issued (.exit h) q) hm hk h0 (v := endedWave q) (by rw [hshort]; exact hv1)
    rw [hshort, if_pos (anyLive_of_live hj4 (by rw [endedWave_other hj, hjl]))] at hb
    have hq2 : Quiet q (s.issued (.exit h) q) ((s.issued (.exit h) q).modWave q.wid fun w => w.setSplit q.split Split.off) :=
      quiet_modWave q _ fun w x => newest_setSplit ..
    refine completes_quick hi (exec_exit h s) hb ((hq2.trans (quiet_setWave hv1 fun x => newest_unstick ..)).trans (quiet_renumber ..))
      (tfind_renumber _ _ (tfind_tput_self ..)) fun pend k => ⟨?_, ?_⟩
    · exact (live_unstick (endedWave q) q.split).trans (congrArg Split.live (endedWave_own q))
    · obtain ⟨splits, hu⟩ := unstick_eq (endedWave q)
      exact (congrArg Wave.stat hu).trans hready
  · obtain ⟨hst, hsp⟩ : q.w.stack.length = 0 ∧ q.w.spilled = 0 := Nat.add_eq_zero_iff.mp h0
    have hk : q.w.entryFor q.split = none := by rw [Wave.entryFor, List.length_eq_zero_iff.mp hst]; rfl
    have hb := exitBody_ends (s := s.issued (.exit h) q) hm hk hsp (v := endedWave q) (by rw [hshort]; exact hv1)
    have hover : (endedWave q).anyLive = false := by
      have hnone : (endedWave q).liveSplits = [] := liveSplits_eq_nil fun j hj4 => by
        by_cases hj : j = q.split
        · rw [hj, endedWave_own]; rfl
        · rw [endedWave_other hj, halone j hj4 hj]
      have hd : (endedWave q).depth = 0 := h0
      rw [Wave.anyLive, hnone, hd]
      rfl
    rw [hshort, hover, if_neg Bool.false_ne_true] at hb
    obtain ⟨hmem, v, hvx, hstat, hregs, r, hr, hrel⟩ := waveExit_spec (tfind_modWave_some (fun w => w.raise q.cnt) hv1)
    refine ⟨_, (exec_exit h s).trans (runInstr_done hi hb), ?_, v, hvx, hstat, hregs, r, hr, hrel⟩
    exact (((quiet_issued hi.1).1.trans (sameMemory_modWave ..)).trans (sameMemory_modWave ..)).trans hmem

end Sys2Proof.Machine
end

section
/-! PROOFS. REGION and REGEND (R97, R218, R220). -/

namespace Sys2Proof.Machine

set_option Elab.async false

/-- Two waves whose predicates, quad registers and special registers agree. -/
def Wave.agrees (v w : Wave) : Prop := v.p = w.p ∧ v.q = w.q ∧ v.x = w.x

theorem agrees_store {v w : Wave} (h : v.agrees w) (t : Target) (n : Nat) : (v.store t n).agrees (w.store t n) := by
  obtain ⟨hp, hq, hx⟩ := h
  cases t with
  | p i l => exact ⟨by simp only [Wave.store, hp], hq, hx⟩
  | q i => exact ⟨hp, by simp only [Wave.store, hq], hx⟩
  | v r l => exact ⟨hp, hq, hx⟩
  | s i => exact ⟨hp, hq, hx⟩

theorem fall_eq (w : Wave) (ks : List Nat) : ∃ k, w.fall ks = { w with k := k } := by
  induction ks generalizing w with
  | nil => exact ⟨w.k, rfl⟩
  | cons k ks ih => exact ih _

theorem agrees_writeback {v w : Wave} (h : v.agrees w) (p : Writeback) :
    (((p.writes.foldl (fun w e => w.store e.1 e.2) v).orFlags p.flags).fall p.cnt).agrees
      (((p.writes.foldl (fun w e => w.store e.1 e.2) w).orFlags p.flags).fall p.cnt) := by
  have hs : (p.writes.foldl (fun w e => w.store e.1 e.2) v).agrees (p.writes.foldl (fun w e => w.store e.1 e.2) w) :=
    List.foldl_rel h fun e _ _ _ h => agrees_store h e.1 e.2
  obtain ⟨hp, hq, hx⟩ := hs
  obtain ⟨k, hk⟩ := fall_eq ((p.writes.foldl (fun w e => w.store e.1 e.2) v).orFlags p.flags) p.cnt
  obtain ⟨l, hl⟩ := fall_eq ((p.writes.foldl (fun w e => w.store e.1 e.2) w).orFlags p.flags) p.cnt
  rw [hk, hl]
  exact ⟨hp, hq, by simp only [Wave.orFlags, Wave.setX, Wave.xreg, hx]⟩

/-- What is in flight is counted as written in the same way in waves that agree. -/
theorem agrees_flush {v w : Wave} (h : v.agrees w) (hp : v.pend = w.pend) : v.flush.agrees w.flush := by
  unfold Wave.flush
  rw [hp]
  exact List.foldl_rel (r := Wave.agrees) h fun p _ _ _ h => agrees_writeback h p

theorem exec_region (h : Hints) (n : Word) (s : State) : exec (.region h n) s = runInstr (.region h n) h (regionBody n) s := rfl

/-- The record of the state to which a discard returns, and the wave with the region that it opens (R97). -/
def openedRegion (w : Wave) (q : Iss) (n : Word) : RegionRec :=
  ⟨q.pc + 12, q.mask, w.flush.p, w.f, w.flush.q, w.flush.xreg 16, w.chain, n⟩

def regionWave (q : Iss) (n : Word) (w : Wave) : Wave :=
  { w.setX 10 (w.xreg 10 + 1) with region := some (openedRegion w q n) }

theorem regionBody_opens {q : Iss} (n : Word) (s : State) (hl : q.w.liveSplits.length ≤ 1) (h0 : q.w.depth = 0) :
    regionBody n q s = .done ((s.modWave q.wid (regionWave q n)).quick q) :=
  if_neg fun hc => hc.elim (Nat.not_lt.mpr hl) (by rw [h0]; exact Nat.lt_irrefl 0)

theorem newest_regionWave (q : Iss) (n : Word) (w : Wave) (x : Target) : (regionWave q n w).newest x = w.newest x := by cases x <;> rfl

/-- REGION waits until every counter is 0 (R218). -/
theorem region_counters {s : State} {q : Iss} {h : Hints} {n : Word} (hi : Issues (.region h n) h s q) {j : Nat} (hj : j < 12) :
    q.w.kreg j = 0 := by
  obtain ⟨-, -, hheld, -⟩ := hi
  simp only [heldBack, Bool.or_eq_false_iff, Bool.not_eq_false'] at hheld
  obtain ⟨⟨-, hmet⟩, -⟩ := hheld
  exact beq_iff_eq.mp (List.all_eq_true.mp hmet j (List.mem_range.mpr hj))

/-- A wave whose region has closed: its region and the marks of its requests and buffered stores are gone (R220). -/
theorem quiet_closeRegion {q : Iss} {s : State} {w : Wave} (hw : tfind s.waves q.wid = some w) : Quiet q s (s.closeRegion q.wid) := by
  obtain ⟨hphys, hcore, hclu, hdie, -, -, hwaves⟩ := closeRegion_spec s q.wid hw
  refine ⟨⟨fun pa => by rw [hphys], fun l u o => by simp only [State.spByte, hcore, hclu, hdie]⟩,
    fun k hk => (hwaves k).trans (if_neg hk), fun x => ?_⟩
  rw [State.newest, hwaves, if_pos rfl, State.newest, hw]
  cases x <;> rfl

theorem closeRegion_opens {q : Iss} {s : State} {w : Wave} (hw : tfind s.waves q.wid = some w) :
    ∃ v, tfind (s.closeRegion q.wid).waves q.wid = some v ∧ v.region = none ∧ ∀ e ∈ v.sb, ∀ b ∈ e.bytes, b.rtag = none := by
  obtain ⟨-, -, -, -, -, -, hwaves⟩ := closeRegion_spec s q.wid hw
  refine ⟨_, (hwaves q.wid).trans (if_pos rfl), rfl, fun e he b hb => ?_⟩
  obtain ⟨e', -, rfl⟩ := List.mem_map.mp he
  obtain ⟨b', -, rfl⟩ := List.mem_map.mp hb
  rfl

/-- REGEND's effect (R220). -/
def regendBody (q : Iss) (s : State) : Res := .done ((if q.w.region.isSome then s.closeRegion q.wid else s).quick q)

theorem exec_regend (h : Hints) (s : State) : exec (.regend h) s = runInstr (.regend h) h regendBody s := rfl

theorem region_opens {s : State} {q : Iss} {h : Hints} {n : Word} (hi : Issues (.region h n) h s q)
    (hl : q.w.liveSplits.length ≤ 1) (h0 : q.w.depth = 0) :
    Completes (.region h n) s fun t => Quiet q s t ∧ ∃ w, tfind t.waves q.wid = some w
      ∧ w.region = some (openedRegion (issuedWave q) q n) ∧ w.xreg 10 = q.w.xreg 10 + 1 :=
  completes_quick hi (exec_region h n s) (regionBody_opens n _ hl h0) (quiet_modWave q _ fun w x => newest_regionWave q n w x)
    (tfind_modWave_some _ (wave_issued ..)) fun _ _ => ⟨rfl, tget_tset_self ..⟩

theorem regend_closes {s : State} {q : Iss} {h : Hints} (hi : Issues (.regend h) h s q) :
    Completes (.regend h) s fun t => Quiet q s t ∧ ∃ w, tfind t.waves q.wid = some w ∧ w.region = none
      ∧ (q.w.region.isSome = true → ∀ e ∈ w.sb, ∀ b ∈ e.bytes, b.rtag = none) := by
  have hv : tfind (s.issued (.regend h) q).waves q.wid = some (issuedWave q) := wave_issued ..
  cases hr : q.w.region with
  | none =>
    have hb : regendBody q (s.issued (.regend h) q) = .done ((s.issued (.regend h) q).quick q) := by rw [regendBody, hr]; rfl
    exact completes_quick hi (exec_regend h s) hb (.refl ..) hv fun _ _ => ⟨hr, by simp⟩
  | some r =>
    have hb : regendBody q (s.issued (.regend h) q) = .done (((s.issued (.regend h) q).closeRegion q.wid).quick q) := by
      rw [regendBody, hr]; rfl
    obtain ⟨v, hvc, hnone, hsb⟩ := closeRegion_opens hv
    exact completes_quick hi (exec_regend h s) hb (quiet_closeRegion hv) hvc fun _ _ => ⟨hnone, fun _ => hsb⟩

/-- Settles O13: the record is of the wave that has issued, whose registers, with what is in flight, are those that it had. -/
theorem regionsOpenAndClose : Obligations.RegionsOpenAndClose := by
  unfold Obligations.RegionsOpenAndClose
  refine ⟨fun s q h n hi hl h0 => ⟨fun j hj => region_counters hi hj, ?_⟩, fun s q h hi => regend_closes hi⟩
  obtain ⟨t, ht, hquiet, w, hw, hr, hx⟩ := region_opens hi hl h0
  obtain ⟨hp, hq, hx16⟩ := agrees_flush (v := issuedWave q) (w := q.w) ⟨rfl, rfl, rfl⟩ rfl
  exact ⟨t, ht, hquiet, w, _, hw, hr, rfl, rfl, hp, rfl, hq, congrArg (tget 0 · 16) hx16, rfl, rfl, hx⟩

end Sys2Proof.Machine
end

section
/-! PROOFS. The division of a split (R86, R90, R211, R212): a group of lanes sent to its address stands in a split, in a stack entry, or, once
the stack holds more than 16, in an entry of the spill area. -/

namespace Sys2Proof.Machine

set_option Elab.async false

/-! Masks. -/

theorem ofBits_testBit (f : Nat → Bool) (n i : Nat) :
    ((List.range n).foldl (fun m j => if f j then m + 2 ^ j else m) 0).testBit i = (decide (i < n) && f i) := by
  have hlt : ∀ n, (List.range n).foldl (fun m j => if f j then m + 2 ^ j else m) 0 < 2 ^ n := by
    intro n
    induction n with
    | zero => exact Nat.one_pos
    | succ n ih =>
      rw [List.range_succ, List.foldl_append, List.foldl_cons, List.foldl_nil, Nat.pow_succ]
      split <;> omega
  induction n with
  | zero => simp
  | succ n ih =>
    rw [List.range_succ, List.foldl_append, List.foldl_cons, List.foldl_nil]
    rcases Nat.lt_trichotomy i n with h | rfl | h
    · split
      · rw [Nat.add_comm, Nat.testBit_two_pow_add_gt h, ih]
        simp [h, Nat.lt_succ_of_lt h]
      · rw [ih]
        simp [h, Nat.lt_succ_of_lt h]
    · split
      · next hf => rw [Nat.add_comm, Nat.testBit_two_pow_add_eq, ih]; simp [hf]
      · next hf => rw [ih]; simp [hf]
    · have hsmall : 2 ^ (n + 1) ≤ 2 ^ i := Nat.pow_le_pow_right (by decide) h
      have := hlt n
      rw [Nat.testBit_lt_two_pow (by rw [Nat.pow_succ] at hsmall; split <;> omega)]
      simp [Nat.not_lt.mpr (Nat.succ_le_of_lt h)]

theorem getLsbD_maskOf (f : Nat → Bool) {l : Nat} (hl : l < 32) : (maskOf f).getLsbD l = f l := by
  rw [maskOf, ofBits, BitVec.getLsbD_ofNat, ofBits_testBit]
  simp [hl]

/-! Changes that leave memory, the other waves and the newest values of registers alone. -/

/-- As `Quiet`, except that the scratchpads may change. -/
def Undisturbed (q : Iss) (s u : State) : Prop :=
  (∀ pa, u.phys.byte pa = s.phys.byte pa) ∧ OtherWaves q.wid s u ∧ ∀ x, u.newest q.wid x = s.newest q.wid x

theorem undisturbed_of_quiet {q : Iss} {s u : State} (h : Quiet q s u) : Undisturbed q s u := by
  obtain ⟨⟨hp, -⟩, ho, hn⟩ := h
  exact ⟨hp, ho, hn⟩

theorem Undisturbed.trans {q : Iss} {s t u : State} (hst : Undisturbed q s t) (htu : Undisturbed q t u) : Undisturbed q s u := by
  obtain ⟨hp, ho, hn⟩ := hst
  obtain ⟨hp', ho', hn'⟩ := htu
  exact ⟨fun pa => (hp' pa).trans (hp pa), fun k hk => (ho' k hk).trans (ho k hk), fun x => (hn' x).trans (hn x)⟩

/-- An instruction that keeps all but scratchpads, and then counts, completes; its wave stands as the effect left it, but for what is in
flight and for its counters. -/
theorem completes_undisturbed {s u : State} {i : Instr} {h : Hints} {q : Iss} {body : Iss → State → Res} {v : Wave} {P : State → Prop}
    (hi : Issues i h s q) (he : exec i s = runInstr i h body s) (hb : body q (s.issued i q) = .done (u.quick q))
    (hu : Undisturbed q (s.issued i q) u) (hv : tfind u.waves q.wid = some v)
    (hP : ∀ t pend k, Undisturbed q s t → (SameMemory (s.issued i q) u → SameMemory s t) → (∀ l n o, t.spByte l n o = u.spByte l n o) →
      tfind t.waves q.wid = some { v with pend := pend, k := k } → P t) : Completes i s P := by
  have hq := hi.1
  obtain ⟨pend, hw⟩ := tfind_quick hv
  obtain ⟨k, hk⟩ := raise_eq { v with pend := pend } q.cnt
  have hqk := quiet_quick q u
  exact ⟨u.quick q, he.trans (runInstr_done hi hb), hP _ pend k
    (((undisturbed_of_quiet (quiet_issued hq)).trans hu).trans (undisturbed_of_quiet hqk))
    (fun hm => ((quiet_issued hq).1.trans hm).trans hqk.1) hqk.1.2 (hk ▸ hw)⟩

/-! The image of a stack entry (R90). -/

theorem leBytes_length (n x : Nat) : (leBytes n x).length = n := by rw [leBytes_eq_map, List.length_map, List.length_range]

theorem image_length (e : REntry) : e.image.length = 32 := leBytes_length ..

theorem field_lt {a b i j : Nat} (ha : a < 2 ^ i) (hb : b < 2 ^ j) : a + b * 2 ^ i < 2 ^ (i + j) := by
  calc a + b * 2 ^ i < (b + 1) * 2 ^ i := by rw [Nat.add_mul, Nat.one_mul]; omega
    _ ≤ 2 ^ j * 2 ^ i := Nat.mul_le_mul_right _ hb
    _ = 2 ^ (i + j) := by rw [Nat.pow_add, Nat.mul_comm]

/-- A field of a number that is laid out in fields. -/
theorem field_at {lo x hi i j : Nat} (hlo : lo < 2 ^ i) (hx : x < 2 ^ j) : (lo + x * 2 ^ i + hi * 2 ^ (i + j)) / 2 ^ i % 2 ^ j = x := by
  have e : lo + x * 2 ^ i + hi * 2 ^ (i + j) = lo + (x + hi * 2 ^ j) * 2 ^ i := by
    rw [Nat.add_mul, Nat.mul_assoc, ← Nat.pow_add, Nat.add_comm j i, Nat.add_assoc]
  rw [e, Nat.add_mul_div_right _ _ (Nat.two_pow_pos i), Nat.div_eq_of_lt hlo, Nat.zero_add, Nat.add_mul_mod_self_right,
    Nat.mod_eq_of_lt hx]

/-- The bits of an image below its return address. -/
def REntry.low (e : REntry) : Nat := (if e.started then 2 ^ 77 else 0) + e.split % 4 * 2 ^ 78 + e.join.toNat % 2 ^ 56 * 2 ^ 80

theorem REntry.low_lt (e : REntry) : e.low < 2 ^ 136 := by
  have h0 : (if e.started then 2 ^ 77 else 0 : Nat) < 2 ^ 78 := by split <;> decide
  have h1 := field_lt h0 (Nat.mod_lt e.split (show 0 < 2 ^ 2 by decide))
  exact field_lt (i := 80) (j := 56) h1 (Nat.mod_lt e.join.toNat (Nat.two_pow_pos 56))

theorem leNat_image (e : REntry) :
    leNat e.image = e.low + e.resume.toNat % 2 ^ 56 * 2 ^ 136 + e.held.toNat * 2 ^ 192 + e.mask.toNat * 2 ^ 224 := by
  have h1 := field_lt e.low_lt (Nat.mod_lt e.resume.toNat (Nat.two_pow_pos 56))
  have h2 := field_lt (i := 192) h1 e.held.isLt
  have h3 := field_lt (i := 224) h2 e.mask.isLt
  rw [REntry.image, leNat_leBytes]
  exact Nat.mod_eq_of_lt h3

/-- What lies in the spill area is the entry, its address cut to 56 bits. -/
theorem entryOf_image (e : REntry) : (entryOf e.image).1.mask = e.mask ∧ (entryOf e.image).1.resume = (e.resume.setWidth 56).setWidth 64 := by
  have hr := Nat.mod_lt e.resume.toNat (Nat.two_pow_pos 56)
  have h1 := field_lt e.low_lt hr
  have h2 := field_lt (i := 192) h1 e.held.isLt
  have h3 := field_lt (i := 224) h2 e.mask.isLt
  have hn : (BitVec.ofNat 256 (leNat e.image)).toNat = leNat e.image := by
    rw [BitVec.toNat_ofNat, leNat_image]
    exact Nat.mod_eq_of_lt h3
  constructor
  · apply BitVec.eq_of_toNat_eq
    have := field_at (hi := 0) h2 e.mask.isLt
    rw [Nat.zero_mul, Nat.add_zero] at this
    rw [entryOf, BitVec.extractLsb'_toNat, Nat.shiftRight_eq_div_pow, hn, leNat_image]
    exact this
  · apply BitVec.eq_of_toNat_eq
    have := field_at (hi := e.held.toNat + e.mask.toNat * 2 ^ 32) e.low_lt hr
    rw [Nat.add_mul, Nat.mul_assoc, ← Nat.pow_add, ← Nat.add_assoc] at this
    rw [entryOf, BitVec.toNat_setWidth, BitVec.extractLsb'_toNat, Nat.shiftRight_eq_div_pow, hn, leNat_image, BitVec.toNat_setWidth,
      BitVec.toNat_setWidth]
    exact congrArg (· % 2 ^ 64) this

/-- What has just been written is read back. -/
theorem spRead_spWrite_self (s : State) (lvl unit off : Nat) (bs : List Byte) :
    (s.spWrite lvl unit off bs).spRead lvl unit off bs.length = bs := by
  refine List.ext_getElem (by simp [State.spRead]) fun i h1 h2 => ?_
  simp only [State.spRead, List.getElem_map, List.getElem_range, spByte_spWrite]
  rw [if_pos (by omega), Nat.add_sub_cancel_left, List.getD_eq_getElem _ _ h2]

/-- Bytes that a write does not cover read as before. -/
theorem spRead_spWrite_apart (s : State) (lvl unit off : Nat) (bs : List Byte) {o n : Nat} (h : o + n ≤ off ∨ off + bs.length ≤ o) :
    (s.spWrite lvl unit off bs).spRead lvl unit o n = s.spRead lvl unit o n := by
  refine List.map_congr_left fun i hi => ?_
  have := List.mem_range.mp hi
  rw [spByte_spWrite, if_neg (by omega)]

theorem spRead_congr {s u : State} {lvl unit : Nat} (h : ∀ o, u.spByte lvl unit o = s.spByte lvl unit o) {o n : Nat} :
    u.spRead lvl unit o n = s.spRead lvl unit o n :=
  List.map_congr_left fun _ _ => h _

theorem spWrite_frame (s : State) (lvl unit off : Nat) (bs : List Byte) :
    (s.spWrite lvl unit off bs).waves = s.waves ∧ (s.spWrite lvl unit off bs).phys = s.phys := by
  induction bs generalizing s off with
  | nil => exact ⟨rfl, rfl⟩
  | cons b bs ih =>
    obtain ⟨hw, hp⟩ := ih (s.setSpByte lvl unit off b) (off + 1)
    have : (s.setSpByte lvl unit off b).waves = s.waves ∧ (s.setSpByte lvl unit off b).phys = s.phys := by
      rcases lvl with _ | _ | lvl <;> exact ⟨rfl, rfl⟩
    exact ⟨hw.trans this.1, hp.trans this.2⟩

/-! Pushing an entry (R90). -/

/-- A wave with an entry pushed on a stack that has room in the core. -/
def Wave.pushed (w : Wave) (e : REntry) : Wave := { w with stack := e :: w.stack }

/-- A wave whose oldest entry in the core lies in the spill area; its split waits. -/
def Wave.spill (w : Wave) (q : Iss) : Wave :=
  { w with stack := w.stack.dropLast, spilled := w.spilled + 1 }.modSplit q.split fun p => { p with notBefore := q.clk + 9 }

section
variable {s : State} {q : Iss} {w : Wave} (hw : tfind s.waves q.wid = some w)
include hw

theorem pushEntry_short (e : REntry) (hd : w.depth < 64) (hl : w.stack.length < 16) :
    s.pushEntry q e = some (s.modWave q.wid fun w => w.pushed e) := by
  simp [State.pushEntry, hw, Nat.not_le.mpr hd, Nat.not_le.mpr hl, Wave.pushed]

theorem pushEntry_long (e : REntry) {old : REntry} (hd : w.depth < 64) (hl : 16 ≤ w.stack.length) (hr : q.grid.spillRoom = true)
    (ho : w.stack.getLast? = some old) :
    s.pushEntry q e = some (((s.spWrite 0 (wCore q.wid) (spillOff w q.grid.score w.spilled) old.image).setWave q.wid (w.spill q)).modWave
      q.wid fun w => w.pushed e) := by
  simp [State.pushEntry, State.spillOne, hw, Nat.not_le.mpr hd, hl, hr, ho, Wave.pushed, Wave.spill]

theorem pushEntry_none (e : REntry) (h : 64 ≤ w.depth ∨ 16 ≤ w.stack.length ∧ q.grid.spillRoom = false) : s.pushEntry q e = none := by
  by_cases hd : 64 ≤ w.depth
  · simp [State.pushEntry, hw, hd]
  · obtain ⟨hl, hr⟩ := h.resolve_left hd
    simp [State.pushEntry, hw, hl, hr]

end

/-- The entry for a group of lanes that a branch leaves behind. -/
def leftEntry (q : Iss) (mask : Word) (pc : DWord) : REntry := ⟨mask, 0, pc, 0, q.split, false⟩

/-- Where the lanes of a group stand after a branch: in a split, in the core's stack, or in the spill area. -/
def Placed (q : Iss) (s : State) (w : Wave) (mask : Word) (pc : DWord) : Prop :=
  (∃ j, j < 4 ∧ (w.split j).live = true ∧ (w.split j).mask = mask ∧ (w.split j).pc = pc)
  ∨ leftEntry q mask pc ∈ w.stack
  ∨ ∃ k, k < w.spilled ∧ s.spRead 0 (wCore q.wid) (spillOff w q.grid.score k) 32 = (leftEntry q mask pc).image

/-- What stands at a wave's splits, apart from when they next issue. -/
def Wave.groupsOf (w v : Wave) : Prop :=
  ∀ j, (w.split j).live = true → (v.split j).live = true ∧ (v.split j).mask = (w.split j).mask ∧ (v.split j).pc = (w.split j).pc

theorem split_spill (w : Wave) (q : Iss) (j : Nat) :
    (w.spill q).split j = if j = q.split then { w.split q.split with notBefore := q.clk + 9 } else w.split j :=
  Wave.split_modSplit ..

theorem groupsOf_spill (w : Wave) (q : Iss) : w.groupsOf (w.spill q) := by
  intro j hj
  rw [split_spill]
  split
  · next h => subst h; exact ⟨hj, rfl, rfl⟩
  · exact ⟨hj, rfl, rfl⟩

theorem live_spill (w : Wave) (q : Iss) (j : Nat) : ((w.spill q).split j).live = (w.split j).live := by
  rw [split_spill]
  split
  · next h => rw [h]
  · rfl

/-- A further group of lanes of a wave has been sent to its address: it stands there, and so does each that stood before. -/
def Sent (q : Iss) (mask : Word) (pc : DWord) (s u : State) (w v : Wave) : Prop :=
  Undisturbed q s u ∧ tfind u.waves q.wid = some v ∧ Placed q u v mask pc ∧ ∀ m p, Placed q s w m p → Placed q u v m p

theorem quiet_pushed (q : Iss) (s : State) (e : REntry) : Quiet q s (s.modWave q.wid fun w => w.pushed e) :=
  quiet_modWave q s fun w x => newest_stack w _ x

/-- An entry pushed in the core. -/
theorem sent_pushed {s : State} {q : Iss} {w : Wave} (hw : tfind s.waves q.wid = some w) (mask : Word) (pc : DWord) :
    Sent q mask pc s (s.modWave q.wid fun w => w.pushed (leftEntry q mask pc)) w (w.pushed (leftEntry q mask pc)) := by
  have hmem := (quiet_pushed q s (leftEntry q mask pc)).1.2
  refine ⟨undisturbed_of_quiet (quiet_pushed ..), tfind_modWave_some _ hw, .inr (.inl List.mem_cons_self), fun m p h => ?_⟩
  rcases h with h | h | ⟨k, hk, h⟩
  · exact .inl h
  · exact .inr (.inl (List.mem_cons_of_mem _ h))
  · exact .inr (.inr ⟨k, hk, (spRead_congr fun o => hmem ..).trans h⟩)

theorem newest_spill (w : Wave) (q : Iss) (x : Target) : (w.spill q).newest x = w.newest x :=
  (newest_modSplit ..).trans (by cases x <;> rfl)

theorem stack_spill (w : Wave) (q : Iss) : (w.spill q).stack = w.stack.dropLast := rfl

theorem spilled_spill (w : Wave) (q : Iss) : (w.spill q).spilled = w.spilled + 1 := rfl

theorem spillOff_spill (w : Wave) (q : Iss) (score k : Nat) : spillOff (w.spill q) score k = spillOff w score k := rfl

/-- The places of the spill area lie apart. -/
theorem spillOff_lt (w : Wave) (score : Nat) {k n : Nat} (h : k < n) : spillOff w score k + 32 ≤ spillOff w score n := by
  rw [spillOff, spillOff, Nat.add_assoc]
  exact Nat.add_le_add_left (by omega) _

/-- The oldest entry of the core moves to the next place of the spill area: the groups stand where they stood, or there. -/
theorem placed_spill {s u : State} {q : Iss} {w : Wave} {old : REntry} {m : Word} {p : DWord} (ho : w.stack.getLast? = some old)
    (hu : ∀ o n, o + n ≤ spillOff w q.grid.score w.spilled → u.spRead 0 (wCore q.wid) o n = s.spRead 0 (wCore q.wid) o n)
    (hnew : u.spRead 0 (wCore q.wid) (spillOff w q.grid.score w.spilled) 32 = old.image) (h : Placed q s w m p) :
    Placed q u (w.spill q) m p := by
  rcases h with ⟨j, hj4, hl, hm, hp⟩ | h | ⟨k, hk, h⟩
  · obtain ⟨hl', hm', hp'⟩ := groupsOf_spill w q j hl
    exact .inl ⟨j, hj4, hl', hm'.trans hm, hp'.trans hp⟩
  · obtain ⟨st, hst⟩ := List.getLast?_eq_some_iff.mp ho
    rw [hst, List.mem_append, List.mem_singleton] at h
    rcases h with h | rfl
    · exact .inr (.inl (by rw [stack_spill, hst, List.dropLast_concat]; exact h))
    · exact .inr (.inr ⟨w.spilled, by rw [spilled_spill]; exact Nat.lt_succ_self _, by rw [spillOff_spill]; exact hnew⟩)
  · refine .inr (.inr ⟨k, by rw [spilled_spill]; exact Nat.lt_succ_of_lt hk, ?_⟩)
    rw [spillOff_spill]
    exact (hu _ _ (spillOff_lt w q.grid.score hk)).trans h

theorem spill_spec {s : State} {q : Iss} {w : Wave} {old : REntry} {bs : List Byte} (hw : tfind s.waves q.wid = some w)
    (ho : w.stack.getLast? = some old) (hb : bs = old.image) (hl : bs.length = 32) :
    let u := (s.spWrite 0 (wCore q.wid) (spillOff w q.grid.score w.spilled) bs).setWave q.wid (w.spill q)
    Undisturbed q s u ∧ tfind u.waves q.wid = some (w.spill q) ∧ ∀ m p, Placed q s w m p → Placed q u (w.spill q) m p := by
  obtain ⟨hwaves, hphys⟩ := spWrite_frame s 0 (wCore q.wid) (spillOff w q.grid.score w.spilled) bs
  have hself := spRead_spWrite_self s 0 (wCore q.wid) (spillOff w q.grid.score w.spilled) bs
  have hapart : ∀ o n, o + n ≤ spillOff w q.grid.score w.spilled → _ := fun o n h =>
    spRead_spWrite_apart s 0 (wCore q.wid) (spillOff w q.grid.score w.spilled) bs (.inl h)
  rw [hl] at hself
  generalize s.spWrite 0 (wCore q.wid) (spillOff w q.grid.score w.spilled) bs = s' at *
  have hwrite : Undisturbed q s s' := ⟨fun pa => by rw [hphys], fun k _ => by rw [hwaves], fun x => by rw [State.newest, hwaves]; rfl⟩
  have hquiet : Quiet q s' (s'.setWave q.wid (w.spill q)) := quiet_setWave (by rw [hwaves]; exact hw) (newest_spill w q)
  exact ⟨hwrite.trans (undisturbed_of_quiet hquiet), tfind_tput_self .., fun m p h => placed_spill ho hapart (hself.trans hb) h⟩

/-- An entry pushed on a full stack. -/
theorem sent_spilled {s : State} {q : Iss} {w : Wave} {old : REntry} (hw : tfind s.waves q.wid = some w)
    (ho : w.stack.getLast? = some old) (mask : Word) (pc : DWord) :
    Sent q mask pc s (((s.spWrite 0 (wCore q.wid) (spillOff w q.grid.score w.spilled) old.image).setWave q.wid (w.spill q)).modWave q.wid
      fun w => w.pushed (leftEntry q mask pc)) w ((w.spill q).pushed (leftEntry q mask pc)) := by
  obtain ⟨hu, hv, hp⟩ := spill_spec hw ho rfl (image_length old)
  obtain ⟨hu', hv', hp', hkeep⟩ := sent_pushed hv mask pc
  exact ⟨hu.trans hu', hv', hp', fun m p h => hkeep m p (hp m p h)⟩

/-! A free split. -/

theorem mem_liveSplits {w : Wave} {j : Nat} : j ∈ w.liveSplits ↔ j < 4 ∧ (w.split j).live = true := by simp [Wave.liveSplits]

theorem liveSplits_nodup (w : Wave) : w.liveSplits.Nodup := List.nodup_range.filter _

theorem liveSplits_length_le (w : Wave) : w.liveSplits.length ≤ 4 := List.length_filter_le ..

theorem freeSplit_some {w : Wave} {k : Nat} (h : w.freeSplit = some k) : k < 4 ∧ (w.split k).live = false := by
  have h1 := List.find?_some h
  exact ⟨List.mem_range.mp (List.mem_of_find?_eq_some h), by simpa using h1⟩

theorem freeSplit_none {w : Wave} (h : w.freeSplit = none) : w.liveSplits.length = 4 := by
  have hall : w.liveSplits = List.range 4 := List.filter_eq_self.mpr fun j hj => by simpa using List.find?_eq_none.mp h j hj
  rw [hall]
  rfl

/-- A new split stands in the place of a free one. -/
theorem liveSplits_setSplit {w : Wave} {k : Nat} {p : Split} (h : w.freeSplit = some k) (hp : p.live = true) :
    (w.setSplit k p).liveSplits.length = w.liveSplits.length + 1 := by
  obtain ⟨hk4, hk⟩ := freeSplit_some h
  have hnot : k ∉ w.liveSplits := fun hm => by rw [(mem_liveSplits.mp hm).2] at hk; cases hk
  have hperm : (w.setSplit k p).liveSplits.Perm (k :: w.liveSplits) := by
    refine (List.perm_ext_iff_of_nodup (liveSplits_nodup _) (List.nodup_cons.mpr ⟨hnot, liveSplits_nodup w⟩)).mpr fun j => ?_
    rw [List.mem_cons, mem_liveSplits, mem_liveSplits, Wave.split_setSplit]
    by_cases e : j = k
    · simp [e, hk4, hp]
    · simp [e]
  exact hperm.length_eq

/-- A new split takes a group of lanes. -/
theorem sent_split {s : State} {q : Iss} {w : Wave} {k : Nat} (hw : tfind s.waves q.wid = some w) (hk : w.freeSplit = some k)
    (mask : Word) (pc : DWord) : Sent q mask pc s (s.setWave q.wid (w.setSplit k (newSplit pc mask q.clk))) w
      (w.setSplit k (newSplit pc mask q.clk)) := by
  obtain ⟨hk4, hfree⟩ := freeSplit_some hk
  have hown : (w.setSplit k (newSplit pc mask q.clk)).split k = newSplit pc mask q.clk := (Wave.split_setSplit ..).trans (if_pos rfl)
  refine ⟨undisturbed_of_quiet (quiet_setWave hw fun x => newest_setSplit ..), tfind_tput_self ..,
    .inl ⟨k, hk4, congrArg Split.live hown, congrArg Split.mask hown, congrArg Split.pc hown⟩, fun m p h => ?_⟩
  rcases h with ⟨j, hj4, hl, hm, hp⟩ | h | h
  · have hj : j ≠ k := by rintro rfl; rw [hfree] at hl; cases hl
    have hsame : (w.setSplit k (newSplit pc mask q.clk)).split j = w.split j := (Wave.split_setSplit ..).trans (if_neg hj)
    exact .inl ⟨j, hj4, by rw [hsame, hl], by rw [hsame, hm], by rw [hsame, hp]⟩
  · exact .inr (.inl h)
  · exact .inr (.inr h)

/-! Sending groups, one after another. -/

section
variable {s : State} {q : Iss} {w : Wave} (hw : tfind s.waves q.wid = some w)
include hw

theorem sendGroup_free {k : Nat} (hk : w.freeSplit = some k) (mask : Word) (pc : DWord) :
    s.sendGroup q mask pc = some (s.setWave q.wid (w.setSplit k (newSplit pc mask q.clk))) := by
  simp [State.sendGroup, hw, hk]

theorem sendGroup_full (hk : w.freeSplit = none) (mask : Word) (pc : DWord) : s.sendGroup q mask pc = s.pushEntry q (leftEntry q mask pc) := by
  simp [State.sendGroup, hw, hk, leftEntry]

/-- A push that finds room: what the wave then holds, and whether the spill area is used. -/
theorem pushEntry_sent (mask : Word) (pc : DWord) (hd : w.depth < 64) (hr : w.stack.length < 16 ∨ q.grid.spillRoom = true) :
    ∃ u v, s.pushEntry q (leftEntry q mask pc) = some u ∧ Sent q mask pc s u w v ∧ v.depth = w.depth + 1
      ∧ v.stack.head? = some (leftEntry q mask pc) ∧ v.stack.length ≤ w.stack.length + 1 ∧ w.groupsOf v
      ∧ (∀ j, (v.split j).live = (w.split j).live) ∧ (w.stack.length < 16 → v.stack.length = w.stack.length + 1 ∧ SameMemory s u) := by
  by_cases hl : w.stack.length < 16
  · refine ⟨_, _, pushEntry_short hw _ hd hl, sent_pushed hw mask pc, ?_, rfl, Nat.le_refl _, fun _ h => ⟨h, rfl, rfl⟩, fun _ => rfl, fun _ =>
      ⟨rfl, (quiet_pushed ..).1⟩⟩
    simp only [Wave.depth, Wave.pushed, List.length_cons]
    omega
  · have hne : w.stack ≠ [] := by intro h; rw [h] at hl; exact hl (by decide)
    have ho := List.getLast?_eq_some_getLast hne
    have hlen : (w.spill q).stack.length = w.stack.length - 1 := List.length_dropLast
    refine ⟨_, _, pushEntry_long hw _ hd (Nat.not_lt.mp hl) (hr.resolve_left hl) ho, sent_spilled hw ho mask pc, ?_, rfl, ?_,
      groupsOf_spill w q, live_spill w q, fun h => absurd h hl⟩
    · show (w.spill q).stack.length + 1 + (w.spilled + 1) = w.stack.length + w.spilled + 1
      omega
    · show (w.spill q).stack.length + 1 ≤ w.stack.length + 1
      omega

/-- A further group: it takes a free split, or needs a push. -/
theorem sendGroup_sent (mask : Word) (pc : DWord)
    (hr : w.liveSplits.length < 4 ∨ w.depth < 64 ∧ (w.stack.length < 16 ∨ q.grid.spillRoom = true)) :
    ∃ u v, s.sendGroup q mask pc = some u ∧ Sent q mask pc s u w v
      ∧ ((w.liveSplits.length < 4 ∧ v.liveSplits.length = w.liveSplits.length + 1 ∧ v.depth = w.depth ∧ v.stack = w.stack ∧ SameMemory s u)
        ∨ (w.liveSplits.length = 4 ∧ v.liveSplits.length = 4 ∧ v.depth = w.depth + 1 ∧ v.stack.length ≤ w.stack.length + 1
          ∧ (w.stack.length < 16 → v.stack.length = w.stack.length + 1 ∧ SameMemory s u))) := by
  cases hk : w.freeSplit with
  | some k =>
    have hlen := liveSplits_setSplit hk (p := newSplit pc mask q.clk) rfl
    have hle := liveSplits_length_le (w.setSplit k (newSplit pc mask q.clk))
    exact ⟨_, _, sendGroup_free hw hk mask pc, sent_split hw hk mask pc, .inl ⟨by omega, hlen, rfl, rfl, fun _ => rfl, fun _ _ _ => rfl⟩⟩
  | none =>
    have hfull := freeSplit_none hk
    obtain ⟨hd, hr⟩ := hr.resolve_left (by omega)
    obtain ⟨u, v, hu, hsent, hdep, -, hle, -, hlive, hmem⟩ := pushEntry_sent hw mask pc hd hr
    exact ⟨u, v, (sendGroup_full hw hk mask pc).trans hu, hsent, .inr ⟨hfull, (liveSplits_congr hlive).symm ▸ hfull, hdep, hle, hmem⟩⟩

theorem sendGroup_none (mask : Word) (pc : DWord) (hl : w.liveSplits.length = 4)
    (h : 64 ≤ w.depth ∨ 16 ≤ w.stack.length ∧ q.grid.spillRoom = false) : s.sendGroup q mask pc = none := by
  cases hk : w.freeSplit with
  | some k =>
    have hlen := liveSplits_setSplit hk (p := newSplit pc mask q.clk) rfl
    have := liveSplits_length_le (w.setSplit k (newSplit pc mask q.clk))
    omega
  | none => exact (sendGroup_full hw hk mask pc).trans (pushEntry_none hw _ h)

end

/-- The groups of lanes, each with its address, are sent one after another (R86). -/
def State.sendAll (s : State) (q : Iss) (gs : List (DWord × Word)) : Option State := gs.foldlM (fun s e => State.sendGroup s q e.2 e.1) s

theorem sendAll_cons (s : State) (q : Iss) (g : DWord × Word) (gs : List (DWord × Word)) :
    s.sendAll q (g :: gs) = (s.sendGroup q g.2 g.1).bind fun u => u.sendAll q gs := List.foldlM_cons

/-- How many of `n` groups need a push. -/
def Wave.pushes (w : Wave) (n : Nat) : Nat := n - (4 - w.liveSplits.length)

theorem sendAll_sent {s : State} {q : Iss} {w : Wave} (hw : tfind s.waves q.wid = some w) (gs : List (DWord × Word))
    (hd : w.depth + w.pushes gs.length ≤ 64) (hr : w.stack.length + w.pushes gs.length ≤ 16 ∨ q.grid.spillRoom = true) :
    ∃ u v, s.sendAll q gs = some u ∧ Undisturbed q s u ∧ tfind u.waves q.wid = some v ∧ (∀ g ∈ gs, Placed q u v g.2 g.1)
      ∧ (∀ m p, Placed q s w m p → Placed q u v m p) ∧ (w.stack.length + w.pushes gs.length ≤ 16 → SameMemory s u) := by
  induction gs generalizing s w with
  | nil =>
    exact ⟨s, w, rfl, undisturbed_of_quiet (.refl q s), hw, by simp, fun _ _ h => h, fun _ => ⟨fun _ => rfl, fun _ _ _ => rfl⟩⟩
  | cons g gs ih =>
    simp only [Wave.pushes, List.length_cons] at hd hr ⊢
    have hle := liveSplits_length_le w
    obtain ⟨u, v, hu, ⟨hund, hv, hplaced, hkeep⟩, hcase⟩ := sendGroup_sent hw g.2 g.1
      (or_iff_not_imp_left.mpr fun h4 => ⟨by omega, hr.imp_left fun h => by omega⟩)
    have hroom : v.depth + v.pushes gs.length ≤ 64 ∧ (v.stack.length + v.pushes gs.length ≤ 16 ∨ q.grid.spillRoom = true)
        ∧ (w.stack.length + (gs.length + 1 - (4 - w.liveSplits.length)) ≤ 16 →
          SameMemory s u ∧ v.stack.length + v.pushes gs.length ≤ 16) := by
      simp only [Wave.pushes]
      rcases hcase with ⟨h1, h2, h3, h4, h5⟩ | ⟨h1, h2, h3, h4, h5⟩
      · rw [h4]
        exact ⟨by omega, hr.imp_left (by omega), fun h => ⟨h5, by omega⟩⟩
      · exact ⟨by omega, hr.imp_left (by omega), fun h => ⟨(h5 (by omega)).2, by omega⟩⟩
    obtain ⟨hd', hr', hmem⟩ := hroom
    obtain ⟨u', v', hu', hund', hv', hplaced', hkeep', hmem'⟩ := ih hv hd' hr'
    refine ⟨u', v', by rw [sendAll_cons, hu]; exact hu', hund.trans hund', hv', fun x hx => ?_, fun m p h => hkeep' m p (hkeep m p h),
      fun h => (hmem h).1.trans (hmem' (hmem h).2)⟩
    rcases List.mem_cons.mp hx with rfl | hx
    · exact hkeep' _ _ hplaced
    · exact hplaced' x hx

/-- A push that would make a 65th entry, or that needs a spill area that is not there, fails, and with it the branch (R90). -/
theorem sendAll_none {s : State} {q : Iss} {w : Wave} (hw : tfind s.waves q.wid = some w) (gs : List (DWord × Word))
    (hp : 0 < w.pushes gs.length)
    (h : 64 < w.depth + w.pushes gs.length ∨ q.grid.spillRoom = false ∧ 16 < w.stack.length + w.pushes gs.length) :
    s.sendAll q gs = none := by
  induction gs generalizing s w with
  | nil => simp [Wave.pushes] at hp
  | cons g gs ih =>
    simp only [Wave.pushes, List.length_cons] at hp h
    have hle := liveSplits_length_le w
    rw [sendAll_cons]
    by_cases hfail : w.liveSplits.length = 4 ∧ (64 ≤ w.depth ∨ 16 ≤ w.stack.length ∧ q.grid.spillRoom = false)
    · rw [sendGroup_none hw g.2 g.1 hfail.1 hfail.2]
      rfl
    · have hroom : w.liveSplits.length < 4 ∨ w.depth < 64 ∧ (w.stack.length < 16 ∨ q.grid.spillRoom = true) := by
        refine (Nat.lt_or_eq_of_le hle).imp_right fun h4 => ⟨Nat.lt_of_not_le fun h => hfail ⟨h4, .inl h⟩, ?_⟩
        cases hs : q.grid.spillRoom with
        | true => exact .inr rfl
        | false => exact .inl (Nat.lt_of_not_le fun h => hfail ⟨h4, .inr ⟨h, hs⟩⟩)
      obtain ⟨u, v, hu, ⟨-, hv, -, -⟩, hcase⟩ := sendGroup_sent hw g.2 g.1 hroom
      rw [hu]
      suffices hv' : 0 < v.pushes gs.length
          ∧ (64 < v.depth + v.pushes gs.length ∨ q.grid.spillRoom = false ∧ 16 < v.stack.length + v.pushes gs.length) from
        ih hv hv'.1 hv'.2
      simp only [Wave.pushes]
      rcases hcase with ⟨h1, h2, h3, h4, -⟩ | ⟨h1, h2, h3, -, h5⟩
      · rw [h4]
        exact ⟨by omega, h.imp (by omega) (.imp_right (by omega))⟩
      · obtain ⟨hdepth, hr⟩ := hroom.resolve_left (by omega)
        rcases h with h | ⟨hs, h⟩
        · exact ⟨by omega, .inl (by omega)⟩
        · have h16 : w.stack.length < 16 := hr.resolve_right (by rw [hs]; exact Bool.false_ne_true)
          obtain ⟨hlen, -⟩ := h5 h16
          exact ⟨by omega, .inr ⟨hs, by omega⟩⟩

end Sys2Proof.Machine
end

section
/-! PROOFS. BRA and BRX (R86, R90, R206, R211, R212). -/

namespace Sys2Proof.Machine

set_option Elab.async false

/-! BRA. -/

/-- The lanes that a BRA takes (R211). -/
def takenLanes (q : Iss) (not : Bool) (a : Opd) : Word := maskOf fun l => q.part.getLsbD l && (q.pred a l != not)

theorem exec_bra (h : Hints) (not u : Bool) (a : Opd) (n : Word) (s : State) :
    exec (.bra h not u a n) s = runInstr (.bra h not u a n) h (braBody not u a n) s := rfl

section
variable {s : State} {q : Iss} {T N : Word} {target : DWord}

theorem divideBra_none : divideBra s q 0 N target = .done s := if_pos rfl

theorem divideBra_all (hT : T ≠ 0) : divideBra s q T 0 target = .done (s.jump q target) := by
  rw [divideBra, if_neg hT, if_pos rfl]

theorem divideBra_split {w : Wave} {k : Nat} (hT : T ≠ 0) (hN : N ≠ 0) (hw : tfind s.waves q.wid = some w) (hk : w.freeSplit = some k)
    (hk' : (w.keepGroup q N (q.pc + 12)).freeSplit = some k) :
    divideBra s q T N target = .done ((s.keepGroup q N (q.pc + 12)).setWave q.wid
      ((w.keepGroup q N (q.pc + 12)).setSplit k (newSplit target T q.clk))) := by
  rw [divideBra, if_neg hT, if_neg hN, hw]
  simp only [hk, Option.isSome_some, if_true, sendGroup_free (tfind_keepGroup N (q.pc + 12) hw) hk']

theorem divideBra_push {w : Wave} {u : State} (hT : T ≠ 0) (hN : N ≠ 0) (hw : tfind s.waves q.wid = some w) (hk : w.freeSplit = none)
    (hu : s.pushEntry q (leftEntry q N (q.pc + 12)) = some u) : divideBra s q T N target = .done (u.keepGroup q T target) := by
  rw [leftEntry] at hu
  rw [divideBra, if_neg hT, if_neg hN, hw]
  simp only [hk, Option.isSome_none, Bool.false_eq_true, if_false, hu]

end

theorem braBody_divergent (not : Bool) (a : Opd) (n : Word) (q : Iss) (s : State) :
    braBody not false a n q s
      = (divideBra s q (takenLanes q not a) (q.mask &&& ~~~takenLanes q not a) (branchTarget q.pc n)).quick q := rfl

theorem live_keepGroup (w : Wave) (q : Iss) (mask : Word) (pc : DWord) (j : Nat) :
    ((w.keepGroup q mask pc).split j).live = (w.split j).live := by
  by_cases hj : j = q.split
  · rw [hj, keepGroup_own]
  · rw [keepGroup_other w mask pc hj]

theorem freeSplit_congr {v w : Wave} (h : ∀ j, (v.split j).live = (w.split j).live) : v.freeSplit = w.freeSplit := by
  simp only [Wave.freeSplit, h]

/-- Settles O9: BRA takes nobody, everybody, or some lanes; then a free split takes them, or an entry is pushed for the others. -/
theorem branchDiverges : Obligations.BranchDiverges := by
  unfold Obligations.BranchDiverges
  intro s q h not a n hi hroom target
  obtain ⟨-, -, -, -, -, -, hmask, -⟩ := sight_some hi.1
  obtain ⟨hlive, -⟩ := sight_split hi.1
  have hv : tfind (s.issued (.bra h not false a n) q).waves q.wid = some (issuedWave q) := wave_issued ..
  have hown := issuedWave_own q
  have hfree : (issuedWave q).freeSplit = q.w.freeSplit := freeSplit_congr (live_issuedWave q)
  refine ⟨takenLanes q not a, fun l hl => getLsbD_maskOf _ hl, ?_⟩
  have hb := braBody_divergent not a n q (s.issued (.bra h not false a n) q)
  generalize takenLanes q not a = T at hb ⊢
  generalize hN : q.mask &&& ~~~T = N at hb ⊢
  by_cases hT : T = 0
  · rw [hT, divideBra_none] at hb
    refine completes_undisturbed hi (exec_bra ..) hb (undisturbed_of_quiet (.refl ..)) hv fun t pend k hkept hmem _ hw =>
      ⟨hkept.1, hkept.2.2, fun _ => hmem ⟨fun _ => rfl, fun _ _ _ => rfl⟩, _, hw, fun _ => ?_, ?_⟩
    · exact ⟨congrArg Split.pc hown, (congrArg Split.mask hown).trans hmask.symm⟩
    · exact ⟨fun h => absurd hT h, fun h => absurd hT h, fun h => absurd hT h⟩
  by_cases hN0 : N = 0
  · rw [hN0, divideBra_all hT] at hb
    have hsp := Wave.split_modSplit (issuedWave q) q.split (fun p => { p with pc := branchTarget q.pc n }) q.split
    rw [if_pos rfl, hown] at hsp
    refine completes_undisturbed hi (exec_bra ..) hb (undisturbed_of_quiet (quiet_jump ..)) (tfind_jump _ hv)
      fun t pend k hkept hmem _ hw => ⟨hkept.1, hkept.2.2, fun _ => hmem (quiet_jump ..).1, _, hw, fun h => absurd h hT, fun _ _ => ?_,
        fun _ h => absurd hN0 h, fun _ h => absurd hN0 h⟩
    exact ⟨congrArg Split.pc hsp, (congrArg Split.mask hsp).trans hmask.symm⟩
  cases hk : q.w.freeSplit with
  | some k =>
    obtain ⟨-, hdead⟩ := freeSplit_some hk
    have hne : q.split ≠ k := by rintro rfl; rw [hlive] at hdead; cases hdead
    rw [divideBra_split hT hN0 hv (hfree.trans hk) ((freeSplit_congr (live_keepGroup _ q N _)).trans (hfree.trans hk))] at hb
    have hq := (quiet_keepGroup q _ N (q.pc + 12)).trans (quiet_setWave (tfind_keepGroup N (q.pc + 12) hv)
      (v := ((issuedWave q).keepGroup q N (q.pc + 12)).setSplit k (newSplit (branchTarget q.pc n) T q.clk)) fun x => newest_setSplit ..)
    have hsk := Wave.split_setSplit ((issuedWave q).keepGroup q N (q.pc + 12)) k (newSplit (branchTarget q.pc n) T q.clk) k
    have hso := Wave.split_setSplit ((issuedWave q).keepGroup q N (q.pc + 12)) k (newSplit (branchTarget q.pc n) T q.clk) q.split
    rw [if_pos rfl] at hsk
    rw [if_neg hne, keepGroup_own] at hso
    refine completes_undisturbed hi (exec_bra ..) hb (undisturbed_of_quiet hq) (tfind_tput_self ..)
      fun t pend _ hkept hmem _ hw => ⟨hkept.1, hkept.2.2, fun _ => hmem hq.1, _, hw, fun h => absurd h hT, fun _ h => absurd h hN0,
        fun _ _ k' hk' => ?_, fun _ _ h => by cases h⟩
    cases hk'
    exact ⟨congrArg Split.pc hso, congrArg Split.mask hso, congrArg Split.live hsk, congrArg Split.pc hsk, congrArg Split.mask hsk⟩
  | none =>
    obtain ⟨hd, hr⟩ := hroom.resolve_left (by rw [hk]; exact Bool.false_ne_true)
    obtain ⟨u, v, hu, ⟨hund, hv', -, -⟩, -, hhead, -, -, -, hmem'⟩ := pushEntry_sent hv N (q.pc + 12) hd hr
    rw [divideBra_push hT hN0 hv (hfree.trans hk) hu] at hb
    have hq := quiet_keepGroup q u T (branchTarget q.pc n)
    have hso := keepGroup_own v q T (branchTarget q.pc n)
    refine completes_undisturbed hi (exec_bra ..) hb (hund.trans (undisturbed_of_quiet hq)) (tfind_keepGroup _ _ hv')
      fun t pend _ hkept hmem _ hw => ⟨hkept.1, hkept.2.2, fun h => hmem ((hmem' ?_).2.trans hq.1), _, hw, fun h => absurd h hT,
        fun _ h => absurd h hN0, fun _ _ k' hk' => (by cases hk'), fun _ _ _ => ⟨congrArg Split.pc hso, congrArg Split.mask hso, hhead⟩⟩
    exact h.resolve_left Bool.false_ne_true

/-! BRX. -/

/-- Where BRX sends a lane of its split (R212). -/
def brxTarget (q : Iss) (a : Opd) (b : SrcB) (l : Nat) : DWord :=
  if q.part.getLsbD l then q.uni64 a + (q.srcB b l).w.setWidth 64 else q.pc + 12

/-- The groups of lanes into which BRX divides its split. -/
def brxGroups (q : Iss) (a : Opd) (b : SrcB) : List (DWord × Word) := groupLanes (lanesOf q.mask) (brxTarget q a b)

theorem exec_brx (h : Hints) (a : Opd) (b : SrcB) (s : State) : exec (.brx h a b) s = runInstr (.brx h a b) h (brxBody a b) s := rfl

section
variable {s : State} {q : Iss} {a : Opd} {b : SrcB}

theorem brxBody_proxy (h : ∃ l ∈ q.lanes, (q.srcB b l).tag = true) : brxBody a b q s = .bad 0x20 := if_pos (List.any_eq_true.mpr h)

theorem untagged_any (h : Untagged q fun l => [q.srcB b l]) : (q.lanes.any fun l => (q.srcB b l).tag) = false :=
  List.any_eq_false.mpr fun l hl => by simpa using h l hl

theorem brxBody_misaligned (hu : Untagged q fun l => [q.srcB b l])
    (h : ¬ ∀ l ∈ lanesOf q.mask, (brxTarget q a b l).extractLsb' 0 2 = 0) : brxBody a b q s = .bad 0x05 := by
  have hany : ((lanesOf q.mask).any fun l => (brxTarget q a b l).extractLsb' 0 2 != 0) = true := by
    push Not at h
    simpa using h
  rw [brxBody, untagged_any hu]
  exact if_pos hany

variable (hu : Untagged q fun l => [q.srcB b l]) (hal : ∀ l ∈ lanesOf q.mask, (brxTarget q a b l).extractLsb' 0 2 = 0)
include hu hal

theorem brxBody_groups : brxBody a b q s = match brxGroups q a b with
    | [] => .done s
    | g :: gs => match (s.keepGroup q g.2 g.1).sendAll q gs with
      | some s => .done (s.quick q)
      | none => .bad 0x0B := by
  have hany : ((lanesOf q.mask).any fun l => (brxTarget q a b l).extractLsb' 0 2 != 0) = false :=
    List.any_eq_false.mpr fun l hl => by simpa using hal l hl
  rw [brxBody, untagged_any hu]
  exact if_neg (by rw [← Bool.not_eq_true] at hany; exact hany)

theorem brxBody_nobody (hg : brxGroups q a b = []) : brxBody a b q s = .done s := by
  rw [brxBody_groups hu hal, hg]

theorem brxBody_sent {g : DWord × Word} {gs : List (DWord × Word)} {u : State} (hg : brxGroups q a b = g :: gs)
    (hs : (s.keepGroup q g.2 g.1).sendAll q gs = some u) : brxBody a b q s = .done (u.quick q) := by
  simp only [brxBody_groups hu hal, hg, hs]

theorem brxBody_overflow {g : DWord × Word} {gs : List (DWord × Word)} (hg : brxGroups q a b = g :: gs)
    (hs : (s.keepGroup q g.2 g.1).sendAll q gs = none) : brxBody a b q s = .bad 0x0B := by
  simp only [brxBody_groups hu hal, hg, hs]

end

/-- Every lane stands in the group of its address. -/
theorem exists_group (ls : List Nat) (t : Nat → DWord) {l : Nat} (hl : l ∈ ls) (h32 : l < 32) :
    ∃ g ∈ groupLanes ls t, g.1 = t l ∧ g.2.getLsbD l = true := by
  refine ⟨_, List.mem_map.mpr ⟨t l, List.mem_eraseDups.mpr (List.mem_map_of_mem hl), rfl⟩, rfl, ?_⟩
  rw [getLsbD_maskOf _ h32]
  simpa using hl

/-- Where a lane of a group that has been sent stands (R86, R90). -/
theorem placed_lane {q : Iss} {s : State} {w : Wave} {mask : Word} {pc : DWord} {l : Nat} (h : Placed q s w mask pc)
    (hl : mask.getLsbD l = true) :
    (∃ j, j < 4 ∧ (w.split j).live = true ∧ (w.split j).mask.getLsbD l = true ∧ (w.split j).pc = pc)
    ∨ (∃ e ∈ w.stack, e.mask.getLsbD l = true ∧ e.resume = pc)
    ∨ ∃ k, k < w.spilled ∧ (entryOf (s.spRead 0 (wCore q.wid) (spillOff w q.grid.score k) 32)).1.mask.getLsbD l = true
      ∧ (entryOf (s.spRead 0 (wCore q.wid) (spillOff w q.grid.score k) 32)).1.resume = (pc.setWidth 56).setWidth 64 := by
  rcases h with ⟨j, hj4, hlive, hm, hp⟩ | h | ⟨k, hk, h⟩
  · exact .inl ⟨j, hj4, hlive, hm ▸ hl, hp⟩
  · exact .inr (.inl ⟨_, h, hl, rfl⟩)
  · obtain ⟨hm, hr⟩ := entryOf_image (leftEntry q mask pc)
    exact .inr (.inr ⟨k, hk, by rw [h, hm]; exact hl, by rw [h, hr]; rfl⟩)

/-- What is read of a group depends on the scratchpads and on the wave's splits, stack and spill area alone. -/
theorem Placed.congr {q : Iss} {s t : State} {w : Wave} {mask : Word} {pc : DWord} (pend : List Writeback) (k : Tab (BitVec 6))
    (hsp : ∀ l n o, t.spByte l n o = s.spByte l n o) (h : Placed q s w mask pc) : Placed q t { w with pend := pend, k := k } mask pc := by
  rcases h with h | h | ⟨j, hj, h⟩
  · exact .inl h
  · exact .inr (.inl h)
  · exact .inr (.inr ⟨j, hj, (spRead_congr fun o => hsp ..).trans h⟩)

/-- The wave of a BRX whose split keeps the first group. -/
def firstGroup (q : Iss) (g : DWord × Word) : Wave := (issuedWave q).keepGroup q g.2 g.1

theorem liveSplits_firstGroup (q : Iss) (g : DWord × Word) : (firstGroup q g).liveSplits = q.w.liveSplits :=
  liveSplits_congr fun j => (live_keepGroup ..).trans (live_issuedWave q j)

theorem placed_firstGroup {q : Iss} (s : State) (g : DWord × Word) (h4 : q.split < 4) (hl : (q.w.split q.split).live = true) :
    Placed q s (firstGroup q g) g.2 g.1 := by
  have hown := keepGroup_own (issuedWave q) q g.2 g.1
  refine .inl ⟨q.split, h4, ?_, congrArg Split.mask hown, congrArg Split.pc hown⟩
  exact ((live_keepGroup ..).trans (live_issuedWave q _)).trans hl

/-- The first clause of R212: with room for the pushes, every lane stands at its target. -/
theorem brx_places {s : State} {q : Iss} {h : Hints} {a : Opd} {b : SrcB} (hi : Issues (.brx h a b) h s q) (h4 : q.split < 4)
    (hu : Untagged q fun l => [q.srcB b l]) (hal : ∀ l ∈ lanesOf q.mask, (brxTarget q a b l).extractLsb' 0 2 = 0)
    (hd : q.w.depth + q.w.pushes ((brxGroups q a b).length - 1) ≤ 64)
    (hr : q.w.stack.length + q.w.pushes ((brxGroups q a b).length - 1) ≤ 16 ∨ q.grid.spillRoom = true) :
    Completes (.brx h a b) s fun u => Undisturbed q s u
      ∧ (q.w.stack.length + q.w.pushes ((brxGroups q a b).length - 1) ≤ 16 → SameMemory s u)
      ∧ ∃ w, tfind u.waves q.wid = some w ∧ ∀ g ∈ brxGroups q a b, Placed q u w g.2 g.1 := by
  obtain ⟨hlive, -⟩ := sight_split hi.1
  have hv : tfind (s.issued (.brx h a b) q).waves q.wid = some (issuedWave q) := wave_issued ..
  cases hg : brxGroups q a b with
  | nil =>
    have hq := quiet_issued hi.1
    exact ⟨_, (exec_brx h a b s).trans (runInstr_done hi (brxBody_nobody hu hal hg)), undisturbed_of_quiet hq, fun _ => hq.1, _, hv, by simp⟩
  | cons g gs =>
    have hpush : (firstGroup q g).pushes gs.length = q.w.pushes ((brxGroups q a b).length - 1) := by
      rw [Wave.pushes, liveSplits_firstGroup, hg, List.length_cons, Nat.add_sub_cancel, Wave.pushes]
    rw [← hpush] at hd hr
    obtain ⟨u, v, hs, hund, hv', hplaced, hkeep, hmem⟩ := sendAll_sent (tfind_keepGroup g.2 g.1 hv) gs hd hr
    have hq := quiet_keepGroup q (s.issued (.brx h a b) q) g.2 g.1
    refine completes_undisturbed hi (exec_brx h a b s) (brxBody_sent hu hal hg hs) ((undisturbed_of_quiet hq).trans hund) hv'
      fun t pend k hund' hmem' hsp hw => ⟨hund', fun h16 => hmem' (hq.1.trans (hmem ?_)), _, hw, fun x hx => .congr pend k hsp ?_⟩
    · rw [← hg, ← hpush] at h16
      exact h16
    · rcases List.mem_cons.mp hx with rfl | hx
      · exact hkeep _ _ (placed_firstGroup _ x h4 hlive)
      · exact hplaced x hx

/-- The last clause of R212: a push that the stack cannot take traps. -/
theorem brx_overflows {s : State} {q : Iss} {h : Hints} {a : Opd} {b : SrcB} (hi : Issues (.brx h a b) h s q)
    (hc : CanTrap q s) (hu : Untagged q fun l => [q.srcB b l])
    (hal : ∀ l ∈ lanesOf q.mask, (brxTarget q a b l).extractLsb' 0 2 = 0) (hp : 0 < q.w.pushes ((brxGroups q a b).length - 1))
    (hover : 64 < q.w.depth + q.w.pushes ((brxGroups q a b).length - 1)
      ∨ q.grid.spillRoom = false ∧ 16 < q.w.stack.length + q.w.pushes ((brxGroups q a b).length - 1)) :
    Completes (.brx h a b) s (Entered q 0x0B q.pc 0 s) := by
  have hv : tfind (s.issued (.brx h a b) q).waves q.wid = some (issuedWave q) := wave_issued ..
  cases hg : brxGroups q a b with
  | nil => simp [hg, Wave.pushes] at hp
  | cons g gs =>
    have hpush : (firstGroup q g).pushes gs.length = q.w.pushes ((brxGroups q a b).length - 1) := by
      rw [Wave.pushes, liveSplits_firstGroup, hg, List.length_cons, Nat.add_sub_cancel, Wave.pushes]
    rw [← hpush] at hp hover
    have hs := sendAll_none (tfind_keepGroup g.2 g.1 hv) gs hp hover
    exact ⟨_, (exec_brx h a b s).trans (runInstr_bad hi (brxBody_overflow hu hal hg hs)), entered_trapAt hi.1 hc (by decide) 0 0⟩

/-- Settles O10: the lanes go group by group, and each check of R212 comes before the groups are formed. -/
theorem indexedBranch : Obligations.IndexedBranch := by
  unfold Obligations.IndexedBranch
  intro s q h a b hi h4 t aligned pushes
  refine ⟨fun hu hal hd hr => ?_, fun hc htag => ?_, fun hc hu hnot => ?_, fun hc hu hal hp hover => ?_⟩
  · obtain ⟨u, he, ⟨hphys, hother, hnew⟩, hmem, w, hw, hplaced⟩ := brx_places hi h4 hu hal hd hr
    refine ⟨u, he, hphys, hother, hnew, hmem, w, hw, fun l hl => ?_⟩
    obtain ⟨g, hg, ht, hbit⟩ := exists_group (lanesOf q.mask) t hl (mem_lanesOf.mp hl).1
    have := placed_lane (hplaced g hg) hbit
    rwa [ht] at this
  · exact ⟨_, (exec_brx h a b s).trans (runInstr_bad hi (brxBody_proxy htag)), entered_trapAt hi.1 hc (by decide) 0 0⟩
  · exact ⟨_, (exec_brx h a b s).trans (runInstr_bad hi (brxBody_misaligned hu hnot)), entered_trapAt hi.1 hc (by decide) 0 0⟩
  · exact brx_overflows hi hc hu hal hp hover

end Sys2Proof.Machine
end

section
/-! PROOFS. The clock of a partition (R90 to R95, R206, R250, R337, R340): what it chooses, the fill of a stack entry, the writing of results. -/

namespace Sys2Proof.Machine

set_option Elab.async false

/-! Choosing from a list. -/

/-- A step of a choice takes the next element, or stays with the one it has. -/
def Chooses {α : Type} (f : Option α → α → Option α) : Prop :=
  (∀ x, f none x = some x) ∧ ∀ k x, f (some k) x = some x ∨ f (some k) x = some k

theorem Chooses.step {α : Type} {f : Option α → α → Option α} (hf : Chooses f) (m : Option α) (x : α) :
    f m x = some x ∨ ∃ k, m = some k ∧ f m x = some k := by
  cases m with
  | none => exact .inl (hf.1 x)
  | some k => exact (hf.2 k x).imp_right fun h => ⟨k, rfl, h⟩

theorem foldl_chosen_mem {α : Type} {f : Option α → α → Option α} (hf : Chooses f) (l : List α) {m : Option α} {c : α}
    (h : l.foldl f m = some c) : m = some c ∨ c ∈ l := by
  induction l generalizing m with
  | nil => exact .inl h
  | cons x l ih =>
    rcases ih h with h | h
    · rcases hf.step m x with e | ⟨k, hm, e⟩
      · rw [e] at h
        exact .inr (by rw [Option.some.inj h]; exact List.mem_cons_self)
      · rw [e] at h
        exact .inl (hm.trans h)
    · exact .inr (List.mem_cons_of_mem _ h)

theorem foldl_chosen_isSome {α : Type} {f : Option α → α → Option α} (hf : Chooses f) (l : List α) {m : Option α}
    (h : m.isSome = true ∨ l ≠ []) : (l.foldl f m).isSome = true := by
  induction l generalizing m with
  | nil => exact h.resolve_right fun h => h rfl
  | cons x l ih =>
    refine ih (.inl ?_)
    rcases hf.step m x with e | ⟨k, -, e⟩ <;> rw [e] <;> rfl

/-- A choice that begins with none takes an element of its list. -/
theorem foldl_chosen {α : Type} {f : Option α → α → Option α} (hf : Chooses f) {l : List α} {c : α}
    (h : l.foldl f none = some c) : c ∈ l :=
  (foldl_chosen_mem hf l h).resolve_left (by simp)

theorem splitPick_mem {last : Nat} {yielded : Nat → Bool} {cs : List Cand} {c : Cand} (h : splitPick last yielded cs = some c) : c ∈ cs :=
  foldl_chosen ⟨fun _ => rfl, fun _ _ => ite_eq_or_eq ..⟩ h

theorem splitPick_isSome (last : Nat) (yielded : Nat → Bool) {cs : List Cand} (h : cs ≠ []) : (splitPick last yielded cs).isSome = true :=
  foldl_chosen_isSome ⟨fun _ => rfl, fun _ _ => ite_eq_or_eq ..⟩ cs (.inr h)

theorem floorPick_mem {s : State} {core part : Nat} {before elig : List Nat} {p : Nat} (h : s.floorPick core part before elig = some p) :
    p ∈ elig := by
  have hm := (List.mem_filter.mp (foldl_chosen ⟨fun _ => rfl, fun _ _ => ite_eq_or_eq ..⟩ h)).2
  exact List.contains_iff_mem.mp (Bool.and_eq_true_iff.mp hm).1

/-- The tenant positions in the order in which ties are broken, those that are eligible (R94). -/
def tenantOrder (last : Nat) (elig : List Nat) : List Nat := ((List.range 4).map fun k => (last + 1 + k) % 4).filter fun t => elig.contains t

theorem mem_tenantOrder {last : Nat} {elig : List Nat} {t : Nat} (ht : t ∈ elig) (h4 : t < 4) : t ∈ tenantOrder last elig :=
  List.mem_filter.mpr ⟨List.mem_map.mpr ⟨(t + 3 * (last + 1)) % 4, List.mem_range.mpr (Nat.mod_lt _ (by decide)), by omega⟩,
    List.contains_iff_mem.mpr ht⟩

theorem deficitPick_mem {deficit weight : Nat → Nat} {last : Nat} {elig : List Nat} {r : Nat × (Nat → Nat)}
    (h : deficitPick deficit weight last elig = some r) : r.1 ∈ elig := by
  unfold deficitPick at h
  extract_lets d order at h
  split at h
  · cases h
  · next p hp =>
    have hm := (List.mem_filter.mp (foldl_chosen ⟨fun _ => rfl, fun _ _ => ite_eq_or_eq ..⟩ hp)).2
    rw [← Option.some.inj h]
    exact List.contains_iff_mem.mp hm

theorem deficitPick_isSome (deficit weight : Nat → Nat) (last : Nat) {elig : List Nat} {t : Nat} (ht : t ∈ elig) (h4 : t < 4) :
    (deficitPick deficit weight last elig).isSome = true := by
  unfold deficitPick
  extract_lets d order
  have horder : order ≠ [] := List.ne_nil_of_mem (mem_tenantOrder ht h4)
  split
  · next h =>
    exact absurd h (Option.isSome_iff_ne_none.mp (foldl_chosen_isSome ⟨fun _ => rfl, fun _ _ => ite_eq_or_eq ..⟩ order (.inr horder)))
  · rfl

/-- The positions of tenants that have a candidate. -/
def posOf (cs : List Cand) : List Nat := (cs.map (·.pos)).eraseDups

theorem mem_posOf {cs : List Cand} {p : Nat} : p ∈ posOf cs ↔ ∃ c ∈ cs, c.pos = p := by
  rw [posOf, List.mem_eraseDups, List.mem_map]

/-- A slot takes one of the candidates and changes the scheduler's records of cores only (R94, R95). -/
theorem chooseSlot_spec {s u : State} {core part : Nat} {before : List Nat} {cs : List Cand} {c : Cand}
    (h : s.chooseSlot core part before cs = some (c, u)) : c ∈ cs ∧ ∃ ks, u = { s with cores := ks } := by
  unfold State.chooseSlot at h
  extract_lets k elig take at h
  have htake : ∀ pos k', take pos k' = some (c, u) → c ∈ cs ∧ ∃ ks, u = { s with cores := ks } := by
    intro pos k' ht
    obtain ⟨c', hc, he⟩ := Option.map_eq_some_iff.mp ht
    cases he
    exact ⟨List.mem_of_mem_filter (splitPick_mem hc), _, rfl⟩
  split at h
  · exact htake _ _ h
  · split at h
    · cases h
    · exact htake _ _ h

theorem chooseSlot_isSome (s : State) (core part : Nat) (before : List Nat) {cs : List Cand} (hne : cs ≠ []) (h4 : ∀ c ∈ cs, c.pos < 4) :
    (s.chooseSlot core part before cs).isSome = true := by
  unfold State.chooseSlot
  extract_lets k elig take
  have htake : ∀ pos k', pos ∈ posOf cs → (take pos k').isSome = true := by
    intro pos k' hpos
    obtain ⟨c, hc, hp⟩ := mem_posOf.mp hpos
    rw [Option.isSome_map]
    exact splitPick_isSome _ _ (List.ne_nil_of_mem (List.mem_filter.mpr ⟨hc, beq_iff_eq.mpr hp⟩))
  obtain ⟨c, hc⟩ := List.exists_mem_of_ne_nil cs hne
  have hpos : c.pos ∈ posOf cs := mem_posOf.mpr ⟨c, hc, rfl⟩
  split
  · next p hp => exact htake _ _ (floorPick_mem hp)
  · split
    · next hnone =>
      have := deficitPick_isSome (fun t => tget 0 k.deficit (part * 4 + t)) (s.weightOf core) (tget 0 k.lastTenant part) hpos (h4 c hc)
      rw [show posOf cs = elig from rfl, hnone] at this
      cases this
    · next p d hp => exact htake _ _ (deficitPick_mem hp)

theorem candidate_pos {s : State} {wid split : Nat} {c : Cand} (h : s.candidate wid split = some c) : c.pos < 4 := by
  unfold State.candidate at h
  split at h
  · cases h
  · extract_lets core prio at h
    obtain ⟨-, h⟩ := Option.ite_none_left_eq_some.mp h
    split at h
    · split at h
      · cases h
      · extract_lets res at h
        obtain ⟨-, h⟩ := Option.ite_none_left_eq_some.mp h
        obtain ⟨-, h⟩ := Option.ite_none_left_eq_some.mp h
        rw [← Option.some.inj h]
        exact Nat.mod_lt _ (by decide)
    · cases h

theorem candidates_pos {s : State} {core part : Nat} {c : Cand} (h : c ∈ s.candidates core part) : c.pos < 4 := by
  obtain ⟨wid, -, h⟩ := List.mem_flatMap.mp h
  obtain ⟨k, -, h⟩ := List.mem_filterMap.mp h
  exact candidate_pos h

/-- The candidates that may issue beside one that has been chosen: of other splits, and of other resources (R93). -/
def besides (cs : List Cand) (c : Cand) : List Cand :=
  cs.filter fun d => !(d.wid == c.wid && d.split == c.split) && !d.res.any fun r => c.res.contains r

theorem mem_besides {cs : List Cand} {c d : Cand} (h : d ∈ besides cs c) :
    d ∈ cs ∧ (c.wid, c.split) ≠ (d.wid, d.split) ∧ ∀ r ∈ d.res, r ∉ c.res := by
  obtain ⟨hd, hp⟩ := List.mem_filter.mp h
  simp only [Bool.and_eq_true, Bool.not_eq_true', Bool.and_eq_false_iff, beq_eq_false_iff_ne, List.any_eq_false, List.contains_iff_mem] at hp
  obtain ⟨hne, hres⟩ := hp
  refine ⟨hd, fun e => ?_, hres⟩
  obtain ⟨hw, hs⟩ := Prod.mk.inj e
  exact hne.elim (fun h => h hw.symm) fun h => h hs.symm

/-- The choice for the two slots of a partition (R93, R94, R337). -/
theorem chooseSlots_spec (s : State) (core part : Nat) : ∃ (l : List Cand) (ks : Tab Core),
    s.chooseSlots core part = (l.map fun c => Task.issue c.wid c.split, { s with cores := ks })
    ∧ l.length ≤ 2 ∧ (∀ c ∈ l, c ∈ s.candidates core part) ∧ (s.candidates core part ≠ [] → l ≠ [])
    ∧ ((s.cluster (cluOf core)).halving > 0 → l.length ≤ 1)
    ∧ l.Pairwise fun a b => (a.wid, a.split) ≠ (b.wid, b.split) ∧ ∀ r ∈ b.res, r ∉ a.res := by
  unfold State.chooseSlots
  extract_lets cs
  split
  · next h0 =>
    refine ⟨[], s.cores, rfl, by simp, by simp, fun hne => ?_, by simp, .nil⟩
    have := chooseSlot_isSome s core part [] hne fun c hc => candidates_pos hc
    rw [h0] at this
    cases this
  · next c0 s1 h0 =>
    obtain ⟨hc0, ks, hs1⟩ := chooseSlot_spec h0
    extract_lets beside
    split
    · exact ⟨[c0], ks, by rw [hs1]; rfl, by simp, by simpa using hc0, by simp, by simp, List.pairwise_singleton ..⟩
    · next c1 s2 h1 =>
      obtain ⟨hhalf, h1⟩ := Option.ite_none_left_eq_some.mp h1
      obtain ⟨hc1, ks', hs2⟩ := chooseSlot_spec h1
      obtain ⟨hmem, hapart⟩ := mem_besides hc1
      refine ⟨[c0, c1], ks', by rw [hs2, hs1]; rfl, by simp, ?_, by simp, fun h => absurd h hhalf, ?_⟩
      · simpa using ⟨hc0, hmem⟩
      · exact List.pairwise_pair.mpr hapart

theorem partitionIssueClock_chooses (s : State) (core part : Nat) :
    let u := s.startClock core part
    Completes (.partitionIssueClock core part) s fun t => ∃ (l : List Cand) (ks : Tab Core),
      t = { u with cores := ks, agenda := u.agenda ++ u.trapping core part ++ l.map fun c => Task.issue c.wid c.split }
      ∧ l.length ≤ 2 ∧ (∀ c ∈ l, c ∈ u.candidates core part) ∧ (u.candidates core part ≠ [] → l ≠ [])
      ∧ ((u.cluster (cluOf core)).halving > 0 → l.length ≤ 1)
      ∧ l.Pairwise fun a b => (a.wid, a.split) ≠ (b.wid, b.split) ∧ ∀ r ∈ b.res, r ∉ a.res := by
  intro u
  obtain ⟨l, ks, he, hl⟩ := chooseSlots_spec u core part
  refine ⟨_, rfl, l, ks, ?_, hl⟩
  show ({ (u.chooseSlots core part).2 with agenda := (u.chooseSlots core part).2.agenda ++ u.trapping core part
    ++ (u.chooseSlots core part).1 } : State) = _
  rw [he]

/-! The fill of a stack entry. -/

theorem sameRegs_modWave (s : State) (k : Nat) {f : Wave → Wave} (hf : ∀ w x, (f w).newest x = w.newest x) : SameRegs s (s.modWave k f) := by
  intro j x
  by_cases hj : j = k
  · rw [hj]
    exact newest_modWave s k hf x
  · simp only [State.newest, tfind_modWave_ne s f hj]

/-- A fill under way has ended. -/
def Wave.filled (w : Wave) (k : Nat) : Wave := w.modSplit k fun p => { p with filling := false }

theorem split_filled (w : Wave) (k j : Nat) : (w.filled k).split j = if j = k then { w.split k with filling := false } else w.split j :=
  Wave.split_modSplit ..

/-- The newest spilled entry stands in the core again, as the oldest entry there. -/
def Wave.bringBack (w : Wave) (e : REntry) (n : Nat) : Wave := { w with stack := w.stack ++ [e], spilled := n }

theorem newest_bringBack (w : Wave) (e : REntry) (n : Nat) (x : Target) : (w.bringBack e n).newest x = w.newest x := by cases x <;> rfl

theorem reconvergenceFill_fills {s : State} {wid k : Nat} {w : Wave} {g : Grid} (hw : tfind s.waves wid = some w)
    (hg : s.gridOf w.team = some g) (hf : (w.split k).filling = true) (hb : (w.split k).notBefore ≤ s.clk (wCore wid)) (h0 : w.spilled ≠ 0)
    (hc : entryCorrupt w (w.stack ++ (List.range (w.spilled - 1)).map fun n =>
      (entryOf (s.spRead 0 (wCore wid) (spillOff w g.score n) 32)).1)
      (entryOf (s.spRead 0 (wCore wid) (spillOff w g.score (w.spilled - 1)) 32)) = false) :
    exec (.reconvergenceFill wid k) s = .next ((s.modWave wid fun v => v.filled k).modWave wid fun v =>
      v.bringBack (entryOf (s.spRead 0 (wCore wid) (spillOff w g.score (w.spilled - 1)) 32)).1 (v.spilled - 1)) := by
  have hwait : ¬((!(w.split k).filling) = true ∨ s.clk (wCore wid) < (w.split k).notBefore) := by
    rw [hf]
    exact fun h => h.elim (by simp) (Nat.not_lt.mpr hb)
  show execReconvergenceFill wid k s = _
  unfold execReconvergenceFill
  simp only [hw, hg, if_neg hwait, if_neg h0, hc, Bool.false_eq_true, if_false]
  rfl

/-! The writing of results. -/

theorem laneNat_natLane {n : Nat} (h : n < 2 ^ 33) : laneNat (natLane n) = n := by
  simp only [laneNat, natLane, BitVec.toNat_ofNat, beq_iff_eq]
  split <;> omega

theorem getLsbD_laneBit (i j : Nat) : (laneBit i).getLsbD j = (decide (j < 32) && decide (i = j)) := by
  rw [laneBit, BitVec.getLsbD_ofNat, Nat.testBit_two_pow]

/-- A lane's bit of a predicate register. -/
def Wave.predBit (w : Wave) (i l : Nat) : Bool := (tget (0 : Word) w.p i).getLsbD l

theorem predBit_store (w : Wave) (i l n i' l' : Nat) (hl' : l' < 32) :
    (w.store (.p i l) n).predBit i' l' = if i = i' ∧ l = l' then decide (n % 2 = 1) else w.predBit i' l' := by
  have hp : (w.store (.p i l) n).p
      = tset 0 w.p i (if n % 2 = 1 then tget 0 w.p i ||| laneBit l else tget 0 w.p i &&& ~~~laneBit l) := rfl
  rw [Wave.predBit, hp]
  by_cases hi : i = i'
  · subst hi
    rw [tget_tset_self]
    by_cases hl : l = l'
    · subst hl
      by_cases hn : n % 2 = 1 <;> simp [hn, getLsbD_laneBit, hl']
    · rw [if_neg (c := i = i ∧ l = l') fun h => hl h.2, Wave.predBit]
      split
      · rw [BitVec.getLsbD_or, getLsbD_laneBit, decide_eq_false hl, Bool.and_false, Bool.or_false]
      · rw [BitVec.getLsbD_and, BitVec.getLsbD_not, getLsbD_laneBit, decide_eq_false hl, Bool.and_false, decide_eq_true hl', Bool.not_false,
          Bool.and_true, Bool.and_true]
  · rw [tget_tset_ne _ _ _ fun h => hi h.symm, if_neg fun h => hi h.1, Wave.predBit]

/-- A target holds what is written to it (R92, R194). -/
theorem stored_store_self (w : Wave) {t : Target} {n : Nat} (h : t.fits n) : (w.store t n).stored t = n := by
  obtain ⟨hthere, hn⟩ := h
  cases t with
  | v r l => exact (congrArg laneNat (tget_tset_self ..)).trans (laneNat_natLane hn)
  | p i l =>
    have hn : n < 2 := hn
    have hbit : (w.store (.p i l) n).predBit i l = decide (n % 2 = 1) := (predBit_store w i l n i l hthere).trans (if_pos ⟨rfl, rfl⟩)
    show (if (w.store (.p i l) n).predBit i l then 1 else 0) = n
    rw [hbit]
    simp only [decide_eq_true_eq]
    split <;> omega
  | s i => exact (congrArg BitVec.toNat (tget_tset_self ..)).trans (Nat.mod_eq_of_lt hn)
  | q i => exact (congrArg BitVec.toNat (tget_tset_self ..)).trans (Nat.mod_eq_of_lt hn)

/-- A write leaves every other target. -/
theorem stored_store_ne (w : Wave) {t x : Target} (n : Nat) (ht : t.there) (hx : x.there) (hne : t ≠ x) :
    (w.store t n).stored x = w.stored x := by
  cases t with
  | v r l =>
    cases x with
    | v r' l' =>
      have hk : vKey r' l' ≠ vKey r l := by
        have ht : l < 32 := ht
        have hx : l' < 32 := hx
        intro e
        simp only [vKey] at e
        exact hne (by rw [show r = r' by omega, show l = l' by omega])
      exact congrArg laneNat (tget_tset_ne _ _ _ hk)
    | _ => rfl
  | p i l =>
    cases x with
    | p i' l' =>
      have hbit : (w.store (.p i l) n).predBit i' l' = w.predBit i' l' :=
        (predBit_store w i l n i' l' hx).trans (if_neg fun h => hne (by rw [h.1, h.2]))
      exact congrArg (fun b : Bool => if b then 1 else 0) hbit
    | _ => rfl
  | s i =>
    cases x with
    | s i' => exact congrArg BitVec.toNat (tget_tset_ne _ _ _ fun e => hne (by rw [e]))
    | _ => rfl
  | q i =>
    cases x with
    | q i' => exact congrArg BitVec.toNat (tget_tset_ne _ _ _ fun e => hne (by rw [e]))
    | _ => rfl

/-- Results written one after another. -/
def Wave.storeAll (w : Wave) (ws : List (Target × Nat)) : Wave := ws.foldl (fun w e => w.store e.1 e.2) w

theorem storeAll_other (w : Wave) (ws : List (Target × Nat)) {x : Target} (hw : ∀ e ∈ ws, e.1.there) (hx : x.there)
    (hne : ∀ e ∈ ws, e.1 ≠ x) : (w.storeAll ws).stored x = w.stored x := by
  induction ws generalizing w with
  | nil => rfl
  | cons e ws ih =>
    obtain ⟨he, hw⟩ := List.forall_mem_cons.mp hw
    obtain ⟨hne, hnes⟩ := List.forall_mem_cons.mp hne
    exact (ih (w.store e.1 e.2) hw hnes).trans (stored_store_ne w e.2 he hx hne)

theorem storeAll_own (w : Wave) (ws : List (Target × Nat)) (hw : ∀ e ∈ ws, e.1.fits e.2) (hn : (ws.map (·.1)).Nodup) {e : Target × Nat}
    (he : e ∈ ws) : (w.storeAll ws).stored e.1 = e.2 := by
  induction ws generalizing w with
  | nil => cases he
  | cons a ws ih =>
    obtain ⟨ha, hws⟩ := List.forall_mem_cons.mp hw
    obtain ⟨hnot, hn⟩ := List.nodup_cons.mp hn
    rcases List.mem_cons.mp he with rfl | he
    · refine (storeAll_other (w.store e.1 e.2) ws (fun d hd => (hws d hd).1) ha.1 fun d hd h => hnot ?_).trans (stored_store_self w ha)
      exact List.mem_map.mpr ⟨d, hd, h⟩
    · exact ih (w.store a.1 a.2) hws hn he

theorem store_eq (w : Wave) (t : Target) (n : Nat) : ∃ v s p q, w.store t n = { w with v := v, s := s, p := p, q := q } := by
  cases t <;> exact ⟨_, _, _, _, rfl⟩

theorem storeAll_eq (w : Wave) (ws : List (Target × Nat)) : ∃ v s p q, w.storeAll ws = { w with v := v, s := s, p := p, q := q } := by
  induction ws generalizing w with
  | nil => exact ⟨w.v, w.s, w.p, w.q, rfl⟩
  | cons e ws ih =>
    obtain ⟨v, s, p, q, h⟩ := store_eq w e.1 e.2
    obtain ⟨v', s', p', q', h'⟩ := ih (w.store e.1 e.2)
    exact ⟨v', s', p', q', h'.trans (by rw [h])⟩

/-- What the writing of a result does to its wave (R92, R250). -/
theorem writeback_spec (w : Wave) (clk : Nat) (p : Writeback) (hn : (p.writes.map (·.1)).Nodup) (hf : ∀ e ∈ p.writes, e.1.fits e.2) :
    (∀ e ∈ p.writes, (w.writeback clk p).stored e.1 = e.2)
      ∧ (∀ x, x.there → (∀ e ∈ p.writes, e.1 ≠ x) → (w.writeback clk p).stored x = w.stored x)
      ∧ (w.writeback clk p).pend = w.pend.filter (fun x => x.id != p.id) ∧ CountersFall p.cnt w (w.writeback clk p)
      ∧ (w.writeback clk p).splits = w.splits ∧ (w.writeback clk p).xreg 16 = w.xreg 16 ||| p.flags.setWidth 32
      ∧ (w.writeback clk p).raisedAt = clk := by
  let w0 : Wave := { w with pend := w.pend.filter fun x => x.id != p.id }
  obtain ⟨v, sr, pr, qr, hs⟩ := storeAll_eq w0 p.writes
  have hfall := countersFall_fall ((w0.storeAll p.writes).orFlags p.flags) p.cnt
  obtain ⟨k, hk⟩ := fall_eq ((w0.storeAll p.writes).orFlags p.flags) p.cnt
  obtain ⟨r, he⟩ : ∃ r, w.writeback clk p = { (((w0.storeAll p.writes).orFlags p.flags).fall p.cnt) with raised := r, raisedAt := clk } :=
    ⟨_, rfl⟩
  have hst : ∀ x, (w.writeback clk p).stored x = (w0.storeAll p.writes).stored x := fun x => by rw [he, hk]; cases x <;> rfl
  refine ⟨fun e hm => (hst e.1).trans (storeAll_own w0 p.writes hf hn hm), fun x hx hne =>
    (hst x).trans (storeAll_other w0 p.writes (fun e he => (hf e he).1) hx hne), ?_, ?_, ?_, ?_, ?_⟩
  · rw [he, hk, hs]; rfl
  · rw [hs] at hfall
    rw [he, hs]
    exact hfall
  · rw [he, hk, hs]; rfl
  · rw [he, hk, hs]; exact tget_tset_self ..
  · rw [he]

/-- The first result that is due is one of those in flight (R92). -/
theorem firstDue_mem {w : Wave} {p : Writeback} (h : w.firstDue = some p) : p ∈ w.pend :=
  foldl_chosen ⟨fun _ => rfl, fun _ _ => ite_eq_or_eq ..⟩ h

theorem firstDue_isSome {w : Wave} (h : w.pend ≠ []) : w.firstDue.isSome = true :=
  foldl_chosen_isSome ⟨fun _ => rfl, fun _ _ => ite_eq_or_eq ..⟩ w.pend (.inr h)

theorem resultWriteback_writes {s : State} {wid : Nat} {w : Wave} {p : Writeback} (hw : tfind s.waves wid = some w)
    (hp : (w.pend.find? fun x => x.id == p.id) = some p) (hd : p.due ≤ s.clk (wCore wid)) (hfirst : ∀ x ∈ w.pend, p.due ≤ x.due) :
    exec (.resultWriteback wid p.id) s = .next (s.setWave wid (w.writeback (s.clk (wCore wid)) p)) := by
  obtain ⟨f, hf⟩ := Option.isSome_iff_exists.mp (firstDue_isSome (List.ne_nil_of_mem (List.mem_of_find?_eq_some hp)))
  show execResultWriteback wid p.id s = _
  unfold execResultWriteback
  simp only [hw, hp, hf, if_pos (And.intro hd (hfirst f (firstDue_mem hf)))]

/-- Settles O38: the choice, the fill and the writing of results, each from what its own operation does. -/
theorem partitionClock : Obligations.PartitionClock := by
  unfold Obligations.PartitionClock
  refine ⟨partitionIssueClock_chooses, ?_, ?_⟩
  · intro s wid k w g hw hg hf hb h0 at_ hc
    have hquiet : ∀ v x, (Wave.filled v k).newest x = v.newest x := fun v x => newest_modSplit ..
    refine ⟨_, reconvergenceFill_fills hw hg hf hb h0 hc, (sameMemory_modWave ..).trans (sameMemory_modWave ..), ?_, fun j hj => ?_,
      (w.filled k).bringBack (at_ (w.spilled - 1)).1 (w.spilled - 1), ?_, rfl, rfl, ?_, fun j hj => ?_⟩
    · exact (sameRegs_modWave s wid hquiet).trans (sameRegs_modWave _ wid fun v x => newest_bringBack ..)
    · exact (tfind_modWave_ne _ _ hj).trans (tfind_modWave_ne s _ hj)
    · exact tfind_modWave_some _ (tfind_modWave_some (fun v => v.filled k) hw)
    · exact (split_filled w k k).trans (if_pos rfl)
    · exact (split_filled w k j).trans (if_neg hj)
  · intro s wid w p hw hp hd hfirst hn hfits
    obtain ⟨hown, hother, hrest⟩ := writeback_spec w (s.clk (wCore wid)) p hn hfits
    exact ⟨_, resultWriteback_writes hw hp hd hfirst, ⟨fun _ => rfl, fun _ _ _ => rfl⟩, fun k hk => tfind_tput_ne _ _ hk, _,
      tfind_tput_self .., hown, hother, hrest⟩

end Sys2Proof.Machine
end

section
/-! PROOFS. The copy engine (R127 to R131): what its steps write in scratchpads, and what they leave of teams, waves and memory. -/

namespace Sys2Proof.Machine

set_option Elab.async false

/-! Changes of scratchpads and barriers. -/

/-- Only scratchpads, records of clusters and what waits at ports may have changed. -/
def ScratchOnly (s u : State) : Prop :=
  ∃ core clu die clusters portq, u = { s with spCore := core, spClu := clu, spDie := die, clusters := clusters, portq := portq }

theorem ScratchOnly.refl (s : State) : ScratchOnly s s := ⟨_, _, _, _, _, rfl⟩

theorem ScratchOnly.trans {s t u : State} (hst : ScratchOnly s t) (htu : ScratchOnly t u) : ScratchOnly s u := by
  obtain ⟨_, _, _, _, _, rfl⟩ := hst
  obtain ⟨_, _, _, _, _, rfl⟩ := htu
  exact ⟨_, _, _, _, _, rfl⟩

section
variable {s u : State} (h : ScratchOnly s u)
include h

theorem ScratchOnly.teams : u.teams = s.teams := by obtain ⟨_, _, _, _, _, rfl⟩ := h; rfl
theorem ScratchOnly.grids : u.grids = s.grids := by obtain ⟨_, _, _, _, _, rfl⟩ := h; rfl
theorem ScratchOnly.phys : u.phys = s.phys := by obtain ⟨_, _, _, _, _, rfl⟩ := h; rfl
theorem ScratchOnly.waves : u.waves = s.waves := by obtain ⟨_, _, _, _, _, rfl⟩ := h; rfl
theorem ScratchOnly.gridOf (n : Nat) : u.gridOf n = s.gridOf n := by rw [State.gridOf, h.teams, h.grids]; rfl
theorem ScratchOnly.sameRegs : SameRegs s u := fun k x => by rw [State.newest, h.waves]; rfl

end

theorem scratchOnly_setSpByte (s : State) (lvl unit off : Nat) (b : Byte) : ScratchOnly s (s.setSpByte lvl unit off b) := by
  rcases lvl with _ | _ | lvl <;> exact ⟨_, _, _, _, _, rfl⟩

theorem scratchOnly_spWrite (s : State) (lvl unit off : Nat) (bs : List Byte) : ScratchOnly s (s.spWrite lvl unit off bs) := by
  induction bs generalizing s off with
  | nil => exact .refl s
  | cons b bs ih => exact (scratchOnly_setSpByte s lvl unit off b).trans (ih ..)

theorem scratchOnly_spStore (s : State) (lvl unit off : Nat) (bs : List Byte) : ScratchOnly s (s.spStore lvl unit off bs) := by
  unfold State.spStore
  split <;> exact scratchOnly_spWrite ..

theorem scratchOnly_wakeTx (s : State) (lvl unit off n : Nat) : ScratchOnly s (s.wakeTx lvl unit off n) := ⟨_, _, _, _, _, rfl⟩

theorem scratchOnly_setLeaves (s : State) (k : Nat) (ls : List LeafRec) : ScratchOnly s (s.setLeaves k ls) := ⟨_, _, _, _, _, rfl⟩

/-- A barrier's event changes words of scratchpads and records of clusters, and wakes what waits at ports (R137). -/
theorem scratchOnly_settleTx (s : State) (lvl unit off : Nat) (x : BitVec 128) : ScratchOnly s (s.settleTx lvl unit off x) := by
  unfold State.settleTx
  split
  · exact scratchOnly_spStore ..
  · split
    · exact (scratchOnly_spStore ..).trans (scratchOnly_setLeaves ..)
    · extract_lets y s'
      have hs : ScratchOnly s s' := (scratchOnly_spStore ..).trans (scratchOnly_wakeTx ..)
      split
      · exact hs.trans (scratchOnly_setLeaves ..)
      · exact hs

theorem scratchOnly_faultTx (s : State) (p : Nat × Nat × Nat) (n : Nat) : ScratchOnly s (s.faultTx p n) := scratchOnly_settleTx ..

/-! The ring. -/

/-- The image of a ring's header (R127). -/
def Team.header (t : Team) : List Byte :=
  leBytes 4 (t.tail % 2 ^ 32) ++ leBytes 4 (t.taken % 2 ^ 32) ++ leBytes 4 (t.retired % 2 ^ 32) ++ leBytes 20 0

theorem Team.header_length (t : Team) : t.header.length = 32 := by simp only [Team.header, List.length_append, leBytes_length]

section
variable {s : State} {tid : Nat} {t : Team} (ht : tfind s.teams tid = some t)
include ht

theorem ringImage_eq : s.ringImage tid = s.spWrite 0 t.core t.base t.header := by
  rw [State.ringImage, ht]
  rfl

theorem ringStatus_eq (n status progress : Nat) : s.ringStatus tid n status progress = s.spWrite 0 t.core (t.entryOff n)
    (leBytes 32 (cmdSet (BitVec.ofNat 256 (s.spNat 0 t.core (t.entryOff n) 32)) status progress).toNat) := by
  simp only [State.ringStatus, State.ringWrite, ht]

end

theorem scratchOnly_ringStatus (s : State) (tid n status progress : Nat) : ScratchOnly s (s.ringStatus tid n status progress) := by
  cases ht : tfind s.teams tid with
  | none => simp only [State.ringStatus, ht]; exact .refl s
  | some t => rw [ringStatus_eq ht]; exact scratchOnly_spWrite ..

theorem scratchOnly_ringImage (s : State) (tid : Nat) : ScratchOnly s (s.ringImage tid) := by
  cases ht : tfind s.teams tid with
  | none => simp only [State.ringImage, ht]; exact .refl s
  | some t => rw [ringImage_eq ht]; exact scratchOnly_spWrite ..

/-- An entry of the ring is read back as it was written: the header that is written after it lies below (R127). -/
theorem spNat_entry (s : State) (t : Team) (n : Nat) {bs : List Byte} (hb : bs.length = 32) (header : List Byte) (hh : header.length = 32) :
    ((s.spWrite 0 t.core (t.entryOff n) bs).spWrite 0 t.core t.base header).spNat 0 t.core (t.entryOff n) 32 = leNat bs := by
  have habove : t.base + header.length ≤ t.entryOff n := by rw [hh, Team.entryOff]; omega
  have hself := spRead_spWrite_self s 0 t.core (t.entryOff n) bs
  rw [hb] at hself
  rw [State.spNat, spRead_spWrite_apart _ _ _ _ _ (.inr habove), hself]

theorem leNat_word (c : BitVec 256) : leNat (leBytes 32 c.toNat) = c.toNat := by
  have h : (256 : Nat) ^ 32 = 2 ^ 256 := (Nat.pow_mul 2 8 32).symm
  rw [leNat_leBytes, h, Nat.mod_eq_of_lt c.isLt]

/-! A command is taken. -/

/-- A command as it stands ACTIVE once the engine has read it as `c` (R129, R130). -/
def takenCopy (p : Pending) (c : BitVec 256) : Active :=
  ⟨p.id, p.ring, p.order, cmdSet c stActive (cmdProgress p.cmd), p.move, chunkSectors (cmdLen c) (cmdProgress p.cmd), cmdProgress p.cmd, false,
    p.seq, p.wid, p.cnt, []⟩

theorem takenCopy_cmd (p : Pending) (c : BitVec 256) : (takenCopy p c).cmd = cmdSet c stActive (cmdProgress p.cmd) := rfl

theorem takenCopy_left (p : Pending) (c : BitVec 256) : (takenCopy p c).left = chunkSectors (cmdLen c) (cmdProgress p.cmd) := by simp only [takenCopy]

/-- A team whose engine has taken a command from the ring. -/
def Team.taking (t : Team) (p : Pending) (n : Nat) (c : BitVec 256) : Team :=
  { t with issued := t.issued.filter (fun x => x.id != p.id), tmq := t.tmq.filter (fun x => x.id != p.id),
           active := t.active ++ [takenCopy p c], taken := max t.taken (n + 1) }

section
variable {s : State} {team : Nat} {p : Pending} {t : Team} {g : Grid} {n : Nat} (ht : tfind s.teams team = some t)
  (hg : s.gridOf team = some g)
include ht hg

theorem copyTake_eq (hp : ((t.issued ++ t.tmq).find? fun x => x.id == p.id) = some p) (hmay : t.mayTake p = true)
    (hblocked : s.copyBlocked team p.wid p.seq = false) (hring : p.ring = some n) (hmove : p.move = none) {c : BitVec 256}
    (hc : BitVec.ofNat 256 (s.spNat 0 t.core (t.entryOff n) 32) = c) (hleft : chunkSectors (cmdLen c) (cmdProgress p.cmd) ≠ [])
    (hcheck : s.copyCheck g t c = none) : s.copyTake team p.id
      = ((s.setTeam team (t.taking p n c)).ringStatus team n stActive (cmdProgress p.cmd)).ringImage team := by
  obtain ⟨id, ring, ready, order, cmd, move, wid, seq, cnt⟩ := p
  dsimp only at hring hmove
  subst hring hmove
  unfold State.copyTake
  simp -zeta only [ht, hg, hp, hmay, hblocked, Bool.not_true, Bool.or_false, Bool.false_eq_true, if_false]
  extract_lets c' k c1 a t2 s1 s2
  have hc' : c' = c := hc
  clear_value c'
  subst hc'
  have hchk : (if (none : Option (Nat × Nat)).isNone = true then s.copyCheck g t c' else none) = none := hcheck
  have hleft' : a.left = chunkSectors (cmdLen c') (cmdProgress cmd) := by simp only [a, k]
  have hne : a.left.isEmpty = false := by rw [hleft', List.isEmpty_eq_false_iff]; exact hleft
  have hs2 : s2 = ((s.setTeam team t2).ringStatus team n stActive k).ringImage team := by simp only [s2, s1]
  simp only [hchk, hne, Bool.false_eq_true, if_false, hs2]
  rfl

end

/-- The state and progress of an entry are in its ring, and the ring's header is written after it (R127, R128). -/
theorem ring_written {s : State} {team : Nat} {t : Team} (ht : tfind s.teams team = some t) (n status progress : Nat) :
    ((s.ringStatus team n status progress).ringImage team).spNat 0 t.core (t.entryOff n) 32
      = (cmdSet (BitVec.ofNat 256 (s.spNat 0 t.core (t.entryOff n) 32)) status progress).toNat := by
  have hteams := (scratchOnly_ringStatus s team n status progress).teams
  rw [ringImage_eq (hteams ▸ ht), ringStatus_eq ht, spNat_entry s t n (leBytes_length ..) t.header t.header_length, leNat_word]

/-- A state in which the engine has taken a command. -/
theorem copyTake_spec {s : State} {team : Nat} {p : Pending} {t : Team} {n : Nat} {c : BitVec 256}
    (hc : BitVec.ofNat 256 (s.spNat 0 t.core (t.entryOff n) 32) = c)
    (he : s.copyTake team p.id = ((s.setTeam team (t.taking p n c)).ringStatus team n stActive (cmdProgress p.cmd)).ringImage team) :
    SameRegs s (s.copyTake team p.id) ∧ (s.copyTake team p.id).phys = s.phys
      ∧ (s.copyTake team p.id).spNat 0 t.core (t.entryOff n) 32 = (cmdSet c stActive (cmdProgress p.cmd)).toNat
      ∧ tfind (s.copyTake team p.id).teams team = some (t.taking p n c) := by
  have h1 : tfind (s.setTeam team (t.taking p n c)).teams team = some (t.taking p n c) := tfind_tput_self ..
  have hs := (scratchOnly_ringStatus (s.setTeam team (t.taking p n c)) team n stActive (cmdProgress p.cmd)).trans
    (scratchOnly_ringImage _ team)
  have hnat := ring_written h1 n stActive (cmdProgress p.cmd)
  rw [← he] at hs hnat
  refine ⟨fun k x => hs.sameRegs k x, hs.phys, ?_, hs.teams ▸ h1⟩
  rw [← hc]
  exact hnat

/-! A sector lands. -/

theorem place_ne {c u v a b : Nat} (ha : a < c) (hb : b < c) (huv : v ≠ u) : v * c + b ≠ u * c + a := by
  intro h
  have hdiv : ∀ n k, k < c → (n * c + k) / c = n := fun n k hk => by
    rw [Nat.add_comm, Nat.add_mul_div_right _ _ (Nat.zero_lt_of_lt hk), Nat.div_eq_of_lt hk, Nat.zero_add]
  have := congrArg (· / c) h
  simp only [hdiv _ _ ha, hdiv _ _ hb] at this
  exact huv this

theorem spByte_setSpByte_unit (s : State) {lvl unit off v o : Nat} (b : Byte) (hoff : off < spCap lvl) (ho : o < spCap lvl) (hv : v ≠ unit) :
    (s.setSpByte lvl unit off b).spByte lvl v o = s.spByte lvl v o := by
  rcases lvl with _ | _ | lvl <;> exact tget_tset_ne _ _ _ (place_ne hoff ho hv)

/-- Bytes of other levels and units, and those beside the written ones, read as before. -/
theorem spByte_spWrite_other (s : State) {lvl unit off m v o : Nat} {bs : List Byte} (hl : lvl < 3) (hm : m < 3)
    (hoff : off + bs.length ≤ spCap lvl) (ho : o < spCap m) (h : (m, v) ≠ (lvl, unit) ∨ o < off ∨ off + bs.length ≤ o) :
    (s.spWrite lvl unit off bs).spByte m v o = s.spByte m v o := by
  induction bs generalizing s off with
  | nil => rfl
  | cons b bs ih =>
    rw [List.length_cons] at hoff h
    refine (ih (s.setSpByte lvl unit off b) (off := off + 1) (by omega) (h.imp_right (by omega))).trans ?_
    by_cases hlm : m = lvl
    · subst hlm
      by_cases hv : v = unit
      · subst hv
        rw [spByte_setSpByte, if_neg]
        rcases h with h | h
        · exact absurd rfl h
        · omega
      · exact spByte_setSpByte_unit s b (by omega) ho hv
    · exact spByte_setSpByte_level s unit off b v o (by omega)

/-- What software's bytes leave at a place: the device's own bits of a copy ring stay (R4). -/
theorem spByte_spStore (s : State) (lvl unit off : Nat) (bs : List Byte) {k : Nat} (hk : k < bs.length) :
    (s.spStore lvl unit off bs).spByte lvl unit (off + k)
      = (s.spByte lvl unit (off + k) &&& if lvl = 0 then s.hwBits unit (off + k) else 0)
        ||| (bs.getD k 0 &&& ~~~if lvl = 0 then s.hwBits unit (off + k) else 0) := by
  unfold State.spStore
  by_cases hl : lvl = 0
  · rw [if_neg (not_not_intro hl), spByte_spWrite, if_pos ⟨Nat.le_add_right .., by simpa using hk⟩, Nat.add_sub_cancel_left, if_pos hl,
      List.getD_eq_getElem _ _ (by simpa using hk), List.getElem_map, List.getElem_range]
  · rw [if_pos hl, spByte_spWrite, if_pos ⟨Nat.le_add_right .., Nat.add_lt_add_left hk _⟩, Nat.add_sub_cancel_left, if_neg hl,
      show ~~~(0 : Byte) = BitVec.allOnes 8 from rfl, BitVec.and_allOnes]
    exact (BitVec.zero_or (x := bs.getD k 0)).symm.trans (congrArg (· ||| bs.getD k 0) BitVec.and_zero.symm)

theorem spByte_spStore_other (s : State) {lvl unit off m v o : Nat} {bs : List Byte} (hl : lvl < 3) (hm : m < 3)
    (hoff : off + bs.length ≤ spCap lvl) (ho : o < spCap m) (h : (m, v) ≠ (lvl, unit) ∨ o < off ∨ off + bs.length ≤ o) :
    (s.spStore lvl unit off bs).spByte m v o = s.spByte m v o := by
  unfold State.spStore
  split
  · exact spByte_spWrite_other s hl hm hoff ho h
  · exact spByte_spWrite_other s hl hm (by simpa using hoff) ho (by simpa using h)

/-- A chunk of which other sectors are still to land goes on: the sector is no longer among them (R129). -/
theorem landed_within {s : State} {team sector : Nat} {t : Team} {g : Grid} {a : Active} (ht : tfind s.teams team = some t)
    (hg : s.gridOf team = some g) (hbar : cmdBar a.cmd = none) (hmore : ∃ k ∈ a.left, k ≠ sector) :
    s.landed team a sector = s.modTeam team fun t => { t with active := t.active.map fun x =>
      if x.id = a.id then { x with left := a.left.filter fun k => k != sector } else x } := by
  have hnone : copyBar g t a.cmd = none := by rw [copyBar, hbar]; rfl
  obtain ⟨k, hk, hne⟩ := hmore
  have hleft : (a.left.filter fun k => k != sector).isEmpty = false :=
    List.isEmpty_eq_false_iff_exists_mem.mpr ⟨k, List.mem_filter.mpr ⟨hk, bne_iff_ne.mpr hne⟩⟩
  unfold State.landed
  simp only [ht, hg, hnone, hleft, Bool.not_false, if_true]

theorem forwarded_none {s : State} (lvl : Nat) {unit : Nat} (off : Nat) (h : (s.core unit).fwd = []) : s.forwarded lvl unit off = (unit, off) := by
  unfold State.forwarded
  split
  · rfl
  · rw [h]
    rfl

/-- The write of a sector to a scratchpad (R129). -/
theorem copyWrite_scratchpad (s : State) (g : Grid) (tid : Nat) (a : Active) (sector : Nat) {l v x : Nat} (addr : DWord) (bs : List Byte)
    (h : (s.core v).fwd = []) :
    s.copyWrite g tid a sector (.sp l v x) addr bs = ((s.spStore l v x bs).wakeTx l v x 32).landed tid a sector := by
  simp only [State.copyWrite, forwarded_none l x h]

theorem physRead_cons (s : State) (pa : Nat) : ∃ b c bs, s.physRead pa 32 = b :: c :: bs := ⟨_, _, _, rfl⟩

section
variable {s : State} {team sector pa key l v x : Nat} {t : Team} {g : Grid} {a : Active}
  (hpre : tfind a.pre sector = none) (hsrc : s.copyPlace g t a.cmd a.move true (32 * sector) = .ok (.mem pa key))
  (hstop : s.stopAt none g.ctx pa key false = none)
include hpre hsrc hstop

theorem sourceOf_memory (hpeer : s.isPeer pa = false) : s.sourceOf g t a sector = some (s.physRead pa 32) := by
  unfold State.sourceOf
  simp only [hpre, hsrc, hpeer, hstop, Bool.false_eq_true, if_false]

theorem sourceRead_memory : s.sourceRead g t a sector = s.account g.ctx (s.place pa) s.t7 false := by
  unfold State.sourceRead
  simp only [hpre, hsrc, hstop]

/-- A source sector of memory that can be served lands in a scratchpad (R129). -/
theorem copyLand_lands (ht : tfind s.teams team = some t) (hg : s.gridOf team = some g) (ha : (t.active.find? fun y => y.id == a.id) = some a)
    (hres : t.resident = true) (hleft : sector ∈ a.left) (hdst : s.copyPlace g t a.cmd a.move false (32 * sector) = .ok (.sp l v x))
    (hserve : s.canServe (s.place pa) = true) (hturn : s.engineTurn g.ctx (s.groupOf (s.place pa)) = true) (hpeer : s.isPeer pa = false)
    (hremote : ∀ r ∈ s.link.remotes, ∀ y z k d, r.what ≠ .copy y z k d)
    (hbar : s.barFree g t a.cmd = true) (hbehind : s.copyBehind g t a (.ok (.sp l v x)) = false)
    (hover : s.overwritten g t a sector (.ok (.sp l v x)) = none) (hfwd : (s.core v).fwd = []) :
    s.copyLand team a.id sector = (((s.account g.ctx (s.place pa) s.t7 false).spStore l v x (s.physRead pa 32)).wakeTx l v x 32).landed
      team a sector := by
  obtain ⟨b, c, bs, hbytes⟩ := physRead_cons s pa
  have hcont : a.left.contains sector = true := List.contains_iff_mem.mpr hleft
  have hcore : ((s.account g.ctx (s.place pa) s.t7 false).core v).fwd = [] := by
    obtain ⟨_, _, _, _, h, -⟩ := accounted_account s g.ctx (s.place pa) s.t7 false
    rw [h]
    exact hfwd
  unfold State.copyLand
  simp -zeta only [ht, hg, ha]
  extract_lets o src dst busy sent
  have hsrc' : src = .ok (.mem pa key) := hsrc
  have hdst' : dst = .ok (.sp l v x) := hdst
  have hsent : sent = false := by
    refine List.any_eq_false.mpr fun r hr => ?_
    split
    · next hw => exact absurd hw (hremote r hr _ _ _ _)
    · exact Bool.false_ne_true
  have hbusy : busy src = false := by simp only [busy, hsrc', hserve, hturn, Bool.not_true, Bool.or_false]
  have hfree : busy (.ok (.sp l v x)) = false := rfl
  simp only [hres, hcont, hbusy, hfree, hsent, hbar, hdst', hbehind, hover, sourceOf_memory hpre hsrc hstop hpeer,
    sourceRead_memory hpre hsrc hstop, hbytes, Bool.not_true, Bool.or_false, Bool.false_eq_true, if_false]
  exact copyWrite_scratchpad _ _ _ _ _ _ _ hcore

end

theorem Accounted.hwBits {s u : State} (h : Accounted s u) (core off : Nat) : u.hwBits core off = s.hwBits core off := by
  obtain ⟨_, _, _, _, rfl, -⟩ := h
  rfl

theorem Accounted.teams {s u : State} (h : Accounted s u) : u.teams = s.teams := by
  obtain ⟨_, _, _, _, rfl, -⟩ := h
  rfl

theorem Accounted.gridOf {s u : State} (h : Accounted s u) (n : Nat) : u.gridOf n = s.gridOf n := by
  obtain ⟨_, _, _, _, rfl, -⟩ := h
  rfl

theorem modTeam_some {s : State} {tid : Nat} {t : Team} (f : Team → Team) (ht : tfind s.teams tid = some t) :
    s.modTeam tid f = s.setTeam tid (f t) := by
  rw [State.modTeam, ht]

/-- A sector of an active command has landed: it is no longer among those that are left. -/
def Active.landedAt (b a : Active) (sector : Nat) : Active :=
  if b.id = a.id then { b with left := a.left.filter fun k => k != sector } else b

theorem landedAt_id (b a : Active) (sector : Nat) : (b.landedAt a sector).id = b.id := by
  unfold Active.landedAt
  split <;> rfl

theorem landedAt_left {b a : Active} (sector : Nat) (h : b.id = a.id) : (b.landedAt a sector).left = a.left.filter fun k => k != sector := by
  rw [Active.landedAt, if_pos h]

/-- What a landing that wrote 32 bytes to a scratchpad leaves (R129). -/
theorem sectorLanded_spec {s : State} {team sector pa l v x : Nat} {t : Team} {g : Grid} {a : Active} (ht : tfind s.teams team = some t)
    (hg : s.gridOf team = some g) (hbar : cmdBar a.cmd = none) (hmore : ∃ k ∈ a.left, k ≠ sector) (hl : l < 3) (hcap : x + 32 ≤ spCap l)
    {u : State} (hu : u = (((s.account g.ctx (s.place pa) s.t7 false).spStore l v x (s.physRead pa 32)).wakeTx l v x 32).landed
      team a sector) :
    SameRegs s u ∧ (∀ y, u.phys.byte y = s.phys.byte y)
      ∧ (∀ k, k < 32 → u.spByte l v (x + k) = (s.spByte l v (x + k) &&& if l = 0 then s.hwBits v (x + k) else 0)
        ||| (s.physByte (pa + k) &&& ~~~if l = 0 then s.hwBits v (x + k) else 0))
      ∧ (∀ l2 v2 o, l2 < 3 → o < spCap l2 → (l2, v2) ≠ (l, v) ∨ o < x ∨ x + 32 ≤ o → u.spByte l2 v2 o = s.spByte l2 v2 o)
      ∧ tfind u.teams team = some { t with active := t.active.map fun b => b.landedAt a sector } := by
  have hlen : (s.physRead pa 32).length = 32 := by rw [State.physRead, List.length_map, List.length_range]
  have hbyte : ∀ k, k < 32 → (s.physRead pa 32).getD k 0 = s.physByte (pa + k) := fun k hk => by
    rw [List.getD_eq_getElem _ _ (hlen ▸ hk)]
    simp only [State.physRead, List.getElem_map, List.getElem_range]
  have hacc := accounted_account s g.ctx (s.place pa) s.t7 false
  generalize s.account g.ctx (s.place pa) s.t7 false = s1 at hu hacc
  generalize s.physRead pa 32 = bs at hu hlen hbyte
  have hs := (scratchOnly_spStore s1 l v x bs).trans (scratchOnly_wakeTx _ l v x 32)
  have ht' : tfind ((s1.spStore l v x bs).wakeTx l v x 32).teams team = some t := by rw [hs.teams, hacc.teams]; exact ht
  have hg' : ((s1.spStore l v x bs).wakeTx l v x 32).gridOf team = some g := by rw [hs.gridOf, hacc.gridOf]; exact hg
  rw [landed_within ht' hg' hbar hmore, modTeam_some _ ht'] at hu
  subst hu
  refine ⟨fun k y => ?_, fun y => ?_, fun k hk => ?_, fun l2 v2 o h2 ho h => ?_, tfind_tput_self ..⟩
  · refine (hs.sameRegs k y).trans ?_
    rw [State.newest, hacc.waves]
    rfl
  · exact (congrArg (fun p => Phys.byte p y) hs.phys).trans (hacc.sameMemory.1 y)
  · refine (spByte_spStore s1 l v x bs (hlen ▸ hk)).trans ?_
    rw [hbyte k hk, hacc.hwBits, hacc.sameMemory.2]
  · exact (spByte_spStore_other s1 hl h2 (by rw [hlen]; exact hcap) ho (by rw [hlen]; exact h)).trans (hacc.sameMemory.2 ..)

/-! A command faults. -/

theorem modTile_eq (t : Team) (id : Nat) (f : BitVec 128 → BitVec 128) : ∃ tiles, t.modTile id f = { t with tiles := tiles } := by
  unfold Team.modTile
  split
  · exact ⟨_, rfl⟩
  · exact ⟨t.tiles, rfl⟩

/-- The end of a command ends the states of its tiles, and changes nothing else of its team (R123). -/
theorem endTiles_eq (t : Team) (c : BitVec 256) (move : Option (Nat × Nat)) (ok : Bool) :
    ∃ tiles, t.endTiles c move ok = { t with tiles := tiles } := by
  unfold Team.endTiles
  extract_lets filled drained
  split
  · next x d =>
    obtain ⟨_, h⟩ := modTile_eq t d filled
    obtain ⟨_, h'⟩ := modTile_eq (t.modTile d filled) x drained
    exact ⟨_, h'.trans (by rw [h])⟩
  · exact modTile_eq ..
  · exact modTile_eq ..
  · exact ⟨t.tiles, rfl⟩

theorem sameRegs_setWave {s : State} {wid : Nat} {w v : Wave} (hw : tfind s.waves wid = some w) (hv : w.Eased v) :
    SameRegs s (s.setWave wid v) := by
  intro k x
  by_cases hk : k = wid
  · rw [hk, State.newest, State.setWave_waves, tfind_tput_self, State.newest, hw]
    exact hv.newest x
  · rw [State.newest, State.setWave_waves, tfind_tput_ne _ _ hk, State.newest]

/-- The fall of a command's counters changes its wave's counters and acquires (R143). -/
theorem copyCounters_spec (s : State) (tid wid : Nat) (cnt : List Nat) :
    SameRegs s (s.copyCounters tid wid cnt) ∧ (s.copyCounters tid wid cnt).phys = s.phys ∧ (s.copyCounters tid wid cnt).teams = s.teams := by
  unfold State.copyCounters
  split
  · next w hw =>
    split
    · have hfall : SameRegs s (s.setWave wid (w.fall cnt)) := sameRegs_setWave hw (eased_fall w cnt)
      rcases settle_cases (s.setWave wid (w.fall cnt)) wid with h | ⟨w', v, hw', hv, h⟩
      · rw [h]
        exact ⟨hfall, rfl, rfl⟩
      · rw [h]
        exact ⟨hfall.trans (sameRegs_setWave hw' hv), rfl, rfl⟩
    · exact ⟨fun _ _ => rfl, rfl, rfl⟩
  · exact ⟨fun _ _ => rfl, rfl, rfl⟩

/-- The record of an asynchronous fault of a team (R320). -/
def State.faultRec (s : State) (tid : Nat) (x : Team) (g : Grid) (cause : BitVec 7) (addr : DWord) (bar : Option Nat) : FRec :=
  ⟨cause, 0, 3, g.eff.fdom, g.x5, x.core, 0, 0, 0, 0, addr, s.coordDetail tid, BitVec.ofNat 64 s.ns, bar⟩

/-- A log of fewer than 8 records takes a further one (R320). -/
theorem logFault_short {s : State} {tid : Nat} {x : Team} {g : Grid} (cause : BitVec 7) (addr : DWord) (bar : Option Nat)
    (hx : tfind s.teams tid = some x) (hg : s.gridOf tid = some g) (hlog : x.log.length < 8) :
    s.logFault tid cause addr bar = s.setTeam tid { x with log := x.log ++ [s.faultRec tid x g cause addr bar] } := by
  have hlen : ¬ (x.log ++ [s.faultRec tid x g cause addr bar]).length > 8 := by
    rw [List.length_append, List.length_singleton]
    omega
  unfold State.logFault
  simp only [hx, hg]
  exact if_neg hlen

/-- A team whose command has ended: it is no longer active, and its tiles and retired entries follow (R123, R129). -/
theorem endedTeam_eq (t : Team) (a : Active) (ok : Bool) : ∃ tiles retired,
    (({ t with active := t.active.filter fun x => x.id != a.id } : Team).endTiles a.cmd a.move ok).retire
      = { t with active := t.active.filter fun x => x.id != a.id, tiles := tiles, retired := retired } := by
  obtain ⟨tiles, h⟩ := endTiles_eq ({ t with active := t.active.filter fun x => x.id != a.id } : Team) a.cmd a.move ok
  rw [h]
  exact ⟨tiles, _, rfl⟩

/-- A faulted command has ended, and its fault is logged with its team (R131). -/
theorem endCopy_faulted {s : State} {team : Nat} {t : Team} {g : Grid} (a : Active) (cause : BitVec 7) (addr : DWord)
    (ht : tfind s.teams team = some t) (hg : s.gridOf team = some g) (hlog : t.log.length < 8) :
    SameRegs s (s.endCopy team a (some (cause, addr))) ∧ (s.endCopy team a (some (cause, addr))).phys = s.phys
      ∧ ∃ y r, tfind (s.endCopy team a (some (cause, addr))).teams team = some y ∧ y.active = t.active.filter (fun x => x.id != a.id)
        ∧ y.log = t.log ++ [r] ∧ r.cause = cause ∧ r.addr = addr ∧ r.bar = cmdBar a.cmd ∧ r.kind = 3 ∧ r.fdom = g.eff.fdom := by
  unfold State.endCopy
  simp -zeta only [ht, hg]
  extract_lets t2 s1 s2 s3 s4
  obtain ⟨tiles, retired, htr⟩ := endedTeam_eq t a (some (cause, addr)).isNone
  have hteam : tfind s1.teams team = some t2.retire := tfind_tput_self ..
  have hgrid : s1.gridOf team = some g := by
    rw [State.gridOf, ht] at hg
    rw [State.gridOf, hteam]
    exact (congrArg (fun x : Team => tfind s.grids x.grid) htr).trans hg
  have h12 : ScratchOnly s1 s2 := by
    simp only [s2]
    split
    · exact (scratchOnly_ringStatus ..).trans (scratchOnly_ringImage ..)
    · exact .refl s1
  have h13 : ScratchOnly s1 s3 := by
    refine h12.trans ?_
    simp only [s3]
    split
    · exact scratchOnly_faultTx ..
    · exact .refl s2
  have hlog' : t2.retire.log.length < 8 := by rw [show t2.retire = _ from htr]; exact hlog
  have h4 : s4 = s3.setTeam team { t2.retire with log := t2.retire.log ++ [s3.faultRec team t2.retire g cause addr (cmdBar a.cmd)] } :=
    logFault_short cause addr (cmdBar a.cmd) (h13.teams ▸ hteam) ((h13.gridOf team).trans hgrid) hlog'
  have hteam4 : tfind s4.teams team = some { t2.retire with log := t2.retire.log ++ [s3.faultRec team t2.retire g cause addr (cmdBar a.cmd)] } := by
    rw [h4]
    exact tfind_tput_self ..
  have h04 : SameRegs s s4 ∧ s4.phys = s.phys := by
    rw [h4]
    exact ⟨h13.sameRegs, h13.phys⟩
  obtain ⟨hregs, hphys⟩ := h04
  obtain ⟨hregs', hphys', hteams'⟩ := copyCounters_spec s4 team a.wid a.counters
  refine ⟨hregs.trans hregs', hphys'.trans hphys, _, s3.faultRec team t2.retire g cause addr (cmdBar a.cmd), hteams' ▸ hteam4,
    ?_, ?_, rfl, rfl, rfl, rfl, rfl⟩
  · exact congrArg Team.active htr
  · have hl : t2.retire.log = t.log := by rw [show t2.retire = _ from htr]
    exact congrArg (· ++ [s3.faultRec team t2.retire g cause addr (cmdBar a.cmd)]) hl

end Sys2Proof.Machine
end

section
/-! PROOFS. The ends of teams (R83, R84): what the end of a team leaves of waves, teams and scratchpad, and that a team that is over stays so
while others end. -/

namespace Sys2Proof.Machine

set_option Elab.async false

/-! Lists of keys and values. -/

theorem tfind_filter_key {α : Type} (m : Tab α) (P : Nat → Bool) (k : Nat) :
    tfind (m.filter fun e => P e.1) k = if P k then tfind m k else none := by
  induction m with
  | nil => simp [tfind]
  | cons e m ih =>
    obtain ⟨k', v⟩ := e
    rw [List.filter_cons]
    by_cases h : k' = k
    · subst h
      by_cases hp : P k' = true
      · simp [hp, tfind]
      · simp [hp, ih]
    · by_cases hp : P k' = true
      · simp [hp, tfind, h, ih]
      · simp [hp, tfind, h, ih]

theorem mem_of_tfind {α : Type} {m : Tab α} {k : Nat} {v : α} (h : tfind m k = some v) : (k, v) ∈ m := by
  induction m with
  | nil => cases h
  | cons e m ih =>
    obtain ⟨k', v'⟩ := e
    rw [tfind] at h
    split at h
    · next hk =>
      cases h
      rw [hk]
      exact List.mem_cons_self
    · exact List.mem_cons_of_mem _ (ih h)

/-! What other teams see of the end of a team. -/

/-- Some teams may be gone, and nothing that stands has come: the waves, the scratchpads that grids hold in cores, and the power of clusters are
the same, and no port forwards for further teams. -/
structure TeamsGone (s t : State) : Prop where
  waves : t.waves = s.waves
  teams : ∃ keep : Nat → Bool, t.teams = s.teams.filter fun e => keep e.1
  khead : ∀ g, (tfind t.grids g).map Grid.khead = (tfind s.grids g).map Grid.khead
  fwd : ∀ c, ∀ f ∈ (t.core c).fwd, f ∈ (s.core c).fwd
  pwr : ∀ k, (t.cluster k).pwr = (s.cluster k).pwr

/-- All that `TeamsGone` speaks of is as it was. -/
structure SamePlaces (s t : State) : Prop where
  waves : t.waves = s.waves
  teams : t.teams = s.teams
  khead : ∀ g, (tfind t.grids g).map Grid.khead = (tfind s.grids g).map Grid.khead
  fwd : ∀ c, (t.core c).fwd = (s.core c).fwd
  pwr : ∀ k, (t.cluster k).pwr = (s.cluster k).pwr

theorem TeamsGone.refl (s : State) : TeamsGone s s := ⟨rfl, ⟨fun _ => true, by simp⟩, fun _ => rfl, fun _ _ h => h, fun _ => rfl⟩

theorem TeamsGone.trans {s t u : State} (hst : TeamsGone s t) (htu : TeamsGone t u) : TeamsGone s u := by
  obtain ⟨keep, hk⟩ := hst.teams
  obtain ⟨keep', hk'⟩ := htu.teams
  refine ⟨htu.waves.trans hst.waves, ⟨fun n => keep n && keep' n, ?_⟩, fun g => (htu.khead g).trans (hst.khead g),
    fun c f h => hst.fwd c f (htu.fwd c f h), fun k => (htu.pwr k).trans (hst.pwr k)⟩
  rw [hk', hk, List.filter_filter]
  simp only [Bool.and_comm]

theorem SamePlaces.refl (s : State) : SamePlaces s s := ⟨rfl, rfl, fun _ => rfl, fun _ => rfl, fun _ => rfl⟩

theorem SamePlaces.trans {s t u : State} (hst : SamePlaces s t) (htu : SamePlaces t u) : SamePlaces s u :=
  ⟨htu.waves.trans hst.waves, htu.teams.trans hst.teams, fun g => (htu.khead g).trans (hst.khead g), fun c => (htu.fwd c).trans (hst.fwd c),
    fun k => (htu.pwr k).trans (hst.pwr k)⟩

theorem SamePlaces.gone {s t : State} (h : SamePlaces s t) : TeamsGone s t :=
  ⟨h.waves, ⟨fun _ => true, by rw [h.teams]; simp⟩, h.khead, fun c f hf => h.fwd c ▸ hf, h.pwr⟩

theorem SamePlaces.foldl {β : Type} {f : State → β → State} (hf : ∀ s b, SamePlaces s (f s b)) (l : List β) (s : State) :
    SamePlaces s (l.foldl f s) := by
  induction l generalizing s with
  | nil => exact .refl s
  | cons b l ih => exact (hf s b).trans (ih _)

theorem Accounted.samePlaces {s t : State} (h : Accounted s t) : SamePlaces s t := by
  obtain ⟨_, _, _, _, rfl, -⟩ := h
  exact ⟨rfl, rfl, fun _ => rfl, fun _ => rfl, fun _ => rfl⟩

theorem Written.samePlaces {s t : State} (h : Written s t) : SamePlaces s t := by
  obtain ⟨_, _, _, rfl⟩ := h
  exact ⟨rfl, rfl, fun _ => rfl, fun _ => rfl, fun _ => rfl⟩

theorem samePlaces_modCtx (s : State) (n : Nat) (f : Ctx → Ctx) : SamePlaces s (s.modCtx n f) :=
  ⟨rfl, rfl, fun _ => rfl, fun _ => rfl, fun _ => rfl⟩

theorem samePlaces_setGrid {s : State} {n : Nat} {g g' : Grid} (hg : tfind s.grids n = some g) (h : g'.khead = g.khead) :
    SamePlaces s (s.setGrid n g') := by
  refine ⟨rfl, rfl, fun k => ?_, fun _ => rfl, fun _ => rfl⟩
  by_cases hk : k = n
  · rw [hk, hg]
    exact (congrArg _ (tfind_tput_self ..)).trans (congrArg some h)
  · exact congrArg _ (tfind_tput_ne _ _ hk)

theorem samePlaces_setImages {s : State} {n : Nat} {g g' : Grid} (hg : tfind s.grids n = some g) (h : g'.khead = g.khead)
    (images : Tab SpImage) : SamePlaces s (s.setGrid n { g' with images := images }) := samePlaces_setGrid hg h

theorem samePlaces_addLazies (s : State) (us : List LazyUnit) : SamePlaces s (s.addLazies us) :=
  ⟨rfl, rfl, fun _ => rfl, fun _ => rfl, fun _ => rfl⟩

theorem samePlaces_modCore (s : State) (c : Nat) {f : Core → Core} (hf : (f (s.core c)).fwd = (s.core c).fwd) : SamePlaces s (s.modCore c f) := by
  refine ⟨rfl, rfl, fun _ => rfl, fun k => ?_, fun _ => rfl⟩
  by_cases hk : k = c
  · rw [hk]
    exact (congrArg Core.fwd (tget_tset_self ..)).trans hf
  · exact congrArg Core.fwd (tget_tset_ne _ _ _ hk)

theorem samePlaces_modCluster (s : State) (k : Nat) {f : Cluster → Cluster} (hf : (f (s.cluster k)).pwr = (s.cluster k).pwr) :
    SamePlaces s (s.modCluster k f) := by
  refine ⟨rfl, rfl, fun _ => rfl, fun _ => rfl, fun j => ?_⟩
  by_cases hj : j = k
  · rw [hj]
    exact (congrArg Cluster.pwr (tget_tset_self ..)).trans hf
  · exact congrArg Cluster.pwr (tget_tset_ne _ _ _ hj)

/-- A record to a fault queue that names no parked fault changes memory, the queue's context and the black box (R318). -/
theorem samePlaces_writeRec (s : State) (n : Nat) (r : FRec) : SamePlaces s (s.writeRec n r) := by
  unfold State.writeRec
  extract_lets c e at_ s1
  have h1 : SamePlaces s s1 := (accounted_virtAccount ..).samePlaces
  split
  · next t ht =>
    exact (h1.trans (written_virtWrite ht).samePlaces).trans ⟨rfl, rfl, fun _ => rfl, fun _ => rfl, fun _ => rfl⟩
  · exact (h1.trans (samePlaces_modCtx ..)).trans (written_amberEvent ..).samePlaces

theorem samePlaces_report (s : State) (n : Nat) {r : FRec} (wid : Nat) (hr : r.kind ≠ 0) : SamePlaces s (s.report n r wid) := by
  unfold State.report
  extract_lets c
  split
  · exact samePlaces_modCtx ..
  · unfold State.writeTold
    extract_lets t
    rw [if_neg fun h => hr h.1]
    exact samePlaces_writeRec ..

theorem samePlaces_toDomain (s : State) (ctx : Nat) (r : FRec) : SamePlaces s (s.toDomain ctx r) :=
  samePlaces_report s ctx 0 (show (3 : Nat) ≠ 0 by decide)

theorem samePlaces_modGrid (s : State) (n : Nat) {f : Grid → Grid} (hf : ∀ g, (f g).khead = g.khead) : SamePlaces s (s.modGrid n f) := by
  unfold State.modGrid
  split
  · next g hg => exact samePlaces_setGrid hg (hf g)
  · exact .refl s

theorem samePlaces_loseUnit (s : State) (ctx gid : Nat) : SamePlaces s (s.loseUnit ctx gid) :=
  ((samePlaces_modGrid s gid (f := fun g => { g with lost := true }) fun _ => rfl).trans
    (samePlaces_report _ ctx 0 (show (1 : Nat) ≠ 0 by decide))).trans (written_amberEvent ..).samePlaces

theorem written_saveSectors (s : State) (pa n : Nat) : Written s (s.saveSectors pa n) := by
  unfold State.saveSectors
  extract_lets ctx stamp sec one t
  have hone : ∀ s i, Written s (one s i) := fun s i => (written_renewed s ctx _).trans (written_phys _ _)
  have ht : Written s t := by
    simp only [t]
    split
    · exact .foldl hone _ s
    · exact written_phys s _
  exact ht.trans ⟨t.phys, t.amber, _, rfl⟩

theorem SamePlaces.foldl_snd {β : Type} {f : Bool × State → β → Bool × State} (hf : ∀ acc b, SamePlaces acc.2 (f acc b).2) (l : List β)
    (acc : Bool × State) : SamePlaces acc.2 (l.foldl f acc).2 := by
  induction l generalizing acc with
  | nil => exact .refl acc.2
  | cons b l ih => exact (hf acc b).trans (ih _)

/-- Units written to a save area change memory and what is accounted (R55, R56). -/
theorem samePlaces_saveWrite (s : State) (ctx : Nat) (runs : List (Nat × Nat)) : SamePlaces s (s.saveWrite ctx runs).2 := by
  refine SamePlaces.foldl_snd (fun acc p => ?_) _ (true, s)
  have hacc : SamePlaces acc.2 (acc.2.virtAccount ctx (BitVec.ofNat 64 p.1) p.2 true) := (accounted_virtAccount ..).samePlaces
  dsimp only
  split
  · exact hacc
  · split
    · exact hacc
    · exact hacc.trans (written_saveSectors ..).samePlaces

theorem samePlaces_saveUnits (s : State) (ctx gid : Nat) (runs : List (Nat × Nat)) : SamePlaces s (s.saveUnits ctx gid runs) := by
  have hw := samePlaces_saveWrite s ctx runs
  unfold State.saveUnits
  split
  next ok t he =>
  rw [he] at hw
  split
  · exact hw
  · exact hw.trans (samePlaces_loseUnit ..)

theorem khead_setAllocs (g : Grid) (lvl : Nat) (t : Tab Nat) : (g.setAllocs lvl t).khead = g.khead := by
  unfold Grid.setAllocs
  split <;> rfl

/-- A grid that leaves a unit keeps what it holds in cores (R55, R57, R79). -/
theorem samePlaces_leaveUnit (s : State) (gid lvl unit : Nat) : SamePlaces s (s.leaveUnit gid lvl unit) := by
  unfold State.leaveUnit
  split
  · exact .refl s
  · next g hg =>
    split
    · exact .refl s
    · split
      · exact .refl s
      · extract_lets n g1 needed mine rest
        have hk : g1.khead = g.khead := khead_setAllocs ..
        split
        · exact samePlaces_setGrid hg hk
        · split
          · exact (samePlaces_setImages hg hk _).trans (samePlaces_addLazies ..)
          · exact (samePlaces_setImages hg hk _).trans (samePlaces_saveUnits ..)

theorem samePlaces_dropImages (s : State) (gid : Nat) : SamePlaces s (s.dropImages gid) := by
  unfold State.dropImages
  split
  · exact .refl s
  · next g hg =>
    extract_lets needed gone blocks
    exact (samePlaces_setImages hg rfl _).trans ⟨rfl, rfl, fun _ => rfl, fun _ => rfl, fun _ => rfl⟩

theorem samePlaces_freePos (s : State) (core ctx : Nat) : SamePlaces s (s.freePos core ctx) := by
  unfold State.freePos
  split
  · exact .refl s
  · exact samePlaces_modCore s core rfl

theorem samePlaces_setLeaves (s : State) (k : Nat) (ls : List LeafRec) : SamePlaces s (s.setLeaves k ls) :=
  samePlaces_modCluster s k (f := fun c => { c with leaves := ls }) rfl

theorem samePlaces_removeLeaves (s : State) (k : Nat) (which : LeafRec → Bool) : SamePlaces s (s.removeLeaves k which) :=
  samePlaces_setLeaves ..

/-- A core that neither forwards for a team nor holds its engine (R84, R98). -/
def Core.without (tid : Nat) (k : Core) : Core :=
  { k with fwd := k.fwd.filter fun f => f.1 != tid, mx := if k.mx.owner = some tid then { k.mx with owner := none } else k.mx }

/-- A state in which a team has left the table, its LAZY units and its cores. -/
def State.dropTeam (s : State) (tid : Nat) : State :=
  { s with teams := terase s.teams tid, lazies := s.lazies.filter fun u => u.st == .saving || u.team != some tid,
           cores := s.cores.map fun (e : Nat × Core) => (e.1, e.2.without tid) }

theorem teamsGone_dropTeam (s : State) (tid : Nat) : TeamsGone s (s.dropTeam tid) := by
  refine ⟨rfl, ⟨fun k => k != tid, rfl⟩, fun _ => rfl, fun c f hf => ?_, fun _ => rfl⟩
  have hcore : (s.dropTeam tid).core c = (s.core c).without tid := tget_map Core.init (Core.without tid) rfl s.cores c
  rw [hcore] at hf
  exact List.mem_of_mem_filter hf

/-- The end of a team takes it out of the table, and nothing comes (R84). -/
theorem endTeam_gone (s : State) (tid : Nat) (t : Team) : TeamsGone s (s.endTeam tid t) ∧ tfind (s.endTeam tid t).teams tid = none := by
  unfold State.endTeam
  extract_lets ctx s1 s1' s2
  have hs2 : s2 = s1'.dropTeam tid := rfl
  clear_value s2
  have h1 : SamePlaces s s1 := .foldl (fun s r => samePlaces_toDomain s ctx r) _ s
  have h1' : SamePlaces s1 s1' := by
    refine .foldl (fun s k => ?_) _ s1
    split
    · exact .refl s
    · exact samePlaces_removeLeaves ..
  clear_value s1'
  have h2 : TeamsGone s1' s2 := hs2 ▸ teamsGone_dropTeam s1' tid
  have h3 := ((samePlaces_freePos s2 t.core ctx).trans (samePlaces_leaveUnit _ t.grid 1 (cluOf t.core))).trans
    ((samePlaces_leaveUnit _ t.grid 2 (dieOf t.core)).trans (samePlaces_dropImages _ t.grid))
  refine ⟨((h1.trans h1').gone.trans h2).trans h3.gone, ?_⟩
  rw [h3.teams, hs2]
  exact (tfind_terase s1'.teams tid tid).trans (if_pos rfl)

/-! What is named by copies. -/

theorem score_congr {g g' : Grid} (h : g'.khead = g.khead) : g'.score = g.score := by rw [Grid.score, h]; rfl

section
variable {s t : State} (hst : TeamsGone s t)
include hst

/-- A team either is gone or stands as it stood. -/
theorem TeamsGone.tfind (k : Nat) : tfind t.teams k = tfind s.teams k ∨ tfind t.teams k = none := by
  obtain ⟨keep, h⟩ := hst.teams
  rw [h, tfind_filter_key]
  split
  · exact .inl rfl
  · exact .inr rfl

theorem TeamsGone.tfind_some {k : Nat} {x : Team} (h : Machine.tfind t.teams k = some x) : Machine.tfind s.teams k = some x :=
  (hst.tfind k).elim (fun e => e ▸ h) fun e => by rw [e] at h; cases h

theorem TeamsGone.mem {e : Nat × Team} (he : e ∈ t.teams) : e ∈ s.teams := by
  obtain ⟨keep, h⟩ := hst.teams
  rw [h] at he
  exact List.mem_of_mem_filter he

/-- The grid of a team that still stands holds what it held in cores. -/
theorem TeamsGone.gridOf {k : Nat} {g' : Grid} (hg : t.gridOf k = some g') : ∃ g, s.gridOf k = some g ∧ g'.khead = g.khead := by
  obtain ⟨x, hx, hg'⟩ := Option.bind_eq_some_iff.mp hg
  have hmap := hst.khead x.grid
  rw [hg', Option.map_some] at hmap
  obtain ⟨g, hfind, hk⟩ := Option.map_eq_some_iff.mp hmap.symm
  exact ⟨g, by rw [State.gridOf, hst.tfind_some hx]; exact hfind, hk.symm⟩

theorem TeamsGone.allocsOn {grid core : Nat} {r : Nat × Nat} (h : r ∈ t.allocsOn grid core) : r ∈ s.allocsOn grid core := by
  unfold State.allocsOn at h ⊢
  rcases List.mem_append.mp h with h | h
  · obtain ⟨e, he, hr⟩ := List.mem_filterMap.mp h
    refine List.mem_append_left _ (List.mem_filterMap.mpr ⟨e, hst.mem he, ?_⟩)
    split at hr
    · next hc =>
      obtain ⟨g', hg', rfl⟩ := Option.map_eq_some_iff.mp hr
      obtain ⟨g, hg, hk⟩ := hst.gridOf hg'
      rw [if_pos hc, hg, Option.map_some, score_congr hk]
    · cases hr
  · obtain ⟨f, hf, hr⟩ := List.mem_filterMap.mp h
    refine List.mem_append_right _ (List.mem_filterMap.mpr ⟨f, hst.fwd core f hf, ?_⟩)
    split at hr
    · next x g' hx hg' =>
      obtain ⟨hgrid, hr⟩ := Option.ite_none_right_eq_some.mp hr
      obtain ⟨g, hg, hk⟩ := hst.gridOf hg'
      simp only [hst.tfind_some hx, hg, if_pos hgrid]
      rw [← score_congr hk]
      exact hr
    · cases hr

theorem TeamsGone.inAlloc {grid core off n : Nat} (h : t.inAlloc grid core off n = true) : s.inAlloc grid core off n = true := by
  unfold State.inAlloc at h ⊢
  rw [List.all_eq_true] at h ⊢
  intro k hk
  obtain ⟨r, hr, hc⟩ := List.any_eq_true.mp (h k hk)
  exact List.any_eq_true.mpr ⟨r, hst.allocsOn hr, hc⟩

theorem TeamsGone.spLocate {gid n : Nat} {g g' : Grid} {u : Team} {addr : Word} {p : Nat × Nat} (hk : g'.khead = g.khead)
    (h : t.spLocate gid g' u 0 addr n = .ok p) : s.spLocate gid g u 0 addr n = .ok p := by
  simp only [State.spLocate, if_true] at h ⊢
  split at h
  · cases h
  · next hbad =>
    rw [if_neg hbad]
    split at h
    · next hown =>
      rw [if_pos hown, ← score_congr hk]
      exact h
    · next hown =>
      rw [if_neg hown]
      split at h
      · cases h
      · next hpwr =>
        rw [hst.pwr] at hpwr
        rw [if_neg hpwr]
        split at h
        · next hin =>
          rw [if_pos (hst.inAlloc hin)]
          exact h
        · cases h

/-- An end in a core's scratchpad that is found once some teams are gone was there before. -/
theorem TeamsGone.copyPlace {g g' : Grid} {u : Team} {c : BitVec 256} {isSrc : Bool} {core x : Nat} (hk : g'.khead = g.khead)
    (hspace : cmdSpace c isSrc = 1) (h : t.copyPlace g' u c none isSrc 0 = .ok (.sp 0 core x)) :
    s.copyPlace g u c none isSrc 0 = .ok (.sp 0 core x) := by
  have hbase : ∀ e, tileLevel e = 0 → tileLoc g u e 0 = tileLoc g' u e 0 := fun e he => by simp only [tileLoc, allocBase, he, if_true]
  simp only [State.copyPlace, hspace, Nat.sub_self] at h ⊢
  split at h
  · next i _ =>
    obtain ⟨hl, -⟩ := Loc.sp.inj (Except.ok.inj h)
    rw [hbase _ hl]
    exact h
  · rw [if_neg Nat.one_ne_zero] at h ⊢
    split at h
    · next k y hloc =>
      rw [hst.spLocate hk hloc]
      exact h
    · cases h

omit hst in
/-- A command of another team names bytes of a team's core scratchpad (R84). -/
theorem namedByCopy_iff (s : State) (tid : Nat) (x : Team) (score : Nat) : s.namedByCopy tid x score = true ↔
    ∃ e ∈ s.teams, e.1 ≠ tid ∧ ∃ g, s.gridOf e.1 = some g ∧ ∃ c ∈ e.2.active.map (·.cmd) ++ e.2.issued.map (·.cmd), ∃ isSrc,
      cmdSpace c isSrc = 1 ∧ ∃ off, s.copyPlace g e.2 c none isSrc 0 = .ok (.sp 0 x.core off) ∧ x.base < off + cmdLen c
        ∧ off < x.base + score := by
  unfold State.namedByCopy
  extract_lets inMe
  have hin : ∀ g u c isSrc, inMe g u c isSrc = true ↔ cmdSpace c isSrc = 1 ∧ ∃ off, s.copyPlace g u c none isSrc 0 = .ok (.sp 0 x.core off)
      ∧ x.base < off + cmdLen c ∧ off < x.base + score := by
    intro g u c isSrc
    simp only [inMe, Bool.and_eq_true, beq_iff_eq]
    refine and_congr_right fun _ => ?_
    split
    · next k y hp =>
      simp only [Bool.and_eq_true, beq_iff_eq, decide_eq_true_eq, hp, Except.ok.injEq, Loc.sp.injEq, true_and]
      constructor
      · rintro ⟨hk, hoff⟩
        exact ⟨y, ⟨hk, rfl⟩, hoff⟩
      · rintro ⟨off, ⟨hk, rfl⟩, hoff⟩
        exact ⟨hk, hoff⟩
    · next hp => exact ⟨fun h => absurd h Bool.false_ne_true, fun ⟨off, h, _⟩ => absurd h (hp _ _)⟩
  rw [List.any_eq_true]
  refine exists_congr fun e => and_congr_right fun _ => ?_
  rw [Bool.and_eq_true, bne_iff_ne]
  refine and_congr_right fun _ => ?_
  split
  · next g hg =>
    simp only [hg, Option.some.injEq, exists_eq_left', List.any_eq_true, Bool.or_eq_true, hin, Bool.exists_bool]
  · next hg => exact ⟨fun h => absurd h Bool.false_ne_true, fun ⟨g, h, _⟩ => by rw [hg] at h; cases h⟩

/-- What is named by no copy is named by none once some teams are gone. -/
theorem TeamsGone.namedByCopy {tid : Nat} {x : Team} {score : Nat} (h : s.namedByCopy tid x score = false) :
    t.namedByCopy tid x score = false := by
  rw [← Bool.not_eq_true, namedByCopy_iff] at h ⊢
  rintro ⟨e, he, hne, g', hg', c, hc, isSrc, hspace, off, hp, hin⟩
  obtain ⟨g, hg, hk⟩ := hst.gridOf hg'
  exact h ⟨e, hst.mem he, hne, g, hg, c, hc, isSrc, hspace, off, hst.copyPlace hk hspace hp, hin⟩

omit hst in
/-- `teamOver`, with the team's own scratchpad named. -/
theorem teamOver_eq (s : State) (tid : Nat) (x : Team) : s.teamOver tid x = ((s.teamWaves tid).isEmpty && x.saved.isEmpty && x.issued.isEmpty
    && x.active.isEmpty && x.tmq.isEmpty && !(x.resident && s.namedByCopy tid x ((s.gridOf tid).elim 0 Grid.score))) := by
  unfold State.teamOver
  cases s.gridOf tid <;> rfl

/-- A team that stands holds as much of its core as before. -/
theorem TeamsGone.score {tid : Nat} {x : Team} (hx : Machine.tfind t.teams tid = some x) :
    (t.gridOf tid).elim 0 Grid.score = (s.gridOf tid).elim 0 Grid.score := by
  have hmap := hst.khead x.grid
  have ht : t.gridOf tid = Machine.tfind t.grids x.grid := by rw [State.gridOf, hx]; rfl
  have hs : s.gridOf tid = Machine.tfind s.grids x.grid := by rw [State.gridOf, hst.tfind_some hx]; rfl
  rw [ht, hs]
  cases hgt : Machine.tfind t.grids x.grid with
  | none =>
    rw [hgt, Option.map_none] at hmap
    rw [Option.map_eq_none_iff.mp hmap.symm]
  | some g' =>
    rw [hgt, Option.map_some] at hmap
    obtain ⟨g, hg, hk⟩ := Option.map_eq_some_iff.mp hmap.symm
    rw [hg]
    exact score_congr hk.symm

/-- A team that is over stays over while others end (R84). -/
theorem TeamsGone.teamOver {tid : Nat} {x : Team} (hx : Machine.tfind t.teams tid = some x) (h : s.teamOver tid x = true) :
    t.teamOver tid x = true := by
  have hwaves : t.teamWaves tid = s.teamWaves tid := by rw [State.teamWaves, hst.waves]; rfl
  rw [teamOver_eq, Bool.and_eq_true, Bool.not_eq_true', Bool.and_eq_false_iff] at h ⊢
  rw [hwaves, hst.score hx]
  exact ⟨h.1, h.2.imp_right hst.namedByCopy⟩

end

/-! Every team that is over ends. -/

theorem tryEndTeam_gone (s : State) (tid : Nat) : TeamsGone s (s.tryEndTeam tid) := by
  unfold State.tryEndTeam
  split
  · exact .refl s
  · split
    · exact (endTeam_gone ..).1
    · exact .refl s

theorem foldl_tryEndTeam_gone (l : List Nat) (s : State) : TeamsGone s (l.foldl State.tryEndTeam s) := by
  induction l generalizing s with
  | nil => exact .refl s
  | cons k l ih => exact (tryEndTeam_gone s k).trans (ih _)

/-- A team that is over, or has ended. -/
def State.endedOrOver (s : State) (tid : Nat) (x : Team) : Prop :=
  tfind s.teams tid = none ∨ tfind s.teams tid = some x ∧ s.teamOver tid x = true

theorem TeamsGone.endedOrOver {s t : State} (hst : TeamsGone s t) {tid : Nat} {x : Team} (h : s.endedOrOver tid x) : t.endedOrOver tid x := by
  rcases hst.tfind tid with he | he
  · rcases h with h | ⟨hx, ho⟩
    · exact .inl (he.trans h)
    · exact .inr ⟨he.trans hx, hst.teamOver (he.trans hx) ho⟩
  · exact .inl he

theorem tryEndTeam_ends {s : State} {tid : Nat} {x : Team} (h : s.endedOrOver tid x) : tfind (s.tryEndTeam tid).teams tid = none := by
  unfold State.tryEndTeam
  rcases h with h | ⟨hx, ho⟩
  · simp only [h]
  · simp only [hx, ho, if_true]
    exact (endTeam_gone ..).2

theorem foldl_tryEndTeam_ends {l : List Nat} {s : State} {tid : Nat} {x : Team} (hl : tid ∈ l) (h : s.endedOrOver tid x) :
    tfind (l.foldl State.tryEndTeam s).teams tid = none := by
  induction l generalizing s with
  | nil => cases hl
  | cons k l ih =>
    rcases List.mem_cons.mp hl with rfl | hl
    · exact ((foldl_tryEndTeam_gone l _).tfind tid).elim (fun e => e.trans (tryEndTeam_ends h)) id
    · exact ih hl ((tryEndTeam_gone s k).endedOrOver h)

/-- A team that is over ends with the step (R84). -/
theorem endOver_ends {s : State} {tid : Nat} {x : Team} (hx : tfind s.teams tid = some x) (ho : s.teamOver tid x = true) :
    tfind s.endOver.teams tid = none :=
  foldl_tryEndTeam_ends (List.mem_map.mpr ⟨(tid, x), mem_of_tfind hx, rfl⟩) (.inr ⟨hx, ho⟩)

theorem tryEndTeam_eq_self {s : State} (h : ∀ e ∈ s.teams, s.teamOver e.1 e.2 = false) (tid : Nat) : s.tryEndTeam tid = s := by
  unfold State.tryEndTeam
  split
  · rfl
  · next x hx => rw [h _ (mem_of_tfind hx), if_neg Bool.false_ne_true]

/-- With no team over, none ends. -/
theorem endOver_eq_self {s : State} (h : ∀ e ∈ s.teams, s.teamOver e.1 e.2 = false) : s.endOver = s :=
  List.foldl_fixed' (tryEndTeam_eq_self h) _

theorem endOver_waves (s : State) : s.endOver.waves = s.waves := (foldl_tryEndTeam_gone _ s).waves

/-! A slot is free again. -/

theorem freePos_sameMemory (s : State) (core ctx : Nat) : SameMemory s (s.freePos core ctx) := by
  unfold State.freePos
  split <;> exact ⟨fun _ => rfl, fun _ _ _ => rfl⟩

/-- A wave that leaves its slot takes nothing else with it (R83). -/
theorem removeWave_spec {s : State} {wid : Nat} {w : Wave} (hw : tfind s.waves wid = some w) :
    (s.removeWave wid).waves = terase s.waves wid ∧ (s.removeWave wid).teams = s.teams ∧ SameMemory s (s.removeWave wid) := by
  unfold State.removeWave
  simp only [hw]
  have hplaces := samePlaces_freePos (({ s with waves := terase s.waves wid } : State).modCore (wCore wid) fun c =>
    { c with yielded := c.yielded.filter fun y => y.1 / 4 != wSlot wid }) (wCore wid) w.ctx
  exact ⟨hplaces.waves, hplaces.teams, freePos_sameMemory (({ s with waves := terase s.waves wid } : State).modCore (wCore wid) fun c =>
    { c with yielded := c.yielded.filter fun y => y.1 / 4 != wSlot wid }) (wCore wid) w.ctx⟩

/-- The slot of an exited wave of which nothing is under way is free (R83). -/
theorem waveSlotRelease_frees {s : State} {wid : Nat} {w : Wave} (hw : tfind s.waves wid = some w) (hx : w.stat = .exited)
    (hq : s.waveQuiet wid = true) : exec (.waveSlotRelease wid) s = .next (s.removeWave wid).endOver := by
  show execWaveSlotRelease wid s = _
  unfold execWaveSlotRelease
  simp only [hw, if_pos (And.intro hx hq)]

/-- Settles O45: each step of the copy engine is its own effect, after which every team that is over ends; so is the release of a slot. -/
theorem copiesAndTeamsEnd : Obligations.CopiesAndTeamsEnd := by
  unfold Obligations.CopiesAndTeamsEnd
  refine ⟨?_, ?_, ?_, ?_⟩
  · intro s team p t g n ht hg hp hmay hblocked hring hmove c k hleft hcheck
    obtain ⟨hregs, hphys, hnat, hteam⟩ := copyTake_spec rfl (copyTake_eq ht hg hp hmay hblocked hring hmove rfl hleft hcheck)
    refine ⟨_, rfl, s.copyTake team p.id, rfl, hregs, fun pa => by rw [hphys], hnat, _, takenCopy p c, hteam, rfl, rfl, hring,
      rfl, takenCopy_cmd p c, takenCopy_left p c, fun y hy => ?_⟩
    exact bne_iff_ne.mp (List.mem_filter.mp hy).2
  · intro s team t g a sector pa key l v x ht hg ha hres hleft hpre hsrc hdst hserve hturn hpeer hstop hremote hbar hbehind hover hfwd hl hcap hmore
    have hfree : s.barFree g t a.cmd = true := by
      rw [State.barFree, copyBar, hbar]
      rfl
    have he := copyLand_lands hpre hsrc hstop ht hg ha hres hleft hdst hserve hturn hpeer hremote hfree hbehind hover (hfwd v)
    obtain ⟨hregs, hphys, hown, hother, hteam⟩ := sectorLanded_spec ht hg hbar hmore hl hcap he
    refine ⟨_, rfl, s.copyLand team a.id sector, rfl, hregs, hphys, hown, hother, _, hteam, fun b hb hid => ?_⟩
    obtain ⟨b', -, rfl⟩ := List.mem_map.mp hb
    exact landedAt_left sector ((landedAt_id b' a sector).symm.trans hid)
  · intro s team t g a cause addr ht hg ha hlog hcause
    have he : s.copyFail team a.id cause addr = s.endCopy team a (some (BitVec.ofNat 7 cause, BitVec.ofNat 64 addr)) := by
      unfold State.copyFail
      simp only [List.contains_iff_mem.mpr hcause, ht, Option.bind_some, ha, Bool.not_true, Bool.false_eq_true, if_false]
    obtain ⟨hregs, hphys, y, r, hteam, hactive, hlog', hr⟩ := endCopy_faulted a (BitVec.ofNat 7 cause) (BitVec.ofNat 64 addr) ht hg hlog
    rw [← he] at hregs hphys hteam
    refine ⟨_, rfl, s.copyFail team a.id cause addr, rfl, hregs, fun y => by rw [hphys], y, r, hteam, fun b hb => ?_, hlog', hr⟩
    rw [hactive] at hb
    exact bne_iff_ne.mp (List.mem_filter.mp hb).2
  · intro s wid w t hw hx hq ht
    obtain ⟨hwaves, hteams, hmem⟩ := removeWave_spec hw
    have hfind : ∀ k, tfind (s.removeWave wid).endOver.waves k = if k = wid then none else tfind s.waves k := fun k => by
      rw [endOver_waves, hwaves, tfind_terase]
    refine ⟨_, waveSlotRelease_frees hw hx hq, (hfind wid).trans (if_pos rfl), fun k hk => (hfind k).trans (if_neg hk), fun ho => ?_,
      fun hnone => ?_⟩
    · exact endOver_ends (hteams ▸ ht) ho
    · rw [endOver_eq_self (hteams ▸ hnone)]
      exact ⟨hteams, hmem⟩

end Sys2Proof.Machine
end

section
/-! PROOFS. Messages to homes (R103, R104): what posting one leaves alone, how the operands of a posted lane travel, and the releases and
requests that stand in a wave beside them. -/

namespace Sys2Proof.Machine

/- One proof at a time: many at once cost a thread, and its stack, each. -/
set_option Elab.async false

/-! Posting changes the messages and the next number, and nothing else. -/

/-- Messages to homes have been posted. -/
def Posts (s t : State) : Prop := ∃ ms n, t = { s with homeq := s.homeq ++ ms, nextId := n }

theorem Posts.refl (s : State) : Posts s s := ⟨[], s.nextId, by rw [List.append_nil]⟩

theorem Posts.trans {s t u : State} (hst : Posts s t) (htu : Posts t u) : Posts s u := by
  obtain ⟨ms, _, rfl⟩ := hst
  obtain ⟨ns, n, rfl⟩ := htu
  exact ⟨ms ++ ns, n, by rw [← List.append_assoc]⟩

theorem Posts.foldl {β : Type} {f : State → β → State} (hf : ∀ s b, Posts s (f s b)) (l : List β) (s : State) : Posts s (l.foldl f s) := by
  induction l generalizing s with
  | nil => exact .refl s
  | cons b l ih => exact (hf s b).trans (ih _)

section
variable {s t : State} (h : Posts s t)
include h

theorem Posts.sameWaves : SameWaves s t := by obtain ⟨_, _, rfl⟩ := h; exact ⟨rfl, rfl, rfl, rfl, rfl⟩
theorem Posts.homes : t.homes = s.homes := by obtain ⟨_, _, rfl⟩ := h; rfl
theorem Posts.homeops : t.homeops = s.homeops := by obtain ⟨_, _, rfl⟩ := h; rfl
theorem Posts.mem {m : HomeItem} (hm : m ∈ s.homeq) : m ∈ t.homeq := by obtain ⟨_, _, rfl⟩ := h; exact List.mem_append_left _ hm
theorem Posts.tfind (k : Nat) : tfind t.waves k = Machine.tfind s.waves k := by rw [h.sameWaves.1]
theorem Posts.slot (home i : Nat) : t.slot home i = s.slot home i := by rw [State.slot, State.home, h.homes]; rfl

theorem Posts.quiet (q : Iss) : Quiet q s t :=
  ⟨h.sameWaves.sameMemory, fun k _ => h.tfind k, fun x => h.sameWaves.sameRegs q.wid x⟩

end

theorem posts_post (s : State) (wid home seq lane : Nat) (pc : DWord) (kind : HKind) (op rtag : Option Nat) :
    Posts s (s.post wid home seq lane pc kind op rtag) := ⟨_, _, rfl⟩

/-- The message that has been posted stands last. -/
theorem post_mem (s : State) (wid home seq lane : Nat) (pc : DWord) (kind : HKind) (op rtag : Option Nat) :
    ∃ m ∈ (s.post wid home seq lane pc kind op rtag).homeq, m.id = s.nextId ∧ m.wid = wid ∧ m.home = home ∧ m.lane = lane ∧ m.seq = seq
      ∧ m.kind = kind ∧ m.op = op :=
  ⟨_, List.mem_append_right _ (List.mem_singleton_self _), rfl, rfl, rfl, rfl, rfl, rfl, rfl⟩

/-- What is true of each message once it has been posted, and stays true as more are posted, is true of all. -/
theorem Posts.foldl_each {f : State → Nat → State} {P : State → Nat → Prop} (hf : ∀ s l, Posts s (f s l)) (hnow : ∀ s l, P (f s l) l)
    (hstay : ∀ s t l, Posts s t → P s l → P t l) (ls : List Nat) (s : State) : ∀ l ∈ ls, P (ls.foldl f s) l := by
  induction ls generalizing s with
  | nil => simp
  | cons k ls ih =>
    intro l hl
    rcases List.mem_cons.mp hl with rfl | hl
    · exact hstay _ _ _ (.foldl hf ls _) (hnow s _)
    · exact ih _ l hl

theorem PostedTo.mono {q : Iss} {s t : State} {home lane : Nat} {k : HKind} (hm : ∀ m ∈ s.homeq, m ∈ t.homeq)
    (h : PostedTo q s home lane k) : PostedTo q t home lane k := by
  obtain ⟨m, hmem, hp⟩ := h
  exact ⟨m, hm m hmem, hp⟩

theorem Travels.mono {q : Iss} {s t : State} {home lane : Nat} {x : Lane} {k : HSrc} (hm : ∀ m ∈ s.homeq, m ∈ t.homeq)
    (h : Travels q s home lane x k) : Travels q t home lane x k := by
  obtain ⟨hval, hslot, hfwd⟩ := h
  refine ⟨hval, hslot, fun ht hh => ?_⟩
  obtain ⟨m, hmem, hp⟩ := hfwd ht hh
  exact ⟨m, hm m hmem, hp⟩

theorem postedTo_post (q : Iss) (s : State) (home lane : Nat) (pc : DWord) (kind : HKind) (op rtag : Option Nat) :
    PostedTo q (s.post q.wid home q.seq lane pc kind op rtag) home lane kind := by
  obtain ⟨m, hm, -, hwid, hhome, hlane, hseq, hkind, -⟩ := post_mem s q.wid home q.seq lane pc kind op rtag
  exact ⟨m, hm, hwid, hhome, hlane, hseq, hkind⟩

/-! How an operand travels (R103). -/

theorem posts_postSrc (s : State) (q : Iss) (lane home : Nat) (x : Lane) : Posts s (s.postSrc q lane home x).2 := by
  unfold State.postSrc
  split
  · exact .refl s
  · split
    · exact .refl s
    · exact posts_post ..

theorem travels_postSrc (s : State) (q : Iss) (lane home : Nat) (x : Lane) :
    Travels q (s.postSrc q lane home x).2 home lane x (s.postSrc q lane home x).1 := by
  unfold State.postSrc
  split
  · next ht => exact ⟨fun _ => rfl, fun h => by simp [h] at ht, fun h => by simp [h] at ht⟩
  · next ht =>
    have ht : x.tag = true := by simpa using ht
    split
    · next hh => exact ⟨fun h => by simp [ht] at h, fun _ _ => rfl, fun _ h => absurd hh h⟩
    · next hh =>
      refine ⟨fun h => by simp [ht] at h, fun _ h => absurd h hh, fun _ _ => ?_⟩
      obtain ⟨m, hm, hid, hwid, hhome, hlane, hseq, hkind, -⟩ := post_mem s q.wid (pxHome x.w) q.seq lane q.pc
        (.forward (pxSlot x.w) (pxGen x.w) s.nextId) none q.rtag
      exact ⟨m, hm, congrArg HSrc.fwd hid.symm, hwid, hseq, hlane, hhome, hid ▸ hkind⟩

/-! Requests and releases of the wave at issue. -/

theorem addRel_homeq (s : State) (wid : Nat) (scope : Scope) (seq : Nat) (cnt : List Nat) (cont : Cont) (split : Nat) (pc : DWord)
    (word : BitVec 96) (lanes : Word) : (s.addRel wid scope seq cnt cont split pc word lanes).homeq = s.homeq := by
  unfold State.addRel
  split <;> simp only [State.modWave_homeq]

/-- A release without counters adds itself to the wave's releases, or, at wave scope, nothing (R265). -/
theorem tfind_addRel_own {s : State} {wid : Nat} {w : Wave} (scope : Scope) (seq : Nat) (cont : Cont) (split : Nat) (pc : DWord)
    (word : BitVec 96) (lanes : Word) (hw : tfind s.waves wid = some w) :
    ∃ rels, tfind (s.addRel wid scope seq [] cont split pc word lanes).waves wid = some { w with rels := w.rels ++ rels } := by
  by_cases hs : scope = .wave
  · rw [State.addRel, if_pos hs]
    exact ⟨[], by rw [List.append_nil]; exact tfind_modWave_some _ hw⟩
  · exact ⟨_, tfind_addRel seq [] cont split pc word lanes hw hs⟩

theorem quiet_addRel (q : Iss) (s : State) (scope : Scope) (seq : Nat) (cont : Cont) (split : Nat) (pc : DWord) (word : BitVec 96)
    (lanes : Word) : Quiet q s (s.addRel q.wid scope seq [] cont split pc word lanes) := by
  unfold State.addRel
  split
  · exact quiet_modWave q s fun _ _ => rfl
  · exact quiet_modWave q { s with nextId := s.nextId + 1 } fun w x => by cases x <;> rfl

theorem releasing_addRel {q : Iss} {s : State} {w : Wave} {scope : Scope} (hw : tfind s.waves q.wid = some w) (hs : scope ≠ .wave)
    (cont : Cont) (lanes : Word) :
    Releasing q scope (fun c => c = cont) (s.addRel q.wid scope q.seq [] cont q.split q.pc q.word lanes) :=
  ⟨_, _, tfind_addRel q.seq [] cont q.split q.pc q.word lanes hw hs, List.mem_append_right _ (List.mem_singleton_self _), rfl, rfl, rfl⟩

/-- A request stands in its wave, with its counters raised. -/
theorem tfind_addReq {s : State} {q : Iss} {w : Wave} (r : Req) (hw : tfind s.waves q.wid = some w) :
    ∃ k, tfind (s.addReq q r).waves q.wid = some { w with reqs := w.reqs ++ [r], k := k } := by
  obtain ⟨k, hk⟩ := raise_eq { w with reqs := w.reqs ++ [r] } r.cnt
  exact ⟨k, (tfind_modWave_some _ hw).trans (congrArg some hk)⟩

theorem quiet_addReq (q : Iss) (s : State) (r : Req) : Quiet q s (s.addReq q r) := by
  refine (quiet_modWave q s (f := fun w => ({ w with reqs := w.reqs ++ [r] } : Wave).raise r.cnt) fun w x => ?_).trans ⟨⟨fun _ => rfl, fun _ _ _ => rfl⟩, fun _ _ => rfl, fun _ => rfl⟩
  obtain ⟨k, hk⟩ := raise_eq { w with reqs := w.reqs ++ [r] } r.cnt
  rw [hk]
  cases x <;> rfl

/-- Asking depends on what the wave keeps, its place, its counters and its requests: a release added to it changes none of these. -/
theorem Asked.addRel {q : Iss} {i : Instr} {mask : Word} {ps : List Piece} {s t : State} (h : Asked q i mask ps s t) (scope : Scope)
    (seq : Nat) (cont : Cont) (split : Nat) (pc : DWord) (word : BitVec 96) (lanes : Word) :
    Asked q i mask ps s (t.addRel q.wid scope seq [] cont split pc word lanes) := by
  obtain ⟨hquiet, w, id, hw, hkeeps, hpassed, hreqs⟩ := h
  obtain ⟨rels, hw'⟩ := tfind_addRel_own scope seq cont split pc word lanes hw
  exact ⟨hquiet.trans (quiet_addRel ..), _, id, hw', hkeeps, hpassed, hreqs⟩

/-- A request none of whose pieces has failed parks nothing (R148). -/
theorem parkFaults_of_none {r : Req} (s : State) (wid : Nat) (h : ∀ p ∈ r.pieces, p.failure = none) : s.parkFaults wid r = s := by
  have hbad : (r.pieces.filterMap fun p => p.failure.map fun c => (p, c)) = [] :=
    List.filterMap_eq_nil_iff.mpr fun p hp => by rw [h p hp]; rfl
  unfold State.parkFaults
  rw [hbad]
  simp only [List.mergeSort_nil, ite_self]

end Sys2Proof.Machine
end

section
/-! PROOFS. Stores of the core at issue: the pieces of a global access (R267, R270), and which of them enter the store buffer (R264). -/

namespace Sys2Proof.Machine

/- One proof at a time: many at once cost a thread, and its stack, each. -/
set_option Elab.async false

/-! The pieces of a global access. -/

/-- The parts of an access differ in where they begin. -/
theorem cutAccess_inj {va n : Nat} {c e : Nat × Nat} (hc : c ∈ cutAccess va n) (he : e ∈ cutAccess va n) (h : c.1 = e.1) : c = e := by
  unfold cutAccess at hc he
  split at hc
  · rw [if_pos ‹_›] at he
    rw [List.mem_singleton.mp hc, List.mem_singleton.mp he]
  · rw [if_neg ‹_›] at he
    obtain ⟨j, -, rfl⟩ := List.mem_map.mp hc
    obtain ⟨k, -, rfl⟩ := List.mem_map.mp he
    exact congrArg (·, 1) h

/-- A piece bears its lane and its place in the access, and has failed only with a fault. -/
theorem globalPiece_spec (s : State) (q : Iss) (lane : Nat) (a : Opd) (off : DWord) (acc : Acc) (data : List Byte) (cut : Nat × Nat) :
    let p := s.globalPiece q lane a off acc data cut
    p.1.lane = lane ∧ p.1.off = cut.1 ∧ (p.2 = none → p.1.st = .ready ∨ p.1.st = .untranslated) := by
  simp only [State.globalPiece]
  split
  · exact ⟨rfl, rfl, fun _ => .inr rfl⟩
  · exact ⟨rfl, rfl, fun _ => .inl rfl⟩
  · exact ⟨rfl, rfl, fun h => by cases h⟩

theorem mem_globalPieces {q : Iss} {s : State} {a : Opd} {m : Mem} {n : Nat} {acc : Acc} {ls : List Nat} {data : Nat → List Byte}
    {p : Piece × Option (BitVec 7)} (hp : p ∈ q.globalPieces s a m n acc ls data) :
    ∃ l ∈ ls, ∃ c ∈ cutAccess (q.vaOf a (q.offset m l)).toNat n, p = s.globalPiece q l a (q.offset m l) acc (data l) c := by
  obtain ⟨l, hl, hp⟩ := List.mem_flatMap.mp hp
  obtain ⟨c, hc, rfl⟩ := List.mem_map.mp hp
  exact ⟨l, hl, c, hc, rfl⟩

/-- Two pieces of an access with one lane and one place are the same. -/
theorem globalPieces_inj {q : Iss} {s : State} {a : Opd} {m : Mem} {n : Nat} {acc : Acc} {ls : List Nat} {data : Nat → List Byte}
    {p r : Piece × Option (BitVec 7)} (hp : p ∈ q.globalPieces s a m n acc ls data) (hr : r ∈ q.globalPieces s a m n acc ls data)
    (hlane : p.1.lane = r.1.lane) (hoff : p.1.off = r.1.off) : p = r := by
  obtain ⟨l, -, c, hc, rfl⟩ := mem_globalPieces hp
  obtain ⟨k, -, e, he, rfl⟩ := mem_globalPieces hr
  obtain ⟨hl, hc1, -⟩ := globalPiece_spec s q l a (q.offset m l) acc (data l) c
  obtain ⟨hk, he1, -⟩ := globalPiece_spec s q k a (q.offset m k) acc (data k) e
  obtain rfl : l = k := hl.symm.trans (hlane.trans hk)
  rw [cutAccess_inj hc he (hc1.symm.trans (hoff.trans he1))]

/-! Entering the store buffer, piece by piece. -/

/-- Whether a piece of the wave's store enters the store buffer now (R264). -/
def State.enters (s : State) (wid : Nat) (p : Piece) : Bool :=
  match p.st, p.loc with
  | .ready, .mem pa _ => s.sbRoom wid (pa / 32)
  | _, _ => false

/-- The state once a piece has had its turn. -/
def State.enterPiece (s : State) (wid seq : Nat) (pc : DWord) (rtag : Option Nat) (p : Piece) : State :=
  match p.loc with
  | .mem pa key => if s.enters wid p then s.bufferStore wid seq p.lane pc rtag pa key p.va p.data else s
  | _ => s

/-- The pieces that enter, each with its turn. -/
def State.entered (s : State) (wid seq : Nat) (pc : DWord) (rtag : Option Nat) : List Piece → List Piece
  | [] => []
  | p :: ps => (if s.enters wid p then [p] else []) ++ (s.enterPiece wid seq pc rtag p).entered wid seq pc rtag ps

/-- A piece that is among those that have entered is done. -/
def Piece.marked (es : List Piece) (x : Piece) : Piece := if es.any fun p => x.lane == p.lane && x.off == p.off then { x with st := .done } else x

theorem Piece.marked_nil (x : Piece) : x.marked [] = x := rfl

theorem Piece.marked_append (es fs : List Piece) (x : Piece) : (x.marked es).marked fs = x.marked (es ++ fs) := by
  unfold Piece.marked
  rw [List.any_append]
  cases es.any fun p => x.lane == p.lane && x.off == p.off
  · rfl
  · simp only [if_true, Bool.true_or]
    split <;> rfl

theorem Piece.marked_st (es : List Piece) (x : Piece) : (x.marked es).st = .done ∨ x.marked es = x := by
  unfold Piece.marked
  split
  · exact .inl rfl
  · exact .inr rfl

/-- A piece of another state that is done after all was among them. -/
theorem Piece.entered_of_marked {es : List Piece} {x : Piece} (hx : x.st ≠ .done) (hd : (x.marked es).st = .done) :
    ∃ p ∈ es, x.lane = p.lane ∧ x.off = p.off := by
  unfold Piece.marked at hd
  split at hd
  · next h =>
    obtain ⟨p, hp, hk⟩ := List.any_eq_true.mp h
    rw [Bool.and_eq_true, beq_iff_eq, beq_iff_eq] at hk
    exact ⟨p, hp, hk⟩
  · exact absurd hd hx

/-- Taking turns one by one, given what a turn does. -/
theorem foldl_turns {wid seq : Nat} {pc : DWord} {rtag : Option Nat} {f : State × Req → Piece → State × Req}
    (hf : ∀ s x p, f (s, x) p = (s.enterPiece wid seq pc rtag p, { x with pieces := x.pieces.map (·.marked (if s.enters wid p then [p] else [])) }))
    (ps : List Piece) (s : State) (x : Req) :
    ps.foldl f (s, x)
      = (ps.foldl (fun s p => s.enterPiece wid seq pc rtag p) s, { x with pieces := x.pieces.map (·.marked (s.entered wid seq pc rtag ps)) }) := by
  induction ps generalizing s x with
  | nil => simp [State.entered, Piece.marked_nil]
  | cons p ps ih => simp only [List.foldl_cons, State.entered, hf, ih, List.map_map, Function.comp_def, Piece.marked_append]

/-- A store's pieces enter in turn; those that have entered are done (R264). -/
theorem enterStores_eq (s : State) (wid : Nat) (r : Req) : s.enterStores wid r
    = (r.pieces.foldl (fun s p => s.enterPiece wid r.seq r.pc r.rtag p) s,
      { r with pieces := r.pieces.map (·.marked (s.entered wid r.seq r.pc r.rtag r.pieces)) }) := by
  refine foldl_turns (fun s x p => ?_) r.pieces s r
  obtain ⟨lane, off, len, va, loc, st, data, t, due⟩ := p
  cases st <;> cases loc <;>
    simp only [State.enterPiece, State.enters, Bool.false_eq_true, if_false, Piece.marked_nil, List.map_id']
  split <;> next h => simp [Piece.marked, h]

/-- The pieces that enter are ready ones of the list. -/
theorem mem_entered {s : State} {wid seq : Nat} {pc : DWord} {rtag : Option Nat} {ps : List Piece} {p : Piece}
    (hp : p ∈ s.entered wid seq pc rtag ps) : p ∈ ps ∧ p.st = .ready := by
  induction ps generalizing s with
  | nil => cases hp
  | cons x ps ih =>
    rw [State.entered, List.mem_append] at hp
    rcases hp with hp | hp
    · split at hp
      · next h =>
        rw [List.mem_singleton.mp hp]
        refine ⟨List.mem_cons_self, ?_⟩
        unfold State.enters at h
        split at h
        · assumption
        · cases h
      · cases hp
    · obtain ⟨hmem, hst⟩ := ih hp
      exact ⟨List.mem_cons_of_mem _ hmem, hst⟩

theorem enters_false {s : State} {wid : Nat} {p : Piece} (h : p.st ≠ .ready) : s.enters wid p = false := by
  unfold State.enters
  split
  · exact absurd ‹_› h
  · rfl

theorem enterPiece_of_not_ready {s : State} {wid seq : Nat} {pc : DWord} {rtag : Option Nat} {p : Piece} (h : p.st ≠ .ready) :
    s.enterPiece wid seq pc rtag p = s := by
  unfold State.enterPiece
  rw [enters_false h]
  split <;> rfl

/-- Pieces that are not ready have no turn. -/
theorem enterPieces_of_not_ready {wid seq : Nat} {pc : DWord} {rtag : Option Nat} {ps : List Piece} (h : ∀ p ∈ ps, p.st ≠ .ready) (s : State) :
    ps.foldl (fun s p => s.enterPiece wid seq pc rtag p) s = s ∧ s.entered wid seq pc rtag ps = [] := by
  induction ps generalizing s with
  | nil => exact ⟨rfl, rfl⟩
  | cons p ps ih =>
    have hp := h p List.mem_cons_self
    rw [List.foldl_cons, State.entered, enterPiece_of_not_ready hp, enters_false hp]
    exact ih (fun x hx => h x (List.mem_cons_of_mem _ hx)) s

theorem entered_append (s : State) (wid seq : Nat) (pc : DWord) (rtag : Option Nat) (ps rest : List Piece) :
    s.entered wid seq pc rtag (ps ++ rest) = s.entered wid seq pc rtag ps
      ++ (ps.foldl (fun s p => s.enterPiece wid seq pc rtag p) s).entered wid seq pc rtag rest := by
  induction ps generalizing s with
  | nil => rfl
  | cons p ps ih => simp only [List.cons_append, State.entered, ih, List.foldl_cons, List.append_assoc]

/-- Entering changes the store buffer of its wave, and of the rest of the state only the next number. -/
theorem bufferStore_spec {s : State} {wid : Nat} {w : Wave} (hw : tfind s.waves wid = some w) (seq lane : Nat) (pc : DWord)
    (rtag : Option Nat) (pa key : Nat) (va : DWord) (data : List Byte) :
    let t := s.bufferStore wid seq lane pc rtag pa key va data
    SameMemory s t ∧ OtherWaves wid s t ∧ ∃ sb, tfind t.waves wid = some { w with sb := sb } := by
  unfold State.bufferStore
  simp only [hw]
  split
  · exact ⟨⟨fun _ => rfl, fun _ _ _ => rfl⟩, fun _ hk => tfind_tput_ne _ _ hk, _, tfind_tput_self ..⟩
  · exact ⟨⟨fun _ => rfl, fun _ _ _ => rfl⟩, fun _ hk => tfind_tput_ne _ _ hk, _, tfind_tput_self ..⟩

theorem enterPiece_spec {s : State} {wid : Nat} {w : Wave} (hw : tfind s.waves wid = some w) (seq : Nat) (pc : DWord) (rtag : Option Nat)
    (p : Piece) :
    let t := s.enterPiece wid seq pc rtag p
    SameMemory s t ∧ OtherWaves wid s t ∧ ∃ sb, tfind t.waves wid = some { w with sb := sb } := by
  unfold State.enterPiece
  split
  · split
    · exact bufferStore_spec hw ..
    · exact ⟨⟨fun _ => rfl, fun _ _ _ => rfl⟩, fun _ _ => rfl, w.sb, hw⟩
  · exact ⟨⟨fun _ => rfl, fun _ _ _ => rfl⟩, fun _ _ => rfl, w.sb, hw⟩

theorem enterPieces_spec {s : State} {wid : Nat} {w : Wave} (hw : tfind s.waves wid = some w) (seq : Nat) (pc : DWord) (rtag : Option Nat)
    (ps : List Piece) :
    let t := ps.foldl (fun s p => s.enterPiece wid seq pc rtag p) s
    SameMemory s t ∧ OtherWaves wid s t ∧ ∃ sb, tfind t.waves wid = some { w with sb := sb } := by
  induction ps generalizing s w with
  | nil => exact ⟨⟨fun _ => rfl, fun _ _ _ => rfl⟩, fun _ _ => rfl, w.sb, hw⟩
  | cons p ps ih =>
    obtain ⟨hmem, hother, sb, hw'⟩ := enterPiece_spec hw seq pc rtag p
    obtain ⟨hmem', hother', sb', hw''⟩ := ih hw'
    exact ⟨hmem.trans hmem', fun k hk => (hother' k hk).trans (hother k hk), sb', hw''⟩

theorem enterStores_spec {s : State} {wid : Nat} {w : Wave} (hw : tfind s.waves wid = some w) (r : Req) :
    SameMemory s (s.enterStores wid r).1 ∧ OtherWaves wid s (s.enterStores wid r).1
      ∧ ∃ sb, tfind (s.enterStores wid r).1.waves wid = some { w with sb := sb } := by
  rw [enterStores_eq]
  exact enterPieces_spec hw r.seq r.pc r.rtag r.pieces

theorem quiet_enterStores {q : Iss} {s : State} {w : Wave} (hw : tfind s.waves q.wid = some w) (r : Req) :
    Quiet q s (s.enterStores q.wid r).1 := by
  obtain ⟨hmem, hother, sb, hw'⟩ := enterStores_spec hw r
  refine ⟨hmem, hother, fun x => ?_⟩
  simp only [State.newest, hw, hw']
  cases x <;> rfl

end Sys2Proof.Machine
end

section
/-! PROOFS. What the request of a store comes to (R264, R270, R271), and the stores all of whose lanes run in the core. -/

namespace Sys2Proof.Machine

/- One proof at a time: many at once cost a thread, and its stack, each. -/
set_option Elab.async false

/-- The pieces of a store that has met no fault: each is translated or still to be, and its lane and place name it. -/
structure StoreParts (ps : List Piece) : Prop where
  unstored : ∀ p ∈ ps, p.st = .ready ∨ p.st = .untranslated
  distinct : ∀ p ∈ ps, ∀ r ∈ ps, p.lane = r.lane → p.off = r.off → p = r

theorem storeParts_globalPieces {q : Iss} {s : State} {a : Opd} {m : Mem} {n : Nat} {acc : Acc} {ls : List Nat} {data : Nat → List Byte}
    (h : ∀ p ∈ q.globalPieces s a m n acc ls data, p.2 = none) : StoreParts ((q.globalPieces s a m n acc ls data).map (·.1)) := by
  refine ⟨fun p hp => ?_, fun p hp r hr hlane hoff => ?_⟩
  · obtain ⟨e, he, rfl⟩ := List.mem_map.mp hp
    have hnone := h e he
    obtain ⟨l, -, c, -, rfl⟩ := mem_globalPieces he
    exact (globalPiece_spec ..).2.2 hnone
  · obtain ⟨e, he, rfl⟩ := List.mem_map.mp hp
    obtain ⟨f, hf, rfl⟩ := List.mem_map.mp hr
    rw [globalPieces_inj he hf hlane hoff]

theorem failure_of_unstored {p : Piece} (h : p.st = .ready ∨ p.st = .untranslated) : p.failure = none := by
  unfold Piece.failure
  rcases h with h | h <;> rw [h]

theorem failure_marked {es : List Piece} {p : Piece} (h : p.failure = none) : (p.marked es).failure = none := by
  rcases p.marked_st es with hd | he
  · rw [Piece.failure, hd]
  · rw [he, h]

theorem failure_enterStores {s : State} {wid : Nat} {r : Req} (h : ∀ p ∈ r.pieces, p.failure = none) :
    ∀ p ∈ (s.enterStores wid r).2.pieces, p.failure = none := by
  rw [enterStores_eq]
  intro p hp
  obtain ⟨x, hx, rfl⟩ := List.mem_map.mp hp
  exact failure_marked (h x hx)

/-- When every piece of a store has entered, none of them was still to be translated. -/
theorem ready_of_complete {s : State} {wid : Nat} {r : Req} (h : StoreParts r.pieces) (hc : (s.enterStores wid r).2.complete = true) :
    ∀ p ∈ r.pieces, p.st = .ready := by
  intro p hp
  rw [enterStores_eq] at hc
  have hd : (p.marked (s.entered wid r.seq r.pc r.rtag r.pieces)).st = .done := by
    simpa using List.all_eq_true.mp hc _ (List.mem_map_of_mem hp)
  have hne : p.st ≠ .done := by rcases h.unstored p hp with h | h <;> rw [h] <;> decide
  obtain ⟨e, he, hlane, hoff⟩ := Piece.entered_of_marked hne hd
  obtain ⟨hmem, hready⟩ := mem_entered he
  rw [h.distinct p hp e hmem hlane hoff]
  exact hready

theorem not_stuck_of_complete {r : Req} (h : r.complete = true) : r.stuck = false := by
  refine List.any_eq_false.mpr fun p hp => ?_
  have hd : p.st = .done := by simpa using List.all_eq_true.mp h p hp
  rw [hd]
  decide

/-- A request with nothing to be translated holds its effects back for no plane (R184). -/
theorem holdsBack_of_translated {s : State} {w : Wave} {r : Req} (h : ∀ p ∈ r.pieces, p.st ≠ .untranslated) : s.holdsBack w r = false := by
  have hm : w.missing r = false := List.any_eq_false.mpr fun p hp => by simp [h p hp]
  rw [State.holdsBack, hm, Bool.and_false]

/-! What a store's request comes to. -/

section
variable {i : Instr} {m : Mem} {ps : List (Piece × Option (BitVec 7))} {posted : List Nat} {q : Iss} {s : State} {postAll : State → Nat → State}
  (hplane : s.piecesNoPlane q.w.ctx (ps.map (·.1)) = false)
include hplane

/-- A release store leaves its request behind its release (R271). -/
theorem storeRequest_release (hrel : orderRel (memOrder m) = true) :
    let r := q.mkReq s.nextId i q.part (ps.map (·.1) ++ posted.map (postedPiece s)) q.cnt
    (∀ p ∈ r.pieces, p.failure = none) → storeRequest i m ps posted q s postAll = .done
      ((postAll (s.addReq q r) r.id).addRel q.wid (memScope m) q.seq [] .nothing q.split q.pc q.word q.part) := by
  intro r hf
  rw [← parkFaults_of_none ((postAll (s.addReq q r) r.id).addRel q.wid (memScope m) q.seq [] .nothing q.split q.pc q.word q.part) q.wid hf]
  simp only [storeRequest, hplane, hrel, Bool.false_eq_true, if_false, if_true, r]

/-- A store every piece of which enters the store buffer is done (R264). -/
theorem storeRequest_complete (hrel : orderRel (memOrder m) = false) :
    let r := q.mkReq s.nextId i q.part (ps.map (·.1) ++ posted.map (postedPiece s)) q.cnt
    let u := ({ s with nextId := s.nextId + 1 } : State).enterStores q.wid r
    s.holdsBack q.w r = false → u.2.complete = true → storeRequest i m ps posted q s postAll = .done (u.1.quick q) := by
  intro r u hshut hc
  have hstuck := not_stuck_of_complete hc
  simp only [u, r] at hshut hc hstuck ⊢
  simp only [storeRequest, hplane, hrel, hshut, hc, hstuck, Bool.false_eq_true, if_false, if_true, Bool.and_false, Bool.false_and]

end

/-- A store's turn at the buffer: nothing enters while an effect is held back (R184). -/
def Iss.enterOrHold (q : Iss) (s : State) (r : Req) : State × Req :=
  if s.holdsBack q.w r then ({ s with nextId := s.nextId + 1 }, r) else ({ s with nextId := s.nextId + 1 } : State).enterStores q.wid r

theorem quiet_storeShort (q : Iss) (s : State) (w : Wave) (r : Req) :
    Quiet q s (s.storeShort q.wid w r) ∧ (s.storeShort q.wid w r).homeq = s.homeq := by
  refine ⟨(quiet_addRel ..).trans (quiet_modWave q _ fun w x => by cases x <;> rfl), ?_⟩
  simp only [State.storeShort, State.modWave_homeq, addRel_homeq]

/-- A store outside a region some of whose pieces wait leaves its request; one that finds no entry performs a release (R264). -/
theorem storeRequest_waits {i : Instr} {m : Mem} {ps : List (Piece × Option (BitVec 7))} {posted : List Nat} {q : Iss} {s : State}
    {postAll : State → Nat → State} (hplane : s.piecesNoPlane q.w.ctx (ps.map (·.1)) = false) (hrel : orderRel (memOrder m) = false)
    (hregion : q.w.region = none) :
    let r := q.mkReq s.nextId i q.part (ps.map (·.1) ++ posted.map (postedPiece s)) q.cnt
    let u := q.enterOrHold s r
    let v := postAll (u.1.addReq q u.2) r.id
    (∀ p ∈ r.pieces, p.failure = none) → u.2.complete = false →
    ∃ t, storeRequest i m ps posted q s postAll = .done t ∧ Quiet q v t ∧ t.homeq = v.homeq
      ∧ (s.holdsBack q.w r = false → u.2.stuck = false → t = v) := by
  intro r u v hf hc
  have hid : u.2.id = r.id ∧ ∀ p ∈ u.2.pieces, p.failure = none := by
    simp only [u, Iss.enterOrHold]
    split
    · exact ⟨rfl, hf⟩
    · exact ⟨by rw [enterStores_eq], failure_enterStores hf⟩
  obtain ⟨hid, hf⟩ := hid
  have hu : (if s.holdsBack q.w r then (({ s with nextId := s.nextId + 1 } : State), r)
    else ({ s with nextId := s.nextId + 1 } : State).enterStores q.wid r) = (u.1, u.2) := rfl
  simp only [r] at hu
  simp only [storeRequest, hplane, hrel, hregion, hu, hc, Option.isSome_none, Bool.false_and, Bool.and_false, Bool.false_eq_true, if_false]
  refine ⟨_, congrArg Res.done (parkFaults_of_none _ q.wid hf), ?_⟩
  rw [hid]
  split
  · next hs =>
    rw [Bool.and_eq_true] at hs
    refine ⟨?_, ?_, fun _ hstuck => by rw [hstuck] at hs; exact absurd hs.2 Bool.false_ne_true⟩ <;> split
    · exact (quiet_storeShort ..).1
    · exact .refl q v
    · exact (quiet_storeShort ..).2
    · rfl
  · exact ⟨.refl q v, rfl, fun _ _ => rfl⟩

/-! A store in the store buffer or behind its release. -/

/-- The split at issue has moved on, and the counters have risen. -/
theorem passed_raise {s : State} {i : Instr} {h : Hints} {q : Iss} {v : Wave} (hi : Issues i h s q) (hsplit : v.splits = (issuedWave q).splits)
    (hk : v.k = q.w.k) : (v.raise q.cnt).passed q (q.pc + 12) := by
  obtain ⟨-, -, -, -, -, -, hmask, -, -, -, hcnt, -⟩ := sight_some hi.1
  have hs : ∀ j, (v.raise q.cnt).split j = (issuedWave q).split j := fun j =>
    (Wave.split_raise ..).trans (congrArg (fun t => tget Split.off t j) hsplit)
  have hreg : ∀ j, v.kreg j = q.w.kreg j := fun j => congrArg (fun k => (tget 0 k j).toNat) hk
  refine ⟨by rw [hs, issuedWave_own], by rw [hs, issuedWave_own, hmask], fun j hj => by rw [hs, issuedWave_other hj], fun k => ?_⟩
  rw [kreg_raise v q.cnt (hcnt ▸ countersOf_nodup _ _ (classOf_nodup i)) (fun k hk => by rw [hreg]; exact issues_room hi k hk), hreg]

/-- A plain store all of whose bytes enter the buffer of its wave (R264, R270). -/
theorem completes_buffered {s : State} {i : Instr} {h : Hints} {q : Iss} {body : Iss → State → Res} {m : Mem} {mask : Word}
    {ps : List (Piece × Option (BitVec 7))} {postAll : State → Nat → State} (hi : Issues i h s q) (he : exec i s = runInstr i h body s)
    (hb : body q (s.issued i q) = storeRequest i m ps [] { q with part := mask } (s.issued i q) postAll) (hparts : StoreParts (ps.map (·.1)))
    (hplane : (s.issued i q).piecesNoPlane q.w.ctx (ps.map (·.1)) = false) (hrel : orderRel (memOrder m) = false) :
    let u := (({ s.issued i q with nextId := (s.issued i q).nextId + 1 } : State)).enterStores q.wid
      (q.mkReq (s.issued i q).nextId i mask (ps.map (·.1)) q.cnt)
    u.2.complete = true →
    Completes i s fun t => Quiet q s t ∧ ∃ w v, tfind t.waves q.wid = some w ∧ tfind u.1.waves q.wid = some v ∧ w.sb = v.sb
      ∧ w.reqs = q.w.reqs ∧ w.passed q (q.pc + 12) := by
  intro u hc
  have hpieces : StoreParts (q.mkReq (s.issued i q).nextId i mask (ps.map (·.1)) q.cnt).pieces := hparts
  have hready := ready_of_complete hpieces hc
  have hshut : (s.issued i q).holdsBack q.w (q.mkReq (s.issued i q).nextId i mask (ps.map (·.1)) q.cnt) = false :=
    holdsBack_of_translated fun p hp => by rw [hready p hp]; decide
  have hdone := storeRequest_complete (i := i) (posted := []) (q := { q with part := mask }) (postAll := postAll) hplane hrel
  simp only [List.map_nil, List.append_nil] at hdone
  have hnext : Quiet q (s.issued i q) { s.issued i q with nextId := (s.issued i q).nextId + 1 } :=
    ⟨⟨fun _ => rfl, fun _ _ _ => rfl⟩, fun _ _ => rfl, fun _ => rfl⟩
  have hwave : tfind ({ s.issued i q with nextId := (s.issued i q).nextId + 1 } : State).waves q.wid = some (issuedWave q) := wave_issued s i q
  obtain ⟨-, -, sb, hv⟩ := enterStores_spec hwave (q.mkReq (s.issued i q).nextId i mask (ps.map (·.1)) q.cnt)
  obtain ⟨pend, hw⟩ := tfind_quick hv
  refine ⟨u.1.quick q, he.trans (runInstr_done hi (hb.trans (hdone hshut hc))),
    (((quiet_issued hi.1).trans hnext).trans (quiet_enterStores hwave _)).trans (quiet_quick q u.1), _, _, hw, hv, ?_, ?_, passed_raise hi rfl rfl⟩
  · rw [Wave.raise_sb]
  · rw [Wave.raise_reqs]; rfl

/-- A release store leaves its request, which waits for its release (R271). -/
theorem completes_behindRelease {s : State} {i : Instr} {h : Hints} {q : Iss} {body : Iss → State → Res} {m : Mem} {mask : Word}
    {ps : List (Piece × Option (BitVec 7))} {postAll : State → Nat → State} (hi : Issues i h s q) (he : exec i s = runInstr i h body s)
    (hb : body q (s.issued i q) = storeRequest i m ps [] { q with part := mask } (s.issued i q) postAll) (hpost : ∀ s id, postAll s id = s)
    (hparts : StoreParts (ps.map (·.1))) (hplane : (s.issued i q).piecesNoPlane q.w.ctx (ps.map (·.1)) = false)
    (hrel : orderRel (memOrder m) = true) :
    Completes i s fun t => Asked q i mask (ps.map (·.1)) s t ∧ (memScope m ≠ .wave → Releasing q (memScope m) (fun c => c = .nothing) t) := by
  have hdone := storeRequest_release (i := i) (posted := []) (q := { q with part := mask }) (postAll := postAll) hplane hrel
  simp only [List.map_nil, List.append_nil, hpost] at hdone
  have hasked := asked_addReq hi mask (ps.map (·.1)) (s.issued i q).nextId
  have ⟨_, w, _, hw, _⟩ := hasked
  exact ⟨_, he.trans (runInstr_done hi (hb.trans (hdone fun p hp => failure_of_unstored (hparts.unstored p hp)))), hasked.addRel ..,
    fun hs => releasing_addRel hw hs .nothing _⟩

end Sys2Proof.Machine
end

section
/-! PROOFS. Stores of which lanes are posted to homes (R103, R105, R106), and the statement about ST and SST. -/

namespace Sys2Proof.Machine

/- One proof at a time: many at once cost a thread, and its stack, each. -/
set_option Elab.async false

/-! Posted lanes of a store (R103, R105, R106). -/

/-- A lane of ST stands at the home of the first proxy of its index and its data, with its address and its data. -/
def StorePosted (q : Iss) (width : Width) (d a : Opd) (m : Mem) (t : State) (l : Nat) : Prop :=
  ∃ ho hd,
    let home := homeOfLane [q.index m l, (q.dataWords d (widthRegs width) l).headD Lane.zero]
    Travels q t home l (q.index m l) ho ∧ Travels q t home l ((q.dataWords d (widthRegs width) l).headD Lane.zero) hd
      ∧ PostedTo q t home l (.store (q.homeAddr a m ho) width hd
        (storeBytes width ((q.dataWords d (widthRegs width) l).map (·.w))) false 0 0)

theorem StorePosted.mono {q : Iss} {width : Width} {d a : Opd} {m : Mem} {s t : State} {l : Nat} (hm : ∀ x ∈ s.homeq, x ∈ t.homeq)
    (h : StorePosted q width d a m s l) : StorePosted q width d a m t l := by
  obtain ⟨ho, hd, hix, hdata, hposted⟩ := h
  exact ⟨ho, hd, hix.mono hm, hdata.mono hm, hposted.mono hm⟩

theorem postStore_spec (s : State) (q : Iss) (width : Width) (d a : Opd) (m : Mem) (req l : Nat) :
    Posts s (s.postStore q width d a m req l) ∧ StorePosted q width d a m (s.postStore q width d a m req l) l := by
  unfold State.postStore
  extract_lets ix ds d0 home
  have hix := travels_postSrc s q l home ix
  have pix := posts_postSrc s q l home ix
  generalize s.postSrc q l home ix = x at hix pix ⊢
  obtain ⟨ho, s1⟩ := x
  have hd0 := travels_postSrc s1 q l home d0
  have pd0 := posts_postSrc s1 q l home d0
  dsimp only at hix pix ⊢
  generalize s1.postSrc q l home d0 = y at hd0 pd0 ⊢
  obtain ⟨hd, s2⟩ := y
  have plast := posts_post s2 q.wid home q.seq l q.pc
    (.store (q.homeAddr a m ho) width hd (storeBytes width (ds.map (·.w))) false 0 0) (some req) q.rtag
  exact ⟨(pix.trans pd0).trans plast, ho, hd, hix.mono fun _ h => (pd0.trans plast).mem h, hd0.mono fun _ h => plast.mem h,
    postedTo_post ..⟩

/-- Posting the lanes of a store, in order. -/
def Iss.postStores (q : Iss) (width : Width) (d a : Opd) (m : Mem) (ls : List Nat) (s : State) (id : Nat) : State :=
  ls.foldl (fun s l => s.postStore q width d a m id l) s

theorem postStores_spec (q : Iss) (width : Width) (d a : Opd) (m : Mem) (ls : List Nat) (s : State) (id : Nat) :
    Posts s (q.postStores width d a m ls s id) ∧ ∀ l ∈ ls, StorePosted q width d a m (q.postStores width d a m ls s id) l :=
  ⟨.foldl (fun s l => (postStore_spec s q width d a m id l).1) ls s,
    Posts.foldl_each (fun s l => (postStore_spec s q width d a m id l).1) (fun s l => (postStore_spec s q width d a m id l).2)
      (fun _ _ _ hp h => h.mono fun _ => hp.mem) ls s⟩

/-! A store of which lanes are posted. -/

/-- The wave whose store has had its turn at the buffer. -/
theorem enterOrHold_spec {s : State} {q : Iss} {w : Wave} (hw : tfind s.waves q.wid = some w) (r : Req) :
    Quiet q s (q.enterOrHold s r).1 ∧ ∃ sb, tfind (q.enterOrHold s r).1.waves q.wid = some { w with sb := sb } := by
  have hnext : Quiet q s { s with nextId := s.nextId + 1 } := ⟨⟨fun _ => rfl, fun _ _ _ => rfl⟩, fun _ _ => rfl, fun _ => rfl⟩
  have hw' : tfind ({ s with nextId := s.nextId + 1 } : State).waves q.wid = some w := hw
  unfold Iss.enterOrHold
  split
  · exact ⟨hnext, w.sb, hw⟩
  · obtain ⟨-, -, sb, hv⟩ := enterStores_spec hw' r
    exact ⟨hnext.trans (quiet_enterStores hw' r), sb, hv⟩

/-- A lane that no ready piece belongs to keeps its request unfinished. -/
theorem not_complete_enterOrHold {s : State} {q : Iss} {r : Req} {p : Piece} (hp : p ∈ r.pieces) (hst : p.st ≠ .done)
    (hlane : ∀ e ∈ r.pieces, e.st = .ready → e.lane ≠ p.lane) : (q.enterOrHold s r).2.complete = false := by
  rw [Bool.eq_false_iff]
  intro hc
  unfold Iss.enterOrHold at hc
  split at hc
  · exact hst (by simpa using List.all_eq_true.mp hc p hp)
  · rw [enterStores_eq] at hc
    obtain ⟨e, he, hl, -⟩ := Piece.entered_of_marked hst (by simpa using List.all_eq_true.mp hc _ (List.mem_map_of_mem hp))
    obtain ⟨hmem, hready⟩ := mem_entered he
    exact hlane e hmem hready hl.symm

/-- Pieces of posted lanes, which homes answer for, have no turn at the buffer: when every other piece enters, none waits. -/
theorem enterOrHold_of_complete {s : State} {q : Iss} {i : Instr} {mask : Word} {ps rest : List Piece} (hparts : StoreParts ps)
    (hrest : ∀ p ∈ rest, p.st = .remote)
    (hc : (({ s with nextId := s.nextId + 1 } : State).enterStores q.wid (q.mkReq s.nextId i mask ps q.cnt)).2.complete = true) :
    let r := q.mkReq s.nextId i mask (ps ++ rest) q.cnt
    s.holdsBack q.w r = false ∧ (q.enterOrHold s r).2.stuck = false
      ∧ (q.enterOrHold s r).1 = (({ s with nextId := s.nextId + 1 } : State).enterStores q.wid (q.mkReq s.nextId i mask ps q.cnt)).1 := by
  intro r
  have hpieces : StoreParts (q.mkReq s.nextId i mask ps q.cnt).pieces := hparts
  have hready := ready_of_complete hpieces hc
  have hshut : s.holdsBack q.w r = false := holdsBack_of_translated fun p hp => by
    rcases List.mem_append.mp hp with hp | hp
    · rw [hready p hp]; decide
    · rw [hrest p hp]; decide
  have hturns := fun t => enterPieces_of_not_ready (wid := q.wid) (seq := q.seq) (pc := q.pc) (rtag := q.rtag)
    (fun p hp => by rw [hrest p hp]; decide : ∀ p ∈ rest, p.st ≠ .ready) t
  rw [Iss.enterOrHold, if_neg (by rw [hshut]; exact Bool.false_ne_true), enterStores_eq, enterStores_eq]
  have hsame : ({ s with nextId := s.nextId + 1 } : State).entered q.wid q.seq q.pc q.rtag (ps ++ rest)
      = ({ s with nextId := s.nextId + 1 } : State).entered q.wid q.seq q.pc q.rtag ps := by
    rw [entered_append, (hturns _).2, List.append_nil]
  have hleft : ∀ x ∈ ps ++ rest,
      (x.marked (({ s with nextId := s.nextId + 1 } : State).entered q.wid q.seq q.pc q.rtag (ps ++ rest))).st ≠ .ready := by
    intro x hx
    rcases x.marked_st (({ s with nextId := s.nextId + 1 } : State).entered q.wid q.seq q.pc q.rtag (ps ++ rest)) with hd | hd
    · rw [hd]; decide
    · rcases List.mem_append.mp hx with hx | hx
      · rw [enterStores_eq] at hc
        have hd : (x.marked (({ s with nextId := s.nextId + 1 } : State).entered q.wid q.seq q.pc q.rtag ps)).st = .done :=
          eq_of_beq (List.all_eq_true.mp hc _ (List.mem_map_of_mem hx))
        rw [hsame, hd]; decide
      · rw [hd, hrest x hx]; decide
  refine ⟨hshut, List.any_eq_false.mpr fun p hp => ?_, (List.foldl_append ..).trans ((hturns _).1)⟩
  obtain ⟨x, hx, rfl⟩ := List.mem_map.mp hp
  exact fun h => hleft x hx (beq_iff_eq.mp h)

/-- A posted lane of a request is one that its home answers for. -/
theorem posted_remote {s : State} {ls : List Nat} : ∀ p ∈ ls.map (postedPiece s), p.st = .remote := by
  intro p hp
  obtain ⟨l, -, rfl⟩ := List.mem_map.mp hp
  rfl

theorem failure_posted {ps : List Piece} {posted : List Nat} (hparts : StoreParts ps) (u : State) :
    ∀ p ∈ ps ++ posted.map (postedPiece u), p.failure = none := by
  intro p hp
  rcases List.mem_append.mp hp with hp | hp
  · exact failure_of_unstored (hparts.unstored p hp)
  · rw [Piece.failure, posted_remote p hp]

section
variable {s : State} {i : Instr} {h : Hints} {q : Iss} {body : Iss → State → Res} {width : Width} {d a : Opd} {m : Mem} {posted : List Nat}
  {ps : List (Piece × Option (BitVec 7))} (hi : Issues i h s q) (he : exec i s = runInstr i h body s)
  (hb : body q (s.issued i q) = storeRequest i m ps posted q (s.issued i q) (q.postStores width d a m posted))
  (hparts : StoreParts (ps.map (·.1))) (hplane : (s.issued i q).piecesNoPlane q.w.ctx (ps.map (·.1)) = false)
include hi he hb hparts hplane

/-- A release store posts its lanes behind its release (R106, R271). -/
theorem completes_postedRelease (hrel : orderRel (memOrder m) = true) :
    Completes i s fun t => Quiet q s t ∧ (∀ l ∈ posted, StorePosted q width d a m t l)
      ∧ (memScope m ≠ .wave → Releasing q (memScope m) (fun c => c = .nothing) t) := by
  have hdone := storeRequest_release (i := i) (posted := posted) (postAll := q.postStores width d a m posted) hplane hrel
    (failure_posted hparts (s.issued i q))
  obtain ⟨k, hw⟩ := tfind_addReq (q.mkReq (s.issued i q).nextId i q.part
    (ps.map (·.1) ++ posted.map (postedPiece (s.issued i q))) q.cnt) (wave_issued s i q)
  obtain ⟨hposts, hall⟩ := postStores_spec q width d a m posted ((s.issued i q).addReq q (q.mkReq (s.issued i q).nextId i q.part
    (ps.map (·.1) ++ posted.map (postedPiece (s.issued i q))) q.cnt)) (s.issued i q).nextId
  refine ⟨_, he.trans (runInstr_done hi (hb.trans hdone)), (((quiet_issued hi.1).trans (quiet_addReq ..)).trans (hposts.quiet q)).trans
    (quiet_addRel ..), fun l hl => (hall l hl).mono fun x hx => by rw [addRel_homeq]; exact hx, fun hs => ?_⟩
  exact releasing_addRel ((hposts.tfind q.wid).trans hw) hs .nothing _

/-- A plain store outside a region posts its lanes, and its other lanes enter the buffer (R106, R264). -/
theorem completes_postedPlain (hrel : orderRel (memOrder m) = false) (hregion : q.w.region = none) (hne : posted ≠ [])
    (hcore : ∀ p ∈ ps.map (·.1), p.lane ∉ posted) :
    let u := (({ s.issued i q with nextId := (s.issued i q).nextId + 1 } : State)).enterStores q.wid
      (q.mkReq (s.issued i q).nextId i q.part (ps.map (·.1)) q.cnt)
    Completes i s fun t => Quiet q s t ∧ (∀ l ∈ posted, StorePosted q width d a m t l)
      ∧ (u.2.complete = true → ∃ w v, tfind t.waves q.wid = some w ∧ tfind u.1.waves q.wid = some v ∧ w.sb = v.sb) := by
  intro u
  let r := q.mkReq (s.issued i q).nextId i q.part (ps.map (·.1) ++ posted.map (postedPiece (s.issued i q))) q.cnt
  let x := q.enterOrHold (s.issued i q) r
  have hc : x.2.complete = false := by
    obtain ⟨l, hl⟩ := List.exists_mem_of_ne_nil posted hne
    refine not_complete_enterOrHold (p := postedPiece (s.issued i q) l) (List.mem_append_right _ (List.mem_map_of_mem hl)) (by simp [postedPiece])
      fun e hmem hready hlane => ?_
    rcases List.mem_append.mp hmem with hmem | hmem
    · exact hcore e hmem (hlane ▸ hl)
    · rw [posted_remote e hmem] at hready
      cases hready
  obtain ⟨t, hdone, hquiet, hhomeq, hsame⟩ := storeRequest_waits (i := i) (posted := posted) (postAll := q.postStores width d a m posted) hplane
    hrel hregion (failure_posted hparts (s.issued i q)) hc
  obtain ⟨hturn, sb, hw⟩ := enterOrHold_spec (wave_issued s i q) r
  obtain ⟨k, hw'⟩ := tfind_addReq x.2 hw
  obtain ⟨hposts, hall⟩ := postStores_spec q width d a m posted (x.1.addReq q x.2) r.id
  refine ⟨t, he.trans (runInstr_done hi (hb.trans hdone)),
    ((((quiet_issued hi.1).trans hturn).trans (quiet_addReq ..)).trans (hposts.quiet q)).trans hquiet,
    fun l hl => (hall l hl).mono fun y hy => hhomeq ▸ hy, fun hcomplete => ?_⟩
  obtain ⟨hshut, hstuck, hbuffer⟩ := enterOrHold_of_complete (s := s.issued i q) hparts posted_remote hcomplete
  have ht := (congrArg (fun y => tfind y.waves q.wid) (hsame hshut hstuck)).trans ((hposts.tfind q.wid).trans hw')
  have hv := (congrArg (fun y => tfind y.waves q.wid) hbuffer.symm).trans hw
  exact ⟨_, _, ht, hv, rfl⟩

end

/-! The bodies of ST and SST. -/

/-- The lanes of a store that are not posted run in the core. -/
theorem lane_not_posted {q : Iss} {s : State} {a : Opd} {m : Mem} {n : Nat} {acc : Acc} {posted : List Nat} {data : Nat → List Byte} :
    ∀ p ∈ (q.globalPieces s a m n acc (q.lanes.filter fun l => !posted.contains l) data).map (·.1), p.lane ∉ posted := by
  intro p hp
  obtain ⟨e, he, rfl⟩ := List.mem_map.mp hp
  obtain ⟨l, hl, c, -, rfl⟩ := mem_globalPieces he
  rw [(globalPiece_spec ..).1]
  simpa using (List.mem_filter.mp hl).2

theorem postedLanes_of_untagged {q : Iss} {d : Opd} {n : Nat} {m : Mem} (h : Untagged q fun l => q.index m l :: q.dataWords d n l) :
    q.postedLanes d n m = [] := by
  refine List.filter_eq_nil_iff.mpr fun l hl => ?_
  have hix : q.idxTagged m l = false := h l hl _ List.mem_cons_self
  have hdata : (q.dataWords d n l).any (·.tag) = false :=
    List.any_eq_false.mpr fun x hx => by rw [h l hl x (List.mem_cons_of_mem _ hx)]; exact Bool.false_ne_true
  simp [hix, hdata]

/-- ST makes one store of its lanes in the core, and posts the others (R103, R270). -/
theorem stBody_eq {i : Instr} {width : Width} {d a : Opd} {m : Mem} {q : Iss} (s : State) (hbase : q.badFrame a = false)
    (hwide : 1 < widthRegs width → Untagged q fun l => q.dataWords d (widthRegs width) l)
    (hformed : ∀ l ∈ q.lanes, anyMalformed (q.index m l :: q.dataWords d (widthRegs width) l) = false) :
    let posted := q.postedLanes d (widthRegs width) m
    stBody i width d a m q s = storeRequest i m
      (q.globalPieces s a m (widthBytes width) .write (q.lanes.filter fun l => !posted.contains l)
        fun l => storeBytes width ((q.dataWords d (widthRegs width) l).map (·.w)))
      posted q s (q.postStores width d a m posted) := by
  intro posted
  have hone : ¬ (widthRegs width > 1 ∧ (q.lanes.any fun l => (q.dataWords d (widthRegs width) l).any (·.tag)) = true) := by
    rintro ⟨hn, hany⟩
    obtain ⟨l, hl, hx⟩ := List.any_eq_true.mp hany
    obtain ⟨x, hx, ht⟩ := List.any_eq_true.mp hx
    rw [hwide hn l hl x hx] at ht
    cases ht
  have hall : ((q.postedLanes d (widthRegs width) m).any fun l => anyMalformed (q.index m l :: q.dataWords d (widthRegs width) l)) = false :=
    List.any_eq_false.mpr fun l hl => by rw [hformed l (List.mem_filter.mp hl).1]; exact Bool.false_ne_true
  simp only [stBody, hbase, hone, hall, Bool.false_eq_true, if_false]
  rfl

/-- SST makes a store of lane 0, unless its base is a tile (R255). -/
theorem sstBody_eq {i : Instr} {width : Width} {d a : Opd} {m : Mem} {q : Iss} (s : State) (hbase : q.badFrame a = false)
    (htile : isTOpd a = false) :
    sstBody i width d a m q s = storeRequest i m
      (q.globalPieces s a m (widthBytes width) .write [0] fun l => storeBytes width ((q.dataWords d (widthRegs width) l).map (·.w)))
      [] { q with part := 1 } s (fun s _ => s) := by
  have hdata : q.globalPieces s a m (widthBytes width) .write [0] (fun _ => storeBytes width ((q.dataWords d (widthRegs width) 0).map (·.w)))
      = q.globalPieces s a m (widthBytes width) .write [0] fun l => storeBytes width ((q.dataWords d (widthRegs width) l).map (·.w)) := rfl
  rw [← hdata]
  unfold sstBody
  split
  · cases htile
  · simp only [hbase, Bool.false_eq_true, if_false]
    rfl

/-- Settles O25: a store is one request, whose pieces enter the store buffer or stand behind its release, while its posted lanes go to their
homes. -/
theorem storesAreBuffered : Obligations.StoresAreBuffered := by
  unfold Obligations.StoresAreBuffered
  refine ⟨?_, ?_⟩
  · intro s q h width d a m i ls mask hform hi hbase huntagged ps hps hplane
    have hparts := storeParts_globalPieces hps
    have hbody : ∃ body postAll, exec i s = runInstr i h body s ∧ (∀ s id, postAll s id = s)
        ∧ body q (s.issued i q) = storeRequest i m ps [] { q with part := mask } (s.issued i q) postAll := by
      rcases hform with ⟨rfl, rfl, rfl⟩ | ⟨rfl, rfl, rfl, htile⟩
      · have hnone := postedLanes_of_untagged huntagged
        have hst := stBody_eq (i := .st h width d a m) (s.issued (.st h width d a m) q) hbase
          (fun _ l hl x hx => huntagged l hl x (List.mem_cons_of_mem _ hx))
          (fun l hl => List.any_eq_false.mpr fun x hx => by rw [huntagged l hl x hx]; exact Bool.false_ne_true)
        simp only [hnone, List.contains_nil, Bool.not_false, List.filter_true] at hst
        exact ⟨_, _, rfl, fun _ _ => rfl, hst⟩
      · exact ⟨_, _, rfl, fun _ _ => rfl, sstBody_eq _ hbase htile⟩
    obtain ⟨body, postAll, he, hpost, hb⟩ := hbody
    exact ⟨fun hrel => completes_buffered hi he hb hparts hplane hrel, fun hrel => completes_behindRelease hi he hb hpost hparts hplane hrel⟩
  · intro s q h width d a m i hi hbase hformed hwide posted ps hps hplane hopen hne
    have hparts := storeParts_globalPieces hps
    have hb := stBody_eq (i := i) (s.issued i q) hbase hwide hformed
    by_cases hrel : orderRel (memOrder m) = true
    · obtain ⟨t, he, hquiet, hall, hreleasing⟩ := completes_postedRelease hi rfl hb hparts hplane hrel
      exact ⟨t, he, hquiet, hall, fun h => absurd (hrel.symm.trans h) (by decide), fun _ => hreleasing⟩
    · have hplain : orderRel (memOrder m) = false := by simpa using hrel
      obtain ⟨t, he, hquiet, hall, hbuffer⟩ :=
        completes_postedPlain hi rfl hb hparts hplane hplain (hopen.resolve_left hrel) hne lane_not_posted
      exact ⟨t, he, hquiet, hall, fun _ => hbuffer, fun h => absurd h hrel⟩

end Sys2Proof.Machine
end

section
/-! PROOFS. Five statements about proxies that the model does not meet as they stand. Four say that every other register target keeps its newest
value, with no bound on the lane of a target; a wave keeps lane l of register r under the key 32 · r + l (`vKey`), so "lane 32" of a register names lane 0
of the next one, which these instructions write in the issue clock. The fifth says that a home's store leaves the registers of every wave alone. -/

namespace Sys2Proof.Machine

open Sys2Proof.Tests

/- One proof at a time: many at once cost a thread, and its stack, each. -/
set_option Elab.async false

/-- Whether a step leaves the newest value of a target as it is, if it answers a state. -/
def keepsNewest (i : Instr) (s : State) (wid : Nat) (x : Target) : Option Bool :=
  observe (exec i s) fun t => decide (t.newest wid x = s.newest wid x)

theorem newest_changed {i : Instr} {s t : State} {wid : Nat} {x : Target} (hk : keepsNewest i s wid x = some false) (he : exec i s = .next t) :
    t.newest wid x ≠ s.newest wid x :=
  of_decide_eq_false (Option.some.inj ((observe_of_next _ he).symm.trans hk))

/-- Wave 0 issues the instruction, and a property of what it sees, as one Boolean. -/
def firstIssues (i : Instr) (s : State) (P : Iss → Bool) : Bool := stands i s fun q => q.wid == 0 && P q

theorem issues_of_firstIssues {i : Instr} {s : State} {P : Iss → Bool} {f : Fields} (h : firstIssues i s P = true) (hf : i.fields = some f) :
    ∃ q, Issues i f.h s q ∧ q.wid = 0 ∧ P q = true := by
  obtain ⟨g, q, hg, hi, hp⟩ := issues_of h
  obtain rfl : g = f := Option.some.inj (hg.symm.trans hf)
  rw [Bool.and_eq_true, beq_iff_eq] at hp
  exact ⟨q, hi, hp.1, hp.2⟩

theorem untagged_of_plain {q : Iss} {xs : Nat → List Lane} (h : plain q xs = true) : Untagged q xs := by
  intro l hl x hx
  simpa using List.all_eq_true.mp (List.all_eq_true.mp h l hl) x hx

theorem ne_of_mem_laneWrites {b : BitVec 8} {r l : Nat} {xs : List (Nat × Word)} (hr : b.toNat ≠ r) : ∀ e ∈ laneWrites (.v b) xs, e.1 ≠ .v r l := by
  intro e he heq
  obtain ⟨x, -, rfl⟩ := List.mem_map.mp he
  exact hr (Target.v.inj heq).1

/-! IADD of a lane that holds a proxy. -/

/-- v8 := v7 + 1; lane 0 of v7 holds a proxy in `prox`. -/
def addPosted : Instr := .iadd nh .wrap (.v 8) (.v 7) (.lit 1)

/-- Its form. -/
def addPostedForm : VecForm := ⟨nh, .v 8, .v 7, .lit 1, noOpd, fun _ _ => .iadd .wrap⟩

/-- Its lane 0 is posted and takes slot 20 of home 3. -/
theorem firstIssues_addPosted : firstIssues addPosted prox (fun q =>
    let f := addPostedForm
    decide (∀ l ∈ q.lanes, anyMalformed [q.src f.a l, q.srcB f.b l, q.src f.c l] = false)
      && decide ((prox.issued addPosted q).judgeSlots q ((f.posted q).map fun l => (l, f.home q l)) = .got [(0, 20)])) = true := by
  decide +kernel

/-- The proxy that lane 0 of v8 becomes is what "lane 32 of v7" holds from then on. -/
theorem keepsNewest_addPosted : keepsNewest addPosted prox 0 (.v 7 32) = some false := by
  decide +kernel

/-- Refutes O21, at the last clause of its first part: no target but the participant lanes of v8 is to change, and "lane 32 of v7", which is
lane 0 of v8, does. -/
theorem not_proxyOperands : ¬ Obligations.ProxyOperands := by
  unfold Obligations.ProxyOperands
  intro h
  obtain ⟨hposts, -, -⟩ := h
  obtain ⟨q, hi, hwid, hq⟩ := issues_of_firstIssues firstIssues_addPosted rfl
  rw [Bool.and_eq_true, decide_eq_true_eq, decide_eq_true_eq] at hq
  obtain ⟨hlanes, hslots⟩ := hq
  obtain ⟨t, he, -, -, -, hkeep⟩ := hposts addPosted addPostedForm prox q 8 [(0, 20)] rfl rfl rfl hi hlanes hslots
  refine newest_changed keepsNewest_addPosted he (hwid ▸ hkeep (.v 7 32) fun l _ heq => ?_)
  cases heq

/-! MAT of lanes that hold values. -/

/-- v8 := v1; no lane of v1 holds a proxy in `unit`, and lane 1 holds 1. -/
def matPlain : Instr := .mat nh (.v 8) (.v 1)

theorem firstIssues_matPlain : firstIssues matPlain unit (fun q => plain q fun l => [q.src (.v 1) l]) = true := by
  decide +kernel

/-- "Lane 33 of v7" becomes 1 with lane 1 of v8. -/
theorem keepsNewest_matPlain : keepsNewest matPlain unit 0 (.v 7 33) = some false := by
  decide +kernel

/-- Refutes O23, at its clause of MAT without a proxy, which is to write the lanes of v8 and no other target: "lane 33 of v7" is lane 1 of v8
(`lane_beyond`). -/
theorem not_crossings : ¬ Obligations.Crossings := by
  unfold Obligations.Crossings
  intro h
  obtain ⟨-, -, hcopies⟩ := h
  obtain ⟨q, hi, hwid, hq⟩ := issues_of_firstIssues firstIssues_matPlain rfl
  obtain ⟨t, he, -, -, -, hkeep, -⟩ := hcopies unit q nh (.v 8) (.v 1) hi (untagged_of_plain hq)
  exact newest_changed keepsNewest_matPlain he (hwid ▸ hkeep (.v 7 33) (ne_of_mem_laneWrites (by decide)))

/-! PXREL of a lane that holds a proxy. -/

/-- Lane 0 of v7 gives up the proxy that it holds in `prox`. -/
def releasePosted : Instr := .pxrel nh (.v 7)

theorem firstIssues_releasePosted : firstIssues releasePosted prox (fun q => decide (∀ l ∈ q.lanes, anyMalformed [q.vlane 7 l] = false)) = true := by
  decide +kernel

/-- "Lane 32 of v6" held that proxy, and becomes 0. -/
theorem keepsNewest_releasePosted : keepsNewest releasePosted prox 0 (.v 6 32) = some false := by
  decide +kernel

/-- Refutes O24, at its clause of PXREL, which is to write the tagged lanes of v7 and no other target: "lane 32 of v6" is lane 0 of v7
(`lane_beyond`). -/
theorem not_proxyInstructions : ¬ Obligations.ProxyInstructions := by
  unfold Obligations.ProxyInstructions
  intro h
  obtain ⟨-, -, hreleases, -⟩ := h
  obtain ⟨q, hi, hwid, hq⟩ := issues_of_firstIssues firstIssues_releasePosted rfl
  obtain ⟨t, he, ⟨-, -, -, hkeep, -⟩, -⟩ := hreleases prox q nh 7 hi (of_decide_eq_true hq)
  refine newest_changed keepsNewest_releasePosted he (hwid ▸ hkeep (.v 6 32) fun e hmem heq => ?_)
  obtain ⟨l, -, rfl⟩ := List.mem_map.mp hmem
  cases heq

/-! ATOM of a lane whose index is a proxy. -/

/-- ATOM.add of v1 at the index v7, of which lane 0 holds a proxy in `prox`. -/
def atomPosted : Instr := .atom nh .add false (.v 1) (.s 2) (byProxy .plain .wave false)

/-- Its lane 0 is posted, and its D lane takes slot 20 of home 3. -/
theorem firstIssues_atomPosted : firstIssues atomPosted (cached prox) (fun q =>
    let m := byProxy .plain .wave false
    let u := (cached prox).issued atomPosted q
    let posted := q.postedLanes (.v 1) 1 m
    let ps := q.atomPieces u .add false (.v 1) (.s 2) m (q.lanes.filter fun l => !posted.contains l)
    !q.badFrame (.s 2) && decide (∀ p ∈ ps, p.2 = none) && !u.piecesNoPlane q.w.ctx (ps.map (·.1))
      && decide (∀ l ∈ q.lanes, anyMalformed (q.index m l :: q.dataWords (.v 1) 1 l) = false)
      && decide (u.judgeSlots q (posted.map fun l => (l, homeOfLane (q.index m l :: q.dataWords (.v 1) 1 l))) = .got [(0, 20)])) = true := by
  decide +kernel

/-- The proxy that lane 0 of v1 becomes is what "lane 32 of v0" holds from then on. -/
theorem keepsNewest_atomPosted : keepsNewest atomPosted (cached prox) 0 (.v 0 32) = some false := by
  decide +kernel

/-- Refutes O27, at the clause of its posted lanes that no target but their D lanes changes: "lane 32 of v0" is lane 0 of v1. -/
theorem not_atomicsAsk : ¬ Obligations.AtomicsAsk := by
  unfold Obligations.AtomicsAsk
  intro h
  obtain ⟨q, hi, hwid, hq⟩ := issues_of_firstIssues firstIssues_atomPosted rfl
  simp only [Bool.and_eq_true, decide_eq_true_eq, Bool.not_eq_true'] at hq
  obtain ⟨⟨⟨⟨hbase, hps⟩, hplane⟩, hwords⟩, hslots⟩ := hq
  obtain ⟨t, he, -, -, hkeep, -⟩ :=
    (h (cached prox) q nh .add false (.v 1) (.s 2) (byProxy .plain .wave false) hi hbase hps hplane).2 rfl hwords [(0, 20)] hslots
  refine newest_changed keepsNewest_atomPosted he (hwid ▸ hkeep (.v 0 32) fun r l hr _ heq => ?_)
  cases hr
  cases heq

/-! A home's store, and another wave's store that waits for an entry of the same core's store buffer. -/

/-- A store of one lane that has met its page and waits for an entry. -/
def stuckStore : Req :=
  ⟨20, 0, .st nh .w32 (.v 1) (.s 2) (.offset 0), 0, 0x10000, 0, 1, [⟨0, 0, 4, 0x14000, .mem 0x14000 0, .ready, [1, 2, 3, 4], 0, 0⟩], [], some 0, []⟩

/-- Its wave, in a region that its handler has opened; its 16 entries and the 512 that the core shares are in use. -/
def waveStuck : Wave :=
  { firstWave with
    handler := some ⟨0, 0xFFFFFFFF, 0⟩, region := some ⟨0x10000, 0xFFFFFFFF, [], [], [], 0, none, 0⟩, reqs := [stuckStore]
    sb := (List.range 528).map fun k => ⟨k, k, 0, 0, 0, [⟨0, 0, 0, 0, none⟩]⟩ }

/-- A store of wave 0 stands performable in the queue of home 3, and that wave beside it. -/
def besideStuck : State := (begun (homed [queued1]) 3 0 2 0x10004).setWave 1 waveStuck

theorem performable_besideStuck :
    besideStuck.homeq.find? (fun h => h.id == queued1.id && h.home == queued1.home) = some queued1
      ∧ (tfind besideStuck.waves 0).isSome = true ∧ besideStuck.queuedClear queued1 = true
      ∧ besideStuck.accessDone 3 0 2 (besideStuck.place 0x10004 / 32) = true ∧ besideStuck.isPeer 0x10004 = false
      ∧ besideStuck.storeStop (some (3, 8, 0)) 0 (0x10004 / 32) 0 4 = none := by
  decide +kernel

/-- The store that still finds no entry traps in its region; in the handler that trap is unrecovered, and the grid's waves lose their registers. -/
theorem keepsNewest_besideStuck : keepsNewest (.homeStorePerform 3 8) besideStuck 0 (.v 1 1) = some false := by
  decide +kernel

/-- Refutes O42, at its clause of a queued store, which says that the registers of every wave stay. Once the store is performed, the core's
stores that wait for an entry try again (R264); one that overflows in its region traps (R219), and a trap in a handler drains the grid (R313). No
run of the model is known to leave such a store waiting, but the statement speaks of every state. -/
theorem not_homesAnswer : ¬ Obligations.HomesAnswer := by
  unfold Obligations.HomesAnswer
  intro h
  obtain ⟨-, -, -, -, -, -, hperforms, -⟩ := h
  obtain ⟨hfind, hwave, hclear, hdone, hpeer, hstop⟩ := performable_besideStuck
  obtain ⟨w, hw⟩ := Option.isSome_iff_exists.mp hwave
  obtain ⟨t, he, hkeep, -⟩ := hperforms besideStuck queued1 w _ _ _ _ _ hfind rfl rfl hw hclear hdone hpeer hstop (by decide)
  exact newest_changed keepsNewest_besideStuck he (hkeep 0 (.v 1 1))

end Sys2Proof.Machine
end

section
/-! PROOFS. Scratchpad accesses at issue (R119, R122, R125, R255, R270, R272, R273): one request, whose pieces stand at the ports of their
places. -/

namespace Sys2Proof.Machine

/- One proof at a time: many at once cost a thread, and its stack, each. -/
set_option Elab.async false

/-! An acquire in waiting changes nothing but the acquires of its wave. -/

theorem newest_acqs (w : Wave) (l : List Acq) (x : Target) : ({ w with acqs := l } : Wave).newest x = w.newest x := by cases x <;> rfl

theorem quiet_addAcq (q : Iss) (s : State) (seq : Nat) (loads : Option Nat) (cnt : List Nat) : Quiet q s (s.addAcq q.wid seq loads cnt) :=
  quiet_modWave q s fun w => newest_acqs w _

theorem Asked.addAcq {q : Iss} {i : Instr} {mask : Word} {ps : List Piece} {s t : State} (h : Asked q i mask ps s t) (seq : Nat)
    (loads : Option Nat) (cnt : List Nat) : Asked q i mask ps s (t.addAcq q.wid seq loads cnt) := by
  obtain ⟨hquiet, w, id, hw, hkeeps, hpassed, hreqs⟩ := h
  exact ⟨hquiet.trans (quiet_addAcq ..), _, id, tfind_modWave_some _ hw, hkeeps, hpassed, hreqs⟩

theorem addAcq_portq (s : State) (wid seq : Nat) (loads : Option Nat) (cnt : List Nat) : (s.addAcq wid seq loads cnt).portq = s.portq :=
  State.modWave_portq s wid fun w => { w with acqs := w.acqs ++ [⟨s.nextId, seq, loads, cnt⟩] }

theorem addRel_portq (s : State) (wid : Nat) (scope : Scope) (seq : Nat) (cnt : List Nat) (cont : Cont) (split : Nat) (pc : DWord)
    (word : BitVec 96) (lanes : Word) : (s.addRel wid scope seq cnt cont split pc word lanes).portq = s.portq := by
  unfold State.addRel
  split <;> simp only [State.modWave_portq]

/-! Sending pieces to ports. -/

theorem AtPorts.congr {ps : List Piece} {wid : Nat} {write : Bool} {s t : State} (h : AtPorts ps wid write s) (hp : t.portq = s.portq) :
    AtPorts ps wid write t := by
  unfold AtPorts
  rw [hp]
  exact h

/-- A request's pieces stand at the ports of their places once they have been sent (R125, R126). -/
theorem atPorts_sendPort (s : State) (q : Iss) (r : Req) (write : Bool) : AtPorts r.pieces q.wid write (s.sendPort q r write) := by
  intro k p l u o hk hloc
  obtain ⟨hlt, -⟩ := List.getElem?_eq_some_iff.mp hk
  refine ⟨⟨s.nextId + k, q.wid, q.seq, p.lane, l, u, o, write, .piece r.id k, q.split, q.pc, q.word, [], false⟩, ?_, rfl, rfl, rfl, rfl, rfl, rfl⟩
  refine List.mem_append_right _ (List.mem_filterMap.mpr ⟨k, List.mem_range.mpr hlt, ?_⟩)
  simp only [hk, Iss.portOp, hloc]

theorem Asked.sendPort {q : Iss} {i : Instr} {mask : Word} {ps : List Piece} {s t : State} (h : Asked q i mask ps s t) (v : Iss) (r : Req)
    (write : Bool) : Asked q i mask ps s (t.sendPort v r write) := by
  obtain ⟨hquiet, hwave⟩ := h
  exact ⟨hquiet.trans ⟨⟨fun _ => rfl, fun _ _ _ => rfl⟩, fun _ _ => rfl, fun _ => rfl⟩, hwave⟩

/-- An instruction whose effect is a scratchpad request, issued for the lanes of `mask`, asks and stands at its ports; the release and the
acquire that its order adds change neither. -/
theorem completes_portRequest {i : Instr} {h : Hints} {s : State} {q : Iss} {body : Iss → State → Res} {m : Mem} {ps : List Piece}
    {write : Bool} {mask : Word} (hi : Issues i h s q) (he : exec i s = runInstr i h body s)
    (hb : body q (s.issued i q) = portRequest i m (.ok ps) write { q with part := mask } (s.issued i q)) :
    Completes i s fun t => Asked q i mask ps s t ∧ AtPorts ps q.wid write t := by
  let u := s.issued i q
  let r := q.mkReq u.nextId i mask ps q.cnt
  let sent := (u.addReq q r).sendPort { q with part := mask } r write
  have hsent : Asked q i mask ps s sent ∧ AtPorts ps q.wid write sent :=
    ⟨(asked_addReq hi mask ps u.nextId).sendPort _ r write, atPorts_sendPort (u.addReq q r) { q with part := mask } r write⟩
  let released := if orderRel (memOrder m) then sent.addRel q.wid (memScope m) q.seq [] .nothing q.split q.pc q.word mask else sent
  have hreleased : Asked q i mask ps s released ∧ AtPorts ps q.wid write released := by
    simp only [released]
    split
    · exact ⟨hsent.1.addRel .., hsent.2.congr (addRel_portq ..)⟩
    · exact hsent
  refine ⟨if orderAcq (memOrder m) then released.addAcq q.wid q.seq (some r.id) [] else released, he.trans (runInstr_done hi hb), ?_⟩
  split
  · exact ⟨hreleased.1.addAcq .., hreleased.2.congr (addAcq_portq ..)⟩
  · exact hreleased

/-! The accesses, one by one. -/

/-- With no tagged index, LDS is a scratchpad request of its lanes (R270). -/
theorem ldsBody_eq {i : Instr} {width : Width} {a : Opd} {m : Mem} {q : Iss} (s : State) (h : ∀ l ∈ q.lanes, q.idxTagged m l = false) :
    ldsBody i width a m q s = portRequest i m (q.spAll s a m (widthBytes width) q.lanes fun _ => []) false q s :=
  if_neg (by rw [List.any_eq_true]; rintro ⟨l, hl, ht⟩; rw [h l hl] at ht; cases ht)

/-- No lane of an access is tagged when neither its index nor its data are. -/
theorem not_any_tagged {q : Iss} {m : Mem} {d : Opd} {n : Nat} (h : Untagged q fun l => q.index m l :: q.dataWords d n l) :
    ¬ (q.lanes.any fun l => q.idxTagged m l || (q.dataWords d n l).any (·.tag)) = true := by
  rw [List.any_eq_true]
  rintro ⟨l, hl, ht⟩
  rcases Bool.or_eq_true_iff.mp ht with ht | ht
  · have hix : q.idxTagged m l = false := h l hl _ List.mem_cons_self
    rw [hix] at ht
    cases ht
  · obtain ⟨x, hx, ht⟩ := List.any_eq_true.mp ht
    rw [h l hl x (List.mem_cons_of_mem _ hx)] at ht
    cases ht

/-- With no tagged operand, STS is a scratchpad request of its lanes (R270). -/
theorem stsBody_eq {i : Instr} {width : Width} {d a : Opd} {m : Mem} {q : Iss} (s : State)
    (h : Untagged q fun l => q.index m l :: q.dataWords d (widthRegs width) l) :
    stsBody i width d a m q s = portRequest i m (q.spAll s a m (widthBytes width) q.lanes
      fun l => storeBytes width ((q.dataWords d (widthRegs width) l).map (·.w))) true q s :=
  if_neg (not_any_tagged h)

/-- Collecting one element a step collects the list of them. -/
theorem foldlM_ok_append {α β ε : Type} {f : List β → α → Except ε (List β)} {g : α → β} (ls : List α)
    (hf : ∀ acc, ∀ l ∈ ls, f acc l = .ok (acc ++ [g l])) (acc : List β) : ls.foldlM f acc = .ok (acc ++ ls.map g) := by
  induction ls generalizing acc with
  | nil => simp only [List.foldlM_nil, List.map_nil, List.append_nil]; rfl
  | cons l ls ih =>
    rw [List.foldlM_cons, hf acc l List.mem_cons_self]
    refine (ih (fun acc k hk => hf acc k (List.mem_cons_of_mem _ hk)) _).trans ?_
    rw [List.append_assoc]
    rfl

/-- The piece that the lane of an ATOMS leaves at its place (R273). -/
def atomsPiece (q : Iss) (op : AtomOp) (w64 : Bool) (d : Opd) (place : Nat → Loc) (t : Nat) (l : Nat) : Piece :=
  ⟨l, 0, if w64 then 8 else 4, 0, place l, .ready, atomData op w64 ((q.dataWords d (atomRegs op w64) l).map (·.w)), t, 0⟩

/-- With no tagged operand, and each lane at its one aligned place, ATOMS is a scratchpad request of one piece a lane (R272, R273). -/
theorem atomsBody_eq {i : Instr} {op : AtomOp} {w64 : Bool} {d a : Opd} {m : Mem} {q : Iss} {s : State} {place : Nat → Loc}
    (h : Untagged q fun l => q.index m l :: q.dataWords d (atomRegs op w64) l)
    (hplace : ∀ l ∈ q.lanes, ∃ x y, s.spPieces q a (q.offset m l - BitVec.ofNat 64 ((q.offset m l).toNat % if w64 then 8 else 4))
      (if w64 then 8 else 4) = .ok [(x, y, place l)]) :
    atomsBody i op w64 d a m q s = portRequest i m (.ok (q.lanes.map (atomsPiece q op w64 d place s.t7))) true q s := by
  unfold atomsBody
  simp only [not_any_tagged h, Bool.false_eq_true, if_false]
  rw [foldlM_ok_append (g := atomsPiece q op w64 d place s.t7) q.lanes fun acc l hl => ?_]
  · rfl
  · obtain ⟨x, y, hxy⟩ := hplace l hl
    simp only [hxy]
    rfl

/-- Settles O20: each access is one scratchpad request. -/
theorem scratchpadAccesses : Obligations.ScratchpadAccesses := by
  unfold Obligations.ScratchpadAccesses
  refine ⟨?_, ?_, ?_, ?_, ?_⟩
  · intro s q h width d a m ps hi hix hps
    exact completes_portRequest hi rfl ((ldsBody_eq _ hix).trans (by rw [hps]))
  · intro s q h width d a m ps hi hu hps
    exact completes_portRequest hi rfl ((stsBody_eq _ hu).trans (by rw [hps]))
  · intro s q h width d k m ps hi hps
    exact completes_portRequest (mask := 1) hi rfl (by rw [sldBody, hps]; rfl)
  · intro s q h width d k m ps hi hps
    exact completes_portRequest (mask := 1) hi rfl (by rw [sstBody, hps]; rfl)
  · intro s q h op w64 d a m hi hu i n place hplace ps
    have ht7 : (s.issued i q).t7 = s.t7 := by simp only [issued_frame]
    exact completes_portRequest hi rfl ((atomsBody_eq hu hplace).trans (by rw [ht7]; rfl))

end Sys2Proof.Machine
end

section
/-! PROOFS. The tile table (R120 to R123, R284): the fields of an entry, and TDEF, TFREE and TSTAT. -/

namespace Sys2Proof.Machine

/- One proof at a time: many at once cost a thread, and its stack, each. -/
set_option Elab.async false

/-! The fields of an entry (R121). -/

theorem extractLsb'_congr {n : Nat} {a b : BitVec n} {start len : Nat} (h : ∀ k, k < len → a.getLsbD (start + k) = b.getLsbD (start + k)) :
    a.extractLsb' start len = b.extractLsb' start len := by
  apply BitVec.eq_of_getLsbD_eq
  intro k hk
  rw [BitVec.getLsbD_extractLsb', BitVec.getLsbD_extractLsb', h k hk]

/-- The bits of an entry below STATE do not depend on its state. -/
theorem getLsbD_setTileState (e : BitVec 128) (st : Nat) {k : Nat} (hk : k < 126) : (setTileState e st).getLsbD k = e.getLsbD k := by
  have h128 : k < 128 := by omega
  simp only [setTileState, BitVec.getLsbD_or, BitVec.getLsbD_setWidth, BitVec.getLsbD_extractLsb', BitVec.getLsbD_shiftLeft, hk, h128,
    decide_true, Bool.true_and, Bool.not_true, Bool.false_and, Bool.or_false, Nat.zero_add]

theorem tileState_setTileState (e : BitVec 128) {st : Nat} (h : st < 4) : tileState (setTileState e st) = st := by
  have hfield : (setTileState e st).extractLsb' 126 2 = BitVec.ofNat 2 st := by
    apply BitVec.eq_of_getLsbD_eq
    intro k hk
    have h128 : 126 + k < 128 := by omega
    have habove : ¬ 126 + k < 126 := by omega
    simp only [setTileState, BitVec.getLsbD_extractLsb', BitVec.getLsbD_or, BitVec.getLsbD_setWidth, BitVec.getLsbD_shiftLeft,
      BitVec.getLsbD_ofNat, hk, h128, habove, Nat.add_sub_cancel_left, show k < 128 by omega, decide_true, decide_false, Bool.true_and,
      Bool.false_and, Bool.and_false, Bool.not_false, Bool.false_or]
  rw [tileState, hfield, BitVec.toNat_ofNat]
  exact Nat.mod_eq_of_lt h

theorem tileFault_setTileState (e : BitVec 128) (st : Nat) : tileFault (setTileState e st) = tileFault e :=
  getLsbD_setTileState e st (by decide)

theorem tileDefined_setTileState (e : BitVec 128) (st : Nat) : tileDefined (setTileState e st) = tileDefined e :=
  getLsbD_setTileState e st (by decide)

theorem getLsbD_bit {i k : Nat} (hi : i < 128) : ((1 : BitVec 128) <<< i).getLsbD k = decide (k = i) := by
  rw [show (1 : BitVec 128) <<< i = BitVec.twoPow 128 i from rfl, BitVec.getLsbD_twoPow, decide_eq_true hi, Bool.true_and]
  exact decide_eq_decide.mpr eq_comm

/-- Setting FAULT leaves every other bit. -/
theorem getLsbD_setTileFault (e : BitVec 128) (f : Bool) {k : Nat} (hk : k < 128) :
    (setTileFault e f).getLsbD k = if k = 122 then f else e.getLsbD k := by
  have hset : (if f then (1 : BitVec 128) <<< 122 else 0).getLsbD k = (f && decide (k = 122)) := by
    cases f
    · exact BitVec.getLsbD_zero
    · exact getLsbD_bit (by decide)
  rw [setTileFault, BitVec.getLsbD_or, BitVec.getLsbD_and, BitVec.getLsbD_not, getLsbD_bit (by decide), hset, decide_eq_true hk]
  by_cases h : k = 122
  · simp [h]
  · simp [h]

/-- A field of an entry that does not reach FAULT. -/
theorem extractLsb'_setTileFault (e : BitVec 128) (f : Bool) {start len : Nat} (hend : start + len ≤ 128)
    (h : 122 < start ∨ start + len ≤ 122) : (setTileFault e f).extractLsb' start len = e.extractLsb' start len :=
  extractLsb'_congr fun k hk => by rw [getLsbD_setTileFault e f (by omega), if_neg (by omega)]

/-- Taking DEFINED out of an entry leaves every other bit. -/
theorem getLsbD_undefine (e : BitVec 128) {k : Nat} (hk : k < 128) :
    (e &&& ~~~((1 : BitVec 128) <<< 123)).getLsbD k = (e.getLsbD k && !decide (k = 123)) := by
  rw [BitVec.getLsbD_and, BitVec.getLsbD_not, getLsbD_bit (by decide), decide_eq_true hk, Bool.true_and]

/-- The fields of a geometry as one number (R121). -/
def geomNat (rows rowBytes pitch level base : Nat) : Nat :=
  level * 2 ^ 124 + 2 ^ 123 + rows % 65536 * 2 ^ 96 + rowBytes % 65536 * 2 ^ 80 + pitch % 65536 * 2 ^ 64 + base % 2 ^ 32 * 2 ^ 32

theorem mkEntry_defined {rows : Nat} (rowBytes pitch level base : Nat) (fault : Bool) (h : rows ≠ 0) :
    mkEntry rows rowBytes pitch level base fault = setTileFault (BitVec.ofNat 128 (geomNat rows rowBytes pitch level base)) fault := by
  rw [mkEntry, if_neg h]
  rfl

theorem mkEntry_zero (rowBytes pitch level base : Nat) (fault : Bool) : mkEntry 0 rowBytes pitch level base fault = setTileFault 0 fault := rfl

/-- A field of an entry is that of its number. -/
theorem toNat_field (n : Nat) (start len : Nat) : ((BitVec.ofNat 128 n).extractLsb' start len).toNat = n % 2 ^ 128 / 2 ^ start % 2 ^ len := by
  rw [BitVec.extractLsb'_toNat, Nat.shiftRight_eq_div_pow, BitVec.toNat_ofNat]

/-- The fields of an entry that TDEF writes (R121, R123). -/
structure HoldsGeom (e : BitVec 128) (rows rowBytes pitch level base : Nat) : Prop where
  defined_iff : tileDefined e = true ↔ rows ≠ 0
  state_eq : tileState e = 0
  rows_eq : tileRows e = rows
  rowBytes_eq : tileRowBytes e = rowBytes
  level_eq : tileLevel e = level
  pitch_eq : tilePitch e = if pitch = 0 then rowBytes else pitch
  base_eq : tileBase e = base

theorem tileFault_mkEntry (rows rowBytes pitch level base : Nat) (fault : Bool) : tileFault (mkEntry rows rowBytes pitch level base fault) = fault :=
  (getLsbD_setTileFault _ fault (by decide)).trans (if_pos rfl)

/-- An entry made from a geometry that R120 accepts holds it; with ROWS 0 every field is 0. -/
theorem holdsGeom_mkEntry {rows rowBytes pitch level base : Nat} (fault : Bool) (hok : geomOk rows rowBytes pitch level base = true)
    (hrb : rowBytes < 65536) (hp : pitch < 65536) (hb : base < 2 ^ 32) :
    HoldsGeom (mkEntry rows rowBytes pitch level base fault) rows rowBytes pitch level base := by
  unfold geomOk at hok
  by_cases hz : rows = 0
  · subst hz
    simp only [if_true, Bool.and_eq_true, beq_iff_eq] at hok
    obtain ⟨⟨⟨rfl, rfl⟩, rfl⟩, rfl⟩ := hok
    rw [mkEntry_zero]
    cases fault <;> exact ⟨by decide, rfl, rfl, rfl, rfl, rfl, rfl⟩
  · rw [if_neg hz, decide_eq_true_eq] at hok
    obtain ⟨hl, hr, -⟩ := hok
    rw [mkEntry_defined rowBytes pitch level base fault hz]
    have hfield : ∀ start len, start + len ≤ 128 → (122 < start ∨ start + len ≤ 122) →
        ((setTileFault (BitVec.ofNat 128 (geomNat rows rowBytes pitch level base)) fault).extractLsb' start len).toNat
          = geomNat rows rowBytes pitch level base % 2 ^ 128 / 2 ^ start % 2 ^ len := fun start len hend h => by
      rw [extractLsb'_setTileFault _ fault hend h, toNat_field]
    have hrowBytes : tileRowBytes (setTileFault (BitVec.ofNat 128 (geomNat rows rowBytes pitch level base)) fault) = rowBytes := by
      rw [tileRowBytes, hfield 80 16 (by decide) (by decide), geomNat]
      omega
    have hpitch : ((setTileFault (BitVec.ofNat 128 (geomNat rows rowBytes pitch level base)) fault).extractLsb' 64 16).toNat = pitch := by
      rw [hfield 64 16 (by decide) (by decide), geomNat]
      omega
    refine ⟨⟨fun _ => hz, fun _ => ?_⟩, ?_, ?_, hrowBytes, ?_, ?_, ?_⟩
    · rw [tileDefined, getLsbD_setTileFault _ _ (by decide), if_neg (by decide), BitVec.getLsbD_ofNat, Nat.testBit_eq_decide_div_mod_eq, geomNat]
      simp only [Nat.reduceLT, decide_true, Bool.true_and, decide_eq_true_eq]
      omega
    · rw [tileState, hfield 126 2 (by decide) (by decide), geomNat]
      omega
    · rw [tileRows, hfield 96 16 (by decide) (by decide), geomNat]
      omega
    · rw [tileLevel, hfield 124 2 (by decide) (by decide), geomNat]
      omega
    · rw [tilePitch, hpitch, hrowBytes]
    · rw [tileBase, hfield 32 32 (by decide) (by decide), geomNat]
      omega

/-! The table of a team. -/

theorem tile_of_tfind {t : Team} {id : Nat} {e : BitVec 128} (h : tfind t.tiles id = some e) : t.tile id = e := by
  rw [Team.tile, tget_eq, h]
  rfl

/-- A change of a declared tile's entry leaves every other tile's. -/
theorem tile_modTile {t : Team} {id : Nat} {e : BitVec 128} (h : tfind t.tiles id = some e) (f : BitVec 128 → BitVec 128) (k : Nat) :
    (t.modTile id f).tile k = if k = id then f (t.tile id) else t.tile k := by
  rw [tile_of_tfind h]
  unfold Team.modTile
  rw [h]
  exact tget_tput 0 t.tiles id (f e) k

/-- A tile on which an instruction may issue is declared (R124). -/
theorem declared_of_tileVerdict {t : Team} {id : Nat} {onEmpty onUndefined : Bool} (h : tileVerdict t id onEmpty onUndefined = .ok) :
    ∃ e, tfind t.tiles id = some e := by
  unfold tileVerdict at h
  split at h
  · cases h
  · next e he => exact ⟨e, he⟩

/-- The tiles of an instruction that issues may be used (R124). -/
theorem tilesVerdict_of_issues {i : Instr} {h : Hints} {s : State} {q : Iss} (hi : Issues i h s q) : tilesVerdict q.team i = .ok := by
  obtain ⟨-, -, -, -, hv⟩ := hi
  unfold Iss.verdict at hv
  split at hv
  · cases hv
  · exact hv

/-! An instruction that changes its team, or writes s registers in its issue clock. -/

theorem Completes.imp {i : Instr} {s : State} {P Q : State → Prop} (h : Completes i s P) (hPQ : ∀ t, P t → Q t) : Completes i s Q := by
  obtain ⟨t, he, hp⟩ := h
  exact ⟨t, he, hPQ t hp⟩

/-- The team of the wave at issue. -/
theorem team_issued {s : State} {i : Instr} {h : Hints} {q : Iss} (hq : s.sight i h = some q) :
    tfind (s.issued i q).teams q.w.team = some q.team := by
  obtain ⟨-, ht, -⟩ := sight_some hq
  simpa only [issued_frame] using ht

theorem tfind_modTeam_some {s : State} {tid : Nat} {t : Team} (f : Team → Team) (ht : tfind s.teams tid = some t) :
    tfind (s.modTeam tid f).teams tid = some (f t) := by
  rw [tfind_modTeam, if_pos rfl, ht]
  rfl

/-- A change of a team changes no wave and no memory. -/
theorem sameWaves_modTeam (s : State) (tid : Nat) (f : Team → Team) : SameWaves s (s.modTeam tid f) := by
  unfold State.modTeam
  split <;> exact ⟨rfl, rfl, rfl, rfl, rfl⟩

theorem SameWaves.quiet {s t : State} (h : SameWaves s t) (q : Iss) : Quiet q s t :=
  ⟨h.sameMemory, fun k _ => by rw [h.1], h.sameRegs q.wid⟩

theorem quick_teams (s : State) (q : Iss) : (s.quick q).teams = s.teams := by
  unfold State.quick
  split
  · rfl
  · simp only [State.writeLater, State.modWave_teams]

/-- An instruction that changes its team, and then counts, writes nothing. -/
theorem completes_modTeam {s : State} {i : Instr} {h : Hints} {q : Iss} {body : Iss → State → Res} {f : Team → Team} (hi : Issues i h s q)
    (he : exec i s = runInstr i h body s) (hb : body q (s.issued i q) = .done (((s.issued i q).modTeam q.w.team f).quick q)) :
    Completes i s fun t => Wrote q (q.pc + 12) [] s t ∧ tfind t.teams q.w.team = some (f q.team) := by
  obtain ⟨-, -, -, -, -, -, hmask, -⟩ := sight_some hi.1
  have hsame := sameWaves_modTeam (s.issued i q) q.w.team f
  have hwave : tfind ((s.issued i q).modTeam q.w.team f).waves q.wid = some (issuedWave q) := by rw [hsame.1, wave_issued]
  obtain ⟨t, ht, hwrote⟩ := completes_moved hi he hb (hsame.quiet q) hwave (issuedWave_keeps q) rfl
    (congrArg Split.pc (issuedWave_own q)) ((congrArg Split.mask (issuedWave_own q)).trans hmask.symm) fun j hj => issuedWave_other hj
  obtain rfl : ((s.issued i q).modTeam q.w.team f).quick q = t := by
    have hrun := he.trans (runInstr_done hi hb)
    rw [ht] at hrun
    exact (Host.Outcome.next.inj hrun).symm
  exact ⟨_, ht, hwrote, by rw [quick_teams]; exact tfind_modTeam_some f (team_issued hi.1)⟩

/-! Writes of s registers in the issue clock (R92). -/

/-- Writes of s registers leave everything else of a wave. -/
theorem storeAll_sregs (w : Wave) {ws : List (Target × Nat)} (h : ∀ e ∈ ws, ∃ r, e.1 = .s r) : ∃ s, w.storeAll ws = { w with s := s } := by
  induction ws generalizing w with
  | nil => exact ⟨w.s, rfl⟩
  | cons e ws ih =>
    obtain ⟨⟨r, hr⟩, hs⟩ := List.forall_mem_cons.mp h
    obtain ⟨s, he⟩ := ih (w.store e.1 e.2) hs
    refine ⟨s, he.trans ?_⟩
    rw [hr]
    rfl

/-- Forgetting what is in flight for other targets leaves what is in flight for a target. -/
theorem pending_dropTargets_ne (w : Wave) {ts : List Target} {x : Target} (hx : x ∉ ts) :
    ({ w with pend := dropTargets ts w.pend } : Wave).pending x = w.pending x := by
  have h := pending_filter w.pend ts x hx fun _ => True
  simp only [if_true] at h
  exact h

/-- What an instruction that writes s registers at once makes of its wave. -/
theorem storeNow_sregs (w : Wave) {ws : List (Target × Nat)} (hs : ∀ e ∈ ws, ∃ r, e.1 = .s r ∧ e.2 < 2 ^ 32) (hn : (ws.map (·.1)).Nodup) :
    (∃ pend s, w.storeNow ws = { w with pend := pend, s := s }) ∧ (∀ e ∈ ws, (w.storeNow ws).newest e.1 = e.2)
      ∧ ∀ x, (∀ e ∈ ws, e.1 ≠ x) → (w.storeNow ws).newest x = w.newest x := by
  let v : Wave := { w with pend := dropTargets (ws.map (·.1)) w.pend }
  have hfits : ∀ e ∈ ws, e.1.fits e.2 := fun e he => by
    obtain ⟨r, hr, hlt⟩ := hs e he
    rw [hr]
    exact ⟨trivial, hlt⟩
  obtain ⟨s, hv⟩ := storeAll_sregs v fun e he => (hs e he).imp fun r hr => hr.1
  have hpend : ∀ x, (w.storeNow ws).pending x = v.pending x := fun x => by
    rw [show w.storeNow ws = v.storeAll ws from rfl, hv]
    rfl
  refine ⟨⟨_, s, hv⟩, fun e he => ?_, fun x hx => ?_⟩
  · rw [Wave.newest, hpend, pending_dropTargets w (List.mem_map.mpr ⟨e, he, rfl⟩)]
    exact storeAll_own v ws hfits hn he
  · have hnot : x ∉ ws.map (·.1) := fun hm => by
      obtain ⟨e, he, rfl⟩ := List.mem_map.mp hm
      exact hx e he rfl
    have hstored : (w.storeNow ws).stored x = w.stored x := by
      rw [show w.storeNow ws = v.storeAll ws from rfl]
      cases x with
      | s i => exact storeAll_other v ws (fun e he => (hfits e he).1) trivial hx
      | _ => rw [hv]; rfl
    rw [Wave.newest, hpend, pending_dropTargets_ne w hnot, hstored, Wave.newest]

theorem mem_sTargets {d : Opd} {ws : List Word} {e : Target × Nat} (he : e ∈ sTargets d ws) : ∃ r, e.1 = .s r ∧ e.2 < 2 ^ 32 := by
  cases d with
  | s r =>
    obtain ⟨k, -, rfl⟩ := List.mem_map.mp he
    exact ⟨_, rfl, BitVec.isLt _⟩
  | _ => cases he

theorem sTargets_nodup (d : Opd) (ws : List Word) : ((sTargets d ws).map (·.1)).Nodup := by
  cases d with
  | s r =>
    rw [sTargets, List.map_map]
    exact List.Nodup.map (fun j k h => Nat.add_left_cancel (Target.s.inj h)) List.nodup_range
  | _ => exact List.nodup_nil

/-- An instruction that writes s registers in its issue clock, and then counts, writes just those (R92, R192). -/
theorem completes_writeS {s : State} {i : Instr} {h : Hints} {q : Iss} {body : Iss → State → Res} {d : Opd} {ws : List Word}
    (hi : Issues i h s q) (he : exec i s = runInstr i h body s) (hb : body q (s.issued i q) = .done (((s.issued i q).writeS q d ws).quick q)) :
    Completes i s (Wrote q (q.pc + 12) (sTargets d ws) s) := by
  obtain ⟨hw, -, -, -, -, -, hmask, -, -, -, hcnt, -⟩ := sight_some hi.1
  let u := (s.issued i q).writeS q d ws
  obtain ⟨⟨pend, sr, hv⟩, hnew, hold⟩ := storeNow_sregs (issuedWave q) (fun e he => mem_sTargets he) (sTargets_nodup d ws)
  have hu : tfind u.waves q.wid = some ((issuedWave q).storeNow (sTargets d ws)) := tfind_modWave_some _ (wave_issued s i q)
  obtain ⟨pend', ht⟩ := tfind_quick hu
  obtain ⟨k, hk⟩ := raise_eq { (issuedWave q).storeNow (sTargets d ws) with pend := pend' } q.cnt
  obtain ⟨hmem, hother, hquick⟩ := quiet_quick q u
  have hnewest : ∀ x, (u.quick q).newest q.wid x = ((issuedWave q).storeNow (sTargets d ws)).newest x := fun x => by
    rw [hquick, State.newest, hu]
  refine ⟨u.quick q, he.trans (runInstr_done hi hb), ((quiet_issued hi.1).1.trans (sameMemory_modWave ..)).trans hmem, fun j hj => ?_,
    fun e he => (hnewest e.1).trans (hnew e he), fun x hx => ?_, _, ht, ?_, ?_, ?_, ?_, fun j => ?_⟩
  · rw [hother j hj, show tfind u.waves j = tfind (s.issued i q).waves j from tfind_modWave_ne _ _ hj, tfind_issued, if_neg hj]
  · rw [hnewest, hold x hx, issuedWave_newest, State.newest, hw]
  · rw [hk, hv]
    exact issuedWave_keeps q
  · rw [hk, hv]
    exact congrArg Split.pc (issuedWave_own q)
  · rw [hk, hv]
    exact (congrArg Split.mask (issuedWave_own q)).trans hmask.symm
  · rw [hk, hv]
    exact fun j hj => issuedWave_other hj
  · have hreg : ∀ j, ({ (issuedWave q).storeNow (sTargets d ws) with pend := pend' } : Wave).kreg j = q.w.kreg j := fun j => by rw [hv]; rfl
    rw [kreg_raise _ _ (hcnt ▸ countersOf_nodup _ _ (classOf_nodup i)) (fun j hj => (hreg j).trans_lt (issues_room hi j hj)), hreg]

/-! TDEF, TFREE, TSTAT. -/

theorem sTargets_eq_sWrites (d : Opd) (ws : List Word) : sTargets d ws = sWrites d (ws.map (·.toNat)) := by
  cases d <;> try rfl
  case s r =>
    simp only [sTargets, sWrites, List.length_map]
    refine List.map_congr_left fun k hk => ?_
    have hk := List.mem_range.mp hk
    rw [List.getD_eq_getElem _ _ hk, List.getD_eq_getElem _ _ (by simpa using hk), List.getElem_map]

theorem quadWords_toNat (x : BitVec 128) : (quadWords x).map (·.toNat) = (List.range 4).map fun k => x.toNat / 2 ^ (32 * k) % 2 ^ 32 := by
  rw [quadWords, List.map_map]
  refine List.map_congr_left fun k _ => ?_
  rw [Function.comp_apply, BitVec.extractLsb'_toNat, Nat.shiftRight_eq_div_pow]

/-- The three words of TDEF's operand. -/
def tdefWord (q : Iss) (a : Opd) (k : Nat) : Nat := match a with | .s i => (q.sreg (i.toNat + k)).toNat | _ => 0

theorem tdefWord_lt (q : Iss) (a : Opd) (k : Nat) : tdefWord q a k < 2 ^ 32 := by
  unfold tdefWord
  split
  · exact BitVec.isLt _
  · decide

section
variable {q : Iss} {s : State} {d : BitVec 8} {a : Opd} {rows rowBytes pitch level base : Nat}
  (hrows : tdefWord q a 0 % 65536 = rows) (hrowBytes : tdefWord q a 0 / 65536 = rowBytes) (hpitch : tdefWord q a 1 % 65536 = pitch)
  (hlevel : tdefWord q a 1 / 65536 % 4 = level) (hbase : tdefWord q a 2 = base) (hhigh : tdefWord q a 1 < 2 ^ 18)
  (hok : geomOk rows rowBytes pitch level base = true) (hend : rows ≠ 0 → geomEnd rows rowBytes pitch base ≤ q.grid.spSize level)
include hrows hrowBytes hpitch hlevel hbase hhigh hok hend

/-- TDEF with a geometry that R120 accepts, within the grid's allocation, makes the tile's entry from it (R284). -/
theorem tdefBody_eq : tdefBody (.t d) a q s = .done ((s.modTeam q.w.team fun t => t.modTile d.toNat fun e =>
    mkEntry rows rowBytes pitch level base (tileFault e)).quick q) := by
  unfold tdefBody
  extract_lets r rows' rowBytes' pitch' level' base'
  have hr : r = tdefWord q a := by funext k; cases a <;> rfl
  have h0 : rows' = rows ∧ rowBytes' = rowBytes := by simp only [rows', rowBytes', hr]; exact ⟨hrows, hrowBytes⟩
  have h1 : pitch' = pitch ∧ level' = level := by simp only [pitch', level', hr]; exact ⟨hpitch, hlevel⟩
  have h2 : base' = base := by simp only [base', hr]; exact hbase
  have hgood : ¬ (r 1 / 2 ^ 18 ≠ 0 ∨ (!geomOk rows' rowBytes' pitch' level' base') = true) := by
    rw [h0.1, h0.2, h1.1, h1.2, h2, hok, hr, Nat.div_eq_of_lt hhigh]
    decide
  have hfits : ¬ (rows' ≠ 0 ∧ geomEnd rows' rowBytes' pitch' base' > q.grid.spSize level') := by
    rw [h0.1, h0.2, h1.1, h1.2, h2]
    exact fun h => Nat.not_lt.mpr (hend h.1) h.2
  rw [if_neg hgood, if_neg hfits, h0.1, h0.2, h1.1, h1.2, h2]
  rfl

/-- What TDEF leaves in the table (R123). -/
theorem completes_tdef {h : Hints} (hi : Issues (.tdef h (.t d) a) h s q) : Completes (.tdef h (.t d) a) s fun t =>
    Wrote q (q.pc + 12) [] s t ∧ ∃ x, tfind t.teams q.w.team = some x ∧ HoldsGeom (x.tile d.toNat) rows rowBytes pitch level base
      ∧ tileFault (x.tile d.toNat) = tileFault (q.team.tile d.toNat) ∧ ∀ k, k ≠ d.toNat → x.tile k = q.team.tile k := by
  obtain ⟨e, he⟩ : ∃ e, tfind q.team.tiles d.toNat = some e := declared_of_tileVerdict (tilesVerdict_of_issues hi)
  have hword0 := tdefWord_lt q a 0
  have htile := tile_modTile he fun e => mkEntry rows rowBytes pitch level base (tileFault e)
  have hown := (htile d.toNat).trans (if_pos rfl)
  refine (completes_modTeam hi rfl (tdefBody_eq hrows hrowBytes hpitch hlevel hbase hhigh hok hend)).imp fun t ht => ⟨ht.1, _, ht.2, ?_, ?_, ?_⟩
  · rw [hown]
    exact holdsGeom_mkEntry _ hok (by omega) (by omega) (hbase ▸ tdefWord_lt q a 2)
  · rw [hown, tileFault_mkEntry]
  · exact fun k hk => (htile k).trans (if_neg hk)

end

/-- What TFREE leaves of a tile's entry (R123). -/
theorem freed_entry (e : BitVec 128) : let f := setTileState (e &&& ~~~((1 : BitVec 128) <<< 123)) 0
    tileDefined f = false ∧ tileState f = 0 ∧ tileFault f = tileFault e := by
  refine ⟨?_, tileState_setTileState _ (by decide), ?_⟩
  · rw [tileDefined_setTileState, tileDefined, getLsbD_undefine e (by decide)]
    exact Bool.and_false _
  · rw [tileFault_setTileState, tileFault, getLsbD_undefine e (by decide)]
    exact Bool.and_true _

/-- Settles O31: TDEF and TFREE change the entry of their tile, and TSTAT reads one. -/
theorem tileTable : Obligations.TileTable := by
  unfold Obligations.TileTable
  refine ⟨?_, ?_, ?_⟩
  · intro s q h d a hi r rows rowBytes pitch level hhigh hok hend
    have hr : r = tdefWord q a := by funext k; cases a <;> rfl
    have hword : ∀ k, tdefWord q a k = r k := fun k => congrFun hr.symm k
    refine (completes_tdef (congrArg (· % 65536) (hword 0)) (congrArg (· / 65536) (hword 0)) (congrArg (· % 65536) (hword 1))
      (congrArg (· / 65536 % 4) (hword 1)) (hword 2) (hr ▸ hhigh) hok hend hi).imp ?_
    rintro t ⟨hwrote, x, hx, hgeom, hfault, hother⟩
    exact ⟨hwrote, x, hx, hgeom.defined_iff, hgeom.state_eq, hgeom.rows_eq, hgeom.rowBytes_eq, hgeom.level_eq, hgeom.pitch_eq, hgeom.base_eq,
      hfault, hother⟩
  · intro s q h d hi hdef
    obtain ⟨e, he⟩ : ∃ e, tfind q.team.tiles d.toNat = some e := declared_of_tileVerdict (tilesVerdict_of_issues hi)
    have htile := tile_modTile he fun e => if tileDefined e then setTileState (e &&& ~~~((1 : BitVec 128) <<< 123)) 0 else e
    have hown := (htile d.toNat).trans (if_pos rfl)
    obtain ⟨hundefined, hstate, hfault⟩ := freed_entry (q.team.tile d.toNat)
    refine (completes_modTeam (body := tfreeBody (.t d)) hi rfl rfl).imp fun t ht => ⟨ht.1, _, ht.2, ?_⟩
    rw [hdef, if_pos rfl] at hown
    rw [opdIdx, show (Opd.t d).idx = d from rfl, hown]
    exact ⟨hundefined, hstate, hfault, fun k hk => (htile k).trans (if_neg hk)⟩
  · intro s q h d a hi
    rw [← quadWords_toNat, ← sTargets_eq_sWrites]
    exact completes_writeS (body := fun q s => .done ((s.writeS q d (quadWords (q.team.tile (opdIdx a)))).quick q)) hi rfl rfl

end Sys2Proof.Machine
end

section
/-! PROOFS. COPY and TMOV at issue (R123, R127, R280, R283): the command that stands with the team, its release, and the tiles that change
state. -/

namespace Sys2Proof.Machine

/- One proof at a time: many at once cost a thread, and its stack, each. -/
set_option Elab.async false

/-! Tiles that a copy or a move fills or empties (R123). -/

theorem tfind_modTile (t : Team) (id : Nat) (f : BitVec 128 → BitVec 128) (k : Nat) :
    tfind (t.modTile id f).tiles k = if k = id then (tfind t.tiles id).map f else tfind t.tiles k := by
  unfold Team.modTile
  split
  · next e he => rw [tfind_tput, he]; rfl
  · next he =>
    split
    · next hk => rw [hk, he]; rfl
    · rfl

theorem tileState_startFill (e : BitVec 128) : tileState (startFill e) = 1 := tileState_setTileState _ (by decide)

theorem tileState_startDrain (e : BitVec 128) : tileState (startDrain e) = 3 := tileState_setTileState _ (by decide)

/-- The tile that a COPY fills, or, with `true`, empties (R280). -/
def copyTile (d a : Opd) : Option (Nat × Bool) :=
  if isTOpd d then some (opdIdx d, false) else if isTOpd a then some (opdIdx a, true) else none

/-- A team whose copy has begun on a tile. -/
def Team.starts (t : Team) : Option (Nat × Bool) → Team
  | some (i, true) => t.modTile i startDrain
  | some (i, false) => t.modTile i Sys2Proof.Machine.startFill
  | none => t

theorem starts_eq (t : Team) (tile : Option (Nat × Bool)) : ∃ tiles, t.starts tile = { t with tiles := tiles } := by
  unfold Team.starts
  split
  · exact modTile_eq ..
  · exact modTile_eq ..
  · exact ⟨t.tiles, rfl⟩

theorem tileState_starts {t : Team} {k : Nat} {src : Bool} {e : BitVec 128} (h : tfind t.tiles k = some e) :
    tileState ((t.starts (some (k, src))).tile k) = if src then 3 else 1 := by
  cases src
  · exact (congrArg tileState ((tile_modTile h _ k).trans (if_pos rfl))).trans (tileState_startFill _)
  · exact (congrArg tileState ((tile_modTile h _ k).trans (if_pos rfl))).trans (tileState_startDrain _)

/-- The tile of a COPY that issues is declared (R124). -/
theorem copyTile_declared {s : State} {q : Iss} {h : Hints} {dsp ssp : Space} {d a b c : Opd} (hi : Issues (.copy h dsp ssp d a b c) h s q)
    {x : Nat × Bool} (hx : copyTile d a = some x) : ∃ e, tfind q.team.tiles x.1 = some e := by
  have hv := tilesVerdict_of_issues hi
  simp only [tilesVerdict] at hv
  unfold copyTile at hx
  split at hx
  · next hd =>
    cases hx
    rw [if_pos hd] at hv
    exact declared_of_tileVerdict hv
  · next hd =>
    split at hx
    · next ha =>
      cases hx
      rw [if_neg hd, if_pos ha] at hv
      exact declared_of_tileVerdict hv
    · cases hx

/-! The barrier that operand C names (R285). -/

/-- Operand C names no barrier, or one that stands. -/
def NamesBar (q : Iss) (c : Opd) (bar : Option Nat) : Prop :=
  (∃ k, c = .none k) ∧ bar = none ∨ (∃ k p, c = .s k ∧ txName q.grid q.team (q.uni c) = .ok p) ∧ bar = some (txField (q.uni c))

/-! COPY. -/

/-- A COPY of the instruction as it stands with the team. -/
def copyPending (q : Iss) (id : Nat) (cmd : BitVec 256) : Pending := ⟨id, none, false, q.team.order, cmd, none, q.wid, q.seq, q.cnt⟩

/-- A team to which a COPY has been issued. -/
def Team.copying (t : Team) (tile : Option (Nat × Bool)) (p : Pending) : Team :=
  { t.starts tile with order := (t.starts tile).order + 1, issued := (t.starts tile).issued ++ [p] }

theorem copying_issued (t : Team) (tile : Option (Nat × Bool)) (p : Pending) : (t.copying tile p).issued = t.issued ++ [p] := by
  obtain ⟨_, h⟩ := starts_eq t tile
  rw [Team.copying, h]

/-- COPY past its checks leaves its command with its team, and a release at device scope (R280). -/
theorem copyBody_eq {dsp ssp : Space} {d a b c : Opd} {q : Iss} {s : State} {bar : Option Nat} (hbar : NamesBar q c bar)
    (hlen : ∀ x, copyTile d a = some x → tileBytes (q.team.tile x.1) = (q.uni b).toNat / 32 * 32)
    (hd : isTOpd d = false → s.copyEnd q.team.grid q.grid q.team (spaceCode dsp) (q.copyAddr d) ((q.uni b).toNat / 32 * 32) = none)
    (ha : isTOpd a = false → s.copyEnd q.team.grid q.grid q.team (spaceCode ssp) (q.copyAddr a) ((q.uni b).toNat / 32 * 32) = none)
    (hring : q.team.ringHeld < 63) :
    copyBody dsp ssp d a b c q s = .done ((({ s with nextId := s.nextId + 1 } : State).modTeam q.w.team fun t =>
      t.copying (copyTile d a) (copyPending q s.nextId (copyCmd (spaceCode dsp) (spaceCode ssp) (copyTile d a) bar
        ((q.uni b).toNat / 32 * 32) (q.copyAddr d) (q.copyAddr a)))).released q .dev (.copy s.nextId)) := by
  unfold copyBody
  extract_lets team len tile endOf bar' id s1
  have htile : tile = copyTile d a := rfl
  have hdst : endOf d dsp = none := by
    simp only [endOf]
    split
    · rfl
    · next h => exact hd (by simpa using h)
  have hsrc : endOf a ssp = none := by
    simp only [endOf]
    split
    · rfl
    · next h => exact ha (by simpa using h)
  have hnamed : bar' = .ok bar := by
    rcases hbar with ⟨⟨k, rfl⟩, rfl⟩ | ⟨⟨k, x, rfl, hx⟩, rfl⟩
    · rfl
    · simp only [bar', hx, team]
  have hroom : ¬ team.ringHeld ≥ 63 := Nat.not_le.mpr hring
  clear_value tile
  subst htile
  simp only [hdst, hsrc, hnamed]
  generalize copyTile d a = x at hlen ⊢
  cases x with
  | none => exact (if_neg Bool.false_ne_true).trans (if_neg hroom)
  | some x =>
    obtain ⟨i, src⟩ := x
    refine (if_neg fun h => bne_iff_ne.mp h (hlen _ rfl)).trans ((if_neg hroom).trans ?_)
    cases src <;> rfl

theorem released_teams (s : State) (q : Iss) (scope : Scope) (cont : Cont) : (s.released q scope cont).teams = s.teams := by
  simp only [State.released, State.addRel, State.raiseCnt]
  split <;> simp only [State.modWave_teams]

/-! TMOV. -/

/-- A TMOV of the instruction as it stands with the team. -/
def movePending (q : Iss) (id src dst : Nat) (cmd : BitVec 256) : Pending :=
  ⟨id, none, true, q.team.order, cmd, some (src, dst), q.wid, q.seq, q.cnt⟩

/-- A team to which a TMOV has been issued. -/
def Team.moving (t : Team) (src dst : Nat) (p : Pending) : Team :=
  let u := (t.modTile dst Sys2Proof.Machine.startFill).modTile src startDrain
  { u with order := u.order + 1, tmq := u.tmq ++ [p] }

theorem moving_tmq (t : Team) (src dst : Nat) (p : Pending) : (t.moving src dst p).tmq = t.tmq ++ [p] := by
  obtain ⟨_, h⟩ := modTile_eq t dst Sys2Proof.Machine.startFill
  obtain ⟨_, h'⟩ := modTile_eq (t.modTile dst Sys2Proof.Machine.startFill) src startDrain
  rw [Team.moving, h', h]

/-- The two tiles of a move, FILLING and DRAINING (R123). -/
theorem tileState_moving {t : Team} {src dst : Nat} (p : Pending) {e f : BitVec 128} (hne : dst ≠ src) (hdst : tfind t.tiles dst = some e)
    (hsrc : tfind t.tiles src = some f) :
    tileState ((t.moving src dst p).tile dst) = 1 ∧ tileState ((t.moving src dst p).tile src) = 3 := by
  have hf : tfind (t.modTile dst Sys2Proof.Machine.startFill).tiles src = some f := by rw [tfind_modTile, if_neg hne.symm, hsrc]
  have htile := tile_modTile hf startDrain
  refine ⟨(congrArg tileState ((htile dst).trans (if_neg hne))).trans ?_, ?_⟩
  · exact (congrArg tileState ((tile_modTile hdst _ dst).trans (if_pos rfl))).trans (tileState_startFill _)
  · exact (congrArg tileState ((htile src).trans (if_pos rfl))).trans (tileState_startDrain _)

/-- TMOV past its checks leaves its move with its team (R283). -/
theorem tmovBody_eq {d a : BitVec 8} {c : Opd} {q : Iss} {s : State} {bar : Option Nat} (hbar : NamesBar q c bar)
    (hlen : tileBytes (q.team.tile d.toNat) = tileBytes (q.team.tile a.toNat)) (hroom : q.team.tmq.length < 8) :
    tmovBody (.t d) (.t a) c q s = .done ((({ s with nextId := s.nextId + 1 } : State).modTeam q.w.team fun t => t.moving a.toNat d.toNat
      (movePending q s.nextId a.toNat d.toNat (copyCmd 0 0 none bar (tileBytes (q.team.tile a.toNat)) 0 0))).raiseCnt q q.cnt) := by
  unfold tmovBody
  extract_lets team i j bar'
  have hnamed : bar' = .ok bar := by
    rcases hbar with ⟨⟨k, rfl⟩, rfl⟩ | ⟨⟨k, x, rfl, hx⟩, rfl⟩
    · rfl
    · simp only [bar', hx, team]
  simp only [hnamed]
  exact (if_neg (not_not_intro hlen)).trans (if_neg (Nat.not_le.mpr hroom))

/-- The tiles of a TMOV that issues are declared (R124). -/
theorem tmovTiles_declared {s : State} {q : Iss} {h : Hints} {d a : BitVec 8} {c : Opd} (hi : Issues (.tmov h (.t d) (.t a) c) h s q) :
    (∃ e, tfind q.team.tiles d.toNat = some e) ∧ ∃ e, tfind q.team.tiles a.toNat = some e := by
  have hv := tilesVerdict_of_issues hi
  simp only [tilesVerdict] at hv
  split at hv
  · next hd => exact ⟨declared_of_tileVerdict hd, declared_of_tileVerdict hv⟩
  · next hd => exact absurd hv hd

/-- Settles O30: a COPY leaves its command and a release at device scope, a TMOV its move, and their tiles change state. -/
theorem copiesAreIssued : Obligations.CopiesAreIssued := by
  unfold Obligations.CopiesAreIssued
  intro named
  refine ⟨?_, ?_⟩
  · intro s q h dsp ssp d a b c bar hi hbar i u len tile hlen hd ha hring
    have hteam : tfind ({ u with nextId := u.nextId + 1 } : State).teams q.w.team = some q.team := team_issued hi.1
    let p := copyPending q u.nextId
      (copyCmd (spaceCode dsp) (spaceCode ssp) (copyTile d a) bar len (q.copyAddr d) (q.copyAddr a))
    let m := ({ u with nextId := u.nextId + 1 } : State).modTeam q.w.team fun t => t.copying (copyTile d a) p
    have hsame : SameWaves u m := sameWaves_modTeam ({ u with nextId := u.nextId + 1 } : State) q.w.team _
    obtain ⟨hwaves, hphys, hcore, hclu, hdie⟩ := hsame
    obtain ⟨hphys', hcore', hclu', hdie'⟩ := issued_memory s i q
    refine ⟨m.released q .dev (.copy u.nextId), runInstr_done hi (copyBody_eq hbar hlen hd ha hring), ?_, q.team.copying (copyTile d a) p, p, ?_,
      copying_issued .., rfl, rfl, rfl, rfl, ?_, ?_, ?_⟩
    · exact quiet_released hi hwaves ⟨hphys.trans hphys', hcore.trans hcore', hclu.trans hclu', hdie.trans hdie'⟩ (by decide) _
    · rw [released_teams]
      exact tfind_modTeam_some _ hteam
    · exact releasing_released (by decide) (v := issuedWave q) (by rw [hwaves, wave_issued])
    · intro k hk
      obtain ⟨e, he⟩ := copyTile_declared hi hk
      exact (congrArg (fun x => tileState ((q.team.starts x).tile k)) (show copyTile d a = some (k, false) from hk)).trans (tileState_starts he)
    · intro k hk
      obtain ⟨e, he⟩ := copyTile_declared hi hk
      exact (congrArg (fun x => tileState ((q.team.starts x).tile k)) (show copyTile d a = some (k, true) from hk)).trans (tileState_starts he)
  · intro s q h d a c bar hi hbar hne hlen hroom
    obtain ⟨⟨e, hd⟩, f, ha⟩ := tmovTiles_declared hi
    have hne : d.toNat ≠ a.toNat := fun h => hne (BitVec.eq_of_toNat_eq h)
    let u := s.issued (.tmov h (.t d) (.t a) c) q
    let p := movePending q u.nextId a.toNat d.toNat (copyCmd 0 0 none bar (tileBytes (q.team.tile a.toNat)) 0 0)
    let m := ({ u with nextId := u.nextId + 1 } : State).modTeam q.w.team fun t => t.moving a.toNat d.toNat p
    have hsame : SameWaves u m := sameWaves_modTeam ({ u with nextId := u.nextId + 1 } : State) q.w.team _
    obtain ⟨hfill, hdrain⟩ := tileState_moving p hne hd ha
    refine ⟨m.raiseCnt q q.cnt, runInstr_done hi (tmovBody_eq hbar hlen hroom), ?_, q.team.moving a.toNat d.toNat p, p, ?_, moving_tmq .., rfl, rfl,
      rfl, hfill, hdrain⟩
    · exact ((quiet_issued hi.1).trans (hsame.quiet q)).trans (quiet_modWave q m fun w => raise_newest w q.cnt)
    · rw [State.raiseCnt, State.modWave_teams]
      exact tfind_modTeam_some _ (team_issued hi.1)

end Sys2Proof.Machine
end

section
/-! PROOFS. Power and gating of a cluster (R132, R334 to R339): the islands and the cadences at a window's end, the cores of a cluster that
loses its power, the scratchpads of one that wakes. -/

namespace Sys2Proof.Machine

/- One proof at a time: many at once cost a thread, and its stack, each. -/
set_option Elab.async false

/-- A table each of whose first entries is set from what it held. -/
theorem tget_updateRange {α : Type} [DecidableEq α] (d : α) (f : Nat → α → α) (m : Tab α) (n k : Nat) :
    tget d ((List.range n).foldl (fun t i => tset d t i (f i (tget d t i))) m) k = if k < n then f k (tget d m k) else tget d m k := by
  induction n with
  | zero => rfl
  | succ n ih =>
    rw [List.range_succ, List.foldl_append, List.foldl_cons, List.foldl_nil, tget_tset]
    by_cases hk : k = n
    · subst hk
      rw [if_pos rfl, if_pos (Nat.lt_succ_self k), ih, if_neg (Nat.lt_irrefl k)]
    · simp only [if_neg hk, ih, show k < n + 1 ↔ k < n by omega]

/-! Islands and cadences. -/

theorem Cluster.isl_setIsl (k : Cluster) (i : Nat) (x : Island) (j : Nat) : (k.setIsl i x).isl j = if j = i then x else k.isl j :=
  tget_tset ..

/-- The islands of a cluster at the end of a window (R335). -/
def Cluster.endIslands (k : Cluster) (n : Nat) : Cluster :=
  (List.range n).foldl (fun (k : Cluster) i => k.setIsl i ((k.isl i).endWindow k.clk)) k

theorem endIslands_eq (k : Cluster) (n : Nat) : k.endIslands n =
    { k with islands := (List.range n).foldl (fun t i => tset Island.init t i ((tget Island.init t i).endWindow k.clk)) k.islands } := by
  induction n with
  | zero => rfl
  | succ n ih =>
    rw [Cluster.endIslands, List.range_succ, List.foldl_append, ← Cluster.endIslands, ih, List.foldl_append]
    rfl

theorem isl_endIslands (k : Cluster) {n i : Nat} (hi : i < n) : (k.endIslands n).isl i = (k.isl i).endWindow k.clk := by
  rw [endIslands_eq]
  exact (tget_updateRange Island.init (fun _ x => x.endWindow k.clk) k.islands n i).trans (if_pos hi)

theorem count_endWindow (x : Island) (clk : Nat) : (x.endWindow clk).count = 0 := by
  unfold Island.endWindow
  extract_lets r hi y
  split_ifs <;> rfl

/-- The mode of an island after a window (R335): NEAR below NTLO, RISING at or above both thresholds. -/
theorem mode_endWindow (x : Island) (clk : Nat) : (x.endWindow clk).mode =
    if x.mode = 0 ∧ x.nten = true ∧ x.load < x.ntlo.toNat then 1
    else if x.mode = 1 ∧ x.ntlo.toNat ≤ x.load ∧ x.nthi.toNat ≤ x.load then 2 else x.mode := by
  unfold Island.endWindow
  extract_lets r hi y
  have hmax : r ≥ hi ↔ x.ntlo.toNat ≤ x.load ∧ x.nthi.toNat ≤ x.load := (max_le_iff).trans and_comm
  simp only [hmax]
  split_ifs <;> rfl

/-- A cadence is a five-bit number. -/
theorem nextCadence_lt {watts lim c : Nat} {ran : Bool} (hc : c < 32) : nextCadence watts lim ran c < 32 := by
  unfold nextCadence
  split_ifs <;> omega

/-- The cadences of a cluster at the end of a window (R336). -/
def Cluster.endCadences (k : Cluster) (cluster watts : Nat) : Tab (BitVec 5) :=
  (List.range 8).foldl (fun (t : Tab (BitVec 5)) p =>
    tset 0 t p (BitVec.ofNat 5 (nextCadence watts k.lim.toNat (k.ran.contains (8 * cluster + p)) (tget (0 : BitVec 5) k.mxcad p).toNat))) k.mxcad

theorem tget_setRange {α : Type} [DecidableEq α] (d : α) (f : Nat → α) (m : Tab α) {n k : Nat} (hk : k < n) :
    tget d ((List.range n).foldl (fun t i => tset d t i (f i)) m) k = f k :=
  (tget_updateRange d (fun i _ => f i) m n k).trans (if_pos hk)

theorem tget_endCadences (k : Cluster) (c watts : Nat) {p : Nat} (hp : p < 8) : (tget (0 : BitVec 5) (k.endCadences c watts) p).toNat =
    nextCadence watts k.lim.toNat (k.ran.contains (8 * c + p)) (tget (0 : BitVec 5) k.mxcad p).toNat := by
  rw [Cluster.endCadences, tget_setRange (0 : BitVec 5) (fun p => BitVec.ofNat 5 (nextCadence watts k.lim.toNat (k.ran.contains (8 * c + p))
    (tget (0 : BitVec 5) k.mxcad p).toNat)) k.mxcad hp, BitVec.toNat_ofNat]
  exact Nat.mod_eq_of_lt (nextCadence_lt (tget (0 : BitVec 5) k.mxcad p).isLt)

/-- A powered cluster at the end of a window (R334 to R336). -/
def Cluster.endWindow (k : Cluster) (cluster watts : Nat) : Cluster :=
  { k.endIslands 4 with pwrW := BitVec.ofNat 12 (watts % 4096), mxcad := k.endCadences cluster (watts % 4096), ran := [] }

theorem exec_powerWindowEnd (c watts : Nat) (s : State) : exec (.powerWindowEnd c watts) s =
    .next (s.modCluster c fun k => if k.pwr = .gated then { k with pwrW := 0 } else k.endWindow c watts) := rfl

/-! Gating and waking. -/

/-- A core that has lost its power (R132). -/
def State.gateCore (s : State) (core : Nat) : State := (s.returnPools core).modCore core fun x => { x with tlb := [], mx := Mx.init }

/-- The first cores of a cluster that has lost its power. -/
def State.gateCores (s : State) (c n : Nat) : State := (List.range n).foldl (fun (s : State) p => s.gateCore (8 * c + p)) s

/-- What the power of a core holds is lost: its pools, its TLB and its engine. -/
def Core.dark (x : Core) : Prop := x.pools = [] ∧ x.tlb = [] ∧ x.mx = Mx.init

theorem core_gateCore_ne (s : State) {core j : Nat} (h : j ≠ core) : (s.gateCore core).core j = s.core j := by
  rw [State.gateCore, State.core_modCore, if_neg h, State.returnPools, State.core_modCore, if_neg h]
  rfl

theorem dark_gateCore (s : State) (core : Nat) : ((s.gateCore core).core core).dark := by
  rw [State.gateCore, State.core_modCore, if_pos rfl, State.returnPools, State.core_modCore, if_pos rfl]
  exact ⟨rfl, rfl, rfl⟩

/-- The cores of a cluster that loses its power go dark; its waves, memory and clusters stay. -/
theorem gateCores_spec (s : State) (c n : Nat) : SameWaves s (s.gateCores c n) ∧ (s.gateCores c n).clusters = s.clusters
    ∧ ∀ p, p < n → ((s.gateCores c n).core (8 * c + p)).dark := by
  induction n with
  | zero => exact ⟨SameWaves.rfl' s, rfl, fun _ h => absurd h (Nat.not_lt_zero _)⟩
  | succ n ih =>
    obtain ⟨hsame, hclu, hdark⟩ := ih
    rw [State.gateCores, List.range_succ, List.foldl_append, ← State.gateCores]
    refine ⟨hsame.trans ⟨rfl, rfl, rfl, rfl, rfl⟩, hclu, fun p hp => ?_⟩
    by_cases h : p = n
    · subst h
      exact dark_gateCore ..
    · exact (congrArg Core.dark (core_gateCore_ne (s.gateCores c n) (j := 8 * c + p) (core := 8 * c + n) (by omega))).mpr (hdark p (by omega))

/-- A cluster that has lost its power (R132). -/
def Cluster.dark (k : Cluster) : Cluster :=
  { k with pwr := if k.wanted.isEmpty then .gated else .waking, wakeAt := if k.wanted.isEmpty then k.wakeAt else k.clk + 14000, tlb := [], ran := [],
           pwrW := 0, mxcad := [], islands := k.islands.map fun (e : Nat × Island) => (e.1, { e.2 with mode := 0, count := 0 }) }

theorem exec_clusterGated {s : State} {c : Nat} (hpwr : (s.cluster c).pwr = .closing) (hports : s.portsBusy c = false) :
    exec (.clusterGated c) s = .next ((s.gateCores c 8).modCluster c Cluster.dark) :=
  congrArg Host.Outcome.next (if_neg (not_or.mpr ⟨not_not_intro hpwr, ne_true_of_eq_false hports⟩))

/-- A byte of a unit's first `c` lies in the run of a unit exactly when the units are the same. -/
theorem run_iff {c u v off : Nat} (h : off < c) : (u * c + 0 ≤ v * c + off ∧ v * c + off < u * c + 0 + c) ↔ v = u := by
  refine ⟨fun ⟨hlo, hhi⟩ => ?_, fun hvu => hvu ▸ ⟨by omega, by omega⟩⟩
  have hle : u < v + 1 := Nat.lt_of_mul_lt_mul_right (a := c) (by rw [Nat.succ_mul]; omega)
  have hge : v < u + 1 := Nat.lt_of_mul_lt_mul_right (a := c) (by rw [Nat.succ_mul]; omega)
  omega

/-- Reading a table of units one of whose units is erased. -/
theorem tget_eraseUnit (m : Tab Byte) {c off : Nat} (u v : Nat) (h : off < c) :
    tget 0 (m.filter fun e => !(decide (u * c + 0 ≤ e.1 ∧ e.1 < u * c + 0 + c))) (v * c + off) = if v = u then 0 else tget 0 m (v * c + off) := by
  rw [tget_filter_key 0 m fun a => !(decide (u * c + 0 ≤ a ∧ a < u * c + 0 + c))]
  simp only [run_iff h, Bool.not_eq_true', decide_eq_false_iff_not, ite_not]

theorem spByte_spZero_core (s : State) (u v : Nat) {off : Nat} (h : off < coreBytes) :
    (s.spZero 0 u 0 coreBytes).spByte 0 v off = if v = u then 0 else s.spByte 0 v off := tget_eraseUnit s.spCore u v h

theorem spByte_spZero_cluster (s : State) (u v : Nat) {off : Nat} (h : off < cluBytes) :
    (s.spZero 1 u 0 cluBytes).spByte 1 v off = if v = u then 0 else s.spByte 1 v off := tget_eraseUnit s.spClu u v h

/-- The scratchpads of the first cores of a cluster are zeroed. -/
def State.zeroCores (s : State) (c n : Nat) : State := (List.range n).foldl (fun (s : State) p => s.spZero 0 (8 * c + p) 0 coreBytes) s

theorem zeroCores_eq (s : State) (c n : Nat) : ∃ m, s.zeroCores c n = { s with spCore := m } := by
  induction n with
  | zero => exact ⟨s.spCore, rfl⟩
  | succ n ih =>
    obtain ⟨m, hm⟩ := ih
    rw [State.zeroCores, List.range_succ, List.foldl_append, ← State.zeroCores, hm]
    exact ⟨_, rfl⟩

theorem spByte_zeroCores (s : State) (c n u : Nat) {off : Nat} (h : off < coreBytes) :
    (s.zeroCores c n).spByte 0 u off = if 8 * c ≤ u ∧ u < 8 * c + n then 0 else s.spByte 0 u off := by
  induction n with
  | zero => exact (if_neg (by omega)).symm
  | succ n ih =>
    rw [State.zeroCores, List.range_succ, List.foldl_append, ← State.zeroCores, List.foldl_cons, List.foldl_nil, spByte_spZero_core _ _ _ h, ih]
    by_cases hu : u = 8 * c + n
    · rw [if_pos hu, if_pos (by omega)]
    · simp only [if_neg hu, show 8 * c ≤ u ∧ u < 8 * c + (n + 1) ↔ 8 * c ≤ u ∧ u < 8 * c + n by omega]

/-- A cluster that has its power back, its scratchpads zero (R132, R339). -/
def State.wake (s : State) (c : Nat) : State :=
  let t := ((s.zeroCores c 8).spZero 1 c 0 cluBytes).modCluster c fun k => { k with pwr := .on, wanted := [], idleFrom := s.t7 }
  { t with fresh := t.fresh + 96 * 192 }

theorem exec_wakeComplete_eq (c : Nat) (s : State) : exec (.clusterWakeComplete c) s = execClusterWakeComplete c s := rfl

theorem exec_clusterWakeComplete {s : State} {c : Nat} (hpwr : (s.cluster c).pwr = .waking) (hat : (s.cluster c).wakeAt ≤ (s.cluster c).clk)
    (hwanted : (s.cluster c).wanted = []) : exec (.clusterWakeComplete c) s = .next (s.wake c) := by
  have ht7 : ((s.zeroCores c 8).spZero 1 c 0 cluBytes).t7 = s.t7 := by
    obtain ⟨m, hm⟩ := zeroCores_eq s c 8
    rw [hm]
    rfl
  have hrun : ¬ ((s.cluster c).pwr ≠ .waking ∨ (s.cluster c).clk < (s.cluster c).wakeAt) :=
    not_or.mpr ⟨not_not_intro hpwr, Nat.not_lt.mpr hat⟩
  rw [exec_wakeComplete_eq, execClusterWakeComplete]
  dsimp only
  rw [if_neg hrun, hwanted, List.foldl_nil, State.wake, ← ht7, State.zeroCores]

theorem spByte_modCluster (s : State) (k : Nat) (f : Cluster → Cluster) (l u o : Nat) : (s.modCluster k f).spByte l u o = s.spByte l u o := rfl

theorem spByte_fresh (s : State) (n l u o : Nat) : ({ s with fresh := n } : State).spByte l u o = s.spByte l u o := rfl

theorem cluster_fresh (s : State) (n k : Nat) : ({ s with fresh := n } : State).cluster k = s.cluster k := rfl

theorem spByte_core_spZero (s : State) (k off n u o : Nat) : (s.spZero 1 k off n).spByte 0 u o = s.spByte 0 u o := rfl

theorem spByte_cluster_spCore (s : State) (m : Tab Byte) (u o : Nat) : ({ s with spCore := m } : State).spByte 1 u o = s.spByte 1 u o := rfl

/-- Waking leaves the waves, memory and the other scratchpads as they are. -/
theorem wake_spec (s : State) (c : Nat) : (s.wake c).waves = s.waves ∧ (∀ pa, (s.wake c).phys.byte pa = s.phys.byte pa)
    ∧ ((s.wake c).cluster c).pwr = .on
    ∧ (∀ u off, off < coreBytes → (s.wake c).spByte 0 u off = if u / 8 = c then 0 else s.spByte 0 u off)
    ∧ ∀ u off, off < cluBytes → (s.wake c).spByte 1 u off = if u = c then 0 else s.spByte 1 u off := by
  obtain ⟨m, hm⟩ := zeroCores_eq s c 8
  refine ⟨?_, fun pa => ?_, ?_, fun u off h => ?_, fun u off h => ?_⟩
  · rw [State.wake, hm]; rfl
  · rw [State.wake, hm]; rfl
  · rw [State.wake, cluster_fresh, State.cluster_modCluster, if_pos rfl]
  · have hclu : 8 * c ≤ u ∧ u < 8 * c + 8 ↔ u / 8 = c := by omega
    rw [State.wake, spByte_fresh, spByte_modCluster, spByte_core_spZero, spByte_zeroCores s c 8 u h]
    simp only [hclu]
  · rw [State.wake, spByte_fresh, spByte_modCluster, spByte_spZero_cluster _ c u h, hm, spByte_cluster_spCore]

/-- An event that changes one cluster by a function, and nothing else. -/
theorem completes_modCluster {i : Instr} {s : State} {c : Nat} {f : Cluster → Cluster} (h : exec i s = .next (s.modCluster c f)) :
    Completes i s fun t => t.cluster c = f (s.cluster c) ∧ (∀ j, j ≠ c → t.cluster j = s.cluster j) ∧ t.waves = s.waves ∧ SameMemory s t
      ∧ t.cores = s.cores := by
  refine ⟨_, h, ?_, fun j hj => ?_, rfl, ⟨fun _ => rfl, fun _ _ _ => rfl⟩, rfl⟩
  · rw [State.cluster_modCluster, if_pos rfl]
  · rw [State.cluster_modCluster, if_neg hj]

/-- A gate request to a cluster that is ON (R132, R339). -/
theorem exec_clusterGateRequest {s : State} {c : Nat} (hon : (s.cluster c).pwr = .on) : exec (.clusterGateRequest c) s =
    .next (if s.clusterIdle c then s.modCluster c fun k => { k with pwr := .closing } else s.modCluster c fun k => { k with idleFrom := s.t7 }) :=
  congrArg Host.Outcome.next (if_neg (not_not_intro hon))

/-- A cluster after a droop has been seen (R337). -/
def Cluster.droop (k : Cluster) : Cluster :=
  let n := if k.droopcnt = BitVec.allOnes 32 then k.droopcnt else k.droopcnt + 1
  if k.stretch > 0 then { k with droopcnt := n } else { k with droopcnt := n, stretch := 6, halving := 0, half := false }

theorem exec_droopDetect (c : Nat) (s : State) : exec (.droopDetect c) s = .next (s.modCluster c Cluster.droop) := rfl

theorem droop_eq (k : Cluster) : let n := if k.droopcnt = BitVec.allOnes 32 then k.droopcnt else k.droopcnt + 1
    k.droop = if k.stretch = 0 then { k with droopcnt := n, stretch := 6, halving := 0, half := false } else { k with droopcnt := n } := by
  by_cases h : k.stretch = 0
  · exact (if_neg (by omega)).trans (if_pos h).symm
  · exact (if_pos (by omega)).trans (if_neg h).symm

theorem exec_droopStretchEnd (c : Nat) (s : State) : exec (.droopStretchEnd c) s =
    .next (s.modCluster c fun k => if k.stretch = 1 then { k with stretch := 0, halving := 64, half := false } else k) := rfl

theorem exec_droopHalvingEnd (c : Nat) (s : State) : exec (.droopHalvingEnd c) s =
    .next (s.modCluster c fun k => if k.halving = 1 then { k with halving := 0 } else k) := rfl

theorem isl_congr {k k' : Cluster} (h : k.islands = k'.islands) (i : Nat) : k.isl i = k'.isl i := by rw [Cluster.isl, h, Cluster.isl]

theorem isl_endWindow (k : Cluster) (c watts : Nat) {i : Nat} (hi : i < 4) : (k.endWindow c watts).isl i = (k.isl i).endWindow k.clk :=
  (isl_congr (k' := k.endIslands 4) (by rw [Cluster.endWindow]) i).trans (isl_endIslands k hi)

/-- The end of a power window of a powered cluster. -/
theorem completes_powerWindowEnd {s : State} {c watts : Nat} (hw : watts < 4096) (h : (s.cluster c).pwr ≠ .gated) :
    Completes (.powerWindowEnd c watts) s fun t => t.waves = s.waves ∧ SameMemory s t ∧ (t.cluster c).pwrW.toNat = watts
      ∧ (t.cluster c).ran = [] ∧ (∀ j, j ≠ c → t.cluster j = s.cluster j)
      ∧ (∀ i, i < 4 → (t.cluster c).isl i = ((s.cluster c).isl i).endWindow (s.cluster c).clk)
      ∧ ∀ p, p < 8 → (tget (0 : BitVec 5) (t.cluster c).mxcad p).toNat = nextCadence watts (s.cluster c).lim.toNat
          ((s.cluster c).ran.contains (8 * c + p)) (tget (0 : BitVec 5) (s.cluster c).mxcad p).toNat := by
  obtain ⟨t, ht, hk, hother, hwaves, hmem, -⟩ := completes_modCluster (exec_powerWindowEnd c watts s)
  refine ⟨t, ht, hwaves, hmem, ?_, ?_, hother, ?_⟩
  all_goals rw [hk, if_neg h]
  · show (BitVec.ofNat 12 (watts % 4096)).toNat = watts
    rw [BitVec.toNat_ofNat]
    omega
  · rfl
  · refine ⟨fun i hi => isl_endWindow (s.cluster c) c watts hi, fun p hp => ?_⟩
    rw [Cluster.endWindow, tget_endCadences (s.cluster c) c (watts % 4096) hp, Nat.mod_eq_of_lt hw]

/-- A change of one island of a cluster. -/
theorem completes_setIsl {ev : Instr} {s : State} {c i : Nat} {x : Island}
    (h : exec ev s = .next (s.modCluster c fun k => k.setIsl i x)) :
    Completes ev s fun t => t.waves = s.waves ∧ SameMemory s t ∧ (t.cluster c).isl i = x ∧ ∀ j, j ≠ i → (t.cluster c).isl j = (s.cluster c).isl j := by
  obtain ⟨t, ht, hk, -, hwaves, hmem, -⟩ := completes_modCluster h
  refine ⟨t, ht, hwaves, hmem, ?_, fun j hj => ?_⟩
  · rw [hk, Cluster.isl_setIsl, if_pos rfl]
  · rw [hk, Cluster.isl_setIsl, if_neg hj]

/-- A function of a cluster counts only at the cluster that it changes. -/
theorem modCluster_congr {s : State} {c : Nat} {f g : Cluster → Cluster} (h : f (s.cluster c) = g (s.cluster c)) : s.modCluster c f = s.modCluster c g :=
  congrArg (s.setCluster c) h

theorem exec_islandVoltageStable {s : State} {c i : Nat} (hmode : ((s.cluster c).isl i).mode = 2)
    (hrose : ((s.cluster c).isl i).rose + 1400 ≤ (s.cluster c).clk) :
    exec (.islandVoltageStable c i) s = .next (s.modCluster c fun k => k.setIsl i { (s.cluster c).isl i with mode := 0 }) :=
  congrArg Host.Outcome.next (modCluster_congr (if_pos ⟨hmode, hrose⟩))

/-- An island whose ISLCTL is written (R334, R335). -/
def Island.control (x : Island) (clk : Nat) (v : BitVec 32) : Island :=
  let y : Island := { x with ntlo := v.extractLsb' 24 8, nthi := v.extractLsb' 16 8, nten := v.getLsbD 15 }
  if !y.nten && x.mode == 1 then { y with mode := 2, rose := clk } else y

theorem exec_islctlWrite {s : State} {c i : Nat} (v : BitVec 32) (hc : c < 24) (hi : i < 4) :
    exec (.islctlWrite c i v) s = .next (s.modCluster c fun k => k.setIsl i (((s.cluster c).isl i).control (s.cluster c).clk v)) :=
  congrArg Host.Outcome.next (if_neg (by omega))

theorem control_spec (x : Island) (clk : Nat) (v : BitVec 32) : (x.control clk v).ntlo = v.extractLsb' 24 8
    ∧ (x.control clk v).nthi = v.extractLsb' 16 8 ∧ (x.control clk v).nten = v.getLsbD 15
    ∧ (x.control clk v).mode = if v.getLsbD 15 = false ∧ x.mode = 1 then 2 else x.mode := by
  have hcond : (!v.getLsbD 15 && x.mode == 1) = true ↔ v.getLsbD 15 = false ∧ x.mode = 1 := by
    rw [Bool.and_eq_true, Bool.not_eq_true', beq_iff_eq]
  rw [Island.control]
  dsimp only
  simp only [hcond]
  split_ifs <;> exact ⟨rfl, rfl, rfl, rfl⟩

theorem core_modCluster (s : State) (k : Nat) (f : Cluster → Cluster) (j : Nat) : (s.modCluster k f).core j = s.core j := rfl

theorem sameWaves_modCluster (s : State) (k : Nat) (f : Cluster → Cluster) : SameWaves s (s.modCluster k f) := ⟨rfl, rfl, rfl, rfl, rfl⟩

/-- A cluster whose power goes (R132). -/
theorem completes_clusterGated {s : State} {c : Nat} (hpwr : (s.cluster c).pwr = .closing) (hports : s.portsBusy c = false) :
    Completes (.clusterGated c) s fun t => t.waves = s.waves ∧ SameMemory s t ∧ t.cluster c = (s.cluster c).dark
      ∧ ∀ p, p < 8 → (t.core (8 * c + p)).dark := by
  obtain ⟨hsame, hclu, hdark⟩ := gateCores_spec s c 8
  have hsame : SameWaves s ((s.gateCores c 8).modCluster c Cluster.dark) := hsame.trans (sameWaves_modCluster ..)
  have hk : ((s.gateCores c 8).modCluster c Cluster.dark).cluster c = (s.cluster c).dark := by
    rw [State.cluster_modCluster, if_pos rfl, State.cluster, hclu, State.cluster]
  refine ⟨_, exec_clusterGated hpwr hports, hsame.1, hsame.sameMemory, hk, fun p hp => ?_⟩
  rw [core_modCluster]
  exact hdark p hp

/-- AUTO asks for the gate once the cluster has been idle long enough (R339). -/
theorem exec_clusterAutoGate {s : State} {c : Nat} (hon : (s.cluster c).pwr = .on) (hauto : (s.cluster c).auto = true)
    (hidle : (s.cluster c).idleFrom + 7000000 ≤ s.t7) (h : s.clusterIdle c = true) :
    exec (.clusterAutoGate c) s = .next (s.modCluster c fun k => { k with pwr := .closing }) :=
  congrArg Host.Outcome.next ((if_pos (by rw [hauto, decide_eq_true hidle]; rfl)).trans ((if_neg (not_not_intro hon)).trans (if_pos h)))

/-- Settles O54: each event of power and gating is one change of its cluster, and a wake zeroes the cluster's scratchpads. -/
theorem powerEvents : Obligations.PowerEvents := by
  unfold Obligations.PowerEvents
  intro s c k becomes count
  have event {i : Instr} {f : Cluster → Cluster} {x : Cluster} (h : exec i s = .next (s.modCluster c f)) (hx : f k = x) : becomes i x :=
    hx ▸ completes_modCluster h
  refine ⟨event (exec_droopDetect c s) (droop_eq k), fun h => event (exec_droopStretchEnd c s) (if_pos h),
    fun h => event (exec_droopHalvingEnd c s) (if_pos h), ?_, ?_, ?_, ?_, ?_, ?_, ?_, ?_, ?_⟩
  · refine fun watts hw => ⟨fun h => event (exec_powerWindowEnd c watts s) (if_pos h), fun h => ?_⟩
    obtain ⟨t, ht, hwaves, hmem, hwatts, hran, hother, hisl, hcad⟩ := completes_powerWindowEnd hw h
    refine ⟨t, ht, hwaves, hmem, hwatts, hran, hother, fun i hi => ?_, hcad⟩
    rw [hisl i hi]
    exact ⟨count_endWindow .., mode_endWindow ..⟩
  · exact fun i hmode hrose => completes_setIsl (exec_islandVoltageStable hmode hrose)
  · intro i v hc hi
    obtain ⟨t, ht, hwaves, hmem, hisl, hother⟩ := completes_setIsl (exec_islctlWrite (s := s) v hc hi)
    obtain ⟨hlo, hhi, hten, hmode⟩ := control_spec (k.isl i) k.clk v
    refine ⟨t, ht, hwaves, hmem, ?_⟩
    rw [hisl]
    exact ⟨hlo, hhi, hten, hmode, hother⟩
  · refine fun hon => ⟨fun h => event ((exec_clusterGateRequest hon).trans (congrArg _ (if_pos h))) rfl,
      fun h => event ((exec_clusterGateRequest hon).trans (congrArg _ (if_neg (ne_true_of_eq_false h)))) rfl,
      fun hauto hidle h => event (exec_clusterAutoGate hon hauto hidle h) rfl⟩
  · exact fun h => congrArg Host.Outcome.next (if_neg (by rw [show k.auto = false from h]; exact Bool.false_ne_true))
  · intro hpwr hports
    obtain ⟨t, ht, hwaves, hmem, hk, hdark⟩ := completes_clusterGated hpwr hports
    refine ⟨t, ht, hwaves, hmem, ?_⟩
    rw [hk]
    refine ⟨fun h => ?_, fun h => ?_, rfl, rfl, fun _ => rfl, hdark⟩
    · exact if_pos (List.isEmpty_iff.mpr h)
    · exact ⟨if_neg (mt List.isEmpty_iff.mp h), if_neg (mt List.isEmpty_iff.mp h)⟩
  · exact fun h => event (congrArg Host.Outcome.next (if_pos h)) rfl
  · exact fun h => congrArg Host.Outcome.next (if_neg h)
  · exact fun hpwr hat hwanted => ⟨_, exec_clusterWakeComplete hpwr hat hwanted, wake_spec s c⟩

end Sys2Proof.Machine
end

section
/-! PROOFS. The words of barriers (R135 to R137): their fields, what a write leaves at their place, and the two ways of an event. -/

namespace Sys2Proof.Machine

/- One proof at a time: many at once cost a thread, and its stack, each. -/
set_option Elab.async false

/-! Fields of a barrier word. -/

section
variable (ph : BitVec 4) (fault linked : Bool) (arr exp : Nat) (sec : Int) (link : BitVec 32)

/-- A barrier word as a number. -/
def txNat : Nat := ph.toNat * 2 ^ 124 + (if fault then 2 ^ 123 else 0) + (if linked then 2 ^ 122 else 0)
    + arr % 2 ^ 24 * 2 ^ 96 + exp % 2 ^ 24 * 2 ^ 72 + (BitVec.ofInt 36 sec).toNat * 2 ^ 36 + link.toNat

theorem toNat_txWord : (txWord ph fault linked arr exp sec link).toNat = txNat ph fault linked arr exp sec link := by
  have hph := ph.isLt
  have hsec := (BitVec.ofInt 36 sec).isLt
  have hlink := link.isLt
  refine (BitVec.toNat_ofNat ..).trans (Nat.mod_eq_of_lt ?_)
  show txNat ph fault linked arr exp sec link < 2 ^ 128
  unfold txNat
  split_ifs <;> omega

/-- A field of a barrier word, from the number that the word is. -/
theorem field_txWord (i j : Nat) : ((txWord ph fault linked arr exp sec link).extractLsb' i j).toNat
    = txNat ph fault linked arr exp sec link / 2 ^ i % 2 ^ j := by
  rw [BitVec.extractLsb'_toNat, Nat.shiftRight_eq_div_pow, toNat_txWord]

theorem txPhase_txWord : txPhase (txWord ph fault linked arr exp sec link) = ph := by
  have hph := ph.isLt
  have hsec := (BitVec.ofInt 36 sec).isLt
  have hlink := link.isLt
  refine BitVec.eq_of_toNat_eq ((field_txWord ..).trans ?_)
  unfold txNat
  split_ifs <;> omega

theorem txArr_txWord : txArr (txWord ph fault linked arr exp sec link) = arr % 2 ^ 24 := by
  have hsec := (BitVec.ofInt 36 sec).isLt
  have hlink := link.isLt
  refine (field_txWord ..).trans ?_
  unfold txNat
  split_ifs <;> omega

theorem txExp_txWord : txExp (txWord ph fault linked arr exp sec link) = exp % 2 ^ 24 := by
  have hsec := (BitVec.ofInt 36 sec).isLt
  have hlink := link.isLt
  refine (field_txWord ..).trans ?_
  unfold txNat
  split_ifs <;> omega

theorem txSec_txWord : txSec (txWord ph fault linked arr exp sec link) = (BitVec.ofInt 36 sec).toInt := by
  have hsec := (BitVec.ofInt 36 sec).isLt
  have hlink := link.isLt
  refine congrArg BitVec.toInt (BitVec.eq_of_toNat_eq ((field_txWord ..).trans ?_))
  unfold txNat
  split_ifs <;> omega

/-- A bit of a barrier word, from the number that the word is. -/
theorem bit_txWord (i : Nat) : (txWord ph fault linked arr exp sec link).getLsbD i = decide (txNat ph fault linked arr exp sec link / 2 ^ i % 2 = 1) := by
  rw [BitVec.getLsbD, toNat_txWord, Nat.testBit_eq_decide_div_mod_eq]

theorem txFault_txWord : txFault (txWord ph fault linked arr exp sec link) = fault := by
  have hsec := (BitVec.ofInt 36 sec).isLt
  have hlink := link.isLt
  rw [txFault, bit_txWord]
  unfold txNat
  cases fault <;> cases linked <;> simp only [decide_eq_true_eq, decide_eq_false_iff_not, if_true, if_false, Bool.false_eq_true] <;> omega

theorem txLinked_txWord : txLinked (txWord ph fault linked arr exp sec link) = linked := by
  have hsec := (BitVec.ofInt 36 sec).isLt
  have hlink := link.isLt
  rw [txLinked, bit_txWord]
  unfold txNat
  cases fault <;> cases linked <;> simp only [decide_eq_true_eq, decide_eq_false_iff_not, if_true, if_false, Bool.false_eq_true] <;> omega

end

theorem txArr_mod (x : BitVec 128) (c : Nat) : (txArr x - c) % 2 ^ 24 = txArr x - c :=
  Nat.mod_eq_of_lt ((Nat.sub_le ..).trans_lt (BitVec.isLt _))

theorem txExp_mod (x : BitVec 128) : txExp x % 2 ^ 24 = txExp x := Nat.mod_eq_of_lt (BitVec.isLt _)

theorem ofInt_txSec (x : BitVec 128) : (BitVec.ofInt 36 (txSec x)).toInt = txSec x := by rw [txSec, BitVec.ofInt_toInt]

/-! A barrier's place. -/

/-- Bytes that meet no field of the device are written as they are (R4). -/
theorem spStore_plain {s : State} {lvl unit off : Nat} {bs : List Byte}
    (h : ∀ k, k < bs.length → lvl = 0 → s.hwBits unit (off + k) = 0) : s.spStore lvl unit off bs = s.spWrite lvl unit off bs := by
  unfold State.spStore
  by_cases hl : lvl = 0
  · rw [if_neg (not_not_intro hl)]
    refine congrArg (s.spWrite lvl unit off) (List.ext_getElem (by simp) fun k h1 h2 => ?_)
    simp only [List.getElem_map, List.getElem_range, h k h2 hl, List.getD_eq_getElem _ _ h2]
    exact (congrArg (· ||| (bs[k] &&& BitVec.allOnes 8)) BitVec.and_zero).trans (BitVec.zero_or.trans BitVec.and_allOnes)
  · rw [if_pos hl]

/-- A barrier word reads back as it was written. -/
theorem txAt_setTx {s : State} {lvl unit off : Nat} (x : BitVec 128) (h : ∀ k, k < 16 → lvl = 0 → s.hwBits unit (off + k) = 0) :
    (s.setTx lvl unit off x).txAt lvl unit off = x := by
  have hlen : (leBytes 16 x.toNat).length = 16 := leBytes_length ..
  have hread := spRead_spWrite_self s lvl unit off (leBytes 16 x.toNat)
  rw [hlen] at hread
  rw [State.setTx, spStore_plain (by rwa [hlen]), State.txAt, State.spNat, hread, leNat_leBytes, Nat.mod_eq_of_lt (show x.toNat < 256 ^ 16 from x.isLt),
    BitVec.ofNat_toNat, BitVec.setWidth_eq]

theorem txAt_congr {s u : State} {lvl unit : Nat} (h : ∀ o, u.spByte lvl unit o = s.spByte lvl unit o) (off : Nat) :
    u.txAt lvl unit off = s.txAt lvl unit off := by
  rw [State.txAt, State.spNat, spRead_congr h, State.txAt, State.spNat]

theorem clusters_spWrite (s : State) (lvl unit off : Nat) (bs : List Byte) : (s.spWrite lvl unit off bs).clusters = s.clusters := by
  induction bs generalizing s off with
  | nil => rfl
  | cons b bs ih =>
    rw [State.spWrite, ih]
    rcases lvl with _ | _ | lvl <;> rfl

theorem leaves_setTx (s : State) (lvl unit off : Nat) (x : BitVec 128) (k : Nat) : (s.setTx lvl unit off x).leaves k = s.leaves k := by
  have hclu : (s.setTx lvl unit off x).clusters = s.clusters := by
    unfold State.setTx State.spStore
    split <;> exact clusters_spWrite ..
  rw [State.leaves, State.cluster, hclu, State.leaves, State.cluster]

theorem leaves_setLeaves (s : State) (k : Nat) (ls : List LeafRec) : (s.setLeaves k ls).leaves k = ls := by
  rw [State.leaves, State.setLeaves, State.cluster_modCluster, if_pos rfl]

theorem spByte_wakeTx (s : State) (lvl unit off n l u o : Nat) : (s.wakeTx lvl unit off n).spByte l u o = s.spByte l u o := rfl

theorem leaves_wakeTx (s : State) (lvl unit off n k : Nat) : (s.wakeTx lvl unit off n).leaves k = s.leaves k := rfl

theorem hwBits_setLeaves (s : State) (k : Nat) (ls : List LeafRec) (core off : Nat) : (s.setLeaves k ls).hwBits core off = s.hwBits core off := rfl

/-! Events of a barrier. -/

/-- An event that leaves a count above zero only stores the word (R136). -/
theorem settleTx_held {s : State} {lvl unit off : Nat} {x : BitVec 128} (h : txZero x = false) : s.settleTx lvl unit off x = s.setTx lvl unit off x := by
  unfold State.settleTx
  rw [h]
  rfl

/-- The word of an unlinked barrier whose counts have both come to zero: its next phase (R136). -/
def txFlip (x : BitVec 128) : BitVec 128 := txWord (txPhase x + 1) (txFault x) false (txExp x) (txExp x) 0 (txLink x)

/-- An unlinked core barrier with both counts at zero goes to its next phase (R136). -/
theorem settleTx_flip {s : State} {unit off : Nat} {x : BitVec 128} (hzero : txZero x = true) (hsent : s.leafSent 0 unit off = false)
    (hlink : txLinked x = false) : s.settleTx 0 unit off x = (s.setTx 0 unit off (txFlip x)).wakeTx 0 unit off 16 := by
  unfold State.settleTx
  rw [hzero, hsent, hlink]
  rfl

/-- The word of a barrier after an arrival of `c` (R137). -/
def txArrived (x : BitVec 128) (c : Nat) (fault : Bool) : BitVec 128 :=
  txWord (txPhase x) (txFault x || fault) (txLinked x) (txArr x - c) (txExp x) (txSec x) (txLink x)

theorem txArrive_some {x : BitVec 128} {c : Nat} (fault : Bool) (h : c ≤ txArr x) : txArrive x c fault = some (txArrived x c fault) :=
  if_neg (Nat.not_lt.mpr h)

theorem txArr_arrived (x : BitVec 128) (c : Nat) (fault : Bool) : txArr (txArrived x c fault) = txArr x - c := by
  rw [txArrived, txArr_txWord, txArr_mod]

theorem txSec_arrived (x : BitVec 128) (c : Nat) (fault : Bool) : txSec (txArrived x c fault) = txSec x := by
  rw [txArrived, txSec_txWord, ofInt_txSec]

theorem txExp_arrived (x : BitVec 128) (c : Nat) (fault : Bool) : txExp (txArrived x c fault) = txExp x := by
  rw [txArrived, txExp_txWord, txExp_mod]

theorem txPhase_arrived (x : BitVec 128) (c : Nat) (fault : Bool) : txPhase (txArrived x c fault) = txPhase x := txPhase_txWord ..

theorem txFault_arrived (x : BitVec 128) (c : Nat) (fault : Bool) : txFault (txArrived x c fault) = (txFault x || fault) := txFault_txWord ..

theorem txLinked_arrived (x : BitVec 128) (c : Nat) (fault : Bool) : txLinked (txArrived x c fault) = txLinked x := txLinked_txWord ..

theorem txZero_iff (x : BitVec 128) : txZero x = true ↔ txArr x = 0 ∧ txSec x = 0 := by
  rw [txZero, Bool.and_eq_true, beq_iff_eq, beq_iff_eq]

/-- An arrival brings both counts to zero exactly when it is of all that are left and no sector is (R136). -/
theorem txZero_arrived {x : BitVec 128} {c : Nat} (fault : Bool) (h : c ≤ txArr x) :
    txZero (txArrived x c fault) = true ↔ txArr x = c ∧ txSec x = 0 := by
  rw [txZero_iff, txArr_arrived, txSec_arrived]
  omega

end Sys2Proof.Machine
end

section
/-! PROOFS. What a scratchpad port performs (R125 to R128, R136 to R138, R270 to R273), and the two messages of a cluster's barrier unit. -/

namespace Sys2Proof.Machine

/- One proof at a time: many at once cost a thread, and its stack, each. -/
set_option Elab.async false

/-! The end of an operation of a wave. -/

/-- Completing acquires eases one wave, and changes nothing else (R276). -/
theorem settle_spec (s : State) (wid : Nat) : OnlyWave wid s (s.settle wid) ∧ SameRegs s (s.settle wid)
    ∧ ∀ w, tfind s.waves wid = some w → ∃ v, tfind (s.settle wid).waves wid = some v ∧ w.Eased v := by
  rcases settle_cases s wid with h | ⟨w, v, hw, hv, h⟩
  · rw [h]
    exact ⟨.refl wid s, fun _ _ => rfl, fun w hw => ⟨w, hw, .refl w⟩⟩
  · rw [h]
    refine ⟨⟨⟨fun _ => rfl, fun _ _ _ => rfl⟩, fun _ hk => tfind_tput_ne _ _ hk, rfl⟩, sameRegs_setWave hw hv, fun u hu => ?_⟩
    cases hw.symm.trans hu
    exact ⟨v, tfind_tput_self .., hv⟩

theorem onlyWave_modWave (s : State) (wid : Nat) (f : Wave → Wave) : OnlyWave wid s (s.modWave wid f) := by
  refine ⟨sameMemory_modWave .., fun _ hk => tfind_modWave_ne s f hk, ?_⟩
  unfold State.modWave
  split <;> rfl

/-- A wave that a change leaves its registers as they are, and then settles. -/
theorem settle_modWave (s : State) (wid : Nat) {f : Wave → Wave} (hf : ∀ w x, (f w).newest x = w.newest x) :
    OnlyWave wid s ((s.modWave wid f).settle wid) ∧ SameRegs s ((s.modWave wid f).settle wid) := by
  obtain ⟨honly, hregs, -⟩ := settle_spec (s.modWave wid f) wid
  exact ⟨(onlyWave_modWave s wid f).trans honly, (sameRegs_modWave s wid hf).trans hregs⟩

theorem newest_wake (w : Wave) (id : Nat) (x : Target) : (w.wake id).newest x = w.newest x := by cases x <;> rfl

theorem newest_dropReq (w : Wave) (id : Nat) (x : Target) : (w.dropReq id).newest x = w.newest x := by cases x <;> rfl

theorem newest_setReq (w : Wave) (r : Req) (x : Target) : (w.setReq r).newest x = w.newest x := by cases x <;> rfl

theorem finishReq_spec (s : State) (wid : Nat) (r : Req) : OnlyWave wid s (s.finishReq wid r) ∧ SameRegs s (s.finishReq wid r) :=
  settle_modWave s wid fun _ x => (newest_wake ..).trans (((eased_fall ..).newest x).trans (newest_dropReq ..))

theorem putReq_spec (s : State) (wid : Nat) (r : Req) : OnlyWave wid s (s.putReq wid r) ∧ SameRegs s (s.putReq wid r) := by
  unfold State.putReq
  split
  · exact finishReq_spec ..
  · exact ⟨onlyWave_modWave .., sameRegs_modWave s wid fun _ _ => newest_setReq ..⟩

/-- A request that is finished leaves the lanes of its wave as they are. -/
theorem lane_finishReq {s : State} {wid : Nat} {w : Wave} (hw : tfind s.waves wid = some w) (r : Req) :
    ∃ v, tfind (s.finishReq wid r).waves wid = some v ∧ ∀ a l, v.lane a l = w.lane a l := by
  obtain ⟨-, -, hown⟩ := settle_spec (s.modWave wid fun w => ((w.dropReq r.id).fall r.cnt).wake r.id) wid
  obtain ⟨v, hv, he⟩ := hown _ (tfind_modWave_some _ hw)
  exact ⟨v, hv, fun a l => (he.lane a l).trans ((eased_fall (w.dropReq r.id) r.cnt).lane a l)⟩

theorem endTx_spec (s : State) (p : PortOp) : SameMemory s (s.endTx p) ∧ SameRegs s (s.endTx p) := by
  obtain ⟨honly, hregs⟩ := settle_modWave (s.dropPort p.id) p.wid (f := fun w => (w.fall p.cnt).wake p.id)
    fun w x => (newest_wake ..).trans ((eased_fall ..).newest x)
  exact ⟨honly.memory, hregs⟩

/-! An access at a port. -/

theorem exec_portAccess {s : State} {p : PortOp} (hp : (s.portq.find? fun o => o.id == p.id) = some p) (hready : s.portReady p = true) :
    exec (.portAccess p.id) s = .next (match p.what with
      | .piece req idx => s.performPort p req idx
      | .tx k => s.performTx p k) := by
  show execPortAccess p.id s = _
  rw [execPortAccess, hp]
  dsimp only
  rw [hready]
  rfl

/-- A core that forwards for no team is reached itself (R98). -/
theorem forwarded_home {s : State} {lvl unit : Nat} (off : Nat) (h : (s.core unit).fwd = []) : s.forwarded lvl unit off = (unit, off) := by
  unfold State.forwarded
  split
  · rfl
  · rw [h]
    rfl

/-- What a piece of a request has to do at its port. -/
structure AtPort (s : State) (p : PortOp) (rid idx : Nat) (w : Wave) (r : Req) (x : Piece) : Prop where
  here : (s.portq.find? fun o => o.id == p.id) = some p
  ready : s.portReady p = true
  what : p.what = .piece rid idx
  wave : tfind s.waves p.wid = some w
  req : w.req rid = some r
  piece : r.pieces[idx]? = some x
  home : (s.core p.unit).fwd = []

/-- The pieces of a request that stand where another does. -/
def Piece.samePlace (x y : Piece) : Bool := y.lane == x.lane && y.off == x.off

/-- A request of no QPUT is put back. -/
theorem advance_plain (s : State) (wid : Nat) {r : Req} (h : ∀ hints queue a, r.instr ≠ .qput hints queue a) : s.advance wid r = s.putReq wid r := by
  unfold State.advance
  split
  · next hq => exact absurd hq (h _ _ _)
  · rfl

/-- A store at its port (R125, R270). -/
theorem exec_portStore {s : State} {p : PortOp} {rid idx : Nat} {w : Wave} {r : Req} {x : Piece} (h : AtPort s p rid idx w r x)
    {hints : Hints} {width : Width} {d a : Opd} {m : Mem} (hr : r.instr = .sts hints width d a m) :
    exec (.portAccess p.id) s = .next ((((s.dropPort p.id).spStore p.lvl p.unit p.off x.data).wakeTx p.lvl p.unit p.off x.len).putReq p.wid
      (r.mapPieces x.samePlace fun y => { y with st := .done })) := by
  obtain ⟨hp, hready, hwhat, hw, hreq, hx, hhome⟩ := h
  rw [exec_portAccess hp hready, hwhat]
  refine congrArg Host.Outcome.next ?_
  have hwave : (tfind (s.dropPort p.id).waves p.wid).bind (fun w => w.req rid) = some r := by
    rw [show (s.dropPort p.id).waves = s.waves from rfl, hw]
    exact hreq
  have hhome : (s.dropPort p.id).forwarded p.lvl p.unit p.off = (p.unit, p.off) := forwarded_home p.off hhome
  unfold State.performPort
  simp only [hwave, hx, hhome, hr]
  exact advance_plain _ _ fun _ _ _ hq => Instr.noConfusion ((hr.symm.trans hq))

/-- A load at its port delivers what the bytes hold (R125, R270). -/
theorem exec_portLoad {s : State} {p : PortOp} {rid idx : Nat} {w : Wave} {r : Req} {x : Piece} (h : AtPort s p rid idx w r x)
    {hints : Hints} {width : Width} {d a : Opd} {m : Mem} (hr : r.instr = .lds hints width d a m) :
    exec (.portAccess p.id) s = .next ((s.dropPort p.id).deliver p.wid
      (r.mapPieces x.samePlace fun y => { y with data := s.spRead p.lvl p.unit p.off y.len }) x.samePlace) := by
  obtain ⟨hp, hready, hwhat, hw, hreq, hx, hhome⟩ := h
  rw [exec_portAccess hp hready, hwhat]
  refine congrArg Host.Outcome.next ?_
  have hwave : (tfind (s.dropPort p.id).waves p.wid).bind (fun w => w.req rid) = some r := by
    rw [show (s.dropPort p.id).waves = s.waves from rfl, hw]
    exact hreq
  have hhome : (s.dropPort p.id).forwarded p.lvl p.unit p.off = (p.unit, p.off) := forwarded_home p.off hhome
  unfold State.performPort
  simp only [hwave, hx, hhome, hr]
  rfl

/-- An arrival at its port (R137). -/
theorem exec_portArrive {s : State} {p : PortOp} {c : Nat} (hp : (s.portq.find? fun o => o.id == p.id) = some p) (hready : s.portReady p = true)
    (hwhat : p.what = .tx (.arrive c)) (hc : c ≤ txArr (s.txAt p.lvl p.unit p.off)) :
    exec (.portAccess p.id) s = .next ((s.settleTx p.lvl p.unit p.off (txArrived (s.txAt p.lvl p.unit p.off) c false)).endTx p) := by
  rw [exec_portAccess hp hready, hwhat]
  refine congrArg Host.Outcome.next ?_
  unfold State.performTx
  extract_lets x
  simp only [txArrive_some false hc, x]

/-- An arrival waits while its leaf is LEAF-SENT (R137). -/
theorem leafSent_of_ready {s : State} {p : PortOp} {c : Nat} (hready : s.portReady p = true) (hwhat : p.what = .tx (.arrive c)) :
    s.leafSent p.lvl p.unit p.off = false := by
  simp only [State.portReady, hwhat, Bool.and_eq_true, Bool.not_eq_true'] at hready
  exact hready.2.2

/-! A load of one piece. -/

/-- One word of a load stands in its register's lane. -/
def State.loadWord (wid seq lane : Nat) (pc : DWord) (d : Nat) (ws : List Word) (s : State) (k : Nat) : State :=
  match tfind s.waves wid with
  | some w => (s.setWave wid (w.setLane (d + k) lane ⟨false, ws.getD k 0⟩)).dropRef wid seq lane pc none (w.lane (d + k) lane)
  | none => s

theorem writeDest_vector {r : Req} {d : BitVec 8} {n : Nat} (h : destOf r.instr = some (.v d, n)) (s : State) (wid lane : Nat) (ws : List Word) :
    s.writeDest wid r lane ws = (List.range ws.length).foldl (State.loadWord wid r.seq lane r.pc d.toNat ws) s := by
  unfold State.writeDest
  rw [h]
  rfl

theorem loadWord_spec {s : State} {wid : Nat} {w : Wave} (hw : tfind s.waves wid = some w) (seq lane : Nat) (pc : DWord) (d : Nat) (ws : List Word)
    (k : Nat) : OnlyWave wid s (s.loadWord wid seq lane pc d ws k)
      ∧ tfind (s.loadWord wid seq lane pc d ws k).waves wid = some (w.setLane (d + k) lane ⟨false, ws.getD k 0⟩) := by
  unfold State.loadWord
  rw [hw]
  obtain ⟨_, _, he⟩ := dropRef_eq (s.setWave wid (w.setLane (d + k) lane ⟨false, ws.getD k 0⟩)) wid seq lane pc none (w.lane (d + k) lane)
  dsimp only
  rw [he]
  exact ⟨⟨⟨fun _ => rfl, fun _ _ _ => rfl⟩, fun _ hk => tfind_tput_ne _ _ hk, rfl⟩, tfind_tput_self ..⟩

/-- The words of a load stand in the lane of its registers, and nothing but their wave has changed (R270). -/
theorem loadWords_stand {s : State} {wid : Nat} {w : Wave} (hw : tfind s.waves wid = some w) (seq lane : Nat) (pc : DWord) (d : Nat)
    (ws : List Word) (n : Nat) :
    let t := (List.range n).foldl (State.loadWord wid seq lane pc d ws) s
    OnlyWave wid s t ∧ ∃ v, tfind t.waves wid = some v ∧ ∀ k, k < n → v.lane (d + k) lane = ⟨false, ws.getD k 0⟩ := by
  induction n with
  | zero => exact ⟨.refl wid s, w, hw, fun k hk => absurd hk (Nat.not_lt_zero k)⟩
  | succ n ih =>
    obtain ⟨honly, v, hv, hlane⟩ := ih
    intro t
    obtain ⟨hone, hset⟩ := loadWord_spec hv seq lane pc d ws n
    have ht : t = State.loadWord wid seq lane pc d ws ((List.range n).foldl (State.loadWord wid seq lane pc d ws) s) n := by
      simp only [t, List.range_succ, List.foldl_append, List.foldl_cons, List.foldl_nil]
    rw [ht]
    refine ⟨honly.trans hone, _, hset, fun k hk => ?_⟩
    rw [Wave.lane_setLane]
    by_cases hkn : k = n
    · rw [hkn, if_pos rfl]
    · rw [if_neg (by unfold vKey; omega), hlane k (by omega)]

theorem loadWords_length (width : Width) (bs : List Byte) : (loadWords width bs).length = widthRegs width := by
  cases width <;> simp [loadWords, widthRegs, widthBytes]

theorem samePlace_self (x : Piece) : x.samePlace x = true := by rw [Piece.samePlace, beq_self_eq_true, beq_self_eq_true]; rfl

theorem pieces_mapSingle {r : Req} {x : Piece} (h : r.pieces = [x]) {which : Piece → Bool} (hx : which x = true) (f : Piece → Piece) :
    (r.mapPieces which f).pieces = [f x] := by
  rw [Req.mapPieces, h, List.map_singleton, if_pos hx]

/-- A request of one piece that has been read writes its lane and is finished (R270). -/
theorem deliver_single {r : Req} {x : Piece} (hpieces : r.pieces = [x]) {hints : Hints} {width : Width} {d a : Opd} {m : Mem}
    (hr : r.instr = .lds hints width d a m) (s : State) (wid : Nat) (f : Piece → List Byte) :
    ∃ u v : Req, u.instr = r.instr ∧ s.deliver wid (r.mapPieces x.samePlace fun y => { y with data := f y }) x.samePlace
      = (s.writeDest wid u x.lane (loadWords width (f x))).finishReq wid v := by
  let u := r.mapPieces x.samePlace fun y => { y with data := f y }
  let v := u.mapPieces x.samePlace fun y => { y with st := .done }
  have hu : u.pieces = [{ x with data := f x }] := pieces_mapSingle hpieces (samePlace_self x) _
  have hv : v.pieces = [{ x with data := f x, st := .done }] := pieces_mapSingle hu (samePlace_self x) _
  have hlanes : ((u.pieces.filter x.samePlace).map (·.lane)).eraseDups.filter v.laneDone = [x.lane] := by
    have hsame : x.samePlace { x with data := f x } = true := samePlace_self x
    have hdone : v.laneDone x.lane = true := by simp [Req.laneDone, hv]
    simp [hu, hsame, hdone, List.eraseDups_cons]
  have hbytes : v.laneBytes x.lane = f x := by simp [Req.laneBytes, hv]
  have hcomplete : v.complete = true := by simp [Req.complete, hv]
  refine ⟨u, v, rfl, ?_⟩
  have hinstr : u.instr = .lds hints width d a m := hr
  show s.deliver wid u x.samePlace = _
  unfold State.deliver
  extract_lets done ls t
  have hls : ls = [x.lane] := hlanes
  have ht : t = s.writeDest wid u x.lane (loadWords width (f x)) := by
    simp only [t, hinstr, hls, List.foldl_cons, List.foldl_nil, loadWidth]
    exact congrArg (fun b => s.writeDest wid u x.lane (loadWords width b)) hbytes
  rw [ht]
  have hplain : done.instr = .lds hints width d a m := hr
  refine (advance_plain _ _ fun _ _ _ hq => Instr.noConfusion (hplain.symm.trans hq)).trans ?_
  exact if_pos hcomplete

/-! A store and a load, done. -/

theorem sameMemory_dropPort (s : State) (id : Nat) : SameMemory s (s.dropPort id) := ⟨fun _ => rfl, fun _ _ _ => rfl⟩

/-- What a store at its port leaves (R125, R127, R270). -/
theorem completes_portStore {s : State} {p : PortOp} {rid idx : Nat} {w : Wave} {r : Req} {x : Piece} (h : AtPort s p rid idx w r x)
    {hints : Hints} {width : Width} {d a : Opd} {m : Mem} (hr : r.instr = .sts hints width d a m) (hlvl : p.lvl < 3)
    (hcap : p.off + x.data.length ≤ spCap p.lvl) :
    Completes (.portAccess p.id) s fun t => SameRegs s t ∧ (∀ pa, t.phys.byte pa = s.phys.byte pa)
      ∧ (∀ k, k < x.data.length → let hw := if p.lvl = 0 then s.hwBits p.unit (p.off + k) else 0
        t.spByte p.lvl p.unit (p.off + k) = (s.spByte p.lvl p.unit (p.off + k) &&& hw) ||| (x.data.getD k 0 &&& ~~~hw))
      ∧ ∀ l u o, l < 3 → o < spCap l → (l, u) ≠ (p.lvl, p.unit) ∨ o < p.off ∨ p.off + x.data.length ≤ o →
        t.spByte l u o = s.spByte l u o := by
  let v := (s.dropPort p.id).spStore p.lvl p.unit p.off x.data
  have hv : ScratchOnly (s.dropPort p.id) (v.wakeTx p.lvl p.unit p.off x.len) := (scratchOnly_spStore ..).trans (scratchOnly_wakeTx ..)
  obtain ⟨⟨⟨hphys, hbytes⟩, -, -⟩, hregs⟩ := putReq_spec (v.wakeTx p.lvl p.unit p.off x.len) p.wid
    (r.mapPieces x.samePlace fun y => { y with st := .done })
  refine ⟨_, exec_portStore h hr, fun k y => (hregs k y).trans (hv.sameRegs k y), fun pa => (hphys pa).trans ?_, fun k hk => (hbytes ..).trans ?_,
    fun l u o hl ho hother => (hbytes ..).trans ?_⟩
  · rw [hv.phys]
    rfl
  · exact (spByte_wakeTx ..).trans (spByte_spStore (s.dropPort p.id) p.lvl p.unit p.off x.data hk)
  · exact (spByte_wakeTx ..).trans (spByte_spStore_other (s.dropPort p.id) hlvl hl hcap ho hother)

/-- What a load at its port leaves (R125, R270). -/
theorem completes_portLoad {s : State} {p : PortOp} {rid idx : Nat} {w : Wave} {r : Req} {x : Piece} (h : AtPort s p rid idx w r x)
    (hpieces : r.pieces = [x]) {hints : Hints} {width : Width} {d : BitVec 8} {a : Opd} {m : Mem} (hr : r.instr = .lds hints width (.v d) a m) :
    Completes (.portAccess p.id) s fun t => SameMemory s t ∧ OtherWaves p.wid s t ∧ ∃ v, tfind t.waves p.wid = some v ∧
      ∀ k, k < widthRegs width →
        v.lane (d.toNat + k) x.lane = ⟨false, (loadWords width (s.spRead p.lvl p.unit p.off x.len)).getD k 0⟩ := by
  obtain ⟨u, v, hu, hdone⟩ := deliver_single hpieces hr (s.dropPort p.id) p.wid fun y => s.spRead p.lvl p.unit p.off y.len
  have hdest : ∃ n, destOf u.instr = some (.v d, n) := by rw [hu, hr]; exact ⟨_, rfl⟩
  obtain ⟨n, hdest⟩ := hdest
  let ws := loadWords width (s.spRead p.lvl p.unit p.off x.len)
  have hwave : tfind (s.dropPort p.id).waves p.wid = some w := h.wave
  obtain ⟨honly, w1, hw1, hlane⟩ := loadWords_stand hwave u.seq x.lane u.pc d.toNat ws ws.length
  rw [← writeDest_vector hdest] at honly hw1
  obtain ⟨w2, hw2, hkept⟩ := lane_finishReq hw1 v
  obtain ⟨hfinish, -⟩ := finishReq_spec ((s.dropPort p.id).writeDest p.wid u x.lane ws) p.wid v
  have hall := honly.trans hfinish
  refine ⟨_, (exec_portLoad h hr).trans (congrArg _ hdone), (sameMemory_dropPort s p.id).trans hall.memory, hall.others, w2, hw2, fun k hk => ?_⟩
  exact (hkept ..).trans (hlane k (by rw [loadWords_length]; exact hk))

/-! An arrival, done. -/

/-- What an arrival at a core's port leaves of its barrier: the next phase when both counts come to zero, else the count lowered. -/
def txAfter (x : BitVec 128) (c : Nat) : BitVec 128 := if txArr x = c ∧ txSec x = 0 then txFlip (txArrived x c false) else txArrived x c false

theorem settleTx_arrived {s : State} {unit off c : Nat} (hc : c ≤ txArr (s.txAt 0 unit off)) (hlink : txLinked (s.txAt 0 unit off) = false)
    (hsent : s.leafSent 0 unit off = false) (hhw : ∀ k, k < 16 → s.hwBits unit (off + k) = 0) :
    (s.settleTx 0 unit off (txArrived (s.txAt 0 unit off) c false)).txAt 0 unit off = txAfter (s.txAt 0 unit off) c := by
  have hhw := fun k hk (_ : 0 = 0) => hhw k hk
  by_cases hz : txArr (s.txAt 0 unit off) = c ∧ txSec (s.txAt 0 unit off) = 0
  · rw [settleTx_flip ((txZero_arrived false hc).mpr hz) hsent ((txLinked_arrived ..).trans hlink), txAfter, if_pos hz]
    exact (txAt_congr (fun o => spByte_wakeTx ..) off).trans (txAt_setTx _ hhw)
  · rw [settleTx_held (Bool.eq_false_iff.mpr (mt (txZero_arrived false hc).mp hz)), txAfter, if_neg hz]
    exact txAt_setTx _ hhw

/-- Every field of the word that an arrival leaves (R136, R137). -/
theorem txAfter_spec {x : BitVec 128} {c : Nat} (hlink : txLinked x = false) :
    txLinked (txAfter x c) = false ∧ txFault (txAfter x c) = txFault x ∧ txExp (txAfter x c) = txExp x
      ∧ (txArr x = c → txSec x = 0 → txPhase (txAfter x c) = txPhase x + 1 ∧ txArr (txAfter x c) = txExp x)
      ∧ (txArr x ≠ c ∨ txSec x ≠ 0 → txPhase (txAfter x c) = txPhase x ∧ txArr (txAfter x c) = txArr x - c ∧ txSec (txAfter x c) = txSec x) := by
  by_cases hz : txArr x = c ∧ txSec x = 0
  · rw [txAfter, if_pos hz, txFlip, txLinked_txWord, txFault_txWord, txExp_txWord, txPhase_txWord, txArr_txWord, txFault_arrived, txExp_arrived,
      txPhase_arrived, txExp_mod, Bool.or_false]
    exact ⟨rfl, rfl, rfl, fun _ _ => ⟨rfl, rfl⟩, fun h => absurd hz (not_and_or.mpr h)⟩
  · rw [txAfter, if_neg hz, txLinked_arrived, txFault_arrived, txExp_arrived, txPhase_arrived, txArr_arrived, txSec_arrived, Bool.or_false]
    exact ⟨hlink, rfl, rfl, fun ha hs => absurd ⟨ha, hs⟩ hz, fun _ => ⟨rfl, rfl, rfl⟩⟩

/-- What an arrival at a core's port leaves (R136, R137). -/
theorem completes_portArrive {s : State} {p : PortOp} {c : Nat} (hp : (s.portq.find? fun o => o.id == p.id) = some p) (hready : s.portReady p = true)
    (hwhat : p.what = .tx (.arrive c)) (hlvl : p.lvl = 0) (hhw : ∀ k, k < 16 → s.hwBits p.unit (p.off + k) = 0)
    (hc : c ≤ txArr (s.txAt 0 p.unit p.off)) (hlink : txLinked (s.txAt 0 p.unit p.off) = false) :
    Completes (.portAccess p.id) s fun t => SameRegs s t ∧ (∀ pa, t.phys.byte pa = s.phys.byte pa)
      ∧ t.txAt 0 p.unit p.off = txAfter (s.txAt 0 p.unit p.off) c := by
  have hsent := leafSent_of_ready hready hwhat
  have hexec := exec_portArrive hp hready hwhat (hlvl.symm ▸ hc)
  rw [hlvl] at hsent hexec
  let u := s.settleTx 0 p.unit p.off (txArrived (s.txAt 0 p.unit p.off) c false)
  have hu : ScratchOnly s u := scratchOnly_settleTx ..
  obtain ⟨⟨hphys, hbytes⟩, hregs⟩ := endTx_spec u p
  refine ⟨_, hexec, fun k y => (hregs k y).trans (hu.sameRegs k y), fun pa => (hphys pa).trans ?_, ?_⟩
  · rw [hu.phys]
  · exact (txAt_congr (fun o => hbytes 0 p.unit o) p.off).trans (settleTx_arrived hc hlink hsent hhw)

/-! The messages of the barrier unit. -/

/-- The leaf records of a cluster once an arrival of a leaf has been delivered. -/
def State.delivered (s : State) (k leaf : Nat) (rest : List Bool) : List LeafRec :=
  ((s.leaves k).map fun y => if y.id = leaf then { y with mail := rest } else y).filter fun y => y.id != leaf || y.gone.isNone || !rest.isEmpty

theorem mail_delivered {s : State} {k leaf : Nat} {rest : List Bool} {y : LeafRec} (hy : y ∈ s.delivered k leaf rest) (hid : y.id = leaf) :
    y.mail = rest := by
  obtain ⟨z, -, rfl⟩ := List.mem_map.mp (List.mem_filter.mp hy).1
  by_cases hz : z.id = leaf
  · rw [if_pos hz]
  · rw [if_neg hz] at hid
    exact absurd hid hz

/-- A leaf's arrival at its root (R137). -/
theorem exec_leafArrival {s : State} {k : Nat} {l : LeafRec} {f : Bool} {rest : List Bool}
    (hl : ((s.leaves k).find? fun x => x.id == l.id) = some l) (hmail : l.mail = f :: rest) (hgone : l.gone = none)
    (hbusy : s.rootBusy 1 k (s.rootAt k l) = false) (harr : 1 ≤ txArr (s.txAt 1 k (s.rootAt k l))) :
    exec (.leafArrivalDelivery k l.id) s = .next ((s.setLeaves k (s.delivered k l.id rest)).settleTx 1 k (s.rootAt k l)
      (txArrived (s.txAt 1 k (s.rootAt k l)) 1 f)) := by
  show execLeafArrivalDelivery k l.id s = _
  rw [execLeafArrivalDelivery, hl]
  dsimp only
  rw [hmail]
  dsimp only
  rw [hgone, hbusy, txArrive_some f harr, State.delivered]
  exact congrArg Host.Outcome.next ((if_neg Bool.false_ne_true).trans (if_neg Bool.false_ne_true))

theorem txLive_arrived {x : BitVec 128} (f : Bool) (harr : 1 ≤ txArr x) (hmore : 1 < txArr x ∨ txSec x ≠ 0) : txZero (txArrived x 1 f) = false := by
  refine Bool.eq_false_iff.mpr (mt (txZero_arrived f harr).mp fun ⟨ha, hs⟩ => ?_)
  rcases hmore with h | h
  · omega
  · exact h hs

theorem completes_leafArrival {s : State} {k : Nat} {l : LeafRec} {f : Bool} {rest : List Bool}
    (hl : ((s.leaves k).find? fun x => x.id == l.id) = some l) (hmail : l.mail = f :: rest) (hgone : l.gone = none)
    (hbusy : s.rootBusy 1 k (s.rootAt k l) = false) (harr : 1 ≤ txArr (s.txAt 1 k (s.rootAt k l)))
    (hmore : 1 < txArr (s.txAt 1 k (s.rootAt k l)) ∨ txSec (s.txAt 1 k (s.rootAt k l)) ≠ 0) :
    Completes (.leafArrivalDelivery k l.id) s fun t => t.waves = s.waves ∧ (∀ pa, t.phys.byte pa = s.phys.byte pa)
      ∧ t.txAt 1 k (s.rootAt k l) = txArrived (s.txAt 1 k (s.rootAt k l)) 1 f ∧ t.leaves k = s.delivered k l.id rest := by
  have hexec := exec_leafArrival hl hmail hgone hbusy harr
  rw [settleTx_held (txLive_arrived f harr hmore)] at hexec
  let u := s.setLeaves k (s.delivered k l.id rest)
  have hu : ScratchOnly s (u.setTx 1 k (s.rootAt k l) (txArrived (s.txAt 1 k (s.rootAt k l)) 1 f)) :=
    (scratchOnly_setLeaves ..).trans (scratchOnly_spStore ..)
  refine ⟨_, hexec, hu.waves, fun pa => ?_, txAt_setTx _ fun _ _ h => absurd h Nat.one_ne_zero, ?_⟩
  · rw [hu.phys]
  · rw [leaves_setTx, leaves_setLeaves]

/-- The leaf records of a cluster once a leaf has heard its root's broadcast. -/
def State.heard (s : State) (k leaf : Nat) : List LeafRec :=
  (s.leaves k).map fun y => if y.id = leaf then { y with news := none, sent := false } else y

theorem news_heard {s : State} {k leaf : Nat} {y : LeafRec} (hy : y ∈ s.heard k leaf) (hid : y.id = leaf) : y.news = none ∧ y.sent = false := by
  obtain ⟨z, -, rfl⟩ := List.mem_map.mp hy
  by_cases hz : z.id = leaf
  · rw [if_pos hz]
    exact ⟨rfl, rfl⟩
  · rw [if_neg hz] at hid
    exact absurd hid hz

/-- The word of a leaf that hears a broadcast (R137). -/
def txHeard (x : BitVec 128) (ph : BitVec 4) (f : Bool) : BitVec 128 :=
  txWord ph (txFault x || f) (txLinked x) (txExp x) (txExp x) (txSec x) (txLink x)

/-- A root's broadcast at a leaf of a core that stands (R137). -/
theorem exec_rootBroadcast {s : State} {k : Nat} {l : LeafRec} {ph : BitVec 4} {f : Bool}
    (hl : ((s.leaves k).find? fun x => x.id == l.id) = some l) (hnews : l.news = some (ph, f)) (hcore : l.core < 192) :
    exec (.rootBroadcast k l.id) s = .next (if l.sent then ((s.setLeaves k (s.heard k l.id)).setTx 0 l.core (s.leafOff l)
      (txHeard (s.txAt 0 l.core (s.leafOff l)) ph f)).wakeTx 0 l.core (s.leafOff l) 16 else s.setLeaves k (s.heard k l.id)) := by
  show execRootBroadcast k l.id s = _
  rw [execRootBroadcast, hl]
  dsimp only
  rw [hnews]
  dsimp only
  rw [if_neg (Nat.not_le.mpr hcore)]
  cases l.sent <;> rfl

/-- A leaf that has sent takes the new phase and FAULT, and loads ARRIVALS again (R137). -/
theorem completes_broadcastSent {s : State} {k : Nat} {l : LeafRec} {ph : BitVec 4} {f : Bool}
    (hl : ((s.leaves k).find? fun x => x.id == l.id) = some l) (hnews : l.news = some (ph, f)) (hcore : l.core < 192) (hsent : l.sent = true)
    (hhw : ∀ j, j < 16 → s.hwBits l.core (s.leafOff l + j) = 0) :
    Completes (.rootBroadcast k l.id) s fun t => t.waves = s.waves ∧ (∀ pa, t.phys.byte pa = s.phys.byte pa)
      ∧ t.txAt 0 l.core (s.leafOff l) = txHeard (s.txAt 0 l.core (s.leafOff l)) ph f ∧ t.leaves k = s.heard k l.id := by
  have hexec := exec_rootBroadcast hl hnews hcore
  rw [if_pos hsent] at hexec
  let u := s.setLeaves k (s.heard k l.id)
  have hu : ScratchOnly s ((u.setTx 0 l.core (s.leafOff l) (txHeard (s.txAt 0 l.core (s.leafOff l)) ph f)).wakeTx 0 l.core (s.leafOff l) 16) :=
    ((scratchOnly_setLeaves ..).trans (scratchOnly_spStore ..)).trans (scratchOnly_wakeTx ..)
  refine ⟨_, hexec, hu.waves, fun pa => ?_, ?_, ?_⟩
  · rw [hu.phys]
  · exact (txAt_congr (fun o => spByte_wakeTx ..) _).trans (txAt_setTx (s := u) _ fun j hj _ => (hwBits_setLeaves ..).trans (hhw j hj))
  · rw [leaves_wakeTx, leaves_setTx, leaves_setLeaves]

/-- Settles O41: a port performs one access as one change of its place, and the barrier unit's messages change a root or a leaf once. -/
theorem portsPerform : Obligations.PortsPerform := by
  unfold Obligations.PortsPerform
  refine ⟨?_, ?_, ?_, ?_, ?_⟩
  · intro s p rid idx w r x h width d a m hp hready hwhat hw hreq hx hlvl hcap hhome hr
    exact completes_portStore ⟨hp, hready, hwhat, hw, hreq, hx, hhome⟩ hr hlvl hcap
  · intro s p rid idx w r x h width d a m hp hready hwhat hw hreq hpieces hidx _ hhome hr
    have hx : r.pieces[idx]? = some x := by rw [hpieces, hidx]; rfl
    exact completes_portLoad ⟨hp, hready, hwhat, hw, hreq, hx, hhome⟩ hpieces hr
  · intro s p c hp hready hwhat hlvl _ hhw x hc hlink
    obtain ⟨t, ht, hregs, hphys, hword⟩ := completes_portArrive hp hready hwhat hlvl hhw hc hlink
    refine ⟨t, ht, hregs, hphys, ?_⟩
    rw [hword]
    exact txAfter_spec hlink
  · intro s k l f rest hl hmail hgone off x hbusy _ harr hmore
    obtain ⟨t, ht, hwaves, hphys, hword, hleaves⟩ := completes_leafArrival hl hmail hgone hbusy harr hmore
    refine ⟨t, ht, hwaves, hphys, ?_⟩
    rw [hword, hleaves]
    exact ⟨txArr_arrived .., txFault_arrived .., txPhase_arrived .., fun y hy hid => mail_delivered hy hid⟩
  · intro s k l ph f hl hnews hcore off x
    refine ⟨fun hsent _ hhw => ?_, fun hsent => ?_⟩
    · obtain ⟨t, ht, hwaves, hphys, hword, hleaves⟩ := completes_broadcastSent hl hnews hcore hsent hhw
      refine ⟨t, ht, hwaves, hphys, ?_⟩
      rw [hword, hleaves]
      exact ⟨txPhase_txWord .., txFault_txWord .., (txArr_txWord ..).trans (txExp_mod _), fun y hy hid => news_heard hy hid⟩
    · have hexec := exec_rootBroadcast hl hnews hcore
      rw [if_neg (ne_true_of_eq_false hsent)] at hexec
      refine ⟨_, hexec, ⟨fun _ => rfl, fun _ _ _ => rfl⟩, rfl, fun y hy hid => ?_⟩
      rw [leaves_setLeaves] at hy
      exact news_heard hy hid

end Sys2Proof.Machine
end

section
/-! PROOFS. Barrier instructions at issue (R134, R137, R138, R140, R286 to R288): one operation at the port of the barrier that the operand
names, for which all but TXINIT hold their split. -/

namespace Sys2Proof.Machine

/- One proof at a time: many at once cost a thread, and its stack, each. -/
set_option Elab.async false

/-! Raising the counters and holding the split change no register and no memory. -/

theorem quiet_raiseCnt (q : Iss) (s : State) (cnt : List Nat) : Quiet q s (s.raiseCnt q cnt) := quiet_modWave q s fun w => raise_newest w cnt

theorem quiet_holdSplit (q : Iss) (s : State) (id : Nat) : Quiet q s (s.holdSplit q id) := quiet_modWave q s fun _ _ => newest_modSplit ..

theorem tfind_raiseCnt {s : State} {q : Iss} {w : Wave} (cnt : List Nat) (hw : tfind s.waves q.wid = some w) :
    tfind (s.raiseCnt q cnt).waves q.wid = some (w.raise cnt) := tfind_modWave_some _ hw

theorem tfind_holdSplit {s : State} {q : Iss} {w : Wave} (id : Nat) (hw : tfind s.waves q.wid = some w) :
    tfind (s.holdSplit q id).waves q.wid = some (w.modSplit q.split fun p => { p with waitOn := some id }) := tfind_modWave_some _ hw

theorem waits_holdSplit {s : State} {q : Iss} {w : Wave} (id : Nat) (hw : tfind s.waves q.wid = some w) : Waits q id (s.holdSplit q id) := by
  refine ⟨_, tfind_holdSplit id hw, ?_⟩
  rw [Wave.split_modSplit, if_pos rfl]

/-- A release added to the wave leaves its splits waiting for what they wait for. -/
theorem Waits.addRel {q : Iss} {id : Nat} {s : State} (h : Waits q id s) (scope : Scope) (seq : Nat) (cont : Cont) (split : Nat)
    (pc : DWord) (word : BitVec 96) (lanes : Word) : Waits q id (s.addRel q.wid scope seq [] cont split pc word lanes) := by
  obtain ⟨w, hw, hwait⟩ := h
  obtain ⟨rels, hw'⟩ := tfind_addRel_own scope seq cont split pc word lanes hw
  exact ⟨_, hw', hwait⟩

/-! Sending a barrier operation. -/

/-- A barrier instruction has sent its operation to the port of a place, and holds its split for it where `holds` says so (R134). -/
def SentTx (q : Iss) (place : Nat × Nat × Nat) (k : TxKind) (holds : Bool) (s t : State) : Prop :=
  Quiet q s t ∧ ∃ op, t.portq = s.portq ++ [op] ∧ op.wid = q.wid ∧ op.seq = q.seq ∧ op.lvl = place.1 ∧ op.unit = place.2.1
    ∧ op.off = place.2.2 ∧ op.what = .tx k ∧ op.cnt = q.cnt ∧ (holds = true → Waits q op.id t)

/-- The operation that `sendTx` puts at the port of a place. -/
def txOp (q : Iss) (id : Nat) (place : Nat × Nat × Nat) (k : TxKind) : PortOp :=
  ⟨id, q.wid, q.seq, 0, place.1, place.2.1, place.2.2, true, .tx k, q.split, q.pc, q.word, q.cnt, false⟩

theorem sendTx_portq (s : State) (q : Iss) (place : Nat × Nat × Nat) (k : TxKind) (holds : Bool) :
    (s.sendTx q place k holds).portq = s.portq ++ [txOp q s.nextId place k] := by
  simp only [State.sendTx, State.holdSplit, State.raiseCnt]
  split <;> simp only [State.modWave_portq] <;> rfl

theorem quiet_sendTx (q : Iss) (s : State) (place : Nat × Nat × Nat) (k : TxKind) (holds : Bool) :
    Quiet q s (s.sendTx q place k holds) := by
  let queued : State := { s with nextId := s.nextId + 1, portq := s.portq ++ [txOp q s.nextId place k] }
  have hraised : Quiet q s (queued.raiseCnt q q.cnt) :=
    Quiet.trans ⟨⟨fun _ => rfl, fun _ _ _ => rfl⟩, fun _ _ => rfl, fun _ => rfl⟩ (quiet_raiseCnt q queued q.cnt)
  cases holds with
  | false => exact hraised
  | true => exact hraised.trans (quiet_holdSplit ..)

theorem waits_sendTx {s : State} {q : Iss} {w : Wave} (place : Nat × Nat × Nat) (k : TxKind) (hw : tfind s.waves q.wid = some w) :
    Waits q s.nextId (s.sendTx q place k true) :=
  waits_holdSplit s.nextId (tfind_raiseCnt (s := { s with nextId := s.nextId + 1, portq := s.portq ++ [txOp q s.nextId place k] }) q.cnt hw)

theorem sentTx_sendTx {i : Instr} {h : Hints} {s : State} {q : Iss} (hi : Issues i h s q) (place : Nat × Nat × Nat) (k : TxKind)
    (holds : Bool) : SentTx q place k holds s ((s.issued i q).sendTx q place k holds) := by
  have hportq : (s.issued i q).portq = s.portq := by simp only [issued_frame]
  refine ⟨(quiet_issued hi.1).trans (quiet_sendTx ..), txOp q (s.issued i q).nextId place k, ?_, rfl, rfl, rfl, rfl, rfl, rfl, rfl, ?_⟩
  · rw [sendTx_portq, hportq]
  · rintro rfl
    exact waits_sendTx place k (wave_issued s i q)

/-- A release that follows the operation leaves it at its port. -/
theorem SentTx.addRel {q : Iss} {place : Nat × Nat × Nat} {k : TxKind} {holds : Bool} {s t : State} (h : SentTx q place k holds s t)
    (scope : Scope) (seq : Nat) (cont : Cont) (split : Nat) (pc : DWord) (word : BitVec 96) (lanes : Word) :
    SentTx q place k holds s (t.addRel q.wid scope seq [] cont split pc word lanes) := by
  obtain ⟨hquiet, op, hportq, hwid, hseq, hlvl, hunit, hoff, hwhat, hcnt, hwaits⟩ := h
  exact ⟨hquiet.trans (quiet_addRel ..), op, (addRel_portq ..).trans hportq, hwid, hseq, hlvl, hunit, hoff, hwhat, hcnt,
    fun hh => (hwaits hh).addRel ..⟩

/-- An instruction whose whole effect is to send an operation has sent it. -/
theorem completes_sendTx {i : Instr} {h : Hints} {s : State} {q : Iss} {body : Iss → State → Res} {place : Nat × Nat × Nat} {k : TxKind}
    {holds : Bool} (hi : Issues i h s q) (he : exec i s = runInstr i h body s)
    (hb : body q (s.issued i q) = .done ((s.issued i q).sendTx q place k holds)) : Completes i s (SentTx q place k holds s) :=
  ⟨_, he.trans (runInstr_done hi hb), sentTx_sendTx hi place k holds⟩

/-! The effects of the instructions, when their operand names a barrier. -/

section
variable {q : Iss} {a : Opd} {place : Nat × Nat × Nat} (hname : txName q.grid q.team (q.uni a) = .ok place)
include hname

theorem txBody_named {bad : Bool} (hbad : bad = false) (k : TxKind) (holds : Bool) (s : State) :
    txBody a bad k holds q s = .done (s.sendTx q place k holds) := by
  simp only [txBody, hname, hbad, Bool.false_eq_true, if_false]

theorem txinitBody_named {b : SrcB} (h0 : (q.uniB b).toNat ≠ 0) (hmax : (q.uniB b).toNat ≤ 16777215) (s : State) :
    txinitBody a b q s = .done (s.sendTx q place (.init (q.uniB b).toNat) false) :=
  txBody_named hname (by simp [h0, hmax]) (.init (q.uniB b).toNat) false s

/-- An arrival releases at cluster scope where a cluster barrier may hear of it, at team scope elsewhere (R140). -/
theorem txarriveBody_named {b : SrcB} (h0 : (q.uniB b).toNat ≠ 0) (s : State) :
    ∃ scope, (scope = .team ∨ scope = .clu) ∧ txarriveBody a b q s
      = .done ((s.sendTx q place (.arrive (q.uniB b).toNat) true).addRel q.wid scope q.seq [] .nothing q.split q.pc q.word q.part) := by
  refine ⟨if place.1 = 1 ∨ s.spNat place.1 place.2.1 place.2.2 16 / 2 ^ 122 % 2 = 1 then .clu else .team, ?_, ?_⟩
  · split
    · exact .inr rfl
    · exact .inl rfl
  · simp only [txarriveBody, hname, if_neg h0]

theorem cbarBody_named {b : Opd} (hleaf : (q.uni a).getLsbD 31 = false) (hroot : (q.uni b).getLsbD 31 = true)
    (halign : ((q.uni b).extractLsb' 0 31).toNat % 16 = 0) (hsize : ((q.uni b).extractLsb' 0 31).toNat + 16 ≤ q.grid.sclu) (s : State) :
    cbarBody a b q s = .done (s.sendTx q place (.cbar ((q.uni b).extractLsb' 0 31).toNat) true) := by
  have hlevels : ¬ ((q.uni a).getLsbD 31 = true ∨ (!(q.uni b).getLsbD 31) = true) := by rw [hleaf, hroot]; decide
  have hplace : ¬ (((q.uni b).extractLsb' 0 31).toNat % 16 ≠ 0 ∨ ((q.uni b).extractLsb' 0 31).toNat + 16 > q.grid.sclu) := by omega
  simp only [cbarBody, if_neg hlevels, hname, if_neg hplace]

end

/-- TXARRIVE sends its arrival, and stands behind a release at team or cluster scope (R140). -/
theorem completes_txarrive {h : Hints} {a : Opd} {b : SrcB} {s : State} {q : Iss} {place : Nat × Nat × Nat}
    (hname : txName q.grid q.team (q.uni a) = .ok place) (hi : Issues (.txarrive h a b) h s q) (h0 : (q.uniB b).toNat ≠ 0) :
    ∃ scope, (scope = .team ∨ scope = .clu) ∧ Completes (.txarrive h a b) s fun t =>
      SentTx q place (.arrive (q.uniB b).toNat) true s t ∧ Releasing q scope (fun c => c = .nothing) t := by
  obtain ⟨scope, hscope, hbody⟩ := txarriveBody_named hname h0 (s.issued (.txarrive h a b) q)
  have hsent := sentTx_sendTx hi place (.arrive (q.uniB b).toNat) true
  have hbeyond : scope ≠ .wave := by rintro rfl; simp at hscope
  obtain ⟨w, hw, -⟩ := waits_sendTx place (.arrive (q.uniB b).toNat) (wave_issued s (.txarrive h a b) q)
  exact ⟨scope, hscope, _, runInstr_done hi hbody, hsent.addRel .., releasing_addRel hw hbeyond ..⟩

/-- Settles O32: each instruction past its checks sends its one operation, and the release of TXARRIVE leaves it where it is. -/
theorem barrierInstructions : Obligations.BarrierInstructions := by
  unfold Obligations.BarrierInstructions
  intro s q h d a b v lvl unit off hname sent
  refine ⟨?_, ?_, ?_, ?_, ?_, ?_⟩
  · intro hi h0 hmax
    exact completes_sendTx hi rfl (txinitBody_named hname h0 hmax _)
  · intro hi
    exact completes_sendTx hi rfl (txBody_named hname rfl _ true _)
  · intro hi h0
    obtain ⟨scope, hscope, t, hexec, hsent, hrel⟩ := completes_txarrive hname hi h0
    exact ⟨⟨t, hexec, hsent⟩, scope, hscope, t, hexec, hrel⟩
  · intro hi
    exact completes_sendTx hi rfl (txBody_named hname rfl _ true _)
  · intro hi
    exact completes_sendTx hi rfl (txBody_named hname rfl _ true _)
  · intro hi hleaf hroot halign hsize
    exact completes_sendTx hi rfl (cbarBody_named hname hleaf hroot halign hsize _)

end Sys2Proof.Machine
end

section
/-! PROOFS. Forest instructions at issue (R142, R167, R302, R303): posted behind a release when the core TLB holds the descriptor's page, left as
a request when it does not. -/

namespace Sys2Proof.Machine

/- One proof at a time: many at once cost a thread, and its stack, each. -/
set_option Elab.async false

theorem issued_forestq (s : State) (i : Instr) (q : Iss) : (s.issued i q).forestq = s.forestq := by
  unfold State.issued
  simp only
  split <;> rfl

theorem addRel_forestq (s : State) (wid : Nat) (scope : Scope) (seq : Nat) (cnt : List Nat) (cont : Cont) (split : Nat) (pc : DWord)
    (word : BitVec 96) (lanes : Word) : (s.addRel wid scope seq cnt cont split pc word lanes).forestq = s.forestq := by
  unfold State.addRel
  split <;> simp only [State.modWave_forestq]

/-! The elements that a request keeps for its lanes (R303). -/

/-- Pairs that a request can keep in one number each: the low part has at most 64 bits. -/
def Elements (args : List (Nat × Nat × Nat)) : Prop := ∀ e ∈ args, e.2.1 < 2 ^ 64

theorem forestAux_elements {args : List (Nat × Nat × Nat)} (h : Elements args) :
    (forestAux args).map (fun e => (e.1, e.2 % 2 ^ 64, e.2 / 2 ^ 64)) = args := by
  rw [forestAux, List.map_map]
  refine (List.map_congr_left fun e he => ?_).trans (List.map_id args)
  have hlow := h e he
  obtain ⟨l, x, y⟩ := e
  change (l, (x + y * 2 ^ 64) % 2 ^ 64, (x + y * 2 ^ 64) / 2 ^ 64) = (l, x, y)
  rw [Nat.add_mul_mod_self_right, Nat.mod_eq_of_lt hlow, Nat.add_mul_div_right _ _ (by decide), Nat.div_eq_of_lt hlow, Nat.zero_add]

/-! The two ways in which a forest instruction issues. -/

/-- The instruction stands before its descriptor's home with its elements, behind a release at device scope; its split is held and its
counters have risen. -/
def ForestPosted (q : Iss) (i : Instr) (a : Opd) (args : List (Nat × Nat × Nat)) (pa key : Nat) (s t : State) : Prop :=
  Quiet q s t ∧ ∃ o w, t.forestq = s.forestq ++ [o] ∧ o.instr = i ∧ o.wid = q.wid ∧ o.seq = q.seq ∧ o.desc = q.uni64 a ∧ o.pa = pa
    ∧ o.key = key ∧ o.args = args ∧ o.ready = false ∧ o.cnt = q.cnt ∧ Waits q o.id t ∧ Releasing q .dev (fun k => k = .forest o.id) t
    ∧ tfind t.waves q.wid = some w ∧ ∀ k, w.kreg k = q.w.kreg k + if q.cnt.contains k then 1 else 0

/-- The instruction has left a request for its descriptor's page; its split is held and its counters have risen. -/
def ForestMisses (q : Iss) (i : Instr) (a : Opd) (args : List (Nat × Nat × Nat)) (s t : State) : Prop :=
  Quiet q s t ∧ t.forestq = s.forestq ∧ ∃ w r, tfind t.waves q.wid = some w ∧ w.reqs = q.w.reqs ++ [r] ∧ r.instr = i ∧ r.seq = q.seq
    ∧ r.cnt = q.cnt ∧ r.aux = forestAux args ∧ Waits q r.id t ∧ (∃ p, r.pieces = [p] ∧ p.st = .untranslated ∧ p.va = q.uni64 a)
    ∧ ∀ k, w.kreg k = q.w.kreg k + if q.cnt.contains k then 1 else 0

/-- The request of a forest instruction: one access to its descriptor, and its elements (R148, R167). -/
def forestReq (q : Iss) (id t7 : Nat) (i : Instr) (a : Opd) (args : List (Nat × Nat × Nat)) : Req :=
  { q.mkReq id i q.part [⟨q.lanes.headD 0, 0, 1, q.uni64 a, .va (q.uni64 a), .untranslated, [], t7, 0⟩] q.cnt with aux := forestAux args }

section
variable {i : Instr} {a : Opd} {args : List (Nat × Nat × Nat)} {q : Iss} {s : State}

theorem forestBody_hit {pa key : Nat} (hloc : s.locateVa q.w.ctx (wCore q.wid) (q.uni64 a) .read = .ok (.mem pa key))
    (hplane : s.noPlane q.w.ctx pa = false) :
    forestBody i a args q s = .done (((({ s with nextId := s.nextId + 1 } : State).raiseCnt q q.cnt).holdSplit q s.nextId).postForest
      ((forestReq q s.nextId s.t7 i a args).forestOp q.wid pa key (q.uni64 a))) := by
  simp only [forestBody, hloc, hplane, Bool.false_eq_true, if_false]
  rfl

theorem forestBody_miss (hloc : s.locateVa q.w.ctx (wCore q.wid) (q.uni64 a) .read = .ok (.va (q.uni64 a))) :
    forestBody i a args q s = .done ((s.addReq q (forestReq q s.nextId s.t7 i a args)).holdSplit q s.nextId) := by
  simp only [forestBody, hloc]
  rfl

/-- With no tagged element, the lanes' elements are those of their words (R167). -/
theorem forestLanes_untagged {xs : List (Nat × Lane × Lane)} (hx : ∀ x ∈ xs, x.2.1.tag = false ∧ x.2.2.tag = false) :
    forestLanes i a xs q s = forestBody i a (xs.map fun x => (x.1, x.2.1.w.toNat, x.2.2.w.toNat)) q s := by
  refine if_neg fun h => ?_
  obtain ⟨x, hmem, htag⟩ := List.any_eq_true.mp h
  obtain ⟨h1, h2⟩ := hx x hmem
  rw [h1, h2] at htag
  cases htag

end

section
variable {i : Instr} {h : Hints} {a : Opd} {args : List (Nat × Nat × Nat)} {q : Iss} {s : State} {body : Iss → State → Res}
  (hi : Issues i h s q) (he : exec i s = runInstr i h body s) (hb : body q (s.issued i q) = forestBody i a args q (s.issued i q))
include hi he hb

theorem completes_forestHit (hargs : Elements args) {pa key : Nat}
    (hloc : (s.issued i q).locateVa q.w.ctx (wCore q.wid) (q.uni64 a) .read = .ok (.mem pa key))
    (hplane : (s.issued i q).noPlane q.w.ctx pa = false) : Completes i s (ForestPosted q i a args pa key s) := by
  let u := s.issued i q
  let u1 : State := { u with nextId := u.nextId + 1 }
  let o := (forestReq q u.nextId u.t7 i a args).forestOp q.wid pa key (q.uni64 a)
  let held : State := (u1.raiseCnt q q.cnt).holdSplit q u.nextId
  let queued : State := { held with forestq := held.forestq ++ [o] }
  have hraised : tfind (u1.raiseCnt q q.cnt).waves q.wid = some ((issuedWave q).raise q.cnt) := tfind_raiseCnt _ (wave_issued s i q)
  have hwave : tfind queued.waves q.wid = some (((issuedWave q).raise q.cnt).modSplit q.split fun p => { p with waitOn := some u.nextId }) :=
    tfind_holdSplit _ hraised
  have hwaits : Waits q u.nextId queued := waits_holdSplit u.nextId hraised
  have hquiet : Quiet q s queued :=
    ((quiet_issued hi.1).trans (quiet_raiseCnt q u1 q.cnt)).trans (quiet_holdSplit ..)
  have hforestq : held.forestq = s.forestq := by
    simp only [held, State.holdSplit, State.raiseCnt, State.modWave_forestq]
    exact issued_forestq s i q
  obtain ⟨rels, hfinal⟩ := tfind_addRel_own .dev q.seq (.forest u.nextId) q.split q.pc q.word q.part hwave
  obtain ⟨-, -, -, hcnt⟩ := passed_raise hi (v := issuedWave q) rfl rfl
  refine ⟨_, he.trans (runInstr_done hi (hb.trans (forestBody_hit hloc hplane))), hquiet.trans (quiet_addRel ..), o, _, ?_, rfl, rfl, rfl, rfl,
    rfl, rfl, forestAux_elements hargs, rfl, rfl, hwaits.addRel .., releasing_addRel hwave (by decide) .., hfinal, hcnt⟩
  exact (addRel_forestq ..).trans (congrArg (· ++ [o]) hforestq)

theorem completes_forestMiss
    (hloc : (s.issued i q).locateVa q.w.ctx (wCore q.wid) (q.uni64 a) .read = .ok (.va (q.uni64 a))) :
    Completes i s (ForestMisses q i a args s) := by
  let u := s.issued i q
  let r := forestReq q u.nextId u.t7 i a args
  have hwave : tfind (u.addReq q r).waves q.wid = some (({ issuedWave q with reqs := q.w.reqs ++ [r] } : Wave).raise q.cnt) :=
    tfind_modWave_some _ (wave_issued s i q)
  obtain ⟨-, -, -, hcnt⟩ := passed_raise hi (v := { issuedWave q with reqs := q.w.reqs ++ [r] }) rfl rfl
  refine ⟨_, he.trans (runInstr_done hi (hb.trans (forestBody_miss hloc))),
    ((quiet_issued hi.1).trans (quiet_addReq ..)).trans (quiet_holdSplit ..), ?_, _, r, tfind_holdSplit _ hwave, ?_, rfl, rfl, rfl, rfl,
    waits_holdSplit _ hwave, ⟨_, rfl, rfl, rfl⟩, hcnt⟩
  · simp only [State.holdSplit, State.addReq, State.modWave_forestq]
    exact issued_forestq s i q
  · exact Wave.raise_reqs ..

/-- A forest instruction whose elements a request can keep is posted at a hit, and leaves its request at a miss (R167). -/
theorem completes_forest (hargs : Elements args) :
    (∀ pa key, (s.issued i q).locateVa q.w.ctx (wCore q.wid) (q.uni64 a) .read = .ok (.mem pa key) →
      (s.issued i q).noPlane q.w.ctx pa = false → Completes i s (ForestPosted q i a args pa key s))
    ∧ ((s.issued i q).locateVa q.w.ctx (wCore q.wid) (q.uni64 a) .read = .ok (.va (q.uni64 a)) →
      Completes i s (ForestMisses q i a args s)) :=
  ⟨fun _ _ => completes_forestHit hi he hb hargs, completes_forestMiss hi he hb⟩

end

theorem elements_words (ls : List Nat) (x y : Nat → Word) : Elements (ls.map fun l => (l, (x l).toNat, (y l).toNat)) := by
  intro e he
  obtain ⟨l, -, rfl⟩ := List.mem_map.mp he
  exact (x l).isLt.trans (by decide)

theorem elements_addresses (x y : DWord) : Elements [(0, x.toNat, y.toNat)] := by
  intro e he
  rw [List.mem_singleton] at he
  subst he
  exact x.isLt

theorem elements_nil : Elements [] := List.forall_mem_nil _

/-- Settles O34: every form is its descriptor's access with the elements of its own operands. -/
theorem forestInstructions : Obligations.ForestInstructions := by
  unfold Obligations.ForestInstructions
  intro s q h d a b c label compact s32 op does
  refine ⟨?_, ?_, ?_, ?_, ?_, ?_, ?_, ?_⟩
  · exact fun hi => completes_forest hi rfl rfl elements_nil
  · exact fun hi => completes_forest hi rfl rfl elements_nil
  · exact fun hi => completes_forest hi rfl rfl elements_nil
  · exact fun hi => completes_forest hi rfl rfl elements_nil
  · exact fun hi => completes_forest hi rfl rfl elements_nil
  · exact fun hi => completes_forest hi rfl rfl (elements_addresses (q.uni64 b) (q.uni64 c))
  · intro hu hi
    refine completes_forest hi rfl ((forestLanes_untagged ?_).trans ?_) (elements_words q.lanes (fun l => (q.src b l).w) fun l => (q.src c l).w)
    · intro x hx
      obtain ⟨l, hl, rfl⟩ := List.mem_map.mp hx
      exact ⟨hu l hl _ (by simp), hu l hl _ (by simp)⟩
    · rw [List.map_map]
      rfl
  · intro hu hi
    refine completes_forest hi rfl ((forestLanes_untagged ?_).trans ?_) (elements_words q.lanes (fun l => (q.src b l).w) fun _ => 0)
    · intro x hx
      obtain ⟨l, hl, rfl⟩ := List.mem_map.mp hx
      exact ⟨hu l hl _ (by simp), rfl⟩
    · rw [List.map_map]
      rfl

end Sys2Proof.Machine
end

section
/-! PROOFS. FRAME, QPUT and HINT (R150, R157, R275, R307, R308). -/

namespace Sys2Proof.Machine

/- One proof at a time: many at once cost a thread, and its stack, each. -/
set_option Elab.async false

/-- A further fact about the one state that an instruction answers joins what is known of it. -/
theorem Completes.and_of {i : Instr} {s t : State} {P Q : State → Prop} (h : Completes i s P) (ht : exec i s = .next t) (hQ : Q t) :
    Completes i s fun t => P t ∧ Q t := by
  obtain ⟨u, hu, hP⟩ := h
  cases hu.symm.trans ht
  exact ⟨t, ht, hP, hQ⟩

theorem Accounted.quiet {s t : State} (h : Accounted s t) (q : Iss) : Quiet q s t :=
  ⟨h.sameMemory, fun k _ => by rw [h.waves], fun x => by rw [State.newest, h.waves, State.newest]⟩

theorem Fetches.quiet {s t : State} (h : Fetches s t) (q : Iss) : Quiet q s t :=
  ⟨h.memory, fun k _ => by rw [h.waves], fun x => by rw [State.newest, h.waves, State.newest]⟩

/-! FRAME (R150, R275). -/

theorem accounted_runWalked (s : State) (ctx : Nat) (t : Tr) (va : DWord) : Accounted s (s.runWalked ctx t va) :=
  .ite (.refl s) (.foldl (fun _ _ => accounted_walked ..) _ _)

/-- A frame register takes a value. -/
def Wave.setFrame (w : Wave) (k : Nat) (f : BitVec 192) : Wave := { w with f := tset 0 w.f k f }

theorem newest_setFrame (w : Wave) (k : Nat) (f : BitVec 192) (x : Target) : (w.setFrame k f).newest x = w.newest x := by
  cases x <;> rfl

/-- Of a wave in which FRAME has issued, one frame register has its value, whatever counts and whatever is in flight. -/
theorem issuedWave_setFrame (q : Iss) (k : Nat) (f : BitVec 192) (pend : List Writeback) (n : Tab (BitVec 6)) :
    ({ (issuedWave q).setFrame k f with pend := pend, k := n } : Wave).x = q.w.x
      ∧ ∀ j, tget 0 ({ (issuedWave q).setFrame k f with pend := pend, k := n } : Wave).f j = if j = k then f else tget 0 q.w.f j :=
  ⟨rfl, fun j => tget_tset 0 q.w.f k f j⟩

/-- The one access of a FRAME, before its page is translated. -/
def framePiece (q : Iss) (va : DWord) (t7 : Nat) : Piece := ⟨q.lanes.headD 0, 0, 1, va, .va va, .untranslated, [], t7, 0⟩

section
variable {i : Instr} {d a : Opd} {q : Iss} {s : State} (hva : (q.uni64 a).extractLsb' 56 8 = 0)
include hva

/-- A page that the core TLB holds, and the entries of whose run can be read, gives the register. -/
theorem frameBody_hit {t0 t1 : Tr} (hfind : tlbFind (s.core (wCore q.wid)).tlb q.w.ctx (q.uni64 a) = some t0)
    (hjudge : s.judgeTr q.w.ctx t0 .read = .ok t1) (hserve : s.runServable q.w.ctx t1 (q.uni64 a) = true) :
    frameBody i d a q s = .done (((s.runWalked q.w.ctx t1 (q.uni64 a)).modWave q.wid fun w =>
      w.setFrame d.idx.toNat (s.frameOf q.w.ctx t1 (q.uni64 a))).quick q) := by
  simp only [frameBody, hva, hfind, hjudge, hserve, bne_self_eq_false, Bool.not_true, Bool.false_eq_true, if_false]
  rfl

/-- A page that the core TLB does not hold, or the entries of whose run cannot be read now, leaves a request. -/
theorem frameBody_miss (hmiss : tlbFind (s.core (wCore q.wid)).tlb q.w.ctx (q.uni64 a) = none
      ∨ ∃ t0 t1, tlbFind (s.core (wCore q.wid)).tlb q.w.ctx (q.uni64 a) = some t0 ∧ s.judgeTr q.w.ctx t0 .read = .ok t1
        ∧ s.runServable q.w.ctx t1 (q.uni64 a) = false) :
    frameBody i d a q s = .done (s.addReq q (q.mkReq s.nextId i q.part [framePiece q (q.uni64 a) s.t7] q.cnt)) := by
  rcases hmiss with hfind | ⟨t0, t1, hfind, hjudge, hserve⟩
  · simp only [frameBody, hva, hfind, bne_self_eq_false, Bool.false_eq_true, if_false]
    rfl
  · simp only [frameBody, hva, hfind, hjudge, hserve, bne_self_eq_false, Bool.not_false, Bool.false_eq_true, if_false, if_true]
    rfl

end

/-- Settles O29: a hit whose run can be read writes the register in the wave, with the walks of the run accounted; else the request stands. -/
theorem frameRegisters : Obligations.FrameRegisters := by
  unfold Obligations.FrameRegisters
  intro s q h d a hi hva va u
  have ht7 : u.t7 = s.t7 := by simp only [u, issued_frame]
  refine ⟨fun t0 t1 hfind hjudge hserve => ?_, fun hmiss => ?_⟩
  · have hacc : Accounted u (u.runWalked q.w.ctx t1 va) := accounted_runWalked ..
    have hwave : tfind ((u.runWalked q.w.ctx t1 va).modWave q.wid fun w => w.setFrame d.idx.toNat (u.frameOf q.w.ctx t1 va)).waves q.wid
        = some ((issuedWave q).setFrame d.idx.toNat (u.frameOf q.w.ctx t1 va)) :=
      tfind_modWave_some _ ((congrArg (tfind · q.wid) hacc.waves).trans (wave_issued s _ q))
    exact completes_quick hi rfl (frameBody_hit hva hfind hjudge hserve)
      ((hacc.quiet q).trans (quiet_modWave q _ fun w => newest_setFrame w _ _)) hwave
      (issuedWave_setFrame q d.idx.toNat (u.frameOf q.w.ctx t1 va))
  · have hasked : Asked q (.frame h d a) q.part [framePiece q va s.t7] s
        (u.addReq q (q.mkReq u.nextId (.frame h d a) q.part [framePiece q va u.t7] q.cnt)) :=
      ht7 ▸ asked_addReq hi q.part [framePiece q va u.t7] u.nextId
    exact ⟨_, runInstr_done hi (frameBody_miss hva hmiss), hasked⟩

/-! QPUT (R307). -/

/-- A split held for an operation keeps its place and its mask, so the wave has asked as before. -/
theorem Asked.holdSplit {q : Iss} {i : Instr} {mask : Word} {ps : List Piece} {s t : State} (h : Asked q i mask ps s t) (id : Nat) :
    Asked q i mask ps s (t.holdSplit q id) := by
  obtain ⟨hquiet, w, n, hw, hkeeps, ⟨hpc, hmask, hother, hcnt⟩, hreqs⟩ := h
  have hown : (w.modSplit q.split fun p => { p with waitOn := some id }).split q.split = { w.split q.split with waitOn := some id } :=
    (Wave.split_modSplit ..).trans (if_pos rfl)
  refine ⟨hquiet.trans (quiet_holdSplit ..), _, n, tfind_holdSplit id hw, hkeeps, ⟨?_, ?_, fun j hj => ?_, hcnt⟩, hreqs⟩
  · rw [hown]; exact hpc
  · rw [hown]; exact hmask
  · rw [Wave.split_modSplit, if_neg hj]; exact hother j hj

/-- The request that QPUT leaves. -/
def qputReq (q : Iss) (i : Instr) (a : Opd) (id t7 : Nat) : Req := q.mkReq id i q.part (qputPieces q a t7) q.cnt

theorem qputBody_eq {i : Instr} {a : Opd} {q : Iss} {s : State} (hroom : isTOpd a = true → 256 ≤ tileBytes (q.team.tile (opdIdx a))) :
    qputBody i a q s = .done (((s.addReq q (qputReq q i a s.nextId s.t7)).holdSplit q s.nextId).addRel q.wid .dev q.seq [] (.req s.nextId)
      q.split q.pc q.word q.part) := by
  refine if_neg fun hshort => ?_
  rw [Bool.and_eq_true, decide_eq_true_eq] at hshort
  obtain ⟨htile, hsize⟩ := hshort
  exact absurd (hroom htile) (Nat.not_le.mpr hsize)

/-- QPUT asks for its packet, holds its split, and stands behind a release at device scope. -/
theorem completes_qput {s : State} {q : Iss} {h : Hints} {queue : BitVec 3} {a : Opd} (hi : Issues (.qput h queue a) h s q)
    (hroom : isTOpd a = true → 256 ≤ tileBytes (q.team.tile (opdIdx a))) :
    Completes (.qput h queue a) s fun t => Asked q (.qput h queue a) q.part (qputPieces q a s.t7) s t
      ∧ ∃ w r, tfind t.waves q.wid = some w ∧ r ∈ w.reqs ∧ r.seq = q.seq ∧ Waits q r.id t
        ∧ Releasing q .dev (fun c => c = .req r.id) t := by
  let i : Instr := .qput h queue a
  let u := s.issued i q
  let r := qputReq q i a u.nextId u.t7
  have ht7 : u.t7 = s.t7 := by simp only [u, issued_frame]
  have hasked : Asked q i q.part (qputPieces q a s.t7) s (u.addReq q r) := by
    have := asked_addReq hi q.part (qputPieces q a u.t7) u.nextId
    rwa [ht7] at this
  have hadded : tfind (u.addReq q r).waves q.wid = some (({ issuedWave q with reqs := q.w.reqs ++ [r] } : Wave).raise q.cnt) :=
    tfind_modWave_some _ (wave_issued s i q)
  have hheld := tfind_holdSplit u.nextId hadded
  obtain ⟨rels, hfinal⟩ := tfind_addRel_own .dev q.seq (.req u.nextId) q.split q.pc q.word q.part hheld
  refine ⟨_, runInstr_done hi (qputBody_eq hroom), (hasked.holdSplit _).addRel .., _, r, hfinal, ?_, rfl,
    (waits_holdSplit u.nextId hadded).addRel .., releasing_addRel hheld (by decide) ..⟩
  change r ∈ (({ issuedWave q with reqs := q.w.reqs ++ [r] } : Wave).raise q.cnt).reqs
  rw [Wave.raise_reqs]
  exact List.mem_append_right _ (List.mem_singleton_self r)

/-! HINT (R157, R308). -/

theorem Accounted.pme {s t : State} (h : Accounted s t) : t.pme = s.pme := by obtain ⟨_, _, _, _, rfl, _⟩ := h; rfl

theorem issued_pme (s : State) (i : Instr) (q : Iss) : (s.issued i q).pme = s.pme := by
  unfold State.issued
  simp only
  split <;> rfl

theorem serveMiss_pme (s : State) (ctx core : Nat) (va : DWord) (acc : Acc) (n m : Nat) :
    (s.serveMiss ctx core va acc n m).2.pme = s.pme := by
  unfold State.serveMiss
  extract_lets k fillCore u
  have hu : u.pme = s.pme := ((accounted_pmc s ctx 6 1).trans (accounted_walked ..)).pme
  have hcore : ∀ (v : State) (t : Tr), (fillCore v t).pme = v.pme := fun _ _ => rfl
  have hclu : ∀ (v : State) (f : Cluster → Cluster), (v.modCluster k f).pme = v.pme := fun _ _ => rfl
  clear_value fillCore u
  split
  · split
    · exact hcore ..
    · rfl
  · split
    · exact hu
    · exact (hcore ..).trans ((hclu ..).trans hu)

theorem missed_pme (s : State) (ctx core : Nat) (va : DWord) (acc : Acc) : (s.missed ctx core va acc).pme = s.pme := by
  unfold State.missed
  split
  · rfl
  · exact serveMiss_pme ..

/-- What HINT makes of a hotness counter, where PROMOTE is `n` (R308). -/
def hinted (kind : HintKind) (n c : BitVec 8) : BitVec 8 :=
  match kind with
  | .hot => if c.toNat < n.toNat then n else c
  | .cold => 0

/-- A hotness counter takes a value. -/
def State.setHot (s : State) (frame : Nat) (c : BitVec 8) : State := { s with phys := { s.phys with hot := tset 0 s.phys.hot frame c } }

theorem hintBody_ok {kind : HintKind} {a : Opd} {q : Iss} {s : State} {tr : Tr}
    (hx : s.xlate q.w.ctx (wCore q.wid) (q.uni64 a) .read = .ok tr) :
    hintBody kind a q s = .done (((s.missed q.w.ctx (wCore q.wid) (q.uni64 a) .read).setHot tr.frame
      (hinted kind s.promote (tget 0 (s.missed q.w.ctx (wCore q.wid) (q.uni64 a) .read).phys.hot tr.frame))).quick q) := by
  have hpromote : s.promote = (s.missed q.w.ctx (wCore q.wid) (q.uni64 a) .read).promote := by rw [State.promote, State.promote, missed_pme]
  simp only [hintBody, hx, hpromote]
  rfl

theorem hintBody_error {kind : HintKind} {a : Opd} {q : Iss} {s : State} {c : BitVec 7}
    (hx : s.xlate q.w.ctx (wCore q.wid) (q.uni64 a) .read = .error c) :
    hintBody kind a q s = .done ((s.missed q.w.ctx (wCore q.wid) (q.uni64 a) .read).quick q) := by
  simp only [hintBody, hx]

theorem quick_hot (s : State) (q : Iss) : (s.quick q).phys = s.phys := by
  unfold State.quick
  split
  · rfl
  · simp only [State.writeLater, State.modWave_phys]

/-- An instruction that leaves its waves as issuing left them, and then counts, writes nothing and answers the state so reached. -/
theorem completes_counted {s u : State} {i : Instr} {h : Hints} {q : Iss} {body : Iss → State → Res} (hi : Issues i h s q)
    (he : exec i s = runInstr i h body s) (hb : body q (s.issued i q) = .done (u.quick q)) (hu : Quiet q (s.issued i q) u)
    (hwaves : u.waves = (s.issued i q).waves) : Completes i s fun t => Wrote q (q.pc + 12) [] s t ∧ t.phys = u.phys := by
  obtain ⟨-, -, -, -, -, -, hmask, -⟩ := sight_some hi.1
  refine Completes.and_of (completes_moved hi he hb hu ((congrArg (tfind · q.wid) hwaves).trans (wave_issued s i q)) (issuedWave_keeps q) rfl
    ?_ ?_ fun j hj => issuedWave_other hj) (he.trans (runInstr_done hi hb)) (quick_hot u q)
  · rw [issuedWave_own]
  · rw [issuedWave_own, hmask]

/-- Settles O37: QPUT leaves its read behind its release; HINT's counter changes after its own translation has been served and counted. -/
theorem queueAndHint : Obligations.QueueAndHint := by
  unfold Obligations.QueueAndHint
  refine ⟨fun s q h queue a hi hroom => completes_qput hi hroom, ?_⟩
  intro s q h kind a hi u
  have hfetch : Fetches (s.issued (.hint h kind a) q) u := fetches_missed ..
  refine ⟨fun tr hx => ?_, fun c hx => ?_⟩
  · have hpromote : (s.issued (.hint h kind a) q).promote = s.promote := by rw [State.promote, State.promote, issued_pme]
    let n := hinted kind s.promote (tget 0 u.phys.hot tr.frame)
    have hb : hintBody kind a q (s.issued (.hint h kind a) q) = .done ((u.setHot tr.frame n).quick q) := by rw [hintBody_ok hx, hpromote]
    obtain ⟨t, hexec, hwrote, hphys⟩ := completes_counted hi rfl hb
      ((hfetch.quiet q).trans ⟨⟨fun _ => rfl, fun _ _ _ => rfl⟩, fun _ _ => rfl, fun _ => rfl⟩) hfetch.waves
    refine ⟨t, hexec, hwrote, fun f => ?_⟩
    rw [hphys]
    refine (tget_tset ..).trans ?_
    split
    · next hf => subst hf; rfl
    · rfl
  · obtain ⟨t, hexec, hwrote, hphys⟩ := completes_counted hi rfl (hintBody_error hx) (hfetch.quiet q) hfetch.waves
    exact ⟨t, hexec, hwrote, by rw [hphys]⟩

end Sys2Proof.Machine
end

section
/-! PROOFS. Accounts of the device's reads move nothing that says which accesses stand before memory (R54, R104 to R106, R264 to R267, R327):
translation at homes, what waits for what, and the sectors of every access. -/

namespace Sys2Proof.Machine

/- One proof at a time: many at once cost a thread, and its stack, each. -/
set_option Elab.async false

section
variable {s t : State} (h : Accounted s t)
include h

/-! What the state lists. -/

theorem Accounted.t7 : t.t7 = s.t7 := by obtain ⟨_, _, _, _, rfl, _⟩ := h; rfl
theorem Accounted.homeq : t.homeq = s.homeq := by obtain ⟨_, _, _, _, rfl, _⟩ := h; rfl
theorem Accounted.portq : t.portq = s.portq := by obtain ⟨_, _, _, _, rfl, _⟩ := h; rfl
theorem Accounted.link : t.link = s.link := by obtain ⟨_, _, _, _, rfl, _⟩ := h; rfl
theorem Accounted.home : t.home = s.home := by obtain ⟨_, _, _, _, rfl, _⟩ := h; rfl
theorem Accounted.cluster : t.cluster = s.cluster := by obtain ⟨_, _, _, _, rfl, _⟩ := h; rfl
theorem Accounted.window : t.window = s.window := by obtain ⟨_, _, _, _, rfl, _⟩ := h; rfl

/-! Places, and what stops an access there. -/

theorem Accounted.place : t.place = s.place := by obtain ⟨_, _, _, _, rfl, _⟩ := h; rfl
theorem Accounted.isPeer : t.isPeer = s.isPeer := by obtain ⟨_, _, _, _, rfl, _⟩ := h; rfl
theorem Accounted.noPlane : t.noPlane = s.noPlane := by obtain ⟨_, _, _, _, rfl, _⟩ := h; rfl
theorem Accounted.planesShut : t.planesShut = s.planesShut := by obtain ⟨_, _, _, _, rfl, _⟩ := h; rfl
theorem Accounted.groupOf : t.groupOf = s.groupOf := by obtain ⟨_, _, _, _, rfl, _⟩ := h; rfl
theorem Accounted.touches : t.touches = s.touches := by obtain ⟨_, _, _, _, rfl, _⟩ := h; rfl
theorem Accounted.stopAt : t.stopAt = s.stopAt := by obtain ⟨_, _, _, _, rfl, _⟩ := h; rfl
theorem Accounted.overlay : t.overlay = s.overlay := by obtain ⟨_, _, _, _, rfl, _⟩ := h; rfl
theorem Accounted.physRead : t.physRead = s.physRead := by obtain ⟨_, _, _, _, rfl, _⟩ := h; rfl
theorem Accounted.judgeTr : t.judgeTr = s.judgeTr := by obtain ⟨_, _, _, _, rfl, _⟩ := h; rfl

theorem Accounted.storeStop : t.storeStop = s.storeStop := by
  funext who ctx sector key n
  simp only [State.storeStop, h.stopAt]

/-! Messages to homes (R104 to R106). -/

theorem Accounted.homeXlate : t.homeXlate = s.homeXlate := by
  funext ctx cluster va acc
  simp only [State.homeXlate, h.cluster, h.judgeTr, h.walk]

theorem Accounted.homeByte : t.homeByte = s.homeByte := by
  funext it a off k acc
  simp only [State.homeByte, h.homeXlate, h.noPlane]

theorem Accounted.homeParts : t.homeParts = s.homeParts := by
  funext it a off n acc
  simp only [State.homeParts, h.homeByte]

theorem Accounted.firstOf : t.firstOf = s.firstOf := by
  funext it
  simp only [State.firstOf, h.homeq]

theorem Accounted.readyKind : t.readyKind = s.readyKind := by
  funext it
  simp only [State.readyKind, h.home]

theorem Accounted.homeSent : t.homeSent = s.homeSent := by
  funext id
  simp only [State.homeSent, h.link]

theorem Accounted.itemReady : t.itemReady = s.itemReady := by
  funext it
  simp only [State.itemReady, h.home, h.firstOf, h.homeSent]

theorem Accounted.itemTouches : t.itemTouches = s.itemTouches := by
  funext it sec
  simp only [State.itemTouches, State.partsTouch, h.place, h.firstOf, h.readyKind, h.homeParts]

theorem Accounted.loadParts : t.loadParts = s.loadParts := by
  funext it
  simp only [State.loadParts, h.readyKind, h.homeParts]

theorem Accounted.atomAt : t.atomAt = s.atomAt := by
  funext it
  simp only [State.atomAt, h.readyKind, h.homeByte]

/-! What holds an access back behind its wave's own (R264 to R267). -/

theorem Accounted.acqBlocked : t.acqBlocked = s.acqBlocked := by
  funext wid seq
  simp only [State.acqBlocked, h.waves, h.portq]

theorem Accounted.relBlocked : t.relBlocked = s.relBlocked := by
  funext wid seq
  simp only [State.relBlocked, h.waves]

theorem Accounted.holdsBack : t.holdsBack = s.holdsBack := by
  funext w r
  simp only [State.holdsBack, h.planesShut]

theorem Accounted.earlier : t.earlier = s.earlier := by
  funext w at_ sec
  simp only [State.earlier, h.touches]

theorem Accounted.postedBefore : t.postedBefore = s.postedBefore := by
  funext wid at_ sec
  simp only [State.postedBefore, h.homeq, h.itemTouches]

theorem Accounted.readBefore : t.readBefore = s.readBefore := by
  funext wid at_ sec
  simp only [State.readBefore, h.homeq, h.itemTouches]

theorem Accounted.queuedAt : t.queuedAt = s.queuedAt := by
  funext it sec
  simp only [State.queuedAt, h.place]

theorem Accounted.queuedBefore : t.queuedBefore = s.queuedBefore := by
  funext wid at_ sec bytes
  simp only [State.queuedBefore, h.homeq, h.queuedAt]

theorem Accounted.nextThere : t.nextThere = s.nextThere := by
  funext wid w at_ sec bytes
  simp only [State.nextThere, h.earlier, h.postedBefore, h.queuedBefore]

theorem Accounted.homeClear : t.homeClear = s.homeClear := by
  funext it pa
  simp only [State.homeClear, h.acqBlocked, h.waves, h.earlier, h.place]

theorem Accounted.coveredStore : t.coveredStore = s.coveredStore := by
  funext it sec
  simp only [State.coveredStore, h.waves, h.place, h.queuedBefore, h.homeq]

theorem Accounted.loadClear : t.loadClear = s.loadClear := by
  funext it pa
  simp only [State.loadClear, h.homeClear, h.postedBefore, h.place, h.coveredStore, h.readBefore]

theorem Accounted.atomClear : t.atomClear = s.atomClear := by
  funext it pa
  simp only [State.atomClear, h.itemReady, h.relBlocked, h.homeClear, h.postedBefore, h.place]

theorem Accounted.atomNext : t.atomNext = s.atomNext := by
  funext it pa
  simp only [State.atomNext, h.atomClear, h.waves, h.nextThere, h.place]

theorem Accounted.asks : t.asks = s.asks := by
  funext wid w sec
  simp only [State.asks, h.acqBlocked, h.relBlocked, h.place, h.earlier, h.postedBefore, h.homeq, h.queuedAt, h.atomAt, h.atomClear]

theorem Accounted.demanded : t.demanded = s.demanded := by
  funext it w sec
  simp only [State.demanded, h.homeq, h.queuedAt, h.asks]

theorem Accounted.queuedClear : t.queuedClear = s.queuedClear := by
  funext it
  simp only [State.queuedClear, h.waves, h.place, h.relBlocked, h.home, h.homeSent, h.acqBlocked, h.nextThere, h.demanded]

/-! The sectors of every access (R327). -/

theorem Accounted.coreSectors : t.coreSectors = s.coreSectors := by
  funext core
  simp only [State.coreSectors, h.waves, h.place]

theorem Accounted.mayAsk : t.mayAsk = s.mayAsk := by
  funext core req sec
  simp only [State.mayAsk, h.coreSectors]

theorem Accounted.loadDues : t.loadDues = s.loadDues := by
  funext wid w r
  simp only [State.loadDues, h.acqBlocked, h.holdsBack, h.place, h.isPeer, h.earlier, h.postedBefore, h.mayAsk, h.stopAt]

theorem Accounted.bufferedBefore : t.bufferedBefore = s.bufferedBefore := by
  funext w at_ sec
  simp only [State.bufferedBefore, h.place]

theorem Accounted.ownerDues : t.ownerDues = s.ownerDues := by
  funext wid w r
  simp only [State.ownerDues, State.ownerStop, h.acqBlocked, h.relBlocked, h.holdsBack, h.place, h.isPeer, h.nextThere, h.bufferedBefore, h.stopAt,
    h.storeStop]

theorem Accounted.barSeqs : t.barSeqs = s.barSeqs := by
  funext wid w sec
  simp only [State.barSeqs, h.touches, h.portq, h.homeq, h.itemTouches]

theorem Accounted.earlyCap : t.earlyCap = s.earlyCap := by
  funext wid e
  simp only [State.earlyCap, State.earlyStands, h.window, h.waves, h.homeq]

theorem Accounted.coveredBytes : t.coveredBytes = s.coveredBytes := by
  funext wid w e
  simp only [State.coveredBytes, h.barSeqs, h.place, h.earlyCap]

theorem Accounted.bufferDues : t.bufferDues = s.bufferDues := by
  funext wid w e
  simp only [State.bufferDues, h.coveredBytes, h.isPeer, h.place, h.t7, h.storeStop]

theorem Accounted.homeDues : t.homeDues = s.homeDues := by
  funext it
  simp only [State.homeDues, h.place, h.isPeer, h.queuedClear, h.storeStop, h.atomAt, h.atomNext, h.stopAt, h.itemReady, h.loadParts, h.loadClear]

/-- The same accesses stand before memory. -/
theorem Accounted.standing : t.standing = s.standing := by
  simp only [State.standing, State.fmemOf, h.waves, h.gridOf, h.loadDues, h.ownerDues, h.coveredBytes, h.bufferDues, h.homeq, h.grids, h.homeDues]

theorem Accounted.accesses : t.accesses = s.accesses := by
  funext g
  simp only [State.accesses, h.standing, h.groupOf]

end

end Sys2Proof.Machine
end

section
/-! PROOFS. The service of loads (R152, R153, R270, R327, R328): a command slot that reads a sector, the sector's return to the lanes of its
request, and a miss of the core TLB. -/

namespace Sys2Proof.Machine

/- One proof at a time: many at once cost a thread, and its stack, each. -/
set_option Elab.async false

theorem Accounted.sameRegs {s t : State} (h : Accounted s t) : SameRegs s t := fun k x => by rw [State.newest, h.waves, State.newest]

theorem Accounted.onlyWave {s t : State} (h : Accounted s t) (wid : Nat) : OnlyWave wid s t := by
  refine ⟨h.sameMemory, fun k _ => by rw [h.waves], ?_⟩
  obtain ⟨_, _, _, _, rfl, _⟩ := h
  rfl

theorem Wave.req_id {w : Wave} {id : Nat} {r : Req} (h : w.req id = some r) : r.id = id :=
  by simpa using List.find?_some h

/-! A command slot (R327, R328). -/

theorem accounted_modGroup (s : State) (g : Nat) (f : Group → Group) : Accounted s (s.modGroup g f) := accounted_mc s _

theorem accounted_pruneStarted (s : State) (g : Nat) : Accounted s (s.pruneStarted g) := .ite (.refl s) (accounted_modGroup s g _)

/-- With no access started at its group, a command slot chooses the only one that can be served. -/
theorem slotPick_only {s : State} {g : Nat} {x : Waiting} (hstart : (s.group g).started = []) (hserve : s.servable g = [x]) :
    ∃ spend, s.slotPick g = some (x, spend) := by
  unfold State.slotPick
  simp only [hstart, hserve, List.filter_nil, List.findSome?_nil, List.foldl_cons, List.foldl_nil, List.find?_cons, List.find?_nil,
    List.head?_cons, Option.map_some]
  by_cases hfloor : s.belowFloor g x = 0
  · by_cases htoken : s.bucketSpent x.ctx g < 4096
    · exact ⟨true, by simp only [hfloor, htoken, if_true, decide_true]⟩
    · exact ⟨false, by simp only [hfloor, htoken, if_true, decide_false]⟩
  · exact ⟨true, by simp only [hfloor, if_false]⟩

/-- Data move no earlier than the access is made (R330). -/
theorem le_bankAccess (b : Bank) (t : Timing) (thr now since r : Nat) : now ≤ (b.access t thr now since r).done := by
  have hact : now ≤ b.actAt t now := by
    unfold Bank.actAt
    split
    · exact le_rfl
    · split <;> omega
  unfold Bank.access
  split <;> dsimp only <;> omega

theorem le_access (s : State) (ctx pa since : Nat) (isWrite spend : Bool) : s.t7 ≤ (s.access ctx pa since isWrite spend).1 := by
  unfold State.access
  cases chanOf pa with
  | none => exact le_rfl
  | some ch => exact le_bankAccess ..

/-- The pieces that a request still has to read at a sector. -/
def State.readsAt (s : State) (sector : Nat) (p : Piece) : Bool := p.st == .ready && s.touches p sector

/-- A request that has read a sector: its pieces there hold their bytes, the wave's own stores included, and leave at a time (R264, R270). -/
def State.servedReq (s : State) (wid : Nat) (w : Wave) (r : Req) (sector done : Nat) : Req :=
  r.mapPieces (s.readsAt sector) fun p => match p.loc with
    | .mem a _ => { p with st := .served, data := s.overlay wid w r.seq a (s.physRead a p.len), due := done }
    | _ => p

/-- Nothing stops the pieces of a request at a sector. -/
def State.clearAt (s : State) (wid : Nat) (w : Wave) (r : Req) (sector : Nat) : Prop :=
  ∀ p ∈ r.pieces, ∀ pa key, p.st = .ready → s.touches p sector = true → p.loc = .mem pa key →
    s.stopAt (some (0, wid, r.id)) w.ctx pa key false = none

theorem serveSector_clear {s : State} {wid : Nat} {w : Wave} {r : Req} {d : Due} (hw : tfind s.waves wid = some w) (hr : w.req r.id = some r)
    (hclear : s.clearAt wid w r d.sector) (spend : Bool) :
    ∃ t done, Accounted s t ∧ s.t7 ≤ done
      ∧ s.serveSector wid r.id d spend = t.modWave wid fun w' => w'.setReq (s.servedReq wid w r d.sector done) := by
  have hacc := accounted_access s w.ctx (d.sector * 32) d.since false spend
  refine ⟨_, _, hacc, le_access s w.ctx (d.sector * 32) d.since false spend, ?_⟩
  unfold State.serveSector
  simp only [hw, hr, Option.bind_some, Option.map_some]
  split
  · next c pa va rest hstops =>
    have hmem : (c, pa, va) ∈ (c, pa, va) :: rest := List.mem_cons_self
    rw [← hstops] at hmem
    obtain ⟨p, hp, hstop⟩ := List.mem_filterMap.mp hmem
    obtain ⟨hpiece, hpick⟩ := List.mem_filter.mp hp
    rw [Bool.and_eq_true, beq_iff_eq] at hpick
    split at hstop
    · next y key hloc =>
      rw [hclear p hpiece y key hpick.1 hpick.2 hloc] at hstop
      cases hstop
    · cases hstop
  · rw [hacc.overlay, hacc.physRead]
    rfl

/-- A slot of a group has been used: the count by which every fourth may be left idle goes on (R332). -/
def State.slotUsed (s : State) (g : Nat) : State := { s with mc := { s.mc with slot := tset 0 s.mc.slot g ((tget 0 s.mc.slot g + 1) % 4) } }

theorem accounted_slotUsed (s : State) (g : Nat) : Accounted s (s.slotUsed g) := accounted_mc s _

/-- What a group can serve does not depend on that count. -/
theorem slotUsed_servable (s : State) (g : Nat) : (s.slotUsed g).servable g = s.servable g := by
  have hgroup : (s.slotUsed g).group g = s.group g := rfl
  have hcan : (s.slotUsed g).canServe = s.canServe := rfl
  simp only [State.servable, State.waiting, hgroup, hcan, (accounted_slotUsed s g).accesses]

theorem serveAccess_load {x : Waiting} (hkind : x.kind = 0) (s : State) (g : Nat) (d : Due) (spend : Bool) :
    ∃ u, Accounted s u ∧ s.serveAccess g x d spend = u.serveSector x.a x.b d spend := by
  unfold State.serveAccess
  exact ⟨_, accounted_modGroup .., if_pos hkind⟩

/-- A slot that is not left idle, of a group at which nothing has started, reads the first sector of the only load that it can serve. -/
theorem exec_commandSlot {s : State} {g : Nat} {x : Waiting} {d : Due} (hidle : s.idleSlot g = false) (hstart : (s.group g).started = [])
    (hserve : s.servable g = [x]) (hkind : x.kind = 0) (hd : (x.sectors.mergeSort fun a b => decide (a.sector ≤ b.sector)).head? = some d) :
    ∃ u spend, Accounted s u ∧ exec (.commandSlot g) s = .next ((u.serveSector x.a x.b d spend).pruneStarted g) := by
  have hstart' : ((s.slotUsed g).group g).started = [] := hstart
  have hprune : (s.slotUsed g).pruneStarted g = s.slotUsed g := if_pos (by rw [hstart']; rfl)
  obtain ⟨spend, hpick⟩ := slotPick_only hstart' ((slotUsed_servable s g).trans hserve)
  obtain ⟨u, hacc, hu⟩ := serveAccess_load hkind (s.slotUsed g) g d spend
  refine ⟨u, spend, (accounted_slotUsed s g).trans hacc, ?_⟩
  change execCommandSlot g s = _
  unfold execCommandSlot
  extract_lets idle mc used pruned
  have hpruned : pruned = s.slotUsed g := hprune
  have hpick' : pruned.slotPick g = some (x, spend) := hpruned ▸ hpick
  have hbusy : idle = false := hidle
  rw [hbusy, hpick']
  simp only [Bool.false_eq_true, if_false, hd]
  rw [hpruned, hu]

section
variable {s t : State} (h : Accounted s t)
include h

theorem Accounted.clearAt (wid : Nat) (w : Wave) (r : Req) (sector : Nat) : t.clearAt wid w r sector = s.clearAt wid w r sector := by
  simp only [State.clearAt, h.touches, h.stopAt]

theorem Accounted.servedReq (wid : Nat) (w : Wave) (r : Req) (sector done : Nat) :
    t.servedReq wid w r sector done = s.servedReq wid w r sector done := by
  have hreads : t.readsAt = s.readsAt := by
    funext sector p
    simp only [State.readsAt, h.touches]
  simp only [State.servedReq, hreads, h.overlay, h.physRead]

end

/-- What the sector that a command slot reads leaves of the wave whose load it serves. -/
theorem completes_commandSlot {s : State} {g : Nat} {x : Waiting} {w : Wave} {r : Req} {d : Due} (hidle : s.idleSlot g = false)
    (hstart : (s.group g).started = []) (hserve : s.servable g = [x]) (hkind : x.kind = 0)
    (hd : (x.sectors.mergeSort fun a b => decide (a.sector ≤ b.sector)).head? = some d) (hw : tfind s.waves x.a = some w)
    (hr : w.req x.b = some r) (hclear : s.clearAt x.a w r d.sector) :
    Completes (.commandSlot g) s fun t => SameMemory s t ∧ SameRegs s t ∧ OtherWaves x.a s t
      ∧ ∃ v done, s.t7 ≤ done ∧ tfind t.waves x.a = some v
        ∧ v.reqs = w.reqs.map fun y => if y.id = x.b then s.servedReq x.a w r d.sector done else y := by
  have hid := Wave.req_id hr
  rw [← hid] at hr
  obtain ⟨u, spend, hu, hexec⟩ := exec_commandSlot hidle hstart hserve hkind hd
  have hwu : tfind u.waves x.a = some w := by rw [hu.waves]; exact hw
  obtain ⟨t, done, ht, hdone, hsector⟩ := serveSector_clear hwu hr ((hu.clearAt ..).symm ▸ hclear) spend
  rw [hid] at hsector
  rw [hu.t7] at hdone
  rw [hu.servedReq] at hsector
  have hwt : tfind t.waves x.a = some w := by rw [ht.waves]; exact hwu
  have hread := onlyWave_modWave t x.a fun w' => w'.setReq (s.servedReq x.a w r d.sector done)
  have hregs := sameRegs_modWave t x.a (f := fun w' => w'.setReq (s.servedReq x.a w r d.sector done)) fun _ _ => newest_setReq ..
  have hend := accounted_pruneStarted (u.serveSector x.a x.b d spend) g
  have hall : OnlyWave x.a s ((u.serveSector x.a x.b d spend).pruneStarted g) :=
    ((hu.trans ht).onlyWave x.a).trans ((hsector ▸ hread).trans (hend.onlyWave x.a))
  refine ⟨_, hexec, hall.memory, (hu.trans ht).sameRegs.trans ((hsector ▸ hregs).trans hend.sameRegs), hall.others,
    w.setReq (s.servedReq x.a w r d.sector done), done, hdone, ?_, ?_⟩
  · rw [hend.waves, hsector]
    exact tfind_modWave_some _ hwt
  · rw [← hid]
    rfl

/-! The return of a sector (R270). -/

/-- A lane of a load's registers takes its words. -/
def Wave.loadLane (w : Wave) (d lane : Nat) (ws : List Word) (n : Nat) : Wave :=
  (List.range n).foldl (fun w k => w.setLane (d + k) lane ⟨false, ws.getD k 0⟩) w

theorem loadLane_succ (w : Wave) (d lane : Nat) (ws : List Word) (n : Nat) :
    w.loadLane d lane ws (n + 1) = (w.loadLane d lane ws n).setLane (d + n) lane ⟨false, ws.getD n 0⟩ := by
  simp only [Wave.loadLane, List.range_succ, List.foldl_append, List.foldl_cons, List.foldl_nil]

/-- Loading a lane changes vector registers alone. -/
theorem loadLane_eq (w : Wave) (d lane : Nat) (ws : List Word) (n : Nat) : ∃ v, w.loadLane d lane ws n = { w with v := v } := by
  induction n with
  | zero => exact ⟨w.v, rfl⟩
  | succ n ih =>
    obtain ⟨v, hv⟩ := ih
    rw [loadLane_succ, hv]
    exact ⟨_, rfl⟩

theorem lane_loadLane (w : Wave) (d : Nat) {lane l : Nat} (hlane : lane < 32) (hl : l < 32) (ws : List Word) (n a : Nat) :
    (w.loadLane d lane ws n).lane a l = if l = lane ∧ d ≤ a ∧ a < d + n then ⟨false, ws.getD (a - d) 0⟩ else w.lane a l := by
  induction n with
  | zero => rw [if_neg (by omega)]; rfl
  | succ n ih =>
    rw [loadLane_succ, Wave.lane_setLane, ih]
    by_cases hkey : vKey a l = vKey (d + n) lane
    · have hplace : l = lane ∧ a = d + n := by unfold vKey at hkey; omega
      rw [if_pos hkey, if_pos (by omega), show a - d = n by omega]
    · rw [if_neg hkey]
      refine if_congr ?_ rfl rfl
      unfold vKey at hkey
      omega

/-- Writing a lane of a load's destination loads the lane, and changes no other wave and no memory. -/
theorem writeDest_loads {s : State} {wid : Nat} {w : Wave} {r : Req} {d : BitVec 8} {n : Nat} (hw : tfind s.waves wid = some w)
    (hdest : destOf r.instr = some (.v d, n)) (lane : Nat) (ws : List Word) :
    OnlyWave wid s (s.writeDest wid r lane ws)
      ∧ tfind (s.writeDest wid r lane ws).waves wid = some (w.loadLane d.toNat lane ws ws.length) := by
  rw [writeDest_vector hdest]
  generalize ws.length = m
  induction m with
  | zero => exact ⟨.refl wid s, hw⟩
  | succ m ih =>
    obtain ⟨honly, hv⟩ := ih
    obtain ⟨hone, hset⟩ := loadWord_spec hv r.seq lane r.pc d.toNat ws m
    rw [List.range_succ, List.foldl_append, List.foldl_cons, List.foldl_nil, loadLane_succ]
    exact ⟨honly.trans hone, hset⟩

/-- The lanes of a load take their words, one lane after another. -/
def Wave.loadLanes (w : Wave) (d n : Nat) (ws : Nat → List Word) (ls : List Nat) : Wave := ls.foldl (fun w l => w.loadLane d l (ws l) n) w

theorem loadLanes_eq (w : Wave) (d n : Nat) (ws : Nat → List Word) (ls : List Nat) : ∃ v, w.loadLanes d n ws ls = { w with v := v } := by
  induction ls generalizing w with
  | nil => exact ⟨w.v, rfl⟩
  | cons l ls ih =>
    obtain ⟨v, hv⟩ := loadLane_eq w d l (ws l) n
    obtain ⟨v', hv'⟩ := ih (w.loadLane d l (ws l) n)
    rw [hv] at hv'
    exact ⟨v', (congrArg (fun u : Wave => u.loadLanes d n ws ls) hv).trans hv'⟩

theorem lane_loadLanes (w : Wave) (d n : Nat) (ws : Nat → List Word) {ls : List Nat} (hls : ∀ l ∈ ls, l < 32) {l : Nat} (hl : l < 32) (a : Nat) :
    (w.loadLanes d n ws ls).lane a l = if l ∈ ls ∧ d ≤ a ∧ a < d + n then ⟨false, (ws l).getD (a - d) 0⟩ else w.lane a l := by
  induction ls generalizing w with
  | nil => rw [if_neg (by simp)]; rfl
  | cons k ls ih =>
    rw [List.forall_mem_cons] at hls
    obtain ⟨hk, hls⟩ := hls
    refine (ih (w.loadLane d k (ws k) n) hls).trans ?_
    rw [lane_loadLane w d hk hl]
    simp only [List.mem_cons]
    by_cases hmem : l ∈ ls ∧ d ≤ a ∧ a < d + n
    · rw [if_pos hmem, if_pos ⟨.inr hmem.1, hmem.2⟩]
    · rw [if_neg hmem]
      by_cases hhere : l = k ∧ d ≤ a ∧ a < d + n
      · rw [if_pos hhere, if_pos ⟨.inl hhere.1, hhere.2⟩, hhere.1]
      · rw [if_neg hhere, if_neg (by tauto)]

/-- A load's destination is written lane by lane. -/
theorem writeDests_load {wid : Nat} {r : Req} {d : BitVec 8} {n m : Nat} (hdest : destOf r.instr = some (.v d, n)) {ws : Nat → List Word}
    (hlen : ∀ l, (ws l).length = m) (ls : List Nat) {s : State} {w : Wave} (hw : tfind s.waves wid = some w) :
    OnlyWave wid s (ls.foldl (fun s l => s.writeDest wid r l (ws l)) s)
      ∧ tfind (ls.foldl (fun s l => s.writeDest wid r l (ws l)) s).waves wid = some (w.loadLanes d.toNat m ws ls) := by
  induction ls generalizing s w with
  | nil => exact ⟨.refl wid s, hw⟩
  | cons l ls ih =>
    obtain ⟨hone, hv⟩ := writeDest_loads hw hdest l (ws l)
    rw [hlen l] at hv
    obtain ⟨hrest, hu⟩ := ih hv
    exact ⟨hone.trans hrest, hu⟩

/-- The lanes of a request. -/
def Req.lanes (r : Req) : List Nat := (r.pieces.map (·.lane)).eraseDups

theorem mem_lanes {r : Req} {l : Nat} : l ∈ r.lanes ↔ ∃ p ∈ r.pieces, p.lane = l := by
  rw [Req.lanes, List.mem_eraseDups, List.mem_map]

/-- A load all of whose pieces have been read writes every lane and is finished. -/
theorem deliver_whole {r : Req} {hints : Hints} {width : Width} {d a : Opd} {m : Mem} (hr : r.instr = .ld hints width d a m)
    {which : Piece → Bool} (hall : ∀ p ∈ r.pieces, which p = true) (s : State) (wid : Nat) :
    s.deliver wid r which = (r.lanes.foldl (fun s l => s.writeDest wid r l (loadWords width (r.laneBytes l))) s).finishReq wid
      (r.mapPieces which fun p => { p with st := .done }) := by
  have hpieces : (r.mapPieces which fun p => { p with st := .done }).pieces = r.pieces.map fun p => { p with st := .done } :=
    List.map_congr_left fun p hp => if_pos (hall p hp)
  unfold State.deliver
  extract_lets done ls t
  have hbytes : ∀ l, done.laneBytes l = r.laneBytes l := fun l => by
    simp only [Req.laneBytes, done, hpieces, List.filter_map, List.flatMap_map]
    rfl
  have hdone : ∀ p ∈ done.pieces, p.st = .done := by
    rw [hpieces]
    rintro p hp
    obtain ⟨_, -, rfl⟩ := List.mem_map.mp hp
    rfl
  have hls : ls = r.lanes := by
    have hlane : ∀ l, done.laneDone l = true := fun l => List.all_eq_true.mpr fun p hp => by simp [hdone p hp]
    simp only [ls, List.filter_eq_self.mpr hall, List.filter_eq_self.mpr fun l _ => hlane l]
    rfl
  have ht : t = r.lanes.foldl (fun s l => s.writeDest wid r l (loadWords width (r.laneBytes l))) s := by
    simp only [t, hr, hls, hbytes, loadWidth]
  have hcomplete : done.complete = true := List.all_eq_true.mpr fun p hp => by simp [hdone p hp]
  have hplain : done.instr = .ld hints width d a m := hr
  rw [ht]
  exact (advance_plain _ _ fun _ _ _ hq => Instr.noConfusion (hplain.symm.trans hq)).trans (if_pos hcomplete)

/-- A request that is finished has left its wave, whose counters have fallen and whose lanes are as they were. -/
theorem finishReq_own {s : State} {wid : Nat} {w : Wave} (hw : tfind s.waves wid = some w) (r : Req) :
    ∃ v, tfind (s.finishReq wid r).waves wid = some v ∧ v.req r.id = none ∧ CountersFall r.cnt w v ∧ ∀ a l, v.lane a l = w.lane a l := by
  let u := ((w.dropReq r.id).fall r.cnt).wake r.id
  obtain ⟨-, -, hown⟩ := settle_spec (s.modWave wid fun w => ((w.dropReq r.id).fall r.cnt).wake r.id) wid
  obtain ⟨v, hv, he⟩ := hown u (tfind_modWave_some _ hw)
  have hfall := eased_fall (w.dropReq r.id) r.cnt
  have hcounters : CountersFall r.cnt w u := countersFall_fall (w.dropReq r.id) r.cnt
  refine ⟨v, hv, ?_, hcounters.eased he, fun a l => (he.lane a l).trans (hfall.lane a l)⟩
  have hreqs : v.reqs = w.reqs.filter fun x => x.id != r.id := by
    obtain ⟨_, _, rfl, -⟩ := he
    obtain ⟨_, _, hf, -⟩ := hfall
    exact congrArg Wave.reqs hf
  rw [Wave.req, hreqs]
  refine List.find?_eq_none.mpr fun x hx => ?_
  simpa using (List.mem_filter.mp hx).2

/-- What the return of a load's last sector leaves (R270). -/
theorem completes_sectorReturn {s : State} {wid sector : Nat} {w : Wave} {r : Req} {hints : Hints} {width : Width} {d : BitVec 8} {a : Opd} {m : Mem}
    (hstand : Standing s wid w r) (hr : r.instr = .ld hints width (.v d) a m)
    (hpieces : ∀ p ∈ r.pieces, p.lane < 32 ∧ p.st = .served ∧ p.due ≤ s.t7 ∧ ∃ pa key, p.loc = .mem pa key ∧ pa / 32 = sector) :
    Completes (.memorySectorReturn wid r.id sector) s fun t => SameMemory s t ∧ OtherWaves wid s t ∧ ∃ v, tfind t.waves wid = some v
      ∧ v.req r.id = none ∧ CountersFall r.cnt w v
      ∧ ∀ p ∈ r.pieces, ∀ k, k < widthRegs width → v.lane (d.toNat + k) p.lane = ⟨false, (loadWords width (r.laneBytes p.lane)).getD k 0⟩ := by
  obtain ⟨hw, hreq⟩ := hstand
  let which : Piece → Bool := fun p =>
    p.st == .served && decide (p.due ≤ s.t7) && match p.loc with | .mem pa _ => pa / 32 == sector | _ => false
  have hall : ∀ p ∈ r.pieces, which p = true := fun p hp => by
    obtain ⟨-, hst, hdue, pa, key, hloc, hsec⟩ := hpieces p hp
    simp [which, hst, hdue, hloc, hsec]
  have hexec : exec (.memorySectorReturn wid r.id sector) s = .next (s.deliver wid r which) := by
    change execMemorySectorReturn wid r.id sector s = _
    simp only [execMemorySectorReturn, hw, hreq]
    rfl
  have hdest : ∃ n, destOf r.instr = some (.v d, n) := by rw [hr]; exact ⟨_, rfl⟩
  obtain ⟨n, hdest⟩ := hdest
  obtain ⟨hwrite, hv⟩ := writeDests_load hdest (fun l => loadWords_length width (r.laneBytes l)) r.lanes hw
  let done := r.mapPieces which fun p => { p with st := .done }
  obtain ⟨v, hfin, hgone, hfall, hlane⟩ := finishReq_own hv done
  obtain ⟨hend, -⟩ := finishReq_spec (r.lanes.foldl (fun s l => s.writeDest wid r l (loadWords width (r.laneBytes l))) s) wid done
  have hcounters : CountersFall r.cnt w v := by
    obtain ⟨_, he⟩ := loadLanes_eq w d.toNat (widthRegs width) (fun l => loadWords width (r.laneBytes l)) r.lanes
    rw [he] at hfall
    exact hfall
  rw [deliver_whole hr hall] at hexec
  refine ⟨_, hexec, (hwrite.trans hend).memory, (hwrite.trans hend).others, v, hfin, hgone, hcounters, fun p hp k hk => ?_⟩
  have hlanes : ∀ l ∈ r.lanes, l < 32 := fun l hl => by
    obtain ⟨x, hx, rfl⟩ := mem_lanes.mp hl
    obtain ⟨hx32, -⟩ := hpieces x hx
    exact hx32
  have hmem : p.lane ∈ r.lanes := mem_lanes.mpr ⟨p, hp, rfl⟩
  rw [hlane, lane_loadLanes _ _ _ _ hlanes (hlanes _ hmem), if_pos ⟨hmem, by omega, by omega⟩, Nat.add_sub_cancel_left]

end Sys2Proof.Machine
end

section
/-! PROOFS. A miss of the core TLB is served (R152, R153): what a TLB holds once a page has been added, and the pieces that take their page's
place. -/

namespace Sys2Proof.Machine

/- One proof at a time: many at once cost a thread, and its stack, each. -/
set_option Elab.async false

/-! What a TLB holds (R152). -/

/-- A TLB tells addresses of one page no more apart than the page does. -/
theorem tlbFind_page {va va' : DWord} (h : va.toNat / 65536 = va'.toNat / 65536) (tlb : List TlbEntry) (ctx : Nat) :
    tlbFind tlb ctx va = tlbFind tlb ctx va' := by
  have hmib : va.toNat / 2 ^ 20 = va'.toNat / 2 ^ 20 := by omega
  simp only [tlbFind, TlbEntry.find, h, hmib]

theorem entryFind_isSome {e : TlbEntry} {ctx : Nat} {va : DWord} (hctx : e.ctx = ctx) (hmib : e.mib = va.toNat / 2 ^ 20)
    (hpage : e.pages.getLsbD (va.toNat / 65536 % 16) = true) : (e.find ctx va).isSome = true := by
  unfold TlbEntry.find
  rw [if_pos ⟨hctx, hmib, hpage⟩]
  rfl

theorem tlbFind_isSome_of_mem {tlb : List TlbEntry} {e : TlbEntry} {ctx : Nat} {va : DWord} (hmem : e ∈ tlb)
    (he : (e.find ctx va).isSome = true) : (tlbFind tlb ctx va).isSome = true :=
  List.findSome?_isSome_iff.mpr ⟨e, hmem, he⟩

theorem getLsbD_pageBit {i : Nat} (h : i < 16) : (BitVec.ofNat 16 (2 ^ i)).getLsbD i = true := by
  rw [BitVec.getLsbD_ofNat, Nat.testBit_two_pow_self, decide_eq_true h]
  rfl

/-- A TLB holds a page that has been added to it. -/
theorem tlbFind_tlbAdd (cap evict ctx : Nat) (va : DWord) (t : Tr) (tlb : List TlbEntry) :
    (tlbFind (tlbAdd cap evict ctx va t tlb) ctx va).isSome = true := by
  have hbit : (BitVec.ofNat 16 (2 ^ (va.toNat / 65536 % 16))).getLsbD (va.toNat / 65536 % 16) = true :=
    getLsbD_pageBit (Nat.mod_lt _ (by decide))
  unfold tlbAdd
  extract_lets i mib fits e
  split
  · assumption
  · split
    · next hany =>
      obtain ⟨x, hx, hfit⟩ := List.any_eq_true.mp hany
      refine tlbFind_isSome_of_mem (List.mem_map_of_mem hx) ?_
      rw [if_pos hfit]
      simp only [fits, Bool.and_eq_true, beq_iff_eq] at hfit
      obtain ⟨⟨⟨⟨⟨⟨⟨⟨⟨⟨⟨hctx, hmib⟩, -⟩, -⟩, -⟩, -⟩, -⟩, -⟩, -⟩, -⟩, -⟩, -⟩ := hfit
      refine entryFind_isSome hctx hmib ?_
      rw [BitVec.getLsbD_or, hbit, Bool.or_true]
    · exact tlbFind_isSome_of_mem (List.mem_append_right _ (List.mem_singleton_self e)) (entryFind_isSome rfl rfl hbit)

/-! What the service of a miss leaves (R153). -/

/-- A page has been brought to a core: waves, memory, time and the ways to peers are as before, and the core TLB holds the page. -/
structure Brings (ctx core : Nat) (va : DWord) (s t : State) : Prop where
  fetches : Fetches s t
  t7 : t.t7 = s.t7
  noPlane : t.noPlane = s.noPlane
  holds : (tlbFind (t.core core).tlb ctx va).isSome = true

/-- Filling TLBs and counting change no more than this. -/
structure Fills (s t : State) : Prop where
  fetches : Fetches s t
  t7 : t.t7 = s.t7
  noPlane : t.noPlane = s.noPlane

theorem Fills.trans {s t u : State} (hst : Fills s t) (htu : Fills t u) : Fills s u :=
  ⟨hst.fetches.trans htu.fetches, htu.t7.trans hst.t7, htu.noPlane.trans hst.noPlane⟩

theorem Accounted.fills {s t : State} (h : Accounted s t) : Fills s t := ⟨.of_accounted h, h.t7, h.noPlane⟩

theorem fills_modCore (s : State) (c : Nat) (f : Core → Core) : Fills s (s.modCore c f) := ⟨⟨rfl, rfl, rfl, fun _ => rfl, fun _ _ _ => rfl⟩, rfl, rfl⟩

theorem fills_modCluster (s : State) (k : Nat) (f : Cluster → Cluster) : Fills s (s.modCluster k f) :=
  ⟨⟨rfl, rfl, rfl, fun _ => rfl, fun _ _ _ => rfl⟩, rfl, rfl⟩

theorem Fills.fillCore {s t : State} (h : Fills s t) (ctx core : Nat) (va : DWord) (evict : Nat) (x : Tr) :
    Brings ctx core va s (t.modCore core fun c => { c with tlb := tlbAdd 64 evict ctx va x c.tlb }) := by
  have hall := h.trans (fills_modCore t core fun c => { c with tlb := tlbAdd 64 evict ctx va x c.tlb })
  refine ⟨hall.fetches, hall.t7, hall.noPlane, ?_⟩
  have hcore : (t.modCore core fun c => { c with tlb := tlbAdd 64 evict ctx va x c.tlb }).core core
      = { t.core core with tlb := tlbAdd 64 evict ctx va x (t.core core).tlb } := tget_tset_self ..
  rw [hcore]
  exact tlbFind_tlbAdd ..

/-- A miss of the core TLB whose translation succeeds brings the page. -/
theorem brings_serveMiss {s : State} {ctx core : Nat} {va : DWord} {acc : Acc} {tr : Tr} (hx : s.xlate ctx core va acc = .ok tr)
    (hmiss : tlbFind (s.core core).tlb ctx va = none) (n m : Nat) : Brings ctx core va s (s.serveMiss ctx core va acc n m).2 := by
  unfold State.xlate at hx
  rw [hmiss] at hx
  have hacc : Accounted s ((s.pmc ctx 6 1).walked ctx va) := (accounted_pmc s ctx 6 1).trans (accounted_walked ..)
  unfold State.serveMiss
  extract_lets k fillCore u
  split at hx
  · cases hx
  · dsimp only at hx
    split at hx
    · next t ht =>
      have ht' : tlbFind (s.cluster k).tlb ctx va = some t := ht
      simp only [ht', hx]
      exact Fills.fillCore ⟨.refl s, rfl, rfl⟩ ..
    · next ht =>
      have ht' : tlbFind (s.cluster k).tlb ctx va = none := ht
      have hwalk : u.walk ctx va acc = s.walk ctx va acc := hacc.walk ..
      simp only [ht', hwalk]
      split at hx
      · next pa t hw =>
        simp only [hw]
        exact (hacc.fills.trans (fills_modCluster ..)).fillCore ..
      · cases hx

/-! The pieces of a request that has waited for a page. -/

/-- A request whose pieces on a page have been translated. -/
def Req.placed (r : Req) (w : Wave) (page : Nat) (tr : Tr) (now : Nat) : Req :=
  r.mapPieces (w.awaitsPage r.id page) fun p => { p with loc := .mem (tr.pa p.va) tr.key, st := .ready, t := now }

theorem failure_placed {r : Req} (hfail : ∀ p ∈ r.pieces, p.failure = none) (w : Wave) (page : Nat) (tr : Tr) (now : Nat) :
    ∀ p ∈ (r.placed w page tr now).pieces, p.failure = none := by
  intro p hp
  obtain ⟨y, hy, rfl⟩ := List.mem_map.mp hp
  split
  · rfl
  · exact hfail y hy

/-- Parking for lanes that have failed does nothing where none has. -/
theorem parkLeft_setReq {s : State} {wid : Nat} {w : Wave} {r : Req} (hw : tfind s.waves wid = some (w.setReq r))
    (hfail : ∀ p ∈ r.pieces, p.failure = none) : s.parkLeft wid r.id = s := by
  unfold State.parkLeft
  rw [hw, Option.bind_some]
  split
  · next x hx =>
    have hid := Wave.req_id hx
    obtain ⟨y, -, rfl⟩ := List.mem_map.mp (List.mem_of_find?_eq_some hx)
    split at hid
    · next hy =>
      rw [if_pos hy]
      exact parkFaults_of_none s wid hfail
    · next hy => exact absurd hid hy
  · rfl

/-- A load meets the page for which it has waited. -/
theorem pageServed_load {s : State} {wid page : Nat} {w : Wave} {r : Req} {hints : Hints} {width : Width} {d a : Opd} {m : Mem} {p0 : Piece} {tr : Tr}
    (hw : tfind s.waves wid = some w) (hreq : w.req r.id = some r) (hr : r.instr = .ld hints width d a m)
    (hp0 : (r.pieces.filter (w.awaitsPage r.id page)).head? = some p0) (hplane : s.noPlane w.ctx (tr.pa p0.va) = false)
    (hfail : ∀ p ∈ r.pieces, p.failure = none) :
    s.pageServed wid r.id page (.ok tr) = s.modWave wid fun w' => w'.setReq (r.placed w page tr s.t7) := by
  have hopen : (r.placed w page tr s.t7).complete = false := by
    obtain ⟨hmem, hpick⟩ := List.mem_filter.mp (List.mem_of_mem_head? hp0)
    refine List.all_eq_false.mpr ⟨_, List.mem_map_of_mem hmem, ?_⟩
    rw [if_pos hpick]
    simp
  have hplaced : (r.placed w page tr s.t7).instr = .ld hints width d a m := hr
  have hput : s.translated wid (r.placed w page tr s.t7) p0.va tr = s.modWave wid fun w' => w'.setReq (r.placed w page tr s.t7) := by
    unfold State.translated
    simp only [hw, hplaced, State.putReq, hopen, Bool.false_eq_true, if_false]
  unfold State.pageServed
  simp only [hw, Option.bind_some, hreq, Option.map_some, hp0, hr, hplane, Bool.and_false, Bool.false_and, Bool.false_eq_true, if_false]
  refine (congrArg (fun t : State => t.parkLeft wid r.id) hput).trans ?_
  exact parkLeft_setReq (r := r.placed w page tr s.t7) (tfind_modWave_some _ hw) (failure_placed hfail w page tr s.t7)

/-- What the service of a miss leaves of the one load that has waited for the page (R153). -/
theorem completes_tlbMissServed {s : State} {wid page ec ek : Nat} {w : Wave} {r : Req} {hints : Hints} {width : Width} {d a : Opd} {m : Mem}
    {p0 : Piece} {tr : Tr} (hstand : Standing s wid w r) (hr : r.instr = .ld hints width d a m)
    (hp0 : (r.pieces.filter (w.awaitsPage r.id page)).head? = some p0) (hwait : s.waiters (wCore wid) w.ctx page = [(wid, r)])
    (hreg : s.registered (wCore wid) w.ctx page = true)
    (hx : s.xlate w.ctx (wCore wid) (BitVec.ofNat 64 (page * 65536)) .read = .ok tr)
    (hserve : s.tlbHit w.ctx (wCore wid) (BitVec.ofNat 64 (page * 65536)) = true
      ∨ s.walkServable w.ctx (BitVec.ofNat 64 (page * 65536)) = true ∧ s.walkTurn w.ctx (BitVec.ofNat 64 (page * 65536)) = true)
    (hplane : s.noPlane w.ctx (tr.pa p0.va) = false) (hfail : ∀ p ∈ r.pieces, p.failure = none) :
    Completes (.tlbMissServed wid r.id page ec ek) s fun t => SameMemory s t ∧ SameRegs s t ∧ OtherWaves wid s t
      ∧ (∃ v, tfind t.waves wid = some v ∧ v.reqs = w.reqs.map fun x => if x.id = r.id then r.placed w page tr s.t7 else x)
      ∧ (tlbFind (t.core (wCore wid)).tlb w.ctx p0.va).isSome = true := by
  obtain ⟨hw, hreq⟩ := hstand
  let va : DWord := BitVec.ofNat 64 (page * 65536)
  let t : State := if va.extractLsb' 56 8 != 0 || (tlbFind (s.core (wCore wid)).tlb w.ctx va).isSome then s
    else (s.serveMiss w.ctx (wCore wid) va .read ec ek).2
  obtain ⟨hmem0, hpick0⟩ := List.mem_filter.mp (List.mem_of_mem_head? hp0)
  have hany : r.pieces.any (w.awaitsPage r.id page) = true := List.any_eq_true.mpr ⟨p0, hmem0, hpick0⟩
  have hready : (s.tlbHit w.ctx (wCore wid) (BitVec.ofNat 64 (page * 65536))
      || (s.walkServable w.ctx (BitVec.ofNat 64 (page * 65536)) && s.walkTurn w.ctx (BitVec.ofNat 64 (page * 65536)))) = true := by
    rw [Bool.or_eq_true, Bool.and_eq_true]
    exact hserve
  have hexec : exec (.tlbMissServed wid r.id page ec ek) s = .next (t.pageServed wid r.id page (.ok tr)) := by
    change execTlbMissServed wid r.id page ec ek s = _
    have hx' : s.xlate w.ctx (wCore wid) (BitVec.ofNat 64 (page * 65536)) (accOf (.ld hints width d a m)) = .ok tr := hx
    unfold execTlbMissServed
    simp only [hw, Option.bind_some, hreq, Option.map_some, hwait, List.map_cons, List.map_nil, hr, hx', List.all_cons, List.all_nil, hany, hreg,
      hready, Bool.not_true, Bool.or_false, Bool.and_true, Bool.false_eq_true, if_false, List.foldl_cons, List.foldl_nil, List.find?_cons,
      Except.toOption, Option.isSome_some, Option.elim_some]
    rfl
  have hbrings : Brings w.ctx (wCore wid) va s t := by
    have hhigh : (va.extractLsb' 56 8 != 0) = false := by
      rw [Bool.eq_false_iff]
      intro hbad
      unfold State.xlate at hx
      rw [if_pos hbad] at hx
      cases hx
    simp only [t, hhigh, Bool.false_or]
    split
    · next hhit => exact ⟨.refl s, rfl, rfl, hhit⟩
    · next hmiss => exact brings_serveMiss hx (by simpa using hmiss) ec ek
  have hwt : tfind t.waves wid = some w := by rw [hbrings.fetches.waves]; exact hw
  have hserved := pageServed_load hwt hreq hr hp0 (hbrings.noPlane ▸ hplane) hfail
  rw [hbrings.t7] at hserved
  rw [hserved] at hexec
  have honly := onlyWave_modWave t wid fun w' => w'.setReq (r.placed w page tr s.t7)
  have hregs := sameRegs_modWave t wid (f := fun w' => w'.setReq (r.placed w page tr s.t7)) fun _ _ => newest_setReq ..
  have hpage : p0.va.toNat / 65536 = va.toNat / 65536 := by
    simp only [Wave.awaitsPage, Bool.and_eq_true, beq_iff_eq] at hpick0
    obtain ⟨⟨⟨-, hpage⟩, -⟩, -⟩ := hpick0
    have hlt : p0.va.toNat < 2 ^ 64 := p0.va.isLt
    simp only [va, BitVec.toNat_ofNat]
    omega
  refine ⟨_, hexec, hbrings.fetches.memory.trans honly.memory, fun k x => (hregs k x).trans ?_, fun k hk => (honly.others k hk).trans ?_,
    ⟨_, tfind_modWave_some _ hwt, rfl⟩, ?_⟩
  · rw [State.newest, hbrings.fetches.waves, State.newest]
  · rw [hbrings.fetches.waves]
  · rw [honly.core, tlbFind_page hpage]
    exact hbrings.holds

/-- Settles O39: the slot reads one sector, the return ends the one load, the miss places one page. -/
theorem loadsReturn : Obligations.LoadsReturn := by
  unfold Obligations.LoadsReturn
  refine ⟨?_, ?_, ?_⟩
  · intro s g x w r d hidle hstart hserve hkind hd hw hr hclear
    exact completes_commandSlot hidle hstart hserve hkind hd hw hr (by rw [State.clearAt, Wave.req_id hr]; exact hclear)
  · intro s wid sector w r h width d a m hstand hr _ hpieces
    exact completes_sectorReturn hstand hr hpieces
  · intro s wid page ec ek w r h width d a m p0 tr hstand hr core va mine r1 hp0 hwait hreg hx hserve hplane hfail
    exact completes_tlbMissServed hstand hr hp0 hwait hreg hx hserve hplane hfail

end Sys2Proof.Machine
end

section
/-! PROOFS. What the device's own writes of memory do (R42 to R47, R158, R160, R181): renewals keep every byte, a sector written by the
migration engine reads as it was written, a page-table entry reads as it was set, and a frame that is cleared reads as zeros. -/

namespace Sys2Proof.Machine

/- One proof at a time: many at once cost a thread, and its stack, each. -/
set_option Elab.async false

/-! What writes and accounts of memory leave alone. -/

/-- A state differs from another in no more than writes of memory, their accounts and their reports change. -/
def MemoryOnly (s t : State) : Prop :=
  ∃ phys amber fresh mc tests ctxs outbox,
    t = { s with phys := phys, amber := amber, fresh := fresh, mc := mc, tests := tests, ctxs := ctxs, outbox := outbox }

theorem MemoryOnly.trans {s t u : State} (hst : MemoryOnly s t) (htu : MemoryOnly t u) : MemoryOnly s u := by
  obtain ⟨_, _, _, _, _, _, _, rfl⟩ := hst
  obtain ⟨_, _, _, _, _, _, _, rfl⟩ := htu
  exact ⟨_, _, _, _, _, _, _, rfl⟩

theorem Written.memoryOnly {s t : State} (h : Written s t) : MemoryOnly s t := by
  obtain ⟨phys, amber, fresh, rfl⟩ := h
  exact ⟨phys, amber, fresh, s.mc, s.tests, s.ctxs, s.outbox, rfl⟩

theorem Accounted.memoryOnly {s t : State} (h : Accounted s t) : MemoryOnly s t := by
  obtain ⟨mc, tests, hot, ctxs, rfl, -⟩ := h
  exact ⟨{ s.phys with hot := hot }, s.amber, s.fresh, mc, tests, ctxs, s.outbox, rfl⟩

theorem memoryOnly_modCtx (s : State) (n : Nat) (f : Ctx → Ctx) : MemoryOnly s (s.modCtx n f) :=
  ⟨s.phys, s.amber, s.fresh, s.mc, s.tests, _, s.outbox, rfl⟩

theorem memoryOnly_emit (s : State) (o : Out) : MemoryOnly s (s.emit o) := ⟨s.phys, s.amber, s.fresh, s.mc, s.tests, s.ctxs, _, rfl⟩

/-- A report that concerns no parked wave writes its record, or counts it (R318). -/
theorem memoryOnly_report (s : State) (n : Nat) {r : FRec} (wid : Nat) (hr : r.kind ≠ 0) : MemoryOnly s (s.report n r wid) := by
  unfold State.report
  extract_lets c
  split
  · exact memoryOnly_modCtx ..
  · unfold State.writeTold
    extract_lets t
    rw [if_neg fun h => hr h.1]
    simp only [t]
    unfold State.writeRec
    extract_lets e at_ u b
    have hu : MemoryOnly s u := (accounted_virtAccount ..).memoryOnly
    split
    · next v hv => exact ((hu.trans (written_virtWrite hv).memoryOnly).trans (memoryOnly_modCtx ..)).trans (memoryOnly_emit ..)
    · exact (hu.trans (memoryOnly_modCtx ..)).trans (written_amberEvent ..).memoryOnly

section
variable {s t : State} (h : MemoryOnly s t)
include h

theorem MemoryOnly.waves : t.waves = s.waves := by obtain ⟨_, _, _, _, _, _, _, rfl⟩ := h; rfl
theorem MemoryOnly.pme : t.pme = s.pme := by obtain ⟨_, _, _, _, _, _, _, rfl⟩ := h; rfl
theorem MemoryOnly.invals : t.invals = s.invals := by obtain ⟨_, _, _, _, _, _, _, rfl⟩ := h; rfl
theorem MemoryOnly.windows : t.windows = s.windows := by obtain ⟨_, _, _, _, _, _, _, rfl⟩ := h; rfl
theorem MemoryOnly.nextId : t.nextId = s.nextId := by obtain ⟨_, _, _, _, _, _, _, rfl⟩ := h; rfl
theorem MemoryOnly.cell : t.cell = s.cell := by obtain ⟨_, _, _, _, _, _, _, rfl⟩ := h; rfl
theorem MemoryOnly.spot : t.spot = s.spot := by obtain ⟨_, _, _, _, _, _, _, rfl⟩ := h; rfl

end

/-- What memory holds is as it was: its bytes, the runs of saved units, the grants; and no sector has lost a poison mark. -/
structure SameContents (s t : State) : Prop where
  byte : ∀ a, t.phys.byte a = s.phys.byte a
  saved : t.phys.saved = s.phys.saved
  grants : t.phys.grants = s.phys.grants
  poison : ∀ k ∈ s.phys.poison, k ∈ t.phys.poison

theorem SameContents.refl (s : State) : SameContents s s := ⟨fun _ => rfl, rfl, rfl, fun _ h => h⟩

theorem SameContents.trans {s t u : State} (hst : SameContents s t) (htu : SameContents t u) : SameContents s u :=
  ⟨fun a => (htu.byte a).trans (hst.byte a), htu.saved.trans hst.saved, htu.grants.trans hst.grants, fun k h => htu.poison k (hst.poison k h)⟩

theorem Accounted.sameContents {s t : State} (h : Accounted s t) : SameContents s t := by
  obtain ⟨_, _, _, _, rfl, -⟩ := h
  exact ⟨fun _ => rfl, rfl, rfl, fun _ h => h⟩

/-! A renewal of keys (R45). -/

theorem mem_keys_of_tget_ne {α : Type} {d : α} {m : Tab α} {k : Nat} (h : tget d m k ≠ d) : k ∈ m.map (·.1) := by
  induction m with
  | nil => exact absurd rfl h
  | cons e m ih =>
    obtain ⟨j, v⟩ := e
    rw [tget] at h
    split at h
    · next hj => exact List.mem_map.mpr ⟨(j, v), List.mem_cons_self, hj⟩
    · exact List.mem_cons_of_mem _ (ih h)

/-- Setting the counters of listed sectors to 1, but for those that read as zeros. -/
theorem tget_setUnless {α : Type} [DecidableEq α] (d v : α) (skip : Nat → Bool) (l : List Nat) (m : Tab α) (k : Nat) :
    tget d (l.foldl (fun t k => if skip k then t else tset d t k v) m) k = if k ∈ l ∧ skip k = false then v else tget d m k := by
  induction l generalizing m with
  | nil => simp
  | cons j l ih =>
    rw [List.foldl_cons, ih]
    by_cases hmem : k ∈ l ∧ skip k = false
    · rw [if_pos hmem, if_pos ⟨List.mem_cons_of_mem _ hmem.1, hmem.2⟩]
    · rw [if_neg hmem]
      by_cases hskip : skip j = true
      · rw [if_pos hskip, if_neg]
        rintro ⟨hk, hk'⟩
        rcases List.mem_cons.mp hk with rfl | hk
        · rw [hskip] at hk'
          cases hk'
        · exact hmem ⟨hk, hk'⟩
      · rw [if_neg hskip, tget_tset]
        by_cases hjk : k = j
        · rw [if_pos hjk, if_pos ⟨hjk ▸ List.mem_cons_self, hjk ▸ Bool.eq_false_iff.mpr hskip⟩]
        · rw [if_neg hjk, if_neg]
          rintro ⟨hk, hk'⟩
          exact hmem ⟨(List.mem_cons.mp hk).resolve_left hjk, hk'⟩

/-- A renewal leaves as zeros the sectors that read as zeros, and no others: of a context's own sectors the others count 1 from then on. -/
theorem zero_renewKeys (s : State) (n k : Nat) : (s.renewKeys n).phys.zero k = s.phys.zero k := by
  unfold State.renewKeys
  extract_lets slots runs mine p keys listed under live minor major nodes bad owed
  have hleaf : mine (k / 64 * 64) = mine k := by
    simp only [mine]
    rw [show k / 64 * 64 / 2048 = k / 2048 by omega]
  have hmajor : tget 0 major (k / 64) = if mine k then 0 else tget 0 p.major (k / 64) := by
    refine (tget_filter_key 0 p.major (fun l => !mine (l * 64)) (k / 64)).trans ?_
    rw [hleaf]
    cases mine k <;> rfl
  have hlive : p.zero k = false → (k ∈ live ↔ mine k = true) := by
    intro hz
    simp only [live, List.mem_filter, List.mem_append, and_iff_right_iff_imp]
    intro _
    rw [Phys.zero, Bool.and_eq_false_iff, beq_eq_false_iff_ne, beq_eq_false_iff_ne] at hz
    rcases hz with hz | hz
    · exact .inl (mem_keys_of_tget_ne hz)
    · refine .inr (List.mem_flatMap.mpr ?_)
      obtain ⟨e, he, hek⟩ := List.mem_map.mp (mem_keys_of_tget_ne hz)
      exact ⟨e, he, List.mem_map.mpr ⟨k % 64, List.mem_range.mpr (Nat.mod_lt _ (by decide)), by rw [hek]; omega⟩⟩
  have hminor : tget 0 minor k = if k ∈ live ∧ p.zero k = false then 1 else tget 0 p.minor k :=
    tget_setUnless 0 1 (fun j => p.zero j) live p.minor k
  change (tget 0 minor k == 0 && tget 0 major (k / 64) == 0) = p.zero k
  rw [hminor, hmajor]
  cases hz : p.zero k with
  | true =>
    rw [Phys.zero, Bool.and_eq_true, beq_iff_eq, beq_iff_eq] at hz
    obtain ⟨hmin, hmaj⟩ := hz
    rw [if_neg fun h => Bool.noConfusion h.2, hmin, hmaj, ite_self]
    rfl
  | false =>
    simp only [hlive hz]
    cases hmine : mine k with
    | true => simp
    | false =>
      rw [Phys.zero] at hz
      simpa using hz

theorem sameContents_renewKeys (s : State) (n : Nat) : SameContents s (s.renewKeys n) := by
  have hzero := zero_renewKeys s n
  refine ⟨fun a => ?_, rfl, rfl, fun k h => List.mem_append_right _ h⟩
  rw [Phys.byte, hzero]
  rfl

/-- A renewal before a write moves no byte (R45). -/
theorem sameContents_renewed (s : State) (n leaf : Nat) : SameContents s (s.renewed n leaf) := by
  unfold State.renewed
  split
  · obtain ⟨hbyte, hsaved, hgrants, hpoison⟩ := sameContents_renewKeys s n
    exact ⟨hbyte, hsaved, hgrants, hpoison⟩
  · exact .refl s

theorem written_setSeal (s : State) (pa mark : Nat) : Written s (s.setSeal pa mark) := by
  unfold State.setSeal
  dsimp only
  split <;> exact written_phys s _

theorem sameContents_setSeal (s : State) (pa mark : Nat) : SameContents s (s.setSeal pa mark) := by
  unfold State.setSeal
  dsimp only
  split <;> exact ⟨fun _ => rfl, rfl, rfl, fun _ h => h⟩

theorem sameContents_seal (s : State) (pa key : Nat) : SameContents s (s.seal pa key) := by
  unfold State.seal
  split
  · exact .refl s
  · exact sameContents_setSeal ..

/-! A write of bytes changes bytes, counters and runs of saved units alone (R44, R55). -/

/-- Of memory, no more has changed than a write of bytes changes. -/
def Counted (p q : Phys) : Prop :=
  ∃ bytes minor major nodes saved, q = { p with bytes := bytes, minor := minor, major := major, nodes := nodes, saved := saved }

theorem Counted.refl (p : Phys) : Counted p p := ⟨_, _, _, _, _, rfl⟩

theorem Counted.trans {p q r : Phys} (hpq : Counted p q) (hqr : Counted q r) : Counted p r := by
  obtain ⟨_, _, _, _, _, rfl⟩ := hpq
  obtain ⟨_, _, _, _, _, rfl⟩ := hqr
  exact ⟨_, _, _, _, _, rfl⟩

theorem Counted.foldl {β : Type} {f : Phys → β → Phys} (hf : ∀ p b, Counted p (f p b)) (l : List β) (p : Phys) : Counted p (l.foldl f p) := by
  induction l generalizing p with
  | nil => exact .refl p
  | cons b l ih => exact (hf p b).trans (ih _)

theorem counted_cut (p : Phys) (k : Nat) : Counted p (p.cut k) := by
  unfold Phys.cut
  split
  · exact ⟨p.bytes, p.minor, p.major, p.nodes, _, rfl⟩
  · exact .refl p

theorem Counted.setBytes {p q : Phys} (h : Counted p q) (bytes : Tab Byte) : Counted p { q with bytes := bytes } :=
  h.trans ⟨bytes, q.minor, q.major, q.nodes, q.saved, rfl⟩

theorem counted_thaw (p : Phys) (k : Nat) : Counted p (p.thaw k) := by
  unfold Phys.thaw
  split
  · exact (counted_cut p k).setBytes _
  · exact .refl p

theorem counted_settle (p : Phys) (k : Nat) : Counted p (p.settle k) := by
  unfold Phys.settle
  split
  · exact (counted_cut p k).setBytes _
  · exact .refl p

theorem counted_bumpNodes (p : Phys) (n leaf : Nat) : Counted p (p.bumpNodes n leaf) := ⟨p.bytes, p.minor, p.major, _, p.saved, rfl⟩

theorem counted_countWrite (p : Phys) (n k : Nat) : Counted p (p.countWrite n k) := by
  unfold Phys.countWrite
  extract_lets leaf q m secs settled counted
  have hq : Counted p q := counted_settle p k
  have hall : Counted p counted := by
    simp only [counted]
    split
    · exact (hq.trans (.foldl counted_settle secs q)).trans ⟨settled.bytes, _, _, settled.nodes, settled.saved, rfl⟩
    · exact hq.trans ⟨q.bytes, _, q.major, q.nodes, q.saved, rfl⟩
  exact hall.trans (counted_bumpNodes ..)

theorem counted_writeBytes (p : Phys) (n k : Nat) (bs : List (Nat × Byte)) : Counted p (p.writeBytes n k bs) :=
  ((counted_thaw p k).trans (counted_countWrite ..)).setBytes _

theorem Counted.grants {p q : Phys} (h : Counted p q) : q.grants = p.grants := by obtain ⟨_, _, _, _, _, rfl⟩ := h; rfl

theorem Counted.poison {p q : Phys} (h : Counted p q) : q.poison = p.poison := by obtain ⟨_, _, _, _, _, rfl⟩ := h; rfl

/-- No run of saved units holds a sector once it has been written. -/
theorem runByte_writeBytes (p : Phys) (n k : Nat) (bs : List (Nat × Byte)) {a : Nat} (ha : a / 32 = k) :
    runByte (p.writeBytes n k bs).saved a = none := by
  have h := runByte_countWrite n k ((Phys.byte_thaw p k).2 a ha)
  unfold Phys.writeBytes
  generalize (p.thaw k).countWrite n k = q at h ⊢
  exact h

/-! Places and cells (R159, R181). -/

/-- A page lies in its cells as it lies at its address. -/
theorem cell_page (s : State) (f : Nat) {o : Nat} (ho : o < 65536) :
    s.cell (f * 65536 + o) = s.cell (f * 65536) + o ∧ s.cell (f * 65536) % 65536 = 0 := by
  have htier : tierOf (f * 65536 + o) = tierOf (f * 65536) := by
    unfold tierOf
    simp only [show (f * 65536 + o < 0x8000000000) = (f * 65536 < 0x8000000000) by rw [eq_iff_iff]; omega,
      show (0x10000000000 ≤ f * 65536 + o ∧ f * 65536 + o < 0x20000000000) = (0x10000000000 ≤ f * 65536 ∧ f * 65536 < 0x20000000000) by
        rw [eq_iff_iff]; omega,
      show (0x100000000000 ≤ f * 65536 + o ∧ f * 65536 + o < 0x200000000000) = (0x100000000000 ≤ f * 65536 ∧ f * 65536 < 0x200000000000) by
        rw [eq_iff_iff]; omega]
  have hslot : cxlSlot (f * 65536 + o) = cxlSlot (f * 65536) := by unfold cxlSlot; omega
  unfold State.cell
  rw [htier, hslot]
  dsimp only
  split <;> omega

/-- A sector lies in its cells as it lies at its address. -/
theorem cell_sector (s : State) (k : Nat) {o : Nat} (ho : o < 32) : s.cell (k * 32 + o) = s.cell (k * 32) + o ∧ s.cell (k * 32) % 32 = 0 := by
  have hat := cell_page s (k / 2048) (o := k % 2048 * 32) (by omega)
  have hin := cell_page s (k / 2048) (o := k % 2048 * 32 + o) (by omega)
  rw [show k / 2048 * 65536 + k % 2048 * 32 = k * 32 by omega] at hat
  rw [show k / 2048 * 65536 + (k % 2048 * 32 + o) = k * 32 + o by omega] at hin
  omega

/-- A sector is placed as a whole. -/
theorem place_sector (s : State) (k : Nat) {o : Nat} (ho : o < 32) : s.place (k * 32 + o) = s.place (k * 32) + o ∧ s.place (k * 32) % 32 = 0 := by
  unfold State.place
  rw [show (k * 32 + o) / 65536 = k * 32 / 65536 by omega, show (k * 32 + o) / 32 = k * 32 / 32 by omega]
  split
  · split <;> omega
  · omega

theorem spot_sector (s : State) (k : Nat) {o : Nat} (ho : o < 32) : s.spot (k * 32 + o) = s.spot (k * 32) + o ∧ s.spot (k * 32) % 32 = 0 := by
  obtain ⟨hplace, halign⟩ := place_sector s k ho
  have hcell := cell_sector s (s.place (k * 32) / 32) ho
  rw [show s.place (k * 32) / 32 * 32 = s.place (k * 32) by omega, ← hplace] at hcell
  exact hcell

/-! A write of a sector. -/

/-- The bytes that a write of a sector writes read as written, and no run of saved units holds them (R44, R55). -/
theorem sectorWrite_at (s : State) (sector key : Nat) {bs : List (Nat × Byte)} {o : Nat} {b : Byte} (ho : o < 32) (hb : (o, b) ∈ bs)
    (hn : (bs.map (·.1)).Nodup) :
    (s.sectorWrite sector key bs).phys.byte (s.spot (sector * 32) + o) = b
      ∧ runByte (s.sectorWrite sector key bs).phys.saved (s.spot (sector * 32) + o) = none := by
  obtain ⟨-, halign⟩ := spot_sector s sector ho
  unfold State.sectorWrite
  extract_lets pa sec n t fresh_ u p
  have hat : s.spot (sector * 32) + o = sec * 32 + o := by simp only [sec, pa]; omega
  have hbyte : p.byte (sec * 32 + o) = b := Phys.byte_writeBytes_at u.phys n sec bs o b ho hb hn
  have hrun : runByte p.saved (sec * 32 + o) = none := runByte_writeBytes u.phys n sec bs (by omega)
  rw [hat]
  clear_value p u
  dsimp only
  split
  all_goals exact ⟨hbyte, hrun⟩

theorem sectorWrite_grants (s : State) (sector key : Nat) (bs : List (Nat × Byte)) : (s.sectorWrite sector key bs).phys.grants = s.phys.grants := by
  unfold State.sectorWrite
  extract_lets pa sec n t fresh_ u p
  have ht : SameContents s t := sameContents_renewed ..
  have hu : u.phys.grants = s.phys.grants := by
    simp only [u]
    split
    · exact (sameContents_seal ..).grants.trans ht.grants
    · exact ht.grants
  have hp : p.grants = s.phys.grants := (counted_writeBytes ..).grants.trans hu
  clear_value p u
  dsimp only
  split <;> exact hp

/-! A page-table entry (R146, R147). -/

/-- The bytes of an entry stand where a state serves an address, and no run of saved units holds them. -/
def HoldsEntry (s : State) (pa : Nat) (e : DWord) (p : Phys) : Prop :=
  ∀ i, i < 8 → p.byte (s.spot (pa + i)) = BitVec.ofNat 8 (e.toNat / 256 ^ i) ∧ runByte p.saved (s.spot (pa + i)) = none

theorem physNat_of_bytes {t : State} {pa : Nat} {e : DWord}
    (h : ∀ i, i < 8 → t.phys.byte (t.spot (pa + i)) = BitVec.ofNat 8 (e.toNat / 256 ^ i)) :
    t.physNat pa 8 = e.toNat := by
  have hread : t.physRead pa 8 = leBytes 8 e.toNat := by
    rw [leBytes_eq_map]
    exact List.map_congr_left fun i hi => h i (List.mem_range.mp hi)
  rw [State.physNat, hread, leNat_leBytes]
  exact Nat.mod_eq_of_lt e.isLt

theorem HoldsEntry.physNat {s t : State} {pa : Nat} {e : DWord} (h : HoldsEntry s pa e t.phys)
    (hspot : ∀ i, i < 8 → t.spot (pa + i) = s.spot (pa + i)) :
    t.physNat pa 8 = e.toNat :=
  physNat_of_bytes fun i hi => by
    obtain ⟨hbyte, -⟩ := h i hi
    rw [hspot i hi, hbyte]

/-- An aligned entry lies in one sector. -/
theorem physWrite_entry (s : State) {pa : Nat} (hpa : pa % 8 = 0) (key : Nat) (e : DWord) :
    s.physWrite pa key (leBytes 8 e.toNat)
      = s.sectorWrite (pa / 32) key ((List.range 8).map fun i => (pa % 32 + i, BitVec.ofNat 8 (e.toNat / 256 ^ i))) := by
  have hcells : ((List.range (leBytes 8 e.toNat).length).map fun i => (pa + i, (leBytes 8 e.toNat).getD i 0))
      = (List.range 8).map fun i => (pa + i, BitVec.ofNat 8 (e.toNat / 256 ^ i)) := by
    rw [leBytes_length]
    refine List.map_congr_left fun i hi => ?_
    rw [leBytes_eq_map, List.getD_eq_getElem?_getD, List.getElem?_map, List.getElem?_range (List.mem_range.mp hi)]
    rfl
  have hsec : ∀ i ∈ List.range 8, (pa + i) / 32 = pa / 32 := fun i hi => by
    have := List.mem_range.mp hi
    omega
  have hsecs : ((List.range 8).map fun i => (pa + i) / 32).eraseDups = [pa / 32] := by
    rw [List.map_congr_left hsec]
    simp [List.range_succ, List.eraseDups_cons]
  unfold State.physWrite
  rw [hcells]
  simp only [List.map_map, Function.comp_def, hsecs, List.foldl_cons, List.foldl_nil, List.filter_map]
  congr 1
  rw [List.filter_eq_self.mpr fun i hi => by simpa using hsec i hi]
  refine List.map_congr_left fun i hi => ?_
  have := List.mem_range.mp hi
  rw [show (pa + i) % 32 = pa % 32 + i by omega]

/-- An entry that is written reads as it was written; grants stand. -/
theorem pteWrite_spec (s : State) (ctx : Nat) {pa : Nat} (hpa : pa % 8 = 0) (e : DWord) :
    MemoryOnly s (s.pteWrite ctx pa e) ∧ HoldsEntry s pa e (s.pteWrite ctx pa e).phys ∧ (s.pteWrite ctx pa e).phys.grants = s.phys.grants := by
  unfold State.pteWrite
  rw [physWrite_entry s hpa]
  let bs : List (Nat × Byte) := (List.range 8).map fun i => (pa % 32 + i, BitVec.ofNat 8 (e.toNat / 256 ^ i))
  have hacc := accounted_account (s.sectorWrite (pa / 32) ctx bs) ctx (s.place pa) s.t7 true
  obtain ⟨hbytes, hsaved, hgrants, -⟩ := hacc.sameContents
  have hnodup : (bs.map (·.1)).Nodup := by
    simp only [bs, List.map_map]
    exact List.Nodup.map (fun i j (hij : pa % 32 + i = pa % 32 + j) => Nat.add_left_cancel hij) List.nodup_range
  refine ⟨(written_sectorWrite ..).memoryOnly.trans hacc.memoryOnly, fun i hi => ?_, hgrants.trans (sectorWrite_grants ..)⟩
  obtain ⟨hspot, -⟩ := spot_sector s (pa / 32) (o := pa % 32 + i) (by omega)
  rw [show pa / 32 * 32 + (pa % 32 + i) = pa + i by omega] at hspot
  rw [hspot, hbytes, hsaved]
  exact sectorWrite_at s (pa / 32) ctx (by omega) (List.mem_map.mpr ⟨i, List.mem_range.mpr hi, rfl⟩) hnodup

/-- A walk ends at an aligned entry: the table above it names a table by its aligned address (R146). -/
theorem walkFrom_aligned {s : State} {ctx : Nat} {va : DWord} {acc : Acc} {n table pa : Nat} {t : Tr}
    (h : s.walkFrom ctx va acc (n + 1) table = .ok (pa, t)) : pa % 8 = 0 := by
  induction n generalizing table with
  | zero =>
    unfold State.walkFrom at h
    dsimp only at h
    split at h
    · cases h
    · split at h
      · cases h
      · split at h
        · cases h
        · unfold State.walkFrom at h
          dsimp only at h
          split at h
          · cases h
          · split at h
            · cases h
              omega
            · cases h
  | succ n ih =>
    unfold State.walkFrom at h
    dsimp only at h
    split at h
    · cases h
    · split at h
      · cases h
      · split at h
        · cases h
        · exact ih h

theorem pteAt_aligned {s : State} {ctx vpn pa : Nat} {e : DWord} (h : s.pteAt ctx vpn = some (pa, e)) : pa % 8 = 0 := by
  unfold State.pteAt at h
  split at h
  · next hwalk =>
    cases h
    unfold State.walk at hwalk
    split at hwalk
    · cases hwalk
    · exact walkFrom_aligned hwalk
  · cases h

/-! The migration engine's reads and writes (R160). -/

/-- The sector at a placed address holds these bytes, the rest of memory those that it held, and grants stand. -/
structure EngineWrote (s : State) (pa : Nat) (bs : List Byte) (t : State) : Prop where
  rest : MemoryOnly s t
  grants : t.phys.grants = s.phys.grants
  here : ∀ o, o < 32 → t.phys.byte (s.cell pa + o) = bs.getD o 0
  elsewhere : ∀ a, a / 32 ≠ s.cell pa / 32 → t.phys.byte a = s.phys.byte a

theorem EngineWrote.of_sameContents {s t u : State} {pa : Nat} {bs : List Byte} (h : EngineWrote s pa bs t) (hm : MemoryOnly t u)
    (hc : SameContents t u) : EngineWrote s pa bs u :=
  ⟨h.rest.trans hm, hc.grants.trans h.grants, fun o ho => (hc.byte _).trans (h.here o ho), fun a ha => (hc.byte a).trans (h.elsewhere a ha)⟩

theorem SameContents.engineWrote {s t u : State} {pa : Nat} {bs : List Byte} (hm : MemoryOnly s t) (hc : SameContents s t)
    (h : EngineWrote t pa bs u) : EngineWrote s pa bs u := by
  obtain ⟨hrest, hgrants, hhere, helse⟩ := h
  rw [hm.cell] at hhere helse
  exact ⟨hm.trans hrest, hgrants.trans hc.grants, hhere, fun a ha => (helse a ha).trans (hc.byte a)⟩

/-- The engine's write of a sector's bytes, once its counters and its seal stand. -/
theorem engineWrote_writeBytes (s : State) (ctx : Nat) {pa : Nat} (hpa : s.cell pa % 32 = 0) (bs : List Byte) :
    EngineWrote s pa bs { s with phys := s.phys.writeBytes ctx (s.cell pa / 32) ((List.range 32).map fun i => (i, bs.getD i 0)) } := by
  generalize hws : ((List.range 32).map fun i => (i, bs.getD i 0)) = ws
  have hkeys : ws.map (·.1) = List.range 32 := by
    rw [← hws, List.map_map]
    exact List.map_id _
  have hhere := fun o ho => Phys.byte_writeBytes_at s.phys ctx (s.cell pa / 32) ws o (bs.getD o 0) ho
    (hws ▸ List.mem_map.mpr ⟨o, List.mem_range.mpr ho, rfl⟩) (hkeys ▸ List.nodup_range)
  have helse := Phys.byte_writeBytes_ne s.phys ctx (s.cell pa / 32) ws
  have hgrants := (counted_writeBytes s.phys ctx (s.cell pa / 32) ws).grants
  generalize s.phys.writeBytes ctx (s.cell pa / 32) ws = q at hhere helse hgrants ⊢
  refine ⟨(written_phys s q).memoryOnly, hgrants, fun o ho => ?_, fun a ha => helse a fun x hx => ?_⟩
  · rw [show s.cell pa + o = s.cell pa / 32 * 32 + o by omega]
    exact hhere o ho
  · have hlt : x.1 ∈ ws.map (·.1) := List.mem_map_of_mem hx
    rw [hkeys, List.mem_range] at hlt
    omega

theorem EngineWrote.setPoison {s t : State} {pa : Nat} {bs : List Byte} (h : EngineWrote s pa bs t) (l : List Nat) :
    EngineWrote s pa bs { t with phys := { t.phys with poison := l } } :=
  ⟨h.rest.trans (written_phys t _).memoryOnly, h.grants, h.here, h.elsewhere⟩

theorem EngineWrote.markPoison {s t : State} {pa : Nat} {bs : List Byte} (h : EngineWrote s pa bs t) :
    EngineWrote s pa bs (t.markPoison pa) ∧ s.cell pa / 32 ∈ (t.markPoison pa).phys.poison := by
  rw [← h.rest.cell]
  unfold State.markPoison
  dsimp only
  refine ⟨h.setPoison _, ?_⟩
  split
  · next hin => simpa using hin
  · exact List.mem_cons_self

theorem engineWrite_spec (s : State) {pa : Nat} (hpa : pa % 32 = 0) (key : Nat) (bs : List Byte) (poison : Bool) :
    EngineWrote s pa bs (s.engineWrite pa key bs poison)
      ∧ (poison = true → (s.engineWrite pa key bs poison).phys.poison.contains (s.cell pa / 32) = true) := by
  obtain ⟨-, halign⟩ := cell_sector s (pa / 32) (o := 0) (by omega)
  rw [show pa / 32 * 32 = pa by omega] at halign
  unfold State.engineWrite
  extract_lets ctx k s0 s1 _ s2
  have h0 : MemoryOnly s s0 := ((written_renewed s ctx (k / 64)).trans (written_setSeal ..)).memoryOnly
  have hc0 : SameContents s s0 := (sameContents_renewed s ctx (k / 64)).trans (sameContents_setSeal ..)
  have hcell : s0.cell pa = s.cell pa := by rw [h0.cell]
  have h1 : EngineWrote s pa bs s1 := by
    refine hc0.engineWrote h0 ?_
    simp only [s1, k]
    rw [← hcell]
    exact engineWrote_writeBytes s0 ctx (by rw [hcell]; exact halign) bs
  clear_value s1
  have h2 : EngineWrote s pa bs s2 ∧ (poison = true → s.cell pa / 32 ∈ s2.phys.poison) := by
    simp only [s2]
    split
    · exact ⟨h1.markPoison.1, fun _ => h1.markPoison.2⟩
    · next hp => exact ⟨h1.setPoison _, fun h => absurd h hp⟩
  obtain ⟨hwrote, hpoison⟩ := h2
  have hacc := accounted_account s2 ctx pa s.t7 true
  refine ⟨hwrote.of_sameContents hacc.memoryOnly hacc.sameContents, fun hp => ?_⟩
  rw [List.contains_eq_mem, decide_eq_true_eq]
  exact hacc.sameContents.poison _ (hpoison hp)

theorem accounted_engineRead (s : State) (pa key : Nat) : Accounted s (s.engineRead pa key).2 :=
  (Accounted.ite ((accounted_pmc s _ 7 1).trans (accounted_startTest ..)) (.refl s)).trans (accounted_account ..)

/-- The engine reads a sector that is not poisoned and passes its check (R42, R47). -/
theorem engineRead_passes {s : State} {pa key : Nat} (hpoison : s.phys.poison.contains (s.cell pa / 32) = false)
    (hseal : s.phys.zero (s.cell pa / 32) = true ∨ s.sealAt pa = key + sealPlace pa) :
    (s.engineRead pa key).1 = some ((List.range 32).map fun i => s.phys.byte (s.cell pa / 32 * 32 + i)) := by
  have hfails : (!s.phys.zero (s.cell pa / 32) && s.sealAt pa != key + sealPlace pa) = false := by
    rcases hseal with h | h
    · rw [h]; rfl
    · rw [h, bne_self_eq_false, Bool.and_false]
  unfold State.engineRead
  simp only [hpoison, hfails, Bool.or_self, Bool.false_and, Bool.false_eq_true, if_false]

/-! A frame is cleared (R46). -/

theorem zero_wipe (p : Phys) (c : Nat) {k : Nat} (hk : k / 2048 = c) : (p.wipe c).zero k = true := by
  have hminor : tget 0 (p.wipe c).minor k = 0 := by
    refine (tget_filter_key 0 p.minor (fun k => !(k / 2048 == c)) k).trans ?_
    simp [hk]
  have hmajor : tget 0 (p.wipe c).major (k / 64) = 0 := by
    refine (tget_filter_key 0 p.major (fun k => !(k / 32 == c)) (k / 64)).trans ?_
    simp [show k / 64 / 32 = c by omega]
  rw [Phys.zero, hminor, hmajor]
  rfl

theorem runByte_filter_none {l : List (Nat × Nat × Nat)} {a : Nat} (h : runByte l a = none) (keep : Nat × Nat × Nat → Bool) :
    runByte (l.filter keep) a = none := by
  unfold runByte at h ⊢
  rw [Option.map_eq_none_iff, List.find?_eq_none] at h ⊢
  exact fun r hr => h r (List.mem_of_mem_filter hr)

/-- A byte of another frame that no run of saved units holds reads as before. -/
theorem byte_wipe (p : Phys) (c : Nat) {a : Nat} (ha : a / 65536 ≠ c) (hrun : runByte p.saved a = none) : (p.wipe c).byte a = p.byte a := by
  have hminor : tget 0 (p.wipe c).minor (a / 32) = tget 0 p.minor (a / 32) := by
    refine (tget_filter_key 0 p.minor (fun k => !(k / 2048 == c)) (a / 32)).trans ?_
    simp [show a / 32 / 2048 ≠ c by omega]
  have hmajor : tget 0 (p.wipe c).major (a / 32 / 64) = tget 0 p.major (a / 32 / 64) := by
    refine (tget_filter_key 0 p.major (fun k => !(k / 32 == c)) (a / 32 / 64)).trans ?_
    simp [show a / 32 / 64 / 32 ≠ c by omega]
  have hbytes : tget 0 (p.wipe c).bytes a = tget 0 p.bytes a := by
    refine (tget_filter_key 0 p.bytes (fun k => !(k / 65536 == c)) a).trans ?_
    simp [ha]
  have hrun' : runByte (p.wipe c).saved a = none := runByte_filter_none hrun _
  simp only [Phys.byte, Phys.zero, hminor, hmajor, hbytes, hrun, hrun']

theorem sameContents_bumpNodes (s : State) (n leaf : Nat) : SameContents s { s with phys := s.phys.bumpNodes n leaf } := by
  have hbyte := Phys.byte_bumpNodes s.phys n leaf
  have hsaved := Phys.saved_bumpNodes s.phys n leaf
  have hgrants := (counted_bumpNodes s.phys n leaf).grants
  have hpoison := (counted_bumpNodes s.phys n leaf).poison
  generalize s.phys.bumpNodes n leaf = q at hbyte hsaved hgrants hpoison ⊢
  exact ⟨hbyte, hsaved, hgrants, fun k hk => hpoison.symm ▸ hk⟩

/-- What the clear of a frame leaves: the frame reads as zeros, and a byte elsewhere that no run of saved units holds reads as before. -/
theorem clearFrame_spec (s : State) (n frame : Nat) :
    MemoryOnly s (s.clearFrame n frame) ∧ (s.clearFrame n frame).phys.grants = s.phys.grants
      ∧ (∀ a, a / 65536 = s.cell (frame * 65536) / 65536 → (s.clearFrame n frame).phys.byte a = 0)
      ∧ ∀ a, a / 65536 ≠ s.cell (frame * 65536) / 65536 → runByte s.phys.saved a = none →
        (s.clearFrame n frame).phys.byte a = s.phys.byte a := by
  unfold State.clearFrame
  extract_lets c
  let wiped : State := { s with phys := s.phys.wipe c }
  have hstep : ∀ (t : State) (j : Nat), Written t (let u := t.renewed n (c * 32 + j); { u with phys := u.phys.bumpNodes n (c * 32 + j) })
      ∧ SameContents t (let u := t.renewed n (c * 32 + j); { u with phys := u.phys.bumpNodes n (c * 32 + j) }) := fun t j =>
    ⟨(written_renewed t n _).trans (written_phys _ _), (sameContents_renewed t n _).trans (sameContents_bumpNodes ..)⟩
  have hfold : ∀ l : List Nat, MemoryOnly wiped (l.foldl (fun (s : State) j =>
        let s := s.renewed n (c * 32 + j)
        { s with phys := s.phys.bumpNodes n (c * 32 + j) }) wiped)
      ∧ SameContents wiped (l.foldl (fun (s : State) j =>
        let s := s.renewed n (c * 32 + j)
        { s with phys := s.phys.bumpNodes n (c * 32 + j) }) wiped) := fun l =>
    ⟨(Written.foldl (fun t j => (hstep t j).1) l wiped).memoryOnly,
      List.foldlRecOn (motive := SameContents wiped) l _ (.refl wiped) fun t ht j _ => ht.trans (hstep t j).2⟩
  obtain ⟨hm, hbyte, hsaved, hgrants, -⟩ := hfold (List.range 32)
  refine ⟨(written_phys s (s.phys.wipe c)).memoryOnly.trans hm, hgrants, fun a ha => (hbyte a).trans ?_, fun a ha hrun => (hbyte a).trans ?_⟩
  · exact if_pos (zero_wipe s.phys c (by omega))
  · exact byte_wipe s.phys c ha hrun

end Sys2Proof.Machine
end

section
/-! PROOFS. Pages move (R156 to R158): frames are drawn from a pool, a MOVEREQ starts the move of a page, and the policy halves its counters. -/

namespace Sys2Proof.Machine

/- One proof at a time: many at once cost a thread, and its stack, each. -/
set_option Elab.async false

theorem Accounted.symm {s t : State} (h : Accounted s t) : Accounted t s := by
  obtain ⟨mc, tests, hot, ctxs, rfl, hc⟩ := h
  refine ⟨s.mc, s.tests, s.phys.hot, s.ctxs, rfl, fun n => ⟨(s.ctx n).pmc, ?_⟩⟩
  obtain ⟨p, hp⟩ := hc n
  change s.ctx n = { tget Ctx.init ctxs n with pmc := (s.ctx n).pmc }
  rw [hp]

/-! An account starts self-tests and retires no frame. -/

theorem tests_sampleHot (s : State) (pa : Nat) : (s.sampleHot pa).tests = s.tests := by
  unfold State.sampleHot
  dsimp only
  split <;> rfl

theorem tests_account (s : State) (ctx pa since : Nat) (isWrite : Bool) : (s.account ctx pa since isWrite).tests = s.tests := by
  unfold State.account State.access
  extract_lets g owner
  split
  next t x fresh_ hx =>
    have ht : t.tests = s.tests := by
      split at hx
      · cases hx
        rfl
      · cases hx
        rfl
    extract_lets lat t1 t2 t3 t4 t5
    have h2 : t2.tests = s.tests := by simp only [t2]; split <;> exact ht
    have h3 : t3.tests = s.tests := by simp only [t3]; split <;> exact h2
    have h4 : t4.tests = s.tests := (tests_sampleHot t3 pa).trans h3
    have h5 : t5.tests = s.tests := by simp only [t5]; split <;> exact h4
    dsimp only
    split <;> exact h5

theorem retired_checkFailed (s : State) (ctx pa : Nat) : (s.checkFailed ctx pa).tests.retired = s.tests.retired := by
  unfold State.checkFailed State.startTest
  split <;> rfl

theorem retired_walked (s : State) (ctx : Nat) (va : DWord) : (s.walked ctx va).tests.retired = s.tests.retired := by
  unfold State.walked
  extract_lets es t
  have ht : t.tests.retired = s.tests.retired :=
    List.foldlRecOn (motive := fun u : State => u.tests.retired = s.tests.retired) _ _ rfl fun u hu pa _ => by rw [tests_account, hu]
  split
  · split
    · exact (retired_checkFailed ..).trans ht
    · exact ht
  · exact ht

/-! Frames are drawn from a pool (R156). -/

/-- A state differs from another in no more than accounts, Amber events and draws from the pools change. -/
def Drawn (s t : State) : Prop :=
  ∃ u amber heads, Accounted s u ∧ u.tests.retired = s.tests.retired ∧ t = { u with amber := amber, pme := { u.pme with fphead := heads } }

theorem Accounted.drawn {s t : State} (h : Accounted s t) (hr : t.tests.retired = s.tests.retired) : Drawn s t :=
  ⟨t, t.amber, t.pme.fphead, h, hr, rfl⟩

theorem Drawn.refl (s : State) : Drawn s s := (Accounted.refl s).drawn rfl

theorem Drawn.trans {s t u : State} (hst : Drawn s t) (htu : Drawn t u) : Drawn s u := by
  obtain ⟨x, _, _, hx, hr, rfl⟩ := hst
  obtain ⟨_, amber, heads, ⟨mc, tests, hot, ctxs, rfl, hc⟩, hr', rfl⟩ := htu
  have hxy : Accounted x { x with phys := { x.phys with hot := hot }, mc := mc, tests := tests, ctxs := ctxs } := ⟨mc, tests, hot, ctxs, rfl, hc⟩
  exact ⟨_, amber, heads, hx.trans hxy, hr'.trans hr, rfl⟩

theorem Drawn.symm {s t : State} (h : Drawn s t) : Drawn t s := by
  obtain ⟨u, amber, heads, hu, hr, rfl⟩ := h
  obtain ⟨mc, tests, hot, ctxs, rfl, hc⟩ := hu.symm
  exact ⟨{ u with amber := amber, pme := { u.pme with fphead := heads }, phys := { u.phys with hot := hot }, mc := mc, tests := tests, ctxs := ctxs },
    u.amber, u.pme.fphead, ⟨mc, tests, hot, ctxs, rfl, hc⟩, hr.symm, rfl⟩

section
variable {s t : State} (h : Drawn s t)
include h

theorem Drawn.retired : t.tests.retired = s.tests.retired := by obtain ⟨u, _, _, -, hr, rfl⟩ := h; exact hr
theorem Drawn.poolEntry : t.poolEntry = s.poolEntry := by obtain ⟨_, _, _, ⟨_, _, _, _, rfl, _⟩, _, rfl⟩ := h; rfl
theorem Drawn.frameThere : t.frameThere = s.frameThere := by obtain ⟨_, _, _, ⟨_, _, _, _, rfl, _⟩, _, rfl⟩ := h; rfl
theorem Drawn.grantOf : t.grantOf = s.grantOf := by obtain ⟨_, _, _, ⟨_, _, _, _, rfl, _⟩, _, rfl⟩ := h; rfl
theorem Drawn.isPeer : t.isPeer = s.isPeer := by obtain ⟨_, _, _, ⟨_, _, _, _, rfl, _⟩, _, rfl⟩ := h; rfl
theorem Drawn.physNat : t.physNat = s.physNat := by obtain ⟨_, _, _, ⟨_, _, _, _, rfl, _⟩, _, rfl⟩ := h; rfl

theorem Drawn.walkFrom (ctx : Nat) (va : DWord) (acc : Acc) (n table : Nat) :
    t.walkFrom ctx va acc n table = s.walkFrom ctx va acc n table := by
  obtain ⟨_, _, _, ⟨_, _, _, _, rfl, _⟩, _, rfl⟩ := h
  induction n generalizing table with
  | zero => rfl
  | succ n ih =>
    simp only [State.walkFrom, ih]
    rfl

theorem Drawn.walk (ctx : Nat) (va : DWord) (acc : Acc) : t.walk ctx va acc = s.walk ctx va acc := by
  have hroot : (t.ctx ctx).ptroot = (s.ctx ctx).ptroot := by
    obtain ⟨u, _, _, hu, -, rfl⟩ := h
    obtain ⟨p, hp⟩ := hu.ctx ctx
    change (u.ctx ctx).ptroot = _
    rw [hp]
  simp only [State.walk, h.walkFrom, hroot]

theorem Drawn.pteAt (ctx vpn : Nat) : t.pteAt ctx vpn = s.pteAt ctx vpn := by simp only [State.pteAt, h.walk, h.physNat]

end

/-- The state in which the head of a tier's pool is read and drawn. -/
def State.drawFrame (s : State) (n : Nat) : State :=
  let head := (tget (0 : Word) s.pme.fphead n).toNat
  let at_ := s.place (s.pme.entryAt n head)
  State.modPme (if s.poolThere at_ then s.account ((s.holderOf at_).getD noCtx) at_ s.t7 false else s)
    fun p => { p with fphead := tset 0 p.fphead n (p.after n head) }

theorem takeFrame_succ (s : State) (n k : Nat) :
    s.takeFrame n (k + 1) =
      (let frame := s.poolEntry n (tget (0 : Word) s.pme.fphead n).toNat
      if s.pme.size n = 0 ∨ tget 0 s.pme.fphead n = tget 0 s.pme.fptail n then (none, s)
      else if frame.isSome ∧ s.frameThere (frame.getD 0) = some n ∧ (s.grantOf (frame.getD 0)).isNone ∧ !s.isPeer (frame.getD 0 * 65536)
          ∧ !s.tests.retired.contains (frame.getD 0) then (some (frame.getD 0), s.drawFrame n)
      else ((s.drawFrame n).amberEvent 0x53 5 0 (frame.getD 0)).takeFrame n k) := by
  simp only [State.takeFrame, State.drawFrame]

theorem drawn_drawFrame (s : State) (n : Nat) : Drawn s (s.drawFrame n) := by
  unfold State.drawFrame
  extract_lets head at_
  split
  · exact ⟨_, _, _, accounted_account .., congrArg Tests.retired (tests_account ..), rfl⟩
  · exact ⟨_, _, _, .refl s, rfl, rfl⟩

theorem pme_drawFrame (s : State) (n : Nat) :
    (s.drawFrame n).pme = { s.pme with fphead := tset 0 s.pme.fphead n (s.pme.after n (tget (0 : Word) s.pme.fphead n).toNat) } := by
  unfold State.drawFrame State.modPme
  dsimp only
  split
  · rw [(accounted_account ..).pme]
  · rfl

theorem drawn_amberEvent (s : State) (cause unitClass unit detail : Nat) : Drawn s (s.amberEvent cause unitClass unit detail) :=
  ⟨s, _, s.pme.fphead, .refl s, rfl, rfl⟩

theorem drawn_takeFrame (s : State) (n k : Nat) : Drawn s (s.takeFrame n k).2 := by
  induction k generalizing s with
  | zero => exact .refl s
  | succ k ih =>
    rw [takeFrame_succ]
    extract_lets frame
    split
    · exact .refl s
    · split
      · exact drawn_drawFrame s n
      · exact ((drawn_drawFrame s n).trans (drawn_amberEvent ..)).trans (ih _)

/-- What frame a pool gives does not turn on accounts and Amber events. -/
theorem takeFrame_alike {s t : State} (h : Drawn s t) (hp : t.pme = s.pme) (n k : Nat) : (t.takeFrame n k).1 = (s.takeFrame n k).1 := by
  induction k generalizing s t with
  | zero => rfl
  | succ k ih =>
    rw [takeFrame_succ, takeFrame_succ]
    dsimp only
    rw [hp, h.poolEntry, h.frameThere, h.grantOf, h.isPeer, h.retired]
    split
    · rfl
    · split
      · rfl
      · have hnext : Drawn (s.drawFrame n) (t.drawFrame n) := (drawn_drawFrame s n).symm.trans (h.trans (drawn_drawFrame t n))
        refine ih (((drawn_amberEvent ..).symm.trans hnext).trans (drawn_amberEvent ..)) ?_
        change (t.drawFrame n).pme = (s.drawFrame n).pme
        rw [pme_drawFrame, pme_drawFrame, hp]

/-! MOVEREQ (R158). -/

theorem tput_tput {α : Type} (m : Tab α) (k : Nat) (a b : α) : tput (tput m k a) k b = tput m k b := by
  induction m with
  | nil => simp [tput]
  | cons e m ih =>
    obtain ⟨j, v⟩ := e
    rw [tput, tput]
    split
    · simp [tput]
    · split
      · simp [tput]
      · next h h' => rw [tput, if_neg h, if_neg h', ih]

theorem or_and_pteMoving (e : DWord) : (e ||| pteMoving) &&& pteMoving = pteMoving := by
  refine BitVec.eq_of_getLsbD_eq fun i _ => ?_
  rw [BitVec.getLsbD_and, BitVec.getLsbD_or]
  cases pteMoving.getLsbD i <;> simp

/-- A page whose entry can be read is cut from its frame's move, and the entry as CUTTING left it is kept (R160). -/
theorem startMove_moves (s : State) (ctx vpn : Nat) (t : Tr) (d tier : Nat) {pa : Nat} {e : DWord} (hpte : s.pteAt ctx vpn = some (pa, e)) :
    ∃ k m, tfind (s.startMove ctx vpn t d tier).pme.moves k = some m ∧ m.ctx = ctx ∧ m.vpn = vpn ∧ m.src = t.frame ∧ m.dst = d
      ∧ m.tier = tier ∧ m.rekey = none ∧ m.st = .cutting ∧ m.pte &&& pteMoving = pteMoving := by
  unfold State.startMove
  rw [hpte]
  dsimp -zeta only
  extract_lets e' s1 m
  clear_value s1
  exact ⟨_, m, tfind_tput_self .., rfl, rfl, rfl, rfl, rfl, rfl, rfl, or_and_pteMoving e⟩

/-- A request that may start gives 0, and starts the move into the frame that the pool gives. -/
theorem moveReq_starts {s : State} {v : BitVec 64} {t : Tr} {pa d : Nat}
    (htier : (v.extractLsb' 56 2).toNat ≠ 3) (hctx : (s.ctx (v.extractLsb' 58 6).toNat).st ≠ .free)
    (hwalk : s.walk (v.extractLsb' 58 6).toNat (BitVec.ofNat 64 ((v.extractLsb' 16 40).toNat * 65536)) .read = .ok (pa, t))
    (hpeer : s.isPeer (t.frame * 65536) = false) (hrest : s.atRest t = true) (hmoves : t.tier ≠ (v.extractLsb' 56 2).toNat)
    (hmax : s.pme.inMotion < s.pme.maxMoves)
    (htake : (s.takeFrame (v.extractLsb' 56 2).toNat (s.pme.size (v.extractLsb' 56 2).toNat + 1)).1 = some d) :
    ∃ x, Drawn s x
      ∧ s.moveReq v = (0, x.startMove (v.extractLsb' 58 6).toNat (v.extractLsb' 16 40).toNat t d (v.extractLsb' 56 2).toNat) := by
  unfold State.moveReq
  extract_lets n tier vpn w
  have hw : Accounted s w := accounted_walked ..
  have hdraw : Drawn s w := hw.drawn (retired_walked ..)
  have htake' : (w.takeFrame tier (s.pme.size tier + 1)).1 = some d := (takeFrame_alike hdraw hw.pme tier _).trans htake
  have hrest' : w.atRest t = true := by rw [State.atRest, hw.pme]; exact hrest
  refine ⟨(w.takeFrame tier (s.pme.size tier + 1)).2, hdraw.trans (drawn_takeFrame ..), ?_⟩
  rw [if_neg (not_or.mpr ⟨htier, hctx⟩), hw.walk, hwalk]
  dsimp only
  rw [hw.isPeer, hpeer, hrest', hw.pme, if_neg Bool.false_ne_true, Bool.not_true, if_neg Bool.false_ne_true, if_neg hmoves,
    if_neg (Nat.not_le.mpr hmax)]
  generalize w.takeFrame tier (s.pme.size tier + 1) = r at htake'
  obtain ⟨_, x⟩ := r
  cases htake'
  rfl

theorem exec_movereq {s u : State} {v : BitVec 64} {c : Nat} (h : s.moveReq v = (c, u)) :
    exec (.movereq v) s = .next (u.modPme fun p => { p with movestat := BitVec.ofNat 32 c }) := by
  change execMovereq v s = _
  unfold execMovereq
  rw [h]

/-- A request leaves what it is judged to leave, and its code. -/
theorem completes_movereq_code {s u : State} {v : BitVec 64} {c : Nat} (h : s.moveReq v = (c, u)) :
    Completes (.movereq v) s fun t => t.waves = u.waves ∧ (∀ pa, t.phys.byte pa = u.phys.byte pa) ∧ t.pme.moves = u.pme.moves
      ∧ t.pme.movestat = BitVec.ofNat 32 c :=
  ⟨_, exec_movereq h, rfl, fun _ => rfl, rfl, rfl⟩

/-- A request takes a frame, sets MOVING and reports 0. -/
theorem completes_movereq {s : State} {v : BitVec 64} {t : Tr} {pa d : Nat}
    (htier : (v.extractLsb' 56 2).toNat ≠ 3) (hctx : (s.ctx (v.extractLsb' 58 6).toNat).st ≠ .free)
    (hwalk : s.walk (v.extractLsb' 58 6).toNat (BitVec.ofNat 64 ((v.extractLsb' 16 40).toNat * 65536)) .read = .ok (pa, t))
    (hpeer : s.isPeer (t.frame * 65536) = false) (hrest : s.atRest t = true) (hmoves : t.tier ≠ (v.extractLsb' 56 2).toNat)
    (hmax : s.pme.inMotion < s.pme.maxMoves)
    (htake : (s.takeFrame (v.extractLsb' 56 2).toNat (s.pme.size (v.extractLsb' 56 2).toNat + 1)).1 = some d) :
    Completes (.movereq v) s fun x => x.pme.movestat = 0 ∧ ∃ k m, tfind x.pme.moves k = some m ∧ m.ctx = (v.extractLsb' 58 6).toNat
      ∧ m.vpn = (v.extractLsb' 16 40).toNat ∧ m.src = t.frame ∧ m.dst = d ∧ m.tier = (v.extractLsb' 56 2).toNat
      ∧ m.rekey = none ∧ m.st = .cutting ∧ m.pte &&& pteMoving = pteMoving := by
  obtain ⟨x, hx, hreq⟩ := moveReq_starts htier hctx hwalk hpeer hrest hmoves hmax htake
  have hpte : x.pteAt (v.extractLsb' 58 6).toNat (v.extractLsb' 16 40).toNat = some (pa, BitVec.ofNat 64 (s.physNat pa 8)) := by
    rw [hx.pteAt, State.pteAt, hwalk]
  have hmove := startMove_moves x (v.extractLsb' 58 6).toNat (v.extractLsb' 16 40).toNat t d (v.extractLsb' 56 2).toNat hpte
  exact ⟨_, exec_movereq hreq, rfl, hmove⟩

/-! The policy interval (R158). -/

theorem tget_filter_value {α : Type} [DecidableEq α] (d : α) {m : Tab α} (h : tsorted m = true) (k : Nat) :
    tget d (m.filter fun e => e.2 != d) k = tget d m k := by
  induction m with
  | nil => rfl
  | cons e m ih =>
    obtain ⟨j, v⟩ := e
    obtain ⟨hlt, hm⟩ := tsorted_cons.mp h
    by_cases hv : v = d
    · rw [List.filter_cons_of_neg (by simpa using hv), ih hm, tget]
      split
      · next hj =>
        rw [hv]
        by_contra hne
        obtain ⟨x, hx, hxk⟩ := List.mem_map.mp (mem_keys_of_tget_ne hne)
        exact absurd (hlt x hx) (by simp only at *; omega)
      · rfl
    · rw [List.filter_cons_of_pos (by simpa using hv), tget, tget, ih hm]

/-- A policy that moves no page halves every counter. -/
theorem exec_policyInterval_halves {s : State} (hon : s.pme.policy.getLsbD 7 = true) (hevery : s.pme.policy.extractLsb' 8 24 ≠ 0)
    (hnone : ∀ e ∈ s.policyPages, (e.2.tier = 0 ∨ s.hotOf e.1.1 < s.promote.toNat) ∧ (2 ≤ e.2.tier ∨ s.demote.toNat < s.hotOf e.1.1)) :
    exec .policyInterval s
      = .next { s with phys := { s.phys with hot := (s.phys.hot.map fun (e : Nat × BitVec 8) => (e.1, e.2 >>> 1)).filter fun e => e.2 != 0 } } := by
  change execPolicyInterval s = _
  unfold execPolicyInterval
  extract_lets ps ups downs s1 s2
  have hups : ups = [] := List.filter_eq_nil_iff.mpr fun e he h => by
    obtain ⟨hup, -⟩ := hnone e he
    simp only [Bool.and_eq_true, bne_iff_ne, decide_eq_true_eq] at h
    omega
  have hdowns : downs = [] := List.filter_eq_nil_iff.mpr fun e he h => by
    obtain ⟨-, hdown⟩ := hnone e he
    simp only [Bool.and_eq_true, decide_eq_true_eq] at h
    omega
  have hs2 : s2 = s := by simp only [s2, s1, hups, hdowns, List.foldl_nil]
  have hgo : ¬((!s.pme.policy.getLsbD 7) = true ∨ s.pme.policy.extractLsb' 8 24 = 0) := by
    rw [hon]
    exact not_or.mpr ⟨Bool.false_ne_true, hevery⟩
  clear_value s2
  subst hs2
  rw [if_neg hgo]

theorem completes_policyInterval {s : State} (hon : s.pme.policy.getLsbD 7 = true) (hevery : s.pme.policy.extractLsb' 8 24 ≠ 0)
    (hwf : twf 0 s.phys.hot = true)
    (hnone : ∀ e ∈ s.policyPages, (e.2.tier = 0 ∨ s.hotOf e.1.1 < s.promote.toNat) ∧ (2 ≤ e.2.tier ∨ s.demote.toNat < s.hotOf e.1.1)) :
    Completes .policyInterval s fun t => (∀ f, tget 0 t.phys.hot f = tget 0 s.phys.hot f >>> 1) ∧ t.waves = s.waves ∧ SameMemory s t
      ∧ t.pme = s.pme := by
  refine ⟨_, exec_policyInterval_halves hon hevery hnone, fun f => ?_, rfl, ⟨fun _ => rfl, fun _ _ _ => rfl⟩, rfl⟩
  have hsorted : tsorted s.phys.hot = true := (Bool.and_eq_true_iff.mp hwf).1
  exact (tget_filter_value (0 : BitVec 8) (tsorted_map (fun _ (x : BitVec 8) => x >>> 1) hsorted) f).trans
    (tget_map (0 : BitVec 8) (fun x => x >>> 1) rfl _ f)

end Sys2Proof.Machine
end

section
/-! PROOFS. The copy of a page that moves, its commit, its abort and the release of its source (R159 to R161). -/

namespace Sys2Proof.Machine

/- One proof at a time: many at once cost a thread, and its stack, each. -/
set_option Elab.async false

/-! What the parts of a move leave alone. -/

theorem MemoryOnly.sameRegs {s t : State} (h : MemoryOnly s t) : SameRegs s t := fun k x => by rw [State.newest, h.waves, State.newest]

theorem tfind_mapValues {α β : Type} (f : α → β) (m : Tab α) (k : Nat) : tfind (m.map fun e => (e.1, f e.2)) k = (tfind m k).map f := by
  induction m with
  | nil => rfl
  | cons e m ih =>
    simp only [List.map_cons, tfind, ih]
    split <;> rfl

/-- A wave once an invalidation has cut its frame registers (R151). -/
def Wave.cutBy (ctx vpn count : Nat) (w : Wave) : Wave :=
  let cutAll := fun (t : Tab (BitVec 192)) => t.map fun e => (e.1, cutFrame vpn count e.2)
  if w.ctx = ctx then { w with f := cutAll w.f, region := w.region.map fun r => { r with f := cutAll r.f } } else w

theorem newest_cutBy (ctx vpn count : Nat) (w : Wave) (x : Target) : (w.cutBy ctx vpn count).newest x = w.newest x := by
  unfold Wave.cutBy
  dsimp only
  split <;> rfl

section
variable (s : State) (ctx vpn count : Nat) (reg : Bool) (wid : Option Nat) (cnt : List Nat)

theorem phys_startInval : (s.startInval ctx vpn count reg wid cnt).phys = s.phys := rfl
theorem pme_startInval : (s.startInval ctx vpn count reg wid cnt).pme = s.pme := rfl
theorem windows_startInval : (s.startInval ctx vpn count reg wid cnt).windows = s.windows := rfl
theorem cell_startInval : (s.startInval ctx vpn count reg wid cnt).cell = s.cell := rfl
theorem ctx_startInval (n : Nat) : (s.startInval ctx vpn count reg wid cnt).ctx n = s.ctx n := rfl

theorem waves_startInval : (s.startInval ctx vpn count reg wid cnt).waves = s.waves.map fun e => (e.1, e.2.cutBy ctx vpn count) := rfl

theorem invals_startInval : ∃ i, (s.startInval ctx vpn count reg wid cnt).invals = s.invals ++ [i] ∧ i.ctx = ctx ∧ i.vpn = vpn ∧ i.count = count
    ∧ i.id = s.nextId := ⟨_, rfl, rfl, rfl, rfl, rfl⟩

/-- An invalidation cuts frame registers, and no other register. -/
theorem sameRegs_startInval : SameRegs s (s.startInval ctx vpn count reg wid cnt) := by
  intro k x
  rw [State.newest, waves_startInval, tfind_mapValues, State.newest]
  cases tfind s.waves k with
  | none => rfl
  | some w => exact newest_cutBy ctx vpn count w x

end

theorem waves_setMove (s : State) (k : Nat) (m : Move) : (s.setMove k m).waves = s.waves := rfl
theorem phys_setMove (s : State) (k : Nat) (m : Move) : (s.setMove k m).phys = s.phys := rfl

theorem tfind_setMove (s : State) (k : Nat) (m : Move) : tfind (s.setMove k m).pme.moves k = some m := tfind_tput_self ..

/-- A frame whose tier has no pool is left out (R156). -/
theorem poolFrame_without {s : State} (h : ∀ i, s.pme.size i = 0) (f : Nat) : ∃ amber, s.poolFrame f = { s with amber := amber } := by
  unfold State.poolFrame
  split
  · exact ⟨s.amber, rfl⟩
  · split
    · exact ⟨s.amber, rfl⟩
    · next n _ =>
      extract_lets p tail pa
      rw [if_pos (.inl (h n))]
      exact ⟨_, rfl⟩

theorem retryRekeys_without {s : State} (h : s.windows = []) : s.retryRekeys = s := by
  unfold State.retryRekeys
  rw [h]
  rfl

/-! Where a page is served while it moves (R159). -/

/-- The first entry that fits a test, with one value or the other at a key, where the test and what is asked of the entry do not tell
the two apart. -/
theorem find?_tput_alike {α β : Type} {p : Nat × α → Bool} {f : Nat × α → β} {k : Nat} {a b : α} (hp : p (k, a) = p (k, b))
    (hf : f (k, a) = f (k, b)) (m : Tab α) : ((tput m k a).find? p).map f = ((tput m k b).find? p).map f := by
  have hhead : ∀ l : Tab α, (((k, a) :: l).find? p).map f = (((k, b) :: l).find? p).map f := fun l => by
    rw [List.find?_cons, List.find?_cons, hp]
    split
    · rw [Option.map_some, Option.map_some, hf]
    · rfl
  induction m with
  | nil => exact hhead []
  | cons e m ih =>
    obtain ⟨j, v⟩ := e
    rw [tput, tput]
    split
    · exact hhead _
    · split
      · exact hhead _
      · rw [List.find?_cons, List.find?_cons]
        split
        · rfl
        · exact ih

/-- What a move says of where its page is served. -/
def Move.placed (m : Move) (pa : Nat) : Nat :=
  if m.rekey.isNone && bitAt m.moved (pa / 32 % 2048) then m.dst * 65536 + pa % 65536 else pa

theorem place_eq (s : State) (pa : Nat) : s.place pa = ((s.moveOf (pa / 65536)).map fun e => e.2.placed pa).getD pa := by
  unfold State.place
  cases s.moveOf (pa / 65536) <;> rfl

/-- A move that goes on past its copy serves its page as before. -/
theorem place_setMove {s t : State} {ms : Tab Move} {k : Nat} {m m' : Move} (hs : s.pme.moves = tput ms k m) (ht : t.pme.moves = tput ms k m')
    (hsrc : m'.src = m.src) (hst : m.st ≠ .cutting) (hst' : m'.st ≠ .cutting) (hplaced : m'.placed = m.placed) (pa : Nat) :
    t.place pa = s.place pa := by
  rw [place_eq, place_eq, State.moveOf, State.moveOf, hs, ht]
  refine congrArg (Option.getD · pa) (find?_tput_alike ?_ ?_ ms)
  · dsimp only
    rw [hsrc, bne_iff_ne.mpr hst, bne_iff_ne.mpr hst']
  · exact congrFun hplaced pa

/-- A page is served at its address while no sector of it has moved. -/
theorem place_unmoved {s : State} (h : ∀ e ∈ s.pme.moves, lowestBit e.2.moved = none) (pa : Nat) : s.place pa = pa := by
  rw [place_eq]
  cases hm : s.moveOf (pa / 65536) with
  | none => rfl
  | some e =>
    have hnone := List.find?_eq_none.mp (h e (List.mem_of_find?_eq_some hm)) (pa / 32 % 2048) (List.mem_range.mpr (Nat.mod_lt _ (by decide)))
    change e.2.placed pa = pa
    unfold Move.placed
    rw [Bool.eq_false_iff.mpr hnone, Bool.and_false]
    rfl

/-! CUTTING ends, and copies that are late (R160). -/

section
variable {s : State} {k : Nat} {m : Move} (hm : tfind s.pme.moves k = some m)
include hm

theorem completes_moveCutComplete (hst : m.st = .cutting) (hdone : s.invalDone m.inv = true) :
    Completes (.moveCutComplete k) s fun t => t.waves = s.waves ∧ SameMemory s t
      ∧ tfind t.pme.moves k = some { m with st := .copying, pos := 0, t := s.t7 } := by
  have hexec : exec (.moveCutComplete k) s = .next (s.setMove k { m with st := .copying, pos := 0, t := s.t7 }) := by
    change execMoveCutComplete k s = _
    unfold execMoveCutComplete
    rw [hm]
    dsimp only
    rw [if_pos ⟨hst, hdone⟩]
  exact ⟨_, hexec, rfl, ⟨fun _ => rfl, fun _ _ _ => rfl⟩, tfind_setMove ..⟩

theorem completes_moveSectorCopy_late (hst : m.st = .copying) (hpos : m.pos < 2048) (hlate : m.late s.t7 = true) :
    Completes (.moveSectorCopy k false) s fun t => t.waves = s.waves ∧ SameMemory s t
      ∧ tfind t.pme.moves k = some { m with st := .aborting } := by
  have hexec : exec (.moveSectorCopy k false) s = .next (s.setMove k { m with st := .aborting }) := by
    change execMoveSectorCopy k false s = _
    unfold execMoveSectorCopy
    rw [hm]
    dsimp only
    rw [if_neg (not_or.mpr ⟨not_not_intro hst, Nat.not_le.mpr hpos⟩), if_pos hlate]
  exact ⟨_, hexec, rfl, ⟨fun _ => rfl, fun _ _ _ => rfl⟩, tfind_setMove ..⟩

theorem completes_moveCopyTimeout_late (hst : m.st = .copying) (hlate : m.t + 14000 < s.t7) (hdown : s.frameDown m.dst = false) :
    Completes (.moveCopyTimeout k false) s fun t => t.waves = s.waves ∧ SameMemory s t
      ∧ tfind t.pme.moves k = some { m with st := .aborting, dstBad := false } := by
  have hexec : exec (.moveCopyTimeout k false) s = .next (s.setMove k { m with st := .aborting, dstBad := false }) := by
    change execMoveCopyTimeout k false s = _
    unfold execMoveCopyTimeout
    rw [hm]
    dsimp only
    rw [hdown, Bool.and_false, Bool.or_self, if_pos ⟨hst, .inr (decide_eq_true hlate)⟩]
  exact ⟨_, hexec, rfl, ⟨fun _ => rfl, fun _ _ _ => rfl⟩, tfind_setMove ..⟩

theorem completes_moveCopyTimeout_failed (hst : m.st = .copying ∨ m.st = .aborting) :
    Completes (.moveCopyTimeout k true) s fun t => t.waves = s.waves ∧ SameMemory s t
      ∧ tfind t.pme.moves k = some { m with st := .aborting, dstBad := true } := by
  have hexec : exec (.moveCopyTimeout k true) s = .next (s.setMove k { m with st := .aborting, dstBad := true }) := by
    change execMoveCopyTimeout k true s = _
    unfold execMoveCopyTimeout
    rw [hm]
    dsimp only
    rw [Bool.true_or]
    rcases hst with hst | hst
    · rw [if_pos ⟨hst, .inl rfl⟩]
    · rw [if_neg fun h => MoveSt.noConfusion (hst.symm.trans h.1), if_pos ⟨hst, rfl⟩, ← hst]
  exact ⟨_, hexec, rfl, ⟨fun _ => rfl, fun _ _ _ => rfl⟩, tfind_setMove ..⟩

end

/-! A sector is copied (R160, R161). -/

/-- A move once the sector at its position has been copied; one that stands poisoned at D is marked. -/
def Move.copied (m : Move) (marked : Bool) (now : Nat) : Move :=
  { (if marked then m.poison m.pos else m) with pos := m.pos + 1, moved := m.moved + 2 ^ m.pos, t := now }

/-- What the engine reads of a source, and the state in which it has read it. -/
def State.sourceSector (s : State) (m : Move) (fails : Bool) : Option (List Byte) × State :=
  let src := (m.src * 2048 + m.pos) * 32
  if fails || s.frameDown m.src then (none, s.noteStop (s.ownerCtx src) src 0x40) else s.engineRead src m.keyS

theorem accounted_sourceSector (s : State) (m : Move) (fails : Bool) : Accounted s (s.sourceSector m fails).2 := by
  unfold State.sourceSector
  dsimp only
  split
  · exact accounted_noteStop s (s.ownerCtx ((m.src * 2048 + m.pos) * 32)) ((m.src * 2048 + m.pos) * 32) 0x40
  · exact accounted_engineRead ..

/-- The state in which what was read has been written to D. -/
def State.sectorCopied (s : State) (m : Move) (fails : Bool) : State :=
  (s.sourceSector m fails).2.engineWrite ((m.dst * 2048 + m.pos) * 32) m.keyD ((s.sourceSector m fails).1.getD []) (s.sourceSector m fails).1.isNone

theorem contains_poison (m : Move) (j : Nat) : (m.poison j).poisoned.contains j = true := by
  unfold Move.poison
  dsimp only
  split
  · assumption
  · simp

/-- The sector that an engine writes, and its bytes. -/
theorem sectorCopied_spec (s : State) (m : Move) (fails : Bool) :
    let dst := (m.dst * 2048 + m.pos) * 32
    EngineWrote s dst ((s.sourceSector m fails).1.getD []) (s.sectorCopied m fails)
      ∧ ((s.sourceSector m fails).1 = none → (s.sectorCopied m fails).phys.poison.contains (s.cell dst / 32) = true) := by
  intro dst
  have hacc := accounted_sourceSector s m fails
  obtain ⟨hwrote, hpoison⟩ := engineWrite_spec (s.sourceSector m fails).2 (pa := dst) (by omega) m.keyD ((s.sourceSector m fails).1.getD [])
    (s.sourceSector m fails).1.isNone
  rw [hacc.memoryOnly.cell] at hpoison
  exact ⟨hacc.sameContents.engineWrote hacc.memoryOnly hwrote, fun h => hpoison (by rw [h]; rfl)⟩

/-- A sector may be copied now (R158, R160). -/
structure Copies (s : State) (m : Move) : Prop where
  st : m.st = .copying
  pos : m.pos < 2048
  rekey : m.rekey = none
  late : m.late s.t7 = false
  up : s.frameDown m.dst = false
  src : s.canServe ((m.src * 2048 + m.pos) * 32) = true
  dst : s.canServe ((m.dst * 2048 + m.pos) * 32) = true
  srcTurn : s.engineTurn (s.ownerCtx ((m.src * 2048 + m.pos) * 32)) (s.groupOf ((m.src * 2048 + m.pos) * 32)) = true
  dstTurn : s.engineTurn (s.ownerCtx ((m.src * 2048 + m.pos) * 32)) (s.groupOf ((m.dst * 2048 + m.pos) * 32)) = true

section
variable {s : State} {k : Nat} {m : Move} (hm : tfind s.pme.moves k = some m) (hc : Copies s m)
include hm hc

theorem exec_moveSectorCopy (fails : Bool) :
    exec (.moveSectorCopy k fails) s
      = .next (let m1 := m.copied ((s.sourceSector m fails).1.isNone && !s.phys.poison.contains (s.cell ((m.src * 2048 + m.pos) * 32) / 32)) s.t7
        if m.pos + 1 < 2048 then (s.sectorCopied m fails).setMove k m1 else ((s.sectorCopied m fails).setMove k m1).commitMove k m1) := by
  obtain ⟨hst, hpos, hrekey, hlate, hup, hsrc, hdst, hturn, hturn'⟩ := hc
  change execMoveSectorCopy k fails s = _
  unfold execMoveSectorCopy
  rw [hm]
  dsimp only
  have hgo : ¬((m.rekey.isNone = true ∧ s.frameDown m.dst = true) ∨ (!s.canServe ((m.src * 2048 + m.pos) * 32)) = true
      ∨ (!s.canServe ((m.dst * 2048 + m.pos) * 32)) = true
      ∨ (!s.engineTurn (s.ownerCtx ((m.src * 2048 + m.pos) * 32)) (s.groupOf ((m.src * 2048 + m.pos) * 32))) = true
      ∨ (!s.engineTurn (s.ownerCtx ((m.src * 2048 + m.pos) * 32)) (s.groupOf ((m.dst * 2048 + m.pos) * 32))) = true) := by
    rw [hup, hsrc, hdst, hturn, hturn']
    simp
  rw [if_neg (not_or.mpr ⟨not_not_intro hst, Nat.not_le.mpr hpos⟩), if_neg (hlate ▸ Bool.false_ne_true), if_neg hgo, hrekey]
  rfl

/-- A source that is read stands at D, byte by byte. -/
theorem completes_moveSectorCopy_read (hpos : m.pos < 2047) (hup : s.frameDown m.src = false)
    (hpoison : s.phys.poison.contains (s.cell ((m.src * 2048 + m.pos) * 32) / 32) = false)
    (hseal : s.phys.zero (s.cell ((m.src * 2048 + m.pos) * 32) / 32) = true
      ∨ s.sealAt ((m.src * 2048 + m.pos) * 32) = m.keyS + sealPlace ((m.src * 2048 + m.pos) * 32)) :
    Completes (.moveSectorCopy k false) s fun t => t.waves = s.waves
      ∧ (∀ o, o < 32 → t.phys.byte (s.cell ((m.dst * 2048 + m.pos) * 32) + o) = s.phys.byte (s.cell ((m.src * 2048 + m.pos) * 32) + o))
      ∧ (∀ pa, pa / 32 ≠ s.cell ((m.dst * 2048 + m.pos) * 32) / 32 → t.phys.byte pa = s.phys.byte pa)
      ∧ tfind t.pme.moves k = some { m with pos := m.pos + 1, moved := m.moved + 2 ^ m.pos, t := s.t7 } := by
  have hread : s.sourceSector m false = s.engineRead ((m.src * 2048 + m.pos) * 32) m.keyS := by
    unfold State.sourceSector
    rw [hup]
    rfl
  have hsome := engineRead_passes hpoison hseal
  rw [← hread] at hsome
  obtain ⟨-, halign⟩ := cell_sector s (m.src * 2048 + m.pos) (o := 0) (by omega)
  obtain ⟨⟨hrest, -, hhere, helse⟩, -⟩ := sectorCopied_spec s m false
  have hexec := exec_moveSectorCopy hm hc false
  rw [hsome] at hexec hhere
  rw [if_pos (by omega)] at hexec
  refine ⟨_, hexec, hrest.waves, fun o ho => (hhere o ho).trans ?_, helse, tfind_setMove ..⟩
  rw [Option.getD_some, List.getD_eq_getElem?_getD, List.getElem?_map, List.getElem?_range ho]
  exact congrArg s.phys.byte (by omega)

/-- A source that cannot be read stands poisoned at D. -/
theorem completes_moveSectorCopy_failed (hpos : m.pos < 2047) :
    Completes (.moveSectorCopy k true) s fun t => t.waves = s.waves
      ∧ t.phys.poison.contains (s.cell ((m.dst * 2048 + m.pos) * 32) / 32) = true
      ∧ (∀ pa, pa / 32 ≠ s.cell ((m.dst * 2048 + m.pos) * 32) / 32 → t.phys.byte pa = s.phys.byte pa)
      ∧ ∃ q, tfind t.pme.moves k = some q ∧ q.st = .copying ∧ q.pos = m.pos + 1 ∧ q.moved = m.moved + 2 ^ m.pos
        ∧ (s.phys.poison.contains (s.cell ((m.src * 2048 + m.pos) * 32) / 32) = false → q.poisoned.contains m.pos = true) := by
  have hnone : (s.sourceSector m true).1 = none := rfl
  obtain ⟨⟨hrest, -, -, helse⟩, hpoison⟩ := sectorCopied_spec s m true
  have hexec := exec_moveSectorCopy hm hc true
  rw [hnone] at hexec
  rw [if_pos (by omega)] at hexec
  refine ⟨_, hexec, hrest.waves, hpoison hnone, helse, _, tfind_setMove .., ?_, rfl, rfl, fun hclean => ?_⟩
  · unfold Move.copied
    dsimp only
    split
    · exact hc.st
    · exact hc.st
  · unfold Move.copied
    rw [hclean]
    exact contains_poison m m.pos

end

/-! The last sector: the move commits, or its entry has changed (R160). -/

theorem grantOf_grantFrame (s : State) (ctx frame : Nat) : (s.grantFrame ctx frame).grantOf frame = some ctx := by
  unfold State.grantFrame State.grantOf
  rw [List.find?_cons_of_pos (by simp)]
  rfl

/-- An entry that still stands as CUTTING left it is rewritten, its page is invalidated, and D is granted. -/
theorem commitMove_commits {s : State} {ms : Tab Move} {k pa : Nat} {m : Move} (hms : s.pme.moves = tput ms k m) (hst : m.st ≠ .cutting)
    (hrekey : m.rekey = none) (hpte : s.pteAt m.ctx m.vpn = some (pa, m.pte)) :
    SameRegs s (s.commitMove k m) ∧ (s.commitMove k m).physNat pa 8 = (pteMove m.pte m.dst m.tier).toNat
      ∧ (s.commitMove k m).grantOf m.dst = some ((s.grantOf m.src).getD m.ctx)
      ∧ ∃ i, (s.commitMove k m).invals = s.invals ++ [i] ∧ i.ctx = m.ctx ∧ i.vpn = m.vpn ∧ i.count = 1
        ∧ tfind (s.commitMove k m).pme.moves k = some { m with st := .committing, inv := i.id } := by
  let w := s.walked m.ctx (BitVec.ofNat 64 (m.vpn * 65536))
  let x := w.pteWrite m.ctx pa (pteMove m.pte m.dst m.tier)
  let y := (x.startInval m.ctx m.vpn 1 false none []).grantFrame ((s.grantOf m.src).getD m.ctx) m.dst
  have hcommit : s.commitMove k m = y.setMove k { m with st := .committing, inv := s.nextId } := by
    unfold State.commitMove
    rw [hpte]
    dsimp only
    rw [if_pos rfl, hrekey]
    rfl
  have hw : Accounted s w := accounted_walked ..
  obtain ⟨hx, hentry, -⟩ : MemoryOnly w x ∧ HoldsEntry w pa (pteMove m.pte m.dst m.tier) x.phys ∧ x.phys.grants = w.phys.grants :=
    pteWrite_spec w m.ctx (pteAt_aligned hpte) (pteMove m.pte m.dst m.tier)
  have hsx : MemoryOnly s x := hw.memoryOnly.trans hx
  rw [hcommit]
  clear_value x w
  obtain ⟨i, hinvals, hictx, hivpn, hicount, hiid⟩ := invals_startInval x m.ctx m.vpn 1 false none []
  have hid : i.id = s.nextId := hiid.trans hsx.nextId
  have hmoves : (y.setMove k { m with st := .committing, inv := s.nextId }).pme.moves = tput ms k { m with st := .committing, inv := s.nextId } := by
    change tput x.pme.moves k _ = _
    rw [hsx.pme, hms, tput_tput]
  have hplace := place_setMove hms hmoves rfl hst MoveSt.noConfusion rfl
  have hcell : (y.setMove k { m with st := .committing, inv := s.nextId }).cell = s.cell := hsx.cell
  have hregs : SameRegs x (y.setMove k { m with st := .committing, inv := s.nextId }) := sameRegs_startInval x m.ctx m.vpn 1 false none []
  have hentry' : HoldsEntry w pa (pteMove m.pte m.dst m.tier) (y.setMove k { m with st := .committing, inv := s.nextId }).phys := hentry
  refine ⟨hsx.sameRegs.trans hregs, hentry'.physNat fun j _ => ?_, grantOf_grantFrame .., i, ?_, hictx, hivpn, hicount, ?_⟩
  · rw [State.spot, hcell, hplace, hw.memoryOnly.spot, State.spot]
  · exact hinvals.trans (by rw [hsx.invals])
  · rw [hid]
    exact tfind_setMove ..

/-- An entry that has changed aborts the move. -/
theorem commitMove_cancels {s : State} {k pa : Nat} {m : Move} {e : DWord} (hpte : s.pteAt m.ctx m.vpn = some (pa, e)) (he : e ≠ m.pte) :
    SameRegs s (s.commitMove k m) ∧ (s.commitMove k m).invals = s.invals
      ∧ tfind (s.commitMove k m).pme.moves k = some { m with st := .aborting } := by
  have hreport := memoryOnly_report s m.ctx (r := s.plainRec 0x52 (BitVec.ofNat 64 (m.vpn * 65536)) 0) 0 Nat.one_ne_zero
  have hcommit : s.commitMove k m
      = (s.report m.ctx (s.plainRec 0x52 (BitVec.ofNat 64 (m.vpn * 65536)) 0) 0).setMove k { m with st := .aborting } := by
    unfold State.commitMove
    rw [hpte]
    dsimp only
    rw [if_neg he]
    rfl
  rw [hcommit]
  exact ⟨hreport.sameRegs, hreport.invals, tfind_setMove ..⟩

end Sys2Proof.Machine
end

section
/-! PROOFS. A move ends (R160): its last sector, the way back of one that aborts, the release of its source; and what of pages that move is
settled here. -/

namespace Sys2Proof.Machine

/- One proof at a time: many at once cost a thread, and its stack, each. -/
set_option Elab.async false

/-! The last sector. -/

theorem copied_last (m : Move) (now : Nat) (hpos : m.pos = 2047) :
    m.copied false now = { m with pos := 2048, moved := m.moved + 2 ^ 2047, t := now } := by
  unfold Move.copied
  rw [hpos]
  rfl

theorem sourceSector_up {s : State} {m : Move} (hup : s.frameDown m.src = false) :
    s.sourceSector m false = s.engineRead ((m.src * 2048 + m.pos) * 32) m.keyS := by
  unfold State.sourceSector
  rw [hup]
  rfl

section
variable {s : State} {k : Nat} {m : Move} (hm : tfind s.pme.moves k = some m) (hc : Copies s m) (hpos : m.pos = 2047)
  (hread : (s.sourceSector m false).1.isSome = true)
include hm hc hpos hread

theorem exec_moveSectorCopy_last :
    exec (.moveSectorCopy k false) s
      = .next (((s.sectorCopied m false).setMove k (m.copied false s.t7)).commitMove k (m.copied false s.t7)) := by
  have hexec := exec_moveSectorCopy hm hc false
  have hsome : (s.sourceSector m false).1.isNone = false := by
    rw [← Option.not_isSome, hread]
    rfl
  rw [hsome, Bool.false_and] at hexec
  rw [hexec]
  dsimp only
  rw [if_neg (by omega)]

/-- With the last sector, an entry that stands as CUTTING left it names D. -/
theorem completes_moveSectorCopy_commits {pa : Nat}
    (hpte : ((s.sectorCopied m false).setMove k (m.copied false s.t7)).pteAt m.ctx m.vpn = some (pa, m.pte)) :
    Completes (.moveSectorCopy k false) s fun t => SameRegs s t ∧ t.physNat pa 8 = (pteMove m.pte m.dst m.tier).toNat
      ∧ t.grantOf m.dst = some ((s.grantOf m.src).getD m.ctx)
      ∧ ∃ i q, t.invals = s.invals ++ [i] ∧ i.ctx = m.ctx ∧ i.vpn = m.vpn ∧ i.count = 1 ∧ tfind t.pme.moves k = some q
        ∧ q = { m.copied false s.t7 with st := .committing, inv := i.id } := by
  obtain ⟨⟨hrest, hgrants, -, -⟩, -⟩ := sectorCopied_spec s m false
  have hregs : SameRegs s ((s.sectorCopied m false).setMove k (m.copied false s.t7)) := hrest.sameRegs
  have hgrant : ((s.sectorCopied m false).setMove k (m.copied false s.t7)).grantOf m.src = s.grantOf m.src := by
    change (List.find? _ (s.sectorCopied m false).phys.grants).map _ = _
    rw [hgrants]
    rfl
  obtain ⟨hregs', hentry, hgranted, i, hinvals, hictx, hivpn, hicount, hq⟩ :=
    commitMove_commits (s := (s.sectorCopied m false).setMove k (m.copied false s.t7)) (m := m.copied false s.t7) rfl
      (fun h => MoveSt.noConfusion (hc.st.symm.trans h)) hc.rekey hpte
  exact ⟨_, exec_moveSectorCopy_last hm hc hpos hread, hregs.trans hregs', hentry, hgranted.trans (congrArg (some <| Option.getD · m.ctx) hgrant),
    i, _, hinvals.trans (congrArg (· ++ [i]) hrest.invals), hictx, hivpn, hicount, hq, rfl⟩

/-- With the last sector, a move whose entry has changed aborts. -/
theorem completes_moveSectorCopy_cancels {pa : Nat} {e : DWord} (he : e ≠ m.pte)
    (hpte : ((s.sectorCopied m false).setMove k (m.copied false s.t7)).pteAt m.ctx m.vpn = some (pa, e)) :
    Completes (.moveSectorCopy k false) s fun t => SameRegs s t ∧ t.invals = s.invals
      ∧ tfind t.pme.moves k = some { m.copied false s.t7 with st := .aborting } := by
  obtain ⟨⟨hrest, -, -, -⟩, -⟩ := sectorCopied_spec s m false
  have hregs : SameRegs s ((s.sectorCopied m false).setMove k (m.copied false s.t7)) := hrest.sameRegs
  obtain ⟨hregs', hinvals, hq⟩ := commitMove_cancels (m := m.copied false s.t7) hpte he
  exact ⟨_, exec_moveSectorCopy_last hm hc hpos hread, hregs.trans hregs', hinvals.trans hrest.invals, hq⟩

end

/-! The way back (R160). -/

/-- A moved map with its lowest bit, and not that bit alone, keeps others. -/
theorem sub_lowestBit_ne_zero {x j : Nat} (hj : lowestBit x = some j) (hmore : x ≠ 2 ^ j) : x - 2 ^ j ≠ 0 := by
  have hodd : x / 2 ^ j % 2 = 1 := beq_iff_eq.mp (List.find?_some hj : bitAt x j = true)
  have hle : 2 ^ j ≤ x := by
    by_contra hlt
    rw [Nat.div_eq_of_lt (Nat.not_le.mp hlt)] at hodd
    cases hodd
  omega

/-- The state in which the engine has copied a sector of D back to S. -/
def State.sectorReturned (s : State) (m : Move) (j : Nat) : State :=
  (s.engineRead ((m.dst * 2048 + j) * 32) m.keyD).2.engineWrite ((m.src * 2048 + j) * 32) m.keyS
    ((s.engineRead ((m.dst * 2048 + j) * 32) m.keyD).1.getD []) (s.engineRead ((m.dst * 2048 + j) * 32) m.keyD).1.isNone

theorem sectorReturned_spec (s : State) (m : Move) (j : Nat) :
    EngineWrote s ((m.src * 2048 + j) * 32) ((s.engineRead ((m.dst * 2048 + j) * 32) m.keyD).1.getD []) (s.sectorReturned m j) := by
  have hacc := accounted_engineRead s ((m.dst * 2048 + j) * 32) m.keyD
  obtain ⟨hwrote, -⟩ := engineWrite_spec (s.engineRead ((m.dst * 2048 + j) * 32) m.keyD).2 (pa := (m.src * 2048 + j) * 32) (by omega) m.keyS
    ((s.engineRead ((m.dst * 2048 + j) * 32) m.keyD).1.getD []) (s.engineRead ((m.dst * 2048 + j) * 32) m.keyD).1.isNone
  exact hacc.sameContents.engineWrote hacc.memoryOnly hwrote

section
variable {s : State} {k : Nat} {m : Move} (hm : tfind s.pme.moves k = some m) (hst : m.st = .aborting)
include hm hst

theorem exec_moveCopyBack_sector {j : Nat} (hj : lowestBit m.moved = some j) (hmore : m.moved ≠ 2 ^ j) (hup : s.frameDown m.dst = false) :
    exec (.moveCopyBack k true) s = .next ((s.sectorReturned m j).setMove k { m with moved := m.moved - 2 ^ j }) := by
  change execMoveCopyBack k true s = _
  unfold execMoveCopyBack
  rw [hm]
  dsimp only
  rw [if_neg (not_not_intro hst), hj]
  dsimp only
  rw [hup, Bool.not_false, Bool.true_and, if_neg]
  · rfl
  · exact sub_lowestBit_ne_zero hj hmore

/-- A moved sector is copied back while others are still to follow. -/
theorem completes_moveCopyBack_sector {j : Nat} (hj : lowestBit m.moved = some j) (hmore : m.moved ≠ 2 ^ j) (hup : s.frameDown m.dst = false)
    (hpoison : s.phys.poison.contains (s.cell ((m.dst * 2048 + j) * 32) / 32) = false)
    (hseal : s.phys.zero (s.cell ((m.dst * 2048 + j) * 32) / 32) = true
      ∨ s.sealAt ((m.dst * 2048 + j) * 32) = m.keyD + sealPlace ((m.dst * 2048 + j) * 32)) :
    Completes (.moveCopyBack k true) s fun t => t.waves = s.waves
      ∧ (∀ o, o < 32 → t.phys.byte (s.cell ((m.src * 2048 + j) * 32) + o) = s.phys.byte (s.cell ((m.dst * 2048 + j) * 32) + o))
      ∧ tfind t.pme.moves k = some { m with moved := m.moved - 2 ^ j } := by
  obtain ⟨hrest, -, hhere, -⟩ := sectorReturned_spec s m j
  obtain ⟨-, halign⟩ := cell_sector s (m.dst * 2048 + j) (o := 0) (by omega)
  refine ⟨_, exec_moveCopyBack_sector hm hst hj hmore hup, (waves_setMove ..).trans hrest.waves, fun o ho => ?_, tfind_setMove ..⟩
  rw [phys_setMove, hhere o ho, engineRead_passes hpoison hseal, Option.getD_some, List.getD_eq_getElem?_getD, List.getElem?_map,
    List.getElem?_range ho]
  exact congrArg s.phys.byte (by omega)

end

/-! An abort ends (R160). -/

theorem Accounted.fqFull {s t : State} (h : Accounted s t) (n : Nat) : (t.ctx n).fqFull = (s.ctx n).fqFull := by
  obtain ⟨p, hp⟩ := h.ctx n
  rw [hp]
  rfl

theorem Written.ctx {s t : State} (h : Written s t) : t.ctx = s.ctx := by
  obtain ⟨_, _, _, rfl⟩ := h
  rfl

theorem written_physWrite (s : State) (pa key : Nat) (bs : List Byte) : Written s (s.physWrite pa key bs) :=
  .foldl (fun _ _ => written_sectorWrite ..) _ s

theorem fqFull_pteWrite (s : State) (ctx pa : Nat) (e : DWord) (n : Nat) : ((s.pteWrite ctx pa e).ctx n).fqFull = (s.ctx n).fqFull := by
  unfold State.pteWrite
  rw [(accounted_account ..).fqFull, (written_physWrite ..).ctx]

/-- A full fault queue counts a report and writes nothing (R318). -/
theorem phys_report_full {s : State} {n : Nat} {r : FRec} (wid : Nat) (hr : r.kind ≠ 0) (hfull : (s.ctx n).fqFull = true) :
    (s.report n r wid).phys = s.phys := by
  unfold State.report
  dsimp only
  rw [hfull, Bool.true_or, if_pos rfl, if_neg hr]
  rfl

theorem memoryOnly_abortReport (s : State) (m : Move) : MemoryOnly s (s.abortReport m) := memoryOnly_report s m.ctx 0 Nat.one_ne_zero

theorem phys_abortReport_full {s : State} {m : Move} (hfull : (s.ctx m.ctx).fqFull = true) : (s.abortReport m).phys = s.phys :=
  phys_report_full 0 Nat.one_ne_zero hfull

theorem tfind_terase_self {α : Type} (m : Tab α) (k : Nat) : tfind (terase m k) k = none := by
  rw [tfind_terase, if_pos rfl]

/-- The state in which MOVING has been cleared in the entry of a page that an aborting move leaves. -/
def State.movingCleared (s : State) (m : Move) (pa : Nat) (e : DWord) : State :=
  (s.walked m.ctx (BitVec.ofNat 64 (m.vpn * 65536))).pteWrite m.ctx pa (e &&& ~~~pteMoving)

/-- The state in which the page of an aborting move has been invalidated, and the abort reported. -/
def State.abortTold (s : State) (m : Move) (pa : Nat) (e : DWord) : State :=
  ((s.movingCleared m pa e).startInval m.ctx m.vpn 1 false none []).abortReport m

/-- The state in which a move is no longer listed, and a frame of its has been cleared. -/
def State.moveCleared (s : State) (k ctx frame : Nat) : State := (s.modPme fun p => { p with moves := terase p.moves k }).clearFrame ctx frame

/-- What the clear of a frame leaves once its move is no longer listed. -/
theorem moveCleared_spec (s : State) (k ctx frame : Nat) :
    SameRegs s (s.moveCleared k ctx frame) ∧ (s.moveCleared k ctx frame).waves = s.waves
      ∧ (s.moveCleared k ctx frame).pme = { s.pme with moves := terase s.pme.moves k } ∧ (s.moveCleared k ctx frame).windows = s.windows
      ∧ (s.moveCleared k ctx frame).invals = s.invals ∧ (s.moveCleared k ctx frame).cell = s.cell
      ∧ (∀ x, x / 65536 = frame → (s.moveCleared k ctx frame).phys.byte (s.cell x) = 0)
      ∧ ∀ a, a / 65536 ≠ s.cell (frame * 65536) / 65536 → runByte s.phys.saved a = none →
        (s.moveCleared k ctx frame).phys.byte a = s.phys.byte a := by
  let u := s.modPme fun p => { p with moves := terase p.moves k }
  have hsu : SameRegs s u := fun _ _ => rfl
  obtain ⟨hrest, -, hzero, helse⟩ := clearFrame_spec u ctx frame
  refine ⟨hsu.trans hrest.sameRegs, hrest.waves, hrest.pme, hrest.windows, hrest.invals, hrest.cell, fun x hx => hzero _ ?_, helse⟩
  obtain ⟨hat, halign⟩ := cell_page s frame (o := x % 65536) (Nat.mod_lt _ (by decide))
  rw [show frame * 65536 + x % 65536 = x by omega] at hat
  change s.cell x / 65536 = s.cell (frame * 65536) / 65536
  omega

/-- The frame of a move that has ended is left out of a pool that does not exist, and no window has a page to re-key. -/
theorem poolFrame_retryRekeys {s : State} (hsize : ∀ i, s.pme.size i = 0) (hwindows : s.windows = []) (frame : Nat) :
    ∃ amber, (s.poolFrame frame).retryRekeys = { s with amber := amber } := by
  obtain ⟨amber, h⟩ := poolFrame_without hsize frame
  exact ⟨amber, by rw [h]; exact retryRekeys_without hwindows⟩

section
variable {s : State} {k pa : Nat} {m : Move} {e : DWord} (hpte : s.pteAt m.ctx m.vpn = some (pa, e))
include hpte

theorem movingCleared_spec :
    MemoryOnly s (s.movingCleared m pa e) ∧ HoldsEntry s pa (e &&& ~~~pteMoving) (s.movingCleared m pa e).phys
      ∧ ((s.movingCleared m pa e).ctx m.ctx).fqFull = (s.ctx m.ctx).fqFull := by
  have hw : Accounted s (s.walked m.ctx (BitVec.ofNat 64 (m.vpn * 65536))) := accounted_walked ..
  obtain ⟨hx, hentry, -⟩ := pteWrite_spec (s.walked m.ctx (BitVec.ofNat 64 (m.vpn * 65536))) m.ctx (pteAt_aligned hpte) (e &&& ~~~pteMoving)
  refine ⟨hw.memoryOnly.trans hx, fun j hj => ?_, (fqFull_pteWrite ..).trans (hw.fqFull m.ctx)⟩
  rw [← hw.memoryOnly.spot]
  exact hentry j hj

/-- What an abort has done before it gives up D. -/
theorem abortTold_spec :
    SameRegs s (s.abortTold m pa e) ∧ (s.abortTold m pa e).pme = s.pme ∧ (s.abortTold m pa e).windows = s.windows
      ∧ (s.abortTold m pa e).cell = s.cell
      ∧ (∃ i, (s.abortTold m pa e).invals = s.invals ++ [i] ∧ i.ctx = m.ctx ∧ i.vpn = m.vpn ∧ i.count = 1)
      ∧ ((s.ctx m.ctx).fqFull = true → HoldsEntry s pa (e &&& ~~~pteMoving) (s.abortTold m pa e).phys) := by
  obtain ⟨hx, hentry, hfq⟩ := movingCleared_spec hpte
  unfold State.abortTold
  generalize s.movingCleared m pa e = x at hx hentry hfq
  obtain ⟨i, hinvals, hictx, hivpn, hicount, -⟩ := invals_startInval x m.ctx m.vpn 1 false none []
  have hregs : SameRegs x (x.startInval m.ctx m.vpn 1 false none []) := sameRegs_startInval x m.ctx m.vpn 1 false none []
  have hz := memoryOnly_abortReport (x.startInval m.ctx m.vpn 1 false none []) m
  refine ⟨(hx.sameRegs.trans hregs).trans hz.sameRegs, hz.pme.trans ((pme_startInval ..).trans hx.pme),
    hz.windows.trans ((windows_startInval ..).trans hx.windows), hz.cell.trans ((cell_startInval ..).trans hx.cell),
    ⟨i, hz.invals.trans (hinvals.trans (by rw [hx.invals])), hictx, hivpn, hicount⟩, fun hfull => ?_⟩
  have hfull' : ((x.startInval m.ctx m.vpn 1 false none []).ctx m.ctx).fqFull = true := by rw [ctx_startInval, hfq, hfull]
  rw [phys_abortReport_full hfull', phys_startInval]
  exact hentry

/-- With no moved sector left, MOVING is cleared with FRAME = S, the page is invalidated, and D is cleared. -/
theorem endAbort_spec (hrekey : m.rekey = none) (hbad : m.dstBad = false) (hup : s.frameDown m.dst = false)
    (hsrc : (e.extractLsb' 16 36).toNat = m.src) (hwindows : s.windows = []) (hsize : ∀ i, s.pme.size i = 0) :
    SameRegs s (s.endAbort k m) ∧ tfind (s.endAbort k m).pme.moves k = none
      ∧ (∃ i, (s.endAbort k m).invals = s.invals ++ [i] ∧ i.ctx = m.ctx ∧ i.vpn = m.vpn ∧ i.count = 1)
      ∧ (∀ x, x / 65536 = m.dst → (s.endAbort k m).phys.byte (s.cell x) = 0)
      ∧ ((s.ctx m.ctx).fqFull = true → lowestBit m.moved = none → s.pme.moves = [(k, m)] →
        s.cell pa / 65536 ≠ s.cell (m.dst * 65536) / 65536 → (s.endAbort k m).physNat pa 8 = (e &&& ~~~pteMoving).toNat) := by
  have hend : s.endAbort k m
      = (((s.abortTold m pa e).moveCleared k ((s.abortTold m pa e).ownerCtx (m.dst * 65536)) m.dst).poolFrame m.dst).retryRekeys := by
    unfold State.endAbort State.moveCleared State.abortTold State.movingCleared
    rw [hpte]
    dsimp only
    rw [if_pos hsrc, hrekey, hbad, hup, Option.isNone_none, if_pos rfl, Option.isSome_none, Bool.or_self, Bool.or_self,
      if_neg Bool.false_ne_true]
  obtain ⟨hregs, hpme, hwin, hcell, ⟨i, hinvals, hi⟩, hentry⟩ := abortTold_spec hpte
  generalize s.abortTold m pa e = z at hend hregs hpme hwin hcell hinvals hentry
  obtain ⟨hregs', -, hpme', hwin', hinvals', hcell', hzero, helse⟩ := moveCleared_spec z k (z.ownerCtx (m.dst * 65536)) m.dst
  generalize z.moveCleared k (z.ownerCtx (m.dst * 65536)) m.dst = v at hend hregs' hpme' hwin' hinvals' hcell' hzero helse
  rw [hpme] at hpme'
  rw [hcell] at hcell' hzero helse
  obtain ⟨amber, hlast⟩ := poolFrame_retryRekeys (s := v) (by rw [hpme']; exact hsize) (hwin'.trans (hwin.trans hwindows)) m.dst
  rw [hend, hlast]
  refine ⟨hregs.trans hregs', ?_, ⟨i, hinvals'.trans hinvals, hi⟩, hzero, fun hfull hnone hmoves hapart => physNat_of_bytes fun j hj => ?_⟩
  · change tfind v.pme.moves k = none
    rw [hpme']
    exact tfind_terase_self ..
  · have hs : ∀ e ∈ s.pme.moves, lowestBit e.2.moved = none := by
      rw [hmoves]
      intro e he
      rw [List.mem_singleton.mp he]
      exact hnone
    have hgone : v.pme.moves = [] := by
      rw [hpme', hmoves]
      simp [terase]
    have hv : ∀ e ∈ ({ v with amber := amber } : State).pme.moves, lowestBit e.2.moved = none := by
      intro e he
      change e ∈ v.pme.moves at he
      rw [hgone] at he
      cases he
    have halign := pteAt_aligned hpte
    obtain ⟨hbyte, hrun⟩ := hentry hfull j hj
    have hpage := cell_page s (pa / 65536) (o := pa % 65536) (Nat.mod_lt _ (by decide))
    have hpage' := cell_page s (pa / 65536) (o := pa % 65536 + j) (by omega)
    rw [show pa / 65536 * 65536 + pa % 65536 = pa by omega] at hpage
    rw [show pa / 65536 * 65536 + (pa % 65536 + j) = pa + j by omega] at hpage'
    rw [State.spot, place_unmoved hs] at hbyte hrun
    rw [State.spot, place_unmoved hv]
    change v.phys.byte (v.cell (pa + j)) = _
    rw [hcell', helse _ (by omega) hrun, hbyte]

end

theorem exec_moveCopyBack_ends {s : State} {k : Nat} {m : Move} (hm : tfind s.pme.moves k = some m) (hst : m.st = .aborting)
    (hnone : lowestBit m.moved = none) (ok : Bool) : exec (.moveCopyBack k ok) s = .next (s.endAbort k m) := by
  change execMoveCopyBack k ok s = _
  unfold execMoveCopyBack
  rw [hm]
  dsimp only
  rw [if_neg (not_not_intro hst), hnone]

/-! The source of a move is released (R160). -/

theorem grantOf_ungrantFrame (s : State) (frame : Nat) : (s.ungrantFrame frame).grantOf frame = none := by
  unfold State.grantOf State.ungrantFrame
  rw [Option.map_eq_none_iff, List.find?_eq_none]
  intro g hg
  obtain ⟨r, -, hgr⟩ := List.mem_flatMap.mp hg
  rw [Bool.and_eq_true, decide_eq_true_eq, decide_eq_true_eq]
  split at hgr
  · rcases List.mem_cons.mp (List.mem_of_mem_filter hgr) with rfl | hgr
    · dsimp only
      omega
    · rw [List.mem_singleton.mp hgr]
      dsimp only
      omega
  · next hout =>
    rw [List.mem_singleton.mp hgr]
    exact hout

/-- Once nothing carries S, it is cleared and no longer granted. -/
theorem completes_moveSourceRelease {s : State} {k : Nat} {m : Move} (hm : tfind s.pme.moves k = some m) (hst : m.st = .committing)
    (hdone : s.invalDone m.inv = true) (hrekey : m.rekey = none) (hfree : s.holdsFrame m.src = false) (hsize : ∀ i, s.pme.size i = 0)
    (hwindows : s.windows = []) :
    Completes (.moveSourceRelease k) s fun t => t.waves = s.waves ∧ tfind t.pme.moves k = none ∧ t.grantOf m.src = none
      ∧ ∀ pa, pa / 65536 = m.src → t.phys.byte (s.cell pa) = 0 := by
  have hexec : exec (.moveSourceRelease k) s
      = .next ((((s.moveCleared k ((s.grantOf m.src).getD m.ctx) m.src).ungrantFrame m.src).poolFrame m.src).retryRekeys) := by
    change execMoveSourceRelease k s = _
    unfold execMoveSourceRelease State.moveCleared
    rw [hm]
    dsimp only
    rw [if_neg (not_or.mpr ⟨not_not_intro hst, by rw [hdone]; exact Bool.false_ne_true⟩), hrekey]
    dsimp only
    rw [if_neg (hfree ▸ Bool.false_ne_true)]
  obtain ⟨-, hwaves, hpme, hwin, -, -, hzero, -⟩ := moveCleared_spec s k ((s.grantOf m.src).getD m.ctx) m.src
  generalize s.moveCleared k ((s.grantOf m.src).getD m.ctx) m.src = v at hexec hwaves hpme hwin hzero
  obtain ⟨amber, hlast⟩ := poolFrame_retryRekeys (s := v.ungrantFrame m.src) (fun i => (congrArg (Pme.size · i) hpme).trans (hsize i))
    (hwin.trans hwindows) m.src
  rw [hlast] at hexec
  refine ⟨_, hexec, hwaves, ?_, grantOf_ungrantFrame v m.src, hzero⟩
  change tfind v.pme.moves k = none
  rw [hpme]
  exact tfind_terase_self ..

/-! What of pages that move is settled. -/

/-- Settles O50, clause by clause: the request, the policy, the copy with its last sector, the way back and the release of the source. -/
theorem pagesMove : Obligations.PagesMove := by
  unfold Obligations.PagesMove
  refine ⟨fun s v c u h => completes_movereq_code h, ?_, fun s v => ⟨_, rfl, rfl⟩,
    fun s hon hevery hwf hnone => completes_policyInterval hon hevery hwf hnone, ?_⟩
  · intro s v t d u n tier vpn htier hctx ⟨pa, hwalk⟩ hpeer hrest hmoves hmax htake
    exact completes_movereq htier hctx hwalk hpeer hrest hmoves hmax (congrArg Prod.fst htake)
  · intro s k m hm at_
    refine ⟨completes_moveCutComplete hm, completes_moveSectorCopy_late hm, ?_, ?_, ?_, fun hst _ hlate hup =>
      completes_moveCopyTimeout_late hm hst hlate hup, fun hst _ => completes_moveCopyTimeout_failed hm hst,
      fun j hst hj hmore hup => completes_moveCopyBack_sector hm hst hj hmore hup,
      fun hst hdone hrekey hfree hsize hwindows => completes_moveSourceRelease hm hst hdone hrekey hfree hsize hwindows⟩
    · intro hst hpos hrekey hlate hup src dst hsrc hdst hturn hturn'
      have hc : Copies s m := ⟨hst, by omega, hrekey, hlate, hup, hsrc, hdst, hturn, hturn'⟩
      exact ⟨fun hsup hpoison hseal => completes_moveSectorCopy_read hm hc hpos hsup hpoison hseal, completes_moveSectorCopy_failed hm hc hpos⟩
    · intro pa e hst hpos hrekey hlate hsup hup src dst hsrc hdst hturn hturn' hread last copied hpte
      have hc : Copies s m := ⟨hst, by omega, hrekey, hlate, hup, hsrc, hdst, hturn, hturn'⟩
      have hsector : s.sourceSector m false = s.engineRead src m.keyS := sourceSector_up hsup
      have hlast : m.copied false s.t7 = last := copied_last m s.t7 hpos
      have hsome : (s.sourceSector m false).1.isSome = true := by rw [hsector, hread]
      have hnone : (s.engineRead src m.keyS).1.isNone = false := by
        rw [← Option.not_isSome, hread]
        rfl
      have hcopied : (s.sectorCopied m false).setMove k (m.copied false s.t7) = copied := by
        rw [State.sectorCopied, hsector, hnone, hlast]
      rw [← hcopied] at hpte
      rw [← hlast]
      refine ⟨fun he => ?_, fun he => completes_moveSectorCopy_cancels hm hc hpos hsome he hpte⟩
      rw [he] at hpte ⊢
      exact completes_moveSectorCopy_commits hm hc hpos hsome hpte
    · intro pa e ok hst hnone hrekey _ hbad hup hpte hsrc hwindows hsize
      obtain ⟨hregs, hgone, hinvals, hzero, hentry⟩ := endAbort_spec hpte hrekey hbad hup hsrc hwindows hsize
      exact ⟨_, exec_moveCopyBack_ends hm hst hnone ok, hregs, hgone, hinvals, hzero, fun hfull hmoves => hentry hfull hnone hmoves⟩

end Sys2Proof.Machine
end
